-- ==== Sys2Proof/Word.lean ====
section
/-! DEFINITION. The word types of the gateway and the plain types that the operands of its commands are made of. -/
namespace Sys2Proof

/-- A 32-bit register word (00_scope.md R2, R9). -/
abbrev Word := BitVec 32
/-- A byte of memory, of a packet or of a frame. -/
abbrev Byte := BitVec 8
/-- A 64-bit word: an accumulator (R82), a tag, an address. -/
abbrev DWord := BitVec 64

/-- A job number (15 R370: 8 jobs). -/
abbrev Job := Fin 8
/-- A compute die CD0 or CD1 (01 Table 1.1). -/
abbrev Die := Fin 2
/-- A line port and its line die, a PCIe port, or a management port. -/
abbrev Port := Fin 2
/-- A PCIe function (15 R370). -/
abbrev Func := Fin 32
/-- A contributor ID (00 Table 0.5). -/
abbrev Contrib := Fin 512
/-- A general core: 32 x die + core; its group is core / 8 (05). -/
abbrev Core := Fin 64
/-- A fabric MAC (09 R230). -/
abbrev Mac := Fin 24
/-- The JOB of a packet: 0 to 7, or 8 for "no job" (15 Table 15.5, HOST_F_NEXTSEQ8). -/
abbrev PktJob := Fin 9

/-- Who makes a register access: a PCIe function, or root firmware (18 R441). -/
inductive Who where
  | func (f : Func)
  | root
  deriving DecidableEq, Repr

/-- The RETH of the first packet of an RDMA WRITE: virtual address, R_Key and message length (04 R96). -/
structure Reth where
  va : DWord
  rkey : Word
  len : Nat
  deriving DecidableEq, Repr

/-- Names one chunk-wave at this gateway: ring-table entry, half, transfer and ring sequence number (07 R182, R184). -/
structure CwId where
  grp : Nat
  half : Nat
  xfer : Nat
  rseq : Word
  deriving DecidableEq, Repr

/-- The content of a SETUP message (07 R175). -/
structure SetupMsg where
  jobtag : Word
  group : Nat
  s : Nat
  pos : Nat
  seedCheck : BitVec 16
  epoch : Word
  digest : List Byte
  deriving DecidableEq, Repr

/-- A ring record as opened (07 Table 7.4), with the JOBTAG of its segment (12 Table 12.1). -/
structure RingRec where
  jobtag : Word
  chan : BitVec 8
  xfer : BitVec 5
  rseq : Word
  epoch : Word
  count : BitVec 11
  tbytes : Word
  deriving DecidableEq, Repr

/-- What the peer of a stream end shows over CTRL (08 R223). -/
structure PeerEnd where
  chan : BitVec 8
  fmt : BitVec 4
  coded : Bool
  deriving DecidableEq, Repr

/-- What a fabric frame is, by its headers (09 R232, R234, R238). -/
inductive FrameKind where
  /-- A RoCEv2 packet: its transport opcode class and operands. -/
  | roce
  /-- An ARP request or an IPv6 Neighbour Solicitation for the given address. -/
  | solicit
  /-- Anything else. -/
  | other
  deriving DecidableEq, Repr

/-- The operation a RoCEv2 packet asks for (09 Table 9.2). -/
inductive RoceOp where
  | send
  | write
  | writeImm
  | read
  | ack
  | nak
  | readResp
  | cnp
  | unsupported
  deriving DecidableEq, Repr

/-- A frame as a fabric MAC receives it, by the fields the checks of Table 9.5 and the switch use. -/
structure Frame where
  dmac : BitVec 48
  smac : BitVec 48
  kind : FrameKind
  dstIp : BitVec 128
  srcIp : BitVec 128
  v6 : Bool
  ipOptions : Bool
  udpSrc : BitVec 16
  udpDst : BitVec 16
  dscp : BitVec 6
  ecnCapable : Bool
  ce : Bool
  fcsOk : Bool
  icrcOk : Bool
  rcOpcode : Bool
  op : RoceOp
  lastOrOnly : Bool
  qpn : BitVec 24
  psn : BitVec 24
  pkey : BitVec 16
  /-- The syndrome of an ACK or NAK (IBTA). -/
  syn : BitVec 8
  reth : Option Reth
  payload : List Byte
  /-- The frame's own bytes, from the destination MAC address, and its length on the wire. -/
  data : List Byte
  len : Nat
  /-- FEC codewords corrected, and found uncorrectable, since the frame before it (R259). -/
  fecCorr : Nat
  fecBad : Nat
  deriving DecidableEq, Repr

/-- A line defect (10 Table 10.5), in the order of the table. -/
inductive Defect where
  | los | lol | lof | lom | tim | bdi | unc | deg
  deriving DecidableEq, Repr

/-- A protected message on tributary 0 (10, "Protected channels"). -/
structure ProtMsg where
  dst : BitVec 16
  src : BitVec 16
  kind : BitVec 4
  hops : BitVec 4
  mseq : Word
  body : List Byte
  deriving DecidableEq, Repr

/-- The gauges sampled once a second (10 R281): FP32 BER, OSNR in 0.1 dB, DGD in 0.1 ps, CD in ps/nm,
receive power in 0.01 dBm. -/
structure Gauges where
  ber : Word
  osnr : Int
  dgd : Nat
  cd : Int
  rxp : Int
  deriving DecidableEq, Repr

/-- The control loops of 11 Table 11.2. -/
inductive OptLoop where
  | ringLock | fabricPower | lineFreq | linePower | couplerPhase
  deriving DecidableEq, Repr

/-- What a memory read or a scrub step finds (14 R355, R356). -/
inductive EccErr where
  | none | corrected | uncorrectable
  deriving DecidableEq, Repr

/-- An Emsoash HEARTBEAT (16 R391). -/
structure HeartMsg where
  seid : BitVec 16
  site : BitVec 4
  hbseq : Word
  reach : BitVec 16
  health : Nat
  deriving DecidableEq, Repr

/-- A mirror refresh (16 R404): the MGMT_CMD, or the buddy's request for one ream, at the mirrored gateway; and the ream's
θ, m and v as they arrive at the buddy. -/
inductive MirrorReq where
  | cmd (w : Who) (v : Word)
  | buddy (j : Job) (ream : Fin 1024)
  | arrive (j : Job) (ream : Fin 1024) (theta m v : List Word)
  deriving DecidableEq, Repr

/-- The counts of one supervisor window (17 R416): each source counted over 100 cycles of OSC_B, OSC_B counted over
100 cycles of OSC_A, and the two oscillators counted over 400 cycles of INT. -/
structure SrcCounts where
  oscA : Nat
  oscB : Nat
  int : Nat
  ref10m : Nat
  pps : Nat
  rclk0 : Nat
  rclk1 : Nat
  oscAvsInt : Nat
  oscBvsInt : Nat
  deriving DecidableEq, Repr

/-- The bits that the FEC corrected in a line frame, and the codewords that it could not correct (10 R283). -/
structure FecCounts where
  corr : Nat
  unc : Nat
  deriving DecidableEq, Repr

/-- What starts the calibration of a fabric engine of itself (11 R290): its period, or its temperature. -/
inductive CalTrigger where
  | period (e : Fin 6)
  | temp (e : Fin 6)
  deriving DecidableEq, Repr

/-- A frame of the management channel, and the line port in whose frames it goes (19 R453). -/
structure MccFrame where
  port : Port
  bytes : List Byte
  deriving DecidableEq, Repr

/-- What a cipher engine works on when its parity fails (12 R320). A transmit engine: nothing; the sealing of segment `i` of the
copy in felt named `cw`; the sealing of a record, a protected message or a management frame that tributary `trib` of port `p` is
sending (16: the management channel). A receive engine: the opening of a segment, or nothing. -/
inductive EngineWork where
  | idle
  | sheets (cw i : Nat)
  | sending (p : Port) (trib : Fin 17)
  | opening
  deriving DecidableEq, Repr

/-- What a general-core task does between two commands of its own (05 R135, R136, R141): it stores or loads some
bytes; or one of its accesses to local or shared memory meets a corrected error, or an uncorrectable one in the task's data or in
a runtime area. -/
inductive TaskAct where
  | store (a : Nat) (bs : List Byte)
  | load (a n : Nat)
  | memCe
  | memUe (runtime : Bool)
  deriving DecidableEq, Repr

/-- A power or thermal condition of 17 Table 17.5. -/
inductive PwrFault where
  | uvWarn | uv | ov | oc | stage | thermWarn | thermShut
  deriving DecidableEq, Repr

/-- How a boot step ends (17 R431): its ledger RESULT code, its DETAIL mask of failing units, and whether the step
completes (false: it detected its own failure). -/
structure BootResult where
  ok : Bool
  result : Byte
  detail : Word
  deriving DecidableEq, Repr

end Sys2Proof
end

