-- ==== Sys2Proof/Syntax.lean ====
section
/-! DEFINITION. The commands and events of the gateway: one constructor for each row of spec/opcode_table.json, in
the table's order, with the row's operands. -/
namespace Sys2Proof

/-- A step of the gateway (95_what_each_step_holds.md): each is whole and indivisible. -/
inductive Instr where
  /-- STEP_MARK (R33). A 16-byte RDMA WRITE into a job's step window is checked and, if accepted, sets m_c for its contributor. -/
  | stepMark (j : Job) (off : Nat) (bytes : List Byte)
  /-- SCH_STEP_LOAD (R35). A write to SCH_Jn_STEP_LOAD_HI sets A and every m_c of the job, or is refused while the job has scoreboard entries. -/
  | schStepLoad (w : Who) (j : Job) (v : Word)
  /-- REGMAP_WRITE (R34). A write to SCH_Jn_REGMAP adds or removes contributors, recomputing A on removal and seeding m_c on addition. -/
  | regmapWrite (w : Who) (j : Job) (k : Fin 16) (v : Word)
  /-- QUORUM_WRITE (R34). A write to SCH_Jn_QUORUM changes Q, recomputing A when Q is lowered. -/
  | quorumWrite (w : Who) (j : Job) (v : Word)
  /-- SUB_COMMIT (R139). A general-core write to SUB_COMMIT submits the descriptor in SUB_DESC with a gateway-assigned SEQ, stalling the core if the scoreboard is full. -/
  | subCommit (c : Core) (desc : List Byte) (acts : List TaskAct)
  /-- TIME_TRIGGER_MET (R53). An ARMED entry's time trigger is reached by TIME_NS and the entry enters WAITING. -/
  | timeTriggerMet (e : Nat)
  /-- CLAIM_GRANT (R111). The vat grants a CLAIMING entry its whole wave of the lowest free slots, marks them HELD and clears them. -/
  | claimGrant (d : Die)
  /-- OP_DONE (R42). A unit reports completion of an ACTIVE operation; its signals are applied, its wave released if RELEASE is set and its record written if CPL is set. -/
  | opDone (e : Nat)
  /-- OP_FAULTED (R42). A unit reports a fault; no signal is applied, the completion record is written with the unit's status and SCH_OP_FAULT is raised. -/
  | opFaulted (e : Nat)
  /-- SCH_OP_STALL (R46). An entry's stall time in ARMED, WAITING, CLAIMING or READY passes STALL_LIMIT and the event is raised once for that state. -/
  | schOpStall (e : Nat)
  /-- SCH_CNT_VAL_WRITE (R49). A software write sets the selected sync counter, applied before signals of the same cycle. -/
  | schCntValWrite (w : Who) (v : Word)
  /-- CNT_PART_WRITE (R50). A write to SCH_Jn_CNT_PART sets a job's counter partition to zero, or is refused as busy, overlapping or out of range. -/
  | cntPartWrite (w : Who) (j : Job) (v : Word)
  /-- COLLECT (R98). A COLLECT becomes ACTIVE, takes its contributor set from the collection map and writes GRANT records for the wave's range. -/
  | collect (d : Die)
  /-- RECOLLECT (R114). A COLLECT with RECOLLECT = 1 on a held wave resends the ream under the resend procedure, or faults with POISON_REPEAT at the limit. -/
  | recollect (d : Die)
  /-- CONTRIBUTION_WRITE (R96). An RDMA WRITE packet into a reduction window is checked against Table 4.2 and its elements are added into the slot accumulators. -/
  | contributionWrite (qpn : BitVec 24) (reth : Option Reth) (data : List Byte) (flips : List (Nat × BitVec 64))
  /-- GRANT_HOLD_RELEASE (R101). A grant record held on the hub is written once its ring has space and its grant QP and ring size are valid. -/
  | grantHoldRelease (j : Job) (c : Contrib)
  /-- GACK_WRITE (R101). An 8-byte write to the GACK window reports the highest GSEQ consumed, or is ignored and counted as malformed. -/
  | gackWrite (j : Job) (qpn : BitVec 24) (off : Nat) (bytes : List Byte)
  /-- CMAP_WRITE (R104). A write to VAT_Jn_CMAP that clears a contributor removes it from every ACTIVE COLLECT, resending or re-evaluating completion. -/
  | cmapWrite (w : Who) (j : Job) (k : Fin 16) (v : Word)
  /-- VAT_WIN_CTL_WRITE (R93). A write to VAT_WIN_CTL sets a window entry, drawing a tag for a REDUCE entry or refusing duplicates, bad formats and busy windows. -/
  | vatWinCtlWrite (w : Who) (v : Word)
  /-- VAT_QUOTA_WRITE (R109). A write to VAT_Jn_QUOTA sets a job's slots on a die, refused if the sum exceeds 2,048 or the job holds or awaits slots. -/
  | vatQuotaWrite (w : Who) (d : Die) (j : Job) (v : Word)
  /-- GRANT_QP_REPLACE (R101). Replacing a contributor's grant QP makes the vat write every unconsumed record again with the same GSEQ. -/
  | grantQpReplace (w : Who) (v : Word)
  /-- HADAMARD (R129). A ROTATE operation applies the seeded forward or inverse Hadamard rotation to every group of a wave. -/
  | hadamard (d : Die)
  /-- QUANTISE (R131). A QUANT operation quantises a wave into a line format with error feedback, guard check and re-grading, writing residuals and sheets. -/
  | quantise (d : Die)
  /-- UPDATE (R211). An APPLY of kind UPDATE computes the outer optimizer step per element and writes state and, unless NORET, the return copy. -/
  | update (d : Die)
  /-- NS_ORTHO (R134). An APPLY of kind NS_ORTHO orthogonalises one FP32 matrix in HBM by the quintic Newton–Schulz iteration. -/
  | nsOrtho (d : Die)
  /-- PROJECT (R129). An APPLY of kind PROJECT forms a low-rank power step with Gram–Schmidt orthonormalisation. -/
  | project (d : Die)
  /-- GEMM (R129). An APPLY of kind GEMM forms C = α·op(A)·op(B) + β·C. -/
  | gemm (d : Die)
  /-- ENG_PARITY (R123). A parity error faults the operation the engine held and takes the engine out of service. -/
  | engParity (d : Die) (e : Fin 8) (held : Option Nat)
  /-- ENG_SVC_WRITE (R123). A write to ENG_SVC puts engines into or out of service. -/
  | engSvcWrite (w : Who) (d : Die) (v : Word)
  /-- ENG_EDT_WRITE (R143). A write to ENG_Jn_EDT sets a job's descriptor partition, or is refused as busy, overlapping or out of range. -/
  | engEdtWrite (w : Who) (d : Die) (j : Job) (v : Word)
  /-- TASK (R138). A user TASK is taken by an idle core of its group and its entry is called with the context block. -/
  | task (c : Core)
  /-- TASK_RETURN (R138). A task returns a0, completing DONE on zero or FAULTED with TASK_ERR otherwise, and marking a USER wave RETURN. -/
  | taskReturn (c : Core) (a0 : BitVec 64) (acts : List TaskAct)
  /-- TASK_TRAP (R138). A trap ends the task FAULTED with TASK_TRAP and captures mcause and mepc. -/
  | taskTrap (c : Core) (mcause mepc : BitVec 64) (acts : List TaskAct)
  /-- TASK_TIMEOUT (R138). A task running longer than GC_Jn_TASK_LIMIT ends FAULTED with TASK_TIMEOUT. -/
  | taskTimeout (c : Core) (acts : List TaskAct)
  /-- WAIT_GO (R139). A load from WAIT_GO blocks the core until counter WAIT_IDX reaches WAIT_VAL. -/
  | waitGo (c : Core) (idx val : Word)
  /-- WAIT_GO_RELEASE (R139). The blocked WAIT_GO load returns the counter value once the threshold is reached. -/
  | waitGoRelease (c : Core)
  /-- GC_SVC_WRITE (R141). A write to GC_SVC puts cores into or out of service. -/
  | gcSvcWrite (w : Who) (d : Die) (v : Word)
  /-- GC_SHM_WRITE (R145). A write to a job's shared partition, HBM range or task table is applied or refused as busy or overlapping. -/
  | gcShmWrite (w : Who) (d : Die) (off : Nat) (v : Word)
  /-- EXCEPTION_HANDLER (R142). The runtime handler drains an exception record on the first idle core and takes the action of Table 5.10. -/
  | exceptionHandler (c : Core)
  /-- PLAN (R202). The built-in PLAN task builds and submits the operations of a ream's next round and writes RN and ROUND. -/
  | plan (c : Core)
  /-- FLOOR (R84). The built-in FLOOR task writes F_NEXT from EHI unless fixed or undefined. -/
  | floor (c : Core)
  /-- STATS (R207). The built-in STATS task writes the ream's round statistics record and advances APPLIED. -/
  | stats (c : Core)
  /-- MERGE_SNAP (R219). MERGE with function SNAP copies θ into the merge array and sets SNAP_ROUND. -/
  | mergeSnap (c : Core)
  /-- MERGE_FORM (R220). MERGE with function FORM computes the delayed pseudo-gradient λ(θ_C − θ) or drops it. -/
  | mergeForm (c : Core)
  /-- MERGE_ADD (R220). MERGE with function ADD adds n_s·M·2^-F into each accumulator of a collection wave and releases the snapshot. -/
  | mergeAdd (c : Core)
  /-- PACK (R163). A PACK turns a quantised-block buffer into CRC-sealed sheets in a couch-stage buffer. -/
  | pack (d : Die)
  /-- EXPAND (R165). An EXPAND checks each sheet of a chunk-wave and enters its elements into a wave or an expansion stream. -/
  | expand (d : Die)
  /-- EXPAND_REFETCH (R160). An EXPAND with REFETCH = 1 asks the sender again for every DAMAGED sheet pending on its target EXPAND. -/
  | expandRefetch (d : Die)
  /-- REFETCH_REPLACEMENT (R161). A replacement sheet arrives, overwrites the felt copy and is checked, completing or faulting the target with DAMAGED_REPEAT. -/
  | refetchReplacement (cw : CwId) (i : Nat) (sheet : List Byte)
  /-- ADD (R169). An ADD enters the raw sheets of its expansion stream into a wave, waiting while the stream is empty. -/
  | add (d : Die)
  /-- SHEET_PARITY (R170). A codec parity error faults the operation of the held sheet and takes the codec out of service. -/
  | sheetParity (d : Die) (codec : Fin 8) (held : Option Nat)
  /-- SHEET_SVC_WRITE (R170). A write to SHEET_SVC puts codecs into or out of service. -/
  | sheetSvcWrite (w : Who) (d : Die) (v : Word)
  /-- SEND (R186). A ring SEND checks, seals and writes its sheets to felt, queues its ANNOUNCE and sheets and completes. -/
  | send (p : Port)
  /-- SEND_FWD (R183). A SEND with FWD = 1 re-sends a received all-gather chunk-wave unchanged on the next transfer. -/
  | sendFwd (p : Port)
  /-- RECV (R188). A RECV completes when its announced chunk-wave is whole in felt, and RECEIPT is sent. -/
  | recv (p : Port)
  /-- SCATTER (R249). A SCATTER replicates a RETURN wave through the vat multicast port to every contributor of its return set. -/
  | scatter (acks : BitVec 512)
  /-- COPY (R251). A COPY sends a chunk-wave's all-gather sheets to the buddy's mirror intake as one RDMA WRITE with immediate. -/
  | copy (ack : Bool)
  /-- RING_SETUP_START (R175). Setting RING_GT_CTL.VALID to 1 reserves felt and enters SETUP, or is refused with a reason. -/
  | ringSetupStart (w : Who) (v : Word)
  /-- SETUP_SEND (R175). Once the job is enabled, the gateway checks wave counts and sends SETUP to both ring neighbours. -/
  | setupSend (g : Fin 64)
  /-- SETUP_RETRY (R175). Every 100 ms in SETUP, SETUP is sent again to each neighbour that has not answered. -/
  | setupRetry (g : Fin 64)
  /-- SETUP_MESSAGE (R175). A received SETUP is answered OK or REFUSE, or discarded when no VALID entry exists. -/
  | setupMessage (m : SetupMsg)
  /-- SETUP_ANSWER (R175). A neighbour's OK or REFUSE moves the group toward UP or to REFUSED. -/
  | setupAnswer (g : Fin 64) (next : Bool) (ok : Bool)
  /-- RING_TEARDOWN (R176). Writing RING_GT_CTL.VALID to 0 frees the group's felt and sets it DOWN, or is refused while its operations exist. -/
  | ringTeardown (w : Who) (v : Word)
  /-- ANNOUNCE (R186). An ANNOUNCE record fixes a chunk-wave's sheet count and byte total, or is discarded and answered as a duplicate. -/
  | announce (p : Port) (r : RingRec)
  /-- RECEIPT (R188). A RECEIPT stops the chunk-wave's resend timer at the sender. -/
  | receipt (p : Port) (r : RingRec)
  /-- ACK (R188). An ACK frees the sender's transmit copy once no local operation reads it. -/
  | ack (p : Port) (r : RingRec)
  /-- CREDIT (R188). A CREDIT returns a lane place, raising the lane's gate counter by 1. -/
  | credit (p : Port) (r : RingRec)
  /-- REFETCH (R188). A REFETCH record makes the sender send sheet i again from its transmit copy. -/
  | refetch (p : Port) (r : RingRec)
  /-- RESEND_TIMER (R193). A chunk-wave's resend timer expires without a RECEIPT, so its ANNOUNCE and sheets are sent again. -/
  | resendTimer (cw : CwId)
  /-- PROBE_TIMER (R193). A probe timer expires without ACK or CREDIT, so the ANNOUNCE alone is sent again. -/
  | probeTimer (cw : CwId)
  /-- OUTER_ENABLE (R200). Setting OUTER_Jn_CTL.ENABLE from 0 to 1 copies and checks the OCB, or refuses with a reason. -/
  | outerEnable (w : Who) (j : Job) (v : Word)
  /-- OUTER_DISABLE (R200). Clearing ENABLE is applied only while the job has no scoreboard operation. -/
  | outerDisable (w : Who) (j : Job) (v : Word)
  /-- STREAM_END_ENABLE (R223). Setting OUTER_SC_CTL.VALID starts a stream end, which goes UP when its peer matches and felt fits. -/
  | streamEndEnable (w : Who) (v : Word) (peer : Option PeerEnd)
  /-- STREAM_END_DISABLE (R223). Clearing a stream end's VALID frees its reservation and drops what it holds. -/
  | streamEndDisable (w : Who) (v : Word)
  /-- STREAM_MESSAGE (R224). A RoCEv2 SEND on a stream's ingress QP becomes sheets sealed into felt, or is refused with a NAK. -/
  | streamMessage (qpn : BitVec 24) (data : List Byte)
  /-- STREAM_DELIVERY (R225). A checked stream message is delivered by RDMA WRITE with immediate into a freed destination ring entry. -/
  | streamDelivery (i : Fin 256)
  /-- STREAM_CONSUMER_ACK (R225). A consumer's count written at GACK offset 0x1000 + 8·CHAN frees destination entries. -/
  | streamConsumerAck (j : Job) (off : Nat) (bytes : List Byte)
  /-- STREAM_ACK (R226). The destination's acknowledgement of a delivery returns a ring record, and the sender frees its felt copy. -/
  | streamAck (i : Fin 256) (seq : Word)
  /-- FAB_PORT_CTL_WRITE (R229). A write to FAB_PORT_CTL sets mode and enables, with MODE changes refused while sub-ports run. -/
  | fabPortCtlWrite (w : Who) (p : Fin 12) (v : Word)
  /-- FAB_LINK_DOWN (R231). A fabric MAC's link goes down, its queued packets are discarded and it leaves every port group. -/
  | fabLinkDown (m : Mac)
  /-- FAB_LINK_UP (R231). A fabric MAC's link comes up and it returns to its port groups. -/
  | fabLinkUp (m : Mac)
  /-- FABRIC_FRAME (R238). A frame arriving from a fabric MAC is terminated, sent to the root, forwarded or dropped by its destination MAC. -/
  | fabricFrame (m : Mac) (f : Frame)
  /-- OUTPUT_SERVE (R242). A switch output serves its next packet by strict priority and deficit round-robin. -/
  | outputServe (o : Fin 31)
  /-- PFC_XOFF_RX (R244). A received XOFF on PRI_REQ or PRI_RSP stops that class on the MAC for the pause time. -/
  | pfcXoffRx (m : Mac) (prio : BitVec 3)
  /-- PFC_PAUSE_END (R244). A received pause time elapses and the class resumes. -/
  | pfcPauseEnd (m : Mac) (prio : BitVec 3)
  /-- FAB_PFC_LONG (R245). A pause held longer than WDOG is counted and raised once. -/
  | fabPfcLong (m : Mac) (prio : BitVec 3)
  /-- CNP_RX (R248). A received CNP lowers the requester queue pair's rate. -/
  | cnpRx (qpn : BitVec 24)
  /-- RATE_INCREASE (R248). An INC interval without a CNP raises the queue pair's rate by AI. -/
  | rateIncrease (qpn : BitVec 24)
  /-- ACK_TIMEOUT (R236). A requester's transport ACK timeout retransmits go-back-N from the first unacknowledged PSN. -/
  | ackTimeout (qpn : BitVec 24)
  /-- IMBALANCE_WINDOW (R255). At each WIN window a port group is judged balanced or imbalanced and enters or leaves SPRAY. -/
  | imbalanceWindow (g : Fin 16)
  /-- REKEY (R254). Writing SW_HASH_CTL.REKEY draws a new hash key. -/
  | rekey (w : Who) (v : Word)
  /-- SW_MIRROR_CTL_WRITE (R258). A write to SW_MIRROR_CTL enables mirroring or is refused as busy or with a bad destination. -/
  | swMirrorCtlWrite (w : Who) (v : Word)
  /-- SW_QP_QUOTA_WRITE (R233). A write to SW_Jn_QP sets a job's queue-pair quota or is refused. -/
  | swQpQuotaWrite (w : Who) (j : Job) (v : Word)
  /-- READ_REGION_VALID (R235). Setting a read region VALID draws its TAG, or is refused when outside the snapshot range. -/
  | readRegionValid (w : Who) (v : Word)
  /-- LINE_CTL_WRITE (R262). A write to LINEn_CTL enables the port or sets its mode and FEC profile while disabled. -/
  | lineCtlWrite (w : Who) (p : Port) (v : Word)
  /-- FRAME_TRANSMIT (R265). Every 12.5 µs the framer sends a frame with its overhead and the chosen tributary segments. -/
  | frameTransmit (p : Port)
  /-- FRAME_RECEIVE (R270). A received line frame is delineated, its justification and pointers applied and its tributary words passed on. -/
  | frameReceive (p : Port) (bytes : List Byte) (at_ : BitVec 64) (fec : FecCounts)
  /-- DEFECT_SET (R273). A line defect's set condition persists for its integration time and the defect is set, counted and acted on. -/
  | defectSet (p : Port) (k : Defect)
  /-- DEFECT_CLEAR (R273). A line defect's clear condition persists for its time and the defect clears. -/
  | defectClear (p : Port) (k : Defect)
  /-- PROT_MESSAGE (R277). A protected message on tributary 0 is forwarded, dropped as a loop, or delivered or held by its peer's selector. -/
  | protMessage (p : Port) (m : ProtMsg)
  /-- ROUTE_TIMEOUT (R277). No message from a peer on a route for ROUTE_TMO puts that route in SF. -/
  | routeTimeout (i : Fin 64) (r : Port)
  /-- WTR_EXPIRY (R277). The wait-to-restore time elapses and the selector returns to PREF. -/
  | wtrExpiry (i : Fin 64)
  /-- STBY_HOLD_EXPIRY (R278). A standby copy held for STBY_HOLD ms is discarded. -/
  | stbyHoldExpiry (i : Fin 64) (mseq : Word)
  /-- SEL_LOCKOUT (R277). CMD LOCKOUT_r in LINE0_SEL_CTL bars route r from selection. -/
  | selLockout (w : Who) (v : Word)
  /-- SEL_FORCE (R277). CMD FORCE_r selects route r unless it is SF. -/
  | selForce (w : Who) (v : Word)
  /-- SEL_MANUAL (R277). CMD MANUAL_r selects route r while neither route is SF or SD. -/
  | selManual (w : Who) (v : Word)
  /-- SEL_CLEAR (R277). CMD none removes the selector's command request. -/
  | selClear (w : Who) (v : Word)
  /-- PM_SECOND (R280). Each second of network time is classified as ES, SES or UAS and counters and gauges update. -/
  | pmSecond (p : Port) (g : Gauges)
  /-- PM_BIN_CLOSE (R281). At each 900 s or 86,400 s boundary the current PM bin closes and a new one opens. -/
  | pmBinClose (p : Port) (day : Bool)
  /-- CH_CTL_WRITE (R271). A write to LINEn_CH_CTL binds a channel to a tributary or is refused for TRIB 0, CIR over or busy. -/
  | chCtlWrite (w : Who) (p : Port) (v : Word)
  /-- TRIB_WRITE (R282). A write to LINEn_SLOTMAP or LINEn_TRIBt is applied, or refused as busy or as a relay mismatch. -/
  | tribWrite (w : Who) (p : Port) (off : Nat) (v : Word)
  /-- FWD_FELT_WRITE (R276). A write to LINEn_FWD_FELT sets the relay partition, refused while any tributary relays. -/
  | fwdFeltWrite (w : Who) (p : Port) (v : Word)
  /-- CONTROL_LOOP_UPDATE (R286). An optics control loop takes its sensor reading and trims its actuator at its update interval. -/
  | controlLoopUpdate (l : OptLoop) (i : Nat) (reading : Int)
  /-- ENGINE_TEMP_CHANGE (R287). A change of engine temperature or grid index sets actuators from the interpolated table. -/
  | engineTempChange (e : Fin 6) (t : Int)
  /-- TBL_DATA_WRITE (R288). A write to OPT_TBL_DATA sets a table entry with CALIB = 0. -/
  | tblDataWrite (w : Who) (v : Word)
  /-- MON_READING (R289). A write to OPT_MON starts a monitor reading at the chosen integration time. -/
  | monReading (w : Who) (v : Word)
  /-- CAL_LANE (R290). OPT_CMD CAL_LANE starts calibration of an engine. -/
  | calLane (w : Who) (v : Word)
  /-- CAL_START (R290). CAL_PERIOD elapsing or CAL_DT being exceeded starts calibration of an engine. -/
  | calStart (t : CalTrigger)
  /-- CAL_DONE (R291). A lane's calibration completes and the spare ring returns to park. -/
  | calDone (e : Fin 6) (heat : BitVec 16)
  /-- SAVE_TABLES (R287). OPT_CMD SAVE_TABLES writes the tables back to flash or ends BUSY. -/
  | saveTables (w : Who) (v : Word)
  /-- LASER_FADE_WINDOW (R293). A 1 s window of a bay's line power is compared with beginning of life, raising WARN or ACT and starting a crossfade. -/
  | laserFadeWindow (b : Fin 4) (pwr : Int)
  /-- CROSSFADE_DONE (R294). The crossfade ramp ends, the old bay is RELEASED and OPT_LASER_SPARED is raised. -/
  | crossfadeDone
  /-- LMOD_REMOVE (R296). A laser module is removed; removing a FEEDING one darkens its engines. -/
  | lmodRemove (b : Fin 4)
  /-- LMOD_INSERT (R296). A laser module is inserted and its 60 s self-test begins. -/
  | lmodInsert (b : Fin 4)
  /-- LMOD_SELF_TEST_DONE (R296). The self-test ends with STANDBY or FAILED, and may start an automatic revert. -/
  | lmodSelfTestDone (b : Fin 4) (lines : List Int)
  /-- REVERT (R296). OPT_CMD REVERT crossfades a repaired bay's engines back from bay 3. -/
  | revert (w : Who) (v : Word)
  /-- STANDBY_TUNED (R297). A standby line laser locks against the reference and reads READY, or reads FAILED. -/
  | standbyTuned (p : Port) (locked : Bool)
  /-- STANDBY_RECHECK (R297). Every 10 s a READY standby is rechecked. -/
  | standbyRecheck (p : Port) (passed : Bool)
  /-- LINE_SWITCH (R298). OPT_CMD LINE_SWITCH schedules a switch-over of the named port. -/
  | lineSwitch (w : Who) (v : Word)
  /-- LINE_SWITCH_START (R299). A scheduled switch-over starts once the other port is neither SF nor in hold, announcing a hold. -/
  | lineSwitchStart (p : Port)
  /-- STANDBY_FINE_LOCK (R299). The blanked laser is replaced and the standby is lit and fine-locked on the transmit and LO path. -/
  | standbyFineLock (p : Port)
  /-- EMERGENCY_SWITCH (R300). Loss of the active line laser blanks it and switches to a READY standby without announcement. -/
  | emergencySwitch (p : Port)
  /-- LANE_ID_CHECK (R301). Every 1 ms each transmit fibre is correlated with its PCS markers, covering and re-locking a wrong ring. -/
  | laneIdCheck (e : Fin 6) (mismatch : BitVec 8)
  /-- LANE_RETURN (R301). OPT_CMD LANE_RETURN returns a failed lane to service and releases the spare. -/
  | laneReturn (w : Who) (v : Word)
  /-- OPT_TIM_EXTERNAL (R302). TIM still present 100 ms after relighting is judged external and re-locking stops. -/
  | optTimExternal (p : Port)
  /-- OPT_REF_FAIL (R303). The wavelength reference's gas-cell check fails and lasers are held open-loop. -/
  | optRefFail
  /-- SEGMENT_RECEIVE (R317). A received segment passes the checks of Table 12.5 and is opened, or is discarded. -/
  | segmentReceive (p : Port) (trib : Fin 17) (bytes : List Byte)
  /-- CONTEXT_LOAD (R319). A spilled context is unwrapped and loaded into an engine, or re-derived after an unwrap failure. -/
  | contextLoad (p : Port) (ltype : BitVec 2) (jobtag : Word) (chan : BitVec 8) (tx : Bool)
  /-- CIPH_PARITY (R320). A cipher engine parity error fails its segment and halts the engine. -/
  | ciphParity (p : Port) (e : Fin 4) (work : EngineWork)
  /-- CIPH_SVC_WRITE (R320). Writing an engine's CIPH_SVC bit to 1 zeroizes it and runs a known-answer test. -/
  | ciphSvcWrite (w : Who) (p : Port) (v : Word) (kat : BitVec 12)
  /-- SESSION_RENEW (R314). RENEW minutes into a generation the initiator starts a renewal handshake. -/
  | sessionRenew (s : Fin 66)
  /-- CIPH_SESSION_STALE (R314). A generation reaching RENEW + 10 minutes makes the session STALE. -/
  | ciphSessionStale (s : Fin 66)
  /-- KX1_INIT (R322). A received INIT is checked and answered with RESP. -/
  | kx1Init (s : Fin 66) (msg : List Byte)
  /-- KX2_RESP (R322). A received RESP is checked, the root key formed and FIN sent. -/
  | kx2Resp (s : Fin 66) (msg : List Byte)
  /-- KX3_FIN (R322). A received FIN is checked, the root key stored and DONE sent. -/
  | kx3Fin (s : Fin 66) (msg : List Byte)
  /-- KX4_DONE (R322). A received DONE is checked and the initiator switches sealing to the new generation. -/
  | kx4Done (s : Fin 66) (msg : List Byte)
  /-- HANDSHAKE_RESEND (R324). A handshake message without reply is resent after 200 ms, failing with TIMEOUT after 5 sends. -/
  | handshakeResend (s : Fin 66)
  /-- HANDSHAKE_RETRY (R324). Every 10 s a FAILED or STALE session with a VALID entry retries its handshake. -/
  | handshakeRetry (s : Fin 66)
  /-- PEER_CTL_WRITE (R325). A write to CIPH_PEER_CTL opens or closes a peer session, refused while the peer is in use. -/
  | peerCtlWrite (w : Who) (v : Word)
  /-- ATTEST_MESSAGE (R327). A peer's Emsoash ATTEST message is answered with a signed attestation report. -/
  | attestMessage (src : BitVec 16) (nonce : List Byte)
  /-- TIME_WINDOW (R334). At each 1 ms window the unit averages offset, RTT and delay and steps, trims or counts an outlier. -/
  | timeWindow (ext : Option Int)
  /-- TIME_SRC_LOST (R337). The selected time source becomes unusable, the unit enters HOLDOVER and may take the backup. -/
  | timeSrcLost
  /-- ACCEPT_STEP (R335). TIME_CMD ACCEPT_STEP steps TIME_NS by the latest offset and returns to LOCKED. -/
  | acceptStep (w : Who) (v : Word)
  /-- REACQUIRE (R334). TIME_CMD REACQUIRE enters ACQUIRE. -/
  | reacquire (w : Who) (v : Word)
  /-- CAL_ASYM (R339). TIME_CMD CAL_ASYM starts a 60 s asymmetry measurement or ends BAD_STATE. -/
  | calAsym (w : Who) (v : Word)
  /-- CAL_ASYM_DONE (R339). The asymmetry measurement ends and writes TIME_P_ASYM. -/
  | calAsymDone (mean : Int)
  /-- SET_TIME (R344). TIME_CMD SET_TIME arms setting NT at the next PPS_IN edge, or ends BAD_STATE. -/
  | setTime (w : Who) (v : Word)
  /-- PPS_IN_EDGE (R344). A PPS_IN rising edge sets NT for a pending SET_TIME and increments MEPOCH. -/
  | ppsInEdge
  /-- SET_TIME_TIMEOUT (R344). No PPS_IN edge within 1.5 s ends SET_TIME with BAD_STATE. -/
  | setTimeTimeout
  /-- TIME_SRC_WRITE (R337). A write to TIME_CFG.SRC changes the source at the next window. -/
  | timeSrcWrite (w : Who) (v : Word)
  /-- TIME_NS_READ (R329). A read of TIME_NS latches the matching TIME_HI into the reader's shadow. -/
  | timeNsRead (w : Who)
  /-- TIME_HI_READ (R329). A read of TIME_HI returns and consumes the shadow, or the live value. -/
  | timeHiRead (w : Who)
  /-- TSQ_TS_READ (R340). A read of TIME_TSQ_TS returns the head timestamp and removes the entry. -/
  | tsqTsRead (w : Who)
  /-- LAUNCH_ARM (R341). At t − LEAD_NS the head launch's window is armed on its MAC. -/
  | launchArm (m : Mac)
  /-- LAUNCH_FIRE (R341). TIME_NS reaching t sends the launched frame, late or missed if already past. -/
  | launchFire (m : Mac)
  /-- TIME_IO_CTL_WRITE (R343). A write to TIME_IO_CTL claims the TIME_IO pins for PPS or releases them. -/
  | timeIoCtlWrite (w : Who) (v : Word)
  /-- FM_OUT_CLAIM (R426). Writing CLK_FM_OUT.CLAIM claims or releases the TIME_IO pins for the meter output. -/
  | fmOutClaim (w : Who) (v : Word)
  /-- SCRUB_STEP (R357). Patrol scrub reads a memory unit, writing back corrections and poisoning uncorrectable units. -/
  | scrubStep (hbm : Bool) (addr : Nat) (err : EccErr)
  /-- HBM_IMBAL_WINDOW (R353). At each WIN window an HBM instance is judged balanced or imbalanced and raises MEM_HBM_IMBAL. -/
  | hbmImbalWindow (d : Die) (bytes : List Nat) (port : BitVec 3)
  /-- POOL_WAIT_SERVED (R361). A freed buffer is given to the oldest eligible waiting request. -/
  | poolWaitServed (k : Fin 8) (i : Nat) (owner : BitVec 8) (gen : BitVec 8)
  /-- POOL_SIZE_WRITE (R360). A write to POOL_Pk_SIZE resizes a pool, refused unless all buffers are free. -/
  | poolSizeWrite (w : Who) (k : Fin 8) (v : Word)
  /-- MEM_RANGE_WRITE (R359). A write to MEM_Jn_MIR or MEM_Jn_SNAP sets a job's LPDDR5X range or is refused. -/
  | memRangeWrite (w : Who) (j : Job) (snap : Bool) (v : Word)
  /-- HBM_RANGE_WRITE (R348). A write to a job's HBM base or size is applied or refused as overlapping. -/
  | hbmRangeWrite (w : Who) (d : Die) (off : Nat) (v : Word)
  /-- HEADBOX_WRITE (R375). A posted write into a headbox slot fills a command packet, whose header is checked once complete. -/
  | headboxWrite (f : Func) (off : Nat) (bytes : List Byte) (poisoned : Bool)
  /-- NOP (R378). The NOP packet completes OK. -/
  | nop (f : Func) (q : PktJob)
  /-- SUBMIT (R379). The SUBMIT packet offers its descriptors to the scheduler in order, stopping at the first refusal. -/
  | submit (f : Func) (q : PktJob)
  /-- CANCEL (R47). The CANCEL packet frees or suppresses the job's entries in a SEQ range with status CANCELLED. -/
  | cancel (f : Func) (q : PktJob)
  /-- REG_WRITE (R379). The REG_WRITE packet applies its offset-value pairs in order under the register classes. -/
  | regWrite (f : Func) (q : PktJob)
  /-- REG_READ (R378). The REG_READ packet writes the values of its offsets to host memory. -/
  | regRead (f : Func) (q : PktJob) (rejected : Bool)
  /-- MEM_WRITE (R380). The MEM_WRITE packet writes its payload into the selected device memory within the job's fence. -/
  | memWrite (f : Func) (q : PktJob)
  /-- MEM_READ (R380). The MEM_READ packet copies device memory within the fence to host memory. -/
  | memRead (f : Func) (q : PktJob) (rejected : Bool)
  /-- QP_CREATE (R381). The QP_CREATE packet creates a queue pair within the job's quota and returns its QPN. -/
  | qpCreate (f : Func) (q : PktJob)
  /-- QP_MODIFY (R381). The QP_MODIFY packet writes masked context words and changes state per the RC state diagram. -/
  | qpModify (f : Func) (q : PktJob)
  /-- QP_DESTROY (R381). The QP_DESTROY packet destroys a queue pair. -/
  | qpDestroy (f : Func) (q : PktJob)
  /-- JOB_ASSIGN (R371). The JOB_ASSIGN packet gives a FREE job to a function and resets its step axis and maps. -/
  | jobAssign (f : Func) (q : PktJob)
  /-- JOB_START (R371). The JOB_START packet moves an ASSIGNED job to RUNNING. -/
  | jobStart (f : Func) (q : PktJob)
  /-- JOB_QUIESCE (R386). The JOB_QUIESCE packet quiesces the job through the steps of Table 15.10 back to ASSIGNED. -/
  | jobQuiesce (f : Func) (q : PktJob)
  /-- JOB_RELEASE (R371). The JOB_RELEASE packet returns an ASSIGNED job with no resources to FREE. -/
  | jobRelease (f : Func) (q : PktJob)
  /-- ATTEST (R327). The ATTEST packet writes a signed attestation report for its nonce to host memory. -/
  | attest (f : Func) (q : PktJob) (rejected : Bool)
  /-- TIME_SEND (R340). The TIME_SEND packet sends a TIME message on tributary 0, stamped if TSV is set. -/
  | timeSend (f : Func) (q : PktJob)
  /-- LAUNCH (R341). The LAUNCH packet queues a frame for a timed launch on a MAC, or completes FULL. -/
  | launch (f : Func) (q : PktJob)
  /-- CAPTURE_DUMP (R378). The CAPTURE_DUMP packet writes header-capture records to host memory. -/
  | captureDump (f : Func) (q : PktJob) (rejected : Bool)
  /-- HOST_PKT_GAP (R377). A packet held by a SEQ gap for GAP_US raises HOST_PKT_GAP once. -/
  | hostPktGap (f : Func) (q : PktJob)
  /-- COMPLETION_RECORD (R382). A held completion record is written to the function's ring once space exists. -/
  | completionRecord (f : Func) (rejected : Bool)
  /-- CQ_HEAD_WRITE (R383). A write to HOST_F_CQ_HEAD frees ring entries for held records. -/
  | cqHeadWrite (w : Who) (v : Word)
  /-- CQ_CTL_WRITE (R383). A write to HOST_F_CQ_CTL enables the ring and resets HEAD, TAIL and PHASE, or is refused. -/
  | cqCtlWrite (w : Who) (v : Word)
  /-- CQ_IRQ_TIMER (R385). TIMER_US after an unsignalled record, vector 1 is sent. -/
  | cqIrqTimer (f : Func)
  /-- FLR (R387). A Function Level Reset quiesces the function's jobs and resets its slots, hold, page and sequence state. -/
  | flr (f : Func)
  /-- PCIE_LINK_DOWN (R387). A port's PCIe link going down resets its PF as by FLR. -/
  | pcieLinkDown (p : Port)
  /-- PERST_N_ASSERT (R451). Assertion of a port's PERST_N acts as loss of that port's link. -/
  | perstNAssert (p : Port)
  /-- VF_DISABLE (R387). Clearing VF Enable or lowering NumVFs quiesces removed VFs' jobs and passes them to the PF. -/
  | vfDisable (p : Port) (numVfs : Fin 16)
  /-- HEARTBEAT_SEND (R391). Every 1 ms a HEARTBEAT is sent on both routes to every peer with a live session. -/
  | heartbeatSend
  /-- HEARTBEAT (R392). A received heartbeat copy renews the lease of its route. -/
  | heartbeat (p : Port) (h : HeartMsg)
  /-- LEASE_EXPIRY (R392). A route's lease runs out, changing the peer's state and possibly making it UNREACHABLE. -/
  | leaseExpiry (peer : Fin 64) (r : Port)
  /-- PEER_FAIL (R394). MGMT_CMD PEER_FAIL declares a peer failed and fences it at once. -/
  | peerFail (w : Who) (v : Word)
  /-- PEER_CLEAR (R394). MGMT_CMD PEER_CLEAR withdraws a failure declaration, letting a reachable peer rejoin. -/
  | peerClear (w : Who) (v : Word)
  /-- MGMT_HOLD_LIMIT (R394). A group HELD for HOLD_LIMIT raises the event and starts a reconfiguration. -/
  | mgmtHoldLimit (g : Fin 64)
  /-- RECONF (R396). A member receiving RECONF cancels the group's chains, resets gates and RSEQ and answers READY. -/
  | reconf (g : Fin 64) (epoch : Word) (fenced : BitVec 16) (cut : Option (BitVec 4))
  /-- RECONF_READY (R396). The leader gathers READY answers and names an adoption source per ream. -/
  | reconfReady (g : Fin 64) (pos : Fin 16) (applied : List (BitVec 64)) (names : List (Option (Fin 16)))
  /-- ADOPTION_SHEETS (R397). Adoption sheets are written into a lagging member's state arrays for a ream. -/
  | adoptionSheets (g : Fin 64) (ream : Fin 1024) (blk : Nat) (epoch : Word) (theta m v : List Word) (applied : BitVec 64)
  /-- EPOCH_NAK (R402). A received EPOCH_NAK with a higher epoch makes the gateway rejoin or give up its position. -/
  | epochNak (g : Fin 64) (epoch : Word) (holder : BitVec 16) (digest : BitVec 64)
  /-- MIRROR_INTAKE (R403). A COPY write arrives at the buddy and is replayed on its mirror. -/
  | mirrorIntake (j : Job) (epoch : Word) (rseq : Word) (data : List Byte)
  /-- MIRROR_REFRESH (R404). MGMT_CMD MIRROR_REFRESH, or a buddy's request, sends a ream's state whole to the buddy. -/
  | mirrorRefresh (req : MirrorReq)
  /-- SPARE_READY (R405). MGMT_CMD SPARE_READY makes a spare READY once its other conditions hold. -/
  | spareReady (w : Who) (v : Word)
  /-- TAKEOVER (R406). MGMT_CMD TAKEOVER makes a READY spare request the line system, load the mirror and claim the position. -/
  | takeover (w : Who) (v : Word)
  /-- CLAIM (R407). A received CLAIM from an authorised spare triggers a reconfiguration. -/
  | claim (seid : BitVec 16) (digest : List Word)
  /-- MGMT_TAKEOVER_FAIL (R408). A takeover incomplete after 10 s fails and the spare returns to READY. -/
  | mgmtTakeoverFail
  /-- HEALTH_DECAY (R409). Every 3,600 s the health score halves. -/
  | healthDecay
  /-- EXPEL_REQ (R410). A spare receiving EXPEL_REQ grants or denies it. -/
  | expelReq (seid : BitVec 16)
  /-- MGMT_EXPEL (R410). A grant received by the member counts and raises MGMT_EXPEL. -/
  | mgmtExpel
  /-- MGMT_HEALTH_ALARM (R410). A denial received by the member raises MGMT_HEALTH_ALARM. -/
  | mgmtHealthAlarm
  /-- EXPEL_RETRY (R410). Every 60 s while the score stays at or above THR, EXPEL_REQ is repeated. -/
  | expelRetry
  /-- MGMT_EXPEL_LAPSED (R410). A grant without a TAKEOVER within 60 s lapses. -/
  | mgmtExpelLapsed
  /-- MGMT_PORT_DOWN (R411). A management port down for 1 s is raised and the other port carries everything. -/
  | mgmtPortDown (p : Port)
  /-- MCC_RESEND (R453). A management-channel frame unacknowledged for 5 ms is resent, moving to the management network after 8. -/
  | mccResend (f : MccFrame)
  /-- SUPERVISOR_WINDOW (R416). Each 1 µs supervisor window counts every clock source and judges it failed or good. -/
  | supervisorWindow (n : SrcCounts)
  /-- CLK_NMI_WRITE (R418). Writing 1 to a CLK_NMI_STAT cause clears it, deasserting FAULT_N when none remain. -/
  | clkNmiWrite (w : Who) (v : Word)
  /-- GATE (R420). CLK_CMD GATE stops a domain's clock, or is refused. -/
  | gate (w : Who) (v : Word)
  /-- UNGATE (R420). CLK_CMD UNGATE restarts a domain's clock, or is refused while its parent is gated. -/
  | ungate (w : Who) (v : Word)
  /-- RESET_ASSERT (R422). CLK_CMD RESET_ASSERT holds a domain in reset, faulting or poisoning its work. -/
  | resetAssert (w : Who) (v : Word)
  /-- RESET_RELEASE (R422). CLK_CMD RESET_RELEASE returns a domain's blocks to reset values, retraining HBM. -/
  | resetRelease (w : Who) (v : Word)
  /-- SET_SRC (R421). CLK_CMD SET_SRC moves a running domain between PLL and BYP glitch-free. -/
  | setSrc (w : Who) (v : Word) (oldStopped : Bool)
  /-- CLK_SWITCH_HANG (R421). A source switch not finished in 10 µs ends HUNG and the domain stays without clock. -/
  | clkSwitchHang
  /-- FORCE_SWITCH (R423). CLK_CMD FORCE_SWITCH switches a domain held in reset at once and clears HUNG. -/
  | forceSwitch (w : Who) (v : Word)
  /-- REF_SELECT (R419). CLK_CMD REF_SELECT moves REF between OSC_A and OSC_B. -/
  | refSelect (w : Who) (v : Word)
  /-- FM_GO (R425). Writing CLK_FM_CTL.GO starts a frequency measurement. -/
  | fmGo (w : Who) (v : Word)
  /-- CLK_FM_DONE (R425). The measurement window ends and COUNT, DONE and possibly FAIL are set. -/
  | clkFmDone (count : BitVec 64) (refFailed : Bool)
  /-- INPUT_RISE (R427). Input rising above 38 V takes the module from OFF to STANDBY. -/
  | inputRise (mv : Nat) (addr : BitVec 3)
  /-- INPUT_LOSS (R427). Input falling below 35 V takes the module to OFF. -/
  | inputLoss
  /-- ENABLE_RISE (R427). ENABLE going high with valid input starts power-up. -/
  | enableRise (mv : Nat)
  /-- ENABLE_FALL (R428). ENABLE going low stops every block and drops the rails. -/
  | enableFall
  /-- POWER_FAULT (R429). A power or thermal fault condition warns or shuts the module down into FAULT. -/
  | powerFault (k : PwrFault)
  /-- BOOT_STEP_DONE (R431). A boot step completes, writes its DONE record and the next step starts. -/
  | bootStepDone (r : BootResult)
  /-- BOOT_WATCHDOG (R431). A boot step exceeding its limit is ended by the watchdog and the boot restarts. -/
  | bootWatchdog
  /-- BOOT_RESTART (R431). One second after a failed step the root restarts the boot. -/
  | bootRestart
  /-- CLEAR_ALT (R433). BOOT_CMD CLEAR_ALT removes alternatives and skips in force. -/
  | clearAlt (w : Who) (v : Word)
  /-- RECOVER (R435). BOOT_CMD RECOVER resets the module into the recovery wait when every job is FREE. -/
  | recover (w : Who) (v : Word)
  /-- CFG_SAVE (R434). BOOT_CMD CFG_SAVE stores the staged configuration record for the next boot. -/
  | cfgSave (w : Who) (v : Word)
  /-- BAR2_IMAGE_WRITE (R436). A write into BAR2 in the recovery wait stores image bytes and makes its port owner of the load. -/
  | bar2ImageWrite (p : Port) (off : Nat) (bytes : List Byte)
  /-- LOAD (R436). BOOT_CMD LOAD checks the image and programs flash, or ends BAD_IMAGE or LOW_SVN. -/
  | load (w : Who) (v : Word)
  /-- FLASH_PROGRAM_DONE (R436). Flash programming completes, the failed-boot count clears and the module resets. -/
  | flashProgramDone
  /-- ABORT (R436). BOOT_CMD ABORT releases the owning port's load. -/
  | abort (w : Who) (v : Word)
  /-- CLEAR_FAULTS (R430). PMBus CLEAR_FAULTS clears the PMBus status bits. -/
  | clearFaults
  /-- STATUS_WORD (R430). PMBus STATUS_WORD returns summary status. -/
  | statusWord
  /-- STATUS_INPUT (R430). PMBus STATUS_INPUT returns input warnings and faults. -/
  | statusInput
  /-- STATUS_TEMPERATURE (R430). PMBus STATUS_TEMPERATURE returns thermal status. -/
  | statusTemperature
  /-- READ_VIN (R430). PMBus READ_VIN returns input voltage. -/
  | readVin
  /-- READ_IIN (R430). PMBus READ_IIN returns input current. -/
  | readIin
  /-- READ_TEMPERATURE_1 (R430). PMBus READ_TEMPERATURE_1 returns cold-plate temperature. -/
  | readTemperature1
  /-- READ_TEMPERATURE_2 (R430). PMBus READ_TEMPERATURE_2 returns the hottest die temperature. -/
  | readTemperature2
  /-- READ_PIN (R430). PMBus READ_PIN returns input power. -/
  | readPin
  /-- PMBUS_REVISION (R430). PMBus PMBUS_REVISION returns 0x44. -/
  | pmbusRevision
  /-- MFR_ID (R430). PMBus MFR_ID returns FELWICK. -/
  | mfrId
  /-- MFR_MODEL (R430). PMBus MFR_MODEL returns FM-TS9-M1A. -/
  | mfrModel
  /-- PMBUS_UNSUPPORTED (R430). An unsupported PMBus command sets the CML bit of STATUS_WORD. -/
  | pmbusUnsupported (code : Byte)
  /-- BLK_INT_STAT_WRITE (R444). A W1C write to BLK_INT_STAT clears event bits and resends the vector if the summary stays non-zero. -/
  | blkIntStatWrite (w : Who) (pg : Fin 72) (v : Word)
  /-- BLK_INT_EN_WRITE (R444). A write to BLK_INT_EN changes the event mask and may send the page's vector. -/
  | blkIntEnWrite (w : Who) (pg : Fin 72) (v : Word)
  /-- BLK_CTL_WRITE (R444). A write to BLK_CTL changes the page's vector routing and may send it. -/
  | blkCtlWrite (w : Who) (pg : Fin 72) (v : Word)
  /-- BLK_INT_SET (R439). A write to BLK_INT_SET sets event bits without moving counters. -/
  | blkIntSet (w : Who) (pg : Fin 72) (v : Word)
  /-- BLK_ERR_SRC_WRITE (R446). Writing 1 to BLK_ERR_SRC.VALID clears and re-arms the page's error capture. -/
  | blkErrSrcWrite (w : Who) (pg : Fin 72) (v : Word)
  /-- CNT_SNAP (R448). BLK_CNT_CTL.SNAP copies every counter, peak and minimum of the page in one cycle. -/
  | cntSnap (w : Who) (pg : Fin 72) (v : Word)
  /-- CNT_CLEAR (R448). BLK_CNT_CTL.CLEAR zeroes the page's live counters after any snapshot. -/
  | cntClear (w : Who) (pg : Fin 72) (v : Word)
  /-- PAIR_LO_READ (R441). A read of a _LO register latches the paired _HI for the reader. -/
  | pairLoRead (w : Who) (off : Nat)
  /-- PAIR_HI_READ (R441). A read of a _HI register returns and consumes the reader's latch, or the live half. -/
  | pairHiRead (w : Who) (off : Nat)
  /-- PAIR_LO_WRITE (R441). A write to a _LO register is held for the writer. -/
  | pairLoWrite (w : Who) (off : Nat) (v : Word)
  /-- PAIR_HI_WRITE (R441). A write to a _HI register commits both halves to the block. -/
  | pairHiWrite (w : Who) (off : Nat) (v : Word)
  /-- REGISTER_WRITE (R7). A write to any register without a row of its own is checked for class, lock, domain and encoding and applied or refused. -/
  | registerWrite (w : Who) (off : Nat) (v : Word)
  /-- LINE_LASER_FADE_WINDOW (R298). The active line laser's power, taken in 1 s windows under R293, falling 1.5 dB or 3.0 dB below beginning of life, or its frequency error passing ±2.5 GHz for 100 ms, raises OPT_LINE_WARN or schedules a switch-over. -/
  | lineLaserFadeWindow (p : Port) (pwr : Int) (ferr : Int)
  /-- LINE_LASER_UNIT_REPLACE (R300). A line laser unit is replaced in its bay while its port is disabled, ending the FAILED state of the former active laser. -/
  | lineLaserUnitReplace (p : Port)
  /-- MONITOR_READING_DONE (R289). An optics monitor reading started through OPT_MON ends after its integration time and sets VALID and VALUE. -/
  | monitorReadingDone (value : BitVec 24)
  /-- PPS_OUTPUT_EDGE (R343). While PPS owns the TIME_IO pins, each whole second of network time drives a rising edge on them that stays high for 100 µs. -/
  | ppsOutputEdge (fall : Bool)
  /-- PORT_SF_HOLD (R394). A line port facing a ring neighbour that has stayed in SF for 50 ms puts the group into HELD. -/
  | portSfHold (p : Port)
  /-- LEADER_JOIN_REQUEST (R402). The leader receives a join request from a member that missed a reconfiguration and starts a reconfiguration under R395. -/
  | leaderJoinRequest (g : Fin 64) (pos : Fin 16)
  /-- SPARE_MIRROR_REQUEST (R406). A position's buddy receives a taking-over spare's request for the mirror and writes each mirror block into the spare's state arrays over a COPY queue pair at up to MGMT_MIRROR_RATE. -/
  | spareMirrorRequest (seid : BitVec 16)
  deriving DecidableEq, Repr

end Sys2Proof
end

