-- ==== Sys2Proof/Machine/Bits.lean ====
section
/-! DEFINITION. Bit fields, byte order and the plainest number helpers that every block uses. -/
namespace Sys2Proof.Machine

/-- Field of `n` bits from bit `lo` of a number (00 R2: bit 0 is the least significant). -/
def fldN (w lo n : Nat) : Nat := w / 2 ^ lo % 2 ^ n

/-- Field of `n` bits from bit `lo` of a register (00 R2). -/
def fld (w : Word) (lo n : Nat) : Nat := fldN w.toNat lo n

/-- Bit `i` of a register. -/
def bit (w : Word) (i : Nat) : Bool := w.getLsbD i

/-- A word from a number. -/
def wd (n : Nat) : Word := BitVec.ofNat 32 n

/-- `w` with the field of `n` bits from bit `lo` replaced by `v`. -/
def setFld (w : Word) (lo n v : Nat) : Word :=
  (w &&& ~~~ (wd ((2 ^ n - 1) * 2 ^ lo))) ||| wd (v % 2 ^ n * 2 ^ lo)

/-- 1 for true. -/
def b2n (b : Bool) : Nat := if b then 1 else 0

/-- `w` with bit `i` set to `b`. -/
def setBit (w : Word) (i : Nat) (b : Bool) : Word := setFld w i 1 (b2n b)

/-- The bits of `old` outside `mask`, and those of `v` inside it. -/
def merge (mask old v : Word) : Word := (old &&& ~~~ mask) ||| (v &&& mask)

/-- The number that `bytes` spell, least significant first (00 R3). -/
def leNat : List Byte → Nat
  | [] => 0
  | b :: bs => b.toNat + 256 * leNat bs

/-- `k` bytes of `n`, least significant first (00 R3). -/
def natLE : Nat → Nat → List Byte
  | 0, _ => []
  | k + 1, n => BitVec.ofNat 8 (n % 256) :: natLE k (n / 256)

/-- `k` bytes of `n`, most significant first. -/
def natBE (k n : Nat) : List Byte := (natLE k n).reverse

/-- The number of `k` bytes from offset `o`; bytes past the end read zero. -/
def leAt (bs : List Byte) (o k : Nat) : Nat := leNat ((bs.drop o).take k)

/-- A 32-bit word of a byte string at offset `o`. -/
def wAt (bs : List Byte) (o : Nat) : Word := wd (leAt bs o 4)

/-- The low and high words of a 64-bit value. -/
def loW (v : DWord) : Word := v.setWidth 32
def hiW (v : DWord) : Word := (v >>> 32).setWidth 32

/-- A 64-bit value from its halves. -/
def pairW (hi lo : Word) : DWord := BitVec.ofNat 64 (hi.toNat * 2 ^ 32 + lo.toNat)

/-- Every byte is zero. -/
def allZero (bs : List Byte) : Bool := bs.all fun b => b = 0

/-- The signed value of a `n`-bit number. -/
def sext (n v : Nat) : Int := if v < 2 ^ (n - 1) then (v : Int) else (v : Int) - 2 ^ n

/-- The `n`-bit two's complement of an integer. -/
def twos (n : Nat) (i : Int) : Nat := (i % (2 ^ n : Int)).toNat

/-- The bits of an integer clamped to a signed `n`-bit field. -/
def clampS (n : Nat) (i : Int) : Int := max (-(2 ^ (n - 1) : Int)) (min i (2 ^ (n - 1) - 1))

/-- Floor division rounding up. -/
def ceilDiv (a b : Nat) : Nat := (a + b - 1) / b

/-- The number of set bits among the low `n`. -/
def popc {w : Nat} (v : BitVec w) : Nat := (List.range w).countP fun i => v.getLsbD i

/-- Lists of the indices below `n` at which a bit vector is set, rising. -/
def setIdx {w : Nat} (v : BitVec w) : List Nat := (List.range w).filter fun i => v.getLsbD i

/-- The number whose bits at some places are set. -/
def bitsNat (l : List Nat) : Nat := l.foldl (fun a i => a + 2 ^ i) 0

/-- Replaces place `i` of a list, if it has it. -/
def setAt {α : Type} (l : List α) (i : Nat) (a : α) : List α := l.set i a

/-- Place `i` of a fixed number of things set to `a`, and changed by `f`. -/
def vset {α : Type} {n : Nat} (v : Vector α n) (i : Nat) (a : α) : Vector α n := v.setIfInBounds i a
def vmod {α : Type} {n : Nat} (v : Vector α n) (i : Nat) (f : α → α) : Vector α n := if h : i < n then v.set i (f v[i]) else v

/-- Applies `f` to place `i` of a list, if it has it. -/
def modAt {α : Type} (l : List α) (i : Nat) (f : α → α) : List α := l.modify i f

/-- Overwrites `bs` from offset `o` with `new`, inside its length. -/
def patch (bs : List Byte) (o : Nat) (new : List Byte) : List Byte :=
  bs.take o ++ (new.take (bs.length - o)) ++ bs.drop (o + new.length)

/-- The serial difference a − b mod 2³² lies from 1 to 2³¹ − 1 (02 R33). -/
def serialGt (a b : Word) : Bool := 1 ≤ (a - b).toNat && (a - b).toNat < 2 ^ 31

/-- Partitions of [b, b + n) and [c, c + m) overlap. -/
def overlaps (b n c m : Nat) : Bool := n > 0 && m > 0 && b < c + m && c < b + n

end Sys2Proof.Machine
end

