-- ==== Sys2Proof/Machine/SMap.lean ====
section
/-! DEFINITION. Sparse maps as plain data: a list of key and value pairs in one canonical form, with a default for what
is not listed. Memories, register files, counters and tables of State are all of this form. -/
namespace Sys2Proof.Machine

/-- A sparse map from natural keys, as a list of pairs; what is not listed reads as the default of its reader. -/
abbrev SMap (V : Type) := List (Nat × V)

/-- What key `k` reads as; an unlisted key reads `d k`. -/
def SMap.get {V : Type} (d : Nat → V) : SMap V → Nat → V
  | [], k => d k
  | (k', v) :: m, k => if k = k' then v else SMap.get d m k

/-- `m` without key `k`. -/
def SMap.erase {V : Type} (k : Nat) : SMap V → SMap V
  | [] => []
  | (k', v) :: m => if k = k' then SMap.erase k m else (k', v) :: SMap.erase k m

/-- Puts `(k, v)` before the first greater key. -/
def SMap.insert {V : Type} (k : Nat) (v : V) : SMap V → SMap V
  | [] => [(k, v)]
  | (k', v') :: m => if k < k' then (k, v) :: (k', v') :: m else (k', v') :: SMap.insert k v m

/-- `m` with `k` reading `v`; writing the default removes the entry, so equal maps are equal data. -/
def SMap.set {V : Type} [DecidableEq V] (d : Nat → V) (k : Nat) (v : V) (m : SMap V) : SMap V :=
  if v = d k then SMap.erase k m else SMap.insert k v (SMap.erase k m)

/-- Keys strictly rising from above `lo`, and no entry equal to its default. -/
def SMap.wfFrom {V : Type} [DecidableEq V] (d : Nat → V) : Option Nat → SMap V → Bool
  | _, [] => true
  | lo, (k, v) :: m =>
    (match lo with | none => true | some l => decide (l < k)) && decide (v ≠ d k) && SMap.wfFrom d (some k) m

/-- The canonical form. -/
def SMap.wf {V : Type} [DecidableEq V] (d : Nat → V) (m : SMap V) : Bool := SMap.wfFrom d none m

/-- Applies `f` to what `k` reads. -/
def SMap.modify {V : Type} [DecidableEq V] (d : Nat → V) (k : Nat) (f : V → V) (m : SMap V) : SMap V :=
  SMap.set d k (f (SMap.get d m k)) m

/-- The value of key `k` of a map whose values are optional; an unlisted key holds nothing. -/
def SMap.find {V : Type} (m : SMap V) (k : Nat) : Option V :=
  match m with
  | [] => none
  | (k', v) :: m' => if k = k' then some v else SMap.find m' k

/-- Sets key `k` to `v`, of a map in which an unlisted key holds nothing. -/
def SMap.put {V : Type} (k : Nat) (v : V) (m : SMap V) : SMap V := SMap.insert k v (SMap.erase k m)

/-- Keeps the entries whose key and value pass `p`. -/
def SMap.keep {V : Type} (p : Nat → V → Bool) (m : SMap V) : SMap V := m.filter fun kv => p kv.1 kv.2

/-- Applies `f` to every listed value. -/
def SMap.mapVals {V : Type} (f : Nat → V → V) (m : SMap V) : SMap V := m.map fun kv => (kv.1, f kv.1 kv.2)

end Sys2Proof.Machine
end

