-- ==== Sys2Proof/Machine/Blocks.lean ====
section
/-! DEFINITION. The state of the hub's common parts: page headers, scheduler, host interface, memories, buffer pools,
clocks, power and boot. The default of a field is its value at reset. -/
namespace Sys2Proof.Machine

/-- The header of a register page that software and events change (18 Tables 18.2 to 18.6). -/
structure PageHdr where
  /-- BLK_CTL.DEST and VEC. -/
  dest : Nat := 0
  vec : Nat := 0
  intStat : Word := 0
  intEn : Word := 0
  /-- BLK_ERR_SRC: VALID, KIND = refusal, LOST, CODE; BLK_ERR_INFO; BLK_ERR_ADDR. -/
  errValid : Bool := false
  errRefusal : Bool := false
  errLost : Nat := 0
  errCode : Nat := 0
  errInfo : Word := 0
  errAddr : DWord := 0
  /-- BLK_CNT_CTL.VIEW and HELD, BLK_STAT.SAT, BLK_LOCK.LOCKED. -/
  view : Bool := false
  held : Bool := false
  sat : Bool := false
  locked : Bool := false
  deriving DecidableEq, Repr

/-- What the block has sent out: the model's own trail of its effects on the world outside. -/
inductive Out where
  /-- A DMA write into host memory (15 R368). -/
  | dma (f : Func) (addr : Nat) (data : List Byte) (relaxed : Bool)
  /-- An MSI-X message (15 R385, 18 R444). -/
  | msix (f : Func) (vec : Nat)
  /-- A PBA bit set instead of a masked message. -/
  | pba (f : Func) (vec : Nat)
  /-- What a register read returns. -/
  | read (w : Who) (off : Nat) (v : Word)
  /-- A PMBus answer: command code and bytes. -/
  | pmbus (code : Nat) (data : List Byte)
  /-- A message posted on a queue pair, whole: an RDMA WRITE with its virtual address, key, bytes and immediate (04 R99, 08 R215, R225).
  Its packets leave as frames. -/
  | rdma (qpn : BitVec 24) (va : Nat) (key : Word) (data : List Byte) (imm : Option Word)
  /-- The Remote Access Error NAK of a write into a reduction window (04 R96). -/
  | winNak (qpn : BitVec 24)
  /-- The Remote Invalid Request NAK of a stream message (08 R224). -/
  | streamNak (qpn : BitVec 24)
  /-- The multicast port reads a piece of a SCATTER's wave for the contributors that a mask selects: operation, mask, offset and
  bytes (09 R249, R250). -/
  | scatter (op : Nat) (mask : DWord) (off n : Nat)
  /-- A frame leaving a fabric MAC in a class, from its destination MAC address (09 R242). -/
  | frame (m : Mac) (cls : Nat) (data : List Byte)
  /-- A packet leaving by an internal output of the switch core (09 Table 9.7). -/
  | inner (o : Nat) (data : List Byte)
  /-- PFC frames of a MAC (09 R244). -/
  | pfc (m : Mac) (prio : Nat) (xoff : Bool)
  /-- A ring record opened on a port, for its own command: channel it came on, type and content (07 R188). -/
  | ringRec (p : Port) (chan : BitVec 8) (kind : Nat) (r : RingRec)
  /-- A sheet that has arrived for one that an operation or a stream waits for, for its own command (06 R161). -/
  | replacement (cw : CwId) (i : Nat) (sheet : List Byte)
  /-- A line frame (10 R265). -/
  | lineFrame (p : Port) (bytes : List Byte)
  /-- A segment that a tributary has delivered, for its own command (10 R270). -/
  | segment (p : Port) (trib : Nat) (bytes : List Byte)
  /-- A management-channel frame that the root has accepted on a port, and a message that it sends over the management network instead
  (19 R453). -/
  | mgmtFrame (p : Port) (frame : List Byte)
  | mgmtNet (frame : List Byte)
  /-- A protected message opened on a port, for its own command (10 R277). -/
  | protRecv (p : Port) (m : ProtMsg)
  /-- A protected message handed to its consumer (10 R278). -/
  | protDeliver (p : Port) (m : ProtMsg)
  /-- A message of the management root to a SEID or group: kind and body (07, 12, 13, 16). -/
  | root (seid : BitVec 16) (kind : String) (body : List Nat)
  /-- A message to every leader of a SETUP (07 R175). -/
  | setup (g : Nat) (next : Bool) (m : SetupMsg)
  /-- A handshake message that has arrived for a link session, for its own command (12 R324). -/
  | handshake (sess : Nat) (msg : List Byte)
  /-- An adoption chunk-wave that is whole in felt, for its own command (16 R397). -/
  | adoption (cw : CwId)
  /-- What a load of a general-core task returns (05 R135). -/
  | coreLoad (c addr : Nat) (data : List Byte)
  /-- A level change of a pin (19 Table 19.3). -/
  | pin (name : String) (level : Bool)
  /-- The module leaves: every block stops (17 R428). -/
  | reset
  deriving DecidableEq, Repr

/-- Where a descriptor comes from (02 R40). -/
inductive Src where
  | fn (f : Func)
  | cores (d : Die)
  deriving DecidableEq, Repr

/-- An operation descriptor, decoded (02 Table 2.3). -/
structure Desc where
  unit : Nat
  cpl : Bool
  nsig : Nat
  nwait : Nat
  trig : Nat
  job : Job
  opcode : Nat
  seq : Word
  release : Bool
  claim : Bool
  wave : Nat
  vslots : Nat
  ream : Nat
  wcnt : List Nat
  wval : List Word
  scnt : List Nat
  sinc : List Nat
  trigVal : DWord
  opArg : DWord
  deriving DecidableEq, Repr

/-- The scoreboard states (02 Table 2.4); DONE and FAULTED free the entry at once. -/
inductive OpSt where
  | armed | waiting | claiming | ready | active
  deriving DecidableEq, Repr

/-- How far the unit of an ACTIVE entry is: running, completed, or ended with a completion status (15 Table 15.9). -/
inductive Work where
  | running
  | finished
  | faulted (status : Nat) (detail : Nat)
  deriving DecidableEq, Repr

/-- One scoreboard entry (02 R38, R42). -/
structure Entry where
  id : Nat
  src : Src
  d : Desc
  st : OpSt
  /-- SCH_OP_STALL raised in the present state (R46). -/
  stalled : Bool := false
  /-- Cancelled or quiesced while ACTIVE: its signals are suppressed (R47). -/
  cancelled : Bool := false
  work : Work := .running
  /-- Order of entry into CLAIMING (R44). -/
  order : Nat := 0
  /-- The unit's own hold on the operation: engine descriptor words as read at issue (05 R128). -/
  edesc : List Word := []
  /-- Contributor set of a COLLECT or SCATTER (04 R98, 08 R215), and those that have acknowledged. -/
  cset : BitVec 512 := 0
  acked : BitVec 512 := 0
  /-- Contributors of a SCATTER's passes that are still to come (09 R249). -/
  todo : BitVec 512 := 0
  /-- A count of the unit's: sheets of the operation done so far, or the collection's round. -/
  pos : Nat := 0
  deriving DecidableEq, Repr

/-- The scheduler (02). -/
structure Sch where
  /-- Step axis A of each job (R32). -/
  axis : SMap DWord := []
  /-- m_c, keyed 512 × job + c (R33). -/
  mc : SMap DWord := []
  /-- Last MSEQ accepted, keyed alike; unlisted: none held (R33, R34). -/
  mseq : SMap Word := []
  /-- The scoreboard, oldest first (R38). -/
  ops : List Entry := []
  nextId : Nat := 0
  /-- Last SEQ accepted of a source and job; unlisted: none held (R40). -/
  lastSeq : SMap Word := []
  /-- Sync counters (R48). -/
  cnt : SMap Word := []
  /-- Last job issued, per unit (R45). -/
  rr : SMap Nat := []
  /-- SCH_OPS_STAT.OPS_PEAK. -/
  peak : Nat := 0
  /-- Order numbers given to claims (R44). -/
  claimNo : Nat := 0
  deriving DecidableEq, Repr

/-- States of a job (15 Table 15.2). -/
inductive JobSt where
  | free | assigned | running | quiescing
  deriving DecidableEq, Repr

/-- A completion record without its PHASE (15 Table 15.8). -/
structure CRec where
  seq : Word
  /-- 0 = packet, 1 = operation. -/
  kind : Nat
  job : Nat
  opcode : Nat
  status : Nat
  tag : DWord
  result : DWord
  detail : Word
  /-- The headbox slot that is free again once the record is written (R375). -/
  slot : Option Nat := none
  deriving DecidableEq, Repr

/-- A command packet taken from its slot (15 Table 15.5). -/
structure Pkt where
  f : Func
  slot : Nat
  q : PktJob
  opcode : Nat
  seq : Word
  target : DWord
  arg0 : DWord
  arg1 : DWord
  tag : DWord
  payload : List Byte
  deriving DecidableEq, Repr

/-- A headbox slot being filled, or taken (15 R375). -/
structure Slot where
  bytes : SMap Byte := []
  /-- The packet is complete, and waits for room in the hold (R383); it has been taken. -/
  whole : Bool := false
  taken : Bool := false
  deriving DecidableEq, Repr

/-- One MSI-X table entry (PCIe). -/
structure MsixEntry where
  addr : DWord := 0
  data : Word := 0
  masked : Bool := true
  deriving DecidableEq, Repr

/-- Per-function state (15). -/
structure FnSt where
  /-- HOST_F_CQ_TAIL, the PHASE of the next record, and the records written and not consumed (R382). -/
  tail : Nat := 0
  phase : Bool := true
  used : Nat := 0
  /-- Completion hold (R383), oldest first. -/
  hold : List CRec := []
  nextSeq : SMap Word := []
  /-- HOST_PKT_GAP raised for the present gap (R377). -/
  gap : SMap Bool := []
  /-- Records written since the last vector 1 (R385). -/
  sinceIrq : Nat := 0
  msix : SMap MsixEntry := []
  pba : DWord := 0
  /-- MSI-X Enable and Function Mask of the PCIe capability; no command of the table writes them (log 50). -/
  msixEn : Bool := true
  fnMask : Bool := false
  deriving DecidableEq, Repr

/-- The host interface (15). -/
structure HostB where
  /-- State and owner of each job (Table 15.14). -/
  jobSt : SMap JobSt := []
  owner : SMap Nat := []
  fns : SMap FnSt := []
  /-- Headbox slots, keyed 2,048 × f + s. -/
  slots : SMap Slot := []
  /-- Packets taken and not completed, oldest first. -/
  pkts : List Pkt := []
  /-- Per port: link up, width in lanes, rate generation (Table 15.11); NumVFs and VF Enable. -/
  linkUp : Vector Bool 2 := #v[false, false]
  width : Vector Nat 2 := #v[0, 0]
  rate : Vector Nat 2 := #v[0, 0]
  numVfs : Vector Nat 2 := #v[15, 15]
  deriving DecidableEq, Repr

/-- Owner of a pool buffer (14 Table 14.6), as the 8-bit owner tag of R363. -/
inductive PoolOwner where
  | headbox | grant | stream | mirror | dump | root
  deriving DecidableEq, Repr

/-- What asks for or holds pool buffers: owner kind, and the owner's own number. -/
structure PoolReq where
  owner : PoolOwner
  key : Nat
  job : Option Job
  pool : Nat
  count : Nat
  /-- Bytes that it is for. -/
  len : Nat
  deriving DecidableEq, Repr

/-- An allocated pool buffer (R363), and the bytes it holds of what was put into it. -/
structure PoolBuf where
  owner : PoolOwner
  key : Nat
  job : Option Job
  len : Nat
  deriving DecidableEq, Repr

/-- The buffer-pool manager (14 R360 to R364). -/
structure Pool where
  /-- Allocated buffers, keyed 2²⁵ × pool + index. -/
  bufs : SMap PoolBuf := []
  /-- Generation of every buffer, keyed alike (R363). -/
  gens : SMap Nat := []
  /-- Requests waiting under R361 and under R362, oldest first. -/
  waiting : List PoolReq := []
  limited : List PoolReq := []
  /-- POOL_LOW raised and not re-armed (R364). -/
  lowRaised : SMap Bool := []
  /-- POOL_Pk_MIN; unlisted: the present free count at reset. -/
  min : SMap Nat := []
  deriving DecidableEq, Repr

/-- The imbalance detection of one HBM instance (14 R353). -/
structure Imbal where
  state : Bool := false
  run : Nat := 0
  hotValid : Bool := false
  hotPort : Nat := 0
  hotPc : Nat := 0
  /-- Bytes of the last window of each of the 96 pseudo-channels (MEM_PC_BYTES). -/
  bytes : List Nat := []
  deriving DecidableEq, Repr

/-- The memories (14). -/
structure MemB where
  hbm : SMap Byte := []
  lp : SMap Byte := []
  /-- Poisoned units: HBM address / 64 and LPDDR5X address / 8 (R356). -/
  hbmPoison : SMap Bool := []
  lpPoison : SMap Bool := []
  /-- HKEY and LKEY (R351). -/
  hkey : DWord := 0
  lkey : DWord := 0
  /-- MEM_STAT.RATE. -/
  reduced : Bool := false
  imbal : Vector Imbal 2 := #v[{}, {}]
  deriving DecidableEq, Repr

/-- One clock domain (17 Table 17.9, CLK_Dd_STAT). -/
structure DomSt where
  gated : Bool := false
  inReset : Bool := false
  byp : Bool := false
  switching : Bool := false
  hung : Bool := false
  deriving DecidableEq, Repr

/-- The clock supervisor and the CLK page (17). -/
structure Clk where
  /-- REF: 0 = OSC_A, 1 = OSC_B, 2 = INT, from which B1 runs (Table 17.7). -/
  ref : Nat := 2
  /-- CLK_SRC_STAT. -/
  good : BitVec 7 := 0x7F
  /-- Consecutive windows out of band, and in band, of each source (R416). -/
  badRun : Vector Nat 7 := Vector.replicate 7 0
  goodRun : Vector Nat 7 := Vector.replicate 7 0
  doms : Vector DomSt 18 := Vector.replicate 18 {}
  nmi : Word := 0
  busy : Bool := false
  status : Nat := 0
  /-- A SET_SRC waiting on a stopped clock: domain and source (R421). -/
  hang : Option (Nat × Bool) := none
  fmGo : Bool := false
  fmDone : Bool := false
  fmFail : Bool := false
  fmCount : DWord := 0
  fmClaim : Bool := false
  deriving DecidableEq, Repr

/-- Power states (17 Table 17.3). -/
inductive PwrSt where
  | off | standby | powering | on | fault
  deriving DecidableEq, Repr

/-- The input stage and the PWR page (17). Reset is a module reset with power on. -/
structure Pwr where
  st : PwrSt := .on
  /-- Rail groups up (PWR_STAT.RAILS). -/
  rails : Nat := 1
  /-- The last readings of PWR_VIN, PWR_IIN, PWR_PIN and PWR_TJ_MAX. -/
  vin : Word := 0
  iin : Word := 0
  pin : Word := 0
  tj : Word := 0
  /-- PMBus status bits: CML; STATUS_INPUT; STATUS_TEMPERATURE. -/
  cml : Bool := false
  stInput : Nat := 0
  stTemp : Nat := 0
  /-- PMB_ADDR as sampled (19 R452). -/
  addr : BitVec 3 := 7
  /-- Pin ENABLE. -/
  enable : Bool := true
  /-- FAULT_N held by the input stage in FAULT. -/
  faultHeld : Bool := false
  deriving DecidableEq, Repr

/-- A record of the boot ledger, without its CRC (17 Table 17.8). -/
structure LedRec where
  bootNo : Word
  step : Nat
  /-- 1 = START, 2 = DONE, 3 = PFAULT. -/
  kind : Nat
  alt : Bool := false
  skip : Bool := false
  result : Byte := 0
  detail : Word := 0
  deriving DecidableEq, Repr

/-- Boot (17 R431 to R436). -/
structure Boot where
  /-- The step running, 1 to 12; 12 with `done` full after B12. -/
  step : Nat := 1
  done : BitVec 12 := 0
  /-- Alternatives and skips in force (R433). -/
  alt : BitVec 12 := 0
  skip : BitVec 12 := 0
  fails : Nat := 0
  recovery : Bool := false
  /-- Boot stopped on a failure; the root restarts it 1 s later. -/
  stopped : Bool := false
  bootNo : Word := 1
  /-- Ledger records in flash, newest first, at most 256 (R432). -/
  ledger : List LedRec := [⟨1, 1, 1, false, false, 0, 0⟩]
  /-- Module configuration record in flash: CTRL_PF and DBG_REQ (R434). -/
  cfgRec : Nat := 0
  /-- A recovery wait asked for by BOOT_CMD RECOVER. -/
  recoverReq : Bool := false
  /-- The image window (R436). -/
  image : SMap Byte := []
  loadOwner : Option Nat := none
  loadStat : Nat := 0
  busy : Bool := false
  status : Nat := 0
  /-- The firmware image in flash, none for the one of manufacture; and the one that this boot runs. -/
  flashImage : Option (List Byte) := none
  running : Option (List Byte) := none
  deriving DecidableEq, Repr

/-- An adoption chunk-wave that this gateway is to send on transfer 0 of a half (16 R397): its RSEQ, its place in the lane's count
(07 R190), and its sheets, once they are here. -/
structure AdoptTx where
  half : Nat
  rseq : Nat
  place : Nat
  sheets : Option (List (List Byte)) := none
  deriving DecidableEq, Repr

/-- The management root's view of a group (16 Table 16.11), and the progress of its reconfiguration (R396). -/
structure MGrp where
  /-- Role epoch (R401). -/
  epoch : Word := 0
  fenced : BitVec 16 := 0
  cut : Option (BitVec 4) := none
  chain : Bool := false
  leader : Nat := 0
  /-- A reconfiguration runs here; at the leader, the APPLIED values answered so far, by position. -/
  running : Bool := false
  ready : SMap (List DWord) := []
  /-- Positions of the side that is authoritative for the join in progress (08 R218); none when no side joins. -/
  auth : Option (BitVec 16) := none
  /-- Reams that this member adopts, and the blocks of each that it has adopted so far (R397). -/
  adopt : List Nat := []
  adopted : SMap (List Nat) := []
  /-- The position named as the source of each ream (R396 step 4), and the adoption chunk-waves still to be sent (R397). -/
  srcs : List (Option (Fin 16)) := []
  sends : List AdoptTx := []
  /-- The group has been held for HOLD_LIMIT in the present hold. -/
  limitRaised : Bool := false
  deriving DecidableEq, Repr

/-- What the leases say of one CIPH_PEER entry (16 Table 16.10). -/
structure MPeer where
  lease0 : Bool := false
  lease1 : Bool := false
  failed : Bool := false
  site : Nat := 0
  hbseq : Word := 0
  reach : BitVec 16 := 0
  health : Nat := 0
  /-- The REACH of its first heartbeat after it was UNREACHABLE: its side of a partition (08 R218). -/
  side : BitVec 16 := 0
  /-- The low 64 bits of the digest of a spare that has claimed its position (16 R401, R407). -/
  holder : Option DWord := none
  deriving DecidableEq, Repr

/-- A COPY write held by the buddy until its replay ends (16 R403). -/
structure Intake where
  key : Nat
  job : Job
  ream : Nat
  /-- Wave index within the ream. -/
  wave : Nat
  /-- Slots of the mirrored position's waves, and of this one. -/
  vmax : Nat
  vslots : Nat
  /-- The mirrored ream's padded length. -/
  npad : Nat
  round : Nat
  rseq : Word
  sheets : List (List Byte)
  /-- The EXPAND that replays it, with SEQ 0. -/
  d : Desc
  deriving DecidableEq, Repr

/-- Management, resilience and spares (16). -/
structure Mgmt where
  grps : SMap MGrp := []
  peers : SMap MPeer := []
  /-- Sites whose every peer is UNREACHABLE, raised (R392). -/
  lost : BitVec 16 := 0
  hbseq : Word := 0
  /-- MGMT_STAT.SSTATE (Table 16.7). -/
  sstate : Nat := 0
  /-- Network time of the last expulsion granted here as spare (R410), and whether it awaits its TAKEOVER. -/
  lastGrant : Option DWord := none
  grantOpen : Bool := false
  /-- EXPEL_REQ sent and not answered; denied, to be repeated. -/
  expelAsked : Bool := false
  expelDenied : Bool := false
  health : Nat := 0
  /-- MEM_CE and GC_MEM_CE since the last points for them (Table 16.5). -/
  ceRem : Nat := 0
  /-- Whether a ream's mirror is valid, keyed 1,024 × job + ream; place of the write expected next, keyed 32 × job + chunk (R403, R404). -/
  mirValid : SMap Bool := []
  mirNext : SMap Word := []
  intake : List Intake := []
  intakeNo : Nat := 0
  /-- Descriptors of replays in the scoreboard, with SEQ 0, and their ream, as 1,024 × job + ream. -/
  replays : List (Desc × Nat) := []
  /-- This spare has sent its CLAIM in the present takeover (R406). -/
  claimed : Bool := false
  busy : Bool := false
  status : Nat := 0
  portUp : Vector Bool 2 := #v[true, true]
  /-- Sends of the management-channel frame that awaits its acknowledgement, per line port (19 R453). -/
  mcc : Vector Nat 2 := #v[0, 0]
  /-- Network time of the last EPOCH_NAK, by sender SEID × 64 + group (R401). -/
  nakAt : SMap DWord := []
  deriving DecidableEq, Repr

/-- A launch in a slot of a MAC (13 R341), with the completion record that it will give. -/
structure Launch where
  t : Word
  frame : List Byte
  tsid : Option Nat
  f : Nat
  r : CRec
  deriving DecidableEq, Repr

/-- A transmit stamp (13 R340). -/
structure Stamp where
  tsid : Nat
  src : Nat
  ts : Word
  deriving DecidableEq, Repr

/-- Time transfer over one line port (13 R332, R333). -/
structure TPort where
  echoTx : Word := 0
  echoRx : Word := 0
  echoValid : Bool := false
  /-- The window being gathered: frames, and sums of t2 − t1 and t4 − t3. -/
  n : Nat := 0
  sumA : Int := 0
  sumB : Int := 0
  delay : Int := 0
  rtt : Int := 0
  /-- The peer as its frames show it; before the first one, no stratum (255). -/
  seid : Nat := 0
  upSeid : Nat := 0
  mepoch : Nat := 0
  master : Nat := 0
  stratum : Nat := 255
  locked : Bool := false
  holdover : Bool := false
  deriving DecidableEq, Repr

/-- The time unit (13). -/
structure TimeB where
  /-- Network time NT in ns; TIME_NS is its low half (R329). -/
  nt : DWord := 0
  /-- TIME_HI latched for a reader (R329). -/
  hi : SMap Word := []
  /-- 0 = FREE, 1 = ACQUIRE, 2 = LOCKED, 3 = HOLDOVER; the source in use; own stratum, master epoch and master. -/
  st : Nat := 0
  active : Nat := 0
  stratum : Nat := 255
  mepoch : Nat := 0
  master : Nat := 0xFFFF
  /-- Consecutive outliers; the source is newly selected; frequency trim in ppb. -/
  outliers : Nat := 0
  newSrc : Bool := false
  trim : Int := 0
  /-- θ of the last valid window, as a fraction of nanoseconds. -/
  theta : Option (Int × Nat) := none
  ports : Vector TPort 2 := #v[{}, {}]
  /-- PPS_IN has been missing for 1.5 s; the loss of the source in use has been counted (R337). -/
  ppsLost : Bool := false
  lost : Bool := false
  /-- TIME_CMD_STAT, the port of a CAL_ASYM and a pending SET_TIME. -/
  busy : Bool := false
  status : Nat := 0
  calPort : Option Nat := none
  setPend : Bool := false
  /-- The timestamp queue (R340). -/
  tsq : List Stamp := []
  ovf : Bool := false
  /-- Launch slots of each MAC, oldest first, and MACs whose head is armed (R341). -/
  launches : SMap (List Launch) := []
  armed : SMap Bool := []
  /-- Owner of the TIME_IO pins, REFUSED, and the level of the PPS output (R343). -/
  ioOwner : Nat := 0
  ioRefused : Bool := false
  pps : Bool := false
  deriving DecidableEq, Repr

end Sys2Proof.Machine
end

