-- ==== Sys2Proof/Machine/Num.lean ====
section
/-! DEFINITION. Exact dyadic numbers, the number formats of 03 Tables 3.1 and 3.2, conversions with rounding to nearest
even and with stochastic rounding (R62, R70), and FP32 arithmetic (R133, R211). -/
namespace Sys2Proof.Machine

/-- The exact number m × 2^e. -/
structure Dy where
  m : Int
  e : Int
  deriving DecidableEq, Repr

def Dy.zero : Dy := ⟨0, 0⟩

/-- 2^k for a k that is not negative. -/
def pow2 (k : Int) : Int := (2 ^ k.toNat : Nat)

/-- The integer mantissa of `x` at exponent `e`, at or below its own. -/
def Dy.at (x : Dy) (e : Int) : Int := x.m * pow2 (x.e - e)

def Dy.add (x y : Dy) : Dy :=
  let e := min x.e y.e
  ⟨x.at e + y.at e, e⟩

def Dy.neg (x : Dy) : Dy := ⟨-x.m, x.e⟩
def Dy.sub (x y : Dy) : Dy := x.add y.neg
def Dy.mul (x y : Dy) : Dy := ⟨x.m * y.m, x.e + y.e⟩
def Dy.abs (x : Dy) : Dy := ⟨x.m.natAbs, x.e⟩
def Dy.shift (x : Dy) (k : Int) : Dy := ⟨x.m, x.e + k⟩
def Dy.isZero (x : Dy) : Bool := x.m = 0
def Dy.isNeg (x : Dy) : Bool := x.m < 0
def Dy.ofInt (i : Int) : Dy := ⟨i, 0⟩

/-- x ≤ y. -/
def Dy.le (x y : Dy) : Bool := let e := min x.e y.e; x.at e ≤ y.at e
def Dy.lt (x y : Dy) : Bool := !y.le x
def Dy.max (x y : Dy) : Dy := if x.le y then y else x

/-- ⌊log₂ |x|⌋ of an x that is not zero. -/
def Dy.log2 (x : Dy) : Int := (Nat.log2 x.m.natAbs : Int) + x.e

/-- ⌊x × 2^k⌋. -/
def Dy.floorAt (x : Dy) (k : Int) : Int :=
  if x.e + k ≥ 0 then x.m * pow2 (x.e + k) else x.m / pow2 (-(x.e + k))

/-- x / 2^q rounded to the nearest integer, ties to even. -/
def Dy.rne (x : Dy) (q : Int) : Int :=
  if x.e ≥ q then x.m * pow2 (x.e - q)
  else
    let d := pow2 (q - x.e)
    let f := x.m / d
    let r := 2 * (x.m % d)
    if r < d then f else if r > d then f + 1 else if f % 2 = 0 then f else f + 1

/-- A floating-point format: mantissa bits, bias, all bits of a magnitude code, its largest finite code, and whether the
codes above that are Inf then NaN. -/
structure FpFmt where
  man : Nat
  bias : Nat
  maxCode : Nat
  width : Nat
  hasInf : Bool
  hasNan : Bool
  deriving DecidableEq, Repr

/-- 03 Table 3.2. -/
def fmtF32 : FpFmt := ⟨23, 127, 0x7F7FFFFF, 32, true, true⟩
def fmtBf16 : FpFmt := ⟨7, 127, 0x7F7F, 16, true, true⟩
def fmtF16 : FpFmt := ⟨10, 15, 0x7BFF, 16, true, true⟩
def fmtE4m3 : FpFmt := ⟨3, 7, 0x7E, 8, false, true⟩
def fmtE5m2 : FpFmt := ⟨2, 15, 0x7B, 8, true, true⟩
def fmtE3m2 : FpFmt := ⟨2, 3, 0x1F, 6, false, false⟩
def fmtE2m1 : FpFmt := ⟨1, 1, 0x7, 4, false, false⟩

/-- The exponent of one unit of a subnormal. -/
def FpFmt.qmin (f : FpFmt) : Int := 1 - (f.bias : Int) - f.man

/-- The value of a finite magnitude code. -/
def FpFmt.decMag (f : FpFmt) (c : Nat) : Dy :=
  let ex := c / 2 ^ f.man
  let mt := c % 2 ^ f.man
  if ex = 0 then ⟨mt, f.qmin⟩ else ⟨(mt + 2 ^ f.man : Nat), f.qmin + ex - 1⟩

/-- Sign and magnitude of a code. -/
def FpFmt.neg (f : FpFmt) (c : Nat) : Bool := c / 2 ^ (f.width - 1) % 2 = 1
def FpFmt.mag (f : FpFmt) (c : Nat) : Nat := c % 2 ^ (f.width - 1)

/-- Whether a code is finite (neither Inf nor NaN). -/
def FpFmt.finite (f : FpFmt) (c : Nat) : Bool := f.mag c ≤ f.maxCode

/-- The value of a finite code. -/
def FpFmt.dec (f : FpFmt) (c : Nat) : Dy :=
  let x := f.decMag (f.mag c)
  if f.neg c then x.neg else x

/-- The code of a magnitude code with a sign. -/
def FpFmt.sign (f : FpFmt) (neg : Bool) (mag : Nat) : Nat := if neg then 2 ^ (f.width - 1) + mag else mag

/-- The magnitude code nearest to |x|, ties to even; it may lie above the largest finite code. -/
def FpFmt.encMag (f : FpFmt) (x : Dy) : Nat :=
  if x.m = 0 then 0
  else
    let a := x.abs
    let q := max (a.log2 - f.man) f.qmin
    (a.rne q + (q - f.qmin) * 2 ^ f.man).toNat

/-- The greatest magnitude code whose value is at or below |x|. -/
def FpFmt.floorMag (f : FpFmt) (x : Dy) : Nat :=
  if x.m = 0 then 0
  else
    let a := x.abs
    let q := max (a.log2 - f.man) f.qmin
    (a.floorAt (-q) + (q - f.qmin) * 2 ^ f.man).toNat

/-- Conversion with rounding to nearest even; above the largest finite value it gives that value and the flag (R62). -/
def FpFmt.encSat (f : FpFmt) (x : Dy) : Nat × Bool :=
  let c := f.encMag x
  if c > f.maxCode then (f.sign x.isNeg f.maxCode, true) else (f.sign x.isNeg c, false)

/-- |x| rounded up in magnitude (R71, R73), at most the largest finite value. -/
def FpFmt.encUp (f : FpFmt) (x : Dy) : Nat :=
  let c := f.floorMag x
  let c' := if (f.decMag c).lt x.abs then c + 1 else c
  min c' f.maxCode

/-- A value rounded up that exceeds the largest finite one is clamped (R62). -/
def FpFmt.upClamps (f : FpFmt) (x : Dy) : Bool := (f.decMag f.maxCode).lt x.abs

/-- Stochastic rounding of `x` with the 24-bit draw `u` (R70): the code, and whether it was clamped to the largest finite
value (R62, R76). -/
def FpFmt.encSr (f : FpFmt) (x : Dy) (u : Nat) : Nat × Bool :=
  if (f.decMag f.maxCode).lt x.abs then (f.sign x.isNeg f.maxCode, true)
  else
    let c := f.floorMag x
    let lo := f.decMag c
    let r := x.abs.sub lo
    if r.isZero then (f.sign x.isNeg c, false)
    else
      let step := (f.decMag (c + 1)).sub lo
      -- step is one unit 2^q
      let q := step.e + Nat.log2 step.m.natAbs
      let p := r.floorAt (24 - q)
      if x.isNeg then
        let p' := (step.sub r).floorAt (24 - q)
        if (u : Int) + p' ≥ 2 ^ 24 then (f.sign true c, false) else (f.sign true (c + 1), false)
      else if (u : Int) + p ≥ 2 ^ 24 then (f.sign false (c + 1), false) else (f.sign false c, false)

/-- Stochastic rounding of `v` to an integer (R70): ⌊(⌊v × 2²⁴⌋ + U) / 2²⁴⌋. -/
def Dy.srInt (v : Dy) (u : Nat) : Int := (v.floorAt 24 + u) / 2 ^ 24

/-- A quotient |a| / |b| with a sticky bit far below any rounding point; b is not zero. -/
def dyDivMag (a b : Dy) : Dy :=
  let k : Nat := 80 + Nat.log2 (b.m.natAbs + 1)
  let n := a.m.natAbs * 2 ^ k
  let d := b.m.natAbs
  ⟨(2 * (n / d) + (if n % d = 0 then 0 else 1) : Nat), a.e - b.e - k - 1⟩

/-- a / b with a sticky bit, signed. -/
def Dy.div (a b : Dy) : Dy := if xor a.isNeg b.isNeg then (dyDivMag a b).neg else dyDivMag a b

/-- ⌊(a / b) × 2^k⌋ exactly, for b > 0. -/
def dyDivFloor (a b : Dy) (k : Int) : Int :=
  let s := a.e - b.e + k
  if s ≥ 0 then (a.m * pow2 s) / b.m else a.m / (b.m * pow2 (-s))

/-- Integer square root by bits, from the bit `k` down. -/
def isqrtFrom (n : Nat) : Nat → Nat → Nat
  | 0, r => r
  | k + 1, r => isqrtFrom n k (if (r + 2 ^ k) * (r + 2 ^ k) ≤ n then r + 2 ^ k else r)

/-- ⌊√n⌋. -/
def isqrt (n : Nat) : Nat := isqrtFrom n (Nat.log2 n / 2 + 1) 0

/-- √x with a sticky bit, of an x that is not negative. -/
def Dy.sqrt (x : Dy) : Dy :=
  let k : Int := if (x.e - 160) % 2 = 0 then x.e - 160 else x.e - 161
  let n := (x.at k).natAbs
  let r := isqrt n
  ⟨(2 * r + (if r * r = n then 0 else 1) : Nat), k / 2 - 1⟩

/-! FP32 arithmetic on words, rounding to nearest even, with Inf and NaN as IEEE 754 gives them. -/

def f32Inf (neg : Bool) : Word := if neg then 0xFF800000 else 0x7F800000
def f32Nan : Word := 0x7FC00000
def f32IsNan (w : Word) : Bool := (w &&& 0x7FFFFFFF) > 0x7F800000
def f32IsInf (w : Word) : Bool := (w &&& 0x7FFFFFFF) = 0x7F800000
def f32Finite (w : Word) : Bool := (w &&& 0x7FFFFFFF) < 0x7F800000
def f32Neg (w : Word) : Bool := w.getLsbD 31
def f32Zero (w : Word) : Bool := (w &&& 0x7FFFFFFF) = 0
def f32Dy (w : Word) : Dy := fmtF32.dec w.toNat
def f32Flip (w : Word) : Word := w ^^^ 0x80000000

/-- The FP32 word of an exact value; an exact zero takes the sign `zneg`; overflow gives Inf. -/
def f32Round (x : Dy) (zneg : Bool) : Word :=
  if x.m = 0 then (if zneg then 0x80000000 else 0)
  else
    let c := fmtF32.encMag x
    if c > fmtF32.maxCode then f32Inf x.isNeg else wd (fmtF32.sign x.isNeg c)

/-- The FP32 word of an exact value, clamped to the largest finite value, with the flag (R62). -/
def f32Sat (x : Dy) : Word × Bool := let r := fmtF32.encSat x; (wd r.1, r.2)

def f32Add (a b : Word) : Word :=
  if f32IsNan a || f32IsNan b then f32Nan
  else if f32IsInf a then (if f32IsInf b && f32Neg a ≠ f32Neg b then f32Nan else a)
  else if f32IsInf b then b
  else f32Round ((f32Dy a).add (f32Dy b)) (f32Neg a && f32Neg b)

def f32Sub (a b : Word) : Word := f32Add a (f32Flip b)

def f32Mul (a b : Word) : Word :=
  let neg := xor (f32Neg a) (f32Neg b)
  if f32IsNan a || f32IsNan b then f32Nan
  else if f32IsInf a || f32IsInf b then (if f32Zero a || f32Zero b then f32Nan else f32Inf neg)
  else f32Round ((f32Dy a).mul (f32Dy b)) neg

def f32Div (a b : Word) : Word :=
  let neg := xor (f32Neg a) (f32Neg b)
  if f32IsNan a || f32IsNan b then f32Nan
  else if f32IsInf a then (if f32IsInf b then f32Nan else f32Inf neg)
  else if f32IsInf b then (if neg then 0x80000000 else 0)
  else if f32Zero b then (if f32Zero a then f32Nan else f32Inf neg)
  else f32Round ((f32Dy a).div (f32Dy b)) neg

def f32Sqrt (a : Word) : Word :=
  if f32IsNan a then f32Nan
  else if f32Zero a then a
  else if f32Neg a then f32Nan
  else if f32IsInf a then a
  else f32Round (f32Dy a).sqrt false

/-- a < b as FP32 values. -/
def f32Lt (a b : Word) : Bool :=
  if f32IsNan a || f32IsNan b then false
  else if f32IsInf a then f32Neg a && !(f32IsInf b && f32Neg b)
  else if f32IsInf b then !f32Neg b
  else (f32Dy a).lt (f32Dy b)

def f32Le (a b : Word) : Bool := !(f32IsNan a || f32IsNan b) && !f32Lt b a

/-- A finite FP32 result, or the largest finite value with its sign and the flag (R62); a NaN is left as it is. -/
def f32Clamp (w : Word) : Word × Bool :=
  if f32IsInf w then (if f32Neg w then 0xFF7FFFFF else 0x7F7FFFFF, true) else (w, false)

/-- FP32 of an integer. -/
def f32OfNat (n : Nat) : Word := f32Round ⟨n, 0⟩ false

/-- The codes of 03 Table 3.1. -/
inductive Fmt where
  | f32 | bf16 | f16 | e4m3 | e5m2 | mx8 | mx6 | mx4 | mxi8 | t4 | t2 | t1
  deriving DecidableEq, Repr

/-- The format of a code (Table 3.1); 0xC to 0xF are reserved. -/
def fmtOf (c : Nat) : Option Fmt :=
  ([Fmt.f32, .bf16, .f16, .e4m3, .e5m2, .mx8, .mx6, .mx4, .mxi8, .t4, .t2, .t1] : List Fmt)[c]?

/-- The code of a format (Table 3.1). -/
def Fmt.code : Fmt → Nat
  | .f32 => 0 | .bf16 => 1 | .f16 => 2 | .e4m3 => 3 | .e5m2 => 4 | .mx8 => 5 | .mx6 => 6 | .mx4 => 7 | .mxi8 => 8
  | .t4 => 9 | .t2 => 10 | .t1 => 11

/-- Whether a format may be a contribution input, a line format, a θ return format (Table 3.1). -/
def Fmt.contrib (f : Fmt) : Bool := f.code ≤ 8
def Fmt.line (f : Fmt) : Bool := f ≠ .f16
def Fmt.thetaRet (f : Fmt) : Bool := f.code ≤ 2

/-- Elements and bytes of a block of a format (Table 3.1, R60, R61). -/
def Fmt.blk : Fmt → Nat
  | .f32 | .bf16 | .f16 | .e4m3 | .e5m2 => 1
  | .mx8 | .mx6 | .mx4 | .mxi8 => 32
  | .t4 | .t2 | .t1 => 64
def Fmt.blkBytes : Fmt → Nat
  | .f32 => 4 | .bf16 | .f16 => 2 | .e4m3 | .e5m2 => 1
  | .mx8 | .mxi8 => 33 | .mx6 => 25 | .mx4 => 17
  | .t4 => 34 | .t2 => 18 | .t1 => 10

/-- The floating-point format of the elements of a scalar or MX format. -/
def Fmt.elem : Fmt → FpFmt
  | .f32 => fmtF32 | .bf16 => fmtBf16 | .f16 => fmtF16 | .e4m3 => fmtE4m3 | .e5m2 => fmtE5m2
  | .mx8 => fmtE4m3 | .mx6 => fmtE3m2 | .mx4 => fmtE2m1 | _ => fmtF32

/-- Element width of a block format in bits, and emax of an MX format (R76). -/
def Fmt.w : Fmt → Nat
  | .f32 => 32 | .bf16 | .f16 => 16 | .e4m3 | .e5m2 | .mx8 | .mxi8 => 8 | .mx6 => 6 | .mx4 | .t4 => 4 | .t2 => 2 | .t1 => 1
def Fmt.emax : Fmt → Int
  | .mx8 => 8 | .mx6 => 4 | .mx4 => 2 | _ => 0

/-- Element `i` of a packed field of `w`-bit codes (R60, R61). -/
def packedAt (bs : List Byte) (w i : Nat) : Nat := leAt bs (w * i / 8) 2 / 2 ^ (w * i % 8) % 2 ^ w

/-- Packs `w`-bit codes, little-endian, into bytes. -/
def packCodes (w : Nat) (cs : List Nat) : List Byte :=
  natLE ((w * cs.length + 7) / 8) (cs.foldr (fun c acc => c % 2 ^ w + 2 ^ w * acc) 0)

/-- What one element of a contribution or sheet is: a value, or non-finite (R63). -/
def mxVal (f : Fmt) (scale code : Nat) : Option Dy :=
  if scale = 0xFF then none
  else if f = .mxi8 then some ⟨sext 8 code, (scale : Int) - 127 - 6⟩
  else
    let e := f.elem
    if e.finite code then some ((e.dec code).shift ((scale : Int) - 127)) else none

/-- The elements of one block of a scalar or MX format (R59, R60); none marks an Inf or a NaN. -/
def decodeBlk (f : Fmt) (bs : List Byte) : List (Option Dy) :=
  match f.blk with
  | 1 =>
    let c := leNat (bs.take f.blkBytes)
    [if f.elem.finite c then some (f.elem.dec c) else none]
  | 32 =>
    let sc := (bs.headD 0).toNat
    (List.range 32).map fun i => mxVal f sc (packedAt (bs.drop 1) f.w i)
  | _ => []

/-- The sizing factor of a T block (R61). -/
def tScale (bs : List Byte) : Dy := fmtBf16.dec (leAt bs 0 2)

/-- The elements of one T block (R61); `esc` gives the values of a T2 block's escapes by their place in the block. -/
def decodeT (f : Fmt) (bs : List Byte) (esc : Nat → Dy) : List Dy :=
  let s := tScale bs
  (List.range 64).map fun i =>
    let c := packedAt (bs.drop 2) f.w i
    match f with
    | .t4 => if c = 8 then Dy.zero else s.mul (Dy.ofInt (sext 4 c))
    | .t2 => if c = 0 then Dy.zero else if c = 1 then s else if c = 3 then s.neg else esc i
    | _ => if c = 0 then s else s.neg

end Sys2Proof.Machine
end

