-- ==== Sys2Proof/Machine/BlocksCompute.lean ====
section
/-! DEFINITION. The state of the compute dies and of the rings and outer rounds: vat, matrix engines, general cores, sheet
codecs, shard rings and outer rounds. The default of a field is its value at reset. -/
namespace Sys2Proof.Machine

/-! ## Vat (04) -/

/-- The record of a slot that is HELD or POISONED (Table 4.1); a FREE slot is not listed. The CLEAR bits are the slot's
accumulators that are not listed in `Vat.acc`. -/
structure VSlot where
  poisoned : Bool := false
  job : Nat
  wave : Nat
  efirst : Nat
  bitmap : BitVec 512 := 0
  deriving DecidableEq, Repr

/-- What a wave's slots hold (05 R127). -/
inductive Content where
  | int | staged | ret
  deriving DecidableEq, Repr

/-- A wave: the slots of one claim (04, "Claims and waves"). -/
structure Wave where
  die : Nat
  ream : Nat
  /-- First element divided by 8,192. -/
  ebase : Nat
  /-- The slots, in element order. -/
  slots : List Nat
  cset : BitVec 512 := 0
  /-- Contributors removed from the collection map since the set was taken (R98, R104). -/
  gone : BitVec 512 := 0
  wcount : Nat := 0
  content : Content := .int
  /-- Bytes of an element of RETURN content. -/
  retW : Nat := 0
  /-- Resends in the round (R117). -/
  resends : Nat := 0
  round : DWord := 0
  /-- Receive copies expanded into the wave, by `cwKey` (07 R188). -/
  cws : List Nat := []
  /-- An operation on it was cancelled: the wave is released once no ACTIVE operation works in it (R112). -/
  doomed : Bool := false
  /-- The wave replays a mirrored ream: the ream's padded length (16 R403). -/
  mir : Option Nat := none
  deriving DecidableEq, Repr

/-- A grant record (Table 4.3); its GSEQ is given when it is written. -/
structure GrantRec where
  ream : Nat
  /-- 1 = GRANT, 2 = RESEND, 3 = RELEASE. -/
  kind : Nat
  /-- Formed when the record is written; a held record has 0 here. -/
  rkey : Word := 0
  round : Word
  efirst : Nat
  ecount : Nat
  deriving DecidableEq, Repr

/-- What becomes of the part of a message that covers one slot, as the check at the slot's boundary decided (Table 4.2). -/
inductive MsgPart where
  | adds | dup | ungranted
  deriving DecidableEq, Repr

/-- A contribution message in progress (R96, R97, R102). -/
structure VMsg where
  qpn : BitVec 24
  win : Nat
  job : Nat
  /-- Next byte from the window's BASE, and the message's end. -/
  off : Nat
  endOff : Nat
  /-- Begun under a tag that is no longer current. -/
  stale : Bool := false
  /-- The part for the slot being written. -/
  part : MsgPart := .adds
  /-- The first bytes of an MX block that straddles two packets (R95). -/
  carry : List Byte := []
  deriving DecidableEq, Repr

/-- The vat (04). -/
structure Vat where
  /-- Slots in use, keyed 2,048 × d + n. -/
  slots : SMap VSlot := []
  /-- Accumulators, keyed 8,192 × slot + i; an unlisted one reads zero (R92). -/
  acc : SMap DWord := []
  /-- Waves, keyed 4,096 × job + handle. -/
  waves : SMap Wave := []
  /-- Current tag of a window (R93). -/
  tags : SMap Nat := []
  /-- Floor exponent in force, 9 bits, keyed 1,024 × job + ream (Table 4.9). -/
  fIn : SMap Nat := []
  /-- One more than the round in which the ream last began to collect. -/
  collRound : SMap Nat := []
  /-- Last GSEQ written and consumed, keyed 512 × job + c (R99, R101). -/
  gseq : SMap Word := []
  gack : SMap Word := []
  /-- Records written and not consumed, with their GSEQ; records held (R101). -/
  unack : SMap (List (Word × GrantRec)) := []
  heldG : SMap (List GrantRec) := []
  msgs : SMap VMsg := []
  /-- e_hi of the round in progress and of the last completed one, keyed 2 × (1,024 × job + ream) + d (03 R84). -/
  ehi : SMap Int := []
  ehiLast : SMap Int := []
  /-- VAT_NONFINITE raised in the round, keyed 1,024 × job + ream (03 R63). -/
  nonfin : SMap Bool := []
  poisonLast : Vector (Option Nat) 2 := #v[none, none]
  deriving DecidableEq, Repr

/-! ## Matrix engines (05) -/

/-- A sheet in raw form (06 R149): its format code, its blocks' bytes, and the T2 escapes. -/
structure RawSheet where
  fmt : Nat
  body : List Byte
  esc : List (Nat × Word)
  deriving DecidableEq, Repr

/-- A quantised-block buffer bound to (job, QBID) (05 R132). -/
structure QBuf where
  job : Nat
  qbid : Nat
  /-- Entry number of the QUANT, and whether it has completed. -/
  quant : Nat
  done : Bool := false
  sheets : List RawSheet := []
  deriving DecidableEq, Repr

/-- The engine complexes (05). -/
structure Eng where
  /-- Quantised-block buffers, keyed 2 × d + b. -/
  qbs : SMap QBuf := []
  /-- Grade reached by a ream in a round, keyed 1,024 × job + ream: the round, and the format code (03 R80). -/
  grade : SMap (DWord × Nat) := []
  deriving DecidableEq, Repr

/-! ## General cores (05) -/

/-- One general core (Tables 5.6, 5.8). -/
structure CoreSt where
  /-- Entry number of the TASK it runs. -/
  task : Option Nat := none
  lastJob : Option Nat := none
  /-- Blocked in WAIT_GO. -/
  waiting : Bool := false
  /-- Descriptors that wait for room in the scoreboard: the core is stalled while there are any (02 R41). -/
  subQ : List Desc := []
  /-- A built-in task has nothing left to do once `subQ` is empty. -/
  builtin : Bool := false
  subDesc : List Byte := []
  subStatus : Nat := 0
  subSeq : Word := 0
  waitIdx : Word := 0
  waitVal : Word := 0
  waitRes : Word := 0
  mem : SMap Byte := []
  x : SMap DWord := []
  v : SMap DWord := []
  deriving DecidableEq, Repr

/-- A record of an exception queue (05, "The exception handler"). -/
structure ExcRec where
  job : Nat
  opcode : Nat
  seq : Word
  status : Nat
  ream : Nat
  wave : Nat
  /-- The descriptor that faulted, and the entry of a DAMAGED sheet's EXPAND. -/
  d : Desc
  damaged : Option Nat := none
  deriving DecidableEq, Repr

/-- The general cores (05). -/
structure Gc where
  /-- Cores, keyed 32 × d + i. -/
  cores : SMap CoreSt := []
  /-- Shared memory, keyed 2²³ × d + offset. -/
  shm : SMap Byte := []
  /-- Exception queues, oldest first. -/
  exc : Vector (List ExcRec) 2 := #v[[], []]
  /-- The chain that PLAN submitted on a wave, keyed 4,096 × job + handle (R142). -/
  chains : SMap (List Desc) := []
  deriving DecidableEq, Repr

/-! ## Sheet codecs (06) -/

/-- A couch-stage buffer bound to (job, QBID) (R164). -/
structure CBuf where
  job : Nat
  qbid : Nat
  pack : Nat
  done : Bool := false
  sheets : List (List Byte) := []
  deriving DecidableEq, Repr

/-- An expansion stream bound to (job, wave) (R166). -/
structure Strm where
  job : Nat
  wave : Nat
  /-- Raw sheets waiting for the ADD, with their index in the wave. -/
  sheets : List (Nat × RawSheet) := []
  expand : Option Nat := none
  add : Option Nat := none
  expandEnded : Bool := false
  addEnded : Bool := false
  /-- One of the two has ended FAULTED or was cancelled: the other ends with STREAM_ABORT. -/
  bad : Bool := false
  /-- The EXPAND's chunk-wave, the next sheet that it decodes, and its sheets; sheets that the ADD has entered. -/
  cw : Nat := 0
  next : Nat := 0
  total : Option Nat := none
  added : Nat := 0
  deriving DecidableEq, Repr

/-- An EXPAND or ADD was cancelled before it was issued: the operation of the other kind on the same stream, job and wave is to
end with STREAM_ABORT (R166). -/
structure StrmAbort where
  key : Nat
  job : Nat
  wave : Nat
  /-- The opcode of the operation that is to end. -/
  opcode : Nat
  deriving DecidableEq, Repr

/-- A DAMAGED sheet that an EXPAND waits for (R160, R161). -/
structure Dmg where
  /-- Entry of the EXPAND, chunk-wave and sheet index. -/
  target : Nat
  cw : Nat
  i : Nat
  refetches : Nat := 0
  /-- Entries of the REFETCH operations that have asked for it and wait for its verdict. -/
  asked : List Nat := []
  deriving DecidableEq, Repr

/-- The sheet codecs (06). -/
structure SheetB where
  /-- Couch-stage buffers, keyed 2 × d + b. -/
  cbs : SMap CBuf := []
  /-- Streams, keyed 16 × d + s. -/
  streams : SMap Strm := []
  aborts : List StrmAbort := []
  damaged : List Dmg := []
  /-- Sheet requests that a REFETCH has sent, by (chunk-wave, index) and die, for R161. -/
  asked : List (Nat × Nat × Nat) := []
  /-- Bytes packed on each die that do not yet make a unit of SHEET_PACK_64B. -/
  rem : Vector Nat 2 := #v[0, 0]
  deriving DecidableEq, Repr

/-! ## Shard rings (07) -/

/-- States of a group (Table 7.11). -/
inductive GrpSt where
  | down | setup | up | held | refused
  deriving DecidableEq, Repr

/-- A group's run state. -/
structure Grp where
  st : GrpSt := .down
  reason : Nat := 0
  txMib : Nat := 0
  rxMib : Nat := 0
  /-- The neighbour at p + 1, and at p − 1, has answered OK (R175). -/
  okNext : Bool := false
  okPrev : Bool := false
  digest : List Word := []
  /-- Round from which RSEQ counts (R182). -/
  origin : Nat := 1
  /-- Values of RSEQ's count that adoptions of the epoch take before its rounds (16 R397). -/
  nbase : Nat := 0
  deriving DecidableEq, Repr

/-- The timer that runs for a transmitted chunk-wave (R193). -/
inductive CwTimer where
  | none | resend | probe
  deriving DecidableEq, Repr

/-- A transmit copy in felt (R188, R193). -/
structure TxCw where
  port : Nat
  sheets : List (List Byte)
  /-- The sealed segments that hold them: the copy's bytes as they are sent (12 R306). -/
  segs : List (List Byte) := []
  nsheet : Nat
  tbytes : Nat
  receipt : Bool := false
  ack : Bool := false
  credit : Bool := false
  retx : Nat := 0
  limit : Bool := false
  timer : CwTimer := .none
  /-- The SEND has completed. -/
  sent : Bool := false
  /-- Local operations that still read the copy. -/
  reads : Nat := 0
  /-- The gate has risen for it (R190). -/
  gated : Bool := false
  /-- The copy was freed, or lost to a memory error; its remaining records are still awaited. -/
  freed : Bool := false
  deriving DecidableEq, Repr

/-- A receive copy in felt (R184, R189). -/
structure RxCw where
  nsheet : Option Nat := none
  tbytes : Nat := 0
  /-- Sheets by index. -/
  sheets : SMap (List Byte) := []
  /-- Complete: RECEIPT sent; the RECV that names it has completed; ACK sent. -/
  receipt : Bool := false
  recvd : Bool := false
  ack : Bool := false
  /-- Sheets that have passed their checks. -/
  passed : SMap Bool := []
  /-- Waves it was expanded into that are not released; a forward SEND of it has completed. -/
  waves : List Nat := []
  expanded : Bool := false
  fwdDone : Bool := false
  deriving DecidableEq, Repr

/-- What the receiver remembers of a freed chunk-wave (R455). -/
structure CwMem where
  key : Nat
  lane : Nat
  ack : Bool
  deriving DecidableEq, Repr

/-- The shard rings (07). -/
structure Ring where
  grps : SMap Grp := []
  /-- Copies by `cwKey`. -/
  tx : SMap TxCw := []
  rx : SMap RxCw := []
  /-- Freed chunk-waves, oldest first. -/
  mem : List CwMem := []
  /-- Measured round trip of a port in µs; RING_RTT_OVER raised, keyed 2 × group + port. -/
  rtt : SMap Nat := []
  rttOver : SMap Bool := []
  /-- Chunk-waves that PLAN has admitted on a lane since its gate counter was set, keyed 32 × (2 × group + half) + transfer
  (R190). -/
  gateN : SMap Nat := []
  deriving DecidableEq, Repr

/-! ## Outer rounds (08) -/

/-- What PLAN and STATS gather of a ream's round (Table 8.5). -/
structure RStats where
  wcountMin : Option Nat := none
  short : Nat := 0
  regrade : Nat := 0
  escOvf : Nat := 0
  t4Sat : Nat := 0
  guardTop : Nat := 0
  sheetBytes : Nat := 0
  deriving DecidableEq, Repr

/-- A sheet of a receive end in felt: whether it has passed its checks, and the requests for it (08 R225, R226). -/
structure StrmSheet where
  sseq : Word
  bytes : List Byte
  raw : List Byte := []
  ok : Bool := false
  asked : Nat := 0
  deriving DecidableEq, Repr

/-- A message as announced: SSEQ of its first sheet, sheets and bytes. -/
structure StrmAnn where
  first : Word
  n : Nat
  tbytes : Nat
  deriving DecidableEq, Repr

/-- A message that a transmit end holds in felt until it is acknowledged (08 R224, R226). -/
structure StrmMsg where
  mseq : Word
  first : Word
  sheets : List (List Byte)
  segs : List (List Byte)
  retx : Nat := 0
  limit : Bool := false
  timer : Bool := false
  deriving DecidableEq, Repr

/-- A stream channel end (08 R223 to R226). -/
structure ScEnd where
  /-- 0 = DOWN, 1 = UP, 2 = ERROR (Table 8.11). -/
  st : Nat := 0
  reason : Nat := 0
  mseq : Word := 0
  sseq : Word := 0
  /-- Transmit: messages awaiting acknowledgement. Receive: sheets held, and messages announced. -/
  tx : List StrmMsg := []
  rx : List StrmSheet := []
  ann : List StrmAnn := []
  /-- Receive: MSEQ and first SSEQ of messages delivered whose write the destination has not acknowledged; messages that
  the consumer has consumed; MiB of felt reserved. -/
  unacked : List (Word × Word) := []
  consumed : DWord := 0
  felt : Nat := 0
  deriving DecidableEq, Repr

/-- Outer rounds (08). -/
structure Outer where
  /-- The OCB copy of an enabled job (R200). -/
  ocb : SMap (List Byte) := []
  reason : SMap Nat := []
  /-- Round in progress, keyed 1,024 × job + ream (R202). -/
  round : SMap Nat := []
  /-- PLAN has run for the ream since the enable (R211). -/
  planned : SMap Bool := []
  stats : SMap RStats := []
  /-- A merge is pending for the ream (R220): 1 = to form, 2 = to add, 2 + n = to be added by n more ADDs; and the round whose PLAN
  submitted the ADDs. -/
  merge : SMap Nat := []
  merged : SMap Nat := []
  /-- Jobs whose first PLANs are still to be submitted (R202, log 147). -/
  due : List Nat := []
  sc : SMap ScEnd := []
  deriving DecidableEq, Repr

end Sys2Proof.Machine
end

