-- ==== Sys2Proof/Config.lean ====
section
/-! DEFINITION. What one module fixes (fused identity) and the free values: what the spec leaves open, draws from a
random generator, or takes from a published standard it cites. None has a body, so no proof sees a value. -/
namespace Sys2Proof.Config

/-- The n-th draw of the TRNG (04 R93, 09 R235, R254, 12 R319, R322, 14 R351) and every other value the spec leaves open
where the machine goes on. Log 6. -/
opaque free : Nat → BitVec 64
/-- Bytes that an operation leaves in its scratch memory: the number of the draw, and the place. Log 24. -/
opaque freeByte : Nat → Nat → BitVec 8
/-- JOB_SEED of a job (03 R67); the spec names no register that holds it. Log 7. -/
opaque jobSeed : Nat → BitVec 64
/-- This gateway's SEID; the spec names no register that holds it. Log 7. -/
opaque seid : BitVec 16
/-- This gateway's site ID where no ring-table entry gives it (00 Table 0.5). Log 7. -/
opaque site : BitVec 4
/-- The fused base fabric MAC address (09 SW_BASE_MAC). -/
opaque baseMac : BitVec 48
/-- The certificate chain, 10,650 bytes (12 Table 12.6). -/
opaque chain : List (BitVec 8)
/-- The fused minimum SVN (12 R326). -/
opaque minSvn : BitVec 16
/-- The firmware image in flash as manufactured (log 7). -/
opaque factoryImage : List (BitVec 8)
/-- Whether the fuses allow debug access (17 BOOT_DBG). -/
opaque fuseDebug : Bool
/-- Whether a firmware image verifies: its signature, and the digest of its body (12 R326); the SVN and the digest that its header
gives. Log 9. -/
opaque imageVerifies : List (BitVec 8) → Bool
opaque imageSvn : List (BitVec 8) → BitVec 16
opaque imageDigest : List (BitVec 8) → List (BitVec 8)

/-- AES-256-GCM sealing (SP 800-38D) of a plaintext under a key, IV and additional data: ciphertext and tag. Log 9. -/
opaque gcmSeal : List (BitVec 8) → List (BitVec 8) → List (BitVec 8) → List (BitVec 8) → List (BitVec 8) × List (BitVec 8)
/-- Opening: key, IV, additional data, ciphertext, tag; none when the tag fails. Log 9. -/
opaque gcmOpen : List (BitVec 8) → List (BitVec 8) → List (BitVec 8) → List (BitVec 8) → List (BitVec 8) → Option (List (BitVec 8))
/-- KMAC256 (SP 800-185): key, message, output bits, customisation. Log 9. -/
opaque kmac256 : List (BitVec 8) → List (BitVec 8) → Nat → List (BitVec 8) → List (BitVec 8)
/-- SHAKE256: message and output bytes. Log 9. -/
opaque shake256 : List (BitVec 8) → Nat → List (BitVec 8)
/-- AES-KW (SP 800-38F): key and data, wrapped. Log 9. -/
opaque kwWrap : List (BitVec 8) → List (BitVec 8) → List (BitVec 8)
/-- The GHASH subkey of an AES key (SP 800-38D). Log 9. -/
opaque ghashKey : List (BitVec 8) → List (BitVec 8)
/-- The acknowledgement of a management-channel frame, none for a frame that is itself one (19 R453 lays out neither). Log 30. -/
opaque mccAckOf : List (BitVec 8) → Option (List (BitVec 8))
/-- ML-KEM-1024: encapsulation key from a seed; encapsulation (ciphertext, secret) from key and randomness; decapsulation. Log 9. -/
opaque kemKey : BitVec 64 → List (BitVec 8)
opaque kemEncaps : List (BitVec 8) → BitVec 64 → List (BitVec 8) × List (BitVec 8)
opaque kemDecaps : BitVec 64 → List (BitVec 8) → List (BitVec 8)
/-- ML-DSA-65: own signature over a message; whether a chain leads to the fused root; whether a signature over a message verifies
under a chain. Log 9. -/
opaque sign : List (BitVec 8) → List (BitVec 8)
opaque chainOk : List (BitVec 8) → Bool
opaque verify : List (BitVec 8) → List (BitVec 8) → List (BitVec 8) → Bool

/-- The counter, engine-descriptor entry, QBID and wave handle that PLAN uses for an operation of a ream's chain: job, ream, wave,
place in the chain or pass (08 R202 gives none). Log 7. -/
opaque planCounter : Nat → Nat → Nat → Nat → BitVec 11
opaque planEdx : Nat → Nat → Nat → Nat → BitVec 12
opaque planQbid : Nat → Nat → Nat → BitVec 8
opaque planWave : Nat → Nat → Nat → Nat → BitVec 12
/-- A mean of a second count of readings, where the spec states no rounding: sum and number. Log 6. -/
opaque meanRound : Int → Nat → Int
/-- Where the FP32 sums of an engine start: the k-th step of a sum of n terms adds the two terms at these places and puts
the result first. The spec says that the order is fixed, and not which it is. Which sum, n and k. Log 11. -/
opaque sumPick : Nat → Nat → Nat → Nat × Nat
/-- The base address of the return region and flash contents that the spec does not lay out. Log 7. -/
opaque flashTable : Nat → BitVec 32
/-- The hash of a flow: key, inputs (09 R254 gives the inputs and the key, not the function); and the UDP source port of a queue pair, a
hash of its QPN (Table 9.2). Log 7. -/
opaque flowHash : BitVec 64 → List Nat → Nat
opaque udpSport : BitVec 24 → BitVec 16
/-- Fields of the packets that the gateway forms to which the spec gives no value: 0 = TTL or hop limit, 1 = IPv4 identification and
flags, 2 = IPv6 flow label, 3 = the reserved bits of a BTH, 4 = the credit count of an ACK, 5 = the timer of an RNR NAK. Log 19. -/
opaque pktOpen : Nat → BitVec 32
/-- The invariant CRC of a RoCEv2 packet (IBTA Annex A17), over the packet from its IP header. Log 9. -/
opaque icrc : List (BitVec 8) → BitVec 32

/-- Nominal counts of a clock source over one supervisor window, in hundredths: of INT (2), whose own frequency the trim of B5
finds, and of the recovered clocks (5, 6), for which 17 R416 gives none. Log 43. -/
opaque srcNominal : Nat → Nat

end Sys2Proof.Config
end

