-- ==== Sys2Proof/Machine/BlocksFab.lean ====
section
/-! DEFINITION. The state of the fabric ports and the switch core (09). The default of a field is its value at reset. -/
namespace Sys2Proof.Machine

open Sys2Proof

/-- Where the data of a message stands; each packet, and each packet sent again, reads it there (R236). -/
inductive MsgSrc where
  /-- A grant record, or other bytes held on the hub. -/
  | bytes (b : List Byte)
  /-- The first `n` elements of a RETURN wave. -/
  | wave (j h n : Nat)
  /-- The sheets of a copy in felt. -/
  | felt (k : Nat)
  deriving DecidableEq, Repr

/-- What the acknowledgement of a message completes: for a SCATTER, its entry, the contributor and the contributor's bit in the
mask of its pass (R249); a COPY's entry; a message of a stream end. -/
inductive MsgFor where
  | none
  | scatter (id ctb maskBit : Nat)
  | copy (id : Nat)
  | stream (i : Nat) (mseq : Word)
  deriving DecidableEq, Repr

/-- An RDMA WRITE that the gateway sends as requester: its first PSN and number of packets, the input it enters by, and how many of its
packets have entered the switch core, and have left it, at least once. -/
structure TxMsg where
  first : BitVec 24
  n : Nat
  input : Nat
  va : Nat
  key : Word
  len : Nat
  imm : Option Word
  src : MsgSrc
  for_ : MsgFor := .none
  sent : Nat := 0
  left : Nat := 0
  deriving DecidableEq, Repr

/-- What a queue pair owes as responder (R234, R235, R248): an ACK or NAK by its syndrome, a CNP, or a READ response from its packet
`i` on. -/
inductive Rsp where
  | ack (psn : BitVec 24) (syn : Nat)
  | cnp
  | data (psn : BitVec 24) (lp : Bool) (a len i : Nat)
  deriving DecidableEq, Repr

/-- A queue pair (15 Table 15.7, 09 Table 9.3). -/
structure Qp where
  qpn : BitVec 24
  job : Job
  /-- The 32 words of its context. -/
  ctx : List Word
  /-- The requester's rate R in Gb/s (R248). -/
  rate : Dy
  /-- Next PSN expected as responder, and messages completed there (IBTA's MSN). -/
  epsn : BitVec 24
  msn : BitVec 24 := 0
  /-- As requester: the next PSN to give, the oldest not acknowledged, and the next to be transmitted. -/
  spsn : BitVec 24
  una : BitVec 24
  nxt : BitVec 24
  /-- Messages not wholly acknowledged, oldest first; retries used, and RNR retries (R236). -/
  outq : List TxMsg := []
  retries : Nat := 0
  rnr : Nat := 0
  /-- An RNR NAK holds transmission until the timer runs out. -/
  rnrWait : Bool := false
  /-- Answers still to go, oldest first. -/
  owes : List Rsp := []
  /-- Network time of the last CNP sent (R248). -/
  lastCnp : Option DWord := none
  /-- The bytes of a SEND so far. -/
  sendBuf : List Byte := []
  /-- A sequence NAK has been sent for the present gap (R234); the request in hand was answered by a NAK; packets held in the reorder
  window (R256). -/
  nakSent : Bool := false
  refused : Bool := false
  reord : List Frame := []
  deriving DecidableEq, Repr

/-- A packet waiting in a virtual output queue (R241). -/
structure VPkt where
  input : Nat
  /-- The fabric MAC that it came in on. -/
  src : Option Nat := none
  output : Nat := 0
  /-- Class code of Table 9.8; 5 = a mirror copy (R258). -/
  cls : Nat
  /-- Length on the wire, and the frame's bytes from the destination MAC address. -/
  bytes : Nat
  data : List Byte
  ecn : Bool := false
  /-- The queue pair that it belongs to. -/
  qpn : Option Nat := none
  /-- Its flow, by the inputs of the hash (R254); whether it is a FENCE packet; whether it was sprayed (R256). -/
  flow : List Nat
  fence : Bool := true
  spray : Bool := false
  /-- A request packet of the gateway's own: its PSN. -/
  psn : Option (BitVec 24) := none
  /-- The last packet of a READ response. -/
  rdEnd : Bool := false
  /-- A frame for the root, as it came in (R238). -/
  root : Option Frame := none
  deriving DecidableEq, Repr

/-- How a flow chooses among the members of a group: the hash key that it goes by, and whether it sprays (R254, R256). -/
structure Flow where
  key : DWord
  spray : Bool := false
  deriving DecidableEq, Repr

/-- The imbalance detection of one port group (R255). -/
structure PgSt where
  spray : Bool := false
  run : Nat := 0
  deriving DecidableEq, Repr

/-- The fabric ports and the switch core. -/
structure FabB where
  /-- Per MAC: link up; REQ stopped at the far end by our XOFF. -/
  linkUp : SMap Bool := []
  xoffSent : SMap Bool := []
  /-- Classes held by a received XOFF, keyed 2 × MAC + (0 = REQ, 1 = RSP): since when (NT); FAB_PFC_LONG raised. -/
  held : SMap DWord := []
  longRaised : SMap Bool := []
  /-- Queued packets, oldest first. -/
  voq : List VPkt := []
  /-- Deficits and last input served, keyed 8 × output + class; last class served by output. -/
  deficit : SMap Nat := []
  rrIn : SMap Nat := []
  rrCls : SMap Nat := []
  /-- Flows met, by their hash inputs. -/
  flows : List (List Nat × Flow) := []
  /-- SW_BUF_STAT.PEAK, and FAB_QD maxima keyed 8 × MAC + class, in KiB. -/
  bufPeak : Nat := 0
  qdMax : SMap Nat := []
  /-- Header capture: next record, wraps of TIME_NS, records not read, matches seen by each filter. -/
  capW : Nat := 0
  wraps : Word := 0
  capHeld : Nat := 0
  sampled : SMap Nat := []
  /-- Queue pairs by their index, the low 13 bits of the QPN. -/
  qps : SMap Qp := []
  hashKey : DWord := 0
  /-- Tags of the read regions (R235). -/
  rrTag : SMap Nat := []
  pgs : SMap PgSt := []
  /-- Bytes sent in the present window, keyed 32 × group + MAC. -/
  pgBytes : SMap Nat := []
  deriving DecidableEq, Repr

end Sys2Proof.Machine
end

