-- ==== Sys2Proof/Machine/BlocksLine.lean ====
section
/-! DEFINITION. The state of the line dies: line ports, protected channels and performance monitoring (10), cipher contexts,
keys and sessions (12). The default of a field is its value at reset. -/
namespace Sys2Proof.Machine

open Sys2Proof

/-! ## Line ports (10) -/

/-- A ring record waiting on a channel of a port (07 R187). -/
structure QRec where
  job : Nat
  chan : Nat
  kind : Nat
  r : RingRec
  deriving DecidableEq, Repr

/-- A SHEETS segment waiting on a channel of a port: segment `i` of a copy in felt, named by its key (07 R184, 08 R224).
`last`: the transmission of the copy ends with it. -/
structure QSeg where
  job : Nat
  chan : Nat
  cw : Nat
  i : Nat
  last : Bool
  deriving DecidableEq, Repr

/-- What a tributary of a port is sending that was sealed at its transmission (12 R306): the record, the protected message or the
management frame itself. -/
inductive CurUnit where
  | record (q : QRec)
  | prot (m : ProtMsg) (tsid : Option Nat)
  | mgmt (f : List Byte)
  deriving DecidableEq, Repr

/-- A bin of performance monitoring (Table 10.7), with the sums that its means come from. -/
structure PmBin where
  start : Word := 0
  valid : Bool := false
  suspect : Bool := false
  es : Nat := 0
  ses : Nat := 0
  uas : Nat := 0
  bbe : Nat := 0
  n : Nat := 0
  berMin : Word := 0
  berMax : Word := 0
  berSum : Dy := ⟨0, 0⟩
  osnr : Int := 0
  dgd : Int := 0
  cd : Int := 0
  rxp : Int := 0
  rxpMin : Int := 0
  rxpMax : Int := 0
  deriving DecidableEq, Repr

/-- One line port. -/
structure LinePort where
  /-- Number of the next frame sent, and the parity of the last one (R265, Table 10.3). -/
  fnum : Nat := 0
  bip : Byte := 0
  /-- Receive side: parity of the last frame received, violations found in it, and its trace. -/
  rxBip : Option Byte := none
  bei : Nat := 0
  rxTrace : List Byte := List.replicate 16 0
  /-- Defects by their own times, in the order of Table 10.5; those that no defect masks; and those counted and raised since they
  were set (R273). -/
  defects : BitVec 8 := 0
  shown : BitVec 8 := 0
  told : BitVec 8 := 0
  /-- This port announces HOLD or is in a hold, with HOLD_MS; the far end announces HOLD (R279). -/
  holdTx : Bool := false
  holdMs : Nat := 0
  /-- Dark in an emergency switch-over, which is not announced (11 R300). -/
  inHold : Bool := false
  holdRx : Bool := false
  /-- Receive tributaries in step, and the words of the segment being assembled (R270; 16: the management channel). -/
  inStep : SMap Bool := []
  asm : SMap (List Byte) := []
  /-- Waiting to be sent: records, SHEETS segments, protected messages (with the TSID that its stamp takes), handshake messages, and
  management-channel frames. -/
  recQ : List QRec := []
  segQ : List QSeg := []
  protQ : List (ProtMsg × Option Nat) := []
  hsQ : List (List Byte) := []
  mccQ : List (List Byte) := []
  /-- Bytes left of the segment that each tributary is sending (16: the management channel), and what was sealed into it. -/
  cur : SMap (List Byte) := []
  curOf : SMap CurUnit := []
  /-- Channel meters, by channel-table index: committed and peak bucket in half bits, and deficits in bytes, keyed
  512 × class + index (R272). -/
  com : SMap Int := []
  peak : SMap Int := []
  defc : SMap Nat := []
  /-- Channel last served, keyed 4 × tributary + class. -/
  rr : SMap Nat := []
  /-- Channels for which LINEn_NO_CHAN has been raised, 256 × job + CHAN. -/
  noChan : SMap Bool := []
  /-- Whole segments and idle words held for the outbound side of a relayed tributary of this port (R275). -/
  relay : SMap (List Byte) := []
  /-- Standby copies in the protected hold area, oldest first: selector and message (R278). -/
  stby : List (Nat × ProtMsg) := []
  /-- Seconds: frames with violations and SF in the present one, run of SES and of not-SES seconds, unavailable (R280). -/
  secErr : Nat := 0
  secSf : Bool := false
  sesRun : Nat := 0
  /-- Seconds that are not SES in a row while unavailable, newest first: ES, and its frames with violations. -/
  okRun : List (Bool × Nat) := []
  unavail : Bool := false
  /-- Bins: current and past, newest first (R281). -/
  bin15 : PmBin := { valid := true, suspect := true }
  past15 : List PmBin := []
  bin24 : PmBin := { valid := true, suspect := true }
  past24 : List PmBin := []
  /-- Last readings (Table 10.9). -/
  ber : Word := 0
  osnr : Int := 0
  dgd : Nat := 0
  cd : Int := 0
  rxp : Int := 0
  liteOver : Bool := false
  /-- MiB of felt reserved by groups and streams. -/
  feltMib : Nat := 0
  /-- Out of service until boot step B10 has started its DSP (17 R431). -/
  oos : Bool := true
  deriving DecidableEq, Repr

/-- A protected-channel selector (R277, R278). -/
structure Sel where
  sel : Nat := 0
  /-- Forces of an announced hold, by route. -/
  hold0 : Bool := false
  hold1 : Bool := false
  /-- No message has arrived on the route for ROUTE_TMO. -/
  tmo0 : Bool := false
  tmo1 : Bool := false
  /-- WTR running. -/
  wtr : Bool := false
  /-- MSEQ last delivered. -/
  last : Option Word := none
  deriving DecidableEq, Repr

/-- The line (10). -/
structure LineB where
  ports : Vector LinePort 2 := #v[{}, {}]
  sels : SMap Sel := []
  /-- MSEQ last sent to a SEID. -/
  sent : SMap Word := []
  deriving DecidableEq, Repr

/-! ## Optics (11) -/

/-- A bay of fabric laser modules (Table 11.11). -/
structure LBay where
  fitted : Bool := true
  /-- 0 = EMPTY, 1 = FEEDING, 2 = STANDBY, 3 = CROSSFADE, 4 = RELEASED, 5 = FAILED, 6 = WARMING. -/
  st : Nat := 0
  pwr : Int := 0
  /-- Windows in a row below −1.5 dB and below −3.0 dB (R293). -/
  warnRun : Nat := 0
  actRun : Nat := 0
  deriving DecidableEq, Repr

/-- A microring (Table 11.8): 0 = LOCKED, 1 = COVERED, 2 = CAL, 3 = RELOCK, 4 = FAILED, 5 = PARKED; the line it holds, and
its heater power. -/
structure MRing where
  st : Nat := 5
  line : Nat := 0
  heat : Nat := 0
  deriving DecidableEq, Repr

/-- Ring 9 × engine + ring before its engine has started: parked. -/
def ringDefault (k : Nat) : MRing := { line := k % 9 }

/-- A fabric engine. -/
structure OEng where
  temp : Int := 0
  /-- Engine temperature lies outside the table. -/
  outside : Bool := false
  /-- Lane being calibrated; the lanes after it are to follow (R290). -/
  cal : Option Nat := none
  /-- Temperature at the last calibration; before any, when the rings locked (log 154). -/
  calTemp : Int := 0
  /-- Lane that the spare ring carries: a failed one, or one that recovers a wrong lock (R292). -/
  cover : Option Nat := none
  /-- Lane-identity mismatches in a row, and times of failed re-locks, by lane (R301). -/
  mis : SMap Nat := []
  fails : SMap (List DWord) := []
  deriving DecidableEq, Repr

/-- A line laser (Table 11.12): 0 = OFF, 1 = TUNING, 2 = READY, 3 = LIT, 4 = FAILED. -/
structure LLas where
  st : Nat := 0
  pwr : Int := 0
  ferr : Int := 0
  deriving DecidableEq, Repr

/-- The line laser unit of a port. -/
structure LUnit where
  lasers : Vector LLas 2 := #v[{}, {}]
  /-- The active laser; none before B10 has chosen it. -/
  act : Option Nat := none
  warnRun : Nat := 0
  actRun : Nat := 0
  /-- A scheduled switch-over waits, by command or not, and has been counted as deferred (R298); one runs (R299, R300). -/
  pend : Bool := false
  byCmd : Bool := false
  deferred : Bool := false
  switching : Bool := false
  /-- The active laser is blanked for a re-lock; it has been re-locked for the present TIM; the cause of TIM lies outside (R302). -/
  relock : Bool := false
  relit : Bool := false
  timExt : Bool := false
  deriving DecidableEq, Repr

/-- Optics control. -/
structure Opt where
  bays : Vector LBay 4 := Vector.replicate 4 {}
  /-- The pair that bay 3 feeds; the crossfade that runs: its bay, and whether it is a revert (R294, R296). -/
  pair : Nat := 0
  xf : Option (Nat × Bool) := none
  /-- Rings, keyed 9 × engine + ring. -/
  rings : SMap MRing := []
  engs : Vector OEng 6 := Vector.replicate 6 {}
  units : Vector LUnit 2 := #v[{}, {}]
  /-- Table entries in SRAM and in flash, keyed 2²⁴ × table + 256 × record + entry; unlisted: as manufactured (log 7). -/
  tbl : SMap Word := []
  flash : SMap Word := []
  /-- Actuators that take their table's value at the loop's next update (R287, R288), what the loops have set, and the last value that
  came from a table, keyed 256 × loop + its number. -/
  fresh : SMap Bool := []
  acts : SMap DWord := []
  setPts : SMap DWord := []
  refOk : Bool := true
  status : Nat := 0
  /-- The monitor reading last asked for. -/
  monValid : Bool := false
  monValue : BitVec 24 := 0
  deriving DecidableEq, Repr

/-! ## Cipher (12) -/

/-- A key of a context: its generation and key epoch, the 36 bytes of AES key and FIXED, and the GHASH subkey (R310, R319). -/
structure CtxKey where
  sgen : Nat
  kepoch : Nat
  key : List Byte
  hsub : List Byte
  deriving DecidableEq, Repr

/-- A context of a line port: one sender's channel, or the link's PROT or MGMT (R319). -/
structure Ctx where
  port : Nat
  tx : Bool
  /-- LTYPE of Table 12.3: 1 = channel, 2 = PROT, 3 = MGMT. -/
  ltype : Nat
  jobtag : Word := 0
  chan : Nat := 0
  /-- The SEID at the other end of a channel, which is in its key label (Table 12.3). -/
  peer : Nat := 0
  /-- Keys held, newest first; of a spilled context, those that its wrapped copy holds. -/
  keys : List CtxKey := []
  /-- Transmit: generation, key epoch and next SCNT; sealing waits for a renewal (R313). -/
  sgen : Nat := 0
  kepoch : Nat := 0
  scnt : Nat := 0
  wait : Bool := false
  /-- Receive: the last SCNT accepted under each (SGEN, KEPOCH) met. -/
  last : List (Nat × Nat × Nat) := []
  /-- Resident, its spill generation and its place in the spill area, and when it was last used. -/
  resident : Bool := true
  spill : DWord := 0
  slot : Nat := 0
  used : Nat := 0
  deriving DecidableEq, Repr

/-- A session: peers 0 to 63, links 64 and 65 (R321 to R324). -/
structure Sess where
  /-- 0 = DOWN, 1 = HANDSHAKE, 2 = UP, 3 = RENEWING, 4 = STALE, 5 = FAILED (Table 12.12). -/
  st : Nat := 0
  reason : Nat := 0
  sgen : Nat := 0
  /-- Generations of root keys kept, newest first. -/
  gens : List Nat := []
  /-- The handshake in progress: this end initiates; next message awaited (0 = none); generation; session ID. -/
  init : Bool := false
  await : Nat := 0
  newGen : Nat := 0
  sid : List Byte := []
  /-- Messages of the transcript, the KEM secret's draw, the shared secret, the key formed and MAC_I. -/
  kx1 : List Byte := []
  kx2 : List Byte := []
  kx3 : List Byte := []
  seed : DWord := 0
  ss : List Byte := []
  root : List Byte := []
  macI : List Byte := []
  /-- The message to be sent again, and how often it has been sent (R324). -/
  msg : List Byte := []
  sends : Nat := 0
  /-- Network time at which the generation began. -/
  began : DWord := 0
  deriving DecidableEq, Repr

/-- The cipher (12). -/
structure Ciph where
  ctxs : List Ctx := []
  /-- Uses of contexts so far, for the least recently used. -/
  useNo : Nat := 0
  /-- Key-store slots (Table 12.4). -/
  keys : SMap (List Byte) := []
  sess : SMap Sess := []
  /-- KWK of each line die, 32 bytes. -/
  kwk : Vector (List Byte) 2 := Vector.replicate 2 (List.replicate 32 0)
  deriving DecidableEq, Repr

end Sys2Proof.Machine
end

