-- ==== Sys2Proof/Machine/Pages.lean ====
section
/-! DEFINITION. The page index (18 Table 18.1): where each register page stands, its type, instance, default vector and
clock domain. -/
namespace Sys2Proof.Machine

/-- The kinds of register page (18 Table 18.1). -/
inductive PgKind where
  | sch | ring | outer | sw | opt | mem | pool | host | fab | vat | eng | gc | sheet | line | ciph | time | clk | pwr
  | boot | mgmt | hostF
  deriving DecidableEq, Repr

/-- Page numbers: the index column of Table 18.1, and 40 + f for the HOST_F page of function f. -/
abbrev pgSCH : Nat := 0
abbrev pgRING : Nat := 1
abbrev pgOUTER : Nat := 2
abbrev pgSW : Nat := 3
abbrev pgOPT : Nat := 4
abbrev pgMEM2 : Nat := 5
abbrev pgPOOL : Nat := 6
abbrev pgHOST : Nat := 7
def pgFAB (p : Nat) : Nat := 8 + p
def pgVAT (d : Nat) : Nat := 20 + 5 * d
def pgENG (d : Nat) : Nat := 21 + 5 * d
def pgGC (d : Nat) : Nat := 22 + 5 * d
def pgSHEET (d : Nat) : Nat := 23 + 5 * d
/-- The MEM page of an instance: 0 and 1 are the HBM of the dies, 2 is the LPDDR5X (14). -/
def pgMEM (i : Nat) : Nat := if i < 2 then 24 + 5 * i else 5
def pgLINE (n : Nat) : Nat := 30 + 3 * n
def pgCIPH (n : Nat) : Nat := 31 + 3 * n
def pgTIME (n : Nat) : Nat := 32 + 3 * n
abbrev pgCLK : Nat := 36
abbrev pgPWR : Nat := 37
abbrev pgBOOT : Nat := 38
abbrev pgMGMT : Nat := 39
def pgHOSTF (f : Nat) : Nat := 40 + f

/-- The kind of page `p` (Table 18.1). -/
def pgKind (p : Nat) : PgKind :=
  if p < 8 then [PgKind.sch, .ring, .outer, .sw, .opt, .mem, .pool, .host].getD p .sch
  else if p < 20 then .fab
  else if p < 30 then [PgKind.vat, .eng, .gc, .sheet, .mem].getD ((p - 20) % 5) .vat
  else if p < 36 then [PgKind.line, .ciph, .time].getD ((p - 30) % 3) .line
  else if p < 40 then [PgKind.clk, .pwr, .boot, .mgmt].getD (p - 36) .clk
  else .hostF

/-- The instance of page `p` (Table 18.1; HOST_F: FUNC, R438). -/
def pgInst (p : Nat) : Nat :=
  if p < 8 then (if p = 5 then 2 else 0)
  else if p < 20 then p - 8
  else if p < 30 then (p - 20) / 5
  else if p < 36 then (p - 30) / 3
  else if p < 40 then 0
  else p - 40

/-- The type code of a kind of page (Table 18.1; HOST_F 0x0011, R438). -/
def PgKind.code : PgKind → Nat
  | .sch => 0x0001 | .vat => 0x0002 | .eng => 0x0003 | .gc => 0x0004 | .sheet => 0x0005 | .ring => 0x0006
  | .outer => 0x0007 | .fab => 0x0008 | .sw => 0x0009 | .line => 0x000A | .opt => 0x000B | .ciph => 0x000C
  | .time => 0x000D | .mem => 0x000E | .pool => 0x000F | .host => 0x0010 | .hostF => 0x0011 | .clk => 0x0012
  | .pwr => 0x0013 | .boot => 0x0014 | .mgmt => 0x0015

/-- The default vector of page `p` (Table 18.1; HOST_F 42, R438). -/
def pgVec (p : Nat) : Nat := if p < 40 then p + 2 else 42

/-- The clock domain of page `p`, numbered as Table 17.1 (Table 18.1; HOST_F HUB, R438). -/
def pgDom (p : Nat) : Nat :=
  match pgKind p with
  | .sch | .ring | .outer | .sw | .opt | .pool | .host | .hostF => 3
  | .fab => 8
  | .mem => if p = 5 then 7 else 16 + pgInst p
  | .vat | .eng | .sheet => 12 + pgInst p
  | .gc => 14 + pgInst p
  | .line | .ciph => 10 + pgInst p
  | .time => 4
  | .clk | .pwr | .boot | .mgmt => 0

/-- BAR0 offset of page `p` (Table 18.1); a HOST_F page has none here. -/
def pgBase (p : Nat) : Nat :=
  if p < 8 then 0x1000 * p
  else if p < 20 then 0x10000 + 0x1000 * (p - 8)
  else if p < 30 then 0x100000 + 0x100000 * ((p - 20) / 5) + 0x1000 * ((p - 20) % 5)
  else if p < 36 then 0x300000 + 0x100000 * ((p - 30) / 3) + 0x1000 * ((p - 30) % 3)
  else 0x500000 + 0x1000 * (p - 36)

/-- What a BAR0 offset of a PF names: a page and an offset within it (Table 18.1); none where no page stands. -/
def pgAt (off : Nat) : Option (Nat × Nat) :=
  let o := off % 0x1000
  let q := off / 0x1000
  if q < 8 then some (q, o)
  else if 0x10 ≤ q ∧ q < 0x1C then some (8 + (q - 0x10), o)
  else if 0x100 ≤ q ∧ q < 0x105 then some (20 + (q - 0x100), o)
  else if 0x200 ≤ q ∧ q < 0x205 then some (25 + (q - 0x200), o)
  else if 0x300 ≤ q ∧ q < 0x303 then some (30 + (q - 0x300), o)
  else if 0x400 ≤ q ∧ q < 0x403 then some (33 + (q - 0x400), o)
  else if 0x500 ≤ q ∧ q < 0x504 then some (36 + (q - 0x500), o)
  else none

end Sys2Proof.Machine
end

