-- ==== Sys2Proof/Machine/RegTable.lean ====
section
/-! DEFINITION. The registers of every page, as data: offset, copies, class of access, fields that software sets, reset
value, the _IDX register that selects the entry, and the encodings a field never holds (00 R7, R8, 15 Table 15.3, 18). -/
namespace Sys2Proof.Machine

/-- The class of a register (15 Table 15.3). -/
inductive RegCls where
  /-- Written by the control PF, read by both PFs. -/
  | module
  /-- Written by the control PF, read by it and the owner of job n (the copy number). -/
  | grant
  /-- Named with Jn: the owner of job n, or the owner's PF. -/
  | jobN
  /-- The function's own page. -/
  | function
  /-- An _IDX register: every function and the root has its own copy (R373). -/
  | ownIdx
  /-- An entry whose index encodes a job: index / k. -/
  | idxDiv (k : Nat)
  /-- An entry that holds a JOB field from bit `lo` of the register at offset `ctl`, in which bit 31 is VALID. -/
  | entryJob (ctl lo : Nat)
  /-- ENG_EDT_DATA: the job in whose partition the index lies, or Module class (R372). -/
  | edt
  /-- SCH_CNT_VAL: the job in whose partition the counter lies. -/
  | counter
  deriving DecidableEq, Repr

/-- One row of a register table. -/
structure RegRow where
  /-- Offset of the first copy. -/
  off : Nat
  /-- Copies and their distance. -/
  n : Nat := 1
  stride : Nat := 4
  /-- Consecutive words of one copy: 2 for a _LO and _HI pair. -/
  words : Nat := 1
  pair : Bool := false
  cls : RegCls := .module
  /-- Bits of type RW of each word (the _HI word of a pair: `rwHi`), and of type RWL. -/
  rw : Word := 0
  rwHi : Word := 0xFFFFFFFF
  rwl : Word := 0
  reset : Word := 0
  /-- The _IDX register that selects the entry. -/
  ix : Option Nat := none
  /-- Fields (lowest bit, width, greatest encoding that is not reserved). -/
  enc : List (Nat × Nat × Nat) := []
  deriving DecidableEq, Repr

/-- Bytes from one copy to the next. -/
def RegRow.span (r : RegRow) : Nat := max r.stride (4 * r.words)

/-- Whether a row has offset `o`. -/
def RegRow.has (r : RegRow) (o : Nat) : Bool :=
  r.off ≤ o && (o - r.off) / r.span < r.n && (o - r.off) % r.span < 4 * r.words && o % 4 = 0

/-- The copy number of offset `o` in its row. -/
def RegRow.copy (r : RegRow) (o : Nat) : Nat := (o - r.off) / r.span

/-- The word of a copy that offset `o` is. -/
def RegRow.word (r : RegRow) (o : Nat) : Nat := (o - r.off) % r.span / 4

/-- A read-only row. -/
def ro (off : Nat) (n : Nat := 1) (stride : Nat := 4) (words : Nat := 1) (cls : RegCls := .module) : RegRow :=
  { off := off, n := n, stride := stride, words := words, cls := cls }

/-- An _IDX register of `bits` bits. -/
def ixr (off bits : Nat) : RegRow := { off := off, cls := .ownIdx, rw := wd (2 ^ bits - 1) }

/-- 02 Table 2.7. -/
def rowsSch : List RegRow := [
  { off := 0x100, rw := 0xFFFFF, reset := 0xF4240 },
  ro 0x104,
  ixr 0x108 14,
  { off := 0x10C, cls := .counter, rw := 0xFFFFFFFF, ix := some 0x108 },
  { off := 0x200, n := 8, stride := 0x40, words := 2, pair := true, cls := .jobN, rwHi := 0 },
  { off := 0x208, n := 8, stride := 0x40, words := 2, pair := true, cls := .jobN, rw := 0xFFFFFFFF },
  { off := 0x210, n := 8, stride := 0x40, cls := .jobN, rw := 0x3FF },
  { off := 0x214, n := 8, stride := 0x40, cls := .grant, rw := 0x00FF003F },
  { off := 0x218, n := 8, stride := 0x40, cls := .grant, rw := 0xFFF },
  { off := 0x400, n := 8, stride := 0x40, words := 16, cls := .jobN, rw := 0xFFFFFFFF }]

/-- 14 Table 14.7: instances 0 and 1. -/
def rowsMemHbm : List RegRow := [
  { off := 0x100, rw := 0xFF, reset := 0x18 },
  ro 0x104,
  { off := 0x108, rw := 0xFF0FFFFF, reset := 0x100403E8 },
  ro 0x10C,
  ro 0x400 (n := 96)]

/-- 14 Table 14.7: instance 2. -/
def rowsMemLp : List RegRow := [
  { off := 0x100, rw := 0xFF, reset := 0x18 },
  ro 0x104,
  { off := 0x200, n := 8, stride := 0x10, cls := .grant, rw := 0x3FFF3FFF },
  { off := 0x204, n := 8, stride := 0x10, cls := .grant, rw := 0x3FFF3FFF }]

/-- Reset sizes of the pools, in 4 MiB units (14 Table 14.5). -/
def poolResetSize (k : Nat) : Nat := [128, 128, 128, 64, 256, 64, 128, 128].getD k 0

/-- 14 Table 14.13. -/
def rowsPool : List RegRow :=
  ro 0x100 ::
  (List.range 8).flatMap (fun k => [
    ({ off := 0x110 + 0x10 * k, rw := 0x7FF, reset := wd (poolResetSize k) } : RegRow),
    ro (0x114 + 0x10 * k),
    { off := 0x118 + 0x10 * k, rw := 0xFFFF, reset := 0x4020 },
    ro (0x11C + 0x10 * k)]) ++ [
  { off := 0x200, n := 8, stride := 0x10, cls := .grant, rw := 0xFFFF },
  ro 0x204 (n := 8) (stride := 0x10) (cls := .jobN)]

/-- 15 Table 15.11: the HOST page. -/
def rowsHost : List RegRow := [
  { off := 0x100, rwl := 1 },
  ro 0x104,
  { off := 0x108, rw := 0xFFFFF, reset := 0x3E8 },
  ro 0x200 (n := 8) (stride := 0x10) (cls := .jobN),
  ro 0x300 (n := 2)]

/-- 15 Table 15.11: a HOST_F page. -/
def rowsHostF : List RegRow := [
  ro 0x100 (cls := .function), ro 0x104 (cls := .function),
  { off := 0x110, words := 2, pair := true, cls := .function, rw := 0xFFFFF000 },
  { off := 0x118, cls := .function, rw := 0x8000000F, reset := 6 },
  { off := 0x11C, cls := .function, rw := 0xFFFF },
  ro 0x120 (cls := .function),
  { off := 0x124, cls := .function, rw := 0xFFFFFFFF, reset := 0x00100001 },
  ro 0x140 (n := 9) (cls := .function)]

/-- 17 Table 17.9. -/
def rowsClk : List RegRow := [
  ro 0x100, ro 0x104,
  { off := 0x108, rw := 0 }, ro 0x10C,
  { off := 0x110 },
  ro 0x120 (n := 18),
  { off := 0x180, rw := 0x31F },
  { off := 0x184, rw := 0xFFFFFF },
  { off := 0x188, words := 2, pair := true, rwHi := 0 },
  { off := 0x190, rw := 0x800000FF }]

/-- 17 Table 17.13. -/
def rowsPwr : List RegRow := [ro 0x100 (n := 5)]

/-- 17 Table 17.14. -/
def rowsBoot : List RegRow := [
  ro 0x100, ro 0x104, { off := 0x108 }, ro 0x10C,
  { off := 0x110, rw := 3 }, { off := 0x114, rwl := 1 },
  ixr 0x120 8, ro 0x124 (n := 4),
  { off := 0x140, rw := 0x1FFFFFF }, ro 0x144]

/-- A row of indexed data. -/
def ixd (off : Nat) (ix : Nat) (cls : RegCls) (rw : Word) (n : Nat := 1) : RegRow :=
  { off := off, n := n, cls := cls, rw := rw, ix := some ix }

/-- A _LO and _HI pair of indexed data. -/
def ixp (off : Nat) (ix : Nat) (cls : RegCls) (rwHi : Word := 0xFFFFFFFF) : RegRow :=
  { off := off, words := 2, pair := true, cls := cls, rw := 0xFFFFFFFF, rwHi := rwHi, ix := some ix }

/-- A read-only row of indexed data. -/
def ixo (off : Nat) (ix : Nat) (cls : RegCls) (n : Nat := 1) : RegRow := { off := off, n := n, cls := cls, ix := some ix }

/-- 07 Table 7.7. -/
def rowsRing : List RegRow :=
  let e := RegCls.entryJob 0x114 24
  [{ off := 0x100, rw := 0xFFFFFF, reset := 0x0803E8 },
   ro 0x104, ixr 0x110 6,
   ixd 0x114 0x110 e 0x870F1F0F,
   { ixd 0x118 0x110 e 0x03FF3F7F with reset := 0x02000008 },
   ixp 0x11C 0x110 e,
   ixd 0x124 0x110 e 0xFFFFFFFF,
   { ixd 0x128 0x110 e 0xFFFFF with reset := 0x2710 },
   ixd 0x12C 0x110 e 0x7FF,
   ixo 0x130 0x110 e, ixo 0x134 0x110 e, ixo 0x138 0x110 e (n := 2),
   ixd 0x140 0x110 e 0xFFFF (n := 16),
   ixo 0x180 0x110 e (n := 4)]

/-- 08 Table 8.10. -/
def rowsOuter : List RegRow :=
  let e := RegCls.entryJob 0x144 24
  [ixr 0x100 12,
   ixp 0x104 0x100 (.idxDiv 512), ixd 0x10C 0x100 (.idxDiv 512) 0xFFFFFFFF, ixd 0x110 0x100 (.idxDiv 512) 0x80000000,
   ixr 0x140 8,
   ixd 0x144 0x140 e 0xC7FF110F, ixd 0x148 0x140 e 0xFFFF, ixd 0x14C 0x140 e 0xFFFFFF, ixd 0x150 0x140 e 0xFFFFFF,
   ixp 0x154 0x140 e, ixd 0x15C 0x140 e 0xFFFFFFFF, ixd 0x160 0x140 e 0x003F000F, ixd 0x164 0x140 e 0xFFFF,
   ixo 0x168 0x140 e,
   { off := 0x200, n := 8, stride := 0x40, cls := .jobN, rw := 0x8000000F },
   { off := 0x204, n := 8, stride := 0x40, words := 2, pair := true, cls := .jobN, rw := 0xFFFFFFFF },
   { off := 0x20C, n := 8, stride := 0x40, words := 2, pair := true, cls := .jobN, rw := 0xFFFFFFFF },
   { off := 0x214, n := 8, stride := 0x40, cls := .jobN, rw := 0xFFFF, reset := 0x1004 },
   { off := 0x218, n := 8, stride := 0x40, cls := .jobN, rw := 0xFFFFFFFF, reset := 1 },
   ro 0x21C (n := 8) (stride := 0x40) (cls := .jobN)]

/-- 09 Table 9.17. -/
def rowsSw : List RegRow :=
  let e := RegCls.entryJob 0x154 24
  let l := RegCls.entryJob 0x134 24
  [{ off := 0x100, rw := 1, reset := 1 }, ro 0x104,
   { off := 0x108, words := 2, pair := true, rw := 0, rwHi := 0 },
   ixr 0x110 16, { ixd 0x114 0x110 .module 0xF000001F with enc := [(28, 2, 2)] },
   ixr 0x118 14, ixp 0x11C 0x118 .module (rwHi := 0xFFFF), ixd 0x124 0x118 .module 0x8000FFFF,
   ixr 0x130 4, ixd 0x134 0x130 l 0xC7000000, ixd 0x138 0x130 l 0xFFFFFFFF (n := 4),
   ixr 0x150 8, ixd 0x154 0x150 e 0xC7000000, ixp 0x158 0x150 e, ixp 0x160 0x150 e, ixo 0x168 0x150 e,
   { off := 0x180, n := 16, rw := 0xFFFFFF }, ro 0x1C0,
   { off := 0x1C4, rw := 0xFF0FFFFF, reset := 0x100403E8 },
   { off := 0x1C8 },
   { off := 0x1D0, n := 8, rw := 0x77777777, reset := 0x11111111 },
   { off := 0x1F0, rw := 0x3F3F3F3F },
   { off := 0x1F4, rw := 0xFFFFFFFF, reset := 0x40201010 },
   { off := 0x1F8, rw := 0x00070777 },
   { off := 0x300, rw := 0xC0000000 },
   { off := 0x304, words := 2, pair := true, rw := 0, rwHi := 0 }, ro 0x30C,
   ixr 0x310 4, { ixd 0x314 0x310 .module 0xFF7F0000 with enc := [(29, 2, 2)] }, ixd 0x318 0x310 .module 0x80FFFFFF,
   { off := 0x320, rw := 0xF000001F, enc := [(28, 2, 2)] }, { off := 0x324, rw := 0xFFFFFF },
   { off := 0x400, n := 8, stride := 0x10, cls := .grant, rw := 0x3FFF }]

/-- 11 Table 11.7. -/
def rowsOpt : List RegRow :=
  [{ off := 0x100, rw := 0x03FFFFFF, reset := 0x03320E10 }, ro 0x104, { off := 0x108 }, ro 0x10C,
   ixr 0x110 2, ixo 0x114 0x110 .module,
   ixr 0x120 6, ixo 0x124 0x120 .module,
   ixr 0x130 2, ixo 0x134 0x130 .module,
   { off := 0x140, cls := .ownIdx, rw := 0xF0FF00FF, enc := [(28, 4, 1)] },
   { off := 0x144, rw := 0xFFFFFFFF },
   { off := 0x148, rw := 0x3FFFF },
   ro 0x150 (n := 6)]

/-- 09 Table 9.11. -/
def rowsFab : List RegRow :=
  [{ off := 0x100, rw := 0x00030101 }, ro 0x104,
   { off := 0x108, rw := 0xFFFFFF77, reset := 0x64302043 },
   { off := 0x10C, rw := 0xFFFF80FF, reset := 0x14408010 },
   { off := 0x110, rw := 0xFFF0FFFF, reset := 0x32200537 },
   ro 0x140 (n := 10)]

/-- 04 Table 4.5: the tables stand on instance 0 only. -/
def rowsVat (inst : Nat) : List RegRow :=
  let w := RegCls.entryJob 0x114 4
  [{ off := 0x100, rw := 0xF, reset := 3 }, ro 0x104, ro 0x108,
   { off := 0x200, n := 8, stride := 0x10, cls := .grant, rw := 0xFFF },
   ro 0x204 (n := 8) (stride := 0x10) (cls := .jobN)] ++
  if inst ≠ 0 then []
  else
    [ixr 0x110 14, ixd 0x114 0x110 w 0x83FFF073, ixp 0x118 0x110 w, ixo 0x120 0x110 w,
     ixr 0x130 12, ixd 0x134 0x130 (.idxDiv 512) 0x80FFFFFF, ixd 0x138 0x130 (.idxDiv 512) 0x80FFFFFF,
     ixp 0x140 0x130 (.idxDiv 512), ixd 0x148 0x130 (.idxDiv 512) 0xFFFFFFFF, ixd 0x14C 0x130 (.idxDiv 512) 0xF,
     ixo 0x150 0x130 (.idxDiv 512), ixo 0x154 0x130 (.idxDiv 512),
     ixr 0x180 13, { ixd 0x184 0x180 (.idxDiv 1024) 0x8007FC0F with reset := 2 }, ixp 0x188 0x180 (.idxDiv 1024) (rwHi := 0xF),
     { off := 0x400, n := 8, stride := 0x40, words := 16, cls := .jobN, rw := 0xFFFFFFFF }]

/-- 05 Table 5.11. -/
def rowsEng : List RegRow :=
  [{ off := 0x100, rw := 0xFF, reset := 0xFF }, ro 0x104,
   ixr 0x110 12, ixd 0x120 0x110 .edt 0xFFFFFFFF (n := 16),
   { off := 0x200, n := 8, stride := 0x10, cls := .grant, rw := 0x003F007F }]

/-- 05 Table 5.16. -/
def rowsGc : List RegRow :=
  [{ off := 0x100, rw := 0xFFFFFFFF, reset := 0xFFFFFFFF }, ro 0x104,
   ixr 0x110 11, ixd 0x114 0x110 (.idxDiv 256) 0x807FFFFF,
   { off := 0x200, n := 8, stride := 0x20, cls := .grant, rw := 0x007F007F },
   { off := 0x204, n := 8, stride := 0x20, words := 2, pair := true, cls := .grant, rw := 0xFC000000 },
   { off := 0x20C, n := 8, stride := 0x20, cls := .grant, rw := 0x1FFF },
   { off := 0x210, n := 8, stride := 0x20, cls := .jobN, rw := 0xFFFFF, reset := 0x2710 },
   { off := 0x214, n := 8, stride := 0x20, cls := .jobN, rw := 1, reset := 1 }]

/-- 06 Table 6.7. -/
def rowsSheet : List RegRow :=
  [{ off := 0x100, rw := 0xF, reset := 3 }, { off := 0x104, rw := 0xFF, reset := 0xFF }, ro 0x108, ro 0x10C]

/-- 10 Table 10.9: the selectors stand on LINE0 only. -/
def rowsLine (inst : Nat) : List RegRow :=
  let e := RegCls.entryJob 0x194 24
  [{ off := 0x100, rw := 0x8F000000 }, { off := 0x104, rw := 0xFFFF }, { off := 0x108, rw := 0xFF }, ro 0x10C,
   { off := 0x110, rw := 0xFFFF0000, reset := 0xEC0A0000 }, { off := 0x114, rw := 0xFFFFFFFF, reset := 0x3C23D70A },
   { off := 0x118, n := 4, rw := 0xFFFFFFFF }, { off := 0x128, rw := 0xFFFF, reset := 0xFE }, ro 0x12C (n := 4),
   { off := 0x140, rw := 0xFFFFFFF0 }, { off := 0x144, n := 3, rw := 0xFFFFFFFF },
   { off := 0x150, reset := 0x80000000 }, { off := 0x154, n := 15, rw := 0xC0000000 },
   ixr 0x190 9, ixd 0x194 0x190 e 0x87FF000F, ixd 0x198 0x190 e 0xFFFFF, ixd 0x19C 0x190 e 0xFFFFF,
   ixd 0x1A0 0x190 e 0xFFFFFFFF, ixd 0x1A4 0x190 e 0xFFFF,
   { off := 0x1B0, rw := 0x1F }, { off := 0x1B4, rw := 0xFFFFFFFF, reset := 0x000A1432 },
   ixr 0x1D0 6, ixo 0x1D4 0x1D0 .module (n := 16), ro 0x220 (n := 5)] ++
  if inst ≠ 0 then []
  else [ixr 0x1C0 6, { ixd 0x1C4 0x1C0 .module 0xE700FFFF with reset := 0x40000000 }, ixo 0x1C8 0x1C0 .module]

/-- 12 Table 12.9: the peer table, CIPH_CFG, CIPH_MINSVN and CIPH_IDENT stand on instance 0 only. -/
def rowsCiph (inst : Nat) : List RegRow :=
  [{ off := 0x100, rw := 0xF0F, reset := 0xF0F }, ro 0x104, { off := 0x140, n := 8, rw := 0xFFFFFFFF }, ro 0x160, ro 0x1A0] ++
  if inst ≠ 0 then []
  else
    [{ off := 0x108, rw := 0xFF, reset := 0x3C }, { off := 0x10C, rw := 0xFFFF },
     ixr 0x110 6, ixd 0x114 0x110 .module 0x8000FFFF, ixo 0x118 0x110 .module, ixd 0x120 0x110 .module 0xFFFFFFFF (n := 8),
     ro 0x180 (n := 8)]

/-- 13 Table 13.3: instance 1 holds only the TIME_P registers. -/
def rowsTime (inst : Nat) : List RegRow :=
  if inst ≠ 0 then [{ off := 0x140, rw := 0xFFFFFFFF }, ro 0x144, ro 0x148, ro 0x14C]
  else
  [{ off := 0x100, rw := 0xFFFF0303, reset := 0x01F40000 }, ro 0x104, { off := 0x108 }, ro 0x10C, ro 0x110, ro 0x114,
   { off := 0x118, words := 2, pair := true, rw := 0xFFFFFFFF }, ro 0x120, ro 0x124,
   { off := 0x128, rw := 0xFFFFFFFF, reset := 0x03E807D0 }, { off := 0x12C, rw := 3 }, ro 0x130,
   { off := 0x140, rw := 0xFFFFFFFF }, ro 0x144, ro 0x148, ro 0x14C, { off := 0x160 }, ro 0x164, ro 0x168]

/-- 16 Table 16.7. -/
def rowsMgmt : List RegRow :=
  [{ off := 0x100, rw := 0xFFFF, reset := 0x7D0 }, ro 0x104, { off := 0x108 }, ro 0x10C,
   ixr 0x110 6, ixo 0x114 0x110 .module, ro 0x118,
   ixr 0x120 6, ixo 0x124 0x120 .module, ixo 0x128 0x120 .module,
   { off := 0x130, rw := 0x80FFFFFF }, { off := 0x134, rw := 0xFFFFFFFF }, { off := 0x138, rw := 0xFFFF },
   { off := 0x13C, rw := 0x3FF, reset := 0x64 }, ro 0x140, { off := 0x144, rw := 0xFFFF, reset := 0x3E8 },
   ixr 0x150 7, ixd 0x154 0x150 .module 0xC000000F, ixd 0x158 0x150 .module 0xFFFFFFFF (n := 8),
   { off := 0x200, n := 8, stride := 0x10, words := 2, pair := true, cls := .jobN, rw := 0xFFFFFFFF }]

/-- The register rows of page `p`. -/
def regRows (p : Nat) : List RegRow :=
  match pgKind p with
  | .sch => rowsSch
  | .ring => rowsRing
  | .outer => rowsOuter
  | .sw => rowsSw
  | .opt => rowsOpt
  | .mem => if pgInst p = 2 then rowsMemLp else rowsMemHbm
  | .pool => rowsPool
  | .host => rowsHost
  | .fab => rowsFab
  | .vat => rowsVat (pgInst p)
  | .eng => rowsEng
  | .gc => rowsGc
  | .sheet => rowsSheet
  | .line => rowsLine (pgInst p)
  | .ciph => rowsCiph (pgInst p)
  | .time => rowsTime (pgInst p)
  | .clk => rowsClk
  | .pwr => rowsPwr
  | .boot => rowsBoot
  | .mgmt => rowsMgmt
  | .hostF => rowsHostF

/-- The row of offset `o` of page `p`. -/
def regRow (p o : Nat) : Option RegRow := (regRows p).find? fun r => r.has o

/-- The reset value of a register (the Reset column of its table). -/
def regReset (p o : Nat) : Word :=
  match regRow p o with
  | none => 0
  | some r => if r.word o = 0 then r.reset else 0

/-- The counters of a page: offset, and whether it is 64 bits wide (BLK_CAP.NCNT counts a wide one as two). -/
def pgCnts (p : Nat) : List (Nat × Bool) :=
  let c32 (n : Nat) : List (Nat × Bool) := (List.range n).map fun i => (0x800 + 4 * i, false)
  let c64 (o n : Nat) : List (Nat × Bool) := (List.range n).map fun i => (o + 8 * i, true)
  let at32 (o n : Nat) : List (Nat × Bool) := (List.range n).map fun i => (o + 4 * i, false)
  let fab (b : Nat) : List (Nat × Bool) := c64 (0x800 + b) 6 ++ at32 (0x830 + b) 16 ++ c64 (0x880 + b) 5
  match pgKind p with
  | .sch => c32 8
  | .ring => c32 10
  | .outer => c32 9
  | .sw => c32 8
  | .opt => c32 18
  | .mem => if pgInst p = 2 then [(0x800, false), (0x804, false), (0x808, false), (0x810, false)]
            else [(0x800, false), (0x804, false), (0x80C, false), (0x810, false)]
  | .pool => c32 20
  | .host => c32 2
  | .hostF => c32 8
  | .fab => fab 0 ++ fab 0x100
  | .vat => c32 14
  | .eng => c32 9
  | .gc => c32 6
  | .sheet => c32 15
  | .line => at32 0x800 8 ++ c64 0x820 1 ++ at32 0x828 9 ++
             (if pgInst p = 0 then at32 0x84C 3 else []) ++ c64 0x858 1
  | .ciph => at32 0x800 13 ++ c64 0x838 2
  | .time => if pgInst p ≠ 0 then [] else [(0x800, false), (0x804, false), (0x808, false), (0x80C, false), (0x810, false), (0x814, false), (0x818, false)]
  | .clk => c32 4
  | .pwr => c32 2
  | .boot => c32 2
  | .mgmt => c32 19

/-- How many events a page implements in BLK_INT_STAT (BLK_CAP.NEV). -/
def pgNev (p : Nat) : Nat :=
  match pgKind p with
  | .sch => 5 | .ring => 7 | .outer => 7 | .sw => 6 | .opt => 14 | .mem => 3 | .pool => 5 | .host => 2 | .hostF => 6
  | .fab => 4 | .vat => 12 | .eng => 9 | .gc => 5 | .sheet => 4 | .line => (if pgInst p = 0 then 14 else 12) | .ciph => 10 | .time => (if pgInst p = 0 then 5 else 0)
  | .clk => 4 | .pwr => 2 | .boot => 2 | .mgmt => 12

/-- Whether a page has RWL fields (BLK_CAP.RWL). -/
def pgRwl (p : Nat) : Bool := (regRows p).any fun r => r.rwl ≠ 0

/-- The key of a register: page, offset and entry index (an _IDX copy: the writer's number). -/
def regKey (p o ix : Nat) : Nat := (p * 0x1000 + o) * 0x10000 + ix

/-- What an unlisted register reads as: its reset value. -/
def regDefault (k : Nat) : Word := regReset (k / 0x10000 / 0x1000) (k / 0x10000 % 0x1000)

end Sys2Proof.Machine
end

