-- ==== Sys2Proof/Machine/State.lean ====
section
/-! DEFINITION. The state of the gateway: every register, table, buffer, queue, counter and mode the spec gives it, as
plain data; why a step can stop; and the state after a module reset. -/
namespace Sys2Proof.Machine

/-- Why a step can end in a fault. The spec gives every event of the gateway an effect (a refusal is the gateway's own
behaviour, with a code or a status), so no command raises one: the type has the one reason that the interface needs. -/
inductive Fault where
  /-- Raised by no command; safe. -/
  | impossible
  deriving DecidableEq, Repr

/-- Why a step can be refused. -/
inductive Refusal where
  /-- The dispatcher: a command that has no meaning yet, by its mnemonic; safe. -/
  | notModelled (mnemonic : String)
  deriving DecidableEq, Repr

/-- The state of the gateway. -/
structure State where
  /-- Commands waiting, first in first out: the block form's own queue. -/
  pending : List Instr := []
  /-- What the block has sent out, oldest first: the model's own trail. -/
  out : List Out := []
  /-- How many free values have been drawn: the model's own (log 2). -/
  freeCtr : Nat := 0
  /-- Page headers (18 Table 18.2), by page; an unlisted page reads `hdrDefault`. -/
  pages : SMap PageHdr := []
  /-- Registers that software writes, by `regKey`; an unlisted one reads its reset value. -/
  regs : SMap Word := []
  /-- Live counters and snapshots, keyed 4,096 × page + offset (18 R448). -/
  cnts : SMap Nat := []
  snaps : SMap Nat := []
  /-- Latched upper halves and held lower halves, keyed (writer × 128 + page) × 4,096 + offset of _LO (18 R441). -/
  latch : SMap Word := []
  heldLo : SMap Word := []
  sch : Sch := {}
  vat : Vat := {}
  eng : Eng := {}
  gc : Gc := {}
  sheet : SheetB := {}
  ring : Ring := {}
  outer : Outer := {}
  fab : FabB := {}
  line : LineB := {}
  opt : Opt := {}
  ciph : Ciph := {}
  host : HostB := {}
  pool : Pool := {}
  mem : MemB := {}
  time : TimeB := {}
  mgmt : Mgmt := {}
  clk : Clk := {}
  pwr : Pwr := {}
  boot : Boot := {}
  deriving DecidableEq, Repr

/-- The machine right after a module reset: power on, boot step B1 running, every field at its reset value (log 5). -/
def State.reset : State := {}

end Sys2Proof.Machine
end

