-- ==== Sys2Proof/Machine/Ops.lean ====
section
/-! DEFINITION. The named operations that every block is written over: registers, page headers, events, counters, error
capture, vectors, free values, ownership of jobs and completion records. -/
namespace Sys2Proof.Machine

open Sys2Proof

/-- The outcome of a command. -/
abbrev Res := Host.Outcome State Fault Refusal

/-! Updates of one block each. -/

def State.updSch (f : Sch → Sch) (s : State) : State := { s with sch := f s.sch }
def State.updVat (f : Vat → Vat) (s : State) : State := { s with vat := f s.vat }
def State.updEng (f : Eng → Eng) (s : State) : State := { s with eng := f s.eng }
def State.updGc (f : Gc → Gc) (s : State) : State := { s with gc := f s.gc }
def State.updSheet (f : SheetB → SheetB) (s : State) : State := { s with sheet := f s.sheet }
def State.updRing (f : Ring → Ring) (s : State) : State := { s with ring := f s.ring }
def State.updOuter (f : Outer → Outer) (s : State) : State := { s with outer := f s.outer }
def State.updFab (f : FabB → FabB) (s : State) : State := { s with fab := f s.fab }
def State.updLine (f : LineB → LineB) (s : State) : State := { s with line := f s.line }
def State.updOpt (f : Opt → Opt) (s : State) : State := { s with opt := f s.opt }
def State.updCiph (f : Ciph → Ciph) (s : State) : State := { s with ciph := f s.ciph }
def State.updHost (f : HostB → HostB) (s : State) : State := { s with host := f s.host }
def State.updPool (f : Pool → Pool) (s : State) : State := { s with pool := f s.pool }
def State.updMem (f : MemB → MemB) (s : State) : State := { s with mem := f s.mem }
def State.updTime (f : TimeB → TimeB) (s : State) : State := { s with time := f s.time }
def State.updMgmt (f : Mgmt → Mgmt) (s : State) : State := { s with mgmt := f s.mgmt }
def State.updClk (f : Clk → Clk) (s : State) : State := { s with clk := f s.clk }
def State.updPwr (f : Pwr → Pwr) (s : State) : State := { s with pwr := f s.pwr }
def State.updBoot (f : Boot → Boot) (s : State) : State := { s with boot := f s.boot }

/-- Adds to the trail of what the block has sent out. -/
def State.emit (o : Out) (s : State) : State := { s with out := s.out ++ [o] }

/-- A free value, and the state with the next one up (log 2). -/
def State.draw (s : State) : DWord × State := (Config.free s.freeCtr, { s with freeCtr := s.freeCtr + 1 })

/-! Registers. -/

/-- What a stored register holds. -/
def State.reg (s : State) (p o : Nat) (ix : Nat := 0) : Word := SMap.get regDefault s.regs (regKey p o ix)

/-- A stored register set. -/
def State.setReg (p o : Nat) (v : Word) (ix : Nat := 0) (s : State) : State :=
  { s with regs := SMap.set regDefault (regKey p o ix) v s.regs }

/-- A field of a stored register. -/
def State.regF (s : State) (p o lo n : Nat) (ix : Nat := 0) : Nat := fld (s.reg p o ix) lo n

/-- A 64-bit register pair with its _LO at offset `o`. -/
def State.reg64 (s : State) (p o : Nat) (ix : Nat := 0) : DWord := pairW (s.reg p (o + 4) ix) (s.reg p o ix)

/-- The number of a reader or writer: its function, or 32 for root firmware (18 R441). -/
def whoCode : Who → Nat
  | .func f => f.val
  | .root => 32

/-- The writer's own copy of an _IDX register (15 R373). -/
def State.idx (s : State) (w : Who) (p o : Nat) : Nat := (s.reg p o (whoCode w)).toNat

/-! Page headers. -/

/-- A page header after reset: its default vector (18 Table 18.3). -/
def hdrDefault (p : Nat) : PageHdr := { vec := pgVec p }

def State.hdr (s : State) (p : Nat) : PageHdr := SMap.get hdrDefault s.pages p

def State.updHdr (p : Nat) (f : PageHdr → PageHdr) (s : State) : State :=
  { s with pages := SMap.modify hdrDefault p f s.pages }

/-- The state of clock domain `d` (17 Table 17.1). -/
def State.dom (s : State) (d : Nat) : DomSt := s.clk.doms.getD d {}

/-- The page's clock domain is gated or held in reset (18 R442). -/
def State.pageOff (s : State) (p : Nat) : Bool := (s.dom (pgDom p)).gated || (s.dom (pgDom p)).inReset

/-- The page's block has no clock: its domain is gated, held in reset or HUNG (17 R420 to R423). -/
def State.unclocked (s : State) (p : Nat) : Bool := s.pageOff p || (s.dom (pgDom p)).hung

/-! Functions, ports and the control PF (15 R370). -/

/-- The port, and so the number of the PF, of a function. -/
def portOf (f : Nat) : Nat := if f = 0 then 0 else if f = 1 then 1 else if f < 17 then 0 else 1

def isPf (f : Nat) : Bool := decide (f < 2)

/-- The function of a number. -/
def fnOf (n : Nat) : Func := Fin.ofNat 32 n

/-- The control PF: PF0 unless HOST_CTRL.CTRL_PF selects PF1 (R370). -/
def State.ctrlPf (s : State) : Nat := s.regF pgHOST 0x100 0 1

/-- What an unlisted function holds. -/
def fnDefault (_ : Nat) : FnSt := {}

def State.fn (s : State) (f : Nat) : FnSt := SMap.get fnDefault s.host.fns f

def State.updFn (f : Nat) (g : FnSt → FnSt) (s : State) : State :=
  s.updHost fun h => { h with fns := SMap.modify fnDefault f g h.fns }

/-! Vectors (15 R385, 18 R444). -/

/-- The MSI-X message of vector `v` of function `f`: sent, or pending in the PBA while masked (PCIe). -/
def sendMsix (f v : Nat) (s : State) : State :=
  let e := SMap.get (fun _ => ({} : MsixEntry)) (s.fn f).msix v
  if (s.fn f).msixEn && !(s.fn f).fnMask && !e.masked then s.emit (.msix (fnOf f) v)
  else (s.updFn f fun x => { x with pba := x.pba ||| (1 <<< v : DWord) }).emit (.pba (fnOf f) v)

/-- The page's summary: BLK_INT_STAT AND BLK_INT_EN is non-zero. -/
def State.summary (s : State) (p : Nat) : Bool := ((s.hdr p).intStat &&& (s.hdr p).intEn) ≠ 0

/-- The page sends its vector (R444, R445): a HOST_F page to its function, another to the control PF or to both. -/
def vectorSend (p : Nat) (s : State) : State :=
  let h := s.hdr p
  if h.vec < 2 then s
  else if p ≥ 40 then sendMsix (p - 40) h.vec s
  else if h.dest = 1 then sendMsix 1 h.vec (sendMsix 0 h.vec s)
  else sendMsix s.ctrlPf h.vec s

/-- Sets bits of BLK_INT_STAT; a summary that becomes non-zero sends the vector (R444). -/
def setIntStat (p : Nat) (m : Word) (s : State) : State :=
  let s' := s.updHdr p fun h => { h with intStat := h.intStat ||| m }
  if !s.summary p && s'.summary p then vectorSend p s' else s'

/-- Event `b` of page `p` occurs; none occurs while the page's block has no clock (R442). -/
def event (p b : Nat) (s : State) : State :=
  if s.pageOff p then s else setIntStat p (wd (2 ^ b)) s

/-! Counters (18 R448). -/

def cntKey (p o : Nat) : Nat := p * 0x1000 + o

/-- The greatest value of the counter at offset `o`. -/
def cntMax (p o : Nat) : Nat := if (pgCnts p).any (fun c => c.1 = o && c.2) then 2 ^ 64 - 1 else 2 ^ 32 - 1

def State.cnt (s : State) (p o : Nat) : Nat := SMap.get (fun _ => 0) s.cnts (cntKey p o)

/-- A counter rises by `n` and saturates; a saturation sets BLK_STAT.SAT. -/
def bump (p o n : Nat) (s : State) : State :=
  if s.pageOff p || n = 0 then s
  else
    let v := s.cnt p o + n
    let s' := { s with cnts := SMap.set (fun _ => 0) (cntKey p o) (min v (cntMax p o)) s.cnts }
    if v > cntMax p o then s'.updHdr p fun h => { h with sat := true } else s'

/-! The health score (16 R409, R410). -/

/-- The points of an event, by the counter of its name (Table 16.5). -/
def healthPoints (p o : Nat) : Nat :=
  match pgKind p with
  | .opt => if o = 0x80C then 500 else if o = 0x834 then 400 else if o = 0x820 then 300 else 0
  | .mem => if o = 0x804 || (o = 0x808 && p = pgMEM2) then 300 else 0
  | .gc => if o = 0x810 then 300 else 0
  | .vat => if o = 0x818 then 250 else 0
  | .sheet => if o = 0x820 then 250 else if o = 0x828 then 200 else 0
  | .eng => if o = 0x81C then 200 else 0
  | .ciph => if o = 0x810 then 200 else 0
  | _ => 0

/-- The score rises; a member whose score reaches THR asks its spare to expel it (R410). -/
def addHealth (n : Nat) (s : State) : State :=
  let h := min 0xFFFF (s.mgmt.health + n)
  let thr := s.regF pgMGMT 0x144 0 16
  let s1 := s.updMgmt fun m => { m with health := h }
  if thr ≠ 0 && s.mgmt.health < thr && thr ≤ h && !bit (s.reg pgMGMT 0x130) 31 then
    (s1.updMgmt fun m => { m with expelAsked := true, expelDenied := false }).emit
      (.root (BitVec.ofNat 16 (s.regF pgMGMT 0x130 0 16)) "EXPEL_REQ" [h])
  else s1

/-- A corrected memory error: 10 points for each 1,000 (Table 16.5). -/
def addCe (s : State) : State :=
  if s.mgmt.ceRem + 1 ≥ 1000 then addHealth 10 (s.updMgmt fun m => { m with ceRem := 0 })
  else s.updMgmt fun m => { m with ceRem := m.ceRem + 1 }

/-- A counter rises by 1 and its event occurs, with its points. -/
def raiseEv (p o b : Nat) (s : State) : State :=
  if s.pageOff p then s else addHealth (healthPoints p o) (event p b (bump p o 1 s))

/-! Error capture (18 R446, R447). -/

/-- One happening for the capture of page `p`. -/
def capture (p : Nat) (refusal : Bool) (code : Nat) (info : Word) (addr : DWord) (s : State) : State :=
  s.updHdr p fun h =>
    if h.errValid then { h with errLost := min 15 (h.errLost + 1) }
    else { h with errValid := true, errRefusal := refusal, errLost := 0, errCode := code, errInfo := info, errAddr := addr }

/-- A capturing event with a counter at offset `o`. -/
def captureEv (p o : Nat) (info : Word) (addr : DWord) (s : State) : State :=
  if s.pageOff p then s else capture p false o info addr s

/-- A capturing event: counts, captures and occurs. -/
def raiseCap (p o b : Nat) (info : Word) (addr : DWord) (s : State) : State :=
  if s.pageOff p then s
  else addHealth (healthPoints p o) (event p b (captureEv p o info addr (bump p o 1 s)))

/-- Refusal codes (18 Table 18.7). -/
inductive RefCode where
  | locked | notOwner | domOff | busyCmd | stepLoadBusy | partBusy | partOverlap | quotaOver | quotaBusy | badRing
  | winBusy | edtBusy | edtOverlap | gcBusy | shmOverlap | gtBusy | outerBusy | ocbBad | scBusy | portBusy | qpQuota
  | pfcRange | mirrorBusy | rrRange | cirOver | relayMismatch | chBusy | portOos | peerBusy | owned | hbmOverlap
  | memOverlap | memBusy | poolBusy | poolOver | wmarkRange | cqBusy | mgmtBusy | mirrorDest | fwdBusy | rsvdEnc
  | valueRange | winDup
  deriving DecidableEq, Repr

/-- The number of a refusal code (Table 18.7). -/
def RefCode.num : RefCode → Nat
  | .locked => 0x01 | .notOwner => 0x02 | .domOff => 0x03 | .busyCmd => 0x04 | .stepLoadBusy => 0x05
  | .partBusy => 0x06 | .partOverlap => 0x07 | .quotaOver => 0x08 | .quotaBusy => 0x09 | .badRing => 0x0A
  | .winBusy => 0x0B | .edtBusy => 0x0C | .edtOverlap => 0x0D | .gcBusy => 0x0E | .shmOverlap => 0x0F
  | .gtBusy => 0x10 | .outerBusy => 0x11 | .ocbBad => 0x12 | .scBusy => 0x13 | .portBusy => 0x14 | .qpQuota => 0x15
  | .pfcRange => 0x16 | .mirrorBusy => 0x17 | .rrRange => 0x18 | .cirOver => 0x19 | .relayMismatch => 0x1A
  | .chBusy => 0x1B | .portOos => 0x1C | .peerBusy => 0x1D | .owned => 0x1E | .hbmOverlap => 0x1F
  | .memOverlap => 0x20 | .memBusy => 0x21 | .poolBusy => 0x22 | .poolOver => 0x23 | .wmarkRange => 0x24
  | .cqBusy => 0x25 | .mgmtBusy => 0x26 | .mirrorDest => 0x27 | .fwdBusy => 0x28 | .rsvdEnc => 0x29
  | .valueRange => 0x2A | .winDup => 0x2B

/-- The BLK_ERR_INFO of a refusal (R447). -/
def refInfo (w : Who) (c : RefCode) (o : Nat) : Word :=
  wd (c.num * 2 ^ 24 + (match w with | .root => 2 ^ 23 | .func f => f.val * 2 ^ 16) + o % 0x1000)

/-- A refused write of `v` to offset `o` of page `p`, recorded in the page's capture (R446, R447). -/
def refuse (w : Who) (p : Nat) (c : RefCode) (o : Nat) (v : Word) (s : State) : State :=
  capture p true 0 (refInfo w c o) (v.setWidth 64) s

/-- The non-maskable event (17 R418, 15 R385): vector 0 of every PF whose entry holds a non-zero address, and the cause
bit; FAULT_N is asserted while any cause bit is set. -/
def nmi (cause : Nat) (s : State) : State :=
  let s1 := s.updClk fun c => { c with nmi := c.nmi ||| wd (2 ^ cause) }
  let s2 := if s.clk.nmi = 0 && !s.pwr.faultHeld then s1.emit (.pin "FAULT_N" false) else s1
  let v0 (f : Nat) (t : State) : State :=
    if (SMap.get (fun _ => ({} : MsixEntry)) (t.fn f).msix 0).addr ≠ 0 then t.emit (.msix (fnOf f) 0) else t
  v0 1 (v0 0 s2)

/-! Jobs (15 R371, R372). -/

def State.jobSt (s : State) (j : Nat) : JobSt := SMap.get (fun _ => JobSt.free) s.host.jobSt j

def State.setJobSt (j : Nat) (x : JobSt) (s : State) : State :=
  s.updHost fun h => { h with jobSt := SMap.set (fun _ => JobSt.free) j x h.jobSt }

def State.owner (s : State) (j : Nat) : Nat := SMap.get (fun _ => 0) s.host.owner j

/-- Function `f` is the job's owner or the owner's PF. -/
def State.owns (s : State) (f j : Nat) : Bool :=
  s.jobSt j ≠ .free && (s.owner j = f || (isPf f && portOf (s.owner j) = f))

/-- A job register is writable while the job is ASSIGNED or RUNNING (R372). -/
def State.jobOpen (s : State) (j : Nat) : Bool := s.jobSt j = .assigned || s.jobSt j = .running

/-- A completion record of function `f` waits in its hold (15 R382, R383). -/
def pushRec (f : Nat) (r : CRec) (s : State) : State := s.updFn f fun x => { x with hold := x.hold ++ [r] }

/-- Applies `f` to the state for each of a list, in order. -/
def forAll {α : Type} (l : List α) (f : α → State → State) (s : State) : State := l.foldl (fun t a => f a t) s

/-- `f` where the condition holds, and no change where it does not. -/
def whenD (c : Bool) (f : State → State) (s : State) : State := if c then f s else s

end Sys2Proof.Machine
end

