-- ==== Sys2Proof/Machine/MemOps.lean ====
section
/-! DEFINITION. The memories (14): bytes of HBM3E and LPDDR5X, poisoned units, the jobs' ranges, and ECC errors. -/
namespace Sys2Proof.Machine

open Sys2Proof

/-- What a byte of memory that nothing has written reads as (log 4). -/
def memByte (_ : Nat) : Byte := 0

/-- The canonical form of a memory: addresses strictly rising, no entry equal to what an unlisted address reads as. -/
abbrev Memory.wf (m : SMap Byte) : Bool := SMap.wf memByte m

/-- One byte. -/
def memGet (m : SMap Byte) (a : Nat) : Byte := SMap.get memByte m a

/-- `n` bytes from address `a`. -/
def memRead (m : SMap Byte) (a n : Nat) : List Byte := (List.range n).map fun i => memGet m (a + i)

/-- Bytes written from address `a` up. -/
def memWrite (a : Nat) : List Byte → SMap Byte → SMap Byte
  | [], m => m
  | b :: bs, m => memWrite (a + 1) bs (SMap.set memByte a b m)

/-- The end of HBM that a job's range may reach, and of the device (R347). -/
def hbmTop : Nat := 0x6494000000
def hbmLow : Nat := 0x140000000

/-- Units of `sz` bytes that a range of addresses touches, and that it covers whole. -/
def unitsOf (sz a n : Nat) : List Nat := if n = 0 then [] else List.range' (a / sz) ((a + n - 1) / sz - a / sz + 1)
def unitsWhole (sz a n : Nat) : List Nat := (unitsOf sz a n).filter fun u => a ≤ u * sz && u * sz + sz ≤ a + n

/-- A write into HBM: a full write of a unit clears its poison (R356). -/
def hbmWrite (a : Nat) (bs : List Byte) (s : State) : State :=
  s.updMem fun m =>
    { m with
      hbm := memWrite a bs m.hbm
      hbmPoison := (unitsWhole 64 a bs.length).foldl (fun p u => SMap.erase u p) m.hbmPoison }

/-- HBM from `a` to `a + n − 1` reads zero, as after a write of zeros. -/
def hbmZero (a n : Nat) (s : State) : State :=
  s.updMem fun m =>
    { m with
      hbm := SMap.keep (fun k _ => k < a || a + n ≤ k) m.hbm
      hbmPoison := SMap.keep (fun u _ => u * 64 < a || a + n < u * 64 + 64) m.hbmPoison }

/-- A write into LPDDR5X. -/
def lpWrite (a : Nat) (bs : List Byte) (s : State) : State :=
  s.updMem fun m =>
    { m with
      lp := memWrite a bs m.lp
      lpPoison := (unitsWhole 8 a bs.length).foldl (fun p u => SMap.erase u p) m.lpPoison }

def State.hbmRead (s : State) (a n : Nat) : List Byte := memRead s.mem.hbm a n
def State.lpRead (s : State) (a n : Nat) : List Byte := memRead s.mem.lp a n

/-- A little-endian number of HBM. -/
def State.hbmNat (s : State) (a n : Nat) : Nat := leNat (s.hbmRead a n)
def State.hbmWord (s : State) (a : Nat) : Word := wd (s.hbmNat a 4)

/-- A poisoned unit lies in the range (R356). -/
def State.hbmBad (s : State) (a n : Nat) : Bool := s.mem.hbmPoison.any fun kv => unitsOf 64 a n |>.contains kv.1
def State.lpBad (s : State) (a n : Nat) : Bool := s.mem.lpPoison.any fun kv => unitsOf 8 a n |>.contains kv.1

/-- The functions of 03 R68. -/
def mix (z0 : DWord) : DWord :=
  let z1 := (z0 ^^^ (z0 >>> 30)) * 0xBF58476D1CE4E5B9
  let z2 := (z1 ^^^ (z1 >>> 27)) * 0x94D049BB133111EB
  z2 ^^^ (z2 >>> 31)

/-- The pseudo-channel of an HBM address (R350). -/
def hbmPc (hkey : DWord) (a : Nat) : Nat :=
  let b := a / 512
  let grp := b / 192
  let i := b % 192
  let w := (mix (hkey ^^^ BitVec.ofNat 64 grp)).toNat
  let j := w % 64
  let u := 6 * (j / 2) + (if j % 2 = 1 then 5 else 1)
  let v := w / 256 % 192
  (u * i + v) % 192

/-- The compute die whose stacks hold an HBM address (R350). -/
def State.hbmDie (s : State) (a : Nat) : Nat := hbmPc s.mem.hkey a / 96

/-- The LPDDR5X channel of an address (R354). -/
def lpChan (lkey : DWord) (a : Nat) : Nat :=
  let b := a / 4096
  (b % 16).xor ((mix (lkey ^^^ BitVec.ofNat 64 (b / 16))).toNat % 16)

/-- An uncorrectable error at HBM address `a`, met by requester port `port` (R356, R366). -/
def hbmUe (a port : Nat) (s : State) : State :=
  let p := pgMEM (s.hbmDie a)
  raiseCap p 0x804 0 (wd port) (BitVec.ofNat 64 a)
    (s.updMem fun m => { m with hbmPoison := SMap.put (a / 64) true m.hbmPoison })

/-- An uncorrectable error at LPDDR5X address `a`. -/
def lpUe (a port : Nat) (s : State) : State :=
  raiseCap pgMEM2 0x804 0 (wd port) (BitVec.ofNat 64 a)
    (s.updMem fun m => { m with lpPoison := SMap.put (a / 8) true m.lpPoison })

/-- The first poisoned address of an HBM range, reported again by a read (R356). -/
def reportHbm (a n port : Nat) (s : State) : State :=
  match (unitsOf 64 a n).find? fun u => (SMap.find s.mem.hbmPoison u).isSome with
  | some u => hbmUe (u * 64) port s
  | none => s

def reportLp (a n port : Nat) (s : State) : State :=
  match (unitsOf 8 a n).find? fun u => (SMap.find s.mem.lpPoison u).isSome with
  | some u => lpUe (u * 8) port s
  | none => s

/-! Ranges of the jobs. -/

/-- The job's HBM range: base and size in bytes (05 Table 5.16). Both GC pages show the one range of the job (log 15). -/
def State.hbmBase (s : State) (j : Nat) : Nat := (s.reg64 (pgGC 0) (0x204 + 0x20 * j)).toNat / 2 ^ 26 * 2 ^ 26
def State.hbmSize (s : State) (j : Nat) : Nat := s.regF (pgGC 0) (0x20C + 0x20 * j) 0 13 * 2 ^ 26

/-- A range lies inside the job's HBM range (R136, R347). -/
def State.hbmOk (s : State) (j a n : Nat) : Bool :=
  s.hbmSize j > 0 && s.hbmBase j ≤ a && a + n ≤ s.hbmBase j + s.hbmSize j && a + n ≤ hbmTop

/-- Start of the partitions of Table 14.4, and their ends. -/
def lpMirror : Nat := 0x2100000000
def lpSnap : Nat := 0xC100000000
def lpSnapEnd : Nat := 0xEE6B280000
def lpCapture : Nat := 0x2000000000

/-- A range lies inside the job's mirror (snapshot) range of LPDDR5X (R359). -/
def State.mirOk (s : State) (snap : Bool) (j a n : Nat) : Bool :=
  let r := s.reg pgMEM2 ((if snap then 0x204 else 0x200) + 0x10 * j)
  let base := (if snap then lpSnap else lpMirror) + fld r 0 14 * 2 ^ 26
  fld r 16 14 > 0 && base ≤ a && a + n ≤ base + fld r 16 14 * 2 ^ 26

/-- The job's shared partition on die `d`: first byte and size (05 Table 5.17). -/
def State.shmBase (s : State) (d j : Nat) : Nat := s.regF (pgGC d) (0x200 + 0x20 * j) 16 7 * 0x10000
def State.shmSize (s : State) (d j : Nat) : Nat := s.regF (pgGC d) (0x200 + 0x20 * j) 0 7 * 0x10000

/-- Writes into a die's shared memory. -/
def shmWrite (d a : Nat) (bs : List Byte) (s : State) : State :=
  s.updGc fun g => { g with shm := memWrite (d * 2 ^ 23 + a) bs g.shm }
def State.shmRead (s : State) (d a n : Nat) : List Byte := memRead s.gc.shm (d * 2 ^ 23 + a) n

end Sys2Proof.Machine
end

