-- ==== Sys2Proof/Machine/Seeds.lean ====
section
/-! DEFINITION. The seeded generator (03 R67 to R69) and vat entry (03 R82, R83, R85). -/
namespace Sys2Proof.Machine

open Sys2Proof

/-! The gateway's own site, as the group table gives it (07 Table 7.7, R172). -/

def State.gtCtl (s : State) (g : Nat) : Word := s.reg pgRING 0x114 g
def gtValid (c : Word) : Bool := bit c 31
def gtJob (c : Word) : Nat := fld c 24 3
def gtPos (c : Word) : Nat := fld c 0 4
def State.gtSite (s : State) (g i : Nat) : Nat := fldN (s.reg64 pgRING 0x11C g).toNat (4 * i) 4

/-- The site ID at the own position of the lowest VALID group whose job `p` takes; where there is none, the module's own
(log 7). -/
def State.ownSite (s : State) (p : Nat → Bool) : Nat :=
  match (List.range 64).find? fun g => gtValid (s.gtCtl g) && p (gtJob (s.gtCtl g)) with
  | some g => s.gtSite g (gtPos (s.gtCtl g))
  | none => Config.site.toNat

/-- The site as a job's rings name it, and as the gateway's first ring names it. -/
def State.siteOf (s : State) (j : Nat) : Nat := s.ownSite fun i => i = j
def State.site (s : State) : Nat := s.ownSite fun _ => true

/-- seed(tag, a, b, c) under a job seed (R68). -/
def seed4 (js : DWord) (tag a b c : Nat) : DWord :=
  let z0 := mix (js ^^^ BitVec.ofNat 64 tag)
  let z1 := mix (z0 ^^^ BitVec.ofNat 64 a)
  let z2 := mix (z1 ^^^ BitVec.ofNat 64 b)
  mix (z2 ^^^ BitVec.ofNat 64 c)

/-- Whether the sign of element `j` of group `g` is −1 (R68). -/
def rotNeg (rs : DWord) (g j : Nat) : Bool :=
  (mix (rs ^^^ BitVec.ofNat 64 (4 * g + j / 64))).getLsbD (j % 64)

/-- The 24-bit draw of element `e` (R68). -/
def draw24 (ss : DWord) (e : Nat) : Nat := (mix (ss ^^^ BitVec.ofNat 64 e)).toNat / 2 ^ 40

/-- The seeds of Table 3.4: rotation, line quantisation, vat entry of a contribution, vat entry of a sheet or rotation. -/
def seedRot (j ream r : Nat) : DWord := seed4 (Config.jobSeed j) 1 ream r 0
def State.seedLine (s : State) (j ream r : Nat) : DWord := seed4 (Config.jobSeed j) 2 ream r (s.siteOf j)
def seedContrib (j ream r c : Nat) : DWord := seed4 (Config.jobSeed j) 3 ream r (0x10000 + c)
def State.seedLocal (s : State) (j ream r : Nat) : DWord := seed4 (Config.jobSeed j) 3 ream r (0x20000 + s.siteOf j)

/-- SEED_CHECK (R67). -/
def seedCheck (j : Nat) : BitVec 16 := (mix (Config.jobSeed j) >>> 48).setWidth 16

/-- What vat entry makes of an input (R83): the integer, an underflow, a saturation. -/
structure Entered where
  v : Int
  under : Bool
  sat : Bool
  deriving DecidableEq, Repr

/-- An integer whose magnitude would reach 2⁶³ is set to the bound by its sign (R83). -/
def clamp63 (i : Int) : Int × Bool :=
  if i ≥ 2 ^ 63 then (2 ^ 63 - 1, true) else if i ≤ -(2 ^ 63) then (-(2 ^ 63), true) else (i, false)

/-- Vat entry of `x` under floor exponent `f` with draw `u` (R83). -/
def vatEntry (x : Dy) (f : Int) (u : Nat) : Entered :=
  let v := x.shift (-f)
  let c := clamp63 (v.srInt u)
  ⟨c.1, !x.isZero && v.abs.lt ⟨1, 0⟩, c.2⟩

/-- The residue of a 64-bit word: the sum of its sixteen 4-bit digits, modulo 15 (R85). -/
def residue (w : DWord) : Nat := (List.range 16).foldl (fun a i => a + w.toNat / 16 ^ i % 16) 0 % 15

/-- An add (R85): the accumulator, a residue mismatch, a saturation. `flip` stands for a fault of the adder. -/
def vatAdd (a : DWord) (b : Int) (flip : DWord) : DWord × Bool × Bool :=
  let bw := BitVec.ofInt 64 b
  let carry := (a.toNat + bw.toNat) / 2 ^ 64
  let z := (a + bw) ^^^ flip
  let p := (residue a + residue bw + 15 - carry) % 15
  let c := clamp63 (a.toInt + b)
  (if c.2 then BitVec.ofInt 64 c.1 else z, p ≠ residue z, c.2)

/-- The value of an accumulator under a floor exponent (R82). -/
def accDy (a : DWord) (f : Int) : Dy := ⟨a.toInt, f⟩

end Sys2Proof.Machine
end

