-- ==== Sys2Proof/Machine/Quant.lean ====
section
/-! DEFINITION. Line quantisation (03 R70 to R81): the formats, the guard check, the re-grade ladder; and the rotation of a
group (03 R65, R66). -/
namespace Sys2Proof.Machine

open Sys2Proof

/-! ## Statistics of a block, in FP32 -/

/-- A sum of FP32 values, two at a time: `pick` says which two are next. -/
def sumBy (pick : Nat → Nat × Nat) : Nat → List Word → Word
  | 0, l => l.headD 0
  | k + 1, l =>
    if l.length < 2 then l.headD 0
    else
      let i := (pick k).1 % l.length
      let r := l.eraseIdx i
      let j := (pick k).2 % r.length
      sumBy pick k (f32Add (l.getD i 0) (r.getD j 0) :: r.eraseIdx j)

/-- The sum of some FP32 values in an order that is fixed for its kind and length, and open (03 R66, R79, 05 R134, log 11). -/
def f32Sum (kind : Nat) (l : List Word) : Word := sumBy (Config.sumPick kind l.length) l.length l

/-- The root mean square of a block (R71). -/
def blkRms (xs : List Word) : Word := f32Sqrt (f32Div (f32Sum 0 (xs.map fun x => f32Mul x x)) (f32OfNat xs.length))

/-- The largest magnitude of some values. -/
def maxMag (xs : List Dy) : Dy := xs.foldl (fun a x => a.max x.abs) Dy.zero

/-- What the quantisation of one block gives: its bytes, the decoded values, elements sent as SAT, elements clamped, and
its T2 escapes by place. -/
structure QBlk where
  bytes : List Byte
  dec : List Dy
  sat : Nat := 0
  conv : Nat := 0
  esc : List (Nat × Word) := []
  deriving DecidableEq, Repr

/-- q = (⌊x / s × 2²⁴⌋ + U) >> 24 (R70). -/
def srRatio (x s : Dy) (u : Nat) : Int := (dyDivFloor x s 24 + u) / 2 ^ 24

/-- T4 (R71, R72). -/
def quantT4 (clip : Nat) (xs : List Word) (us : List Nat) : QBlk :=
  let ds := xs.map f32Dy
  let m := maxMag ds
  let c := if clip = 0 then m
    else
      let l := f32Dy (f32Round ((⟨4 + clip, -2⟩ : Dy).mul (f32Dy (blkRms xs))) false)
      if l.lt m then l else m
  let sc := if c.isZero then 0 else fmtBf16.encUp (c.div ⟨7, 0⟩)
  let s := fmtBf16.dec sc
  let qs := (ds.zip us).map fun xu =>
    if c.isZero then (0, Dy.zero, 0)
    else if c.lt xu.1.abs then (8, Dy.zero, 1)
    else let q := srRatio xu.1 s xu.2; (twos 4 q, s.mul ⟨q, 0⟩, 0)
  { bytes := natLE 2 sc ++ packCodes 4 (qs.map fun q => q.1)
    dec := qs.map fun q => q.2.1
    sat := qs.foldl (fun a q => a + q.2.2) 0 }

/-- T2 (R73). -/
def quantT2 (xs : List Word) (us : List Nat) : QBlk :=
  let ds := xs.map f32Dy
  let lim := (f32Dy (blkRms xs)).shift 2
  let others := ds.filter fun x => !lim.lt x.abs
  let sc := fmtBf16.encUp (maxMag others)
  let s := fmtBf16.dec sc
  let qs := (ds.zip us).map fun xu =>
    if lim.lt xu.1.abs then (2, xu.1)
    else if s.isZero then (0, Dy.zero)
    else let q := srRatio xu.1 s xu.2; (twos 2 q, s.mul ⟨q, 0⟩)
  { bytes := natLE 2 sc ++ packCodes 2 (qs.map Prod.fst)
    dec := qs.map Prod.snd
    conv := b2n (fmtBf16.upClamps (maxMag others))
    esc := (xs.zip qs).zipIdx.filterMap fun p => if p.1.2.1 = 2 then some (p.2, p.1.1) else none }

/-- T1 (R75). -/
def quantT1 (xs : List Word) : QBlk :=
  let mean := f32Div (f32Sum 1 (xs.map fun x => x &&& 0x7FFFFFFF)) (f32OfNat xs.length)
  let c := fmtBf16.encSat (f32Dy mean)
  let sc := c.1
  let s := fmtBf16.dec sc
  let ng := xs.map fun x => (f32Dy x).isNeg
  { bytes := natLE 2 sc ++ packCodes 1 (ng.map b2n), dec := ng.map fun n => if n then s.neg else s, conv := b2n c.2 }

/-- An element of an MX block at its scale, rounded stochastically: code, value, clamped (R76). -/
def quantMxEl (f : Fmt) (v : Dy) (u : Nat) : Nat × Dy × Nat :=
  if f = .mxi8 then
    if (⟨127, -6⟩ : Dy).lt v.abs then
      if v.isNeg then (0x81, ⟨-127, -6⟩, 1) else (0x7F, ⟨127, -6⟩, 1)
    else let q := (v.shift 6).srInt u; (twos 8 q, ⟨q, -6⟩, 0)
  else
    let r := f.elem.encSr v u
    (r.1, f.elem.dec r.1, b2n r.2)

/-- MX formats (R76). -/
def quantMx (f : Fmt) (xs : List Word) (us : List Nat) : QBlk :=
  let ds := xs.map f32Dy
  let m := maxMag ds
  if m.isZero then { bytes := 0 :: packCodes f.w (xs.map fun _ => 0), dec := xs.map fun _ => Dy.zero }
  else
    let byte : Int := max 0 (min 254 (m.log2 - f.emax + 127))
    let qs := (ds.zip us).map fun xu => quantMxEl f (xu.1.shift (127 - byte)) xu.2
    { bytes := BitVec.ofInt 8 byte :: packCodes f.w (qs.map fun q => q.1)
      dec := qs.map fun q => q.2.1.shift (byte - 127)
      conv := qs.foldl (fun a q => a + q.2.2) 0 }

/-- A scalar format: one element (R70). -/
def quantScalar (f : Fmt) (x : Word) (u : Nat) : QBlk :=
  if f = .f32 then { bytes := natLE 4 x.toNat, dec := [f32Dy x] }
  else
    let r := f.elem.encSr (f32Dy x) u
    { bytes := natLE f.blkBytes r.1, dec := [f.elem.dec r.1], conv := b2n r.2 }

def quantBlk (f : Fmt) (clip : Nat) (xs : List Word) (us : List Nat) : QBlk :=
  match f with
  | .t4 => quantT4 clip xs us
  | .t2 => quantT2 xs us
  | .t1 => quantT1 xs
  | .mx8 | .mx6 | .mx4 | .mxi8 => quantMx f xs us
  | _ => quantScalar f (xs.headD 0) (us.headD 0)

/-- A quantised sheet: its raw form, its decoded values and its counts. -/
structure QSheet where
  raw : RawSheet
  dec : List Dy
  sat : Nat
  conv : Nat
  escOvf : Nat := 0
  deriving DecidableEq, Repr

/-- Consecutive parts of `n` of a list, at most `k` of them. -/
def chunks {α : Type} (n : Nat) : Nat → List α → List (List α)
  | 0, _ => []
  | k + 1, l => if l.isEmpty then [] else l.take n :: chunks n k (l.drop n)

/-- One sheet in one format. -/
def quantSheetIn (f : Fmt) (clip : Nat) (xs : List Word) (us : List Nat) : QSheet :=
  let bs := ((chunks f.blk xs.length xs).zip (chunks f.blk us.length us)).map fun p => quantBlk f clip p.1 p.2
  { raw := { fmt := f.code, body := bs.flatMap QBlk.bytes,
             esc := bs.zipIdx.flatMap fun bi => bi.1.esc.map fun e => (bi.2 * f.blk + e.1, e.2) }
    dec := bs.flatMap QBlk.dec
    sat := bs.foldl (fun a b => a + b.sat) 0
    conv := bs.foldl (fun a b => a + b.conv) 0 }

/-- One sheet; a T2 sheet with more than 64 escapes goes in T4 (R74). -/
def quantSheet (f : Fmt) (clip : Nat) (xs : List Word) (us : List Nat) : QSheet :=
  let q := quantSheetIn f clip xs us
  if f = .t2 && q.raw.esc.length > 64 then { quantSheetIn .t4 clip xs us with escOvf := 1 } else q

/-- 2^(−g/8) rounded to nearest FP32 (R79). -/
def guardFactor (g : Nat) : Word :=
  let m : Word := ([0x3F800000, 0x3F6AC0C7, 0x3F5744FD, 0x3F45672A, 0x3F3504F3, 0x3F25FED7, 0x3F1837F0, 0x3F0B95C2] : List Word).getD (g % 8) 0
  f32Round ((f32Dy m).shift (-((g / 8 : Nat) : Int))) false

/-- The guard check (R79). -/
def guardOk (g : Nat) (xs : List Word) (dec : List Dy) : Bool :=
  let n := f32Sum 2 ((xs.zip dec).map fun p => let t := f32Round ((f32Dy p.1).sub p.2) false; f32Mul t t)
  let d := f32Sum 3 (xs.map fun x => f32Mul x x)
  g = 0 || f32Zero d || f32Le n (f32Mul (guardFactor g) d)

/-- The re-grade ladder (Table 3.5). -/
def Fmt.wider : Fmt → Option Fmt
  | .t1 => some .t2 | .t2 => some .t4 | .t4 => some .mxi8 | .mx4 => some .mx6 | .mx6 => some .mx8
  | .mx8 | .mxi8 | .e4m3 | .e5m2 => some .bf16 | .bf16 => some .f32 | _ => none

/-- A quantised wave: the grade it goes at, its sheets, its steps up the ladder, and whether it failed at FP32. -/
structure QWave where
  fmt : Fmt
  sheets : List QSheet
  steps : Nat
  top : Bool
  deriving DecidableEq, Repr

/-- Quantises a wave from grade `f` up (R79 to R81); a ladder has at most `fuel` steps. -/
def quantWave (fuel : Nat) (f : Fmt) (clip g : Nat) (xs : List Word) (us : List Nat) (steps : Nat) : QWave :=
  let ss := ((chunks 4096 xs.length xs).zip (chunks 4096 us.length us)).map fun p => quantSheet f clip p.1 p.2
  if guardOk g xs (ss.flatMap QSheet.dec) then ⟨f, ss, steps, false⟩
  else
    match fuel, f.wider with
    | n + 1, some f' => quantWave n f' clip g xs us (steps + 1)
    | _, _ => ⟨f, ss, steps, true⟩

/-! ## The rotation of a group (R65, R66) -/

/-- Whether entry (i, j) of the Sylvester Hadamard matrix is −1. -/
def hadNeg (i j : Nat) : Bool := popc (BitVec.ofNat 8 i &&& BitVec.ofNat 8 j) % 2 = 1

/-- An FP32 result that is written: an overflow as the largest finite value, a NaN as zero (R62); clamped, non-finite. -/
def f32Fin (w : Word) : Word × Nat × Nat :=
  if f32IsNan w then (0, 0, 1) else let c := f32Clamp w; (c.1, b2n c.2, 0)

/-- Results as they are written, with the elements clamped and the elements that were NaN (R62). -/
structure Written where
  ws : List Word
  sat : Nat := 0
  nonfin : Nat := 0
  deriving DecidableEq, Repr

def written (ws : List Word) : Written :=
  let fs := ws.map f32Fin
  { ws := fs.map fun f => f.1, sat := fs.foldl (fun a f => a + f.2.1) 0, nonfin := fs.foldl (fun a f => a + f.2.2) 0 }

/-- One group rotated. An engine's accumulator starts at zero and takes the 256 terms in increasing order of the reduction index
(05 R121); an output that is clamped or is a NaN is counted as one that is written (R62). `signs`: where D is −1. -/
def rotGroup (inverse : Bool) (signs : List Bool) (xs : List Dy) : Written :=
  let bs := xs.map fun x => fmtBf16.encSat x
  let v := (bs.zip signs).map fun p => (fmtBf16.dec p.1.1, p.2)
  let ins := v.map fun p => f32Round (if p.2 && !inverse then p.1.neg else p.1) false
  let out := (List.range 256).map fun i =>
    (ins.zipIdx.map fun x => if hadNeg i x.2 then f32Flip x.1 else x.1).foldl f32Add 0
  let fin := written out
  { fin with
    ws := (fin.ws.zip signs).map fun p =>
      let z := f32Round ((f32Dy p.1).shift (-4)) false
      if inverse && p.2 then f32Flip z else z
    sat := fin.sat + bs.countP fun b => b.2 }

end Sys2Proof.Machine
end

