-- ==== Sys2Proof/Machine/EngNum.lean ====
section
/-! DEFINITION. The arithmetic of the matrix engines (05 R120, R121, R133, R134, 08 R211): products, general products, the
low-rank power step, the Newton–Schulz iteration and the optimizer steps. -/
namespace Sys2Proof.Machine

open Sys2Proof

/-! ## Operand values -/

/-- A value that an operand or a partial result may have. -/
inductive Ext where
  | fin (x : Dy)
  | inf (neg : Bool)
  | nan
  deriving DecidableEq, Repr

def Ext.zero : Ext := .fin Dy.zero

/-- An exact product (R121), with Inf and NaN as IEEE 754 gives them. -/
def Ext.mul : Ext → Ext → Ext
  | .fin x, .fin y => .fin (x.mul y)
  | .nan, _ => .nan
  | _, .nan => .nan
  | .inf a, .inf b => .inf (xor a b)
  | .inf a, .fin y => if y.isZero then .nan else .inf (xor a y.isNeg)
  | .fin x, .inf b => if x.isZero then .nan else .inf (xor x.isNeg b)

/-- An exact sum. -/
def Ext.add : Ext → Ext → Ext
  | .fin x, .fin y => .fin (x.add y)
  | .nan, _ => .nan
  | _, .nan => .nan
  | .inf a, .inf b => if a = b then .inf a else .nan
  | .inf a, .fin _ => .inf a
  | .fin _, .inf b => .inf b

/-- The value of an FP32 word. -/
def extOfF32 (w : Word) : Ext :=
  if f32IsNan w then .nan else if f32IsInf w then .inf (f32Neg w) else .fin (f32Dy w)

/-- The value of a code of a scalar floating-point format. -/
def extOfCode (f : FpFmt) (c : Nat) : Ext :=
  if f.finite c then .fin (f.dec c)
  else if f.hasInf && f.mag c = f.maxCode + 1 then .inf (f.neg c)
  else .nan

/-- A value in FP32, rounding to nearest even. -/
def f32OfExt : Ext → Word
  | .nan => f32Nan
  | .inf n => f32Inf n
  | .fin x => f32Round x false

/-- A partial result is added to an FP32 accumulator, rounding once (R121). -/
def f32AccAdd (acc : Word) (x : Ext) : Word :=
  match x with
  | .nan => f32Nan
  | .inf n => f32Add acc (f32Inf n)
  | .fin d =>
    if f32Finite acc then f32Round ((f32Dy acc).add d) (f32Neg acc && d.isZero)
    else acc

/-- An FP32 operand is converted to BF16 as it enters an array (R120, R134): its value, and 1 when it was clamped. -/
def bf16Operand (w : Word) : Ext × Nat :=
  if f32IsNan w then (.nan, 0)
  else if f32IsInf w then (.fin (fmtBf16.dec (fmtBf16.sign (f32Neg w) fmtBf16.maxCode)), 1)
  else let c := fmtBf16.encSat (f32Dy w); (.fin (fmtBf16.dec c.1), b2n c.2)

/-- The elements of one block of an operand format (Table 5.1, R59 to R61). -/
def operandBlk (f : Fmt) (bs : List Byte) : List (Ext × Nat) :=
  match f with
  | .f32 => [bf16Operand (wd (leNat (bs.take 4)))]
  | .t4 =>
    if fmtBf16.finite (leAt bs 0 2) then (decodeT .t4 bs fun _ => Dy.zero).map fun x => (.fin x, 0)
    else (List.range 64).map fun i =>
      let c := packedAt (bs.drop 2) 4 i
      (if c = 8 then Ext.zero else (extOfCode fmtBf16 (leAt bs 0 2)).mul (.fin (Dy.ofInt (sext 4 c))), 0)
  | .mx8 | .mx6 | .mx4 | .mxi8 =>
    (decodeBlk f bs).map fun x => (match x with | some d => .fin d | none => .nan, 0)
  | _ => [(extOfCode f.elem (leNat (bs.take f.blkBytes)), 0)]

/-- A matrix of operand values, row-major. -/
structure Mat where
  rows : Nat
  cols : Nat
  v : List (Ext × Nat)
  deriving DecidableEq, Repr

def Mat.get (m : Mat) (r c : Nat) : Ext := ((m.v[r * m.cols + c]?).getD (Ext.zero, 0)).1

/-- Elements clamped as the matrix entered the arrays (R62). -/
def Mat.sat (m : Mat) : Nat := m.v.foldl (fun a x => a + x.2) 0

/-- A matrix of `rows` × `cols` stored in blocks of format `f` that run along the columns of a row (`along` = true) or along
the rows of a column (log 22). -/
def matOf (f : Fmt) (along : Bool) (rows cols : Nat) (bs : List Byte) : Mat :=
  let b := f.blk
  let blks : List (List (Ext × Nat)) :=
    (chunks f.blkBytes bs.length bs).map (operandBlk f)
  let at_ (r c : Nat) : Ext × Nat :=
    let p := if along then (r * ceilDiv cols b + c / b, c % b) else (r / b * cols + c, r % b)
    ((blks.getD p.1 [])[p.2]?).getD (Ext.zero, 0)
  { rows := rows, cols := cols, v := (List.range (rows * cols)).map fun i => at_ (i / cols) (i % cols) }

/-- Bytes of a stored matrix. -/
def matBytes (f : Fmt) (along : Bool) (rows cols : Nat) : Nat :=
  (if along then rows * ceilDiv cols f.blk else ceilDiv rows f.blk * cols) * f.blkBytes

/-- The transpose. -/
def Mat.tr (m : Mat) : Mat :=
  { rows := m.cols, cols := m.rows
    v := (List.range (m.cols * m.rows)).map fun i => (m.v[i % m.rows * m.cols + i / m.rows]?).getD (Ext.zero, 0) }

/-- Partial results of `b` products each, added in increasing order of the reduction index (R121). -/
def dotFrom (a b : Nat → Ext) (blk : Nat) : Nat → Nat → Word → Word
  | 0, _, acc => acc
  | k + 1, n0, acc =>
    let part := (List.range blk).foldl (fun x i => x.add ((a (n0 + i)).mul (b (n0 + i)))) Ext.zero
    dotFrom a b blk k (n0 + blk) (f32AccAdd acc part)

/-- One output element of A · B over a reduction of `n`, in blocks of `blk`. -/
def matDot (blk : Nat) (a b : Mat) (n r c : Nat) : Word :=
  dotFrom (fun i => if i < n then a.get r i else Ext.zero) (fun i => if i < n then b.get i c else Ext.zero) blk (ceilDiv n blk) 0 0

/-- A · B in FP32, row-major. -/
def matMul (blk : Nat) (a b : Mat) : List Word :=
  (List.range (a.rows * b.cols)).map fun i => matDot blk a b a.cols (i / b.cols) (i % b.cols)

/-- FP32 words as operands. -/
def matF32 (rows cols : Nat) (ws : List Word) : Mat := { rows := rows, cols := cols, v := ws.map bf16Operand }

/-- α · P + β · C; with β = 0 the operation does not read C. -/
def gemmOut (alpha beta : Word) (p c : List Word) : List Word :=
  if f32Zero beta then p.map fun x => f32Mul alpha x
  else (p.zip c).map fun x => f32Add (f32Mul alpha x.1) (f32Mul beta x.2)

/-! ## PROJECT -/

/-- Column `c` of a row-major matrix of `k` columns. -/
def colOf (k c : Nat) (ws : List Word) : List Word :=
  (List.range (ws.length / k)).map fun r => (ws[r * k + c]?).getD 0

def setCol (k c : Nat) (col : List Word) (ws : List Word) : List Word :=
  ws.zipIdx.map fun p => if p.2 % k = c then (col[p.2 / k]?).getD 0 else p.1

/-- A scalar product of two columns. -/
def f32Dot (a b : List Word) : Word := f32Sum 5 ((a.zip b).map fun p => f32Mul p.1 p.2)

/-- Modified Gram–Schmidt over the columns from `c` up; a column whose norm is zero stays zero. -/
def gramSchmidt (k : Nat) : Nat → Nat → List Word → List Word
  | 0, _, ws => ws
  | n + 1, c, ws =>
    let v := colOf k c ws
    let norm := f32Sqrt (f32Dot v v)
    if f32Zero norm then gramSchmidt k n (c + 1) ws
    else
      let q := v.map fun x => f32Div x norm
      let ws1 := setCol k c q ws
      let ws2 := (List.range' (c + 1) (k - (c + 1))).foldl (fun w j =>
        let u := colOf k j w
        let r := f32Dot q u
        setCol k j ((u.zip q).map fun p => f32Sub p.1 (f32Mul r p.2)) w) ws1
      gramSchmidt k n (c + 1) ws2

/-! ## NS_ORTHO (R134) -/

def nsA : Word := 0x405C72B0
def nsB : Word := 0xC098CCCD
def nsC : Word := 0x40020419
def nsEps : Word := 0x33D6BF95

/-- One iteration over the m × n matrix X: the new X, and the elements clamped as they entered the arrays. -/
def nsStep (m n : Nat) (x : List Word) : List Word × Nat :=
  let mx := matF32 m n x
  let sm := matMul 1 mx mx.tr
  let ms := matF32 m m sm
  let ss := matMul 1 ms ms
  let t := (sm.zip ss).map fun p => f32Add (f32Mul nsB p.1) (f32Mul nsC p.2)
  let mt := matF32 m m t
  let tx := matMul 1 mt mx
  ((x.zip tx).map fun p => f32Add (f32Mul nsA p.1) p.2, mx.sat + ms.sat + mt.sat)

def nsIter (m n : Nat) : Nat → List Word × Nat → List Word × Nat
  | 0, a => a
  | k + 1, a => let b := nsStep m n a.1; nsIter m n k (b.1, a.2 + b.2)

/-- A matrix of words transposed: `rows` × `cols` to `cols` × `rows`. -/
def trWords (rows cols : Nat) (ws : List Word) : List Word :=
  (List.range (cols * rows)).map fun i => (ws[i % rows * cols + i / rows]?).getD 0

/-- NS_ORTHO of G, M × N; with `ta` the gateway works on G transposed, and the result is in G's orientation. -/
def nsOrtho (M N iter : Nat) (ta : Bool) (g : List Word) : List Word × Nat :=
  let m := if ta then N else M
  let n := if ta then M else N
  let g' := if ta then trWords M N g else g
  let fr := f32Sqrt (f32Dot g' g')
  let den := f32Add fr nsEps
  let r := nsIter m n iter (g'.map fun x => f32Div x den, 0)
  (if ta then trWords N M r.1 else r.1, r.2)

/-! ## UPDATE (08 R211) -/

/-- What every element of an UPDATE shares. -/
structure UpdHp where
  opt : Nat
  eta : Word
  mu : Word
  beta1 : Word
  beta2 : Word
  eps : Word
  wd : Word
  rn : Word
  p1 : Word
  p2 : Word
  sigma : Word := 0
  deriving DecidableEq, Repr

def f32One : Word := 0x3F800000

/-- θ − η · (d + λ · θ), with its intermediates. -/
def thetaStep (h : UpdHp) (th d : Word) : Word × List Word :=
  let a := f32Mul h.wd th
  let b := f32Add d a
  let c := f32Mul h.eta b
  let r := f32Sub th c
  (r, [a, b, c, r])

/-- One element: θ, m and the second array after the step, and every value that the step forms. -/
def updForm (h : UpdHp) (x th m v : Word) : (Word × Word × Word) × List Word :=
  let g := f32Mul x h.rn
  match h.opt with
  | 0 =>
    let t := thetaStep h th g
    ((t.1, m, v), g :: t.2)
  | 1 =>
    let a := f32Mul h.mu m
    let m' := f32Add a g
    let b := f32Mul h.mu m'
    let d := f32Add g b
    let t := thetaStep h th d
    ((t.1, m', v), [g, a, m', b, d] ++ t.2)
  | 2 =>
    let ob1 := f32Sub f32One h.beta1
    let ob2 := f32Sub f32One h.beta2
    let a := f32Mul h.beta1 m
    let b := f32Mul ob1 g
    let m' := f32Add a b
    let c := f32Mul h.beta2 v
    let gg := f32Mul g g
    let d := f32Mul ob2 gg
    let v' := f32Add c d
    let mh := f32Div m' (f32Sub f32One h.p1)
    let vh := f32Div v' (f32Sub f32One h.p2)
    let r := f32Sqrt vh
    let e := f32Add r h.eps
    let q := f32Div mh e
    let t := thetaStep h th q
    ((t.1, m', v'), [g, a, b, m', c, gg, d, v', mh, vh, r, e, q] ++ t.2)
  | 3 =>
    let a := f32Mul h.mu m
    let m' := f32Add a g
    ((th, m', v), [g, a, m'])
  | _ =>
    let a := f32Mul h.sigma v
    let t := thetaStep h th a
    ((t.1, m, v), g :: a :: t.2)

/-- One element; a step that forms an Inf or a NaN leaves it as it was (R211). The flag is 1 for such an element. -/
def updEl (h : UpdHp) (x th m v : Word) : (Word × Word × Word) × Nat :=
  let r := updForm h x th m v
  if r.2.all f32Finite then (r.1, 0) else ((th, m, v), 1)

/-- The arrays that an OPT needs (R208, Table 8.6): θ, m, the second array. -/
def optNeeds (opt : Nat) (ret : Bool) : Bool × Bool × Bool :=
  match opt with
  | 0 => (true, false, false)
  | 1 => (true, true, false)
  | 2 => (true, true, true)
  | 3 => (ret, true, false)
  | _ => (true, false, true)

end Sys2Proof.Machine
end

