-- ==== Sys2Proof/Machine/PoolOps.lean ====
section
/-! DEFINITION. The buffer-pool manager (14 R360 to R364): requests, fallback, waiting, frees, watermarks. -/
namespace Sys2Proof.Machine

open Sys2Proof

/-- Bytes of a buffer of pool `k` (Table 14.5). -/
def poolBytes (k : Nat) : Nat := 256 * 4 ^ k

/-- Buffers of pool `k`. -/
def State.poolBufs (s : State) (k : Nat) : Nat := s.regF pgPOOL (0x110 + 0x10 * k) 0 11 * 4 ^ (7 - k)

def poolKey (k i : Nat) : Nat := k * 2 ^ 25 + i

/-- Indices of the allocated buffers of pool `k`, rising. -/
def State.poolUsedIx (s : State) (k : Nat) : List Nat :=
  (s.pool.bufs.filter fun kv => kv.1 / 2 ^ 25 = k).map fun kv => kv.1 % 2 ^ 25

/-- Free buffers of pool `k` (POOL_Pk_FREE). -/
def State.poolFree (s : State) (k : Nat) : Nat := s.poolBufs k - (s.poolUsedIx k).length

/-- The `n`-th index from `i` up that is not among rising `used`. -/
def nthFree (n i : Nat) : List Nat → Nat
  | [] => i + n
  | u :: us => if n < u - i then i + n else nthFree (n - (u - i)) (u + 1) us

/-- Bytes held for job `j` (POOL_Jn_USED). -/
def State.poolUsed (s : State) (j : Nat) : Nat :=
  (s.pool.bufs.filter fun kv => kv.2.job.map Fin.val = some j).foldl (fun a kv => a + poolBytes (kv.1 / 2 ^ 25)) 0

/-- POOL_Pk_MIN and the watermark event after an allocation in pool `k` (R364). -/
def poolTook (k : Nat) (s : State) : State :=
  let free := s.poolFree k
  let n := s.poolBufs k
  let wm := s.reg pgPOOL (0x118 + 0x10 * k)
  let s1 := s.updPool fun p =>
    { p with min := SMap.modify (fun i => poolResetSize i * 4 ^ (7 - i)) k (Nat.min free) p.min }
  if fld wm 0 8 ≠ 0 && free * 256 < fld wm 0 8 * n && !SMap.get (fun _ => false) s.pool.lowRaised k then
    raiseEv pgPOOL (0x820 + 4 * k) 1
      (s1.updPool fun p => { p with lowRaised := SMap.set (fun _ => false) k true p.lowRaised })
  else s1

/-- The watermark event is re-armed once the free count reaches HIGH (R364). -/
def poolGave (k : Nat) (s : State) : State :=
  let wm := s.reg pgPOOL (0x118 + 0x10 * k)
  if s.poolFree k * 256 ≥ fld wm 8 8 * s.poolBufs k then
    s.updPool fun p => { p with lowRaised := SMap.set (fun _ => false) k false p.lowRaised }
  else s

/-- The first HBM address of buffer `i` of pool `k`: pool `k` lies directly after pool `k − 1` (R360). -/
def State.poolAddr (s : State) (k i : Nat) : Nat :=
  0x40000000 + ((List.range k).map fun m => s.regF pgPOOL (0x110 + 0x10 * m) 0 11).foldl (· + ·) 0 * 2 ^ 22 + i * poolBytes k

/-- One buffer of pool `k` for `n` of a request's bytes: which free one is open (log 16); its generation is incremented (R363), and
what is written into it clears the poison of the units that it fills (R356). -/
def poolTake1 (r : PoolReq) (k n : Nat) (s : State) : State :=
  let d := s.draw
  let i := nthFree (d.1.toNat % max 1 (s.poolFree k)) 0 (s.poolUsedIx k)
  let whole := unitsWhole 64 (s.poolAddr k i) n
  poolTook k ((d.2.updPool fun p =>
    { p with
      bufs := SMap.put (poolKey k i) ⟨r.owner, r.key, r.job, n⟩ p.bufs
      gens := SMap.modify (fun _ => 0) (poolKey k i) (fun g => (g + 1) % 256) p.gens }).updMem fun m =>
    { m with hbmPoison := SMap.keep (fun u _ => !whole.contains u) m.hbmPoison })

/-- `n` buffers of pool `k` for the request's last `len` bytes. -/
def poolTake (r : PoolReq) (k : Nat) : Nat → Nat → State → State
  | 0, _, s => s
  | n + 1, len, s => poolTake r k n (len - poolBytes k) (poolTake1 r k (min len (poolBytes k)) s)

/-- The pool that can serve a request now: its own, or the next larger that has a buffer (R361). -/
def State.poolFor (s : State) (r : PoolReq) : Option Nat :=
  if r.count > 1 then (if s.poolFree 7 ≥ r.count then some 7 else none)
  else (List.range' r.pool (8 - r.pool)).find? fun k => s.poolFree k ≥ 1

/-- A waiting all-or-nothing request is not overtaken by a later one for pool 7 (R361). -/
def State.poolBlocked (s : State) (r : PoolReq) : Bool :=
  r.pool = 7 && s.pool.waiting.any fun w => w.pool = 7 && w.count > 1

/-- The job's limit would be exceeded by the request if served from pool `k` (R362). -/
def State.poolOver (s : State) (r : PoolReq) (k : Nat) : Bool :=
  match r.job with
  | none => false
  | some j =>
    let lim := s.regF pgPOOL (0x200 + 0x10 * j.val) 0 16
    lim ≠ 0 && s.poolUsed j.val + r.count * poolBytes k > lim * 2 ^ 20

/-- A request that is served: from a larger pool it counts a fallback. -/
def poolServe (r : PoolReq) (k : Nat) (s : State) : State :=
  let s1 := if k ≠ r.pool then raiseEv pgPOOL (0x800 + 4 * r.pool) 0 s else s
  poolTake r k r.count r.len s1

/-- The smallest pool that an owner takes buffers from (Table 14.6). -/
def PoolOwner.low : PoolOwner → Nat
  | .headbox => 0
  | .grant => 0
  | .stream => 4
  | .mirror => 6
  | .dump => 2
  | .root => 1

/-- A request for `len` bytes (R361, R362): of the owner's pools, the smallest whose buffers hold them. -/
def poolReq (o : PoolOwner) (key : Nat) (j : Option Job) (len : Nat) (s : State) : State :=
  let k := ((List.range 8).find? fun k => o.low ≤ k && len ≤ poolBytes k).getD 7
  let r : PoolReq := ⟨o, key, j, k, if len ≤ poolBytes 7 then 1 else ceilDiv len (poolBytes 7), len⟩
  if s.poolOver r ((s.poolFor r).getD k) then
    bump pgPOOL 0x84C 1 (s.updPool fun p => { p with limited := p.limited ++ [r] })
  else if s.poolBlocked r then
    raiseEv pgPOOL 0x840 2 (s.updPool fun p => { p with waiting := p.waiting ++ [r] })
  else
    match s.poolFor r with
    | some k' => poolServe r k' s
    | none => raiseEv pgPOOL 0x840 2 (s.updPool fun p => { p with waiting := p.waiting ++ [r] })

/-- A request that has its buffers. -/
def State.poolHas (s : State) (o : PoolOwner) (key : Nat) : Bool :=
  s.pool.bufs.any fun kv => kv.2.owner = o && kv.2.key = key

/-- A request that waits for its buffers. -/
def State.poolWaits (s : State) (o : PoolOwner) (key : Nat) : Bool :=
  (s.pool.waiting ++ s.pool.limited).any fun r => r.owner = o && r.key = key

/-- The part of the pool area that an owner's buffers fill, where a poisoned unit lies in it (Table 14.3): first address and length. -/
def State.poolBad (s : State) (o : PoolOwner) (key : Nat) : Option (Nat × Nat) :=
  ((s.pool.bufs.filter fun kv => kv.2.owner = o && kv.2.key = key).map fun kv =>
    (s.poolAddr (kv.1 / 2 ^ 25) (kv.1 % 2 ^ 25), kv.2.len)).find? fun x => s.hbmBad x.1 x.2

/-- The oldest waiting request that can be served now, in the order of R361. -/
def State.poolNext (s : State) : Option (PoolReq × Nat) :=
  let rec go (seen7 : Bool) : List PoolReq → Option (PoolReq × Nat)
    | [] => none
    | r :: rs =>
      match (if seen7 && r.pool = 7 then none else s.poolFor r) with
      | some k => some (r, k)
      | none => go (seen7 || (r.pool = 7 && r.count > 1)) rs
  go false s.pool.waiting

/-- The oldest request held by its job's limit that now fits (R362). -/
def State.poolNextLim (s : State) : Option PoolReq :=
  let rec go (jobs : List Job) : List PoolReq → Option PoolReq
    | [] => none
    | r :: rs =>
      match r.job with
      | none => some r
      | some j =>
        if jobs.contains j then go jobs rs
        else if s.poolOver r ((s.poolFor r).getD r.pool) then go (j :: jobs) rs
        else some r
  go [] s.pool.limited

/-- Serves waiting requests while one can be, at most `n` times. One that would now exceed its job's limit waits outside the order
(R362). -/
def poolDrain : Nat → State → State
  | 0, s => s
  | n + 1, s =>
    match s.poolNext with
    | some (r, k) =>
      if s.poolOver r k then
        poolDrain n (bump pgPOOL 0x84C 1
          (s.updPool fun p => { p with waiting := p.waiting.erase r, limited := p.limited ++ [r] }))
      else poolDrain n (poolServe r k (s.updPool fun p => { p with waiting := p.waiting.erase r }))
    | none =>
      match s.poolNextLim with
      | none => s
      | some r =>
        let s1 := s.updPool fun p => { p with limited := p.limited.erase r }
        match s1.poolFor r with
        | some k => if s1.poolBlocked r then s1.updPool fun p => { p with waiting := p.waiting ++ [r] }
                    else poolDrain n (poolServe r k s1)
        | none => s1.updPool fun p => { p with waiting := p.waiting ++ [r] }

/-- After frees, waiting requests are served. -/
def poolSettle (s : State) : State := poolDrain (2 * s.pool.waiting.length + s.pool.limited.length) s

/-- The buffers of one owner and key go back, and its waiting requests are dropped. -/
def poolRelease (o : PoolOwner) (key : Nat) (s : State) : State :=
  let ks := (s.pool.bufs.filter fun kv => kv.2.owner = o && kv.2.key = key).map fun kv => kv.1 / 2 ^ 25
  let s1 := s.updPool fun p =>
    { p with
      bufs := p.bufs.filter fun kv => !(kv.2.owner = o && kv.2.key = key)
      waiting := p.waiting.filter fun r => !(r.owner = o && r.key = key)
      limited := p.limited.filter fun r => !(r.owner = o && r.key = key) }
  if ks.isEmpty then s1 else poolSettle (forAll ks poolGave s1)

/-- A buffer that is used and given back within one command: what stays is its counts. -/
def poolPass (o : PoolOwner) (key : Nat) (j : Option Job) (len : Nat) (s : State) : State :=
  poolRelease o key (poolReq o key j len s)

/-- Every buffer held for a job goes back (R363, 15 R386), but for those of packets that wait for the quiesce to end (15 R371). -/
def poolReleaseJob (j : Job) (s : State) : State :=
  let mine (o : PoolOwner) (q : Option Job) : Bool := q = some j && o ≠ .headbox
  let ks := (s.pool.bufs.filter fun kv => mine kv.2.owner kv.2.job).map fun kv => kv.1 / 2 ^ 25
  poolSettle (forAll ks poolGave (s.updPool fun p =>
    { p with
      bufs := p.bufs.filter fun kv => !mine kv.2.owner kv.2.job
      waiting := p.waiting.filter fun r => !mine r.owner r.job
      limited := p.limited.filter fun r => !mine r.owner r.job }))

/-- The number of an owner in the 8-bit owner tag of R363. -/
def poolOwnerNum : PoolOwner → Nat
  | .headbox => 0 | .grant => 1 | .stream => 2 | .mirror => 3 | .dump => 4 | .root => 5

/-- A free of buffer `i` of pool `k` that names an owner and a generation (R363). -/
def poolFreeNamed (k i owner gen : Nat) (s : State) : State :=
  let info := wd (k + 8 * i)
  match SMap.find s.pool.bufs (poolKey k i) with
  | none => raiseCap pgPOOL 0x844 3 info 0 s
  | some b =>
    if poolOwnerNum b.owner ≠ owner || SMap.get (fun _ => 0) s.pool.gens (poolKey k i) ≠ gen then
      raiseCap pgPOOL 0x848 4 info 0 s
    else
      poolSettle (poolGave k (s.updPool fun p => { p with bufs := SMap.erase (poolKey k i) p.bufs }))

end Sys2Proof.Machine
end

