-- ==== Sys2Proof/Machine/FabOps.lean ====
section
/-! DEFINITION. The switch core's own operations (09): MACs, routes and flows (R230, R239, R253 to R256), virtual output queues and
pause (R241, R244), and what every frame that leaves a fabric MAC does (R257 to R259). -/
namespace Sys2Proof.Machine

open Sys2Proof

/-! MACs. -/

/-- The page of a MAC and the offset of its counters (R260). -/
def macPg (m : Nat) : Nat := pgFAB (m / 2)
def macCnt (m o : Nat) : Nat := o + 0x100 * (m % 2)

/-- MODE of a MAC's port (Table 9.12), and whether the MAC exists (R230). -/
def State.fabMode (s : State) (m : Nat) : Nat := s.regF (macPg m) 0x100 0 1
def State.macExists (s : State) (m : Nat) : Bool := m < 24 && !(s.fabMode m = 0 && m % 2 = 1)

/-- The MAC's sub-port is enabled; EN_B is ignored in MODE 0 (Table 9.12). -/
def State.macEn (s : State) (m : Nat) : Bool := s.macExists m && s.regF (macPg m) 0x100 (16 + m % 2) 1 = 1
def State.macUp (s : State) (m : Nat) : Bool := s.macExists m && SMap.get (fun _ => false) s.fab.linkUp m

/-- The MAC's rate in Gb/s (Table 9.1). -/
def State.macRate (s : State) (m : Nat) : Nat := if s.fabMode m = 0 then 800 else 400

/-- A count, and an event, of a MAC's page. -/
def bumpMac (m o n : Nat) (s : State) : State := bump (macPg m) (macCnt m o) n s
def raiseMac (m o b : Nat) (s : State) : State := event (macPg m) b (bumpMac m o 1 s)

/-! ## Queues (R241, R244) -/

/-- Guaranteed bytes per input of a class (Table 9.9). -/
def voqShare (c : Nat) : Nat := 1024 * [64, 1024, 1024, 512, 2048].getD c 0

def sumBytes (l : List VPkt) (p : VPkt → Bool) : Nat := l.foldl (fun a x => if p x then a + x.bytes else a) 0

/-- Bytes queued of an input in a class, of a source MAC in a class, of an output in a class, and for an output. -/
def State.inBytes (s : State) (i c : Nat) : Nat := sumBytes s.fab.voq fun x => x.input = i && x.cls = c
def State.srcBytes (s : State) (m c : Nat) : Nat := sumBytes s.fab.voq fun x => x.src = some m && x.cls = c
def State.reqOf (s : State) (m : Nat) : Nat := s.srcBytes m 1
def State.qOf (s : State) (o c : Nat) : Nat := sumBytes s.fab.voq fun x => x.output = o && x.cls = c
def State.outBytes (s : State) (o : Nat) : Nat := sumBytes s.fab.voq fun x => x.output = o

/-- Bytes of the shared pool that one input uses: what its classes hold beyond their shares; each MAC of a port in MODE 1 has half of the
port's shares. -/
def State.sharedOf (s : State) (i : Nat) : Nat :=
  ([1, 2, 3].map fun c =>
    if i < 12 && s.fabMode (2 * i) = 1 then
      (s.srcBytes (2 * i) c - voqShare c / 2) + (s.srcBytes (2 * i + 1) c - voqShare c / 2)
    else s.inBytes i c - voqShare c).foldl Nat.add 0

/-- Bytes of mirror copies, and of the shared pool in use (R258). -/
def State.mirBytes (s : State) : Nat := sumBytes s.fab.voq fun x => x.cls = 5
def State.shared (s : State) : Nat := ((List.range 20).map s.sharedOf).foldl Nat.add 0 + s.mirBytes

def State.withVoq (s : State) (p : VPkt) : State := s.updFab fun f => { f with voq := f.voq ++ [p] }

/-- The packet fits: in its class's share, for REQ, RSP and FWD in the shared pool up to 1 MiB per input, for a mirror copy in the shared
pool up to 1 MiB. -/
def State.voqFits (s : State) (p : VPkt) : Bool :=
  let t := s.withVoq p
  if p.cls = 5 then t.mirBytes ≤ 2 ^ 20 && t.shared ≤ 4864 * 1024
  else
    (match p.src with
     | some m => t.srcBytes m p.cls ≤ voqShare p.cls / (if s.fabMode m = 1 then 2 else 1)
     | none => t.inBytes p.input p.cls ≤ voqShare p.cls) ||
    (1 ≤ p.cls && p.cls ≤ 3 && t.sharedOf p.input ≤ 2 ^ 20 && t.shared ≤ 4864 * 1024)

/-- XOFF and XON thresholds of a MAC in bytes. -/
def State.xoffAt (s : State) (m : Nat) : Nat := s.regF (macPg m) 0x108 16 8 * 16384 / (if s.fabMode m = 1 then 2 else 1)
def State.xonAt (s : State) (m : Nat) : Nat := s.regF (macPg m) 0x108 8 8 * 16384 / (if s.fabMode m = 1 then 2 else 1)
def State.pfcEn (s : State) (m : Nat) : Bool := bit (s.reg (macPg m) 0x100) 8

/-- Sends XOFF or XON on PRI_REQ as the MAC's REQ occupancy asks (R244). -/
def pfcEval (m : Nat) (s : State) : State :=
  let sent := SMap.get (fun _ => false) s.fab.xoffSent m
  let pri := s.regF (macPg m) 0x108 0 3
  let set (b : Bool) (t : State) : State := t.updFab fun f => { f with xoffSent := SMap.set (fun _ => false) m b f.xoffSent }
  if !s.pfcEn m || !s.macUp m then s
  else if !sent && s.reqOf m ≥ s.xoffAt m then
    set true (bumpMac m 0x84C 1 (s.emit (.pfc (Fin.ofNat 24 m) pri true)))
  else if sent && s.reqOf m ≤ s.xonAt m then set false (s.emit (.pfc (Fin.ofNat 24 m) pri false))
  else s

/-- The maxima of FAB_QD and SW_BUF_STAT. -/
def notePeak (o c : Nat) (s : State) : State :=
  s.updFab fun f =>
    { f with
      bufPeak := max f.bufPeak (s.shared / 1024)
      qdMax := if o < 24 && c < 5 then SMap.modify (fun _ => 0) (8 * o + c) (max (s.qOf o c / 1024)) f.qdMax else f.qdMax }

/-- A packet enters its VOQ, or is dropped where there is no room (R241, R258). -/
def enqueue (p : VPkt) (s : State) : State :=
  if !s.voqFits p then
    (if p.cls = 4 then raiseEv pgSW 0x804 1 s else if p.cls = 5 then bump pgSW 0x810 1 s else s)
  else
    let s1 := notePeak p.output p.cls (s.withVoq p)
    match p.src with | some m => pfcEval m s1 | none => s1

/-! ## Routes and flows (R237, R239, R253 to R256) -/

/-- The output of a fixed SEID (Table 9.6). -/
def fixedSeid (e : Nat) : Option Nat :=
  ([(0x0000, 30), (0x0001, 28), (0x0002, 29), (0x0010, 26), (0x0011, 27), (0x0020, 24), (0x0021, 25)].find?
    fun p => p.1 = e).map Prod.snd

/-- The members of a port group whose link is up, rising (R231, R239). -/
def State.pgUp (s : State) (g : Nat) : List Nat :=
  (List.range 24).filter fun m => bit (s.reg pgSW (0x180 + 4 * g)) m && s.macUp m

/-- The least-occupied of some MACs, the lowest of equals (R256). -/
def State.leastOf (s : State) : List Nat → Option Nat
  | [] => none
  | m :: ms => some (ms.foldl (fun b x => if s.outBytes x < s.outBytes b then x else b) m)

/-- The group of an SEID entry is in SPRAY, and its endpoint reorders. -/
def State.sprays (s : State) (seid : Nat) : Bool :=
  let e := s.reg pgSW 0x114 seid
  fld e 28 2 = 1 && bit e 30 && (SMap.get (fun _ => ({} : PgSt)) s.fab.pgs (fld e 0 5 % 16)).spray

/-- How a flow goes; one not met yet goes by the present key, and sprays where it may (`may`) and its group does. -/
def State.flowOf (s : State) (id : List Nat) (seid : Nat) (may : Bool) : Flow :=
  match s.fab.flows.find? fun x => x.1 = id with
  | some x => x.2
  | none => { key := s.fab.hashKey, spray := may && s.sprays seid }

/-- An SEID entry: its output for a packet of a flow, and whether it is sprayed. A DIRECT entry that names a MAC which does not exist
leads to it as to one whose link is down (R230). -/
def State.route (s : State) (seid : Nat) (id : List Nat) (may : Bool) : Option (Nat × Bool) :=
  if seid < 0x100 then (fixedSeid seid).map fun o => (o, false)
  else
    let e := s.reg pgSW 0x114 seid
    let t := fld e 0 5
    if !bit e 31 then none
    else
      match fld e 28 2 with
      | 0 => if t ≥ 31 then none else some (t, false)
      | 1 =>
        let ms := s.pgUp (t % 16)
        let f := s.flowOf id seid may
        if f.spray then (s.leastOf ms).map fun m => (m, true)
        else if ms.isEmpty then none
        else some (ms.getD (Config.flowHash f.key id % ms.length) 0, false)
      | _ => some (24 + t % 2, false)

/-- A packet of a flow goes: after a FENCE packet the flow goes by the present key and its group's present state (R254, R256). -/
def noteFlow (id : List Nat) (seid : Nat) (may fence : Bool) (s : State) : State :=
  let f : Flow := if fence then { key := s.fab.hashKey, spray := may && s.sprays seid } else s.flowOf id seid may
  s.updFab fun b => { b with flows := (id, f) :: b.flows.filter fun x => x.1 ≠ id }

/-- A packet has no route: dropped and counted (R239, R261). -/
def noRoute (input seid : Nat) (s : State) : State :=
  raiseCap pgSW 0x800 0 (wd (input % 32 + seid * 32)) 0 s

/-- A packet goes to an SEID; `mk` gives it for the output that its route names. Without a route it is dropped and counted; toward a MAC
whose link is down it is discarded (R230, R231, R239). `may`: its flow may spray. -/
def egress (seid : Nat) (may : Bool) (mk : Nat → VPkt) (s : State) : State :=
  let p := mk 0
  match s.route seid p.flow may with
  | none => noRoute p.input seid s
  | some (o, sp) =>
    let s1 := noteFlow p.flow seid may p.fence s
    if o < 24 && !s.macUp o then bumpMac o 0x860 1 s1 else enqueue { mk o with output := o, spray := sp } s1

/-- A packet may leave: no earlier one of its flow and class waits, unless it is sprayed and no FENCE packet (R253, R256, log 148). -/
def State.mayLeave (s : State) (p : VPkt) : Bool :=
  (p.spray && !p.fence) || !((s.fab.voq.takeWhile fun x => x ≠ p).any fun x => x.flow = p.flow && x.cls = p.cls)

/-! ## Header capture (R257, Table 9.10) -/

/-- The first matching filter. -/
def State.capFilter (s : State) (m : Nat) (sent : Bool) (cls : Nat) (qpn : Option Nat) : Option Nat :=
  (List.range 16).find? fun i =>
    let f := s.reg pgSW 0x314 i
    let q := s.reg pgSW 0x318 i
    bit f 31 && (fld f 29 2 = 2 || fld f 29 2 = b2n sent) && (fld f 24 5 = 31 || fld f 24 5 = m) &&
    (fld f 20 3 = 7 || fld f 20 3 = cls) && (bit q 31 || qpn = some (fld q 0 24))

def capRing : Nat := 33554432

/-- Captures a frame of a MAC, 1 in 2^SAMPLE of those that match. -/
def capFrame (m : Nat) (sent : Bool) (cls : Nat) (qpn : Option Nat) (data : List Byte) (len : Nat) (s : State) : State :=
  if !bit (s.reg pgSW 0x300) 31 then s
  else
    match s.capFilter m sent cls qpn with
    | none => s
    | some i =>
      let n := SMap.get (fun _ => 0) s.fab.sampled i
      let s1 := s.updFab fun f => { f with sampled := SMap.set (fun _ => 0) i (n + 1) f.sampled }
      if n % 2 ^ s.regF pgSW 0x314 16 4 i ≠ 0 then s1
      else if s.fab.capHeld ≥ capRing && bit (s.reg pgSW 0x300) 30 then raiseEv pgSW 0x818 4 s1
      else
        let rec_ := (data.take 64 ++ List.replicate (64 - data.length) 0) ++ natLE 4 s.time.nt.toNat ++
          natLE 4 s.fab.wraps.toNat ++ natLE 4 (len % 2 ^ 16 + m * 2 ^ 16 + b2n sent * 2 ^ 21 + cls * 2 ^ 22 + i * 2 ^ 28) ++
          List.replicate 52 0
        (lpWrite (lpCapture + 128 * s.fab.capW) rec_ s1).updFab fun f =>
          { f with capW := (f.capW + 1) % capRing, capHeld := min capRing (f.capHeld + 1) }

/-! ## Mirroring (R258) -/

/-- A copy of a mirrored frame is queued for the analysis MAC, unless a launch window is armed there or the copies have no room. -/
def mirrorFrame (m : Nat) (sent : Bool) (qpn : Option Nat) (data : List Byte) (len : Nat) (s : State) : State :=
  let c := s.reg pgSW 0x320
  let src := s.regF pgSW 0x324 0 24
  let dst := fld c 0 5
  let hit := bit c 31 && (fld c 28 2 = 2 || fld c 28 2 = b2n sent) && m ≠ dst && (if bit c 30 then qpn = some src else m = src)
  if !hit then s
  else if (SMap.find s.time.armed dst).isSome then bump pgSW 0x814 1 s
  else if !s.macUp dst then bumpMac dst 0x860 1 s
  else enqueue { input := m / 2, output := dst, cls := 5, bytes := len, data := data, flow := [] } s

/-- Mirroring is turned off because a job enters RUNNING. -/
def mirrorOff (s : State) : State :=
  if bit (s.reg pgSW 0x320) 31 then
    raiseEv pgSW 0x80C 3 (s.setReg pgSW 0x320 (setBit (s.reg pgSW 0x320) 31 false))
  else s

/-! ## Frames that leave -/

/-- A frame of `bytes` bytes leaves MAC `o` in class `c`: counted on the MAC, and in the windows of its groups (R255, R259). -/
def countTx (o c bytes : Nat) (s : State) : State :=
  let s1 := whenD (decide (c < 5)) (bumpMac o (0x880 + 8 * c) bytes) (bumpMac o 0x818 bytes (bumpMac o 0x810 1 s))
  s1.updFab fun f =>
    { f with
      pgBytes := ((List.range 16).filter fun g => bit (s.reg pgSW (0x180 + 4 * g)) o).foldl
        (fun m g => SMap.modify (fun _ => 0) (32 * g + o) (· + bytes) m) f.pgBytes }

/-- A frame leaves MAC `o`: sent, counted, captured and mirrored. A mirror copy is captured as CTRL (log 151). -/
def frameOut (o c : Nat) (qpn : Option Nat) (data : List Byte) (bytes : Nat) (s : State) : State :=
  mirrorFrame o true qpn data bytes (capFrame o true (if c = 5 then 0 else c) qpn data bytes
    (countTx o c bytes (s.emit (.frame (Fin.ofNat 24 o) c data))))

end Sys2Proof.Machine
end

