-- ==== Sys2Proof/Machine/QpOps.lean ====
section
/-! DEFINITION. Queue pairs (09 R232 to R236, R248 to R250): contexts, the packets that the gateway forms, its messages as
requester, and its answers as responder. -/
namespace Sys2Proof.Machine

open Sys2Proof

/-! ## Contexts (15 Table 15.7) -/

def qpF (c : List Word) (w lo n : Nat) : Nat := fld (c.getD w 0) lo n
def Qp.state (q : Qp) : Nat := qpF q.ctx 1 0 3
def Qp.cls (q : Qp) : Nat := qpF q.ctx 1 4 3
def Qp.keyRead (q : Qp) : Bool := qpF q.ctx 1 8 1 = 1
def Qp.spray (q : Qp) : Bool := qpF q.ctx 1 9 1 = 1
def Qp.role (q : Qp) : Nat := qpF q.ctx 1 12 3
def Qp.pmtu (q : Qp) : Nat := 512 * 2 ^ qpF q.ctx 1 16 2
def Qp.lip (q : Qp) : Nat := qpF q.ctx 1 20 4
def Qp.dest (q : Qp) : Nat := qpF q.ctx 2 0 16
def Qp.retry (q : Qp) : Nat := qpF q.ctx 2 16 3
def Qp.rnrRetry (q : Qp) : Nat := qpF q.ctx 2 20 3
def Qp.maxRd (q : Qp) : Nat := qpF q.ctx 2 24 5
def Qp.remote (q : Qp) : Nat := qpF q.ctx 3 0 24
def Qp.pkey (q : Qp) : BitVec 16 := BitVec.ofNat 16 (qpF q.ctx 6 0 16)
def Qp.vlan (q : Qp) : Nat := qpF q.ctx 6 16 12
def Qp.tagged (q : Qp) : Bool := qpF q.ctx 6 31 1 = 1
def Qp.copyVa (q : Qp) : DWord := pairW (q.ctx.getD 15 0) (q.ctx.getD 14 0)
def Qp.copyKey (q : Qp) : Word := q.ctx.getD 16 0

/-- The bytes of a context from word `i`, `n` of them. -/
def Qp.bytes (q : Qp) (i n : Nat) : List Byte := ((q.ctx.drop i).flatMap fun w => natLE 4 w.toNat).take n

/-- The index of a QPN: its low 13 bits (log 18). -/
def qpIx (q : BitVec 24) : Nat := q.toNat % 8192

/-- The queue pair of a QPN. -/
def State.qp? (s : State) (q : BitVec 24) : Option Qp :=
  match SMap.find s.fab.qps (qpIx q) with
  | none => none
  | some x => if x.qpn = q then some x else none

/-- The queue pair takes what arrives on it: it is in RTR or RTS (09 R234, Table 9.5). -/
def State.qpTakes (s : State) (q : BitVec 24) : Bool :=
  match s.qp? q with | some x => decide (x.state = 2 || x.state = 3) | none => false

def putQp (x : Qp) (s : State) : State := s.updFab fun f => { f with qps := SMap.put (qpIx x.qpn) x f.qps }

def updQp (qpn : BitVec 24) (f : Qp → Qp) (s : State) : State :=
  match s.qp? qpn with | none => s | some q => putQp (f q) s

/-- Queue pairs of a job (SW_Jn_QP.USED). -/
def State.qpUsed (s : State) (j : Nat) : Nat := s.fab.qps.countP fun kv => kv.2.job.val = j

/-- The queue pair of index `i` is a COPY queue pair of the job (R251). -/
def State.copyQp? (s : State) (j i : Nat) : Option Qp :=
  match SMap.find s.fab.qps i with
  | none => none
  | some x => if x.job.val = j && x.role = 5 then some x else none

/-- A queue pair with nothing in progress: what it was sending, owed or held is gone. -/
def Qp.idle (q : Qp) : Qp :=
  { q with una := q.spsn, nxt := q.spsn, outq := [], retries := 0, rnr := 0, rnrWait := false, owes := [], sendBuf := [],
           nakSent := false, refused := false, reord := [] }

/-- The flow of what the gateway sends on a queue pair (R254). -/
def Qp.flow (q : Qp) : List Nat := [q.dest, q.qpn.toNat]

/-- The MAC that a queue pair uses: the output of its destination, MAC 0 where it has none. -/
def State.qpMac (s : State) (q : Qp) : Nat :=
  match s.route q.dest q.flow q.spray with
  | some (o, _) => if o < 24 then o else 0
  | none => 0

/-! ## Where the data of a message stands (R236) -/

def waveKey (j h : Nat) : Nat := 4096 * j + h
def State.wave? (s : State) (j h : Nat) : Option Wave := SMap.find s.vat.waves (waveKey j h)

def slotKey (d n : Nat) : Nat := 2048 * d + n
/-- The accumulator of element `i` of a slot; a cleared one reads zero (04 R92). -/
def accKey (d n i : Nat) : Nat := 8192 * slotKey d n + i
def State.accAt (s : State) (d n i : Nat) : DWord := SMap.get (fun _ => 0) s.vat.acc (accKey d n i)

/-- Bytes of the first `n` elements of a RETURN wave (08 R215). -/
def State.returnData (s : State) (w : Wave) (n : Nat) : List Byte :=
  ((List.range w.slots.length).flatMap fun i =>
    let m := min 8192 (n - 8192 * i) * w.retW
    ((List.range (ceilDiv m 8)).flatMap fun q => natLE 8 (s.accAt w.die (w.slots.getD i 0) q).toNat).take m)

/-- The sheets of a receive copy, in order. -/
def RxCw.all (r : RxCw) : List (List Byte) := (List.range (r.nsheet.getD 0)).map fun i => (SMap.find r.sheets i).getD []

/-- What a source reads as now. -/
def State.srcRead (s : State) : MsgSrc → List Byte
  | .bytes b => b
  | .wave j h n => match s.wave? j h with | some w => s.returnData w n | none => []
  | .felt k =>
    match SMap.find s.ring.rx k, SMap.find s.ring.tx k with
    | some r, _ => r.all.flatten
    | none, some t => t.sheets.flatten
    | none, none => []

/-! ## Packets (Table 9.2, log 19) -/

/-- The checksum of an IPv4 header whose checksum field is zero. -/
def sum16 : List Byte → Nat
  | a :: b :: l => 256 * a.toNat + b.toNat + sum16 l
  | [a] => 256 * a.toNat
  | [] => 0

def ipSum (h : List Byte) : Nat :=
  let f (x : Nat) : Nat := x % 65536 + x / 65536
  65535 - f (f (sum16 h))

/-- An IPv4 header with its checksum (at offset 10) as its other fields ask. -/
def ipFix (h : List Byte) : List Byte := patch h 10 (natBE 2 (ipSum (patch h 10 [0, 0])))

/-- The place of a class in SW_CLASS_DSCP and SW_CLASS_PCP: CTRL, REQ, RSP and COLL. -/
def clsPlace (c : Nat) : Nat := if c = 4 then 3 else c

/-- The number that address words spell, least significant first (Table 9.17). -/
def addrOf (l : List Word) : Nat := l.foldr (fun w a => w.toNat + a * 2 ^ 32) 0
def State.lipAddr (s : State) (i : Nat) : Nat := addrOf ((List.range 4).map fun k => s.reg pgSW (0x138 + 4 * k) i)

/-- The Ethernet header of what the gateway sends, from the MAC that it leaves by; an internal output uses SW_BASE_MAC. -/
def State.ethHead (s : State) (q : Qp) (o c : Nat) (v6 : Bool) : List Byte :=
  let pcp := s.regF pgSW 0x1F8 ([0, 4, 8, 16].getD (clsPlace c) 0) 3
  q.bytes 8 6 ++ natBE 6 (Config.baseMac.toNat + (if o < 24 then o else 0)) ++
  (if q.tagged then natBE 2 0x8100 ++ natBE 2 (pcp * 2 ^ 13 + q.vlan) else []) ++ natBE 2 (if v6 then 0x86DD else 0x0800)

/-- The IP and UDP headers around `n` bytes of UDP payload: the class's DSCP, and ECT(0). -/
def State.ipHead (s : State) (q : Qp) (c n : Nat) (v6 : Bool) : List Byte :=
  let tos := s.regF pgSW 0x1F0 (8 * clsPlace c) 6 * 4 + 2
  let udp := natBE 2 (Config.udpSport q.qpn).toNat ++ natBE 2 4791 ++ natBE 2 (n + 8) ++ [0, 0]
  if v6 then
    natBE 4 (6 * 2 ^ 28 + tos * 2 ^ 20 + (Config.pktOpen 2).toNat % 2 ^ 20) ++ natBE 2 (n + 8) ++ [17] ++
      natBE 1 (Config.pktOpen 0).toNat ++ natBE 16 (s.lipAddr q.lip) ++ q.bytes 10 16 ++ udp
  else
    ipFix ([0x45] ++ natBE 1 tos ++ natBE 2 (n + 28) ++ natBE 4 (Config.pktOpen 1).toNat ++ natBE 1 (Config.pktOpen 0).toNat ++
      [17, 0, 0] ++ natBE 4 (s.lipAddr q.lip) ++ q.bytes 10 4) ++ udp

/-- A RoCEv2 packet: base transport header, extended headers, payload padded to four bytes, and invariant CRC. -/
def State.roceBytes (s : State) (q : Qp) (o c op : Nat) (psn : BitVec 24) (ask : Bool) (ext payload : List Byte) : List Byte :=
  let v6 := bit (s.reg pgSW 0x134 q.lip) 30
  let pad := (4 - payload.length % 4) % 4
  let bth := natBE 1 op ++ natBE 1 ((Config.pktOpen 3).toNat % 4 * 2 ^ 6 + pad * 2 ^ 4) ++ natBE 2 q.pkey.toNat ++ [0] ++
    natBE 3 q.remote ++ natBE 1 (b2n ask * 2 ^ 7) ++ natBE 3 psn.toNat
  let body := bth ++ ext ++ payload ++ List.replicate pad 0
  let ip := s.ipHead q c (body.length + 4) v6 ++ body
  s.ethHead q o c v6 ++ ip ++ natLE 4 (Config.icrc ip).toNat

/-- The opcodes whose packets are FENCE packets: the LAST and ONLY ones (R254). -/
def fenceOp (op : Nat) : Bool := [0x02, 0x03, 0x04, 0x05, 0x08, 0x09, 0x0A, 0x0B, 0x0F, 0x10].contains op

/-- Such a packet in class `c` for output `o`, with the FCS in its length. -/
def State.qpPkt (s : State) (q : Qp) (input o c op : Nat) (psn : BitVec 24) (ask : Bool) (ext payload : List Byte) : VPkt :=
  let d := s.roceBytes q o c op psn ask ext payload
  { input := input, output := o, cls := c, bytes := d.length + 4, data := d, ecn := true, qpn := some q.qpn.toNat
    flow := q.flow, fence := fenceOp op }

/-! ## Messages as requester (R236, R248 to R250) -/

/-- The BTH opcode of packet `i` of `n` of an RDMA WRITE. -/
def writeOp (i n : Nat) (imm : Bool) : Nat :=
  if n ≤ 1 then (if imm then 0x0B else 0x0A)
  else if i = 0 then 0x06
  else if i + 1 < n then 0x07
  else if imm then 0x09 else 0x08

def retxExt (m : TxMsg) (i : Nat) : List Byte :=
  (if i = 0 then natBE 8 m.va ++ natBE 4 m.key.toNat ++ natBE 4 m.len else []) ++
  (match m.imm with | some w => if i + 1 = m.n then natBE 4 w.toNat else [] | none => [])

/-- Packet `i` of a message, its data read from its source. -/
def State.msgPkt (s : State) (q : Qp) (m : TxMsg) (i o : Nat) : VPkt :=
  let psn := m.first + BitVec.ofNat 24 i
  { s.qpPkt q m.input o q.cls (writeOp i m.n m.imm.isSome) psn (decide (i + 1 = m.n)) (retxExt m i)
      (((s.srcRead m.src).drop (i * q.pmtu)).take q.pmtu) with
    psn := some psn }

/-- The message that holds a PSN, and the packet's place in it. -/
def Qp.at? (q : Qp) (p : BitVec 24) : Option (TxMsg × Nat) :=
  q.outq.findSome? fun m => let i := (p - m.first).toNat; if i < m.n then some (m, i) else none

def Qp.updMsg (q : Qp) (first : BitVec 24) (f : TxMsg → TxMsg) : Qp :=
  { q with outq := q.outq.map fun m => if m.first = first then f m else m }

/-- The queue pair may transmit: in RTS, not waiting out an RNR NAK, and with fewer than 1,024 packets unacknowledged (Table 9.4). -/
def Qp.may (q : Qp) : Bool := q.state = 3 && !q.rnrWait && q.nxt ≠ q.spsn && (q.nxt - q.una).toNat < 1024

/-- There is room for `n` packets of a message; a message of one packet enters its queue at once, and takes its chance there. -/
def State.pktRoom (s : State) (q : Qp) (m : TxMsg) (n : Nat) : Bool :=
  m.n ≤ 1 || s.voqFits { input := m.input, cls := q.cls, bytes := n * (q.pmtu + 128), data := [], flow := [] }

/-- A packet of a message enters the switch core. -/
def txSend (q : Qp) (m : TxMsg) (i : Nat) (s : State) : State :=
  egress q.dest q.spray (s.msgPkt q m i)
    (putQp ({ q with nxt := q.nxt + 1 }.updMsg m.first fun x => { x with sent := max x.sent (i + 1) }) s)

/-- A SCATTER's packet that has been sent before is read from the vat again under a mask of its contributor alone (R250). -/
def reread (m : TxMsg) (i pmtu : Nat) (s : State) : State :=
  match m.for_ with
  | .scatter id _ b => s.emit (.scatter id (1 <<< b : DWord) (i * pmtu) (min pmtu (m.len - i * pmtu)))
  | _ => s

/-- The next packet that a queue pair may send by itself: the first transmission of a SCATTER's is the multicast port's. -/
def State.txNext (s : State) (qpn : BitVec 24) : Option (Qp × TxMsg × Nat) :=
  match s.qp? qpn with
  | none => none
  | some q =>
    if !q.may then none
    else
      match q.at? q.nxt with
      | none => none
      | some (m, i) =>
        let first : Bool := match m.for_ with | .scatter .. => decide (m.sent ≤ i) | _ => false
        if first || !s.pktRoom q m 1 then none else some (q, m, i)

/-- A queue pair sends what it may. -/
def pumpN (qpn : BitVec 24) : Nat → State → State
  | 0, s => s
  | n + 1, s =>
    match s.txNext qpn with
    | none => s
    | some (q, m, i) => pumpN qpn n (txSend q m i (reread m i q.pmtu s))

def qpPump (qpn : BitVec 24) (s : State) : State :=
  match s.qp? qpn with | none => s | some q => pumpN qpn (min 1024 (q.spsn - q.nxt).toNat) s

/-- A message is posted on queue pair `qpn`: its packets take the next PSNs, and go as the queue pair may send. A queue pair that is not
in RTS sends nothing. -/
def rdmaPost (input : Nat) (qpn : BitVec 24) (va : Nat) (key : Word) (len : Nat) (imm : Option Word) (src : MsgSrc) (for_ : MsgFor)
    (s : State) : State :=
  match s.qp? qpn with
  | none => s
  | some q =>
    if q.state ≠ 3 then s
    else
      let n := max 1 (ceilDiv len q.pmtu)
      let m : TxMsg := { first := q.spsn, n := n, input := input, va := va, key := key, len := len, imm := imm, src := src, for_ := for_ }
      qpPump qpn (putQp { q with spsn := q.spsn + BitVec.ofNat 24 n, outq := q.outq ++ [m] }
        (s.emit (.rdma qpn va key (s.srcRead src) imm)))

/-- An RDMA WRITE of bytes held on the hub. -/
def rdmaWrite (input : Nat) (qpn : BitVec 24) (va : Nat) (key : Word) (data : List Byte) (imm : Option Word) (s : State) :
    State :=
  rdmaPost input qpn va key data.length imm (.bytes data) .none s

/-! ## The vat multicast port (R249, R250) -/

/-- The messages of a SCATTER, each with its queue pair. -/
def State.scatMsgs (s : State) (id : Nat) : List (Qp × TxMsg) :=
  s.fab.qps.flatMap fun kv => (kv.2.outq.filter fun m => match m.for_ with | .scatter i _ _ => i = id | _ => false).map fun m => (kv.2, m)

def TxMsg.maskBit (m : TxMsg) : Nat := match m.for_ with | .scatter _ _ b => b | _ => 0

/-- The copies that the port makes next: those at the smallest offset among the streams that may advance, at most 1 MiB ahead of the
slowest of the pass. -/
def State.scatNext (s : State) (id : Nat) : List (Qp × TxMsg) :=
  let l := s.scatMsgs id
  let slow := (l.map fun x => x.2.left * x.1.pmtu).foldl min (2 ^ 40)
  let can := l.filter fun x =>
    x.1.may && x.1.nxt = x.2.first + BitVec.ofNat 24 x.2.sent && x.2.sent < x.2.n && (x.2.sent + 1) * x.1.pmtu ≤ slow + 2 ^ 20
  match can with
  | [] => []
  | y :: ys =>
    let o := ys.foldl (fun o x => min o (x.2.sent * x.1.pmtu)) (y.2.sent * y.1.pmtu)
    let at_ := can.filter fun x => x.2.sent * x.1.pmtu = o
    match at_ with
    | [] => []
    | z :: _ =>
      let g := at_.filter fun x => x.1.pmtu = z.1.pmtu
      if s.pktRoom z.1 { z.2 with n := 2 } g.length then g else []

/-- The port reads a piece of the wave once, and a copy enters the queue of each stream that it selects. -/
def scatPiece (id : Nat) (g : List (Qp × TxMsg)) (s : State) : State :=
  match g with
  | [] => s
  | z :: _ =>
    let mask : DWord := BitVec.ofNat 64 (bitsNat (g.map fun x => x.2.maskBit))
    let o := z.2.sent * z.1.pmtu
    forAll g (fun x t => match t.qp? x.1.qpn with | some q => txSend q x.2 x.2.sent t | none => t)
      (s.emit (.scatter id mask o (min z.1.pmtu (z.2.len - o))))

def scatN (id : Nat) : Nat → State → State
  | 0, s => s
  | n + 1, s =>
    match s.scatNext id with
    | [] => s
    | g => scatN id n (scatPiece id g s)

def scatPump (id : Nat) (s : State) : State :=
  scatN id ((s.scatMsgs id).foldl (fun a x => a + (x.2.n - x.2.sent)) 0) s

/-! ## Answers (R234, R235, R248) -/

/-- IBTA's opcode of packet `i` of `n` of a READ response. -/
def readOp (i n : Nat) : Nat := if n ≤ 1 then 0x10 else if i = 0 then 0x0D else if i + 1 < n then 0x0E else 0x0F

def aeth (syn : Nat) (q : Qp) : List Byte := natBE 1 syn ++ natBE 3 q.msn.toNat

/-- The packet of an answer; READ data is read as it goes. An answer enters by CD0's input, a READ's by its die's (log 149). -/
def State.rspPkt (s : State) (q : Qp) (r : Rsp) (o : Nat) : VPkt :=
  match r with
  | .ack psn syn => s.qpPkt q 14 o 2 0x11 psn false (aeth syn q) []
  | .cnp => s.qpPkt q 14 o 0 0x81 0 false (List.replicate 16 0) []
  | .data psn lp a len i =>
    let n := max 1 (ceilDiv len q.pmtu)
    let k := min q.pmtu (len - i * q.pmtu)
    let b := if lp then s.lpRead (a + i * q.pmtu) k else s.hbmRead (a + i * q.pmtu) k
    { s.qpPkt q (14 + (if lp then 0 else s.hbmDie a)) o 2 (readOp i n) (psn + BitVec.ofNat 24 i) false
        (if i = 0 || i + 1 = n then aeth ((Config.pktOpen 4).toNat % 32) q else []) b with
      rdEnd := decide (i + 1 ≥ n) }

/-- The answers left after the packet of the first. -/
def Rsp.rest (pmtu : Nat) : Rsp → List Rsp
  | .data psn lp a len i => if (i + 1) * pmtu < len then [.data psn lp a len (i + 1)] else []
  | _ => []

/-- An owed answer enters its queue, where there is room for it. -/
def oweN (qpn : BitVec 24) : Nat → State → State
  | 0, s => s
  | n + 1, s =>
    match s.qp? qpn with
    | none => s
    | some q =>
      match q.owes with
      | [] => s
      | r :: rs =>
        if !s.voqFits (s.rspPkt q r 0) then s
        else oweN qpn n (egress q.dest q.spray (s.rspPkt q r) (putQp { q with owes := r.rest q.pmtu ++ rs } s))

def owePump (qpn : BitVec 24) (s : State) : State :=
  match s.qp? qpn with
  | none => s
  | some q => oweN qpn (q.owes.foldl (fun a r => a + (match r with | .data _ _ _ len i => max 1 (ceilDiv len q.pmtu - i) | _ => 1)) 0) s

def owe (qpn : BitVec 24) (r : Rsp) (s : State) : State := updQp qpn (fun q => { q with owes := q.owes ++ [r] }) s

/-- The request in hand is answered by a NAK with a syndrome, its PSN being the last one taken. -/
def nakReq (qpn : BitVec 24) (syn : Nat) (s : State) : State :=
  updQp qpn (fun q => { q with owes := q.owes ++ [.ack (q.epsn - 1) syn], refused := true }) s

/-- NAK syndromes (IBTA): sequence error, invalid request, remote access error, remote operational error. -/
def nakSyn (code : Nat) : Nat := 0x60 + code

/-- READs that wait to be answered, of a queue pair and of the module (Table 9.4). -/
def Qp.readsOpen (q : Qp) : Nat := q.owes.countP fun r => match r with | .data .. => true | _ => false
def State.readsOpen (s : State) : Nat :=
  s.fab.qps.foldl (fun a kv => a + kv.2.readsOpen) 0 + s.fab.voq.countP fun p => p.rdEnd

/-- Every queue pair, the multicast port and every answer go on as far as they may. -/
def fabPump (s : State) : State :=
  let ks := s.fab.qps.map fun kv => kv.2.qpn
  let ids := (s.fab.qps.flatMap fun kv => kv.2.outq.filterMap fun m => match m.for_ with | .scatter i _ _ => some i | _ => none).eraseDups
  forAll ks owePump (forAll ks qpPump (forAll ids scatPump (forAll ks qpPump s)))

/-! ## Acknowledgements (R236) -/

/-- The messages that an acknowledgement up to a PSN completes. -/
def Qp.doneBy (q : Qp) (psn : BitVec 24) : List MsgFor :=
  (q.outq.filter fun m => (psn - (m.first + BitVec.ofNat 24 (m.n - 1))).toNat < 2 ^ 23).map TxMsg.for_

/-- The PSN is one that has been sent and not acknowledged. -/
def Qp.acks (q : Qp) (psn : BitVec 24) : Bool := (psn - q.una).toNat < (q.spsn - q.una).toNat

/-- A queue pair with everything up to a PSN acknowledged. -/
def Qp.ackTo (q : Qp) (psn : BitVec 24) : Qp :=
  let una := psn + 1
  { q with
    una := una
    nxt := if (q.nxt - una).toNat < 2 ^ 23 then q.nxt else una
    outq := q.outq.filter fun m => !((psn - (m.first + BitVec.ofNat 24 (m.n - 1))).toNat < 2 ^ 23)
    retries := 0
    rnr := 0 }

/-- Go-back-N from the first unacknowledged PSN. -/
def resendQp (q : Qp) (s : State) : State := qpPump q.qpn (putQp { q with nxt := q.una, rnrWait := false } s)

/-- The messages of an operation that has ended keep the bytes that their source holds. -/
def freezeOp (id : Nat) (s : State) : State :=
  let keep (m : TxMsg) : TxMsg := { m with src := .bytes (s.srcRead m.src), for_ := .none }
  let freeze (m : TxMsg) : TxMsg :=
    match m.for_ with
    | .scatter i _ _ => if i = id then keep m else m
    | .copy i => if i = id then keep m else m
    | _ => m
  s.updFab fun f => { f with qps := f.qps.map fun kv => (kv.1, { kv.2 with outq := kv.2.outq.map freeze }) }

/-- The input of a compute die (Table 9.7). -/
def cdInput (d : Nat) : Nat := 14 + d

end Sys2Proof.Machine
end

