-- ==== Sys2Proof/Machine/VatOps.lean ====
section
/-! DEFINITION. The vat (04): waves and slots, windows and tags, grant records, adds, poison and resends. -/
namespace Sys2Proof.Machine

open Sys2Proof

/-! Tables (Table 4.5); they exist on instance 0. -/

/-- The stored registers at offset `o` of page `p`, with their entry index. -/
def State.regEntries (s : State) (p o : Nat) : List (Nat × Word) :=
  (s.regs.filter fun kv => kv.1 / 0x10000 = p * 0x1000 + o).map fun kv => (kv.1 % 0x10000, kv.2)

def State.winCtl (s : State) (w : Nat) : Word := s.reg (pgVAT 0) 0x114 w
def State.winBase (s : State) (w : Nat) : DWord := s.reg64 (pgVAT 0) 0x118 w
def winValid (c : Word) : Bool := bit c 31
def winType (c : Word) : Nat := fld c 0 2
def winJob (c : Word) : Nat := fld c 4 3
def winReam (c : Word) : Nat := fld c 16 10
def winFmt (c : Word) : Option Fmt := fmtOf (fld c 12 4)

/-- The VALID REDUCE entry of a job's ream (R93). -/
def State.reduceWin (s : State) (j r : Nat) : Option Nat :=
  ((s.regEntries (pgVAT 0) 0x114).find? fun e =>
    winValid e.2 && winType e.2 = 0 && winJob e.2 = j && winReam e.2 = r).map Prod.fst

def State.winTag (s : State) (w : Nat) : Nat := SMap.get (fun _ => 0) s.vat.tags w

/-- The R_Key of a window (R93). -/
def State.winKey (s : State) (w : Nat) : Word := wd (w * 2 ^ 18 + s.winTag w)

/-- The contributor table (R95, R99). -/
def ctIx (j c : Nat) : Nat := 512 * j + c
def State.ctQpn (s : State) (j c : Nat) : Word := s.reg (pgVAT 0) 0x134 (ctIx j c)
def State.ctGqpn (s : State) (j c : Nat) : Word := s.reg (pgVAT 0) 0x138 (ctIx j c)
def State.ctK (s : State) (j c : Nat) : Nat := s.regF (pgVAT 0) 0x14C 0 4 (ctIx j c)

/-- The contributor of job `j` whose contribution QP `q` is (R95). -/
def State.ctIn (s : State) (j : Nat) (q : BitVec 24) : Option Nat :=
  ((s.regEntries (pgVAT 0) 0x134).find? fun e => e.1 / 512 = j && bit e.2 31 && fld e.2 0 24 = q.toNat).map
    fun e => e.1 % 512

/-- A queue pair belongs to job `j` (Table 4.2, first row). -/
def State.qpOfJob (s : State) (j : Nat) (q : BitVec 24) : Bool :=
  match s.qp? q with | some x => decide (x.job.val = j) | none => false

/-- The ream table. -/
def reamIx (j r : Nat) : Nat := 1024 * j + r
def State.nelem (s : State) (j r : Nat) : Nat := (s.reg64 (pgVAT 0) 0x188 (reamIx j r)).toNat % 2 ^ 36

/-- NELEM padded to a multiple of 4,096 (03 R64), and the slots that covers. -/
def pad4096 (n : Nat) : Nat := ceilDiv n 4096 * 4096
def State.npad (s : State) (j r : Nat) : Nat := pad4096 (s.nelem j r)
def State.reamSlots (s : State) (j r : Nat) : Nat := ceilDiv (s.npad j r) 8192

/-- The ream's floor exponent in force (Table 4.9). -/
def State.floorF (s : State) (j r : Nat) : Int := sext 9 (SMap.get (fun _ => 0) s.vat.fIn (reamIx j r))

/-- The collection map of a job (R98). -/
def State.cmap (s : State) (j : Nat) : BitVec 512 :=
  BitVec.ofNat 512 ((List.range 16).foldr (fun w a => (s.reg (pgVAT 0) (0x400 + 0x40 * j + 4 * w)).toNat + 2 ^ 32 * a) 0)

/-- RESEND_MAX; zero is treated as 1 (Table 4.6). -/
def State.resendMax (s : State) (d : Nat) : Nat := max 1 (s.regF (pgVAT d) 0x100 0 4)

/-! Round numbers (08 R202, R206). -/

/-- The ream entry of the job's OCB copy (Table 8.3). -/
def State.ocbReam (s : State) (j r : Nat) : Option (List Byte) :=
  match SMap.find s.outer.ocb j with
  | none => none
  | some b => if r < leAt b 0 4 % 2048 then some ((b.drop (0x80 + 32 * r)).take 32) else none

/-- The STATE_BASE of a ream of an enabled job. -/
def State.stateBase (s : State) (j r : Nat) : Option Nat := (s.ocbReam j r).map fun e => leAt e 0x18 8

/-- The ream's current outer round: the ROUND of its state header, or RFIRST where the header gives none (log 17). -/
def State.roundOf (s : State) (j r : Nat) : Nat :=
  let rf := (s.reg pgOUTER (0x218 + 0x40 * j)).toNat
  match s.stateBase j r with
  | none => rf
  | some b => let h := s.hbmNat (b + 0x40) 8; if h = 0 then rf else h

/-! Waves. -/

def putWave (j h : Nat) (w : Wave) (s : State) : State :=
  s.updVat fun v => { v with waves := SMap.put (waveKey j h) w v.waves }
def updWave (j h : Nat) (f : Wave → Wave) (s : State) : State :=
  match s.wave? j h with
  | none => s
  | some w => putWave j h (f w) s

def State.vslot? (s : State) (d n : Nat) : Option VSlot := SMap.find s.vat.slots (slotKey d n)
def updVSlot (d n : Nat) (f : VSlot → VSlot) (s : State) : State :=
  match s.vslot? d n with
  | none => s
  | some x => s.updVat fun v => { v with slots := SMap.put (slotKey d n) (f x) v.slots }

def setAcc (d n i : Nat) (x : DWord) (s : State) : State :=
  s.updVat fun v => { v with acc := SMap.set (fun _ => 0) (accKey d n i) x v.acc }

/-- The slot and place of element `e` of a ream in a wave. -/
def Wave.at (w : Wave) (e : Nat) : Nat × Nat := (w.slots.getD (e / 8192 - w.ebase) 0, e % 8192)

/-- The wave holds element `e`. -/
def Wave.has (w : Wave) (e : Nat) : Bool := w.ebase ≤ e / 8192 && e / 8192 < w.ebase + w.slots.length

/-- The elements of a wave that lie within the padded length of its ream, the mirrored one for a replay (16 R403). -/
def State.waveElems (s : State) (j : Nat) (w : Wave) : Nat :=
  min (w.slots.length * 8192) (w.mir.getD (s.npad j w.ream) - w.ebase * 8192)

/-- Clears slots in one: their accumulators read zero and their bitmaps are empty (R92). -/
def clearSlots (d : Nat) (ns : List Nat) (s : State) : State :=
  s.updVat fun v =>
    { v with
      acc := v.acc.filter fun kv => !(kv.1 / 8192 / 2048 = d && ns.contains (kv.1 / 8192 % 2048))
      slots := v.slots.map fun kv =>
        if kv.1 / 2048 = d && ns.contains (kv.1 % 2048) then (kv.1, { kv.2 with bitmap := 0, poisoned := false }) else kv }

/-- FREE slots of a die, and slots the job holds there. -/
def State.freeSlots (s : State) (d : Nat) : List Nat := (List.range 2048).filter fun n => (s.vslot? d n).isNone
def State.heldSlots (s : State) (d j : Nat) : Nat := s.vat.slots.countP fun kv => kv.1 / 2048 = d && kv.2.job = j

/-- VSLOTS of accepted claims not yet granted on a die (R110). -/
def State.pendSlots (s : State) (d j : Nat) : Nat :=
  s.sch.ops.foldl (fun a e =>
    if e.d.claim && e.d.job.val = j && e.d.unit = d && (e.st = .armed || e.st = .waiting || e.st = .claiming)
    then a + e.d.vslots else a) 0

def State.committed (s : State) (d j : Nat) : Nat := s.heldSlots d j + s.pendSlots d j
def State.quota (s : State) (d j : Nat) : Nat := s.regF (pgVAT d) (0x200 + 0x10 * j) 0 12

/-! Scoreboard lookups. -/

/-- A field of OP_ARG; REFETCH of an EXPAND (02 Table 2.5). -/
def Desc.arg (d : Desc) (lo n : Nat) : Nat := fldN d.opArg.toNat lo n
def Desc.refetch (d : Desc) : Bool := d.arg 5 1 = 1

/-- The compute die of an operation: UNIT, and the die of the core group for a TASK; a SCATTER or COPY names the die whose
wave or whose felt copy it reads (log 132). -/
def Desc.die (d : Desc) : Nat := if d.opcode = 11 then d.unit / 4 else d.unit

/-- The operation works in the wave that it names, on its own die (R47, R112). -/
def Entry.onWave (e : Entry) : Bool :=
  match e.d.opcode with
  | 0 | 1 | 2 | 7 | 9 | 11 => true
  | 6 => !e.d.refetch
  | 8 => fld (e.edesc.headD 0) 0 4 = 2
  | _ => false

/-- The ACTIVE COLLECT of a wave that has not ended. -/
def State.collectOf (s : State) (j h : Nat) : Option Entry :=
  s.sch.ops.find? fun e =>
    e.st = .active && e.d.opcode = 0 && e.d.job.val = j && e.d.wave = h && e.work = .running

/-- Sets how far an entry's unit is. -/
def setWork (id : Nat) (w : Work) (s : State) : State :=
  s.updSch fun x => { x with ops := x.ops.map fun e => if e.id = id then { e with work := w } else e }

/-- The entry with its unit faulted, where it is entry `id` and ACTIVE; one that has faulted keeps its status. -/
def faulted (id status detail : Nat) (e : Entry) : Entry :=
  match e.work with
  | .faulted _ _ => e
  | _ => if e.id = id && e.st = .active then { e with work := .faulted status detail } else e

/-- The unit of an ACTIVE entry reports a fault. -/
def faultOp (id status detail : Nat) (s : State) : State :=
  s.updSch fun x => { x with ops := x.ops.map (faulted id status detail) }

/-- The handles of the job's waves of a ream whose COLLECT is ACTIVE (R114). -/
def State.collecting (s : State) (j r : Nat) : List Nat :=
  (s.vat.waves.filter fun kv =>
    kv.1 / 4096 = j && kv.2.ream = r && (s.collectOf j (kv.1 % 4096)).isSome).map fun kv => kv.1 % 4096

/-! Grant records (R99 to R101). -/

/-- The 32 bytes of a record (Table 4.3). -/
def grantBytes (g : Word) (r : GrantRec) : List Byte :=
  natLE 4 g.toNat ++ natLE 4 (r.ream * 2 ^ 16 + r.kind) ++ natLE 4 r.rkey.toNat ++ natLE 4 r.round.toNat ++
  natLE 8 r.efirst ++ natLE 4 r.ecount ++ natLE 4 0

def State.gseqOf (s : State) (j c : Nat) : Word := SMap.get (fun _ => 0) s.vat.gseq (ctIx j c)
def State.gackOf (s : State) (j c : Nat) : Word := SMap.get (fun _ => 0) s.vat.gack (ctIx j c)
def State.heldOf (s : State) (j c : Nat) : List GrantRec := (SMap.find s.vat.heldG (ctIx j c)).getD []
def State.unackOf (s : State) (j c : Nat) : List (Word × GrantRec) := (SMap.find s.vat.unack (ctIx j c)).getD []

/-- The ring has space, and its grant QP and size are valid (R101). -/
def State.grantRoom (s : State) (j c : Nat) : Bool :=
  bit (s.ctGqpn j c) 31 && 4 ≤ s.ctK j c && s.ctK j c ≤ 12 &&
  (s.gseqOf j c - s.gackOf j c).toNat < 2 ^ s.ctK j c

/-- The RDMA WRITE of a record with its GSEQ g, into ring entry (g − 1) mod 2^k (log 133). -/
def sendGrant (j c : Nat) (g : Word) (r : GrantRec) (s : State) : State :=
  let va := (s.reg64 (pgVAT 0) 0x140 (ctIx j c)).toNat + 32 * ((g - 1).toNat % 2 ^ s.ctK j c)
  rdmaWrite (cdInput 0) (BitVec.ofNat 24 (fld (s.ctGqpn j c) 0 24)) va (s.reg (pgVAT 0) 0x148 (ctIx j c)) (grantBytes g r) none s

/-- Writes a record: the next GSEQ, and the window's R_Key as it stands (R93, R99). -/
def writeGrant (j c : Nat) (r : GrantRec) (s : State) : State :=
  let g := s.gseqOf j c + 1
  let key := if r.kind = 3 then 0 else match s.reduceWin j r.ream with | some w => s.winKey w | none => 0
  let r' := { r with rkey := key }
  (sendGrant j c g r' s).updVat fun v =>
    { v with
      gseq := SMap.set (fun _ => 0) (ctIx j c) g v.gseq
      unack := SMap.put (ctIx j c) (s.unackOf j c ++ [(g, r')]) v.unack }

/-- A record for a contributor: written, or held on the hub (R101). -/
def grant (j c : Nat) (r : GrantRec) (s : State) : State :=
  if s.grantRoom j c && (s.heldOf j c).isEmpty then writeGrant j c r s
  else
    let s1 := s.updVat fun v => { v with heldG := SMap.put (ctIx j c) (s.heldOf j c ++ [r]) v.heldG }
    raiseEv (pgVAT 0) 0x82C 9 (poolReq .grant (ctIx j c) (some (Fin.ofNat 8 j)) 32 s1)

/-- Held records of a contributor are written while there is room (R101). -/
def grantDrain (j c : Nat) : List GrantRec → State → State
  | [], s => s.updVat fun v => { v with heldG := SMap.erase (ctIx j c) v.heldG }
  | r :: rs, s =>
    if s.grantRoom j c then grantDrain j c rs (writeGrant j c r s)
    else s.updVat fun v => { v with heldG := SMap.put (ctIx j c) (r :: rs) v.heldG }

def grantRelease (j c : Nat) (s : State) : State :=
  if s.grantRoom j c && !(s.heldOf j c).isEmpty then
    let s1 := grantDrain j c (s.heldOf j c) s
    if (s1.heldOf j c).isEmpty then poolRelease .grant (ctIx j c) s1 else s1
  else s

/-- The record of a wave's whole range (R98). -/
def State.waveRec (s : State) (j : Nat) (w : Wave) (kind : Nat) : GrantRec :=
  let first := w.ebase * 8192
  { ream := w.ream, kind := kind, round := wd w.round.toNat, efirst := first,
    ecount := min (w.slots.length * 8192) (s.nelem j w.ream - first) }

/-- A record of the wave's range to every contributor of a set. -/
def grantAll (j : Nat) (cs : BitVec 512) (r : GrantRec) (s : State) : State :=
  forAll (setIdx cs) (fun c t => grant j c r t) s

/-! Tags, completion, poison, resend. -/

/-- A window draws a new tag: a free value (R93); messages begun under the old one are stale (R97). -/
def newTag (w : Nat) (s : State) : State :=
  let d := s.draw
  d.2.updVat fun v =>
    { v with
      tags := SMap.set (fun _ => 0) w (d.1.toNat % 2 ^ 18) v.tags
      msgs := v.msgs.map fun kv => if kv.2.win = w then (kv.1, { kv.2 with stale := true }) else kv }

/-- Every slot of the wave has the contributor set in its bitmap (R103), and none is POISONED (R115). -/
def State.waveFull (s : State) (w : Wave) : Bool :=
  w.slots.all fun n =>
    match s.vslot? w.die n with
    | none => false
    | some x => !x.poisoned && (w.cset &&& ~~~ x.bitmap) = 0

/-- The n_s of this gateway's own site in the job's OCB copy (Table 8.2). -/
def State.ownNs (s : State) (j : Nat) : Nat :=
  match SMap.find s.outer.ocb j with
  | none => 0
  | some b => leAt b (0x40 + 4 * s.siteOf j) 4 / 2 ^ 16 % 2 ^ 10

/-- Statistics of a ream's round being gathered (08 Table 8.5). -/
def updStats (j r : Nat) (f : RStats → RStats) (s : State) : State :=
  s.updOuter fun o => { o with stats := SMap.modify (fun _ => {}) (reamIx j r) f o.stats }

/-- Evaluates completion of a wave's COLLECT (R103); a short count is counted (08 R206). -/
def collectEval (j h : Nat) (s : State) : State :=
  match s.wave? j h, s.collectOf j h with
  | some w, some e =>
    if s.waveFull w then
      let n := popc w.cset
      let s1 := setWork e.id .finished (putWave j h { w with wcount := n } s)
      let s2 := updStats j w.ream (fun x =>
        { x with wcountMin := some (min n (x.wcountMin.getD n)), short := x.short + b2n (decide (n < s.ownNs j)) }) s1
      if (SMap.find s.outer.ocb j).isSome && n < s.ownNs j then raiseEv pgOUTER 0x800 0 s2 else s2
    else s
  | _, _ => s

/-- A resend clears the slots of a wave that collects (R114). -/
def resendClear (j h : Nat) (s : State) : State :=
  match s.wave? j h with
  | none => s
  | some w => clearSlots w.die w.slots (putWave j h { w with content := .int, resends := w.resends + 1 } s)

/-- And asks its contributors again. -/
def resendAsk (j h : Nat) (s : State) : State :=
  match s.wave? j h with
  | none => s
  | some w => grantAll j w.cset (s.waveRec j w 2) s

/-- The ream's window draws a tag, where it has one. -/
def retag (j r : Nat) (s : State) : State :=
  match s.reduceWin j r with
  | none => s
  | some w => newTag w s

/-- A resend of a ream (R114). VAT_RESEND concerns a ream and no slot: it counts on the lowest die among the collecting waves
(log 134). -/
def resendReam (j r : Nat) (s : State) : State :=
  let hs := s.collecting j r
  let s1 := retag j r s
  let s2 := forAll hs (fun h t => resendClear j h t) s1
  let s3 := forAll hs (fun h t => resendAsk j h t) s2
  let d := (hs.filterMap fun h => (s.wave? j h).map Wave.die).foldl Nat.min 1
  raiseEv (pgVAT d) 0x814 5 s3

/-- The status with which an operation on a poisoned wave ends (R116, R117). -/
def State.poisonStatus (s : State) (w : Wave) : Nat := if w.resends ≥ s.resendMax w.die then 0x11 else 0x10

/-- An operation ends because of poison: at the limit VAT_RESEND_LIMIT is raised (R117). -/
def poisonFault (id : Nat) (w : Wave) (s : State) : State :=
  let s1 := faultOp id (s.poisonStatus w) 0 s
  if s.poisonStatus w = 0x11 then raiseEv (pgVAT w.die) 0x818 6 s1 else s1

/-- The operation ACTIVE on a wave of a die, other than its COLLECT (R116): ROTATE, QUANT, EXPAND, ADD, an APPLY with a wave,
SCATTER or TASK; one that has faulted has ended. -/
def State.activeOn (s : State) (j h d : Nat) : Option Entry :=
  s.sch.ops.find? fun e =>
    e.st = .active && e.onWave && e.d.opcode ≠ 0 && e.d.job.val = j && e.d.wave = h && e.d.die = d &&
    (match e.work with | .faulted _ _ => false | _ => true)

/-- A slot becomes POISONED (R113): counted at `cnt`, and its wave's ream is resent or its operation faults. -/
def poisonSlot (d n cnt ev : Nat) (s : State) : State :=
  match s.vslot? d n with
  | none => s
  | some x =>
    let s1 := (updVSlot d n (fun y => { y with poisoned := true }) s).updVat fun v =>
      { v with poisonLast := vset v.poisonLast d (some n) }
    match s.wave? x.job x.wave with
    | none => raiseEv (pgVAT d) cnt ev s1
    | some w =>
      let s2 := if cnt = 0x80C then raiseCap (pgVAT d) cnt ev (wd (w.ream + n * 2 ^ 10)) 0 s1 else raiseEv (pgVAT d) cnt ev s1
      match s.collectOf x.job x.wave with
      | some e => if w.resends ≥ s.resendMax d then poisonFault e.id w s2 else resendReam x.job w.ream s2
      | none =>
        match s.activeOn x.job x.wave w.die with
        | some e => poisonFault e.id w s2
        | none => s2

/-- Some slot of the wave is POISONED. -/
def State.wavePoisoned (s : State) (w : Wave) : Bool :=
  w.slots.any fun n => match s.vslot? w.die n with | some x => x.poisoned | none => false

/-- The greatest exponent of the inputs of a ream on a die (03 R84). -/
def noteInput (j r d : Nat) (x : Dy) (s : State) : State :=
  if x.isZero then s
  else
    let k := 2 * reamIx j r + d
    let e := x.log2 + 1
    s.updVat fun v => { v with ehi := SMap.put k (match SMap.find v.ehi k with | some y => max y e | none => e) v.ehi }

/-- Adds an input to one accumulator through vat entry (R83, R85, R92); a POISONED slot takes nothing (R113). -/
def vatEnter (j : Nat) (w : Wave) (e : Nat) (x : Dy) (u : Nat) (flip : DWord) (s : State) : State :=
  let p := w.at e
  match s.vslot? w.die p.1 with
  | none => s
  | some sl =>
    if sl.poisoned then s
    else
      let en := vatEntry x (s.floorF j w.ream) u
      let r := vatAdd (s.accAt w.die p.1 p.2) en.v flip
      let s1 := if en.under then raiseEv (pgVAT w.die) 0x800 0 s else s
      if r.2.1 then poisonSlot w.die p.1 0x80C 3 s1
      else
        let s2 := setAcc w.die p.1 p.2 r.1 s1
        if en.sat || r.2.2 then raiseCap (pgVAT w.die) 0x804 1 (wd (w.ream + p.1 * 2 ^ 10)) 0 s2 else s2

/-- Writes an accumulator through vat entry in place of its content: a rotation output (05 R130). -/
def vatReplace (j : Nat) (w : Wave) (e : Nat) (x : Dy) (u : Nat) (s : State) : State :=
  let p := w.at e
  let en := vatEntry x (s.floorF j w.ream) u
  let s1 := if en.under then raiseEv (pgVAT w.die) 0x800 0 s else s
  let s2 := setAcc w.die p.1 p.2 (BitVec.ofInt 64 en.v) s1
  if en.sat then raiseCap (pgVAT w.die) 0x804 1 (wd (w.ream + p.1 * 2 ^ 10)) 0 s2 else s2

/-- Non-finite elements: counted, the event once per ream and round (03 R63). -/
def countNonfin (j r d n : Nat) (s : State) : State :=
  if n = 0 then s
  else
    let s1 := bump (pgVAT d) 0x808 n s
    if SMap.get (fun _ => false) s.vat.nonfin (reamIx j r) then s1
    else event (pgVAT d) 2 (s1.updVat fun v => { v with nonfin := SMap.set (fun _ => false) (reamIx j r) true v.nonfin })

/-! Contributions (R94 to R97, R102). -/

/-- Bytes of one slot's range in a format (R94). -/
def Fmt.slotBytes (f : Fmt) : Nat := 8192 / f.blk * f.blkBytes

/-- Bytes of a ream's real elements in a format; an MX block that holds a real element counts whole. -/
def Fmt.reamBytes (f : Fmt) (nelem : Nat) : Nat := ceilDiv nelem f.blk * f.blkBytes

/-- The message's own rows of Table 4.2: it starts at a slot boundary and ends at one or at the last real element. -/
def msgShapeOk (f : Fmt) (nelem off len : Nat) : Bool :=
  off % f.slotBytes = 0 && 0 < len &&
  (off + len = f.reamBytes nelem || ((off + len) % f.slotBytes = 0 && off + len < f.reamBytes nelem))

/-- The granted wave of a slot range, for contributor `c` (Table 4.2 row 4): its handle. A contributor of the set counts as
granted also while its GRANT record is held on the hub (log 136). -/
def State.grantedWave (s : State) (j r c si : Nat) : Option (Nat × Wave) :=
  (s.vat.waves.find? fun kv =>
    kv.1 / 4096 = j && kv.2.ream = r && kv.2.has (si * 8192) && kv.2.cset.getLsbD c &&
    (s.collectOf j (kv.1 % 4096)).isSome).map fun kv => (kv.1 % 4096, kv.2)

def updMsg (k : Nat) (f : VMsg → VMsg) (s : State) : State :=
  match SMap.find s.vat.msgs k with
  | none => s
  | some m => s.updVat fun v => { v with msgs := SMap.put k (f m) v.msgs }

/-- The message in progress of a contributor is not stale. -/
def State.msgLive (s : State) (k : Nat) : Bool :=
  match SMap.find s.vat.msgs k with | some m => !m.stale | none => false

/-- The check at a slot's boundary (Table 4.2, rows 4 and 5). -/
def State.partAt (s : State) (j r c si : Nat) : MsgPart :=
  match s.grantedWave j r c si with
  | none => .ungranted
  | some (_, w) =>
    match s.vslot? w.die (w.at (si * 8192)).1 with
    | some x => if x.bitmap.getLsbD c then .dup else .adds
    | none => .dup

/-- The elements of a block that count as non-finite: of an MX block whose scale is 0xFF all 32, else the real ones (03 R63). -/
def nonfinIn (f : Fmt) (blk : List Byte) (real : List (Option Dy × Nat)) : Nat :=
  if f.blk = 32 && blk.headD 0 = 0xFF then 32 else real.countP fun vi => vi.1.isNone

/-- The real elements of a block enter their slot, each while the message is not stale: what follows an add that has had the
ream resent is discarded (R97, R114). -/
def contribAdds (j c : Nat) (w : Wave) (e0 : Nat) (flips : List (Nat × DWord)) (real : List (Option Dy × Nat)) (s : State) : State :=
  real.foldl (fun t vi =>
    match vi.1 with
    | none => t
    | some x =>
      if !t.msgLive (ctIx j c) then t
      else
        let e := e0 + vi.2
        vatEnter j w e x (draw24 (seedContrib j w.ream w.round.toNat c) e)
          (((flips.find? fun p => p.1 = e).map Prod.snd).getD 0) (noteInput j w.ream w.die x t)) s

/-- One block of a message: the check at a slot's start, the adds, and the bitmap at a slot's end. The flag: a part was not
granted. -/
def contribBlock (j c r nelem : Nat) (f : Fmt) (flips : List (Nat × DWord)) (blk : List Byte)
    (a : State × Bool) : State × Bool :=
  let k := ctIx j c
  match SMap.find a.1.vat.msgs k with
  | none => a
  | some m =>
    let off' := m.off + f.blkBytes
    let e0 := f.blk * (m.off / f.blkBytes)
    let start := decide (e0 % 8192 = 0)
    if m.stale then (updMsg k (fun x => { x with off := off' }) a.1, a.2)
    else
      let part := if start then a.1.partAt j r c (e0 / 8192) else m.part
      let s0 := updMsg k (fun x => { x with off := off', part := part }) a.1
      match part with
      | .ungranted => (s0, true)
      | .dup =>
        (match a.1.grantedWave j r c (e0 / 8192) with
         | some (_, w) => if start then bump (pgVAT w.die) 0x828 1 s0 else s0
         | none => s0, a.2)
      | .adds =>
        match a.1.grantedWave j r c (e0 / 8192) with
        | none => (s0, a.2)
        | some (h, w) =>
          let real := (decodeBlk f blk).zipIdx.filter fun vi => decide (e0 + vi.2 < nelem)
          let s1 := contribAdds j c w e0 flips real (countNonfin j r w.die (nonfinIn f blk real) s0)
          if s1.msgLive k && (off' % f.slotBytes = 0 || off' = m.endOff) then
            (collectEval j h (updVSlot w.die (w.at e0).1 (fun x => { x with bitmap := x.bitmap ||| (1 <<< c : BitVec 512) }) s1),
             a.2)
          else (s1, a.2)

/-- The packet's bytes after the message's carry: whole blocks, and what is left. -/
def splitBlocks (b : Nat) (bs : List Byte) : List (List Byte) × List Byte :=
  ((List.range (bs.length / b)).map fun i => (bs.drop (i * b)).take b, bs.drop (bs.length / b * b))

/-- The packet of a message in progress; VAT_STALE counts it where the message was stale before it (R97, log 135). -/
def contribPacket (j c r nelem : Nat) (f : Fmt) (data : List Byte) (flips : List (Nat × DWord)) (s : State) : State :=
  let k := ctIx j c
  match SMap.find s.vat.msgs k with
  | none => s
  | some m =>
    let sp := splitBlocks f.blkBytes (m.carry ++ data)
    let a := sp.1.foldl (fun a b => contribBlock j c r nelem f flips b a) (s, false)
    let s1 := if m.stale then bump (pgVAT 0) 0x824 1 a.1 else a.1
    let s2 := if a.2 then raiseEv (pgVAT 0) 0x820 8 s1 else s1
    let s3 := updMsg k (fun x => { x with carry := sp.2 }) s2
    match SMap.find s3.vat.msgs k with
    | some x => if x.off ≥ x.endOff then s3.updVat fun v => { v with msgs := SMap.erase k v.msgs } else s3
    | none => s3

/-- The NAK of a write into a reduction window (Table 4.2). -/
def winNak (q : BitVec 24) (j w : Nat) (s : State) : State :=
  nakReq q (nakSyn 2) ((raiseCap (pgVAT 0) 0x81C 7 (wd (j % 8 + w % 2 ^ 14 * 8)) 0 s).emit (.winNak q))

/-- A message's QP goes to the error state or is reset (R113): the slot it had partly added is poisoned. -/
def qpCut (j c : Nat) (s : State) : State :=
  let k := ctIx j c
  match SMap.find s.vat.msgs k with
  | none => s
  | some m =>
    let s1 := s.updVat fun v => { v with msgs := SMap.erase k v.msgs }
    let ctl := s.winCtl m.win
    match winFmt ctl with
    | none => s1
    | some f =>
      let e := f.blk * (m.off / f.blkBytes)
      if m.stale || m.part ≠ .adds || e % 8192 = 0 then s1
      else
        match s.grantedWave j (winReam ctl) c (e / 8192) with
        | none => s1
        | some (_, w) => poisonSlot w.die (w.at e).1 0x810 4 s1

/-- Every message in progress of a queue pair is cut. -/
def qpCutAll (q : BitVec 24) (s : State) : State :=
  forAll ((s.vat.msgs.filter fun kv => kv.2.qpn = q).map Prod.fst) (fun k t => qpCut (k / 512) (k % 512) t) s

/-- Removal of contributors from a job's collection map (R104). -/
def cmapRemove (j : Nat) (gone : BitVec 512) (s : State) : State :=
  let hs := (s.vat.waves.filter fun kv => kv.1 / 4096 = j).map fun kv => kv.1 % 4096
  let s1 := forAll hs (fun h t =>
    updWave j h (fun w =>
      if (t.collectOf j h).isSome then { w with cset := w.cset &&& ~~~ gone, gone := w.gone ||| gone }
      else { w with gone := w.gone ||| gone }) t) s
  let reams := (hs.filterMap fun h =>
    if (s.collectOf j h).isSome then (s.wave? j h).map Wave.ream else none).eraseDups
  forAll reams (fun r t =>
    let act := t.collecting j r
    let touched := act.any fun h =>
      match t.wave? j h with
      | none => false
      | some w =>
        (w.slots.any fun n => match t.vslot? w.die n with | some x => (x.bitmap &&& gone) ≠ 0 | none => false) ||
        (setIdx gone).any fun c =>
          match SMap.find t.vat.msgs (ctIx j c) with
          | none => false
          | some m =>
            match winFmt (t.winCtl m.win) with
            | none => false
            | some f =>
              let e := f.blk * (m.off / f.blkBytes)
              !m.stale && m.part = .adds && winReam (t.winCtl m.win) = r && e % 8192 ≠ 0 && w.has e
    if touched then forAll act (fun h u => collectEval j h u) (resendReam j r t)
    else forAll act (fun h u => collectEval j h u) t) s1

end Sys2Proof.Machine
end

