-- ==== Sys2Proof/Machine/SchedBase.lean ====
section
/-! DEFINITION. The scheduler's counters, wait conditions and state changes (02 R42 to R54). -/
namespace Sys2Proof.Machine

open Sys2Proof

/-- First counter and number of counters of a job's partition (Table 2.10). -/
def State.partBase (s : State) (j : Nat) : Nat := s.regF pgSCH (0x214 + 0x40 * j) 16 8 * 64
def State.partSize (s : State) (j : Nat) : Nat := s.regF pgSCH (0x214 + 0x40 * j) 0 6 * 64

/-- A sync counter (R48). -/
def State.ctr (s : State) (i : Nat) : Word := SMap.get (fun _ => 0) s.sch.cnt i
def setCtr (i : Nat) (v : Word) (s : State) : State :=
  s.updSch fun x => { x with cnt := SMap.set (fun _ => 0) i v x.cnt }

/-- The job whose partition holds counter `i`. -/
def State.ctrJob (s : State) (i : Nat) : Option Nat :=
  (List.range 8).find? fun j => s.partBase j ≤ i && i < s.partBase j + s.partSize j

/-- A signal adds to its counter, which saturates and raises SCH_CNT_SAT (R48). -/
def signal (i inc : Nat) (s : State) : State :=
  let v := (s.ctr i).toNat + inc
  if v > 0xFFFFFFFF then
    event pgSCH 4 (captureEv pgSCH 0xF04 (wd i) 0 (setCtr i 0xFFFFFFFF s))
  else setCtr i (wd v) s

def State.entry? (s : State) (id : Nat) : Option Entry := s.sch.ops.find? fun e => e.id = id
def updEntry (id : Nat) (f : Entry → Entry) (s : State) : State :=
  s.updSch fun x => { x with ops := x.ops.map fun e => if e.id = id then f e else e }

/-- An entry enters a state; its stall time starts again (R46). -/
def enter (id : Nat) (st : OpSt) (s : State) : State :=
  let s1 := updEntry id (fun e => { e with st := st, stalled := false, order := if st = .claiming then s.sch.claimNo else e.order }) s
  if st = .claiming then s1.updSch fun x => { x with claimNo := x.claimNo + 1 } else s1

/-- All NWAIT conditions hold (R42, Table 2.3). -/
def State.condsHold (s : State) (d : Desc) : Bool :=
  ((d.wcnt.zip d.wval).take d.nwait).all fun p => p.2.toNat ≤ (s.ctr (s.partBase d.job.val + p.1)).toNat

/-- A WAITING entry whose conditions all hold moves on (R42, R43). -/
def evalEntry (id : Nat) (s : State) : State :=
  match s.entry? id with
  | none => s
  | some e =>
    if e.st = .waiting && s.condsHold e.d then enter id (if e.d.claim then .claiming else .ready) s else s

/-- WAIT_EVALUATION (R51): every waiting entry of a job, in the order accepted. -/
def evalJob (j : Nat) (s : State) : State :=
  forAll ((s.sch.ops.filter fun e => e.st = .waiting && e.d.job.val = j).map Entry.id) evalEntry s

/-- An entry's trigger is met. -/
def toWaiting (id : Nat) (s : State) : State := evalEntry id (enter id .waiting s)

/-- The step axis of a job (R32). -/
def State.axis (s : State) (j : Nat) : DWord := SMap.get (fun _ => 0) s.sch.axis j

/-- STEP_TRIGGER_MET: ARMED entries whose step trigger is at or below A enter WAITING, in SEQ order (R52). -/
def stepTriggers (j : Nat) (s : State) : State :=
  forAll ((s.sch.ops.filter fun e =>
    e.st = .armed && e.d.trig = 1 && e.d.job.val = j && e.d.trigVal.toNat ≤ (s.axis j).toNat).map Entry.id) toWaiting s

/-- (TIME_NS − t) mod 2³², read as signed, is zero or positive (R53). -/
def State.timeMet (s : State) (t : DWord) : Bool := ((loW s.time.nt) - (loW t)).toNat < 2 ^ 31

/-- Entries of a job in the scoreboard. -/
def State.jobOps (s : State) (j : Nat) : List Entry := s.sch.ops.filter fun e => e.d.job.val = j

end Sys2Proof.Machine
end

