-- ==== Sys2Proof/Machine/RingOps.lean ====
section
/-! DEFINITION. Shard rings (07): the group table, roles and sequence numbers, ring records, copies in felt, credits and
gates. -/
namespace Sys2Proof.Machine

open Sys2Proof

/-! The group table (Table 7.7). -/

def gtGroup (c : Word) : Nat := fld c 16 4
def gtS (c : Word) : Nat := fld c 8 5
def State.gtVslots (s : State) (g : Nat) : Nat := s.regF pgRING 0x118 16 10 g
def State.gtShard (s : State) (g : Nat) : Nat := s.regF pgRING 0x118 8 6 g
def State.gtDepth (s : State) (g : Nat) : Nat := s.regF pgRING 0x118 0 7 g
def State.gtTag (s : State) (g : Nat) : Word := s.reg pgRING 0x124 g
def State.gtCntBase (s : State) (g : Nat) : Nat := s.regF pgRING 0x12C 0 11 g
def State.gtSeid (s : State) (g i : Nat) : BitVec 16 := BitVec.ofNat 16 (s.regF pgRING (0x140 + 4 * i) 0 16 g)

def State.grp (s : State) (g : Nat) : Grp := SMap.get (fun _ => {}) s.ring.grps g
def updGrp (g : Nat) (f : Grp → Grp) (s : State) : State :=
  s.updRing fun r => { r with grps := SMap.modify (fun _ => {}) g f r.grps }

/-- UP or HELD: its channels carry (R183, R185). -/
def State.grpLive (s : State) (g : Nat) : Bool := (s.grp g).st = .up || (s.grp g).st = .held

/-- The VALID entry of a job's ring channel (R174). -/
def State.grpOfChan (s : State) (j chan : Nat) : Option Nat :=
  if chan ≥ 32 then none
  else (List.range 64).find? fun g =>
    gtValid (s.gtCtl g) && gtJob (s.gtCtl g) = j && gtGroup (s.gtCtl g) = chan / 2

/-- The VALID entry of a JOBTAG and ring channel (R184). -/
def State.grpOfTag (s : State) (tag : Word) (chan : Nat) : Option Nat :=
  if chan ≥ 32 then none
  else (List.range 64).find? fun g =>
    gtValid (s.gtCtl g) && s.gtTag g = tag && gtGroup (s.gtCtl g) = chan / 2

/-- The role epoch of a group (16 R401). -/
def State.grpEpoch (s : State) (g : Nat) : Word := (SMap.get (fun _ => ({} : MGrp)) s.mgmt.grps g).epoch

/-- The direction of a half, as a step of positions modulo S (R174). -/
def stepPos (S h p : Nat) : Nat := if h = 0 then (p + 1) % S else (p + S - 1) % S

/-- Reduce-scatter transfers taken by chunk `k` of half `h` when it reaches position `q` (R178). -/
def rsHops (S h k q : Nat) : Nat := if h = 0 then (q + S - (k + 1) % S) % S else ((k + S - 1) % S + S - q) % S

/-! Chain mode (16 R399). -/

def State.mgrp (s : State) (g : Nat) : MGrp := SMap.get (fun _ => ({} : MGrp)) s.mgmt.grps g

/-- The running positions in ring order, from after the cut or after a fenced position. -/
def State.chainOrder (s : State) (g : Nat) : List Nat :=
  let S := gtS (s.gtCtl g)
  let m := s.mgrp g
  let runs (q : Nat) : Bool := !m.fenced.getLsbD q
  let first := match m.cut with
    | some c => (c.toNat + 1) % S
    | none => ((List.range S).find? fun q => runs q && !runs ((q + S - 1) % S)).getD 0
  ((List.range S).map fun i => (first + i) % S).filter runs

/-- Members that a pass goes through. -/
def State.grpM (s : State) (g : Nat) : Nat :=
  if (s.mgrp g).chain then (s.chainOrder g).length else gtS (s.gtCtl g)

/-- Reduce-scatter transfers that a chunk has taken when it reaches this gateway (R178, 16 R399). -/
def State.hopsAt (s : State) (g h k : Nat) : Nat :=
  let c := s.gtCtl g
  if (s.mgrp g).chain then
    let i := (s.chainOrder g).idxOf (gtPos c)
    if h = 0 then i else (s.chainOrder g).length - 1 - i
  else rsHops (gtS c) h k (gtPos c)

/-- Roles (Table 7.2). -/
inductive Role where
  | start | mid | owner | fwd | last
  deriving DecidableEq, Repr

/-- The role in the reduce-scatter, and in the all-gather. -/
def State.rsRole (s : State) (g h k : Nat) : Role :=
  let j := s.hopsAt g h k
  if j + 1 = s.grpM g then .owner else if j = 0 then .start else .mid

def State.agRole (s : State) (g h k : Nat) : Role :=
  let j := s.hopsAt g h k
  let m := s.grpM g
  if j + 1 = m then .owner
  else if (s.mgrp g).chain then (if j = 0 then .last else .fwd)
  else if j + 2 = m then .last else .fwd

/-- The all-gather transfer that a FWD or LAST receives. -/
def State.agRecv (s : State) (g h k : Nat) : Nat :=
  let j := s.hopsAt g h k
  let m := s.grpM g
  m - 2 + (if (s.mgrp g).chain then m - 1 - j else (j + 1) % m)

/-- The port that sends a transfer of a half, and the one that receives it (R174, 16 R399). -/
def State.xferTx (s : State) (g h x : Nat) : Nat := if (s.mgrp g).chain && s.grpM g ≤ x + 1 then 1 - h else h
def State.xferRx (s : State) (g h x : Nat) : Nat := 1 - s.xferTx g h x

/-- Names one chunk-wave at this gateway (R182, R184). -/
def cwKey (g half xfer rseq : Nat) : Nat := ((g * 2 + half) * 32 + xfer) * 2 ^ 32 + rseq
def cwGrp (k : Nat) : Nat := k / 2 ^ 32 / 64
def cwHalf (k : Nat) : Nat := k / 2 ^ 32 / 32 % 2
def cwXfer (k : Nat) : Nat := k / 2 ^ 32 % 32
def cwRseq (k : Nat) : Nat := k % 2 ^ 32
def cwChan (s : State) (k : Nat) : BitVec 8 := BitVec.ofNat 8 (2 * gtGroup (s.gtCtl (cwGrp k)) + cwHalf k)

/-- SSEQ_BASE of a chunk-wave (R182). -/
def sseqBase (rseq : Nat) : Nat := rseq / 2 ^ 27 * 2 ^ 27 + rseq % 2 ^ 17 * 2 ^ 10

/-! The schedule (R177, R182). -/

/-- Waves of a ream at VSLOTS_MAX (R177). -/
def State.reamWaves (s : State) (j g r : Nat) : Nat := ceilDiv (s.reamSlots j r) (max 1 (s.gtVslots g))

/-- Reams of an enabled job. -/
def State.nream (s : State) (j : Nat) : Nat :=
  match SMap.find s.outer.ocb j with | none => 0 | some b => leAt b 0 4 % 2048

/-- Waves of chunk `c` among `w` waves of a ream (R177). -/
def chunkWaves (S c w : Nat) : Nat := if w ≤ c then 0 else (w - c - 1) / (2 * S) + 1

/-- Where wave number `n` of a round lies among reams from `r` up: the ream, and its place among the chunk's waves. -/
def State.cwIn (s : State) (j g c : Nat) : List Nat → Nat → Option (Nat × Nat)
  | [], _ => none
  | r :: rs, n =>
    let k := chunkWaves (gtS (s.gtCtl g)) c (s.reamWaves j g r)
    if n < k then some (r, n) else s.cwIn j g c rs (n - k)

/-- Waves of chunk `c` in one round. -/
def State.chunkRound (s : State) (j g c : Nat) : Nat :=
  (List.range (s.nream j)).foldl (fun a r => a + chunkWaves (gtS (s.gtCtl g)) c (s.reamWaves j g r)) 0

/-- Round, ream and wave index of an RSEQ (R165, R182); none for an adoption's (16 R397). -/
def State.cwPlace (s : State) (j g rseq : Nat) : Option (Nat × Nat × Nat) :=
  let c := rseq / 2 ^ 27
  let m := rseq / 2 % 2 ^ 26
  let n := m - (s.grp g).nbase
  let per := s.chunkRound j g c
  if per = 0 || m < (s.grp g).nbase then none
  else
    match s.cwIn j g c (List.range (s.nream j)) (n % per) with
    | none => none
    | some (r, i) => some ((s.grp g).origin + n / per, r, c + 2 * gtS (s.gtCtl g) * i)

/-- RSEQ of a wave of a ream in a round, in a pass (R182). -/
def State.rseqOf (s : State) (j g round ream w pass : Nat) : Nat :=
  let S := gtS (s.gtCtl g)
  let c := w % (2 * S)
  let before := (List.range ream).foldl (fun a r => a + chunkWaves S c (s.reamWaves j g r)) 0
  let n := (s.grp g).nbase + (round - (s.grp g).origin) * s.chunkRound j g c + before + w / (2 * S)
  c * 2 ^ 27 + n % 2 ^ 26 * 2 + pass

/-! Records (R187, R188). -/

/-- A line port, and its update. -/
def State.port (s : State) (p : Nat) : LinePort := s.line.ports.getD p {}
def updPort (p : Nat) (f : LinePort → LinePort) (s : State) : State :=
  s.updLine fun l => { l with ports := vmod l.ports p f }

/-- A record about a chunk-wave is queued: the sender's own toward the next member, the receiver's on the half that runs
back over the same fibre pair (R187). -/
def sendRec (k kind count tbytes : Nat) (s : State) : State :=
  let g := cwGrp k
  let h := cwHalf k
  let port := if kind = 1 then s.xferTx g h (cwXfer k) else s.xferRx g h (cwXfer k)
  let c := s.gtCtl g
  updPort port (fun l =>
    { l with
      recQ := l.recQ ++ [{
        job := gtJob c, chan := 2 * gtGroup c + (if kind = 1 then h else 1 - h), kind := kind
        r := { jobtag := s.gtTag g, chan := cwChan s k, xfer := BitVec.ofNat 5 (cwXfer k), rseq := wd (cwRseq k),
               epoch := s.grpEpoch g, count := BitVec.ofNat 11 count, tbytes := wd tbytes } }] }) s

def State.tx? (s : State) (k : Nat) : Option TxCw := SMap.find s.ring.tx k
def State.rx? (s : State) (k : Nat) : Option RxCw := SMap.find s.ring.rx k
def putTx (k : Nat) (t : TxCw) (s : State) : State := s.updRing fun r => { r with tx := SMap.put k t r.tx }
def putRx (k : Nat) (t : RxCw) (s : State) : State := s.updRing fun r => { r with rx := SMap.put k t r.rx }

/-! Gates (R190). -/

/-- The counter of a half and transfer of a group. -/
def State.gateCtr (s : State) (g h x : Nat) : Nat :=
  s.partBase (gtJob (s.gtCtl g)) + s.gtCntBase g + h * (2 * gtS (s.gtCtl g) - 2) + x

def Desc.packBase (d : Desc) : Nat := d.arg 16 32

/-- An EXPAND or COPY of the descriptor reads the transmit copy `k`: an OWNER's copy of its first all-gather transfer, by its
SSEQ_BASE (R181), or the copy that CHAN, XFER and RSEQ name (09 R251). -/
def State.readsTx (s : State) (d : Desc) (k : Nat) : Bool :=
  s.grpOfChan d.job.val (if d.opcode = 10 then d.arg 0 8 else d.arg 8 8) = some (cwGrp k) &&
  (if d.opcode = 10 then
    cwHalf k = d.arg 0 8 % 2 && cwXfer k = d.arg 8 5 && cwRseq k = d.arg 32 32
  else
    d.opcode = 6 && !d.refetch && cwHalf k = d.arg 8 8 % 2 && sseqBase (cwRseq k) = d.packBase && cwRseq k % 2 = 1 &&
    cwXfer k + 1 = s.grpM (cwGrp k))

/-- Some operation in the scoreboard is still to read the transmit copy (09 R252, log 145). -/
def State.txWanted (s : State) (k : Nat) : Bool := s.sch.ops.any fun e => e.st ≠ .active && s.readsTx e.d k

/-- GATE_RAISE: the CREDIT has arrived and no local operation reads the copy (R190); the copy goes once its ACK and CREDIT
have both arrived and nothing reads it (R188). -/
def txSettle (k : Nat) (s : State) : State :=
  match s.tx? k with
  | none => s
  | some t =>
    let idle := t.reads = 0 && !s.txWanted k
    let t1 := if t.ack && idle then { t with sheets := [], segs := [], freed := true } else t
    let up := t1.credit && idle && !t1.gated
    let t2 := if up then { t1 with gated := true } else t1
    let s1 := if t2.freed && t2.gated then s.updRing fun r => { r with tx := SMap.erase k r.tx } else putTx k t2 s
    if up then
      let g := cwGrp k
      evalJob (gtJob (s.gtCtl g)) (signal (s.gateCtr g (cwHalf k) (cwXfer k)) 1 s1)
    else s1

/-! Receive copies (R188, R455). -/

/-- A lane's number: group, half and transfer. -/
def cwLane (k : Nat) : Nat := k / 2 ^ 32

/-- The memory of freed chunk-waves keeps the last 2 × DEPTH of each lane (R455). -/
def memAdd (m : CwMem) (depth : Nat) (l : List CwMem) : List CwMem :=
  let l1 := l ++ [m]
  let n := l1.countP fun x => x.lane = m.lane
  if n > 2 * depth then l1.eraseP fun x => x.lane = m.lane else l1

/-- The gateway also sends the chunk-wave on: it is FWD for it (Table 7.2). -/
def State.cwForwards (s : State) (k : Nat) : Bool :=
  let m := s.grpM (cwGrp k)
  m - 1 ≤ cwXfer k && cwXfer k + 3 < 2 * m

/-- A receive copy whose waves are released and whose forward SEND has completed is freed: CREDIT (R188). -/
def rxSettle (k : Nat) (s : State) : State :=
  match s.rx? k with
  | none => s
  | some r =>
    if r.receipt && r.expanded && r.waves.isEmpty && (r.fwdDone || !s.cwForwards k) then
      sendRec k 4 0 0 (s.updRing fun x =>
        { x with rx := SMap.erase k x.rx, mem := memAdd ⟨k, cwLane k, r.ack⟩ (s.gtDepth (cwGrp k)) x.mem })
    else s

/-- A wave is no longer held: the receive copies expanded into it may go. -/
def cwsReleased (wk : Nat) (cws : List Nat) (s : State) : State :=
  forAll cws (fun k t =>
    match t.rx? k with
    | none => t
    | some r => rxSettle k (putRx k { r with waves := r.waves.filter fun x => x ≠ wk } t)) s

/-- WAVE_RELEASE (04 R112): slots FREE, a RELEASE record to every contributor of the set, felt copies credited. -/
def waveRelease (j h : Nat) (s : State) : State :=
  match s.wave? j h with
  | none => s
  | some w =>
    let s1 := grantAll j w.cset (s.waveRec j w 3) s
    let s2 := s1.updVat fun v =>
      { v with
        acc := v.acc.filter fun kv => !(kv.1 / 8192 / 2048 = w.die && w.slots.contains (kv.1 / 8192 % 2048))
        slots := v.slots.filter fun kv => !(kv.1 / 2048 = w.die && w.slots.contains (kv.1 % 2048))
        waves := SMap.erase (waveKey j h) v.waves }
    cwsReleased (waveKey j h) w.cws (s2.updGc fun g => { g with chains := SMap.erase (waveKey j h) g.chains })

end Sys2Proof.Machine
end

