-- ==== Sys2Proof/Machine/SchedOps.lean ====
section
/-! DEFINITION. Operation descriptors and the scoreboard (02 R37 to R47): layout, the checks of R39, acceptance in SEQ
order, issue, and how an entry ends. -/
namespace Sys2Proof.Machine

open Sys2Proof

/-! Descriptor layout (Table 2.3). -/

def decodeDesc (b : List Byte) : Desc :=
  let w0 := wAt b 0
  let w2 := wAt b 8
  let w3 := wAt b 0xC
  { unit := fld w0 16 4, cpl := bit w0 15, nsig := fld w0 13 2, nwait := fld w0 10 3, trig := fld w0 8 2,
    job := Fin.ofNat 8 (fld w0 4 3), opcode := fld w0 0 4, seq := wAt b 4,
    release := bit w2 13, claim := bit w2 12, wave := fld w2 0 12,
    vslots := fld w3 16 10, ream := fld w3 0 10,
    wcnt := (List.range 4).map fun i => leAt b (0x10 + 2 * i) 2,
    wval := (List.range 4).map fun i => wAt b (0x18 + 4 * i),
    scnt := (List.range 2).map fun i => leAt b (0x28 + 2 * i) 2,
    sinc := (List.range 2).map fun i => leAt b (0x2C + 2 * i) 2,
    trigVal := BitVec.ofNat 64 (leAt b 0x30 8), opArg := BitVec.ofNat 64 (leAt b 0x38 8) }

/-- The reserved fields of words 0, 2 and 3 are zero. -/
def descHeadOk (b : List Byte) : Bool :=
  (wAt b 0 &&& 0xFFF00080) = 0 && (wAt b 8 &&& 0xFFFFC000) = 0 && (wAt b 0xC &&& 0xFC00FC00) = 0

/-- The bits of OP_ARG that an opcode defines (R108, R124, R137, R163, R165, R183, R249, R251); of a TASK, all but the reserved
bits of a MERGE (08 R221). -/
def argMask (opcode taskId : Nat) : DWord :=
  match opcode with
  | 0 => 0x1FFFFFFFF
  | 1 => 0xFFF
  | 2 => 0xFF0FFF
  | 3 => 0xFFFFFFFF00FF
  | 4 => 0xFFFFFFFF003FFFFF
  | 5 => 0xFFFFFFFF001FFF00
  | 6 => 0xFFFFFFFFFF3F
  | 7 => 0xF
  | 8 => 0xFFF
  | 9 => 0x3FFF
  | 10 => 0xFFFFFFFF1FFF1FFF
  | _ => if taskId = 3 then 0xFFFFF else 0xFFFFFFFFFFFFFFFF

/-- The checks of R38 and R39 that need no state. UNIT of a SCATTER or COPY is 0 or 1: the compute die (log 132). -/
def descFieldsOk (d : Desc) : Bool :=
  d.opcode ≤ 11 && d.nwait ≤ 4 && d.nsig ≤ 2 && d.trig ≠ 3 &&
  !(d.trig = 2 && d.trigVal.toNat ≥ 2 ^ 32) &&
  ((d.wcnt.take d.nwait).all fun c => c < 2048) && ((d.wcnt.drop d.nwait).all fun c => c = 0) &&
  ((d.wval.drop d.nwait).all fun v => v = 0) &&
  ((d.scnt.take d.nsig).all fun c => c < 2048) && ((d.scnt.drop d.nsig).all fun c => c = 0) &&
  ((d.sinc.take d.nsig).all fun c => c ≠ 0) && ((d.sinc.drop d.nsig).all fun c => c = 0) &&
  d.claim = decide (d.vslots ≠ 0) && d.vslots ≤ 512 &&
  (!d.claim || d.opcode = 0 || d.opcode = 6) &&
  (d.opArg &&& ~~~ argMask d.opcode (d.arg 0 8)) = 0 &&
  d.unit ≤ (if d.opcode = 11 then 7 else 1)

/-! Fields of OP_ARG by name. -/

def Desc.ebase (d : Desc) : Nat := d.arg 0 32
def Desc.recollect (d : Desc) : Bool := d.arg 32 1 = 1
def Desc.edx (d : Desc) : Nat := d.arg 0 12
def Desc.quantQbid (d : Desc) : Nat := d.arg 16 8
def Desc.qbid (d : Desc) : Nat := d.arg 0 8
def Desc.chan (d : Desc) : Nat := d.arg 8 8
def Desc.xfer (d : Desc) : Nat := d.arg 16 5
def Desc.fwd (d : Desc) : Bool := d.arg 21 1 = 1
def Desc.rseq (d : Desc) : Nat := d.arg 32 32
def Desc.stream (d : Desc) : Nat := d.arg 0 4
def Desc.destWave (d : Desc) : Bool := d.arg 4 1 = 1
def Desc.taskId (d : Desc) : Nat := d.arg 0 8
def Desc.taskArg (d : Desc) : Nat := d.arg 8 56

/-! Checks that need the state. -/

/-- EDX lies in the job's partition on the UNIT die (R124). -/
def State.edxOk (s : State) (d : Desc) : Bool := d.edx < s.regF (pgENG d.unit) (0x200 + 0x10 * d.job.val) 0 7 * 64

/-- CHAN is a ring channel of an UP or HELD group of the job (R183): its group entry. -/
def State.liveChan (s : State) (j chan : Nat) : Option Nat :=
  match s.grpOfChan j chan with
  | some g => if s.grpLive g then some g else none
  | none => none

/-- OP_ARG under the rules of the opcode. -/
def State.argOk (s : State) (d : Desc) : Bool :=
  match d.opcode with
  | 0 =>
    d.claim ≠ d.recollect && d.ebase * 8192 < s.npad d.job.val d.ream &&
    d.ebase + d.vslots ≤ s.reamSlots d.job.val d.ream
  | 1 => s.edxOk d
  | 2 => s.edxOk d
  | 8 => s.edxOk d
  | 4 =>
    match s.liveChan d.job.val d.chan with
    | none => false
    | some g => d.xfer + 2 < 2 * gtS (s.gtCtl g) && d.unit = d.chan % 2 && !(d.fwd && d.qbid ≠ 0)
  | 5 =>
    match s.liveChan d.job.val d.chan with
    | none => false
    | some g => d.xfer + 2 < 2 * gtS (s.gtCtl g) && d.unit = 1 - d.chan % 2
  | 6 => !d.refetch || (d.arg 0 5 = 0 && d.chan = 0 && d.wave = 0 && !d.claim)
  | 10 => (s.copyQp? d.job.val (d.arg 16 13)).isSome
  | _ => true

/-- A wave handle of the job is in use: a wave, or an entry whose claim is not granted (R39). -/
def State.waveInUse (s : State) (j h : Nat) : Bool :=
  (s.wave? j h).isSome ||
  s.sch.ops.any fun e => e.d.claim && e.d.job.val = j && e.d.wave = h && (e.st = .armed || e.st = .waiting || e.st = .claiming)

/-- The job belongs to the source (R39); a job that is QUIESCING takes nothing from the cores (15 Table 15.10). -/
def State.srcOk (s : State) (src : Src) (j : Nat) : Bool :=
  match src with
  | .fn f => s.owns f.val j
  | .cores _ => s.jobOpen j

/-- R39, whole. -/
def State.descOk (s : State) (src : Src) (d : Desc) : Bool :=
  descFieldsOk d && s.srcOk src d.job.val &&
  ((d.wcnt.take d.nwait).all fun c => c < s.partSize d.job.val) &&
  ((d.scnt.take d.nsig).all fun c => c < s.partSize d.job.val) &&
  (!d.claim || (d.vslots ≤ s.quota d.unit d.job.val && !s.waveInUse d.job.val d.wave)) &&
  s.argOk d

/-- The number of a source in CANCEL and in completion records: 0 = the function, 1 and 2 = the cores of CD0 and CD1. -/
def srcNum : Src → Nat
  | .fn _ => 0
  | .cores d => 1 + d.val

/-- Key of a source and job for the last SEQ held (R40): functions 0 to 31, then the core complexes. -/
def srcKey (src : Src) (j : Nat) : Nat :=
  8 * (match src with | .fn f => f.val | .cores d => 32 + d.val) + j

/-- The SEQ expected from a source (R40). -/
def State.seqNext (s : State) (src : Src) (j : Nat) : Word :=
  match SMap.find s.sch.lastSeq (srcKey src j) with
  | none => 0
  | some v => v + 1

/-- The scoreboard or the job's OPS_MAX is full (R41). -/
def State.opsFull (s : State) (j : Nat) : Bool :=
  s.sch.ops.length ≥ 2048 || (s.jobOps j).length ≥ s.regF pgSCH (0x218 + 0x40 * j) 0 12

/-- A claim would raise the job's committed slots above its quota (R110). -/
def State.claimOver (s : State) (d : Desc) : Bool :=
  d.claim && s.committed d.unit d.job.val + d.vslots > s.quota d.unit d.job.val

/-- A descriptor becomes an entry (Table 2.4). -/
def enterDesc (src : Src) (d : Desc) (s : State) : State :=
  let id := s.sch.nextId
  let e : Entry := { id := id, src := src, d := d, st := if d.trig = 0 then .waiting else .armed }
  let s1 := s.updSch fun x =>
    { x with
      ops := x.ops ++ [e], nextId := id + 1, peak := max x.peak (x.ops.length + 1)
      lastSeq := SMap.put (srcKey src d.job.val) d.seq x.lastSeq }
  if d.trig = 0 then evalEntry id s1
  else if d.trig = 1 && d.trigVal.toNat ≤ (s.axis d.job.val).toNat then toWaiting id s1
  else if d.trig = 2 && s.timeMet d.trigVal then toWaiting id s1
  else s1

/-- A descriptor of a function (R39 to R41, R110): its status and the state after it. Where several refusals apply the order is
DUP, SEQ_GAP, BAD_DESC, FULL (log 129). -/
def acceptFn (f : Func) (d : Desc) (headOk : Bool) (s : State) : Nat × State :=
  let src := Src.fn f
  let last := SMap.find s.sch.lastSeq (srcKey src d.job.val)
  if last = some d.seq then (0x05, s)
  else if d.seq ≠ s.seqNext src d.job.val then (0x07, raiseEv pgSCH 0x810 1 s)
  else if !headOk || !s.descOk src d then (0x08, raiseEv pgSCH 0x810 1 s)
  else if s.opsFull d.job.val then (0x06, raiseEv pgSCH 0x814 1 s)
  else if s.claimOver d then (0x06, raiseEv (pgVAT 0) 0x830 10 (raiseEv pgSCH 0x814 1 s))
  else (0x00, enterDesc src d s)

/-! General-core submissions (R41, R139). -/

def State.core (s : State) (c : Nat) : CoreSt := SMap.get (fun _ => ({} : CoreSt)) s.gc.cores c
def updCore (c : Nat) (f : CoreSt → CoreSt) (s : State) : State :=
  s.updGc fun g => { g with cores := SMap.modify (fun _ => ({} : CoreSt)) c f g.cores }

/-- A core submits for the job of the task that it runs alone (R39, 01 R30); the exception handler, which is no task, for each
job (R142). -/
def State.coreMay (s : State) (c j : Nat) : Bool :=
  match (s.core c).task.bind fun id => s.entry? id with
  | some e => decide (e.d.job.val = j)
  | none => true

/-- A core's descriptor: none when it must wait for room; else SUB_STATUS and the state after it. -/
def acceptCore (c : Nat) (d0 : Desc) (headOk : Bool) (s : State) : Option (Nat × State) :=
  let src := Src.cores (Fin.ofNat 2 (c / 32))
  let d := { d0 with seq := s.seqNext src d0.job.val }
  if !headOk || !s.coreMay c d.job.val || !s.descOk src d then some (1, raiseEv pgSCH 0x810 1 s)
  else if s.opsFull d.job.val || s.claimOver d then none
  else some (0, enterDesc src d (updCore c (fun x => { x with subSeq := d.seq }) s))

/-- A core has nothing more to submit: its built-in task, if it runs one, completes (Table 5.9). -/
def coreDone (c : Nat) (s : State) : State :=
  let x := s.core c
  let s1 := updCore c (fun y => { y with subQ := [], builtin := false, task := if x.builtin then none else y.task }) s
  match x.task with
  | some id => if x.builtin then setWork id .finished s1 else s1
  | none => s1

/-- One descriptor of a core's queue: accepted, or kept waiting behind the first that finds no room. -/
def drainOne (c : Nat) (d : Desc) (a : List Desc × State) : List Desc × State :=
  if !a.1.isEmpty then (a.1 ++ [d], a.2)
  else
    match acceptCore c d true a.2 with
    | none => ([d], a.2)
    | some (st, s1) => ([], updCore c (fun x => { x with subStatus := st }) s1)

/-- The waiting descriptors of core `c` are offered again until one must wait. -/
def drainCore (c : Nat) (ds : List Desc) (s : State) : State :=
  let r := ds.foldl (fun a d => drainOne c d a) ([], s)
  if r.1.isEmpty then coreDone c r.2 else updCore c (fun x => { x with subQ := r.1 }) r.2

/-- After an entry or slots have freed, stalled cores go on (R41), in the order of their numbers (log 130). -/
def retryCores (s : State) : State :=
  forAll (List.range 64) (fun c t => if (t.core c).subQ.isEmpty then t else drainCore c (t.core c).subQ t) s

/-- A core submits `d`: behind what it already waits on (R41). -/
def submitCore (c : Nat) (d : Desc) (headOk : Bool) (s : State) : State :=
  if headOk && !(s.core c).subQ.isEmpty then updCore c (fun x => { x with subQ := x.subQ ++ [d] }) s
  else
    match acceptCore c d headOk s with
    | none => updCore c (fun x => { x with subQ := [d] }) s
    | some (st, s1) => updCore c (fun x => { x with subStatus := st }) s1

/-! Issue (R45). -/

/-- What a unit serves: opcodes and unit number; the key of its round-robin. -/
def unitKey (cls unit : Nat) : Nat := 16 * cls + unit

/-- READY entries that one unit's arbiter sees, oldest first. -/
def State.readyOf (s : State) (p : Entry → Bool) : List Entry := s.sch.ops.filter fun e => e.st = .ready && p e

/-- The first entry in round-robin order of jobs after the last one issued; within a job, acceptance order, which is SEQ
order for each source (R45). -/
def rrPick (last : Nat) (es : List Entry) : Option Entry :=
  ((List.range 8).findSome? fun k => es.find? fun e => e.d.job.val = (last + 1 + k) % 8)

/-- The page of the units of an arbiter. -/
def unitPage (cls u : Nat) : Nat :=
  match cls with
  | 0 => pgVAT u
  | 1 => pgENG u
  | 2 => pgSHEET u
  | 3 => pgLINE u
  | 5 => pgGC (u / 4)
  | _ => pgSW

/-- The next entry that a unit takes: class `cls` and unit `u` name its arbiter. A unit without a clock takes none (17 R420 to R422). -/
def State.pick (s : State) (cls u : Nat) (p : Entry → Bool) : Option Entry :=
  if s.unclocked (unitPage cls u) then none
  else rrPick (SMap.get (fun _ => 7) s.sch.rr (unitKey cls u)) (s.readyOf p)

/-- An entry is issued: ACTIVE. -/
def issue (cls u : Nat) (e : Entry) (s : State) : State :=
  (enter e.id .active s).updSch fun x => { x with rr := SMap.set (fun _ => 7) (unitKey cls u) e.d.job.val x.rr }

/-- ACTIVE entries of a unit. -/
def State.activeOf (s : State) (p : Entry → Bool) : List Entry := s.sch.ops.filter fun e => e.st = .active && p e

/-! How an entry ends. -/

/-- The wave is held by the job on the operation's die. -/
def State.waveOn (s : State) (d : Desc) : Option Wave :=
  match s.wave? d.job.val d.wave with
  | none => none
  | some w => if w.die = d.die then some w else none

/-- A wave is released where it is held on the operation's die (R112). -/
def releaseOn (d : Desc) (s : State) : State := if (s.waveOn d).isSome then waveRelease d.job.val d.wave s else s

/-- An ACTIVE operation works in the wave that `d` names. -/
def State.waveWorked (s : State) (d : Desc) : Bool :=
  s.sch.ops.any fun e => e.st = .active && e.onWave && e.d.job = d.job && e.d.wave = d.wave && e.d.die = d.die

/-- A wave of which an operation was cancelled is released once no operation works in it (R112). -/
def doomedRelease (d : Desc) (s : State) : State :=
  match s.waveOn d with
  | some w => if w.doomed && !s.waveWorked d then releaseOn d s else s
  | none => s

/-- A cancel of an operation on a wave takes the wave (R47, R112). -/
def waveCancel (d : Desc) (s : State) : State :=
  doomedRelease d (if (s.waveOn d).isSome then updWave d.job.val d.wave (fun w => { w with doomed := true }) s else s)

/-- What the end of an ACTIVE operation does to its wave (R112); `done`: it has completed. -/
def waveEnd (e : Entry) (done : Bool) (s : State) : State :=
  if done && e.d.release && !e.cancelled then releaseOn e.d s
  else if e.cancelled && (e.onWave || done && e.d.release) then waveCancel e.d s
  else if e.onWave then doomedRelease e.d s
  else s

def qbKey (d b : Nat) : Nat := 2 * d + b
/-- The quantised-block buffer of a die bound to (job, QBID) (R132), and the couch-stage buffer (R164). -/
def State.qbOf (s : State) (d j q : Nat) : Option (Nat × QBuf) :=
  (s.eng.qbs.find? fun kv => kv.1 / 2 = d && kv.2.job = j && kv.2.qbid = q)
def State.cbOf (s : State) (d j q : Nat) : Option (Nat × CBuf) :=
  (s.sheet.cbs.find? fun kv => kv.1 / 2 = d && kv.2.job = j && kv.2.qbid = q)

def qbFree (d j q : Nat) (s : State) : State :=
  s.updEng fun e => { e with qbs := e.qbs.filter fun kv => !(kv.1 / 2 = d && kv.2.job = j && kv.2.qbid = q) }
def cbFree (d j q : Nat) (s : State) : State :=
  s.updSheet fun e => { e with cbs := e.cbs.filter fun kv => !(kv.1 / 2 = d && kv.2.job = j && kv.2.qbid = q) }

def strmKey (d i : Nat) : Nat := 16 * d + i
def updStrm (k : Nat) (f : Strm → Strm) (s : State) : State :=
  match SMap.find s.sheet.streams k with
  | none => s
  | some x => s.updSheet fun e => { e with streams := SMap.put k (f x) e.streams }

/-- The stream that an EXPAND with DEST = STREAM, or an ADD, names. -/
def Desc.strm (d : Desc) : Option Nat :=
  if d.opcode = 7 || (d.opcode = 6 && !d.refetch && !d.destWave) then some (strmKey d.unit d.stream) else none

/-- An EXPAND (or ADD) of a stream has ended; `bad`: FAULTED or cancelled, so its partner ends with STREAM_ABORT: at once where it
has been issued, else when it is (R166). The stream is free once both have ended. -/
def strmEnd (e : Entry) (bad : Bool) (s : State) : State :=
  let k := strmKey e.d.unit e.d.stream
  match SMap.find s.sheet.streams k with
  | none => s
  | some x =>
    if x.expand ≠ some e.id && x.add ≠ some e.id then s
    else
      let x1 := if x.expand = some e.id then { x with expandEnded := true } else { x with addEnded := true }
      let partner := if x.expand = some e.id then x.add else x.expand
      let s1 := if bad then (match partner with | some q => faultOp q 0x1B 0 s | none => s) else s
      let x2 := if bad then { x1 with sheets := [], bad := true } else x1
      if x2.expandEnded && x2.addEnded then s1.updSheet fun y => { y with streams := SMap.erase k y.streams }
      else s1.updSheet fun y => { y with streams := SMap.put k x2 y.streams }

/-- What ends an operation of a stream at its issue: its partner was cancelled before it was issued. -/
def StrmAbort.hits (a : StrmAbort) (k : Nat) (d : Desc) : Bool :=
  a.key = k && a.job = d.job.val && a.wave = d.wave && a.opcode = d.opcode

/-- An operation of a stream is cancelled before its issue (R166): its partner ends with STREAM_ABORT, at once or at its issue; or it
has ended itself, and the two are even. -/
def strmLost (d : Desc) (s : State) : State :=
  match d.strm with
  | none => s
  | some k =>
    if s.sheet.aborts.any fun a => a.hits k d then s.updSheet fun y => { y with aborts := y.aborts.eraseP fun a => a.hits k d }
    else
      let later (t : State) : State :=
        t.updSheet fun y => { y with aborts := y.aborts ++ [⟨k, d.job.val, d.wave, 13 - d.opcode⟩] }
      match SMap.find s.sheet.streams k with
      | none => later s
      | some x =>
        let mine : Bool := x.job = d.job.val && x.wave = d.wave && (if d.opcode = 6 then x.expand.isNone else x.add.isNone)
        if !mine then later s
        else if x.bad then s.updSheet fun y => { y with streams := SMap.erase k y.streams }
        else
          let x1 := { x with sheets := [], bad := true, expandEnded := x.expandEnded || d.opcode = 6, addEnded := x.addEnded || d.opcode = 7 }
          let s1 := match (if d.opcode = 6 then x.add else x.expand) with | some q => faultOp q 0x1B 0 s | none => s
          if x1.expandEnded && x1.addEnded then s1.updSheet fun y => { y with streams := SMap.erase k y.streams }
          else s1.updSheet fun y => { y with streams := SMap.put k x1 y.streams }

/-- The chunk-wave that a SEND, RECV, EXPAND or COPY names, from its channel's group. -/
def State.cwOf (s : State) (d : Desc) : Option Nat :=
  match s.grpOfChan d.job.val d.chan with
  | none => none
  | some g => some (cwKey g (d.chan % 2) d.xfer d.rseq)

/-- A local operation that reads a transmit copy, or was to read it, has ended: the copy may go (R188, R190). `e.pos` is the key of the
copy that it reads, plus 1. -/
def readsDone (e : Entry) (s : State) : State :=
  if e.d.opcode ≠ 6 && e.d.opcode ≠ 10 then s
  else
    match s.tx? (e.pos - 1) with
    | some t => if e.pos = 0 then s else txSettle (e.pos - 1) (putTx (e.pos - 1) { t with reads := t.reads - 1 } s)
    | none => s

/-- Transmit copies that an ended or cancelled EXPAND or COPY named may go. -/
def readsGone (d : Desc) (s : State) : State :=
  if d.opcode ≠ 6 && d.opcode ≠ 10 then s
  else forAll ((s.ring.tx.filter fun kv => s.readsTx d kv.1).map Prod.fst) txSettle s

/-- A REFETCH operation completes when no sheet that it asked for is still awaited (06 R160). -/
def refetchSettle (s : State) : State :=
  s.updSch fun x =>
    { x with ops := x.ops.map fun e =>
        if e.st = .active && e.d.opcode = 6 && e.d.refetch && e.work = .running &&
            !(s.sheet.damaged.any fun g => g.asked.contains e.id) then { e with work := .finished } else e }

/-- What an ended operation leaves to its unit: buffers, streams and copies (R132, R164, R166, R188). -/
def unitEnd (e : Entry) (faulted cancelled : Bool) (s : State) : State :=
  let d := e.d
  match d.opcode with
  | 2 =>
    s.updEng fun x =>
      { x with
        qbs := if faulted then x.qbs.filter fun kv => !(kv.1 / 2 = d.unit && kv.2.quant = e.id)
               else x.qbs.map fun kv => if kv.2.quant = e.id then (kv.1, { kv.2 with done := true }) else kv }
  | 3 =>
    let s1 := match s.qbOf d.unit d.job.val d.qbid with
      | some kv => if kv.2.done || !faulted then qbFree d.unit d.job.val d.qbid s else s
      | none => s
    if faulted then s1
    else s1.updSheet fun x =>
      { x with cbs := x.cbs.map fun kv => if kv.2.pack = e.id then (kv.1, { kv.2 with done := true }) else kv }
  | 4 =>
    let s1 := match s.cwOf d with
      | none => s
      | some k =>
        match s.tx? k with
        | some t => if faulted then s else putTx k { t with sent := true } s
        | none => s
    if d.fwd then
      match s1.cwOf d with
      | none => s1
      | some k =>
        let k' := cwKey (cwGrp k) (cwHalf k) (d.xfer - 1) d.rseq
        let s2 := s1.updSheet fun x => { x with damaged := x.damaged.filter fun g => g.target ≠ e.id }
        match s2.rx? k' with
        | some r => if faulted then s2 else rxSettle k' (putRx k' { r with fwdDone := true } s2)
        | none => s2
    else cbFree d.unit d.job.val d.qbid s1
  | 5 =>
    match s.cwOf d with
    | none => s
    | some k =>
      match s.rx? k with
      | some r => if faulted then s else putRx k { r with recvd := true } s
      | none => s
  | 6 =>
    let s1 := readsDone e s
    let s2 := refetchSettle (s1.updSheet fun x => { x with damaged := x.damaged.filter fun g => g.target ≠ e.id })
    if d.refetch || d.destWave then s2 else strmEnd e (faulted || cancelled) s2
  | 7 => strmEnd e (faulted || cancelled) s
  | 9 => freezeOp e.id s
  | 10 => readsDone e (freezeOp e.id s)
  | _ => s

/-- The completion record of an operation (15 Table 15.8, R382): to the submitting function, or for a core's operation to
the owner of the job. -/
def opRec (e : Entry) (status : Nat) (detail : Word) (s : State) : State :=
  let d := e.d
  let f := match e.src with | .fn f => f.val | .cores _ => s.owner d.job.val
  pushRec f
    { seq := d.seq, kind := 1, job := d.job.val, opcode := d.opcode, status := status
      tag := BitVec.ofNat 64 (d.ream + d.wave * 2 ^ 16 + d.unit * 2 ^ 32 + srcNum e.src * 2 ^ 40)
      result := 0, detail := detail } s

/-- An exception record (R142), or its loss. -/
def pushExc (d : Nat) (r : ExcRec) (s : State) : State :=
  if (s.gc.exc.getD d []).length ≥ 1024 then raiseEv (pgGC d) 0x814 4 s
  else s.updGc fun g => { g with exc := vmod g.exc d fun l => l ++ [r] }

/-- The compute die whose operation an entry is (R142); line and switch operations are of none. -/
def Desc.excDie (d : Desc) : Option Nat :=
  match d.opcode with
  | 0 | 1 | 2 | 3 | 6 | 7 | 8 => some d.unit
  | 11 => some (d.unit / 4)
  | _ => none

def removeEntry (id : Nat) (s : State) : State :=
  s.updSch fun x => { x with ops := x.ops.filter fun e => e.id ≠ id }

/-- Signals of a DONE entry (R48). -/
def applySignals (d : Desc) (s : State) : State :=
  forAll ((d.scnt.zip d.sinc).take d.nsig) (fun p t => signal (t.partBase d.job.val + p.1) p.2 t) s

/-- A descriptor without its SEQ. -/
def Desc.plain (d : Desc) : Desc := { d with seq := 0 }

/-- What the mirror keeps for an entry of a replay goes (16 R403): its mark, and, for the EXPAND, the COPY write with its
pool buffers (14 Table 14.6). -/
def replayDrop (e : Entry) (s : State) : State :=
  let s1 := s.updMgmt fun m => { m with replays := m.replays.filter fun x => x.1 ≠ e.d.plain }
  match s.mgmt.intake.find? fun i => i.d = e.d.plain with
  | none => s1
  | some i => poolRelease .mirror i.key (s1.updMgmt fun m => { m with intake := m.intake.filter fun x => x.key ≠ i.key })

/-- An entry that has not been issued is freed (R47): a claimed wave is released, and its buffers go. -/
def dropEntry (e : Entry) (s : State) : State :=
  let s1 := removeEntry e.id (if e.d.opcode = 3 || e.d.opcode = 4 && !e.d.fwd then unitEnd e false true s else s)
  let s2 := readsGone e.d (strmLost e.d (if e.d.claim && e.st = .ready then waveCancel e.d s1 else s1))
  replayDrop e (if e.d.cpl then opRec e 0x09 0 s2 else s2)

/-- A mirror ream becomes invalid (16 R404): counted, what is left of its replays is cancelled, and the mirrored gateway is
asked for a refresh. -/
def mirInvalid (j r : Nat) (s : State) : State :=
  let k := 1024 * j + r
  if !SMap.get (fun _ => true) s.mgmt.mirValid k then s
  else
    let s1 := s.updMgmt fun m => { m with mirValid := SMap.set (fun _ => true) k false m.mirValid }
    let mine := s1.sch.ops.filter fun e => e.st ≠ .active && s1.mgmt.replays.any fun x => x.1 = e.d.plain && x.2 = k
    (raiseEv pgMGMT 0x824 5 (forAll mine dropEntry s1)).emit
      (.root (BitVec.ofNat 16 (s.regF pgMGMT 0x134 0 16)) "MIRROR_REFRESH" [j, r])

/-- An entry has ended; a replay that ends FAULTED makes its ream invalid. -/
def replayEnd (e : Entry) (bad : Bool) (s : State) : State :=
  match s.mgmt.replays.find? fun x => x.1 = e.d.plain with
  | none => s
  | some x => whenD bad (mirInvalid (x.2 / 1024) (x.2 % 1024)) (replayDrop e s)

/-- An ACTIVE entry whose unit has completed it (R42), or that was cancelled and has ended (R47, R112). -/
def endDone (e : Entry) (s : State) : State :=
  let s1 := if e.cancelled then s else applySignals e.d s
  let s2 := unitEnd e false e.cancelled s1
  let s3 := replayEnd e false (readsGone e.d (removeEntry e.id s2))
  let s4 := waveEnd e true s3
  let s5 := if e.d.cpl then opRec e (if e.cancelled then 0x09 else 0x00) 0 s4 else s4
  evalJob e.d.job.val (retryCores s5)

/-- An ACTIVE entry whose unit has reported a fault (R42). -/
def endFaulted (e : Entry) (status detail : Nat) (s : State) : State :=
  if e.cancelled then
    let s1 := replayEnd e false (readsGone e.d (removeEntry e.id (unitEnd e true true s)))
    let s2 := waveEnd e false s1
    let s3 := if e.d.cpl then opRec e 0x09 0 s2 else s2
    evalJob e.d.job.val (retryCores s3)
  else
    let s1 := waveEnd e false (replayEnd e true (readsGone e.d (removeEntry e.id (unitEnd e true false s))))
    let s2 := opRec e status (wd detail) (raiseEv pgSCH 0x818 2 s1)
    let s3 := match e.d.excDie with
      | none => s2
      | some d => pushExc d { job := e.d.job.val, opcode := e.d.opcode, seq := e.d.seq, status := status, ream := e.d.ream,
                              wave := e.d.wave, d := e.d } s2
    retryCores s3

/-- An entry is stopped at once: freed, or, where it is ACTIVE, ended CANCELLED at its next boundary (15 Table 15.10). -/
def stopEntry (e : Entry) (s : State) : State :=
  match s.entry? e.id with
  | none => s
  | some x => if x.st = .active then endFaulted { x with cancelled := true } 0x09 0 s else dropEntry x s

/-- A cancel of one entry (R47). -/
def cancelEntry (e : Entry) (s : State) : State :=
  if e.st = .active then updEntry e.id (fun x => { x with cancelled := true }) s else dropEntry e s

end Sys2Proof.Machine
end

