-- ==== Sys2Proof/Machine/Sched.lean ====
section
/-! DEFINITION. Steps of the step axis and the scheduler (02): marks, triggers, claims, ends of operations, stalls; and the
effects of writes to the SCH page. -/
namespace Sys2Proof.Machine

open Sys2Proof

/-- The effect of a register write: refused with a code, or the state after it. -/
abbrev Eff := Except RefCode State

/-- The register stores the value. -/
def store (p o ix : Nat) (v : Word) (s : State) : State := s.setReg p o v ix
/-- A pair stores both halves. -/
def storePair (p o ix : Nat) (v : DWord) (s : State) : State := (s.setReg p o (loW v) ix).setReg p (o + 4) (hiW v) ix

/-! The step axis (R31 to R36). -/

def mcKey (j c : Nat) : Nat := 512 * j + c
def State.mc (s : State) (j c : Nat) : DWord := SMap.get (fun _ => 0) s.sch.mc (mcKey j c)

/-- Contributor `c` of job `j` is registered. -/
def State.registered (s : State) (j c : Nat) : Bool := bit (s.reg pgSCH (0x400 + 0x40 * j + 4 * (c / 32))) (c % 32)
def State.registeredAll (s : State) (j : Nat) : List Nat := (List.range 512).filter fun c => s.registered j c

/-- The largest s that at least `q` of the values reach (R32). -/
def quorumMax (q : Nat) (ms : List Nat) : Nat := (ms.filter fun x => q ≤ ms.countP fun y => x ≤ y).foldl max 0

/-- R32: the axis advances to the largest s that a quorum has reached, and its triggers are met (R52). -/
def axisEval (j : Nat) (s : State) : State :=
  let cs := s.registeredAll j
  let q0 := s.regF pgSCH (0x210 + 0x40 * j) 0 10
  let q := if q0 = 0 then cs.length else q0
  let v := quorumMax q (cs.map fun c => (s.mc j c).toNat)
  if cs.isEmpty || q > cs.length || v ≤ (s.axis j).toNat then s
  else stepTriggers j (s.updSch fun x => { x with axis := SMap.set (fun _ => 0) j (BitVec.ofNat 64 v) x.axis })

/-- A step mark (R31, R33). One that fails several checks counts once: SCH_MARK_BAD, then UNREG, STALE and RANGE (log 138). -/
def stepMarkOp (j off : Nat) (b : List Byte) (s : State) : State :=
  let c := off / 16
  let step := leAt b 0 8
  let mseq := wAt b 0xC
  if b.length ≠ 16 || off % 16 ≠ 0 || c ≥ 512 || leAt b 8 2 ≠ c || leAt b 0xA 2 ≠ 0 then raiseEv pgSCH 0x800 0 s
  else if !s.registered j c then raiseEv pgSCH 0x804 0 s
  else
    let k := mcKey j c
    let fresh := match SMap.find s.sch.mseq k with | none => true | some l => serialGt mseq l
    if !fresh || step ≤ (s.mc j c).toNat then bump pgSCH 0x808 1 s
    else if step > (s.axis j).toNat + 65535 then raiseEv pgSCH 0x80C 0 s
    else
      axisEval j (s.updSch fun x =>
        { x with mc := SMap.set (fun _ => 0) k (BitVec.ofNat 64 step) x.mc, mseq := SMap.put k mseq x.mseq })

/-- STEP_MARK (R31, R33). -/
def execStepMark (j : Job) (off : Nat) (bytes : List Byte) (s : State) : Res := .next (stepMarkOp j.val off bytes s)

/-- A load of the axis (R35). -/
def stepLoad (j : Nat) (v : DWord) (s : State) : Eff :=
  if !(s.jobOps j).isEmpty then .error .stepLoadBusy
  else .ok (s.updSch fun x =>
    { x with
      axis := SMap.set (fun _ => 0) j v x.axis
      mc := (List.range 512).foldl (fun m c => SMap.set (fun _ => 0) (mcKey j c) v m) x.mc })

/-- A write of a word of the registered map (R34). -/
def regmapWr (j k : Nat) (v : Word) (s : State) : State :=
  let o := 0x400 + 0x40 * j + 4 * k
  let added := (List.range 32).filter fun i => bit v i && !bit (s.reg pgSCH o) i
  let a := s.axis j
  let s1 := (store pgSCH o 0 v s).updSch fun x =>
    { x with
      mc := added.foldl (fun m i => SMap.set (fun _ => 0) (mcKey j (32 * k + i)) a m) x.mc
      mseq := added.foldl (fun m i => SMap.erase (mcKey j (32 * k + i)) m) x.mseq }
  axisEval j s1

/-- A write of a counter partition (R50). Where several refusals apply it records PART_BUSY, then VALUE_RANGE, then PART_OVERLAP
(log 139). -/
def cntPart (j : Nat) (v : Word) (s : State) : Eff :=
  let b := fld v 16 8
  let n := fld v 0 6
  let exc := (List.range 8).any fun i =>
    i ≠ j && s.partSize i > 0 && n > 0 && b * 64 < s.partBase i + s.partSize i && s.partBase i < (b + n) * 64
  if !(s.jobOps j).isEmpty then .error .partBusy
  else if n > 32 || b + n > 256 then .error .valueRange
  else if exc then .error .partOverlap
  else .ok ((store pgSCH (0x214 + 0x40 * j) 0 v s).updSch fun x =>
    { x with cnt := x.cnt.filter fun kv => !(b * 64 ≤ kv.1 && kv.1 < (b + n) * 64) })

/-- A software write of a sync counter (R49). -/
def cntVal (i : Nat) (v : Word) (s : State) : State :=
  let s1 := setCtr i v s
  match s.ctrJob i with | some j => evalJob j s1 | none => s1

/-- Effects of the SCH page (Table 2.7). -/
def schEffect (p o ix : Nat) (v : DWord) (s : State) : Eff :=
  let j := (o - 0x200) / 0x40 % 8
  if o = 0x10C then .ok (cntVal ix (loW v) s)
  else if o < 0x200 then .ok (store p o ix (loW v) s)
  else if o ≥ 0x400 then .ok (regmapWr ((o - 0x400) / 0x40) ((o - 0x400) % 0x40 / 4) (loW v) s)
  else if o % 0x40 = 0x08 then stepLoad j v s
  else if o % 0x40 = 0x10 then .ok (axisEval j (store p o ix (loW v) s))
  else if o % 0x40 = 0x14 then cntPart j (loW v) s
  else .ok (store p o ix (loW v) s)

/-- Read-only views of the SCH page. -/
def schView (s : State) (o ix : Nat) (v : Word) : Word :=
  let j := (o - 0x200) / 0x40 % 8
  if o = 0x104 then wd (s.sch.peak * 2 ^ 16 + s.sch.ops.length)
  else if o = 0x10C then s.ctr ix
  else if o < 0x200 || o ≥ 0x400 then v
  else if o % 0x40 = 0 then loW (s.axis j)
  else if o % 0x40 = 4 then hiW (s.axis j)
  else if o % 0x40 = 0x18 then setFld v 16 12 (s.jobOps j).length
  else if o % 0x40 = 0x08 || o % 0x40 = 0x0C then 0
  else v

/-! Steps of the scoreboard. -/

/-! What a general-core task does between two commands (05 R135, R136, R139, R141). -/

/-- A task of core `c` has ended. -/
def coreFree (c : Nat) (s : State) : State :=
  updCore c (fun x => { x with task := none, builtin := false, waiting := false, subQ := [] }) s

/-- The user task of core `c` while it goes on: neither blocked in WAIT_GO nor stalled under R41. -/
def State.coreGoes (s : State) (c : Nat) : Option Entry :=
  let x := s.core c
  if x.builtin || x.waiting || !x.subQ.isEmpty then none else x.task.bind fun id => s.entry? id

/-- Where a byte of the address map lies (Table 5.6): local memory, shared memory, core control, an accumulator (slot, element,
byte), HBM. -/
inductive CoreRegion where
  | own (a : Nat)
  | shm (a : Nat)
  | ctl (o : Nat)
  | acc (n i b : Nat)
  | hbm (a : Nat)
  deriving DecidableEq, Repr

/-- The byte at address `a`, where a task of job `j` may reach it (R136); the runtime's part of local memory is read only. -/
def State.coreRegion (s : State) (c j : Nat) (wr : Bool) (a : Nat) : Option CoreRegion :=
  let d := c / 32
  if a < 0x40000 then (if wr && a ≥ 0x3C000 then none else some (.own a))
  else if 0x10000000 + s.shmBase d j ≤ a && a < 0x10000000 + s.shmBase d j + s.shmSize d j then some (.shm (a - 0x10000000))
  else if 0x20000000 ≤ a && a < 0x20001000 then some (.ctl (a - 0x20000000))
  else if 0x40000000 ≤ a && a < 0x48000000 then
    let n := (a - 0x40000000) / 0x10000
    match s.vslot? d n with
    | some x => if x.job = j then some (.acc n ((a - 0x40000000) % 0x10000 / 8) (a % 8)) else none
    | none => none
  else if 0x10000000000 ≤ a && s.hbmOk j (a - 0x10000000000) 1 then some (.hbm (a - 0x10000000000))
  else none

/-- Counter WAIT_IDX of the job's partition (Table 5.8); one outside the partition is outside the fence (log 27). -/
def State.waitCtr (s : State) (c j : Nat) : Option Word :=
  let i := (s.core c).waitIdx.toNat
  if i < s.partSize j then some (s.ctr (s.partBase j + i)) else none

/-- A word of core control, as a load finds it; one that is write-only or not in Table 5.8 reads as zero (00 R8). -/
def State.coreCtl (s : State) (c j o : Nat) : Word :=
  let x := s.core c
  match o with
  | 0x48 => wd x.subStatus
  | 0x50 => x.subSeq
  | 0x80 => x.waitIdx
  | 0x84 => x.waitVal
  | 0x88 | 0x8C => (s.waitCtr c j).getD 0
  | _ => 0

/-- A byte as a load finds it. -/
def State.coreByte (s : State) (c j : Nat) (r : CoreRegion) : Byte :=
  match r with
  | .own a => memGet (s.core c).mem a
  | .shm a => (s.shmRead (c / 32) a 1).headD 0
  | .ctl o => (natLE 4 (s.coreCtl c j (o / 4 * 4)).toNat).getD (o % 4) 0
  | .acc n i b => (natLE 8 (s.accAt (c / 32) n i).toNat).getD b 0
  | .hbm a => memGet s.mem.hbm a

/-- A byte of a word replaced. -/
def patchW (v : Word) (i : Nat) (b : Byte) : Word := wd (leNat (patch (natLE 4 v.toNat) i [b]))

/-- A byte stored; a read-only word of core control keeps its value. -/
def coreStoreByte (c : Nat) (r : CoreRegion) (b : Byte) (s : State) : State :=
  match r with
  | .own a => updCore c (fun x => { x with mem := SMap.set memByte a b x.mem }) s
  | .shm a => shmWrite (c / 32) a [b] s
  | .ctl o =>
    updCore c (fun x =>
      if o < 0x40 then { x with subDesc := patch (x.subDesc ++ List.replicate (64 - x.subDesc.length) 0) o [b] }
      else if o / 4 = 0x20 then { x with waitIdx := patchW x.waitIdx (o % 4) b }
      else if o / 4 = 0x21 then { x with waitVal := patchW x.waitVal (o % 4) b }
      else x) s
  | .acc n i k => setAcc (c / 32) n i (BitVec.ofNat 64 (leNat (patch (natLE 8 (s.accAt (c / 32) n i).toNat) k [b]))) s
  | .hbm a => hbmWrite a [b] s

/-- An access fault ends the task with TASK_TRAP; the spec gives no mepc (log 27). -/
def coreTrap (c id : Nat) (mcause : Word) (s : State) : State :=
  let dr := s.draw
  faultOp id 0x22 0 (raiseCap (pgGC (c / 32)) 0x804 1 mcause dr.1 (coreFree c dr.2))

/-- An access touches bytes `lo` to `lo + n − 1` of core control. -/
def ctlTouch (a len lo n : Nat) : Bool := overlaps a len (0x20000000 + lo) n

/-- A store: whole, or an access fault (mcause 7); a write of SUB_COMMIT submits the descriptor in SUB_DESC (R139). -/
def coreStore (c : Nat) (e : Entry) (a : Nat) (bs : List Byte) (s : State) : State :=
  let j := e.d.job.val
  let rs := (List.range' a bs.length).map (s.coreRegion c j true)
  if rs.any Option.isNone then coreTrap c e.id 7 s
  else
    let s1 := match rs.headD none with
      | some (.hbm h) => hbmWrite h bs s
      | _ => forAll ((rs.filterMap id).zip bs) (fun rb t => coreStoreByte c rb.1 rb.2 t) s
    if ctlTouch a bs.length 0x40 4 then
      submitCore c (decodeDesc (s1.core c).subDesc) (descHeadOk (s1.core c).subDesc) s1
    else s1

/-- The first wave with a POISONED slot among the bytes of a load. -/
def State.loadPoison (s : State) (c : Nat) (rs : List CoreRegion) : Option Wave :=
  rs.findSome? fun
    | .acc n _ _ =>
      match s.vslot? (c / 32) n with
      | some x => if x.poisoned then s.wave? x.job x.wave else none
      | none => none
    | _ => none

/-- A load. It returns its bytes; a load of WAIT_GO blocks until the counter has reached WAIT_VAL (R139). An access fault
(mcause 5) ends the task, and so does poisoned data: of a slot (04 R116), or of HBM (14 Table 14.3). -/
def coreLoadOp (c : Nat) (e : Entry) (a n : Nat) (s : State) : State :=
  let j := e.d.job.val
  let rs := (List.range' a n).map (s.coreRegion c j false)
  let ctr := ctlTouch a n 0x88 8
  if rs.any Option.isNone || (ctr && (s.waitCtr c j).isNone) then coreTrap c e.id 5 s
  else if ctlTouch a n 0x88 4 && decide (((s.waitCtr c j).getD 0).toNat < (s.core c).waitVal.toNat) then
    updCore c (fun x => { x with waiting := true }) s
  else
    match s.loadPoison c (rs.filterMap id), rs.headD none with
    | some w, _ => poisonFault e.id w (coreFree c s)
    | none, some (.hbm h) =>
      if s.hbmBad h n then
        faultOp e.id 0x24 0 (reportHbm h n (if s.hbmDie h = c / 32 then 1 else 2) (coreFree c s))
      else s.emit (.coreLoad c a (s.hbmRead h n))
    | none, _ =>
      let s1 := if ctlTouch a n 0x88 4 then updCore c (fun x => { x with waitRes := (s.waitCtr c j).getD 0 }) s else s
      s1.emit (.coreLoad c a ((rs.filterMap id).map (s.coreByte c j)))

/-- What a task does, while it goes on: an access, or a memory error that it meets (R141). An uncorrectable error in a runtime
area takes the core out of service; the task that it ran ends as one whose data is lost (log 140). -/
def taskAct (c : Nat) (x : TaskAct) (s : State) : State :=
  match s.coreGoes c with
  | none => s
  | some e =>
    let p := pgGC (c / 32)
    match x with
    | .store a bs => coreStore c e a bs s
    | .load a n => coreLoadOp c e a n s
    | .memCe => if s.pageOff p then s else addCe (bump p 0x80C 1 s)
    | .memUe runtime =>
      let s1 := if runtime then s.setReg p 0x100 (setFld (s.reg p 0x100) (c % 32) 1 0) else s
      faultOp e.id 0x24 0 (raiseEv p 0x810 3 (coreFree c s1))

/-- A task's acts, in order (log 10). -/
def taskActs (c : Nat) (l : List TaskAct) (s : State) : State := forAll l (taskAct c) s

/-- SUB_COMMIT (05 R139): what the task did so far, its descriptor, and the submission. -/
def execSubCommit (c : Core) (desc : List Byte) (acts : List TaskAct) (s : State) : Res :=
  let t := taskActs c.val acts s
  .next (match t.coreGoes c.val with
    | none => t
    | some _ =>
      submitCore c.val (decodeDesc desc) (descHeadOk desc) (updCore c.val (fun x => { x with subDesc := desc.take 64 }) t))

/-- TIME_TRIGGER_MET (R53): an ARMED entry whose time has come. -/
def execTimeTriggerMet (e : Nat) (s : State) : Res :=
  match s.entry? e with
  | none => .next s
  | some x => .next (if x.st = .armed && x.d.trig = 2 && s.timeMet x.d.trigVal then toWaiting e s else s)

/-- The entry that first entered CLAIMING on a die (R44). -/
def State.firstClaim (s : State) (d : Nat) : Option Entry :=
  (s.sch.ops.filter fun e => e.st = .claiming && e.d.unit = d).foldl
    (fun a e => match a with | none => some e | some b => if e.order < b.order then some e else a) none

/-- Slots granted to a claim (R111): the lowest free ones, HELD and clear, one wave. -/
def claimGrantOp (e : Entry) (s : State) : State :=
  let d := e.d.unit
  let ns := (s.freeSlots d).take e.d.vslots
  let w : Wave := { die := d, ream := e.d.ream, ebase := if e.d.opcode = 0 then e.d.ebase else 0, slots := ns }
  let j := e.d.job.val
  let s1 := s.updVat fun v =>
    { v with
      acc := v.acc.filter fun kv => !(kv.1 / 8192 / 2048 = d && ns.contains (kv.1 / 8192 % 2048))
      slots := ns.zipIdx.foldl (fun m ni =>
        SMap.put (slotKey d ni.1) { job := j, wave := e.d.wave, efirst := (w.ebase + ni.2) * 8192 } m) v.slots }
  enter e.id .ready (putWave j e.d.wave w s1)

/-- CLAIM_GRANT (R44, R111). -/
def execClaimGrant (d : Die) (s : State) : Res :=
  match s.firstClaim d.val with
  | none => .next s
  | some e => .next (if (s.freeSlots d.val).length ≥ e.d.vslots then claimGrantOp e s else s)

/-- OP_DONE (R42): the unit of an ACTIVE entry has finished. -/
def execOpDone (e : Nat) (s : State) : Res :=
  match s.entry? e with
  | none => .next s
  | some x => .next (if x.st = .active && x.work = .finished then endDone x s else s)

/-- OP_FAULTED (R42): the unit of an ACTIVE entry has reported a fault. -/
def execOpFaulted (e : Nat) (s : State) : Res :=
  match s.entry? e with
  | none => .next s
  | some x =>
    match x.work with
    | .faulted st det => .next (if x.st = .active then endFaulted x st det s else s)
    | _ => .next s

/-- The states in which an entry's stall time counts: ARMED, WAITING, CLAIMING (R46), and READY for an engine operation
(05 R132). -/
def Entry.stalls (e : Entry) : Bool :=
  match e.st with
  | .armed | .waiting | .claiming => true
  | .ready => e.d.opcode = 1 || e.d.opcode = 2 || e.d.opcode = 8
  | .active => false

/-- SCH_OP_STALL (R46): the stall time has passed STALL_LIMIT; once in each state. -/
def execSchOpStall (e : Nat) (s : State) : Res :=
  match s.entry? e with
  | none => .next s
  | some x =>
    .next (if x.stalls && !x.stalled && s.regF pgSCH 0x100 0 20 ≠ 0 then
        raiseEv pgSCH 0x81C 3 (updEntry e (fun y => { y with stalled := true }) s)
      else s)

end Sys2Proof.Machine
end

