-- ==== Sys2Proof/Machine/Engines.lean ====
section
/-! DEFINITION. Steps of the matrix engines (05 R120 to R134): descriptors and their checks at issue, rotation,
quantisation, update, products, parity; and the effects of writes to the ENG pages. -/
namespace Sys2Proof.Machine

open Sys2Proof

/-- A counter rises by `n`, and its event occurs if `n` is not zero. -/
def bumpEv (p o b n : Nat) (s : State) : State := if n = 0 then s else event p b (bump p o n s)

/-! ## Engine descriptors (Table 5.2) -/

/-- First entry and entries of a job's partition (Table 5.14). -/
def State.edtBase (s : State) (d j : Nat) : Nat := s.regF (pgENG d) (0x200 + 0x10 * j) 16 6 * 64
def State.edtSize (s : State) (d j : Nat) : Nat := s.regF (pgENG d) (0x200 + 0x10 * j) 0 7 * 64

/-- The 16 words of an entry of a job's partition. -/
def State.edWords (s : State) (d j edx : Nat) : List Word :=
  (List.range 16).map fun w => s.reg (pgENG d) (0x120 + 4 * w) (s.edtBase d j + edx)

def edF (e : List Word) (w lo n : Nat) : Nat := fld (e.getD w 0) lo n
def edKind (e : List Word) : Nat := edF e 0 0 4
def edInverse (e : List Word) : Bool := edF e 0 4 1 = 1
def edMem (e : List Word) : Bool := edF e 0 7 1 = 1
def edFmtIn (e : List Word) : Nat := edF e 0 8 4
def edFmtOut (e : List Word) : Nat := edF e 0 12 4
def edClip (e : List Word) : Nat := edF e 0 16 4
def edGuard (e : List Word) : Nat := edF e 0 20 8
def edOpt (e : List Word) : Nat := edF e 1 0 4
def edNoret (e : List Word) : Bool := edF e 1 4 1 = 1
def edHpset (e : List Word) : Nat := edF e 1 8 8
def edState (e : List Word) : Nat := (pairW (e.getD 3 0) (e.getD 2 0)).toNat
def edM (e : List Word) : Nat := (e.getD 4 0).toNat
def edN (e : List Word) : Nat := (e.getD 5 0).toNat
def edK (e : List Word) : Nat := (e.getD 6 0).toNat
def edIter (e : List Word) : Nat := edF e 7 2 4
def edTb (e : List Word) : Bool := edF e 7 1 1 = 1
def edTa (e : List Word) : Bool := edF e 7 0 1 = 1
def edA (e : List Word) : Nat := (pairW (e.getD 9 0) (e.getD 8 0)).toNat
def edB (e : List Word) : Nat := (pairW (e.getD 11 0) (e.getD 10 0)).toNat
def edC (e : List Word) : Nat := (pairW (e.getD 13 0) (e.getD 12 0)).toNat
def edAlpha (e : List Word) : Word := e.getD 14 0
def edBeta (e : List Word) : Word := e.getD 15 0

/-- The bits that a kind uses (Table 5.3); all others are reserved for it. -/
def edMask (kind : Nat) : List Word :=
  let f : Word := 0xFFFFFFFF
  match kind with
  | 0 => [0x1F, 0, 0, 0, 0, 0, 0, 0, 0, 0, 0, 0, 0, 0, 0, 0]
  | 1 => [0x0FFFF00F, 0, f, f, 0, 0, 0, 0, 0, 0, 0, 0, 0, 0, 0, 0]
  | 2 => [0xF08F, 0xFF1F, f, f, 0, 0, 0, 0, 0, 0, 0, 0, 0, 0, 0, 0]
  | 3 => [0xF, 0, 0, 0, f, f, 0, 0x3D, f, f, f, f, f, f, 0, 0]
  | 4 => [0xF0F, 0, 0, 0, f, f, f, 0, f, f, f, f, f, f, 0, 0]
  | 5 => [0xF0F, 0, 0, 0, f, f, f, 0x3, f, f, f, f, f, f, f, f]
  | _ => [0, 0, 0, 0, 0, 0, 0, 0, 0, 0, 0, 0, 0, 0, 0, 0]

/-- A dimension lies in 1 to 65,536. -/
def dimOk (n : Nat) : Bool := 1 ≤ n && n ≤ 65536

/-- The kind belongs to the opcode, its reserved fields are zero, its formats and shapes are allowed (R126, R128). -/
def edFormOk (opcode : Nat) (e : List Word) : Bool :=
  let k := edKind e
  ((opcode = 1 && k = 0) || (opcode = 2 && k = 1) || (opcode = 8 && 2 ≤ k && k ≤ 5)) &&
  ((e.zip (edMask k)).all fun p => (p.1 &&& ~~~ p.2) = 0) &&
  (match k with
   | 1 => (match fmtOf (edFmtOut e) with | some f => f.line | none => false)
   | 2 => edOpt e ≤ 4 && edFmtOut e ≤ 2
   | 3 =>
     let m := if edTa e then edN e else edM e
     let n := if edTa e then edM e else edN e
     dimOk (edM e) && dimOk (edN e) && 1 ≤ edIter e && m ≤ 16384 && m ≤ n
   | 4 => edFmtIn e ≤ 9 && dimOk (edM e) && dimOk (edN e) && dimOk (edK e) && edK e ≤ 128
   | 5 => edFmtIn e ≤ 9 && dimOk (edM e) && dimOk (edN e) && dimOk (edK e)
   | _ => true)

/-- The format of a product's operands; a code that edFormOk refuses reads FP32. -/
def edOperand (e : List Word) : Fmt := (fmtOf (edFmtIn e)).getD .f32

/-- The ranges that a product kind reads and writes: address and bytes. -/
def edRanges (e : List Word) : List (Nat × Nat) :=
  let f := edOperand e
  match edKind e with
  | 3 =>
    let m := if edTa e then edN e else edM e
    let n := if edTa e then edM e else edN e
    [(edA e, 4 * m * n), (edB e, 8 * m * m + 4 * m * n), (edC e, 4 * m * n)]
  | 4 =>
    [(edA e, matBytes f true (edM e) (edN e)), (edB e, matBytes f false (edN e) (edK e)),
     (edC e, 4 * edM e * edK e + 4 * edN e * edK e)]
  | 5 =>
    [(edA e, matBytes f (!edTa e) (if edTa e then edN e else edM e) (if edTa e then edM e else edN e)),
     (edB e, matBytes f (edTb e) (if edTb e then edK e else edN e) (if edTb e then edN e else edK e)),
     (edC e, 4 * edM e * edK e)]
  | _ => []

/-- A kind that uses no wave requires WAVE = 0, and one with another WAVE ends BAD_EDESC (log 143); its ranges lie inside the job's HBM range. -/
def State.edPlaceOk (s : State) (d : Desc) (e : List Word) : Bool :=
  edKind e < 3 || (d.wave = 0 && (edRanges e).all fun r => s.hbmOk d.job.val r.1 r.2)

/-! ## Issue (R122, R123, R128) -/

/-- The engine operations of a die. -/
def isEngOp (d : Nat) (e : Entry) : Bool := e.d.unit = d && (e.d.opcode = 1 || e.d.opcode = 2 || e.d.opcode = 8)

/-- Bound quantised-block buffers of a die. -/
def State.qbUsed (s : State) (d : Nat) : Nat := s.eng.qbs.countP fun kv => kv.1 / 2 = d

/-- A QUANT becomes ACTIVE only when a buffer is free (R132); while none is, later operations pass it (log 131). -/
def State.engReady (s : State) (d : Nat) (e : Entry) : Bool := isEngOp d e && (e.d.opcode ≠ 2 || s.qbUsed d < 2)

/-- The complex's next operation, with its descriptor; at most 4 are ACTIVE. -/
def State.engNext (s : State) (d : Nat) : Option (Entry × List Word) :=
  if (s.activeOf (isEngOp d)).length ≥ 4 then none
  else (s.pick 1 d (s.engReady d)).map fun e => (e, s.edWords d e.d.job.val e.d.edx)

def badEdesc (e : Entry) (s : State) : State :=
  raiseCap (pgENG e.d.unit) 0x814 5 (wd (e.d.job.val + 8 * e.d.edx)) 0 (faultOp e.id 0x14 0 s)

def badWave (e : Entry) (s : State) : State := raiseEv (pgENG e.d.unit) 0x818 6 (faultOp e.id 0x15 0 s)

/-- The requester port of an engine at an HBM address (14 R349). -/
def State.engPort (s : State) (d a : Nat) : Nat := if s.hbmDie a = d then 0 else 2

/-- The range of one of the two memories lies in the job's fence (R128, 14 R359). -/
def State.stateOk (s : State) (lp : Bool) (j a n : Nat) : Bool := if lp then s.mirOk false j a n else s.hbmOk j a n
def State.stateBad (s : State) (lp : Bool) (a n : Nat) : Bool := if lp then s.lpBad a n else s.hbmBad a n
def State.stateRead (s : State) (lp : Bool) (a n : Nat) : List Byte := if lp then s.lpRead a n else s.hbmRead a n
def stateWrite (lp : Bool) (a : Nat) (bs : List Byte) (s : State) : State := if lp then lpWrite a bs s else hbmWrite a bs s

/-- An uncorrectable read ends an engine operation with MEM_UE (14 Table 14.3). -/
def engUe (e : Entry) (lp : Bool) (a n : Nat) (s : State) : State :=
  faultOp e.id 0x1F 0 (if lp then reportLp a n 0 s else reportHbm a n (s.engPort e.d.unit a) s)

/-- Runs `f` unless a poisoned unit lies in the range. -/
def unlessUe (e : Entry) (lp : Bool) (a n : Nat) (f : State → State) (s : State) : State :=
  if s.stateBad lp a n then engUe e lp a n s else f s

/-- The wave of an operation, when the job holds it on the die with the content that the kind takes (R127, R128), and no
slot of it is POISONED (R116, R117). -/
def withWave (e : Entry) (c : Content) (f : Wave → State → State) (s : State) : State :=
  match s.waveOn e.d with
  | none => badWave e s
  | some w => if w.content ≠ c then badWave e s else if s.wavePoisoned w then poisonFault e.id w s else f w s

/-- Issues the complex's next operation if the row serves its kind, and runs it. -/
def engIssue (d : Nat) (serves : Nat → Nat → Bool) (run : Entry → List Word → State → State) (s : State) : State :=
  match s.engNext d with
  | none => s
  | some (e0, ws) =>
    if !serves e0.d.opcode (edKind ws) then s
    else
      let e := { e0 with edesc := ws }
      let s1 := updEntry e.id (fun x => { x with edesc := ws }) (issue 1 d e0 s)
      if s.regF (pgENG d) 0x100 0 8 = 0 then faultOp e.id 0x13 0 s1
      else if !edFormOk e.d.opcode ws || !s.edPlaceOk e.d ws then badEdesc e s1
      else run e ws s1

/-! ## Rotation (03 R65, R66, R130) -/

/-- The elements of a wave, first to last of its ream. -/
def State.waveVals (s : State) (j : Nat) (w : Wave) : List Dy :=
  (List.range (s.waveElems j w)).map fun i =>
    let p := w.at (w.ebase * 8192 + i)
    accDy (s.accAt w.die p.1 p.2) (s.floorF j w.ream)

/-- Rotates the groups of a wave. -/
def rotWave (inverse : Bool) (rs : DWord) (g0 : Nat) (xs : List Dy) : Written :=
  let gs := (chunks 256 xs.length xs).zipIdx.map fun p =>
    rotGroup inverse ((List.range 256).map fun j => rotNeg rs (g0 + p.2) j) p.1
  { ws := gs.flatMap Written.ws, sat := gs.foldl (fun a g => a + g.sat) 0, nonfin := gs.foldl (fun a g => a + g.nonfin) 0 }

/-- Writes staged FP32 values into the accumulators of a wave (R127, R130). -/
def putStaged (w : Wave) (ws : List Word) (s : State) : State :=
  ws.zipIdx.foldl (fun t p =>
    let q := w.at (w.ebase * 8192 + p.2)
    setAcc w.die q.1 q.2 (p.1.setWidth 64) t) s

def hadamardOp (e : Entry) (ws : List Word) (s : State) : State :=
  let j := e.d.job.val
  withWave e .int (fun w t =>
    let r := w.round.toNat
    let o := rotWave (edInverse ws) (seedRot j e.d.ream r) (w.ebase * 32) (t.waveVals j w)
    let t1 := bumpEv (pgENG e.d.unit) 0x800 0 o.sat (bumpEv (pgENG e.d.unit) 0x820 8 o.nonfin t)
    let t2 :=
      if edInverse ws then updWave j e.d.wave (fun x => { x with content := .staged }) (putStaged w o.ws t1)
      else o.ws.zipIdx.foldl (fun u p =>
        let el := w.ebase * 8192 + p.2
        vatReplace j w el (f32Dy p.1) (draw24 (s.seedLocal j e.d.ream r) el) u) t1
    setWork e.id .finished t2) s

/-- HADAMARD: a ROTATE (R129, R130). -/
def execHadamard (d : Die) (s : State) : Res := .next (engIssue d.val (fun op _ => op = 1) hadamardOp s)

/-! ## Quantisation (R131, R132) -/

/-- A field of a state header (08 Table 8.4). -/
def State.hdrNat (s : State) (lp : Bool) (base o n : Nat) : Nat := leNat (s.stateRead lp (base + o) n)

/-- BF16 codes of a residual array. -/
def bf16At (bs : List Byte) (i : Nat) : Nat := leAt bs (2 * i) 2

/-- A BF16 code as an FP32 word. -/
def f32OfBf16 (c : Nat) : Word := wd (c * 2 ^ 16)

/-- A free quantised-block buffer of a die. -/
def State.qbFreeIx (s : State) (d : Nat) : Nat := if (SMap.find s.eng.qbs (qbKey d 0)).isNone then 0 else 1

/-- The quantiser's inputs x = y + e_old in FP32 (03 R70), with the clamped and the non-finite ones. -/
def quantInputs (ys : List Dy) (eold : List Byte) : Written :=
  let ps := ys.zipIdx.map fun p =>
    let y := f32Sat p.1
    let x := f32Fin (f32Add y.1 (f32OfBf16 (bf16At eold p.2)))
    (x.1, b2n y.2 + x.2.1, x.2.2)
  { ws := ps.map fun p => p.1, sat := ps.foldl (fun a p => a + p.2.1) 0, nonfin := ps.foldl (fun a p => a + p.2.2) 0 }

/-- The residuals x − x̂ in BF16 (03 R77), and how many were clamped. -/
def residuals (xs : List Word) (dec : List Dy) : List Byte × Nat :=
  let cs := (xs.zip dec).map fun p => fmtBf16.encSat ((f32Dy p.1).sub p.2)
  (cs.flatMap fun c => natLE 2 c.1, cs.countP fun c => c.2)

/-- The events of a QUANT: regrades, escape overflows, saturations, non-finite inputs, conversions, and a guard at its top. -/
def quantEvents (e : Entry) (steps esc sat nonfin conv : Nat) (top : Bool) (s : State) : State :=
  let p := pgENG e.d.unit
  let s1 := bumpEv p 0x80C 3 steps (bumpEv p 0x808 2 esc (bumpEv p 0x804 1 sat (bumpEv p 0x820 8 nonfin (bumpEv p 0x800 0 conv s))))
  if top then raiseCap p 0x810 4 (wd (e.d.ream + e.d.wave * 2 ^ 10)) 0 s1 else s1

/-- The format that a wave's coding starts in: the one its ream has regraded to in the round, or the descriptor's (R131). -/
def State.quantStart (s : State) (k : Nat) (w : Wave) (ws : List Word) : Fmt :=
  (fmtOf (match SMap.find s.eng.grade k with
    | some g => if g.1 = w.round then g.2 else edFmtOut ws
    | none => edFmtOut ws)).getD .f32

/-- Quantises a wave whose inputs and residuals can be read. The exception handler adds the re-grades, escape overflows and guard
tops to the ream's statistics, while the job's HANDLER is 1 (R142, Table 5.10). -/
def quantRun (e : Entry) (ws : List Word) (w : Wave) (raddr : Nat) (s : State) : State :=
  let j := e.d.job.val
  let r := w.round.toNat
  let k := reamIx j e.d.ream
  let e0 := w.ebase * 8192
  let n := s.waveElems j w
  let x := quantInputs (s.waveVals j w) (s.hbmRead raddr (2 * n))
  let us := (List.range n).map fun i => draw24 (s.seedLine j e.d.ream r) (e0 + i)
  let q := quantWave 12 (s.quantStart k w ws) (edClip ws) (edGuard ws) x.ws us 0
  let res := residuals x.ws (q.sheets.flatMap QSheet.dec)
  let conv := q.sheets.foldl (fun a b => a + b.conv) 0
  let sat := q.sheets.foldl (fun a b => a + b.sat) 0
  let esc := q.sheets.foldl (fun a b => a + b.escOvf) 0
  let s1 := hbmWrite raddr res.1 s
  let s2 := s1.updEng fun g =>
    { g with
      qbs := g.qbs.map fun kv => if kv.2.quant = e.id then (kv.1, { kv.2 with sheets := q.sheets.map QSheet.raw }) else kv
      grade := if q.steps > 0 then SMap.put k (w.round, q.fmt.code) g.grade else g.grade }
  let h := s.regF (pgGC e.d.unit) (0x214 + 0x20 * j) 0 1
  let s3 := updStats j e.d.ream (fun t =>
    { t with
      regrade := t.regrade + h * q.steps, escOvf := t.escOvf + h * esc, guardTop := t.guardTop + h * b2n q.top
      t4Sat := t.t4Sat + sat }) s2
  setWork e.id .finished (quantEvents e q.steps esc sat x.nonfin (x.sat + conv + res.2) q.top s3)

def quantiseOp (e : Entry) (ws : List Word) (s : State) : State :=
  let j := e.d.job.val
  let d := e.d.unit
  let base := edState ws
  if (s.qbOf d j e.d.quantQbid).isSome then faultOp e.id 0x16 0 s
  else if !s.hbmOk j base 0x1000 then badEdesc e s
  else unlessUe e false base 0x1000 (fun t0 =>
    let off := t0.hdrNat false base 0x10 8
    if off = 0 || !t0.hbmOk j (base + off) (2 * t0.npad j e.d.ream) then badEdesc e t0
    else withWave e .int (fun w t =>
      let raddr := base + off + 2 * (w.ebase * 8192)
      unlessUe e false raddr (2 * t.waveElems j w) (fun u =>
        quantRun e ws w raddr (u.updEng fun g =>
          { g with qbs := SMap.put (qbKey d (u.qbFreeIx d)) { job := j, qbid := e.d.quantQbid, quant := e.id } g.qbs })) t) t0) s

/-- QUANTISE: a QUANT (R131, R132). -/
def execQuantise (d : Die) (s : State) : Res := .next (engIssue d.val (fun op _ => op = 2) quantiseOp s)

/-! ## Update (R133, 08 R205 to R211) -/

/-- The ream entry of the mirrored position's OCB (16 R403). -/
def State.mirReam (s : State) (j r : Nat) : List Byte :=
  s.hbmRead ((s.reg64 pgMGMT (0x200 + 0x10 * j)).toNat + 0x80 + 32 * r) 32

/-- The ream entry that gives an ORTHO_APPLY of an enabled job its tile: the job's own, or the mirrored position's for a replay
(R211). -/
def State.orthoReam (s : State) (j r : Nat) (mirror : Bool) : Option (List Byte) :=
  if (SMap.find s.outer.ocb j).isNone then none
  else
    match (if mirror then some (s.mirReam j r) else s.ocbReam j r) with
    | none => none
    | some e => if leAt e 0 1 % 16 = 3 then some e else none

/-- κ × sqrt(max(rows, cols)) of a wave's tile (R211, R213). -/
def orthoSigma (kappa : Word) (ocl vslots : Nat) : Word :=
  let cols := 2 ^ (6 + ocl)
  f32Mul kappa (f32Sqrt (f32OfNat (max (8192 * vslots / cols) cols)))

/-- The hyperparameter set's address (R209). -/
def State.hpAddr (s : State) (j set : Nat) : Nat := (s.reg64 pgOUTER (0x20C + 0x40 * j)).toNat + 32 * set

/-- FP32 words of an array. -/
def f32Words (bs : List Byte) : List Word := (List.range (bs.length / 4)).map fun i => wAt bs (4 * i)

/-- θ in a return format (03 R62): its bytes, and the elements clamped. -/
def returnBytes (f : Fmt) (ths : List Word) : List Byte × Nat :=
  let cs := ths.map fun w =>
    let z := f32Fin w
    if f = .f32 then (z.1.toNat, z.2.1) else let c := f.elem.encSat (f32Dy z.1); (c.1, z.2.1 + b2n c.2)
  (cs.flatMap fun c => natLE f.blkBytes c.1, cs.foldl (fun a c => a + c.2) 0)

/-- Writes RETURN content: element `i` of a slot at byte w × i (R127). -/
def putReturn (w : Wave) (width : Nat) (bytes : List Byte) (s : State) : State :=
  (chunks (8192 * width) bytes.length bytes).zipIdx.foldl (fun t p =>
    (chunks 8 p.1.length p.1).zipIdx.foldl (fun u q =>
      setAcc w.die (w.slots.getD p.2 0) q.2 (BitVec.ofNat 64 (leNat q.1)) u) t) s

/-- The arrays of an UPDATE: θ, m and the second array, by their addresses of the wave's first element. -/
structure UpdArr where
  lp : Bool
  th : Option Nat
  m : Option Nat
  v : Option Nat
  deriving DecidableEq, Repr

def State.arrRead (s : State) (lp : Bool) (a : Option Nat) (n : Nat) : List Word :=
  match a with
  | none => List.replicate n 0
  | some x => f32Words (s.stateRead lp x (4 * n))

/-- Runs `f` unless a poisoned unit lies in the first `n` elements of an array that the step uses. -/
def unlessArr (e : Entry) (lp : Bool) (a : Option Nat) (n : Nat) (f : State → State) (s : State) : State :=
  match a with
  | none => f s
  | some x => unlessUe e lp x (4 * n) f s

def arrWrite (lp : Bool) (a : Option Nat) (ws : List Word) (s : State) : State :=
  match a with
  | none => s
  | some x => stateWrite lp x (ws.flatMap fun w => natLE 4 w.toNat) s

/-- Runs the step over a wave's elements. -/
def updRun (e : Entry) (ws : List Word) (h : UpdHp) (ar : UpdArr) (w : Wave) (n : Nat) (s : State) : State :=
  let j := e.d.job.val
  let xs := (List.range n).map fun i => let p := w.at (w.ebase * 8192 + i); loW (s.accAt w.die p.1 p.2)
  let th := s.arrRead ar.lp ar.th n
  let m := s.arrRead ar.lp ar.m n
  let v := s.arrRead ar.lp ar.v n
  let rs := ((xs.zip th).zip (m.zip v)).map fun p => updEl h p.1.1 p.1.2 p.2.1 p.2.2
  let s1 := if h.opt = 3 then s else arrWrite ar.lp ar.th (rs.map fun r => r.1.1) s
  let s2 := if h.opt = 1 || h.opt = 2 || h.opt = 3 then arrWrite ar.lp ar.m (rs.map fun r => r.1.2.1) s1 else s1
  let s3 := if h.opt = 2 then arrWrite ar.lp ar.v (rs.map fun r => r.1.2.2) s2 else s2
  let s4 := bumpEv (pgENG e.d.unit) 0x820 8 (rs.foldl (fun a r => a + r.2) 0) s3
  let s5 :=
    if edNoret ws then s4
    else
      let f := (fmtOf (edFmtOut ws)).getD .f32
      let rb := returnBytes f (rs.map fun r => r.1.1)
      updWave j e.d.wave (fun x => { x with content := .ret, retW := f.blkBytes })
        (putReturn w f.blkBytes rb.1 (bumpEv (pgENG e.d.unit) 0x800 0 rb.2 s4))
  setWork e.id .finished s5

/-- An UPDATE: its state header, its arrays, its hyperparameter set and its wave are checked, and it runs (R208, R209,
R211). -/
def updateOp (e : Entry) (ws : List Word) (s : State) : State :=
  let j := e.d.job.val
  let lp := edMem ws
  let base := edState ws
  let hp := s.hpAddr j (edHpset ws)
  if !s.stateOk lp j base 0x1000 || !s.hbmOk j hp 32 then badEdesc e s
  else unlessUe e lp base 0x1000 (fun t0 => unlessUe e false hp 32 (fun t1 =>
    let opt := edOpt ws
    let nd := optNeeds opt (!edNoret ws)
    let np := t1.hdrNat lp base 0x28 8
    let tho := t1.hdrNat lp base 0 8
    let mo := t1.hdrNat lp base 8 8
    let so := t1.hdrNat lp base 0x18 8
    let ok (need : Bool) (o : Nat) : Bool := !need || (o ≠ 0 && t1.stateOk lp j (base + o) (4 * np))
    let hw (o : Nat) : Word := t1.hbmWord (hp + o)
    let hd (o : Nat) : Word := wd (t1.hdrNat lp base o 4)
    let h : UpdHp := { opt := opt, eta := hw 0, mu := hw 4, beta1 := hw 8, beta2 := hw 0xC, eps := hw 0x10, wd := hw 0x14,
                       rn := hd 0x30, p1 := hd 0x34, p2 := hd 0x38 }
    let oe := t1.orthoReam j e.d.ream ((t1.waveOn e.d).any fun w => w.mir.isSome)
    if !ok nd.1 tho || !ok nd.2.1 mo || !ok nd.2.2 so ||
        (opt = 2 && !(f32Lt h.beta1 f32One && f32Lt h.beta2 f32One)) || (opt = 4 && oe.isNone) then badEdesc e t1
    else withWave e .staged (fun w t =>
      let e0 := w.ebase * 8192
      let n := min (t.waveElems j w) (np - e0)
      let at_ (need : Bool) (o : Nat) : Option Nat := if need then some (base + o + 4 * e0) else none
      let ar : UpdArr := { lp := lp, th := at_ nd.1 tho, m := at_ nd.2.1 mo, v := at_ nd.2.2 so }
      let ocl := match oe with | some b => leAt b 4 4 / 2 ^ 16 % 16 | none => 0
      let h1 := { h with sigma := if opt = 4 then orthoSigma (hw 0x18) ocl w.slots.length else 0 }
      unlessArr e lp ar.th n (unlessArr e lp ar.m n (unlessArr e lp ar.v n (updRun e ws h1 ar w n))) t) t1) t0) s

/-- UPDATE: an APPLY, whatever its KIND, that is not one of the three product kinds (R133, R128). -/
def execUpdate (d : Die) (s : State) : Res :=
  .next (engIssue d.val (fun op k => op = 8 && !(k = 3 || k = 4 || k = 5)) updateOp s)

/-! ## Products (R134, "Projection and general products") -/

/-- Writes FP32 results, counting what R62 counts. -/
def putMat (d a : Nat) (r : Written) (s : State) : State :=
  bumpEv (pgENG d) 0x820 8 r.nonfin (bumpEv (pgENG d) 0x800 0 r.sat (hbmWrite a (r.ws.flatMap fun w => natLE 4 w.toNat) s))

/-- Bytes of the scratch area after NS_ORTHO, which the spec leaves open: free values (log 24). -/
def scratchBytes (ctr n : Nat) : List Byte := (List.range n).map fun i => Config.freeByte ctr i

def nsOrthoOp (e : Entry) (ws : List Word) (s : State) : State :=
  let m := edM ws
  let n := edN ws
  unlessUe e false (edA ws) (4 * m * n) (fun t =>
    let r := nsOrtho m n (edIter ws) (edTa ws) (f32Words (t.hbmRead (edA ws) (4 * m * n)))
    let k := min m n
    let sc := 8 * k * k + 4 * m * n
    let t1 := hbmWrite (edB ws) (scratchBytes t.freeCtr sc) { t with freeCtr := t.freeCtr + 1 }
    setWork e.id .finished (putMat e.d.unit (edC ws) (written r.1) (bumpEv (pgENG e.d.unit) 0x800 0 r.2 t1))) s

/-- NS_ORTHO (R134). -/
def execNsOrtho (d : Die) (s : State) : Res := .next (engIssue d.val (fun op k => op = 8 && k = 3) nsOrthoOp s)

def projectOp (e : Entry) (ws : List Word) (s : State) : State :=
  let m := edM ws
  let n := edN ws
  let k := edK ws
  let f := edOperand ws
  let la := matBytes f true m n
  let lb := matBytes f false n k
  unlessUe e false (edA ws) la (unlessUe e false (edB ws) lb (fun t =>
    let a := matOf f true m n (t.hbmRead (edA ws) la)
    let b := matOf f false n k (t.hbmRead (edB ws) lb)
    let p := written (gramSchmidt k k 0 (matMul f.blk a b))
    let pm := matF32 m k p.ws
    let q := written (matMul 1 a.tr pm)
    let t1 := bumpEv (pgENG e.d.unit) 0x800 0 (a.sat + b.sat + a.sat + pm.sat) t
    setWork e.id .finished (putMat e.d.unit (edC ws + 4 * m * k) q (putMat e.d.unit (edC ws) p t1)))) s

/-- PROJECT. -/
def execProject (d : Die) (s : State) : Res := .next (engIssue d.val (fun op k => op = 8 && k = 4) projectOp s)

def gemmOp (e : Entry) (ws : List Word) (s : State) : State :=
  let m := edM ws
  let n := edN ws
  let k := edK ws
  let f := edOperand ws
  let la := matBytes f (!edTa ws) (if edTa ws then n else m) (if edTa ws then m else n)
  let lb := matBytes f (edTb ws) (if edTb ws then k else n) (if edTb ws then n else k)
  let lc := if f32Zero (edBeta ws) then 0 else 4 * m * k
  unlessUe e false (edA ws) la (unlessUe e false (edB ws) lb (unlessUe e false (edC ws) lc (fun t =>
    let ba := t.hbmRead (edA ws) la
    let bb := t.hbmRead (edB ws) lb
    let a := if edTa ws then (matOf f false n m ba).tr else matOf f true m n ba
    let b := if edTb ws then (matOf f true k n bb).tr else matOf f false n k bb
    let c := f32Words (t.hbmRead (edC ws) lc)
    let t1 := bumpEv (pgENG e.d.unit) 0x800 0 (a.sat + b.sat) t
    setWork e.id .finished
      (putMat e.d.unit (edC ws) (written (gemmOut (edAlpha ws) (edBeta ws) (matMul f.blk a b) c)) t1)))) s

/-- GEMM. -/
def execGemm (d : Die) (s : State) : Res := .next (engIssue d.val (fun op k => op = 8 && k = 5) gemmOp s)

/-! ## Parity and service (R123) -/

/-- ENG_PARITY (R123): the operation that the engine held faults, also where its unit has finished and it is still ACTIVE (log 142),
and the engine leaves service. -/
def execEngParity (d : Die) (e : Fin 8) (held : Option Nat) (s : State) : Res :=
  if s.pageOff (pgENG d.val) || !bit (s.reg (pgENG d.val) 0x100) e.val then .next s
  else
    let s1 := match held with
      | some id =>
        (match s.entry? id with
         | some x => if isEngOp d.val x && x.st = OpSt.active then faultOp id 0x12 0 s else s
         | none => s)
      | none => s
    .next (raiseEv (pgENG d.val) 0x81C 7
      (s1.setReg (pgENG d.val) 0x100 (setBit (s.reg (pgENG d.val) 0x100) e.val false)))

/-! ## Writes to the ENG pages (Table 5.11) -/

/-- A write of ENG_Jn_EDT (R143). -/
def edtWr (d j : Nat) (v : Word) (s : State) : Eff :=
  let b := fld v 16 6
  let n := fld v 0 7
  let busy := (s.jobOps j).any fun e => e.d.opcode = 1 || e.d.opcode = 2 || e.d.opcode = 8
  let exc := (List.range 8).any fun i => i ≠ j && overlaps (b * 64) (n * 64) (s.edtBase d i) (s.edtSize d i)
  if busy then .error .edtBusy
  else if b + n > 64 then .error .valueRange
  else if exc then .error .edtOverlap
  else .ok (store (pgENG d) (0x200 + 0x10 * j) 0 v s)

def engEffect (p o ix : Nat) (v : DWord) (s : State) : Eff :=
  if 0x200 ≤ o && o < 0x280 then edtWr (pgInst p) ((o - 0x200) / 0x10) (loW v) s
  else .ok (store p o ix (loW v) s)

/-- ENG_STAT (Table 5.13). -/
def engView (s : State) (p o : Nat) (v : Word) : Word :=
  let d := pgInst p
  if o = 0x104 then
    wd ((s.activeOf (isEngOp d)).length + 2 ^ 16 * b2n (SMap.find s.eng.qbs (qbKey d 0)).isSome +
        2 ^ 17 * b2n (SMap.find s.eng.qbs (qbKey d 1)).isSome)
  else v

end Sys2Proof.Machine
end

