-- ==== Sys2Proof/Machine/SheetNum.lean ====
section
/-! DEFINITION. The sheet (06 R147 to R158): header, symbols, Rice coding, CRC-32C, packing and the decoder checks. -/
namespace Sys2Proof.Machine

open Sys2Proof

/-! ## CRC-32C (R156) -/

/-- One bit of the reflected CRC. -/
def crcBit (c : Word) : Word := if c.getLsbD 0 then (c >>> 1) ^^^ 0x82F63B78 else c >>> 1

def crcByte (c : Word) (b : Byte) : Word :=
  crcBit (crcBit (crcBit (crcBit (crcBit (crcBit (crcBit (crcBit (c ^^^ b.setWidth 32))))))))

def crc32c (bs : List Byte) : Word := bs.foldl crcByte 0xFFFFFFFF ^^^ 0xFFFFFFFF

/-! ## Formats on a sheet (Table 6.2, R151) -/

/-- Bytes of scale at the head of a block. -/
def Fmt.hdrBytes : Fmt → Nat
  | .t4 | .t2 | .t1 => 2
  | .mx8 | .mx6 | .mx4 | .mxi8 => 1
  | _ => 0

/-- A sheet of the format may be CODED. -/
def Fmt.mayCode : Fmt → Bool
  | .f32 | .bf16 | .f16 | .t1 => false
  | _ => true

/-- The largest symbol (Table 6.3). -/
def Fmt.maxSym : Fmt → Nat
  | .t4 => 15 | .t2 => 3 | .mxi8 => 254 | .e4m3 | .mx8 => 252 | .e5m2 => 246 | .mx6 => 62 | .mx4 => 14 | _ => 0

/-- The symbol of an integer. -/
def symInt (q : Int) : Nat := if q > 0 then (2 * q - 1).toNat else (-2 * q).toNat

/-- The symbol of an element code; 0 is a zero element. -/
def Fmt.sym (f : Fmt) (c : Nat) : Nat :=
  match f with
  | .t4 => if c = 8 then 15 else symInt (sext 4 c)
  | .t2 => if c = 2 then 3 else symInt (sext 2 c)
  | .mxi8 => symInt (sext 8 c)
  | _ => if f.elem.mag c = 0 then 0 else 2 * f.elem.mag c - 1 + b2n (f.elem.neg c)

/-- The code of a symbol of an integer. -/
def unsymInt (n u : Nat) : Nat := if u % 2 = 1 then twos n ((u + 1) / 2 : Nat) else twos n (-((u / 2 : Nat) : Int))

/-- The element code of a symbol. -/
def Fmt.unsym (f : Fmt) (u : Nat) : Nat :=
  if u = 0 then 0
  else
    match f with
    | .t4 => if u = 15 then 8 else unsymInt 4 u
    | .t2 => if u = 3 then 2 else unsymInt 2 u
    | .mxi8 => unsymInt 8 u
    | _ => f.elem.sign (u % 2 = 0) ((u + 1) / 2)

/-- Whether a code is a zero element, as ZCOUNT counts it (R151). -/
def Fmt.isZeroCode (f : Fmt) (c : Nat) : Bool :=
  match f with
  | .t1 => false
  | .f32 | .bf16 | .f16 => f.elem.mag c = 0
  | _ => f.sym c = 0

/-- The gateway writes the code (R158 check 4). -/
def Fmt.codeOk (f : Fmt) (c : Nat) : Bool :=
  match f with
  | .t1 => true
  | .f32 | .bf16 | .f16 => f.elem.finite c
  | _ => f.sym c ≤ f.maxSym

/-- The gateway writes the scale of a block. -/
def Fmt.scaleOk (f : Fmt) (sc : List Byte) : Bool :=
  match f.hdrBytes with
  | 2 => fmtBf16.finite (leNat sc)
  | 1 => sc ≠ [0xFF]
  | _ => true

/-! ## Raw form (R149, R150) -/

/-- Blocks of a sheet. -/
def Fmt.blocks (f : Fmt) (ecount : Nat) : Nat := ceilDiv ecount f.blk

/-- Raw bytes with `nesc` escapes (Table 6.2). -/
def Fmt.rawBytes (f : Fmt) (ecount nesc : Nat) : Nat :=
  f.blocks ecount * f.blkBytes + (if f = .t2 then 2 + 6 * nesc else 0)

/-- The element codes of a body of blocks, and the blocks' scales. -/
def rawBlocks (f : Fmt) (body : List Byte) : List (List Byte) := chunks f.blkBytes body.length body
def rawCodes (f : Fmt) (ecount : Nat) (body : List Byte) : List Nat :=
  ((rawBlocks f body).flatMap fun b =>
    if f.blk = 1 then [leNat b] else (List.range f.blk).map fun i => packedAt (b.drop f.hdrBytes) f.w i).take ecount
def rawScales (f : Fmt) (body : List Byte) : List Byte := (rawBlocks f body).flatMap fun b => b.take f.hdrBytes

/-- The body of a sheet from its scales and codes; elements beyond the count hold the zero code. -/
def bodyOf (f : Fmt) (scales : List Byte) (codes : List Nat) : List Byte :=
  if f.blk = 1 then codes.flatMap fun c => natLE f.blkBytes c
  else
    (List.range (f.blocks codes.length)).flatMap fun i =>
      (scales.drop (i * f.hdrBytes)).take f.hdrBytes ++
        packCodes f.w ((List.range f.blk).map fun j => (codes[i * f.blk + j]?).getD 0)

/-- The escape list. -/
def escBytes (esc : List (Nat × Word)) : List Byte :=
  natLE 2 esc.length ++ esc.flatMap fun e => natLE 2 e.1 ++ natLE 4 e.2.toNat

/-- The raw form as bytes. -/
def RawSheet.bytes (r : RawSheet) : List Byte :=
  match fmtOf r.fmt with
  | some .t2 => r.body ++ escBytes r.esc
  | _ => r.body

/-- The values of a sheet's elements, in order. -/
def RawSheet.vals (r : RawSheet) : List Dy :=
  match fmtOf r.fmt with
  | none => []
  | some f =>
    (rawBlocks f r.body).zipIdx.flatMap fun p =>
      match f with
      | .t4 | .t2 | .t1 =>
        decodeT f p.1 fun i => ((r.esc.find? fun e => e.1 = p.2 * 64 + i).map fun e => f32Dy e.2).getD Dy.zero
      | _ => (decodeBlk f p.1).map fun x => x.getD Dy.zero

/-! ## Rice codes (R152 to R154) -/

/-- `n` bits of a number, least significant first. -/
def bitsOf (n v : Nat) : List Bool := (List.range n).map fun i => v.testBit i

def riceLen (n k : Nat) : Nat := if n >>> k ≤ 15 then (n >>> k) + 1 + k else 29

def rice (n k : Nat) : List Bool :=
  let q := n >>> k
  if q ≤ 15 then List.replicate q true ++ [false] ++ bitsOf k (n % 2 ^ k)
  else List.replicate 16 true ++ bitsOf 13 n

/-- The runs and values of a sheet's symbols: (zeros before, u − 1) for every non-zero element, and the trailing zeros. -/
def runsOf : List Nat → Nat → List (Nat × Nat) × Nat
  | [], z => ([], z)
  | u :: us, z =>
    if u = 0 then runsOf us (z + 1)
    else let r := runsOf us 0; ((z, u - 1) :: r.1, r.2)

/-- The k of 0 to 7 that gives the least length, the smaller on a tie. -/
def bestK (ns : List Nat) : Nat :=
  let len (k : Nat) : Nat := ns.foldl (fun a n => a + riceLen n k) 0
  (List.range 8).foldl (fun b k => if len k < len b then k else b) 0

/-- Bytes of a bit string, bit 0 of a byte first, filled with zeros. -/
def packBits (bs : List Bool) : List Byte :=
  (chunks 8 bs.length bs).map fun c => BitVec.ofNat 8 (c.foldr (fun b a => b2n b + 2 * a) 0)

/-- The bit stream of a sheet's symbols. -/
def codeStream (us : List Nat) : List Byte :=
  let r := runsOf us 0
  let kz := bestK (r.1.map Prod.fst ++ [r.2])
  let kv := bestK (r.1.map Prod.snd)
  packBits (bitsOf 3 kz ++ bitsOf 3 kv ++ (r.1.flatMap fun p => rice p.1 kz ++ rice p.2 kv) ++ rice r.2 kz)

/-! ## Packing (R147, R155) -/

/-- The 12 header bytes that the CRC covers. -/
def sheetHead (f : Fmt) (stored : Bool) (ecount zcount elen : Nat) (sseq : Word) : List Byte :=
  natLE 4 (ecount * 2 ^ 8 + b2n stored * 16 + f.code) ++ natLE 4 (zcount * 2 ^ 16 + elen) ++ natLE 4 sseq.toNat

/-- A packed sheet, and whether it is STORED. `code`: it may be CODED. -/
def packSheet (code : Bool) (f : Fmt) (ecount : Nat) (r : RawSheet) (sseq : Word) : List Byte × Bool :=
  let codes := rawCodes f ecount r.body
  let raw := r.bytes
  let coded := rawScales f r.body ++ (if f = .t2 then escBytes r.esc else []) ++ codeStream (codes.map f.sym)
  let stored := !(code && f.mayCode && coded.length < raw.length)
  let pay := if stored then raw else coded
  let h := sheetHead f stored ecount (codes.countP f.isZeroCode) pay.length sseq
  (h ++ natLE 4 (crc32c (h ++ pay)).toNat ++ pay, stored)

/-- Fields of a sheet's header. -/
def shF (b : List Byte) (o lo n : Nat) : Nat := fld (wAt b o) lo n
def shEcount (b : List Byte) : Nat := shF b 0 8 13
def shStored (b : List Byte) : Bool := shF b 0 4 1 = 1
def shFmt (b : List Byte) : Option Fmt := fmtOf (shF b 0 0 4)
def shZcount (b : List Byte) : Nat := shF b 4 16 13
def shElen (b : List Byte) : Nat := shF b 4 0 15
def shSseq (b : List Byte) : Word := wAt b 8

/-- The CRC of a sheet matches (R157). -/
def crcOk (b : List Byte) : Bool := crc32c (b.take 12 ++ b.drop 16) = wAt b 12

/-- Cuts a string of whole sheets (R147); a rest that is no whole sheet is one piece. -/
def cutSheets : Nat → List Byte → List (List Byte)
  | 0, _ => []
  | n + 1, b => if b.isEmpty then [] else b.take (16 + shElen b) :: cutSheets n (b.drop (16 + shElen b))

/-! ## Decoder checks (R158) -/

/-- What a failed check counts (Table 6.6). -/
inductive Cause where
  | header | crc | code | length | count
  deriving DecidableEq, Repr

/-- The cause counter's offset (Table 6.11). -/
def Cause.off : Cause → Nat
  | .header => 0x804 | .crc => 0x808 | .code => 0x80C | .length => 0x810 | .count => 0x814

/-- Check 1; `short`: an ECOUNT below 4,096 is accepted (R225). -/
def headOk (short : Bool) (b : List Byte) : Bool :=
  match shFmt b with
  | none => false
  | some f =>
    let n := shEcount b
    let e := shElen b
    let sc := f.blocks n * f.hdrBytes
    16 ≤ b.length && (wAt b 0 &&& 0xFFE000E0) = 0 && (wAt b 4 &&& 0xE0008000) = 0 && f.line &&
    (n = 4096 || (short && 1 ≤ n && n < 4096)) && shZcount b ≤ n &&
    (if shStored b then
      (if f = .t2 then f.rawBytes n 0 ≤ e && (e - f.rawBytes n 0) % 6 = 0 && (e - f.rawBytes n 0) / 6 ≤ 64
       else e = f.rawBytes n 0)
     else f.mayCode && e < f.rawBytes n 64 && sc + 1 + (if f = .t2 then 2 else 0) ≤ e)

/-- The escape list at the head of a string: its entries and its bytes; none where it breaks R150. -/
def parseEsc (n : Nat) (b : List Byte) : Option (List (Nat × Word) × Nat) :=
  let k := leAt b 0 2
  let es := (List.range k).map fun i => (leAt b (2 + 6 * i) 2, wAt b (4 + 6 * i))
  if k ≤ 64 && 2 + 6 * k ≤ b.length && (es.all fun e => e.1 < n && f32Finite e.2) &&
      ((es.zip (es.drop 1)).all fun p => p.1.1 < p.2.1) then some (es, 2 + 6 * k)
  else none

/-- One Rice code from a bit string. -/
def unrice (k : Nat) (bs : List Bool) : Option (Nat × List Bool) :=
  let q := (bs.takeWhile id).length
  if q ≥ 16 then
    let t := bs.drop 16
    if t.length < 13 then none else some ((t.take 13).foldr (fun b a => b2n b + 2 * a) 0, t.drop 13)
  else
    let t := bs.drop (q + 1)
    if bs.length ≤ q || t.length < k then none
    else some (q * 2 ^ k + (t.take k).foldr (fun b a => b2n b + 2 * a) 0, t.drop k)

/-- How the decoding of a bit stream ended. -/
inductive StreamEnd where
  | ok (rest : List Bool)
  | bad (c : Cause)
  deriving DecidableEq, Repr

/-- Decodes the elements of a stream: the codes reached, and how it ended. -/
def unstream (f : Fmt) (kz kv : Nat) : Nat → Nat → List Bool → List Nat × StreamEnd
  | 0, _, _ => ([], .bad .count)
  | fuel + 1, left, bs =>
    match unrice kz bs with
    | none => ([], .bad .length)
    | some (z, bs1) =>
      if z > left then (List.replicate left 0, .bad .count)
      else if z = left then (List.replicate z 0, .ok bs1)
      else
        match unrice kv bs1 with
        | none => (List.replicate z 0, .bad .length)
        | some (v, bs2) =>
          if v + 1 > f.maxSym then (List.replicate z 0, .bad .code)
          else
            let r := unstream f kz kv fuel (left - z - 1) bs2
            (List.replicate z 0 ++ f.unsym (v + 1) :: r.1, r.2)

/-- Bits of bytes, bit 0 first. -/
def bitsOfBytes (bs : List Byte) : List Bool := bs.flatMap fun b => bitsOf 8 b.toNat

/-- Every ESC code has its escape (R150). -/
def escCovers (esc : List (Nat × Word)) (codes : List Nat) : Bool :=
  codes.zipIdx.all fun c => c.1 ≠ 2 || esc.any fun e => e.1 = c.2

/-- Checks 3 to 6 of a sheet whose header and CRC have passed: its raw form, or the cause of damage. In a last block, elements beyond
ECOUNT hold the zero code (R149). -/
def checkPayload (f : Fmt) (b : List Byte) : Except Cause RawSheet :=
  let n := shEcount b
  let pay := (b.drop 16).take (shElen b)
  let nb := f.blocks n
  let scales (sc : List Byte) : Bool := (chunks f.hdrBytes sc.length sc).all f.scaleOk
  if shStored b then
    let body := pay.take (nb * f.blkBytes)
    let esc := if f = .t2 then parseEsc n (pay.drop (nb * f.blkBytes)) else some ([], 0)
    match esc with
    | none => .error .code
    | some (es, _) =>
      let codes := rawCodes f n body
      let scs := rawScales f body
      if f = .t2 && (shElen b ≠ f.rawBytes n es.length || !escCovers es codes ||
          !(es.all fun e => codes[e.1]? = some 2)) then .error .code
      else if !codes.all f.codeOk || !(f.hdrBytes = 0 || scales scs) then .error .code
      else if codes.countP f.isZeroCode ≠ shZcount b then .error .count
      else .ok { fmt := f.code, body := bodyOf f scs codes, esc := es }
  else
    let sc := pay.take (nb * f.hdrBytes)
    let rest := pay.drop (nb * f.hdrBytes)
    match (if f = .t2 then parseEsc n rest else some ([], 0)) with
    | none => .error .code
    | some (es, len) =>
      if f = .t2 && shElen b ≥ f.rawBytes n es.length then .error .code
      else
        let bs := bitsOfBytes (rest.drop len)
        let kz := (bs.take 3).foldr (fun b a => b2n b + 2 * a) 0
        let kv := ((bs.drop 3).take 3).foldr (fun b a => b2n b + 2 * a) 0
        let r := unstream f kz kv (n + 1) n (bs.drop 6)
        if !(f.hdrBytes = 0 || scales sc) || (f = .t2 && !(escCovers es r.1 && es.all fun e => (r.1[e.1]?).getD 2 = 2)) then .error .code
        else
          match r.2 with
          | .bad c => .error c
          | .ok left =>
            if left.length ≥ 8 || left.any id then .error .length
            else if r.1.countP (fun c => f.sym c = 0) ≠ shZcount b then .error .count
            else .ok { fmt := f.code, body := bodyOf f sc r.1, esc := es }

/-- The decoder checks of Table 6.6, in order. -/
def checkSheet (short : Bool) (b : List Byte) : Except Cause RawSheet :=
  if !headOk short b then .error .header
  else if !crcOk b then .error .crc
  else match shFmt b with | none => .error .header | some f => checkPayload f b

end Sys2Proof.Machine
end

