-- ==== Sys2Proof/Machine/Vat.lean ====
section
/-! DEFINITION. Steps of the vat (04): collection, contributions, grants; and the effects of writes to the VAT pages. -/
namespace Sys2Proof.Machine

open Sys2Proof

/-- The operations that a die's vat serves (02 Table 2.2). -/
def isVatOp (d : Nat) (e : Entry) : Bool := e.d.unit = d && (e.d.opcode = 0 || e.d.opcode = 7)

/-- The vat's next operation (R45). -/
def State.vatPick (s : State) (d : Nat) : Option Entry := s.pick 0 d (isVatOp d)

/-- The ream begins to collect in a round (R93, 03 R84, Table 4.9): F takes F_NEXT, e_hi starts again, the window draws a
tag. -/
def roundBegin (j r round win : Nat) (s : State) : State :=
  if SMap.get (fun _ => 0) s.vat.collRound (reamIx j r) = round + 1 then s
  else
    let k := reamIx j r
    let hi (d : Nat) (l : SMap Int) : SMap Int :=
      match SMap.find s.vat.ehi (2 * k + d) with | some x => SMap.put (2 * k + d) x l | none => SMap.erase (2 * k + d) l
    newTag win (s.updVat fun v =>
      { v with
        fIn := SMap.set (fun _ => 0) k (s.regF (pgVAT 0) 0x184 10 9 k) v.fIn
        collRound := SMap.set (fun _ => 0) k (round + 1) v.collRound
        ehiLast := hi 1 (hi 0 v.ehiLast)
        ehi := SMap.erase (2 * k) (SMap.erase (2 * k + 1) v.ehi)
        nonfin := SMap.set (fun _ => false) k false v.nonfin })

/-- A COLLECT becomes ACTIVE (R98). -/
def collectOp (e : Entry) (s : State) : State :=
  let j := e.d.job.val
  let s1 := issue 0 e.d.unit e s
  match s.reduceWin j e.d.ream, s.wave? j e.d.wave with
  | none, _ => faultOp e.id 0x28 0 s1
  | _, none => faultOp e.id 0x15 0 s1
  | some win, some w =>
    let r := s.roundOf j e.d.ream
    let s2 := roundBegin j e.d.ream r win s1
    let cs := s.cmap j
    let w1 := { w with cset := cs, gone := 0, round := BitVec.ofNat 64 r, resends := 0, content := .int }
    collectEval j e.d.wave (grantAll j cs (s2.waveRec j w1 1) (putWave j e.d.wave w1 s2))

/-- COLLECT (R98). -/
def execCollect (d : Die) (s : State) : Res :=
  match s.vatPick d.val with
  | none => .next s
  | some e => .next (if e.d.opcode = 0 && !e.d.recollect then collectOp e s else s)

/-- A COLLECT with RECOLLECT = 1 becomes ACTIVE (R98, R108, R114, R117). One whose WAVE is no held wave of the ream with its
EBASE, or whose wave's COLLECT is still ACTIVE, ends FAULTED with WAVE_STATE (log 137). -/
def recollectOp (e : Entry) (s : State) : State :=
  let j := e.d.job.val
  let s1 := issue 0 e.d.unit e s
  match s.reduceWin j e.d.ream, s.waveOn e.d with
  | none, _ => faultOp e.id 0x28 0 s1
  | _, none => faultOp e.id 0x15 0 s1
  | some _, some w =>
    if w.ream ≠ e.d.ream || w.ebase ≠ e.d.ebase || (s.collectOf j e.d.wave).isSome then faultOp e.id 0x15 0 s1
    else if w.resends ≥ s.resendMax w.die then raiseEv (pgVAT w.die) 0x818 6 (faultOp e.id 0x11 0 s1)
    else collectEval j e.d.wave (resendReam j w.ream (putWave j e.d.wave { w with cset := w.cset &&& ~~~ w.gone } s1))

/-- RECOLLECT (R114). -/
def execRecollect (d : Die) (s : State) : Res :=
  match s.vatPick d.val with
  | none => .next s
  | some e => .next (if e.d.opcode = 0 && e.d.recollect then recollectOp e s else s)

/-- The first packet of a write into a reduction window: rows 1 and 2 of Table 4.2, else the message begins. -/
def contribFirst (q : BitVec 24) (h : Reth) (data : List Byte) (flips : List (Nat × DWord)) (s : State) : State :=
  let win := fld h.rkey 18 14
  let ctl := s.winCtl win
  let j := winJob ctl
  match s.ctIn j q, winFmt ctl with
  | some c, some f =>
    let base := (s.winBase win).toNat
    let off := h.va.toNat - base
    let ne := s.nelem j (winReam ctl)
    if !winValid ctl || winType ctl ≠ 0 || !s.qpOfJob j q then winNak q j win s
    else if h.va.toNat < base || !msgShapeOk f ne off h.len then winNak q j win s
    else
      let m : VMsg :=
        { qpn := q, win := win, job := j, off := off, endOff := off + h.len, stale := fld h.rkey 0 18 ≠ s.winTag win }
      contribPacket j c (winReam ctl) ne f data flips
        (s.updVat fun v => { v with msgs := SMap.put (ctIx j c) m v.msgs })
  | _, _ => winNak q j win s

/-- The message in progress of a queue pair: its contributor's key, and the message. -/
def State.msgOf (s : State) (q : BitVec 24) : Option (Nat × VMsg) := s.vat.msgs.find? fun kv => kv.2.qpn = q

/-- A later packet of a message in progress. -/
def contribMore (q : BitVec 24) (data : List Byte) (flips : List (Nat × DWord)) (s : State) : State :=
  match s.msgOf q with
  | none => s
  | some (k, m) =>
    let ctl := s.winCtl m.win
    match winFmt ctl with
    | none => s
    | some f => contribPacket (k / 512) (k % 512) (winReam ctl) (s.nelem (k / 512) (winReam ctl)) f data flips s

/-- CONTRIBUTION_WRITE (R95 to R97, R102, Table 4.2), on a queue pair that takes what arrives. -/
def execContributionWrite (qpn : BitVec 24) (reth : Option Reth) (data : List Byte) (flips : List (Nat × BitVec 64))
    (s : State) : Res :=
  .next (if !s.qpTakes qpn then s
    else match reth with
      | some h => contribFirst qpn h data flips s
      | none => contribMore qpn data flips s)

/-- GRANT_HOLD_RELEASE (R101). -/
def execGrantHoldRelease (j : Job) (c : Contrib) (s : State) : Res := .next (grantRelease j.val c.val s)

/-- A report of the highest GSEQ consumed (R101). -/
def gackOp (j : Nat) (q : BitVec 24) (off : Nat) (b : List Byte) (s : State) : State :=
  let c := off / 8
  let v := wAt b 0
  let bad := raiseEv (pgVAT 0) 0x834 11 s
  if off ≥ 0x1000 then s
  else if b.length ≠ 8 || off % 8 ≠ 0 || leAt b 4 4 ≠ 0 ||
      !(bit (s.ctQpn j c) 31 && fld (s.ctQpn j c) 0 24 = q.toNat) then bad
  else if !serialGt v (s.gackOf j c) then s
  else if serialGt v (s.gseqOf j c) then bad
  else
    let left := (s.unackOf j c).filter fun r => serialGt r.1 v
    s.updVat fun x =>
      { x with
        gack := SMap.set (fun _ => 0) (ctIx j c) v x.gack
        unack := if left.isEmpty then SMap.erase (ctIx j c) x.unack else SMap.put (ctIx j c) left x.unack }

/-- GACK_WRITE (R101), on a queue pair that takes what arrives. -/
def execGackWrite (j : Job) (qpn : BitVec 24) (off : Nat) (bytes : List Byte) (s : State) : Res :=
  .next (if s.qpTakes qpn then gackOp j.val qpn off bytes s else s)

/-! Writes to the VAT pages (Table 4.5). -/

/-- The window's ream has an ACTIVE COLLECT (R118). -/
def State.winBusy (s : State) (ix : Nat) : Bool :=
  let c := s.winCtl ix
  winValid c && winType c = 0 && !(s.collecting (winJob c) (winReam c)).isEmpty

/-- A write of VAT_WIN_CTL (R93, R94, R118). -/
def winCtlWr (ix : Nat) (v0 : Word) (s : State) : Eff :=
  let v := if winType v0 = 0 then v0 else setFld v0 16 10 0
  let dup := (s.regEntries (pgVAT 0) 0x114).any fun e =>
    e.1 ≠ ix && winValid e.2 && winType e.2 = 0 && winJob e.2 = winJob v && winReam e.2 = winReam v
  if winType v = 3 then .error .rsvdEnc
  else if winType v = 0 && fld v 12 4 > 8 then .error .valueRange
  else if fld v 12 4 > 11 then .error .rsvdEnc
  else if s.winBusy ix then .error .winBusy
  else if winValid v && winType v = 0 && dup then .error .winDup
  else
    let s1 := store (pgVAT 0) 0x114 ix v s
    .ok (if winValid v && !winValid (s.winCtl ix) then newTag ix s1 else s1)

/-- A write of VAT_Jn_QUOTA (R109). -/
def quotaWr (d j : Nat) (v : Word) (s : State) : Eff :=
  let others := (List.range 8).foldl (fun a i => if i = j then a else a + s.quota d i) 0
  if fld v 0 12 ≠ s.quota d j && (s.heldSlots d j > 0 || s.pendSlots d j > 0) then .error .quotaBusy
  else if others + fld v 0 12 > 2048 then .error .quotaOver
  else .ok (store (pgVAT d) (0x200 + 0x10 * j) 0 v s)

/-- A write of VAT_CT_GQPN: a replaced grant QP gets every unconsumed record again (R101). -/
def gqpnWr (ix : Nat) (v : Word) (s : State) : State :=
  let s1 := store (pgVAT 0) 0x138 ix v s
  if bit v 31 && v ≠ s.reg (pgVAT 0) 0x138 ix then
    forAll (s.unackOf (ix / 512) (ix % 512)) (fun r t => sendGrant (ix / 512) (ix % 512) r.1 r.2 t) s1
  else s1

/-- A write of a word of VAT_Jn_CMAP (R104). -/
def cmapWr (j k : Nat) (v : Word) (s : State) : State :=
  let o := 0x400 + 0x40 * j + 4 * k
  let gone := s.reg (pgVAT 0) o &&& ~~~ v
  cmapRemove j (BitVec.ofNat 512 (gone.toNat * 2 ^ (32 * k))) (store (pgVAT 0) o 0 v s)

/-- Effects of the VAT pages. -/
def vatEffect (p o ix : Nat) (v : DWord) (s : State) : Eff :=
  if o = 0x100 then .ok (store p o 0 (loW v) s)
  else if o = 0x114 then winCtlWr ix (loW v) s
  else if o = 0x118 then (if s.winBusy ix then .error .winBusy else .ok (storePair p o ix v s))
  else if o = 0x134 then
    (if (SMap.find s.vat.msgs ix).isSome then .error .winBusy else .ok (store p o ix (loW v) s))
  else if o = 0x138 then .ok (gqpnWr ix (loW v) s)
  else if o = 0x140 then .ok (storePair p o ix v s)
  else if o = 0x14C then
    (if 4 ≤ fld (loW v) 0 4 && fld (loW v) 0 4 ≤ 12 then .ok (store p o ix (loW v) s) else .error .badRing)
  else if o = 0x188 then
    (if (s.collecting (ix / 1024) (ix % 1024)).isEmpty then .ok (storePair p o ix v s) else .error .winBusy)
  else if 0x200 ≤ o && o < 0x280 then quotaWr (pgInst p) ((o - 0x200) / 0x10) (loW v) s
  else if 0x400 ≤ o && o < 0x600 then .ok (cmapWr ((o - 0x400) / 0x40) ((o - 0x400) % 0x40 / 4) (loW v) s)
  else .ok (store p o ix (loW v) s)

/-- Read-only views of the VAT pages. -/
def vatView (s : State) (p o ix : Nat) (v : Word) : Word :=
  let d := pgInst p
  let slots := s.vat.slots.filter fun kv => kv.1 / 2048 = d
  if o = 0x104 then wd ((slots.countP fun kv => kv.2.poisoned) * 2 ^ 16 + (2048 - slots.length))
  else if o = 0x108 then (match s.vat.poisonLast.getD d none with | some n => wd (2 ^ 31 + n) | none => 0)
  else if o = 0x120 then s.winKey ix
  else if o = 0x150 then s.gseqOf (ix / 512) (ix % 512)
  else if o = 0x154 then s.gackOf (ix / 512) (ix % 512)
  else if o = 0x184 then setFld v 20 9 (SMap.get (fun _ => 0) s.vat.fIn ix)
  else if 0x200 ≤ o && o < 0x280 && o % 0x10 = 4 then
    let j := (o - 0x200) / 0x10
    wd (s.committed d j * 2 ^ 16 + s.heldSlots d j)
  else v

end Sys2Proof.Machine
end

