-- ==== Sys2Proof/Machine/Sheets.lean ====
section
/-! DEFINITION. Steps of the sheet codecs (06 R157 to R170): packing, expansion into a wave or a stream, damaged sheets and
their refetch, parity; and the effects of writes to the SHEET pages. -/
namespace Sys2Proof.Machine

open Sys2Proof

/-! ## Issue (R164, R168) -/

/-- A PACK or EXPAND of a die. -/
def isCodecOp (d : Nat) (e : Entry) : Bool := e.d.unit = d && (e.d.opcode = 3 || e.d.opcode = 6)

/-- An EXPAND with REFETCH = 1 takes none of the four places (R160). -/
def isRefetch (e : Entry) : Bool := e.d.opcode = 6 && e.d.refetch

/-- ACTIVE PACK and EXPAND operations of a die. -/
def State.codecActive (s : State) (d : Nat) : Nat := (s.activeOf fun e => isCodecOp d e && !isRefetch e).length

/-- Bound couch-stage buffers of a die. -/
def State.cbUsed (s : State) (d : Nat) : Nat := s.sheet.cbs.countP fun kv => kv.1 / 2 = d

/-- A PACK becomes ACTIVE only when a couch-stage buffer is free; while none is, later operations pass it (log 131). -/
def State.codecReady (s : State) (d : Nat) (e : Entry) : Bool :=
  isCodecOp d e && (isRefetch e || (s.codecActive d < 4 && (e.d.opcode ≠ 3 || s.cbUsed d < 2)))

/-- The next operation that a die's codecs take. -/
def State.codecPick (s : State) (d : Nat) : Option Entry := s.pick 2 d (s.codecReady d)

/-- Issues the next operation if the row serves it; with no codec in service it ends with NO_CODEC (R170). -/
def codecIssue (d : Nat) (serves : Entry → Bool) (run : Entry → State → State) (s : State) : State :=
  match s.codecPick d with
  | none => s
  | some e =>
    if !serves e then s
    else
      let s1 := issue 2 d e s
      if s.regF (pgSHEET d) 0x104 0 8 = 0 then faultOp e.id 0x1D 0 s1 else run e s1

/-! ## PACK (R163, R164) -/

/-- A free couch-stage buffer of a die. -/
def State.cbFreeIx (s : State) (d : Nat) : Nat := if (SMap.find s.sheet.cbs (qbKey d 0)).isNone then 0 else 1

/-- The sheets of a buffer, sheet i with SSEQ = SSEQ_BASE + i, and whether each is STORED. -/
def packAll (base : Nat) (rs : List RawSheet) : List (List Byte × Bool) :=
  rs.zipIdx.map fun p => packSheet true ((fmtOf p.1.fmt).getD .f32) 4096 p.1 (wd (base + p.2))

/-- Counts packed sheets (Table 6.11). -/
def countPacked (d : Nat) (ps : List (List Byte × Bool)) (s : State) : State :=
  let n := s.sheet.rem.getD d 0 + ps.foldl (fun a p => a + p.1.length) 0
  let p := pgSHEET d
  let s1 := bump p 0x834 (n / 64) (bump p 0x830 (ps.countP fun x => x.2) (bump p 0x82C ps.length s))
  s1.updSheet fun x => { x with rem := vset x.rem d (n % 64) }

def packOp (e : Entry) (s : State) : State :=
  let d := e.d.unit
  let j := e.d.job.val
  if (s.cbOf d j e.d.qbid).isSome then faultOp e.id 0x16 0 s
  else
    match s.qbOf d j e.d.qbid with
    | none => faultOp e.id 0x17 0 s
    | some (_, b) =>
      if !b.done then faultOp e.id 0x17 0 s
      else
        let ps := packAll e.d.packBase b.sheets
        let c : CBuf := { job := j, qbid := e.d.qbid, pack := e.id, sheets := ps.map Prod.fst }
        setWork e.id .finished (countPacked d ps
          (s.updSheet fun x => { x with cbs := SMap.put (qbKey d (s.cbFreeIx d)) c x.cbs }))

/-- PACK (R163 to R165). -/
def execPack (d : Die) (s : State) : Res := .next (codecIssue d.val (fun e => e.d.opcode = 3) packOp s)

/-! ## The chunk-wave of an EXPAND (R165) -/

/-- The name of a COPY write in the mirror intake, among the keys of chunk-waves. -/
def intakeKey (n : Nat) : Nat := 2 ^ 60 + n
def State.intake? (s : State) (k : Nat) : Option Intake := s.mgmt.intake.find? fun i => intakeKey i.key = k

/-- The intake write that an EXPAND replays (16 R403). -/
def State.replayOf (s : State) (e : Entry) : Option Intake :=
  s.mgmt.intake.find? fun i => i.d = e.d.plain

/-- The copy that holds an EXPAND's sheets: a receive copy, or the OWNER's transmit copy of an all-gather chunk. -/
def State.expandCw (s : State) (e : Entry) : Option Nat :=
  match s.replayOf e with
  | some i => some (intakeKey i.key)
  | none =>
    match s.grpOfChan e.d.job.val e.d.chan with
    | none => none
    | some g =>
      let hit (k : Nat) : Bool := cwGrp k = g && cwHalf k = e.d.chan % 2 && sseqBase (cwRseq k) = e.d.packBase
      match s.ring.rx.find? fun kv => hit kv.1 with
      | some kv => some kv.1
      | none =>
        (s.ring.tx.find? fun kv => s.readsTx e.d kv.1).map Prod.fst

/-- The copy is complete: its RECV or its SEND has completed, or it is in the intake. -/
def State.cwComplete (s : State) (k : Nat) : Bool :=
  (s.intake? k).isSome ||
  (match s.rx? k with
   | some r => r.recvd
   | none => match s.tx? k with | some t => t.sent | none => false)

/-- Sheet `i` of a copy. -/
def State.cwSheet? (s : State) (k i : Nat) : Option (List Byte) :=
  match s.intake? k with
  | some x => x.sheets[i]?
  | none =>
    match s.rx? k with
    | some r => SMap.find r.sheets i
    | none => match s.tx? k with | some t => t.sheets[i]? | none => none

/-- Round, ream, first slot and slots of the wave that a copy belongs to (R165, 07 R177, R182). -/
def State.cwWave (s : State) (j k : Nat) : Option (Nat × Nat × Nat × Nat) :=
  match s.intake? k with
  | some x => some (x.round, x.ream, x.wave * x.vmax, x.vslots)
  | none =>
    match s.cwPlace j (cwGrp k) (cwRseq k) with
    | none => none
    | some (r, ream, w) =>
      let v := s.gtVslots (cwGrp k)
      some (r, ream, w * v, min v (s.reamSlots j ream - w * v))

/-! ## Sheets that pass and sheets that do not (R158 to R162) -/

/-- The elements of a sheet enter a wave's accumulators (04 R83, 03 Table 3.4). -/
def enterSheet (j h i : Nat) (r : RawSheet) (s : State) : State :=
  match s.wave? j h with
  | none => s
  | some w =>
    let sd := s.seedLocal j w.ream w.round.toNat
    r.vals.zipIdx.foldl (fun t p =>
      let e := w.ebase * 8192 + 4096 * i + p.2
      vatEnter j w e p.1 (draw24 sd e) 0 (noteInput j w.ream w.die p.1 t)) s

/-- A receive copy notes a sheet that has passed; with the last one its ACK goes (R159, 07 R188). -/
def notePassed (k i : Nat) (s : State) : State :=
  match s.rx? k with
  | none => s
  | some r =>
    let r1 := { r with passed := SMap.put i true r.passed }
    let all := match r.nsheet with | some n => r1.passed.length ≥ n | none => false
    if all && !r.ack then sendRec k 3 0 0 (putRx k { r1 with ack := true } s) else putRx k r1 s

/-- A sheet of an EXPAND has passed every check: it goes to the wave or to the stream. -/
def passSheet (e : Entry) (k i : Nat) (r : RawSheet) (s : State) : State :=
  let s1 := notePassed k i (bump (pgSHEET e.d.unit) 0x838 1 s)
  if e.d.destWave then enterSheet e.d.job.val e.d.wave i r s1
  else updStrm (strmKey e.d.unit e.d.stream) (fun x => { x with sheets := x.sheets ++ [(i, r)] }) s1

/-- Counts a DAMAGED sheet and captures the first (R171). -/
def countDamaged (d j chan : Nat) (sseq : Word) (c : Cause) (s : State) : State :=
  bump (pgSHEET d) c.off 1
    (raiseCap (pgSHEET d) 0x800 0 (wd (j + chan * 2 ^ 3 + c.off * 2 ^ 11)) (sseq.setWidth 64) s)

/-- The exception record of a DAMAGED sheet (R160), on the die of its target; none where a cancel applies first (R162). -/
def damagedRec (e : Entry) (s : State) : State :=
  match s.entry? e.id with
  | some x =>
    if x.cancelled then s
    else pushExc e.d.unit { job := e.d.job.val, opcode := e.d.opcode, seq := e.d.seq, status := 0, ream := e.d.ream,
                            wave := e.d.wave, d := e.d, damaged := some e.id } s
  | none => s

/-- A sheet of an EXPAND has failed: pending on it with an exception record (R160). -/
def damageSheet (e : Entry) (k i : Nat) (sseq : Word) (c : Cause) (s : State) : State :=
  damagedRec e ((countDamaged e.d.unit e.d.job.val e.d.chan sseq c s).updSheet fun x =>
    { x with damaged := x.damaged ++ [{ target := e.id, cw := k, i := i }] })

/-- Takes sheet `i` of the copy for an EXPAND; one that felt has lost counts as failing check 2 (14 Table 14.3). -/
def takeSheet (e : Entry) (k i : Nat) (s : State) : State :=
  match s.cwSheet? k i with
  | none => damageSheet e k i (wd (e.d.packBase + i)) .crc s
  | some b =>
    match checkSheet false b with
    | .error c => damageSheet e k i (shSseq b) c s
    | .ok r => passSheet e k i r s

/-- The unit of a running entry has completed it. -/
def finish (id : Nat) (s : State) : State :=
  match s.entry? id with
  | none => s
  | some x => if x.st = .active && x.work = Work.running then setWork id .finished s else s

/-- DAMAGED sheets are pending on an entry, and how many. -/
def State.dmgOf (s : State) (id : Nat) : Bool := s.sheet.damaged.any fun g => g.target = id
def State.dmgCount (s : State) (id : Nat) : Nat := s.sheet.damaged.countP fun g => g.target = id

/-! ## Streams (R166, R169) -/

/-- The sheets of a stream that come next, in the order of the wave; a sheet after one that is still awaited waits (R165). -/
def Strm.due (x : Strm) : List (Nat × RawSheet) :=
  let at_ (i : Nat) : Option (Nat × RawSheet) := x.sheets.find? fun p => p.1 = x.added + i
  ((List.range x.sheets.length).takeWhile fun i => (at_ i).isSome).filterMap at_

/-- The ADD of a stream enters what the stream holds, in order; it completes after the last sheet. -/
def strmDrain (k : Nat) (s : State) : State :=
  match SMap.find s.sheet.streams k with
  | none => s
  | some x =>
    match x.add with
    | none => s
    | some a =>
      let l := x.due
      let s1 := forAll l (fun p t => enterSheet x.job x.wave p.1 p.2 t) s
      let n := x.added + l.length
      let s2 := updStrm k (fun y => { y with sheets := y.sheets.filter fun p => n ≤ p.1, added := n }) s1
      if x.total = some n then finish a s2 else s2

/-- The EXPAND of a stream decodes while the stream has room, of which each awaited sheet keeps a place, and the ADD drains it. -/
def strmPump (k : Nat) : Nat → State → State
  | 0, s => s
  | fuel + 1, s =>
    match SMap.find s.sheet.streams k with
    | none => s
    | some x =>
      match x.expand.bind fun id => s.entry? id, x.total with
      | some e, some n =>
        if x.next < n && x.sheets.length + s.dmgCount e.id < 16 && e.work = Work.running then
          strmPump k fuel (strmDrain k (takeSheet e x.cw x.next (updStrm k (fun y => { y with next := y.next + 1 }) s)))
        else s
      | _, _ => s

/-- An EXPAND whose sheets have all been taken completes when no DAMAGED one remains (R160). -/
def expandSettle (e : Entry) (s : State) : State :=
  let k := strmKey e.d.unit e.d.stream
  let all := e.d.destWave ||
    (match SMap.find s.sheet.streams k with | some x => x.total = some x.next | none => true)
  if all && !s.dmgOf e.id then finish e.id s else s

/-- Runs a stream on, after it is bound or has been given a sheet. -/
def strmRun (k : Nat) (s : State) : State :=
  match SMap.find s.sheet.streams k with
  | none => s
  | some x =>
    let s1 := strmPump k (x.total.getD 0) (strmDrain k s)
    match x.expand.bind fun id => s.entry? id with
    | some e => expandSettle e s1
    | none => s1

/-- The stream may be bound to the operation: it is free, or bound to its (job, wave) by its partner. -/
def State.strmFree (s : State) (k : Nat) (d : Desc) (isExpand : Bool) : Bool :=
  match SMap.find s.sheet.streams k with
  | none => true
  | some x => x.job = d.job.val && x.wave = d.wave && (if isExpand then x.expand.isNone else x.add.isNone)

/-- Binds a stream, new or bound already by the partner. -/
def strmBind (k : Nat) (d : Desc) (f : Strm → Strm) (s : State) : State :=
  let x := match SMap.find s.sheet.streams k with | some x => x | none => { job := d.job.val, wave := d.wave }
  s.updSheet fun y => { y with streams := SMap.put k (f x) y.streams }

/-- An operation of a stream is issued (R166): it binds the stream where it may; it ends with STREAM_ABORT where its partner has ended
FAULTED or was cancelled, and with STREAM_BUSY where the stream is bound to another. -/
def strmIssue (e : Entry) (run : State → State) (s : State) : State :=
  match e.d.strm with
  | none => run s
  | some k =>
    if !s.strmFree k e.d (e.d.opcode = 6) then faultOp e.id 0x1A 0 s
    else
      let hit (a : StrmAbort) : Bool := a.hits k e.d
      let b : Bool := s.sheet.aborts.any hit || (match SMap.find s.sheet.streams k with | some x => x.bad | none => false)
      let s1 := strmBind k e.d (fun x => if e.d.opcode = 6 then { x with expand := some e.id } else { x with add := some e.id })
        (s.updSheet fun y => { y with aborts := y.aborts.eraseP hit })
      if s.sheet.aborts.any hit then
        faultOp e.id 0x1B 0 (updStrm k (fun x =>
          { x with bad := true, expandEnded := x.expandEnded || e.d.opcode = 7, addEnded := x.addEnded || e.d.opcode = 6 }) s1)
      else if b then faultOp e.id 0x1B 0 s1
      else run s1

/-! ## EXPAND (R165) -/

/-- A claimed wave covers the elements of its chunk-wave; a replay's has the mirrored ream's length. -/
def placeWave (j h round eb : Nat) (mir : Option Nat) (s : State) : State :=
  match s.wave? j h with
  | none => s
  | some w =>
    let s1 := putWave j h { w with ebase := eb, round := BitVec.ofNat 64 round, mir := mir } s
    forAll w.slots.zipIdx (fun p t => updVSlot w.die p.1 (fun x => { x with efirst := (eb + p.2) * 8192 }) t) s1

/-- The wave and the copy note each other (07 R188); a transmit copy notes its reader. -/
def linkCw (e : Entry) (k : Nat) (s : State) : State :=
  let wk := waveKey e.d.job.val e.d.wave
  match s.rx? k with
  | some r =>
    updWave e.d.job.val e.d.wave (fun w => { w with cws := w.cws ++ [k] })
      (putRx k { r with waves := r.waves ++ [wk], expanded := true } s)
  | none =>
    match s.tx? k with
    | some t => updEntry e.id (fun x => { x with pos := k + 1 }) (putTx k { t with reads := t.reads + 1 } s)
    | none => s

/-- An EXPAND whose checks have passed takes its sheets. -/
def expandRun (e : Entry) (k : Nat) (w : Wave) (s : State) : State :=
  let n := s.waveElems e.d.job.val w / 4096
  let s1 := linkCw e k s
  if e.d.destWave then expandSettle e (forAll (List.range n) (fun i t => takeSheet e k i t) s1)
  else
    let sk := strmKey e.d.unit e.d.stream
    strmRun sk (updStrm sk (fun x => { x with cw := k, next := 0, total := some n }) s1)

/-- An EXPAND whose stream, if it has one, is bound to it: its checks (R165), and its sheets. -/
def expandGo (e : Entry) (s : State) : State :=
  let j := e.d.job.val
  match s.expandCw e with
  | none => faultOp e.id 0x1E 0 s
  | some k =>
    if !s.cwComplete k then faultOp e.id 0x1E 0 s
    else
      match s.waveOn e.d, s.cwWave j k with
      | none, _ => faultOp e.id 0x15 0 s
      | some w, pl =>
        let placed := match pl with
          | some (_, ream, _, n) => ream = e.d.ream && n = e.d.vslots
          | none => false
        if w.content ≠ .int || (e.d.claim && !placed) then faultOp e.id 0x15 0 s
        else if s.wavePoisoned w then poisonFault e.id w s
        else
          let s1 := match e.d.claim, pl with
            | true, some (round, _, eb, _) => placeWave j e.d.wave round eb ((s.replayOf e).map fun i => i.npad) s
            | _, _ => s
          match s1.waveOn e.d with
          | none => s1
          | some w1 => expandRun e k w1 s1

def expandOp (e : Entry) (s : State) : State := strmIssue e (expandGo e) s

/-! ## EXPAND with REFETCH = 1 (R160) -/

/-- The waiting EXPAND that TARGET_SEQ names. -/
def State.refetchTarget (s : State) (j seq : Nat) : Option Entry :=
  (s.sch.ops.filter fun e =>
    e.st = .active && e.d.opcode = 6 && !e.d.refetch && e.d.job.val = j && e.d.seq = wd seq && s.dmgOf e.id).foldl
    (fun a e => match a with
      | none => some e
      | some b => if srcKey e.src j < srcKey b.src j then some e else a) none

/-- One DAMAGED sheet is asked for by operation `by_` (07 R188): it counts on the die of its target, and a late replacement on the die
of the operation that asks (R161, R171). A copy that no sender holds sends no record. -/
def askSheet (by_ die askDie : Nat) (g : Dmg) (s : State) : State :=
  let s1 := s.updSheet fun x =>
    { x with
      damaged := x.damaged.map fun y =>
        if y.target = g.target && y.cw = g.cw && y.i = g.i then { y with asked := y.asked ++ [by_], refetches := y.refetches + 1 } else y
      asked := x.asked ++ [(g.cw, g.i, askDie)] }
  let s2 := bump (pgSHEET die) 0x81C 1 s1
  if (s.rx? g.cw).isSome then sendRec g.cw 5 g.i 0 s2 else s2

def expandRefetchOp (e : Entry) (s : State) : State :=
  match s.refetchTarget e.d.job.val e.d.packBase with
  | none => setWork e.id .finished s
  | some t =>
    let gs := s.sheet.damaged.filter fun g => g.target = t.id
    refetchSettle (forAll gs (fun g u => askSheet e.id t.d.unit e.d.unit g u) s)

/-- EXPAND_REFETCH (R160). -/
def execExpandRefetch (d : Die) (s : State) : Res :=
  .next (codecIssue d.val (fun e => e.d.opcode = 6 && e.d.refetch) expandRefetchOp s)

/-! ## Replacements (R160, R161) -/

/-- REFETCH_MAX of a die; zero is treated as 1 (Table 6.8). -/
def State.refetchMax (s : State) (d : Nat) : Nat := max 1 (s.regF (pgSHEET d) 0x100 0 4)

/-- A replacement overwrites the felt copy. -/
def putSheet (k i : Nat) (b : List Byte) (s : State) : State :=
  match s.rx? k with
  | some r => putRx k { r with sheets := SMap.put i b r.sheets } s
  | none =>
    match s.tx? k with
    | some t => putTx k { t with sheets := setAt t.sheets i b } s
    | none => s.updMgmt fun m =>
        { m with intake := m.intake.map fun x => if intakeKey x.key = k then { x with sheets := setAt x.sheets i b } else x }

def dropDmg (g : Dmg) (s : State) : State :=
  s.updSheet fun x => { x with damaged := x.damaged.filter fun y => !(y.target = g.target && y.cw = g.cw && y.i = g.i) }

/-- A sheet failed again: it may be asked for once more, or its target ends with DAMAGED_REPEAT. -/
def failAgain (e : Entry) (g : Dmg) (s : State) : State :=
  if g.refetches ≥ s.refetchMax e.d.unit then
    raiseEv (pgSHEET e.d.unit) 0x820 2 (faultOp e.id 0x19 0
      (s.updSheet fun x => { x with damaged := x.damaged.filter fun y => y.target ≠ e.id }))
  else
    damagedRec e (s.updSheet fun x =>
      { x with damaged := x.damaged.map fun y =>
          if y.target = g.target && y.cw = g.cw && y.i = g.i then { y with asked := [] } else y })

/-- A replacement for a sheet that no operation waits for: discarded, and counted where it was asked from. -/
def lateSheet (k i : Nat) (s : State) : State :=
  let die := match s.sheet.asked.find? fun a => a.1 = k && a.2.1 = i with | some a => a.2.2 | none => 0
  bump (pgSHEET die) 0x824 1 s

/-- One request for the sheet is answered. -/
def answered (k i : Nat) (s : State) : State :=
  s.updSheet fun x => { x with asked := x.asked.eraseP fun a => a.1 = k && a.2.1 = i }

/-- A replacement of a sheet that an EXPAND waits for. -/
def replaceSheet (e : Entry) (g : Dmg) (b : List Byte) (s : State) : State :=
  let s1 := putSheet g.cw g.i b s
  match checkSheet false b with
  | .error c => refetchSettle (failAgain e g (countDamaged e.d.unit e.d.job.val e.d.chan (shSseq b) c s1))
  | .ok r =>
    let s2 := passSheet e g.cw g.i r (dropDmg g s1)
    let s3 := if e.d.destWave then s2 else strmRun (strmKey e.d.unit e.d.stream) s2
    refetchSettle (expandSettle e s3)

/-! ## ADD (R166, R169) -/

/-- An ADD whose stream is bound to it. -/
def addGo (e : Entry) (s : State) : State :=
  match s.waveOn e.d with
  | none => faultOp e.id 0x15 0 s
  | some w =>
    if w.content ≠ .int then faultOp e.id 0x15 0 s
    else if s.wavePoisoned w then poisonFault e.id w s
    else strmRun (strmKey e.d.unit e.d.stream) s

def addOp (e : Entry) (s : State) : State := strmIssue e (addGo e) s

/-- ADD (R165, R166, R169). -/
def execAdd (d : Die) (s : State) : Res :=
  match s.vatPick d.val with
  | none => .next s
  | some e => .next (if e.d.opcode = 7 then addOp e (issue 0 d.val e s) else s)

/-! ## Parity and service (R170) -/

/-- SHEET_PARITY (R170). -/
def execSheetParity (d : Die) (codec : Fin 8) (held : Option Nat) (s : State) : Res :=
  let p := pgSHEET d.val
  if s.pageOff p || !bit (s.reg p 0x104) codec.val then .next s
  else
    let s1 := match held with
      | some id =>
        (match s.entry? id with
         | some x =>
           if isCodecOp d.val x && !isRefetch x && x.st = OpSt.active then faultOp id 0x1C 0 s else s
         | none => s)
      | none => s
    .next (raiseEv p 0x828 3 (s1.setReg p 0x104 (setBit (s.reg p 0x104) codec.val false)))

/-- Effects of the SHEET pages: SHEET_CFG and SHEET_SVC are stored. -/
def sheetEffect (p o ix : Nat) (v : DWord) (s : State) : Eff := .ok (store p o ix (loW v) s)

/-- SHEET_STAT and SHEET_STREAM_BUSY (Tables 6.7, 6.10). -/
def sheetView (s : State) (p o : Nat) (v : Word) : Word :=
  let d := pgInst p
  if o = 0x108 then
    wd (s.codecActive d + 2 ^ 16 * b2n (SMap.find s.sheet.cbs (qbKey d 0)).isSome +
        2 ^ 17 * b2n (SMap.find s.sheet.cbs (qbKey d 1)).isSome)
  else if o = 0x10C then wd (s.sheet.streams.foldl (fun a kv => if kv.1 / 16 = d then a + 2 ^ (kv.1 % 16) else a) 0)
  else v

end Sys2Proof.Machine
end

