-- ==== Sys2Proof/Machine/CiphOps.lean ====
section
/-! DEFINITION. Sealed segments (12 R305 to R316): sessions, their keys and the start of a handshake; contexts, the segment header
and its seal. -/
namespace Sys2Proof.Machine

open Sys2Proof

/-! ## Sessions (12 R321, R324, Table 12.4) -/

/-- The VALID CIPH_PEER entry of a SEID. -/
def State.peerIx (s : State) (seid : Nat) : Option Nat :=
  (List.range 64).find? fun i => bit (s.reg (pgCIPH 0) 0x114 i) 31 && s.regF (pgCIPH 0) 0x114 0 16 i = seid

def State.sess (s : State) (i : Nat) : Sess := SMap.get (fun _ => ({} : Sess)) s.ciph.sess i
def updSess (i : Nat) (f : Sess → Sess) (s : State) : State :=
  s.updCiph fun c => { c with sess := SMap.modify (fun _ => ({} : Sess)) i f c.sess }

/-- UP or RENEWING. -/
def Sess.live (x : Sess) : Bool := x.st = 2 || x.st = 3

/-- The session to a SEID is UP or RENEWING (R324). -/
def State.peerLive (s : State) (seid : Nat) : Bool :=
  match s.peerIx seid with | none => false | some i => (s.sess i).live

/-- Key-store slot of a session's root key (Table 12.4): link roots of the current and the previous generation. -/
def rootSlot (i gen : Nat) (cur : Bool) : Nat := if i < 64 then 64 + 4 * i + gen % 4 else (if cur then 16 else 18) + (i - 64)

def State.rootKey (s : State) (i gen : Nat) : Option (List Byte) :=
  if (s.sess i).gens.contains gen then SMap.find s.ciph.keys (rootSlot i gen (decide ((s.sess i).gens.head? = some gen)))
  else none

/-! ## Keys (R310, R311, Table 12.3) -/

/-- A custom string. -/
def ascii (t : String) : List Byte := t.toList.map fun c => BitVec.ofNat 8 c.toNat

/-- The 16-byte label. -/
def keyLabel (ltype src dst chan sgen : Nat) (tag : Word) (kepoch : Nat) : List Byte :=
  natLE 2 ltype ++ natLE 2 src ++ natLE 2 dst ++ natLE 1 chan ++ natLE 1 (sgen % 16) ++ natLE 4 tag.toNat ++
  natLE 2 (kepoch % 4096) ++ natLE 2 0

/-- The 36 bytes of a channel or link key: AES key and FIXED. -/
def deriveKey (root label : List Byte) (ltype : Nat) : List Byte :=
  Config.kmac256 root label 288 (ascii (if ltype = 1 then "TS9 CHAN" else "TS9 LINK"))

/-! ## The segment (R308, R310, Table 12.1) -/

/-- Fields of a segment header. -/
structure SegHdr where
  ty : Nat
  tag : Word
  sgen : Nat
  kepoch : Nat
  chan : Nat
  epoch : Word
  rseq : Word
  plen : Nat
  scnt : Nat
  deriving DecidableEq, Repr

/-- 16-byte words of a segment. -/
def segWords (ty plen : Nat) : Nat := 2 + ceilDiv plen 16 + (if ty = 5 then 0 else 1)

def SegHdr.bytes (h : SegHdr) : List Byte :=
  natLE 4 (segWords h.ty h.plen * 2 ^ 16 + h.ty * 2 ^ 8 + 0xC9) ++ natLE 4 h.tag.toNat ++
  natLE 4 (h.sgen * 2 ^ 28 + h.kepoch * 2 ^ 16 + h.chan) ++ natLE 4 h.epoch.toNat ++ natLE 4 h.rseq.toNat ++
  natLE 4 h.plen ++ natLE 8 h.scnt

/-- The header at the start of a segment. -/
def segHdrOf (b : List Byte) : SegHdr :=
  { ty := leAt b 0 4 / 2 ^ 8 % 16, tag := wAt b 4, sgen := leAt b 8 4 / 2 ^ 28, kepoch := leAt b 8 4 / 2 ^ 16 % 2 ^ 12,
    chan := leAt b 8 4 % 2 ^ 8, epoch := wAt b 0xC, rseq := wAt b 0x10, plen := leAt b 0x14 4 % 2 ^ 17, scnt := leAt b 0x18 8 }

/-- Zero fill to a 16-byte boundary. -/
def fill16 (n : Nat) : List Byte := List.replicate (ceilDiv n 16 * 16 - n) 0

/-- The IV of an invocation. -/
def segIv (key : List Byte) (scnt : Nat) : List Byte := (key.drop 32).take 4 ++ natBE 8 scnt

/-- A sealed segment. -/
def sealBytes (key : List Byte) (h : SegHdr) (pt : List Byte) : List Byte :=
  let c := Config.gcmSeal (key.take 32) (segIv key h.scnt) h.bytes pt
  h.bytes ++ c.1 ++ fill16 h.plen ++ c.2

/-- A handshake segment (R309). -/
def hsSegment (m : List Byte) : List Byte :=
  (SegHdr.bytes ⟨5, 0, 0, 0, 0, 0, 0, m.length, 0⟩) ++ m ++ fill16 m.length

/-! ## Channels and their peers (R311, 07 R174, 08 R223) -/

/-- The JOBTAG of a job's channels: that of its first VALID ring-table entry (log 25). -/
def State.jobTag (s : State) (j : Nat) : Word :=
  match (List.range 64).find? fun g => gtValid (s.gtCtl g) && gtJob (s.gtCtl g) = j with
  | some g => s.gtTag g
  | none => 0

def State.scCtl (s : State) (i : Nat) : Word := s.reg pgOUTER 0x144 i
def scJob (c : Word) : Nat := fld c 24 3
def scChan (c : Word) : Nat := fld c 16 8
def scRecv (c : Word) : Bool := bit c 30
def scPort (c : Word) : Nat := fld c 12 1

/-- The VALID stream end of a direction that a JOBTAG and channel name. -/
def State.scOf (s : State) (recv : Bool) (tag : Word) (chan : Nat) : Option Nat :=
  (List.range 256).find? fun i =>
    let c := s.scCtl i
    bit c 31 && scRecv c = recv && scChan c = chan && s.jobTag (scJob c) = tag

/-- SEID of the gateway at the other end of a channel of a port. -/
def State.chanSeid (s : State) (port : Nat) (tx : Bool) (tag : Word) (chan : Nat) : Option Nat :=
  if chan < 32 then
    match s.grpOfTag tag chan with
    | none => none
    | some g =>
      let c := s.gtCtl g
      some (s.gtSeid g (stepPos (gtS c) port (gtPos c))).toNat
  else
    match s.scOf (!tx) tag chan with
    | none =>
      match s.scOf tx tag chan with
      | none => none
      | some i => some (s.regF pgOUTER 0x148 0 16 i)
    | some i => some (s.regF pgOUTER 0x148 0 16 i)

/-- SEID of the far end of a port's fibre pair, from the trace received (log 26). -/
def State.linkSeid (s : State) (p : Nat) : Nat := leAt (s.port p).rxTrace 2 2

/-- The session and the SEID that key a context: session index and far SEID. -/
def State.ctxPeer (s : State) (c : Ctx) : Option (Nat × Nat) :=
  if c.ltype = 1 then
    match s.chanSeid c.port c.tx c.jobtag c.chan with
    | none => none
    | some q => (s.peerIx q).map fun i => (i, q)
  else some (64 + c.port, s.linkSeid c.port)

/-- The key of a context under a generation and key epoch: of a link, from its key-store slot (Table 12.4). -/
def State.ctxKey (s : State) (c : Ctx) (sgen kepoch : Nat) : Option (List Byte) :=
  match s.ctxPeer c with
  | none => none
  | some (i, q) =>
    match s.rootKey i sgen with
    | none => none
    | some r =>
      if c.ltype = 1 then
        let me := Config.seid.toNat
        some (deriveKey r (keyLabel 1 (if c.tx then me else q) (if c.tx then q else me) c.chan sgen c.jobtag kepoch) 1)
      else
        SMap.find s.ciph.keys (4 * c.port + 2 * (c.ltype - 2) + b2n (!c.tx) + if (s.sess i).gens.head? = some sgen then 0 else 8)

/-! ## Messages of tributary 0 out (10 R277) -/

def State.lineCtl (s : State) (p : Nat) : Word := s.reg (pgLINE p) 0x100
def State.lineEn (s : State) (p : Nat) : Bool := bit (s.lineCtl p) 31

/-- A message on its way waits on tributary 0 of a port. -/
def protQueue (p : Nat) (m : ProtMsg) (ts : Option Nat) (s : State) : State :=
  updPort p (fun l => { l with protQ := l.protQ ++ [(m, ts)] }) s

/-- A message of this gateway's own goes out on both ports with HOPS = 15 and the next MSEQ to its destination; a pool buffer holds it
while it is built (14 Table 14.6). -/
def protSend (dst : BitVec 16) (kind : Nat) (body : List Byte) (ts : Option Nat) (s : State) : State :=
  let q := SMap.get (fun _ => (0 : Word)) s.line.sent dst.toNat + 1
  let m : ProtMsg := { dst := dst, src := Config.seid, kind := BitVec.ofNat 4 kind, hops := 15, mseq := q, body := body }
  protQueue 1 m ts (protQueue 0 m ts
    ((poolPass .root 0 none body.length s).updLine fun l => { l with sent := SMap.set (fun _ => (0 : Word)) dst.toNat q l.sent }))

/-! ## The start of a handshake (R321, R322, R324) -/

/-- The SEID at the other end of a session, and the page that counts for it. -/
def State.sessSeid (s : State) (i : Nat) : Nat := if i < 64 then s.regF (pgCIPH 0) 0x114 0 16 i else s.linkSeid (i - 64)
def sessPage (i : Nat) : Nat := if i < 64 then pgCIPH 0 else pgCIPH (i - 64)

/-- The session's entry is in use: a VALID peer, or an enabled port. -/
def State.sessOn (s : State) (i : Nat) : Bool := if i < 64 then bit (s.reg (pgCIPH 0) 0x114 i) 31 else s.lineEn (i - 64)

/-- The identity digest of a certificate chain: the first 32 bytes of SHAKE256 over the public key after the 64-byte header of the
device certificate (R321). -/
def chainDigest (chain : List Byte) : List Byte := Config.shake256 ((chain.drop 64).take 1952) 32
def identityDigest : List Byte := chainDigest Config.chain

/-- The firmware image that runs (R326). -/
def State.runImage (s : State) : List Byte := s.boot.running.getD Config.factoryImage

/-- `n` 8-byte draws of the TRNG. -/
def drawBytes : Nat → State → List Byte × State
  | 0, s => ([], s)
  | n + 1, s =>
    let d := s.draw
    let r := drawBytes n d.2
    (natLE 8 d.1.toNat ++ r.1, r.2)

/-- The 48-byte header of a handshake message, its fields in the order of R322 (log 32). -/
def kxHeader (ty i gen : Nat) (sid : List Byte) (dst : Nat) : List Byte :=
  [1, BitVec.ofNat 8 ty, if i < 64 then 2 else 1, BitVec.ofNat 8 (gen % 16), BitVec.ofNat 8 (if i < 64 then 0 else i - 64)] ++
  sid.take 16 ++ natLE 2 Config.seid.toNat ++ natLE 2 dst ++ List.replicate 23 0

/-- Own certificate chain, and the digest and SVN of the running image (R326). -/
def State.kxIdent (s : State) : List Byte :=
  Config.chain ++ Config.imageDigest s.runImage ++ natLE 4 (Config.imageSvn s.runImage).toNat

/-- A message of a session goes out: LINK in an HS segment, PEER as an EMSOASH protected message (R324). -/
def kxSend (i : Nat) (m : List Byte) (s : State) : State :=
  if i < 64 then protSend (BitVec.ofNat 16 (s.sessSeid i)) 3 m none s
  else updPort (i - 64) (fun l => { l with hsQ := l.hsQ ++ [m] }) (poolPass .root 0 none m.length s)

/-- A message is sent and its answer awaited. -/
def kxAwait (i next : Nat) (m : List Byte) (s : State) : State :=
  kxSend i m (updSess i (fun x => { x with await := next, msg := m, sends := 1 }) s)

/-- Names of the STATEs of Table 12.12 that a handshake starts in. -/
def stHandshake (st : Nat) : Nat := if st = 2 || st = 3 then 3 else if st = 4 then 4 else 1

/-- This end builds KX1 and initiates (R321, R322). -/
def kxStart (i : Nat) (s : State) : State :=
  let x := s.sess i
  let gen := if x.gens.isEmpty then 0 else (x.sgen + 1) % 16
  let sid := drawBytes 2 s
  let nonce := drawBytes 4 sid.2
  let kem := nonce.2.draw
  let m := kxHeader 1 i gen sid.1 (s.sessSeid i) ++ nonce.1 ++ Config.kemKey kem.1 ++ s.kxIdent
  kxAwait i 2 m (updSess i (fun x =>
    { x with st := stHandshake x.st, init := true, newGen := gen, sid := sid.1, kx1 := m, kx2 := [], kx3 := [], seed := kem.1 }) kem.2)

/-- This gateway is the initiator: it has the lower SEID. -/
def State.initiates (s : State) (i : Nat) : Bool := Config.seid.toNat < s.sessSeid i

/-- A renewal that this end may start now (R314). -/
def State.mayRenew (s : State) (i : Nat) : Bool :=
  s.sessOn i && s.initiates i && (s.sess i).st = 2 && (s.sess i).await = 0

/-! ## Contexts (R313, R315, R319) -/

def Ctx.names (c d : Ctx) : Bool :=
  c.port = d.port && c.tx = d.tx && c.ltype = d.ltype && c.jobtag = d.jobtag && c.chan = d.chan && c.peer = d.peer

/-- The context that `d` names towards the gateway now at the other end of its channel, as kept or new. -/
def State.ctx (s : State) (d : Ctx) : Ctx :=
  let d1 := if d.ltype = 1 then { d with peer := ((s.ctxPeer d).map Prod.snd).getD 0 } else d
  (s.ciph.ctxs.find? fun c => c.names d1).getD d1

/-- A context belongs to a session. -/
def State.ctxOf (s : State) (i : Nat) (c : Ctx) : Bool :=
  if c.ltype = 1 then i < 64 && c.peer = s.sessSeid i else i = 64 + c.port

/-- A key of a pair as a context holds it. -/
def ctxKeyOf (sgen kepoch : Nat) (key : List Byte) : CtxKey := ⟨sgen, kepoch, key, Config.ghashKey (key.take 32)⟩

/-- The key of a pair in a context, and the context holding it: derived where the pair is met first; the four newest stay (R315,
R316). None where the generation is not kept. -/
def State.keyFor (s : State) (c : Ctx) (sgen kepoch : Nat) : Option (List Byte × Ctx) :=
  match c.keys.find? fun k => k.sgen = sgen && k.kepoch = kepoch with
  | some k => some (k.key, c)
  | none => (s.ctxKey c sgen kepoch).map fun key => (key, { c with keys := (ctxKeyOf sgen kepoch key :: c.keys).take 4 })

/-- KWK of a line die. -/
def State.kwk (s : State) (p : Nat) : List Byte := s.ciph.kwk.getD p []

/-- The wrapped copy of a context: its keys, and its spill generation last (log 31). -/
def Ctx.wrapped (kwk : List Byte) (c : Ctx) : List Byte :=
  Config.kwWrap kwk ((c.keys.flatMap fun k => natLE 2 k.sgen ++ natLE 2 k.kepoch ++ k.key ++ k.hsub) ++ natLE 8 c.spill.toNat)

/-- Where a context's wrapped copy lies: its place in the spill area of its die (14 Table 14.2, log 31). -/
def Ctx.spillAddr (c : Ctx) : Nat := 0x10000000 + 0x100000 * c.port + 256 * c.slot

/-- A context is spilled into HBM. -/
def spillCtx (o : Ctx) (s : State) : State :=
  let c := { o with resident := false, spill := o.spill + 1 }
  hbmWrite c.spillAddr (c.wrapped (s.kwk c.port))
    (s.updCiph fun x => { x with ctxs := x.ctxs.map fun d => if d.names c then c else d })

/-- Contexts of a die beyond 512 resident are spilled, channel contexts only, least recently used first (R319). -/
def spillLru (port : Nat) (s : State) : State :=
  if (s.ciph.ctxs.countP fun c => c.port = port && c.resident) ≤ 512 then s
  else
    let old := (s.ciph.ctxs.filter fun c => c.port = port && c.resident && c.ltype = 1).foldl
      (fun a c => match a with | none => some c | some b => if c.used < b.used then some c else a) none
    match old with
    | none => s
    | some o => spillCtx o s

/-- The least place in the spill area of a die that no context has. -/
def freeSlot (l : List Ctx) (port : Nat) : Nat :=
  ((List.range (l.length + 1)).find? fun i => !(l.any fun c => c.port = port && c.slot = i)).getD l.length

/-- Keeps a context as just used: it is resident, and another may be spilled. -/
def putCtx (c : Ctx) (s : State) : State :=
  spillLru c.port (s.updCiph fun x =>
    let c1 := { c with resident := true, used := x.useNo }
    let l := if x.ctxs.any fun d => d.names c then x.ctxs.map (fun d => if d.names c then c1 else d)
      else x.ctxs ++ [{ c1 with slot := freeSlot x.ctxs c.port }]
    { x with ctxs := l, useNo := x.useNo + 1 })

/-- A context as an engine takes it. A spilled one comes back from HBM; a wrapped copy that is poisoned or is not the one that was
spilled, its generation included, does not unwrap: that is counted, and its keys are derived again (R319). -/
def loadCtx (c : Ctx) (s : State) : Ctx × State :=
  if c.resident then (c, s)
  else
    let w := c.wrapped (s.kwk c.port)
    if s.hbmRead c.spillAddr w.length = w && !s.hbmBad c.spillAddr w.length then ({ c with resident := true }, s)
    else
      ({ c with resident := true
                keys := c.keys.filterMap fun k => (s.ctxKey c k.sgen k.kepoch).map (ctxKeyOf k.sgen k.kepoch) },
        raiseEv (pgCIPH c.port) 0x820 7 s)

/-! ## Sealing (R305, R306, R313, R320) -/

/-- Transmit engines in service on a die. -/
def State.txEngines (s : State) (d : Nat) : Nat := s.regF (pgCIPH d) 0x100 0 4

/-- The die whose engine seals next: the first free transmit engine of either die (R306, 07 R174). Which one that is depends on times
that the model does not hold: where both dies have one in service, it is a free value (log 146). -/
def State.sealDie (s : State) : Nat × State :=
  if s.txEngines 0 = 0 then (1, s)
  else if s.txEngines 1 = 0 then (0, s)
  else (s.draw.1.toNat % 2, s.draw.2)

/-- The context ready to seal: at 2³² segments the key epoch advances, and past 4,095 sealing waits (R313). A context that has
sealed nothing under the session's generation begins it. -/
def Ctx.ready (c : Ctx) (sgen : Nat) : Ctx :=
  if c.sgen ≠ sgen then { c with sgen := sgen, kepoch := 0, scnt := 0, wait := false }
  else if c.scnt < 2 ^ 32 then c
  else if c.kepoch = 4095 then { c with wait := true }
  else { c with kepoch := c.kepoch + 1, scnt := 0 }

/-- Seals one segment in a context; none while it must wait: no engine in service, no live session, key epochs used up. -/
def sealOne (d : Ctx) (ty : Nat) (epoch rseq : Word) (pt : List Byte) (s : State) : Option (List Byte × State) :=
  if s.txEngines 0 = 0 && s.txEngines 1 = 0 then none
  else
    match s.ctxPeer d with
    | none => none
    | some (i, _) =>
      if !(s.sess i).live then none
      else
        let r := loadCtx (s.ctx d) s
        let c := r.1.ready (s.sess i).sgen
        match s.keyFor c c.sgen c.kepoch with
        | none => none
        | some (key, c1) =>
          if c.wait then none
          else
            let h : SegHdr := ⟨ty, c.jobtag, c.sgen, c.kepoch, c.chan, epoch, rseq, pt.length, c.scnt⟩
            let e := r.2.sealDie
            some (sealBytes key h pt, bump (pgCIPH e.1) 0x838 1 (putCtx { c1 with scnt := c.scnt + 1 } e.2))

/-- A context past its last key epoch waits for the next renewal, which starts at once where this end is the one to start it
(R313). -/
def noteWait (d : Ctx) (s : State) : State :=
  match s.ctxPeer d with
  | none => s
  | some (i, _) =>
    let r := loadCtx (s.ctx d) s
    let c := r.1.ready (s.sess i).sgen
    if !c.wait then s
    else
      let s1 := putCtx c r.2
      if s1.mayRenew i then kxStart i s1 else s1

/-- Sheets put into segments of at most 65,536 bytes, whole sheets in order (R306, 07 R191). -/
def cutSegs : List (List Byte) → List (List Byte) → List (List (List Byte))
  | cur, [] => if cur.isEmpty then [] else [cur]
  | cur, b :: bs =>
    if cur.isEmpty || (cur.foldl (fun a x => a + x.length) 0) + b.length ≤ 65536 then cutSegs (cur ++ [b]) bs
    else cur :: cutSegs [b] bs

def segsOf (sheets : List (List Byte)) : List (List (List Byte)) := cutSegs [] sheets

/-- The segment that holds sheet `i`. -/
def segOfSheet (sheets : List (List Byte)) (i : Nat) : Nat :=
  let rec go : Nat → Nat → List (List (List Byte)) → Nat
    | _, k, [] => k
    | n, k, g :: gs => if n < g.length then k else go (n - g.length) (k + 1) gs
  go i 0 (segsOf sheets)

/-! ## Copies in felt and their key pairs (R316) -/

/-- The pair of keys that a sealed segment is under. -/
def segPair (b : List Byte) : Nat × Nat := ((segHdrOf b).sgen, (segHdrOf b).kepoch)

/-- The context of a ring copy. -/
def State.cwCtx (s : State) (k : Nat) : Ctx :=
  { port := s.xferTx (cwGrp k) (cwHalf k) (cwXfer k), tx := true, ltype := 1, jobtag := s.gtTag (cwGrp k), chan := (cwChan s k).toNat }

/-- The context of a stream end. -/
def State.scCtx (s : State) (i : Nat) : Ctx :=
  let c := s.scCtl i
  { port := scPort c, tx := !scRecv c, ltype := 1, jobtag := s.jobTag (scJob c), chan := scChan c }

/-- The pairs of some segments; one whose engine failed is under none yet (R320). -/
def segPairs (l : List (List Byte)) : List (Nat × Nat) := (l.filter fun b => !b.isEmpty).map segPair

/-- The pairs of a context that still have copies in felt. -/
def State.pairsHeld (s : State) (d : Ctx) : List (Nat × Nat) :=
  (((s.ring.tx.filter fun kv => (s.cwCtx kv.1).names d).flatMap fun kv => segPairs kv.2.segs) ++
    ((s.outer.sc.filter fun kv => (s.scCtx kv.1).names d).flatMap fun kv =>
      kv.2.tx.flatMap fun m => segPairs m.segs)).eraseDups

/-- The oldest of a list of pairs, seen from generation `g`. -/
def oldestPair (g : Nat) (l : List (Nat × Nat)) : Option (Nat × Nat) :=
  l.foldl (fun a p =>
    match a with
    | none => some p
    | some q =>
      let ap := (g + 16 - p.1) % 16
      let aq := (g + 16 - q.1) % 16
      if ap > aq || (ap = aq && p.2 < q.2) then some p else a) none

/-- Seals again the segments of one copy that are under the oldest pair; a sheet whose CRC is wrong is never sealed (06 R157). -/
def resealSegs (d : Ctx) (old : Nat × Nat) (segs sheets : List (List Byte)) (s : State) : List (List Byte) × State :=
  (segs.zip (segsOf sheets)).foldl (fun (a : List (List Byte) × State) p =>
    if !p.1.isEmpty && segPair p.1 = old && p.2.all crcOk then
      match sealOne d 1 (segHdrOf p.1).epoch (segHdrOf p.1).rseq p.2.flatten a.2 with
      | some (b, s1) => (a.1 ++ [b], bump (pgCIPH d.port) 0x824 1 s1)
      | none => (a.1 ++ [p.1], a.2)
    else (a.1 ++ [p.1], a.2)) ([], s)

def resealCopy (d : Ctx) (old : Nat × Nat) (k : Nat) (t : TxCw) (s : State) : State :=
  let r := resealSegs d old t.segs t.sheets s
  putTx k { t with segs := r.1 } r.2

/-- The messages of a stream end, alike. -/
def resealEnd (d : Ctx) (old : Nat × Nat) (i : Nat) (x : ScEnd) (s : State) : State :=
  let r := x.tx.foldl (fun (a : List StrmMsg × State) m =>
    let q := resealSegs d old m.segs m.sheets a.2
    (a.1 ++ [{ m with segs := q.1 }], q.2)) ([], s)
  r.2.updOuter fun o => { o with sc := SMap.put i { x with tx := r.1 } o.sc }

/-- A fifth pair is needed: every copy held under the oldest one is sealed again under the current one (R316). `mine`: pairs of segments
on their way to felt. -/
def resealIfNeeded (d : Ctx) (mine : List (Nat × Nat)) (s : State) : State :=
  match s.ctxPeer d with
  | none => s
  | some (i, _) =>
    let c := (s.ctx d).ready (s.sess i).sgen
    let held := (s.pairsHeld d ++ mine).eraseDups
    if held.length < 4 || held.contains (c.sgen, c.kepoch) then s
    else
      match oldestPair c.sgen held with
      | none => s
      | some old =>
        let s1 := s.ring.tx.foldl (fun t kv => if (t.cwCtx kv.1).names d then resealCopy d old kv.1 kv.2 t else t) s
        s1.outer.sc.foldl (fun t kv => if (t.scCtx kv.1).names d then resealEnd d old kv.1 kv.2 t else t) s1

/-- Seals a list of segments in order, after any re-seal that each needs. `sseq`: each carries the SSEQ of its first sheet, as a
stream's do (Table 12.1); `mine`: the pairs of those sealed before. -/
def sealFrom (d : Ctx) (epoch rseq : Word) (sseq : Bool) :
    List (Nat × Nat) → List (List (List Byte)) → State → Option (List (List Byte) × State)
  | _, [], s => some ([], s)
  | mine, g :: gs, s =>
    match sealOne d 1 epoch (if sseq then wAt (g.headD []) 8 else rseq) g.flatten (resealIfNeeded d mine s) with
    | none => none
    | some (b, s1) =>
      match sealFrom d epoch rseq sseq (segPair b :: mine) gs s1 with
      | none => none
      | some (bs, s2) => some (b :: bs, s2)

/-- Seals again the segments of a copy whose engine failed while it sealed them, as far as one can (R320). -/
def sealBlank (d : Ctx) (epoch rseq : Word) (sseq : Bool) (segs sheets : List (List Byte)) (s : State) : List (List Byte) × State :=
  (segs.zip (segsOf sheets)).foldl (fun (a : List (List Byte) × State) p =>
    if !p.1.isEmpty then (a.1 ++ [p.1], a.2)
    else
      match sealFrom d epoch rseq sseq [] [p.2] a.2 with
      | some (b, s1) => (a.1 ++ b, s1)
      | none => (a.1 ++ [[]], a.2)) ([], s)

def sealAll (d : Ctx) (epoch rseq : Word) (sseq : Bool) (gs : List (List (List Byte))) (s : State) :
    Option (List (List Byte) × State) := sealFrom d epoch rseq sseq [] gs s

end Sys2Proof.Machine
end

