-- ==== Sys2Proof/Machine/Streams.lean ====
section
/-! DEFINITION. Stream channel ends (08 R223 to R226): enabling, messages in, sheets and records of the far end, deliveries,
acknowledgements and resends. -/
namespace Sys2Proof.Machine

open Sys2Proof

def State.sc (s : State) (i : Nat) : ScEnd := SMap.get (fun _ => ({} : ScEnd)) s.outer.sc i
def updSc (i : Nat) (f : ScEnd → ScEnd) (s : State) : State :=
  s.updOuter fun o => { o with sc := SMap.modify (fun _ => ({} : ScEnd)) i f o.sc }

/-- RETX_MAX; zero is treated as 1 (07 Table 7.8). -/
def State.retxMax (s : State) : Nat := max 1 (s.regF pgRING 0x100 16 8)

/-- MiB of a port's felt that groups and streams may reserve (10 R276). -/
def State.feltRoom (s : State) (p : Nat) : Nat :=
  65536 - 256 - 1024 * s.regF (pgLINE p) 0x1B0 0 5 - (s.port p).feltMib

/-! ## Enabling (R223) -/

/-- The end starts: what keeps it DOWN, or UP with its felt reserved. Without a session to its peer there is no exchange (12 R324). -/
def scStart (i : Nat) (peer : Option PeerEnd) (s : State) : State :=
  let c := s.scCtl i
  let mib := s.regF pgOUTER 0x164 0 16 i
  let down (r : Nat) : State := updSc i (fun _ => { st := 0, reason := r }) s
  match (if s.peerLive (s.regF pgOUTER 0x148 0 16 i) then peer else none) with
  | none => down 1
  | some q =>
    if q.chan.toNat ≠ scChan c || q.fmt.toNat ≠ fld c 0 4 || q.coded ≠ bit c 8 then down 2
    else if s.feltRoom (scPort c) < mib then down 3
    else
      updPort (scPort c) (fun l => { l with feltMib := l.feltMib + mib })
        (updSc i (fun _ => { st := 1, felt := mib }) s)

/-- The key of a message of a stream end among the copies in felt. -/
def scKey (i : Nat) (mseq : Word) : Nat := cwKey (64 + i) 0 0 mseq.toNat

/-- The end stops: its reservation is freed and what it holds is dropped. -/
def scStop (i : Nat) (s : State) : State :=
  let c := s.scCtl i
  let s1 := s.updLine fun l =>
    { l with ports := l.ports.map fun x =>
        { x with
          segQ := x.segQ.filter fun q => cwGrp q.cw ≠ 64 + i
          recQ := x.recQ.filter fun q => !(q.job = scJob c && q.chan = scChan c) } }
  updPort (scPort c) (fun l => { l with feltMib := l.feltMib - (s.sc i).felt })
    (updSc i (fun _ => {}) (forAll (s.sc i).tx (fun m => poolRelease .stream (scKey i m.mseq)) s1))

/-- A write of OUTER_SC_CTL (R223, R227); FMT is a line format (03 R58). -/
def scCtlWr (i : Nat) (v : Word) (peer : Option PeerEnd) (s : State) : Eff :=
  let old := s.scCtl i
  if bit old 31 then
    (if !bit v 31 then .ok (store pgOUTER 0x144 i v (scStop i s)) else if v = old then .ok s else .error .scBusy)
  else if !(match fmtOf (fld v 0 4) with | some f => f.line | none => false) then .error .valueRange
  else if bit v 31 then .ok (scStart i peer (store pgOUTER 0x144 i v s))
  else .ok (store pgOUTER 0x144 i v s)

/-! ## Transmit end (R224) -/

def State.scMax (s : State) (i : Nat) : Nat := s.regF pgOUTER 0x160 16 6 i * 65536
def State.scFmt (s : State) (i : Nat) : Option Fmt := fmtOf (fld (s.scCtl i) 0 4)
def State.scUp (s : State) (i : Nat) : Bool := bit (s.scCtl i) 31 && (s.sc i).st = 1

/-- A ring record of a stream waits on its channel (R226, 07 Table 7.4). -/
def scRec (i kind : Nat) (rseq : Word) (count tbytes : Nat) (s : State) : State :=
  let c := s.scCtl i
  updPort (scPort c) (fun l =>
    { l with recQ := l.recQ ++ [{ job := scJob c, chan := scChan c, kind := kind
                                  r := ⟨s.jobTag (scJob c), BitVec.ofNat 8 (scChan c), 0, rseq, 0, BitVec.ofNat 11 count, wd tbytes⟩ }] }) s

/-- ANNOUNCE and every segment of a message wait on its channel. -/
def scTransmit (i : Nat) (m : StrmMsg) (s : State) : State :=
  let c := s.scCtl i
  let n := m.segs.length
  updPort (scPort c) (fun l =>
    { l with segQ := l.segQ ++ (List.range n).map fun q =>
        { job := scJob c, chan := scChan c, cw := scKey i m.mseq, i := q, last := decide (q + 1 = n) } })
    (scRec i 1 m.first m.sheets.length (m.sheets.foldl (fun a b => a + b.length) 0) s)

/-- The sheets of a message: 4,096 elements each, the last one what is left. -/
def scSheets (f : Fmt) (coded : Bool) (first : Word) (data : List Byte) : List (List Byte × Bool) :=
  let per := 4096 / f.blk * f.blkBytes
  (List.range (ceilDiv data.length per)).map fun k =>
    let b := (data.drop (k * per)).take per
    (packSheet coded f (b.length / f.blkBytes * f.blk) ⟨f.code, b, []⟩ (first + wd k))

/-- Bytes of felt that the messages of an end use; one that is not sealed yet counts its sheets. -/
def ScEnd.bytes (x : ScEnd) : Nat :=
  x.tx.foldl (fun a m => (if m.segs.isEmpty then m.sheets else m.segs).foldl (fun b g => b + g.length) a) 0

/-- Messages of an end that wait unsealed are sealed and go out, in order, as far as their pool buffers, an engine and a session allow
(12 R313, R320, 14 R361); with its sheets in felt a message's buffer goes back (14 Table 14.6). -/
def scSeal (i : Nat) (s : State) : State :=
  ((s.sc i).tx.filter fun m => m.segs.isEmpty).foldl (fun t m =>
    let d := t.scCtx i
    if t.poolWaits .stream (scKey i m.mseq) then t
    else if (t.sc i).tx.any fun y => y.segs.isEmpty && (m.mseq - y.mseq).toNat - 1 < 2 ^ 31 - 1 && y.mseq ≠ m.mseq then t
    else
      match sealAll d 0 0 true (segsOf m.sheets) t with
      | none => noteWait d t
      | some (segs, t1) =>
        let m1 := { m with segs := segs }
        scTransmit i m1 (poolRelease .stream (scKey i m.mseq)
          (updSc i (fun y => { y with tx := y.tx.map fun z => if z.mseq = m.mseq then m1 else z }) t1))) s

/-- Segments of an end's messages whose engine failed are sealed again (12 R320). -/
def scReseal (i : Nat) (s : State) : State :=
  forAll ((s.sc i).tx.filter fun m => m.segs.any fun b => b.isEmpty) (fun m t =>
    let r := sealBlank (t.scCtx i) 0 0 true m.segs m.sheets t
    updSc i (fun y => { y with tx := y.tx.map fun z => if z.mseq = m.mseq then { z with segs := r.1 } else z }) r.2) s

/-- The deckle has room for MSG_MAX bytes: the gateway gives receive credit (R224). -/
def State.scRoom (s : State) (i : Nat) : Bool := (s.sc i).bytes + s.scMax i ≤ (s.sc i).felt * 2 ^ 20

/-- A message arrives on an UP transmit end with receive credit. -/
def scMessage (i : Nat) (q : BitVec 24) (data : List Byte) (s : State) : State :=
  let bad := nakReq q (nakSyn 1) ((raiseEv pgOUTER 0x814 5 s).emit (.streamNak q))
  match s.scFmt i with
  | none => bad
  | some f =>
    if data.isEmpty || data.length % f.blkBytes ≠ 0 || data.length > s.scMax i then bad
    else
      let x := s.sc i
      if !s.scRoom i then s
      else
        let ps := scSheets f (bit (s.scCtl i) 8) x.sseq data
        let m : StrmMsg := { mseq := x.mseq, first := x.sseq, sheets := ps.map Prod.fst, segs := [] }
        scSeal i (poolReq .stream (scKey i x.mseq) (some (Fin.ofNat 8 (scJob (s.scCtl i)))) data.length (updSc i (fun y =>
          { y with tx := y.tx ++ [m], mseq := y.mseq + 1, sseq := y.sseq + wd ps.length }) (countPacked 0 ps s)))

/-- The UP transmit end of an ingress queue pair. -/
def State.scOfIn (s : State) (q : BitVec 24) : Option Nat :=
  (List.range 256).find? fun i => s.scUp i && !scRecv (s.scCtl i) && s.regF pgOUTER 0x14C 0 24 i = q.toNat

/-- STREAM_MESSAGE (R224), on a queue pair that takes what arrives. -/
def execStreamMessage (qpn : BitVec 24) (data : List Byte) (s : State) : Res :=
  .next (match (if s.qpTakes qpn then s.scOfIn qpn else none) with | none => s | some i => scMessage i qpn data s)

/-- One resend of a message (R226, 07 R193). -/
def scResend (i : Nat) (m : StrmMsg) (s : State) : State :=
  let lim := m.retx + 1 ≥ s.retxMax && !m.limit
  let m1 := { m with retx := m.retx + 1, limit := m.limit || lim, timer := false }
  let s1 := raiseEv pgRING 0x804 1 (updSc i (fun y => { y with tx := y.tx.map fun z => if z.mseq = m.mseq then m1 else z }) s)
  scTransmit i m1 (whenD lim (raiseEv pgRING 0x808 2) s1)

/-- A message is acknowledged: its felt copy is freed (R226). -/
def scFree (i : Nat) (p : StrmMsg → Bool) (s : State) : State :=
  updSc i (fun y => { y with tx := y.tx.filter fun m => !p m }) s

/-- The transmit end that a record names. -/
def State.scTxOf (s : State) (r : RingRec) : Option Nat := s.scOf false r.jobtag r.chan.toNat

/-- An ACK record arrives. -/
def strmAcked (r : RingRec) (s : State) : State :=
  match s.scTxOf r with | none => s | some i => scFree i (fun m => m.first = r.rseq) s

/-- A REFETCH record arrives: the segment that holds the sheet goes again. -/
def strmRefetch (r : RingRec) (s : State) : State :=
  match s.scTxOf r with
  | none => s
  | some i =>
    let q := r.rseq + wd r.count.toNat
    match (s.sc i).tx.find? fun m => (q - m.first).toNat < m.sheets.length with
    | none => s
    | some m =>
      updPort (scPort (s.scCtl i)) (fun l =>
        { l with segQ := l.segQ ++ [{ job := scJob (s.scCtl i), chan := scChan (s.scCtl i), cw := scKey i m.mseq
                                      i := segOfSheet m.sheets (q - m.first).toNat, last := false }] }) s

/-! ## Receive end (R225, R226) -/

/-- The announced message that a sheet belongs to. -/
def ScEnd.annOf (x : ScEnd) (q : Word) : Option StrmAnn := x.ann.find? fun a => (q - a.first).toNat < a.n

/-- A DAMAGED sheet is requested again; at the limit the end goes to ERROR. -/
def scDamaged (i : Nat) (q : Word) (bytes : List Byte) (c : Cause) (s : State) : State :=
  let x := s.sc i
  let asked := match x.rx.find? fun y => y.sseq = q with | some y => y.asked | none => 0
  let ctl := s.scCtl i
  let s1 := countDamaged 0 (scJob ctl) (scChan ctl) q c s
  if asked ≥ max 1 (s.regF (pgSHEET 0) 0x100 0 4) then
    raiseCap pgOUTER 0x818 6 (wd i) (q.setWidth 64) (updSc i (fun y => { y with st := 2 }) s1)
  else
    let s2 := updSc i (fun y =>
      { y with rx := y.rx.filter (fun z => z.sseq ≠ q) ++ [{ sseq := q, bytes := bytes, asked := asked + 1 }] }) (bump (pgSHEET 0) 0x81C 1 s1)
    match x.annOf q with
    | some a => scRec i 5 a.first (q - a.first).toNat 0 s2
    | none => scRec i 5 q 0 0 s2

/-- A sheet under its checks (06 R158); only the last of a message may be shorter. -/
def scCheck (i : Nat) (b : List Byte) (s : State) : State :=
  let x := s.sc i
  let q := shSseq b
  let short : Bool := match x.annOf q with
    | some a => decide ((q - a.first).toNat + 1 = a.n)
    | none => true
  match checkSheet short b with
  | .error c => scDamaged i q b c s
  | .ok r => updSc i (fun y =>
      { y with rx := y.rx.filter (fun z => z.sseq ≠ q) ++ [{ sseq := q, bytes := b, raw := r.body, ok := true }] }) (bump (pgSHEET 0) 0x838 1 s)

/-- The message lies before the one expected next. -/
def ScEnd.past (x : ScEnd) (q : Word) : Bool := (x.sseq - q).toNat - 1 < 2 ^ 31 - 1 && q ≠ x.sseq

/-- A sheet of a stream arrives; one that is waited for goes to its own command. -/
def strmSheet (i : Nat) (b : List Byte) (s : State) : State :=
  let x := s.sc i
  let q := shSseq b
  if x.st ≠ 1 then s
  else
    match x.rx.find? fun y => y.sseq = q with
    | some y => if y.ok then bump pgRING 0x80C 1 s else s.emit (.replacement ⟨64 + i, 0, 0, q⟩ 0 b)
    | none => if x.past q then bump pgRING 0x80C 1 s else scCheck i b s

/-- A replacement of a stream's sheet (R226): late when the end no longer waits for it (06 R161). -/
def strmReplace (i : Nat) (q : Word) (b : List Byte) (s : State) : State :=
  let x := s.sc i
  if x.st = 1 && x.rx.any (fun y => y.sseq = q && !y.ok) then scCheck i b s else bump (pgSHEET 0) 0x824 1 s

/-- An ANNOUNCE of a message, which tells its last sheet: a shorter sheet that came before it and is not the last fails check 1 (06
R148). One already delivered and acknowledged is acknowledged again (R226, 07 R455). -/
def strmAnnounce (r : RingRec) (s : State) : State :=
  match s.scOf true r.jobtag r.chan.toNat with
  | none => s
  | some i =>
    let x := s.sc i
    if x.st ≠ 1 then s
    else if x.past r.rseq then
      whenD (!(x.unacked.any fun u => u.2 = r.rseq)) (scRec i 3 r.rseq 0 0) (bump pgRING 0x80C 1 s)
    else if x.ann.any fun a => a.first = r.rseq then bump pgRING 0x80C 1 s
    else
      let s1 := updSc i (fun y => { y with ann := y.ann ++ [⟨r.rseq, r.count.toNat, r.tbytes.toNat⟩] }) s
      let short := x.rx.filter fun y =>
        y.ok && shEcount y.bytes < 4096 && decide ((y.sseq - r.rseq).toNat + 1 < r.count.toNat)
      forAll short (fun y t => scDamaged i y.sseq y.bytes .header t) s1

/-- The next message of a receive end, whole and checked: its sheets in order. -/
def ScEnd.nextMsg (x : ScEnd) : Option (StrmAnn × List StrmSheet) :=
  match x.ann.find? fun a => a.first = x.sseq with
  | none => none
  | some a =>
    let l := (List.range a.n).filterMap fun k => x.rx.find? fun y => y.sseq = a.first + wd k
    if l.length = a.n && l.all (fun y => y.ok) then some (a, l) else none

/-- STREAM_DELIVERY (R225): into a destination entry that the consumer has freed; a message whose bytes disagree with its
ANNOUNCE is discarded and comes again (07 R189). -/
def execStreamDelivery (i : Fin 256) (s : State) : Res :=
  let x := s.sc i.val
  let k := s.regF pgOUTER 0x160 0 4 i.val
  let qp := BitVec.ofNat 24 (s.regF pgOUTER 0x150 0 24 i.val)
  let rts : Bool := match s.qp? qp with | some q => decide (q.state = 3) | none => false
  .next (if !(s.scUp i.val && scRecv (s.scCtl i.val)) || !rts then s
    else
      match x.nextMsg with
      | none => s
      | some (a, l) =>
        let gone (y : ScEnd) : ScEnd :=
          { y with rx := y.rx.filter fun z => !((z.sseq - a.first).toNat < a.n), ann := y.ann.filter fun b => b.first ≠ a.first }
        if l.foldl (fun n y => n + y.bytes.length) 0 ≠ a.tbytes then
          raiseCap pgRING 0x810 3 (wd (scChan (s.scCtl i.val))) (a.first.setWidth 64) (updSc i.val gone s)
        else if (x.mseq - loW x.consumed).toNat ≥ 2 ^ k then s
        else
          let data := l.flatMap fun y => y.raw
          let va := (s.reg64 pgOUTER 0x154 i.val).toNat + x.mseq.toNat % 2 ^ k * s.scMax i.val
          let imm := wd (x.mseq.toNat % 2 ^ 10 * 2 ^ 22 + data.length % 2 ^ 22)
          rdmaPost (12 + scPort (s.scCtl i.val)) qp va (s.reg pgOUTER 0x15C i.val) data.length (some imm) (.bytes data)
            (.stream i.val x.mseq)
            (bump pgOUTER 0x820 1 (updSc i.val (fun y =>
              { gone y with mseq := y.mseq + 1, sseq := y.sseq + wd a.n, unacked := y.unacked ++ [(y.mseq, a.first)] }) s)))

/-- STREAM_CONSUMER_ACK (R225): a count of consumed messages at 0x1000 + 8 × CHAN of the job's GACK window. -/
def execStreamConsumerAck (j : Job) (off : Nat) (bytes : List Byte) (s : State) : Res :=
  let chan := (off - 0x1000) / 8
  .next (if off < 0x1000 then s
    else if off % 8 ≠ 0 || bytes.length ≠ 8 then raiseEv (pgVAT 0) 0x834 11 s
    else
      match (List.range 256).find? fun i => let c := s.scCtl i; bit c 31 && scRecv c && scJob c = j.val && scChan c = chan with
      | none => raiseEv (pgVAT 0) 0x834 11 s
      | some i => updSc i (fun y => { y with consumed := BitVec.ofNat 64 (leAt bytes 0 8) }) s)

/-- The destination has acknowledged the delivery of a message: the record goes back (R226). -/
def strmDelivered (i : Nat) (mseq : Word) (s : State) : State :=
  match (s.sc i).unacked.find? fun u => u.1 = mseq with
  | none => s
  | some u => scRec i 3 u.2 0 0 (updSc i (fun y => { y with unacked := y.unacked.erase u }) s)

end Sys2Proof.Machine
end

