-- ==== Sys2Proof/Machine/Rings.lean ====
section
/-! DEFINITION. Steps of the shard rings (07): set-up and teardown, SEND and RECV, ring records and timers, arrivals; the
return multicast and the buddy copy (09 R249 to R252); and the effects of writes to the RING page. -/
namespace Sys2Proof.Machine

open Sys2Proof

/-! ## Transmission (R186, R193, R306) -/

/-- Segments of a copy wait on its channel. -/
def State.queued (s : State) (k : Nat) : Bool := s.line.ports.any fun l => l.segQ.any fun q => q.cw = k
def State.queuedSegs (s : State) (k : Nat) : Nat := s.line.ports.toList.foldl (fun a l => a + l.segQ.countP fun q => q.cw = k) 0

/-- An ANNOUNCE is queued for a copy. -/
def announceCw (k : Nat) (s : State) : State :=
  match s.tx? k with
  | none => s
  | some t => sendRec k 1 t.nsheet t.tbytes s

/-- The segments of a copy wait on its channel of its port. -/
def queueSegs (k : Nat) (s : State) : State :=
  match s.tx? k with
  | none => s
  | some t =>
    let c := s.gtCtl (cwGrp k)
    let n := t.segs.length
    updPort t.port (fun l =>
      { l with
        segQ := l.segQ ++ (List.range n).map fun i =>
          { job := gtJob c, chan := (cwChan s k).toNat, cw := k, i := i, last := decide (i + 1 = n) } }) s

/-- ANNOUNCE and every sheet (R186, R193); no timer runs until the last one has been sent. -/
def transmitCw (k : Nat) (s : State) : State :=
  match s.tx? k with
  | none => s
  | some t => queueSegs k (announceCw k (putTx k { t with timer := .none } s))

/-- The sealed segments of a chunk-wave's sheets; a group of one member seals nothing (16 R399). -/
def sealCw (k : Nat) (sheets : List (List Byte)) (s : State) : Option (List (List Byte) × State) :=
  if s.grpM (cwGrp k) ≤ 1 then some ([], s)
  else sealAll (s.cwCtx k) (s.grpEpoch (cwGrp k)) (wd (cwRseq k)) false (segsOf sheets) s

/-- A copy is written to felt, sealed, and queued (R17, R37, R306); with one member it is only kept (16 R399). The SEND that
made it has completed. None while no context can seal. -/
def sealCopy (k : Nat) (sheets : List (List Byte)) (s : State) : Option State :=
  let g := cwGrp k
  let d := s.cwCtx k
  let alone := s.grpM g ≤ 1
  match sealCw k sheets s with
  | none => none
  | some (segs, s1) =>
    let t : TxCw :=
      { port := d.port, sheets := sheets, segs := segs, nsheet := sheets.length
        tbytes := sheets.foldl (fun a b => a + b.length) 0, receipt := alone, ack := alone, credit := alone }
    some (if alone then putTx k t s1 else transmitCw k (bump pgRING 0x820 1 (putTx k t s1)))

/-- A SEND whose sheets have passed: sealed, counted and completed, or still ACTIVE while nothing can seal (12 R320). -/
def sendSheets (e : Entry) (k : Nat) (sheets : List (List Byte)) (s : State) : State :=
  match sealCopy k sheets s with
  | none => noteWait (s.cwCtx k) s
  | some s1 =>
    finish e.id (updStats e.d.job.val e.d.ream
      (fun x => { x with sheetBytes := x.sheetBytes + sheets.foldl (fun a b => a + b.length) 0 }) s1)

/-! ## SEND and RECV (R164, R183, R188) -/

/-- The operations of a line die. -/
def isLineOp (p : Nat) (e : Entry) : Bool := e.d.unit = p && (e.d.opcode = 4 || e.d.opcode = 5)

/-- Issues a line die's next operation if the row serves it. -/
def lineIssue (p : Nat) (serves : Entry → Bool) (run : Entry → State → State) (s : State) : State :=
  match s.pick 3 p (isLineOp p) with
  | none => s
  | some e => if serves e then run e (issue 3 p e s) else s

/-- A SEND of the sheets of a completed PACK; the couch stage checks each CRC (06 R157). -/
def sendOp (e : Entry) (s : State) : State :=
  match s.cwOf e.d, s.cbOf e.d.unit e.d.job.val e.d.qbid with
  | some k, some (_, b) =>
    let bad := b.sheets.countP fun x => !crcOk x
    if !b.done then faultOp e.id 0x17 0 s
    else if bad > 0 then bumpEv (pgSHEET e.d.unit) 0x818 1 bad (faultOp e.id 0x18 0 s)
    else sendSheets e k b.sheets s
  | _, _ => faultOp e.id 0x17 0 s

/-- SEND (R186, R164, 06 R157). -/
def execSend (p : Port) (s : State) : Res := .next (lineIssue p.val (fun e => e.d.opcode = 4 && !e.d.fwd) sendOp s)

/-- The receive copy that a forward SEND sends on. -/
def State.fwdFrom (s : State) (e : Entry) : Option Nat :=
  match s.cwOf e.d with
  | none => none
  | some k => if e.d.xfer = 0 then none else some (cwKey (cwGrp k) (cwHalf k) (e.d.xfer - 1) e.d.rseq)

/-- The sheets of a copy that fail the couch stage's check: each is DAMAGED, and asked for again (06 R157, R160). -/
def fwdDamage (e : Entry) (k : Nat) (bad : List Nat) (s : State) : State :=
  forAll bad (fun i t =>
    let b := (t.cwSheet? k i).getD []
    let g : Dmg := { target := e.id, cw := k, i := i }
    askSheet e.id e.d.unit e.d.unit g (countDamaged e.d.unit e.d.job.val e.d.chan (shSseq b) .crc
      (t.updSheet fun x => { x with damaged := x.damaged ++ [g] }))) s

/-- A forward SEND goes out once every sheet has passed the couch stage's check (06 R157). -/
def fwdRun (e : Entry) (k : Nat) (s : State) : State :=
  match s.cwOf e.d, s.rx? k with
  | some k', some r =>
    if s.dmgOf e.id then s
    else
      let bad := (List.range (r.nsheet.getD 0)).filter fun i => !crcOk ((SMap.find r.sheets i).getD [])
      if bad.isEmpty then sendSheets e k' r.all s else fwdDamage e k bad s
  | _, _ => s

def sendFwdOp (e : Entry) (s : State) : State :=
  match s.fwdFrom e with
  | none => faultOp e.id 0x1E 0 s
  | some k =>
    match s.rx? k with
    | none => faultOp e.id 0x1E 0 s
    | some r => if !r.recvd then faultOp e.id 0x1E 0 s else fwdRun e k s

/-- SEND_FWD (R183, 06 R157). -/
def execSendFwd (p : Port) (s : State) : Res := .next (lineIssue p.val (fun e => e.d.opcode = 4 && e.d.fwd) sendFwdOp s)

/-- A replacement of a sheet that a forward SEND waits for. -/
def fwdReplace (e : Entry) (g : Dmg) (b : List Byte) (s : State) : State :=
  let s1 := putSheet g.cw g.i b s
  if crcOk b then fwdRun e g.cw (dropDmg g s1)
  else
    let s2 := countDamaged e.d.unit e.d.job.val e.d.chan (shSseq b) .crc s1
    if g.refetches ≥ s2.refetchMax e.d.unit then
      raiseEv (pgSHEET e.d.unit) 0x820 2 (faultOp e.id 0x19 0
        (s2.updSheet fun x => { x with damaged := x.damaged.filter fun y => y.target ≠ e.id }))
    else askSheet e.id e.d.unit e.d.unit g s2

/-- Adoption chunk-waves of a group whose sheets are here go out, each once its place in the lane is free (R190, 16 R397); one that
cannot seal stays. -/
def adoptPump (g : Nat) (s : State) : State :=
  forAll (s.mgrp g).sends (fun a t =>
    match a.sheets with
    | none => t
    | some sheets =>
      if (t.ctr (t.gateCtr g a.half 0)).toNat ≤ a.place then t
      else
        let k := cwKey g a.half 0 a.rseq
        match sealCopy k sheets t with
        | none => noteWait (t.cwCtx k) t
        | some u => u.updMgmt fun m =>
            { m with grps := SMap.modify (fun _ => ({} : MGrp)) g (fun x => { x with sends := x.sends.filter fun b => b ≠ a }) m.grps }) s

/-- A ring copy's segments whose engine failed are sealed again (12 R320). -/
def resealCw (k : Nat) (s : State) : State :=
  match s.tx? k with
  | none => s
  | some t =>
    if t.segs.all fun b => !b.isEmpty then s
    else
      let r := sealBlank (s.cwCtx k) (s.grpEpoch (cwGrp k)) (wd (cwRseq k)) false t.segs t.sheets s
      putTx k { t with segs := r.1 } r.2

/-- Every segment in felt whose engine failed is sealed again. -/
def resealBlanks (s : State) : State :=
  forAll (s.outer.sc.map Prod.fst) scReseal (forAll (s.ring.tx.map Prod.fst) resealCw s)

/-- SENDs, adoptions and stream messages that could not seal go on when an engine or a session allows it (12 R313, R320). -/
def resumeSends (s0 : State) : State :=
  let s := resealBlanks s0
  forAll (s.mgmt.grps.map Prod.fst) adoptPump <| forAll (s.outer.sc.map Prod.fst) scSeal <| forAll (s.activeOf fun e => e.d.opcode = 4 && e.work = Work.running) (fun e t =>
    match t.cwOf e.d with
    | none => t
    | some k =>
      if (t.tx? k).isSome then t
      else if e.d.fwd then (match t.fwdFrom e with | some k' => fwdRun e k' t | none => t)
      else sendOp e t) s

/-- A RECV completes with its chunk-wave's RECEIPT (R188). -/
def recvOp (e : Entry) (s : State) : State :=
  match s.cwOf e.d with
  | none => s
  | some k => match s.rx? k with | some r => if r.receipt then finish e.id s else s | none => s

/-- RECV (R184, R188). -/
def execRecv (p : Port) (s : State) : Res := .next (lineIssue p.val (fun e => e.d.opcode = 5) recvOp s)

/-! ## Arrivals (R184 to R189, R455) -/

/-- The transfer in which this gateway receives the chunk-wave of an RSEQ. -/
def State.rxXfer (s : State) (g rseq : Nat) : Nat :=
  let c := rseq / 2 ^ 27
  if rseq % 2 = 0 then s.hopsAt g (c % 2) (c / 2) - 1 else s.agRecv g (c % 2) (c / 2)

/-- Freed within the memory of R455. -/
def State.cwMem? (s : State) (k : Nat) : Option CwMem := s.ring.mem.find? fun m => m.key = k

/-- The records already sent for a chunk-wave go again (R455). -/
def repeatRecs (k : Nat) (s : State) : State :=
  match s.rx? k with
  | some r => whenD r.ack (sendRec k 3 0 0) (whenD r.receipt (sendRec k 2 0 0) s)
  | none =>
    match s.cwMem? k with
    | some m => sendRec k 4 0 0 (whenD m.ack (sendRec k 3 0 0) (sendRec k 2 0 0 s))
    | none => s

/-- A chunk-wave that is whole: RECEIPT, and its RECV completes, or an adoption's goes to its own command; one whose bytes or indices disagree is discarded (R188,
R189). -/
def assemble (k : Nat) (s : State) : State :=
  match s.rx? k with
  | none => s
  | some r =>
    match r.nsheet with
    | none => s
    | some n =>
      let exc := r.sheets.any fun kv => n ≤ kv.1
      if r.receipt || (!exc && r.sheets.length < n) then s
      else if exc || r.sheets.foldl (fun a kv => a + kv.2.length) 0 ≠ r.tbytes then
        raiseCap pgRING 0x810 3 (wd ((cwChan s k).toNat + cwXfer k * 2 ^ 8)) (BitVec.ofNat 64 (cwRseq k))
          (s.updRing fun x => { x with rx := SMap.erase k x.rx })
      else
        let s1 := sendRec k 2 0 0 (bump pgRING 0x824 1 (putRx k { r with receipt := true } s))
        if cwRseq k / 2 % 2 ^ 26 < (s.grp (cwGrp k)).nbase then s1.emit (.adoption ⟨cwGrp k, cwHalf k, cwXfer k, wd (cwRseq k)⟩)
        else forAll (s1.activeOf fun e => e.d.opcode = 5 && s1.cwOf e.d = some k) (fun e t => finish e.id t) s1

/-- One sheet of a chunk-wave arrives (R184, R189); one that is waited for goes to its own command, and one that was asked for and is
no longer pending is late (06 R161). -/
def sheetArrive (k : Nat) (b : List Byte) (s : State) : State :=
  let i := (shSseq b).toNat % 1024
  let r := (s.rx? k).getD {}
  if s.sheet.damaged.any fun g => g.cw = k && g.i = i then
    s.emit (.replacement ⟨cwGrp k, cwHalf k, cwXfer k, wd (cwRseq k)⟩ i b)
  else if s.sheet.asked.any fun a => a.1 = k && a.2.1 = i then answered k i (lateSheet k i s)
  else if (s.cwMem? k).isSome || r.receipt || (SMap.find r.sheets i).isSome then bump pgRING 0x80C 1 s
  else assemble k (putRx k { r with sheets := SMap.put i b r.sheets } s)

/-- An EPOCH_NAK to a sender, at most one per 10 ms (16 R401): the current epoch and the holder of the sender's position. -/
def epochNak (g : Nat) (seid : BitVec 16) (s : State) : State :=
  let key := seid.toNat * 64 + g
  let recent : Bool := match SMap.find s.mgmt.nakAt key with
    | some t => decide ((s.time.nt - t).toNat < 10000000)
    | none => false
  if recent then s
  else
    let dig := match s.peerIx seid.toNat with
      | some i =>
        ((SMap.get (fun _ => ({} : MPeer)) s.mgmt.peers i).holder.getD
          (pairW (s.reg (pgCIPH 0) 0x124 i) (s.reg (pgCIPH 0) 0x120 i))).toNat
      | none => 0
    (s.updMgmt fun m => { m with nakAt := SMap.put key s.time.nt m.nakAt }).emit
      (.root seid "EPOCH_NAK" [g, (s.grpEpoch g).toNat, seid.toNat, dig])

/-- The group that a ring record or segment of a channel is for, when it carries and the role epoch is current; else the
record is dropped (R185, R196). -/
def ringGuard (port : Nat) (tag : Word) (chan : Nat) (epoch : Word) (f : Nat → State → State) (s : State) : State :=
  match s.grpOfTag tag chan with
  | none => s
  | some g =>
    if !s.grpLive g then s
    else if epoch ≠ s.grpEpoch g then
      let c := s.gtCtl g
      epochNak g (s.gtSeid g (stepPos (gtS c) port (gtPos c))) (raiseEv pgRING 0x814 4 s)
    else f g s

def recKey (g : Nat) (r : RingRec) : Nat := cwKey g (r.chan.toNat % 2) r.xfer.toNat r.rseq.toNat

/-- ANNOUNCE (R186, R189, R455). -/
def execAnnounce (p : Port) (r : RingRec) (s : State) : Res :=
  .next (if r.chan.toNat ≥ 32 then strmAnnounce r s else ringGuard p.val r.jobtag r.chan.toNat r.epoch (fun g t =>
    let k := recKey g r
    let x := (t.rx? k).getD {}
    if (t.cwMem? k).isSome || x.nsheet.isSome then repeatRecs k (bump pgRING 0x80C 1 t)
    else assemble k (putRx k { x with nsheet := some r.count.toNat, tbytes := r.tbytes.toNat } t)) s)

/-! ## Records back from the receiver (R188, R193) -/

/-- RECEIPT, ACK or CREDIT: each stops the resend timer; the probe timer runs until ACK and CREDIT have both arrived. -/
def recBack (f : TxCw → TxCw) (g : Nat) (r : RingRec) (s : State) : State :=
  let k := recKey g r
  match s.tx? k with
  | none => s
  | some t =>
    let t1 := { f t with receipt := true }
    let t2 := { t1 with timer := if t1.ack && t1.credit then .none else if t.receipt then t1.timer else .probe }
    txSettle k (putTx k t2 s)

def execReceipt (p : Port) (r : RingRec) (s : State) : Res :=
  .next (ringGuard p.val r.jobtag r.chan.toNat r.epoch (recBack id · r) s)

def execAck (p : Port) (r : RingRec) (s : State) : Res :=
  .next (if r.chan.toNat ≥ 32 then strmAcked r s
    else ringGuard p.val r.jobtag r.chan.toNat r.epoch (fun g t => adoptPump g (recBack (fun x => { x with ack := true }) g r t)) s)

def execCredit (p : Port) (r : RingRec) (s : State) : Res :=
  .next (ringGuard p.val r.jobtag r.chan.toNat r.epoch (fun g t => adoptPump g (recBack (fun x => { x with credit := true }) g r t)) s)

/-- REFETCH (R188): the segment that holds sheet i is sent again. -/
def execRefetch (p : Port) (r : RingRec) (s : State) : Res :=
  .next (if r.chan.toNat ≥ 32 then strmRefetch r s else ringGuard p.val r.jobtag r.chan.toNat r.epoch (fun g t =>
    let k := recKey g r
    match t.tx? k with
    | none => t
    | some x =>
      if r.count.toNat ≥ x.sheets.length then t
      else updPort x.port (fun l =>
        { l with segQ := l.segQ ++ [{ job := gtJob (t.gtCtl g), chan := r.chan.toNat, cw := k
                                      i := segOfSheet x.sheets r.count.toNat, last := false }] }) t) s)

/-! ## Timers (R193, R195) -/

/-- RING_RTT_OVER is raised once each time the round trip first exceeds RTT_MAX for the group (R195). -/
def rttCheck (g port : Nat) (s : State) : State :=
  let exc := SMap.get (fun _ => 0) s.ring.rtt port > s.regF pgRING 0x128 0 20 g
  let had := SMap.get (fun _ => false) s.ring.rttOver (2 * g + port)
  let s1 := s.updRing fun r => { r with rttOver := SMap.set (fun _ => false) (2 * g + port) exc r.rttOver }
  if exc && !had then raiseEv pgRING 0x818 5 s1 else s1

/-- One resend (R193). -/
def resendCw (k : Nat) (s : State) : State :=
  match s.tx? k with
  | none => s
  | some t =>
    let lim := t.retx + 1 ≥ s.retxMax && !t.limit
    let s1 := raiseEv pgRING 0x804 1 (putTx k { t with retx := t.retx + 1, limit := t.limit || lim } s)
    transmitCw k (whenD lim (raiseEv pgRING 0x808 2) s1)

def CwId.key (c : CwId) : Nat := cwKey c.grp c.half c.xfer c.rseq.toNat

/-- A probe: the ANNOUNCE alone (R193). -/
def probeCw (k : Nat) (s : State) : State :=
  match s.tx? k with
  | none => s
  | some t => announceCw k (putTx k { t with timer := .probe } s)

/-- PROBE_TIMER (R193). -/
def execProbeTimer (cw : CwId) (s : State) : Res :=
  .next (match s.tx? (CwId.key cw) with
    | some t => if t.timer = .probe && !(t.ack && t.credit) then probeCw (CwId.key cw) s else s
    | none => s)

/-- What is left of a copy's transmission is taken off its channel. -/
def unqueueCw (k : Nat) (t : TxCw) (s : State) : State :=
  updPort t.port (fun l =>
    { l with
      segQ := l.segQ.filter fun q => q.cw ≠ k
      recQ := l.recQ.filter fun q =>
        !(q.kind = 1 && q.r.jobtag = s.gtTag (cwGrp k) && q.r.chan = cwChan s k && q.r.xfer.toNat = cwXfer k && q.r.rseq = wd (cwRseq k)) }) s

/-- When a defect of a port clears, or a group leaves HELD, its copies without a RECEIPT go again and the others are probed
(R193, R194); a copy of which nothing has been sent yet is still to go. -/
def resendSome (p : Nat → TxCw → Bool) (s : State) : State :=
  forAll (s.ring.tx.filter fun kv => p kv.1 kv.2) (fun kv t =>
    if kv.2.retx = 0 && !kv.2.segs.isEmpty && t.queuedSegs kv.1 = kv.2.segs.length then t
    else if !kv.2.receipt then resendCw kv.1 (unqueueCw kv.1 kv.2 t)
    else if !(kv.2.ack && kv.2.credit) then probeCw kv.1 t
    else t) s

/-! ## Set-up and teardown (R172, R175, R176, R190 to R192) -/

/-- Bytes of a place, and MiB of a reservation. -/
def State.placeBytes (s : State) (g : Nat) : Nat :=
  s.gtVslots g * 32800 + 63 * ceilDiv (2 * s.gtVslots g) 3
def State.grpMib (s : State) (g : Nat) : Nat :=
  ceilDiv ((2 * gtS (s.gtCtl g) - 2) * s.gtDepth g * s.placeBytes g) (2 ^ 20)

/-- Reasons of Table 7.11. -/
def refuseSetup (g reason : Nat) (s : State) : State :=
  let x := s.grp g
  let free (t : State) (p : Nat) : State := updPort p (fun l => { l with feltMib := l.feltMib - x.txMib - x.rxMib }) t
  raiseCap pgRING 0x800 0 (wd (g + reason * 2 ^ 6)) 0
    (updGrp g (fun y => { y with st := .refused, reason := reason, txMib := 0, rxMib := 0, okNext := false, okPrev := false })
      (free (free s 0) 1))

/-- SEID of the neighbour at p + 1 (`next`) or p − 1. -/
def State.nbrSeid (s : State) (g : Nat) (next : Bool) : BitVec 16 :=
  let c := s.gtCtl g
  s.gtSeid g (stepPos (gtS c) (if next then 0 else 1) (gtPos c))

/-- Set-up starts. -/
def setupStart (g : Nat) (s : State) : State :=
  let c := s.gtCtl g
  let ids := (List.range (gtS c)).map (s.gtSite g)
  let m := s.grpMib g
  let s1 := updGrp g (fun _ => { st := .setup }) s
  if gtPos c ≥ gtS c || ids.eraseDups.length ≠ ids.length then refuseSetup g 5 s1
  else if !s.peerLive (s.nbrSeid g true).toNat || !s.peerLive (s.nbrSeid g false).toNat then refuseSetup g 1 s1
  else if s.feltRoom 0 < 2 * m || s.feltRoom 1 < 2 * m then refuseSetup g 4 s1
  else
    let take (t : State) (p : Nat) : State := updPort p (fun l => { l with feltMib := l.feltMib + 2 * m }) t
    updGrp g (fun x => { x with txMib := m, rxMib := m }) (take (take s1 0) 1)

/-- An operation in the scoreboard names one of the group's channels (R176). -/
def State.chanBusy (s : State) (g : Nat) : Bool :=
  let c := s.gtCtl g
  (s.jobOps (gtJob c)).any fun e =>
    (e.d.opcode = 4 || e.d.opcode = 5 || (e.d.opcode = 6 && !e.d.refetch)) && e.d.chan / 2 = gtGroup c && e.d.chan < 32

/-- Copies, queued segments and records of a group go. -/
def dropGroup (g : Nat) (s : State) : State :=
  let c := s.gtCtl g
  let s1 := s.updRing fun r =>
    { r with
      tx := r.tx.filter fun kv => cwGrp kv.1 ≠ g
      rx := r.rx.filter fun kv => cwGrp kv.1 ≠ g
      mem := r.mem.filter fun m => cwGrp m.key ≠ g }
  s1.updLine fun l =>
    { l with ports := l.ports.map fun x =>
        { x with
          segQ := x.segQ.filter fun q => cwGrp q.cw ≠ g
          recQ := x.recQ.filter fun q => !(q.job = gtJob c && q.chan / 2 = gtGroup c) } }

/-- Teardown (R176). -/
def teardown (g : Nat) (v : Word) (s : State) : State :=
  let x := s.grp g
  let free (t : State) (p : Nat) : State := updPort p (fun l => { l with feltMib := l.feltMib - x.txMib - x.rxMib }) t
  store pgRING 0x114 g v (updGrp g (fun _ => {}) (free (free (dropGroup g s) 0) 1))

/-- A write of RING_GT_CTL (R172, R175, R176). -/
def gtCtlWr (g : Nat) (v : Word) (s : State) : Eff :=
  let old := s.gtCtl g
  if gtValid old then
    (if gtValid v then (if v = old then .ok s else .error .gtBusy)
     else if s.chanBusy g then .error .gtBusy
     else .ok (teardown g v s))
  else if !gtValid v then .ok (store pgRING 0x114 g v s)
  else if gtS v < 2 || 16 < gtS v then .error .valueRange
  else .ok (setupStart g (store pgRING 0x114 g v s))

/-- H and the site table and ream entries of a job's OCB copy, each STATE_BASE zero (Table 7.1). -/
def State.cfgVar (s : State) (j : Nat) : List Byte :=
  match SMap.find s.outer.ocb j with
  | none => []
  | some b => (b.drop 0x40).take 0x40 ++ (List.range (s.nream j)).flatMap fun r => (b.drop (0x80 + 32 * r)).take 24 ++ natLE 8 0

/-- The configuration digest (R175). -/
def State.gtDigest (s : State) (g : Nat) : List Byte :=
  let c := s.gtCtl g
  let j := gtJob c
  let h := match SMap.find s.outer.ocb j with | none => 0 | some b => leAt b 2 2
  Config.shake256
    (natLE 4 (s.gtTag g).toNat ++ natLE 1 (gtGroup c) ++ natLE 1 (gtS c) ++ natLE 1 (s.gtShard g) ++ natLE 1 (s.gtDepth g) ++
      natLE 2 (s.gtVslots g) ++ natLE 2 (seedCheck j).toNat ++ natLE 2 h ++ natLE 2 (s.nream j) ++
      natLE 8 (s.reg64 pgRING 0x11C g).toNat ++ s.cfgVar j) 16

/-- A SETUP message to a neighbour. -/
def setupMsgTo (g : Nat) (next : Bool) (s : State) : State :=
  let c := s.gtCtl g
  s.emit (.setup g next
    { jobtag := s.gtTag g, group := gtGroup c, s := gtS c, pos := gtPos c, seedCheck := seedCheck (gtJob c)
      epoch := s.grpEpoch g, digest := s.gtDigest g })

/-- SETUP goes to the neighbours that have not answered, once the job is enabled and after the WAVES check (R175). -/
def setupSend (g : Nat) (s : State) : State :=
  let j := gtJob (s.gtCtl g)
  let many := (List.range (s.nream j)).any fun r => s.reamWaves j g r > 16384
  if (s.grp g).st ≠ .setup || (SMap.find s.outer.ocb j).isNone then s
  else if many then refuseSetup g 8 s
  else
    let s1 := if (s.grp g).okNext then s else setupMsgTo g true s
    if (s.grp g).okPrev then s1 else setupMsgTo g false s1

/-- SETUP_SEND and, every 100 ms, SETUP_RETRY (R175). -/
def execSetupSend (g : Fin 64) (s : State) : Res := .next (setupSend g.val s)
def execSetupRetry (g : Fin 64) (s : State) : Res := .next (setupSend g.val s)

/-- What a SETUP differs in: the REASON of the REFUSE, 0 for OK (Table 7.11). -/
def State.setupReason (s : State) (g : Nat) (m : SetupMsg) : Nat :=
  let c := s.gtCtl g
  if m.epoch ≠ s.grpEpoch g then 6
  else if m.seedCheck ≠ seedCheck (gtJob c) then 3
  else if m.s ≠ gtS c || (m.pos ≠ (gtPos c + 1) % gtS c && (m.pos + 1) % gtS c ≠ gtPos c) then 5
  else if m.digest ≠ s.gtDigest g then 2
  else 0

/-- SETUP_MESSAGE (R175): answered OK or REFUSE; discarded without a VALID entry, or while the job is not enabled. -/
def execSetupMessage (m : SetupMsg) (s : State) : Res :=
  .next (match s.grpOfTag m.jobtag (2 * m.group) with
    | none => s
    | some g =>
      if (SMap.find s.outer.ocb (gtJob (s.gtCtl g))).isNone then s
      else
        let r := s.setupReason g m
        s.emit (.root (s.gtSeid g m.pos) "SETUP_ANSWER" [(s.gtTag g).toNat, m.group, b2n (r = 0), r]))

/-- The round from which RSEQ counts: the next that the job's reams run. -/
def State.nextRound (s : State) (j : Nat) : Nat :=
  if SMap.get (fun _ => false) s.outer.planned (reamIx j 0) then s.roundOf j 0
  else (s.reg pgOUTER (0x218 + 0x40 * j)).toNat

/-- Set-up sets each gate counter to DEPTH (R190). -/
def setGates (g : Nat) (s : State) : State :=
  let n := 2 * gtS (s.gtCtl g) - 2
  evalJob (gtJob (s.gtCtl g))
    (forAll (List.range (2 * n)) (fun i t => setCtr (t.gateCtr g 0 0 + i) (wd (t.gtDepth g)) t)
      (s.updRing fun r => { r with gateN := r.gateN.filter fun kv => kv.1 / 64 ≠ g }))

/-! ## Return multicast (08 R215 to R217, 09 R249, R250) -/

/-- A SCATTER whose every remaining contributor has acknowledged completes (R217). -/
def scatterSettle (id : Nat) (s : State) : State :=
  match s.entry? id with
  | none => s
  | some e => if e.d.opcode = 9 && (e.cset &&& ~~~ e.acked) = 0 then finish id s else s

/-- Bytes of an element of the wave that a SCATTER writes, and its elements up to the ream's last real one (R215). -/
def State.scatLen (s : State) (e : Entry) (w : Wave) : Nat :=
  min (w.slots.length * 8192) (s.nelem e.d.job.val w.ream - w.ebase * 8192)

/-- The return write of one contributor, the `b`-th of its pass. -/
def returnWrite (e : Entry) (w : Wave) (c b : Nat) (s : State) : State :=
  let j := e.d.job.val
  let eoff := match s.ocbReam j e.d.ream with | some b => leAt b 0x10 8 % 2 ^ 36 | none => 0
  let va := (s.reg64 pgOUTER 0x104 (ctIx j c)).toNat + w.retW * (eoff + w.ebase * 8192)
  let imm := wd (e.d.ream * 2 ^ 22 + w.round.toNat % 256 * 2 ^ 14 + e.d.arg 0 14)
  let n := s.scatLen e w
  rdmaPost 19 (BitVec.ofNat 24 (fld (s.ctGqpn j c) 0 24)) va (s.reg pgOUTER 0x10C (ctIx j c)) (n * w.retW) (some imm)
    (.wave j e.d.wave n) (.scatter e.id c b) s

/-- The next pass of a SCATTER: up to 64 contributors in ascending ID (09 R249). -/
def scatterPass (id : Nat) (s : State) : State :=
  match s.entry? id with
  | none => s
  | some e =>
    match s.waveOn e.d with
    | none => s
    | some w =>
      let pass := (setIdx e.todo).take 64
      let m : BitVec 512 := BitVec.ofNat 512 (bitsNat pass)
      scatPump id (forAll pass.zipIdx (fun cb t => returnWrite e w cb.1 cb.2 t)
        (updEntry id (fun x => { x with todo := x.todo &&& ~~~ m }) s))

/-- A pass that every contributor of it has acknowledged is followed by the next; a SCATTER with none left completes (log 150). -/
def scatterGo (id : Nat) (s : State) : State :=
  match s.entry? id with
  | none => s
  | some e =>
    scatterSettle id (whenD ((e.cset &&& ~~~ e.acked &&& ~~~ e.todo) = 0 && e.todo ≠ 0) (scatterPass id) s)

/-- Contributors of the passes so far acknowledge a SCATTER. -/
def scatterMark (id : Nat) (acks : BitVec 512) (s : State) : State :=
  scatterGo id (updEntry id (fun e => { e with acked := e.acked ||| (acks &&& e.cset &&& ~~~ e.todo) }) s)

/-- What the acknowledgement of a message completes. -/
def msgDone (f : MsgFor) (s : State) : State :=
  match f with
  | .none => s
  | .scatter id c _ => scatterMark id (1 <<< c : BitVec 512) s
  | .copy id => finish id s
  | .stream i mseq => strmDelivered i mseq s

/-- Everything up to a PSN is acknowledged on a queue pair (09 R236). -/
def qpAcked (qpn psn : BitVec 24) (s : State) : State :=
  match s.qp? qpn with
  | none => s
  | some q => if q.acks psn then forAll (q.doneBy psn) msgDone (putQp (q.ackTo psn) s) else s

/-- The message of a purpose is acknowledged, with what was sent before it on its queue pair; without one, what it completes is done. -/
def ackFor (f : MsgFor) (s : State) : State :=
  match s.fab.qps.findSome? fun kv => (kv.2.outq.find? fun m => m.for_ = f).map fun m => (kv.2.qpn, m) with
  | some (qpn, m) => qpAcked qpn (m.first + BitVec.ofNat 24 (m.n - 1)) s
  | none => msgDone f s

/-- The mask bit of a contributor in its pass. -/
def State.maskOf (s : State) (id c : Nat) : Nat :=
  ((s.scatMsgs id).findSome? fun x => match x.2.for_ with | .scatter _ y b => if y = c then some b else none | _ => none).getD 0

/-- The acknowledgements of a SCATTER's contributors, each with the messages of its queue pair; pass after pass. -/
def scatterAcks (id : Nat) (acks : BitVec 512) (s : State) : State :=
  fabPump (forAll (List.range 8) (fun _ t =>
    match t.entry? id with
    | none => t
    | some e =>
      let now := (setIdx (acks &&& e.cset &&& ~~~ e.acked &&& ~~~ e.todo)).take 64
      forAll now.zipIdx (fun cb u => ackFor (.scatter id cb.1 (u.maskOf id cb.1)) u) t) s)

/-- A contributor is left out of a SCATTER: it has no return target, or its grant queue pair cannot send (R215). -/
def State.scatterOut (s : State) (j c : Nat) : Bool :=
  !bit (s.reg pgOUTER 0x110 (ctIx j c)) 31 || !bit (s.ctGqpn j c) 31 ||
  (match s.qp? (BitVec.ofNat 24 (fld (s.ctGqpn j c) 0 24)) with | some q => q.state ≠ 3 | none => true)

def scatterOp (e : Entry) (acks : BitVec 512) (s : State) : State :=
  let j := e.d.job.val
  match s.waveOn e.d with
  | none => faultOp e.id 0x15 0 s
  | some w =>
    if w.content ≠ .ret then faultOp e.id 0x15 0 s
    else if s.wavePoisoned w then poisonFault e.id w s
    else
      let all := setIdx (s.cmap j)
      let set := all.filter fun c => !s.scatterOut j c
      let s1 := bumpEv pgOUTER 0x808 2 (all.countP (s.scatterOut j)) s
      let m : BitVec 512 := BitVec.ofNat 512 (bitsNat set)
      scatterAcks e.id acks (scatterGo e.id (updEntry e.id (fun x => { x with cset := m, todo := m }) s1))

/-- The running SCATTER that was issued first. -/
def State.scatterFirst (s : State) : Option Entry :=
  (s.activeOf fun e => e.d.opcode = 9 && e.work = Work.running).head?

/-- The switch core's next operation: the rule of R45 over SCATTER and COPY together; while 8 SCATTERs are ACTIVE (R249) no further
one is taken. -/
def State.swPick (s : State) : Option Entry :=
  let n := (s.activeOf fun e => e.d.opcode = 9).length
  s.pick 4 0 fun e => e.d.opcode = 10 || (e.d.opcode = 9 && n < 8)

/-- The operation that a row serves, where it is the switch core's next. -/
def State.swNext (s : State) (opcode : Nat) : Option Entry := s.swPick.filter fun e => e.d.opcode = opcode

/-- SCATTER (08 R215, 09 R249): the next one is issued, at most 8 ACTIVE, and contributors acknowledge; with none READY they
acknowledge the one that was issued first. -/
def execScatter (acks : BitVec 512) (s : State) : Res :=
  .next (match s.swNext 9 with
    | some e => scatterOp e acks (issue 4 0 e s)
    | none =>
      match s.scatterFirst with
      | some e => scatterAcks e.id acks s
      | none => s)

/-- A contributor leaves every running SCATTER of a job: removed from the collection map, or its grant QP in error (R217). -/
def scatterDrop (j : Nat) (gone : BitVec 512) (skip : Bool) (s : State) : State :=
  forAll (s.activeOf fun e => e.d.opcode = 9 && e.d.job.val = j && e.work = Work.running && (e.cset &&& gone) ≠ 0)
    (fun e t =>
      let n := popc (e.cset &&& gone &&& ~~~ e.acked)
      scatterGo e.id (updEntry e.id (fun x => { x with cset := x.cset &&& ~~~ gone, todo := x.todo &&& ~~~ gone })
        (if skip then bumpEv pgOUTER 0x808 2 n t else t))) s

/-! ## Buddy copy (09 R251) -/

/-- The copy in felt that a COPY reads: its key and sheets. -/
def State.copySrc (s : State) (e : Entry) : Option (Nat × List (List Byte)) :=
  match s.grpOfChan e.d.job.val (e.d.arg 0 8) with
  | none => none
  | some g =>
    let k := cwKey g (e.d.arg 0 8 % 2) (e.d.arg 8 5) e.d.rseq
    match s.rx? k with
    | some r => if r.receipt then some (k, r.all) else none
    | none =>
      match s.tx? k with
      | some t => if t.freed then none else some (k, t.sheets)
      | none => none

/-- The buddy has acknowledged a COPY. -/
def copyAck (id : Nat) (s : State) : State := fabPump (ackFor (.copy id) s)

def copyOp (e : Entry) (ack : Bool) (s : State) : State :=
  match s.copySrc e, s.copyQp? e.d.job.val (e.d.arg 16 13) with
  | some (k, sheets), some q =>
    let s1 := match s.tx? k with
      | some t => updEntry e.id (fun x => { x with pos := k + 1 }) (putTx k { t with reads := t.reads + 1 } s)
      | none => s
    let s2 := rdmaPost (cdInput e.d.unit) q.qpn q.copyVa.toNat q.copyKey sheets.flatten.length (some (wd e.d.rseq)) (.felt k)
      (.copy e.id) s1
    whenD ack (copyAck e.id) s2
  | _, _ => faultOp e.id 0x1E 0 s

/-- COPY (09 R251): the next one is issued; it completes when the buddy acknowledges. With none READY, the running one that
was issued first is acknowledged. -/
def execCopy (ack : Bool) (s : State) : Res :=
  .next (match s.swNext 10 with
    | some e => copyOp e ack (issue 4 0 e s)
    | none =>
      match (s.activeOf fun e => e.d.opcode = 10 && e.work = Work.running).head? with
      | some e => whenD ack (copyAck e.id) s
      | none => s)

/-- STREAM_ACK (08 R226): at the receive end the destination has acknowledged message `seq`, and the record goes back; at the
transmit end the record frees the felt copy. -/
def execStreamAck (i : Fin 256) (seq : Word) (s : State) : Res :=
  .next (if !bit (s.scCtl i.val) 31 then s
    else if scRecv (s.scCtl i.val) then fabPump (ackFor (.stream i.val seq) s)
    else scFree i.val (fun m => m.mseq = seq) s)

/-! ## Writes to the RING page (Table 7.7) -/

def ringEffect (p o ix : Nat) (v : DWord) (s : State) : Eff :=
  if o = 0x100 then .ok (store p o 0 (loW v) s)
  else if o = 0x114 then gtCtlWr ix (loW v) s
  else if gtValid (s.gtCtl ix) then .error .gtBusy
  else if o = 0x11C then .ok (storePair p o ix v s)
  else .ok (store p o ix (loW v) s)

/-- The number of a state (Table 7.11). -/
def GrpSt.num : GrpSt → Nat
  | .down => 0 | .setup => 1 | .up => 2 | .held => 3 | .refused => 4

def ringView (s : State) (o ix : Nat) (v : Word) : Word :=
  let g := s.grp ix
  if o = 0x104 then
    wd ((s.ring.grps.countP fun kv => kv.2.st = .up) + 2 ^ 8 * (s.ring.grps.countP fun kv => kv.2.st = .held))
  else if o = 0x130 then wd (g.reason * 2 ^ 8 + g.st.num)
  else if o = 0x134 then wd (g.rxMib * 2 ^ 16 + g.txMib)
  else if o = 0x138 || o = 0x13C then wd (SMap.get (fun _ => 0) s.ring.rtt ((o - 0x138) / 4))
  else if 0x180 ≤ o && o < 0x190 then wAt (s.gtDigest ix) (o - 0x180)
  else v

end Sys2Proof.Machine
end

