-- ==== Sys2Proof/Machine/Plan.lean ====
section
/-! DEFINITION. The round set and quorum (08 R218, 16 R393), and what the built-in PLAN task submits: chains, engine
descriptors and header values (07 R179, 08 R202, R206, R211 to R213, R219). -/
namespace Sys2Proof.Machine

open Sys2Proof

/-! ## Sites (16 R392, R393) -/

/-- Sites with a peer that is not UNREACHABLE; the own site always (R393). -/
def State.siteReached (s : State) (i : Nat) : Bool :=
  i = s.site || s.mgmt.peers.any fun kv => kv.2.site = i && (kv.2.lease0 || kv.2.lease1)
def State.reach (s : State) : BitVec 16 := BitVec.ofNat 16 (bitsNat ((List.range 16).filter s.siteReached))

/-- WEIGHT and NS of a site in the job's OCB copy (Table 8.2). -/
def State.siteWord (s : State) (j i : Nat) : Word :=
  match SMap.find s.outer.ocb j with | none => 0 | some b => wAt b (0x40 + 4 * i)
def State.siteWeight (s : State) (j i : Nat) : Nat := fld (s.siteWord j i) 0 8
def State.siteNs (s : State) (j i : Nat) : Nat := fld (s.siteWord j i) 16 10

/-- The ring-table entry that PLAN uses for a job (Table 8.12). -/
def State.planGrp (s : State) (j : Nat) : Option Nat := s.grpOfChan j (2 * s.regF pgOUTER (0x200 + 0x40 * j) 0 4)

/-- A site's position in the job's group is fenced. -/
def State.siteFenced (s : State) (j i : Nat) : Bool :=
  match s.planGrp j with
  | none => false
  | some g => (List.range (gtS (s.gtCtl g))).any fun q => s.gtSite g q = i && (s.mgrp g).fenced.getLsbD q

/-- The round set in force (R218). -/
def State.roundSet (s : State) (j : Nat) : List Nat :=
  (List.range 16).filter fun i =>
    i = s.siteOf j || (s.siteReached i && s.siteWeight j i ≠ 0 && !s.siteFenced j i)

/-- Sites of the span. -/
def State.span (s : State) (j : Nat) : List Nat := (List.range 16).filter fun i => s.siteWeight j i ≠ 0
def State.weightOf (s : State) (j : Nat) (l : List Nat) : Nat := l.foldl (fun a i => a + s.siteWeight j i) 0

/-- The side holds the site quorum (R393). -/
def State.quorum (s : State) (j : Nat) : Bool :=
  let side := (s.span j).filter s.siteReached
  let a := s.weightOf j side
  let b := s.weightOf j (s.span j)
  b < 2 * a || (2 * a = b && b > 0 && (side.contains ((s.span j).headD 16)))

/-! ## Chains (07 Table 7.3, 08 Table 8.8) -/

/-- One step of a chain. -/
structure PlStep where
  op : Nat
  unit : Nat
  wave : Nat
  vslots : Nat := 0
  release : Bool := false
  waits : List (Nat × Word) := []
  sigs : List Nat := []
  trig : Option Nat := none
  arg : Nat := 0

def padTo {α : Type} (n : Nat) (a : α) (l : List α) : List α := l ++ List.replicate (n - l.length) a

/-- The descriptor of a step (02 Table 2.3). -/
def PlStep.desc (p : PlStep) (j : Job) (r : Nat) (w : List (Nat × Word)) (g : List Nat) : Desc :=
  { unit := p.unit, cpl := false, nsig := g.length, nwait := w.length, trig := if p.trig.isSome then 1 else 0, job := j
    opcode := p.op, seq := 0, release := p.release, claim := decide (p.vslots ≠ 0), wave := p.wave, vslots := p.vslots
    ream := r, wcnt := padTo 4 0 (w.map Prod.fst), wval := padTo 4 0 (w.map Prod.snd), scnt := padTo 2 0 g
    sinc := padTo 2 0 (g.map fun _ => 1), trigVal := BitVec.ofNat 64 (p.trig.getD 0), opArg := BitVec.ofNat 64 p.arg }

/-- The counter of place `i` of wave `w`, within the job's partition (log 7), and the wait for its next signal. -/
def State.plCtr (s : State) (j r w i : Nat) : Nat := (Config.planCounter j r w i).toNat % max 1 (s.partSize j)
def State.plWait (s : State) (j r w i n : Nat) : Nat × Word :=
  (s.plCtr j r w i, s.ctr (s.partBase j + s.plCtr j r w i) + wd n)

/-- Descriptors of a chain whose places start at `base`; each waits on the one before, the first on place `after`. -/
def State.plChain (s : State) (j : Job) (r w base : Nat) : Option Nat → List PlStep → List Desc
  | _, [] => []
  | after, p :: ps =>
    let first := match after with | none => [] | some i => [s.plWait j r w i 1]
    p.desc j r (first ++ p.waits) (s.plCtr j r w base :: p.sigs) :: s.plChain j r w (base + 1) (some base) ps

/-- The engine-descriptor entry of place `i` of a wave, within the job's partition of the die. -/
def State.plEdx (s : State) (d j r w i : Nat) : Nat := (Config.planEdx j r w i).toNat % max 1 (s.edtSize d j)

/-- Writes an engine descriptor (05 Table 5.2). -/
def putEdesc (d j edx : Nat) (ws : List Word) (s : State) : State :=
  forAll (List.range 16) (fun i t => t.setReg (pgENG d) (0x120 + 4 * i) (ws.getD i 0) (t.edtBase d j + edx)) s

/-- What PLAN reads of a ream entry (Table 8.3). -/
structure PlReam where
  off : Nat
  fret : Nat
  fline : Nat
  optim : Nat
  guard : Nat
  clip : Nat
  ocl : Nat
  hpset : Nat
  utask : Nat
  base : Nat
  deriving DecidableEq, Repr

def plReam (b : List Byte) : PlReam :=
  let w0 := wAt b 0
  let w1 := wAt b 4
  { off := fld w0 16 16, fret := fld w0 12 4, fline := fld w0 8 4, optim := fld w0 0 4, guard := fld w1 24 8
    clip := fld w1 20 4, ocl := fld w1 16 4, hpset := fld w1 8 8, utask := fld w1 0 8, base := leAt b 0x18 8 }

def edRot (inverse : Bool) : List Word := [wd (16 * b2n inverse)]
def edQuant (p : PlReam) : List Word :=
  [wd (1 + p.fline * 2 ^ 12 + p.clip * 2 ^ 16 + p.guard * 2 ^ 20), 0, wd p.base, wd (p.base / 2 ^ 32)]
def edUpd (p : PlReam) (opt : Nat) (noret : Bool) : List Word :=
  [wd (2 + p.fret * 2 ^ 12), wd (opt + 16 * b2n noret + p.hpset * 2 ^ 8), wd p.base, wd (p.base / 2 ^ 32)]
/-- NS_ORTHO of a tile (R213). -/
def edNs (m n a b c : Nat) : List Word :=
  [3, 0, 0, 0, wd m, wd n, 0, wd (5 * 4 + b2n (decide (n < m))), wd a, wd (a / 2 ^ 32), wd b, wd (b / 2 ^ 32), wd c,
    wd (c / 2 ^ 32)]

/-- One wave of the plan: what it needs, named once. -/
structure PlWave where
  j : Job
  r : Nat
  w : Nat
  d : Nat
  g : Nat
  h : Nat
  k : Nat
  p : PlReam
  ebase : Nat
  vslots : Nat
  round : Nat
  trig : Nat
  snap : List (Nat × Word)
  merge : Bool

def PlWave.handle (x : PlWave) (pass : Nat) : Nat := (Config.planWave x.j.val x.r x.w pass).toNat
def PlWave.qbid (x : PlWave) : Nat := (Config.planQbid x.j.val x.r x.w).toNat
def PlWave.rseq (s : State) (x : PlWave) (pass : Nat) : Nat := s.rseqOf x.j.val x.g x.round x.r x.w pass
def PlWave.chan (s : State) (x : PlWave) : Nat := 2 * gtGroup (s.gtCtl x.g) + x.h
def PlWave.task (x : PlWave) : Nat := 4 * x.d + x.w % 4

/-- A gate wait, and the state that has counted it (R190). -/
def PlWave.gate (x : PlWave) (xf : Nat) (s : State) : (Nat × Word) × State :=
  let key := 32 * (2 * x.g + x.h) + xf
  let n := SMap.get (fun _ => 0) s.ring.gateN key
  ((s.gateCtr x.g x.h xf - s.partBase x.j.val, wd (n + 1)),
   s.updRing fun r => { r with gateN := SMap.set (fun _ => 0) key (n + 1) r.gateN })

/-- The argument of a SEND or RECV (R183), of an EXPAND into a wave (06 R165), and of a COPY (09 R251). -/
def argSend (qbid chan xf : Nat) (fwd : Bool) (rseq : Nat) : Nat :=
  qbid + chan * 2 ^ 8 + xf * 2 ^ 16 + b2n fwd * 2 ^ 21 + rseq * 2 ^ 32
def argExpand (chan rseq : Nat) : Nat := 2 ^ 4 + chan * 2 ^ 8 + sseqBase rseq * 2 ^ 16
def argCopy (chan xf q rseq : Nat) : Nat := chan + xf * 2 ^ 8 + q * 2 ^ 16 + rseq * 2 ^ 32

/-- The COPY queue pair of a job while the buddy mirror is on (09 R251). -/
def State.mirrorQp (s : State) (j : Nat) : Option Nat :=
  (s.fab.qps.find? fun kv => kv.2.job.val = j && kv.2.role = 5).map Prod.fst

/-- The reduce-scatter part of a wave: descriptors, and the place of its SEND. -/
def plRs (x : PlWave) (s : State) : List Desc × State :=
  let j := x.j.val
  let hop := s.hopsAt x.g x.h x.k
  let role := s.rsRole x.g x.h x.k
  let chan := x.chan s
  let recvs := hop > 0
  let pass := if role = .owner then 1 else 0
  let gt := x.gate hop s
  let s1 := gt.2
  let wv := x.handle 0
  let e (i : Nat) := s1.plEdx x.d j x.r x.w i
  let s2 := putEdesc x.d j (e 3) (edRot false) (putEdesc x.d j (e 5) (edQuant x.p) s1)
  let rs := x.rseq s 0
  let steps : List PlStep :=
    (if recvs then [{ op := 5, unit := 1 - chan % 2, wave := 0, arg := argSend 0 chan (hop - 1) false rs }] else []) ++
    [{ op := 0, unit := x.d, wave := wv, vslots := x.vslots, waits := [gt.1], trig := some x.trig, arg := x.ebase }] ++
    (if x.merge then [{ op := 11, unit := x.task, wave := wv, arg := 3 + (x.r + 2 * 2 ^ 10) * 2 ^ 8 }] else []) ++
    [{ op := 1, unit := x.d, wave := wv, arg := e 3 }] ++
    (if recvs then [{ op := 6, unit := x.d, wave := wv, arg := argExpand chan rs }] else []) ++
    [{ op := 2, unit := x.d, wave := wv, release := true, arg := e 5 + x.qbid * 2 ^ 16 },
     { op := 3, unit := x.d, wave := 0, arg := x.qbid + sseqBase (x.rseq s pass) * 2 ^ 16 },
     { op := 4, unit := chan % 2, wave := 0, arg := argSend x.qbid chan hop false (x.rseq s pass) }]
  (s2.plChain x.j x.r x.w 0 none steps, s2)

/-- Rows and columns of an ORTHO tile (R213). -/
def plCols (x : PlWave) : Nat := 2 ^ (6 + x.p.ocl)
def plRows (x : PlWave) : Nat := 8192 * x.vslots / plCols x

/-- The APPLY steps of Table 8.8, without SCATTER. -/
def plApply (x : PlWave) (wv : Nat) (s : State) : List PlStep × State :=
  let j := x.j.val
  let e (i : Nat) := s.plEdx x.d j x.r x.w i
  let up (i : Nat) : PlStep := { op := 8, unit := x.d, wave := wv, arg := e i, waits := x.snap }
  if x.p.optim = 15 then
    ([{ op := 11, unit := x.task, wave := wv, waits := x.snap, arg := x.p.utask + (x.r + 2 ^ 55) * 2 ^ 8 }], s)
  else if x.p.optim = 3 then
    let m := plRows x
    let n := plCols x
    let a := x.p.base + s.hbmNat (x.p.base + 8) 8 + 4 * x.ebase * 8192
    let c := x.p.base + s.hbmNat (x.p.base + 0x18) 8 + 4 * x.ebase * 8192
    let osc := match SMap.find s.outer.ocb j with | none => 0 | some b => leAt b 8 8
    let b := osc + x.w % 4 * (8 * min m n * min m n + 4 * m * n)
    ([up 23, { op := 8, unit := x.d, wave := 0, arg := e 24 }, { op := 8, unit := x.d, wave := wv, arg := e 25 }],
     putEdesc x.d j (e 23) (edUpd x.p 3 true)
       (putEdesc x.d j (e 24) (edNs m n a b c) (putEdesc x.d j (e 25) (edUpd x.p 4 false) s)))
  else ([up 23], putEdesc x.d j (e 23) (edUpd x.p x.p.optim false) s)

/-- The all-gather part of a wave: RECV, forward SEND, COPY, and the chain on the wave; `sendAt`: the place of the OWNER's
SEND, and `lastCtr` the counter that each SCATTER signals. -/
def plAg (x : PlWave) (sendAt lastCtr : Nat) (s : State) : (List Desc × List Desc) × State :=
  let j := x.j.val
  let role := s.agRole x.g x.h x.k
  let chan := x.chan s
  let rs := x.rseq s 1
  let own := role = .owner
  let xr := if own then s.grpM x.g - 1 else s.agRecv x.g x.h x.k
  let src := if own then sendAt else 16
  let wv := x.handle 1
  let recv : List Desc := if own then []
    else s.plChain x.j x.r x.w 16 none [{ op := 5, unit := 1 - chan % 2, wave := 0, arg := argSend 0 chan xr false rs }]
  let gt := if role = .fwd then x.gate (xr + 1) s else ((0, 0), s)
  let s1 := gt.2
  let fwd : List Desc := if role ≠ .fwd then []
    else s1.plChain x.j x.r x.w 17 (some 16)
      [{ op := 4, unit := chan % 2, wave := 0, waits := [gt.1], arg := argSend 0 chan (xr + 1) true rs }]
  let copy : List Desc := match s1.mirrorQp j with
    | none => []
    | some q => s1.plChain x.j x.r x.w 18 (some src) [{ op := 10, unit := x.d, wave := 0, arg := argCopy chan xr q rs }]
  let s2 := putEdesc x.d j (s1.plEdx x.d j x.r x.w 22) (edRot true) s1
  let ap := plApply x wv s2
  let sc : PlStep := { op := 9, unit := x.d, wave := wv, release := true, arg := x.w, sigs := [lastCtr]
                       waits := if copy.isEmpty then [] else [s1.plWait j x.r x.w 18 1] }
  let chain := ap.2.plChain x.j x.r x.w 20 (some src)
    ([{ op := 6, unit := x.d, wave := wv, vslots := x.vslots, arg := argExpand chan rs },
      { op := 1, unit := x.d, wave := wv, arg := s1.plEdx x.d j x.r x.w 22 }] ++ ap.1 ++ [sc])
  ((recv ++ fwd ++ copy, chain), ap.2)

/-- Keeps the chain that PLAN submits on a wave (05 R142). -/
def putChain (j h : Nat) (l : List Desc) (s : State) : State :=
  s.updGc fun g => { g with chains := SMap.put (waveKey j h) l g.chains }

/-- One wave of a ream. -/
def plWave (x : PlWave) (lastCtr : Nat) (s : State) : List Desc × State :=
  let a := plRs x s
  let b := plAg x (a.1.length - 1) lastCtr a.2
  (a.1 ++ b.1.1 ++ b.1.2,
   putChain x.j.val (x.handle 1) b.1.2 (putChain x.j.val (x.handle 0) (a.1.filter fun d => d.opcode ≠ 5) b.2))

/-! ## The round (R202 to R206, R211, R219) -/

/-- An FP32 power of PLAN: the loaded value, 1.0 where it lies outside (0, 1] in the first round, times β (R211). -/
def plPow (first : Bool) (p beta : Word) : Word :=
  f32Mul (if first && !(f32Lt 0 p && f32Le p f32One) then f32One else p) beta

/-- The header values of a round (R206, R211). -/
def plHeader (j _r round : Nat) (p : PlReam) (first : Bool) (s : State) : State :=
  let n := (s.roundSet j).foldl (fun a i => a + s.siteNs j i) 0
  let hp := s.hpAddr j p.hpset
  let b1 := s.hbmWord (hp + 8)
  let b2 := s.hbmWord (hp + 0xC)
  let s1 := hbmWrite (p.base + 0x30) (natLE 4 (f32Div f32One (f32OfNat n)).toNat)
    (hbmWrite (p.base + 0x40) (natLE 8 round) s)
  if p.optim ≠ 2 then s1
  else hbmWrite (p.base + 0x34) (natLE 4 (plPow first (s.hbmWord (p.base + 0x34)) b1).toNat)
    (hbmWrite (p.base + 0x38) (natLE 4 (plPow first (s.hbmWord (p.base + 0x38)) b2).toNat) s1)

/-- The descriptors of a ream's next round, in order, and the state that has written its header and engine descriptors.
`grpCores`: the core group that runs its tasks. -/
def planRound (j : Job) (r grpCores : Nat) (b : List Byte) (s : State) : List Desc × State :=
  let p := plReam b
  let ix := reamIx j.val r
  let first := !SMap.get (fun _ => false) s.outer.planned ix
  let round := if first then (s.reg pgOUTER (0x218 + 0x40 * j.val)).toNat else SMap.get (fun _ => 0) s.outer.round ix + 1
  let H := match SMap.find s.outer.ocb j.val with | none => 0 | some o => leAt o 2 2
  let trig := H * round + p.off
  let s1 := plHeader j.val r round p first s
  let s2 := whenD (decide (trig ≤ (s.axis j.val).toNat)) (raiseEv pgOUTER 0x804 1)
    (s1.updOuter fun o =>
      { o with round := SMap.put ix round o.round, planned := SMap.set (fun _ => false) ix true o.planned })
  match s2.planGrp j.val with
  | none => ([], s2)
  | some g =>
    let W := s2.reamWaves j.val g r
    let task (i arg : Nat) (waits : List (Nat × Word)) : Desc :=
      ({ op := 11, unit := grpCores, wave := 0, arg := arg } : PlStep).desc j r waits [s2.plCtr j.val r W i]
    let snapOff := s2.hbmNat (p.base + 0x20) 8
    let snapHeld := s2.hbmNat (p.base + 0x50) 8 / 2 ^ 63 = 1
    let snap := snapOff ≠ 0 && !snapHeld && !((s2.span j.val).all fun i => (s2.roundSet j.val).contains i)
    let merge := SMap.find s2.outer.merge ix = some 2
    let wave (w : Nat) (t : State) : PlWave :=
      let c := w % (2 * gtS (t.gtCtl g))
      { j := j, r := r, w := w, d := w % 2, g := g, h := c % 2, k := c / 2, p := p
        ebase := w * t.gtVslots g, vslots := min (t.gtVslots g) (t.reamSlots j.val r - w * t.gtVslots g), round := round
        trig := trig, snap := if snap then [t.plWait j.val r W 3 1] else [], merge := merge }
    let last := s2.plCtr j.val r W 0
    let ws := (List.range W).foldl (fun (a : List Desc × State) w =>
      let o := plWave (wave w a.2) last a.2
      (a.1 ++ o.1, o.2)) ([], s2)
    let s3 := if merge then ws.2.updOuter fun o =>
        { o with merge := SMap.put ix (2 + W) o.merge, merged := SMap.put ix round o.merged } else ws.2
    ((if snap then [task 3 (3 + r * 2 ^ 8) []] else []) ++ ws.1 ++
      [task 1 (2 + r * 2 ^ 8) [s2.plWait j.val r W 0 W], task 2 (1 + r * 2 ^ 8) [s2.plWait j.val r W 1 1],
       task 4 (r * 2 ^ 8) [s2.plWait j.val r W 0 W, s2.plWait j.val r W 2 1]], s3)

end Sys2Proof.Machine
end

