-- ==== Sys2Proof/Machine/Cores.lean ====
section
/-! DEFINITION. Steps of the general cores (05 R135 to R146): user tasks, WAIT_GO, the exception handler, the built-in tasks
PLAN, FLOOR, STATS and MERGE (03 R84, 08 R202 to R221); and the effects of writes to the GC page. -/
namespace Sys2Proof.Machine

open Sys2Proof

/-! ## Taking a TASK (R137, R138, R141) -/

def State.coreInSvc (s : State) (c : Nat) : Bool := bit (s.reg (pgGC (c / 32)) 0x100) (c % 32)
def State.grpInSvc (s : State) (g : Nat) : Bool := (List.range 8).any fun i => s.coreInSvc (8 * g + i)

/-- A core that can take a task: in service, running nothing and with no submission waiting. -/
def State.coreIdle (s : State) (c : Nat) : Bool :=
  s.coreInSvc c && (s.core c).task.isNone && (s.core c).subQ.isEmpty

/-- A task starts: a change of job zeroes local memory below the runtime area and the registers (R136). -/
def coreTake (c : Nat) (e : Entry) (builtin : Bool) (s : State) : State :=
  updCore c (fun x =>
    let y := if x.lastJob = some e.d.job.val then x
      else { x with mem := x.mem.filter fun kv => kv.1 ≥ 0x3C000, x := [], v := [] }
    { y with task := some e.id, lastJob := some e.d.job.val, builtin := builtin, waiting := false, subQ := [] }) s

/-- The next TASK of the core's group, where it is of the kind that this command serves. Exception records go first (05, "The
exception handler"); a group with no core in service ends it with NO_CORE (R141). -/
def takeTask (c : Nat) (serves : Entry → Bool) (run : Entry → State → State) (s : State) : State :=
  let g := c / 8
  match s.pick 5 g (fun e => e.d.opcode = 11 && e.d.unit = g) with
  | none => s
  | some e =>
    if !serves e then s
    else if !s.grpInSvc g then faultOp e.id 0x25 0 (issue 5 g e s)
    else if !s.coreIdle c || !(s.gc.exc.getD (c / 32) []).isEmpty then s
    else run e (issue 5 g e s)

/-- e_hi of the ream's last completed round, merged over both dies; the round in progress is complete once it has no wave and
no operation left but tasks (R138, 03 R84). -/
def State.reamQuiet (s : State) (j r : Nat) : Bool :=
  !(s.vat.waves.any fun kv => kv.1 / 4096 = j && kv.2.ream = r) &&
  !(s.sch.ops.any fun e => e.d.job.val = j && e.d.ream = r && e.d.opcode ≠ 11)
def State.taskEhi (s : State) (j r : Nat) : Int :=
  let m := if s.reamQuiet j r then s.vat.ehi else s.vat.ehiLast
  let k := 2 * reamIx j r
  max ((SMap.find m k).getD (-256)) ((SMap.find m (k + 1)).getD (-256))

/-- The task context block (Table 5.7). -/
def State.taskCtx (s : State) (e : Entry) : List Byte :=
  let d := e.d
  let j := d.job.val
  let w := s.waveOn d
  natLE 8 d.taskArg ++ natLE 8 (s.roundOf j d.ream) ++ natLE 8 (s.axis j).toNat ++ natLE 4 d.seq.toNat ++
  natLE 4 (j + 8 * (d.unit / 4) + 16 * d.unit) ++ natLE 4 d.ream ++ natLE 4 (d.wave + b2n w.isSome * 2 ^ 31) ++
  (match w with
   | none => List.replicate 20 0
   | some w => natLE 8 (0x40000000 + 0x10000 * w.slots.headD 0) ++ natLE 8 (w.ebase * 8192) ++
       natLE 4 (w.slots.length + w.wcount * 2 ^ 16)) ++
  natLE 4 (twos 9 (s.taskEhi j d.ream)) ++ List.replicate 0xC0 0

/-- ARG[55]: the TASK is a USER ream's APPLY (08 R214). -/
def Desc.userApply (d : Desc) : Bool := d.taskArg / 2 ^ 55 = 1

/-- A user task begins: context block, slot list, a0 and the stack pointer (R138, 08 R214). -/
def userTask (c : Nat) (e : Entry) (s : State) : State :=
  let d := e.d
  let t := s.reg (pgGC (c / 32)) 0x114 (256 * d.job.val + d.taskId)
  let slots := match s.waveOn d with | some w => w.slots | none => []
  let staged : Bool := match s.waveOn d with | some w => decide (w.content = .staged) | none => false
  if d.taskId < 16 || !bit t 31 then faultOp e.id 0x20 0 s
  else if (match s.waveOn d with | some w => s.wavePoisoned w | none => false) then
    (match s.waveOn d with | some w => poisonFault e.id w s | none => s)
  else if d.userApply && !staged then faultOp e.id 0x15 0 s
  else
    let ctx := s.taskCtx e
    updCore c (fun x =>
      { x with
        mem := memWrite 0x3C000 (ctx ++ (if d.userApply then slots.flatMap (natLE 2) else [])) x.mem
        x := SMap.set (fun _ => 0) 2 0x3C000 (SMap.set (fun _ => 0) 10 0x3C000 x.x) }) (coreTake c e false s)

/-- The function of a MERGE (08 R221). -/
def Desc.mergeFn (d : Desc) : Nat := fldN d.taskArg 10 2

/-- TASK (R137, R138): user tasks, and the built-in entries that name no work. -/
def execTask (c : Core) (s : State) : Res :=
  .next (takeTask c.val (fun e => e.d.taskId > 3 || (e.d.taskId = 3 && e.d.mergeFn = 3)) (userTask c.val) s)

/-! ## A task's end (R138) -/

/-- A running user task ends, after what it did since its last command. -/
def taskEnd (c : Nat) (acts : List TaskAct) (f : Entry → State → State) (s : State) : State :=
  let t := taskActs c acts s
  match t.coreGoes c with
  | none => t
  | some e => f e (coreFree c t)

/-- The wave of a USER ream's APPLY holds RETURN content once its task returns (08 R214). -/
def retContent (e : Entry) (s : State) : State :=
  match s.waveOn e.d with
  | none => s
  | some w =>
    if e.d.userApply then
      let n := match s.ocbReam e.d.job.val e.d.ream with | some b => if (plReam b).fret = 0 then 4 else 2 | none => 4
      putWave e.d.job.val e.d.wave { w with content := .ret, retW := n } s
    else s

/-- TASK_RETURN (R138, 08 R214). -/
def execTaskReturn (c : Core) (a0 : BitVec 64) (acts : List TaskAct) (s : State) : Res :=
  .next (taskEnd c.val acts (fun e t =>
    if a0 = 0 then
      setWork e.id .finished (retContent e t)
    else
      faultOp e.id 0x21 (if loW a0 = 0 then 0xFFFFFFFF else (loW a0).toNat) (raiseEv (pgGC (c.val / 32)) 0x800 0 t)) s)

/-- TASK_TRAP (R138). -/
def execTaskTrap (c : Core) (mcause mepc : BitVec 64) (acts : List TaskAct) (s : State) : Res :=
  .next (taskEnd c.val acts (fun e t =>
    faultOp e.id 0x22 0 (raiseCap (pgGC (c.val / 32)) 0x804 1 (loW mcause) mepc t)) s)

/-- TASK_TIMEOUT (R138): time blocked in WAIT_GO or on a full scoreboard counts; LIMIT 0 disables the limit. -/
def execTaskTimeout (c : Core) (acts : List TaskAct) (s : State) : Res :=
  .next (match (s.core c.val).task.bind fun id => s.entry? id with
    | none => s
    | some e =>
      if s.regF (pgGC (c.val / 32)) (0x210 + 0x20 * e.d.job.val) 0 20 = 0 then s
      else
        let t := taskActs c.val acts s
        if (t.core c.val).task.isNone then t
        else faultOp e.id 0x23 0 (raiseEv (pgGC (c.val / 32)) 0x808 2 (coreFree c.val t)))

/-- WAIT_GO (R139): a task writes WAIT_IDX and WAIT_VAL, then loads WAIT_GO. -/
def execWaitGo (c : Core) (idx val : Word) (s : State) : Res :=
  .next (match s.coreGoes c.val with
    | none => s
    | some e => coreLoadOp c.val e 0x20000088 4 (updCore c.val (fun y => { y with waitIdx := idx, waitVal := val }) s))

/-- WAIT_GO_RELEASE (R139). -/
def execWaitGoRelease (c : Core) (s : State) : Res :=
  .next (match (s.core c.val).task.bind fun id => s.entry? id with
    | none => s
    | some e =>
      let x := s.core c.val
      let n := s.ctr (s.partBase e.d.job.val + x.waitIdx.toNat)
      if x.waiting && x.waitVal.toNat ≤ n.toNat then
        (updCore c.val (fun y => { y with waiting := false, waitRes := n }) s).emit (.coreLoad c.val 0x20000088 (natLE 4 n.toNat))
      else s)

/-! ## The exception handler (R142, Table 5.10) -/

/-- The descriptors that the handler submits for a record. -/
def State.handlerSubmits (s : State) (x : ExcRec) : List Desc :=
  let resend : List Desc :=
    match SMap.find s.gc.chains (waveKey x.job x.wave), s.wave? x.job x.wave with
    | some ch, some w =>
      let later := ch.dropWhile fun d => d ≠ { x.d with seq := 0 }
      if later.isEmpty then []
      else
        { x.d with
          unit := w.die, opcode := 0, cpl := false, nsig := 0, nwait := 0, trig := 0, release := false, claim := false, vslots := 0
          wcnt := [0, 0, 0, 0], wval := [0, 0, 0, 0], scnt := [0, 0], sinc := [0, 0], trigVal := 0
          opArg := BitVec.ofNat 64 (w.ebase + 2 ^ 32) } :: later
    | _, _ => []
  match x.damaged with
  | some _ =>
    [{ x.d with
       opcode := 6, cpl := false, nsig := 0, nwait := 0, trig := 0, release := false, claim := false, vslots := 0, wave := 0
       wcnt := [0, 0, 0, 0], wval := [0, 0, 0, 0], scnt := [0, 0], sinc := [0, 0], trigVal := 0
       opArg := BitVec.ofNat 64 (2 ^ 5 + x.seq.toNat * 2 ^ 16) }]
  | none => if x.status = 0x10 then resend else []

/-- EXCEPTION_HANDLER (R142): the oldest record of the die's queue, on an idle core. -/
def execExceptionHandler (c : Core) (s : State) : Res :=
  let d := c.val / 32
  .next (match s.gc.exc.getD d [] with
    | [] => s
    | x :: xs =>
      if !s.coreIdle c.val then s
      else
        let s1 := s.updGc fun g => { g with exc := vset g.exc d xs }
        if s.regF (pgGC d) (0x214 + 0x20 * x.job) 0 1 = 0 then s1
        else forAll (s1.handlerSubmits x) (fun y t => submitCore c.val y true t) s1)

/-! ## Built-in tasks (Table 5.9) -/

/-- REAM of a built-in task's ARG. -/
def Desc.taskReam (d : Desc) : Nat := fldN d.taskArg 0 10

/-- An access outside the job's fence, or to a ream that the enabled configuration lacks: an access fault (R135, log 27). -/
def builtinTrap (c : Nat) (e : Entry) (s : State) : State :=
  let dr := s.draw
  faultOp e.id 0x22 0 (raiseCap (pgGC (c / 32)) 0x804 1 7 dr.1 dr.2)

/-- Runs a built-in task over the ream's entry and state block: outside the fence it traps; a poisoned header ends it with
TASK_MEM_UE (Table 14.3). -/
def withReam (c : Nat) (e : Entry) (f : List Byte → PlReam → State → State) (s : State) : State :=
  let j := e.d.job.val
  match s.ocbReam j e.d.taskReam with
  | none => builtinTrap c e s
  | some b =>
    let p := plReam b
    if !s.hbmOk j p.base 0x1000 then builtinTrap c e s
    else if s.hbmBad p.base 0x200 then
      faultOp e.id 0x24 0 (reportHbm p.base 0x200 (if s.hbmDie p.base = c / 32 then 1 else 2) s)
    else f b p s

/-- PLAN (08 R202 to R206). -/
def planOp (c : Nat) (e : Entry) (s : State) : State :=
  withReam c e (fun b _ t =>
    let r := planRound e.d.job e.d.taskReam (c / 8) b (coreTake c e true t)
    let t1 := forAll r.1 (fun d u => submitCore c d true u) r.2
    if (t1.core c).subQ.isEmpty then coreDone c t1 else t1) s

def execPlan (c : Core) (s : State) : Res := .next (takeTask c.val (fun e => e.d.taskId = 0) (planOp c.val) s)

/-- A built-in task that ends at once. -/
def builtinDone (c : Nat) (e : Entry) (s : State) : State := coreDone c (coreTake c e true s)

/-- ⌈log₂ n⌉. -/
def clog2 (n : Nat) : Nat := if n ≤ 1 then 0 else Nat.log2 (n - 1) + 1

/-- FLOOR (03 R84). -/
def floorOp (c : Nat) (e : Entry) (s : State) : State :=
  let j := e.d.job.val
  let r := e.d.taskReam
  let cfg := s.reg (pgVAT 0) 0x184 (reamIx j r)
  let ehi := s.taskEhi j r
  let f : Int := ehi + (fld cfg 0 4 : Int) + clog2 (popc (s.cmap j) + 1) + 4 - 62
  builtinDone c e
    (if bit cfg 31 || ehi = -256 then s else s.setReg (pgVAT 0) 0x184 (setFld cfg 10 9 (twos 9 f)) (reamIx j r))

def execFloor (c : Core) (s : State) : Res := .next (takeTask c.val (fun e => e.d.taskId = 1) (floorOp c.val) s)

/-- A count in a field of `n` bits, held at its greatest value. -/
def satN (n v : Nat) : Nat := min v (2 ^ n - 1)

/-- The round statistics record (Table 8.5). -/
def State.statsRec (s : State) (j r : Nat) : List Byte :=
  let x := SMap.get (fun _ => ({} : RStats)) s.outer.stats (reamIx j r)
  natLE 8 (s.roundOf j r) ++ natLE 4 (satN 10 (x.wcountMin.getD 0) + satN 16 x.short * 2 ^ 16) ++
  natLE 4 (satN 16 x.regrade + satN 16 x.escOvf * 2 ^ 16) ++ natLE 4 (satN 32 x.t4Sat) ++
  natLE 4 (satN 16 x.guardTop + twos 9 (s.floorF j r) * 2 ^ 16) ++ natLE 8 (satN 64 x.sheetBytes) ++ List.replicate 0xE0 0

/-- STATS (08 R207). -/
def statsOp (c : Nat) (e : Entry) (s : State) : State :=
  let j := e.d.job.val
  let r := e.d.taskReam
  withReam c e (fun _ p t =>
    builtinDone c e (bump pgOUTER 0x81C 1
      ((hbmWrite (p.base + 0x48) (natLE 8 (t.roundOf j r)) (hbmWrite (p.base + 0x100) (t.statsRec j r) t)).updOuter fun o =>
        { o with stats := SMap.erase (reamIx j r) o.stats }))) s

def execStats (c : Core) (s : State) : Res := .next (takeTask c.val (fun e => e.d.taskId = 2) (statsOp c.val) s)

/-! ## MERGE (08 R219 to R221) -/

/-- An array of the ream, `n` FP32 elements at an offset of its header: inside the job's range. -/
def State.reamArr (s : State) (j : Nat) (p : PlReam) (field n : Nat) : Option Nat :=
  let o := s.hbmNat (p.base + field) 8
  if o ≠ 0 && s.hbmOk j (p.base + o) (4 * n) then some (p.base + o) else none

/-- SNAP_ROUND's bit 63: a snapshot is held. -/
def State.snapHeld (s : State) (p : PlReam) : Bool := s.hbmNat (p.base + 0x50) 8 / 2 ^ 63 = 1

/-- SNAP (R219). -/
def mergeSnapOp (c : Nat) (e : Entry) (s : State) : State :=
  let j := e.d.job.val
  withReam c e (fun _ p t =>
    let n := t.npad j e.d.taskReam
    match t.reamArr j p 0 n, t.reamArr j p 0x20 n with
    | some th, some mg =>
      builtinDone c e (hbmWrite (p.base + 0x50) (natLE 8 (t.hbmNat (p.base + 0x48) 8 % 2 ^ 63 + 2 ^ 63))
        (hbmWrite mg (t.hbmRead th (4 * n)) t))
    | _, _ => builtinTrap c e t) s

def execMergeSnap (c : Core) (s : State) : Res :=
  .next (takeTask c.val (fun e => e.d.taskId = 3 && e.d.mergeFn = 0) (mergeSnapOp c.val) s)

/-- A divergence is discarded (R220). -/
def mergeDrop (j r : Nat) (s : State) : State :=
  raiseEv pgOUTER 0x810 4 (s.updOuter fun o => { o with merge := SMap.erase (reamIx j r) o.merge })

/-- FORM (R220). -/
def mergeFormOp (c : Nat) (e : Entry) (s : State) : State :=
  let j := e.d.job.val
  let r := e.d.taskReam
  withReam c e (fun _ p t =>
    let n := t.npad j r
    let k := (t.hbmNat (p.base + 0x48) 8 + 2 ^ 63 - t.hbmNat (p.base + 0x50) 8 % 2 ^ 63) % 2 ^ 63
    let m := t.reg pgOUTER (0x214 + 0x40 * j)
    let tau := max 1 (fld m 0 8)
    if t.hbmNat (p.base + 0x20) 8 = 0 || !t.snapHeld p || k > fld m 8 8 then builtinDone c e (mergeDrop j r t)
    else
      match t.reamArr j p 0 n, t.reamArr j p 0x20 n with
      | some th, some mg =>
        let lam := f32Div (f32OfNat tau) (f32OfNat (tau + k))
        let out := (List.range n).flatMap fun i =>
          natLE 4 (f32Mul lam (f32Sub (t.hbmWord (mg + 4 * i)) (t.hbmWord (th + 4 * i)))).toNat
        builtinDone c e ((hbmWrite mg out t).updOuter fun o => { o with merge := SMap.put (reamIx j r) 2 o.merge })
      | _, _ => builtinTrap c e t) s

def execMergeForm (c : Core) (s : State) : Res :=
  .next (takeTask c.val (fun e => e.d.taskId = 3 && e.d.mergeFn = 1) (mergeFormOp c.val) s)

/-- What ADD adds for an element: n_s × M × 2^(−F), to the nearest integer, ties to even; an Inf saturates, and the spec
states nothing for a NaN (log 6). -/
def mergeTerm (ns : Nat) (m : Word) (f : Int) (fr : DWord) : Int :=
  if f32IsNan m then fr.toInt
  else if f32IsInf m then (if f32Neg m then -(2 ^ 63) else 2 ^ 63 - 1)
  else ((Dy.ofInt ns).mul (f32Dy m)).rne f

/-- ADD on one element (R220, R83). -/
def mergeAddEl (j : Nat) (w : Wave) (mg e : Nat) (s : State) : State :=
  let q := w.at e
  let m := s.hbmWord (mg + 4 * e)
  let c := clamp63 (mergeTerm (s.ownNs j) m (s.floorF j w.ream) (Config.free s.freeCtr))
  let s0 := if f32IsNan m then s.draw.2 else s
  let r := vatAdd (s.accAt w.die q.1 q.2) c.1 0
  let s1 := setAcc w.die q.1 q.2 r.1 s0
  if c.2 || r.2.2 then raiseCap (pgVAT w.die) 0x804 1 (wd (w.ream + q.1 * 2 ^ 10)) 0 s1 else s1

/-- The last ADD of a ream: its snapshot is released and the ream counted, once though its round is run again (R220). -/
def mergeSettle (j r : Nat) (p : PlReam) (s : State) : State :=
  match SMap.find s.outer.merge (reamIx j r) with
  | none => s
  | some n =>
    if n > 3 then s.updOuter fun o => { o with merge := SMap.put (reamIx j r) (n - 1) o.merge }
    else
      let s1 := s.updOuter fun o => { o with merge := SMap.erase (reamIx j r) o.merge }
      if s.snapHeld p then
        hbmWrite (p.base + 0x50) (natLE 8 (s.hbmNat (p.base + 0x50) 8 % 2 ^ 63)) (raiseEv pgOUTER 0x80C 3 s1)
      else s1

/-- ADD (R220, R221). -/
def mergeAddOp (c : Nat) (e : Entry) (s : State) : State :=
  let j := e.d.job.val
  let r := e.d.taskReam
  match s.waveOn e.d with
  | none => faultOp e.id 0x15 0 s
  | some w =>
    if w.content ≠ .int || w.ream ≠ r then faultOp e.id 0x15 0 s
    else if s.wavePoisoned w then poisonFault e.id w s
    else
      withReam c e (fun _ p t =>
        match t.reamArr j p 0x20 (t.npad j r) with
        | none => builtinTrap c e t
        | some mg =>
          let n := t.waveElems j w
          builtinDone c e (mergeSettle j r p
            (forAll (List.range n) (fun i u => mergeAddEl j w mg (w.ebase * 8192 + i) u) t))) s

def execMergeAdd (c : Core) (s : State) : Res :=
  .next (takeTask c.val (fun e => e.d.taskId = 3 && e.d.mergeFn = 2) (mergeAddOp c.val) s)

/-! ## Writes to the GC page (R143, R145, 14 R348) -/

/-- The job has a TASK in the scoreboard. -/
def State.taskBusy (s : State) (j : Nat) : Bool := (s.jobOps j).any fun e => e.d.opcode = 11

/-- A job's HBM range changes (14 R348). What the range of a job newly takes in reads zero, so that residuals that are not loaded
start at zero (03 R78, log 144). -/
def hbmRangeWr (j : Nat) (base : DWord) (size : Word) (s : State) : Eff :=
  let b := base.toNat / 2 ^ 26 * 2 ^ 26
  let n := fld size 0 13 * 2 ^ 26
  if s.taskBusy j then .error .gcBusy
  else if n > 0 && (b < hbmLow || b + n > hbmTop ||
      (List.range 8).any fun i => i ≠ j && overlaps b n (s.hbmBase i) (s.hbmSize i)) then .error .hbmOverlap
  else
    let t := store (pgGC 0) (0x20C + 0x20 * j) 0 size (storePair (pgGC 0) (0x204 + 0x20 * j) 0 base s)
    .ok (if s.jobSt j = .free then t else t.updMem fun m =>
      { m with
        hbm := SMap.keep (fun a _ => !(b ≤ a && a < b + n) || (s.hbmBase j ≤ a && a < s.hbmBase j + s.hbmSize j)) m.hbm })

/-- A job's shared partition changes (R145). -/
def shmWr (d j : Nat) (v : Word) (s : State) : Eff :=
  let b := fld v 16 7
  let n := fld v 0 7
  if s.taskBusy j then .error .gcBusy
  else if b + n > 112 ||
      (List.range 8).any fun i => i ≠ j && overlaps (b * 0x10000) (n * 0x10000) (s.shmBase d i) (s.shmSize d i) then
    .error .shmOverlap
  else .ok (store (pgGC d) (0x200 + 0x20 * j) 0 v s)

/-- Effects of the GC pages (Table 5.16). -/
def gcEffect (p o ix : Nat) (v : DWord) (s : State) : Eff :=
  let d := pgInst p
  let j := (o - 0x200) / 0x20 % 8
  if o = 0x100 || o = 0x110 then .ok (store p o ix (loW v) s)
  else if o = 0x114 then
    if s.taskBusy (ix / 256) then .error .gcBusy
    else if ix % 256 < 16 then .ok s
    else .ok (store p o ix (loW v) s)
  else if o % 0x20 = 0 then shmWr d j (loW v) s
  else if o % 0x20 = 4 then hbmRangeWr j v (s.reg (pgGC 0) (0x20C + 0x20 * j)) s
  else if o % 0x20 = 0xC then hbmRangeWr j (s.reg64 (pgGC 0) (0x204 + 0x20 * j)) (loW v) s
  else .ok (store p o ix (loW v) s)

/-- What the GC pages show. The spec gives no value of a built-in entry of the task table: 0 to 3 read VALID with OFFSET 0, 4 to 15
read zero (log 141). -/
def gcView (s : State) (p o ix : Nat) (v : Word) : Word :=
  let d := pgInst p
  let busy := (List.range 32).countP fun i => (s.core (32 * d + i)).task.isSome || !(s.core (32 * d + i)).subQ.isEmpty
  if o = 0x104 then wd ((s.gc.exc.getD d []).length * 2 ^ 16 + busy)
  else if o = 0x114 then (if ix % 256 < 4 then 0x80000000 else if ix % 256 < 16 then 0 else v)
  else if o ≥ 0x200 && (o % 0x20 = 4 || o % 0x20 = 8 || o % 0x20 = 0xC) then s.reg (pgGC 0) o
  else v

end Sys2Proof.Machine
end

