-- ==== Sys2Proof/Machine/Outer.lean ====
section
/-! DEFINITION. The outer configuration: its checks, enabling and disabling (08 R200, R201); resends and replacements of ring
and stream copies (06 R161, 07 R193, 08 R226); and the effects of writes to the OUTER page. -/
namespace Sys2Proof.Machine

open Sys2Proof

/-! ## Checks of the OCB (R201) -/

/-- Fields of a ream entry. -/
def reamNelem (b : List Byte) : Nat := leAt b 8 8
def reamEoff (b : List Byte) : Nat := leAt b 0x10 8

/-- RANGE. -/
def ocbRange (o : List Byte) (es : List (List Byte)) : Bool :=
  let H := leAt o 2 2
  let n := leAt o 0 4 % 2048
  H = 0 || n = 0 || n > 1024 || es.any fun b =>
    let p := plReam b
    p.off ≥ H || (if p.optim = 15 then p.utask < 16 else p.utask ≠ 0)

/-- RESERVED_BIT. -/
def ocbReserved (o : List Byte) (es : List (List Byte)) : Bool :=
  fld (wAt o 0) 11 5 ≠ 0 || wAt o 4 ≠ 0 || !allZero ((o.drop 0x18).take 0x28) ||
  (List.range 16).any (fun i => (wAt o (0x40 + 4 * i) &&& 0xFC00FF00) ≠ 0) ||
  es.any fun b => reamNelem b ≥ 2 ^ 36 || reamEoff b ≥ 2 ^ 36

/-- FORMAT. -/
def ocbFormat (es : List (List Byte)) : Bool :=
  es.any fun b =>
    let p := plReam b
    let ok (c : Nat) (f : Fmt → Bool) : Bool := match fmtOf c with | some x => f x | none => false
    !(p.optim ≤ 3 || p.optim = 15) || p.ocl > 6 || (p.optim ≠ 3 && p.ocl ≠ 0) ||
    !ok (fld (wAt b 0) 4 4) Fmt.contrib || !ok p.fline Fmt.line || !ok p.fret Fmt.thetaRet

/-- OVERLAP. -/
def ocbOverlap (es : List (List Byte)) : Bool :=
  es.zipIdx.any fun p => es.zipIdx.any fun q =>
    p.2 < q.2 && overlaps (reamEoff p.1) (reamNelem p.1) (reamEoff q.1) (reamNelem q.1)

/-- NELEM. -/
def State.ocbNelem (s : State) (j : Nat) (es : List (List Byte)) : Bool :=
  es.zipIdx.any fun p =>
    reamNelem p.1 ≠ s.nelem j p.2 || s.hbmNat ((plReam p.1).base + 0x28) 8 ≠ pad4096 (reamNelem p.1)

/-- FENCE of a state block, and of the scratch area. -/
def State.ocbFence (s : State) (j : Nat) (o : List Byte) (es : List (List Byte)) : Bool :=
  let sb := leAt o 8 8
  let sn := leAt o 0x10 8
  (sn ≠ 0 && !s.hbmOk j sb sn) ||
  es.any fun b =>
    let p := plReam b
    let n := pad4096 (reamNelem b)
    !s.hbmOk j p.base 0x1000 ||
    [(0, 4), (8, 4), (0x10, 2), (0x18, 4), (0x20, 4)].any fun q =>
      let a := s.hbmNat (p.base + q.1) 8
      a ≠ 0 && (a % 4096 ≠ 0 || !s.hbmOk j (p.base + a) (n * q.2))

/-- NO_SITE. -/
def ocbNoSite (o : List Byte) : Bool := (List.range 16).all fun i => fld (wAt o (0x40 + 4 * i)) 0 8 = 0

/-- The OCB as it stands in HBM. -/
def State.ocbIn (s : State) (j : Nat) : List Byte :=
  let a := (s.reg64 pgOUTER (0x204 + 0x40 * j)).toNat
  s.hbmRead a (0x80 + 32 * (s.hbmNat a 4 % 2048))

/-- The REASON of a refused enable, 0 where the enable is taken (R201, Table 8.14). -/
def State.ocbReason (s : State) (j : Nat) : Nat :=
  let a := (s.reg64 pgOUTER (0x204 + 0x40 * j)).toNat
  let h := (s.reg64 pgOUTER (0x20C + 0x40 * j)).toNat
  if !s.hbmOk j a 0x80 || !s.hbmOk j a (0x80 + 32 * (s.hbmNat a 4 % 2048)) || !s.hbmOk j h 0x2000 then 5
  else
    let o := s.ocbIn j
    let es := (List.range (leAt o 0 4 % 2048)).map fun q => (o.drop (0x80 + 32 * q)).take 32
    if ocbRange o es then 1
    else if ocbReserved o es then 7
    else if ocbFormat es then 2
    else if ocbOverlap es then 3
    else if s.ocbNelem j es then 4
    else if s.ocbFence j o es then 5
    else if ocbNoSite o then 6
    else 0

/-! ## Enabling and disabling (R200) -/

/-- A built-in task that the root submits for the job, on the first core group in service. -/
def rootTask (j : Nat) (task arg : Nat) (r : Nat) (s : State) : State :=
  let u := ((List.range 8).find? s.grpInSvc).getD 0
  submitCore (if u < 4 then 0 else 32)
    (({ op := 11, unit := u, wave := 0, arg := task + arg * 2 ^ 8 } : PlStep).desc (Fin.ofNat 8 j) r [] []) true s

/-- Rounds RFIRST of an enabled job are submitted, a PLAN for each ream, as soon as the group that PLAN uses is UP or HELD: before
that its SENDs and RECVs would be rejected (R202, 07 R183, log 147). -/
def planFirst (j : Nat) (s : State) : State :=
  match s.planGrp j with
  | none => s
  | some g =>
    if !s.outer.due.contains j || !s.grpLive g || (s.mgrp g).running then s
    else forAll (List.range (s.nream j)) (fun r t => rootTask j 0 r r t) (s.updOuter fun o => { o with due := o.due.filter fun i => i ≠ j })

/-- SETUP_ANSWER (07 R175); with the second OK the group is UP. -/
def execSetupAnswer (g : Fin 64) (next ok : Bool) (s : State) : Res :=
  .next (if (s.grp g).st ≠ .setup then s
    else if !ok then refuseSetup g 7 s
    else
      let s1 := updGrp g (fun x => { x with okNext := x.okNext || next, okPrev := x.okPrev || !next }) s
      let x := s1.grp g
      if x.okNext && x.okPrev then
        planFirst (gtJob (s1.gtCtl g)) (setGates g (rttCheck g 1 (rttCheck g 0
          (updGrp g (fun y => { y with st := .up, origin := s1.nextRound (gtJob (s1.gtCtl g)) }) s1))))
      else s1)

/-- What an enable starts afresh for the job: rounds, statistics and grades (R202, R207, 03 R80). -/
def outerFresh (j : Nat) (s : State) : State :=
  let mine (k : Nat) : Bool := k / 1024 = j
  ((s.updOuter fun o =>
    { o with
      planned := o.planned.filter fun kv => !mine kv.1
      round := o.round.filter fun kv => !mine kv.1
      stats := o.stats.filter fun kv => !mine kv.1
      merge := o.merge.filter fun kv => !mine kv.1
      merged := o.merged.filter fun kv => !mine kv.1
      due := o.due.filter fun i => i ≠ j }).updEng fun e =>
    { e with grade := e.grade.filter fun kv => !mine kv.1 }).updVat fun v =>
    { v with collRound := v.collRound.filter fun kv => !mine kv.1 }

/-- A write of OUTER_Jn_CTL (R200). -/
def outerCtlWr (j : Nat) (v : Word) (s : State) : Eff :=
  let o := 0x200 + 0x40 * j
  let on := bit (s.reg pgOUTER o) 31
  if bit v 31 then
    if on then .ok s
    else if s.ocbReason j ≠ 0 then .error .ocbBad
    else
      .ok (planFirst j (store pgOUTER o 0 v ((outerFresh j s).updOuter fun x =>
        { x with ocb := SMap.put j (s.ocbIn j) x.ocb, reason := SMap.set (fun _ => 0) j 0 x.reason, due := x.due ++ [j] })))
  else if on then
    if !(s.jobOps j).isEmpty then .error .outerBusy
    else .ok (store pgOUTER o 0 v ((outerFresh j s).updOuter fun x => { x with ocb := SMap.erase j x.ocb }))
  else .ok (store pgOUTER o 0 v s)

/-- What else a refused enable sets (R201). -/
def outerRefused (j : Nat) (s : State) : State :=
  s.updOuter fun x => { x with reason := SMap.set (fun _ => 0) j (s.ocbReason j) x.reason }

/-- Contributor `ix % 512` is in the return set of an ACTIVE SCATTER of its job (R227). -/
def State.rtBusy (s : State) (ix : Nat) : Bool :=
  s.sch.ops.any fun e => e.st = .active && e.d.opcode = 9 && e.d.job.val = ix / 512 && e.cset.getLsbD (ix % 512)

/-- What the peer of an end shows is open in a register command that does not say it (log 51). -/
def freePeer (x : DWord) : Option PeerEnd :=
  if x.getLsbD 0 then some ⟨x.extractLsb' 8 8, x.extractLsb' 16 4, x.getLsbD 20⟩ else none

/-- Effects of the OUTER page (Table 8.11). -/
def outerEffect (p o ix : Nat) (v : DWord) (s : State) : Eff :=
  let j := (o - 0x200) / 0x40 % 8
  let on := bit (s.reg pgOUTER (0x200 + 0x40 * j)) 31
  if o = 0x144 then scCtlWr ix (loW v) (freePeer s.draw.1) s.draw.2
  else if 0x148 ≤ o && o ≤ 0x164 then
    if bit (s.scCtl ix) 31 then .error .scBusy
    else if o = 0x154 then .ok (storePair p o ix v s)
    else .ok (store p o ix (loW v) s)
  else if o = 0x104 || o = 0x10C || o = 0x110 then
    if s.rtBusy ix then .error .outerBusy
    else if o = 0x104 then .ok (storePair p o ix v s)
    else .ok (store p o ix (loW v) s)
  else if o < 0x200 then .ok (store p o ix (loW v) s)
  else if o % 0x40 = 0 then outerCtlWr j (loW v) s
  else if o % 0x40 = 4 then (if on then .error .outerBusy else .ok (storePair p o ix v s))
  else if o % 0x40 = 0x18 then (if on then .error .outerBusy else .ok (store p o ix (loW v) s))
  else if o % 0x40 = 0xC then .ok (storePair p o ix v s)
  else .ok (store p o ix (loW v) s)

/-- What the OUTER page shows. -/
def outerView (s : State) (o ix : Nat) (v : Word) : Word :=
  let j := (o - 0x200) / 0x40 % 8
  if o = 0x168 then
    let x := s.sc ix
    wd (x.st + x.reason * 2 ^ 4 + (if x.mseq = 0 then 0 else (x.mseq - 1).toNat % 2 ^ 16) * 2 ^ 16)
  else if o ≥ 0x200 && o % 0x40 = 0x1C then
    let r := SMap.get (fun _ => 0) s.outer.reason j
    if (SMap.find s.outer.ocb j).isNone then wd r
    else wd (r + b2n (s.quorum j) * 2 ^ 8 + bitsNat (s.roundSet j) * 2 ^ 16)
  else v

/-! ## Resends and replacements -/

/-- REFETCH_REPLACEMENT (06 R161, 08 R226): for an EXPAND, a forward SEND or a stream end (`grp` = 64 + end, `rseq` = SSEQ). -/
def execRefetchReplacement (cw : CwId) (i : Nat) (sheet : List Byte) (s : State) : Res :=
  let k := CwId.key cw
  .next (if cw.grp ≥ 64 then strmReplace (cw.grp - 64) cw.rseq sheet s
    else
      match s.sheet.damaged.find? fun g => g.cw = k && g.i = i with
      | none => answered k i (lateSheet k i s)
      | some g =>
        match s.entry? g.target with
        | none => answered k i (lateSheet k i s)
        | some e => answered k i (if e.d.opcode = 4 then fwdReplace e g sheet s else replaceSheet e g sheet s))

end Sys2Proof.Machine
end

