-- ==== Sys2Proof/Machine/TimeOps.lean ====
section
/-! DEFINITION. Network time, the timestamp queue and launch slots (13): what other blocks use of them. -/
namespace Sys2Proof.Machine

open Sys2Proof

/-- One cycle of the TIME domain: network time advances by one nanosecond, and the wraps of TIME_NS are counted (R329, 09
SW_CAP_WRAPS). It is what a step does when no command waits (log 14). -/
def tick (s : State) : State :=
  if s.pageOff (pgTIME 0) then s
  else
    let s1 := s.updTime fun t => { t with nt := t.nt + 1 }
    if loW (s.time.nt + 1) = 0 then s1.updFab fun f => { f with wraps := f.wraps + 1 } else s1

/-- A line port is in SF: LOS, LOL, LOF, LOM, TIM or UNC is present (10 R273). -/
def State.portSf (s : State) (p : Nat) : Bool := ((s.port p).shown &&& 0x5F) ≠ 0

/-- A line port is in SD: DEG without SF. -/
def State.portSd (s : State) (p : Nat) : Bool := (s.port p).shown.getLsbD 7 && !s.portSf p

/-- A stamp enters the timestamp queue (R340). -/
def pushStamp (tsid src : Nat) (s : State) : State :=
  if s.time.tsq.length ≥ 64 then raiseEv (pgTIME 0) 0x810 3 (s.updTime fun t => { t with ovf := true })
  else s.updTime fun t => { t with tsq := t.tsq ++ [⟨tsid, src, loW t.nt⟩] }

/-- Launches of a MAC, oldest first. -/
def State.launchesOf (s : State) (m : Nat) : List Launch := (SMap.find s.time.launches m).getD []

def setLaunches (m : Nat) (l : List Launch) (s : State) : State :=
  s.updTime fun t => { t with launches := if l.isEmpty then SMap.erase m t.launches else SMap.put m l t.launches, armed := SMap.erase m t.armed }

/-- A launch ends with a status in its completion record (R341); one whose packet has been discarded writes none (15 R387). -/
def launchEnd (x : Launch) (status : Nat) (s : State) : State :=
  if x.r.slot.isNone then s else pushRec x.f { x.r with status := status } s

/-- A launch is discarded. -/
def launchMiss (x : Launch) (s : State) : State := launchEnd x 0x27 (raiseEv (pgTIME 0) 0x818 4 s)

/-- The MAC's link has gone down: its launches are discarded (R342). -/
def dropLaunches (m : Nat) (s : State) : State := forAll (s.launchesOf m) launchMiss (setLaunches m [] s)

end Sys2Proof.Machine
end

