-- ==== Sys2Proof/Machine/Host.lean ====
section
/-! DEFINITION. The host interface (15): headbox slots and packets, completion rings, quiesce and function resets; and the
effects of writes to the HOST and HOST_F pages. -/
namespace Sys2Proof.Machine

open Sys2Proof

/-! ## DMA (R369) -/

/-- A write that the host rejected: counted, and reported through AER as correctable or uncorrectable, which the spec leaves
open (log 34). -/
def dmaRejected (f : Nat) (s : State) : State :=
  let s1 := raiseEv (pgHOSTF f) 0x814 4 s.draw.2
  if s.draw.1.getLsbD 0 then raiseEv (pgHOSTF f) 0x81C 5 s1 else bump (pgHOSTF f) 0x818 1 s1

/-- A DMA write into host memory, and whether the host rejects it. -/
def hostDma (f addr : Nat) (data : List Byte) (relaxed rejected : Bool) (s : State) : State :=
  if rejected then dmaRejected f s else s.emit (.dma (fnOf f) addr data relaxed)

/-! ## Quiesce (R386, Table 15.10) -/

/-- The cores that run a task of job `j`. -/
def State.jobCores (s : State) (j : Nat) : List Nat :=
  (List.range 64).filter fun c =>
    match (s.core c).task.bind fun id => s.entry? id with
    | some e => e.d.job.val = j
    | none => false

/-- Every entry of a job is cancelled: those that have not been issued are freed, ACTIVE ones stop (steps 2 and 3). -/
def quiesceOps (j : Nat) (s : State) : State :=
  forAll (s.jobOps j) stopEntry (forAll (s.jobCores j) coreFree s)

/-- What the units hold for a job is freed (step 4). -/
def quiesceUnits (j : Job) (s : State) : State :=
  let waves := (s.vat.waves.filter fun kv => kv.1 / 4096 = j.val).map fun kv => kv.1 % 4096
  let s1 := forAll waves (waveRelease j.val) s
  let s2 := s1.updEng fun x => { x with qbs := x.qbs.filter fun kv => kv.2.job ≠ j.val }
  let s3 := s2.updSheet fun x =>
    { x with cbs := x.cbs.filter fun kv => kv.2.job ≠ j.val, streams := x.streams.filter fun kv => kv.2.job ≠ j.val,
             aborts := x.aborts.filter fun a => a.job ≠ j.val }
  let s4 := s3.updVat fun v => { v with heldG := v.heldG.filter fun kv => kv.1 / 512 ≠ j.val }
  poolReleaseJob j (s4.updMgmt fun m => { m with intake := m.intake.filter fun i => i.job ≠ j })

/-- The counters of a job's partition are zero, and its outer rounds are disabled (step 5). -/
def quiesceZero (j : Nat) (s : State) : State :=
  let b := s.partBase j
  let n := s.partSize j
  let o := 0x200 + 0x40 * j
  let s1 := s.updSch fun x => { x with cnt := x.cnt.filter fun kv => !(b ≤ kv.1 && kv.1 < b + n) }
  if bit (s1.reg pgOUTER o) 31 then
    (outerFresh j (s1.setReg pgOUTER o (setBit (s1.reg pgOUTER o) 31 false))).updOuter fun x =>
      { x with ocb := SMap.erase j x.ocb }
  else s1

/-- A quiesce of job `j`, whole: how many entries it cancelled, and the state after it (log 35). -/
def quiesceJob (j : Job) (s : State) : Nat × State :=
  let s1 := s.setJobSt j.val .quiescing
  let s2 := retryCores (quiesceZero j.val (quiesceUnits j (quiesceOps j.val s1)))
  ((s.jobOps j.val).length, raiseEv pgHOST 0x804 1 (s2.setJobSt j.val .assigned))

def quiesceJobs (js : List Job) (s : State) : State := forAll js (fun j t => (quiesceJob j t).2) s

/-- The jobs that some functions own. -/
def State.jobsOf (s : State) (p : Nat → Bool) : List Job :=
  (List.finRange 8).filter fun j => s.jobSt j.val ≠ .free && p (s.owner j.val)

/-! ## Function resets (R387) -/

def slotKey2 (f sl : Nat) : Nat := 2048 * f + sl

/-- The HOST_F page of a function returns to its reset values; its lock stays (18 R443). -/
def hostFReset (f : Nat) (s : State) : State :=
  let p := pgHOSTF f
  { s with
    regs := s.regs.filter fun kv => kv.1 / 0x10000000 ≠ p
    cnts := s.cnts.filter fun kv => kv.1 / 0x1000 ≠ p
    snaps := s.snaps.filter fun kv => kv.1 / 0x1000 ≠ p
    latch := s.latch.filter fun kv => kv.1 / 0x1000 / 128 ≠ f
    heldLo := s.heldLo.filter fun kv => kv.1 / 0x1000 / 128 ≠ f
    pages := SMap.set hdrDefault p { hdrDefault p with locked := (s.hdr p).locked } s.pages }

/-- The packets, slots and completions of a function are discarded; a launch that waits leaves no record. -/
def dropWork (f : Nat) (s : State) : State :=
  let keys := (s.host.pkts.filter fun k => k.f.val = f).map fun k => slotKey2 f k.slot
  let s1 := (forAll keys (poolRelease .headbox) s).updTime fun t =>
    { t with launches := SMap.mapVals (fun _ l => l.map fun x =>
        if x.f = f then { x with r := { x.r with slot := none } } else x) t.launches }
  (s1.updHost fun h =>
    { h with
      pkts := h.pkts.filter fun k => k.f.val ≠ f
      slots := h.slots.filter fun kv => kv.1 / 2048 ≠ f }).updFn f fun x =>
    { x with tail := 0, phase := true, used := 0, hold := [], nextSeq := [], gap := [], sinceIrq := 0 }

/-- A Function Level Reset. -/
def flrOp (f : Nat) (s : State) : State :=
  let mine (o : Nat) : Bool := o = f || (isPf f && portOf o = f)
  let s1 := hostFReset f (dropWork f (quiesceJobs (s.jobsOf mine) s))
  raiseEv pgHOST 0x800 0
    (s1.updSch fun x => { x with lastSeq := x.lastSeq.filter fun kv => kv.1 / 8 ≠ f })

/-- FLR (R387). -/
def execFlr (f : Func) (s : State) : Res := .next (flrOp f.val s)

/-- A port's link goes down: its PF is reset as by FLR. -/
def linkDown (p : Nat) (s : State) : State :=
  if s.host.linkUp.getD p false then flrOp p (s.updHost fun h => { h with linkUp := vset h.linkUp p false }) else s

/-- PCIE_LINK_DOWN (R387). -/
def execPcieLinkDown (p : Port) (s : State) : Res := .next (linkDown p.val s)

/-- PERST_N_ASSERT (19 R451): acts as loss of the port's link. -/
def execPerstNAssert (p : Port) (s : State) : Res := .next (linkDown p.val s)

/-- The number of VF `k` of PF `p` (R370). -/
def vfNum (p k : Nat) : Nat := 1 + 15 * p + k

/-- A function that exists: a PF, or a VF that its PF has enabled. -/
def State.fnOn (s : State) (f : Nat) : Bool := isPf f || decide (f - (1 + 15 * portOf f) ≤ s.host.numVfs.getD (portOf f) 0)

/-- VF_DISABLE (R387): NumVFs is lowered; jobs of each VF removed are quiesced and pass to the PF. -/
def execVfDisable (p : Port) (numVfs : Fin 16) (s : State) : Res :=
  let old := s.host.numVfs.getD p.val 0
  let gone (o : Nat) : Bool := !isPf o && portOf o = p.val && vfNum p.val numVfs.val < o
  let js := s.jobsOf gone
  let s1 := quiesceJobs js s
  .next (if numVfs.val ≥ old then s
    else s1.updHost fun h =>
      { h with
        numVfs := vset h.numVfs p.val numVfs.val
        owner := js.foldl (fun m j => SMap.set (fun _ => 0) j.val p.val m) h.owner })

/-! ## Headbox slots (R375, R376) -/

def State.slot (s : State) (f sl : Nat) : Slot := SMap.get (fun _ => ({} : Slot)) s.host.slots (slotKey2 f sl)
def updSlot (f sl : Nat) (g : Slot → Slot) (s : State) : State :=
  s.updHost fun h => { h with slots := SMap.modify (fun _ => ({} : Slot)) (slotKey2 f sl) g h.slots }

/-- One opcode's rules (Table 15.6): which JOB it takes (0 = any, 1 = a job, 2 = none), the bits of TARGET, ARG0 and ARG1
that it defines, and its LENGTH: least, greatest and step. -/
structure OpRule where
  job : Nat
  target : DWord
  arg0 : DWord
  arg1 : DWord
  lo : Nat
  hi : Nat
  step : Nat
  deriving DecidableEq, Repr

/-- Table 15.6. -/
def opRule : Nat → Option OpRule
  | 0x00 => some ⟨0, 0, 0, 0, 0, 0, 1⟩
  | 0x01 => some ⟨1, 0, 0, 0, 64, 4096, 64⟩
  | 0x02 => some ⟨1, 0, 0xFFFFFFFFFFFFFFFF, 0x3, 0, 0, 1⟩
  | 0x03 => some ⟨0, 0, 0, 0, 8, 4096, 8⟩
  | 0x04 => some ⟨0, 0xFFFFFFFFFFFFFFFF, 0, 0, 4, 4096, 4⟩
  | 0x05 => some ⟨1, 0xFFFFFFFFFFFFFFFF, 0x7, 0, 1, 4096, 1⟩
  | 0x06 => some ⟨1, 0xFFFFFFFFFFFFFFFF, 0x01FFFFFF00000007, 0xFFFFFFFFFFFFFFFF, 0, 0, 1⟩
  | 0x07 => some ⟨1, 0, 0, 0, 128, 128, 1⟩
  | 0x08 => some ⟨1, 0xFFFFFF, 0xFFFFFFFF, 0, 128, 128, 1⟩
  | 0x09 => some ⟨1, 0xFFFFFF, 0, 0, 0, 0, 1⟩
  | 0x0A => some ⟨1, 0, 0x1F, 0, 0, 0, 1⟩
  | 0x0B => some ⟨1, 0, 0, 0, 0, 0, 1⟩
  | 0x0C => some ⟨1, 0, 0, 0, 0, 0, 1⟩
  | 0x0D => some ⟨1, 0, 0, 0, 0, 0, 1⟩
  | 0x0E => some ⟨2, 0xFFFFFFFFFFFFFFFF, 0, 0, 32, 32, 1⟩
  | 0x0F => some ⟨2, 0, 0x1FFFFFFFF, 0, 1, 1024, 1⟩
  | 0x10 => some ⟨2, 0, 0xFFFF011FFFFFFFFF, 0, 60, 4096, 1⟩
  | 0x11 => some ⟨2, 0xFFFFFFFFFFFFFFFF, 0xFFFFFFFFFFFFFFFF, 0xFFFFFFFFFFFFFFFF, 0, 0, 1⟩
  | _ => none

/-- A packet header (Table 15.5). -/
structure PktHdr where
  w0 : Word
  seq : Word
  w2 : Word
  w3 : Word
  target : DWord
  arg0 : DWord
  arg1 : DWord
  tag : DWord
  tail : List Byte
  deriving DecidableEq, Repr

def pktHdr (b : List Byte) : PktHdr :=
  { w0 := wAt b 0, seq := wAt b 4, w2 := wAt b 8, w3 := wAt b 0xC
    target := BitVec.ofNat 64 (leAt b 0x10 8), arg0 := BitVec.ofNat 64 (leAt b 0x18 8)
    arg1 := BitVec.ofNat 64 (leAt b 0x20 8), tag := BitVec.ofNat 64 (leAt b 0x28 8), tail := (b.drop 0x30).take 16 }

def PktHdr.opcode (h : PktHdr) : Nat := fld h.w0 0 8
def PktHdr.job (h : PktHdr) : Nat := fld h.w0 8 4
def PktHdr.func (h : PktHdr) : Nat := fld h.w0 16 5
def PktHdr.len (h : PktHdr) : Nat := fld h.w2 0 13
/-- The JOB of a packet in the numbering of HOST_F_NEXTSEQ. -/
def PktHdr.q (h : PktHdr) : PktJob := Fin.ofNat 9 (min 8 h.job)

/-- The rules of an opcode that its header shows (R376, R380, Table 15.6). -/
def ruleOk (h : PktHdr) (r : OpRule) : Bool :=
  (r.job = 0 || (r.job = 1 && h.job < 8) || (r.job = 2 && h.job = 15)) &&
  (h.target &&& ~~~ r.target) = 0 && (h.arg0 &&& ~~~ r.arg0) = 0 && (h.arg1 &&& ~~~ r.arg1) = 0 &&
  r.lo ≤ h.len && h.len ≤ r.hi && h.len % r.step = 0 &&
  !(h.opcode = 0x02 && fldN h.arg1.toNat 0 2 = 3) &&
  !((h.opcode = 0x05 || h.opcode = 0x06) && fldN h.arg0.toNat 0 3 ≥ 5) &&
  !(h.opcode = 0x10 && fldN h.arg0.toNat 32 5 ≥ 24) &&
  !(h.opcode = 0x11 && (h.arg1.toNat = 0 || h.arg1.toNat > 131072))

/-- The check of a header received by function `f` (R376): the status that rejects it, or none. -/
def hdrStatus (f : Nat) (h : PktHdr) : Option Nat :=
  if (h.w0 &&& 0xFFE0F000) ≠ 0 || (h.w2 &&& 0xFFFFE000) ≠ 0 || h.w3 ≠ 0 || !allZero h.tail || h.func ≠ f ||
      h.len > 4096 || (8 ≤ h.job && h.job ≤ 14) then some 0x01
  else
    match opRule h.opcode with
    | none => some 0x02
    | some r => if ruleOk h r then none else some 0x01

/-- The bytes that a slot holds from `o`, `n` of them, where all have been written. -/
def Slot.have? (x : Slot) (o n : Nat) : Option (List Byte) := (List.range n).mapM fun i => SMap.find x.bytes (o + i)

/-- The completion record of a packet (R382, Table 15.8). -/
def pktRec (f sl : Nat) (h : PktHdr) (status : Nat) (result : DWord) (detail : Word) (s : State) : State :=
  let s1 := pushRec f
    { seq := h.seq, kind := 0, job := h.job, opcode := h.opcode, status := status, tag := h.tag, result := result
      detail := detail, slot := some sl } s
  if status = 0x01 || status = 0x02 then raiseEv (pgHOSTF f) 0x800 0 s1
  else if status = 0x05 then bump (pgHOSTF f) 0x804 1 s1
  else s1

/-- SEQ expected next of a function and job (R377). -/
def State.pktNext (s : State) (f : Nat) (q : Nat) : Word := SMap.get (fun _ => 0) (s.fn f).nextSeq q

/-- A complete packet is taken from its slot: rejected, a duplicate, or waiting for its turn in a pool buffer (R375 to R377). -/
def takePkt (f sl : Nat) (h : PktHdr) (payload : List Byte) (s : State) : State :=
  let s1 := updSlot f sl (fun _ => { taken := true }) s
  let d := (h.seq - s.pktNext f h.q.val).toNat
  match hdrStatus f h with
  | some st => pktRec f sl h st 0 0 s1
  | none =>
    if d < 2048 then
      let p : Pkt := { f := fnOf f, slot := sl, q := h.q, opcode := h.opcode, seq := h.seq, target := h.target
                       arg0 := h.arg0, arg1 := h.arg1, tag := h.tag, payload := payload }
      let s2 := s1.updHost fun x => { x with pkts := x.pkts ++ [p] }
      if h.len = 0 then s2
      else poolReq .headbox (slotKey2 f sl) (if h.job < 8 then some (Fin.ofNat 8 h.job) else none) h.len s2
    else pktRec f sl h (if d ≥ 2 ^ 32 - 2048 then 0x05 else 0x01) 0 0 s1

/-- A slot that holds a complete packet is taken, unless the hold is full (R375, R376, R383). -/
def slotEval (f sl : Nat) (s : State) : State :=
  let x := s.slot f sl
  if x.taken then s
  else
    match x.have? 0 64 with
    | none => s
    | some hb =>
      let h := pktHdr hb
      match (if (hdrStatus f h).isSome then some [] else x.have? 64 h.len) with
      | none => s
      | some pl =>
        if (s.fn f).hold.length ≥ 4096 then updSlot f sl (fun y => { y with whole := true }) s
        else takePkt f sl h pl s

/-- A poisoned TLP completes the packet at once; what its record shows of header bytes that have not been written is open
(log 36). -/
def slotPoison (f sl : Nat) (s : State) : State :=
  let x := s.slot f sl
  let hb := (List.range 64).map fun i => (SMap.find x.bytes i).getD (Config.freeByte s.freeCtr i)
  pktRec f sl (pktHdr hb) 0x01 0 0 (updSlot f sl (fun _ => { taken := true }) s.draw.2)

/-- Bytes of one write that fall into one slot. -/
def slotWrite (f sl o : Nat) (bs : List Byte) (poisoned : Bool) (s : State) : State :=
  let x := s.slot f sl
  if x.taken || x.whole then raiseEv (pgHOSTF f) 0x808 1 s
  else if poisoned then slotPoison f sl s
  else
    slotEval f sl (updSlot f sl (fun y =>
      { y with bytes := (bs.zipIdx).foldl (fun m bi => SMap.put (o + bi.2) bi.1 m) y.bytes }) s)

/-- A write into BAR2 outside the recovery wait: its part in each slot that it touches (Table 15.4). -/
def headWrite (f off : Nat) (bs : List Byte) (poisoned : Bool) (s : State) : State :=
  let a := off / 0x2000
  let b := (off + bs.length - 1) / 0x2000
  if bs.isEmpty || off + bs.length > 0x1000000 then s
  else
    forAll (List.range' a (b - a + 1)) (fun sl t =>
      let lo := max off (sl * 0x2000)
      slotWrite f sl (lo - sl * 0x2000) ((bs.drop (lo - off)).take (sl * 0x2000 + 0x2000 - lo)) poisoned t) s

/-- The slots of a function whose packets waited for room in the hold (R383), lowest first. -/
def retakeSlots (f : Nat) (s : State) : State :=
  forAll ((s.host.slots.filter fun kv => kv.1 / 2048 = f && kv.2.whole && !kv.2.taken).map fun kv => kv.1 % 2048)
    (slotEval f) s

/-! ## Packets in SEQ order (R377) -/

/-- Packets of a function and job that wait. -/
def State.pktsOf (s : State) (f q : Nat) : List Pkt := s.host.pkts.filter fun k => k.f.val = f && k.q.val = q

/-- The packet of function `f` and job `q` that is next, where it has its pool buffer and its job does not quiesce. -/
def State.pktReady (s : State) (f q : Nat) : Option Pkt :=
  match (s.pktsOf f q).find? fun k => k.seq = s.pktNext f q with
  | none => none
  | some k =>
    if (k.payload.isEmpty || s.poolHas .headbox (slotKey2 f k.slot)) && !(q < 8 && s.jobSt q = .quiescing) then some k else none

/-- The header fields of a packet that its record shows. -/
def Pkt.hdr (k : Pkt) : PktHdr :=
  { w0 := wd (k.opcode + 2 ^ 8 * (if k.q.val = 8 then 15 else k.q.val)), seq := k.seq, w2 := 0, w3 := 0, target := k.target
    arg0 := k.arg0, arg1 := k.arg1, tag := k.tag, tail := [] }

/-- A packet has executed: its pool buffer goes back. -/
def pktLeave (k : Pkt) (s : State) : State :=
  poolRelease .headbox (slotKey2 k.f.val k.slot) (s.updHost fun h => { h with pkts := h.pkts.erase k })

/-- A packet ends: its record waits and its pool buffer goes back. -/
def pktEnd (k : Pkt) (status : Nat) (result : DWord) (detail : Word) (s : State) : State :=
  poolRelease .headbox (slotKey2 k.f.val k.slot)
    (pktRec k.f.val k.slot k.hdr status result detail (s.updHost fun h => { h with pkts := h.pkts.erase k }))

/-- Packets that now lie behind the expected SEQ are duplicates. -/
def pktSweep (f q : Nat) (s : State) : State :=
  forAll ((s.pktsOf f q).filter fun k => (s.pktNext f q - k.seq).toNat - 1 < 2048 && k.seq ≠ s.pktNext f q)
    (fun k t => pktEnd k 0x05 0 0 t) s

/-- What a packet's own effect answers. -/
structure PktAns where
  status : Nat := 0
  result : Nat := 0
  detail : Nat := 0
  /-- The record is written later: a launch (13 R341). -/
  later : Bool := false
  st : State

/-- The functions that may send an opcode (Table 15.6). -/
def State.mayStart (s : State) (f q opcode : Nat) : Bool :=
  match opcode with
  | 0x00 | 0x03 | 0x04 | 0x0E => true
  | 0x0A => isPf f
  | 0x0F | 0x10 | 0x11 => f = s.ctrlPf
  | _ => s.owns f q

/-- The opcodes that a job's state allows (Table 15.2). -/
def stAllows (st : JobSt) (opcode : Nat) : Bool :=
  match st with
  | .free => opcode = 0x0A
  | .assigned => !(opcode = 0x01 || opcode = 0x02 || opcode = 0x0A)
  | .running => !(opcode = 0x0A || opcode = 0x0B || opcode = 0x0D)
  | .quiescing => false

/-- The next packet of (FUNC, JOB) executes, where it is of this opcode (R371, R377, R378; 17 R431: before boot has ended,
only register reads and NOP). One whose payload lies in a poisoned unit of its pool buffer ends MEM_UE (14 Table 14.3). -/
def pktRun (f : Func) (q : PktJob) (opcode : Nat) (body : Pkt → State → PktAns) (s : State) : State :=
  match s.pktReady f.val q.val with
  | none => s
  | some k =>
    if k.opcode ≠ opcode then s
    else
      let s1 := s.updFn f.val fun x =>
        { x with nextSeq := SMap.set (fun _ => 0) q.val (k.seq + 1) x.nextSeq, gap := SMap.set (fun _ => false) q.val false x.gap }
      let a : PktAns :=
        if !s.boot.done.getLsbD 11 && !(opcode = 0x00 || opcode = 0x04) then { status := 0x04, st := s1 }
        else if !s.mayStart f.val q.val opcode then { status := 0x03, st := s1 }
        else if q.val < 8 && !stAllows (s.jobSt q.val) opcode then { status := 0x04, st := s1 }
        else
          match s1.poolBad .headbox (slotKey2 f.val k.slot) with
          | some x => { status := 0x1F, st := reportHbm x.1 x.2 3 s1 }
          | none => body k s1
      -- a reset of the module inside the packet leaves nothing of it
      if !a.st.host.pkts.contains k then a.st
      else pktSweep f.val q.val
        (if a.later then pktLeave k a.st else pktEnd k a.status (BitVec.ofNat 64 a.result) (wd a.detail) a.st)

/-- HOST_PKT_GAP (R377): a gap has held a packet waiting for GAP_US; once for each gap. -/
def execHostPktGap (f : Func) (q : PktJob) (s : State) : Res :=
  let ws := s.pktsOf f.val q.val
  .next (if ws.isEmpty || ws.any (fun k => k.seq = s.pktNext f.val q.val) || s.regF pgHOST 0x108 0 20 = 0 ||
      SMap.get (fun _ => false) (s.fn f.val).gap q.val then s
    else raiseEv (pgHOSTF f.val) 0x80C 2 (s.updFn f.val fun x => { x with gap := SMap.set (fun _ => false) q.val true x.gap }))

/-! ## Completion rings (R382, R383, R385) -/

/-- VALID and K of a function's ring. -/
def State.cqValid (s : State) (f : Nat) : Bool := bit (s.reg (pgHOSTF f) 0x118) 31
def State.cqSize (s : State) (f : Nat) : Nat := 2 ^ s.regF (pgHOSTF f) 0x118 0 4

/-- The bytes of a record (Table 15.8). -/
def CRec.bytes (r : CRec) (phase : Bool) : List Byte :=
  natLE 4 r.seq.toNat ++
  natLE 4 (r.status % 2 ^ 16 + r.opcode % 2 ^ 8 * 2 ^ 16 + r.job % 2 ^ 4 * 2 ^ 24 + r.kind * 2 ^ 28 + b2n phase * 2 ^ 31) ++
  natLE 8 r.tag.toNat ++ natLE 8 r.result.toNat ++ natLE 4 r.detail.toNat ++ natLE 4 0

/-- A record written counts towards vector 1 (R385). -/
def recIrq (f : Nat) (s : State) : State :=
  let n := (s.fn f).sinceIrq + 1
  let c := s.regF (pgHOSTF f) 0x124 0 16
  if c ≠ 0 && n ≥ c then sendMsix f 1 (s.updFn f fun x => { x with sinceIrq := 0 })
  else s.updFn f fun x => { x with sinceIrq := n }

/-- The oldest record of the hold goes into the ring (R382). A record that the host rejects is lost (R369). -/
def writeRec (f : Nat) (r : CRec) (rest : List CRec) (rejected : Bool) (s : State) : State :=
  let x := s.fn f
  let n := s.cqSize f
  let base := (s.reg64 (pgHOSTF f) 0x110).toNat
  let s1 := hostDma f (base + 32 * x.tail) (r.bytes x.phase) false rejected s
  let s2 := s1.updFn f fun y =>
    { y with hold := rest, tail := (y.tail + 1) % n, used := y.used + 1
             phase := if y.tail + 1 = n then !y.phase else y.phase }
  let s3 := match r.slot with
    | some sl => s2.updHost fun h => { h with slots := SMap.erase (slotKey2 f sl) h.slots }
    | none => s2
  retakeSlots f (whenD (!rejected) (recIrq f) s3)

/-- COMPLETION_RECORD (R382): a held record is written once ring space exists. -/
def execCompletionRecord (f : Func) (rejected : Bool) (s : State) : Res :=
  .next (match (s.fn f.val).hold with
    | [] => s
    | r :: rest =>
      if s.cqValid f.val && (s.fn f.val).used < s.cqSize f.val then writeRec f.val r rest rejected s else s)

/-- CQ_IRQ_TIMER (R385): TIMER_US after the first record since the last vector 1. -/
def execCqIrqTimer (f : Func) (s : State) : Res :=
  .next (if (s.fn f.val).sinceIrq = 0 || s.regF (pgHOSTF f.val) 0x124 16 16 = 0 then s
    else sendMsix f.val 1 (s.updFn f.val fun x => { x with sinceIrq := 0 }))

/-! ## Writes to the HOST and HOST_F pages (Table 15.11) -/

/-- A write of HOST_F_CQ_CTL (Table 15.15): while the ring is valid a changed K is ignored and recorded. -/
def cqCtlWr (w : Who) (f : Nat) (v : Word) (s : State) : Eff :=
  let p := pgHOSTF f
  let k := fld v 0 4
  if s.cqValid f then
    let s1 := s.setReg p 0x118 (setBit (s.reg p 0x118) 31 (bit v 31))
    .ok (if k = s.regF p 0x118 0 4 then s1 else refuse w p .cqBusy 0x118 v s1)
  else if bit v 31 then
    if k < 6 then .error .badRing
    else .ok (((s.setReg p 0x118 v).setReg p 0x11C 0).updFn f fun x => { x with tail := 0, phase := true, used := 0 })
  else .ok (s.setReg p 0x118 v)

/-- A write of HOST_F_CQ_HEAD: the entries before it have been consumed. -/
def cqHeadWr (f : Nat) (v : Word) (s : State) : State :=
  let n := s.cqSize f
  (s.setReg (pgHOSTF f) 0x11C v).updFn f fun x => { x with used := (x.tail + n - fld v 0 16 % n) % n }

def hostFEffect (w : Who) (f o : Nat) (v : DWord) (s : State) : Eff :=
  let p := pgHOSTF f
  if o = 0x110 then (if s.cqValid f then .error .cqBusy else .ok (storePair p o 0 v s))
  else if o = 0x118 then cqCtlWr w f (loW v) s
  else if o = 0x11C then .ok (cqHeadWr f (loW v) s)
  else .ok (store p o 0 (loW v) s)

def hostFView (s : State) (f o : Nat) (v : Word) : Word :=
  let x := s.fn f
  if o = 0x100 then wd (f + b2n (isPf f) * 2 ^ 8 + portOf f * 2 ^ 9)
  else if o = 0x104 then
    wd (min 0x1FFF x.hold.length + (s.host.slots.countP fun kv => kv.1 / 2048 = f && kv.2.taken) % 2 ^ 12 * 2 ^ 16)
  else if o = 0x120 then wd x.tail
  else if o ≥ 0x140 then SMap.get (fun _ => 0) x.nextSeq ((o - 0x140) / 4)
  else v

/-- The number of a job state in HOST_Jn_STATE. -/
def JobSt.num : JobSt → Nat
  | .free => 0 | .assigned => 1 | .running => 2 | .quiescing => 3

def hostView (s : State) (o : Nat) (v : Word) : Word :=
  let h := s.host
  let link (p : Nat) : Nat := b2n (h.linkUp.getD p false) + h.width.getD p 0 * 2 ^ 4 + h.rate.getD p 0 * 2 ^ 8
  if o = 0x104 then wd (link 0 + link 1 * 2 ^ 16)
  else if 0x200 ≤ o && o < 0x280 then
    let j := (o - 0x200) / 0x10
    wd (JobSt.num (s.jobSt j) + (if s.jobSt j = .free then 0 else s.owner j) * 2 ^ 8)
  else if o = 0x300 || o = 0x304 then
    let w := (o - 0x300) / 4
    wd (bitsNat ((List.range 32).filter fun i => 32 * w + i < 40 && s.summary (32 * w + i)))
  else v

end Sys2Proof.Machine
end

