-- ==== Sys2Proof/Machine/Fabric.lean ====
section
/-! DEFINITION. Steps of the fabric ports and the switch core (09): frames in, outputs served, pause, rate, retries, spray,
capture and mirroring; and the effects of writes to the FAB and SW pages. -/
namespace Sys2Proof.Machine

open Sys2Proof

/-! ## Local addresses and classes -/

/-- The VALID SW_LIP entry of an address: its index. -/
def State.lipOf (s : State) (v6 : Bool) (ip : BitVec 128) : Option Nat :=
  (List.range 16).find? fun i =>
    let c := s.reg pgSW 0x134 i
    let a := s.lipAddr i
    bit c 31 && bit c 30 = v6 && (if v6 then a else a % 2 ^ 32) = ip.toNat

/-- The class of a forwarded frame (R240). -/
def State.dscpClass (s : State) (d : Nat) : Nat :=
  let c := s.regF pgSW (0x1D0 + 4 * (d / 8)) (4 * (d % 8)) 3
  if c = 0 then 0 else if c = 2 then 2 else 1

/-! ## Outputs (R242, R243, R247) -/

/-- A class is held at an output by a received XOFF. -/
def State.held (s : State) (o c : Nat) : Bool :=
  o < 24 && (c = 1 || c = 2) && (SMap.find s.fab.held (2 * o + (c - 1))).isSome

/-- A frame of `bytes` bytes would still be on its way out of a MAC at the time of an armed launch (13 R341). -/
def State.launchBars (s : State) (o bytes : Nat) : Bool :=
  match SMap.find s.time.armed o, s.launchesOf o with
  | some _, x :: _ => o < 24 && decide (0 < (loW s.time.nt - x.t).toInt * s.macRate o + 8 * bytes)
  | _, _ => false

/-- The next packet of a class at an output: inputs round-robin, each with the head of its queue, if that may leave. -/
def State.voqHead (s : State) (o c : Nat) : Option VPkt :=
  let last := SMap.get (fun _ => 19) s.fab.rrIn (8 * o + c)
  (List.range 20).findSome? fun k =>
    (s.fab.voq.find? fun p => p.output = o && p.cls = c && p.input = (last + 1 + k) % 20).filter fun p => s.mayLeave p && !s.launchBars o p.bytes

/-- Classes that deficit round-robin serves, in the order after the last one. -/
def drrNext (c : Nat) : Nat := if c ≥ 4 then 1 else c + 1

/-- Deficit round-robin: the class that it serves next, from class `c` on. A class that its turn comes to (`fresh`) gains its quantum;
one with nothing queued keeps no deficit. -/
def drrPick (o : Nat) : Nat → Bool → Nat → SMap Nat → State → Option (VPkt × SMap Nat)
  | 0, _, _, _, _ => none
  | n + 1, fresh, c, d, s =>
    let k := 8 * o + c
    match (if s.held o c then none else s.voqHead o c) with
    | none => drrPick o n true (drrNext c) (if s.qOf o c = 0 then SMap.erase k d else d) s
    | some p =>
      let have_ := SMap.get (fun _ => 0) d k + (if fresh then 256 * s.regF pgSW 0x1F4 (8 * (c - 1)) 8 else 0)
      if p.bytes ≤ have_ then some (p, SMap.set (fun _ => 0) k (have_ - p.bytes) d)
      else drrPick o n true (drrNext c) (SMap.set (fun _ => 0) k have_ d) s

/-- ECN (R247): whether a leaving packet is marked, and the state that has drawn for it. -/
def ecnMark (p : VPkt) (q : Nat) (s : State) : Bool × State :=
  let m := p.output
  let e := s.reg (macPg m) 0x10C
  let kmin := fld e 0 8 * 16384
  let kmax := fld e 16 8 * 16384
  if m ≥ 24 || !p.ecn || !(p.cls = 1 || p.cls = 2) || !bit e 15 || q < kmin then (false, s)
  else if q ≥ kmax then (true, s)
  else (decide (s.draw.1.toNat % (100 * (kmax - kmin)) < fld e 24 8 * (q - kmin)), s.draw.2)

/-- A frame with its ECN field set to CE; an IPv4 header's checksum follows. -/
def setCe (d : List Byte) : List Byte :=
  let e := if leAt (d.drop 12) 0 2 = 0x0081 then 16 else 12
  let ip := d.drop (e + 2)
  if leAt d e 2 = 0xDD86 then patch d (e + 3) [ip.getD 1 0 ||| 0x30]
  else
    let h := patch (ip.take (4 * ((ip.headD 0).toNat % 16))) 1 [ip.getD 1 0 ||| 3]
    patch d (e + 2) (ipFix h)

/-- The root's answer to an ARP request or a Neighbour Solicitation, from MAC `m`: the frame's own fields, and SW_BASE_MAC + m. -/
def answerBytes (m : Nat) (f : Frame) : List Byte :=
  let own := natBE 6 (Config.baseMac.toNat + m)
  let eth := natBE 6 f.smac.toNat ++ own
  if f.v6 then
    let body (sum : Nat) : List Byte :=
      [136, 0] ++ natBE 2 sum ++ [0x60, 0, 0, 0] ++ natBE 16 f.dstIp.toNat ++ [2, 1] ++ own
    let pseudo := natBE 16 f.dstIp.toNat ++ natBE 16 f.srcIp.toNat ++ natBE 4 32 ++ natBE 4 58
    eth ++ natBE 2 0x86DD ++ [0x60, 0, 0, 0] ++ natBE 2 32 ++ [58, 255] ++ natBE 16 f.dstIp.toNat ++ natBE 16 f.srcIp.toNat ++
      body (ipSum (pseudo ++ body 0))
  else
    eth ++ natBE 2 0x0806 ++ [0, 1, 8, 0, 6, 4, 0, 2] ++ own ++ natBE 4 f.dstIp.toNat ++ natBE 6 f.smac.toNat ++
      natBE 4 f.srcIp.toNat ++ List.replicate 18 0

/-- The root takes a frame (R238): it answers a request for a local address by the MAC that the frame came in on, in class CTRL, and
drops every other one. -/
def rootTake (m : Nat) (f : Frame) (s : State) : State :=
  if f.kind ≠ .solicit || (s.lipOf f.v6 f.dstIp).isNone then s
  else if !s.macUp m then bumpMac m 0x860 1 s
  else
    let d := answerBytes m f
    enqueue { input := 18, output := m, cls := 0, bytes := d.length + 4, data := d, flow := [0, m] } s

/-- A request packet of the gateway's own has left. -/
def noteLeft (p : VPkt) (s : State) : State :=
  match p.psn, p.qpn with
  | some psn, some n =>
    updQp (BitVec.ofNat 24 n) (fun q =>
      match q.at? psn with
      | some (m, i) => q.updMsg m.first fun x => { x with left := max x.left (i + 1) }
      | none => q) s
  | _, _ => s

/-- A packet leaves by its output, where `q` bytes of its class were queued. -/
def leave (p : VPkt) (q : Nat) (s : State) : State :=
  let o := p.output
  let mk := ecnMark p q s
  let s1 := noteLeft p (whenD mk.1 (bumpMac o 0x854 1) mk.2)
  let s2 :=
    if o < 24 then frameOut o p.cls p.qpn (if mk.1 then setCe p.data else p.data) p.bytes s1
    else
      match p.root, p.src with
      | some f, some m => rootTake m f (s1.emit (.inner o p.data))
      | _, _ => s1.emit (.inner o p.data)
  match p.src with | some m => pfcEval m s2 | none => s2

/-- A queued packet leaves. -/
def sendPkt (p : VPkt) (s : State) : State :=
  let o := p.output
  leave p (s.qOf o p.cls) (s.updFab fun f =>
    { f with voq := f.voq.erase p
             rrIn := SMap.set (fun _ => 19) (8 * o + p.cls) p.input f.rrIn
             rrCls := if 1 ≤ p.cls && p.cls ≤ 4 then SMap.set (fun _ => 1) o p.cls f.rrCls else f.rrCls })

/-- The next packet of an output: CTRL, then deficit round-robin, then mirror copies (R242, R258). -/
def serveOne (o : Nat) (s : State) : State :=
  match s.voqHead o 0 with
  | some p => sendPkt p s
  | none =>
    match drrPick o 400 false (SMap.get (fun _ => 1) s.fab.rrCls o) s.fab.deficit s with
    | some (p, d) => sendPkt p (s.updFab fun f => { f with deficit := d })
    | none =>
      match s.voqHead o 5 with
      | some p => sendPkt p s
      | none => s

/-- OUTPUT_SERVE (R242). -/
def execOutputServe (o : Fin 31) (s : State) : Res := .next (fabPump (serveOne o.val s))

/-! ## Rate and retries (R236, R248) -/

/-- A queue pair goes to the error state: its job's contribution or returns suffer as R113 and R217 say. -/
def qpError (q : Qp) (s : State) : State :=
  let j := q.job.val
  let s1 := raiseMac (s.qpMac q) 0x86C 3 (putQp { q with ctx := setAt q.ctx 1 (setFld (q.ctx.getD 1 0) 0 3 4) }.idle s)
  let s2 := qpCutAll q.qpn s1
  let gone := BitVec.ofNat 512 (bitsNat ((List.range 512).filter fun c =>
    bit (s.ctGqpn j c) 31 && fld (s.ctGqpn j c) 0 24 = q.qpn.toNat))
  scatterDrop j gone true s2

/-- A retry: go-back-N, or the error state once the retries are used up. -/
def retryQp (q : Qp) (s : State) : State :=
  if q.retries ≥ q.retry then qpError q s else resendQp { q with retries := q.retries + 1 } s

/-- ACK_TIMEOUT (R236): a retry; or the wait that an RNR NAK asked for is over (log 152). -/
def execAckTimeout (qpn : BitVec 24) (s : State) : Res :=
  .next (match s.qp? qpn with
    | none => s
    | some q =>
      if q.state ≠ 3 || q.una = q.spsn then s
      else fabPump (if q.rnrWait then resendQp q s else retryQp q s))

/-- The queue pair's MAC and its congestion settings. -/
def State.ccOf (s : State) (q : Qp) : Word := s.reg (macPg (s.qpMac q)) 0x110

/-- One CNP received, on MAC `m` (R248). -/
def cnpOp (m : Nat) (qpn : BitVec 24) (s : State) : State :=
  match s.qp? qpn with
  | none => s
  | some q =>
    let dec := max 1 (fld (s.ccOf q) 20 4)
    let r := q.rate.sub (q.rate.shift (-(dec : Int)))
    bumpMac m 0x85C 1 (putQp { q with rate := Dy.max (Dy.ofInt 1) r } s)

/-- CNP_RX (R248): it came in on the queue pair's MAC. -/
def execCnpRx (qpn : BitVec 24) (s : State) : Res :=
  .next (match s.qp? qpn with | none => s | some q => cnpOp (s.qpMac q) qpn s)

/-- RATE_INCREASE (R248). -/
def execRateIncrease (qpn : BitVec 24) (s : State) : Res :=
  .next (match s.qp? qpn with
    | none => s
    | some q =>
      let top := Dy.ofInt (s.macRate (s.qpMac q))
      let r := q.rate.add (Dy.ofInt (fld (s.ccOf q) 8 8))
      putQp { q with rate := if r.le top then r else top } s)

/-! ## Terminated frames (R234, Table 9.5) -/

/-- A NAK for a packet of MAC `m`, counted there. -/
def nakQp (m : Nat) (qpn psn : BitVec 24) (syn : Nat) (s : State) : State :=
  bumpMac m 0x844 1 (updQp qpn (fun q => { q with owes := q.owes ++ [.ack psn syn], refused := true }) s)

/-- The syndrome of an ACK, and of an RNR NAK; the credits and the timer are open (log 19). -/
def ackSyn : Nat := (Config.pktOpen 4).toNat % 32
def rnrSyn : Nat := 0x20 + (Config.pktOpen 5).toNat % 32

/-- Row 2 drops, with its capture. -/
def roceDrop (m row : Nat) (q : BitVec 24) (s : State) : State :=
  captureEv (macPg m) (macCnt m 0x840) (wd (row + q.toNat * 2 ^ 3)) 0 (bumpMac m 0x840 1 s)

/-- The read region of an R_Key for a job and range (R235). -/
def State.rrOf (s : State) (j : Nat) (h : Reth) : Option (Bool × Nat) :=
  let i := fld h.rkey 24 8
  let c := s.reg pgSW 0x154 i
  let base := (s.reg64 pgSW 0x158 i).toNat
  let len := (s.reg64 pgSW 0x160 i).toNat
  if bit c 31 && fld c 24 3 = j && fld h.rkey 0 24 = SMap.get (fun _ => 0) s.fab.rrTag i &&
      base ≤ h.va.toNat && h.va.toNat + h.len ≤ base + len &&
      (if bit c 30 then lpSnap ≤ h.va.toNat && h.va.toNat + h.len ≤ lpSnapEnd else s.hbmOk j h.va.toNat h.len) then
    some (bit c 30, h.va.toNat)
  else none

/-- A READ of a read region: its response, or a NAK where it does not lie inside one, meets poison, or is one too many (R235, Table 9.4,
14 Table 14.3). -/
def roceReadOp (m : Nat) (q : Qp) (f : Frame) (h : Reth) (s : State) : State :=
  match (if q.keyRead then s.rrOf q.job.val h else none) with
  | none => if q.keyRead then nakQp m q.qpn f.psn (nakSyn 2) s else winNak q.qpn q.job.val (fld h.rkey 18 14) s
  | some (lp, a) =>
    let waits := q.readsOpen + s.fab.voq.countP fun p => p.rdEnd && p.qpn = some q.qpn.toNat
    if h.len = 0 || h.len > 2 ^ 31 || waits ≥ q.maxRd || s.readsOpen ≥ 2048 then nakQp m q.qpn f.psn (nakSyn 1) s
    else if (if lp then s.lpBad a h.len else s.hbmBad a h.len) then
      nakQp m q.qpn f.psn (nakSyn 3) (if lp then reportLp a h.len 3 s else reportHbm a h.len 3 s)
    else owe q.qpn (.data f.psn lp a h.len 0) s

/-- A write packet in the VAT key space: to a reduction, step or GACK window (04, Table 4.2). One to a step or GACK window under
another tag than its own is an acknowledged discard, as it is for a reduction window (log 153). -/
def vatWrite (q : Qp) (f : Frame) (s : State) : State :=
  match f.reth with
  | none => contribMore q.qpn f.payload [] s
  | some h =>
    let win := fld h.rkey 18 14
    let c := s.winCtl win
    let off := h.va.toNat - (s.winBase win).toNat
    let mine := winValid c && winJob c = q.job.val && h.va.toNat ≥ (s.winBase win).toNat
    if mine && (winType c = 1 || winType c = 2) && fld h.rkey 0 18 ≠ s.winTag win then bump (pgVAT 0) 0x824 1 s
    else if mine && winType c = 1 then stepMarkOp q.job.val off f.payload s
    else if mine && winType c = 2 then
      (if off ≥ 0x1000 then (match execStreamConsumerAck q.job off f.payload s with | .next t => t | _ => s)
       else gackOp q.job.val q.qpn off f.payload s)
    else contribFirst q.qpn h f.payload [] s

/-- What a request in sequence does. -/
def roceServe (m : Nat) (qpn : BitVec 24) (f : Frame) (s : State) : State :=
  match s.qp? qpn with
  | none => s
  | some q =>
    if f.payload.length > q.pmtu then nakQp m qpn f.psn (nakSyn 1) s
    else
      match f.op with
      | .send =>
        let buf := q.sendBuf ++ f.payload
        if f.lastOrOnly then
          let s1 := putQp { q with sendBuf := [] } s
          (match s1.scOfIn qpn with | some i => scMessage i qpn buf s1 | none => s1)
        else putQp { q with sendBuf := buf } s
      | .write | .writeImm => if q.keyRead then nakQp m qpn f.psn (nakSyn 2) s else vatWrite q f s
      | .read => match f.reth with | some h => roceReadOp m q f h s | none => nakQp m qpn f.psn (nakSyn 1) s
      | _ => s

/-- The PSNs that a request takes: a READ one for each packet of its response. -/
def framePsns (f : Frame) (pmtu : Nat) : Nat :=
  match f.op, f.reth with
  | .read, some h => max 1 (ceilDiv h.len pmtu)
  | _, _ => 1

/-- A request in sequence: served, and acknowledged unless it is refused or a READ. -/
def roceTake (m : Nat) (q : Qp) (f : Frame) (s : State) : State :=
  let s1 := roceServe m q.qpn f (putQp
    { q with epsn := q.epsn + BitVec.ofNat 24 (framePsns f q.pmtu), nakSent := false, refused := false
             msn := if f.lastOrOnly || f.op = .read then q.msn + 1 else q.msn } s)
  match s1.qp? q.qpn with
  | none => s1
  | some q1 => whenD (f.op ≠ .read && !q1.refused) (owe q.qpn (.ack f.psn ackSyn)) s1

/-- A message begins on a stream's queue pair, and there is no receive credit for it (08 R224). -/
def State.noCredit (s : State) (q : Qp) (f : Frame) : Bool :=
  f.op = .send && q.sendBuf.isEmpty && (match s.scOfIn q.qpn with | some i => !s.scRoom i | none => true)

/-- A CE-marked packet: at most one CNP per interval (R248). -/
def cnpSend (m : Nat) (qpn : BitVec 24) (s : State) : State :=
  match s.qp? qpn with
  | none => s
  | some q =>
    let iv := 1000 * max 1 (s.regF (macPg m) 0x110 24 8)
    let due : Bool := match q.lastCnp with | none => true | some t => decide ((s.time.nt - t).toNat ≥ iv)
    if due then bumpMac m 0x858 1 (putQp { q with lastCnp := some s.time.nt, owes := q.owes ++ [.cnp] } s) else s

/-- The packets held in the reorder window are taken while they are next (R256). -/
def drainReord (m : Nat) (qpn : BitVec 24) : Nat → State → State
  | 0, s => s
  | n + 1, s =>
    match s.qp? qpn with
    | none => s
    | some q =>
      match q.reord.find? fun f => f.psn = q.epsn with
      | none => s
      | some f => drainReord m qpn n (roceTake m { q with reord := q.reord.erase f } f s)

/-- Rows 3 to 5 for a request of a queue pair. -/
def roceRequest (m : Nat) (q : Qp) (f : Frame) (s : State) : State :=
  if f.op = .unsupported || (f.op = .send && q.role ≠ 3) then nakQp m q.qpn f.psn (nakSyn 1) s
  else
    let d := (f.psn - q.epsn).toNat
    if d = 0 then
      (if s.noCredit q f then nakQp m q.qpn f.psn rnrSyn (putQp { q with nakSent := true } s)
       else drainReord m q.qpn 512 (roceTake m q f s))
    else if d ≥ 2 ^ 23 then
      (match f.op, f.reth with
       | .read, some h => roceReadOp m q f h s
       | _, _ => owe q.qpn (.ack (q.epsn - 1) ackSyn) s)
    else if q.spray then
      (if d ≥ 512 then roceDrop m 4 q.qpn s
       else if q.reord.any fun x => x.psn = f.psn then s
       else putQp { q with reord := q.reord ++ [f] } s)
    else if q.nakSent then s
    else nakQp m q.qpn q.epsn (nakSyn 0) (putQp { q with nakSent := true } s)

/-- An acknowledgement of this gateway's own packets (R236). A NAK acknowledges what stands before its PSN; one for a gap in the sequence
is a retry, one for a receiver that is not ready is tried again after a wait (a count of 7 has no end, IBTA), and any other is fatal. -/
def roceAnswer (q : Qp) (f : Frame) (s : State) : State :=
  match f.op with
  | .ack => qpAcked q.qpn f.psn s
  | .nak =>
    let s1 := qpAcked q.qpn (f.psn - 1) s
    let kind := f.syn.toNat / 32
    (match s1.qp? q.qpn with
     | none => s1
     | some q1 =>
       if q1.una = q1.spsn then s1
       else if kind = 1 then
         (if q1.rnrRetry ≠ 7 && q1.rnr ≥ q1.rnrRetry then qpError q1 s1
          else putQp { q1 with rnr := q1.rnr + 1, rnrWait := true, nxt := q1.una } s1)
       else if kind = 3 then (if f.syn.toNat % 32 = 0 then retryQp q1 s1 else qpError q1 s1)
       else s1)
  | _ => s

/-- A frame for one of the gateway's addresses. -/
def terminate (m : Nat) (f : Frame) (s : State) : State :=
  match s.lipOf f.v6 f.dstIp with
  | none => bumpMac m 0x83C 1 s
  | some l =>
    if f.ipOptions || f.udpDst ≠ 4791 || f.kind ≠ .roce then bumpMac m 0x83C 1 s
    else
      match s.qp? f.qpn with
      | none => roceDrop m 2 f.qpn s
      | some q =>
        if !f.icrcOk || !f.rcOpcode || !(q.state = 2 || q.state = 3) || s.regF pgSW 0x134 24 3 l ≠ q.job.val || f.pkey ≠ q.pkey then
          roceDrop m 2 f.qpn s
        else
          let s1 := whenD f.ce (cnpSend m f.qpn) s
          match s1.qp? f.qpn with
          | none => s1
          | some q1 =>
            match f.op with
            | .cnp => cnpOp m f.qpn s1
            | .ack | .nak | .readResp => roceAnswer q1 f s1
            | _ => roceRequest m q1 f s1

/-- A frame that was forwarded to output `o` may be cut through (R243). -/
def State.cutThrough (s : State) (m : Nat) (p : VPkt) : Bool :=
  bit (s.reg pgSW 0x100) 0 && p.output < 24 && !s.launchBars p.output p.bytes && s.macUp p.output && s.macRate p.output ≤ s.macRate m &&
  s.qOf p.output p.cls = 0 && !s.held p.output p.cls && s.mayLeave p

/-- A frame that is forwarded (R238 to R240, R243); one longer than 9,216 bytes is dropped (Table 9.2). -/
def forwardFrame (m : Nat) (f : Frame) (s : State) : State :=
  let input := m / 2
  if f.len > 9216 then s
  else
    match (List.range 16384).find? fun i =>
      bit (s.reg pgSW 0x124 i) 31 && (s.reg64 pgSW 0x11C i).toNat % 2 ^ 48 = f.dmac.toNat with
    | none => noRoute input 0xFFFF s
    | some i =>
      let seid := s.regF pgSW 0x124 0 16 i
      let roce := decide (f.kind = .roce)
      let p (o : Nat) : VPkt :=
        { input := input, src := some m, output := o, cls := s.dscpClass f.dscp.toNat, bytes := f.len, data := f.data
          ecn := f.ecnCapable, qpn := if roce then some f.qpn.toNat else none
          flow := [f.srcIp.toNat, f.dstIp.toNat, f.udpSrc.toNat, f.qpn.toNat], fence := !roce || f.lastOrOnly }
      match s.route seid (p 0).flow false with
      | some (o, _) =>
        if s.cutThrough m (p o) then leave (p o) 0 (noteFlow (p o).flow seid false (p o).fence s) else egress seid false p s
      | none => egress seid false p s

/-- The gateway's own fabric MAC addresses. -/
def isOwnMac (d : BitVec 48) : Bool := (d - Config.baseMac).toNat < 24

/-- The class of a received frame. -/
def State.frameClass (s : State) (f : Frame) : Nat :=
  if isOwnMac f.dmac then
    (match f.op with
     | .ack | .nak | .readResp => 2
     | .cnp => 0
     | _ => match s.qp? f.qpn with | some q => q.cls | none => 1)
  else if f.dmac.getLsbD 40 then 0
  else s.dscpClass f.dscp.toNat

/-- A frame goes to the root, in class CTRL (R238). -/
def toRoot (m : Nat) (f : Frame) (s : State) : State :=
  enqueue { input := m / 2, src := some m, output := 30, cls := 0, bytes := f.len, data := f.data
            flow := [f.srcIp.toNat, f.dstIp.toNat, f.udpSrc.toNat, f.qpn.toNat], root := some f } s

/-- FABRIC_FRAME (R238); with it, what the FEC has done since the frame before (R259). -/
def execFabricFrame (m : Mac) (f : Frame) (s : State) : Res :=
  let q := if f.kind = .roce then some f.qpn.toNat else none
  .next (if !(s.macUp m.val && s.macEn m.val) then s
    else
      let s0 := bumpEv (macPg m.val) (macCnt m.val 0x838) 0 f.fecBad (bumpMac m.val 0x834 f.fecCorr s)
      let s1 := bumpMac m.val 0x808 f.len (bumpMac m.val 0x800 1 s0)
      if !f.fcsOk then bumpMac m.val 0x830 1 s1
      else
        let s2 := mirrorFrame m.val false q f.data f.len (capFrame m.val false (s1.frameClass f) q f.data f.len s1)
        fabPump (if isOwnMac f.dmac then terminate m.val f s2
          else if f.dmac.getLsbD 40 then toRoot m.val f s2
          else forwardFrame m.val f s2))

/-! ## Links and pause (R231, R244, R245) -/

/-- A class is held no longer: the cycles that it was held are counted at FABRIC's 1.35 GHz (R259). -/
def unhold (m c : Nat) (s : State) : State :=
  match SMap.find s.fab.held (2 * m + c) with
  | none => s
  | some t =>
    bumpMac m (0x820 + 8 * c) ((s.time.nt - t).toNat * 27 / 20) (s.updFab fun f =>
      { f with held := SMap.erase (2 * m + c) f.held, longRaised := SMap.erase (2 * m + c) f.longRaised })

/-- FAB_LINK_DOWN (R231): what was queued for the MAC goes, and the sources whose REQ it held may be let on. -/
def execFabLinkDown (m : Mac) (s : State) : Res :=
  .next (if !s.macUp m.val then s
    else
      let n := s.fab.voq.countP fun p => p.output = m.val
      let s1 := raiseMac m.val 0x864 1 (bumpMac m.val 0x860 n ((unhold m.val 1 (unhold m.val 0 s)).updFab fun f =>
        { f with
          linkUp := SMap.set (fun _ => false) m.val false f.linkUp
          xoffSent := SMap.set (fun _ => false) m.val false f.xoffSent
          voq := f.voq.filter fun p => p.output ≠ m.val }))
      fabPump (dropLaunches m.val (forAll (List.range 24) pfcEval s1)))

/-- The lanes of a MAC's port have rings: boot step B9 has put its engine in service (17 Table 17.7). -/
def State.lanesOn (s : State) (m : Nat) : Bool :=
  (List.range 4).all fun i => (SMap.get ringDefault s.opt.rings (9 * (m / 4) + 4 * (m / 2 % 2) + i)).st ≠ 5

/-- FAB_LINK_UP (R231); an engine out of service leaves its links down. -/
def execFabLinkUp (m : Mac) (s : State) : Res :=
  .next (if s.macEn m.val && s.lanesOn m.val then
      pfcEval m.val (s.updFab fun f => { f with linkUp := SMap.set (fun _ => false) m.val true f.linkUp })
    else s)

/-- The class that a priority of a MAC pauses: 0 = REQ, 1 = RSP. -/
def State.priClass (s : State) (m : Nat) (prio : BitVec 3) : Option Nat :=
  if s.regF (macPg m) 0x108 0 3 = prio.toNat then some 0
  else if s.regF (macPg m) 0x108 4 3 = prio.toNat then some 1
  else none

/-- PFC_XOFF_RX (R244). -/
def execPfcXoffRx (m : Mac) (prio : BitVec 3) (s : State) : Res :=
  .next (if !s.pfcEn m.val || !s.macUp m.val then s
    else
      match s.priClass m.val prio with
      | none => bumpMac m.val 0x850 1 s
      | some c =>
        let k := 2 * m.val + c
        bumpMac m.val 0x848 1 (if (SMap.find s.fab.held k).isSome then s
          else s.updFab fun f => { f with held := SMap.put k s.time.nt f.held }))

/-- PFC_PAUSE_END (R244). -/
def execPfcPauseEnd (m : Mac) (prio : BitVec 3) (s : State) : Res :=
  .next (match s.priClass m.val prio with | none => s | some c => unhold m.val c s)

/-- FAB_PFC_LONG (R245): once per pause; WDOG 0 disables it. -/
def execFabPfcLong (m : Mac) (prio : BitVec 3) (s : State) : Res :=
  .next (match s.priClass m.val prio with
    | none => s
    | some c =>
      let k := 2 * m.val + c
      if (SMap.find s.fab.held k).isNone || (SMap.find s.fab.longRaised k).isSome || s.regF (macPg m.val) 0x108 24 8 = 0 then s
      else raiseMac m.val 0x868 2 (s.updFab fun f => { f with longRaised := SMap.put k true f.longRaised }))

/-- IMBALANCE_WINDOW (R255): a window of WIN µs closes. -/
def execImbalanceWindow (g : Fin 16) (s : State) : Res :=
  let ms := s.pgUp g.val
  let b := ms.map fun m => SMap.get (fun _ => 0) s.fab.pgBytes (32 * g.val + m)
  let N := s.regF pgSW 0x1C4 24 8
  let imb := decide (4 * ms.length * b.foldl max 0 > b.foldl Nat.add 0 * (4 + s.regF pgSW 0x1C4 16 4))
  let x := SMap.get (fun _ => ({} : PgSt)) s.fab.pgs g.val
  let run := if imb = x.spray then 0 else x.run + 1
  let flip := decide (N ≠ 0) && decide (run ≥ N)
  let y : PgSt := if N = 0 then {} else if flip then { spray := !x.spray, run := 0 } else { x with run := run }
  let s1 := s.updFab fun f =>
    { f with pgs := SMap.set (fun _ => {}) g.val y f.pgs, pgBytes := f.pgBytes.filter fun kv => kv.1 / 32 ≠ g.val }
  .next (if flip && !x.spray then raiseEv pgSW 0x808 2 s1 else s1)

/-! ## Writes to the FAB and SW pages (Tables 9.11, 9.17) -/

/-- PFC follows its settings: off, it sends nothing and holds nothing; else each MAC of the port is looked at anew (R244). -/
def pfcSettle (p : Nat) (s : State) : State :=
  forAll [2 * pgInst p, 2 * pgInst p + 1] (fun m t =>
    if t.pfcEn m then pfcEval m t
    else (unhold m 1 (unhold m 0 t)).updFab fun f => { f with xoffSent := SMap.set (fun _ => false) m false f.xoffSent }) s

/-- Effects of a FAB page (R229, R244). -/
def fabEffect (p o ix : Nat) (v : DWord) (s : State) : Eff :=
  let w := loW v
  if o = 0x100 then
    let old := s.reg p o
    if bit w 0 ≠ bit old 0 && fld old 16 2 ≠ 0 then .error .portBusy else .ok (pfcSettle p (store p o ix w s))
  else if o = 0x108 then
    if fld w 16 8 < 1 || 48 < fld w 16 8 || fld w 16 8 ≤ fld w 8 8 || fld w 0 3 = fld w 4 3 then .error .pfcRange
    else .ok (pfcSettle p (store p o ix w s))
  else .ok (store p o ix w s)

/-- The spare ring of a port's engine carries one of the port's lanes (11 R291, R292). -/
def State.onSpare (s : State) (i : Nat) : Bool :=
  let e := s.opt.engs.getD (i / 2) {}
  [e.cal, e.cover].any fun x => match x with | some k => decide (k / 4 = i % 2) | none => false

/-- What a FAB page shows. -/
def fabView (s : State) (p o : Nat) (v : Word) : Word :=
  let i := pgInst p
  if o = 0x104 then
    wd (b2n (s.macUp (2 * i)) + 2 * b2n (s.macUp (2 * i + 1)) + 2 ^ 8 * b2n (s.onSpare i))
  else if o ≥ 0x140 then
    let k := (o - 0x140) / 4
    let m := 2 * i + k / 5
    wd (s.qOf m (k % 5) / 1024 % 2 ^ 16 + SMap.get (fun _ => 0) s.fab.qdMax (8 * m + k % 5) % 2 ^ 16 * 2 ^ 16)
  else v

/-- A write of SW_Jn_QP (R233). -/
def qpQuotaWr (j : Nat) (v : Word) (s : State) : Eff :=
  let n := fld v 0 14
  let sum := ((List.range 8).map fun i => if i = j then n else s.regF pgSW (0x400 + 0x10 * i) 0 14).foldl Nat.add 0
  if sum > 8192 || n < s.qpUsed j then .error .qpQuota else .ok (store pgSW (0x400 + 0x10 * j) 0 v s)

/-- A write of SW_RR_CTL (R235, 14 R359). -/
def rrCtlWr (ix : Nat) (v : Word) (s : State) : Eff :=
  let j := fld v 24 3
  if bit v 31 && !bit (s.reg pgSW 0x154 ix) 31 then
    if bit v 30 && !s.mirOk true j (s.reg64 pgSW 0x158 ix).toNat (s.reg64 pgSW 0x160 ix).toNat then .error .rrRange
    else .ok ((store pgSW 0x154 ix v s.draw.2).updFab fun f =>
      { f with rrTag := SMap.set (fun _ => 0) ix (s.draw.1.toNat % 2 ^ 24) f.rrTag })
  else .ok (store pgSW 0x154 ix v s)

/-- A write of SW_MIRROR_CTL (R258). -/
def mirrorCtlWr (v : Word) (s : State) : Eff :=
  if !bit v 31 then .ok (store pgSW 0x320 0 v s)
  else if (List.range 8).any fun j => s.jobSt j = .running then .error .mirrorBusy
  else if fld v 0 5 ≥ 24 || (!bit v 30 && fld v 0 5 = s.regF pgSW 0x324 0 24) then .error .mirrorDest
  else .ok (store pgSW 0x320 0 v s)

/-- A capture filter with a MAC or a class that Table 9.20 reserves (00 R7). -/
def capFiltOk (w : Word) : Bool := (fld w 24 5 < 24 || fld w 24 5 = 31) && (fld w 20 3 < 5 || fld w 20 3 = 7)

/-- A new hash key (R254): a flow goes by it from after its next FENCE packet on. -/
def rekeyOp (s : State) : State := s.draw.2.updFab fun f => { f with hashKey := s.draw.1 }

/-- Effects of the SW page. -/
def swEffect (p o ix : Nat) (v : DWord) (s : State) : Eff :=
  let w := loW v
  if o = 0x114 then .ok (if ix < 0x100 then s else store p o ix w s)
  else if o = 0x154 then rrCtlWr ix w s
  else if o = 0x314 then (if capFiltOk w then .ok (store p o ix w s) else .error .rsvdEnc)
  else if o = 0x1C8 then .ok (if bit w 0 then rekeyOp s else s)
  else if o = 0x320 then mirrorCtlWr w s
  else if o = 0x11C || o = 0x158 || o = 0x160 then .ok (storePair p o ix v s)
  else if o ≥ 0x400 then qpQuotaWr ((o - 0x400) / 0x10) w s
  else .ok (store p o ix w s)

/-- What the SW page shows. -/
def swView (s : State) (o ix : Nat) (v : Word) : Word :=
  if o = 0x104 then wd (s.shared / 1024 + s.fab.bufPeak * 2 ^ 16)
  else if o = 0x108 then wd (Config.baseMac.toNat % 2 ^ 32)
  else if o = 0x10C then wd (Config.baseMac.toNat / 2 ^ 32)
  else if o = 0x114 && ix < 0x100 then (match fixedSeid ix with | some t => wd (2 ^ 31 + t) | none => 0)
  else if o = 0x168 then wd (ix * 2 ^ 24 + SMap.get (fun _ => 0) s.fab.rrTag ix)
  else if o = 0x1C0 then
    wd (bitsNat ((List.range 16).filter fun g => (SMap.get (fun _ => ({} : PgSt)) s.fab.pgs g).spray))
  else if o = 0x304 then wd s.fab.capW
  else if o = 0x308 then 0
  else if o = 0x30C then s.fab.wraps
  else if o ≥ 0x400 then setFld v 16 14 (s.qpUsed ((o - 0x400) / 0x10))
  else v

end Sys2Proof.Machine
end

