-- ==== Sys2Proof/Machine/Time.lean ====
section
/-! DEFINITION. Steps of the time unit (13): windows, lock, commands, reads with effects, launches and the TIME_IO pins; and
the effects of writes to the TIME pages. -/
namespace Sys2Proof.Machine

open Sys2Proof

/-! ## Time transfer (R332, R333) -/

def State.tport (s : State) (p : Nat) : TPort := s.time.ports.getD p {}
def updTport (p : Nat) (f : TPort → TPort) (s : State) : State := s.updTime fun t => { t with ports := vmod t.ports p f }

/-- The 32-byte TT field of a frame sent on port `p` (Table 13.1). -/
def State.ttField (s : State) (p : Nat) : List Byte :=
  let t := s.time
  let x := s.tport p
  let up := if t.active ≥ 2 then (s.tport (t.active - 2)).seid else 0xFFFF
  let master := if t.active = 1 then Config.seid.toNat else t.master
  natLE 8 t.nt.toNat ++ natLE 4 x.echoTx.toNat ++ natLE 4 x.echoRx.toNat ++ natLE 2 Config.seid.toNat ++ natLE 2 up ++
  natLE 2 master ++ natLE 2 t.mepoch ++
  natLE 4 (t.stratum + b2n (decide (t.st = 2)) * 2 ^ 8 + b2n (decide (t.st = 3)) * 2 ^ 9 + b2n x.echoValid * 2 ^ 10) ++ natLE 4 0

/-- A 32-bit stamp extended against a reading (R329). -/
def extendNs (t : Word) (now : DWord) : DWord :=
  let d := loW now - t
  if d.toNat < 2 ^ 31 then now - d.setWidth 64 else now + BitVec.ofNat 64 (2 ^ 32 - d.toNat)

/-- The stratum follows the source in use and, of a port, what its peer reports (R331). -/
def followSrc (s : State) : State :=
  let k := match s.time.active with | 0 => 255 | 1 => 0 | q => min 255 ((s.tport (q - 2)).stratum + 1)
  s.updTime fun t => { t with stratum := k }

/-- The TT field of a frame received without a defect at local time `at_` (R332, R333). -/
def ttReceive (p : Nat) (b : List Byte) (at_ : DWord) (s : State) : State :=
  let t1 := BitVec.ofNat 64 (leAt b 0 8)
  let st := leAt b 0x18 4
  let a : Int := (at_ - t1).toInt
  let t4 := extendNs (wAt b 0xC) t1
  let t3 := extendNs (wAt b 8) s.time.nt
  let c : Int := (t4 - t3).toInt
  let ev := st / 2 ^ 10 % 2 = 1
  followSrc <| updTport p (fun x =>
    { x with
      echoTx := loW t1, echoRx := loW at_, echoValid := true
      n := x.n + b2n ev, sumA := if ev then x.sumA + a else x.sumA, sumB := if ev then x.sumB + c else x.sumB
      seid := leAt b 0x10 2, upSeid := leAt b 0x12 2, master := leAt b 0x14 2, mepoch := leAt b 0x16 2
      stratum := st % 256, locked := st / 2 ^ 8 % 2 = 1, holdover := st / 2 ^ 9 % 2 = 1 }) s

/-- A fraction as an integer, where the spec states no rounding (log 6). -/
def asInt (n : Int) (d : Nat) : Int := if n % d = 0 then n / d else Config.meanRound n d

/-- A of a port in 0.1 ns. -/
def State.asym (s : State) (p : Nat) : Int := (s.reg (pgTIME p) 0x140).toInt

/-- θ of a port's window, in nanoseconds as a fraction. -/
def State.portTheta (s : State) (p : Nat) : Int × Nat :=
  let x := s.tport p
  (10 * (x.sumA - x.sumB) - x.n * s.asym p, 20 * x.n)

/-- A window of port `p` closes: valid with at least 64 frames, it publishes RTT and D (R333); a port's round trip is
measured anew for each group on it (07 R195). -/
def publishPort (p : Nat) (s : State) : State :=
  let x := s.tport p
  let s1 := if x.n < 64 then s
    else
      let sum := x.sumA + x.sumB
      let rtt := asInt sum x.n
      let s2 := updTport p (fun y => { y with rtt := rtt, delay := asInt (10 * sum + x.n * s.asym p) (20 * x.n) }) s
      forAll ((List.range 64).filter fun g => s.grpLive g) (fun g t => rttCheck g p t)
        (s2.updRing fun r => { r with rtt := SMap.put p (ceilDiv rtt.toNat 1000) r.rtt })
  updTport p (fun y => { y with n := 0, sumA := 0, sumB := 0 }) s1

/-! ## Sources (R331, R337) -/

/-- A source is usable. -/
def State.srcUsable (s : State) (src : Nat) : Bool :=
  match src with
  | 0 => false
  | 1 => !s.time.ppsLost
  | q =>
    let x := s.tport (q - 2)
    !s.portSf (q - 2) && x.stratum ≠ 255 && x.upSeid ≠ Config.seid.toNat

/-- The source that the settings select now. -/
def State.srcWanted (s : State) : Nat :=
  let c := s.reg (pgTIME 0) 0x100
  if s.srcUsable (fld c 0 2) then fld c 0 2
  else if s.srcUsable (fld c 8 2) then fld c 8 2
  else 0

/-- Changes of source at a window. -/
def selectSrc (s : State) : State :=
  let w := s.srcWanted
  followSrc <| if s.regF (pgTIME 0) 0x100 0 2 = 0 then
    s.updTime fun t => { t with st := 0, active := 0, outliers := 0, newSrc := false, theta := none, lost := false }
  else if w = 0 then s
  else if s.time.st = 0 then s.updTime fun t => { t with st := 1, active := w, outliers := 0, newSrc := false, lost := false }
  else if s.time.active = w then s.updTime fun t => { t with lost := false }
  else s.updTime fun t => { t with active := w, newSrc := true, outliers := 0, lost := false }

/-- JUMP_NS; below 50 is treated as 50. -/
def State.jumpNs (s : State) : Nat := max 50 (s.regF (pgTIME 0) 0x100 16 16)

/-- A trigger at `t` is met when a correction takes the time from `old` to `new` (02 R53, R54): it was met before, or it is passed. -/
def passed (old new : DWord) (t : DWord) : Bool :=
  let d := (loW t - loW old).toNat
  d = 0 || d ≥ 2 ^ 31 || old.toNat + d ≤ new.toNat

/-! ## Launches (R341, R342) -/

/-- TIME_NS − t as a signed number. -/
def State.pastT (s : State) (t : Word) : Int := (loW s.time.nt - t).toInt

/-- The head frame leaves; it is stamped where its launch carries a TSID (R340). -/
def launchGo (m : Nat) (x : Launch) (rest : List Launch) (status : Nat) (s : State) : State :=
  let s1 := frameOut m 1 none x.frame x.frame.length (setLaunches m rest s)
  launchEnd x status (match x.tsid with | some i => pushStamp i m s1 | none => s1)

/-- The head, past its time by `l` ns: on time within 10 ns, late, or missed. -/
def launchJudge (m : Nat) (x : Launch) (rest : List Launch) (l : Int) (s : State) : State :=
  if l ≤ 10 then launchGo m x rest 0 s
  else if l ≤ s.regF (pgTIME 0) 0x128 16 16 then launchGo m x rest 0x26 (bump (pgTIME 0) 0x814 1 s)
  else launchMiss x (setLaunches m rest s)

/-- An armed head whose time has come. -/
def fireArmed (m : Nat) (s : State) : State :=
  match s.launchesOf m with
  | [] => s
  | x :: rest =>
    if (SMap.find s.time.armed m).isNone || s.pastT x.t < 0 then s else launchJudge m x rest (s.pastT x.t) s

/-- A correction of network time to `new`; ARMED entries whose triggers are met go on (02 R54), an armed launch that it passes leaves at
once (R342), and a forward one counts the wraps that it passes (09 SW_CAP_WRAPS). -/
def correctTime (new : DWord) (s : State) : State :=
  let old := s.time.nt
  let es := s.sch.ops.filter fun e => e.st = .armed && e.d.trig = 2 && passed old new e.d.trigVal
  let s1 := (s.updTime fun t => { t with nt := new }).updFab fun f => { f with wraps := if old < new then f.wraps + (hiW new - hiW old) else f.wraps }
  forAll (List.range 24) fireArmed (forAll es (fun e t => toWaiting e.id t) s1)

/-- Network time moves by `d`, and the master follows the source. -/
def stepTime (d : Int) (s : State) : State :=
  let q := s.tport (s.time.active - 2)
  let ext := s.time.active = 1
  (correctTime (s.time.nt + BitVec.ofInt 64 d) s).updTime fun t =>
    { t with
      st := 2, outliers := 0, newSrc := false
      mepoch := if ext then t.mepoch else q.mepoch
      master := if ext then Config.seid.toNat else q.master }

/-- A small offset is applied: −⌊θ/4⌋, and the frequency is trimmed within ±20 ppm, by a law that the spec does not give. -/
def applySmall (th : Int × Nat) (s : State) : State :=
  let dr := s.draw
  (stepTime (-(th.1 / (4 * th.2))) dr.2).updTime fun t => { t with trim := dr.1.toInt % 40001 - 20000 }

/-- θ as a signed 32-bit capture of nanoseconds. -/
def thetaWord (th : Int × Nat) (scale : Int) : Word := BitVec.ofInt 32 (clampS 32 (asInt (scale * th.1) th.2))

/-- A valid window's θ (R334, R335). -/
def applyTheta (th : Int × Nat) (s0 : State) : State :=
  let s := s0.updTime fun t => { t with theta := some th }
  let big := th.1.natAbs > s.jumpNs * th.2
  if s.time.st = 1 then raiseEv (pgTIME 0) 0x804 1 (stepTime (-(asInt th.1 th.2)) s)
  else if !big then
    (if s.time.st = 2 || s.time.newSrc then applySmall th s else s.updTime fun t => { t with outliers := 0 })
  else
    let n := s.time.outliers + 1
    let s1 := bump (pgTIME 0) 0x80C 1 (s.updTime fun t => { t with outliers := n })
    if n = 4 then
      raiseCap (pgTIME 0) 0x800 0 (thetaWord th 1) 0 (s1.updTime fun t => { t with st := 3, newSrc := false })
    else s1

/-- TIME_WINDOW (R333 to R335, R337): `ext` is θ against PPS_IN and REF10M_IN in ns, where EXT has measured one. -/
def execTimeWindow (ext : Option Int) (s : State) : Res :=
  let s1 := selectSrc s
  let th : Option (Int × Nat) :=
    match s1.time.active with
    | 0 => none
    | 1 => ext.map fun x => (x, 1)
    | q => if s1.srcUsable q && (s1.tport (q - 2)).n ≥ 64 then some (s1.portTheta (q - 2)) else none
  let s2 := match th with | some x => if s1.time.st = 0 then s1 else applyTheta x s1 | none => s1
  .next (publishPort 1 (publishPort 0 s2))

/-- TIME_SRC_LOST (R337): once for a loss of the source in use. -/
def execTimeSrcLost (s : State) : Res :=
  .next (if s.time.st = 0 || s.time.lost || (s.time.active ≥ 2 && s.srcUsable s.time.active) then s
    else
      let s1 := raiseEv (pgTIME 0) 0x808 2 (s.updTime fun t =>
        { t with st := 3, newSrc := true, outliers := 0, lost := true, ppsLost := t.ppsLost || t.active = 1 })
      let b := s1.regF (pgTIME 0) 0x100 8 2
      if s1.srcUsable b then followSrc (s1.updTime fun t => { t with active := b, lost := false }) else s1)

/-! ## Commands (R334, R335, R339, R344) -/

def timeEnd (status : Nat) (s : State) : State :=
  s.updTime fun t => { t with busy := false, status := status, calPort := none, setPend := false }

/-- A master's epoch at an accepted step or a SET_TIME. -/
def bumpEpoch (s : State) : State :=
  if s.time.active = 1 then s.updTime fun t => { t with mepoch := (t.mepoch + 1) % 2 ^ 16 } else s

/-- TIME_CMD ACCEPT_STEP. -/
def acceptStepOp (s : State) : State :=
  match s.time.theta with
  | some th =>
    if s.time.st = 3 then timeEnd 0 (bumpEpoch (raiseEv (pgTIME 0) 0x804 1 (stepTime (-(asInt th.1 th.2)) s))) else timeEnd 2 s
  | none => timeEnd 2 s

/-- TIME_CMD REACQUIRE. -/
def reacquireOp (s : State) : State :=
  if s.time.st = 0 then timeEnd 2 s else timeEnd 0 (s.updTime fun t => { t with st := 1, outliers := 0, newSrc := false })

/-- TIME_CMD CAL_ASYM. -/
def calAsymOp (p : Nat) (s : State) : State :=
  let x := s.tport p
  if s.time.st = 2 && s.time.active ≠ p + 2 && x.locked && x.master = (if s.time.active = 1 then Config.seid.toNat else s.time.master) &&
      x.mepoch = s.time.mepoch then
    s.updTime fun t => { t with busy := true, calPort := some p }
  else timeEnd 2 s

/-- TIME_CMD SET_TIME. -/
def setTimeOp (s : State) : State :=
  if s.time.active = 1 && s.time.st ≠ 0 then s.updTime fun t => { t with busy := true, setPend := true } else timeEnd 2 s

/-- A write of TIME_CMD (R345). -/
def timeCmdWr (v : Word) (s : State) : Eff :=
  if s.time.busy then .error .busyCmd
  else .ok (match fld v 0 4 with
    | 1 => acceptStepOp s
    | 2 => reacquireOp s
    | 3 => calAsymOp (fld v 8 1) s
    | 4 => setTimeOp s
    | _ => timeEnd 3 s)

/-- CAL_ASYM_DONE (R339): the mean over 60 s, in 0.1 ns. -/
def execCalAsymDone (mean : Int) (s : State) : Res :=
  .next (match s.time.calPort with
    | none => s
    | some p => timeEnd 0 (s.setReg (pgTIME p) 0x140 (BitVec.ofInt 32 mean)))

/-- PPS_IN_EDGE (R344). -/
def execPpsInEdge (s : State) : Res :=
  let s1 := s.updTime fun t => { t with ppsLost := false }
  .next (if s.time.setPend then
      timeEnd 0 (bumpEpoch (correctTime (s.reg64 (pgTIME 0) 0x118 * 1000000000) s1))
    else s1)

/-- SET_TIME_TIMEOUT (R344). -/
def execSetTimeTimeout (s : State) : Res := .next (if s.time.setPend then timeEnd 2 s else s)

/-! ## Timed launch (R341, R342) -/

/-- LAUNCH_ARM (R341): from t − LEAD_NS; a head armed with t already past is judged at once. -/
def execLaunchArm (m : Mac) (s : State) : Res :=
  .next (match s.launchesOf m.val with
    | [] => s
    | x :: rest =>
      let l := s.pastT x.t
      if (SMap.find s.time.armed m.val).isSome || l < -(s.regF (pgTIME 0) 0x128 0 16 : Int) then s
      else if l > 10 then launchJudge m.val x rest l s
      else s.updTime fun t => { t with armed := SMap.put m.val true t.armed })

/-- LAUNCH_FIRE (R341, R342). -/
def execLaunchFire (m : Mac) (s : State) : Res := .next (fireArmed m.val s)

/-! ## Reads with effects (R329, R340) -/

/-- A read of TIME_NS. -/
def timeNsRd (w : Who) (s : State) : Word × State :=
  (loW s.time.nt, s.updTime fun t => { t with hi := SMap.put (whoCode w) (hiW t.nt) t.hi })

/-- A read of TIME_HI. -/
def timeHiRd (w : Who) (s : State) : Word × State :=
  match SMap.find s.time.hi (whoCode w) with
  | some v => (v, s.updTime fun t => { t with hi := SMap.erase (whoCode w) t.hi })
  | none => (hiW s.time.nt, s)

/-- A read of TIME_TSQ_TS. -/
def tsqTsRd (s : State) : Word × State :=
  match s.time.tsq with
  | [] => (0, s)
  | x :: xs => (x.ts, s.updTime fun t => { t with tsq := xs })

/-! ## The TIME_IO pins (R343) -/

/-- A write of TIME_IO_CTL. -/
def timeIoWr (v : Word) (s : State) : Eff :=
  match fld v 0 2 with
  | 0 => .ok (if s.time.ioOwner = 1 then s.updTime fun t => { t with ioOwner := 0, pps := false } else s)
  | 1 =>
    if s.time.ioOwner = 2 then .error .owned
    else .ok (s.updTime fun t => { t with ioOwner := 1, ioRefused := false })
  | _ => .error .rsvdEnc

/-- A claim or release of the pins by the frequency meter (17 R426). -/
def fmClaim (claim : Bool) (s : State) : Eff :=
  if !claim then .ok (if s.time.ioOwner = 2 then s.updTime fun t => { t with ioOwner := 0 } else s)
  else if s.time.ioOwner = 1 then .error .owned
  else .ok (s.updTime fun t => { t with ioOwner := 2, ioRefused := false })

/-- A refused claim sets REFUSED. -/
def ioRefuse (s : State) : State := s.updTime fun t => { t with ioRefused := true }

/-- PPS_OUTPUT_EDGE (R343): rising at a whole second, falling 100 µs later. -/
def execPpsOutputEdge (fall : Bool) (s : State) : Res :=
  .next (if s.time.ioOwner ≠ 1 || s.time.pps ≠ fall then s
    else (s.updTime fun t => { t with pps := !fall }).emit (.pin "TIME_IO" (!fall)))

/-! ## Writes to the TIME pages (Table 13.3) -/

def timeEffect (p o ix : Nat) (v : DWord) (s : State) : Eff :=
  if o = 0x108 then timeCmdWr (loW v) s
  else if o = 0x118 then .ok (storePair p o ix v s)
  else if o = 0x12C then timeIoWr (loW v) s
  else if o = 0x160 then .ok (if bit (loW v) 31 then s.updTime fun t => { t with ovf := false } else s)
  else .ok (store p o ix (loW v) s)

def timeView (s : State) (p o : Nat) (v : Word) : Word :=
  let t := s.time
  let x := s.tport (pgInst p)
  match o with
  | 0x104 => wd (t.st + t.active * 2 ^ 4 + t.stratum * 2 ^ 8 + t.mepoch * 2 ^ 16)
  | 0x10C => wd (t.status + b2n t.busy * 2 ^ 31)
  | 0x110 => loW t.nt
  | 0x114 => hiW t.nt
  | 0x120 => (match t.theta with | some th => thetaWord th 10 | none => 0)
  | 0x124 => BitVec.ofInt 32 t.trim
  | 0x12C => wd t.ioOwner
  | 0x130 => wd (b2n t.ioRefused)
  | 0x144 => BitVec.ofInt 32 x.delay
  | 0x148 => BitVec.ofInt 32 x.rtt
  | 0x14C => wd (x.seid + x.stratum * 2 ^ 16 + b2n x.locked * 2 ^ 24)
  | 0x160 => wd (t.tsq.length + b2n t.ovf * 2 ^ 31)
  | 0x164 => (match t.tsq with | y :: _ => wd (2 ^ 31 + y.src * 2 ^ 16 + y.tsid) | [] => 0)
  | 0x168 => (match t.tsq with | y :: _ => y.ts | [] => 0)
  | _ => v

end Sys2Proof.Machine
end

