-- ==== Sys2Proof/Machine/LineOps.lean ====
section
/-! DEFINITION. Line ports (10): modes and settings, defects and their masks, protected messages, selectors and holds. -/
namespace Sys2Proof.Machine

open Sys2Proof

/-! ## Settings (Tables 10.1, 10.9, 10.10) -/

def State.lineLite (s : State) (p : Nat) : Bool := fld (s.lineCtl p) 26 2 = 1

/-- Payload bytes of a frame in a mode (R265), and the rate of one slot in Mb/s (Table 10.1). -/
def modeBytes (m : Nat) : Nat := if m = 0 then 625000 else if m = 1 then 937500 else 1250000
def modeSlot (m : Nat) : Nat := if m = 0 then 12500 else if m = 1 then 18750 else 25000
def State.linePay (s : State) (p : Nat) : Nat := modeBytes (fld (s.lineCtl p) 24 2)

/-- The tributary of a slot; slot 0 is tributary 0 (R267). -/
def State.slotTrib (s : State) (p sl : Nat) : Nat :=
  if sl = 0 then 0 else s.regF (pgLINE p) (0x140 + 4 * (sl / 8)) (4 * (sl % 8)) 4

/-- The slots of a tributary, rising. -/
def State.tribSlots (s : State) (p t : Nat) : List Nat :=
  if t = 0 then [0] else (List.range 32).filter fun sl => sl ≠ 0 && s.slotTrib p sl = t

def State.tribReg (s : State) (p t : Nat) : Word := s.reg (pgLINE p) (0x150 + 4 * t)

/-- Tributary `t` carries. -/
def State.tribOn (s : State) (p t : Nat) : Bool := t = 0 || bit (s.tribReg p t) 31

/-- Tributary `t` is relayed: VALID and RELAY on both ports (R275). -/
def State.relayed (s : State) (t : Nat) : Bool :=
  t ≠ 0 && [0, 1].all fun p => bit (s.tribReg p t) 31 && bit (s.tribReg p t) 30

/-- The channel table (R271). -/
def State.chCtl (s : State) (p i : Nat) : Word := s.reg (pgLINE p) 0x194 i
def chTrib (c : Word) : Nat := fld c 0 4

/-- The VALID entry of a job's channel on a port, whose tributary carries. -/
def State.chEntry (s : State) (p j chan : Nat) : Option Nat :=
  (List.range 512).find? fun i =>
    let c := s.chCtl p i
    bit c 31 && fld c 24 3 = j && fld c 16 8 = chan && s.tribOn p (chTrib c)

/-- A tributary has a VALID channel entry. -/
def State.tribHasCh (s : State) (p t : Nat) : Bool :=
  (List.range 512).any fun i => bit (s.chCtl p i) 31 && chTrib (s.chCtl p i) = t

/-- The CIRs of a tributary exceed its capacity of n × R/32 − 10.24 Mb/s in a mode (R268, R271). -/
def State.cirOver (s : State) (p t mode extra : Nat) : Bool :=
  let sum := (List.range 512).foldl (fun a i =>
    if bit (s.chCtl p i) 31 && chTrib (s.chCtl p i) = t then a + s.regF (pgLINE p) 0x198 0 20 i else a) extra
  sum ≠ 0 && 100 * sum + 1024 > 100 * (s.tribSlots p t).length * modeSlot mode

/-! ## Defects (R273, Table 10.5) -/

def Defect.ix : Defect → Nat
  | .los => 0 | .lol => 1 | .lof => 2 | .lom => 3 | .tim => 4 | .bdi => 5 | .unc => 6 | .deg => 7

/-- The defects that mask a defect. -/
def defMask (k : Nat) : BitVec 8 := [0x00, 0x01, 0x03, 0x07, 0x07, 0x0F, 0x07, 0x07].getD k 0

/-- The defects that are not masked. -/
def unmasked (d : BitVec 8) : BitVec 8 :=
  BitVec.ofNat 8 ((List.range 8).foldl (fun a k => if d.getLsbD k && (d &&& defMask k) = 0 then a + 2 ^ k else a) 0)

/-- Counter and interrupt bit of a defect (Table 10.14), and its place in LINEn_STAT. -/
def defBit (k : Nat) : Nat := if k = 6 then 7 else if k = 7 then 6 else k

/-- The DEFECTS field of LINEn_STAT. -/
def defField (d : BitVec 8) : Nat := (List.range 8).foldl (fun a k => if d.getLsbD k then a + 2 ^ defBit k else a) 0

/-! ## Protected messages (R277) -/

/-- A message as its header and body. -/
def ProtMsg.bytes (m : ProtMsg) : List Byte :=
  natLE 2 m.dst.toNat ++ natLE 2 m.src.toNat ++ natLE 4 (m.kind.toNat + m.hops.toNat * 2 ^ 4 + m.body.length * 2 ^ 16) ++
  natLE 4 m.mseq.toNat ++ natLE 4 0 ++ m.body

/-! ## Selectors (R277, R278, Table 10.6) -/

def State.selCtl (s : State) (i : Nat) : Word := s.reg (pgLINE 0) 0x1C4 i
def State.sel (s : State) (i : Nat) : Sel := SMap.get (fun _ => ({} : Sel)) s.line.sels i
def updSel (i : Nat) (f : Sel → Sel) (s : State) : State :=
  s.updLine fun l => { l with sels := SMap.modify (fun _ => ({} : Sel)) i f l.sels }

/-- The VALID selector of a peer. -/
def State.selOf (s : State) (seid : BitVec 16) : Option Nat :=
  (List.range 64).find? fun i => bit (s.selCtl i) 31 && fld (s.selCtl i) 0 16 = seid.toNat

/-- Route states: 0 = OK, 1 = SD, 2 = SF. -/
def State.routeSt (s : State) (i r : Nat) : Nat :=
  let x := s.sel i
  if s.portSf r || (s.port r).holdRx || (if r = 0 then x.tmo0 else x.tmo1) then 2
  else if s.portSd r then 1
  else 0

/-- The row of Table 10.6 in force, counted from 0, and the route it selects, none where the selection stays. -/
def State.selRequest (s : State) (i : Nat) : Nat × Option Nat :=
  let c := s.selCtl i
  let cmd := fld c 24 3
  let x := s.sel i
  let st (r : Nat) : Nat := s.routeSt i r
  let force (r : Nat) : Bool := (cmd = 3 + r || (if r = 0 then x.hold0 else x.hold1)) && st r ≠ 2
  let pref := fld c 29 1
  if cmd = 1 then (0, some 1)
  else if cmd = 2 then (0, some 0)
  else if force 0 && force 1 then (1, none)
  else if force 0 then (1, some 0)
  else if force 1 then (1, some 1)
  else if st 0 = 2 && st 1 = 2 then (2, none)
  else if st 0 = 2 then (2, some 1)
  else if st 1 = 2 then (2, some 0)
  else if st 0 = 1 && st 1 = 1 then (3, none)
  else if st 0 = 1 then (3, some 1)
  else if st 1 = 1 then (3, some 0)
  else if cmd = 5 then (4, some 0)
  else if cmd = 6 then (4, some 1)
  else if bit c 30 && x.sel ≠ pref then (5, none)
  else (6, none)

/-- Held copies of a route for a selector. -/
def State.heldOn (s : State) (i r : Nat) : List ProtMsg :=
  ((s.port r).stby.filter fun h => h.1 = i).map fun h => h.2

/-- A message is delivered from the selected route; MSEQs that neither route holds are skipped and counted. -/
def protDeliver (i r : Nat) (m : ProtMsg) (s : State) : State :=
  let gap := match (s.sel i).last with
    | none => 0
    | some l =>
      ((List.range ((m.mseq - l).toNat - 1)).filter fun k =>
        !((s.heldOn i (1 - r)).any fun h => h.mseq = l + 1 + wd k)).length
  let s1 := if gap = 0 then s else event (pgLINE 0) 13 (bump (pgLINE 0) 0x850 gap s)
  (updSel i (fun x => { x with last := some m.mseq }) s1).emit (.protDeliver (Fin.ofNat 2 r) m)

/-- An MSEQ lies beyond the last one delivered. -/
def Sel.beyond (x : Sel) (q : Word) : Bool := match x.last with | none => true | some l => serialGt q l

/-- The first of a list by MSEQ. -/
def protFirst (l : List ProtMsg) : Option ProtMsg :=
  l.foldl (fun a m => match a with | none => some m | some b => if serialGt b.mseq m.mseq then some m else a) none

/-- The held copies beyond the last one delivered are delivered in MSEQ order. -/
def deliverHeld (i r : Nat) : Nat → State → State
  | 0, s => s
  | n + 1, s =>
    match protFirst ((s.heldOn i r).filter fun m => (s.sel i).beyond m.mseq) with
    | none => s
    | some m =>
      let gone (h : Nat × ProtMsg) : Bool := h.1 = i && h.2 = m
      deliverHeld i r n (protDeliver i r m (updPort r (fun l => { l with stby := l.stby.filter fun h => !gone h }) s))

/-- The selector changes route. -/
def selSwitch (i r : Nat) (s : State) : State :=
  deliverHeld i r ((s.port r).stby.length)
    (raiseEv (pgLINE 0) 0x84C 12 (updSel i (fun x => { x with sel := r, wtr := false }) s))

/-- The highest request is served. -/
def selEval (i : Nat) (s : State) : State :=
  if !bit (s.selCtl i) 31 then s
  else
    let q := s.selRequest i
    let s1 := updSel i (fun x => { x with wtr := decide (q.1 = 5) }) s
    match q.2 with
    | some r => if r = (s.sel i).sel then s1 else selSwitch i r s1
    | none => s1

def selEvalAll (s : State) : State := forAll (List.range 64) selEval s

/-! ## Holds (R279) -/

/-- FORCE to the other route on every selector whose selected route is port `p`. -/
def holdForce (p : Nat) (s : State) : State :=
  forAll ((List.range 64).filter fun i => bit (s.selCtl i) 31 && (s.sel i).sel = p)
    (fun i t => updSel i (fun x => if p = 0 then { x with hold1 := true } else { x with hold0 := true }) t) s

/-- The force of a hold of port `p` ends when the port's defects have cleared and HOLD is 0. -/
def holdRelease (p : Nat) (s : State) : State :=
  let l := s.port p
  if l.shown = 0 && !l.holdTx && !l.holdRx then
    s.updLine fun x => { x with sels := SMap.keep (fun _ v => decide (v ≠ {})) (x.sels.map fun kv =>
      (kv.1, if p = 0 then { kv.2 with hold1 := false } else { kv.2 with hold0 := false })) }
  else s

/-- The port announces a hold `ms` ahead of darkness. -/
def holdAnnounce (p ms : Nat) (s : State) : State :=
  selEvalAll (holdForce p (updPort p (fun l => { l with holdTx := true, holdMs := ms }) s))

/-- A hold of port `p` ends once its switch-over has and its defects have cleared (11 R299, Table 11.7). -/
def holdEnd (p : Nat) (s : State) : State :=
  let l := s.port p
  if (l.holdTx || l.inHold) && l.shown = 0 && !((s.opt.units.getD p {}).switching) then
    selEvalAll (holdRelease p (updPort p (fun x => { x with holdTx := false, inHold := false, holdMs := 0 }) s))
  else s

/-! ## A message of tributary 0 arrives (R277, R278) -/

/-- Bytes of standby copies. -/
def stbyBytes (l : List (Nat × ProtMsg)) : Nat := l.foldl (fun a h => a + 16 + h.2.body.length) 0

/-- A full hold area drops its oldest copies. -/
def stbyTrim (p : Nat) : Nat → State → State
  | 0, s => s
  | n + 1, s =>
    if stbyBytes (s.port p).stby ≤ 256 * 2 ^ 20 then s
    else stbyTrim p n (raiseEv (pgLINE p) 0x840 9 (updPort p (fun l => { l with stby := l.stby.drop 1 }) s))

/-- A copy on the route that is not selected is held. -/
def protHold (i p : Nat) (m : ProtMsg) (s : State) : State :=
  stbyTrim p ((s.port p).stby.length + 1) (updPort p (fun l => { l with stby := l.stby ++ [(i, m)] }) s)

/-- A message for this gateway. -/
def protLocal (p : Nat) (m : ProtMsg) (s : State) : State :=
  match s.selOf m.src with
  | none => bump (pgLINE 0) 0x854 1 s
  | some i =>
    let s1 := selEval i (updSel i (fun x => if p = 0 then { x with tmo0 := false } else { x with tmo1 := false }) s)
    if (s1.sel i).sel ≠ p then protHold i p m s1
    else if (s1.sel i).beyond m.mseq then protDeliver i p m s1
    else s1

/-- PROT_MESSAGE (R277). -/
def execProtMessage (p : Port) (m : ProtMsg) (s : State) : Res :=
  .next (if m.hops = 0 || m.src = Config.seid then bump (pgLINE p.val) 0x83C 1 s
    else if m.dst ≠ Config.seid then protQueue (1 - p.val) { m with hops := m.hops - 1 } none s
    else protLocal p.val m s)

/-- ROUTE_TIMEOUT (R277). -/
def execRouteTimeout (i : Fin 64) (r : Port) (s : State) : Res :=
  .next (if !bit (s.selCtl i.val) 31 then s
    else selEval i.val (updSel i.val (fun x => if r = 0 then { x with tmo0 := true } else { x with tmo1 := true }) s))

/-- WTR_EXPIRY (R277). -/
def execWtrExpiry (i : Fin 64) (s : State) : Res :=
  .next (if bit (s.selCtl i.val) 31 && (s.sel i.val).wtr && (s.selRequest i.val).1 = 5 then
      selEval i.val (selSwitch i.val (fld (s.selCtl i.val) 29 1) s)
    else s)

/-- STBY_HOLD_EXPIRY (R278). -/
def execStbyHoldExpiry (i : Fin 64) (mseq : Word) (s : State) : Res :=
  let cut (p : Nat) (t : State) : State :=
    updPort p (fun l => { l with stby := l.stby.filter fun h => !(h.1 = i.val && h.2.mseq = mseq) }) t
  .next (cut 1 (cut 0 s))

/-- A write of LINE0_SEL_CTL: a selector put to use, or moved to another peer, starts afresh. -/
def selCtlWr (i : Nat) (v : Word) (s : State) : Eff :=
  let old := s.selCtl i
  if fld v 24 3 = 7 then .error .rsvdEnc
  else if bit old 31 && bit v 31 && fld old 0 16 = fld v 0 16 then .ok (selEval i (store (pgLINE 0) 0x1C4 i v s))
  else
    let clr (p : Nat) (t : State) : State := updPort p (fun l => { l with stby := l.stby.filter fun h => h.1 ≠ i }) t
    .ok (selEval i (store (pgLINE 0) 0x1C4 i v (updSel i (fun _ => {}) (clr 1 (clr 0 s)))))

/-- What LINE0_SEL_STAT shows. -/
def State.selStat (s : State) (i : Nat) : Word :=
  let x := s.sel i
  if !bit (s.selCtl i) 31 then 0
  else wd (x.sel + s.routeSt i 0 * 2 + s.routeSt i 1 * 2 ^ 3 + b2n x.wtr * 2 ^ 5 + (s.selRequest i).1 * 2 ^ 8)

end Sys2Proof.Machine
end

