-- ==== Sys2Proof/Machine/Optics.lean ====
section
/-! DEFINITION. Optics control (11): tables and loops, calibration, fabric laser crossfade, line laser switch-over, wrong
resonance and wrong channel; and the effects of writes to the OPT page. -/
namespace Sys2Proof.Machine

open Sys2Proof

/-! ## Tables (R287, R288, Table 11.3) -/

def tblKey (t r e : Nat) : Nat := t * 2 ^ 24 + r * 2 ^ 8 + e

/-- An entry as module flash was manufactured (log 7). -/
def tblDefault (k : Nat) : Word := Config.flashTable k

def State.tbl (s : State) (t r e : Nat) : Word := SMap.get tblDefault s.opt.tbl (tblKey t r e)
def setTbl (t r e : Nat) (v : Word) (s : State) : State :=
  s.updOpt fun o => { o with tbl := SMap.set tblDefault (tblKey t r e) v o.tbl }

/-- The table, record and entry of OPT_TBL_IDX, where there is one. -/
def tblIx (w : Word) : Option (Nat × Nat × Nat) :=
  let t := fld w 28 4
  let r := fld w 16 8
  let e := fld w 0 8
  if (t = 0 && r < 54 && e < 16) || (t = 1 && r < 4 && e < 191) then some (t, r, e) else none

/-- A linear interpolation between neighbouring values: `n`/`d` of the way (log 6). -/
def lerp (a b : Nat) (n d : Nat) : Int := asInt ((a : Int) * (d - n) + (b : Int) * n) d

/-- Heater power of a ring's table at a temperature in 0.01 °C; beyond the range, the nearest entry. -/
def State.heatAt (s : State) (r : Nat) (t : Int) : Nat :=
  let h (e : Nat) : Nat := fld (s.tbl 0 r e) 0 16
  if t ≤ 2000 then h 0
  else if t ≥ 9500 then h 15
  else (lerp (h ((t.toNat - 2000) / 500)) (h ((t.toNat - 2000) / 500 + 1)) ((t.toNat - 2000) % 500) 500).toNat

/-- TEC set point and gain current of a line laser's table at grid index N (Table 11.3). -/
def State.gridAt (s : State) (r : Nat) (n : Int) : Int × Int :=
  let e := (n + 280).toNat / 4
  let f := (n + 280).toNat % 4
  let v (lo : Nat) : Int := lerp (fld (s.tbl 1 r e) lo 16) (fld (s.tbl 1 r (if f = 0 then e else e + 1)) lo 16) f 4
  (v 0, v 16)

/-! ## Rings and engines -/

def State.mring (s : State) (e i : Nat) : MRing := SMap.get ringDefault s.opt.rings (9 * e + i)
def updMring (e i : Nat) (f : MRing → MRing) (s : State) : State :=
  s.updOpt fun o => { o with rings := SMap.modify ringDefault (9 * e + i) f o.rings }
def State.oeng (s : State) (e : Nat) : OEng := s.opt.engs.getD e {}
def updOeng (e : Nat) (f : OEng → OEng) (s : State) : State := s.updOpt fun o => { o with engs := vmod o.engs e f }
def State.bay (s : State) (b : Nat) : LBay := s.opt.bays.getD b {}
def updBay (b : Nat) (f : LBay → LBay) (s : State) : State := s.updOpt fun o => { o with bays := vmod o.bays b f }
def State.lunit (s : State) (p : Nat) : LUnit := s.opt.units.getD p {}
def updUnit (p : Nat) (f : LUnit → LUnit) (s : State) : State := s.updOpt fun o => { o with units := vmod o.units p f }
def updLaser (p i : Nat) (f : LLas → LLas) (s : State) : State :=
  updUnit p (fun u => { u with lasers := vmod u.lasers i f }) s

/-- The active laser of a port, and its standby. -/
def State.actLaser (s : State) (p : Nat) : Nat := (s.lunit p).act.getD 0
def State.stbyLaser (s : State) (p : Nat) : Nat := 1 - s.actLaser p
def State.stbySt (s : State) (p : Nat) : Nat := ((s.lunit p).lasers.getD (s.stbyLaser p) {}).st

/-- The crossfade that runs feeds engine `e`. -/
def State.fading (s : State) (e : Nat) : Bool := match s.opt.xf with | some (b, _) => decide (e / 2 = b) | none => false

/-! ## Loops (R286, R287) -/

def OptLoop.num : OptLoop → Nat
  | .ringLock => 0 | .fabricPower => 1 | .lineFreq => 2 | .linePower => 3 | .couplerPhase => 4

def actKey (l : OptLoop) (i : Nat) : Nat := OptLoop.num l * 2 ^ 8 + i

/-- An actuator is set: by its table, or by its loop's trim. -/
def actSet (l : OptLoop) (i : Nat) (table : Bool) (v : DWord) (s : State) : State :=
  s.updOpt fun o =>
    { o with acts := SMap.put (actKey l i) v o.acts, setPts := if table then SMap.put (actKey l i) v o.setPts else o.setPts }

def setFresh (l : OptLoop) (i : Nat) (v : Bool) (s : State) : State :=
  s.updOpt fun o => { o with fresh := SMap.set (fun _ => false) (actKey l i) v o.fresh }
def State.isFresh (s : State) (l : OptLoop) (i : Nat) : Bool := SMap.get (fun _ => false) s.opt.fresh (actKey l i)

/-- A ring's heater takes its table's value at the engine's temperature. -/
def tableRing (e i : Nat) (s : State) : State :=
  let h := s.heatAt (9 * e + i) (s.oeng e).temp
  updMring e i (fun r => { r with heat := h }) (actSet .ringLock (9 * e + i) true (BitVec.ofNat 64 h) s)

/-- A line laser's TEC set point and gain current take their table's values at the port's grid index. -/
def tableLaser (i : Nat) (s : State) : State :=
  let v := s.gridAt i (sext 16 (s.regF (pgLINE (i / 2)) 0x104 0 16))
  actSet .linePower i true (BitVec.ofNat 64 v.2.toNat) (actSet .lineFreq i true (BitVec.ofNat 64 v.1.toNat) s)

/-- Rings 0 to 8 of engine `e` on their lines, from the table; the spare is parked. -/
def lockRings (e : Nat) (s : State) : State :=
  updMring e 8 (fun r => { r with st := 5 })
    (forAll (List.range 8) (fun i t => updMring e i (fun r => { r with st := 0, line := i }) (tableRing e i t))
      (updOeng e (fun x => { x with calTemp := x.temp }) s))

/-- A module of a bay lights the engines: FEEDING or in a crossfade. -/
def LBay.lit (b : LBay) : Bool := b.st = 1 || b.st = 3

/-- An engine has light: of its bay, or of bay 3 (R284). -/
def State.engLit (s : State) (e : Nat) : Bool := (s.bay (e / 2)).lit || ((s.bay 3).lit && s.opt.pair = e / 2)

/-- A ring that is on a line, or locks onto one. -/
def MRing.on (r : MRing) : Bool := r.st = 0 || r.st = 2 || r.st = 3

/-- The part of a loop is lit (R286): ring 9 × engine + ring; bay 9 × bay + line; line laser 2 × port + laser, whose dark path is lit
while it stands by; 9 × engine + line of a crossfade. -/
def State.loopLit (s : State) (l : OptLoop) (i : Nat) : Bool :=
  match l with
  | .ringLock => i < 54 && s.engLit (i / 9) && (s.mring (i / 9) (i % 9)).on
  | .fabricPower => i < 36 && (s.bay (i / 9)).lit
  | .lineFreq | .linePower =>
    let st := ((s.lunit (i / 2)).lasers.getD (i % 2) {}).st
    i < 4 && (st = 1 || st = 2 || st = 3)
  | .couplerPhase => i < 54 && s.fading (i / 9)

/-- An actuator due for its table's value takes it (R287, R288). -/
def loopTable (l : OptLoop) (i : Nat) (s : State) : State :=
  match l with
  | .ringLock => tableRing (i / 9) (i % 9) s
  | .lineFreq => tableLaser i s
  | _ => s

/-- An actuator is trimmed by a law that the spec does not give (log 6). -/
def loopTrim (l : OptLoop) (i : Nat) (s : State) : State :=
  let v := s.draw.1
  let s1 := actSet l i false v s.draw.2
  if l = .ringLock then updMring (i / 9) (i % 9) (fun r => { r with heat := v.toNat % 2 ^ 16 }) s1 else s1

/-- What a loop's update shows: a line laser's frequency error or power. -/
def loopShow (l : OptLoop) (i : Nat) (reading : Int) (s : State) : State :=
  match l with
  | .lineFreq => updLaser (i / 2) (i % 2) (fun x => { x with ferr := reading }) s
  | .linePower => updLaser (i / 2) (i % 2) (fun x => { x with pwr := reading }) s
  | _ => s

/-- A laser that is re-locked for TIM, found within ±1.5 GHz of its grid centre, is lit again (R302). -/
def relight (i : Nat) (reading : Int) (s : State) : State :=
  let p := i / 2
  if (s.lunit p).relock && s.actLaser p = i % 2 && -15 ≤ reading && reading ≤ 15 then
    bump pgOPT 0x83C 1 (updUnit p (fun u => { u with relock := false, relit := true }) (updLaser p (i % 2) (fun x => { x with st := 3 }) s))
  else s

/-- CONTROL_LOOP_UPDATE (R286 to R288): while its part is lit, an actuator that is due for its table's value takes it, and is trimmed
from there on. No line laser is trimmed while the wavelength reference fails (R303). -/
def execControlLoopUpdate (l : OptLoop) (i : Nat) (reading : Int) (s : State) : Res :=
  .next (if !s.loopLit l i then s
    else if s.isFresh l i then loopShow l i reading (loopTable l i (setFresh l i false s))
    else if l = .lineFreq && !s.opt.refOk then s
    else
      let s1 := loopShow l i reading (loopTrim l i s)
      if l = .lineFreq then relight i reading s1 else s1)

/-- ENGINE_TEMP_CHANGE (R287): every ring whose loop runs takes its table's value; a temperature outside the table raises
OPT_TEMP_RANGE once per excursion. -/
def execEngineTempChange (e : Fin 6) (t : Int) (s : State) : Res :=
  let out := decide (t < 2000) || decide (9500 < t)
  let s1 := updOeng e.val (fun x => { x with temp := t, outside := out }) s
  let s2 := forAll ((List.range 9).filter fun i => s.loopLit .ringLock (9 * e.val + i)) (fun i u => tableRing e.val i u) s1
  .next (if out && !(s.oeng e.val).outside then raiseEv pgOPT 0x824 7 s2 else s2)

/-- MONITOR_READING_DONE (R289). -/
def execMonitorReadingDone (value : BitVec 24) (s : State) : Res :=
  .next (s.updOpt fun o => { o with monValid := true, monValue := value })

/-! ## Calibration (R290 to R292) -/

/-- The next lane from `k` on that a calibration takes. -/
def State.calNext (s : State) (e k : Nat) : Option Nat :=
  (List.range 8).find? fun i => k ≤ i && (s.mring e i).st = 0

/-- Lane `k` is calibrated: the spare ring takes it. -/
def calLane (e k : Nat) (s : State) : State :=
  updMring e 8 (fun r => { r with st := 2, line := k })
    (updMring e k (fun r => { r with st := 2 }) (updOeng e (fun x => { x with cal := some k }) s))

/-- The spare ring parks. -/
def parkSpare (e : Nat) (s : State) : State := updMring e 8 (fun r => { r with st := 5 }) s

/-- A calibration can start on an engine: none runs, the spare covers no lane, no crossfade of its light runs. -/
def State.calFree (s : State) (e : Nat) : Bool :=
  s.engLit e && (s.oeng e).cal.isNone && (s.oeng e).cover.isNone && !s.fading e

/-- A calibration of an engine runs its lanes 0 to 7 in order (R290). -/
def calRun (e : Nat) (s : State) : State := match s.calNext e 0 with | none => s | some k => calLane e k s

/-- The engine temperature has moved by more than CAL_DT since the last calibration; 0 disables the trigger (R290, Table 11.9). -/
def State.calMoved (s : State) (e : Nat) : Bool :=
  let dt := s.regF pgOPT 0x100 16 8
  dt ≠ 0 && decide (((s.oeng e).temp - (s.oeng e).calTemp).natAbs > 10 * dt)

/-- What starts a calibration holds: the engine's temperature has moved, or periods are not disabled by a CAL_PERIOD of 0 (Table 11.9). -/
def State.calDue (s : State) : CalTrigger → Bool
  | .period _ => s.regF pgOPT 0x100 0 16 ≠ 0
  | .temp e => s.calMoved e.val

/-- CAL_START (R290). -/
def execCalStart (c : CalTrigger) (s : State) : Res :=
  let e := match c with | .period e | .temp e => e.val
  .next (if s.calDue c && s.calFree e then calRun e s else s)

/-- The entry at a temperature: the nearest. -/
def tempEntry (t : Int) : Nat := min 15 ((t - 2000 + 250) / 500).toNat

/-- CAL_DONE (R291). -/
def execCalDone (e : Fin 6) (heat : BitVec 16) (s : State) : Res :=
  .next (match (s.oeng e.val).cal with
    | none => s
    | some k =>
      let s1 := bump pgOPT 0x814 1
        (updMring e.val k (fun r => { r with st := 0, heat := heat.toNat })
          (actSet .ringLock (9 * e.val + k) true (heat.setWidth 64)
            (setTbl 0 (9 * e.val + k) (tempEntry (s.oeng e.val).temp) (wd (0xC0000000 + heat.toNat)) s)))
      match s1.calNext e.val (k + 1) with
      | some k' => calLane e.val k' s1
      | none => parkSpare e.val (updOeng e.val (fun x => { x with cal := none, calTemp := x.temp }) s1))

/-- A higher use of the spare ring ends a calibration: ring k re-locks from its entry (R292). -/
def calAbort (e : Nat) (s : State) : State :=
  match (s.oeng e).cal with
  | none => s
  | some k =>
    parkSpare e (bump pgOPT 0x818 1 (updMring e k (fun r => { r with st := 0 }) (tableRing e k
      (updOeng e (fun x => { x with cal := none }) s))))

/-! ## Fabric laser crossfade (R293 to R296) -/

/-- A crossfade starts between bay `b` and bay 3; calibrations of its engines end. -/
def xfStart (b : Nat) (rev : Bool) (s : State) : State :=
  calAbort (2 * b + 1) (calAbort (2 * b)
    ((updBay 3 (fun x => { x with st := 3 }) (updBay b (fun x => { x with st := 3 }) s)).updOpt fun o =>
      { o with pair := b, xf := some (b, rev) }))

/-- LASER_FADE_WINDOW (R293, R295). -/
def execLaserFadeWindow (b : Fin 4) (pwr : Int) (s : State) : Res :=
  let x := s.bay b.val
  let wr := if pwr < -150 then x.warnRun + 1 else 0
  let ar := if pwr < -300 then x.actRun + 1 else 0
  .next (if x.st ≠ 1 then s
    else
      let s1 := updBay b.val (fun y => { y with pwr := pwr, warnRun := min 4 wr, actRun := min 4 ar }) s
      let s2 := if wr = 3 then raiseEv pgOPT 0x800 0 s1 else s1
      if ar ≠ 3 then s2
      else
        let s3 := raiseEv pgOPT 0x804 1 s2
        if b.val < 3 && (s.bay 3).st = 2 && s.opt.xf.isNone then xfStart b.val false s3 else raiseEv pgOPT 0x80C 3 s3)

/-- CROSSFADE_DONE (R294, R296). -/
def execCrossfadeDone (s : State) : Res :=
  .next (match s.opt.xf with
    | none => s
    | some (b, rev) =>
      let s1 := updBay 3 (fun x => { x with st := if rev then 2 else 1, warnRun := 0, actRun := 0 })
        (updBay b (fun x => { x with st := if rev then 1 else 4, warnRun := 0, actRun := 0 }) s)
      raiseEv pgOPT 0x808 2 (s1.updOpt fun o => { o with xf := none }))

/-- A crossfade loses one of its modules: the other one feeds. -/
def xfLost (b : Nat) (s : State) : State :=
  match s.opt.xf with
  | some (k, _) =>
    if b = k || b = 3 then
      updBay (if b = 3 then k else 3) (fun x => { x with st := 1 }) (s.updOpt fun o => { o with xf := none })
    else s
  | none => s

/-- An engine has lost its light: its calibration ends, and no ring of it is locked until light returns (log 155). -/
def darken (e : Nat) (s : State) : State :=
  if s.engLit e then s
  else
    forAll ((List.range 9).filter fun i => (s.mring e i).on) (fun i t => updMring e i (fun r => if r.on then { r with st := 3 } else r) t)
      (calAbort e s)

/-- LMOD_REMOVE (R296): a FEEDING module's engines go dark; in a crossfade the other module feeds them. -/
def execLmodRemove (b : Fin 4) (s : State) : Res :=
  let x := s.bay b.val
  let k := if b.val = 3 then s.opt.pair else b.val
  let s1 := updBay b.val (fun _ => { fitted := false }) (xfLost b.val s)
  .next (if !x.fitted then s
    else if x.st = 1 then raiseEv pgOPT 0x810 4 (darken (2 * k + 1) (darken (2 * k) s1))
    else s1)

/-- LMOD_INSERT (R296): the module is self-tested. -/
def execLmodInsert (b : Fin 4) (s : State) : Res :=
  .next (if (s.bay b.val).fitted then s else updBay b.val (fun _ => { st := 6 }) s)

/-- LMOD_SELF_TEST_DONE (R296): `lines` are the 9 powers in 0.01 dB from beginning of life. -/
def execLmodSelfTestDone (b : Fin 4) (lines : List Int) (s : State) : Res :=
  let ok := lines.length = 9 && lines.all fun x => -50 ≤ x && x ≤ 50
  .next (if (s.bay b.val).st ≠ 6 then s
    else if !ok then updBay b.val (fun x => { x with st := 5 }) s
    else
      let s1 := updBay b.val (fun x => { x with st := 2 }) s
      if b.val < 3 && (s.bay 3).st = 1 && s.opt.pair = b.val && s.opt.xf.isNone && bit (s.reg pgOPT 0x100) 24 then
        xfStart b.val true s1
      else s1)

/-! ## Line lasers (R297 to R300) -/

/-- The standby is tuned to the port's grid index, from its table (R297). -/
def stbyTune (p : Nat) (s : State) : State :=
  if (s.lunit p).act.isNone || s.stbySt p = 4 then s
  else setFresh .lineFreq (2 * p + s.stbyLaser p) true (updLaser p (s.stbyLaser p) (fun x => { x with st := 1 }) s)

/-- The lasers of a port take their table's values for a new grid index (R287). -/
def gridChanged (p : Nat) (s : State) : State :=
  stbyTune p (forAll [2 * p, 2 * p + 1] (fun i t => setFresh .lineFreq i true t) s)

/-- The active laser of a port goes on or off with LINEn_CTL.EN. -/
def laserEnable (p : Nat) (on : Bool) (s : State) : State :=
  if (s.lunit p).act.isNone then s
  else updUnit p (fun u => { u with relock := false })
    (updLaser p (s.actLaser p) (fun x => if x.st = 4 then x else { x with st := if on then 3 else 0 }) s)

/-- STANDBY_TUNED (R297). -/
def execStandbyTuned (p : Port) (locked : Bool) (s : State) : Res :=
  .next (if s.stbySt p.val ≠ 1 || (s.lunit p.val).act.isNone then s
    else if locked then updLaser p.val (s.stbyLaser p.val) (fun x => { x with st := 2 }) s
    else raiseEv pgOPT 0x834 11 (updLaser p.val (s.stbyLaser p.val) (fun x => { x with st := 4 }) s))

/-- STANDBY_RECHECK (R297). -/
def execStandbyRecheck (p : Port) (passed : Bool) (s : State) : Res :=
  .next (if s.stbySt p.val ≠ 2 || passed then s
    else raiseEv pgOPT 0x834 11 (updLaser p.val (s.stbyLaser p.val) (fun x => { x with st := 4 }) s))

/-- The other port is in SF or in a hold. -/
def State.otherDark (s : State) (p : Nat) : Bool :=
  s.portSf (1 - p) || (s.port (1 - p)).holdTx || (s.port (1 - p)).inHold

/-- A switch-over that waits for the other port is counted, once (R298). -/
def switchDefer (p : Nat) (s : State) : State :=
  if (s.lunit p).deferred then s else bump pgOPT 0x838 1 (updUnit p (fun u => { u with deferred := true }) s)

/-- Why a switch-over is refused, as a status: no reference (R303), or no READY standby, which is also raised (R298). -/
def switchRefused (p : Nat) (s : State) : Option (State × Nat) :=
  if !s.opt.refOk then some (s, 5)
  else if s.stbySt p ≠ 2 then some (raiseEv pgOPT 0x834 11 s, 2)
  else none

/-- A switch-over is scheduled, or refused: the state, and the command's status (R298, R303). -/
def switchSchedule (p : Nat) (byCmd : Bool) (s : State) : State × Nat :=
  match switchRefused p s with
  | some r => r
  | none =>
    let s1 := updUnit p (fun u => { u with pend := true, byCmd := byCmd || u.byCmd, deferred := u.pend && u.deferred }) s
    if s.otherDark p then (switchDefer p s1, 4) else (s1, 0)

/-- LINE_LASER_FADE_WINDOW (R293, R298): power in 0.01 dB from beginning of life, frequency error in 0.1 GHz. -/
def execLineLaserFadeWindow (p : Port) (pwr ferr : Int) (s : State) : Res :=
  let u := s.lunit p.val
  let wr := if pwr < -150 then u.warnRun + 1 else 0
  let ar := if pwr < -300 then u.actRun + 1 else 0
  .next (if u.act.isNone || (u.lasers.getD (s.actLaser p.val) {}).st ≠ 3 then s
    else
      let s1 := updUnit p.val (fun x => { x with warnRun := min 4 wr, actRun := min 4 ar })
        (updLaser p.val (s.actLaser p.val) (fun x => { x with pwr := pwr, ferr := ferr }) s)
      let s2 := if wr = 3 then raiseEv pgOPT 0x828 8 s1 else s1
      if (ar = 3 || ferr > 25 || ferr < -25) && bit (s.reg pgOPT 0x100) 25 && !u.pend && !u.switching then
        (switchSchedule p.val false s2).1
      else s2)

/-- No switch-over waits any more; `extra` changes the unit beside. -/
def unpend (p : Nat) (extra : LUnit → LUnit) (s : State) : State :=
  updUnit p (fun u => extra { u with pend := false, byCmd := false, deferred := false }) s

/-- LINE_SWITCH_START (R298, R299, R303): a switch-over that waits goes on waiting while the other port is dark; else it is refused,
or its hold is announced 5 ms ahead. The status of a refusal is that of the command that scheduled it. -/
def execLineSwitchStart (p : Port) (s : State) : Res :=
  let u := s.lunit p.val
  .next (if !u.pend || u.switching then s
    else if s.otherDark p.val then switchDefer p.val s
    else
      match switchRefused p.val s with
      | some r =>
        let s1 := unpend p.val id r.1
        if u.byCmd then s1.updOpt fun o => { o with status := r.2 } else s1
      | none => holdAnnounce p.val 5 (unpend p.val (fun x => { x with switching := true }) s))

/-- EMERGENCY_SWITCH (R300): the active laser is blanked; a READY standby takes its place without an announcement. -/
def execEmergencySwitch (p : Port) (s : State) : Res :=
  let u := s.lunit p.val
  .next (if u.act.isNone || (u.lasers.getD (s.actLaser p.val) {}).st ≠ 3 then s
    else
      let s1 := raiseEv pgOPT 0x830 10 (updLaser p.val (s.actLaser p.val) (fun x => { x with st := 4 }) s)
      if s.stbySt p.val = 2 then
        updPort p.val (fun l => { l with inHold := true })
          (unpend p.val (fun x => { x with switching := true }) s1)
      else raiseEv pgOPT 0x834 11 s1)

/-- STANDBY_FINE_LOCK (R299, R300): the standby is the active laser, and the former one FAILED. -/
def execStandbyFineLock (p : Port) (s : State) : Res :=
  .next (if !(s.lunit p.val).switching then s
    else
      let a := s.actLaser p.val
      holdEnd p.val (raiseEv pgOPT 0x82C 9
        (updUnit p.val (fun u => { u with act := some (1 - a), switching := false, warnRun := 0, actRun := 0 })
          (updLaser p.val (1 - a) (fun x => { x with st := 3 }) (updLaser p.val a (fun x => { x with st := 4 }) s)))))

/-- LINE_LASER_UNIT_REPLACE (R300): only while the port is not enabled. -/
def execLineLaserUnitReplace (p : Port) (s : State) : Res :=
  .next (if s.lineEn p.val then s
    else updUnit p.val (fun _ => { lasers := #v[{ st := 0 }, { st := 1 }], act := some 0 }) s)

/-! ## Wrong resonance (R301) -/

/-- The spare ring carries lane `k`. -/
def coverLane (e k : Nat) (s : State) : State :=
  updMring e 8 (fun r => { r with st := 0, line := k }) (updOeng e (fun x => { x with cover := some k }) s)

/-- The spare ring takes a failed lane (R301). -/
def coverFailed (e k : Nat) (s : State) : State := updMring e k (fun r => { r with st := 1 }) (coverLane e k s)

/-- The spare ring leaves lane `k`, for a failed lane that nothing covers, or to park. -/
def uncoverLane (e k : Nat) (s : State) : State :=
  if (s.oeng e).cover ≠ some k then s
  else
    let s1 := parkSpare e (updOeng e (fun x => { x with cover := none }) s)
    match (List.range 8).find? fun i => (s1.mring e i).st = 4 with
    | some i => coverFailed e i s1
    | none => s1

/-- A ring re-locks from its table. -/
def relockRing (e i : Nat) (s : State) : State := updMring e i (fun r => { r with st := 3 }) (tableRing e i s)

/-- OPT_LANE_ID, with the engine and the ring (R304). -/
def laneId (e i : Nat) (s : State) : State := raiseCap pgOPT 0x81C 5 (wd (e + i * 2 ^ 3)) 0 s

/-- A ring on the wrong line: it re-locks with the spare on its lane, or in place where the spare carries another (R292, R301). -/
def laneWrong (e k : Nat) (s : State) : State :=
  let s1 := calAbort e (laneId e k s)
  relockRing e k (if (s1.oeng e).cover.isSome then s1 else coverLane e k s1)

/-- A lane is declared failed (R292, R301): the spare covers it unless it covers another failed one; a lane whose wrong lock it was
recovering re-locks in place. -/
def failLane (e k : Nat) (s : State) : State :=
  let s1 := calAbort e (raiseEv pgOPT 0x820 6 s)
  match (s1.oeng e).cover with
  | some j => if j = k || (s1.mring e j).st = 3 then coverFailed e k s1 else updMring e k (fun r => { r with st := 4 }) s1
  | none => coverFailed e k s1

/-- A re-lock that the next check finds wrong starts again; the third within 1 s makes the lane failed. -/
def relockFail (e k : Nat) (s : State) : State :=
  let now := s.time.nt
  let l := ((SMap.find (s.oeng e).fails k).getD []).filter fun t => (now - t).toNat < 1000000000
  if l.length < 2 then relockRing e k (updOeng e (fun x => { x with fails := SMap.put k (l ++ [now]) x.fails }) s)
  else failLane e k (updOeng e (fun x => { x with fails := SMap.erase k x.fails }) s)

/-- Mismatches of a lane in a row: the second calls for `wrong`. -/
def laneCount (e k : Nat) (bad : Bool) (wrong : State → State) (s : State) : State :=
  let run := if bad then SMap.get (fun _ => 0) (s.oeng e).mis k + 1 else 0
  let s1 := updOeng e (fun x => { x with mis := SMap.set (fun _ => 0) k (if run ≥ 2 then 0 else run) x.mis }) s
  if run ≥ 2 then wrong s1 else s1

/-- One lane of a check. A covered lane's symbols are the spare ring's, which re-locks in place. -/
def laneCheck (e : Nat) (mm : BitVec 8) (k : Nat) (s : State) : State :=
  let bad := mm.getLsbD k
  match (s.mring e k).st with
  | 3 => if bad then relockFail e k s else uncoverLane e k (updMring e k (fun r => { r with st := 0 }) s)
  | 1 =>
    if (s.mring e 8).st = 3 then (if bad then relockRing e 8 s else updMring e 8 (fun r => { r with st := 0 }) s)
    else laneCount e k bad (fun t => relockRing e 8 (laneId e 8 t)) s
  | 0 | 2 => laneCount e k bad (laneWrong e k) s
  | _ => s

/-- LANE_ID_CHECK (R301): bit k of `mismatch`: the symbols on fibre k are not lane k's. A dark engine has none. -/
def execLaneIdCheck (e : Fin 6) (mismatch : BitVec 8) (s : State) : Res :=
  .next (if s.engLit e.val then forAll (List.range 8) (laneCheck e.val mismatch) s else s)

/-! ## Wrong channel and the reference (R302, R303) -/

/-- TIM is set on a port: its active laser is blanked and retuned from its table, to be lit again once it is verified (R302). -/
def timRelock (p : Nat) (s : State) : State :=
  let u := s.lunit p
  if !s.opt.refOk || u.timExt || u.act.isNone || (u.lasers.getD (s.actLaser p) {}).st ≠ 3 then s
  else
    setFresh .lineFreq (2 * p + s.actLaser p) true
      (updUnit p (fun x => { x with relock := true, relit := false }) (updLaser p (s.actLaser p) (fun x => { x with st := 1 }) s))

/-- TIM has cleared. -/
def timCleared (p : Nat) (s : State) : State := updUnit p (fun u => { u with relit := false, timExt := false }) s

/-- OPT_TIM_EXTERNAL (R302). -/
def execOptTimExternal (p : Port) (s : State) : Res :=
  .next (if (s.lunit p.val).relit && (s.port p.val).defects.getLsbD 4 then
      raiseCap pgOPT 0x840 12 (wd p.val) 0 (updUnit p.val (fun u => { u with timExt := true, relit := false }) s)
    else s)

/-- A line laser goes back to its last set point from its table (R303). -/
def laserHold (i : Nat) (s : State) : State :=
  match SMap.find s.opt.setPts (actKey .lineFreq i) with
  | some v => s.updOpt fun o => { o with acts := SMap.put (actKey .lineFreq i) v o.acts }
  | none => s

/-- A re-lock under way ends: nothing can verify it, and its laser is lit again at its set point (log 156). -/
def relockEnd (p : Nat) (s : State) : State :=
  if (s.lunit p).relock then
    updUnit p (fun u => { u with relock := false }) (updLaser p (s.actLaser p) (fun x => { x with st := 3 }) s)
  else s

/-- OPT_REF_FAIL (R303). -/
def execOptRefFail (s : State) : Res :=
  .next (if s.opt.refOk then
      forAll [0, 1] relockEnd (forAll (List.range 4) laserHold
        (raiseEv pgOPT 0x844 13 (s.updOpt fun o => { o with refOk := false })))
    else s)

/-! ## Commands (Table 11.10) -/

def optEnd (status : Nat) (s : State) : State := s.updOpt fun o => { o with status := status }

/-- CAL_LANE: a calibration of the engine, which runs its lanes in order; LANE has to be one of them (log 157). -/
def calLaneOp (e k : Nat) (s : State) : State :=
  if e > 5 || k > 7 then optEnd 3 s
  else if (s.oeng e).cover.isSome then optEnd 2 s
  else if !s.calFree e || (s.calNext e 0).isNone then optEnd 1 s
  else optEnd 0 (calRun e s)

/-- LINE_SWITCH. -/
def lineSwitchOp (p : Nat) (s : State) : State := let r := switchSchedule p true s; optEnd r.2 r.1

/-- REVERT (R296). -/
def revertOp (b : Nat) (s : State) : State :=
  if b = 3 then optEnd 3 s
  else if s.opt.xf.isSome then optEnd 1 s
  else if (s.bay 3).st = 1 && s.opt.pair = b && (s.bay b).st = 2 then optEnd 0 (xfStart b true s)
  else optEnd 2 s

/-- SAVE_TABLES (R287). -/
def saveTablesOp (s : State) : State :=
  if s.opt.xf.isSome || s.opt.engs.any fun x => x.cal.isSome then optEnd 1 s
  else optEnd 0 (s.updOpt fun o => { o with flash := o.tbl })

/-- LANE_RETURN (R301). -/
def laneReturnOp (e k : Nat) (s : State) : State :=
  if e > 5 || k > 7 || ((s.mring e k).st ≠ 1 && (s.mring e k).st ≠ 4) then optEnd 3 s
  else optEnd 0 (uncoverLane e k (updMring e k (fun r => { r with st := 0 }) (tableRing e k s)))

/-- A write of OPT_CMD: every command ends in the step that takes it (log 28). -/
def optCmd (v : Word) (s : State) : State :=
  let e := fld v 8 3
  let k := fld v 12 4
  match fld v 0 4 with
  | 1 => calLaneOp e k s
  | 2 => lineSwitchOp (fld v 16 1) s
  | 3 => revertOp (fld v 20 2) s
  | 4 => saveTablesOp s
  | 5 => laneReturnOp e k s
  | _ => optEnd 3 s

/-- A write of OPT_TBL_DATA: a heater entry is marked CALIB = 0, and the actuator is due for its table's value (R288). -/
def tblWr (ix : Word) (v : Word) (s : State) : State :=
  match tblIx ix with
  | none => s
  | some (t, r, e) =>
    setFresh (if t = 0 then .ringLock else .lineFreq) r true (setTbl t r e (if t = 0 then v &&& 0x8000FFFF else v) s)

/-- Effects of the OPT page (Table 11.8); `tix` is the writer's OPT_TBL_IDX. -/
def optEffect (p o ix : Nat) (tix : Word) (v : DWord) (s : State) : Eff :=
  if o = 0x108 then .ok (optCmd (loW v) s)
  else if o = 0x144 then .ok (tblWr tix (loW v) s)
  else if o = 0x148 then .ok ((store p o 0 (loW v) s).updOpt fun x => { x with monValid := false, monValue := 0 })
  else .ok (store p o ix (loW v) s)

/-- What the OPT page shows. -/
def optView (s : State) (o ix : Nat) (tix : Word) (v : Word) : Word :=
  let x := s.opt
  if o = 0x104 then
    wd ((List.range 6).foldl (fun a e => a + b2n (s.oeng e).cal.isSome * 2 ^ e) 0 + b2n x.xf.isSome * 2 ^ 8 +
      b2n ((s.port 0).holdTx || (s.port 0).inHold) * 2 ^ 16 + b2n ((s.port 1).holdTx || (s.port 1).inHold) * 2 ^ 17 +
      b2n x.refOk * 2 ^ 24)
  else if o = 0x10C then wd x.status
  else if o = 0x114 then
    let b := s.bay ix
    wd (b.st + (if ix = 3 then x.pair * 2 ^ 4 else 0) + twos 16 b.pwr * 2 ^ 16)
  else if o = 0x124 then
    (if ix ≥ 54 then 0
     else let r := s.mring (ix / 9) (ix % 9); wd (r.st + r.line * 2 ^ 4 + r.heat * 2 ^ 16))
  else if o = 0x134 then
    let u := s.lunit (ix / 2)
    let l := u.lasers.getD (ix % 2) {}
    wd (b2n (decide (u.act = some (ix % 2))) + l.st * 2 + twos 8 l.ferr * 2 ^ 8 + twos 16 l.pwr * 2 ^ 16)
  else if o = 0x144 then
    (match tblIx tix with | some (t, r, e) => s.tbl t r e | none => 0)
  else if o = 0x148 then wd (x.monValue.toNat + b2n x.monValid * 2 ^ 31)
  else if 0x150 ≤ o && o < 0x168 then wd (twos 16 (s.oeng ((o - 0x150) / 4)).temp)
  else v

end Sys2Proof.Machine
end

