-- ==== Sys2Proof/Machine/Boot.lean ====
section
/-! DEFINITION. Boot (17 R431 to R436): the ledger, the steps, module resets, the recovery wait and its load; and the BOOT
page. -/
namespace Sys2Proof.Machine

open Sys2Proof

/-! ## The ledger (R432, Table 17.8) -/

/-- The four words of a record. -/
def LedRec.bytes (r : LedRec) : List Byte :=
  let b := natLE 4 r.bootNo.toNat ++
    natLE 4 (r.step + r.kind * 2 ^ 4 + b2n r.alt * 2 ^ 8 + b2n r.skip * 2 ^ 9 + r.result.toNat * 2 ^ 16) ++ natLE 4 r.detail.toNat
  b ++ natLE 4 (crc32c b).toNat

/-- A record is added; the ring keeps 256. -/
def ledgerAdd (r : LedRec) (b : Boot) : Boot := { b with ledger := (r :: b.ledger).take 256 }

/-- The records of START and DONE of a step carry what is in force for it (R431, R433). -/
def stepRec (b : Boot) (kind : Nat) (result : Byte) (detail : Word) : LedRec :=
  { bootNo := b.bootNo, step := b.step, kind := kind, alt := b.alt.getLsbD (b.step - 1), skip := b.skip.getLsbD (b.step - 1)
    result := result, detail := detail }

/-- A record of a boot. -/
def Boot.hasRec (b : Boot) (no : Word) (step kind : Nat) : Bool :=
  b.ledger.any fun r => r.bootNo = no && r.step = step && r.kind = kind

/-- The step of the previous boot with a START and no DONE. -/
def Boot.failed (b : Boot) : Option Nat :=
  (List.range' 1 12).find? fun k => b.hasRec b.bootNo k 1 && !b.hasRec b.bootNo k 2

/-- What a failed step's column of Table 17.7 puts in force. -/
def putAlt (b : Boot) : Boot :=
  match b.failed with
  | none => b
  | some k =>
    let m := BitVec.ofNat 12 (2 ^ (k - 1))
    if k < 5 || k = 12 then b
    else if !b.alt.getLsbD (k - 1) then { b with alt := b.alt ||| m }
    else if k = 9 || k = 10 then { b with skip := b.skip ||| m }
    else b

/-- Consecutive boots without a DONE for B12, of which the last is the previous one. -/
def Boot.nextFails (b : Boot) : Nat := if b.hasRec b.bootNo 12 2 then 0 else min 3 (b.fails + 1)

/-- A new boot: its first START record, and what flash says of the ones before (R431, R433, R435). -/
def newBoot (b : Boot) : Boot :=
  let b1 := putAlt b
  let b2 : Boot :=
    { bootNo := b.bootNo + 1, alt := b1.alt, skip := b1.skip, fails := b.nextFails, ledger := b.ledger, cfgRec := b.cfgRec
      flashImage := b.flashImage, running := b.flashImage, recovery := b.nextFails ≥ 3 || b.recoverReq }
  ledgerAdd (stepRec b2 1 0 0) b2

/-! ## Module resets -/

/-- What survives a loss of power: flash, and the commands and trail of the model. -/
def State.flashOnly (s : State) : State :=
  let b := s.boot
  { pending := s.pending, out := s.out, freeCtr := s.freeCtr, opt := { flash := s.opt.flash }
    boot := { b with step := 1, done := 0, stopped := false, recovery := false, image := [], loadOwner := none, loadStat := 0
                     busy := false, status := 0 } }

/-- A reset of the module, which then boots: the input stage goes on. -/
def moduleReset (s : State) : State :=
  let t := s.flashOnly
  let p : Pwr := { st := .on, addr := s.pwr.addr, enable := s.pwr.enable, cml := s.pwr.cml, stInput := s.pwr.stInput
                   stTemp := s.pwr.stTemp, faultHeld := s.pwr.faultHeld }
  { t with boot := newBoot t.boot, pwr := p }.emit .reset

/-! ## What a step brings up (Table 17.7) -/

/-- The lock of every page, HOST_F pages included (18 R443). -/
def lockAll (s : State) : State := forAll (List.range 72) (fun p t => t.updHdr p fun h => { h with locked := true }) s

/-- B4 writes every RWL field from the configuration record, and sets the lock on every page (R434, 18 R443). -/
def bootLock (s : State) : State :=
  let c := s.boot.cfgRec
  lockAll ((s.setReg pgHOST 0x100 (wd (c % 2))).setReg pgBOOT 0x114 (wd (b2n (c / 2 % 2 = 1 && Config.fuseDebug))))

/-- A fail-over to INT (R417, 16 Table 16.5). -/
def failOver (s : State) : State :=
  addHealth 1000 (nmi 0 (raiseEv pgCLK 0x804 1 (s.updClk fun c => { c with ref := 2 })))

/-- B5: PLLs lock from OSC_A, or under ALT from OSC_B; a source that has failed is one in use as REF (R417). -/
def bootPll (alt : Bool) (s : State) : State :=
  let r := b2n alt
  if s.clk.good.getLsbD r then s.updClk fun c => { c with ref := r } else failOver s

/-- B6: the PCIe ports of `detail` stay down. In the recovery wait there are no VFs (R435). -/
def bootPcie (detail : Word) (s : State) : State :=
  let up := #v[!bit detail 0, !bit detail 1]
  let d := s.draw
  (d.2.updFab fun f => { f with hashKey := d.1 }).updHost fun h =>
    { h with
      linkUp := up, width := up.map fun u => 8 * b2n u, rate := up.map fun u => 6 * b2n u
      numVfs := if s.boot.recovery then #v[0, 0] else h.numVfs }

/-- B7: HBM is trained, at the reduced rate under ALT, and HKEY and LKEY are drawn (14 R346, R351). -/
def bootHbm (alt : Bool) (s : State) : State :=
  let a := s.draw
  let b := a.2.draw
  b.2.updMem fun m => { m with hkey := a.1, lkey := b.1, reduced := alt }

/-- B9: tables are loaded, rings lock and the laser modules are tested (11 R287); failing engines stay out of service. -/
def bootOptics (detail : Word) (s : State) : State :=
  let s1 := s.updOpt fun o => { o with tbl := o.flash }
  let s2 := forAll ((List.range 6).filter fun e => !bit detail e) lockRings s1
  forAll (List.range 4) (fun b t =>
    updBay b (fun y => if y.fitted then { y with st := if b = 3 then 2 else 1 } else y) t) s2

/-- B10: the DSPs of the ports that are not in `detail` start, and the standbys are tuned (11 R297). -/
def bootLine (detail : Word) (s : State) : State :=
  let d := drawBytes 4 s
  let d2 := drawBytes 4 d.2
  let s0 := d2.2.updCiph fun c => { c with kwk := #v[d.1, d2.1] }
  forAll ((List.range 2).filter fun p => !bit detail p) (fun p t =>
    stbyTune p (setFresh .lineFreq (2 * p) true (updUnit p (fun u => { u with act := some 0 }) (updPort p (fun l => { l with oos := false }) t)))) s0

/-- B11 under ALT: failing units are out of service; which bits of DETAIL are which units is open (log 44). -/
def bootTest (alt : Bool) (detail : Word) (s : State) : State :=
  let clr (p o : Nat) (t : State) : State := let d := t.draw; d.2.setReg p o (t.reg p o &&& loW d.1)
  if !alt || detail = 0 then s
  else
    forAll (List.range 2) (fun d t =>
      clr (pgCIPH d) 0x100 (clr (pgGC d) 0x100 (clr (pgSHEET d) 0x104 (clr (pgENG d) 0x100 t)))) s

/-- What the step has brought up when it is done; a skipped one brings up nothing. In the recovery wait every lock is set with
the RWL fields at their reset values (18 R443). -/
def stepEffect (k : Nat) (alt : Bool) (detail : Word) (s : State) : State :=
  match k with
  | 2 => if s.boot.recovery then lockAll s else s
  | 4 => bootLock s
  | 5 => bootPll alt s
  | 6 => bootPcie detail s
  | 7 => bootHbm alt s
  | 9 => bootOptics detail s
  | 10 => bootLine detail s
  | 11 => bootTest alt detail s
  | 12 => raiseEv pgBOOT 0x800 0 s
  | _ => s

/-- The step after `k`: the recovery wait goes from B2 to B5 and ends with B6 (R435). -/
def nextStep (recovery : Bool) (k : Nat) : Option Nat :=
  if recovery then (if k = 2 then some 5 else if k = 6 then none else some (k + 1))
  else if k = 12 then none else some (k + 1)

/-- The rail group that a step raises at its start (R428): bit of PWR_STAT.RAILS (log 45). -/
def stepRail (k : Nat) : Nat := if k = 5 then 2 else if k = 7 then 4 else if k = 9 then 8 else if k = 10 then 16 else 0

/-- A step begins with its START record. -/
def stepStart (k : Nat) (s : State) : State :=
  (s.updPwr fun p => { p with rails := p.rails + stepRail k }).updBoot fun b =>
    let b1 := { b with step := k }
    ledgerAdd (stepRec b1 1 0 0) b1

/-- A step runs. -/
def State.stepRuns (s : State) : Bool :=
  s.pwr.st = .on && !s.boot.stopped && !s.boot.done.getLsbD (s.boot.step - 1)

/-- A step that ends without its DONE: the root restarts the boot 1 s later; in the recovery wait FAULT_N stays asserted where
B5 or B6 fails (R431, R435). -/
def stepFail (s : State) : State :=
  let s1 := s.updBoot fun b => { b with stopped := true }
  if s.boot.recovery && s.boot.step ≥ 5 && !s.pwr.faultHeld then
    let s2 := s1.updPwr fun p => { p with faultHeld := true }
    if s.clk.nmi = 0 then s2.emit (.pin "FAULT_N" false) else s2
  else s1

/-- An image is accepted: its signature, its digest and its SVN (R326); the one of manufacture is (log 127). -/
def imageOk : Option (List Byte) → Bool
  | none => true
  | some i => Config.imageVerifies i && Config.minSvn ≤ Config.imageSvn i

/-- B3 checks the image in flash, whatever it has found beside. -/
def State.stepOk (s : State) (r : BootResult) : Bool := r.ok && (s.boot.step ≠ 3 || imageOk s.boot.running)

/-- BOOT_STEP_DONE (R431). -/
def execBootStepDone (r : BootResult) (s : State) : Res :=
  let b := s.boot
  let k := b.step
  .next (if !s.stepRuns then s
    else if !s.stepOk r then stepFail s
    else
      let s1 := s.updBoot fun x =>
        { ledgerAdd (stepRec x 2 r.result r.detail) x with done := x.done ||| BitVec.ofNat 12 (2 ^ (k - 1)) }
      let s2 := if b.skip.getLsbD (k - 1) then s1 else stepEffect k (b.alt.getLsbD (k - 1)) r.detail s1
      match nextStep b.recovery k with
      | some n => stepStart n s2
      | none => s2)

/-- BOOT_WATCHDOG (R431). -/
def execBootWatchdog (s : State) : Res := .next (if s.stepRuns then stepFail s else s)

/-- BOOT_RESTART (R431). -/
def execBootRestart (s : State) : Res := .next (if s.pwr.st = .on && s.boot.stopped then moduleReset s else s)

/-! ## Commands and the recovery load (R433 to R437) -/

/-- The recovery wait: B6 has ended it. -/
def State.inRecovery (s : State) : Bool := s.boot.recovery && s.boot.done.getLsbD 5 && s.pwr.st = .on

/-- The port of a writer; the root's is none. -/
def whoPort : Who → Option Nat
  | .func f => some (portOf f.val)
  | .root => none

/-- LOAD (R436): its status, and the state with the load's. Until flash is programmed it holds no image that boots. -/
def bootLoad (w : Who) (s : State) : Nat × State :=
  let len := s.regF pgBOOT 0x140 0 25
  let st (n : Nat) (t : State) : State := t.updBoot fun b => { b with loadStat := n }
  let img := (List.range len).map fun i => SMap.get (fun _ => (0 : Byte)) s.boot.image i
  if !s.inRecovery || s.boot.loadOwner.isNone || s.boot.loadOwner ≠ whoPort w then (2, s)
  else if len > 0x1000000 then (0, st 5 s)
  else if len = 0 then (3, s)
  else if !Config.imageVerifies img then (0, raiseEv pgBOOT 0x804 1 (st 2 s))
  else if Config.imageSvn img < Config.minSvn then (0, raiseEv pgBOOT 0x804 1 (st 3 s))
  else (0, (st 1 s).updBoot fun b => { b with busy := true, flashImage := some [] })

/-- BOOT_CMD (Table 17.14). -/
def bootCmdRun (w : Who) (v : Word) (s : State) : Nat × State :=
  match fld v 0 4 with
  | 1 => (0, s.updBoot fun b => { b with alt := 0, skip := 0 })
  | 2 =>
    if (List.range 8).all fun j => s.jobSt j = .free then (0, moduleReset (s.updBoot fun b => { b with recoverReq := true }))
    else (2, s)
  | 3 => (0, s.updBoot fun b => { b with cfgRec := s.regF pgBOOT 0x110 0 2 })
  | 4 => bootLoad w s
  | 5 =>
    if s.boot.loadOwner.isSome && s.boot.loadOwner = whoPort w then
      (0, s.updBoot fun b => { b with loadOwner := none, loadStat := 0, image := [] })
    else (2, s)
  | _ => (3, s)

def bootCmdWr (w : Who) (v : Word) (s : State) : Eff :=
  if s.boot.busy then .error .busyCmd
  else
    let r := bootCmdRun w v s
    .ok (r.2.updBoot fun b => { b with status := r.1 })

/-- BAR2 in the recovery wait: the image window (R435, R436). -/
def imageWrite (p off : Nat) (bs : List Byte) (s : State) : State :=
  if !s.inRecovery || s.boot.busy || bs.isEmpty || off + bs.length > 0x1000000 || !(s.host.linkUp.getD p false) then s
  else if s.boot.loadOwner.isSome && s.boot.loadOwner ≠ some p then s
  else s.updBoot fun b => { b with image := memWrite off bs b.image, loadOwner := some p }

/-- BAR2_IMAGE_WRITE (R436). -/
def execBar2ImageWrite (p : Port) (off : Nat) (bytes : List Byte) (s : State) : Res := .next (imageWrite p.val off bytes s)

/-- FLASH_PROGRAM_DONE (R436). -/
def execFlashProgramDone (s : State) : Res :=
  .next (if !s.boot.busy || s.boot.loadStat ≠ 1 then s
    else
      let len := s.regF pgBOOT 0x140 0 25
      let img := (List.range len).map fun i => SMap.get (fun _ => (0 : Byte)) s.boot.image i
      (moduleReset (s.updBoot fun b => { b with flashImage := some img })).updBoot fun b => { b with fails := 0, recovery := false })

def bootEffect (w : Who) (p o ix : Nat) (v : DWord) (s : State) : Eff :=
  if o = 0x108 then bootCmdWr w (loW v) s else .ok (store p o ix (loW v) s)

/-- What the BOOT page shows to a reader; `ix`: its BOOT_LEDGER_IDX. -/
def bootView (s : State) (w : Who) (o ix : Nat) (v : Word) : Word :=
  let b := s.boot
  if o = 0x100 then wd (b.step + b.fails * 2 ^ 4 + b2n b.recovery * 2 ^ 8)
  else if o = 0x104 then wd (b.done.toNat + (b.alt ||| b.skip).toNat * 2 ^ 16)
  else if o = 0x10C then wd (b2n b.busy * 2 ^ 31 + b.status)
  else if 0x124 ≤ o && o < 0x134 then
    (match b.ledger[ix]? with | some r => wAt r.bytes (o - 0x124) | none => 0)
  else if o = 0x144 then
    let other : Bool := match b.loadOwner, whoPort w with | some p, some q => decide (p ≠ q) | _, _ => false
    wd ((if other then 4 else b.loadStat) + b.loadOwner.getD 0 * 2 ^ 8)
  else v

end Sys2Proof.Machine
end

