-- ==== Sys2Proof/Machine/LineTx.lean ====
section
/-! DEFINITION. FRAME_TRANSMIT (10 R265 to R275): what each tributary sends, and the frame. -/
namespace Sys2Proof.Machine

open Sys2Proof

/-! ## Where payload bytes belong (R267 to R269) -/

/-- How a tributary is justified: 0 = not, 1 = positive, 2 = negative. -/
abbrev Just := Nat

/-- The tributary that payload byte `b` of a frame numbered `f` carries, none where it is zero: its slot is (b + f × P) mod 32,
and a positive justification leaves out the first 16 bytes of each slot of the frame. -/
def payTrib (pay f : Nat) (trib : Nat → Option Nat) (just : Nat → Just) (b : Nat) : Option Nat :=
  match trib ((b + f * pay) % 32) with
  | none => none
  | some t => if just t = 1 && b < 512 then none else some t

/-- The tributary in use of every slot of a port. -/
def State.usedTrib (s : State) (p sl : Nat) : Option Nat :=
  let t := s.slotTrib p sl
  if (sl ≠ 0 && t = 0) || !s.tribOn p t then none else some t

/-- Bytes of the area of a tributary of `n` slots: the NJO bytes when justified negatively, and the payload bytes. -/
def areaLen (pay f : Nat) (trib : Nat → Option Nat) (just : Nat → Just) (n t : Nat) : Nat :=
  (if just t = 2 then 16 * n else 0) + (List.range pay).countP fun b => payTrib pay f trib just b = some t

/-- The payload, from what is left of each tributary's area. -/
def layPayload (own : Nat → Option Nat) : List Nat → List (List Byte) → List Byte
  | [], _ => []
  | b :: bs, areas =>
    match own b with
    | none => 0 :: layPayload own bs areas
    | some t => (areas.getD t []).headD 0 :: layPayload own bs (modAt areas t List.tail)

/-! ## Choosing what to send (R272, R274, R275, R277) -/

/-- The bytes of a SHEETS segment that waits, while its copy is held: empty where its engine failed and no other has sealed it yet
(12 R320). -/
def State.segBytes (s : State) (q : QSeg) : Option (List Byte) :=
  if cwGrp q.cw ≥ 64 then
    match (s.sc (cwGrp q.cw - 64)).tx.find? fun m => m.mseq = wd (cwRseq q.cw) with
    | some m => m.segs[q.i]?
    | none => none
  else
    match s.tx? q.cw with
    | some t => if t.freed then none else t.segs[q.i]?
    | none => none

/-- Once the last segment of a copy goes, its resend timer starts (07 R193, 08 R226). -/
def segSent (q : QSeg) (s : State) : State :=
  if !q.last then s
  else if cwGrp q.cw ≥ 64 then
    updSc (cwGrp q.cw - 64) (fun y =>
      { y with tx := y.tx.map fun m => if m.mseq = wd (cwRseq q.cw) then { m with timer := true } else m }) s
  else
    match s.tx? q.cw with
    | some t => if t.receipt then s else putTx q.cw { t with timer := .resend } s
    | none => s

/-- CBS and PBS of a channel in half bits (Table 10.9). -/
def State.chBurst (s : State) (p i lo : Nat) : Int := (max 1 (s.regF (pgLINE p) 0x1A0 lo 16 i) : Nat) * 16384

/-- One frame's fill of every VALID channel's buckets: 12.5 µs at CIR and at PIR. -/
def meterFill (p : Nat) (s : State) : State :=
  forAll ((List.range 512).filter fun i => bit (s.chCtl p i) 31) (fun i t =>
    let rate (o : Nat) : Int := (t.regF (pgLINE p) o 0 20 i : Nat) * 25
    updPort p (fun l =>
      { l with
        com := SMap.modify (fun _ => 0) i (fun x => min (x + rate 0x198) (t.chBurst p i 0)) l.com
        peak := SMap.modify (fun _ => 0) i (fun x => min (x + rate 0x19C) (t.chBurst p i 16)) l.peak }) t) s

/-- A segment of `n` bytes starts on channel entry `i`. -/
def meterTake (p i n : Nat) (s : State) : State :=
  updPort p (fun l =>
    { l with
      com := SMap.modify (fun _ => 0) i (fun x => x - 16 * n) l.com
      peak := SMap.modify (fun _ => 0) i (fun x => x - 16 * n) l.peak }) s

/-- Channel entries of tributary `t` in the order that a round robin visits them after entry `last`. -/
def rrOrder (last : Nat) (l : List Nat) : List Nat := l.filter (fun i => last < i) ++ l.filter fun i => i ≤ last

/-- The next pick of a deficit round robin: how often each channel from the front of the order receives its quantum before it
can send, the least first. Entries are (channel, bytes of its segment, deficit, quantum). -/
def chanPick (l : List (Nat × Nat × Nat × Nat)) : Option (Nat × Nat) :=
  l.foldl (fun a x =>
    let k := ceilDiv (x.2.1 - x.2.2.1) x.2.2.2
    match a with
    | none => some (x.1, k)
    | some b => if k < b.2 then some (x.1, k) else a) none

/-- The deficits after a pick (R272): those before the channel in the order had as many turns, those after it one fewer. -/
def chanPay (cls pick k : Nat) (order : List (Nat × Nat × Nat × Nat)) (d : SMap Nat) : SMap Nat :=
  let before := order.takeWhile fun x => x.1 ≠ pick
  order.foldl (fun m x =>
    let turns := if x.1 = pick || before.any (fun y => y.1 = x.1) then k else k - 1
    let v := x.2.2.1 + turns * x.2.2.2
    SMap.set (fun _ => 0) (512 * cls + x.1) (if x.1 = pick then v - x.2.1 else v) m) d

/-- The first ANNOUNCE of a segment's chunk-wave or message has not gone yet (07 R186). -/
def State.annWaits (s : State) (p : Nat) (q : QSeg) : Bool :=
  let first : Option Word :=
    if cwGrp q.cw ≥ 64 then
      ((s.sc (cwGrp q.cw - 64)).tx.find? fun m => m.mseq = wd (cwRseq q.cw) && m.retx = 0).map fun m => m.first
    else (s.tx? q.cw).bind fun t => if t.retx = 0 then some (wd (cwRseq q.cw)) else none
  match first with
  | none => false
  | some r => (s.port p).recQ.any fun x => x.kind = 1 && x.job = q.job && x.chan = q.chan && x.r.rseq = r

/-- The first segment that waits on a channel of a port, once its ANNOUNCE has gone. -/
def State.chanSeg (s : State) (p i : Nat) : Option QSeg :=
  let c := s.chCtl p i
  ((s.port p).segQ.find? fun q => q.job = fld c 24 3 && q.chan = fld c 16 8).filter fun q => !s.annWaits p q

/-- What a tributary starts to send. -/
def setCur (p t : Nat) (u : Option CurUnit) (s : State) : State :=
  updPort p (fun l => { l with curOf := match u with | some c => SMap.put t c l.curOf | none => SMap.erase t l.curOf }) s

/-- The contexts that seal at transmission: of a record's channel, and of a link (LTYPE 2 = PROT, 3 = MGMT). -/
def recCtx (p : Nat) (q : QRec) : Ctx := { port := p, tx := true, ltype := 1, jobtag := q.r.jobtag, chan := q.chan }
def linkCtx (p ltype : Nat) : Ctx := { port := p, tx := true, ltype := ltype }

/-- A RECORDS segment of a channel is sealed at its transmission (12 R306). -/
def sendRecord (p : Nat) (q : QRec) (s : State) : Option (List Byte × State) :=
  let d := recCtx p q
  sealOne d 2 q.r.epoch q.r.rseq
    (natLE 4 (q.r.chan.toNat * 2 ^ 24 + q.r.xfer.toNat * 2 ^ 8 + q.kind) ++ natLE 4 q.r.rseq.toNat ++
      natLE 4 q.r.epoch.toNat ++ natLE 4 q.r.count.toNat ++ natLE 4 q.r.tbytes.toNat ++ List.replicate 12 0) (resealIfNeeded d [] s)

/-- The first channel of a list, in its order, whose first record can be sealed. -/
def pickRecord (p : Nat) : List Nat → State → Option (List Byte × State)
  | [], _ => none
  | i :: is, s =>
    let c := s.chCtl p i
    match (s.port p).recQ.find? fun q => q.job = fld c 24 3 && q.chan = fld c 16 8 with
    | none => pickRecord p is s
    | some q =>
      match sendRecord p q s with
      | none => pickRecord p is s
      | some (b, s1) =>
        some (b, setCur p (chTrib c) (some (.record q))
          (updPort p (fun l => { l with recQ := l.recQ.erase q, rr := SMap.set (fun _ => 0) (4 * chTrib c) i l.rr }) s1))

/-- Green (1) or yellow (2) segments, by deficit round robin. -/
def pickSheets (p t cls : Nat) (chs : List Nat) (s : State) : Option (List Byte × State) :=
  let l := s.port p
  let can := (rrOrder (SMap.get (fun _ => 0) l.rr (4 * t + cls)) chs).filterMap fun i =>
    let com := SMap.get (fun _ => (0 : Int)) l.com i
    if SMap.get (fun _ => (0 : Int)) l.peak i < 0 || (cls = 1 && com < 0) || (cls = 2 && 0 ≤ com) then none
    else
      match s.chanSeg p i with
      | none => none
      | some q =>
        match s.segBytes q with
        | none => none
        | some b => if b.isEmpty then none else some (i, b.length, SMap.get (fun _ => 0) l.defc (512 * cls + i), 256 * max 1 (s.regF (pgLINE p) 0x1A4 0 16 i))
  match chanPick can with
  | none => none
  | some (i, k) =>
    match s.chanSeg p i with
    | none => none
    | some q =>
      match s.segBytes q with
      | none => none
      | some b =>
        some (b, segSent q (meterTake p i b.length (updPort p (fun x =>
          { x with
            segQ := x.segQ.erase q
            rr := SMap.set (fun _ => 0) (4 * t + cls) i x.rr
            defc := chanPay cls i k can x.defc }) s)))

/-- The first protected message by priority: TIME, EMSOASH, CTRL. -/
def protNext (l : List (ProtMsg × Option Nat)) : Option (ProtMsg × Option Nat) :=
  match l.find? fun m => m.1.kind = 2 with
  | some m => some m
  | none => match l.find? fun m => m.1.kind = 3 with | some m => some m | none => l.head?

/-- Tributary 0: handshake messages first (log 29), then one protected message in a PROT segment; a message that leaves is
stamped where it carries a TSID (13 R340). -/
def pickProt (p : Nat) (s : State) : Option (List Byte × State) :=
  match (s.port p).hsQ with
  | m :: ms => some (hsSegment m, updPort p (fun l => { l with hsQ := ms }) s)
  | [] =>
    match protNext (s.port p).protQ with
    | none => none
    | some m =>
      match sealOne (linkCtx p 2) 3 0 0 (ProtMsg.bytes m.1) s with
      | none => none
      | some (b, s1) =>
        let s2 := setCur p 0 (some (.prot m.1 m.2)) (updPort p (fun l => { l with protQ := l.protQ.erase m }) s1)
        some (b, match m.2 with | some ts => pushStamp ts (32 + p) s2 | none => s2)

/-- The management channel: one frame of the root's in a MGMT segment (12 R306, R309, 19 R453). -/
def pickMgmt (p : Nat) (s : State) : Option (List Byte × State) :=
  match (s.port p).mccQ with
  | [] => none
  | f :: fs =>
    match sealOne (linkCtx p 3) 4 0 0 f s with
    | none => none
    | some (b, s1) => some (b, setCur p 16 (some (.mgmt f)) (updPort p (fun l => { l with mccQ := fs }) s1))

/-- Bytes of a relay unit: an idle word or a segment by its header (12 R308). -/
def unitLen (b : List Byte) : Nat := if allZero (b.take 4) then 16 else 16 * max 1 (leAt b 2 2)

/-- A segment of this gateway's own starts. -/
def ownUnit (p : Nat) (r : Option (List Byte × State)) : Option (List Byte × Bool × State) :=
  r.map fun r => (r.1, true, bump (pgLINE p) 0x858 1 r.2)

/-- What starts at a unit boundary of tributary `t` (16: the management channel): bytes, and whether a segment begins; none is an idle
word. -/
def nextUnit (p t : Nat) (s0 : State) : Option (List Byte × Bool × State) :=
  let s := setCur p t none s0
  let l := s.port p
  let dark := l.holdTx || l.inHold
  if t = 0 then ownUnit p (pickProt p s)
  else if t = 16 then ownUnit p (pickMgmt p s)
  else if s.relayed t then
    if s.portSf (1 - p) || dark then none
    else
      let q := (SMap.find l.relay t).getD []
      if q.isEmpty then none
      else
        let n := unitLen q
        some (q.take n, !allZero (q.take 4), updPort p (fun x =>
          { x with relay := if (q.drop n).isEmpty then SMap.erase t x.relay else SMap.put t (q.drop n) x.relay }) s)
  else if dark then none
  else
    let chs := (List.range 512).filter fun i => bit (s.chCtl p i) 31 && chTrib (s.chCtl p i) = t
    ownUnit p (match pickRecord p (rrOrder (SMap.get (fun _ => 0) l.rr (4 * t)) chs) s with
      | some r => some r
      | none => match pickSheets p t 1 chs s with | some r => some r | none => pickSheets p t 2 chs s)

/-- Fills a tributary's words: what is left of the unit being sent, then unit after unit; the index of the first segment's
first word. Idle words fill the rest once nothing can start. -/
def fillWords (p t : Nat) : Nat → Nat → List Byte → Option Nat → List Byte → State → List Byte × Option Nat × List Byte × State
  | 0, _, acc, ptr, cur, s => (acc, ptr, cur, s)
  | fuel + 1, left, acc, ptr, cur, s =>
    if left = 0 then (acc, ptr, cur, s)
    else if !cur.isEmpty then
      fillWords p t fuel (left - (cur.take left).length) (acc ++ cur.take left) ptr (cur.drop left) s
    else
      match nextUnit p t s with
      | none => (acc ++ List.replicate left 0, ptr, [], s)
      | some (b, seg, s1) =>
        fillWords p t fuel left acc (if seg && ptr.isNone then some (acc.length / 16) else ptr) b s1

/-- The justification of a tributary: a relayed one keeps its fill within 64 KiB of 1 MiB (R275). -/
def State.justOf (s : State) (p t : Nat) : Just :=
  if !s.relayed t || s.portSf (1 - p) then 0
  else
    let n := ((SMap.find (s.port p).relay t).getD []).length
    if n > 2 ^ 20 + 2 ^ 16 then 2 else if n < 2 ^ 20 - 2 ^ 16 then 1 else 0

/-- LINEn_NO_CHAN, once for each channel that waits without an entry (R271). -/
def noChan (p : Nat) (s : State) : State :=
  let l := s.port p
  let chs := ((l.segQ.map fun q => (q.job, q.chan)) ++ l.recQ.map fun q => (q.job, q.chan)).eraseDups
  forAll (chs.filter fun c => (s.chEntry p c.1 c.2).isNone && (SMap.find l.noChan (256 * c.1 + c.2)).isNone)
    (fun c t => raiseEv (pgLINE p) 0x844 10 (updPort p (fun x => { x with noChan := SMap.put (256 * c.1 + c.2) true x.noChan }) t)) s

/-- Segments of copies that have gone are no longer waited for. -/
def purgeSegs (p : Nat) (s : State) : State :=
  updPort p (fun l => { l with segQ := l.segQ.filter fun q => (s.segBytes q).isSome }) s

/-- Contexts with something to seal at transmission that are past their last key epoch wait for a renewal, which starts at once (12
R313). -/
def noteWaits (p : Nat) (s : State) : State :=
  let l := s.port p
  let ds := (l.recQ.map (recCtx p)).eraseDups ++ (if l.protQ.isEmpty then [] else [linkCtx p 2]) ++
    (if l.mccQ.isEmpty then [] else [linkCtx p 3])
  forAll ds noteWait s

/-- A run of words goes out on a tributary or the management channel: the words, the first segment start, and what is left of the last
segment kept. -/
def runWords (p t words : Nat) (cur : List Byte) (s : State) : (List Byte × Option Nat) × State :=
  let r := fillWords p t (2 * words + 2) words [] none cur s
  ((r.1, r.2.1),
    updPort p (fun l => { l with cur := if r.2.2.1.isEmpty then SMap.erase t l.cur else SMap.put t r.2.2.1 l.cur }) r.2.2.2)

/-- One tributary's area of a frame, and its POINTER. -/
def tribArea (p f : Nat) (just : Nat → Just) (t : Nat) (s : State) : (List Byte × Nat) × State :=
  let n := (s.tribSlots p t).length
  let len := areaLen (s.linePay p) f (s.usedTrib p) just n t
  let words := len / 16 * 16
  let gone := s.relayed t && s.portSf (1 - p)
  let cur := if gone then [] else (SMap.find (s.port p).cur t).getD []
  let r := runWords p t words cur s
  let ptr := match r.1.2 with | some i => if i ≤ 65534 then i else 0xFFFF | none => 0xFFFF
  ((r.1.1 ++ List.replicate (len - words) 0, ptr), r.2)

/-- The areas of every tributary in use, in order; an unused one has none. -/
def allAreas (p f : Nat) (just : Nat → Just) : List Nat → State → List (List Byte × Nat) × State
  | [], s => ([], s)
  | t :: ts, s =>
    let a := if s.tribOn p t then tribArea p f just t s else (([], 0xFFFF), s)
    let r := allAreas p f just ts a.2
    (a.1 :: r.1, r.2)

/-! ## The frame (R265, R266, Tables 10.3, 10.4) -/

/-- The trace that this gateway sends on a port. -/
def State.txTrace (s : State) (p : Nat) : List Byte :=
  natLE 1 1 ++ natLE 1 s.site ++ natLE 2 Config.seid.toNat ++ natLE 1 p ++
  natLE 1 (fld (s.lineCtl p) 24 4) ++ natLE 2 (s.regF (pgLINE p) 0x104 0 16) ++ (List.range 8).map fun i => identityDigest.getD i 0

/-- The tributary overhead of a slot: POINTER and JC in its tributary's lowest slot, NJO in each. -/
def tohOf (ptr : Nat) (just : Just) (low : Bool) (njo : List Byte) : List Byte :=
  (if low then natLE 2 ptr ++ natLE 1 (just * 21) else natLE 3 0) ++ List.replicate 13 0 ++ njo ++ List.replicate (16 - njo.length) 0

def fasBytes : List Byte := [0x4E, 0x4E, 0x4E, 0xB1, 0xB1, 0xB1, 0x27, 0xD8]

/-- Bytes 0x000 to 0x0FF, with the 128 bytes of MCC. -/
def State.ohHead (s : State) (p : Nat) (mcc : List Byte) : List Byte :=
  let l := s.port p
  fasBytes ++ natLE 1 l.fnum ++ [l.bip] ++ natLE 1 (b2n (s.portSf p) * 2 ^ 7 + l.bei) ++ natLE 1 0 ++
  natLE 1 (b2n l.holdTx * 2 ^ 7 + b2n (s.portSf p) * 2 ^ 6 + b2n (s.portSd p) * 2 ^ 5) ++ natLE 1 (if l.holdTx then l.holdMs else 0) ++
  natLE 2 0 ++ s.txTrace p ++ s.ttField p ++ mcc ++ List.replicate 64 0

/-- Even parity over bytes. -/
def parity (bs : List Byte) : Byte := bs.foldl (fun a b => a ^^^ b) 0

/-- The tributary overheads of slots 0 to 31. -/
def State.tohs (s : State) (p : Nat) (just : Nat → Just) (areas : List (List Byte × Nat)) : List Byte :=
  (List.range 32).flatMap fun sl =>
    match s.usedTrib p sl with
    | none => List.replicate 32 0
    | some t =>
      let a := areas.getD t ([], 0xFFFF)
      let i := (s.tribSlots p t).idxOf sl
      tohOf a.2 (just t) (decide (i = 0)) (if just t = 2 then (a.1.drop (16 * i)).take 16 else [])

/-- A frame goes out, with the messages of stream ends whose pool buffers have come (14 R361). MCC carries MGMT segments and idle words as a tributary does (log 30). -/
def frameTransmit (p : Nat) (s0 : State) : State :=
  let s1 := noteWaits p (noChan p (meterFill p (purgeSegs p (forAll (s0.outer.sc.map Prod.fst) scSeal s0))))
  let mcc := runWords p 16 128 ((SMap.find (s1.port p).cur 16).getD []) s1
  let s := mcc.2
  let f := (s.port p).fnum
  let just := s.justOf p
  let head := s.ohHead p mcc.1.1
  let r := allAreas p f just (List.range 16) s
  let pay := layPayload (payTrib (s.linePay p) f (s.usedTrib p) just) (List.range (s.linePay p))
    (r.1.zipIdx.map fun a => if just a.2 = 2 then a.1.1.drop (16 * (s.tribSlots p a.2).length) else a.1.1)
  let body := s.tohs p just r.1 ++ pay
  (updPort p (fun l => { l with fnum := (f + 1) % 16, bip := parity body }) r.2).emit (.lineFrame (Fin.ofNat 2 p) (head ++ body))

/-- FRAME_TRANSMIT (R265). -/
def execFrameTransmit (p : Port) (s : State) : Res := .next (if s.lineEn p.val then frameTransmit p.val s else s)

end Sys2Proof.Machine
end

