-- ==== Sys2Proof/Machine/Reconf.lean ====
section
/-! DEFINITION. Holds, fences and reconfigurations of shard rings (16 R394 to R399): what starts one, its steps at the leader
and at a member, and adoption. -/
namespace Sys2Proof.Machine

open Sys2Proof

/-! ## Peers and members (R392, R395) -/

/-- What the leases say of a CIPH_PEER entry. -/
def State.mpeer (s : State) (i : Nat) : MPeer := SMap.get (fun _ => ({} : MPeer)) s.mgmt.peers i
def updMpeer (i : Nat) (f : MPeer → MPeer) (s : State) : State :=
  s.updMgmt fun m => { m with peers := SMap.modify (fun _ => ({} : MPeer)) i f m.peers }

/-- The peer is not UNREACHABLE. -/
def MPeer.up (x : MPeer) : Bool := x.lease0 || x.lease1

/-- The peer of a SEID. -/
def State.peerOf (s : State) (seid : BitVec 16) : MPeer :=
  match s.peerIx seid.toNat with | some i => s.mpeer i | none => {}

def updMgrp (g : Nat) (f : MGrp → MGrp) (s : State) : State :=
  s.updMgmt fun m => { m with grps := SMap.modify (fun _ => ({} : MGrp)) g f m.grps }

/-- A position of a group is this gateway's, or a member that it reaches and that is not declared failed. -/
def State.memberRuns (s : State) (g q : Nat) : Bool :=
  q = gtPos (s.gtCtl g) || ((s.peerOf (s.gtSeid g q)).up && !(s.peerOf (s.gtSeid g q)).failed)

/-- The position with the lowest site ID of some. -/
def State.lowSite (s : State) (g : Nat) : List Nat → Nat
  | [] => 0
  | q :: qs => qs.foldl (fun b x => if s.gtSite g x < s.gtSite g b then x else b) q

/-- The port of this gateway that faces a ring neighbour: port 0 faces p + 1, port 1 faces p − 1 (07 R174). -/
def State.nbrPos (s : State) (g port : Nat) : Nat := stepPos (gtS (s.gtCtl g)) port (gtPos (s.gtCtl g))

/-- The cut link at a port: between position CUT and CUT + 1 (Table 16.11). -/
def State.cutAt (s : State) (g port : Nat) : Nat := if port = 0 then gtPos (s.gtCtl g) else s.nbrPos g 1

/-- Ports whose ring neighbour runs with this gateway: neither fenced nor beyond the cut link. -/
def State.nbrPorts (s : State) (g : Nat) : List Nat :=
  [0, 1].filter fun p =>
    let q := s.nbrPos g p
    !(s.mgrp g).fenced.getLsbD q && (s.mgrp g).cut.map BitVec.toNat ≠ some (s.cutAt g p) && q ≠ gtPos (s.gtCtl g)

/-- A neighbour is UNREACHABLE, or the port that faces it is in SF. -/
def State.nbrLost (s : State) (g : Nat) : Bool := (s.nbrPorts g).any fun p => !(s.peerOf (s.gtSeid g (s.nbrPos g p))).up
def State.nbrSf (s : State) (sf : Nat → Bool) (g : Nat) : Bool := (s.nbrPorts g).any sf

/-! ## Holds (R394, 07 R194) -/

/-- A group enters HELD. -/
def groupHold (g : Nat) (s : State) : State :=
  if (s.grp g).st ≠ .up then s
  else
    raiseEv pgRING 0x81C 6
      (updMgrp g (fun m => { m with limitRaised := false }) (updGrp g (fun x => { x with st := .held }) s))

/-- A group leaves HELD for UP once no neighbour is UNREACHABLE and no port that faces one is in SF; it resends under R193. -/
def groupResume (sf : Nat → Bool) (g : Nat) (s : State) : State :=
  if (s.grp g).st ≠ .held || (s.mgrp g).running || s.nbrLost g || s.nbrSf sf g then s
  else resendSome (fun k _ => cwGrp k = g) (updGrp g (fun x => { x with st := .up }) s)

/-! ## Which members run (R395, R399) -/

/-- Positions from `q` on in direction +1 while they run and no cut lies between. -/
def segFrom (S : Nat) (runs : Nat → Bool) (cut : Option Nat) (q : Nat) : List Nat :=
  q :: (((List.range (S - 1)).map fun i => (q + 1 + i) % S).takeWhile fun x => runs x && cut ≠ some ((x + S - 1) % S))

/-- The chains that the running members form; one that is all of the ring where none is missing and no link is cut. -/
def segments (S : Nat) (runs : Nat → Bool) (cut : Option Nat) : List (List Nat) :=
  let starts := (List.range S).filter fun q => runs q && (!runs ((q + S - 1) % S) || cut = some ((q + S - 1) % S))
  if starts.isEmpty then [List.range S] else starts.map (segFrom S runs cut)

/-- Weight of some positions' sites in the job's span. -/
def State.posWeight (s : State) (g : Nat) (l : List Nat) : Nat :=
  s.weightOf (gtJob (s.gtCtl g)) (l.map (s.gtSite g))

/-- One side is authoritative over another: the greater weight, of equals the lowest site ID (08 R218). -/
def State.sideBeats (s : State) (g : Nat) (a b : List Nat) : Bool :=
  s.posWeight g b < s.posWeight g a ||
    (s.posWeight g a = s.posWeight g b && s.gtSite g (s.lowSite g a) < s.gtSite g (s.lowSite g b))

/-- The chain that runs: the one of greatest site weight, of equals the one with the lowest site ID (R399). -/
def State.bestChain (s : State) (g : Nat) (cut : Option Nat) : List Nat :=
  match segments (gtS (s.gtCtl g)) (s.memberRuns g) cut with
  | [] => []
  | l :: ls => ls.foldl (fun a b => if s.sideBeats g b a then b else a) l

/-- Positions newly fenced count once each (R394). -/
def setFence (g : Nat) (fenced : BitVec 16) (s : State) : State :=
  let n := popc (fenced &&& ~~~(s.mgrp g).fenced)
  bumpEv pgMGMT 0x810 3 n (updMgrp g (fun m => { m with fenced := fenced }) s)

/-! ## At a member (Table 16.3) -/

/-- Reams of a group's job, and the ream's state as PLAN sees it. -/
def State.grpReams (s : State) (g : Nat) : List Nat :=
  if s.planGrp (gtJob (s.gtCtl g)) = some g then List.range (s.nream (gtJob (s.gtCtl g))) else []
def State.reamOf (s : State) (j r : Nat) : PlReam := plReam ((s.ocbReam j r).getD [])

/-- APPLIED of a ream (08 Table 8.4). -/
def State.applied (s : State) (j r : Nat) : Nat := s.hbmNat ((s.reamOf j r).base + 0x48) 8

/-- An entry is of the group's chains: PLAN has submitted it on a wave of the job, it names a channel of the group, or it is
a built-in task of the job (log 37). -/
def State.inChains (s : State) (g : Nat) (e : Entry) : Bool :=
  let c := s.gtCtl g
  let plan := s.planGrp (gtJob c) = some g
  e.d.job.val = gtJob c &&
  (match e.src with | .cores _ => true | .fn _ => false) &&
  ((plan && s.gc.chains.any fun kv => kv.1 / 4096 = gtJob c && kv.2.any fun d => d.plain = e.d.plain) ||
   ((e.d.opcode = 4 || e.d.opcode = 5) && e.d.chan / 2 = gtGroup c) ||
   (e.d.opcode = 6 && !e.d.refetch && e.d.chan / 2 = gtGroup c && (s.replayOf e).isNone) ||
   (e.d.opcode = 10 && e.d.arg 0 8 / 2 = gtGroup c) ||
   (plan && e.d.opcode = 11 && e.d.taskId ≤ 4))

/-- The cores that run some entry are free again. -/
def freeCoresOf (e : Entry) (s : State) : State :=
  forAll ((List.range 64).filter fun c => (s.core c).task = some e.id) coreFree s

/-- Step 2: the operations of the chains end, their waves are released, copies go while reservations stay, and the gate
counters start again (R396). -/
def reconfClear (g : Nat) (s : State) : State :=
  let j := gtJob (s.gtCtl g)
  let es := s.sch.ops.filter (s.inChains g)
  let hs := if s.planGrp j = some g then (s.gc.chains.filter fun kv => kv.1 / 4096 = j).map fun kv => kv.1 % 4096 else []
  let s1 := forAll es (fun e t => stopEntry e (freeCoresOf e t)) s
  let s2 := dropGroup g (forAll hs (waveRelease j) s1)
  setGates g (s2.updGc fun x => { x with chains := x.chains.filter fun kv => !(hs.contains (kv.1 % 4096) && kv.1 / 4096 = j) })

/-- The side of a rejoining position, among those that rejoin: with it, the sites that it reached when it came back, or that reached
it (log 38). -/
def State.sideOf (s : State) (g : Nat) (back : List Nat) (q : Nat) : List Nat :=
  let reaches (a b : Nat) : Bool := (s.peerOf (s.gtSeid g a)).side.getLsbD (s.gtSite g b)
  back.filter fun x => x = q || reaches q x || reaches x q

/-- The positions of the authoritative side where a position that was fenced runs again (08 R218): one among the members that ran
here and each side that rejoins. -/
def State.authSide (s : State) (g : Nat) (fenced : BitVec 16) : Option (BitVec 16) :=
  let old := (s.mgrp g).fenced
  let run := (List.range (gtS (s.gtCtl g))).filter fun q => !fenced.getLsbD q
  let back := run.filter fun q => old.getLsbD q
  let here := run.filter fun q => !old.getLsbD q
  if back.isEmpty || here.isEmpty then none
  else
    let best := (back.map (s.sideOf g back)).foldl (fun a b => if s.sideBeats g b a then b else a) here
    some (BitVec.ofNat 16 (bitsNat best))

/-- A gateway of a side that is not authoritative forms its divergences (08 R220). -/
def mergeForm (g : Nat) (s : State) : State :=
  let j := gtJob (s.gtCtl g)
  forAll (s.grpReams g) (fun r t =>
    rootTask j 3 (r + 1 * 2 ^ 10) r (t.updOuter fun o => { o with merge := SMap.put (reamIx j r) 1 o.merge })) s

/-- Steps 2 and 3 at one member: it takes the new epoch, clears, and answers READY. -/
def reconfMember (g : Nat) (epoch : Word) (fenced : BitVec 16) (cut : Option (BitVec 4)) (leader : Nat) (s : State) : State :=
  let c := s.gtCtl g
  let auth := s.authSide g fenced
  let s1 := setFence g fenced s
  let s2 := updMgrp g (fun m =>
    { m with
      epoch := epoch, cut := cut, chain := decide (fenced ≠ 0) || cut.isSome, leader := leader, running := true, ready := []
      auth := auth, adopt := [], adopted := [], srcs := [], sends := [], limitRaised := false }) s1
  let s3 := reconfClear g (updGrp g (fun x => { x with st := .held, nbase := 0 }) s2)
  let mine : Bool := match auth with | none => true | some a => a.getLsbD (gtPos c)
  let s4 := whenD (!mine) (mergeForm g) s3
  let ap := (s4.grpReams g).map (s4.applied (gtJob c))
  if leader = gtPos c then
    updMgrp g (fun m => { m with ready := SMap.put (gtPos c) (ap.map (BitVec.ofNat 64)) m.ready }) s4
  else s4.emit (.root (s.gtSeid g leader) "READY" ([(s.gtTag g).toNat, gtGroup c, epoch.toNat, gtPos c] ++ ap))

/-! ## Adoption (R397, R398) -/

/-- Elements of a block of state: 512 slots. -/
def adoptBlk : Nat := 512 * 8192

/-- The FP32 words of an array's block. -/
def State.blkWords (s : State) (a : Option Nat) (n blk : Nat) : List Word :=
  match a with
  | none => []
  | some a => (List.range (min adoptBlk (n - blk * adoptBlk))).map fun i => s.hbmWord (a + 4 * (blk * adoptBlk + i))

/-- The arrays that an adoption copies: θ, m, and v for OUTER_ADAPT. -/
def State.adoptArrs (s : State) (j r : Nat) : Option Nat × Option Nat × Option Nat :=
  let p := s.reamOf j r
  let n := s.npad j r
  (s.reamArr j p 0 n, s.reamArr j p 8 n, if p.optim = 2 then s.reamArr j p 0x18 n else none)

/-- Arrays of a ream that adoption copies, its blocks, and its adoption chunk-waves: one for each block of each array. -/
def State.adoptList (s : State) (j r : Nat) : List Nat :=
  let a := s.adoptArrs j r
  [a.1, a.2.1, a.2.2].filterMap id
def State.adoptBlks (s : State) (j r : Nat) : Nat := ceilDiv (s.npad j r) adoptBlk
def State.adoptWaves (s : State) (j r : Nat) : Nat := s.adoptBlks j r * (s.adoptList j r).length

/-- RSEQ of adoption chunk-wave `i` of a ream: the count runs over the reams with a source, before any round of the epoch. -/
def State.adoptRseq (s : State) (g h r i : Nat) : Nat :=
  let j := gtJob (s.gtCtl g)
  let before := (List.range r).foldl (fun a q =>
    if ((s.mgrp g).srcs.getD q none).isSome then a + s.adoptWaves j q else a) 0
  h * 2 ^ 27 + (before + i) % 2 ^ 26 * 2

/-- The running positions beyond this one on half `h`, up to the source of a ream: in a ring they come round to it (R399). -/
def State.adoptOnward (s : State) (g h src : Nat) : Bool :=
  let c := s.gtCtl g
  let o := s.chainOrder g
  if (s.mgrp g).chain then (if h = 0 then o.idxOf (gtPos c) + 1 < o.length else 0 < o.idxOf (gtPos c))
  else h = 0 && stepPos (gtS c) 0 (gtPos c) ≠ src

/-- The half on which a ream's adoption comes from its source. -/
def State.adoptHalf (s : State) (g src : Nat) : Nat :=
  b2n ((s.mgrp g).chain && (s.chainOrder g).idxOf (gtPos (s.gtCtl g)) < (s.chainOrder g).idxOf src)

/-- An array's block as FP32 STORED sheets (06 R149). -/
def storedSheets (rseq : Nat) (ws : List Word) : List (List Byte) :=
  (chunks 4096 ws.length ws).zipIdx.map fun p =>
    (packSheet false .f32 p.1.length { fmt := Fmt.f32.code, body := p.1.flatMap fun w => natLE 4 w.toNat, esc := [] }
      (wd (sseqBase rseq + p.2))).1

/-- What this gateway sends on a half in an adoption: every chunk-wave of a ream whose source it is, or that goes on through it; its
own with their sheets. -/
def State.adoptSends (s : State) (g h : Nat) : List AdoptTx :=
  let j := gtJob (s.gtCtl g)
  let me := gtPos (s.gtCtl g)
  let l : List (Nat × Option (List (List Byte))) := (s.grpReams g).flatMap fun r =>
    match (s.mgrp g).srcs.getD r none with
    | none => []
    | some src =>
      if !s.adoptOnward g h src.val || (src.val ≠ me && s.adoptHalf g src.val ≠ h) then []
      else (List.range (s.adoptBlks j r)).flatMap fun b => (s.adoptList j r).zipIdx.map fun a =>
        let q := s.adoptRseq g h r (b * (s.adoptList j r).length + a.2)
        (q, if src.val = me then some (storedSheets q (s.blkWords (some a.1) (s.npad j r) b)) else none)
  l.zipIdx.map fun p => { half := h, rseq := p.1.1, place := p.2, sheets := p.1.2 }

/-- The sources of a group's reams are known: its adoptions take the first values of RSEQ and the first places of the lanes of
transfer 0, and what this gateway sends starts to go (R397). -/
def adoptStart (g : Nat) (names : List (Option (Fin 16))) (s : State) : State :=
  let j := gtJob (s.gtCtl g)
  let s1 := updMgrp g (fun m => { m with srcs := names }) s
  let n := (s1.grpReams g).foldl (fun a r => if (names.getD r none).isSome then a + s1.adoptWaves j r else a) 0
  let l (h : Nat) : List AdoptTx := s1.adoptSends g h
  adoptPump g (updMgrp g (fun m => { m with sends := l 0 ++ l 1 })
    (updGrp g (fun x => { x with nbase := n }) (s1.updRing fun r =>
      { r with gateN := SMap.set (fun _ => 0) (64 * g) (l 0).length (SMap.set (fun _ => 0) (64 * g + 32) (l 1).length r.gateN) })))

/-- Step 5: PLAN resubmits each ream from its APPLIED + 1, and the group is UP under the new epoch; a merged round that is run again
adds its divergence again (08 R220). The authoritative side of a join releases its snapshots. -/
def reconfUp (g : Nat) (s : State) : State :=
  let j := gtJob (s.gtCtl g)
  let rs := s.grpReams g
  let planned (r : Nat) : Bool := SMap.get (fun _ => false) s.outer.planned (reamIx j r)
  let first := rs.foldl (fun a r => if planned r then min a (s.applied j r + 1) else a) (2 ^ 63)
  let auth : Bool := match (s.mgrp g).auth with | none => false | some a => a.getLsbD (gtPos (s.gtCtl g))
  let s1 := whenD auth (forAll rs fun r t =>
    let p := t.reamOf j r
    if t.snapHeld p then hbmWrite (p.base + 0x50) (natLE 8 (t.hbmNat (p.base + 0x50) 8 % 2 ^ 63)) t else t) s
  let s2 := updMgrp g (fun m => { m with running := false, ready := [], auth := none, adopt := [], adopted := [] })
    (updGrp g (fun x => { x with st := .up, origin := if first = 2 ^ 63 then s.nextRound j else first }) s1)
  let again (r : Nat) (t : State) : State := t.updOuter fun o =>
    { o with
      round := SMap.put (reamIx j r) (s.applied j r) o.round
      merge := if (SMap.find o.merge (reamIx j r)).any (2 < ·) || (SMap.find o.merged (reamIx j r)).any (s.applied j r < ·) then
        SMap.put (reamIx j r) 2 o.merge else o.merge }
  let s3 := forAll rs (fun r t =>
    if planned r then rootTask j 0 r r (again r t) else if t.outer.due.contains j then t else rootTask j 0 r r t) s2
  planFirst j (bump pgMGMT 0x814 1 (s3.updMgmt fun m => { m with sstate := if m.sstate = 2 then 3 else m.sstate }))

/-- Step 4 as it reaches a member: the sources named for its reams, and their APPLIED. -/
def reconfNamed (g : Nat) (names : List (Option (Fin 16))) (ap : List DWord) (s : State) : State :=
  let c := s.gtCtl g
  let j := gtJob c
  let me := gtPos c
  let mine : Bool := match (s.mgrp g).auth with | none => true | some a => a.getLsbD me
  let name (r : Nat) : Option Nat := (names.getD r none).map Fin.val
  let takes := (s.grpReams g).filter fun r =>
    (name r).isSome && name r ≠ some me && (!mine || s.applied j r < (ap.getD r 0).toNat)
  let s1 := adoptStart g names s
  if takes.isEmpty then reconfUp g s1 else updMgrp g (fun m => { m with adopt := takes, adopted := [] }) s1

/-- The leader has every answer: for each ream the member with the highest APPLIED (on the authoritative side, where sides
join) is named as its source where another must adopt from it; of equals the lowest position (log 39). -/
def State.sources (s : State) (g : Nat) (run : List Nat) : List (Option (Fin 16)) × List DWord :=
  let m := s.mgrp g
  let ap (q r : Nat) : Nat := (((SMap.find m.ready q).getD []).getD r 0).toNat
  let inAuth (q : Nat) : Bool := match m.auth with | none => true | some a => a.getLsbD q
  let one (r : Nat) : Option (Fin 16) × DWord :=
    let cand := run.filter inAuth
    let top := cand.foldl (fun a q => max a (ap q r)) 0
    let src := (cand.find? fun q => ap q r = top).getD 0
    (if run.any fun q => q ≠ src && (!inAuth q || ap q r < top) then some (Fin.ofNat 16 src) else none, BitVec.ofNat 64 top)
  ((s.grpReams g).map fun r => (one r).1, (s.grpReams g).map fun r => (one r).2)

/-- An answer READY at the leader, or at another member what the leader has named. -/
def reconfReadyOp (g pos : Nat) (ap : List DWord) (names : List (Option (Fin 16))) (s : State) : State :=
  let m := s.mgrp g
  let c := s.gtCtl g
  let run := (List.range (gtS c)).filter fun q => !m.fenced.getLsbD q
  if !m.running || !m.adopt.isEmpty then s
  else if m.leader ≠ gtPos c then (if pos = m.leader then reconfNamed g names ap s else s)
  else if !run.contains pos || !names.isEmpty then s
  else
    let s1 := updMgrp g (fun x => { x with ready := SMap.put pos ap x.ready }) s
    if !(run.all fun q => (SMap.find (s1.mgrp g).ready q).isSome) then s1
    else
      let n := s1.sources g run
      let body := [(s.gtTag g).toNat, gtGroup c, (s.grpEpoch g).toNat] ++
        (n.1.map fun x => match x with | some q => q.val | none => 16) ++ n.2.map BitVec.toNat
      reconfNamed g n.1 n.2 (forAll (run.filter fun q => q ≠ gtPos c)
        (fun q t => t.emit (.root (s.gtSeid g q) "ADOPT" body)) s1)

/-- One array's block enters felt as a receive copy, with its RECEIPT and ACK, and goes on through this gateway; with the words
read from the copy it is written where `a` says, and freed: CREDIT (R397, 07 R188). One that is held or was freed already is
answered from memory (07 R455). -/
def adoptWave (g k : Nat) (a : Option Nat) (ws : List Word) (s : State) : State :=
  if (s.cwMem? k).isSome then repeatRecs k (bump pgRING 0x80C 1 s)
  else
    let sheets := match s.rx? k with
      | some r => if r.receipt then r.all else storedSheets (cwRseq k) ws
      | none => storedSheets (cwRseq k) ws
    let had := (s.rx? k).any fun r => r.receipt
    let r : RxCw := { nsheet := some sheets.length, tbytes := sheets.foldl (fun n b => n + b.length) 0
                      sheets := sheets.zipIdx.map (fun p => (p.2, p.1)), receipt := true, recvd := true, ack := true }
    let s1 := whenD (!had) (fun t => sendRec k 2 0 0 (bump pgRING 0x824 1 t)) (putRx k r s)
    let s2 := adoptPump g (updMgrp g (fun m =>
      { m with sends := m.sends.map fun x =>
          if x.half = cwHalf k && x.rseq = cwRseq k && x.sheets.isNone then { x with sheets := some r.all } else x }) (sendRec k 3 0 0 s1))
    let s3 := match a with
      | none => s2
      | some x => hbmWrite x (r.all.flatMap fun (b : List Byte) => b.drop 16) s2
    sendRec k 4 0 0 (s3.updRing fun x =>
      { x with rx := SMap.erase k x.rx, mem := memAdd ⟨k, cwLane k, true⟩ (s.gtDepth g) x.mem })

/-- The chunk-waves of one block of a ream's adoption arrive from its source. `write`: into the ream's arrays. -/
def adoptBlock (g src r blk : Nat) (write : Bool) (arrs : List (List Word)) (s : State) : State :=
  let l := s.adoptList (gtJob (s.gtCtl g)) r
  let h := s.adoptHalf g src
  forAll l.zipIdx (fun a t =>
    adoptWave g (cwKey g h 0 (s.adoptRseq g h r (blk * l.length + a.2))) (if write then some (a.1 + 4 * blk * adoptBlk) else none)
      (arrs.getD a.2 []) t) s

/-- One block of adoption (R397), from the ream's source: it passes through felt and goes on; at an adopting member its arrays are
written; with the ream's last block it counts, and APPLIED is the source's. While the ream's FORM has not ended nothing is taken, and
the block comes again. -/
def adoptOp (g r blk : Nat) (epoch : Word) (th m v : List Word) (applied : DWord) (s : State) : State :=
  let j := gtJob (s.gtCtl g)
  let x := s.mgrp g
  let n := s.npad j r
  let len := min adoptBlk (n - blk * adoptBlk)
  let forming := s.sch.ops.any fun e => e.d.opcode = 11 && e.d.job.val = j && e.d.taskId = 3 && e.d.mergeFn = 1 && e.d.taskReam = r
  if epoch ≠ s.grpEpoch g then
    let s1 := raiseEv pgRING 0x814 4 s
    match x.srcs.getD r none with
    | some src => epochNak g (s.gtSeid g (s.nbrPos g (1 - s.adoptHalf g src.val))) s1
    | none => s1
  else
    match x.srcs.getD r none with
    | none => s
    | some src =>
      let takes := x.running && x.adopt.contains r
      let done := SMap.get (fun _ => []) x.adopted r
      let new := takes && !done.contains blk
      if src.val = gtPos (s.gtCtl g) || s.adoptBlks j r ≤ blk || th.length ≠ len || (takes && forming) then s
      else
        let a := s.adoptArrs j r
        let arrs := (if a.1.isSome then [th] else []) ++ (if a.2.1.isSome then [m.take len] else []) ++ [v.take len]
        let s1 := adoptBlock g src.val r blk new arrs s
        if !new then s1
        else if (blk :: done).length < s.adoptBlks j r then
          updMgrp g (fun y => { y with adopted := SMap.set (fun _ => []) r (blk :: done) y.adopted }) s1
        else
          let s2 := bump pgMGMT 0x818 1 (hbmWrite ((s.reamOf j r).base + 0x48) (natLE 8 applied.toNat)
            (updMgrp g (fun y => { y with adopt := y.adopt.erase r, adopted := SMap.set (fun _ => []) r [] y.adopted }) s1))
          if (s2.mgrp g).adopt.isEmpty then reconfUp g s2 else s2

/-! ## Starting one (R395) -/

/-- A reconfiguration of a group starts with a cut link or none. At the leader RECONF goes to each member; the highest epoch
that the others report is open (log 40). At another gateway the positions that do not run are fenced. -/
def startReconf (g : Nat) (cut : Option Nat) (s : State) : State :=
  let c := s.gtCtl g
  let all := (List.range (gtS c)).filter (s.memberRuns g)
  let run := s.bestChain g cut
  let leader := s.lowSite g all
  let fenced := BitVec.ofNat 16 (bitsNat ((List.range (gtS c)).filter fun q => !run.contains q))
  let cut4 := cut.map (BitVec.ofNat 4)
  if !gtValid c || !s.grpLive g then s
  else if leader ≠ gtPos c then setFence g fenced s
  else
    let d := s.draw
    let seen := if all.length > 1 then (loW d.1).toNat else 0
    let epoch := wd (max seen (s.grpEpoch g).toNat + 1)
    let body := [(s.gtTag g).toNat, gtGroup c, epoch.toNat, fenced.toNat, match cut with | some q => q | none => 16]
    let s1 := forAll (run.filter fun q => q ≠ gtPos c) (fun q t => t.emit (.root (s.gtSeid g q) "RECONF" body)) d.2
    if !run.contains (gtPos c) then setFence g fenced (updGrp g (fun x => { x with st := .held }) s1)
    else
      let s2 := reconfMember g epoch fenced cut4 leader s1
      if run.length = 1 then reconfReadyOp g (gtPos c) (((s2.mgrp g).ready.head?.map Prod.snd).getD []) [] s2 else s2

/-- The cut in force, without one at this gateway whose port is no longer in SF. -/
def State.cutNow (s : State) (sf : Nat → Bool) (g : Nat) : Option Nat :=
  match (s.mgrp g).cut with
  | none => none
  | some q => if [0, 1].any fun p => s.cutAt g p = q.toNat && !sf p then none else some q.toNat

/-- SF of a port has cleared: groups held for it go on, and a group whose cut link it was reconfigures back to a ring (R394,
R395). -/
def sfCleared (sf : Nat → Bool) (p : Nat) (s : State) : State :=
  forAll (List.range 64) (fun g t =>
    if !gtValid (t.gtCtl g) then t
    else if (t.mgrp g).cut.map BitVec.toNat = some (t.cutAt g p) then startReconf g (t.cutNow sf g) t
    else groupResume sf g t) s

end Sys2Proof.Machine
end

