-- ==== Sys2Proof/Machine/Line.lean ====
section
/-! DEFINITION. Steps of the line ports (10): frames received, defects, performance monitoring, and the effects of writes to
the LINE pages. -/
namespace Sys2Proof.Machine

open Sys2Proof

/-! ## Receiving a frame (R269, R270, R274, R275) -/

/-- The JC of three copies: the code that at least two hold, none where no two agree or they agree on 0b11. -/
def jcOf (b : Byte) : Option Nat :=
  let c (i : Nat) : Nat := b.toNat / 4 ^ i % 4
  let v := if c 0 = c 1 || c 0 = c 2 then some (c 0) else if c 1 = c 2 then some (c 1) else none
  match v with | some 3 => none | x => x

/-- What a run of words holds from a unit boundary: whole segments and idle words, in order, and the start of one that goes
on. -/
def splitUnits : Nat → List Byte → List (List Byte) × List Byte
  | 0, b => ([], b)
  | fuel + 1, b =>
    if b.isEmpty then ([], [])
    else if b.length < unitLen b then ([], b)
    else
      let r := splitUnits fuel (b.drop (unitLen b))
      (b.take (unitLen b) :: r.1, r.2)

/-- The word at which a segment first begins after boundary `i`, by the lengths. -/
def firstStart (words : List Byte) : Nat → Nat → Option Nat
  | 0, _ => none
  | fuel + 1, i =>
    let w := (words.drop (16 * i)).take 4
    if words.length ≤ 16 * i then none
    else if allZero w then firstStart words fuel (i + 1)
    else some i

/-- A unit that a tributary has delivered: a segment for its own command; of a relayed tributary, to the other port's relay
partition, whole segments that find it full discarded. -/
def unitArrive (p t : Nat) (b : List Byte) (s : State) : State :=
  if s.relayed t then
    let q := 1 - p
    let fill := (s.port q).relay.foldl (fun a kv => a + kv.2.length) 0
    if fill + b.length > s.regF (pgLINE q) 0x1B0 0 5 * 2 ^ 30 then
      (if allZero (b.take 4) then s else raiseEv (pgLINE q) 0x838 8 s)
    else updPort q (fun l => { l with relay := SMap.put t ((SMap.find l.relay t).getD [] ++ b) l.relay }) s
  else if allZero (b.take 4) then s
  else s.emit (.segment (Fin.ofNat 2 p) t b)

/-- A tributary in step with what it is assembling, or out of step. -/
def setAsm (p t : Nat) (step : Bool) (asm : List Byte) (s : State) : State :=
  updPort p (fun l =>
    { l with
      inStep := SMap.set (fun _ => false) t step l.inStep
      asm := if asm.isEmpty then SMap.erase t l.asm else SMap.put t asm l.asm }) s

/-- Words from a boundary on. -/
def takeUnits (p t : Nat) (bytes : List Byte) (s : State) : State :=
  let r := splitUnits (bytes.length + 1) bytes
  setAsm p t true r.2 (forAll r.1 (unitArrive p t) s)

/-- A tributary's words of one frame, with its POINTER (R270). -/
def delineate (p t ptr : Nat) (words : List Byte) (s : State) : State :=
  let l := s.port p
  let resume (u : State) : State :=
    if ptr = 0xFFFF then setAsm p t false [] u else takeUnits p t (words.drop (16 * ptr)) u
  if !SMap.get (fun _ => false) l.inStep t then resume s
  else
    let asm := (SMap.find l.asm t).getD []
    let need := if asm.isEmpty then 0 else (unitLen asm - asm.length) / 16
    let start := if words.length < 16 * need then none else firstStart words (words.length + 1) need
    let want := match start with | some i => if i ≤ 65534 then i else 0xFFFF | none => 0xFFFF
    if want ≠ ptr then resume (bump (pgLINE p) 0x834 1 s)
    else takeUnits p t (asm ++ words) s

/-- One tributary of a received frame: area from the NJO bytes and the payload, by its JC. -/
def rxTrib (p f : Nat) (bytes : List Byte) (t : Nat) (s : State) : State :=
  if !s.tribOn p t then s
  else
    match (s.tribSlots p t).head? with
    | none => s
    | some lo =>
      let toh (sl o n : Nat) : List Byte := (bytes.drop (0x100 + 0x20 * sl + o)).take n
      let jc := jcOf ((toh lo 2 1).headD 0)
      let s1 := if jc.isNone then bump (pgLINE p) 0x830 1 s else s
      let just := jc.getD 0
      let njo := if just = 2 then (s.tribSlots p t).flatMap fun sl => toh sl 0x10 16 else []
      let area := njo ++ ((bytes.drop 0x500).zipIdx.filter fun b =>
        payTrib (s.linePay p) f (s.usedTrib p) (fun _ => just) b.2 = some t).map fun b => b.1
      delineate p t (leNat (toh lo 0 2)) (area.take (area.length / 16 * 16)) s1

/-- What the management channel's words hold: whole segments in order, and the start of one that goes on. Where no segment goes on, a
word without SYNC in its first byte is skipped (log 30). -/
def splitMcc : Nat → List Byte → List (List Byte) × List Byte
  | 0, b => ([], b)
  | fuel + 1, b =>
    if b.isEmpty then ([], [])
    else if b.headD 0 ≠ 0xC9 then splitMcc fuel (b.drop 16)
    else if b.length < unitLen b then ([], b)
    else
      let r := splitMcc fuel (b.drop (unitLen b))
      (b.take (unitLen b) :: r.1, r.2)

/-- The MCC field of a received frame (Table 10.3). -/
def rxMcc (p : Nat) (mcc : List Byte) (s : State) : State :=
  let b := (SMap.find (s.port p).asm 16).getD [] ++ mcc
  let r := splitMcc (b.length + 1) b
  forAll r.1 (fun x t => t.emit (.segment (Fin.ofNat 2 p) 16 x))
    (updPort p (fun l => { l with asm := if r.2.isEmpty then SMap.erase 16 l.asm else SMap.put 16 r.2 l.asm }) s)

/-- Everything that the tributaries of a port were assembling goes (R274). -/
def dropSteps (p : Nat) (s : State) : State :=
  updPort p (fun l => { l with inStep := [], asm := SMap.keep (fun k _ => k = 16) l.asm }) s

/-- The overhead of a frame (Table 10.3). -/
def rxOverhead (p : Nat) (bytes : List Byte) (at_ : DWord) (s : State) : State :=
  let l := s.port p
  let viol := match l.rxBip with | some q => popc (q ^^^ bytes.getD 9 0) | none => 0
  let hold := (bytes.getD 0xC 0).getLsbD 7
  let s1 := rxMcc p ((bytes.drop 0x40).take 128) (bump (pgLINE p) 0x82C viol (updPort p (fun x =>
    { x with
      rxBip := some (parity (bytes.drop 0x100)), bei := viol, rxTrace := (bytes.drop 0x10).take 16
      secErr := x.secErr + b2n (decide (viol > 0)), holdRx := hold }) s))
  let s2 := if l.shown = 0 then ttReceive p ((bytes.drop 0x20).take 32) at_ s1 else s1
  if hold = l.holdRx then s2
  else if hold then selEvalAll (holdForce p s2)
  else selEvalAll (holdRelease p s2)

/-- FRAME_RECEIVE (R270): nothing of a frame is found while LOS, LOL or LOF is present, and no tributary word is kept in SF. -/
def execFrameReceive (p : Port) (bytes : List Byte) (at_ : BitVec 64) (fec : FecCounts) (s : State) : Res :=
  let s1 := bump (pgLINE p.val) 0x828 fec.unc (bump (pgLINE p.val) 0x820 fec.corr s)
  .next (if !s.lineEn p.val then s
    else if bytes.length ≠ 1280 + s.linePay p.val || ((s.port p.val).shown &&& 7) ≠ 0 then s1
    else
      let s2 := rxOverhead p.val bytes at_ s1
      if s.portSf p.val then s2
      else forAll (List.range 16) (rxTrib p.val ((bytes.getD 8 0).toNat % 16) bytes) s2)

/-! ## Defects (R273, R274) -/

/-- A defect is counted and its event raised; TIM also starts a re-lock (R283, 11 R302). -/
def raiseDefect (p i : Nat) (s : State) : State :=
  if i = 4 then timRelock p (raiseCap (pgLINE p) 0x810 4 (wd (leAt (s.port p).rxTrace 1 4)) 0 s)
  else raiseEv (pgLINE p) (0x800 + 4 * defBit i) (defBit i) s

/-- The defects of a port change: what is not masked follows, and what SF brings or ends. A defect that no other masks is counted and
acted on once for each time it is set: one set while masked, when what masked it has gone (R273, R274). -/
def setDefects (p : Nat) (d : BitVec 8) (s : State) : State :=
  let l := s.port p
  let new := unmasked d &&& ~~~ l.told
  let s1 := updPort p (fun l => { l with defects := d, shown := unmasked d, told := (l.told &&& d) ||| unmasked d }) s
  let s2 := if s1.portSf p then updPort p (fun l => { l with secSf := true }) (dropSteps p s1) else s1
  forAll ((List.range 8).filter fun i => new.getLsbD i) (raiseDefect p) (selEvalAll s2)

/-- DEFECT_SET (R273). -/
def execDefectSet (p : Port) (k : Defect) (s : State) : Res :=
  let i := Defect.ix k
  let l := s.port p.val
  .next (if !s.lineEn p.val || l.defects.getLsbD i then s
    else setDefects p.val (l.defects ||| BitVec.ofNat 8 (2 ^ i)) s)

/-- A stream's messages on a port go again; one of which nothing has been sent yet is still to go (08 R226). -/
def scDefectResend (p i : Nat) (s : State) : State :=
  forAll (s.sc i).tx (fun m t =>
    let mine (q : QSeg) : Bool := q.cw = scKey i m.mseq
    if m.segs.isEmpty || (m.retx = 0 && (t.port p).segQ.countP mine = m.segs.length) then t
    else scResend i m (updPort p (fun l => { l with segQ := l.segQ.filter fun q => !mine q }) t)) s

/-- A line defect of a port has cleared: copies without a RECEIPT go again (07 R193). -/
def defectResend (p : Nat) (s : State) : State :=
  let s1 := resendSome (fun _ t => t.port = p) s
  forAll ((List.range 256).filter fun i => s1.scUp i && !scRecv (s1.scCtl i) && scPort (s1.scCtl i) = p) (scDefectResend p) s1

/-! ## Performance monitoring (R264, R280, R281) -/

/-- Network time in seconds, low 32 bits. -/
def State.nowSec (s : State) : Word := wd (s.time.nt.toNat / 1000000000)

/-- A count moved by a signed amount. -/
def natAdd (n : Nat) (d : Int) : Nat := ((n : Int) + d).toNat

/-- What one second adds to a bin: ES, SES, UAS, BBE. -/
abbrev SecAdd := Int × Int × Int × Int

def PmBin.addSec (b : PmBin) (d : SecAdd) : PmBin :=
  { b with es := natAdd b.es d.1, ses := natAdd b.ses d.2.1, uas := natAdd b.uas d.2.2.1, bbe := natAdd b.bbe d.2.2.2 }

/-- The gauges of a second (Table 10.7). -/
def PmBin.sample (b : PmBin) (g : Gauges) : PmBin :=
  let first := b.n = 0
  { b with
    n := b.n + 1
    berMin := if first || f32Lt g.ber b.berMin then g.ber else b.berMin
    berMax := if first || f32Lt b.berMax g.ber then g.ber else b.berMax
    berSum := b.berSum.add (f32Dy g.ber), osnr := b.osnr + g.osnr, dgd := b.dgd + g.dgd, cd := b.cd + g.cd, rxp := b.rxp + g.rxp
    rxpMin := if first then g.rxp else min b.rxpMin g.rxp
    rxpMax := if first then g.rxp else max b.rxpMax g.rxp }

/-- Second `i` back from now, of a bin that has held `n` seconds: the newest `n` lie in the current bin, those before them in
the newest past one. -/
def binAdd (cur : PmBin) (past : List PmBin) (n : Nat) (l : List SecAdd) : PmBin × List PmBin :=
  let c := (l.take n).foldl PmBin.addSec cur
  match past with
  | [] => (c, [])
  | b :: bs => (c, (l.drop n).foldl PmBin.addSec b :: bs)

/-- What the present second and the nine before it add, and the port's run counts after it (R280). -/
def secClass (l : LinePort) (es ses : Bool) (bbe : Nat) : SecAdd × List SecAdd × LinePort :=
  let avail : SecAdd := (b2n es, b2n ses, 0, if ses then 0 else (bbe : Int))
  if !l.unavail then
    if !ses then (avail, [], { l with sesRun := 0 })
    else if l.sesRun + 1 < 10 then (avail, [], { l with sesRun := l.sesRun + 1 })
    else ((0, 0, 1, 0), List.replicate 9 (-1, -1, 1, 0), { l with sesRun := 0, okRun := [], unavail := true })
  else if ses then ((0, 0, 1, 0), [], { l with okRun := [] })
  else if l.okRun.length + 1 < 10 then ((0, 0, 1, 0), [], { l with okRun := (es, bbe) :: l.okRun })
  else
    (avail, l.okRun.map (fun x => ((b2n x.1 : Int), (0 : Int), (-1 : Int), (x.2 : Int))), { l with okRun := [], unavail := false })

/-- One second of a port. -/
def pmSecond (p : Nat) (g : Gauges) (s : State) : State :=
  let l := s.port p
  let sf := l.secSf || s.portSf p
  let r := secClass l (sf || l.secErr > 0) (sf || l.secErr ≥ 12000) l.secErr
  let exc := s.lineLite p && (g.cd > 1600 || g.cd < -1600)
  let a := binAdd (l.bin15.addSec r.1) l.past15 l.bin15.n r.2.1
  let b := binAdd (l.bin24.addSec r.1) l.past24 l.bin24.n r.2.1
  let s1 := updPort p (fun _ =>
    { r.2.2 with
      secErr := 0, secSf := s.portSf p
      bin15 := a.1.sample g, past15 := a.2, bin24 := b.1.sample g, past24 := b.2
      ber := g.ber, osnr := g.osnr, dgd := g.dgd, cd := g.cd, rxp := g.rxp, liteOver := exc }) s
  if exc && !l.liteOver then raiseEv (pgLINE p) 0x848 11 s1 else s1

/-- PM_SECOND (R280, R281, R264). -/
def execPmSecond (p : Port) (g : Gauges) (s : State) : Res := .next (if s.lineEn p.val then pmSecond p.val g s else s)

/-- A bin as it closes: one that has not held all of its `len` seconds is SUSPECT. -/
def PmBin.closed (b : PmBin) (len : Nat) : PmBin := { b with suspect := b.suspect || decide (b.n < len) }

/-- PM_BIN_CLOSE (R281). -/
def execPmBinClose (p : Port) (day : Bool) (s : State) : Res :=
  let fresh : PmBin := { start := s.nowSec, valid := true }
  .next (updPort p.val (fun l =>
    if day then { l with bin24 := fresh, past24 := [l.bin24.closed 86400] }
    else { l with bin15 := fresh, past15 := (l.bin15.closed 900 :: l.past15).take 32 }) s)

/-- A mean of a bin's readings (log 6). -/
def PmBin.mean (b : PmBin) (x : Int) : Int := if b.n = 0 then 0 else asInt x b.n

/-- The record of a bin (Table 10.7). -/
def PmBin.word (b : PmBin) (i : Nat) : Word :=
  let two (lo hi : Int) : Word := wd (twos 16 lo + twos 16 hi * 2 ^ 16)
  match i with
  | 0 => b.start
  | 1 => wd (b2n b.valid + b2n b.suspect * 2)
  | 2 => wd b.es
  | 3 => wd b.ses
  | 4 => wd b.uas
  | 5 => wd b.bbe
  | 6 => b.berMin
  | 7 => if b.n = 0 then 0 else f32Round (b.berSum.div (Dy.ofInt b.n)) false
  | 8 => b.berMax
  | 9 => two (b.mean b.osnr) (b.mean b.dgd)
  | 10 => BitVec.ofInt 32 (b.mean b.cd)
  | 11 => two b.rxpMin b.rxpMax
  | 12 => wd (twos 16 (b.mean b.rxp))
  | _ => 0

/-- Bin BIN of LINEn_PM_IDX; one that has not been kept reads 0. -/
def LinePort.bin (l : LinePort) (i : Nat) : PmBin :=
  if i = 0 then l.bin15
  else if i ≤ 32 then l.past15.getD (i - 1) {}
  else if i = 33 then l.bin24
  else if i = 34 then l.past24.getD 0 {}
  else {}

/-! ## Writes to a LINE page (R262, R271, R275, R276, R282) -/

/-- The port is enabled or disabled: its receiver and framer start afresh, and so do its open bins. -/
def lineEnable (p : Nat) (on : Bool) (s : State) : State :=
  let bin : PmBin := { start := s.nowSec, valid := true, suspect := true }
  let s1 := updPort p (fun l =>
    { l with
      defects := 0, shown := 0, told := 0, rxBip := none, bei := 0, holdTx := false, holdMs := 0, inHold := false, holdRx := false
      inStep := [], asm := [], cur := [], curOf := [], secErr := 0, secSf := false, sesRun := 0, okRun := [], unavail := false
      liteOver := false, bin15 := if on then bin else l.bin15, bin24 := if on then bin else l.bin24 }) s
  selEvalAll (holdRelease p (laserEnable p on s1))

/-- DEFECT_CLEAR (R273, R274, R279): a defect that was masked has had no effect, and its end has none. At a disabled port of a spare
that takes over a position, the end of LOS is the light that lights the port (16 R406, log 173). -/
def execDefectClear (p : Port) (k : Defect) (s : State) : Res :=
  let i := Defect.ix k
  let l := s.port p.val
  .next (if l.defects.getLsbD i then
      let s1 := setDefects p.val (l.defects &&& ~~~ BitVec.ofNat 8 (2 ^ i)) s
      let s2 := if i = 4 then timCleared p.val s1 else s1
      let s3 := selEvalAll (holdRelease p.val (holdEnd p.val s2))
      let s4 := if l.shown.getLsbD i then defectResend p.val s3 else s3
      if s.portSf p.val && !s4.portSf p.val then sfCleared s4.portSf p.val s4 else s4
    else if k = .los && s.mgmt.sstate = 2 && !s.lineEn p.val && !l.oos then
      lineEnable p.val true (s.setReg (pgLINE p.val) 0x100 (setBit (s.lineCtl p.val) 31 true))
    else s)

/-- A write of LINEn_CTL (R262; 17 R431 for a port out of service). -/
def lineCtlWr (p : Nat) (v : Word) (s : State) : Eff :=
  let old := s.lineCtl p
  if fld v 26 2 > 1 || fld v 24 2 = 3 then .error .rsvdEnc
  else if bit old 31 && fld old 24 4 ≠ fld v 24 4 then .error .portBusy
  else if bit v 31 && !bit old 31 && (s.port p).oos then .error .portOos
  else if (List.range 15).any fun t => s.cirOver p (t + 1) (fld v 24 2) 0 then .error .cirOver
  else
    let s1 := store (pgLINE p) 0x100 0 v s
    .ok (if bit v 31 = bit old 31 then s1 else lineEnable p (bit v 31) s1)

/-- Tributary `t` of a port is RELAY; without VALID the bit has no effect (R267). -/
def State.relayOn (s : State) (p t : Nat) : Bool := bit (s.tribReg p t) 31 && bit (s.tribReg p t) 30

/-- The slots of tributary `t` after a write of `v` to LINEn_SLOTMAP word `k`. -/
def slotsAfter (p k : Nat) (v : Word) (t : Nat) (s : State) : List Nat :=
  (store (pgLINE p) (0x140 + 4 * k) 0 v s).tribSlots p t

/-- A write of LINEn_SLOTMAP: refused where it changes a tributary with a VALID channel, or a RELAY one while the port is
enabled, or makes the slots of a RELAY one differ between the ports. -/
def slotmapWr (p k : Nat) (v : Word) (s : State) : Eff :=
  let ts := (List.range 16).filter fun t => t ≠ 0 && slotsAfter p k v t s ≠ s.tribSlots p t
  let rel (q t : Nat) : Bool := s.relayOn q t
  if ts.any fun t => s.tribHasCh p t || (rel p t && s.lineEn p) then .error .chBusy
  else if ts.any fun t => (rel p t || rel (1 - p) t) && slotsAfter p k v t s ≠ s.tribSlots (1 - p) t then .error .relayMismatch
  else .ok (store (pgLINE p) (0x140 + 4 * k) 0 v s)

/-- A write of LINEn_TRIBt. -/
def tribWr (p t : Nat) (v : Word) (s : State) : Eff :=
  let old := s.tribReg p t
  if t = 0 then .ok s
  else if v ≠ old && (s.tribHasCh p t || (s.relayOn p t && s.lineEn p)) then .error .chBusy
  else if bit v 31 && bit v 30 && s.tribSlots 0 t ≠ s.tribSlots 1 t then .error .relayMismatch
  else .ok (store (pgLINE p) (0x150 + 4 * t) 0 v s)

/-- A write of LINEn_CH_CTL (R271, R282): a new entry's buckets are empty. -/
def chCtlWr (p i : Nat) (v : Word) (s : State) : Eff :=
  let old := s.chCtl p i
  let fresh (u : State) : State := updPort p (fun l =>
    { l with com := SMap.erase i l.com, peak := SMap.erase i l.peak
             defc := SMap.erase (512 + i) (SMap.erase (1024 + i) l.defc) }) u
  if bit old 31 && bit v 31 then (if v = old then .ok s else .error .chBusy)
  else if !bit v 31 then .ok (store (pgLINE p) 0x194 i v (fresh s))
  else if chTrib v = 0 then .error .valueRange
  else if s.cirOver p (chTrib v) (fld (s.lineCtl p) 24 2) (s.regF (pgLINE p) 0x198 0 20 i) then .error .cirOver
  else .ok (store (pgLINE p) 0x194 i v (fresh s))

/-- A write of LINEn_FWD_FELT. -/
def fwdFeltWr (p : Nat) (v : Word) (s : State) : Eff :=
  if v ≠ s.reg (pgLINE p) 0x1B0 && (List.range 15).any fun t => s.relayOn p (t + 1) then .error .fwdBusy
  else .ok (store (pgLINE p) 0x1B0 0 v s)

def lineEffect (p o ix : Nat) (v : DWord) (s : State) : Eff :=
  let n := pgInst p
  let w := loW v
  if o = 0x100 then lineCtlWr n w s
  else if o = 0x104 then
    (if w = s.reg p 0x104 then .ok s
     else if s.lineEn n then .error .portBusy
     else .ok (gridChanged n (store p o 0 w s)))
  else if 0x140 ≤ o && o < 0x150 then slotmapWr n ((o - 0x140) / 4) w s
  else if 0x150 ≤ o && o < 0x190 then tribWr n ((o - 0x150) / 4) w s
  else if o = 0x194 then chCtlWr n ix w s
  else if 0x198 ≤ o && o ≤ 0x1A4 then (if bit (s.chCtl n ix) 31 then .error .chBusy else .ok (store p o ix w s))
  else if o = 0x1B0 then fwdFeltWr n w s
  else if o = 0x1C4 then selCtlWr ix w s
  else .ok (store p o ix w s)

/-- What a LINE page shows. -/
def lineView (s : State) (p o ix : Nat) (v : Word) : Word :=
  let n := pgInst p
  let l := s.port n
  if o = 0x10C then
    wd (defField l.shown + b2n (s.portSf n) * 2 ^ 8 + b2n (s.portSd n) * 2 ^ 9 + b2n (l.holdTx || l.inHold) * 2 ^ 12 +
      b2n l.holdRx * 2 ^ 13)
  else if 0x12C ≤ o && o < 0x13C then wAt l.rxTrace (o - 0x12C)
  else if o = 0x1C8 then s.selStat ix
  else if 0x1D4 ≤ o && o < 0x214 then (l.bin ix).word ((o - 0x1D4) / 4)
  else if o = 0x220 then BitVec.ofInt 32 l.rxp
  else if o = 0x224 then BitVec.ofInt 32 l.osnr
  else if o = 0x228 then BitVec.ofInt 32 l.cd
  else if o = 0x22C then wd l.dgd
  else if o = 0x230 then l.ber
  else v

end Sys2Proof.Machine
end

