-- ==== Sys2Proof/Machine/Cipher.lean ====
section
/-! DEFINITION. Steps of the cipher (12): segments received, contexts, engines, sessions and attestation; and the effects of
writes to the CIPH pages. -/
namespace Sys2Proof.Machine

open Sys2Proof

/-! ## Receiving a segment (R309, R317, R318) -/

/-- Check 1: form, and a TYPE that the tributary (16: the management channel) carries. -/
def segWell (trib : Nat) (b : List Byte) : Bool :=
  let h := segHdrOf b
  32 ≤ b.length && leAt b 0 1 = 0xC9 && leAt b 0 4 / 2 ^ 12 % 16 = 0 && leAt b 8 4 / 2 ^ 8 % 256 = 0 && leAt b 0x14 4 / 2 ^ 17 = 0 &&
  h.plen ≤ 65536 && leAt b 2 2 = segWords h.ty h.plen && b.length = 16 * leAt b 2 2 &&
  (if trib = 0 then h.ty = 3 || h.ty = 5 else if trib = 16 then h.ty = 4 else h.ty = 1 || h.ty = 2)

/-- The receive context that a segment of a ring or stream channel names: its group UP or HELD, or its stream end UP, and the
channel bound to the tributary. -/
def State.rxChan (s : State) (p trib : Nat) (h : SegHdr) : Bool :=
  let bound (j : Nat) : Bool := match s.chEntry p j h.chan with | some i => decide (chTrib (s.chCtl p i) = trib) | none => false
  if h.chan < 32 then
    match s.grpOfTag h.tag h.chan with
    | some g => s.grpLive g && bound (gtJob (s.gtCtl g))
    | none => false
  else
    [true, false].any fun r => match s.scOf r h.tag h.chan with
      | some i => (s.sc i).st = 1 && scPort (s.scCtl i) = p && bound (scJob (s.scCtl i))
      | none => false

/-- The context of a segment, as an engine takes it, with its key; none fails check 2. Its spilled copy is read back with `State` after
it. -/
def State.rxCtx (s : State) (p trib : Nat) (h : SegHdr) : Option (Ctx × List Byte × State) :=
  let d : Ctx := if h.ty = 3 || h.ty = 4 then { port := p, tx := false, ltype := h.ty - 1 }
    else { port := p, tx := false, ltype := 1, jobtag := h.tag, chan := h.chan }
  if h.ty < 3 && !s.rxChan p trib h then none
  else
    let r := loadCtx (s.ctx d) s
    (s.keyFor r.1 h.sgen h.kepoch).map fun k => (k.2, k.1, r.2)

/-- The last SCNT accepted under a pair. -/
def Ctx.lastOf (c : Ctx) (sgen kepoch : Nat) : Option Nat :=
  (c.last.find? fun x => x.1 = sgen && x.2.1 = kepoch).map fun x => x.2.2

/-- An SCNT is accepted under a pair. -/
def Ctx.accept (c : Ctx) (sgen kepoch scnt : Nat) : Ctx :=
  { c with last := (sgen, kepoch, scnt) :: c.last.filter fun x => !(x.1 = sgen && x.2.1 = kepoch) }

/-- The ring records of a RECORDS segment, each for its own command. -/
def recordsIn (p : Nat) (h : SegHdr) (pt : List Byte) (s : State) : State :=
  forAll (List.range (pt.length / 32)) (fun i t =>
    let b := (pt.drop (32 * i)).take 32
    let w := leAt b 0 4
    t.emit (.ringRec (Fin.ofNat 2 p) (BitVec.ofNat 8 h.chan) (w % 16)
      { jobtag := h.tag, chan := BitVec.ofNat 8 (w / 2 ^ 24), xfer := BitVec.ofNat 5 (w / 2 ^ 8), rseq := wAt b 4
        epoch := wAt b 8, count := BitVec.ofNat 11 (leAt b 0xC 4), tbytes := wAt b 0x10 })) s

/-- The sheets of a SHEETS segment: of a chunk-wave, or of a stream. -/
def sheetsIn (p : Nat) (h : SegHdr) (pt : List Byte) (s : State) : State :=
  let sheets := cutSheets pt.length pt
  if h.chan < 32 then
    ringGuard p h.tag h.chan h.epoch (fun g t =>
      let k := cwKey g (h.chan % 2) (t.rxXfer g h.rseq.toNat) h.rseq.toNat
      forAll sheets (fun b u => sheetArrive k b u) t) s
  else
    match s.scOf true h.tag h.chan with
    | none => s
    | some i => forAll sheets (fun b t => strmSheet i b t) s

/-- The protected messages of a PROT segment, each for its own command. -/
def protSplit : Nat → List Byte → List ProtMsg
  | 0, _ => []
  | n + 1, b =>
    if b.length < 16 then []
    else
      let w := leAt b 4 4
      let len := w / 2 ^ 16
      { dst := BitVec.ofNat 16 (leAt b 0 2), src := BitVec.ofNat 16 (leAt b 2 2), kind := BitVec.ofNat 4 w
        hops := BitVec.ofNat 4 (w / 2 ^ 4), mseq := wAt b 8, body := (b.drop 16).take len } :: protSplit n (b.drop (16 + len))

/-- A management-channel frame that the root accepts: it answers with an acknowledgement; one that is an acknowledgement ends the
resends of the frame on its way (19 R453). -/
def mccFrame (p : Nat) (f : List Byte) (s : State) : State :=
  match Config.mccAckOf f with
  | some a => updPort p (fun l => { l with mccQ := l.mccQ ++ [a] }) (s.emit (.mgmtFrame (Fin.ofNat 2 p) f))
  | none => (s.updMgmt fun m => { m with mcc := vset m.mcc p 0 }).emit (.mgmtFrame (Fin.ofNat 2 p) f)

/-- What a segment that passed every check brings. -/
def segOpened (p : Nat) (h : SegHdr) (pt : List Byte) (s : State) : State :=
  let s1 := bump (pgCIPH p) 0x840 1 s
  match h.ty with
  | 1 => sheetsIn p h pt s1
  | 2 => recordsIn p h pt s1
  | 3 => forAll (protSplit pt.length pt) (fun m t => t.emit (.protRecv (Fin.ofNat 2 p) m)) s1
  | 4 => mccFrame p pt s1
  | _ => s1.emit (.handshake (64 + p) pt)

/-- SEGMENT_RECEIVE (R317): the checks of Table 12.5 in order. -/
def execSegmentReceive (p : Port) (trib : Fin 17) (bytes : List Byte) (s : State) : Res :=
  let pg := pgCIPH p.val
  let h := segHdrOf bytes
  let body := bytes.drop 32
  .next (if s.regF pg 0x100 8 4 = 0 then bump pg 0x81C 1 s
    else if !segWell trib.val bytes then raiseEv pg 0x804 1 s
    else if h.ty = 5 then segOpened p.val h (body.take h.plen) s
    else
      match s.rxCtx p.val trib.val h with
      | none => raiseEv pg 0x808 2 s
      | some (c, key, s1) =>
        let stale : Bool := match c.lastOf h.sgen h.kepoch with | some n => decide (h.scnt ≤ n) | none => false
        if h.ty ≠ 1 && stale then raiseEv pg 0x80C 3 s
        else
          let fill := (body.drop h.plen).take (fill16 h.plen).length
          match Config.gcmOpen (key.take 32) (segIv key h.scnt) (bytes.take 32) (body.take h.plen) (body.drop (body.length - 16)) with
          | none => raiseCap pg 0x800 0 (wd (h.ty + h.chan * 2 ^ 4)) (BitVec.ofNat 64 h.scnt) s1
          | some pt =>
            if !allZero fill then raiseCap pg 0x800 0 (wd (h.ty + h.chan * 2 ^ 4)) (BitVec.ofNat 64 h.scnt) s1
            else segOpened p.val h pt (putCtx (if h.ty = 1 then c else c.accept h.sgen h.kepoch h.scnt) s1))

/-- CONTEXT_LOAD (R319): a spilled context comes back; those of PROT and MGMT are always resident. -/
def execContextLoad (p : Port) (ltype : BitVec 2) (jobtag : Word) (chan : BitVec 8) (tx : Bool) (s : State) : Res :=
  let c := s.ctx { port := p.val, tx := tx, ltype := ltype.toNat, jobtag := jobtag, chan := chan.toNat }
  .next (if c.resident then s else let r := loadCtx c s; putCtx r.1 r.2)

/-! ## Engines (R320) -/

/-- Directions left without an engine by a change of CIPH_SVC. -/
def noEngine (p : Nat) (before : State) (s : State) : State :=
  let tx (t : State) : Bool := t.txEngines 0 = 0 && t.txEngines 1 = 0
  let rx (t : State) : Bool := t.regF (pgCIPH p) 0x100 8 4 = 0
  let s1 := if tx s && !tx before then raiseEv (pgCIPH p) 0x818 6 s else s
  if rx s && !rx before then raiseEv (pgCIPH p) 0x818 6 s1 else s1

/-- The segment of a copy that an engine was sealing is not in felt: while nothing of it has gone, its place is empty. -/
def sheetsLost (cw i : Nat) (s : State) : State :=
  let blank (l : List (List Byte)) : List (List Byte) := modAt l i fun _ => []
  if !(s.line.ports.any fun l => l.segQ.any fun q => q.cw = cw && q.i = i) then s
  else if cwGrp cw ≥ 64 then
    updSc (cwGrp cw - 64) (fun y =>
      { y with tx := y.tx.map fun m => if m.mseq = wd (cwRseq cw) && m.retx = 0 then { m with segs := blank m.segs } else m }) s
  else
    match s.tx? cw with
    | some t => if t.retx = 0 then putTx cw { t with segs := blank t.segs } s else s
    | none => s

/-- The segment that a tributary is sending keeps going with what is left of its tag inverted, and its content waits again, first. -/
def sendingLost (p t : Nat) (s : State) : State :=
  let l := s.port p
  let cur := (SMap.find l.cur t).getD []
  match SMap.find l.curOf t with
  | none => s
  | some u =>
    if cur.isEmpty then s
    else
      let n := cur.length - min 16 cur.length
      let bad := cur.take n ++ (cur.drop n).map fun b => ~~~ b
      updPort p (fun l =>
        let l1 := { l with cur := SMap.put t bad l.cur, curOf := SMap.erase t l.curOf }
        match u with
        | .record q => { l1 with recQ := q :: l1.recQ }
        | .prot m ts => { l1 with protQ := (m, ts) :: l1.protQ }
        | .mgmt f => { l1 with mccQ := f :: l1.mccQ }) s

/-- What becomes of the segment in an engine whose parity failed. One being opened is discarded: no SEGMENT_RECEIVE of it follows. -/
def workLost (w : EngineWork) (s : State) : State :=
  match w with
  | .sheets cw i => sheetsLost cw i s
  | .sending p t => sendingLost p.val t.val s
  | .idle | .opening => s

/-- CIPH_PARITY (R320): the engine halts, and the segment in it fails; another engine seals its content again. -/
def execCiphParity (p : Port) (e : Fin 4) (work : EngineWork) (s : State) : Res :=
  let rx := decide (work = .opening)
  let i := e.val + if rx then 8 else 0
  let r := s.reg (pgCIPH p.val) 0x100
  .next (if !bit r i then s
    else
      let s1 := noEngine p.val s (raiseEv (pgCIPH p.val) 0x810 4 (s.setReg (pgCIPH p.val) 0x100 (setBit r i false)))
      if rx then s1 else resealBlanks (workLost work s1))

/-- A write of CIPH_SVC: an engine put in service runs its known-answer test, passed where its bit of `kat` is set. -/
def ciphSvcWr (p : Nat) (v : Word) (kat : BitVec 12) (s : State) : State :=
  let old := s.reg (pgCIPH p) 0x100
  let bad := v &&& ~~~ old &&& ~~~ (kat.setWidth 32)
  let s1 := s.setReg (pgCIPH p) 0x100 (v &&& ~~~ bad)
  let s2 := forAll (setIdx bad) (fun _ t => raiseEv (pgCIPH p) 0x814 5 t) s1
  resumeSends (noEngine p s s2)

/-! ## Sessions (R313 to R315, R321 to R325) -/

/-- The digest expected of a session's far end: 8 words of CIPH_PEER_DIGEST or CIPH_LINK_DIGEST. -/
def State.sessDigest (s : State) (i : Nat) : List Byte :=
  (List.range 8).flatMap fun k =>
    natLE 4 (if i < 64 then s.reg (pgCIPH 0) (0x120 + 4 * k) i else s.reg (pgCIPH (i - 64)) (0x140 + 4 * k)).toNat

/-- The site of a SEID, where a ring-table entry names it. -/
def State.seidSite (s : State) (seid : Nat) : Option Nat :=
  (List.range 64).findSome? fun g =>
    let c := s.gtCtl g
    if !gtValid c then none
    else ((List.range (gtS c)).find? fun i => (s.gtSeid g i).toNat = seid).map fun i => s.gtSite g i

/-- A digest stands in MGMT_SPD with KIND = SPARE and the site of a SEID (16 R407). -/
def State.spareDigest (s : State) (seid : Nat) (dig : List Byte) : Bool :=
  (List.range 128).any fun i =>
    let c := s.reg pgMGMT 0x154 i
    bit c 31 && bit c 30 && s.seidSite seid = some (fld c 0 4) &&
      ((List.range 8).flatMap fun k => natLE 4 (s.reg pgMGMT (0x158 + 4 * k) i).toNat) = dig

/-- A handshake is abandoned with a REASON. A session that has a generation in force keeps it (R314, R323, log 33), but one without a
reply is FAILED (R324). -/
def kxAbandon (i reason : Nat) (s : State) : State :=
  let x := s.sess i
  let st := if reason = 6 then 5 else if x.st = 3 then 2 else if x.st = 4 then 4 else 5
  raiseCap (sessPage i) 0x828 8 (wd (i % 64 + reason * 2 ^ 6)) 0
    (updSess i (fun y => { y with st := st, reason := reason, await := 0, sends := 0 }) s)

/-- Fields of a handshake message. -/
def kxGen (m : List Byte) : Nat := leAt m 3 1 % 16
def kxSid (m : List Byte) : List Byte := (m.drop 5).take 16

/-- A well-formed message of a type, length and purpose, from the session's far end. -/
def State.kxWell (s : State) (i ty len : Nat) (m : List Byte) : Bool :=
  m.length = len && leAt m 0 1 = 1 && leAt m 1 1 = ty && leAt m 2 1 = (if i < 64 then 2 else 1) && leAt m 3 1 < 16 &&
  (i < 64 || leAt m 4 1 < 2) && leAt m 21 2 = s.sessSeid i && leAt m 23 2 = Config.seid.toNat && allZero ((m.drop 25).take 23)

/-- Checks 1 to 3 of R323 over a chain, firmware digest and SVN at offset `o`: the REASON, 0 where they pass. -/
def State.kxIdentCheck (s : State) (i o : Nat) (m : List Byte) : Nat :=
  let chain := (m.drop o).take 10650
  if !Config.chainOk chain then 1
  else if chainDigest chain ≠ s.sessDigest i && !s.spareDigest (s.sessSeid i) (chainDigest chain) then 2
  else if leAt m (o + 10650 + 32) 4 < s.regF (pgCIPH 0) 0x10C 0 16 then 3
  else 0

/-- Transcripts (R322). -/
def kxT2 (kx1 kx2 : List Byte) : List Byte := Config.shake256 (kx1 ++ kx2.take (15643 - 3309)) 32
def kxT3 (kx1 kx2 kx3 : List Byte) : List Byte := Config.shake256 (kx1 ++ kx2 ++ kx3.take 48) 32
def kxRoot (ss t3 : List Byte) : List Byte := Config.kmac256 ss t3 256 (ascii "TS9 ROOT")
def kxMacI (root t3 : List Byte) : List Byte := Config.kmac256 root t3 256 (ascii "TS9 FIN I")
def kxMacR (root t3 macI : List Byte) : List Byte := Config.kmac256 root (t3 ++ macI) 256 (ascii "TS9 FIN R")

/-- The responder answers a KX1 with KX2. -/
def kxAnswer (i : Nat) (m : List Byte) (s : State) : State :=
  let nonce := drawBytes 4 s
  let d := nonce.2.draw
  let c := Config.kemEncaps ((m.drop 80).take 1568) d.1
  let gen := kxGen m
  let part := kxHeader 2 i gen (kxSid m) (s.sessSeid i) ++ nonce.1 ++ c.1 ++ s.kxIdent
  let kx2 := part ++ Config.sign (Config.shake256 (m ++ part) 32)
  kxAwait i 3 kx2 (updSess i (fun x =>
    { x with st := stHandshake x.st, init := false, newGen := gen, sid := kxSid m, kx1 := m, kx2 := kx2, kx3 := [], ss := c.2 }) d.2)

/-- KX1_INIT (R321, R323): an INIT that crosses this end's own is ignored by the end with the lower SEID; the same INIT again
is answered with the same KX2. -/
def execKx1Init (s' : Fin 66) (msg : List Byte) (s : State) : Res :=
  let i := s'.val
  let x := s.sess i
  .next (if !s.sessOn i then s
    else if x.await = 2 && s.initiates i then s
    else if x.await = 3 && x.kx1 = msg then kxSend i x.msg s
    else if !s.kxWell i 1 12334 msg then kxAbandon i 7 s
    else
      match s.kxIdentCheck i (48 + 32 + 1568) msg with
      | 0 => kxAnswer i msg s
      | r => kxAbandon i r s)

/-- KX2_RESP (R322, R323). -/
def execKx2Resp (s' : Fin 66) (msg : List Byte) (s : State) : Res :=
  let i := s'.val
  let x := s.sess i
  .next (if x.await ≠ 2 then s
    else if !s.kxWell i 2 15643 msg || kxSid msg ≠ x.sid || kxGen msg ≠ x.newGen then kxAbandon i 7 s
    else
      match s.kxIdentCheck i (48 + 32 + 1568) msg with
      | 0 =>
        if !Config.verify ((msg.drop (48 + 32 + 1568)).take 10650) (kxT2 x.kx1 msg) (msg.drop (15643 - 3309)) then kxAbandon i 4 s
        else
          let h := kxHeader 3 i x.newGen x.sid (s.sessSeid i)
          let t3 := kxT3 x.kx1 msg h
          let root := kxRoot (Config.kemDecaps x.seed ((msg.drop 80).take 1568)) t3
          let macI := kxMacI root t3
          let kx3 := h ++ Config.sign t3 ++ macI
          kxAwait i 4 kx3 (updSess i (fun y => { y with kx2 := msg, kx3 := kx3, root := root, macI := macI }) s)
      | r => kxAbandon i r s)

/-- The link keys of a generation: PROT transmit and receive, MGMT transmit and receive (Table 12.4). -/
def linkKeys (s : State) (p : Nat) (root : List Byte) (gen : Nat) : List (List Byte) :=
  let me := Config.seid.toNat
  let q := s.linkSeid p
  [(2, true), (2, false), (3, true), (3, false)].map fun x =>
    deriveKey root (keyLabel x.1 (if x.2 then me else q) (if x.2 then q else me) 0 gen 0 0) x.1

/-- A new root key takes its key-store slot (Table 12.4). -/
def storeRoot (i gen : Nat) (root : List Byte) (s : State) : State :=
  if i < 64 then s.updCiph fun c => { c with keys := SMap.put (64 + 4 * i + gen % 4) root c.keys }
  else
    let p := i - 64
    let ks := linkKeys s p root gen
    let move (src dst : Nat) (m : SMap (List Byte)) : SMap (List Byte) :=
      match SMap.find m src with | some k => SMap.put dst k m | none => m
    s.updCiph fun c =>
      let m1 := move (16 + p) (18 + p) c.keys
      let m2 := (List.range 4).foldl (fun m k => move (4 * p + k) (8 + 4 * p + k) m) m1
      let m3 := ks.zipIdx.foldl (fun m k => SMap.put (4 * p + k.2) k.1 m) m2
      { c with keys := SMap.put (16 + p) root m3 }

/-- A context under a new generation (R313, R315): sealing begins it at KEPOCH 0 and SCNT 0, and what belongs to a generation that is no
longer kept, or to an older one of its number, goes. -/
def Ctx.renew (gen : Nat) (kept : List Nat) (c : Ctx) : Ctx :=
  let stays (g : Nat) : Bool := g ≠ gen && kept.contains g
  { c with
    sgen := gen, kepoch := 0, scnt := 0, wait := false
    keys := c.keys.filter fun k => stays k.sgen
    last := c.last.filter fun x => stays x.1 }

/-- The contexts of a session change; a spilled one is wrapped anew. -/
def ctxsMap (i : Nat) (f : Ctx → Ctx) (s : State) : State :=
  let s1 := s.updCiph fun x => { x with ctxs := x.ctxs.map fun c => if s.ctxOf i c then f c else c }
  forAll (s1.ciph.ctxs.filter fun c => s.ctxOf i c && !c.resident) spillCtx s1

/-- The new generation comes into force; segments that waited for it go on (R313 to R315). -/
def kxInstall (i : Nat) (root : List Byte) (s : State) : State :=
  let x := s.sess i
  let gens := (x.newGen :: x.gens.filter fun g => g ≠ x.newGen).take (if i < 64 then 4 else 2)
  let s1 := ctxsMap i (Ctx.renew x.newGen gens) (updSess i (fun y =>
    { y with st := 2, reason := 0, sgen := x.newGen, gens := gens, await := 0, began := s.time.nt }) (storeRoot i x.newGen root s))
  resumeSends (if x.gens.isEmpty then s1 else bump (sessPage i) 0x830 1 s1)

/-- KX3_FIN (R322 to R324): the responder switches when it sends KX4. The same FIN again is answered with the same KX4. -/
def execKx3Fin (s' : Fin 66) (msg : List Byte) (s : State) : Res :=
  let i := s'.val
  let x := s.sess i
  .next (if x.await = 0 && x.kx3 = msg && !x.init && !msg.isEmpty then kxSend i x.msg s
    else if x.await ≠ 3 then s
    else if !s.kxWell i 3 3389 msg || kxSid msg ≠ x.sid then kxAbandon i 7 s
    else
      let t3 := kxT3 x.kx1 x.kx2 msg
      let root := kxRoot x.ss t3
      let macI := msg.drop (48 + 3309)
      if !Config.verify ((x.kx1.drop (48 + 32 + 1568)).take 10650) t3 ((msg.drop 48).take 3309) then kxAbandon i 4 s
      else if macI ≠ kxMacI root t3 then kxAbandon i 5 s
      else
        let kx4 := kxHeader 4 i x.newGen x.sid (s.sessSeid i) ++ kxMacR root t3 macI
        kxInstall i root (kxAwait i 0 kx4 (updSess i (fun y => { y with kx3 := msg, root := root, macI := macI }) s)))

/-- KX4_DONE (R322, R323). -/
def execKx4Done (s' : Fin 66) (msg : List Byte) (s : State) : Res :=
  let i := s'.val
  let x := s.sess i
  .next (if x.await ≠ 4 then s
    else if !s.kxWell i 4 80 msg || kxSid msg ≠ x.sid then kxAbandon i 7 s
    else if msg.drop 48 ≠ kxMacR x.root (kxT3 x.kx1 x.kx2 x.kx3) x.macI then kxAbandon i 5 s
    else kxInstall i x.root s)

/-- HANDSHAKE_RESEND (R324): up to 5 sends, then TIMEOUT. -/
def execHandshakeResend (s' : Fin 66) (s : State) : Res :=
  let i := s'.val
  let x := s.sess i
  .next (if x.await = 0 then s
    else if x.sends < 5 then kxSend i x.msg (updSess i (fun y => { y with sends := y.sends + 1 }) s)
    else kxAbandon i 6 s)

/-- HANDSHAKE_RETRY (R314, R324): every 10 s while the session is not in force, or its renewal has failed; a session that has
none yet is opened so (log 33). -/
def execHandshakeRetry (s' : Fin 66) (s : State) : Res :=
  let i := s'.val
  let x := s.sess i
  .next (if s.sessOn i && s.initiates i && x.await = 0 && (x.st = 0 || x.st = 4 || x.st = 5 || (x.st = 2 && x.reason ≠ 0)) then
      kxStart i s
    else s)

/-- SESSION_RENEW (R314). -/
def execSessionRenew (s' : Fin 66) (s : State) : Res :=
  let i := s'.val
  .next (if s.mayRenew i then kxStart i s else s)

/-- CIPH_SESSION_STALE (R314). -/
def execCiphSessionStale (s' : Fin 66) (s : State) : Res :=
  let i := s'.val
  .next (if (s.sess i).live then raiseEv (sessPage i) 0x82C 9 (updSess i (fun x => { x with st := 4 }) s) else s)

/-- A ring group or a stream end names a SEID (R325). -/
def State.peerNamed (s : State) (seid : Nat) : Bool :=
  ((List.range 64).any fun g => gtValid (s.gtCtl g) && (List.range (gtS (s.gtCtl g))).any fun k => (s.gtSeid g k).toNat = seid) ||
  ((List.range 256).any fun k => bit (s.scCtl k) 31 && s.regF pgOUTER 0x148 0 16 k = seid)

/-- The session closes: its keys are erased, and its contexts with them. -/
def sessClose (i : Nat) (s : State) : State :=
  (updSess i (fun _ => {}) s).updCiph fun c =>
    { c with
      keys := c.keys.filter fun kv => !(64 + 4 * i ≤ kv.1 && kv.1 < 68 + 4 * i)
      ctxs := c.ctxs.filter fun x => !s.ctxOf i x }

/-- A write of CIPH_PEER_CTL (R325): a peer put in use is called at once by the initiator. -/
def peerCtlWr (i : Nat) (v : Word) (s : State) : Eff :=
  let old := s.reg (pgCIPH 0) 0x114 i
  if bit old 31 then
    if !bit v 31 then
      if s.peerNamed (fld old 0 16) then .error .peerBusy
      else
        .ok (store (pgCIPH 0) 0x114 i v ((sessClose i s).updMgmt fun m => { m with peers := SMap.erase i m.peers }))
    else if v = old then .ok s
    else .error .peerBusy
  else if bit v 31 then
    let s1 := store (pgCIPH 0) 0x114 i v (updSess i (fun _ => {}) s)
    .ok (if s1.initiates i then kxStart i s1 else s1)
  else .ok (store (pgCIPH 0) 0x114 i v s)

/-! ## Attestation (R327, Table 12.7) -/

/-- The values of every RWL register, in ascending BAR0 offset (18 R443). -/
def State.rwlBytes (s : State) : List Byte :=
  (List.range 40).flatMap fun p => ((regRows p).filter fun r => r.rwl ≠ 0).flatMap fun r => natLE 4 (s.reg p r.off).toNat

/-- A report, signed. -/
def State.attestReport (s : State) (nonce : List Byte) : List Byte :=
  let b := s.boot
  let r := natLE 4 1 ++
    natLE 4 (b2n (s.hdr pgBOOT).locked + b2n (bit (s.reg pgBOOT 0x114) 0) * 2 + b2n (decide ((b.alt ||| b.skip) ≠ 0)) * 4) ++
    nonce.take 32 ++ List.replicate (32 - nonce.length) 0 ++ identityDigest ++ Config.imageDigest s.runImage ++
    natLE 4 ((Config.imageSvn s.runImage).toNat + Config.minSvn.toNat * 2 ^ 16) ++
    natLE 4 (b.done.toNat + (b.alt ||| b.skip).toNat * 2 ^ 16) ++ Config.shake256 s.rwlBytes 32 ++
    natLE 8 (s.time.nt.toNat / 1000000000) ++ natLE 8 0
  r ++ Config.sign r

/-- ATTEST_MESSAGE (R327): answered from boot step B12 on. -/
def execAttestMessage (src : BitVec 16) (nonce : List Byte) (s : State) : Res :=
  .next (if s.boot.done.getLsbD 11 then protSend src 3 (s.attestReport nonce) none s else s)

/-! ## Writes to a CIPH page (Table 12.9) -/

/-- How the known-answer tests end is open in a register command that does not say it (log 51). -/
def ciphEffect (p o ix : Nat) (v : DWord) (s : State) : Eff :=
  let w := loW v
  if o = 0x100 then .ok (ciphSvcWr (pgInst p) w (s.draw.1.setWidth 12) s.draw.2)
  else if o = 0x114 then peerCtlWr ix w s
  else if 0x120 ≤ o && o < 0x140 then
    (if bit (s.reg (pgCIPH 0) 0x114 ix) 31 then .error .peerBusy else .ok (store p o ix w s))
  else .ok (store p o ix w s)

def sessStat (x : Sess) : Word := wd (x.st + x.reason * 2 ^ 4 + x.sgen * 2 ^ 8)

def ciphView (s : State) (p o ix : Nat) (v : Word) : Word :=
  let n := pgInst p
  if o = 0x104 then
    wd ((s.ciph.ctxs.countP fun c => c.port = n && c.resident) + 2 ^ 16 * (s.ciph.ctxs.countP fun c => c.port = n && !c.resident))
  else if o = 0x118 then sessStat (s.sess ix)
  else if o = 0x160 then sessStat (s.sess (64 + n))
  else if 0x180 ≤ o && o < 0x1A0 then wAt identityDigest (o - 0x180)
  else if o = 0x1A0 then wd (Config.imageSvn s.runImage).toNat
  else v

end Sys2Proof.Machine
end

