-- ==== Sys2Proof/Machine/Memory.lean ====
section
/-! DEFINITION. Steps of the memories and the buffer pools (14): scrub, imbalance windows, frees; and the effects of writes to
the MEM and POOL pages. -/
namespace Sys2Proof.Machine

open Sys2Proof

/-! ## Scrub (R355 to R357) -/

/-- The last unit of a memory: a pass ends with it. -/
def scrubLast (hbm : Bool) (a : Nat) : Bool := if hbm then a / 64 = hbmTop / 64 - 1 else a / 8 = lpSnapEnd / 8 - 1

/-- A corrected error (R355, 16 Table 16.5). -/
def memCe (p : Nat) (s : State) : State := if s.pageOff p then s else addCe (bump p 0x800 1 s)

/-- What a scrub step finds. -/
def scrubFinds (hbm : Bool) (a : Nat) (e : EccErr) (s : State) : State :=
  match e with
  | .none => s
  | .corrected => memCe (if hbm then pgMEM (s.hbmDie a) else pgMEM2) s
  | .uncorrectable => if hbm then hbmUe (a / 64 * 64) 4 s else lpUe (a / 8 * 8) 4 s

/-- A completed pass counts on the pages of its memory. -/
def scrubPass (hbm : Bool) (a : Nat) (s : State) : State :=
  if !scrubLast hbm a then s
  else if hbm then bump (pgMEM 1) 0x810 1 (bump (pgMEM 0) 0x810 1 s)
  else bump pgMEM2 0x810 1 s

/-- SCRUB_STEP (R357): a unit poisoned already is reported again (R356). -/
def execScrubStep (hbm : Bool) (addr : Nat) (err : EccErr) (s : State) : Res :=
  let a := addr % (if hbm then hbmTop else lpSnapEnd)
  let off := s.regF (if hbm then pgMEM (s.hbmDie a) else pgMEM2) 0x100 0 8 = 0
  let bad := if hbm then s.hbmBad a 1 else s.lpBad a 1
  .next (if off then s else scrubPass hbm a (scrubFinds hbm a (if bad then .uncorrectable else err) s))

/-! ## Imbalance (R353) -/

/-- A window is imbalanced. -/
def State.windowHot (s : State) (d : Nat) (bytes : List Nat) : Bool :=
  let r := s.reg (pgMEM d) 0x108
  let sum := bytes.foldl (· + ·) 0
  let top := bytes.foldl max 0
  let cap := (if s.mem.reduced then 32000 else 40000) * max 1 (fld r 0 16)
  4 * 96 * top > sum * (4 + fld r 16 4) && 2 * top ≥ cap

/-- HBM_IMBAL_WINDOW (R353): `port` is the requester that carried most bytes of the busiest pseudo-channel. -/
def execHbmImbalWindow (d : Die) (bytes : List Nat) (port : BitVec 3) (s : State) : Res :=
  let b := (List.range 96).map fun i => bytes.getD i 0
  let n := s.regF (pgMEM d.val) 0x108 24 8
  let x := s.mem.imbal.getD d.val {}
  let hot := s.windowHot d.val b
  let run := if hot ≠ x.state then x.run + 1 else 0
  let upd (f : Imbal → Imbal) : State := s.updMem fun m => { m with imbal := vmod m.imbal d.val fun y => { f y with bytes := b } }
  .next (if n = 0 then upd fun y => { y with run := 0 }
    else if run < n then upd fun y => { y with run := run }
    else if hot then
      raiseEv (pgMEM d.val) 0x80C 2 (upd fun y =>
        { y with state := true, run := 0, hotValid := true, hotPort := port.toNat
                 hotPc := 96 * d.val + b.idxOf (b.foldl max 0) })
    else upd fun y => { y with state := false, run := 0 })

/-! ## Pools (R361, R363) -/

/-- POOL_WAIT_SERVED (R361, R363): a free that names a buffer, its owner and generation; the buffer goes to the oldest waiting
request that it can serve. -/
def execPoolWaitServed (k : Fin 8) (i : Nat) (owner gen : BitVec 8) (s : State) : Res :=
  .next (poolFreeNamed k.val i owner.toNat gen.toNat s)

/-! ## Writes to the MEM and POOL pages (Tables 14.7, 14.13) -/

/-- An operation with STATE_MEM = 1 of a job stands in the scoreboard, or a valid LPDDR5X read region (R359). -/
def State.memBusy (s : State) (j : Nat) : Bool :=
  ((s.jobOps j).any fun e =>
    e.d.opcode = 8 && edMem (if e.edesc.isEmpty then s.edWords e.d.unit j e.d.edx else e.edesc)) ||
  (List.range 256).any fun i =>
    let c := s.reg pgSW 0x154 i
    bit c 31 && bit c 30 && fld c 24 3 = j

/-- A job's mirror or snapshot range (R359). -/
def memRangeWr (j : Nat) (snap : Bool) (v : Word) (s : State) : Eff :=
  let o := if snap then 0x204 else 0x200
  let part := if snap then lpSnapEnd - lpSnap else 640 * 2 ^ 30
  let b := fld v 0 14 * 2 ^ 26
  let n := fld v 16 14 * 2 ^ 26
  let exc := (List.range 8).any fun i =>
    let r := s.reg pgMEM2 (o + 0x10 * i)
    i ≠ j && overlaps b n (fld r 0 14 * 2 ^ 26) (fld r 16 14 * 2 ^ 26)
  if s.memBusy j then .error .memBusy
  else if n > 0 && (b + n > part || exc) then .error .memOverlap
  else .ok (store pgMEM2 (o + 0x10 * j) 0 v s)

def memEffect (p o ix : Nat) (v : DWord) (s : State) : Eff :=
  if p = pgMEM2 && o ≥ 0x200 then memRangeWr ((o - 0x200) / 0x10) (decide (o % 0x10 = 4)) (loW v) s
  else .ok (store p o ix (loW v) s)

def memView (s : State) (p o : Nat) (v : Word) : Word :=
  let d := pgInst p
  let x := s.mem.imbal.getD d {}
  if o = 0x104 then
    let n := if p = pgMEM2 then s.mem.lpPoison.length
      else (s.mem.hbmPoison.filter fun kv => s.hbmDie (kv.1 * 64) = d).length
    wd (min 0xFFFF n * 2 ^ 16 + b2n (s.mem.reduced && p ≠ pgMEM2))
  else if p ≠ pgMEM2 && o = 0x10C then wd (b2n x.hotValid * 2 ^ 31 + x.hotPort * 2 ^ 24 + x.hotPc)
  else if p ≠ pgMEM2 && 0x400 ≤ o && o < 0x580 then wd (x.bytes.getD ((o - 0x400) / 4) 0 / 65536)
  else v

/-- A pool's size (R360); its least free count follows (R364). -/
def poolSizeWr (k : Nat) (v : Word) (s : State) : Eff :=
  let sum := ((List.range 8).map fun i => if i = k then fld v 0 11 else s.regF pgPOOL (0x110 + 0x10 * i) 0 11).foldl (· + ·) 0
  if !s.pool.bufs.isEmpty then .error .poolBusy
  else if sum > 1024 then .error .poolOver
  else
    let s1 := store pgPOOL (0x110 + 0x10 * k) 0 v s
    .ok (poolSettle (poolGave k (s1.updPool fun p =>
      { p with min := SMap.modify (fun i => poolResetSize i * 4 ^ (7 - i)) k (Nat.min (s1.poolFree k)) p.min })))

/-- A pool's watermarks. -/
def poolMarkWr (o : Nat) (v : Word) (s : State) : Eff :=
  if fld v 8 8 ≤ fld v 0 8 && fld v 0 8 ≠ 0 then .error .wmarkRange else .ok (store pgPOOL o 0 v s)

def poolEffect (p o ix : Nat) (v : DWord) (s : State) : Eff :=
  let w := loW v
  if 0x110 ≤ o && o < 0x190 && o % 0x10 = 0 then poolSizeWr ((o - 0x110) / 0x10) w s
  else if 0x110 ≤ o && o < 0x190 then poolMarkWr o w s
  else .ok (poolSettle (store p o ix w s))

def poolView (s : State) (o : Nat) (v : Word) : Word :=
  let k := (o - 0x110) / 0x10
  if o = 0x100 then wd (min 0xFFFF s.pool.waiting.length + min 0xFFFF s.pool.limited.length * 2 ^ 16)
  else if 0x110 ≤ o && o < 0x190 && o % 0x10 = 4 then wd (s.poolFree k)
  else if 0x110 ≤ o && o < 0x190 && o % 0x10 = 0xC then wd (SMap.get (fun i => poolResetSize i * 4 ^ (7 - i)) s.pool.min k)
  else if o ≥ 0x200 && o % 0x10 = 4 then wd (s.poolUsed ((o - 0x200) / 0x10) / 1024)
  else v

/-- Peak and minimum registers of the pools restart from their present value (18 R448). -/
def poolSnap (s : State) : State :=
  s.updPool fun p => { p with min := (List.range 8).foldl (fun m k =>
    SMap.set (fun i => poolResetSize i * 4 ^ (7 - i)) k (s.poolFree k) m) p.min }

end Sys2Proof.Machine
end

