-- ==== Sys2Proof/Machine/ClkPwr.lean ====
section
/-! DEFINITION. Clock supervision, domains and the frequency meter, the power input and PMBus (17), and the CLK and PWR
pages. -/
namespace Sys2Proof.Machine

open Sys2Proof

/-! ## Sources (R416, R417) -/

/-- Nominal count of a source over one window, in hundredths. PPS_IN has at most one edge in a window (log 43). -/
def srcNominal (i : Nat) : Nat :=
  match i with
  | 0 => 15625 | 1 => 6400 | 3 => 1000 | 2 => Config.srcNominal 2 | _ => Config.srcNominal i

/-- A count lies within ±4% of nominal. -/
def inBand (i n : Nat) : Bool :=
  if i = 4 then n ≤ 1 else 96 * srcNominal i ≤ 10000 * n && 10000 * n ≤ 104 * srcNominal i

/-- A count against INT lies within ±15%; `nom` in hundredths. -/
def near15 (nom n : Nat) : Bool := 85 * nom ≤ 10000 * n && 10000 * n ≤ 115 * nom

/-- The count of source `i` in a window, and whether the oscillator that it is counted against is near enough. -/
def SrcCounts.of (c : SrcCounts) (i : Nat) : Nat :=
  match i with
  | 0 => c.oscA | 1 => c.oscB | 2 => c.int | 3 => c.ref10m | 4 => c.pps | 5 => c.rclk0 | _ => c.rclk1
def SrcCounts.sure (c : SrcCounts) (i : Nat) : Bool :=
  if i = 1 then near15 15625 c.oscAvsInt else near15 10000 c.oscBvsInt

/-- One source is judged. -/
def judge (c : SrcCounts) (i : Nat) (s : State) : State :=
  let good := s.clk.good.getLsbD i
  let ok := inBand i (SrcCounts.of c i)
  let bad := if !ok && SrcCounts.sure c i then s.clk.badRun.getD i 0 + 1 else 0
  let run := if ok then min 1000 (s.clk.goodRun.getD i 0 + 1) else 0
  let m := BitVec.ofNat 7 (2 ^ i)
  let s1 := s.updClk fun k =>
    { k with
      badRun := vset k.badRun i (min 2 bad), goodRun := vset k.goodRun i run
      good := if good && bad ≥ 2 then k.good &&& ~~~ m else if !good && run ≥ 1000 then k.good ||| m else k.good }
  if good && bad ≥ 2 then
    let s2 := raiseEv pgCLK 0x800 0 s1
    if s.clk.ref = i && i < 2 then failOver s2 else s2
  else s1

/-- SUPERVISOR_WINDOW (R416, R417). -/
def execSupervisorWindow (n : SrcCounts) (s : State) : Res :=
  .next (if s.pwr.st ≠ .on then s else forAll (List.range 7) (judge n) s)

/-- Writes of CLK_NMI_STAT (R418): FAULT_N is released with the last cause. -/
def nmiClear (v : Word) (s : State) : State :=
  let n := s.clk.nmi &&& ~~~ v
  let s1 := s.updClk fun c => { c with nmi := n }
  if s.clk.nmi ≠ 0 && n = 0 && !s.pwr.faultHeld then s1.emit (.pin "FAULT_N" true) else s1

/-! ## Domains (R415, R420 to R423) -/

def domFixed (d : Nat) : Bool := d < 5 || d = 7

/-- The parent of a domain that software controls (Table 17.1). -/
def domParent (d : Nat) : Nat := if d < 12 then 3 else if d < 14 then 3 else 12 + d % 2
def domChildren (d : Nat) : List Nat := if d = 12 then [14, 16] else if d = 13 then [15, 17] else []

/-- A fabric laser module or a line laser is lit. -/
def State.anyLit (s : State) : Bool :=
  (s.opt.bays.any fun b => b.fitted && (b.st = 1 || b.st = 2 || b.st = 3 || b.st = 6)) ||
  s.opt.units.any fun u => u.lasers.any fun l => l.st = 3

/-- The domain is in use (Table 17.1). -/
def State.domInUse (s : State) (d : Nat) : Bool :=
  if d = 5 || d = 6 then s.host.linkUp.getD (d - 5) false
  else if d = 8 then (List.range 12).any fun p => (s.reg (pgFAB p) 0x100 &&& 0x30000) ≠ 0
  else if d = 9 then s.anyLit
  else if d = 10 || d = 11 then bit (s.reg (pgLINE (d - 10)) 0x100) 31
  else (List.range 8).any fun j => s.jobSt j = .running

def updDom (d : Nat) (f : DomSt → DomSt) (s : State) : State := s.updClk fun c => { c with doms := vmod c.doms d f }

/-- The status with which an ACTIVE operation on a domain's blocks ends (R422); a COLLECT ends like the engines (log 46). -/
def domStatus (d : Nat) (e : Entry) : Option Nat :=
  if (d = 12 || d = 13) && e.d.unit = d - 12 then
    (match e.d.opcode with
     | 0 | 1 | 2 | 8 => some 0x13
     | 3 | 6 | 7 => some 0x1D
     | _ => none)
  else if (d = 14 || d = 15) && e.d.opcode = 11 && e.d.unit / 4 = d - 14 then some 0x25
  else none

/-- Every wave held on die `d` becomes POISONED (R422); an operation ACTIVE on one ends so (04 R116). -/
def poisonDie (d : Nat) (s : State) : State :=
  forAll (s.vat.waves.filter fun kv => kv.2.die = d) (fun kv t =>
      match t.activeOn (kv.1 / 4096) (kv.1 % 4096) d with
      | some e => poisonFault e.id kv.2 t
      | none => t)
    (s.updVat fun v => { v with slots := SMap.mapVals (fun k x => if k / 2048 = d then { x with poisoned := true } else x) v.slots })

/-- The contents of die `d`'s stacks are lost. -/
def loseHbm (d : Nat) (s : State) : State :=
  s.updMem fun m =>
    { m with
      hbm := SMap.keep (fun a _ => s.hbmDie a ≠ d) m.hbm
      hbmPoison := SMap.keep (fun u _ => s.hbmDie (u * 64) ≠ d) m.hbmPoison }

/-- A domain is held in reset. -/
def domAssert (d : Nat) (s : State) : State :=
  let s1 := forAll (s.sch.ops.filter fun e => e.st = .active) (fun e t =>
    match domStatus d e with | some n => faultOp e.id n 0 t | none => t) s
  let s2 := if d = 12 || d = 13 then poisonDie (d - 12) s1 else if d = 16 || d = 17 then loseHbm (d - 16) s1 else s1
  updDom d (fun x => { x with inReset := true }) s2

/-- The pages of a domain (18 Table 18.1). -/
def domPages (d : Nat) : List Nat := (List.range 40).filter fun p => pgDom p = d

/-- A page's registers, counters and header return to their reset values; a lock stays (18 R443). -/
def pageReset (p : Nat) (s : State) : State :=
  { s with
    regs := s.regs.filter fun kv => kv.1 / 0x10000000 ≠ p
    cnts := s.cnts.filter fun kv => kv.1 / 0x1000 ≠ p
    snaps := s.snaps.filter fun kv => kv.1 / 0x1000 ≠ p
    latch := s.latch.filter fun kv => kv.1 / 0x1000 % 128 ≠ p
    heldLo := s.heldLo.filter fun kv => kv.1 / 0x1000 % 128 ≠ p
    pages := SMap.set hdrDefault p { hdrDefault p with locked := (s.hdr p).locked } s.pages }

/-- What the blocks of a domain hold beside their pages returns to its reset value; waves stay held, POISONED (log 47). -/
def blockReset (d : Nat) (s : State) : State :=
  if d = 8 then s.updFab fun f => { f with linkUp := [], xoffSent := [], held := [], longRaised := [], qdMax := [] }
  else if d = 10 || d = 11 then
    let n := d - 10
    (updPort n (fun l => { oos := l.oos }) s).updCiph fun c => { c with ctxs := c.ctxs.filter fun x => x.port ≠ n }
  else if d = 12 || d = 13 then
    let n := d - 12
    ((s.updVat fun v => { v with acc := SMap.keep (fun k _ => k / 8192 / 2048 ≠ n) v.acc }).updEng fun x =>
      { x with qbs := SMap.keep (fun k _ => k / 2 ≠ n) x.qbs }).updSheet fun x =>
      { x with cbs := SMap.keep (fun k _ => k / 2 ≠ n) x.cbs, streams := SMap.keep (fun k _ => k / 16 ≠ n) x.streams }
  else if d = 14 || d = 15 then
    let n := d - 14
    s.updGc fun g => { g with cores := SMap.keep (fun k _ => k / 32 ≠ n) g.cores, exc := vset g.exc n [] }
  else if d = 16 || d = 17 then s.updMem fun m => { m with imbal := vset m.imbal (d - 16) {} }
  else s

/-- A domain leaves reset with its blocks at their reset values (R422). -/
def domRelease (d : Nat) (s : State) : State :=
  updDom d (fun x => { x with inReset := false }) (blockReset d (forAll (domPages d) pageReset s))

/-! ## CLK_CMD (Table 17.10) -/

/-- GATE, UNGATE, RESET_ASSERT, RESET_RELEASE and FORCE_SWITCH on a domain; its status, and the state after. An OP or an ARG that Table
17.10 reserves ends with BAD_ARG on every domain. -/
def domCmd (op d arg : Nat) (s : State) : Nat × State :=
  let x := s.dom d
  if !([1, 2, 3, 4, 6].contains op) || (op = 6 && arg > 1) then (7, s)
  else if domFixed d then (4, s)
  else
    match op with
    | 1 =>
      if s.domInUse d then (3, s)
      else if (domChildren d).any fun c => !(s.dom c).gated then (2, s)
      else (0, updDom d (fun y => { y with gated := true }) s)
    | 2 => if (s.dom (domParent d)).gated then (2, s) else (0, updDom d (fun y => { y with gated := false }) s)
    | 3 => if s.domInUse d && !x.hung then (3, s) else (0, domAssert d s)
    | 4 => if x.inReset then (0, domRelease d s) else (5, s)
    | 6 =>
      if !x.inReset then (5, s)
      else (0, updDom d (fun y => { y with byp := decide (arg = 1), hung := false }) s)
    | _ => (7, s)

/-- SET_SRC (R421): with the old clock stopped the command runs until CLK_SWITCH_HANG. -/
def setSrcCmd (d arg : Nat) (stopped : Bool) (s : State) : Nat × State :=
  if arg > 1 then (7, s)
  else if domFixed d then (4, s)
  else if stopped || (s.dom d).hung then
    (1, (updDom d (fun y => { y with switching := true }) s).updClk fun c => { c with busy := true, hang := some (d, decide (arg = 1)) })
  else (0, updDom d (fun y => { y with byp := decide (arg = 1) }) s)

/-- REF_SELECT (R419). -/
def refSelectCmd (arg : Nat) (s : State) : Nat × State :=
  if arg > 1 then (7, s)
  else if !s.clk.good.getLsbD arg then (6, s)
  else (0, s.updClk fun c => { c with ref := arg })

/-- A CLK_CMD; `stopped`: the clock that a SET_SRC leaves has stopped. -/
def clkCmdWr (v : Word) (stopped : Bool) (s : State) : Eff :=
  let d := fld v 8 5
  let op := fld v 0 4
  let arg := fld v 16 2
  if s.clk.busy then .error .busyCmd
  else
    let r : Nat × State :=
      if d > 17 then (7, s)
      else if op = 5 then setSrcCmd d arg stopped s
      else if op = 7 then refSelectCmd arg s
      else domCmd op d arg s
    .ok (r.2.updClk fun c => { c with status := r.1 })

/-- CLK_SWITCH_HANG (R421). -/
def execClkSwitchHang (s : State) : Res :=
  .next (match s.clk.hang with
    | none => s
    | some (d, _) =>
      raiseEv pgCLK 0x808 2
        ((updDom d (fun y => { y with switching := false, hung := true }) s).updClk fun c =>
          { c with busy := false, hang := none, status := 8 }))

/-! ## Frequency meter (R425, R426) -/

def fmTargetOk (t : Nat) : Bool := t ≤ 17 || (24 ≤ t && t ≤ 29)

/-- CLK_FM_CTL (Table 17.12). -/
def fmCtlWr (v : Word) (s : State) : Eff :=
  if !fmTargetOk (fld v 0 5) then .error .rsvdEnc
  else
    let s1 := s.setReg pgCLK 0x180 (v &&& 0x31F)
    let s2 := s1.updClk fun c => { c with fmDone := c.fmDone && !bit v 30 }
    .ok (if bit v 31 && !s.clk.fmGo then s2.updClk fun c => { c with fmGo := true, fmFail := false } else s2)

/-- CLK_FM_DONE (R425). -/
def execClkFmDone (count : DWord) (refFailed : Bool) (s : State) : Res :=
  .next (if !s.clk.fmGo then s
    else raiseEv pgCLK 0x80C 3 (s.updClk fun c =>
      { c with fmGo := false, fmDone := true, fmFail := refFailed, fmCount := if refFailed then 0 else count }))

/-- CLK_FM_OUT (R426). -/
def fmOutWr (v : Word) (s : State) : Eff :=
  match fmClaim (bit v 31) s with
  | .error e => .error e
  | .ok t => .ok ((t.setReg pgCLK 0x190 v).updClk fun c => { c with fmClaim := bit v 31 })

/-! ## The CLK page (Table 17.9) -/

/-- Whether the clock that a SET_SRC leaves has stopped is open in a register command that does not say it (log 51). -/
def clkEffect (p o ix : Nat) (v : DWord) (s : State) : Eff :=
  if o = 0x108 then clkCmdWr (loW v) (s.draw.1.getLsbD 0) s.draw.2
  else if o = 0x110 then .ok (nmiClear (loW v) s)
  else if o = 0x180 then fmCtlWr (loW v) s
  else if o = 0x190 then fmOutWr (loW v) s
  else .ok (store p o ix (loW v) s)

def clkView (s : State) (o : Nat) (v : Word) : Word :=
  let c := s.clk
  if o = 0x100 then wd c.ref
  else if o = 0x104 then wd c.good.toNat
  else if o = 0x10C then wd (b2n c.busy * 2 ^ 31 + c.status)
  else if o = 0x110 then c.nmi
  else if 0x120 ≤ o && o < 0x168 then
    let d := s.dom ((o - 0x120) / 4)
    wd (b2n d.gated + b2n d.inReset * 2 + b2n d.byp * 2 ^ 4 + b2n d.switching * 2 ^ 8 + b2n d.hung * 2 ^ 9)
  else if o = 0x180 then wd (v.toNat % 2 ^ 29 + b2n c.fmFail * 2 ^ 29 + b2n c.fmDone * 2 ^ 30 + b2n c.fmGo * 2 ^ 31)
  else if o = 0x188 then loW c.fmCount
  else if o = 0x18C then hiW c.fmCount
  else if o = 0x190 then setBit v 31 c.fmClaim
  else v

/-! ## Power (R427 to R429) -/

/-- The bits of PMBus STATUS_WORD (PMBus 1.4; log 48). -/
def Pwr.word (p : Pwr) : Nat :=
  b2n p.cml * 2 + b2n (p.stTemp ≠ 0) * 4 + b2n (fldN p.stInput 4 1 = 1) * 8 + b2n (p.stInput ≠ 0) * 2 ^ 13

/-- PMB_ALERT_N follows STATUS_WORD (19 Table 19.3). -/
def updPmb (f : Pwr → Pwr) (s : State) : State :=
  let s1 := s.updPwr f
  if s.pwr.word = 0 && s1.pwr.word ≠ 0 then s1.emit (.pin "PMB_ALERT_N" false)
  else if s.pwr.word ≠ 0 && s1.pwr.word = 0 then s1.emit (.pin "PMB_ALERT_N" true)
  else s1

/-- FAULT_N is asserted. -/
def State.faultN (s : State) : Bool := s.clk.nmi ≠ 0 || s.pwr.faultHeld

/-- The rails are down in a state that keeps none of its own (R427, R428). -/
def powerDown (st : PwrSt) (s : State) : State :=
  let s1 := { s.flashOnly with
    pwr := { st := st, rails := 0, addr := s.pwr.addr, enable := s.pwr.enable, cml := s.pwr.cml, stInput := s.pwr.stInput
             stTemp := s.pwr.stTemp, faultHeld := decide (st = PwrSt.fault) } }.emit .reset
  if s.faultN && st ≠ .fault then s1.emit (.pin "FAULT_N" true) else s1

/-- INPUT_RISE (R427, 19 R452). -/
def execInputRise (mv : Nat) (addr : BitVec 3) (s : State) : Res :=
  .next (if s.pwr.st = .off && mv > 38000 then s.updPwr fun p => { p with st := .standby, addr := addr } else s)

/-- INPUT_LOSS (R427). -/
def execInputLoss (s : State) : Res :=
  .next (if s.pwr.st = .off then s
    else updPmb (fun p => { p with cml := false, stInput := 0, stTemp := 0 }) (powerDown .off s))

/-- ENABLE_RISE (R427, Table 17.4): the root comes up and B1 starts. -/
def execEnableRise (mv : Nat) (s : State) : Res :=
  let s1 := s.updPwr fun p => { p with enable := true }
  .next (if s.pwr.st ≠ .standby then s1
    else if mv < 40000 then updPmb (fun p => { p with stInput := p.stInput ||| 0x10 }) s1
    else if mv > 59500 then updPmb (fun p => { p with stInput := p.stInput ||| 0x80 }) s1
    else moduleReset s1)

/-- ENABLE_FALL (R428). -/
def execEnableFall (s : State) : Res :=
  let s1 := s.updPwr fun p => { p with enable := false }
  .next (if s.pwr.st = .off || s.pwr.st = .standby then s1 else powerDown .standby s1)

/-- A shutdown (R429): the non-maskable event, the PFAULT record and FAULT. -/
def shutDown (cause : Nat) (s : State) : State :=
  let s1 := nmi cause s
  powerDown .fault (s1.updBoot fun b =>
    ledgerAdd { bootNo := b.bootNo, step := 0, kind := 3, detail := wd (2 ^ cause) } b)

/-- POWER_FAULT (R429). -/
def execPowerFault (k : PwrFault) (s : State) : Res :=
  let inp (b : Nat) (t : State) : State := updPmb (fun p => { p with stInput := p.stInput ||| b }) t
  let tmp (b : Nat) (t : State) : State := updPmb (fun p => { p with stTemp := p.stTemp ||| b }) t
  .next (if s.pwr.st ≠ .on then s
    else
      match k with
      | .uvWarn => raiseEv pgPWR 0x800 0 (inp 0x20 s)
      | .uv => shutDown 8 (inp 0x10 s)
      | .ov => shutDown 8 (inp 0x80 s)
      | .oc => shutDown 8 (inp 0x04 s)
      | .stage => shutDown 8 s
      | .thermWarn => raiseEv pgPWR 0x804 1 (tmp 0x40 s)
      | .thermShut => shutDown 9 (tmp 0x80 s))

/-- The readings of the PWR page are taken anew (log 49); they read zero outside ON. -/
def pwrSample (s : State) : State :=
  if s.pwr.st ≠ .on then s.updPwr fun p => { p with vin := 0, iin := 0, pin := 0, tj := 0 }
  else
    let a := s.draw
    let b := a.2.draw
    b.2.updPwr fun p =>
      { p with vin := loW a.1, iin := hiW a.1, pin := loW b.1, tj := hiW b.1 &&& 0x00FFFFFF }

/-- The number of a power state (Table 17.3, Table 17.13; log 45). -/
def PwrSt.num : PwrSt → Nat
  | .off => 0 | .standby => 1 | .powering => 2 | .on => 3 | .fault => 4

def pwrView (s : State) (o : Nat) (v : Word) : Word :=
  match o with
  | 0x100 => wd (s.pwr.st.num + s.pwr.rails * 2 ^ 8)
  | 0x104 => s.pwr.vin
  | 0x108 => s.pwr.iin
  | 0x10C => s.pwr.pin
  | 0x110 => s.pwr.tj
  | _ => v

/-! ## PMBus (R430, Table 17.6) -/

/-- The answer to a PMBus command, while input is present. -/
def pmbAns (code : Nat) (data : List Byte) (s : State) : State := if s.pwr.st = .off then s else s.emit (.pmbus code data)

/-- A reading in LINEAR11: zero outside ON; in ON what the sensor reads is open (log 49). -/
def pmbRead (code : Nat) (s : State) : State :=
  if s.pwr.st = .on then pmbAns code (natLE 2 (s.draw.1.toNat % 2 ^ 16)) s.draw.2 else pmbAns code [0, 0] s

/-- CLEAR_FAULTS. -/
def execClearFaults (s : State) : Res :=
  .next (if s.pwr.st = .off then s else updPmb (fun p => { p with cml := false, stInput := 0, stTemp := 0 }) s)
/-- STATUS_WORD. -/
def execStatusWord (s : State) : Res := .next (pmbAns 0x79 (natLE 2 s.pwr.word) s)
/-- STATUS_INPUT. -/
def execStatusInput (s : State) : Res := .next (pmbAns 0x7C (natLE 1 s.pwr.stInput) s)
/-- STATUS_TEMPERATURE. -/
def execStatusTemperature (s : State) : Res := .next (pmbAns 0x7D (natLE 1 s.pwr.stTemp) s)
/-- READ_VIN. -/
def execReadVin (s : State) : Res := .next (pmbRead 0x88 s)
/-- READ_IIN. -/
def execReadIin (s : State) : Res := .next (pmbRead 0x89 s)
/-- READ_TEMPERATURE_1. -/
def execReadTemperature1 (s : State) : Res := .next (pmbRead 0x8D s)
/-- READ_TEMPERATURE_2. -/
def execReadTemperature2 (s : State) : Res := .next (pmbRead 0x8E s)
/-- READ_PIN. -/
def execReadPin (s : State) : Res := .next (pmbRead 0x97 s)
/-- PMBUS_REVISION. -/
def execPmbusRevision (s : State) : Res := .next (pmbAns 0x98 [0x44] s)
/-- MFR_ID: a block read of "FELWICK". -/
def execMfrId (s : State) : Res := .next (pmbAns 0x99 [7, 0x46, 0x45, 0x4C, 0x57, 0x49, 0x43, 0x4B] s)
/-- MFR_MODEL: a block read of "FM-TS9-M1A". -/
def execMfrModel (s : State) : Res :=
  .next (pmbAns 0x9A [10, 0x46, 0x4D, 0x2D, 0x54, 0x53, 0x39, 0x2D, 0x4D, 0x31, 0x41] s)

/-- The codes of Table 17.6. -/
def pmbCodes : List Nat := [0x03, 0x79, 0x7C, 0x7D, 0x88, 0x89, 0x8D, 0x8E, 0x97, 0x98, 0x99, 0x9A]

/-- PMBUS_UNSUPPORTED. -/
def execPmbusUnsupported (code : Byte) (s : State) : Res :=
  .next (if s.pwr.st = .off || pmbCodes.contains code.toNat then s else updPmb (fun p => { p with cml := true }) s)

end Sys2Proof.Machine
end

