-- ==== Sys2Proof/Machine/Felt.lean ====
section
/-! DEFINITION. Reads of felt copies (14 R356, Table 14.3): resends and EXPAND. Felt addresses name no copy, so which copy a
poisoned unit of felt has hit is open where it is read (log 41). -/
namespace Sys2Proof.Machine

open Sys2Proof

/-- A unit of felt is poisoned (14 Table 14.4). -/
def State.feltBad (s : State) : Bool := s.mem.lpPoison.any fun kv => kv.1 * 8 < lpCapture

/-- A felt copy is read: whether it meets a poisoned unit. -/
def feltRead (s : State) : Bool × State := if s.feltBad then (s.draw.1.getLsbD 0, s.draw.2) else (false, s)

/-- A read that meets poison reports it again (R356). -/
def feltUe (s : State) : State :=
  match s.mem.lpPoison.find? fun kv => kv.1 * 8 < lpCapture with
  | some kv => lpUe (kv.1 * 8) 3 s
  | none => s

/-- A copy of a group's chunk-wave is lost: no longer resent, and the group reconfigures (16 R395). -/
def feltLost (k : Nat) (s : State) : State :=
  let s1 := raiseEv pgMEM2 0x808 1 (feltUe (s.updRing fun r => { r with tx := SMap.erase k r.tx, rx := SMap.erase k r.rx }))
  startReconf (cwGrp k) (s1.cutNow s1.portSf (cwGrp k)) s1

/-- A replay whose COPY write lies in a poisoned pool buffer (14 Table 14.3): its first address and length. -/
def State.replayBad (s : State) (e : Entry) : Option (Nat × Nat) :=
  match s.replayOf e with
  | none => none
  | some i => s.poolBad .mirror i.key

/-- An EXPAND reads a copy: before its ACK a lost sheet of a receive copy is DAMAGED; a copy that its sender no longer holds
is lost. -/
def expandFelt (e : Entry) (s : State) : State :=
  match s.replayBad e with
  | some x => reportHbm x.1 x.2 3 (faultOp e.id 0x1F 0 s)
  | none =>
  match s.expandCw e with
  | none => expandOp e s
  | some k =>
    if (s.replayOf e).isSome || !s.cwComplete k then expandOp e s
    else
      let r := feltRead s
      if !r.1 then expandOp e r.2
      else
        match r.2.rx? k with
        | some x =>
          if x.ack then feltLost k r.2
          else
            let n := (loW r.2.draw.1).toNat % max 1 x.sheets.length
            expandOp e (putRx k { x with sheets := SMap.erase n x.sheets } (feltUe r.2.draw.2))
        | none => feltLost k r.2

/-- An EXPAND that replays a COPY write has its pool buffers (16 R403, 14 Table 14.6). -/
def State.replayFed (s : State) (e : Entry) : Bool :=
  match s.replayOf e with
  | none => true
  | some i => s.poolHas .mirror i.key

/-- EXPAND (06 R158 to R166). -/
def execExpand (d : Die) (s : State) : Res :=
  .next (codecIssue d.val (fun e => e.d.opcode = 6 && !e.d.refetch && s.replayFed e) expandFelt s)

/-- RESEND_TIMER (07 R193, 08 R226): a chunk-wave's, or that of a stream's message (`grp` = 64 + end, `rseq` = MSEQ). A lost
message of a stream is no longer resent. -/
def execResendTimer (cw : CwId) (s : State) : Res :=
  .next (if cw.grp ≥ 64 then
      match (s.sc (cw.grp - 64)).tx.find? fun m => m.mseq = cw.rseq with
      | some m =>
        if !m.timer then s
        else
          let r := feltRead s
          if r.1 then
            raiseEv pgMEM2 0x808 1 (feltUe (updSc (cw.grp - 64) (fun x => { x with tx := x.tx.filter fun y => y.mseq ≠ m.mseq }) r.2))
          else scResend (cw.grp - 64) m r.2
      | none => s
    else
      match s.tx? (CwId.key cw) with
      | some t =>
        if t.timer = .resend && !t.receipt && !t.freed then
          let r := feltRead s
          if r.1 then feltLost (CwId.key cw) r.2 else rttCheck cw.grp t.port (resendCw (CwId.key cw) r.2)
        else s
      | none => s)

end Sys2Proof.Machine
end

