-- ==== Sys2Proof/Machine/Mgmt.lean ====
section
/-! DEFINITION. Leases, reconfiguration messages, the buddy mirror, spares, health and the management network (16), and the
MGMT page. -/
namespace Sys2Proof.Machine

open Sys2Proof

/-! ## Which groups a peer is in -/

/-- VALID groups with a member of a SEID. -/
def State.groupsWith (s : State) (seid : BitVec 16) : List Nat :=
  (List.range 64).filter fun g =>
    gtValid (s.gtCtl g) && (List.range (gtS (s.gtCtl g))).any fun q => s.gtSeid g q = seid

/-- A member of that SEID stands at a fenced position of the group. -/
def State.fencedIn (s : State) (g : Nat) (seid : BitVec 16) : Bool :=
  (List.range (gtS (s.gtCtl g))).any fun q => s.gtSeid g q = seid && (s.mgrp g).fenced.getLsbD q

/-- It is a ring neighbour that runs with this gateway. -/
def State.neighbours (s : State) (g : Nat) (seid : BitVec 16) : Bool :=
  (s.nbrPorts g).any fun p => s.gtSeid g (s.nbrPos g p) = seid

/-- The SEID and VALID bit of a CIPH_PEER entry. -/
def State.peerSeid (s : State) (i : Nat) : BitVec 16 := BitVec.ofNat 16 (s.regF (pgCIPH 0) 0x114 0 16 i)
def State.peerValid (s : State) (i : Nat) : Bool := bit (s.reg (pgCIPH 0) 0x114 i) 31

/-- A reconfiguration with the cut in force. -/
def reconfNow (g : Nat) (s : State) : State := startReconf g (s.cutNow s.portSf g) s

/-! ## Leases (R391 to R393) -/

/-- The low 64 bits of a digest. -/
def digLow (d : List Byte) : Nat := leNat (d.take 8)

/-- A spare that takes over sends its CLAIM once the sessions of every peer are open (R406). -/
def claimSend (s : State) : State :=
  let ps := (List.range 64).filter s.peerValid
  if s.mgmt.sstate ≠ 2 || s.mgmt.claimed || ps.isEmpty || !(ps.all fun i => (s.sess i).live) then s
  else
    let tk := s.regF pgMGMT 0x138 0 16
    forAll ps (fun i t => t.emit (.root (s.peerSeid i) "CLAIM" (tk :: identityDigest.map BitVec.toNat)))
      (s.updMgmt fun m => { m with claimed := true })

/-- HEARTBEAT_SEND (R391). -/
def execHeartbeatSend (s : State) : Res :=
  let q := s.mgmt.hbseq + 1
  let s1 := s.updMgmt fun m => { m with hbseq := q }
  let body := natLE 2 Config.seid.toNat ++ natLE 2 s.site ++ natLE 4 q.toNat ++ natLE 2 s.reach.toNat ++
    natLE 2 s.mgmt.health
  let dest := (List.range 64).filter fun i => s.peerValid i && ((s.sess i).live || (s.sess i).st = 4)
  .next (claimSend (forAll dest (fun i t => protSend (s.peerSeid i) 3 body none t) s1))

/-- A peer has left UNREACHABLE: groups held for it go on, and one in which it is fenced takes it back (R392, R395). -/
def peerBack (seid : BitVec 16) (failed : Bool) (s : State) : State :=
  forAll (s.groupsWith seid) (fun g t =>
    if t.fencedIn g seid then whenD (!failed) (reconfNow g) t else groupResume t.portSf g t) (bump pgMGMT 0x804 1 s)

/-- HEARTBEAT (R392): a copy that arrives on a port renews the lease of its route; the first one after UNREACHABLE shows the peer's
side (08 R218). -/
def execHeartbeat (p : Port) (h : HeartMsg) (s : State) : Res :=
  .next (match s.peerIx h.seid.toNat with
    | none => s
    | some i =>
      let x := s.mpeer i
      let s1 := updMpeer i (fun y =>
        { y with
          lease0 := y.lease0 || p = 0, lease1 := y.lease1 || p = 1, site := h.site.toNat, hbseq := h.hbseq
          side := if x.up then y.side else h.reach
          reach := h.reach, health := h.health }) s
      if x.up then s1
      else peerBack h.seid x.failed
        (s1.updMgmt fun m => { m with lost := m.lost &&& ~~~ BitVec.ofNat 16 (2 ^ h.site.toNat) }))

/-- Every VALID peer of a site is UNREACHABLE (R392): counted once. -/
def siteLost (i : Nat) (s : State) : State :=
  let ps := (List.range 64).filter fun k => s.peerValid k && (s.mpeer k).site = i
  if s.mgmt.lost.getLsbD i || ps.any fun k => (s.mpeer k).up then s
  else raiseEv pgMGMT 0x808 1 (s.updMgmt fun m => { m with lost := m.lost ||| BitVec.ofNat 16 (2 ^ i) })

/-- LEASE_EXPIRY (R392, R394). -/
def execLeaseExpiry (peer : Fin 64) (r : Port) (s : State) : Res :=
  let x := s.mpeer peer.val
  let s1 := updMpeer peer.val (fun y =>
    { y with lease0 := y.lease0 && r ≠ 0, lease1 := y.lease1 && r ≠ 1 }) s
  .next (if !x.up || (s1.mpeer peer.val).up then s1
    else
      let seid := s.peerSeid peer.val
      let gs := (s1.groupsWith seid).filter fun g => s1.neighbours g seid
      siteLost x.site (forAll gs groupHold (raiseEv pgMGMT 0x800 0 s1)))

/-- PORT_SF_HOLD (R394): groups with a ring neighbour on the port. -/
def execPortSfHold (p : Port) (s : State) : Res :=
  .next (if !s.portSf p.val then s
    else forAll ((List.range 64).filter fun g => gtValid (s.gtCtl g) && (s.nbrPorts g).contains p.val) groupHold s)

/-- MGMT_HOLD_LIMIT (R394, R395): with a neighbour UNREACHABLE it is fenced; else the link in SF is the cut (Table 16.2). -/
def execMgmtHoldLimit (g : Fin 64) (s : State) : Res :=
  let m := s.mgrp g.val
  .next (if (s.grp g.val).st ≠ .held || m.running || m.limitRaised then s
    else
      let s1 := raiseEv pgMGMT 0x80C 2 (updMgrp g.val (fun x => { x with limitRaised := true }) s)
      let cut := if s1.nbrLost g.val then none else (((s1.nbrPorts g.val).find? s1.portSf).map (s1.cutAt g.val))
      startReconf g.val (cut <|> s1.cutNow s1.portSf g.val) s1)

/-! ## Messages of a reconfiguration (R395 to R398, R401, R402) -/

/-- RECONF at a member (R396); one of the epoch in force has been followed. -/
def execReconf (g : Fin 64) (epoch : Word) (fenced : BitVec 16) (cut : Option (BitVec 4)) (s : State) : Res :=
  let c := s.gtCtl g.val
  let leader := s.lowSite g.val ((List.range (gtS c)).filter fun q => !fenced.getLsbD q)
  .next (if !gtValid c || !s.grpLive g.val || fenced.getLsbD (gtPos c) then s
    else if epoch = s.grpEpoch g.val then s
    else if epoch.toNat < (s.grpEpoch g.val).toNat then epochNak g.val (s.gtSeid g.val leader) (bump pgMGMT 0x81C 1 s)
    else reconfMember g.val epoch fenced cut leader s)

/-- RECONF_READY (R396, R397). -/
def execReconfReady (g : Fin 64) (pos : Fin 16) (applied : List DWord) (names : List (Option (Fin 16))) (s : State) : Res :=
  .next (reconfReadyOp g.val pos.val applied names s)

/-- ADOPTION_SHEETS (R397). -/
def execAdoptionSheets (g : Fin 64) (ream : Fin 1024) (blk : Nat) (epoch : Word) (theta m v : List Word) (applied : DWord)
    (s : State) : Res :=
  .next (adoptOp g.val ream.val blk epoch theta m v applied s)

/-- The leader of a group as this gateway sees it: the member with the lowest site ID among those that it reaches (R395). -/
def State.leaderPos (s : State) (g : Nat) : Nat :=
  s.lowSite g ((List.range (gtS (s.gtCtl g))).filter (s.memberRuns g))

/-- LEADER_JOIN_REQUEST (R402): a trigger of R395 at the leader. -/
def execLeaderJoinRequest (g : Fin 64) (_pos : Fin 16) (s : State) : Res :=
  .next (if gtValid (s.gtCtl g.val) && s.leaderPos g.val = gtPos (s.gtCtl g.val) then reconfNow g.val s else s)

/-- CLAIM (R407): accepted from a gateway whose digest stands in MGMT_SPD as a spare of the SEID's site; it holds the position from
then on. -/
def execClaim (seid : BitVec 16) (digest : List Word) (s : State) : Res :=
  let dig := digest.flatMap fun w => natLE 4 w.toNat
  .next (if !s.spareDigest seid.toNat dig then s
    else
      let s1 := match s.peerIx seid.toNat with
        | some i => updMpeer i (fun y => { y with failed := false, holder := some (BitVec.ofNat 64 (digLow dig)) }) s
        | none => s
      forAll (s1.groupsWith seid) reconfNow s1)

/-- EPOCH_NAK (R402): named as the holder, the gateway asks the leader to join; else it has been replaced. -/
def execEpochNak (g : Fin 64) (epoch : Word) (holder : BitVec 16) (digest : DWord) (s : State) : Res :=
  let c := s.gtCtl g.val
  .next (if !gtValid c || !s.grpLive g.val || epoch.toNat ≤ (s.grpEpoch g.val).toNat then s
    else if holder = Config.seid && digest.toNat = digLow identityDigest then
      let others := (List.range (gtS c)).filter fun q => q ≠ gtPos c && s.memberRuns g.val q
      s.emit (.root (s.gtSeid g.val (s.lowSite g.val others)) "JOIN" [(s.gtTag g.val).toNat, gtGroup c, gtPos c])
    else
      raiseEv pgMGMT 0x820 4 (dropGroup g.val (updGrp g.val (fun x => { x with st := .refused, reason := 6 }) s)))

/-! ## The buddy mirror (R403, R404) -/

/-- The mirrored position's OCB: its address, reams, and a ream's real elements, slots and entry. -/
def State.mirOcb (s : State) (j : Nat) : Nat := (s.reg64 pgMGMT (0x200 + 0x10 * j)).toNat
def State.mirNream (s : State) (j : Nat) : Nat := if s.mirOcb j = 0 then 0 else s.hbmNat (s.mirOcb j) 4 % 2048
def State.mirNpad (s : State) (j r : Nat) : Nat := pad4096 (leAt (s.mirReam j r) 8 8 % 2 ^ 36)
def State.mirSlots (s : State) (j r : Nat) : Nat := ceilDiv (s.mirNpad j r) 8192
def State.mirWaves (s : State) (j g r : Nat) : Nat := ceilDiv (s.mirSlots j r) (max 1 (s.gtVslots g))

/-- A block with STATE_BASE in LPDDR5X: SGD, NESTEROV and ADAPT (R403). -/
def PlReam.inLp (p : PlReam) : Bool := p.optim ≤ 2

def State.mirRead (s : State) (p : PlReam) (o n : Nat) : List Byte :=
  if p.inLp then s.lpRead (p.base + o) n else s.hbmRead (p.base + o) n
def mirWrite (p : PlReam) (o : Nat) (bs : List Byte) (s : State) : State :=
  if p.inLp then lpWrite (p.base + o) bs s else hbmWrite (p.base + o) bs s
def State.mirNat (s : State) (p : PlReam) (o n : Nat) : Nat := leNat (s.mirRead p o n)
/-- A part of a mirror block lies in the job's mirror range, or in its HBM range (R359, R403). -/
def State.mirIn (s : State) (j : Nat) (p : PlReam) (o n : Nat) : Bool :=
  if p.inLp then s.mirOk false j (p.base + o) n else s.hbmOk j (p.base + o) n

/-- Where wave number `n` of a chunk lies among reams of `k` waves each. -/
def placeIn (k : Nat → Nat) : List Nat → Nat → Option (Nat × Nat)
  | [], _ => none
  | r :: rs, n => if n < k r then some (r, n) else placeIn k rs (n - k r)

/-- Waves of chunk `c` of the mirrored position in one round, and the place of wave number `n`. -/
def State.mirPer (s : State) (j g c : Nat) : Nat :=
  (List.range (s.mirNream j)).foldl (fun a r => a + chunkWaves (gtS (s.gtCtl g)) c (s.mirWaves j g r)) 0
def State.mirPlace (s : State) (j g c n : Nat) : Option (Nat × Nat) :=
  let per := s.mirPer j g c
  if per = 0 then none
  else placeIn (fun r => chunkWaves (gtS (s.gtCtl g)) c (s.mirWaves j g r)) (List.range (s.mirNream j)) (n % per)

/-- COPY writes that never arrived, seen as a gap in RSEQ (R404): the reams of waves `a` to `b` − 1 become invalid. -/
def mirGap (j g c a b : Nat) (s : State) : State :=
  forAll (List.range (min (b - a) (s.mirPer j g c))) (fun i t =>
    match t.mirPlace j g c (a + i) with | some (r, _) => mirInvalid j r t | none => t) s

/-- The mirror block's header at the first write of a round: RN, P1, P2 and ROUND as PLAN writes them (08 R206, R211), and
the round before it as APPLIED (log 42). -/
def mirHeader (j round : Nat) (p : PlReam) (s : State) : State :=
  let old := s.mirNat p 0x40 8
  if old = round || !s.mirIn j p 0 0x1000 then s
  else
    let n := (s.roundSet j).foldl (fun a i => a + s.siteNs j i) 0
    let hp := s.hpAddr j p.hpset
    let pw (o b : Nat) : List Byte := natLE 4 (plPow (old = 0) (wd (s.mirNat p o 4)) (s.hbmWord (hp + b))).toNat
    let s1 := mirWrite p 0x30 (natLE 4 (f32Div f32One (f32OfNat n)).toNat) (mirWrite p 0x40 (natLE 8 round ++ natLE 8 (round - 1)) s)
    if p.optim ≠ 2 then s1 else mirWrite p 0x34 (pw 0x34 8) (mirWrite p 0x38 (pw 0x38 0xC) s1)

/-- A free wave handle of the job, from PLAN's own choice up (log 7). -/
def State.mirHandle (s : State) (j r w : Nat) : Nat :=
  let h := (Config.planWave j r w 2).toNat
  ((List.range 4096).map fun i => (h + i) % 4096).find? (fun x => !s.waveInUse j x) |>.getD h

/-- The replay's APPLY chain (R212 with NORET = 1), its last step releasing the wave. -/
def mirApply (j r w d wv ebase vslots : Nat) (p : PlReam) (s : State) : List PlStep × State :=
  let e (i : Nat) := s.plEdx d j r w i
  let mem (ws : List Word) : List Word := if p.inLp then setBit (ws.getD 0 0) 7 true :: ws.drop 1 else ws
  let up (i : Nat) (last : Bool) : PlStep := { op := 8, unit := d, wave := wv, arg := e i, release := last }
  if p.optim = 15 then
    ([{ op := 11, unit := 4 * d + w % 4, wave := wv, release := true, arg := p.utask + r * 2 ^ 8 }], s)
  else if p.optim = 3 then
    let n := 2 ^ (6 + p.ocl)
    let m := 8192 * vslots / n
    let a := p.base + s.hbmNat (p.base + 8) 8 + 4 * ebase * 8192
    let c := p.base + s.hbmNat (p.base + 0x18) 8 + 4 * ebase * 8192
    let b := s.hbmNat (s.mirOcb j + 8) 8 + w % 4 * (8 * min m n * min m n + 4 * m * n)
    ([up 28 false, { op := 8, unit := d, wave := 0, arg := e 29 }, up 30 true],
     putEdesc d j (e 28) (edUpd p 3 true) (putEdesc d j (e 29) (edNs m n a b c) (putEdesc d j (e 30) (edUpd p 4 true) s)))
  else ([up 28 true], putEdesc d j (e 28) (mem (edUpd p p.optim true)) s)

/-- The replay of one write: its descriptors are kept with the ream, and submitted. -/
def mirReplay (j : Job) (g r w c round : Nat) (rseq : Word) (data : List Byte) (s : State) : State :=
  let p := plReam (s.mirReam j.val r)
  let v := s.gtVslots g
  let vs := min v (s.mirSlots j.val r - w * v)
  let d := w % 2
  let wv := s.mirHandle j.val r w
  let s1 := mirHeader j.val round p s
  let s2 := putEdesc d j.val (s1.plEdx d j.val r w 27) (edRot true) s1
  let ap := mirApply j.val r w d wv (w * v) vs p s2
  let ds := ap.2.plChain j r w 26 none
    ([{ op := 6, unit := d, wave := wv, vslots := vs, arg := argExpand (2 * gtGroup (s.gtCtl g) + c % 2) rseq.toNat },
      { op := 1, unit := d, wave := wv, arg := ap.2.plEdx d j.val r w 27 }] ++ ap.1)
  match ds with
  | [] => s
  | ex :: _ =>
    let key := s.mgmt.intakeNo
    let i : Intake := { key := key, job := j, ream := r, wave := w, vmax := v, vslots := vs, npad := s.mirNpad j.val r, round := round, rseq := rseq
                        sheets := cutSheets data.length data, d := ex.plain }
    let s3 := ap.2.updMgmt fun m =>
      { m with
        intake := m.intake ++ [i], intakeNo := key + 1
        replays := m.replays ++ ds.map fun x => (x.plain, 1024 * j.val + r) }
    forAll ds (fun x t => submitCore 0 x true t) (poolReq .mirror key (some j) data.length s3)

/-- MIRROR_INTAKE (R401, R403, R404). Writes of a ream whose mirror is invalid are dropped until it is refreshed. -/
def execMirrorIntake (j : Job) (epoch : Word) (rseq : Word) (data : List Byte) (s : State) : Res :=
  .next (match s.planGrp j.val with
    | none => s
    | some g =>
      if s.mirNream j.val = 0 then s
      else if epoch ≠ s.grpEpoch g then
        epochNak g (BitVec.ofNat 16 (s.regF pgMGMT 0x134 0 16)) (bump pgMGMT 0x81C 1 s)
      else
        let c := rseq.toNat / 2 ^ 27
        let n := rseq.toNat / 2 % 2 ^ 26 - (s.grp g).nbase
        let key := 32 * j.val + c
        let want := (SMap.get (fun _ => (0 : Word)) s.mgmt.mirNext key).toNat
        let s1 := mirGap j.val g c want n (s.updMgmt fun m =>
          { m with mirNext := SMap.set (fun _ => (0 : Word)) key (wd (n + 1)) m.mirNext })
        match s1.mirPlace j.val g c n with
        | none => s1
        | some (r, i) =>
          if !SMap.get (fun _ => true) s1.mgmt.mirValid (1024 * j.val + r) then s1
          else mirReplay j g r (c + 2 * gtS (s.gtCtl g) * i) c ((s.grp g).origin + n / s1.mirPer j.val g c) rseq data s1)

/-- A ream's θ, m and v (for OUTER_ADAPT) go whole over a COPY queue pair (R404). -/
def refreshSend (j r : Nat) (s : State) : State :=
  match (s.mirrorQp j).bind fun k => SMap.find s.fab.qps k with
  | none => s
  | some q =>
    let n := s.npad j r
    let a := s.adoptArrs j r
    let arr (o : Option Nat) : List Byte := match o with | some x => s.hbmRead x (4 * n) | none => []
    bump pgMGMT 0x828 1
      (rdmaWrite 18 q.qpn q.copyVa.toNat q.copyKey (arr a.1 ++ arr a.2.1 ++ arr a.2.2) none s)

/-- The refreshed arrays of a mirror ream arrive: it is valid again. -/
def refreshArrive (j r : Nat) (th m v : List Word) (s : State) : State :=
  let p := plReam (s.mirReam j r)
  let put (f : Nat) (ws : List Word) (t : State) : State :=
    let o := t.mirNat p f 8
    if ws.isEmpty || o = 0 || !t.mirIn j p o (4 * ws.length) then t
    else mirWrite p o (ws.flatMap fun w => natLE 4 w.toNat) t
  if s.mirNream j ≤ r then s
  else (put 0x18 v (put 8 m (put 0 th s))).updMgmt fun x =>
    { x with mirValid := SMap.set (fun _ => true) (1024 * j + r) true x.mirValid }

/-- Every ream of every enabled job with a COPY queue pair is refreshed. -/
def refreshAll (s : State) : State :=
  forAll (List.range 8) (fun j t => if (t.mirrorQp j).isSome then forAll (List.range (t.nream j)) (refreshSend j) t else t) s

/-- SPARE_MIRROR_REQUEST (R406): the buddy of the position writes each mirror block to the spare, over the COPY queue pair to
that SEID. -/
def execSpareMirrorRequest (seid : BitVec 16) (s : State) : Res :=
  let block (j : Nat) (q : Qp) (r : Nat) (t : State) : State :=
    let p := plReam (t.mirReam j r)
    let n := t.mirNpad j r
    let arr (f : Nat) : List Byte := let o := t.mirNat p f 8; if o = 0 then [] else t.mirRead p o (4 * n)
    rdmaWrite 18 q.qpn q.copyVa.toNat q.copyKey (arr 0 ++ arr 8 ++ (if p.optim = 2 then arr 0x18 else [])) none t
  .next (if s.regF pgMGMT 0x134 0 16 ≠ seid.toNat then s
    else forAll (List.range 8) (fun j t =>
      match t.fab.qps.find? fun kv => kv.2.job.val = j && kv.2.role = 5 && kv.2.dest = seid.toNat with
      | none => t
      | some kv => forAll (List.range (t.mirNream j)) (block j kv.2) t) s)

/-! ## Spares (R405 to R410) -/

def State.isSpare (s : State) : Bool := bit (s.reg pgMGMT 0x130) 31
def State.thr (s : State) : Nat := s.regF pgMGMT 0x144 0 16

/-- A spare that was made READY is READY while its score is below THR (R405). -/
def State.spareReady (s : State) : Bool := s.isSpare && s.mgmt.sstate = 1 && s.mgmt.health < s.thr

/-- The conditions of R405 for SPARE_READY. -/
def State.maySpare (s : State) : Bool :=
  s.isSpare && s.boot.done.getLsbD 11 && s.mgmt.sstate ≤ 1 && s.mgmt.health < s.thr &&
  !((List.range 64).any fun g => gtValid (s.gtCtl g))

/-- Residuals start at zero (03 R22). -/
def zeroResiduals (s : State) : State :=
  forAll (s.outer.ocb.map Prod.fst) (fun j t => forAll (List.range (t.nream j)) (fun r u =>
    let p := u.reamOf j r
    let o := u.hbmNat (p.base + 0x10) 8
    let n := 2 * u.npad j r
    if o ≠ 0 && u.hbmOk j (p.base + o) n then hbmWrite (p.base + o) (List.replicate n 0) u else u) t) s

/-- TAKEOVER at a READY spare (R406): the line system and the buddy are asked, and it is the buddy of the position's MIRROR_OF,
from an invalid mirror (R404). -/
def takeoverOp (s : State) : State :=
  let tk := s.regF pgMGMT 0x138 0 16
  let s1 := raiseEv pgMGMT 0x82C 6 (s.updMgmt fun m => { m with sstate := 2, grantOpen := false, claimed := false })
  let s2 := (s1.emit (.root 0 "SPARE_REQUEST" [tk])).emit
    (.root (BitVec.ofNat 16 (s.regF pgMGMT 0x134 16 16)) "MIRROR_REQUEST" [tk])
  forAll (List.range 8) (fun j t => forAll (List.range (t.mirNream j)) (mirInvalid j) t) (zeroResiduals s2)

/-- PEER_FAIL (R394, R395). -/
def peerFailOp (i : Nat) (s : State) : State :=
  let seid := s.peerSeid i
  forAll ((s.groupsWith seid).filter fun g => !s.fencedIn g seid) reconfNow (updMpeer i (fun y => { y with failed := true }) s)

/-- PEER_CLEAR (R394, R395). -/
def peerClearOp (i : Nat) (s : State) : State :=
  let seid := s.peerSeid i
  let s1 := updMpeer i (fun y => { y with failed := false }) s
  if (s.mpeer i).up then forAll ((s.groupsWith seid).filter fun g => s.fencedIn g seid) reconfNow s1 else s1

/-- MGMT_CMD (Table 16.9): status and state. -/
def mgmtCmdRun (v : Word) (s : State) : Nat × State :=
  let i := fld v 8 6
  match fld v 0 3 with
  | 1 => if s.peerValid i then (0, peerFailOp i s) else (3, s)
  | 2 => if s.peerValid i then (0, peerClearOp i s) else (3, s)
  | 3 => if s.spareReady then (0, takeoverOp s) else (2, s)
  | 4 => if s.maySpare then (0, s.updMgmt fun m => { m with sstate := 1 }) else (2, s)
  | 5 => (0, refreshAll s)
  | _ => (3, s)

def mgmtCmdWr (v : Word) (s : State) : Eff :=
  if s.mgmt.busy then .error .busyCmd
  else
    let r := mgmtCmdRun v s
    .ok (r.2.updMgmt fun m => { m with status := r.1 })

/-- MIRROR_REFRESH of a buddy's request, or as it arrives there (R404). -/
def mirrorRefreshMsg (req : MirrorReq) (s : State) : State :=
  match req with
  | .cmd _ _ => s
  | .buddy j r => if r.val < s.nream j.val then refreshSend j.val r.val s else s
  | .arrive j r th m v => refreshArrive j.val r.val th m v s

/-- MGMT_TAKEOVER_FAIL (R408). -/
def execMgmtTakeoverFail (s : State) : Res :=
  .next (if s.mgmt.sstate ≠ 2 then s else raiseEv pgMGMT 0x830 7 (s.updMgmt fun m => { m with sstate := 1 }))

/-- HEALTH_DECAY (R409). -/
def execHealthDecay (s : State) : Res := .next (s.updMgmt fun m => { m with health := m.health / 2 })

/-- EXPEL_REQ at the spare (R410). -/
def execExpelReq (seid : BitVec 16) (s : State) : Res :=
  let recent : Bool := match s.mgmt.lastGrant with
    | none => false
    | some t => decide ((s.time.nt - t).toNat < 600000000000)
  .next (if !s.isSpare then s
    else if s.spareReady && !recent then
      raiseEv pgMGMT 0x838 9
        ((s.updMgmt fun m => { m with lastGrant := some s.time.nt, grantOpen := true }).emit (.root seid "EXPEL_GRANT" []))
    else s.emit (.root seid "EXPEL_DENY" []))

/-- MGMT_EXPEL: the grant reaches the member (R410). -/
def execMgmtExpel (s : State) : Res :=
  .next (if !s.mgmt.expelAsked then s
    else raiseEv pgMGMT 0x838 9 (s.updMgmt fun m => { m with expelAsked := false, expelDenied := false }))

/-- MGMT_HEALTH_ALARM: the denial reaches the member (R410). -/
def execMgmtHealthAlarm (s : State) : Res :=
  .next (if !s.mgmt.expelAsked then s
    else raiseEv pgMGMT 0x834 8 (s.updMgmt fun m => { m with expelAsked := false, expelDenied := true }))

/-- EXPEL_RETRY (R410). -/
def execExpelRetry (s : State) : Res :=
  .next (if !s.mgmt.expelDenied then s
    else if s.thr ≠ 0 && s.thr ≤ s.mgmt.health then
      (s.updMgmt fun m => { m with expelAsked := true, expelDenied := false }).emit
        (.root (BitVec.ofNat 16 (s.regF pgMGMT 0x130 0 16)) "EXPEL_REQ" [s.mgmt.health])
    else s.updMgmt fun m => { m with expelDenied := false })

/-- MGMT_EXPEL_LAPSED (R410): a grant without a TAKEOVER. -/
def execMgmtExpelLapsed (s : State) : Res :=
  .next (if !s.mgmt.grantOpen then s else bump pgMGMT 0x83C 1 (s.updMgmt fun m => { m with grantOpen := false }))

/-! ## The management network (R411, 19 R453) -/

/-- MGMT_PORT_DOWN (R411). -/
def execMgmtPortDown (p : Port) (s : State) : Res :=
  .next (raiseEv pgMGMT 0x840 10 (s.updMgmt fun m => { m with portUp := vset m.portUp p.val false }))

/-- MCC_RESEND (R453): a frame goes again, up to 8 times; then the message goes over the management network. -/
def execMccResend (f : MccFrame) (s : State) : Res :=
  let p := f.port.val
  let n := s.mgmt.mcc.getD p 0
  .next (if n < 8 then
      bump pgMGMT 0x844 1 (updPort p (fun l => { l with mccQ := l.mccQ ++ [f.bytes] })
        (s.updMgmt fun m => { m with mcc := vset m.mcc p (n + 1) }))
    else (raiseEv pgMGMT 0x848 11 (s.updMgmt fun m => { m with mcc := vset m.mcc p 0 })).emit (.mgmtNet f.bytes))

/-! ## The MGMT page (Table 16.7) -/

def mgmtEffect (p o ix : Nat) (v : DWord) (s : State) : Eff :=
  let ring := (List.range 64).any fun g => gtValid (s.gtCtl g)
  if o = 0x108 then mgmtCmdWr (loW v) s
  else if (o = 0x130 || o = 0x134) && ring then .error .mgmtBusy
  else if o = 0x130 && !bit (loW v) 31 && s.mgmt.sstate = 1 then
    .ok (store p o ix (loW v) (s.updMgmt fun m => { m with sstate := 0 }))
  else if o ≥ 0x200 then .ok (storePair p o ix v s)
  else .ok (store p o ix (loW v) s)

def mgmtView (s : State) (o ix : Nat) (v : Word) : Word :=
  let m := s.mgrp ix
  let x := s.mpeer ix
  if o = 0x104 then
    let st := if s.mgmt.sstate = 1 && !s.spareReady then 0 else s.mgmt.sstate
    wd (b2n s.isSpare + st * 2 + b2n (s.mgmt.portUp.getD 0 false) * 2 ^ 8 + b2n (s.mgmt.portUp.getD 1 false) * 2 ^ 9)
  else if o = 0x10C then wd (b2n s.mgmt.busy * 2 ^ 31 + s.mgmt.status)
  else if o = 0x114 then
    wd (x.site * 2 ^ 16 + b2n x.failed * 2 ^ 4 + b2n x.lease1 * 2 ^ 3 + b2n x.lease0 * 2 ^ 2 + b2n x.lease0 + b2n x.lease1)
  else if o = 0x118 then wd s.reach.toNat
  else if o = 0x124 then
    let cut := match m.cut with | some q => 2 ^ 24 + q.toNat * 2 ^ 20 | none => 0
    wd (b2n m.chain * 2 ^ 31 + cut + m.leader % 16 * 2 ^ 16 + m.fenced.toNat)
  else if o = 0x128 then m.epoch
  else if o = 0x140 then wd (min 0xFFFF s.mgmt.health)
  else v

end Sys2Proof.Machine
end

