-- ==== Sys2Proof/Machine/Bus.lean ====
section
/-! DEFINITION. Register accesses (00 R7, R8, 15 R372 to R374, 18 R438 to R448): what an offset names, who may access it, page
headers, pairs, counters and snapshots, and the page that a register's write acts on. -/
namespace Sys2Proof.Machine

open Sys2Proof

/-! ## What an offset names (15 Table 15.4) -/

/-- What a BAR0 offset names. -/
inductive Target where
  /-- A register page and an offset within it. -/
  | page (p o : Nat)
  /-- Word `k` of the MSI-X table entry of vector `v` of the accessing function. -/
  | msix (v k : Nat)
  /-- Word `k` of its PBA. -/
  | pba (k : Nat)
  | none
  deriving DecidableEq, Repr

/-- What an offset of the function's own pages names, from the base of its HOST_F page and of its MSI-X table. -/
def ownTarget (f hostf msix off : Nat) : Target :=
  if hostf ≤ off ∧ off < hostf + 0x1000 then .page (pgHOSTF f) (off - hostf)
  else if msix ≤ off ∧ off < msix + 0x400 then .msix ((off - msix) / 16) ((off - msix) % 16 / 4)
  else if msix + 0x8000 ≤ off ∧ off < msix + 0x8008 then .pba ((off - msix - 0x8000) / 4)
  else .none

/-- What an offset of the PF layout names to `w`: the layout of a register command, and of the root. -/
def pfTarget (w : Who) (off : Nat) : Target :=
  if off % 4 ≠ 0 then .none
  else
    match pgAt off with
    | some (p, o) => .page p o
    | none =>
      match w with
      | .root => .none
      | .func f => ownTarget f.val 0x3FE0000 0x3FF0000 off

/-- What a BAR0 offset names to `w`. -/
def barTarget (w : Who) (off : Nat) : Target :=
  match w with
  | .func f => if isPf f.val then pfTarget w off else if off % 4 ≠ 0 then .none else ownTarget f.val 0 0xF0000 off
  | .root => pfTarget w off

/-! ## The classes (15 R372, Table 15.3) -/

/-- A job register of job `j` may be written by `f`. -/
def State.jobMay (s : State) (f j : Nat) : Bool := s.owns f j && s.jobOpen j

/-- The job in whose engine-descriptor partition an entry lies. -/
def State.edtJob (s : State) (d ix : Nat) : Option Nat :=
  (List.range 8).find? fun j => s.edtBase d j ≤ ix && ix < s.edtBase d j + s.edtSize d j

/-- Whether the class lets `w` write `v` to offset `o`. -/
def State.mayWrite (s : State) (w : Who) (p o : Nat) (r : RegRow) (ix : Nat) (v : Word) : Bool :=
  match w with
  | .root => true
  | .func f =>
    let ctrl := decide (f.val = s.ctrlPf)
    match r.cls with
    | .module => ctrl || (s.inRecovery && isPf f.val)
    | .grant => ctrl
    | .jobN => s.jobMay f.val (r.copy o)
    | .function => decide (p = pgHOSTF f.val)
    | .ownIdx => true
    | .idxDiv k => s.jobMay f.val (ix / k)
    | .entryJob ctl lo =>
      let c := s.reg p ctl ix
      (!bit c 31 || s.jobMay f.val (fld c lo 3)) && (o ≠ ctl || s.jobMay f.val (fld v lo 3))
    | .edt => (match s.edtJob (pgInst p) ix with | some j => s.jobMay f.val j | none => ctrl)
    | .counter => (match s.ctrJob ix with | some j => s.jobMay f.val j | none => ctrl)

/-- Whether the class lets `w` read offset `o`. -/
def State.mayRead (s : State) (w : Who) (p o : Nat) (r : RegRow) (ix : Nat) : Bool :=
  match w with
  | .root => true
  | .func f =>
    match r.cls with
    | .module => isPf f.val
    | .grant => decide (f.val = s.ctrlPf) || (s.jobSt (r.copy o) ≠ .free && s.owner (r.copy o) = f.val)
    | .jobN => s.owns f.val (r.copy o)
    | .function => decide (p = pgHOSTF f.val)
    | .ownIdx => true
    | .idxDiv k => s.owns f.val (ix / k)
    | .entryJob ctl lo => let c := s.reg p ctl ix; !bit c 31 || s.owns f.val (fld c lo 3)
    | .edt => (match s.edtJob (pgInst p) ix with | some j => s.owns f.val j | none => isPf f.val)
    | .counter => (match s.ctrJob ix with | some j => s.owns f.val j | none => isPf f.val)

/-- Whether `w` may write, or only read, the header of page `p` (18 R439); counters are read alike. -/
def State.mayHdr (s : State) (w : Who) (p : Nat) (write : Bool) : Bool :=
  match w with
  | .root => true
  | .func f =>
    if p ≥ 40 then p = pgHOSTF f.val
    else if write then f.val = s.ctrlPf || (s.inRecovery && isPf f.val)
    else isPf f.val

/-- A write that the class does not allow (15 R372). -/
def notOwner (w : Who) (o : Nat) (v : Word) (s : State) : State :=
  match w with
  | .root => s
  | .func f => refuse w (pgHOSTF f.val) .notOwner o v (raiseEv (pgHOSTF f.val) 0x810 3 s)

/-- Register accesses reach page `p`: there is power, and in the recovery wait only the BOOT page is exposed (17 R428, R435). -/
def State.reaches (s : State) (w : Who) (p : Nat) : Bool :=
  s.pwr.st = .on && (w = .root || !s.inRecovery || p = pgBOOT)

/-! ## Page headers (18 Tables 18.2 to 18.6) -/

/-- The peak and minimum registers of a page (R448). -/
def peakRegs (p : Nat) : List Nat :=
  match pgKind p with
  | .sch | .sw => [0x104]
  | .fab => (List.range 10).map fun i => 0x140 + 4 * i
  | .pool => (List.range 8).map fun k => 0x11C + 0x10 * k
  | _ => []

/-- Peak and minimum registers restart from their present value (R448). -/
def restartPeaks (p : Nat) (s : State) : State :=
  match pgKind p with
  | .sch => s.updSch fun x => { x with peak := x.ops.length }
  | .sw => s.updFab fun f => { f with bufPeak := s.shared / 1024 }
  | .fab =>
    let i := pgInst p
    s.updFab fun f => { f with
      qdMax := (List.range 10).foldl (fun m n =>
        SMap.set (fun _ => 0) (8 * (2 * i + n / 5) + n % 5) (s.qOf (2 * i + n / 5) (n % 5) / 1024) m) f.qdMax }
  | .pool => poolSnap s
  | _ => s

/-- What a register shows, to `w` and with its _IDX register at `ix`; `v` is what is stored. -/
def State.pageView (s : State) (w : Who) (p o ix : Nat) : Word :=
  let v := s.reg p o ix
  match pgKind p with
  | .sch => schView s o ix v
  | .ring => ringView s o ix v
  | .outer => outerView s o ix v
  | .sw => swView s o ix v
  | .opt => optView s o ix (s.reg pgOPT 0x140 (whoCode w)) v
  | .mem => memView s p o v
  | .pool => poolView s o v
  | .host => hostView s o v
  | .fab => fabView s p o v
  | .vat => vatView s p o ix v
  | .eng => engView s p o v
  | .gc => gcView s p o ix v
  | .sheet => sheetView s p o v
  | .line => lineView s p o ix v
  | .ciph => ciphView s p o ix v
  | .time => timeView s p o v
  | .clk => clkView s o v
  | .pwr => pwrView s o v
  | .boot => bootView s w o ix v
  | .mgmt => mgmtView s o ix v
  | .hostF => hostFView s (pgInst p) o v

/-- A snapshot of a page: its counters and its peak and minimum registers (R448). -/
def snapPage (p : Nat) (s : State) : State :=
  let cs := (pgCnts p).map fun c => (cntKey p c.1, s.cnt p c.1)
  let ps := (peakRegs p).map fun o => (cntKey p o, (s.pageView .root p o 0).toNat)
  (restartPeaks p { s with snaps := (cs ++ ps).foldl (fun m kv => SMap.set (fun _ => 0) kv.1 kv.2 m) s.snaps }).updHdr p
    fun h => { h with held := true }

/-- The live counters of a page return to zero (R448). -/
def clearPage (p : Nat) (s : State) : State :=
  { s with cnts := (pgCnts p).foldl (fun (m : SMap Nat) (c : Nat × Bool) => SMap.set (fun _ => 0) (cntKey p c.1) 0 m) s.cnts }.updHdr p
    fun h => { h with sat := false }

/-- A write of BLK_CNT_CTL (Table 18.6). -/
def cntCtlWr (p : Nat) (v : Word) (s : State) : State :=
  whenD (bit v 1) (clearPage p) (whenD (bit v 0) (snapPage p) (s.updHdr p fun h => { h with view := bit v 8 }))

/-- A write that leaves the summary non-zero sends the vector again (R444). -/
def resendVec (p : Nat) (s : State) : State := whenD (s.summary p) (vectorSend p) s

/-- The events that a page implements. -/
def evMask (p : Nat) : Word := wd (2 ^ pgNev p - 1)

/-- A write of a header register. -/
def hdrWr (w : Who) (p o : Nat) (v : Word) (s : State) : State :=
  match o with
  | 0x008 =>
    if fld v 8 2 ≥ 2 then refuse w p .rsvdEnc o v s
    else resendVec p (s.updHdr p fun h => { h with dest := fld v 8 2, vec := fld v 0 6 })
  | 0x010 => resendVec p (s.updHdr p fun h => { h with intStat := h.intStat &&& ~~~ v })
  | 0x014 => resendVec p (s.updHdr p fun h => { h with intEn := v &&& evMask p })
  | 0x018 => setIntStat p (v &&& evMask p) s
  | 0x028 => cntCtlWr p v s
  | 0x030 =>
    if bit v 31 then s.updHdr p fun h =>
      { h with errValid := false, errRefusal := false, errLost := 0, errCode := 0, errInfo := 0, errAddr := 0 }
    else s
  | _ => s

/-- What a header register shows. -/
def State.hdrView (s : State) (p o : Nat) : Word :=
  let h := s.hdr p
  match o with
  | 0x000 => wd ((pgKind p).code * 2 ^ 16 + pgInst p * 2 ^ 8 + 1)
  | 0x004 => wd (pgNev p + ((pgCnts p).foldl (fun (n : Nat) (c : Nat × Bool) => n + if c.2 then 2 else 1) 0) * 2 ^ 8 + b2n (pgRwl p) * 2 ^ 24)
  | 0x008 => wd (h.vec + h.dest * 2 ^ 8)
  | 0x00C =>
    wd (b2n (s.summary p) + b2n h.errValid * 2 + b2n h.sat * 2 ^ 2 + b2n h.locked * 2 ^ 3 + b2n h.held * 2 ^ 4 +
      b2n (s.pageOff p) * 2 ^ 5)
  | 0x010 => h.intStat
  | 0x014 => h.intEn
  | 0x01C => h.errInfo
  | 0x020 => loW h.errAddr
  | 0x024 => hiW h.errAddr
  | 0x028 => wd (b2n h.view * 2 ^ 8 + b2n h.held * 2 ^ 16)
  | 0x02C => wd (b2n h.locked)
  | 0x030 => wd (h.errCode + h.errLost * 2 ^ 24 + b2n h.errRefusal * 2 ^ 28 + b2n h.errValid * 2 ^ 31)
  | _ => 0

/-! ## Register writes -/

/-- The entry that an access by `w` to a row reaches: its copy of the _IDX register (15 R373). -/
def State.entryIx (s : State) (w : Who) (p : Nat) (r : RegRow) : Nat :=
  match r.cls, r.ix with
  | .ownIdx, _ => whoCode w
  | _, some io => s.idx w p io
  | _, none => 0

/-- Bits of type WO and W1C, which the block takes as written (00 R8). -/
def cmdBits (p o : Nat) : Word :=
  match pgKind p, o with
  | .clk, 0x108 | .clk, 0x110 | .boot, 0x108 | .opt, 0x108 | .mgmt, 0x108 | .time, 0x108 | .time, 0x160 | .sw, 0x1C8 => 0xFFFFFFFF
  | .clk, 0x180 => 0xC0000000
  | _, _ => 0

/-- The key of a pair's latch and held half (18 R441). -/
def pairKey (w : Who) (p o : Nat) : Nat := (whoCode w * 128 + p) * 0x1000 + o

/-- The effect of a write on its page. -/
def pageEffect (w : Who) (p o ix : Nat) (v : DWord) (s : State) : Eff :=
  match pgKind p with
  | .sch => schEffect p o ix v s
  | .ring => ringEffect p o ix v s
  | .outer => outerEffect p o ix v s
  | .sw => swEffect p o ix v s
  | .opt => optEffect p o ix (s.reg pgOPT 0x140 (whoCode w)) v s
  | .mem => memEffect p o ix v s
  | .pool => poolEffect p o ix v s
  | .host => .ok (store p o ix (loW v) s)
  | .fab => fabEffect p o ix v s
  | .vat =>
    if 0x400 ≤ o && o < 0x600 then
      let k := (o - 0x400) % 0x40 / 4
      let gone := s.reg p o &&& ~~~ (loW v)
      (vatEffect p o ix v s).map (scatterDrop ((o - 0x400) / 0x40) (BitVec.ofNat 512 (gone.toNat * 2 ^ (32 * k))) false)
    else vatEffect p o ix v s
  | .eng => engEffect p o ix v s
  | .gc => gcEffect p o ix v s
  | .sheet => sheetEffect p o ix v s
  | .line => lineEffect p o ix v s
  | .ciph => ciphEffect p o ix v s
  | .time => timeEffect p o ix v s
  | .clk => clkEffect p o ix v s
  | .pwr => .ok s
  | .boot => bootEffect w p o ix v s
  | .mgmt => mgmtEffect p o ix v s
  | .hostF => hostFEffect w (pgInst p) o v s

/-- What else a refusal sets: OUTER_Jn_STAT.REASON (08 R201), TIME_IO_STAT.REFUSED (13 R343). -/
def refusedToo (c : RefCode) (o : Nat) (s : State) : State :=
  match c with
  | .ocbBad => outerRefused ((o - 0x200) / 0x40 % 8) s
  | .owned => ioRefuse s
  | _ => s

/-- The page takes the value, or refuses it. -/
def takeWrite (eff : Nat → DWord → State → Eff) (w : Who) (p o ix : Nat) (val : DWord) (v : Word) (s : State) : State :=
  match eff ix val s with
  | .ok t => t
  | .error c => refusedToo c o (refuse w p c o v s)

/-- A write of a row that nothing forbids: an _IDX copy, half of a pair (18 R441), or a register. -/
def rowWrite (eff : Nat → DWord → State → Eff) (w : Who) (p o ix : Nat) (r : RegRow) (v : Word) (s : State) : State :=
  if r.cls = .ownIdx then store p o ix (merge r.rw (s.reg p o ix) v) s
  else if r.pair then
    let k := pairKey w p (if r.word o = 0 then o else o - 4)
    if r.rw = 0 && r.rwHi = 0 then s
    else if r.word o = 0 then { s with heldLo := SMap.put k v s.heldLo }
    else
      let lo := (SMap.find s.heldLo k).getD (s.reg p (o - 4) ix)
      takeWrite eff w p o ix (pairW (v &&& r.rwHi) (lo &&& r.rw)) v { s with heldLo := SMap.erase k s.heldLo }
  else
    let m := r.rw ||| r.rwl ||| cmdBits p o
    if m = 0 then s else takeWrite eff w p o ix ((merge m (s.reg p o ix) v).setWidth 64) v s

/-- The value that a write leaves in a register holds a reserved encoding (00 R7). -/
def rsvd (r : RegRow) (v : Word) : Bool := r.enc.any fun e => fld v e.1 e.2.1 > e.2.2

/-- A write of a register from 0x100 on: class, clock domain, lock and encodings, then its effect. -/
def regWriteAt (eff : Nat → DWord → State → Eff) (w : Who) (p o : Nat) (v : Word) (s : State) : State :=
  match regRow p o with
  | none => s
  | some r =>
    let ix := s.entryIx w p r
    if !s.mayWrite w p o r ix v then notOwner w o v s
    else if s.pageOff p then refuse w p .domOff o v s
    else if r.rwl ≠ 0 && (s.hdr p).locked then refuse w p .locked o v s
    else if rsvd r (merge r.rw (s.reg p o ix) v) then refuse w p .rsvdEnc o v s
    else rowWrite eff w p o ix r v s

/-- A write to offset `o` of page `p`, with `eff` as the effect of an allowed one. -/
def regWriteBy (eff : Nat → DWord → State → Eff) (w : Who) (p o : Nat) (v : Word) (s : State) : State :=
  if !s.reaches w p then s
  else if o < 0x100 then (if s.mayHdr w p true then hdrWr w p o v s else notOwner w o v s)
  else regWriteAt eff w p o v s

/-- A write to offset `o` of page `p`. -/
def regWrite (w : Who) (p o : Nat) (v : Word) (s : State) : State :=
  regWriteBy (fun ix => pageEffect w p (if (regRow p o).any (fun r => r.pair && r.word o = 1) then o - 4 else o) ix) w p o v s

/-! ## MSI-X table and PBA (PCIe; 15 R385) -/

def State.msixOf (s : State) (f v : Nat) : MsixEntry := SMap.get (fun _ => {}) (s.fn f).msix v

/-- The mask bit of vector 0 of a PF reads 0 and ignores writes. -/
def noMask (f v : Nat) : Bool := isPf f && v = 0

def msixWr (f v k : Nat) (x : Word) (s : State) : State :=
  let e := s.msixOf f v
  let put (y : MsixEntry) : State := s.updFn f fun n => { n with msix := SMap.set (fun _ => {}) v y n.msix }
  if k = 0 then put { e with addr := pairW (hiW e.addr) x }
  else if k = 1 then put { e with addr := pairW x (loW e.addr) }
  else if k = 2 then put { e with data := x }
  else if noMask f v then s
  else
    let t := put { e with masked := bit x 0 }
    if e.masked && !bit x 0 && (s.fn f).pba.getLsbD v then
      sendMsix f v (t.updFn f fun n => { n with pba := n.pba &&& ~~~ (1 <<< v : DWord) })
    else t

def State.msixView (s : State) (f v k : Nat) : Word :=
  let e := s.msixOf f v
  if k = 0 then loW e.addr else if k = 1 then hiW e.addr else if k = 2 then e.data
  else wd (b2n (e.masked && !noMask f v))

/-- A write to what an offset names. -/
def targetWrite (w : Who) (t : Target) (v : Word) (s : State) : State :=
  match t, w with
  | .page p o, _ => regWrite w p o v s
  | .msix n k, .func f => if s.pwr.st = .on && !s.inRecovery then msixWr f.val n k v s else s
  | _, _ => s

/-- A write through BAR0, or by the root. -/
def barWrite (w : Who) (off : Nat) (v : Word) (s : State) : State := targetWrite w (barTarget w off) v s

/-! ## Register reads -/

/-- A 64-bit value read by halves: _LO latches the upper half for the reader, whose next read of _HI consumes it (18 R441). -/
def pairRead (w : Who) (p o : Nat) (hi : Bool) (v : DWord) (s : State) : Word × State :=
  if !hi then (loW v, { s with latch := SMap.put (pairKey w p o) (hiW v) s.latch })
  else
    let k := pairKey w p (o - 4)
    match SMap.find s.latch k with
    | some x => (x, { s with latch := SMap.erase k s.latch })
    | none => (hiW v, s)

/-- A read of a counter (R448): the snapshot while VIEW is set, else the live value. -/
def cntRead (w : Who) (p o : Nat) (s : State) : Word × State :=
  let view := (s.hdr p).view
  let val (q : Nat) : Nat := if view then SMap.get (fun _ => 0) s.snaps (cntKey p q) else s.cnt p q
  match (pgCnts p).find? fun c => c.1 = o || (c.2 && c.1 + 4 = o) with
  | none => (0, s)
  | some c =>
    if !c.2 then (wd (val o), s)
    else if view then (wd (if c.1 = o then val o else val c.1 / 2 ^ 32), s)
    else pairRead w p o (decide (c.1 ≠ o)) (BitVec.ofNat 64 (val c.1)) s

/-- A read of a register from 0x100 on. -/
def rowRead (w : Who) (p o : Nat) (r : RegRow) (s : State) : Word × State :=
  let ix := s.entryIx w p r
  let half (q : Nat) : Word := s.pageView w p q ix
  if !s.mayRead w p o r ix then (0, s)
  else if p = pgTIME 0 && o = 0x110 then timeNsRd w s
  else if p = pgTIME 0 && o = 0x114 then timeHiRd w s
  else if p = pgTIME 0 && o = 0x168 then tsqTsRd s
  else if p = pgPWR && o ≠ 0x100 then
    let t := pwrSample s
    (t.pageView w p o ix, t)
  else if r.cls = .ownIdx then (s.reg p o ix, s)
  else if r.pair then
    (if r.word o = 0 then pairRead w p o false (pairW (half (o + 4)) (half o)) s
     else pairRead w p o true (pairW (half o) (half (o - 4))) s)
  else (half o, s)

/-- A read of offset `o` of page `p`: the value, and the state after. -/
def regRead (w : Who) (p o : Nat) (s : State) : Word × State :=
  if !s.reaches w p then (0, s)
  else if o < 0x100 then (if s.mayHdr w p false then (s.hdrView p o, s) else (0, s))
  else if s.pageOff p then (0, s)
  else if o ≥ 0x800 then (if s.mayHdr w p false then cntRead w p o s else (0, s))
  else match regRow p o with | none => (0, s) | some r => rowRead w p o r s

/-- A read of what an offset names. -/
def targetRead (w : Who) (t : Target) (s : State) : Word × State :=
  match t, w with
  | .page p o, _ => regRead w p o s
  | .msix n k, .func f => (if s.pwr.st = .on && !s.inRecovery then s.msixView f.val n k else 0, s)
  | .pba k, .func f => (if s.pwr.st = .on && !s.inRecovery then wd ((s.fn f.val).pba.toNat / 2 ^ (32 * k)) else 0, s)
  | _, _ => (0, s)

/-- A read whose answer goes out at once. -/
def readOut (w : Who) (off : Nat) (r : Word × State) : Res := .next (r.2.emit (.read w off r.1))

/-! ## Rows of the table: page headers and pairs -/

def execBlkIntStatWrite (w : Who) (pg : Fin 72) (v : Word) (s : State) : Res := .next (regWrite w pg.val 0x010 v s)
def execBlkIntEnWrite (w : Who) (pg : Fin 72) (v : Word) (s : State) : Res := .next (regWrite w pg.val 0x014 v s)
def execBlkCtlWrite (w : Who) (pg : Fin 72) (v : Word) (s : State) : Res := .next (regWrite w pg.val 0x008 v s)
def execBlkIntSet (w : Who) (pg : Fin 72) (v : Word) (s : State) : Res := .next (regWrite w pg.val 0x018 v s)
def execBlkErrSrcWrite (w : Who) (pg : Fin 72) (v : Word) (s : State) : Res := .next (regWrite w pg.val 0x030 v s)
/-- CNT_SNAP: a write with SNAP = 1. -/
def execCntSnap (w : Who) (pg : Fin 72) (v : Word) (s : State) : Res := .next (regWrite w pg.val 0x028 (v ||| 1) s)
/-- CNT_CLEAR: a write with CLEAR = 1. -/
def execCntClear (w : Who) (pg : Fin 72) (v : Word) (s : State) : Res := .next (regWrite w pg.val 0x028 (v ||| 2) s)

def execPairLoRead (w : Who) (off : Nat) (s : State) : Res := readOut w off (targetRead w (barTarget w off) s)
def execPairHiRead (w : Who) (off : Nat) (s : State) : Res := readOut w off (targetRead w (barTarget w off) s)
def execPairLoWrite (w : Who) (off : Nat) (v : Word) (s : State) : Res := .next (barWrite w off v s)
def execPairHiWrite (w : Who) (off : Nat) (v : Word) (s : State) : Res := .next (barWrite w off v s)
/-- REGISTER_WRITE (00 R7). -/
def execRegisterWrite (w : Who) (off : Nat) (v : Word) (s : State) : Res := .next (barWrite w off v s)

end Sys2Proof.Machine
end

