-- ==== Sys2Proof/Machine/Packets.lean ====
section
/-! DEFINITION. The opcodes of the headbox (15 Table 15.6): what each command packet does when it is next in SEQ order. -/
namespace Sys2Proof.Machine

open Sys2Proof

/-- HEADBOX_WRITE (R375): in the recovery wait BAR2 of a PF is the image window (17 R435); a function that is not enabled has
no BAR. -/
def execHeadboxWrite (f : Func) (off : Nat) (bytes : List Byte) (poisoned : Bool) (s : State) : Res :=
  let p := portOf f.val
  .next (if s.pwr.st ≠ .on || !s.fnOn f.val then s
    else if s.inRecovery then imageWrite p off bytes s
    else
      headWrite f.val off bytes poisoned (s.updHost fun h => { h with linkUp := vset h.linkUp p true }))

/-- NOP. -/
def execNop (f : Func) (q : PktJob) (s : State) : Res := .next (pktRun f q 0x00 (fun _ t => { st := t }) s)

/-! ## Operations (R379, 02 R47) -/

/-- Descriptors offered in order from index `i` on; the first that is refused ends the packet. -/
def submitFrom (f : Func) (q : Nat) : Nat → List (List Byte) → State → PktAns
  | i, [], s => { result := i, st := s }
  | i, b :: bs, s =>
    let d := decodeDesc b
    let r := if d.job.val ≠ q then (0x08, raiseEv pgSCH 0x810 1 s) else acceptFn f d (descHeadOk b) s
    if r.1 ≠ 0 then { status := r.1, result := i, detail := i, st := r.2 } else submitFrom f q (i + 1) bs r.2

/-- The 64-byte pieces of a payload. -/
def descsOf (b : List Byte) : List (List Byte) := (List.range (b.length / 64)).map fun i => (b.drop (64 * i)).take 64

/-- SUBMIT. -/
def execSubmit (f : Func) (q : PktJob) (s : State) : Res :=
  .next (pktRun f q 0x01 (fun k t => submitFrom f q.val 0 (descsOf k.payload) t) s)

/-- The entries that a CANCEL names: of the job, its source and its range of SEQ, and not cancelled already. -/
def State.toCancel (s : State) (f : Func) (j : Nat) (k : Pkt) : List Entry :=
  let lo := loW k.arg0
  let hi := hiW k.arg0
  let n := fldN k.arg1.toNat 0 2
  let src : Src := if n = 0 then .fn f else .cores (Fin.ofNat 2 (n - 1))
  (s.jobOps j).filter fun e => e.src = src && !e.cancelled && (e.d.seq - lo).toNat ≤ (hi - lo).toNat

/-- CANCEL. -/
def execCancel (f : Func) (q : PktJob) (s : State) : Res :=
  .next (pktRun f q 0x02 (fun k t =>
    let es := t.toCancel f q.val k
    { result := es.length, st := retryCores (forAll es cancelEntry t) }) s)

/-! ## Registers (R372, R379) -/

/-- The words of a payload. -/
def wordsOf (b : List Byte) : List Word := (List.range (b.length / 4)).map fun i => wAt b (4 * i)

/-- Pairs applied in order; a reset of the module ends the packet with what it is in. -/
def regPairs (f : Func) (k : Pkt) : List Word → State → State
  | o :: v :: ws, s =>
    regPairs f k ws (if s.host.pkts.contains k then targetWrite (.func f) (pfTarget (.func f) o.toNat) v s else s)
  | _, s => s

/-- REG_WRITE. -/
def execRegWrite (f : Func) (q : PktJob) (s : State) : Res :=
  .next (pktRun f q 0x03 (fun k t => { result := k.payload.length / 8, st := regPairs f k (wordsOf k.payload) t }) s)

/-- Offsets read in order. -/
def regReads (f : Func) : List Word → State → List Byte × State
  | [], s => ([], s)
  | o :: os, s =>
    let r := targetRead (.func f) (pfTarget (.func f) o.toNat) s
    let rs := regReads f os r.2
    (natLE 4 r.1.toNat ++ rs.1, rs.2)

/-- Data that a packet sends to host memory; a rejected write ends it with BAD_ADDR (R369). -/
def dataOut (f : Func) (addr : DWord) (data : List Byte) (relaxed rejected : Bool) (result : Nat) (s : State) : PktAns :=
  { status := if rejected then 0x0A else 0, result := if rejected then 0 else result
    st := hostDma f.val addr.toNat data relaxed rejected s }

/-- REG_READ. -/
def execRegRead (f : Func) (q : PktJob) (rejected : Bool) (s : State) : Res :=
  .next (pktRun f q 0x04 (fun k t =>
    let r := regReads f (wordsOf k.payload) t
    dataOut f k.target r.1 false rejected (k.payload.length / 4) r.2) s)

/-! ## Memories (R380) -/

/-- MEM names a memory in which the job's range holds `n` bytes from `a`. -/
def State.memOk (s : State) (mem j a n : Nat) : Bool :=
  match mem with
  | 0 => s.hbmOk j a n
  | 1 => s.mirOk true j a n
  | 2 => s.mirOk false j a n
  | 3 => a + n ≤ s.shmSize 0 j
  | 4 => a + n ≤ s.shmSize 1 j
  | _ => false

def memPut (mem j a : Nat) (bs : List Byte) (s : State) : State :=
  match mem with
  | 0 => hbmWrite a bs s
  | 3 => shmWrite 0 (s.shmBase 0 j + a) bs s
  | 4 => shmWrite 1 (s.shmBase 1 j + a) bs s
  | _ => lpWrite a bs s

def State.memFetch (s : State) (mem j a n : Nat) : List Byte :=
  match mem with
  | 0 => s.hbmRead a n
  | 3 => s.shmRead 0 (s.shmBase 0 j + a) n
  | 4 => s.shmRead 1 (s.shmBase 1 j + a) n
  | _ => s.lpRead a n

def State.memBad (s : State) (mem a n : Nat) : Bool :=
  match mem with
  | 0 => s.hbmBad a n
  | 1 | 2 => s.lpBad a n
  | _ => false

/-- MEM_WRITE. -/
def execMemWrite (f : Func) (q : PktJob) (s : State) : Res :=
  .next (pktRun f q 0x05 (fun k t =>
    let mem := fldN k.arg0.toNat 0 3
    let a := k.target.toNat
    let n := k.payload.length
    if n = 0 || !t.memOk mem q.val a n then { status := 0x0A, st := t }
    else { result := n, st := memPut mem q.val a k.payload t }) s)

/-- A dump's buffer is taken from pool 2 and goes back with its DMA (14 Table 14.6). -/
def dumpBuffer (k : Pkt) (n : Nat) (s : State) : State :=
  poolPass .dump (slotKey2 k.f.val k.slot) (if h : k.q.val < 8 then some ⟨k.q.val, h⟩ else none) (min n (poolBytes 2)) s

/-- MEM_READ. -/
def execMemRead (f : Func) (q : PktJob) (rejected : Bool) (s : State) : Res :=
  .next (pktRun f q 0x06 (fun k t =>
    let mem := fldN k.arg0.toNat 0 3
    let a := k.target.toNat
    let n := fldN k.arg0.toNat 32 25
    if n = 0 || n > 16777216 || !t.memOk mem q.val a n then { status := 0x0A, st := t }
    else if t.memBad mem a n then { status := 0x1F, st := if mem = 0 then reportHbm a n 3 t else reportLp a n 3 t }
    else dataOut f k.arg1 (t.memFetch mem q.val a n) false rejected n (dumpBuffer k n t)) s)

/-! ## Queue pairs (R381, 09 R233) -/

/-- The bits of a context word that Table 15.7 defines; REMOTE_VA and REMOTE_KEY are for ROLE = COPY. -/
def qpMask (role i : Nat) : Word :=
  match i with
  | 0 | 3 | 4 | 5 => 0x00FFFFFF
  | 1 => 0x1FF37377
  | 2 => 0x1F77FFFF
  | 6 => 0x8FFFFFFF
  | 8 | 10 | 11 | 12 | 13 => 0xFFFFFFFF
  | 9 => 0x0000FFFF
  | 14 | 15 | 16 => if role = 5 then 0xFFFFFFFF else 0
  | _ => 0

/-- A context keeps Tables 9.4 and 15.7 (R381); SPRAY needs SPRAY_OK of the destination SEID (09 Table 9.3). -/
def State.qpCtxOk (s : State) (c : List Word) : Bool :=
  let dest := s.reg pgSW 0x114 (qpF c 2 0 16)
  c.length = 32 && (List.range 32).all (fun i => (c.getD i 0 &&& ~~~ qpMask (qpF c 1 12 3) i) = 0) &&
  qpF c 1 0 3 ≤ 4 && (qpF c 1 4 3 = 0 || qpF c 1 4 3 = 1 || qpF c 1 4 3 = 4) && qpF c 1 12 3 ≤ 5 &&
  1 ≤ qpF c 1 16 2 && qpF c 1 16 2 ≤ 3 && 8 ≤ qpF c 1 24 5 && qpF c 1 24 5 ≤ 20 && qpF c 2 24 5 ≤ 16 &&
  (qpF c 1 9 1 = 0 || (qpF c 2 0 16 ≥ 0x100 && bit dest 31 && bit dest 30))

/-- A QPN that no queue pair has (log 18): which one is open. -/
def State.freeQpn (s : State) : BitVec 24 :=
  let d := s.draw.1.toNat
  let i := ((List.range 8192).find? fun k => (SMap.find s.fab.qps ((d + k) % 8192)).isNone).getD 0
  BitVec.ofNat 24 (d / 8192 % 2048 * 8192 + (d + i) % 8192)

/-- The queue pair of a context: its PSNs start at those of the context, its rate at its MAC's (09 R248). -/
def newQp (qpn : BitVec 24) (j : Job) (c : List Word) (s : State) : Qp :=
  let q : Qp := { qpn := qpn, job := j, ctx := setAt c 0 (wd qpn.toNat), rate := Dy.ofInt 0
                  epsn := BitVec.ofNat 24 (qpF c 5 0 24), spsn := BitVec.ofNat 24 (qpF c 4 0 24)
                  una := BitVec.ofNat 24 (qpF c 4 0 24), nxt := BitVec.ofNat 24 (qpF c 4 0 24) }
  { q with rate := Dy.ofInt (s.macRate (s.qpMac q)) }

/-- QP_CREATE. -/
def qpCreateBody (q : PktJob) (k : Pkt) (s : State) : PktAns :=
  let c := wordsOf k.payload
  if h : q.val < 8 then
    if !s.qpCtxOk c then { status := 0x01, st := s }
    else if s.qpUsed q.val ≥ s.regF pgSW (0x400 + 0x10 * q.val) 0 14 || s.fab.qps.length ≥ 8192 then
      { status := 0x0B, st := raiseEv pgSW 0x81C 5 s }
    else
      let n := s.freeQpn
      { result := n.toNat, st := putQp (newQp n ⟨q.val, h⟩ c s) s.draw.2 }
  else { status := 0x01, st := s }

def execQpCreate (f : Func) (q : PktJob) (s : State) : Res := .next (pktRun f q 0x07 (qpCreateBody q) s)

/-- The RC state diagram (IBTA): any state to RESET or ERR; RESET to INIT; INIT to INIT and RTR; RTR to RTS; RTS to RTS. -/
def qpStep (a b : Nat) : Bool :=
  b = 0 || b = 4 || (a = 0 && b = 1) || (a = 1 && (b = 1 || b = 2)) || (a = 2 && b = 3) || (a = 3 && b = 3)

/-- What depends on a queue pair that leaves service: its contributor's part of a collection, and returns (04 R113, 08 R217). -/
def qpLeave (q : Qp) (s : State) : State :=
  let j := q.job.val
  let s1 := qpCutAll q.qpn s
  let gone := BitVec.ofNat 512 (bitsNat ((List.range 512).filter fun c =>
    bit (s.ctGqpn j c) 31 && fld (s.ctGqpn j c) 0 24 = q.qpn.toNat))
  scatterDrop j gone true s1

/-- The job's queue pair of a QPN in TARGET. -/
def State.qpMine (s : State) (q : PktJob) (k : Pkt) : Option Qp :=
  match s.qp? (BitVec.ofNat 24 k.target.toNat) with
  | some x => if x.job.val = q.val then some x else none
  | none => none

/-- QP_MODIFY: the words that MASK names, but for QPN. -/
def qpModifyBody (q : PktJob) (k : Pkt) (s : State) : PktAns :=
  match s.qpMine q k with
  | none => { status := 0x01, st := s }
  | some x =>
    let m := loW k.arg0
    let v := wordsOf k.payload
    let c := (List.range 32).map fun i => if i ≠ 0 && bit m i then v.getD i 0 else x.ctx.getD i 0
    let y : Qp := { x with ctx := c }
    if !s.qpCtxOk c || !(y.state = x.state && !bit m 1 || qpStep x.state y.state) then { status := 0x01, st := s }
    else
      let off := (y.state = 0 || y.state = 4) && y.state ≠ x.state
      let z := (if off then y.idle else y)
      let z := if bit m 4 then { z with spsn := BitVec.ofNat 24 (qpF c 4 0 24) }.idle else z
      let z := if bit m 5 then { z with epsn := BitVec.ofNat 24 (qpF c 5 0 24) } else z
      { st := whenD off (qpLeave z) (putQp z s) }

def execQpModify (f : Func) (q : PktJob) (s : State) : Res := .next (pktRun f q 0x08 (qpModifyBody q) s)

/-- QP_DESTROY. -/
def qpDestroyBody (q : PktJob) (k : Pkt) (s : State) : PktAns :=
  match s.qpMine q k with
  | none => { status := 0x01, st := s }
  | some x => { st := (qpLeave x s).updFab fun b => { b with qps := SMap.erase (qpIx x.qpn) b.qps } }

def execQpDestroy (f : Func) (q : PktJob) (s : State) : Res := .next (pktRun f q 0x09 (qpDestroyBody q) s)

/-! ## Jobs (R371, R386, 02 R36, R40) -/

/-- The step axis, the marks, the registered map, Q and the last SEQ of every source of a job return to zero (02 R36, R40). -/
def jobFresh (j : Nat) (s : State) : State :=
  let s1 := forAll (List.range 16) (fun k t => t.setReg pgSCH (0x400 + 0x40 * j + 4 * k) 0) (s.setReg pgSCH (0x210 + 0x40 * j) 0)
  s1.updSch fun x =>
    { x with
      axis := SMap.erase j x.axis
      mc := SMap.keep (fun k _ => k / 512 ≠ j) x.mc
      mseq := SMap.keep (fun k _ => k / 512 ≠ j) x.mseq
      lastSeq := SMap.keep (fun k _ => k % 8 ≠ j) x.lastSeq }

/-- JOB_ASSIGN: by a PF, to itself or one of its own VFs. The job's HBM range reads zero, and so do its residuals (03 R78,
log 144). -/
def jobAssignBody (f : Func) (q : PktJob) (k : Pkt) (s : State) : PktAns :=
  let t := fldN k.arg0.toNat 0 5
  let j := q.val
  if portOf t ≠ f.val || !s.fnOn t || (isPf t && t ≠ f.val) then { status := 0x03, st := s }
  else
    { st := (hbmZero (s.hbmBase j) (s.hbmSize j) (jobFresh j (s.setJobSt j .assigned))).updHost fun h =>
        { h with owner := SMap.set (fun _ => 0) j t h.owner } }

def execJobAssign (f : Func) (q : PktJob) (s : State) : Res := .next (pktRun f q 0x0A (jobAssignBody f q) s)

/-- JOB_START: mirroring is turned off first (09 R258). -/
def execJobStart (f : Func) (q : PktJob) (s : State) : Res :=
  .next (pktRun f q 0x0B (fun _ t => { st := (mirrorOff t).setJobSt q.val .running }) s)

/-- JOB_QUIESCE. -/
def execJobQuiesce (f : Func) (q : PktJob) (s : State) : Res :=
  .next (pktRun f q 0x0C (fun _ t =>
    if h : q.val < 8 then let r := quiesceJob ⟨q.val, h⟩ t; { result := r.1, st := r.2 } else { status := 0x01, st := t }) s)

/-- The grant registers of a job are zero. -/
def State.grantsZero (s : State) (j : Nat) : Bool :=
  (List.range 40).all fun p => ((regRows p).filter fun r => r.cls = .grant).all fun r =>
    (List.range r.words).all fun w => s.reg p (r.off + r.span * j + 4 * w) = 0

/-- A job holds a VALID window, a queue pair, a ring group, a stream end or a read region. -/
def State.jobHolds (s : State) (j : Nat) : Bool :=
  (s.regEntries (pgVAT 0) 0x114).any (fun e => winValid e.2 && winJob e.2 = j) || s.qpUsed j > 0 ||
  (s.regEntries pgRING 0x114).any (fun e => gtValid e.2 && gtJob e.2 = j) ||
  (s.regEntries pgOUTER 0x144).any (fun e => bit e.2 31 && scJob e.2 = j) ||
  (s.regEntries pgSW 0x154).any fun e => bit e.2 31 && fld e.2 24 3 = j

/-- JOB_RELEASE. -/
def execJobRelease (f : Func) (q : PktJob) (s : State) : Res :=
  .next (pktRun f q 0x0D (fun _ t =>
    if t.jobHolds q.val || !t.grantsZero q.val then { status := 0x04, st := t }
    else { st := (t.setJobSt q.val .free).updHost fun h => { h with owner := SMap.erase q.val h.owner } }) s)

/-! ## Reports, time messages, launches and dumps -/

/-- ATTEST (12 R327). -/
def execAttest (f : Func) (q : PktJob) (rejected : Bool) (s : State) : Res :=
  .next (pktRun f q 0x0E (fun k t => dataOut f k.target (t.attestReport k.payload) false rejected 3469 t) s)

/-- TIME_SEND (13 R340). -/
def execTimeSend (f : Func) (q : PktJob) (s : State) : Res :=
  .next (pktRun f q 0x0F (fun k t =>
    let a := k.arg0.toNat
    { st := protSend (BitVec.ofNat 16 a) 2 k.payload (if fldN a 32 1 = 1 then some (fldN a 16 16) else none) t }) s)

/-- LAUNCH (13 R341): the record is written when the launch has its outcome; a ninth launch of a MAC is FULL, and one for a MAC
whose link is down is missed (R342). -/
def launchBody (k : Pkt) (s : State) : PktAns :=
  let a := k.arg0.toNat
  let m := fldN a 32 5
  let x : Launch :=
    { t := loW k.arg0, frame := k.payload, tsid := if fldN a 40 1 = 1 then some (fldN a 48 16) else none, f := k.f.val
      r := { seq := k.seq, kind := 0, job := 15, opcode := 0x10, status := 0, tag := k.tag, result := 0, detail := 0
             slot := some k.slot } }
  if !s.macUp m then { later := true, st := launchMiss x s }
  else if (s.launchesOf m).length ≥ 8 then { status := 0x06, st := s }
  else { later := true, st := s.updTime fun t => { t with launches := SMap.put m (s.launchesOf m ++ [x]) t.launches } }

def execLaunch (f : Func) (q : PktJob) (s : State) : Res := .next (pktRun f q 0x10 launchBody s)

/-- A capture record as the dump returns it: a poisoned one is zero, with MAC = 31 (14 R356). -/
def capRecord (s : State) (i : Nat) : List Byte :=
  let a := lpCapture + 128 * (i % capRing)
  if s.lpBad a 128 then patch (List.replicate 128 0) 0x48 (natLE 4 (31 * 2 ^ 16)) else s.lpRead a 128

/-- CAPTURE_DUMP (09 R257): the oldest records that it returns are read, and make room in the ring. -/
def captureBody (f : Func) (rejected : Bool) (k : Pkt) (s : State) : PktAns :=
  let i := k.arg0.toNat
  let n := k.arg1.toNat
  let data := (List.range n).flatMap fun r => capRecord s (i + r)
  let s1 := forAll (List.range n) (fun r => reportLp (lpCapture + 128 * ((i + r) % capRing)) 128 3) s
  let oldest := (s.fab.capW + capRing - s.fab.capHeld) % capRing
  let skip := (oldest + capRing - i % capRing) % capRing
  let s2 := s1.updFab fun b => { b with capHeld := if skip < n then b.capHeld - min b.capHeld (n - skip) else b.capHeld }
  dataOut f k.target data true rejected n (dumpBuffer k (128 * n) s2)

def execCaptureDump (f : Func) (q : PktJob) (rejected : Bool) (s : State) : Res :=
  .next (pktRun f q 0x11 (captureBody f rejected) s)

end Sys2Proof.Machine
end

