-- ==== Sys2Proof/Machine/Regs.lean ====
section
/-! DEFINITION. The rows of the table that are a write or a read of one register: each is the access at that register's page and
offset, with the field that names the row set as the row says (log 52). -/
namespace Sys2Proof.Machine

open Sys2Proof

/-- `v` with bit `i` set, or clear: VALID, ENABLE and GO. -/
def withBit (v : Word) (i : Nat) (b : Bool) : Word := setBit v i b

/-- `v` with the command code `c` in its lowest `n` bits. -/
def withCmd (v : Word) (n c : Nat) : Word := setFld v 0 n c

/-- A selector command `c` or `c` + 1, by the route that CMD names (10 Table 10.13). -/
def withSel (v : Word) (c : Nat) : Word := setFld v 24 3 (if fld v 24 3 = c + 1 then c + 1 else c)

/-! ## Scheduler (02) -/

def execSchStepLoad (w : Who) (j : Job) (v : Word) (s : State) : Res := .next (regWrite w pgSCH (0x20C + 0x40 * j.val) v s)
def execRegmapWrite (w : Who) (j : Job) (k : Fin 16) (v : Word) (s : State) : Res :=
  .next (regWrite w pgSCH (0x400 + 0x40 * j.val + 4 * k.val) v s)
def execQuorumWrite (w : Who) (j : Job) (v : Word) (s : State) : Res := .next (regWrite w pgSCH (0x210 + 0x40 * j.val) v s)
def execSchCntValWrite (w : Who) (v : Word) (s : State) : Res := .next (regWrite w pgSCH 0x10C v s)
def execCntPartWrite (w : Who) (j : Job) (v : Word) (s : State) : Res := .next (regWrite w pgSCH (0x214 + 0x40 * j.val) v s)

/-! ## Vat (04) -/

def execCmapWrite (w : Who) (j : Job) (k : Fin 16) (v : Word) (s : State) : Res :=
  .next (regWrite w (pgVAT 0) (0x400 + 0x40 * j.val + 4 * k.val) v s)
def execVatWinCtlWrite (w : Who) (v : Word) (s : State) : Res := .next (regWrite w (pgVAT 0) 0x114 v s)
def execVatQuotaWrite (w : Who) (d : Die) (j : Job) (v : Word) (s : State) : Res :=
  .next (regWrite w (pgVAT d.val) (0x200 + 0x10 * j.val) v s)
def execGrantQpReplace (w : Who) (v : Word) (s : State) : Res := .next (regWrite w (pgVAT 0) 0x138 v s)

/-! ## Engines, general cores and sheets (05, 06) -/

def execEngSvcWrite (w : Who) (d : Die) (v : Word) (s : State) : Res := .next (regWrite w (pgENG d.val) 0x100 v s)
def execEngEdtWrite (w : Who) (d : Die) (j : Job) (v : Word) (s : State) : Res :=
  .next (regWrite w (pgENG d.val) (0x200 + 0x10 * j.val) v s)
def execGcSvcWrite (w : Who) (d : Die) (v : Word) (s : State) : Res := .next (regWrite w (pgGC d.val) 0x100 v s)

/-- The offsets of GC_Jn_SHM, GC_Jn_HBM_BASE, GC_Jn_HBM_SIZE and GC_TT_DATA (05 Table 5.16). -/
def gcRangeOff (o : Nat) : Bool := o = 0x114 || (0x200 ≤ o && o < 0x300 && o % 0x20 < 0x10)

/-- GC_SHM_WRITE (05 R145). -/
def execGcShmWrite (w : Who) (d : Die) (off : Nat) (v : Word) (s : State) : Res :=
  .next (whenD (gcRangeOff off) (regWrite w (pgGC d.val) off v) s)

/-- The offsets of GC_Jn_HBM_BASE and GC_Jn_HBM_SIZE. -/
def hbmRangeOff (o : Nat) : Bool := 0x200 ≤ o && o < 0x300 && 4 ≤ o % 0x20 && o % 0x20 < 0x10

/-- HBM_RANGE_WRITE (14 R348). -/
def execHbmRangeWrite (w : Who) (d : Die) (off : Nat) (v : Word) (s : State) : Res :=
  .next (whenD (hbmRangeOff off) (regWrite w (pgGC d.val) off v) s)

def execSheetSvcWrite (w : Who) (d : Die) (v : Word) (s : State) : Res := .next (regWrite w (pgSHEET d.val) 0x104 v s)

/-! ## Rings, outer rounds and streams (07, 08) -/

def execRingSetupStart (w : Who) (v : Word) (s : State) : Res := .next (regWrite w pgRING 0x114 (withBit v 31 true) s)
def execRingTeardown (w : Who) (v : Word) (s : State) : Res := .next (regWrite w pgRING 0x114 (withBit v 31 false) s)
def execOuterEnable (w : Who) (j : Job) (v : Word) (s : State) : Res :=
  .next (regWrite w pgOUTER (0x200 + 0x40 * j.val) (withBit v 31 true) s)
def execOuterDisable (w : Who) (j : Job) (v : Word) (s : State) : Res :=
  .next (regWrite w pgOUTER (0x200 + 0x40 * j.val) (withBit v 31 false) s)

/-- STREAM_END_ENABLE (08 R223): `peer` is what the other end shows. -/
def execStreamEndEnable (w : Who) (v : Word) (peer : Option PeerEnd) (s : State) : Res :=
  .next (regWriteBy (fun ix x t => scCtlWr ix (loW x) peer t) w pgOUTER 0x144 (withBit v 31 true) s)
def execStreamEndDisable (w : Who) (v : Word) (s : State) : Res := .next (regWrite w pgOUTER 0x144 (withBit v 31 false) s)

/-! ## Fabric and switch core (09) -/

def execFabPortCtlWrite (w : Who) (p : Fin 12) (v : Word) (s : State) : Res := .next (regWrite w (pgFAB p.val) 0x100 v s)
def execRekey (w : Who) (v : Word) (s : State) : Res := .next (regWrite w pgSW 0x1C8 (withBit v 0 true) s)
def execSwMirrorCtlWrite (w : Who) (v : Word) (s : State) : Res := .next (regWrite w pgSW 0x320 v s)
def execSwQpQuotaWrite (w : Who) (j : Job) (v : Word) (s : State) : Res := .next (regWrite w pgSW (0x400 + 0x10 * j.val) v s)
def execReadRegionValid (w : Who) (v : Word) (s : State) : Res := .next (regWrite w pgSW 0x154 (withBit v 31 true) s)

/-! ## Line (10) -/

def execLineCtlWrite (w : Who) (p : Port) (v : Word) (s : State) : Res := .next (regWrite w (pgLINE p.val) 0x100 v s)
def execSelLockout (w : Who) (v : Word) (s : State) : Res := .next (regWrite w (pgLINE 0) 0x1C4 (withSel v 1) s)
def execSelForce (w : Who) (v : Word) (s : State) : Res := .next (regWrite w (pgLINE 0) 0x1C4 (withSel v 3) s)
def execSelManual (w : Who) (v : Word) (s : State) : Res := .next (regWrite w (pgLINE 0) 0x1C4 (withSel v 5) s)
def execSelClear (w : Who) (v : Word) (s : State) : Res := .next (regWrite w (pgLINE 0) 0x1C4 (setFld v 24 3 0) s)
def execChCtlWrite (w : Who) (p : Port) (v : Word) (s : State) : Res := .next (regWrite w (pgLINE p.val) 0x194 v s)

/-- TRIB_WRITE (10 R282): LINEn_SLOTMAP and LINEn_TRIBt. -/
def execTribWrite (w : Who) (p : Port) (off : Nat) (v : Word) (s : State) : Res :=
  .next (whenD (0x140 ≤ off && off < 0x190) (regWrite w (pgLINE p.val) off v) s)
def execFwdFeltWrite (w : Who) (p : Port) (v : Word) (s : State) : Res := .next (regWrite w (pgLINE p.val) 0x1B0 v s)

/-! ## Optics (11) -/

def execTblDataWrite (w : Who) (v : Word) (s : State) : Res := .next (regWrite w pgOPT 0x144 v s)
def execMonReading (w : Who) (v : Word) (s : State) : Res := .next (regWrite w pgOPT 0x148 v s)
def execCalLane (w : Who) (v : Word) (s : State) : Res := .next (regWrite w pgOPT 0x108 (withCmd v 4 1) s)
def execLineSwitch (w : Who) (v : Word) (s : State) : Res := .next (regWrite w pgOPT 0x108 (withCmd v 4 2) s)
def execRevert (w : Who) (v : Word) (s : State) : Res := .next (regWrite w pgOPT 0x108 (withCmd v 4 3) s)
def execSaveTables (w : Who) (v : Word) (s : State) : Res := .next (regWrite w pgOPT 0x108 (withCmd v 4 4) s)
def execLaneReturn (w : Who) (v : Word) (s : State) : Res := .next (regWrite w pgOPT 0x108 (withCmd v 4 5) s)

/-! ## Cipher (12) -/

/-- CIPH_SVC_WRITE (12 R320): `kat` says which known-answer tests pass. -/
def execCiphSvcWrite (w : Who) (p : Port) (v : Word) (kat : BitVec 12) (s : State) : Res :=
  .next (regWriteBy (fun _ x t => .ok (ciphSvcWr p.val (loW x) kat t)) w (pgCIPH p.val) 0x100 v s)
def execPeerCtlWrite (w : Who) (v : Word) (s : State) : Res := .next (regWrite w (pgCIPH 0) 0x114 v s)

/-! ## Time (13) -/

def execAcceptStep (w : Who) (v : Word) (s : State) : Res := .next (regWrite w (pgTIME 0) 0x108 (withCmd v 4 1) s)
def execReacquire (w : Who) (v : Word) (s : State) : Res := .next (regWrite w (pgTIME 0) 0x108 (withCmd v 4 2) s)
def execCalAsym (w : Who) (v : Word) (s : State) : Res := .next (regWrite w (pgTIME 0) 0x108 (withCmd v 4 3) s)
def execSetTime (w : Who) (v : Word) (s : State) : Res := .next (regWrite w (pgTIME 0) 0x108 (withCmd v 4 4) s)
def execTimeSrcWrite (w : Who) (v : Word) (s : State) : Res := .next (regWrite w (pgTIME 0) 0x100 v s)
def execTimeNsRead (w : Who) (s : State) : Res := readOut w (pgBase (pgTIME 0) + 0x110) (regRead w (pgTIME 0) 0x110 s)
def execTimeHiRead (w : Who) (s : State) : Res := readOut w (pgBase (pgTIME 0) + 0x114) (regRead w (pgTIME 0) 0x114 s)
def execTsqTsRead (w : Who) (s : State) : Res := readOut w (pgBase (pgTIME 0) + 0x168) (regRead w (pgTIME 0) 0x168 s)
def execTimeIoCtlWrite (w : Who) (v : Word) (s : State) : Res := .next (regWrite w (pgTIME 0) 0x12C v s)
def execFmOutClaim (w : Who) (v : Word) (s : State) : Res := .next (regWrite w pgCLK 0x190 v s)

/-! ## Memory and pools (14) -/

def execPoolSizeWrite (w : Who) (k : Fin 8) (v : Word) (s : State) : Res := .next (regWrite w pgPOOL (0x110 + 0x10 * k.val) v s)
def execMemRangeWrite (w : Who) (j : Job) (snap : Bool) (v : Word) (s : State) : Res :=
  .next (regWrite w pgMEM2 (0x200 + 4 * b2n snap + 0x10 * j.val) v s)

/-! ## Host (15): the writer's own HOST_F page -/

/-- A write of the writer's own HOST_F page; the root has none. -/
def ownWrite (w : Who) (o : Nat) (v : Word) (s : State) : State :=
  match w with
  | .func f => regWrite w (pgHOSTF f.val) o v s
  | .root => s

def execCqHeadWrite (w : Who) (v : Word) (s : State) : Res := .next (ownWrite w 0x11C v s)
def execCqCtlWrite (w : Who) (v : Word) (s : State) : Res := .next (ownWrite w 0x118 v s)

/-! ## Resilience (16) -/

def execPeerFail (w : Who) (v : Word) (s : State) : Res := .next (regWrite w pgMGMT 0x108 (withCmd v 3 1) s)
def execPeerClear (w : Who) (v : Word) (s : State) : Res := .next (regWrite w pgMGMT 0x108 (withCmd v 3 2) s)
def execTakeover (w : Who) (v : Word) (s : State) : Res := .next (regWrite w pgMGMT 0x108 (withCmd v 3 3) s)
def execSpareReady (w : Who) (v : Word) (s : State) : Res := .next (regWrite w pgMGMT 0x108 (withCmd v 3 4) s)

/-- MIRROR_REFRESH (16 R404): the MGMT_CMD, or a message of the mirror. -/
def execMirrorRefresh (req : MirrorReq) (s : State) : Res :=
  .next (match req with
    | .cmd w v => regWrite w pgMGMT 0x108 (withCmd v 3 5) s
    | m => mirrorRefreshMsg m s)

/-! ## Clocks and boot (17) -/

def execClkNmiWrite (w : Who) (v : Word) (s : State) : Res := .next (regWrite w pgCLK 0x110 v s)
def execGate (w : Who) (v : Word) (s : State) : Res := .next (regWrite w pgCLK 0x108 (withCmd v 4 1) s)
def execUngate (w : Who) (v : Word) (s : State) : Res := .next (regWrite w pgCLK 0x108 (withCmd v 4 2) s)
def execResetAssert (w : Who) (v : Word) (s : State) : Res := .next (regWrite w pgCLK 0x108 (withCmd v 4 3) s)
def execResetRelease (w : Who) (v : Word) (s : State) : Res := .next (regWrite w pgCLK 0x108 (withCmd v 4 4) s)

/-- SET_SRC (17 R421): `oldStopped` says that the clock it leaves has stopped. -/
def execSetSrc (w : Who) (v : Word) (oldStopped : Bool) (s : State) : Res :=
  .next (regWriteBy (fun _ x t => clkCmdWr (loW x) oldStopped t) w pgCLK 0x108 (withCmd v 4 5) s)
def execForceSwitch (w : Who) (v : Word) (s : State) : Res := .next (regWrite w pgCLK 0x108 (withCmd v 4 6) s)
def execRefSelect (w : Who) (v : Word) (s : State) : Res := .next (regWrite w pgCLK 0x108 (withCmd v 4 7) s)
def execFmGo (w : Who) (v : Word) (s : State) : Res := .next (regWrite w pgCLK 0x180 (withBit v 31 true) s)
def execClearAlt (w : Who) (v : Word) (s : State) : Res := .next (regWrite w pgBOOT 0x108 (withCmd v 4 1) s)
def execRecover (w : Who) (v : Word) (s : State) : Res := .next (regWrite w pgBOOT 0x108 (withCmd v 4 2) s)
def execCfgSave (w : Who) (v : Word) (s : State) : Res := .next (regWrite w pgBOOT 0x108 (withCmd v 4 3) s)
def execLoad (w : Who) (v : Word) (s : State) : Res := .next (regWrite w pgBOOT 0x108 (withCmd v 4 4) s)
def execAbort (w : Who) (v : Word) (s : State) : Res := .next (regWrite w pgBOOT 0x108 (withCmd v 4 5) s)

end Sys2Proof.Machine
end

