-- ==== Sys2Proof/Machine/Dispatch.lean ====
section
/-! DEFINITION. The meaning of every command: one arm per row of the table of operations and events. -/
namespace Sys2Proof.Machine

open Sys2Proof

/-- What a command does to everything but the queue. -/
def exec (i : Instr) (s : State) : Host.Outcome State Fault Refusal :=
  match i with
  | .stepMark j off bytes => Sys2Proof.Machine.execStepMark j off bytes s
  | .schStepLoad w j v => Sys2Proof.Machine.execSchStepLoad w j v s
  | .regmapWrite w j k v => Sys2Proof.Machine.execRegmapWrite w j k v s
  | .quorumWrite w j v => Sys2Proof.Machine.execQuorumWrite w j v s
  | .subCommit c desc stores => Sys2Proof.Machine.execSubCommit c desc stores s
  | .timeTriggerMet e => Sys2Proof.Machine.execTimeTriggerMet e s
  | .claimGrant d => Sys2Proof.Machine.execClaimGrant d s
  | .opDone e => Sys2Proof.Machine.execOpDone e s
  | .opFaulted e => Sys2Proof.Machine.execOpFaulted e s
  | .schOpStall e => Sys2Proof.Machine.execSchOpStall e s
  | .schCntValWrite w v => Sys2Proof.Machine.execSchCntValWrite w v s
  | .cntPartWrite w j v => Sys2Proof.Machine.execCntPartWrite w j v s
  | .collect d => Sys2Proof.Machine.execCollect d s
  | .recollect d => Sys2Proof.Machine.execRecollect d s
  | .contributionWrite qpn reth data flips => Sys2Proof.Machine.execContributionWrite qpn reth data flips s
  | .grantHoldRelease j c => Sys2Proof.Machine.execGrantHoldRelease j c s
  | .gackWrite j qpn off bytes => Sys2Proof.Machine.execGackWrite j qpn off bytes s
  | .cmapWrite w j k v => Sys2Proof.Machine.execCmapWrite w j k v s
  | .vatWinCtlWrite w v => Sys2Proof.Machine.execVatWinCtlWrite w v s
  | .vatQuotaWrite w d j v => Sys2Proof.Machine.execVatQuotaWrite w d j v s
  | .grantQpReplace w v => Sys2Proof.Machine.execGrantQpReplace w v s
  | .hadamard d => Sys2Proof.Machine.execHadamard d s
  | .quantise d => Sys2Proof.Machine.execQuantise d s
  | .update d => Sys2Proof.Machine.execUpdate d s
  | .nsOrtho d => Sys2Proof.Machine.execNsOrtho d s
  | .project d => Sys2Proof.Machine.execProject d s
  | .gemm d => Sys2Proof.Machine.execGemm d s
  | .engParity d e held => Sys2Proof.Machine.execEngParity d e held s
  | .engSvcWrite w d v => Sys2Proof.Machine.execEngSvcWrite w d v s
  | .engEdtWrite w d j v => Sys2Proof.Machine.execEngEdtWrite w d j v s
  | .task c => Sys2Proof.Machine.execTask c s
  | .taskReturn c a0 stores => Sys2Proof.Machine.execTaskReturn c a0 stores s
  | .taskTrap c mcause mepc stores => Sys2Proof.Machine.execTaskTrap c mcause mepc stores s
  | .taskTimeout c stores => Sys2Proof.Machine.execTaskTimeout c stores s
  | .waitGo c idx val => Sys2Proof.Machine.execWaitGo c idx val s
  | .waitGoRelease c => Sys2Proof.Machine.execWaitGoRelease c s
  | .gcSvcWrite w d v => Sys2Proof.Machine.execGcSvcWrite w d v s
  | .gcShmWrite w d off v => Sys2Proof.Machine.execGcShmWrite w d off v s
  | .exceptionHandler c => Sys2Proof.Machine.execExceptionHandler c s
  | .plan c => Sys2Proof.Machine.execPlan c s
  | .floor c => Sys2Proof.Machine.execFloor c s
  | .stats c => Sys2Proof.Machine.execStats c s
  | .mergeSnap c => Sys2Proof.Machine.execMergeSnap c s
  | .mergeForm c => Sys2Proof.Machine.execMergeForm c s
  | .mergeAdd c => Sys2Proof.Machine.execMergeAdd c s
  | .pack d => Sys2Proof.Machine.execPack d s
  | .expand d => Sys2Proof.Machine.execExpand d s
  | .expandRefetch d => Sys2Proof.Machine.execExpandRefetch d s
  | .refetchReplacement cw ix sheet => Sys2Proof.Machine.execRefetchReplacement cw ix sheet s
  | .add d => Sys2Proof.Machine.execAdd d s
  | .sheetParity d codec held => Sys2Proof.Machine.execSheetParity d codec held s
  | .sheetSvcWrite w d v => Sys2Proof.Machine.execSheetSvcWrite w d v s
  | .send p => Sys2Proof.Machine.execSend p s
  | .sendFwd p => Sys2Proof.Machine.execSendFwd p s
  | .recv p => Sys2Proof.Machine.execRecv p s
  | .scatter acks => Sys2Proof.Machine.execScatter acks s
  | .copy ack => Sys2Proof.Machine.execCopy ack s
  | .ringSetupStart w v => Sys2Proof.Machine.execRingSetupStart w v s
  | .setupSend g => Sys2Proof.Machine.execSetupSend g s
  | .setupRetry g => Sys2Proof.Machine.execSetupRetry g s
  | .setupMessage m => Sys2Proof.Machine.execSetupMessage m s
  | .setupAnswer g next ok => Sys2Proof.Machine.execSetupAnswer g next ok s
  | .ringTeardown w v => Sys2Proof.Machine.execRingTeardown w v s
  | .announce p r => Sys2Proof.Machine.execAnnounce p r s
  | .receipt p r => Sys2Proof.Machine.execReceipt p r s
  | .ack p r => Sys2Proof.Machine.execAck p r s
  | .credit p r => Sys2Proof.Machine.execCredit p r s
  | .refetch p r => Sys2Proof.Machine.execRefetch p r s
  | .resendTimer cw => Sys2Proof.Machine.execResendTimer cw s
  | .probeTimer cw => Sys2Proof.Machine.execProbeTimer cw s
  | .outerEnable w j v => Sys2Proof.Machine.execOuterEnable w j v s
  | .outerDisable w j v => Sys2Proof.Machine.execOuterDisable w j v s
  | .streamEndEnable w v peer => Sys2Proof.Machine.execStreamEndEnable w v peer s
  | .streamEndDisable w v => Sys2Proof.Machine.execStreamEndDisable w v s
  | .streamMessage qpn data => Sys2Proof.Machine.execStreamMessage qpn data s
  | .streamDelivery ix => Sys2Proof.Machine.execStreamDelivery ix s
  | .streamConsumerAck j off bytes => Sys2Proof.Machine.execStreamConsumerAck j off bytes s
  | .streamAck ix seq => Sys2Proof.Machine.execStreamAck ix seq s
  | .fabPortCtlWrite w p v => Sys2Proof.Machine.execFabPortCtlWrite w p v s
  | .fabLinkDown m => Sys2Proof.Machine.execFabLinkDown m s
  | .fabLinkUp m => Sys2Proof.Machine.execFabLinkUp m s
  | .fabricFrame m f => Sys2Proof.Machine.execFabricFrame m f s
  | .outputServe o => Sys2Proof.Machine.execOutputServe o s
  | .pfcXoffRx m prio => Sys2Proof.Machine.execPfcXoffRx m prio s
  | .pfcPauseEnd m prio => Sys2Proof.Machine.execPfcPauseEnd m prio s
  | .fabPfcLong m prio => Sys2Proof.Machine.execFabPfcLong m prio s
  | .cnpRx qpn => Sys2Proof.Machine.execCnpRx qpn s
  | .rateIncrease qpn => Sys2Proof.Machine.execRateIncrease qpn s
  | .ackTimeout qpn => Sys2Proof.Machine.execAckTimeout qpn s
  | .imbalanceWindow g => Sys2Proof.Machine.execImbalanceWindow g s
  | .rekey w v => Sys2Proof.Machine.execRekey w v s
  | .swMirrorCtlWrite w v => Sys2Proof.Machine.execSwMirrorCtlWrite w v s
  | .swQpQuotaWrite w j v => Sys2Proof.Machine.execSwQpQuotaWrite w j v s
  | .readRegionValid w v => Sys2Proof.Machine.execReadRegionValid w v s
  | .lineCtlWrite w p v => Sys2Proof.Machine.execLineCtlWrite w p v s
  | .frameTransmit p => Sys2Proof.Machine.execFrameTransmit p s
  | .frameReceive p bytes at_ fec => Sys2Proof.Machine.execFrameReceive p bytes at_ fec s
  | .defectSet p k => Sys2Proof.Machine.execDefectSet p k s
  | .defectClear p k => Sys2Proof.Machine.execDefectClear p k s
  | .protMessage p m => Sys2Proof.Machine.execProtMessage p m s
  | .routeTimeout ix r => Sys2Proof.Machine.execRouteTimeout ix r s
  | .wtrExpiry ix => Sys2Proof.Machine.execWtrExpiry ix s
  | .stbyHoldExpiry ix mseq => Sys2Proof.Machine.execStbyHoldExpiry ix mseq s
  | .selLockout w v => Sys2Proof.Machine.execSelLockout w v s
  | .selForce w v => Sys2Proof.Machine.execSelForce w v s
  | .selManual w v => Sys2Proof.Machine.execSelManual w v s
  | .selClear w v => Sys2Proof.Machine.execSelClear w v s
  | .pmSecond p g => Sys2Proof.Machine.execPmSecond p g s
  | .pmBinClose p day => Sys2Proof.Machine.execPmBinClose p day s
  | .chCtlWrite w p v => Sys2Proof.Machine.execChCtlWrite w p v s
  | .tribWrite w p off v => Sys2Proof.Machine.execTribWrite w p off v s
  | .fwdFeltWrite w p v => Sys2Proof.Machine.execFwdFeltWrite w p v s
  | .controlLoopUpdate l ix reading => Sys2Proof.Machine.execControlLoopUpdate l ix reading s
  | .engineTempChange e t => Sys2Proof.Machine.execEngineTempChange e t s
  | .tblDataWrite w v => Sys2Proof.Machine.execTblDataWrite w v s
  | .monReading w v => Sys2Proof.Machine.execMonReading w v s
  | .calLane w v => Sys2Proof.Machine.execCalLane w v s
  | .calStart t => Sys2Proof.Machine.execCalStart t s
  | .calDone e heat => Sys2Proof.Machine.execCalDone e heat s
  | .saveTables w v => Sys2Proof.Machine.execSaveTables w v s
  | .laserFadeWindow b pwr => Sys2Proof.Machine.execLaserFadeWindow b pwr s
  | .crossfadeDone => Sys2Proof.Machine.execCrossfadeDone s
  | .lmodRemove b => Sys2Proof.Machine.execLmodRemove b s
  | .lmodInsert b => Sys2Proof.Machine.execLmodInsert b s
  | .lmodSelfTestDone b lines => Sys2Proof.Machine.execLmodSelfTestDone b lines s
  | .revert w v => Sys2Proof.Machine.execRevert w v s
  | .standbyTuned p locked => Sys2Proof.Machine.execStandbyTuned p locked s
  | .standbyRecheck p passed => Sys2Proof.Machine.execStandbyRecheck p passed s
  | .lineSwitch w v => Sys2Proof.Machine.execLineSwitch w v s
  | .lineSwitchStart p => Sys2Proof.Machine.execLineSwitchStart p s
  | .standbyFineLock p => Sys2Proof.Machine.execStandbyFineLock p s
  | .emergencySwitch p => Sys2Proof.Machine.execEmergencySwitch p s
  | .laneIdCheck e mismatch => Sys2Proof.Machine.execLaneIdCheck e mismatch s
  | .laneReturn w v => Sys2Proof.Machine.execLaneReturn w v s
  | .optTimExternal p => Sys2Proof.Machine.execOptTimExternal p s
  | .optRefFail => Sys2Proof.Machine.execOptRefFail s
  | .segmentReceive p trib bytes => Sys2Proof.Machine.execSegmentReceive p trib bytes s
  | .contextLoad p ltype jobtag chan tx => Sys2Proof.Machine.execContextLoad p ltype jobtag chan tx s
  | .ciphParity p e work => Sys2Proof.Machine.execCiphParity p e work s
  | .ciphSvcWrite w p v kat => Sys2Proof.Machine.execCiphSvcWrite w p v kat s
  | .sessionRenew sess => Sys2Proof.Machine.execSessionRenew sess s
  | .ciphSessionStale sess => Sys2Proof.Machine.execCiphSessionStale sess s
  | .kx1Init sess msg => Sys2Proof.Machine.execKx1Init sess msg s
  | .kx2Resp sess msg => Sys2Proof.Machine.execKx2Resp sess msg s
  | .kx3Fin sess msg => Sys2Proof.Machine.execKx3Fin sess msg s
  | .kx4Done sess msg => Sys2Proof.Machine.execKx4Done sess msg s
  | .handshakeResend sess => Sys2Proof.Machine.execHandshakeResend sess s
  | .handshakeRetry sess => Sys2Proof.Machine.execHandshakeRetry sess s
  | .peerCtlWrite w v => Sys2Proof.Machine.execPeerCtlWrite w v s
  | .attestMessage src nonce => Sys2Proof.Machine.execAttestMessage src nonce s
  | .timeWindow ext => Sys2Proof.Machine.execTimeWindow ext s
  | .timeSrcLost => Sys2Proof.Machine.execTimeSrcLost s
  | .acceptStep w v => Sys2Proof.Machine.execAcceptStep w v s
  | .reacquire w v => Sys2Proof.Machine.execReacquire w v s
  | .calAsym w v => Sys2Proof.Machine.execCalAsym w v s
  | .calAsymDone mean => Sys2Proof.Machine.execCalAsymDone mean s
  | .setTime w v => Sys2Proof.Machine.execSetTime w v s
  | .ppsInEdge => Sys2Proof.Machine.execPpsInEdge s
  | .setTimeTimeout => Sys2Proof.Machine.execSetTimeTimeout s
  | .timeSrcWrite w v => Sys2Proof.Machine.execTimeSrcWrite w v s
  | .timeNsRead w => Sys2Proof.Machine.execTimeNsRead w s
  | .timeHiRead w => Sys2Proof.Machine.execTimeHiRead w s
  | .tsqTsRead w => Sys2Proof.Machine.execTsqTsRead w s
  | .launchArm m => Sys2Proof.Machine.execLaunchArm m s
  | .launchFire m => Sys2Proof.Machine.execLaunchFire m s
  | .timeIoCtlWrite w v => Sys2Proof.Machine.execTimeIoCtlWrite w v s
  | .fmOutClaim w v => Sys2Proof.Machine.execFmOutClaim w v s
  | .scrubStep hbm addr err => Sys2Proof.Machine.execScrubStep hbm addr err s
  | .hbmImbalWindow d bytes port => Sys2Proof.Machine.execHbmImbalWindow d bytes port s
  | .poolWaitServed k ix owner gen => Sys2Proof.Machine.execPoolWaitServed k ix owner gen s
  | .poolSizeWrite w k v => Sys2Proof.Machine.execPoolSizeWrite w k v s
  | .memRangeWrite w j snap v => Sys2Proof.Machine.execMemRangeWrite w j snap v s
  | .hbmRangeWrite w d off v => Sys2Proof.Machine.execHbmRangeWrite w d off v s
  | .headboxWrite f off bytes poisoned => Sys2Proof.Machine.execHeadboxWrite f off bytes poisoned s
  | .nop f q => Sys2Proof.Machine.execNop f q s
  | .submit f q => Sys2Proof.Machine.execSubmit f q s
  | .cancel f q => Sys2Proof.Machine.execCancel f q s
  | .regWrite f q => Sys2Proof.Machine.execRegWrite f q s
  | .regRead f q rejected => Sys2Proof.Machine.execRegRead f q rejected s
  | .memWrite f q => Sys2Proof.Machine.execMemWrite f q s
  | .memRead f q rejected => Sys2Proof.Machine.execMemRead f q rejected s
  | .qpCreate f q => Sys2Proof.Machine.execQpCreate f q s
  | .qpModify f q => Sys2Proof.Machine.execQpModify f q s
  | .qpDestroy f q => Sys2Proof.Machine.execQpDestroy f q s
  | .jobAssign f q => Sys2Proof.Machine.execJobAssign f q s
  | .jobStart f q => Sys2Proof.Machine.execJobStart f q s
  | .jobQuiesce f q => Sys2Proof.Machine.execJobQuiesce f q s
  | .jobRelease f q => Sys2Proof.Machine.execJobRelease f q s
  | .attest f q rejected => Sys2Proof.Machine.execAttest f q rejected s
  | .timeSend f q => Sys2Proof.Machine.execTimeSend f q s
  | .launch f q => Sys2Proof.Machine.execLaunch f q s
  | .captureDump f q rejected => Sys2Proof.Machine.execCaptureDump f q rejected s
  | .hostPktGap f q => Sys2Proof.Machine.execHostPktGap f q s
  | .completionRecord f rejected => Sys2Proof.Machine.execCompletionRecord f rejected s
  | .cqHeadWrite w v => Sys2Proof.Machine.execCqHeadWrite w v s
  | .cqCtlWrite w v => Sys2Proof.Machine.execCqCtlWrite w v s
  | .cqIrqTimer f => Sys2Proof.Machine.execCqIrqTimer f s
  | .flr f => Sys2Proof.Machine.execFlr f s
  | .pcieLinkDown p => Sys2Proof.Machine.execPcieLinkDown p s
  | .perstNAssert p => Sys2Proof.Machine.execPerstNAssert p s
  | .vfDisable p numVfs => Sys2Proof.Machine.execVfDisable p numVfs s
  | .heartbeatSend => Sys2Proof.Machine.execHeartbeatSend s
  | .heartbeat p h => Sys2Proof.Machine.execHeartbeat p h s
  | .leaseExpiry peer r => Sys2Proof.Machine.execLeaseExpiry peer r s
  | .peerFail w v => Sys2Proof.Machine.execPeerFail w v s
  | .peerClear w v => Sys2Proof.Machine.execPeerClear w v s
  | .mgmtHoldLimit g => Sys2Proof.Machine.execMgmtHoldLimit g s
  | .reconf g epoch fenced cut => Sys2Proof.Machine.execReconf g epoch fenced cut s
  | .reconfReady g pos applied names => Sys2Proof.Machine.execReconfReady g pos applied names s
  | .adoptionSheets g ream blk epoch theta m v applied => Sys2Proof.Machine.execAdoptionSheets g ream blk epoch theta m v applied s
  | .epochNak g epoch holder digest => Sys2Proof.Machine.execEpochNak g epoch holder digest s
  | .mirrorIntake j epoch rseq data => Sys2Proof.Machine.execMirrorIntake j epoch rseq data s
  | .mirrorRefresh req => Sys2Proof.Machine.execMirrorRefresh req s
  | .spareReady w v => Sys2Proof.Machine.execSpareReady w v s
  | .takeover w v => Sys2Proof.Machine.execTakeover w v s
  | .claim seid digest => Sys2Proof.Machine.execClaim seid digest s
  | .mgmtTakeoverFail => Sys2Proof.Machine.execMgmtTakeoverFail s
  | .healthDecay => Sys2Proof.Machine.execHealthDecay s
  | .expelReq seid => Sys2Proof.Machine.execExpelReq seid s
  | .mgmtExpel => Sys2Proof.Machine.execMgmtExpel s
  | .mgmtHealthAlarm => Sys2Proof.Machine.execMgmtHealthAlarm s
  | .expelRetry => Sys2Proof.Machine.execExpelRetry s
  | .mgmtExpelLapsed => Sys2Proof.Machine.execMgmtExpelLapsed s
  | .mgmtPortDown p => Sys2Proof.Machine.execMgmtPortDown p s
  | .mccResend f => Sys2Proof.Machine.execMccResend f s
  | .supervisorWindow n => Sys2Proof.Machine.execSupervisorWindow n s
  | .clkNmiWrite w v => Sys2Proof.Machine.execClkNmiWrite w v s
  | .gate w v => Sys2Proof.Machine.execGate w v s
  | .ungate w v => Sys2Proof.Machine.execUngate w v s
  | .resetAssert w v => Sys2Proof.Machine.execResetAssert w v s
  | .resetRelease w v => Sys2Proof.Machine.execResetRelease w v s
  | .setSrc w v oldStopped => Sys2Proof.Machine.execSetSrc w v oldStopped s
  | .clkSwitchHang => Sys2Proof.Machine.execClkSwitchHang s
  | .forceSwitch w v => Sys2Proof.Machine.execForceSwitch w v s
  | .refSelect w v => Sys2Proof.Machine.execRefSelect w v s
  | .fmGo w v => Sys2Proof.Machine.execFmGo w v s
  | .clkFmDone count refFailed => Sys2Proof.Machine.execClkFmDone count refFailed s
  | .inputRise mv addr => Sys2Proof.Machine.execInputRise mv addr s
  | .inputLoss => Sys2Proof.Machine.execInputLoss s
  | .enableRise mv => Sys2Proof.Machine.execEnableRise mv s
  | .enableFall => Sys2Proof.Machine.execEnableFall s
  | .powerFault k => Sys2Proof.Machine.execPowerFault k s
  | .bootStepDone r => Sys2Proof.Machine.execBootStepDone r s
  | .bootWatchdog => Sys2Proof.Machine.execBootWatchdog s
  | .bootRestart => Sys2Proof.Machine.execBootRestart s
  | .clearAlt w v => Sys2Proof.Machine.execClearAlt w v s
  | .recover w v => Sys2Proof.Machine.execRecover w v s
  | .cfgSave w v => Sys2Proof.Machine.execCfgSave w v s
  | .bar2ImageWrite p off bytes => Sys2Proof.Machine.execBar2ImageWrite p off bytes s
  | .load w v => Sys2Proof.Machine.execLoad w v s
  | .flashProgramDone => Sys2Proof.Machine.execFlashProgramDone s
  | .abort w v => Sys2Proof.Machine.execAbort w v s
  | .clearFaults => Sys2Proof.Machine.execClearFaults s
  | .statusWord => Sys2Proof.Machine.execStatusWord s
  | .statusInput => Sys2Proof.Machine.execStatusInput s
  | .statusTemperature => Sys2Proof.Machine.execStatusTemperature s
  | .readVin => Sys2Proof.Machine.execReadVin s
  | .readIin => Sys2Proof.Machine.execReadIin s
  | .readTemperature1 => Sys2Proof.Machine.execReadTemperature1 s
  | .readTemperature2 => Sys2Proof.Machine.execReadTemperature2 s
  | .readPin => Sys2Proof.Machine.execReadPin s
  | .pmbusRevision => Sys2Proof.Machine.execPmbusRevision s
  | .mfrId => Sys2Proof.Machine.execMfrId s
  | .mfrModel => Sys2Proof.Machine.execMfrModel s
  | .pmbusUnsupported code => Sys2Proof.Machine.execPmbusUnsupported code s
  | .blkIntStatWrite w pg v => Sys2Proof.Machine.execBlkIntStatWrite w pg v s
  | .blkIntEnWrite w pg v => Sys2Proof.Machine.execBlkIntEnWrite w pg v s
  | .blkCtlWrite w pg v => Sys2Proof.Machine.execBlkCtlWrite w pg v s
  | .blkIntSet w pg v => Sys2Proof.Machine.execBlkIntSet w pg v s
  | .blkErrSrcWrite w pg v => Sys2Proof.Machine.execBlkErrSrcWrite w pg v s
  | .cntSnap w pg v => Sys2Proof.Machine.execCntSnap w pg v s
  | .cntClear w pg v => Sys2Proof.Machine.execCntClear w pg v s
  | .pairLoRead w off => Sys2Proof.Machine.execPairLoRead w off s
  | .pairHiRead w off => Sys2Proof.Machine.execPairHiRead w off s
  | .pairLoWrite w off v => Sys2Proof.Machine.execPairLoWrite w off v s
  | .pairHiWrite w off v => Sys2Proof.Machine.execPairHiWrite w off v s
  | .registerWrite w off v => Sys2Proof.Machine.execRegisterWrite w off v s
  | .lineLaserFadeWindow p pwr ferr => Sys2Proof.Machine.execLineLaserFadeWindow p pwr ferr s
  | .lineLaserUnitReplace p => Sys2Proof.Machine.execLineLaserUnitReplace p s
  | .monitorReadingDone value => Sys2Proof.Machine.execMonitorReadingDone value s
  | .ppsOutputEdge fall => Sys2Proof.Machine.execPpsOutputEdge fall s
  | .portSfHold p => Sys2Proof.Machine.execPortSfHold p s
  | .leaderJoinRequest g pos => Sys2Proof.Machine.execLeaderJoinRequest g pos s
  | .spareMirrorRequest seid => Sys2Proof.Machine.execSpareMirrorRequest seid s

end Sys2Proof.Machine
end

