-- ==== Sys2Proof/Safety.lean ====
section
/-! DEFINITION. The terms that claims about the gateway are made in: what a good state is, what a step keeps, which parts
of the state a step may change, and what it is for a command to complete. -/
namespace Sys2Proof.Machine

open Sys2Proof

/-! ## The invariant -/

/-- A page header as its fields allow it (18 Table 18.2, Table 18.3, R446): LOST stops at 15, only events that exist can be
enabled, DEST and VEC fit their fields. -/
def hdrOk (p : Nat) (h : PageHdr) : Prop :=
  h.errLost ≤ 15 ∧ h.intEn &&& ~~~ evMask p = 0 ∧ h.dest < 2 ∧ h.vec < 64

/-- What every step keeps. Registers, counters, snapshots, page headers and both memories are in their canonical form (so
that equal contents are equal data), no counter exceeds its width (18 R448), and every page header is as its fields allow. -/
structure State.Inv (s : State) : Prop where
  regs : SMap.wf regDefault s.regs = true
  cnts : SMap.wf (fun _ => 0) s.cnts = true
  snaps : SMap.wf (fun _ => 0) s.snaps = true
  pages : SMap.wf hdrDefault s.pages = true
  hbm : Memory.wf s.mem.hbm = true
  lp : Memory.wf s.mem.lp = true
  bound : ∀ p o, o < 0x1000 → s.cnt p o ≤ cntMax p o
  hdrs : ∀ p, hdrOk p (s.hdr p)

/-! ## The parts of the state -/

/-- The parts of the state that a command may change: the blocks, the page headers, the registers that software writes, the
counters with their snapshots, and the halves of pairs. -/
inductive Part where
  | sch | vat | eng | gc | sheet | ring | outer | fab | line | opt | ciph | host | pool | mem | time | mgmt | clk | pwr
  | boot | pages | regs | cnts | snaps | halves
  deriving DecidableEq, Repr

/-- The part is the same in both states. -/
def Part.same (s t : State) : Part → Prop
  | .sch => t.sch = s.sch
  | .vat => t.vat = s.vat
  | .eng => t.eng = s.eng
  | .gc => t.gc = s.gc
  | .sheet => t.sheet = s.sheet
  | .ring => t.ring = s.ring
  | .outer => t.outer = s.outer
  | .fab => t.fab = s.fab
  | .line => t.line = s.line
  | .opt => t.opt = s.opt
  | .ciph => t.ciph = s.ciph
  | .host => t.host = s.host
  | .pool => t.pool = s.pool
  | .mem => t.mem = s.mem
  | .time => t.time = s.time
  | .mgmt => t.mgmt = s.mgmt
  | .clk => t.clk = s.clk
  | .pwr => t.pwr = s.pwr
  | .boot => t.boot = s.boot
  | .pages => t.pages = s.pages
  | .regs => t.regs = s.regs
  | .cnts => t.cnts = s.cnts
  | .snaps => t.snaps = s.snaps
  | .halves => t.latch = s.latch ∧ t.heldLo = s.heldLo

/-- No part changes but those listed. -/
def OnlyIn (l : List Part) (s t : State) : Prop := ∀ b : Part, b ∉ l → b.same s t

/-- Every part of the state. -/
def allParts : List Part :=
  [.sch, .vat, .eng, .gc, .sheet, .ring, .outer, .fab, .line, .opt, .ciph, .host, .pool, .mem, .time, .mgmt, .clk, .pwr,
    .boot, .pages, .regs, .cnts, .snaps, .halves]

/-- The parts that a write of a page header may change (18 R439, R444, R448), one turned away included (15 R372). -/
def hdrParts : List Part := [.sch, .fab, .host, .pool, .mgmt, .pages, .cnts, .snaps]

/-- The parts that a write of a register from 0x100 on may change, by the kind of its page: what any write may (a capture, a
refusal's count, the writer's halves) and what the page's own effect does. -/
def regParts (k : PgKind) : List Part :=
  [.outer, .host, .time, .mgmt, .pages, .regs, .cnts, .halves] ++
    match k with
    | .sch => [.sch]
    | .ring => [.ring, .line]
    | .outer => [.sch, .vat, .eng, .gc, .line, .pool, .mem]
    | .sw | .fab => [.fab]
    | .opt => [.opt]
    | .pool => [.pool, .mem]
    | .gc => [.mem]
    | .time => [.sch, .fab, .mem]
    | .vat => [.sch, .vat, .fab, .pool, .mem]
    | .line => [.line, .opt]
    | .ciph => [.sch, .sheet, .ring, .line, .ciph, .pool, .mem]
    | .clk => [.sch, .vat, .eng, .gc, .sheet, .fab, .line, .ciph, .mem, .clk, .snaps]
    | .mgmt => [.sch, .vat, .eng, .gc, .sheet, .ring, .fab, .line, .ciph, .pool, .mem]
    | .boot => allParts
    | .mem | .host | .eng | .sheet | .pwr | .hostF => []

/-- The parts that a write through what an offset names may change. -/
def targetParts : Target → List Part
  | .page p o => if o < 0x100 then hdrParts else regParts (pgKind p)
  | .msix _ _ => [.host]
  | .pba _ | .none => []

/-- The parts of the state that a command may change. -/
def mayChange : Instr → List Part
  | .stepMark .. | .schOpStall .. => [.sch, .host, .mgmt, .pages, .cnts]
  | .schStepLoad .. | .regmapWrite .. | .quorumWrite .. | .schCntValWrite .. | .cntPartWrite .. => regParts .sch
  | .subCommit .. | .taskReturn .. | .taskTrap .. | .taskTimeout ..
    => [.sch, .vat, .gc, .host, .mem, .mgmt, .pages, .regs, .cnts]
  | .timeTriggerMet .. | .recv .. => [.sch]
  | .claimGrant .. => [.sch, .vat]
  | .opDone .. | .opFaulted .. | .cancel ..
    => [.sch, .vat, .eng, .gc, .sheet, .ring, .fab, .line, .host, .pool, .mem, .mgmt, .pages, .cnts]
  | .collect .. | .recollect .. | .contributionWrite ..
    => [.sch, .vat, .outer, .fab, .host, .pool, .mem, .mgmt, .pages, .cnts]
  | .grantHoldRelease .. => [.vat, .fab, .host, .pool, .mem, .mgmt, .pages, .cnts]
  | .gackWrite .. => [.vat, .host, .mgmt, .pages, .cnts]
  | .cmapWrite .. | .vatWinCtlWrite .. | .vatQuotaWrite .. | .grantQpReplace .. => regParts .vat
  | .hadamard .. => [.sch, .vat, .host, .mgmt, .pages, .cnts]
  | .quantise .. => [.sch, .eng, .outer, .host, .mem, .mgmt, .pages, .cnts]
  | .update .. => [.sch, .vat, .host, .mem, .mgmt, .pages, .cnts]
  | .nsOrtho .. | .project .. | .gemm .. => [.sch, .host, .mem, .mgmt, .pages, .cnts]
  | .engParity .. | .sheetParity .. => [.sch, .host, .mgmt, .pages, .regs, .cnts]
  | .engSvcWrite .. | .engEdtWrite .. => regParts .eng
  | .task .. | .exceptionHandler .. => [.sch, .gc, .host, .mgmt, .pages, .cnts]
  | .waitGo .. | .mergeSnap .. => [.sch, .gc, .host, .mem, .mgmt, .pages, .cnts]
  | .waitGoRelease .. => [.gc]
  | .gcSvcWrite .. | .gcShmWrite .. | .hbmRangeWrite .. => regParts .gc
  | .plan .. => [.sch, .gc, .ring, .outer, .host, .mem, .mgmt, .pages, .regs, .cnts]
  | .floor .. => [.sch, .gc, .regs]
  | .stats .. | .mergeForm .. => [.sch, .gc, .outer, .host, .mem, .mgmt, .pages, .cnts]
  | .mergeAdd .. => [.sch, .vat, .gc, .outer, .host, .mem, .mgmt, .pages, .cnts]
  | .pack .. => [.sch, .sheet, .pages, .cnts]
  | .expand .. | .resendTimer .. | .heartbeat .. | .mgmtHoldLimit .. | .claim .. | .leaderJoinRequest ..
    => [.sch, .vat, .eng, .gc, .sheet, .ring, .outer, .fab, .line, .ciph, .host, .pool, .mem, .mgmt, .pages, .cnts]
  | .expandRefetch .. => [.sch, .sheet, .line, .pages, .cnts]
  | .refetchReplacement ..
    => [.sch, .vat, .gc, .sheet, .ring, .outer, .fab, .line, .ciph, .host, .pool, .mem, .mgmt, .pages, .cnts]
  | .add .. => [.sch, .vat, .gc, .sheet, .ring, .fab, .line, .host, .pool, .mem, .mgmt, .pages, .cnts]
  | .sheetSvcWrite .. => regParts .sheet
  | .send .. | .credit .. | .ack .. => [.sch, .ring, .outer, .line, .ciph, .host, .pool, .mem, .mgmt, .pages, .cnts]
  | .sendFwd .. | .kx3Fin .. | .kx4Done ..
    => [.sch, .sheet, .ring, .outer, .line, .ciph, .host, .pool, .mem, .mgmt, .pages, .cnts]
  | .scatter .. | .streamAck .. => [.sch, .outer, .fab, .line, .host, .mgmt, .pages, .cnts]
  | .copy .. => [.sch, .ring, .outer, .fab, .line, .host, .mgmt, .pages, .cnts]
  | .ringSetupStart .. | .ringTeardown .. => regParts .ring
  | .setupSend .. | .epochNak .. | .setupRetry .. => [.ring, .line, .host, .mgmt, .pages, .cnts]
  | .setupMessage .. | .statusWord .. | .statusInput .. | .statusTemperature .. | .readVin .. | .readIin ..
  | .readTemperature1 .. | .readTemperature2 .. | .readPin .. | .pmbusRevision .. | .mfrId .. | .mfrModel .. => []
  | .setupAnswer .. => [.sch, .gc, .ring, .outer, .line, .host, .mgmt, .pages, .cnts]
  | .announce .. => [.sch, .ring, .outer, .line, .host, .mgmt, .pages, .cnts]
  | .receipt .. => [.sch, .ring, .host, .mgmt, .pages, .cnts]
  | .refetch .. | .protMessage .. | .routeTimeout .. | .wtrExpiry .. | .pmSecond .. | .mccResend ..
    => [.line, .host, .mgmt, .pages, .cnts]
  | .probeTimer .. => [.ring, .line]
  | .outerEnable .. | .outerDisable .. | .streamEndDisable .. => regParts .outer
  | .streamEndEnable ..
    => [.sch, .outer, .fab, .line, .host, .pool, .mem, .time, .mgmt, .pages, .regs, .cnts, .snaps, .halves]
  | .streamMessage .. => [.sheet, .ring, .outer, .fab, .line, .ciph, .host, .pool, .mem, .mgmt, .pages, .cnts]
  | .streamDelivery .. => [.outer, .fab, .host, .mgmt, .pages, .cnts]
  | .streamConsumerAck .. => [.outer, .host, .mgmt, .pages, .cnts]
  | .fabPortCtlWrite .. => regParts .fab
  | .fabLinkDown .. => [.fab, .host, .time, .mgmt, .pages, .cnts]
  | .launchArm .. | .launchFire .. => [.fab, .host, .mem, .time, .mgmt, .pages, .cnts]
  | .fabLinkUp .. | .pfcXoffRx .. | .pfcPauseEnd .. | .cnpRx .. => [.fab, .pages, .cnts]
  | .rateIncrease .. => [.fab]
  | .fabricFrame .. => [.sch, .vat, .sheet, .ring, .outer, .fab, .line, .ciph, .host, .pool, .mem, .mgmt, .pages, .cnts]
  | .outputServe .. => [.fab, .host, .mem, .mgmt, .pages, .cnts]
  | .fabPfcLong .. => [.fab, .host, .pages, .cnts]
  | .ackTimeout .. | .qpModify .. | .qpDestroy .. => [.sch, .vat, .fab, .host, .pool, .mem, .mgmt, .pages, .cnts]
  | .imbalanceWindow .. | .spareMirrorRequest .. => [.fab, .host, .mgmt, .pages, .cnts]
  | .rekey .. | .swMirrorCtlWrite .. | .swQpQuotaWrite .. | .readRegionValid .. => regParts .sw
  | .lineCtlWrite .. | .selLockout .. | .selForce .. | .selManual .. | .selClear .. | .chCtlWrite .. | .tribWrite ..
  | .fwdFeltWrite .. => regParts .line
  | .frameTransmit .. => [.ring, .outer, .line, .ciph, .host, .pool, .mem, .time, .mgmt, .pages, .cnts]
  | .frameReceive .. => [.line, .host, .time, .mgmt, .pages, .cnts]
  | .defectSet .. | .lineSwitchStart .. | .standbyFineLock .. | .emergencySwitch ..
    => [.line, .opt, .host, .mgmt, .pages, .cnts]
  | .defectClear ..
    => [.sch, .vat, .eng, .gc, .sheet, .ring, .outer, .fab, .line, .opt, .ciph, .host, .pool, .mem, .mgmt, .pages, .cnts]
  | .stbyHoldExpiry .. | .pmBinClose .. => [.line]
  | .attestMessage .. | .timeSend .. | .heartbeatSend .. => [.line, .host, .pool, .mem, .mgmt, .pages, .cnts]
  | .controlLoopUpdate .. | .calDone .. | .lmodSelfTestDone .. => [.opt, .pages, .cnts]
  | .calStart .. | .lmodInsert .. | .lineLaserUnitReplace .. | .monitorReadingDone .. => [.opt]
  | .engineTempChange .. | .laserFadeWindow .. | .crossfadeDone .. | .lmodRemove .. | .standbyTuned ..
  | .standbyRecheck .. | .laneIdCheck .. | .optTimExternal .. | .optRefFail .. | .lineLaserFadeWindow ..
    => [.opt, .host, .mgmt, .pages, .cnts]
  | .tblDataWrite .. | .monReading .. | .calLane .. | .saveTables .. | .revert .. | .lineSwitch .. | .laneReturn ..
    => regParts .opt
  | .segmentReceive .. => [.sch, .sheet, .ring, .outer, .line, .ciph, .host, .mem, .mgmt, .pages, .cnts]
  | .contextLoad .. => [.ciph, .host, .mem, .mgmt, .pages, .cnts]
  | .ciphSessionStale .. => [.ciph, .host, .mgmt, .pages, .cnts]
  | .ciphParity .. => [.ring, .outer, .line, .ciph, .host, .mem, .mgmt, .pages, .regs, .cnts]
  | .ciphSvcWrite ..
    => [.sch, .sheet, .ring, .outer, .fab, .line, .ciph, .host, .pool, .mem, .time, .mgmt, .pages, .regs, .cnts, .snaps, .halves]
  | .sessionRenew .. | .handshakeRetry .. | .kx1Init .. | .kx2Resp .. | .handshakeResend ..
    => [.line, .ciph, .host, .pool, .mem, .mgmt, .pages, .cnts]
  | .peerCtlWrite .. => regParts .ciph
  | .timeWindow .. => [.sch, .ring, .fab, .host, .mem, .time, .mgmt, .pages, .cnts]
  | .timeSrcLost .. => [.host, .time, .mgmt, .pages, .cnts]
  | .acceptStep .. | .reacquire .. | .calAsym .. | .setTime .. | .timeSrcWrite .. | .timeIoCtlWrite .. => regParts .time
  | .calAsymDone .. => [.time, .regs]
  | .ppsInEdge .. => [.sch, .fab, .host, .mem, .time, .mgmt, .pages, .cnts]
  | .setTimeTimeout .. | .ppsOutputEdge .. => [.time]
  | .timeNsRead .. | .timeHiRead .. | .tsqTsRead .. | .pairLoRead .. | .pairHiRead .. => [.time, .pwr, .halves]
  | .fmOutClaim .. | .clkNmiWrite .. | .gate .. | .ungate .. | .resetAssert .. | .resetRelease .. | .forceSwitch ..
  | .refSelect .. | .fmGo .. => regParts .clk
  | .scrubStep .. | .hbmImbalWindow .. => [.host, .mem, .mgmt, .pages, .cnts]
  | .poolWaitServed .. | .nop .. | .jobRelease .. | .attest .. | .completionRecord .. | .memRead ..
    => [.host, .pool, .mem, .mgmt, .pages, .cnts]
  | .poolSizeWrite .. => regParts .pool
  | .memRangeWrite .. => regParts .mem
  | .headboxWrite .. => [.host, .pool, .mem, .mgmt, .boot, .pages, .cnts]
  | .submit .. => [.sch, .host, .pool, .mem, .mgmt, .pages, .cnts]
  | .regWrite .. | .inputLoss .. | .enableRise .. | .enableFall .. | .powerFault .. | .bootRestart ..
  | .flashProgramDone .. => allParts
  | .regRead .. => [.host, .pool, .mem, .time, .mgmt, .pwr, .pages, .cnts, .halves]
  | .memWrite .. => [.gc, .host, .pool, .mem, .mgmt, .pages, .cnts]
  | .qpCreate .. | .captureDump .. => [.fab, .host, .pool, .mem, .mgmt, .pages, .cnts]
  | .jobAssign .. => [.sch, .host, .pool, .mem, .mgmt, .pages, .regs, .cnts]
  | .jobStart .. => [.host, .pool, .mem, .mgmt, .pages, .regs, .cnts]
  | .jobQuiesce .. | .vfDisable ..
    => [.sch, .vat, .eng, .gc, .sheet, .ring, .outer, .fab, .line, .host, .pool, .mem, .mgmt, .pages, .regs, .cnts]
  | .launch .. => [.host, .pool, .mem, .time, .mgmt, .pages, .cnts]
  | .hostPktGap .. | .mgmtTakeoverFail .. | .expelReq .. | .mgmtExpel .. | .mgmtHealthAlarm .. | .mgmtPortDown ..
    => [.host, .mgmt, .pages, .cnts]
  | .cqHeadWrite .. | .cqCtlWrite .. => regParts .hostF
  | .cqIrqTimer .. => [.host]
  | .flr .. | .pcieLinkDown .. | .perstNAssert ..
    => [.sch, .vat, .eng, .gc, .sheet, .ring, .outer, .fab, .line, .host, .pool, .mem, .time, .mgmt, .pages, .regs, .cnts, .snaps, .halves]
  | .leaseExpiry .. | .portSfHold .. => [.ring, .host, .mgmt, .pages, .cnts]
  | .peerFail .. | .peerClear .. | .mirrorRefresh .. | .spareReady .. | .takeover .. => regParts .mgmt
  | .reconf .. => [.sch, .vat, .eng, .gc, .sheet, .ring, .outer, .fab, .line, .host, .pool, .mem, .mgmt, .pages, .cnts]
  | .reconfReady .. | .adoptionSheets ..
    => [.sch, .gc, .ring, .outer, .line, .ciph, .host, .pool, .mem, .mgmt, .pages, .cnts]
  | .mirrorIntake ..
    => [.sch, .vat, .eng, .gc, .sheet, .ring, .fab, .line, .host, .pool, .mem, .mgmt, .pages, .regs, .cnts]
  | .healthDecay .. | .expelRetry .. => [.mgmt]
  | .mgmtExpelLapsed .. => [.mgmt, .pages, .cnts]
  | .supervisorWindow .. | .clkSwitchHang .. | .clkFmDone .. => [.host, .mgmt, .clk, .pages, .cnts]
  | .setSrc ..
    => [.sch, .vat, .eng, .gc, .sheet, .outer, .fab, .line, .ciph, .host, .pool, .mem, .time, .mgmt, .clk, .pages, .regs, .cnts, .snaps, .halves]
  | .inputRise .. | .clearFaults .. | .pmbusUnsupported .. => [.pwr]
  | .bootStepDone .. => [.fab, .line, .opt, .ciph, .host, .mem, .mgmt, .clk, .pwr, .boot, .pages, .regs, .cnts]
  | .bootWatchdog .. => [.pwr, .boot]
  | .clearAlt .. | .recover .. | .cfgSave .. | .load .. | .abort .. => regParts .boot
  | .bar2ImageWrite .. => [.boot]
  | .blkIntStatWrite .. | .blkIntEnWrite .. | .blkCtlWrite .. | .blkIntSet .. | .blkErrSrcWrite .. | .cntSnap ..
  | .cntClear .. => hdrParts
  | .pairLoWrite w off _ => targetParts (barTarget w off)
  | .pairHiWrite w off _ => targetParts (barTarget w off)
  | .registerWrite w off _ => targetParts (barTarget w off)

/-! ## What every command keeps -/

/-- What holds between the states before and after any command: the invariant is kept, the queue is not touched, no free
value is drawn twice, what has been sent out stays in the trail, and a locked page stays locked unless the module is reset
(18 R443). -/
structure Keeps (s t : State) : Prop where
  inv : s.Inv → t.Inv
  queue : t.pending = s.pending
  drawn : s.freeCtr ≤ t.freeCtr
  trail : s.out <+: t.out
  locks : (∃ l, t.out = s.out ++ l ∧ Out.reset ∈ l) ∨ ∀ p, (s.hdr p).locked = true → (t.hdr p).locked = true

/-! ## A register write that nothing forbids -/

/-- The entry of its table that `w` reaches through offset `o` of page `p`, by its copy of the _IDX register (15 R373). -/
def State.ixOf (s : State) (w : Who) (p o : Nat) : Nat := ((regRow p o).map (s.entryIx w p)).getD 0

/-- The value that a write of `v` gives a register of one word: the bits that software may set, from `v`; the others as they
are (00 R8). -/
def State.taken (s : State) (w : Who) (p o : Nat) (v : Word) : Word :=
  match regRow p o with
  | none => 0
  | some r => merge (r.rw ||| r.rwl ||| cmdBits p o) (s.reg p o (s.ixOf w p o)) v

/-- A write of `v` by `w` reaches the register at offset `o` of page `p` and nothing forbids it: there is power, the class
lets `w` write (15 R372), the page has its clock (18 R442), the register is not locked (18 R443), and no field would hold a
reserved encoding (00 R7). -/
def State.allows (s : State) (w : Who) (p o : Nat) (v : Word) : Bool :=
  s.reaches w p && decide (0x100 ≤ o) &&
    match regRow p o with
    | none => false
    | some r =>
      s.mayWrite w p o r (s.ixOf w p o) v && !s.pageOff p && !(r.rwl ≠ 0 && (s.hdr p).locked) &&
        !rsvd r (merge r.rw (s.reg p o (s.ixOf w p o)) v)

/-- The value of a pair when its _HI half, at offset `o`, is written: the half that `w` has written to _LO, or else the
stored one, below it (18 R441). -/
def State.takenPair (s : State) (w : Who) (p o : Nat) (v : Word) : DWord :=
  match regRow p o with
  | none => 0
  | some r =>
    pairW (v &&& r.rwHi)
      ((SMap.find s.heldLo (pairKey w p (o - 4))).getD (s.reg p (o - 4) (s.ixOf w p o)) &&& r.rw)

/-- The register at offset `o` of page `p` holds what a write of `v` gives it (00 R8), no other register changes, and only the
listed parts do. -/
def Stored (w : Who) (p o : Nat) (v : Word) (l : List Part) (s t : State) : Prop :=
  t.regs = (s.setReg p o (s.taken w p o v) (s.ixOf w p o)).regs ∧ OnlyIn (.regs :: l) s t

/-! ## Events -/

/-- Event `b` of page `p` has been raised once, with the counter at offset `o` (18 R439, R448): the counter is one higher, or
stands at its greatest value, and the event's bit of BLK_INT_STAT is set; every other bit and counter of the page stays. -/
def Raised (p o b : Nat) (s t : State) : Prop :=
  t.cnt p o = min (s.cnt p o + 1) (cntMax p o) ∧ (t.hdr p).intStat = (s.hdr p).intStat ||| wd (2 ^ b) ∧
    ∀ q, q ≠ o → t.cnt p q = s.cnt p q

/-- The counter at offset `o` of page `p` is higher by `n`, or stands at its greatest value (18 R448); the other counters of the
page stay. -/
def Counted (p o n : Nat) (s t : State) : Prop :=
  t.cnt p o = min (s.cnt p o + n) (cntMax p o) ∧ ∀ q, q ≠ o → t.cnt p q = s.cnt p q

/-- A refused write: the page's capture holds the code, the writer, the offset and the value where it was free, and otherwise
counts one more lost happening (18 R446, R447). -/
def Recorded (w : Who) (p : Nat) (c : RefCode) (o : Nat) (v : Word) (s t : State) : Prop :=
  (t.hdr p).errValid = true ∧
    if (s.hdr p).errValid then (t.hdr p).errLost = min 15 ((s.hdr p).errLost + 1) ∧ (t.hdr p).errInfo = (s.hdr p).errInfo
    else (t.hdr p).errRefusal = true ∧ (t.hdr p).errLost = 0 ∧ (t.hdr p).errInfo = refInfo w c o ∧
      (t.hdr p).errAddr = v.setWidth 64

/-! ## The step axis -/

/-- A quorum of the registered contributors of job `j` have reached step `x` (02 R32): QUORUM.Q of them, or all of them where
Q is 0; none has where the quorum is larger than their number. -/
def State.reached (s : State) (j x : Nat) : Bool :=
  let cs := s.registeredAll j
  let q := s.regF pgSCH (0x210 + 0x40 * j) 0 10
  let q := if q = 0 then cs.length else q
  !cs.isEmpty && decide (q ≤ cs.length) && decide (q ≤ cs.countP fun c => decide (x ≤ (s.mc j c).toNat))

/-- The axis of job `j` moves from `s` to `t` as R32 says: it never falls, it stands no lower than any step that a quorum has
reached, and it moves only to such a step; the other jobs' axes stay. -/
def AxisMoves (j : Nat) (s t : State) : Prop :=
  (s.axis j).toNat ≤ (t.axis j).toNat ∧ (∀ x, t.reached j x = true → x ≤ (t.axis j).toNat) ∧
    (t.axis j = s.axis j ∨ t.reached j (t.axis j).toNat = true) ∧ ∀ i, i ≠ j → t.axis i = s.axis i

/-! ## The scoreboard -/

/-- The state of entry `id`, and how far its unit is. -/
def State.stOf (s : State) (id : Nat) : Option OpSt := (s.entry? id).map Entry.st
def State.workOf (s : State) (id : Nat) : Option Work := (s.entry? id).map Entry.work

/-- Entry `id` is ACTIVE, and its unit is as `w` says; every other entry is as it was. -/
def Served (id : Nat) (w : Work) (s t : State) : Prop :=
  t.stOf id = some .active ∧ t.workOf id = some w ∧ ∀ i, i ≠ id → t.entry? i = s.entry? i

/-- The engine complex of die `d` takes entry `e`, whose descriptor `ws` is well formed and lies in the job's ranges; an
engine is in service (05 R122, R128). -/
structure EngTakes (d : Nat) (e : Entry) (ws : List Word) (s : State) : Prop where
  next : s.engNext d = some (e, ws)
  svc : s.regF (pgENG d) 0x100 0 8 ≠ 0
  form : edFormOk e.d.opcode ws = true
  place : s.edPlaceOk e.d ws = true

/-- The group of core `c` takes TASK `e`, and core `c` is free to run it; no exception record waits on its die (05 R137, R141). -/
structure TaskTakes (c : Nat) (e : Entry) (s : State) : Prop where
  next : s.pick 5 (c / 8) (fun e => e.d.opcode = 11 && e.d.unit = c / 8) = some e
  svc : s.grpInSvc (c / 8) = true
  idle : s.coreIdle c = true
  exc : s.gc.exc.getD (c / 32) [] = []

/-- Core `c` runs user task `e`, and does not wait (05 R138). -/
structure TaskRuns (c : Nat) (e : Entry) (s : State) : Prop where
  task : (s.core c).task = some e.id
  entry : s.entry? e.id = some e
  user : (s.core c).builtin = false
  awake : (s.core c).waiting = false
  sub : (s.core c).subQ = []

/-- What the ACTIVE-entry fault report needs: the entry is ACTIVE, and has not faulted already. -/
def Entry.canFault (e : Entry) : Prop := e.st = .active ∧ ∀ a b, e.work ≠ .faulted a b

/-! ## Shard rings -/

/-- The record or segment is for group `g`, which carries, at the current role epoch (07 R184, R185, R196). -/
structure Carries (g : Nat) (r : RingRec) (s : State) : Prop where
  grp : s.grpOfTag r.jobtag r.chan.toNat = some g
  live : s.grpLive g = true
  epoch : r.epoch = s.grpEpoch g

/-! ## Grants -/

/-- The record as it is written: with the window's R_Key of the moment. -/
def State.keyed (s : State) (j : Nat) (r : GrantRec) : GrantRec :=
  { r with rkey := if r.kind = 3 then 0 else match s.reduceWin j r.ream with | some w => s.winKey w | none => 0 }

/-- A record for a contributor: written under the next GSEQ where its ring has room and nothing is held, and held otherwise. -/
def Granted (j : Nat) (key : GrantRec) (r : GrantRec) (c : Nat) (s t : State) : Prop :=
  (s.grantRoom j c = true ∧ s.heldOf j c = [] →
    t.gseqOf j c = s.gseqOf j c + 1 ∧ t.heldOf j c = [] ∧ t.unackOf j c = s.unackOf j c ++ [(s.gseqOf j c + 1, key)]) ∧
  (¬ (s.grantRoom j c = true ∧ s.heldOf j c = []) →
    t.gseqOf j c = s.gseqOf j c ∧ t.heldOf j c = s.heldOf j c ++ [r] ∧ t.unackOf j c = s.unackOf j c)

/-! ## Sessions -/

/-- A handshake message goes out (12 R324): a peer's as an EMSOASH message on both ports, a link's on its port. -/
def SentAgain (i : Nat) (m : List Byte) (s t : State) : Prop :=
  if i < 64 then ∀ r, r < 2 → ∃ q : ProtMsg, (t.port r).protQ = (s.port r).protQ ++ [(q, none)] ∧
    q.dst = BitVec.ofNat 16 (s.sessSeid i) ∧ q.src = Config.seid ∧ q.kind = 3 ∧ q.hops = 15 ∧ q.body = m
  else (t.port (i - 64)).hsQ = (s.port (i - 64)).hsQ ++ [m]

/-- Session `i` has begun a handshake as its initiator (12 R314, R321, R322). -/
def Started (i : Nat) (s t : State) : Prop :=
  let x := s.sess i
  let y := t.sess i
  y.st = stHandshake x.st ∧ y.init = true ∧ y.await = 2 ∧ y.sends = 1 ∧ y.gens = x.gens ∧ y.sgen = x.sgen ∧
    y.newGen = (if x.gens = [] then 0 else (x.sgen + 1) % 16) ∧ y.msg = y.kx1 ∧
    y.kx1.take 5 = [1, 1, if i < 64 then 2 else 1, BitVec.ofNat 8 (y.newGen % 16), BitVec.ofNat 8 (if i < 64 then 0 else i - 64)] ∧
    SentAgain i y.msg s t ∧ ∀ n, n ≠ i → t.sess n = s.sess n

/-- The handshake of session `i` has been abandoned with a REASON (12 R323, R324): a session that has a generation in force keeps it, but
one whose messages had no reply is FAILED. -/
def Abandoned (i reason : Nat) (s t : State) : Prop :=
  let x := s.sess i
  t.sess i = { x with
    st := if reason = 6 then 5 else if x.st = 3 then 2 else if x.st = 4 then 4 else 5, reason := reason, await := 0, sends := 0 } ∧
    (∀ n, n ≠ i → t.sess n = s.sess n) ∧ (s.pageOff (sessPage i) = false → Raised (sessPage i) 0x828 8 s t) ∧
    (s.pageOff (sessPage i) = false → (s.hdr (sessPage i)).errValid = false →
      (t.hdr (sessPage i)).errInfo = wd (i % 64 + reason * 2 ^ 6)) ∧
    OnlyIn [.ciph, .host, .mgmt, .pages, .cnts] s t

/-- The generation that session `i` was opening is in force under a root key (12 R313 to R315): it is the newest one kept, of
four for a peer and two for a link. -/
def InForce (i : Nat) (root : List Byte) (s t : State) : Prop :=
  let x := s.sess i
  let y := t.sess i
  y.st = 2 ∧ y.reason = 0 ∧ y.sgen = x.newGen ∧ y.await = 0 ∧
    y.gens = (x.newGen :: x.gens.filter fun g => g ≠ x.newGen).take (if i < 64 then 4 else 2) ∧
    t.rootKey i x.newGen = some root ∧ (∀ n, n ≠ i → s.mayRenew n = false → t.sess n = s.sess n) ∧
    OnlyIn [.sch, .sheet, .ring, .outer, .line, .ciph, .host, .pool, .mem, .mgmt, .pages, .cnts] s t

/-! ## Command packets -/

/-- The function, job and opcode of the packet that a packet command executes (15 Table 15.6). -/
def pktOf : Instr → Option (Func × PktJob × Nat)
  | .nop f q => some (f, q, 0x00)
  | .submit f q => some (f, q, 0x01)
  | .cancel f q => some (f, q, 0x02)
  | .regWrite f q => some (f, q, 0x03)
  | .regRead f q _ => some (f, q, 0x04)
  | .memWrite f q => some (f, q, 0x05)
  | .memRead f q _ => some (f, q, 0x06)
  | .qpCreate f q => some (f, q, 0x07)
  | .qpModify f q => some (f, q, 0x08)
  | .qpDestroy f q => some (f, q, 0x09)
  | .jobAssign f q => some (f, q, 0x0A)
  | .jobStart f q => some (f, q, 0x0B)
  | .jobQuiesce f q => some (f, q, 0x0C)
  | .jobRelease f q => some (f, q, 0x0D)
  | .attest f q _ => some (f, q, 0x0E)
  | .timeSend f q => some (f, q, 0x0F)
  | .launch f q => some (f, q, 0x10)
  | .captureDump f q _ => some (f, q, 0x11)
  | _ => none

/-- Packet `k` of function `f` and job `q` is next and has an opcode that may execute: boot has ended or the opcode runs before
(17 R431), the function may send it (15 R378), the job's state allows it (15 R371), and its buffer is free of poison (14 Table
14.3). -/
structure PktGo (f : Func) (q : PktJob) (op : Nat) (k : Pkt) (s : State) : Prop where
  ready : s.pktReady f.val q.val = some k
  code : k.opcode = op
  boot : s.boot.done.getLsbD 11 = true ∨ op = 0 ∨ op = 4
  may : s.mayStart f.val q.val op = true
  job : q.val < 8 → stAllows (s.jobSt q.val) op = true
  clean : s.poolBad .headbox (slotKey2 f.val k.slot) = none

/-- The state with packet `k` taken as the next of its function and job: the SEQ after it is expected (15 R377). -/
def pktNow (k : Pkt) (s : State) : State :=
  s.updFn k.f.val fun x =>
    { x with nextSeq := SMap.set (fun _ => 0) k.q.val (k.seq + 1) x.nextSeq, gap := SMap.set (fun _ => false) k.q.val false x.gap }

/-- Packet `k` is no longer held, and the SEQ after it is expected next (15 R377). -/
def Passed (k : Pkt) (s t : State) : Prop :=
  t.pktNext k.f.val k.q.val = k.seq + 1 ∧ t.host.pkts.length < s.host.pkts.length ∧ ∀ x ∈ t.host.pkts, x ∈ s.host.pkts

/-- A record waits for packet `k` with this status, RESULT and DETAIL (15 R382, Table 15.8). -/
def HasRecord (k : Pkt) (status result detail : Nat) (t : State) : Prop :=
  ∃ r ∈ (t.fn k.f.val).hold, r.seq = k.seq ∧ r.kind = 0 ∧ r.opcode = k.opcode ∧ r.status = status ∧ r.tag = k.tag ∧
    r.result = BitVec.ofNat 64 result ∧ r.detail = wd detail ∧ r.slot = some k.slot

/-- Packet `k` has completed. -/
def Ended (k : Pkt) (status result detail : Nat) (s t : State) : Prop :=
  Passed k s t ∧ HasRecord k status result detail t

/-- The parts that a packet's end itself may change: its record, its slot and its pool buffer, with the marks of poisoned units that
the next to hold the buffer clears (14 R356). -/
def pktParts : List Part := [.host, .pool, .mem, .mgmt, .pages, .cnts]

/-- No byte of HBM or of the LPDDR5X changes. -/
def SameBytes (s t : State) : Prop := t.mem.hbm = s.mem.hbm ∧ t.mem.lp = s.mem.lp

/-- Only the listed parts change beside what a packet's end changes, and no byte of memory. -/
def PktOnly (l : List Part) (s t : State) : Prop := OnlyIn (l ++ pktParts) s t ∧ SameBytes s t

/-! ## Reconfigurations -/

/-- The positions that run when group `g` reconfigures with a cut, and those that are fenced then (16 R395, R399). -/
def State.runners (s : State) (g : Nat) (cut : Option Nat) : List Nat := s.bestChain g cut
def State.fences (s : State) (g : Nat) (cut : Option Nat) : BitVec 16 :=
  BitVec.ofNat 16 (bitsNat ((List.range (gtS (s.gtCtl g))).filter fun q => !(s.runners g cut).contains q))

/-- A reconfiguration of group `g` has started from `s` (16 R395 to R397). At a gateway that is not the leader the positions that
do not run are fenced. The leader tells every other member that runs; where it runs itself with others it holds the group under
the new epoch and waits for their answers, and where it does not run it fences itself and holds. -/
def Reconfigures (g : Nat) (cut : Option Nat) (s t : State) : Prop :=
  let me := gtPos (s.gtCtl g)
  let run := s.runners g cut
  (s.leaderPos g ≠ me → t.mgrp g = { s.mgrp g with fenced := s.fences g cut } ∧ t.ring = s.ring) ∧
    (s.leaderPos g = me → ∃ epoch : Word,
      (∀ q, q ∈ run → q ≠ me → Out.root (s.gtSeid g q) "RECONF"
        [(s.gtTag g).toNat, gtGroup (s.gtCtl g), epoch.toNat, (s.fences g cut).toNat, cut.getD 16] ∈ t.out) ∧
      (t.mgrp g).fenced = s.fences g cut ∧
      (me ∉ run → (t.grp g).st = .held) ∧
      (me ∈ run → run.length ≠ 1 → (t.grp g).st = .held ∧ (t.mgrp g).epoch = epoch ∧ (t.mgrp g).running = true ∧
        (t.mgrp g).cut = cut.map (BitVec.ofNat 4) ∧ (t.mgrp g).leader = me))

/-! ## Frames of the fabric -/

/-- A frame on MAC `m` that ends in the gateway at queue pair `q`: the MAC is up and enabled, header capture and mirroring are off, and
rows 1 and 2 of 09 Table 9.5 let it through. -/
def State.soundFrame (s : State) (m : Nat) (f : Frame) (q : Qp) : Prop :=
  s.macUp m = true ∧ s.macEn m = true ∧ bit (s.reg pgSW 0x300) 31 = false ∧ bit (s.reg pgSW 0x320) 31 = false ∧
  f.fcsOk = true ∧ f.ipOptions = false ∧ f.udpDst = 4791 ∧ f.kind = .roce ∧ s.qp? f.qpn = some q ∧ f.icrcOk = true ∧
  f.rcOpcode = true ∧ (q.state = 2 ∨ q.state = 3) ∧ f.pkey = q.pkey ∧
  ∃ l, s.lipOf f.v6 f.dstIp = some l ∧ s.regF pgSW 0x134 24 3 l = q.job.val

/-! ## Completion -/

/-- The command answers a next state, and that state is as `P` says. -/
def Completes (c : Instr) (s : State) (P : State → Prop) : Prop := ∃ t, exec c s = .next t ∧ P t

end Sys2Proof.Machine
end

