-- ==== Sys2Proof/Certificates/Slice0/Obligations.lean ====
section
/-! DEFINITION. The statements for the provers: what the commands of the gateway do, what every command keeps, and what reset
leaves. Each names the rules of the spec that it rests on; a clause for a command says on which states and operands it has its
own effect, what that effect is, and what stays. -/
section

open Sys2Proof Sys2Proof.Machine

/-! ## Every step and every command -/

/-- A step takes the front command and runs it on the rest; that there is a queue is the model's, not the spec's. -/
def Obligations.StepRunsFrontCommand : Prop :=
  ∀ (c : Instr) (l : List Instr) (s : State), step { s with pending := c :: l } = exec c { s with pending := l }

/-- The empty queue (log 14): network time advances by one nanosecond (13 R329), and nothing else happens but the count of
the wraps of TIME_NS. -/
def Obligations.IdleStepIsOneNanosecond : Prop :=
  ∀ s : State, s.pending = [] →
    ∃ t, step s = .next t ∧ (s.pageOff (pgTIME 0) = false → t.time.nt = s.time.nt + 1) ∧
      (s.pageOff (pgTIME 0) = true → t = s) ∧
      (loW (s.time.nt + 1) ≠ 0 → t.fab = s.fab) ∧ OnlyIn [.time, .fab] s t ∧
      t.pending = [] ∧ t.out = s.out ∧ t.freeCtr = s.freeCtr

/-- The invariant of Safety.lean is kept by every step from every state that has it. -/
def Obligations.EveryStepKeepsInv : Prop := ∀ s t : State, s.Inv → step s = .next t → t.Inv

/-- What reset leaves (18 Table 18.2, Table 18.3; 15 R371; 02 R36). -/
def Obligations.ResetHasInv : Prop :=
  State.reset.Inv ∧ State.reset.pending = [] ∧ State.reset.out = [] ∧
    (∀ j, State.reset.jobSt j = .free ∧ State.reset.axis j = 0) ∧ (∀ p o, State.reset.cnt p o = 0) ∧
    (∀ p, State.reset.hdr p = hdrDefault p) ∧ ∀ p o ix, State.reset.reg p o ix = regDefault (regKey p o ix)

/-- No command stops; the queue, the free values and the trail (logs 2 and 14). -/
def Obligations.EveryCommandCompletes : Prop :=
  ∀ (c : Instr) (s : State), ∃ t, exec c s = .next t ∧ t.pending = s.pending ∧ s.freeCtr ≤ t.freeCtr ∧ s.out <+: t.out

/-- No command clears a page's lock but one that resets the module (18 R443). -/
def Obligations.LocksHoldUntilReset : Prop :=
  ∀ (s t : State) (p : Nat), step s = .next t → (s.hdr p).locked = true →
    (t.hdr p).locked = true ∨ ∃ l, t.out = s.out ++ l ∧ Out.reset ∈ l

/-- The frame of every command: mayChange (Safety.lean) lists what it may change. -/
def Obligations.EveryCommandFrame : Prop :=
  ∀ (c : Instr) (s t : State), exec c s = .next t → OnlyIn (mayChange c) s t

/-! ## Register accesses (15 R372, R373; 18 R439 to R448) -/

/-- The header rows (18 R439, R444, R446, R448, Tables 18.2 to 18.6). -/
def Obligations.PageHeaders : Prop :=
  (∀ (w : Who) (pg : Fin 72) (v : Word) (s : State),
    s.reaches w pg = true → s.mayHdr w pg true = true →
    Completes (.blkIntStatWrite w pg v) s fun t =>
      let u := s.updHdr pg fun h => { h with intStat := h.intStat &&& ~~~v }
      t.hdr pg = u.hdr pg ∧ (∀ q, q ≠ pg.val → t.hdr q = s.hdr q) ∧
      (u.summary pg = false → t.out = s.out ∧ t.host = s.host) ∧
      (u.summary pg = true → t.out = (vectorSend pg u).out ∧ t.host = (vectorSend pg u).host) ∧
      OnlyIn [.pages, .host] s t) ∧
  (∀ (w : Who) (pg : Fin 72) (v : Word) (s : State),
    s.reaches w pg = true → s.mayHdr w pg true = true →
    Completes (.blkIntEnWrite w pg v) s fun t =>
      let u := s.updHdr pg fun h => { h with intEn := v &&& evMask pg }
      t.hdr pg = u.hdr pg ∧ (∀ q, q ≠ pg.val → t.hdr q = s.hdr q) ∧
      (u.summary pg = false → t.out = s.out ∧ t.host = s.host) ∧
      (u.summary pg = true → t.out = (vectorSend pg u).out ∧ t.host = (vectorSend pg u).host) ∧ OnlyIn [.pages, .host] s t) ∧
  (∀ (w : Who) (pg : Fin 72) (v : Word) (s : State),
    s.reaches w pg = true → s.mayHdr w pg true = true →
    Completes (.blkCtlWrite w pg v) s fun t =>
      let u := s.updHdr pg fun h => { h with dest := fld v 8 2, vec := fld v 0 6 }
      (fld v 8 2 < 2 → t.hdr pg = u.hdr pg ∧ (∀ q, q ≠ pg.val → t.hdr q = s.hdr q) ∧
        (u.summary pg = false → t.out = s.out ∧ t.host = s.host) ∧
        (u.summary pg = true → t.out = (vectorSend pg u).out ∧ t.host = (vectorSend pg u).host) ∧ OnlyIn [.pages, .host] s t) ∧
      (2 ≤ fld v 8 2 → Recorded w pg .rsvdEnc 0x008 v s t ∧ (t.hdr pg).dest = (s.hdr pg).dest ∧ (t.hdr pg).vec = (s.hdr pg).vec ∧
        t.out = s.out ∧ OnlyIn [.pages] s t)) ∧
  (∀ (w : Who) (pg : Fin 72) (v : Word) (s : State),
    s.reaches w pg = true → s.mayHdr w pg true = true →
    Completes (.blkIntSet w pg v) s fun t =>
      let u := s.updHdr pg fun h => { h with intStat := h.intStat ||| v &&& evMask pg }
      t.hdr pg = u.hdr pg ∧ (∀ q, q ≠ pg.val → t.hdr q = s.hdr q) ∧
      (s.summary pg = true ∨ u.summary pg = false → t.out = s.out ∧ t.host = s.host) ∧
      (s.summary pg = false ∧ u.summary pg = true → t.out = (vectorSend pg u).out ∧ t.host = (vectorSend pg u).host) ∧
      OnlyIn [.pages, .host] s t) ∧
  (∀ (w : Who) (pg : Fin 72) (v : Word) (s : State),
    s.reaches w pg = true → s.mayHdr w pg true = true → bit v 31 = true →
    Completes (.blkErrSrcWrite w pg v) s fun t =>
      t.hdr pg = { s.hdr pg with errValid := false, errRefusal := false, errLost := 0, errCode := 0, errInfo := 0, errAddr := 0 } ∧
      (∀ q, q ≠ pg.val → t.hdr q = s.hdr q) ∧ t.out = s.out ∧ OnlyIn [.pages] s t) ∧
  (∀ (w : Who) (pg : Fin 72) (v : Word) (s : State),
    s.reaches w pg = true → s.mayHdr w pg true = true →
    Completes (.cntSnap w pg v) s fun t =>
      (∀ c ∈ pgCnts pg, SMap.get (fun _ => 0) t.snaps (cntKey pg c.1) = s.cnt pg c.1) ∧
      (∀ o ∈ peakRegs pg, SMap.get (fun _ => 0) t.snaps (cntKey pg o) = (s.pageView .root pg o 0).toNat) ∧
      (t.hdr pg).held = true ∧ (t.hdr pg).view = bit v 8 ∧
      (bit v 1 = false → t.cnts = s.cnts ∧ (t.hdr pg).sat = (s.hdr pg).sat) ∧
      OnlyIn [.sch, .fab, .pool, .pages, .cnts, .snaps] s t) ∧
  ∀ (w : Who) (pg : Fin 72) (v : Word) (s : State),
    s.reaches w pg = true → s.mayHdr w pg true = true →
    Completes (.cntClear w pg v) s fun t =>
      (∀ c ∈ pgCnts pg, t.cnt pg c.1 = 0) ∧ (∀ p o, (∀ c ∈ pgCnts pg, cntKey p o ≠ cntKey pg c.1) → t.cnt p o = s.cnt p o) ∧
      (t.hdr pg).sat = false ∧ (bit v 0 = false → t.snaps = s.snaps ∧ (t.hdr pg).held = (s.hdr pg).held) ∧
      OnlyIn [.sch, .fab, .pool, .pages, .cnts, .snaps] s t

/-- 18 R441. The committed value is what the block takes, so the clause on _HI speaks of takeWrite; the classes, clocks, locks
and encodings that also decide an access are in RegisterWrites. -/
def Obligations.PairedRegisters : Prop :=
  (∀ (w : Who) (off p o : Nat) (r : RegRow) (s : State),
    barTarget w off = .page p o → regRow p o = some r → r.pair = true → r.word o = 0 → r.cls ≠ .ownIdx →
    0x100 ≤ o → o < 0x800 →
    s.reaches w p = true → s.pageOff p = false → s.mayRead w p o r (s.entryIx w p r) = true →
    Completes (.pairLoRead w off) s fun t =>
      t.out = s.out ++ [.read w off (s.pageView w p o (s.entryIx w p r))] ∧
      SMap.find t.latch (pairKey w p o) = some (s.pageView w p (o + 4) (s.entryIx w p r)) ∧
      (∀ k, k ≠ pairKey w p o → SMap.find t.latch k = SMap.find s.latch k) ∧ t.heldLo = s.heldLo ∧ OnlyIn [.halves] s t) ∧
  (∀ (w : Who) (off p o : Nat) (r : RegRow) (s : State),
    barTarget w off = .page p o → regRow p o = some r → r.pair = true → r.word o = 1 → r.cls ≠ .ownIdx →
    0x100 ≤ o → o < 0x800 →
    s.reaches w p = true → s.pageOff p = false → s.mayRead w p o r (s.entryIx w p r) = true →
    Completes (.pairHiRead w off) s fun t =>
      t.out = s.out ++ [.read w off ((SMap.find s.latch (pairKey w p (o - 4))).getD (s.pageView w p o (s.entryIx w p r)))] ∧
      SMap.find t.latch (pairKey w p (o - 4)) = none ∧
      (∀ k, k ≠ pairKey w p (o - 4) → SMap.find t.latch k = SMap.find s.latch k) ∧ t.heldLo = s.heldLo ∧ OnlyIn [.halves] s t) ∧
  (∀ (w : Who) (off : Nat) (p : Fin 72) (c : Nat × Bool) (s : State),
    c ∈ pgCnts p → c.2 = true → s.reaches w p = true → s.pageOff p = false → s.mayHdr w p false = true →
    (s.hdr p).view = false →
    (barTarget w off = .page p c.1 → Completes (.pairLoRead w off) s fun t =>
      t.out = s.out ++ [.read w off (loW (BitVec.ofNat 64 (s.cnt p c.1)))] ∧
      SMap.find t.latch (pairKey w p c.1) = some (hiW (BitVec.ofNat 64 (s.cnt p c.1))) ∧
      (∀ k, k ≠ pairKey w p c.1 → SMap.find t.latch k = SMap.find s.latch k) ∧ OnlyIn [.halves] s t) ∧
    (barTarget w off = .page p (c.1 + 4) → Completes (.pairHiRead w off) s fun t =>
      t.out = s.out ++ [.read w off ((SMap.find s.latch (pairKey w p c.1)).getD (hiW (BitVec.ofNat 64 (s.cnt p c.1))))] ∧
      SMap.find t.latch (pairKey w p c.1) = none ∧
      (∀ k, k ≠ pairKey w p c.1 → SMap.find t.latch k = SMap.find s.latch k) ∧ OnlyIn [.halves] s t)) ∧
  (∀ (w : Who) (off p o : Nat) (v : Word) (r : RegRow) (s : State),
    barTarget w off = .page p o → regRow p o = some r → r.pair = true → r.word o = 0 → r.cls ≠ .ownIdx →
    ¬ (r.rw = 0 ∧ r.rwHi = 0) → s.allows w p o v = true →
    Completes (.pairLoWrite w off v) s fun t =>
      SMap.find t.heldLo (pairKey w p o) = some v ∧
      (∀ k, k ≠ pairKey w p o → SMap.find t.heldLo k = SMap.find s.heldLo k) ∧ t.latch = s.latch ∧ t.out = s.out ∧
      OnlyIn [.halves] s t) ∧
  (∀ (w : Who) (off p o : Nat) (v : Word) (r : RegRow) (s : State),
    barTarget w off = .page p o → regRow p o = some r → r.pair = true → r.word o = 1 → r.cls ≠ .ownIdx →
    ¬ (r.rw = 0 ∧ r.rwHi = 0) → s.allows w p o v = true →
    Completes (.pairHiWrite w off v) s fun t =>
      let k := pairKey w p (o - 4)
      let lo := match SMap.find s.heldLo k with | some x => x | none => s.reg p (o - 4) (s.entryIx w p r)
      t = takeWrite (pageEffect w p (o - 4)) w p o (s.entryIx w p r) (pairW (v &&& r.rwHi) (lo &&& r.rw)) v
        { s with heldLo := SMap.erase k s.heldLo }) ∧
  (∀ (w w' : Who) (p p' o o' : Nat), p < 128 → p' < 128 → o < 0x1000 → o' < 0x1000 →
    pairKey w p o = pairKey w' p' o' → w = w' ∧ p = p' ∧ o = o') ∧
  ∀ (f : Func) (s : State), s.pwr.st = .on →
    Completes (.flr f) s fun t =>
      (∀ p o, p < 128 → o < 0x1000 →
        SMap.find t.latch (pairKey (.func f) p o) = none ∧ SMap.find t.heldLo (pairKey (.func f) p o) = none) ∧
      ∀ (g : Func) p o, p < 128 → o < 0x1000 → g ≠ f →
        SMap.find t.latch (pairKey (.func g) p o) = SMap.find s.latch (pairKey (.func g) p o) ∧
        SMap.find t.heldLo (pairKey (.func g) p o) = SMap.find s.heldLo (pairKey (.func g) p o)

/-- REGISTER_WRITE (00 R7, 15 R372, 18 R442, R443, R447): what refuses it, and a page whose registers only hold what is
written. -/
def Obligations.RegisterWrites : Prop :=
  (∀ (f : Func) (off p o : Nat) (v : Word) (r : RegRow) (s : State),
    barTarget (.func f) off = .page p o → 0x100 ≤ o → regRow p o = some r → s.reaches (.func f) p = true →
    s.mayWrite (.func f) p o r (s.entryIx (.func f) p r) v = false → s.pageOff (pgHOSTF f.val) = false →
    Completes (.registerWrite (.func f) off v) s fun t =>
      Raised (pgHOSTF f.val) 0x810 3 s t ∧ Recorded (.func f) (pgHOSTF f.val) .notOwner o v s t ∧
      OnlyIn [.host, .mgmt, .pages, .cnts] s t) ∧
  (∀ (w : Who) (off p o : Nat) (v : Word) (r : RegRow) (s : State),
    barTarget w off = .page p o → 0x100 ≤ o → regRow p o = some r → s.reaches w p = true →
    s.mayWrite w p o r (s.entryIx w p r) v = true →
    (s.pageOff p = true → Completes (.registerWrite w off v) s fun t =>
      Recorded w p .domOff o v s t ∧ t.out = s.out ∧ OnlyIn [.pages] s t) ∧
    (s.pageOff p = false → r.rwl ≠ 0 → (s.hdr p).locked = true → Completes (.registerWrite w off v) s fun t =>
      Recorded w p .locked o v s t ∧ t.out = s.out ∧ OnlyIn [.pages] s t) ∧
    (s.pageOff p = false → (r.rwl = 0 ∨ (s.hdr p).locked = false) →
      rsvd r (merge r.rw (s.reg p o (s.entryIx w p r)) v) = true → Completes (.registerWrite w off v) s fun t =>
        Recorded w p .rsvdEnc o v s t ∧ t.out = s.out ∧ OnlyIn [.pages] s t)) ∧
  ∀ (w : Who) (off o : Nat) (v : Word) (r : RegRow) (s : State),
    barTarget w off = .page pgHOST o → regRow pgHOST o = some r → r.cls ≠ .ownIdx → r.pair = false → r.rw ||| r.rwl ≠ 0 →
    s.allows w pgHOST o v = true →
    Completes (.registerWrite w off v) s fun t => Stored w pgHOST o v [] s t ∧ t.out = s.out

/-- 18 R442. -/
def Obligations.PagesWithoutClock : Prop :=
  (∀ (w : Who) (off p o : Nat) (s : State),
    s.pageOff p = true → barTarget w off = .page p o → s.reaches w p = true →
    (o < 0x100 → s.mayHdr w p false = true → Completes (.pairLoRead w off) s fun t =>
      t.out = s.out ++ [.read w off (s.hdrView p o)] ∧ OnlyIn [] s t) ∧
    (0x100 ≤ o → Completes (.pairLoRead w off) s fun t => t.out = s.out ++ [.read w off 0] ∧ OnlyIn [] s t)) ∧
  (∀ (p : Nat) (s : State), s.pageOff p = true → bit (s.hdrView p 0x00C) 5 = true) ∧
  (∀ (w : Who) (off p o : Nat) (v : Word) (s : State),
    s.pageOff p = true → barTarget w off = .page p o → s.reaches w p = true → o < 0x100 → s.mayHdr w p true = true →
    Completes (.registerWrite w off v) s fun t => t = hdrWr w p o v s) ∧
  (∀ (w : Who) (off p o : Nat) (v : Word) (r : RegRow) (s : State),
    s.pageOff p = true → barTarget w off = .page p o → s.reaches w p = true → 0x100 ≤ o → regRow p o = some r →
    s.mayWrite w p o r (s.entryIx w p r) v = true →
    Completes (.registerWrite w off v) s fun t =>
      Recorded w p .domOff o v s t ∧ t.out = s.out ∧ OnlyIn [.pages] s t) ∧
  ∀ (p o b n : Nat) (s : State), s.pageOff p = true →
    event p b s = s ∧ bump p o n s = s ∧ raiseEv p o b s = s ∧ ∀ i a, raiseCap p o b i a s = s

/-- 15 R373. -/
def Obligations.OwnCopies : Prop :=
  (∀ (f : Func) (off p o : Nat) (v : Word) (r : RegRow) (s : State),
    barTarget (.func f) off = .page p o → 0x100 ≤ o → regRow p o = some r → r.cls = .ownIdx → r.rwl = 0 →
    s.reaches (.func f) p = true → s.pageOff p = false → rsvd r (merge r.rw (s.reg p o f.val) v) = false →
    Completes (.registerWrite (.func f) off v) s fun t =>
      t.reg p o f.val = merge r.rw (s.reg p o f.val) v ∧
      (∀ w : Who, w ≠ .func f → ∀ io, t.reg p io (whoCode w) = s.reg p io (whoCode w)) ∧ OnlyIn [.regs] s t) ∧
  (∀ (f g : Func) (off : Nat) (s t : State), g ≠ f →
    (exec (.pairLoRead (.func f) off) s = .next t ∨ exec (.pairHiRead (.func f) off) s = .next t) →
    (∀ p o, p < 128 → o < 0x1000 → SMap.find t.latch (pairKey (.func g) p o) = SMap.find s.latch (pairKey (.func g) p o) ∧
      SMap.find t.heldLo (pairKey (.func g) p o) = SMap.find s.heldLo (pairKey (.func g) p o)) ∧
    SMap.find t.time.hi g.val = SMap.find s.time.hi g.val) ∧
  (∀ (f : Func) (p io : Nat) (r : RegRow) (s : State), r.cls ≠ .ownIdx → r.ix = some io →
    s.entryIx (.func f) p r = (s.reg p io f.val).toNat) ∧
  ∀ (f : Func) (off p o : Nat) (v : Word) (r : RegRow) (s : State),
    barTarget (.func f) off = .page p o → 0x100 ≤ o → regRow p o = some r → s.reaches (.func f) p = true →
    s.pageOff p = false → s.mayWrite (.func f) p o r (s.entryIx (.func f) p r) v = false →
    Completes (.registerWrite (.func f) off v) s fun t => t.regs = s.regs ∧ OnlyIn [.host, .mgmt, .pages, .cnts] s t

/-! ## Two rules of the scheduler in full -/

/-- 02 R35. -/
def Obligations.StepAxisLoad : Prop :=
  ∀ (w : Who) (j : Job) (v : Word) (s : State),
    let o := 0x20C + 0x40 * j.val
    let x := s.takenPair w pgSCH o v
    s.allows w pgSCH o v = true →
    (s.jobOps j.val = [] → Completes (.schStepLoad w j v) s fun t =>
      t.axis j.val = x ∧ (∀ c : Contrib, t.mc j.val c.val = x) ∧
      (∀ i : Job, i ≠ j → t.axis i.val = s.axis i.val ∧ ∀ c : Contrib, t.mc i.val c.val = s.mc i.val c.val) ∧
      t.pages = s.pages ∧ OnlyIn [.sch, .halves] s t) ∧
    (s.jobOps j.val ≠ [] → Completes (.schStepLoad w j v) s fun t =>
      t.sch = s.sch ∧ Recorded w pgSCH .stepLoadBusy o v s t ∧ OnlyIn [.pages, .halves] s t)

/-- 02 R43, R48, R49: the operation on a counter that every completion applies. -/
def Obligations.SignalsSaturate : Prop :=
  (∀ (i n : Nat) (s : State),
    ((signal i n s).ctr i).toNat = min ((s.ctr i).toNat + n) 0xFFFFFFFF ∧ (∀ k, k ≠ i → (signal i n s).ctr k = s.ctr k) ∧
    ((s.ctr i).toNat + n ≤ 0xFFFFFFFF → (signal i n s).pages = s.pages ∧ (signal i n s).out = s.out) ∧
    ((s.ctr i).toNat + n > 0xFFFFFFFF → s.pageOff pgSCH = false →
      ((signal i n s).hdr pgSCH).intStat = (s.hdr pgSCH).intStat ||| wd (2 ^ 4))) ∧
  (∀ (i m n : Nat) (s : State), (signal i n (signal i m s)).ctr i = (signal i (m + n) s).ctr i) ∧
  ∀ (d : Desc) (s : State), s.condsHold d = true ↔
    ∀ k v, (k, v) ∈ (d.wcnt.zip d.wval).take d.nwait → v.toNat ≤ (s.ctr (s.partBase d.job.val + k)).toNat

/-! ## Scheduler (02) -/

/-- STEP_MARK (R31, R33), SCH_STEP_LOAD (R35), REGMAP_WRITE and QUORUM_WRITE (R34): each command that nothing refuses has its
effect, the axis then moves as R32 says, and nothing else changes. -/
def Obligations.StepAxisCommands : Prop :=
  (∀ (j : Job) (c : Contrib) (b : List Byte) (s : State),
    b.length = 16 → leAt b 8 2 = c.val → leAt b 0xA 2 = 0 → s.registered j.val c.val = true →
    (SMap.find s.sch.mseq (mcKey j.val c.val)).all (serialGt (wAt b 0xC)) = true →
    (s.mc j.val c.val).toNat < leAt b 0 8 → leAt b 0 8 ≤ (s.axis j.val).toNat + 65535 →
    Completes (.stepMark j (16 * c.val) b) s fun t =>
      t.mc j.val c.val = BitVec.ofNat 64 (leAt b 0 8) ∧
      SMap.find t.sch.mseq (mcKey j.val c.val) = some (wAt b 0xC) ∧
      (∀ k, k ≠ mcKey j.val c.val → SMap.get (fun _ => 0) t.sch.mc k = SMap.get (fun _ => 0) s.sch.mc k ∧
        SMap.find t.sch.mseq k = SMap.find s.sch.mseq k) ∧
      AxisMoves j.val s t ∧ OnlyIn [.sch] s t) ∧
  (∀ (w : Who) (j : Job) (v : Word) (s : State),
    s.allows w pgSCH (0x20C + 0x40 * j.val) v = true → s.jobOps j.val = [] →
    Completes (.schStepLoad w j v) s fun t =>
      let x := s.takenPair w pgSCH (0x20C + 0x40 * j.val) v
      t.axis j.val = x ∧ (∀ c : Contrib, t.mc j.val c.val = x) ∧
      (∀ i, i ≠ j.val → t.axis i = s.axis i) ∧ (∀ (i : Job) (c : Contrib), i ≠ j → t.mc i.val c.val = s.mc i.val c.val) ∧
      t.sch.ops = s.sch.ops ∧ t.sch.mseq = s.sch.mseq ∧ OnlyIn [.sch, .halves] s t) ∧
  (∀ (w : Who) (j : Job) (k : Fin 16) (v : Word) (s : State),
    s.allows w pgSCH (0x400 + 0x40 * j.val + 4 * k.val) v = true →
    Completes (.regmapWrite w j k v) s fun t =>
      t.regs = (s.setReg pgSCH (0x400 + 0x40 * j.val + 4 * k.val) v).regs ∧
      (∀ i : Fin 32,
        let c := 32 * k.val + i.val
        if bit v i.val && !s.registered j.val c then t.mc j.val c = s.axis j.val ∧ SMap.find t.sch.mseq (mcKey j.val c) = none
        else t.mc j.val c = s.mc j.val c ∧ SMap.find t.sch.mseq (mcKey j.val c) = SMap.find s.sch.mseq (mcKey j.val c)) ∧
      (∀ n, n / 32 ≠ 16 * j.val + k.val → SMap.get (fun _ => 0) t.sch.mc n = SMap.get (fun _ => 0) s.sch.mc n ∧
        SMap.find t.sch.mseq n = SMap.find s.sch.mseq n) ∧
      AxisMoves j.val s t ∧ OnlyIn [.sch, .regs] s t) ∧
  ∀ (w : Who) (j : Job) (v : Word) (s : State),
    s.allows w pgSCH (0x210 + 0x40 * j.val) v = true →
    Completes (.quorumWrite w j v) s fun t =>
      t.regs = (s.setReg pgSCH (0x210 + 0x40 * j.val) (s.taken w pgSCH (0x210 + 0x40 * j.val) v)).regs ∧
      t.sch.mc = s.sch.mc ∧ t.sch.mseq = s.sch.mseq ∧ AxisMoves j.val s t ∧ OnlyIn [.sch, .regs] s t

/-- SCH_CNT_VAL_WRITE (R49, R51) and CNT_PART_WRITE (R50). -/
def Obligations.SyncCounterWrites : Prop :=
  (∀ (w : Who) (v : Word) (s : State), s.allows w pgSCH 0x10C v = true →
    Completes (.schCntValWrite w v) s fun t =>
      (∀ i, t.ctr i = if i = s.idx w pgSCH 0x108 then v else s.ctr i) ∧
      (∀ id e, s.entry? id = some e →
        (e.st ≠ .waiting → t.entry? id = some e) ∧
        (e.st = .waiting → s.ctrJob (s.idx w pgSCH 0x108) = some e.d.job.val →
          (t.entry? id).map Entry.st =
            some (if t.condsHold e.d then (if e.d.claim then .claiming else .ready) else .waiting))) ∧
      t.sch.ops.length = s.sch.ops.length ∧
      t.sch.axis = s.sch.axis ∧ t.sch.mc = s.sch.mc ∧ OnlyIn [.sch] s t) ∧
  ∀ (w : Who) (j : Job) (v : Word) (s : State),
    s.allows w pgSCH (0x214 + 0x40 * j.val) v = true → s.jobOps j.val = [] →
    let x := s.taken w pgSCH (0x214 + 0x40 * j.val) v
    let b := 64 * fld x 16 8
    let n := 64 * fld x 0 6
    n ≤ 2048 → b + n ≤ 16384 →
    (∀ i : Job, i ≠ j → s.partSize i.val = 0 ∨ n = 0 ∨ s.partBase i.val + s.partSize i.val ≤ b ∨ b + n ≤ s.partBase i.val) →
    Completes (.cntPartWrite w j v) s fun t =>
      t.regs = (s.setReg pgSCH (0x214 + 0x40 * j.val) x).regs ∧ t.partBase j.val = b ∧ t.partSize j.val = n ∧
      (∀ i, t.ctr i = if b ≤ i ∧ i < b + n then 0 else s.ctr i) ∧ t.sch.ops = s.sch.ops ∧ OnlyIn [.sch, .regs] s t

/-- SUB_COMMIT (R139), TIME_TRIGGER_MET (R53, R42), CLAIM_GRANT (R111), SCH_OP_STALL (R46), OP_DONE and OP_FAULTED (R42). -/
def Obligations.ScoreboardSteps : Prop :=
  (∀ (c : Core) (desc : List Byte) (acts : List TaskAct) (s : State),
    let s1 := taskActs c.val acts s
    let d := { decodeDesc desc with seq := s1.seqNext (.cores (Fin.ofNat 2 (c.val / 32))) (decodeDesc desc).job.val }
    (s1.coreGoes c.val).isSome = true → descHeadOk desc = true → s1.coreMay c.val d.job.val = true →
    s1.descOk (.cores (Fin.ofNat 2 (c.val / 32))) d = true → s1.opsFull d.job.val = false → s1.claimOver d = false →
    Completes (.subCommit c desc acts) s fun t =>
      (t.sch.ops.map fun e => (e.id, e.src, e.d)) =
        (s1.sch.ops.map fun e => (e.id, e.src, e.d)) ++ [(s1.sch.nextId, .cores (Fin.ofNat 2 (c.val / 32)), d)] ∧
      (t.core c.val).subStatus = 0 ∧ (t.core c.val).subSeq = d.seq ∧ (t.core c.val).task = (s1.core c.val).task ∧
      (∀ i, i ≠ c.val → t.core i = s.core i) ∧ OnlyIn [.sch, .gc] s1 t) ∧
  (∀ (e : Nat) (x : Entry) (s : State),
    s.entry? e = some x → x.st = .armed → x.d.trig = 2 → s.timeMet x.d.trigVal = true →
    Completes (.timeTriggerMet e) s fun t =>
      (t.entry? e).map (fun y => (y.st, y.d)) =
        some (if s.condsHold x.d then (if x.d.claim then .claiming else .ready) else .waiting, x.d) ∧
      (∀ i, i ≠ e → t.entry? i = s.entry? i) ∧ t.sch.cnt = s.sch.cnt ∧ t.sch.axis = s.sch.axis ∧ OnlyIn [.sch] s t) ∧
  (∀ (d : Die) (e : Entry) (s : State),
    s.firstClaim d.val = some e → e.d.vslots ≤ (s.freeSlots d.val).length →
    Completes (.claimGrant d) s fun t =>
      let ns := (s.freeSlots d.val).take e.d.vslots
      let base := if e.d.opcode = 0 then e.d.ebase else 0
      t.wave? e.d.job.val e.d.wave = some { die := d.val, ream := e.d.ream, ebase := base, slots := ns } ∧
      (∀ i, i < ns.length → t.vslot? d.val (ns.getD i 0) =
        some { job := e.d.job.val, wave := e.d.wave, efirst := (base + i) * 8192 }) ∧
      (∀ n ∈ ns, ∀ i, i < 8192 → t.accAt d.val n i = 0) ∧
      (∀ n, n ∉ ns → t.vslot? d.val n = s.vslot? d.val n ∧ ∀ i, i < 8192 → t.accAt d.val n i = s.accAt d.val n i) ∧
      (t.entry? e.id).map Entry.st = (s.entry? e.id).map (fun _ => .ready) ∧
      (∀ i, i ≠ e.id → t.entry? i = s.entry? i) ∧ OnlyIn [.sch, .vat] s t) ∧
  (∀ (e : Nat) (x : Entry) (s : State),
    s.entry? e = some x → x.stalls = true → x.stalled = false → s.regF pgSCH 0x100 0 20 ≠ 0 → s.pageOff pgSCH = false →
    Completes (.schOpStall e) s fun t =>
      t.entry? e = some { x with stalled := true } ∧ (∀ i, i ≠ e → t.entry? i = s.entry? i) ∧
      Raised pgSCH 0x81C 3 s t ∧ OnlyIn [.sch, .host, .mgmt, .pages, .cnts] s t) ∧
  (∀ (e : Nat) (x : Entry) (s : State),
    s.entry? e = some x → x.st = .active → x.work = .finished → x.cancelled = false → e < s.sch.nextId →
    Completes (.opDone e) s fun t =>
      t.entry? e = none ∧
      (x.d.opcode ≠ 6 → x.d.opcode ≠ 10 → t.sch.cnt = (applySignals x.d s).sch.cnt) ∧
      OnlyIn [.sch, .vat, .eng, .gc, .sheet, .ring, .fab, .line, .host, .pool, .mem, .mgmt, .pages, .cnts] s t) ∧
  ∀ (e st det : Nat) (x : Entry) (s : State),
    s.entry? e = some x → x.st = .active → x.work = .faulted st det → x.cancelled = false → e < s.sch.nextId →
    Completes (.opFaulted e) s fun t =>
      t.entry? e = none ∧
      (x.d.opcode ≠ 6 → x.d.opcode ≠ 10 → (s.mgmt.replays.all fun r => r.1 ≠ x.d.plain) = true → t.sch.cnt = s.sch.cnt) ∧
      OnlyIn [.sch, .vat, .eng, .gc, .sheet, .ring, .fab, .line, .host, .pool, .mem, .mgmt, .pages, .cnts] s t

/-! ## Vat (04) -/

/-- COLLECT (R98, R99, R101), RECOLLECT (R114), CMAP_WRITE (R104) and VAT_WIN_CTL_WRITE (R93). The tag is a free value
(log 2); a round number is taken as log 17 says. -/
def Obligations.Collecting : Prop :=
  (∀ (d : Die) (e : Entry) (win : Nat) (w : Wave) (s : State),
    let j := e.d.job.val
    let w1 : Wave := { w with
      cset := s.cmap j, gone := 0, round := BitVec.ofNat 64 (s.roundOf j e.d.ream), resends := 0, content := .int }
    s.vatPick d.val = some e → e.d.opcode = 0 → e.d.recollect = false →
    s.reduceWin j e.d.ream = some win → s.wave? j e.d.wave = some w → w.ream = e.d.ream →
    Completes (.collect d) s fun t =>
      (∃ n, t.wave? j e.d.wave = some { w1 with wcount := n }) ∧
      (∀ h, waveKey j h ≠ waveKey j e.d.wave → t.wave? j h = s.wave? j h) ∧
      (∀ c : Contrib,
        if (s.cmap j).getLsbD c.val then
          Granted j { s.waveRec j w1 1 with rkey := t.winKey win } (s.waveRec j w1 1) c.val s t
        else t.gseqOf j c.val = s.gseqOf j c.val ∧ t.heldOf j c.val = s.heldOf j c.val ∧ t.unackOf j c.val = s.unackOf j c.val) ∧
      t.stOf e.id = some .active ∧ t.vat.slots = s.vat.slots ∧ t.vat.acc = s.vat.acc ∧
      OnlyIn [.sch, .vat, .outer, .fab, .host, .pool, .mem, .mgmt, .pages, .cnts] s t) ∧
  (∀ (d : Die) (e : Entry) (win : Nat) (w : Wave) (s : State),
    let j := e.d.job.val
    s.vatPick d.val = some e → e.d.opcode = 0 → e.d.recollect = true → e.work = .running → e.d.wave < 4096 →
    s.reduceWin j e.d.ream = some win → s.waveOn e.d = some w → w.ream = e.d.ream → w.ebase = e.d.ebase →
    s.collectOf j e.d.wave = none → w.resends < s.resendMax w.die →
    Completes (.recollect d) s fun t =>
      t.winTag win = (Config.free s.freeCtr).toNat % 2 ^ 18 ∧
      (∀ n ∈ w.slots, n < 2048 →
        t.vslot? w.die n = (s.vslot? w.die n).map fun x => { x with bitmap := 0, poisoned := false }) ∧
      (∀ n ∈ w.slots, n < 2048 → ∀ i, i < 8192 → t.accAt w.die n i = 0) ∧
      t.stOf e.id = some .active ∧
      OnlyIn [.sch, .vat, .outer, .fab, .host, .pool, .mem, .mgmt, .pages, .cnts] s t) ∧
  (∀ (w : Who) (j : Job) (k : Fin 16) (v : Word) (s : State),
    let o := 0x400 + 0x40 * j.val + 4 * k.val
    let gone := BitVec.ofNat 512 ((s.reg (pgVAT 0) o &&& ~~~ v).toNat * 2 ^ (32 * k.val))
    s.allows w (pgVAT 0) o v = true →
    Completes (.cmapWrite w j k v) s fun t =>
      t.regs = (s.setReg (pgVAT 0) o v).regs ∧
      (∀ h, h < 4096 → (t.wave? j.val h).map Wave.cset = (s.wave? j.val h).map fun x =>
        if (s.collectOf j.val h).isSome then x.cset &&& ~~~ gone else x.cset) ∧
      OnlyIn [.sch, .vat, .outer, .fab, .host, .pool, .mem, .mgmt, .pages, .regs, .cnts] s t) ∧
  ∀ (w : Who) (v : Word) (s : State),
    let ix := s.idx w (pgVAT 0) 0x110
    let x := s.taken w (pgVAT 0) 0x114 v
    let y := if winType x = 0 then x else setFld x 16 10 0
    s.allows w (pgVAT 0) 0x114 v = true → winType y ≠ 3 → (if winType y = 0 then fld y 12 4 ≤ 8 else fld y 12 4 ≤ 11) →
    s.winBusy ix = false →
    (winValid y = true → winType y = 0 → ∀ e ∈ s.regEntries (pgVAT 0) 0x114, e.1 ≠ ix → winValid e.2 = true →
      winType e.2 = 0 → winJob e.2 = winJob y → winReam e.2 ≠ winReam y) →
    Completes (.vatWinCtlWrite w v) s fun t =>
      t.regs = (s.setReg (pgVAT 0) 0x114 y ix).regs ∧
      (∀ i, t.winTag i = if i = ix ∧ winValid y = true ∧ winValid (s.winCtl ix) = false
        then (Config.free s.freeCtr).toNat % 2 ^ 18 else s.winTag i) ∧
      OnlyIn [.vat, .regs] s t

/-- CONTRIBUTION_WRITE (R83, R85, R92, R95, R102), GRANT_HOLD_RELEASE and GACK_WRITE (R101), VAT_QUOTA_WRITE (R109) and
GRANT_QP_REPLACE (R101). -/
def Obligations.Contributing : Prop :=
  (∀ (q : BitVec 24) (rh : Reth) (data : List Byte) (j c h : Nat) (f : Fmt) (wv : Wave) (sl : VSlot) (x : Dy) (s : State),
    let win := fld rh.rkey 18 14
    let ctl := s.winCtl win
    let off := rh.va.toNat - (s.winBase win).toNat
    let e := off / f.blkBytes
    let n := (wv.at e).1
    let y := vatEntry x (s.floorF j wv.ream) (draw24 (seedContrib j wv.ream wv.round.toNat c) e)
    let r := vatAdd (s.accAt wv.die n 0) y.v 0
    s.qpTakes q = true → s.ctIn j q = some c → s.qpOfJob j q = true → c < 512 → winFmt ctl = some f → f.blk = 1 → winValid ctl = true → winType ctl = 0 →
    winJob ctl = j → winReam ctl = wv.ream → (s.winBase win).toNat ≤ rh.va.toNat → off % f.slotBytes = 0 →
    rh.len = f.blkBytes → data.length = f.blkBytes → off + f.blkBytes = f.reamBytes (s.nelem j wv.ream) →
    fld rh.rkey 0 18 = s.winTag win → s.grantedWave j wv.ream c (e / 8192) = some (h, wv) →
    s.vslot? wv.die n = some sl → sl.poisoned = false → sl.bitmap.getLsbD c = false →
    decodeBlk f data = [some x] → r.2.1 = false →
    Completes (.contributionWrite q (some rh) data []) s fun t =>
      t.accAt wv.die n 0 = r.1 ∧ (∀ k, k ≠ accKey wv.die n 0 → SMap.get (fun _ => 0) t.vat.acc k = SMap.get (fun _ => 0) s.vat.acc k) ∧
      t.vslot? wv.die n = some { sl with bitmap := sl.bitmap ||| (1 <<< c : BitVec 512) } ∧
      (∀ k, k ≠ slotKey wv.die n → SMap.find t.vat.slots k = SMap.find s.vat.slots k) ∧
      SMap.find t.vat.msgs (ctIx j c) = none ∧
      OnlyIn [.sch, .vat, .outer, .fab, .host, .pool, .mem, .mgmt, .pages, .cnts] s t) ∧
  (∀ (j : Job) (c : Contrib) (s : State), s.grantRoom j.val c.val = true → s.heldOf j.val c.val ≠ [] →
    Completes (.grantHoldRelease j c) s fun t => ∃ n rs,
      n ≤ (s.heldOf j.val c.val).length ∧ t.heldOf j.val c.val = (s.heldOf j.val c.val).drop n ∧
      t.unackOf j.val c.val = s.unackOf j.val c.val ++ rs ∧
      rs.map (fun x => (x.2.ream, x.2.kind, x.2.round, x.2.efirst, x.2.ecount)) =
        ((s.heldOf j.val c.val).take n).map (fun x => (x.ream, x.kind, x.round, x.efirst, x.ecount)) ∧
      t.gseqOf j.val c.val = s.gseqOf j.val c.val + BitVec.ofNat 32 n ∧
      (n < (s.heldOf j.val c.val).length → t.grantRoom j.val c.val = false) ∧
      OnlyIn [.vat, .fab, .host, .pool, .mem, .mgmt, .pages, .cnts] s t) ∧
  (∀ (j : Job) (c : Contrib) (q : BitVec 24) (b : List Byte) (s : State),
    s.qpTakes q = true → b.length = 8 → leAt b 4 4 = 0 → bit (s.ctQpn j.val c.val) 31 = true →
    fld (s.ctQpn j.val c.val) 0 24 = q.toNat → serialGt (wAt b 0) (s.gackOf j.val c.val) = true →
    serialGt (wAt b 0) (s.gseqOf j.val c.val) = false →
    Completes (.gackWrite j q (8 * c.val) b) s fun t =>
      t.gackOf j.val c.val = wAt b 0 ∧
      t.unackOf j.val c.val = (s.unackOf j.val c.val).filter (fun r => serialGt r.1 (wAt b 0)) ∧
      (∀ k, k ≠ ctIx j.val c.val → SMap.get (fun _ => 0) t.vat.gack k = SMap.get (fun _ => 0) s.vat.gack k ∧
        SMap.find t.vat.unack k = SMap.find s.vat.unack k) ∧
      t.vat.gseq = s.vat.gseq ∧ t.vat.heldG = s.vat.heldG ∧ OnlyIn [.vat] s t) ∧
  (∀ (w : Who) (d : Die) (j : Job) (v : Word) (s : State),
    let o := 0x200 + 0x10 * j.val
    let x := s.taken w (pgVAT d.val) o v
    s.allows w (pgVAT d.val) o v = true → (fld x 0 12 = s.quota d.val j.val ∨ s.committed d.val j.val = 0) →
    ((List.finRange 8).foldl (fun a i => if i = j then a else a + s.quota d.val i.val) 0) + fld x 0 12 ≤ 2048 →
    Completes (.vatQuotaWrite w d j v) s fun t =>
      t.regs = (s.setReg (pgVAT d.val) o x).regs ∧ OnlyIn [.regs] s t) ∧
  ∀ (w : Who) (v : Word) (s : State),
    let ix := s.idx w (pgVAT 0) 0x130
    let x := s.taken w (pgVAT 0) 0x138 v
    s.allows w (pgVAT 0) 0x138 v = true → bit x 31 = true → x ≠ s.reg (pgVAT 0) 0x138 ix →
    Completes (.grantQpReplace w v) s fun t =>
      t = forAll (s.unackOf (ix / 512) (ix % 512)) (fun r u => sendGrant (ix / 512) (ix % 512) r.1 r.2 u)
        (s.setReg (pgVAT 0) 0x138 x ix) ∧
      OnlyIn [.fab, .host, .mgmt, .pages, .regs, .cnts] s t

/-! ## Matrix engines (05) -/

/-- HADAMARD (R130), QUANTISE (R131, R132), UPDATE (R133), NS_ORTHO, PROJECT and GEMM (R134), issued as R128 says. What NS_ORTHO
leaves in its scratch area is a free value (log 24). -/
def Obligations.EngineOperations : Prop :=
  (∀ (d : Die) (e : Entry) (ws : List Word) (w : Wave) (s : State),
    let j := e.d.job.val
    let o := rotWave (edInverse ws) (seedRot j e.d.ream w.round.toNat) (w.ebase * 32) (s.waveVals j w)
    EngTakes d.val e ws s → e.d.opcode = 1 → s.waveOn e.d = some w → w.content = .int → s.wavePoisoned w = false →
    Completes (.hadamard d) s fun t => Served e.id .finished s t ∧
      t.vat = (if edInverse ws then updWave j e.d.wave (fun x => { x with content := .staged }) (putStaged w o.ws s)
        else o.ws.zipIdx.foldl (fun u p =>
          vatReplace j w (w.ebase * 8192 + p.2) (f32Dy p.1)
            (draw24 (s.seedLocal j e.d.ream w.round.toNat) (w.ebase * 8192 + p.2)) u) s).vat ∧
      OnlyIn [.sch, .vat, .host, .mgmt, .pages, .cnts] s t) ∧
  (∀ (d : Die) (e : Entry) (ws : List Word) (w : Wave) (s : State),
    let j := e.d.job.val
    let off := s.hdrNat false (edState ws) 0x10 8
    let a := edState ws + off + 2 * (w.ebase * 8192)
    let n := s.waveElems j w
    let x := quantInputs (s.waveVals j w) (s.hbmRead a (2 * n))
    let us := (List.range n).map fun i => draw24 (s.seedLine j e.d.ream w.round.toNat) (w.ebase * 8192 + i)
    EngTakes d.val e ws s → e.d.opcode = 2 → s.qbOf d.val j e.d.quantQbid = none → s.hbmOk j (edState ws) 0x1000 = true →
    s.hbmBad (edState ws) 0x1000 = false → off ≠ 0 → s.hbmOk j (edState ws + off) (2 * s.npad j e.d.ream) = true →
    s.waveOn e.d = some w → w.content = .int → s.wavePoisoned w = false → s.hbmBad a (2 * n) = false →
    Completes (.quantise d) s fun t => Served e.id .finished s t ∧
      (let q := quantWave 12 (s.quantStart (reamIx j e.d.ream) w ws) (edClip ws) (edGuard ws) x.ws us 0
       t.mem = (hbmWrite a (residuals x.ws (q.sheets.flatMap QSheet.dec)).1 s).mem ∧
       SMap.find t.eng.qbs (qbKey d.val (s.qbFreeIx d.val)) =
         some { job := j, qbid := e.d.quantQbid, quant := e.id, sheets := q.sheets.map QSheet.raw }) ∧
      OnlyIn [.sch, .eng, .outer, .host, .mem, .mgmt, .pages, .cnts] s t) ∧
  (∀ (d : Die) (e : Entry) (ws : List Word) (w : Wave) (s : State),
    let j := e.d.job.val
    let lp := edMem ws
    let base := edState ws
    let hp := s.hpAddr j (edHpset ws)
    let nd := optNeeds (edOpt ws) (!edNoret ws)
    let e0 := w.ebase * 8192
    let n := min (s.waveElems j w) (s.hdrNat lp base 0x28 8 - e0)
    let at_ (need : Bool) (o : Nat) : Option Nat := if need then some (base + s.hdrNat lp base o 8 + 4 * e0) else none
    let ar : UpdArr := { lp := lp, th := at_ nd.1 0, m := at_ nd.2.1 8, v := at_ nd.2.2 0x18 }
    let hw (o : Nat) : Word := s.hbmWord (hp + o)
    let hd (o : Nat) : Word := wd (s.hdrNat lp base o 4)
    let oe := s.orthoReam j e.d.ream ((s.waveOn e.d).any fun w => w.mir.isSome)
    let ocl := match oe with | some b => leAt b 4 4 / 2 ^ 16 % 16 | none => 0
    let h : UpdHp := { opt := edOpt ws, eta := hw 0, mu := hw 4, beta1 := hw 8, beta2 := hw 0xC, eps := hw 0x10, wd := hw 0x14,
                       rn := hd 0x30, p1 := hd 0x34, p2 := hd 0x38,
                       sigma := if edOpt ws = 4 then orthoSigma (hw 0x18) ocl w.slots.length else 0 }
    let xs := (List.range n).map fun i => let p := w.at (w.ebase * 8192 + i); loW (s.accAt w.die p.1 p.2)
    let rs := ((xs.zip (s.arrRead lp ar.th n)).zip ((s.arrRead lp ar.m n).zip (s.arrRead lp ar.v n))).map fun p =>
      updEl h p.1.1 p.1.2 p.2.1 p.2.2
    let okAt (need : Bool) (o : Nat) : Bool :=
      !need || (s.hdrNat lp base o 8 ≠ 0 && s.stateOk lp j (base + s.hdrNat lp base o 8) (4 * s.hdrNat lp base 0x28 8))
    EngTakes d.val e ws s → e.d.opcode = 8 → edKind ws = 2 → (edOpt ws = 4 → oe.isSome = true) →
    s.stateOk lp j base 0x1000 = true → s.hbmOk j hp 32 = true → s.stateBad lp base 0x1000 = false → s.hbmBad hp 32 = false →
    okAt nd.1 0 = true → okAt nd.2.1 8 = true → okAt nd.2.2 0x18 = true →
    (edOpt ws = 2 → f32Lt h.beta1 f32One = true ∧ f32Lt h.beta2 f32One = true) →
    s.waveOn e.d = some w → w.content = .staged → s.wavePoisoned w = false →
    (∀ a ∈ [ar.th, ar.m, ar.v], ∀ x, a = some x → s.stateBad lp x (4 * n) = false) →
    Completes (.update d) s fun t => Served e.id .finished s t ∧
      t.mem = (
        let s1 := if edOpt ws = 3 then s else arrWrite lp ar.th (rs.map fun r => r.1.1) s
        let s2 := if edOpt ws = 1 || edOpt ws = 2 || edOpt ws = 3 then arrWrite lp ar.m (rs.map fun r => r.1.2.1) s1 else s1
        if edOpt ws = 2 then arrWrite lp ar.v (rs.map fun r => r.1.2.2) s2 else s2).mem ∧
      t.vat = (if edNoret ws then s.vat else
        let f := (fmtOf (edFmtOut ws)).getD .f32
        (updWave j e.d.wave (fun x => { x with content := .ret, retW := f.blkBytes })
          (putReturn w f.blkBytes (returnBytes f (rs.map fun r => r.1.1)).1 s)).vat) ∧
      OnlyIn [.sch, .vat, .host, .mem, .mgmt, .pages, .cnts] s t) ∧
  (∀ (d : Die) (e : Entry) (ws : List Word) (s : State),
    let m := edM ws
    let n := edN ws
    let k := min m n
    EngTakes d.val e ws s → e.d.opcode = 8 → edKind ws = 3 → s.hbmBad (edA ws) (4 * m * n) = false →
    Completes (.nsOrtho d) s fun t => Served e.id .finished s t ∧
      t.mem = (hbmWrite (edC ws)
        ((written (nsOrtho m n (edIter ws) (edTa ws) (f32Words (s.hbmRead (edA ws) (4 * m * n)))).1).ws.flatMap fun w => natLE 4 w.toNat)
        (hbmWrite (edB ws) (scratchBytes s.freeCtr (8 * k * k + 4 * m * n)) s)).mem ∧
      OnlyIn [.sch, .host, .mem, .mgmt, .pages, .cnts] s t) ∧
  (∀ (d : Die) (e : Entry) (ws : List Word) (s : State),
    let m := edM ws
    let n := edN ws
    let k := edK ws
    let f := edOperand ws
    let a := matOf f true m n (s.hbmRead (edA ws) (matBytes f true m n))
    let b := matOf f false n k (s.hbmRead (edB ws) (matBytes f false n k))
    let p := (written (gramSchmidt k k 0 (matMul f.blk a b))).ws
    let q := (written (matMul 1 a.tr (matF32 m k p))).ws
    EngTakes d.val e ws s → e.d.opcode = 8 → edKind ws = 4 → s.hbmBad (edA ws) (matBytes f true m n) = false →
    s.hbmBad (edB ws) (matBytes f false n k) = false →
    Completes (.project d) s fun t => Served e.id .finished s t ∧
      t.mem = (hbmWrite (edC ws + 4 * m * k) (q.flatMap fun w => natLE 4 w.toNat)
        (hbmWrite (edC ws) (p.flatMap fun w => natLE 4 w.toNat) s)).mem ∧
      OnlyIn [.sch, .host, .mem, .mgmt, .pages, .cnts] s t) ∧
  ∀ (d : Die) (e : Entry) (ws : List Word) (s : State),
    let m := edM ws
    let n := edN ws
    let k := edK ws
    let f := edOperand ws
    let la := matBytes f (!edTa ws) (if edTa ws then n else m) (if edTa ws then m else n)
    let lb := matBytes f (edTb ws) (if edTb ws then k else n) (if edTb ws then n else k)
    let lc := if f32Zero (edBeta ws) then 0 else 4 * m * k
    let ba := s.hbmRead (edA ws) la
    let bb := s.hbmRead (edB ws) lb
    let x := matMul f.blk (if edTa ws then (matOf f false n m ba).tr else matOf f true m n ba)
      (if edTb ws then (matOf f true k n bb).tr else matOf f false n k bb)
    EngTakes d.val e ws s → e.d.opcode = 8 → edKind ws = 5 →
    s.hbmBad (edA ws) la = false → s.hbmBad (edB ws) lb = false → s.hbmBad (edC ws) lc = false →
    Completes (.gemm d) s fun t => Served e.id .finished s t ∧
      t.mem = (hbmWrite (edC ws) ((written (gemmOut (edAlpha ws) (edBeta ws) x (f32Words (s.hbmRead (edC ws) lc)))).ws.flatMap
        fun w => natLE 4 w.toNat) s).mem ∧
      OnlyIn [.sch, .host, .mem, .mgmt, .pages, .cnts] s t

/-! ## General cores (05, 08) -/

/-- TASK (R136, R138), TASK_RETURN, TASK_TRAP and TASK_TIMEOUT (R138), WAIT_GO and its release (R139), EXCEPTION_HANDLER
(R142). What a task does between commands are operands of the commands (log 10); CoreAccesses says what each does. -/
def Obligations.UserTasks : Prop :=
  (∀ (c : Core) (e : Entry) (s : State),
    let staged := (s.waveOn e.d).any fun w => decide (w.content = .staged)
    TaskTakes c.val e s → 16 ≤ e.d.taskId → bit (s.reg (pgGC (c.val / 32)) 0x114 (256 * e.d.job.val + e.d.taskId)) 31 = true →
    (s.waveOn e.d).any s.wavePoisoned = false → (e.d.userApply = true → staged = true) →
    Completes (.task c) s fun t =>
      let y := t.core c.val
      let same := (s.core c.val).lastJob = some e.d.job.val
      let old := if same then (s.core c.val).mem else (s.core c.val).mem.filter fun kv => kv.1 ≥ 0x3C000
      t.stOf e.id = some .active ∧ (∀ i, i ≠ e.id → t.entry? i = s.entry? i) ∧
      y.task = some e.id ∧ y.builtin = false ∧ y.lastJob = some e.d.job.val ∧
      y.mem = memWrite 0x3C000 ((issue 5 (c.val / 8) e s).taskCtx e ++
        (if e.d.userApply then (s.waveOn e.d).toList.flatMap (fun w => w.slots.flatMap (natLE 2)) else [])) old ∧
      SMap.get (fun _ => 0) y.x 2 = 0x3C000 ∧ SMap.get (fun _ => 0) y.x 10 = 0x3C000 ∧
      (∀ k, k ≠ 2 → k ≠ 10 → SMap.get (fun _ => 0) y.x k = if same then SMap.get (fun _ => 0) (s.core c.val).x k else 0) ∧
      (∀ i, i ≠ c.val → t.core i = s.core i) ∧ OnlyIn [.sch, .gc] s t) ∧
  (∀ (c : Core) (a0 : BitVec 64) (acts : List TaskAct) (e : Entry) (s : State),
    let s1 := taskActs c.val acts s
    TaskRuns c.val e s1 → e.canFault → (a0 ≠ 0 → s1.pageOff (pgGC (c.val / 32)) = false) →
    Completes (.taskReturn c a0 acts) s fun t =>
      t.workOf e.id = some (if a0 = 0 then .finished else .faulted 0x21 (if loW a0 = 0 then 0xFFFFFFFF else (loW a0).toNat)) ∧
      (∀ i, i ≠ e.id → t.entry? i = s1.entry? i) ∧ (t.core c.val).task = none ∧ (∀ i, i ≠ c.val → t.core i = s.core i) ∧
      (a0 ≠ 0 → Raised (pgGC (c.val / 32)) 0x800 0 s1 t) ∧ OnlyIn [.sch, .vat, .gc, .host, .mgmt, .pages, .cnts] s1 t) ∧
  (∀ (c : Core) (cause pc : BitVec 64) (acts : List TaskAct) (e : Entry) (s : State),
    let s1 := taskActs c.val acts s
    TaskRuns c.val e s1 → e.canFault → s1.pageOff (pgGC (c.val / 32)) = false →
    Completes (.taskTrap c cause pc acts) s fun t =>
      t.workOf e.id = some (.faulted 0x22 0) ∧ (∀ i, i ≠ e.id → t.entry? i = s1.entry? i) ∧ (t.core c.val).task = none ∧
      (∀ i, i ≠ c.val → t.core i = s.core i) ∧ Raised (pgGC (c.val / 32)) 0x804 1 s1 t ∧
      OnlyIn [.sch, .gc, .host, .mgmt, .pages, .cnts] s1 t) ∧
  (∀ (c : Core) (acts : List TaskAct) (e : Entry) (s : State),
    let s1 := taskActs c.val acts s
    (s.core c.val).task = some e.id → s.entry? e.id = some e → s.regF (pgGC (c.val / 32)) (0x210 + 0x20 * e.d.job.val) 0 20 ≠ 0 →
    (s1.core c.val).task = some e.id → s1.entry? e.id = some e → e.canFault → s1.pageOff (pgGC (c.val / 32)) = false →
    Completes (.taskTimeout c acts) s fun t =>
      t.workOf e.id = some (.faulted 0x23 0) ∧ (∀ i, i ≠ e.id → t.entry? i = s1.entry? i) ∧ (t.core c.val).task = none ∧
      (∀ i, i ≠ c.val → t.core i = s.core i) ∧ Raised (pgGC (c.val / 32)) 0x808 2 s1 t ∧
      OnlyIn [.sch, .gc, .host, .mgmt, .pages, .cnts] s1 t) ∧
  (∀ (c : Core) (idx val : Word) (e : Entry) (s : State),
    let n := s.ctr (s.partBase e.d.job.val + idx.toNat)
    TaskRuns c.val e s → idx.toNat < s.partSize e.d.job.val →
    Completes (.waitGo c idx val) s fun t =>
      t.core c.val = (if val.toNat ≤ n.toNat then { s.core c.val with waitIdx := idx, waitVal := val, waitRes := n }
        else { s.core c.val with waitIdx := idx, waitVal := val, waiting := true }) ∧
      t.out = s.out ++ (if val.toNat ≤ n.toNat then [.coreLoad c.val 0x20000088 (natLE 4 n.toNat)] else []) ∧
      (∀ i, i ≠ c.val → t.core i = s.core i) ∧ OnlyIn [.gc] s t) ∧
  (∀ (c : Core) (e : Entry) (s : State),
    let n := s.ctr (s.partBase e.d.job.val + (s.core c.val).waitIdx.toNat)
    (s.core c.val).task = some e.id → s.entry? e.id = some e → (s.core c.val).waiting = true →
    (s.core c.val).waitVal.toNat ≤ n.toNat →
    Completes (.waitGoRelease c) s fun t =>
      t.core c.val = { s.core c.val with waiting := false, waitRes := n } ∧
      t.out = s.out ++ [.coreLoad c.val 0x20000088 (natLE 4 n.toNat)] ∧
      (∀ i, i ≠ c.val → t.core i = s.core i) ∧ OnlyIn [.gc] s t) ∧
  ∀ (c : Core) (x : ExcRec) (xs : List ExcRec) (s : State),
    let d := c.val / 32
    let s1 := s.updGc fun g => { g with exc := vset g.exc d xs }
    s.gc.exc.getD d [] = x :: xs → s.coreIdle c.val = true →
    Completes (.exceptionHandler c) s fun t =>
      t = (if s.regF (pgGC d) (0x214 + 0x20 * x.job) 0 1 = 0 then s1
        else forAll (s1.handlerSubmits x) (fun y u => submitCore c.val y true u) s1) ∧
      OnlyIn [.sch, .gc, .host, .mgmt, .pages, .cnts] s t

/-- R135, R136, R139, R141: the effect of one act, which SUB_COMMIT, TASK_RETURN, TASK_TRAP and TASK_TIMEOUT carry (log 10); the
mepc of an access fault is a free value (log 27). -/
def Obligations.CoreAccesses : Prop :=
  (∀ (c : Core) (e : Entry) (a : Nat) (bs : List Byte) (s : State),
    TaskRuns c.val e s → bs ≠ [] → a + bs.length ≤ 0x3C000 →
    let t := taskActs c.val [.store a bs] s
    (∀ k, memGet (t.core c.val).mem k = if a ≤ k ∧ k < a + bs.length then bs.getD (k - a) 0 else memGet (s.core c.val).mem k) ∧
      { t.core c.val with mem := [] } = { s.core c.val with mem := [] } ∧ (∀ i, i ≠ c.val → t.core i = s.core i) ∧
      t.out = s.out ∧ OnlyIn [.gc] s t) ∧
  (∀ (c : Core) (e : Entry) (a : Nat) (bs : List Byte) (s : State),
    TaskRuns c.val e s → bs ≠ [] → s.hbmOk e.d.job.val a bs.length = true →
    let t := taskActs c.val [.store (0x10000000000 + a) bs] s
    t = hbmWrite a bs s) ∧
  (∀ (c : Core) (e : Entry) (a n : Nat) (s : State),
    TaskRuns c.val e s → 0 < n → a + n ≤ 0x40000 →
    let t := taskActs c.val [.load a n] s
    t.out = s.out ++ [.coreLoad c.val a ((List.range' a n).map (memGet (s.core c.val).mem))] ∧ OnlyIn [] s t) ∧
  (∀ (c : Core) (e : Entry) (a n : Nat) (s : State),
    TaskRuns c.val e s → e.canFault → 0 < n → s.hbmOk e.d.job.val a n = true →
    let t := taskActs c.val [.load (0x10000000000 + a) n] s
    (s.hbmBad a n = false → t.out = s.out ++ [.coreLoad c.val (0x10000000000 + a) (s.hbmRead a n)] ∧ OnlyIn [] s t) ∧
    (s.hbmBad a n = true → t.workOf e.id = some (.faulted 0x24 0) ∧ (∀ i, i ≠ e.id → t.entry? i = s.entry? i) ∧
      (t.core c.val).task = none ∧ OnlyIn [.sch, .gc, .host, .mem, .mgmt, .pages, .cnts] s t)) ∧
  (∀ (c : Core) (e : Entry) (a : Nat) (bs : List Byte) (k : Nat) (s : State),
    TaskRuns c.val e s → e.canFault → s.pageOff (pgGC (c.val / 32)) = false →
    a ≤ k → k < a + bs.length → s.coreRegion c.val e.d.job.val true k = none →
    let t := taskActs c.val [.store a bs] s
    t.workOf e.id = some (.faulted 0x22 0) ∧ (∀ i, i ≠ e.id → t.entry? i = s.entry? i) ∧
      t.core c.val = { s.core c.val with task := none, builtin := false, waiting := false, subQ := [] } ∧
      (∀ i, i ≠ c.val → t.core i = s.core i) ∧ Raised (pgGC (c.val / 32)) 0x804 1 s t ∧
      OnlyIn [.sch, .gc, .host, .mgmt, .pages, .cnts] s t) ∧
  (∀ (c : Core) (e : Entry) (a n k : Nat) (s : State),
    TaskRuns c.val e s → e.canFault → s.pageOff (pgGC (c.val / 32)) = false →
    a ≤ k → k < a + n → s.coreRegion c.val e.d.job.val false k = none →
    let t := taskActs c.val [.load a n] s
    t.workOf e.id = some (.faulted 0x22 0) ∧ (∀ i, i ≠ e.id → t.entry? i = s.entry? i) ∧
      t.core c.val = { s.core c.val with task := none, builtin := false, waiting := false, subQ := [] } ∧
      (∀ i, i ≠ c.val → t.core i = s.core i) ∧ Raised (pgGC (c.val / 32)) 0x804 1 s t ∧
      OnlyIn [.sch, .gc, .host, .mgmt, .pages, .cnts] s t) ∧
  (∀ (c : Core) (e : Entry) (s : State),
    TaskRuns c.val e s → s.pageOff (pgGC (c.val / 32)) = false →
    Counted (pgGC (c.val / 32)) 0x80C 1 s (taskActs c.val [.memCe] s) ∧
      OnlyIn [.mgmt, .pages, .cnts] s (taskActs c.val [.memCe] s)) ∧
  (∀ (c : Core) (e : Entry) (runtime : Bool) (s : State),
    TaskRuns c.val e s → e.canFault → s.pageOff (pgGC (c.val / 32)) = false →
    let t := taskActs c.val [.memUe runtime] s
    t.workOf e.id = some (.faulted 0x24 0) ∧ (∀ i, i ≠ e.id → t.entry? i = s.entry? i) ∧ (t.core c.val).task = none ∧
      (∀ i : Core, t.coreInSvc i.val = if runtime = true ∧ i = c then false else s.coreInSvc i.val) ∧
      Raised (pgGC (c.val / 32)) 0x810 3 s t ∧ OnlyIn [.sch, .gc, .host, .mgmt, .pages, .regs, .cnts] s t) ∧
  ∀ (c : Core) (acts : List TaskAct) (s : State), s.coreGoes c.val = none → taskActs c.val acts s = s

/-- PLAN (R202), FLOOR (R84), STATS (R207), MERGE SNAP (R219), FORM (R220) and ADD (R220, R221): the ream is enabled, its state
block lies in the job's range and can be read. PLAN's choices are free values (log 6). -/
def Obligations.BuiltinTasks : Prop :=
  (∀ (c : Core) (e : Entry) (b : List Byte) (s : State),
    let s1 := issue 5 (c.val / 8) e s
    let r := planRound e.d.job e.d.taskReam (c.val / 8) b (coreTake c.val e true s1)
    let s2 := forAll r.1 (fun d u => submitCore c.val d true u) r.2
    TaskTakes c.val e s → e.d.taskId = 0 → s.ocbReam e.d.job.val e.d.taskReam = some b →
    s.hbmOk e.d.job.val (plReam b).base 0x1000 = true → s.hbmBad (plReam b).base 0x200 = false →
    Completes (.plan c) s fun t =>
      t = (if (s2.core c.val).subQ.isEmpty then coreDone c.val s2 else s2) ∧
      OnlyIn [.sch, .gc, .ring, .outer, .host, .mem, .mgmt, .pages, .regs, .cnts] s t) ∧
  (∀ (c : Core) (e : Entry) (s : State),
    let j := e.d.job.val
    let s1 := issue 5 (c.val / 8) e s
    let cfg := s.reg (pgVAT 0) 0x184 (reamIx j e.d.taskReam)
    let ehi := s1.taskEhi j e.d.taskReam
    let f : Int := ehi + (fld cfg 0 4 : Int) + clog2 (popc (s.cmap j) + 1) + 4 - 62
    TaskTakes c.val e s → e.d.taskId = 1 → bit cfg 31 = false → ehi ≠ -256 →
    Completes (.floor c) s fun t => Served e.id .finished s t ∧ (t.core c.val).task = none ∧
      t.regs = (s.setReg (pgVAT 0) 0x184 (setFld cfg 10 9 (twos 9 f)) (reamIx j e.d.taskReam)).regs ∧
      OnlyIn [.sch, .gc, .regs] s t) ∧
  (∀ (c : Core) (e : Entry) (b : List Byte) (s : State),
    let j := e.d.job.val
    let r := e.d.taskReam
    let base := (plReam b).base
    TaskTakes c.val e s → e.d.taskId = 2 → s.ocbReam j r = some b → s.hbmOk j base 0x1000 = true → s.hbmBad base 0x200 = false →
    Completes (.stats c) s fun t => Served e.id .finished s t ∧ (t.core c.val).task = none ∧
      t.mem = (hbmWrite (base + 0x48) (natLE 8 (s.roundOf j r)) (hbmWrite (base + 0x100) (s.statsRec j r) s)).mem ∧
      t.outer = { s.outer with stats := SMap.erase (reamIx j r) s.outer.stats } ∧
      OnlyIn [.sch, .gc, .outer, .host, .mem, .mgmt, .pages, .cnts] s t) ∧
  (∀ (c : Core) (e : Entry) (b : List Byte) (th mg : Nat) (s : State),
    let j := e.d.job.val
    let p := plReam b
    let n := s.npad j e.d.taskReam
    TaskTakes c.val e s → e.d.taskId = 3 → e.d.mergeFn = 0 → s.ocbReam j e.d.taskReam = some b →
    s.hbmOk j p.base 0x1000 = true → s.hbmBad p.base 0x200 = false → s.reamArr j p 0 n = some th → s.reamArr j p 0x20 n = some mg →
    Completes (.mergeSnap c) s fun t => Served e.id .finished s t ∧ (t.core c.val).task = none ∧
      t.mem = (hbmWrite (p.base + 0x50) (natLE 8 (s.hbmNat (p.base + 0x48) 8 % 2 ^ 63 + 2 ^ 63))
        (hbmWrite mg (s.hbmRead th (4 * n)) s)).mem ∧
      OnlyIn [.sch, .gc, .host, .mem, .mgmt, .pages, .cnts] s t) ∧
  (∀ (c : Core) (e : Entry) (b : List Byte) (th mg : Nat) (s : State),
    let j := e.d.job.val
    let p := plReam b
    let n := s.npad j e.d.taskReam
    let k := (s.hbmNat (p.base + 0x48) 8 + 2 ^ 63 - s.hbmNat (p.base + 0x50) 8 % 2 ^ 63) % 2 ^ 63
    let m := s.reg pgOUTER (0x214 + 0x40 * j)
    let tau := max 1 (fld m 0 8)
    TaskTakes c.val e s → e.d.taskId = 3 → e.d.mergeFn = 1 → s.ocbReam j e.d.taskReam = some b →
    s.hbmOk j p.base 0x1000 = true → s.hbmBad p.base 0x200 = false → s.hbmNat (p.base + 0x20) 8 ≠ 0 → s.snapHeld p = true →
    k ≤ fld m 8 8 → s.reamArr j p 0 n = some th → s.reamArr j p 0x20 n = some mg →
    Completes (.mergeForm c) s fun t => Served e.id .finished s t ∧ (t.core c.val).task = none ∧
      t.mem = (hbmWrite mg ((List.range n).flatMap fun i =>
        natLE 4 (f32Mul (f32Div (f32OfNat tau) (f32OfNat (tau + k)))
          (f32Sub (s.hbmWord (mg + 4 * i)) (s.hbmWord (th + 4 * i)))).toNat) s).mem ∧
      OnlyIn [.sch, .gc, .outer, .host, .mem, .mgmt, .pages, .cnts] s t) ∧
  ∀ (c : Core) (e : Entry) (b : List Byte) (w : Wave) (mg : Nat) (s : State),
    let j := e.d.job.val
    let p := plReam b
    TaskTakes c.val e s → e.d.taskId = 3 → e.d.mergeFn = 2 → s.waveOn e.d = some w → w.content = .int → w.ream = e.d.taskReam →
    s.wavePoisoned w = false → s.ocbReam j e.d.taskReam = some b → s.hbmOk j p.base 0x1000 = true →
    s.hbmBad p.base 0x200 = false → s.reamArr j p 0x20 (s.npad j e.d.taskReam) = some mg →
    Completes (.mergeAdd c) s fun t => Served e.id .finished s t ∧ (t.core c.val).task = none ∧
      t.vat = (forAll (List.range (s.waveElems j w)) (fun i u => mergeAddEl j w mg (w.ebase * 8192 + i) u)
        (issue 5 (c.val / 8) e s)).vat ∧
      OnlyIn [.sch, .vat, .gc, .outer, .host, .mem, .mgmt, .pages, .cnts] s t

/-- ENG_SVC_WRITE, GC_SVC_WRITE, SHEET_SVC_WRITE, ENG_EDT_WRITE (R143), GC_SHM_WRITE (R145), HBM_RANGE_WRITE (R348; what a range
newly takes in reads zero: log 144) and ENG_PARITY (R123; an operation is held until its entry ends: log 142). -/
def Obligations.ComputePartitions : Prop :=
  (∀ (w : Who) (d : Die) (v : Word) (s : State),
    (s.allows w (pgENG d.val) 0x100 v = true → Completes (.engSvcWrite w d v) s (Stored w (pgENG d.val) 0x100 v [] s)) ∧
    (s.allows w (pgGC d.val) 0x100 v = true → Completes (.gcSvcWrite w d v) s (Stored w (pgGC d.val) 0x100 v [] s)) ∧
    (s.allows w (pgSHEET d.val) 0x104 v = true → Completes (.sheetSvcWrite w d v) s (Stored w (pgSHEET d.val) 0x104 v [] s))) ∧
  (∀ (w : Who) (d : Die) (j : Job) (v : Word) (s : State),
    let o := 0x200 + 0x10 * j.val
    let x := s.taken w (pgENG d.val) o v
    s.allows w (pgENG d.val) o v = true → (∀ e ∈ s.jobOps j.val, e.d.opcode ≠ 1 ∧ e.d.opcode ≠ 2 ∧ e.d.opcode ≠ 8) →
    fld x 16 6 + fld x 0 7 ≤ 64 →
    (∀ i : Job, i ≠ j → overlaps (fld x 16 6 * 64) (fld x 0 7 * 64) (s.edtBase d.val i.val) (s.edtSize d.val i.val) = false) →
    Completes (.engEdtWrite w d j v) s (Stored w (pgENG d.val) o v [] s)) ∧
  (∀ (w : Who) (d : Die) (j : Job) (v : Word) (s : State),
    let o := 0x200 + 0x20 * j.val
    let x := s.taken w (pgGC d.val) o v
    s.allows w (pgGC d.val) o v = true → s.taskBusy j.val = false → fld x 16 7 + fld x 0 7 ≤ 112 →
    (∀ i : Job, i ≠ j →
      overlaps (fld x 16 7 * 0x10000) (fld x 0 7 * 0x10000) (s.shmBase d.val i.val) (s.shmSize d.val i.val) = false) →
    Completes (.gcShmWrite w d o v) s (Stored w (pgGC d.val) o v [] s)) ∧
  (∀ (w : Who) (d : Die) (v : Word) (s : State),
    let ix := s.idx w (pgGC d.val) 0x110
    s.allows w (pgGC d.val) 0x114 v = true → s.taskBusy (ix / 256) = false → 16 ≤ ix % 256 →
    Completes (.gcShmWrite w d 0x114 v) s (Stored w (pgGC d.val) 0x114 v [] s)) ∧
  (∀ (w : Who) (d : Die) (j : Job) (v : Word) (s : State),
    let o := 0x20C + 0x20 * j.val
    let n := fld (s.taken w (pgGC d.val) o v) 0 13 * 2 ^ 26
    s.allows w (pgGC d.val) o v = true → s.taskBusy j.val = false →
    (n = 0 ∨ hbmLow ≤ s.hbmBase j.val ∧ s.hbmBase j.val + n ≤ hbmTop ∧
      ∀ i : Job, i ≠ j → overlaps (s.hbmBase j.val) n (s.hbmBase i.val) (s.hbmSize i.val) = false) →
    Completes (.hbmRangeWrite w d o v) s fun t =>
      t.hbmSize j.val = n ∧ t.hbmBase j.val = s.hbmBase j.val ∧
      (∀ i : Job, i ≠ j → t.hbmSize i.val = s.hbmSize i.val ∧ t.hbmBase i.val = s.hbmBase i.val) ∧
      (∀ a, memGet t.mem.hbm a = if s.jobSt j.val ≠ .free ∧ t.hbmBase j.val ≤ a ∧ a < t.hbmBase j.val + n ∧
        ¬ (s.hbmBase j.val ≤ a ∧ a < s.hbmBase j.val + s.hbmSize j.val) then memByte a else memGet s.mem.hbm a) ∧
      OnlyIn [.mem, .regs] s t) ∧
  (∀ (w : Who) (d : Die) (j : Job) (v : Word) (s : State),
    let o := 0x208 + 0x20 * j.val
    let b := (s.takenPair w (pgGC d.val) o v).toNat / 2 ^ 26 * 2 ^ 26
    s.allows w (pgGC d.val) o v = true → s.taskBusy j.val = false →
    (s.hbmSize j.val = 0 ∨ hbmLow ≤ b ∧ b + s.hbmSize j.val ≤ hbmTop ∧
      ∀ i : Job, i ≠ j → overlaps b (s.hbmSize j.val) (s.hbmBase i.val) (s.hbmSize i.val) = false) →
    Completes (.hbmRangeWrite w d o v) s fun t =>
      t.hbmBase j.val = b ∧ t.hbmSize j.val = s.hbmSize j.val ∧
      (∀ i : Job, i ≠ j → t.hbmSize i.val = s.hbmSize i.val ∧ t.hbmBase i.val = s.hbmBase i.val) ∧
      (∀ a, memGet t.mem.hbm a = if s.jobSt j.val ≠ .free ∧ b ≤ a ∧ a < b + s.hbmSize j.val ∧
        ¬ (s.hbmBase j.val ≤ a ∧ a < s.hbmBase j.val + s.hbmSize j.val) then memByte a else memGet s.mem.hbm a) ∧
      OnlyIn [.mem, .regs, .halves] s t) ∧
  ∀ (d : Die) (e : Fin 8) (x : Entry) (s : State),
    s.pageOff (pgENG d.val) = false → bit (s.reg (pgENG d.val) 0x100) e.val = true →
    s.entry? x.id = some x → isEngOp d.val x = true → x.canFault →
    Completes (.engParity d e (some x.id)) s fun t =>
      t.regs = (s.setReg (pgENG d.val) 0x100 (setBit (s.reg (pgENG d.val) 0x100) e.val false)).regs ∧
      Served x.id (.faulted 0x12 0) s t ∧ Raised (pgENG d.val) 0x81C 7 s t ∧
      OnlyIn [.sch, .host, .mgmt, .pages, .regs, .cnts] s t

/-! ## Sheet codecs and felt (06, 14) -/

/-- PACK (R163, R164), EXPAND (R165), EXPAND_REFETCH (R160), ADD (R166, R169) and SHEET_PARITY (R170). -/
def Obligations.SheetOperations : Prop :=
  (∀ (d : Die) (e : Entry) (k : Nat) (b : QBuf) (s : State),
    s.codecPick d.val = some e → e.d.opcode = 3 → s.regF (pgSHEET d.val) 0x104 0 8 ≠ 0 →
    s.cbOf d.val e.d.job.val e.d.qbid = none → s.qbOf d.val e.d.job.val e.d.qbid = some (k, b) → b.done = true →
    Completes (.pack d) s fun t => Served e.id .finished s t ∧
      SMap.find t.sheet.cbs (qbKey d.val (s.cbFreeIx d.val)) =
        some { job := e.d.job.val, qbid := e.d.qbid, pack := e.id, sheets := (packAll e.d.packBase b.sheets).map Prod.fst } ∧
      OnlyIn [.sch, .sheet, .pages, .cnts] s t) ∧
  (∀ (d : Die) (e : Entry) (k : Nat) (w : Wave) (s : State),
    let s1 := issue 2 d.val e s
    let u := forAll (List.range (s.waveElems e.d.job.val w / 4096)) (fun i u => takeSheet e k i u) (linkCw e k s1)
    s.codecPick d.val = some e → e.d.opcode = 6 → e.d.refetch = false → e.d.destWave = true → e.d.claim = false →
    s.replayFed e = true → s.replayBad e = none → s.feltBad = false → s.regF (pgSHEET d.val) 0x104 0 8 ≠ 0 →
    s.expandCw e = some k → s.cwComplete k = true → s.waveOn e.d = some w → w.content = .int → s.wavePoisoned w = false →
    Completes (.expand d) s fun t => t.vat = u.vat ∧ t.sheet = u.sheet ∧ t.ring = u.ring ∧
      (∀ i, i ≠ e.id → t.entry? i = u.entry? i) ∧
      (u.dmgOf e.id = false → u.stOf e.id = some .active → u.workOf e.id = some .running → t.workOf e.id = some .finished) ∧
      (u.dmgOf e.id = true → t = u) ∧
      OnlyIn [.sch, .vat, .eng, .gc, .sheet, .ring, .outer, .fab, .line, .ciph, .host, .pool, .mem, .mgmt, .pages, .cnts] s t) ∧
  (∀ (d : Die) (e : Entry) (k : Nat) (w : Wave) (s : State),
    let j := e.d.job.val
    let sk := strmKey d.val e.d.stream
    let s1 := issue 2 d.val e s
    let s2 := if e.d.destWave then s1 else strmBind sk e.d (fun x => { x with expand := some e.id }) s1
    s.codecPick d.val = some e → e.d.opcode = 6 → e.d.refetch = false →
    s.replayFed e = true → s.replayBad e = none → s.feltBad = false → s.regF (pgSHEET d.val) 0x104 0 8 ≠ 0 →
    s.expandCw e = some k → s.cwComplete k = true → s.waveOn e.d = some w → w.content = .int → s.wavePoisoned w = false →
    (e.d.destWave = false → s.strmFree sk e.d true = true ∧ (s.sheet.aborts.any fun a => a.hits sk e.d) = false ∧
      ∀ x, SMap.find s.sheet.streams sk = some x → x.bad = false) →
    (e.d.claim = false → Completes (.expand d) s fun t => t = expandRun e k w s2) ∧
    ∀ round eb, e.d.claim = true → s.cwWave j k = some (round, e.d.ream, eb, e.d.vslots) →
      let s3 := placeWave j e.d.wave round eb ((s.replayOf e).map fun i => i.npad) s2
      Completes (.expand d) s fun t => ∃ w1, s3.waveOn e.d = some w1 ∧ w1.ebase = eb ∧ w1.round = BitVec.ofNat 64 round ∧
        w1.slots = w.slots ∧ t = expandRun e k w1 s3) ∧
  (∀ (d : Die) (e : Entry) (s : State),
    s.codecPick d.val = some e → e.d.opcode = 6 → e.d.refetch = true → s.regF (pgSHEET d.val) 0x104 0 8 ≠ 0 →
    Completes (.expandRefetch d) s fun t => OnlyIn [.sch, .sheet, .line, .pages, .cnts] s t ∧
      match (issue 2 d.val e s).refetchTarget e.d.job.val e.d.packBase with
      | none => Served e.id .finished s t
      | some x =>
        t = refetchSettle (forAll (s.sheet.damaged.filter fun g => g.target = x.id)
          (fun g u => askSheet e.id x.d.unit e.d.unit g u) (issue 2 d.val e s))) ∧
  (∀ (d : Die) (e : Entry) (w : Wave) (s : State),
    let k := strmKey d.val e.d.stream
    s.vatPick d.val = some e → e.d.opcode = 7 → s.waveOn e.d = some w → w.content = .int → s.wavePoisoned w = false →
    s.strmFree k e.d false = true → (s.sheet.aborts.any fun a => a.hits k e.d) = false →
    (∀ x, SMap.find s.sheet.streams k = some x → x.bad = false) →
    Completes (.add d) s fun t =>
      (SMap.find s.sheet.streams k = none →
        SMap.find t.sheet.streams k = some { job := e.d.job.val, wave := e.d.wave, add := some e.id } ∧
        t.stOf e.id = some .active ∧ (∀ i, i ≠ e.id → t.entry? i = s.entry? i) ∧ OnlyIn [.sch, .sheet] s t) ∧
      (∀ x, SMap.find s.sheet.streams k = some x →
        t = strmRun k ((issue 0 d.val e s).updSheet fun y =>
          { y with streams := SMap.put k { x with add := some e.id } y.streams })) ∧
      OnlyIn [.sch, .vat, .gc, .sheet, .ring, .fab, .line, .host, .pool, .mem, .mgmt, .pages, .cnts] s t) ∧
  ∀ (d : Die) (c : Fin 8) (x : Entry) (s : State),
    s.pageOff (pgSHEET d.val) = false → bit (s.reg (pgSHEET d.val) 0x104) c.val = true →
    s.entry? x.id = some x → isCodecOp d.val x = true → isRefetch x = false → x.canFault →
    Completes (.sheetParity d c (some x.id)) s fun t =>
      t.regs = (s.setReg (pgSHEET d.val) 0x104 (setBit (s.reg (pgSHEET d.val) 0x104) c.val false)).regs ∧
      Served x.id (.faulted 0x1C 0) s t ∧ Raised (pgSHEET d.val) 0x828 3 s t ∧
      OnlyIn [.sch, .host, .mgmt, .pages, .regs, .cnts] s t

/-! ## Shard rings (07), the return multicast and the buddy copy (08, 09) -/

/-- SEND (R164, R186), SEND_FWD (R183), RECV (R188), SCATTER (R215, R217, R249) and COPY (R251); the sheets of a SEND pass the couch
stage's check. -/
def Obligations.RingOperations : Prop :=
  (∀ (p : Port) (e : Entry) (k i : Nat) (b : CBuf) (segs : List (List Byte)) (u s : State),
    let s1 := issue 3 p.val e s
    let alone := decide (s1.grpM (cwGrp k) ≤ 1)
    s.pick 3 p.val (isLineOp p.val) = some e → e.d.opcode = 4 → e.d.fwd = false → s.entry? e.id = some e → e.work = .running →
    s.cwOf e.d = some k → s.cbOf e.d.unit e.d.job.val e.d.qbid = some (i, b) → b.done = true →
    (∀ x ∈ b.sheets, crcOk x = true) → sealCw k b.sheets s1 = some (segs, u) →
    Completes (.send p) s fun t => Served e.id .finished s t ∧
      t.tx? k = some { port := (s1.cwCtx k).port, sheets := b.sheets, segs := segs, nsheet := b.sheets.length
                       tbytes := b.sheets.foldl (fun a x => a + x.length) 0, receipt := alone, ack := alone, credit := alone } ∧
      OnlyIn [.sch, .ring, .outer, .line, .ciph, .host, .pool, .mem, .mgmt, .pages, .cnts] s t) ∧
  (∀ (p : Port) (e : Entry) (k k' : Nat) (r : RxCw) (segs : List (List Byte)) (u s : State),
    let s1 := issue 3 p.val e s
    s.pick 3 p.val (isLineOp p.val) = some e → e.d.opcode = 4 → e.d.fwd = true → s.entry? e.id = some e → e.work = .running →
    s.cwOf e.d = some k' → s.fwdFrom e = some k → s.rx? k = some r → r.recvd = true →
    (∀ i, i < r.nsheet.getD 0 → crcOk ((SMap.find r.sheets i).getD []) = true) → s.dmgOf e.id = false →
    sealCw k' r.all s1 = some (segs, u) →
    Completes (.sendFwd p) s fun t => Served e.id .finished s t ∧
      (∃ x, t.tx? k' = some x ∧ x.sheets = r.all ∧ x.segs = segs ∧ x.nsheet = r.all.length) ∧
      OnlyIn [.sch, .sheet, .ring, .outer, .line, .ciph, .host, .pool, .mem, .mgmt, .pages, .cnts] s t) ∧
  (∀ (p : Port) (e : Entry) (s : State),
    s.pick 3 p.val (isLineOp p.val) = some e → e.d.opcode = 5 → s.entry? e.id = some e → e.work = .running →
    Completes (.recv p) s fun t =>
      Served e.id (if ((s.cwOf e.d).bind s.rx?).any (·.receipt) then .finished else .running) s t ∧ OnlyIn [.sch] s t) ∧
  (∀ (acks : BitVec 512) (e : Entry) (w : Wave) (s : State),
    let j := e.d.job.val
    let all := setIdx (s.cmap j)
    let qpOk (c : Nat) : Bool := bit (s.ctGqpn j c) 31 &&
      ((s.qp? (BitVec.ofNat 24 (fld (s.ctGqpn j c) 0 24))).any fun q => decide (q.state = 3))
    let set := all.filter fun c => bit (s.reg pgOUTER 0x110 (ctIx j c)) 31 && qpOk c
    let m : BitVec 512 := BitVec.ofNat 512 (bitsNat set)
    let u := scatterGo e.id (updEntry e.id (fun x => { x with cset := m, todo := m })
      (bumpEv pgOUTER 0x808 2 (all.length - set.length) (issue 4 0 e s)))
    s.swNext 9 = some e → s.entry? e.id = some e → e.work = .running → e.cset = 0 → e.acked = 0 → e.todo = 0 →
    s.waveOn e.d = some w → w.content = .ret → w.ream = e.d.ream → s.wavePoisoned w = false →
    Completes (.scatter acks) s fun t => t = scatterAcks e.id acks u ∧
      (∀ i, i ≠ e.id → u.entry? i = s.entry? i) ∧ u.stOf e.id = some .active ∧
      (u.entry? e.id).map Entry.cset = some m ∧ (u.entry? e.id).map Entry.acked = some 0 ∧
      (u.entry? e.id).map Entry.todo = some (m &&& ~~~ BitVec.ofNat 512 (bitsNat (set.take 64))) ∧
      u.workOf e.id = some (if set = [] then .finished else .running) ∧
      OnlyIn [.sch, .outer, .fab, .line, .host, .mgmt, .pages, .cnts] s t) ∧
  (∀ (acks : BitVec 512) (e : Entry) (s : State),
    s.swNext 9 = none → s.scatterFirst = some e →
    Completes (.scatter acks) s fun t => t = scatterAcks e.id acks s ∧
      OnlyIn [.sch, .outer, .fab, .line, .host, .mgmt, .pages, .cnts] s t) ∧
  (∀ (id : Nat) (acks : BitVec 512) (e : Entry) (s : State),
    s.entry? id = some e → e.d.opcode = 9 → e.st = .active → e.work = .running → e.todo = 0 →
    Served id (if e.cset &&& ~~~ (e.acked ||| acks) = 0 then .finished else .running) s (scatterMark id acks s) ∧
      ((scatterMark id acks s).entry? id).map Entry.acked = some (e.acked ||| acks &&& e.cset)) ∧
  (∀ (e : Entry) (k : Nat) (sheets : List (List Byte)) (q : Qp) (s : State),
    let u := ((s.tx? k).map fun x => updEntry e.id (fun y => { y with pos := k + 1 })
      (putTx k { x with reads := x.reads + 1 } (issue 4 0 e s))).getD (issue 4 0 e s)
    let v := rdmaPost (cdInput e.d.unit) q.qpn q.copyVa.toNat q.copyKey sheets.flatten.length (some (wd e.d.rseq)) (.felt k)
      (.copy e.id) u
    s.swNext 10 = some e → s.entry? e.id = some e → e.work = .running → s.copySrc e = some (k, sheets) →
    s.copyQp? e.d.job.val (e.d.arg 16 13) = some q →
    (Completes (.copy false) s fun t => t = v ∧ Served e.id .running s t ∧
      t.tx? k = (s.tx? k).map (fun x => { x with reads := x.reads + 1 }) ∧ (∀ i, i ≠ k → t.tx? i = s.tx? i) ∧
      OnlyIn [.sch, .ring, .fab, .host, .mgmt, .pages, .cnts] s t) ∧
    Completes (.copy true) s fun t => t = copyAck e.id v ∧
      OnlyIn [.sch, .ring, .outer, .fab, .line, .host, .mgmt, .pages, .cnts] s t) ∧
  (∀ (e : Entry) (s : State),
    s.swNext 10 = none → (s.activeOf fun e => e.d.opcode = 10 && e.work = Work.running).head? = some e →
    Completes (.copy true) s fun t => t = copyAck e.id s ∧ OnlyIn [.sch, .outer, .fab, .line, .host, .mgmt, .pages, .cnts] s t) ∧
  ∀ (id : Nat) (e : Entry) (s : State), s.entry? id = some e → e.st = .active → e.work = .running →
    Served id .finished s (msgDone (.copy id) s)

/-- ANNOUNCE (R186, R455), RECEIPT, ACK, CREDIT (R188, R190), REFETCH (R188), PROBE_TIMER and RESEND_TIMER (R193). -/
def Obligations.RingRecords : Prop :=
  (∀ (p : Port) (r : RingRec) (g : Nat) (s : State),
    let k := recKey g r
    let x := (s.rx? k).getD {}
    Carries g r s → r.chan.toNat < 32 →
    Completes (.announce p r) s fun t =>
      (s.cwMem? k = none ∧ x.nsheet = none ∧ x.receipt = false ∧ x.sheets.length < r.count.toNat ∧
        (∀ kv ∈ x.sheets, kv.1 < r.count.toNat) →
        t.rx? k = some { x with nsheet := some r.count.toNat, tbytes := r.tbytes.toNat } ∧ OnlyIn [.ring] s t) ∧
      ((s.cwMem? k).isSome = true ∨ x.nsheet.isSome = true →
        t.ring = s.ring ∧ t.cnts = (bump pgRING 0x80C 1 s).cnts ∧ OnlyIn [.line, .host, .mgmt, .pages, .cnts] s t)) ∧
  (∀ (p : Port) (r : RingRec) (g : Nat) (x : TxCw) (s : State),
    let k := recKey g r
    Carries g r s → r.chan.toNat < 32 → s.tx? k = some x → x.credit = false →
    (x.ack = false → x.freed = false → Completes (.receipt p r) s fun t =>
      t.tx? k = some { x with receipt := true, timer := if x.receipt then x.timer else .probe } ∧ OnlyIn [.ring] s t) ∧
    (x.reads = 0 → x.gated = false → s.txWanted k = false → Completes (.ack p r) s fun t => ∃ u, t = adoptPump g u ∧
      u.tx? k = some { x with receipt := true, ack := true, timer := if x.receipt then x.timer else .probe, sheets := []
                              segs := [], freed := true } ∧ OnlyIn [.ring] s u) ∧
    (x.reads ≠ 0 ∨ s.txWanted k = true → Completes (.ack p r) s fun t => ∃ u, t = adoptPump g u ∧
      u.tx? k = some { x with receipt := true, ack := true, timer := if x.receipt then x.timer else .probe } ∧ OnlyIn [.ring] s u) ∧
    (x.ack = false → x.freed = false → x.reads = 0 → x.gated = false → s.txWanted k = false →
      Completes (.credit p r) s fun t => ∃ u, t = adoptPump g u ∧
      let i := s.gateCtr g (cwHalf k) (cwXfer k)
      u.tx? k = some { x with receipt := true, credit := true, timer := if x.receipt then x.timer else .probe, gated := true } ∧
      (u.ctr i).toNat = min ((s.ctr i).toNat + 1) 0xFFFFFFFF ∧ (∀ n, n ≠ i → u.ctr n = s.ctr n) ∧
      OnlyIn [.sch, .ring, .host, .mgmt, .pages, .cnts] s u)) ∧
  (∀ (p : Port) (r : RingRec) (g : Nat) (x : TxCw) (s : State),
    let k := recKey g r
    Carries g r s → r.chan.toNat < 32 → s.tx? k = some x → r.count.toNat < x.sheets.length → x.port < 2 →
    Completes (.refetch p r) s fun t =>
      t.port x.port = { s.port x.port with segQ := (s.port x.port).segQ ++ [{
        job := gtJob (s.gtCtl g), chan := r.chan.toNat, cw := k, i := segOfSheet x.sheets r.count.toNat, last := false }] } ∧
      (∀ q, q ≠ x.port → t.port q = s.port q) ∧ OnlyIn [.line] s t) ∧
  (∀ (c : CwId) (x : TxCw) (s : State),
    s.tx? (CwId.key c) = some x → x.timer = .probe → (x.ack && x.credit) = false →
    Completes (.probeTimer c) s fun t =>
      t.tx? (CwId.key c) = some x ∧ t.line = (sendRec (CwId.key c) 1 x.nsheet x.tbytes s).line ∧ OnlyIn [.ring, .line] s t) ∧
  ∀ (c : CwId) (x : TxCw) (s : State),
    c.grp < 64 → s.tx? (CwId.key c) = some x → x.timer = .resend → x.receipt = false → x.freed = false → s.feltBad = false →
    Completes (.resendTimer c) s fun t =>
      t.tx? (CwId.key c) = some { x with retx := x.retx + 1, limit := x.limit || decide (x.retx + 1 ≥ s.retxMax), timer := .none } ∧
      (s.pageOff pgRING = false → t.cnt pgRING 0x804 = min (s.cnt pgRING 0x804 + 1) (cntMax pgRING 0x804)) ∧
      OnlyIn [.ring, .line, .host, .mgmt, .pages, .cnts] s t

/-- RING_SETUP_START (R172, R175), SETUP_SEND, SETUP_RETRY, SETUP_MESSAGE, SETUP_ANSWER (R175, R190) and RING_TEARDOWN (R176). -/
def Obligations.RingSetup : Prop :=
  (∀ (w : Who) (v : Word) (s : State),
    let g := s.ixOf w pgRING 0x114
    let x := s.taken w pgRING 0x114 (withBit v 31 true)
    let u := s.setReg pgRING 0x114 x g
    s.allows w pgRING 0x114 (withBit v 31 true) = true → gtValid (s.gtCtl g) = false → 2 ≤ gtS x → gtS x ≤ 16 →
    gtPos x < gtS x → ((List.range (gtS x)).map (u.gtSite g)).eraseDups.length = gtS x →
    u.peerLive (u.nbrSeid g true).toNat = true → u.peerLive (u.nbrSeid g false).toNat = true →
    2 * u.grpMib g ≤ u.feltRoom 0 → 2 * u.grpMib g ≤ u.feltRoom 1 →
    Completes (.ringSetupStart w v) s fun t =>
      t.regs = u.regs ∧ t.grp g = { st := .setup, txMib := u.grpMib g, rxMib := u.grpMib g } ∧
      (∀ i, i ≠ g → t.grp i = s.grp i) ∧
      (∀ q, q < 2 →
        t.port q = { s.port q with feltMib := (s.port q).feltMib + 2 * u.grpMib g }) ∧
      OnlyIn [.ring, .line, .regs] s t) ∧
  (∀ (w : Who) (v : Word) (s : State),
    let g := s.ixOf w pgRING 0x114
    let x := s.taken w pgRING 0x114 (withBit v 31 false)
    s.allows w pgRING 0x114 (withBit v 31 false) = true → gtValid (s.gtCtl g) = true → gtValid x = false → s.chanBusy g = false →
    Completes (.ringTeardown w v) s fun t =>
      t.regs = (s.setReg pgRING 0x114 x g).regs ∧ t.grp g = {} ∧
      (∀ k, cwGrp k = g → t.tx? k = none ∧ t.rx? k = none) ∧
      (∀ k, cwGrp k ≠ g → t.tx? k = s.tx? k ∧ t.rx? k = s.rx? k) ∧ OnlyIn [.ring, .line, .regs] s t) ∧
  (∀ (g : Fin 64) (b : List Byte) (s : State),
    let j := gtJob (s.gtCtl g.val)
    let msg (next : Bool) : Out := .setup g.val next
      { jobtag := s.gtTag g.val, group := gtGroup (s.gtCtl g.val), s := gtS (s.gtCtl g.val), pos := gtPos (s.gtCtl g.val)
        seedCheck := seedCheck j, epoch := s.grpEpoch g.val, digest := s.gtDigest g.val }
    let out := (if (s.grp g.val).okNext then [] else [msg true]) ++ (if (s.grp g.val).okPrev then [] else [msg false])
    (s.grp g.val).st = .setup → SMap.find s.outer.ocb j = some b →
    ((∀ r, r < s.nream j → s.reamWaves j g.val r ≤ 16384) →
      (Completes (.setupSend g) s fun t => t.out = s.out ++ out ∧ OnlyIn [] s t) ∧
      Completes (.setupRetry g) s fun t => t.out = s.out ++ out ∧ OnlyIn [] s t) ∧
    ∀ r, r < s.nream j → s.reamWaves j g.val r > 16384 →
      (Completes (.setupSend g) s fun t => (t.grp g.val).st = .refused ∧ (t.grp g.val).reason = 8 ∧ (t.grp g.val).txMib = 0 ∧
        (t.grp g.val).rxMib = 0 ∧ (∀ i, i ≠ g.val → t.grp i = s.grp i) ∧ OnlyIn [.ring, .line, .host, .mgmt, .pages, .cnts] s t) ∧
      Completes (.setupRetry g) s fun t => (t.grp g.val).st = .refused ∧ (t.grp g.val).reason = 8 ∧
        (∀ i, i ≠ g.val → t.grp i = s.grp i) ∧ OnlyIn [.ring, .line, .host, .mgmt, .pages, .cnts] s t) ∧
  (∀ (m : SetupMsg) (g : Nat) (b : List Byte) (s : State),
    let r := s.setupReason g m
    s.grpOfTag m.jobtag (2 * m.group) = some g → SMap.find s.outer.ocb (gtJob (s.gtCtl g)) = some b →
    Completes (.setupMessage m) s fun t =>
      t.out = s.out ++ [.root (s.gtSeid g m.pos) "SETUP_ANSWER" [(s.gtTag g).toNat, m.group, b2n (r = 0), r]] ∧ OnlyIn [] s t) ∧
  ∀ (g : Fin 64) (next : Bool) (s : State),
    let x := s.grp g.val
    let both := (x.okNext || next) && (x.okPrev || !next)
    x.st = .setup →
    (Completes (.setupAnswer g next true) s fun t =>
      t.grp g.val = (if both then { x with okNext := true, okPrev := true, st := .up, origin := s.nextRound (gtJob (s.gtCtl g.val)) }
        else { x with okNext := x.okNext || next, okPrev := x.okPrev || !next }) ∧
      (∀ i, i ≠ g.val → t.grp i = s.grp i) ∧
      (both = true → ∀ h n, h < 2 → n < 2 * gtS (s.gtCtl g.val) - 2 → t.ctr (s.gateCtr g.val h n) = wd (s.gtDepth g.val)) ∧
      OnlyIn (if both then [.sch, .gc, .ring, .outer, .host, .mgmt, .pages, .cnts] else [.ring]) s t) ∧
    Completes (.setupAnswer g next false) s fun t =>
      t.grp g.val = { x with st := .refused, reason := 7, txMib := 0, rxMib := 0, okNext := false, okPrev := false } ∧
      (∀ i, i ≠ g.val → t.grp i = s.grp i) ∧ OnlyIn [.ring, .line, .host, .mgmt, .pages, .cnts] s t

/-! ## Outer rounds and streams (08) -/

/-- OUTER_ENABLE and OUTER_DISABLE (R200, R201, R202; when the first PLANs wait is the model's reading, log 147). -/
def Obligations.OuterEnable : Prop :=
  (∀ (w : Who) (j : Job) (v : Word) (s : State),
    let o := 0x200 + 0x40 * j.val
    let x := s.taken w pgOUTER o (withBit v 31 true)
    let waits : Bool := match (s.setReg pgOUTER o x).planGrp j.val with | none => true | some g => !s.grpLive g || (s.mgrp g).running
    let u := store pgOUTER o 0 x ((outerFresh j.val s).updOuter fun y =>
      { y with ocb := SMap.put j.val (s.ocbIn j.val) y.ocb, reason := SMap.set (fun _ => 0) j.val 0 y.reason })
    s.allows w pgOUTER o (withBit v 31 true) = true → bit (s.reg pgOUTER o) 31 = false →
    (s.ocbReason j.val = 0 → Completes (.outerEnable w j v) s fun t =>
      t.regs = (s.setReg pgOUTER o x).regs ∧ SMap.find t.outer.ocb j.val = some (s.ocbIn j.val) ∧
      (∀ i : Nat, i ≠ j.val → SMap.find t.outer.ocb i = SMap.find s.outer.ocb i) ∧
      (∀ r, r < 1024 → SMap.find t.outer.stats (reamIx j.val r) = none ∧ SMap.find t.outer.merge (reamIx j.val r) = none) ∧
      t.outer.due.contains j.val = waits ∧
      t.sch = (if waits then s.sch else (forAll (List.range (s.nream j.val)) (fun r y => rootTask j.val 0 r r y) u).sch) ∧
      OnlyIn [.sch, .vat, .eng, .gc, .outer, .host, .mgmt, .pages, .regs, .cnts] s t) ∧
    (s.ocbReason j.val ≠ 0 → Completes (.outerEnable w j v) s fun t =>
      SMap.get (fun _ => 0) t.outer.reason j.val = s.ocbReason j.val ∧ t.regs = s.regs ∧
      Recorded w pgOUTER .ocbBad o (withBit v 31 true) s t ∧ OnlyIn [.outer, .host, .mgmt, .pages, .cnts] s t)) ∧
  ∀ (w : Who) (j : Job) (v : Word) (s : State),
    let o := 0x200 + 0x40 * j.val
    let x := s.taken w pgOUTER o (withBit v 31 false)
    s.allows w pgOUTER o (withBit v 31 false) = true → bit (s.reg pgOUTER o) 31 = true → s.jobOps j.val = [] →
    Completes (.outerDisable w j v) s fun t =>
      t.regs = (s.setReg pgOUTER o x).regs ∧ SMap.find t.outer.ocb j.val = none ∧
      (∀ i : Nat, i ≠ j.val → SMap.find t.outer.ocb i = SMap.find s.outer.ocb i) ∧ OnlyIn [.vat, .eng, .outer, .regs] s t

/-- STREAM_END_ENABLE and STREAM_END_DISABLE (R223), STREAM_MESSAGE (R224), STREAM_DELIVERY and STREAM_CONSUMER_ACK (R225),
STREAM_ACK and a stream's RESEND_TIMER (R226), REFETCH_REPLACEMENT (06 R161). -/
def Obligations.Streams : Prop :=
  (∀ (w : Who) (v : Word) (peer : Option PeerEnd) (s : State),
    let i := s.ixOf w pgOUTER 0x144
    let x := s.taken w pgOUTER 0x144 (withBit v 31 true)
    let mib := s.regF pgOUTER 0x164 0 16 i
    let same (q : PeerEnd) : Bool := q.chan.toNat = scChan x && q.fmt.toNat = fld x 0 4 && q.coded = bit x 8
    s.allows w pgOUTER 0x144 (withBit v 31 true) = true → bit (s.scCtl i) 31 = false → (∃ f, fmtOf (fld x 0 4) = some f ∧ f.line = true) →
    Completes (.streamEndEnable w v peer) s fun t =>
      t.regs = (s.setReg pgOUTER 0x144 x i).regs ∧
      t.sc i = (match (if s.peerLive (s.regF pgOUTER 0x148 0 16 i) then peer else none) with
        | none => { st := 0, reason := 1 }
        | some q => if !same q then { st := 0, reason := 2 } else if (s.setReg pgOUTER 0x144 x i).feltRoom (scPort x) < mib then { st := 0, reason := 3 }
          else { st := 1, felt := mib }) ∧
      (∀ n, n ≠ i → t.sc n = s.sc n) ∧ OnlyIn [.outer, .line, .regs] s t) ∧
  (∀ (w : Who) (v : Word) (s : State),
    let i := s.ixOf w pgOUTER 0x144
    let x := s.taken w pgOUTER 0x144 (withBit v 31 false)
    s.allows w pgOUTER 0x144 (withBit v 31 false) = true → bit (s.scCtl i) 31 = true →
    Completes (.streamEndDisable w v) s fun t =>
      t.regs = (s.setReg pgOUTER 0x144 x i).regs ∧ t.sc i = {} ∧ (∀ n, n ≠ i → t.sc n = s.sc n) ∧
      OnlyIn [.outer, .line, .host, .pool, .mem, .mgmt, .pages, .regs, .cnts] s t) ∧
  (∀ (w : Who) (v : Word) (peer : Option PeerEnd) (s : State),
    let x := s.taken w pgOUTER 0x144 (withBit v 31 true)
    s.allows w pgOUTER 0x144 (withBit v 31 true) = true → bit (s.scCtl (s.ixOf w pgOUTER 0x144)) 31 = false →
    (∀ f, fmtOf (fld x 0 4) = some f → f.line = false) →
    Completes (.streamEndEnable w v peer) s fun t =>
      Recorded w pgOUTER .valueRange 0x144 (withBit v 31 true) s t ∧ OnlyIn [.pages] s t) ∧
  (∀ (qpn : BitVec 24) (data : List Byte) (i : Nat) (f : Fmt) (s : State),
    let x := s.sc i
    let ps := scSheets f (bit (s.scCtl i) 8) x.sseq data
    let m : StrmMsg := { mseq := x.mseq, first := x.sseq, sheets := ps.map Prod.fst, segs := [] }
    let y : ScEnd := { x with tx := x.tx ++ [m], mseq := x.mseq + 1, sseq := x.sseq + wd ps.length }
    let u := poolReq .stream (scKey i x.mseq) (some (Fin.ofNat 8 (scJob (s.scCtl i)))) data.length
      (updSc i (fun _ => y) (countPacked 0 ps s))
    s.qpTakes qpn = true → s.scOfIn qpn = some i → s.scFmt i = some f → data ≠ [] → data.length % f.blkBytes = 0 →
    data.length ≤ s.scMax i → s.scRoom i = true → (∀ z ∈ x.tx, z.segs ≠ [] ∧ z.mseq ≠ x.mseq) →
    Completes (.streamMessage qpn data) s fun t =>
      (u.poolWaits .stream (scKey i x.mseq) = true → t.sc i = y ∧ t.line = s.line) ∧
      (u.poolWaits .stream (scKey i x.mseq) = false →
        match sealAll (u.scCtx i) 0 0 true (segsOf m.sheets) u with
        | none => t.sc i = y ∧ t.line = s.line
        | some (segs, v) => v.sc i = y → t.sc i = { y with tx := x.tx ++ [{ m with segs := segs }] }) ∧
      OnlyIn [.sheet, .ring, .outer, .line, .ciph, .host, .pool, .mem, .mgmt, .pages, .cnts] s t) ∧
  (∀ (i : Fin 256) (a : StrmAnn) (l : List StrmSheet) (q : Qp) (s : State),
    let x := s.sc i.val
    let k := 2 ^ s.regF pgOUTER 0x160 0 4 i.val
    let qp := BitVec.ofNat 24 (s.regF pgOUTER 0x150 0 24 i.val)
    let data := l.flatMap fun y => y.raw
    let y : ScEnd := { x with rx := x.rx.filter (fun z => !decide ((z.sseq - a.first).toNat < a.n))
                              ann := x.ann.filter fun b => b.first ≠ a.first
                              mseq := x.mseq + 1, sseq := x.sseq + wd a.n, unacked := x.unacked ++ [(x.mseq, a.first)] }
    s.scUp i.val = true → scRecv (s.scCtl i.val) = true → s.qp? qp = some q →
    q.state = 3 → x.nextMsg = some (a, l) → l.foldl (fun n y => n + y.bytes.length) 0 = a.tbytes →
    (x.mseq - loW x.consumed).toNat < k →
    Completes (.streamDelivery i) s fun t =>
      t.sc i.val = y ∧ (∀ n, n ≠ i.val → t.sc n = s.sc n) ∧ t.cnt pgOUTER 0x820 = min (s.cnt pgOUTER 0x820 + 1) (cntMax pgOUTER 0x820) ∧
      t.fab = (rdmaPost (12 + scPort (s.scCtl i.val)) qp ((s.reg64 pgOUTER 0x154 i.val).toNat + x.mseq.toNat % k * s.scMax i.val)
        (s.reg pgOUTER 0x15C i.val) data.length (some (wd (x.mseq.toNat % 2 ^ 10 * 2 ^ 22 + data.length % 2 ^ 22))) (.bytes data)
        (.stream i.val x.mseq) (bump pgOUTER 0x820 1 (updSc i.val (fun _ => y) s))).fab ∧
      OnlyIn [.outer, .fab, .host, .mgmt, .pages, .cnts] s t) ∧
  (∀ (j : Job) (c : Fin 256) (b : List Byte) (i : Nat) (s : State),
    ((List.range 256).find? fun i => bit (s.scCtl i) 31 && scRecv (s.scCtl i) && scJob (s.scCtl i) = j.val &&
      scChan (s.scCtl i) = c.val) = some i → b.length = 8 →
    Completes (.streamConsumerAck j (0x1000 + 8 * c.val) b) s fun t =>
      t.sc i = { s.sc i with consumed := BitVec.ofNat 64 (leAt b 0 8) } ∧ (∀ n, n ≠ i → t.sc n = s.sc n) ∧
      OnlyIn [.outer] s t) ∧
  (∀ (i : Fin 256) (seq : Word) (s : State),
    bit (s.scCtl i.val) 31 = true → scRecv (s.scCtl i.val) = false →
    Completes (.streamAck i seq) s fun t =>
      t.sc i.val = { s.sc i.val with tx := (s.sc i.val).tx.filter fun m => m.mseq ≠ seq } ∧
      (∀ n, n ≠ i.val → t.sc n = s.sc n) ∧ OnlyIn [.outer] s t) ∧
  (∀ (i : Fin 256) (seq : Word) (s : State),
    bit (s.scCtl i.val) 31 = true → scRecv (s.scCtl i.val) = true →
    Completes (.streamAck i seq) s fun t =>
      ((∀ kv ∈ s.fab.qps, ∀ m ∈ kv.2.outq, m.for_ ≠ .stream i.val seq) → ∀ u, ((s.sc i.val).unacked.find? fun u => u.1 = seq) = some u →
        t.sc i.val = { s.sc i.val with unacked := (s.sc i.val).unacked.erase u } ∧ t.line = (scRec i.val 3 u.2 0 0 s).line ∧
        (∀ n, n ≠ i.val → t.sc n = s.sc n) ∧ OnlyIn [.outer, .fab, .line, .host, .mgmt, .pages, .cnts] s t) ∧
      (∀ (q : BitVec 24) (m : TxMsg),
        (s.fab.qps.findSome? fun kv => (kv.2.outq.find? fun m => m.for_ = .stream i.val seq).map fun m => (kv.2.qpn, m)) = some (q, m) →
        t.outer = (qpAcked q (m.first + BitVec.ofNat 24 (m.n - 1)) s).outer ∧ t.line = (qpAcked q (m.first + BitVec.ofNat 24 (m.n - 1)) s).line)) ∧
  (∀ (c : CwId) (m : StrmMsg) (s : State),
    let i := c.grp - 64
    64 ≤ c.grp → ((s.sc i).tx.find? fun m => m.mseq = c.rseq) = some m → m.timer = true → s.feltBad = false →
    Completes (.resendTimer c) s fun t =>
      t.sc i = { s.sc i with tx := (s.sc i).tx.map fun z => if z.mseq = m.mseq then
        { m with retx := m.retx + 1, limit := m.limit || decide (m.retx + 1 ≥ s.retxMax), timer := false } else z } ∧
      (∀ n, n ≠ i → t.sc n = s.sc n) ∧ OnlyIn [.outer, .line, .host, .mgmt, .pages, .cnts] s t) ∧
  (∀ (c : CwId) (i : Nat) (b : List Byte) (s : State),
    c.grp < 64 → (s.sheet.damaged.find? fun g => g.cw = CwId.key c && g.i = i) = none →
    Completes (.refetchReplacement c i b) s fun t =>
      let die := ((s.sheet.asked.find? fun a => a.1 = CwId.key c && a.2.1 = i).map fun a => a.2.2).getD 0
      t.cnts = (bump (pgSHEET die) 0x824 1 s).cnts ∧
      t.sheet = { s.sheet with asked := s.sheet.asked.eraseP fun a => a.1 = CwId.key c && a.2.1 = i } ∧
      OnlyIn [.sheet, .pages, .cnts] s t) ∧
  ∀ (c : CwId) (i : Nat) (b : List Byte) (g : Dmg) (e : Entry) (r : RawSheet) (s : State),
    c.grp < 64 → (s.sheet.damaged.find? fun g => g.cw = CwId.key c && g.i = i) = some g → s.entry? g.target = some e →
    e.d.opcode = 6 → e.d.destWave = true → checkSheet false b = .ok r →
    Completes (.refetchReplacement c i b) s fun t =>
      (∀ x ∈ t.sheet.damaged, ¬ (x.target = g.target ∧ x.cw = g.cw ∧ x.i = g.i)) ∧
      t.vat = (passSheet e g.cw g.i r (dropDmg g (putSheet g.cw g.i b s))).vat ∧
      OnlyIn [.sch, .vat, .gc, .sheet, .ring, .outer, .fab, .line, .ciph, .host, .pool, .mem, .mgmt, .pages, .cnts] s t

/-! ## Fabric ports and switch core (09) -/

/-- OUTPUT_SERVE (R242), ACK_TIMEOUT (R236), CNP_RX and RATE_INCREASE (R248), FABRIC_FRAME (R238, R240, R241, R243; with header
capture and mirroring off), FAB_LINK_DOWN and FAB_LINK_UP (R231), PFC_XOFF_RX and PFC_PAUSE_END (R244), FAB_PFC_LONG (R245),
IMBALANCE_WINDOW (R255). -/
def Obligations.FabricCommands : Prop :=
  (∀ (o : Fin 31) (p : VPkt) (s : State),
    let rr := drrPick o.val 400 false (SMap.get (fun _ => 1) s.fab.rrCls o.val) s.fab.deficit s
    (s.voqHead o.val 0 = some p ∨ s.voqHead o.val 0 = none ∧ (∃ d, rr = some (p, d)) ∨
      s.voqHead o.val 0 = none ∧ rr = none ∧ s.voqHead o.val 5 = some p) →
    p.output = o.val →
    Completes (.outputServe o) s fun t => ∃ u, t = fabPump u ∧
      (o.val < 24 → Out.frame (Fin.ofNat 24 o.val) p.cls (if (ecnMark p (s.qOf o.val p.cls) s).1 then setCe p.data else p.data) ∈ u.out) ∧
      (24 ≤ o.val → Out.inner o.val p.data ∈ u.out) ∧
      (bit (s.reg pgSW 0x320) 31 = false → p.root = none → u.fab.voq = s.fab.voq.erase p) ∧
      OnlyIn [.fab, .host, .mem, .mgmt, .pages, .cnts] s t) ∧
  (∀ (qpn : BitVec 24) (q : Qp) (s : State),
    s.qp? qpn = some q → q.state = 3 → q.una ≠ q.spsn →
    (q.rnrWait = true → Completes (.ackTimeout qpn) s fun t =>
      t = fabPump (qpPump qpn (putQp { q with nxt := q.una, rnrWait := false } s)) ∧ OnlyIn [.fab, .host, .mgmt, .pages, .cnts] s t) ∧
    (q.rnrWait = false → q.retries < q.retry → Completes (.ackTimeout qpn) s fun t =>
      t = fabPump (qpPump qpn (putQp { q with retries := q.retries + 1, nxt := q.una, rnrWait := false } s)) ∧
      OnlyIn [.fab, .host, .mgmt, .pages, .cnts] s t) ∧
    (q.rnrWait = false → q.retry ≤ q.retries → Completes (.ackTimeout qpn) s fun t =>
      ((∀ kv ∈ s.fab.qps, kv.2.qpn = qpn → kv.2 = q) → (∀ kv ∈ s.vat.msgs, kv.2.qpn ≠ qpn) → (∀ e ∈ s.sch.ops, e.d.opcode = 9 → e.d.job ≠ q.job) →
        t.qp? qpn = some { q with ctx := setAt q.ctx 1 (setFld (q.ctx.getD 1 0) 0 3 4) }.idle) ∧
      OnlyIn [.sch, .vat, .fab, .host, .pool, .mem, .mgmt, .pages, .cnts] s t)) ∧
  (∀ (qpn : BitVec 24) (q : Qp) (s : State), s.qp? qpn = some q →
    Completes (.cnpRx qpn) s fun t =>
      t.qp? qpn = some { q with rate := Dy.max (Dy.ofInt 1) (q.rate.sub (q.rate.shift (-((max 1 (fld (s.ccOf q) 20 4) : Nat) : Int)))) } ∧
      (s.pageOff (macPg (s.qpMac q)) = false → Counted (macPg (s.qpMac q)) (macCnt (s.qpMac q) 0x85C) 1 s t) ∧
      (∀ r, qpIx r ≠ qpIx qpn → t.qp? r = s.qp? r) ∧ OnlyIn [.fab, .pages, .cnts] s t) ∧
  (∀ (qpn : BitVec 24) (q : Qp) (s : State), s.qp? qpn = some q →
    Completes (.rateIncrease qpn) s fun t =>
      let top := Dy.ofInt (s.macRate (s.qpMac q))
      let r := q.rate.add (Dy.ofInt (fld (s.ccOf q) 8 8))
      t.qp? qpn = some { q with rate := if r.le top then r else top } ∧
      (∀ r, qpIx r ≠ qpIx qpn → t.qp? r = s.qp? r) ∧ OnlyIn [.fab] s t) ∧
  (∀ (m : Mac) (f : Frame) (s : State),
    s.macUp m.val = true → s.macEn m.val = true → bit (s.reg pgSW 0x300) 31 = false → bit (s.reg pgSW 0x320) 31 = false →
    let s0 := bumpEv (macPg m.val) (macCnt m.val 0x838) 0 f.fecBad (bumpMac m.val 0x834 f.fecCorr s)
    let s1 := bumpMac m.val 0x808 f.len (bumpMac m.val 0x800 1 s0)
    let roce := decide (f.kind = .roce)
    let p (o : Nat) : VPkt :=
      { input := m.val / 2, src := some m.val, output := o, cls := s.dscpClass f.dscp.toNat, bytes := f.len, data := f.data
        ecn := f.ecnCapable, qpn := if roce then some f.qpn.toNat else none
        flow := [f.srcIp.toNat, f.dstIp.toNat, f.udpSrc.toNat, f.qpn.toNat], fence := !roce || f.lastOrOnly }
    (f.fcsOk = false → Completes (.fabricFrame m f) s fun t =>
      t = bumpMac m.val 0x830 1 s1 ∧ OnlyIn [.host, .mgmt, .pages, .cnts] s t) ∧
    (f.fcsOk = true → isOwnMac f.dmac = true → Completes (.fabricFrame m f) s fun t => t = fabPump (terminate m.val f s1)) ∧
    (f.fcsOk = true → isOwnMac f.dmac = false → f.dmac.getLsbD 40 = true → Completes (.fabricFrame m f) s fun t =>
      t = fabPump (enqueue { p 30 with cls := 0, ecn := false, qpn := none, fence := true, root := some f } s1)) ∧
    (f.fcsOk = true → isOwnMac f.dmac = false → f.dmac.getLsbD 40 = false → 9216 < f.len → Completes (.fabricFrame m f) s fun t => t = fabPump s1) ∧
    (f.fcsOk = true → isOwnMac f.dmac = false → f.dmac.getLsbD 40 = false → f.len ≤ 9216 →
      ((List.range 16384).find? fun i => bit (s.reg pgSW 0x124 i) 31 && (s.reg64 pgSW 0x11C i).toNat % 2 ^ 48 = f.dmac.toNat) = none →
      Completes (.fabricFrame m f) s fun t => t = fabPump (noRoute (m.val / 2) 0xFFFF s1)) ∧
    (∀ i, f.fcsOk = true → isOwnMac f.dmac = false → f.dmac.getLsbD 40 = false → f.len ≤ 9216 →
      ((List.range 16384).find? fun i => bit (s.reg pgSW 0x124 i) 31 && (s.reg64 pgSW 0x11C i).toNat % 2 ^ 48 = f.dmac.toNat) = some i →
      let seid := s.regF pgSW 0x124 0 16 i
      (s.route seid (p 0).flow false = none → Completes (.fabricFrame m f) s fun t => t = fabPump (noRoute (m.val / 2) seid s1)) ∧
      (∀ o sp, s.route seid (p 0).flow false = some (o, sp) →
        let s2 := noteFlow (p 0).flow seid false (p 0).fence s1
        (o < 24 → s.macUp o = false → Completes (.fabricFrame m f) s fun t => t = fabPump (bumpMac o 0x860 1 s2)) ∧
        ((o < 24 → s.macUp o = true) → s.cutThrough m.val (p o) = false →
          Completes (.fabricFrame m f) s fun t => t = fabPump (enqueue { p o with spray := sp } s2)) ∧
        (s.cutThrough m.val (p o) = true → Completes (.fabricFrame m f) s fun t => t = fabPump (leave (p o) 0 s2))))) ∧
  (∀ (m : Mac) (s : State), s.macUp m.val = true →
    Completes (.fabLinkDown m) s fun t => ∃ u, t = fabPump u ∧
      t.macUp m.val = false ∧ u.fab.voq = s.fab.voq.filter (fun p => p.output ≠ m.val) ∧
      (∀ k, k / 2 = m.val → SMap.find t.fab.held k = none) ∧ (∀ k, k / 2 ≠ m.val → SMap.find t.fab.held k = SMap.find s.fab.held k) ∧
      (s.pageOff (macPg m.val) = false → u.cnt (macPg m.val) (macCnt m.val 0x864) =
        min (s.cnt (macPg m.val) (macCnt m.val 0x864) + 1) (cntMax (macPg m.val) (macCnt m.val 0x864))) ∧
      OnlyIn [.fab, .host, .time, .mgmt, .pages, .cnts] s t) ∧
  (∀ (m : Mac) (s : State), s.macEn m.val = true → s.lanesOn m.val = true →
    Completes (.fabLinkUp m) s fun t =>
      t.macUp m.val = true ∧ (∀ n, n ≠ m.val → t.macUp n = s.macUp n) ∧ t.fab.voq = s.fab.voq ∧
      OnlyIn [.fab, .pages, .cnts] s t) ∧
  (∀ (m : Mac) (prio : BitVec 3) (c : Nat) (s : State),
    s.pfcEn m.val = true → s.macUp m.val = true → s.priClass m.val prio = some c →
    Completes (.pfcXoffRx m prio) s fun t =>
      let k := 2 * m.val + c
      SMap.find t.fab.held k = some ((SMap.find s.fab.held k).getD s.time.nt) ∧
      (∀ n, n ≠ k → SMap.find t.fab.held n = SMap.find s.fab.held n) ∧ t.fab.voq = s.fab.voq ∧
      (s.pageOff (macPg m.val) = false → Counted (macPg m.val) (macCnt m.val 0x848) 1 s t) ∧ OnlyIn [.fab, .pages, .cnts] s t) ∧
  (∀ (m : Mac) (prio : BitVec 3) (c : Nat) (b : DWord) (s : State),
    s.priClass m.val prio = some c → SMap.find s.fab.held (2 * m.val + c) = some b →
    Completes (.pfcPauseEnd m prio) s fun t =>
      SMap.find t.fab.held (2 * m.val + c) = none ∧
      (∀ n, n ≠ 2 * m.val + c → SMap.find t.fab.held n = SMap.find s.fab.held n) ∧ t.fab.voq = s.fab.voq ∧
      (s.pageOff (macPg m.val) = false → (s.time.nt - b).toNat * 27 / 20 ≠ 0 →
        Counted (macPg m.val) (macCnt m.val (0x820 + 8 * c)) ((s.time.nt - b).toNat * 27 / 20) s t) ∧
      OnlyIn [.fab, .pages, .cnts] s t) ∧
  (∀ (m : Mac) (prio : BitVec 3) (c : Nat) (s : State),
    s.priClass m.val prio = some c → (SMap.find s.fab.held (2 * m.val + c)).isSome = true →
    SMap.find s.fab.longRaised (2 * m.val + c) = none → s.regF (macPg m.val) 0x108 24 8 ≠ 0 → s.pageOff (macPg m.val) = false →
    Completes (.fabPfcLong m prio) s fun t =>
      SMap.find t.fab.longRaised (2 * m.val + c) = some true ∧ t.fab.held = s.fab.held ∧
      (t.hdr (macPg m.val)).intStat = (s.hdr (macPg m.val)).intStat ||| wd (2 ^ 2) ∧
      Counted (macPg m.val) (macCnt m.val 0x868) 1 s t ∧ OnlyIn [.fab, .host, .pages, .cnts] s t) ∧
  ∀ (g : Fin 16) (s : State),
    Completes (.imbalanceWindow g) s fun t =>
      let x := SMap.get (fun _ => ({} : PgSt)) s.fab.pgs g.val
      let b := (s.pgUp g.val).map fun m => SMap.get (fun _ => 0) s.fab.pgBytes (32 * g.val + m)
      let off := decide (4 * (s.pgUp g.val).length * b.foldl max 0 > b.foldl Nat.add 0 * (4 + s.regF pgSW 0x1C4 16 4))
      let N := s.regF pgSW 0x1C4 24 8
      SMap.get (fun _ => ({} : PgSt)) t.fab.pgs g.val =
        (if N = 0 then {} else if off = x.spray then { x with run := 0 }
          else if x.run + 1 ≥ N then { spray := !x.spray, run := 0 } else { x with run := x.run + 1 }) ∧
      (∀ n, n ≠ g.val → SMap.get (fun _ => ({} : PgSt)) t.fab.pgs n = SMap.get (fun _ => ({} : PgSt)) s.fab.pgs n) ∧
      (∀ m, m < 32 → SMap.find t.fab.pgBytes (32 * g.val + m) = none) ∧ t.fab.voq = s.fab.voq ∧
      OnlyIn [.fab, .host, .mgmt, .pages, .cnts] s t

/-- FAB_PORT_CTL_WRITE (R229), REKEY (R254), SW_MIRROR_CTL_WRITE (R258), SW_QP_QUOTA_WRITE (R233), READ_REGION_VALID (R235, 14
R359). -/
def Obligations.FabricRegisters : Prop :=
  (∀ (w : Who) (p : Fin 12) (v : Word) (s : State),
    let x := s.taken w (pgFAB p.val) 0x100 v
    s.allows w (pgFAB p.val) 0x100 v = true →
    (bit x 0 = bit (s.reg (pgFAB p.val) 0x100) 0 ∨ fld (s.reg (pgFAB p.val) 0x100) 16 2 = 0 →
      Completes (.fabPortCtlWrite w p v) s fun t =>
        (bit x 8 = false → ∀ k, k / 4 = p.val → SMap.find t.fab.held k = none) ∧
        (bit x 8 = true → t.fab.held = s.fab.held) ∧ Stored w (pgFAB p.val) 0x100 v [.fab, .pages, .cnts] s t) ∧
    (bit x 0 ≠ bit (s.reg (pgFAB p.val) 0x100) 0 → fld (s.reg (pgFAB p.val) 0x100) 16 2 ≠ 0 →
      Completes (.fabPortCtlWrite w p v) s fun t => Recorded w (pgFAB p.val) .portBusy 0x100 v s t ∧ OnlyIn [.pages] s t)) ∧
  (∀ (w : Who) (v : Word) (s : State), s.allows w pgSW 0x1C8 (withBit v 0 true) = true →
    Completes (.rekey w v) s fun t =>
      t.fab.hashKey = Config.free s.freeCtr ∧ t.fab.flows = s.fab.flows ∧ t.freeCtr = s.freeCtr + 1 ∧ OnlyIn [.fab] s t) ∧
  (∀ (w : Who) (v : Word) (s : State),
    let x := s.taken w pgSW 0x320 v
    s.allows w pgSW 0x320 v = true →
    (bit x 31 = false ∨ (∀ j, j < 8 → s.jobSt j ≠ .running) ∧ fld x 0 5 < 24 ∧ (bit x 30 = true ∨ fld x 0 5 ≠ s.regF pgSW 0x324 0 24) →
      Completes (.swMirrorCtlWrite w v) s fun t => Stored w pgSW 0x320 v [] s t) ∧
    (bit x 31 = true → (∃ j, j < 8 ∧ s.jobSt j = .running) →
      Completes (.swMirrorCtlWrite w v) s fun t => Recorded w pgSW .mirrorBusy 0x320 v s t ∧ OnlyIn [.pages] s t) ∧
    (bit x 31 = true → (∀ j, j < 8 → s.jobSt j ≠ .running) → (24 ≤ fld x 0 5 ∨ bit x 30 = false ∧ fld x 0 5 = s.regF pgSW 0x324 0 24) →
      Completes (.swMirrorCtlWrite w v) s fun t => Recorded w pgSW .mirrorDest 0x320 v s t ∧ OnlyIn [.pages] s t)) ∧
  (∀ (w : Who) (j : Job) (v : Word) (s : State),
    let o := 0x400 + 0x10 * j.val
    let n := fld (s.taken w pgSW o v) 0 14
    let sum := ((List.range 8).map fun i => if i = j.val then n else s.regF pgSW (0x400 + 0x10 * i) 0 14).foldl Nat.add 0
    s.allows w pgSW o v = true →
    (sum ≤ 8192 → s.qpUsed j.val ≤ n → Completes (.swQpQuotaWrite w j v) s fun t => Stored w pgSW o v [] s t) ∧
    (8192 < sum ∨ n < s.qpUsed j.val →
      Completes (.swQpQuotaWrite w j v) s fun t => Recorded w pgSW .qpQuota o v s t ∧ OnlyIn [.pages] s t)) ∧
  ∀ (w : Who) (v : Word) (s : State),
    let i := s.ixOf w pgSW 0x154
    let x := s.taken w pgSW 0x154 (withBit v 31 true)
    s.allows w pgSW 0x154 (withBit v 31 true) = true → bit (s.reg pgSW 0x154 i) 31 = false →
    let ok := s.mirOk true (fld x 24 3) (s.reg64 pgSW 0x158 i).toNat (s.reg64 pgSW 0x160 i).toNat
    (bit x 30 = false ∨ ok = true → Completes (.readRegionValid w v) s fun t =>
      t.regs = (s.setReg pgSW 0x154 x i).regs ∧
      SMap.get (fun _ => 0) t.fab.rrTag i = (Config.free s.freeCtr).toNat % 2 ^ 24 ∧
      (∀ n, n ≠ i → SMap.get (fun _ => 0) t.fab.rrTag n = SMap.get (fun _ => 0) s.fab.rrTag n) ∧ OnlyIn [.fab, .regs] s t) ∧
    (bit x 30 = true → ok = false → Completes (.readRegionValid w v) s fun t =>
      Recorded w pgSW .rrRange 0x154 (withBit v 31 true) s t ∧ OnlyIn [.pages] s t)

/-- The responder and requester of the fabric (R234, R235, R236, R256), through FABRIC_FRAME; the syndromes' credits and timers are
the model's free values (log 19). -/
def Obligations.RoceFrames : Prop :=
  ∀ (m : Mac) (f : Frame) (q : Qp) (s : State), s.soundFrame m.val f q → f.ce = false → isOwnMac f.dmac = true →
    let d := (f.psn - q.epsn).toNat
    let ans (u : State) (P : Qp → Prop) : Prop := ∃ x, u.qp? f.qpn = some x ∧ P x
    let does (P : State → Prop) : Prop := Completes (.fabricFrame m f) s fun t => ∃ u, t = fabPump u ∧ P u
    (∀ i, f.op = .send → q.role = 3 → d = 0 → f.lastOrOnly = false → f.payload.length ≤ q.pmtu → q.reord = [] →
      (q.sendBuf ≠ [] ∨ s.scOfIn f.qpn = some i ∧ s.scRoom i = true) →
      does fun u => ans u fun x => x = { q with
        epsn := q.epsn + 1, nakSent := false, refused := false, sendBuf := q.sendBuf ++ f.payload
        owes := q.owes ++ [.ack f.psn ackSyn] }) ∧
    (∀ h lp a, f.op = .read → d = 0 → f.payload.length ≤ q.pmtu → q.reord = [] → f.reth = some h → q.keyRead = true →
      s.rrOf q.job.val h = some (lp, a) → 1 ≤ h.len → h.len ≤ 2 ^ 31 →
      (q.readsOpen + s.fab.voq.countP fun p => p.rdEnd && p.qpn = some q.qpn.toNat) < q.maxRd →
      (putQp q s).readsOpen < 2048 →
      (if lp then s.lpBad a h.len else s.hbmBad a h.len) = false →
      does fun u => ans u fun x => x = { q with
        epsn := q.epsn + BitVec.ofNat 24 (ceilDiv h.len q.pmtu), nakSent := false, refused := false, msn := q.msn + 1
        owes := q.owes ++ [.data f.psn lp a h.len 0] }) ∧
    (f.op = .send → q.role = 3 → d = 0 → q.sendBuf = [] → (∀ i, s.scOfIn f.qpn = some i → s.scRoom i = false) →
      does fun u => ans u fun x => x = { q with nakSent := true, refused := true, owes := q.owes ++ [.ack f.psn rnrSyn] }) ∧
    (f.op = .write → q.spray = false → 0 < d → d < 2 ^ 23 →
      (q.nakSent = false → does fun u => ans u fun x => x = { q with nakSent := true, refused := true, owes := q.owes ++ [.ack q.epsn 0x60] }) ∧
      (q.nakSent = true → does fun u => ans u fun x => x = q)) ∧
    (f.op = .write → 2 ^ 23 ≤ d → does fun u => ans u fun x => x = { q with owes := q.owes ++ [.ack (q.epsn - 1) ackSyn] }) ∧
    (f.op = .write → q.spray = true → 0 < d → d < 512 → (∀ y ∈ q.reord, y.psn ≠ f.psn) →
      does fun u => ans u fun x => x = { q with reord := q.reord ++ [f] }) ∧
    (f.op = .write → q.spray = true → 512 ≤ d → d < 2 ^ 23 → s.pageOff (macPg m.val) = false →
      does fun u => (ans u fun x => x = q) ∧
        u.cnt (macPg m.val) (macCnt m.val 0x840) =
          min (s.cnt (macPg m.val) (macCnt m.val 0x840) + 1) (cntMax (macPg m.val) (macCnt m.val 0x840))) ∧
    (f.op = .unsupported → does fun u => ans u fun x => x = { q with refused := true, owes := q.owes ++ [.ack f.psn 0x61] }) ∧
    (f.op = .ack → q.acks f.psn = true → (∀ y ∈ q.outq, y.for_ = .none) →
      does fun u => ans u fun x => x = q.ackTo f.psn)

/-- The order of the switch core (R241, R242, R244, R253) and the window of a requester (R232, Table 9.4). -/
def Obligations.SwitchOrder : Prop :=
  (∀ (o c : Nat) (p : VPkt) (s : State), s.voqHead o c = some p →
    p ∈ s.fab.voq ∧ p.output = o ∧ p.cls = c ∧
    (∀ x ∈ s.fab.voq.takeWhile (fun x => x ≠ p), ¬ (x.output = o ∧ x.cls = c ∧ x.input = p.input)) ∧
    (p.spray = false ∨ p.fence = true → ∀ x ∈ s.fab.voq.takeWhile (fun x => x ≠ p), ¬ (x.flow = p.flow ∧ x.cls = c))) ∧
  (∀ (o n k : Nat) (fresh : Bool) (d e : SMap Nat) (p : VPkt) (s : State), drrPick o n fresh k d s = some (p, e) → 1 ≤ k → k ≤ 4 →
    p.output = o ∧ 1 ≤ p.cls ∧ p.cls ≤ 4 ∧ s.held o p.cls = false ∧ s.voqHead o p.cls = some p) ∧
  ∀ (qpn : BitVec 24) (q : Qp) (s : State), s.qp? qpn = some q → (q.nxt - q.una).toNat ≤ 1024 →
    ∃ x, (qpPump qpn s).qp? qpn = some x ∧ x.una = q.una ∧ x.spsn = q.spsn ∧ (x.nxt - x.una).toNat ≤ 1024 ∧ x.owes = q.owes

/-! ## Line ports (10) -/

/-- PROT_MESSAGE, ROUTE_TIMEOUT, WTR_EXPIRY (R277), STBY_HOLD_EXPIRY (R278), FRAME_RECEIVE (R270), FRAME_TRANSMIT (R265),
DEFECT_SET (R273), DEFECT_CLEAR (R273, R274), PM_SECOND (R280), PM_BIN_CLOSE (R281). -/
def Obligations.LineCommands : Prop :=
  (∀ (p : Port) (m : ProtMsg) (s : State),
    (m.hops = 0 ∨ m.src = Config.seid → Completes (.protMessage p m) s fun t =>
      (s.pageOff (pgLINE p.val) = false → Counted (pgLINE p.val) 0x83C 1 s t) ∧ OnlyIn [.pages, .cnts] s t) ∧
    (m.hops ≠ 0 → m.src ≠ Config.seid → m.dst ≠ Config.seid → Completes (.protMessage p m) s fun t =>
      (t.port (1 - p.val)).protQ = (s.port (1 - p.val)).protQ ++ [({ m with hops := m.hops - 1 }, none)] ∧
      t.port p.val = s.port p.val ∧ OnlyIn [.line] s t) ∧
    (m.hops ≠ 0 → m.src ≠ Config.seid → m.dst = Config.seid → s.selOf m.src = none → Completes (.protMessage p m) s fun t =>
      (s.pageOff (pgLINE 0) = false → Counted (pgLINE 0) 0x854 1 s t) ∧ OnlyIn [.pages, .cnts] s t) ∧
    (∀ i, m.hops ≠ 0 → m.src ≠ Config.seid → m.dst = Config.seid → s.selOf m.src = some i →
      let u := selEval i (updSel i (fun x => if p = 0 then { x with tmo0 := false } else { x with tmo1 := false }) s)
      Completes (.protMessage p m) s fun t =>
        ((u.sel i).sel = p.val → (u.sel i).beyond m.mseq = true →
          (t.sel i).last = some m.mseq ∧ Out.protDeliver (Fin.ofNat 2 p.val) m ∈ t.out) ∧
        ((u.sel i).sel = p.val → (u.sel i).beyond m.mseq = false → t = u) ∧
        ((u.sel i).sel ≠ p.val → stbyBytes ((u.port p.val).stby ++ [(i, m)]) ≤ 256 * 2 ^ 20 →
          (t.port p.val).stby = (u.port p.val).stby ++ [(i, m)] ∧ t.out = u.out) ∧
        OnlyIn [.line, .host, .mgmt, .pages, .cnts] s t)) ∧
  (∀ (i : Fin 64) (r : Port) (s : State), bit (s.selCtl i.val) 31 = true →
    Completes (.routeTimeout i r) s fun t =>
      let u := updSel i.val (fun x => if r = 0 then { x with tmo0 := true } else { x with tmo1 := true }) s
      (t.sel i.val).sel = ((u.selRequest i.val).2).getD (s.sel i.val).sel ∧
      (t.sel i.val).wtr = decide ((u.selRequest i.val).1 = 5) ∧ (if r = 0 then (t.sel i.val).tmo0 else (t.sel i.val).tmo1) = true ∧
      (∀ n, n ≠ i.val → t.sel n = s.sel n) ∧ OnlyIn [.line, .host, .mgmt, .pages, .cnts] s t) ∧
  (∀ (i : Fin 64) (s : State),
    bit (s.selCtl i.val) 31 = true → (s.sel i.val).wtr = true → (s.selRequest i.val).1 = 5 →
    Completes (.wtrExpiry i) s fun t =>
      (t.sel i.val).sel = fld (s.selCtl i.val) 29 1 ∧ (t.sel i.val).wtr = false ∧ (∀ n, n ≠ i.val → t.sel n = s.sel n) ∧
      OnlyIn [.line, .host, .mgmt, .pages, .cnts] s t) ∧
  (∀ (i : Fin 64) (q : Word) (s : State), Completes (.stbyHoldExpiry i q) s fun t =>
    (∀ r : Port, (t.port r.val).stby = (s.port r.val).stby.filter fun h => !(h.1 = i.val && h.2.mseq = q)) ∧
    (∀ n, t.sel n = s.sel n) ∧ OnlyIn [.line] s t) ∧
  (∀ (p : Port) (b : List Byte) (at_ : BitVec 64) (fec : FecCounts) (s : State), s.lineEn p.val = true →
    let s1 := bump (pgLINE p.val) 0x828 fec.unc (bump (pgLINE p.val) 0x820 fec.corr s)
    (b.length ≠ 1280 + s.linePay p.val ∨ (s.port p.val).shown &&& 7 ≠ 0 →
      Completes (.frameReceive p b at_ fec) s fun t => t = s1 ∧ OnlyIn [.pages, .cnts] s t) ∧
    (b.length = 1280 + s.linePay p.val → (s.port p.val).shown &&& 7 = 0 → Completes (.frameReceive p b at_ fec) s fun t =>
      (s.portSf p.val = true → t = rxOverhead p.val b at_ s1) ∧
      (s.portSf p.val = false →
        t = forAll (List.range 16) (rxTrib p.val ((b.getD 8 0).toNat % 16) b) (rxOverhead p.val b at_ s1)) ∧
      (t.port p.val).rxBip = some (parity (b.drop 0x100)) ∧ (t.port p.val).rxTrace = (b.drop 0x10).take 16 ∧
      (t.port p.val).bei = (match (s.port p.val).rxBip with | some q => popc (q ^^^ b.getD 9 0) | none => 0) ∧
      (t.port p.val).holdRx = (b.getD 0xC 0).getLsbD 7 ∧ OnlyIn [.line, .host, .time, .mgmt, .pages, .cnts] s t)) ∧
  (∀ (p : Port) (s : State), s.lineEn p.val = true → Completes (.frameTransmit p) s fun t =>
    let s1 := noteWaits p.val (noChan p.val (meterFill p.val (purgeSegs p.val (forAll (s.outer.sc.map Prod.fst) scSeal s))))
    let mcc := runWords p.val 16 128 ((SMap.find (s1.port p.val).cur 16).getD []) s1
    (∃ rest, t.out.getLast? = some (.lineFrame (Fin.ofNat 2 p.val) (mcc.2.ohHead p.val mcc.1.1 ++ rest))) ∧
    (t.port p.val).fnum = ((s.port p.val).fnum + 1) % 16 ∧
    OnlyIn [.ring, .outer, .line, .ciph, .host, .pool, .mem, .time, .mgmt, .pages, .cnts] s t) ∧
  (∀ (p : Port) (k : Defect) (s : State), s.lineEn p.val = true → (s.port p.val).defects.getLsbD (Defect.ix k) = false →
    (s.port p.val).told.getLsbD (Defect.ix k) = false →
    let d := (s.port p.val).defects ||| BitVec.ofNat 8 (2 ^ Defect.ix k)
    let c := 0x800 + 4 * defBit (Defect.ix k)
    Completes (.defectSet p k) s fun t =>
      (t.port p.val).defects = d ∧ (t.port p.val).shown = unmasked d ∧
      (t.portSf p.val = true → (t.port p.val).inStep = [] ∧ (t.port p.val).asm = SMap.keep (fun k _ => k = 16) (s.port p.val).asm ∧
        (t.port p.val).secSf = true) ∧
      (s.pageOff (pgLINE p.val) = false → (unmasked d).getLsbD (Defect.ix k) = true →
        t.cnt (pgLINE p.val) c = min (s.cnt (pgLINE p.val) c + 1) (cntMax (pgLINE p.val) c) ∧
        bit (t.hdr (pgLINE p.val)).intStat (defBit (Defect.ix k)) = true) ∧
      ((unmasked d).getLsbD (Defect.ix k) = false → t.cnt (pgLINE p.val) c = s.cnt (pgLINE p.val) c) ∧
      OnlyIn [.line, .opt, .host, .mgmt, .pages, .cnts] s t) ∧
  (∀ (p : Port) (k : Defect) (s : State), (s.port p.val).defects.getLsbD (Defect.ix k) = true →
    let d := (s.port p.val).defects &&& ~~~ BitVec.ofNat 8 (2 ^ Defect.ix k)
    let s1 := setDefects p.val d s
    let s3 := selEvalAll (holdRelease p.val (holdEnd p.val (if Defect.ix k = 4 then timCleared p.val s1 else s1)))
    let s4 := if (s.port p.val).shown.getLsbD (Defect.ix k) then defectResend p.val s3 else s3
    Completes (.defectClear p k) s fun t =>
      (s3.port p.val).defects = d ∧ (s3.port p.val).shown = unmasked d ∧
      (∀ j : Fin 8, (unmasked d).getLsbD j = true → (s.port p.val).told.getLsbD j = false → s.pageOff (pgLINE p.val) = false →
        s1.cnt (pgLINE p.val) (0x800 + 4 * defBit j) =
          min (s.cnt (pgLINE p.val) (0x800 + 4 * defBit j) + 1) (cntMax (pgLINE p.val) (0x800 + 4 * defBit j))) ∧
      (s.portSf p.val = false ∨ s4.portSf p.val = true → t = s4) ∧
      (s.portSf p.val = true → s4.portSf p.val = false → t = sfCleared s4.portSf p.val s4) ∧
      OnlyIn [.sch, .vat, .eng, .gc, .sheet, .ring, .outer, .fab, .line, .opt, .ciph, .host, .pool, .mem, .mgmt, .pages, .cnts] s t) ∧
  (∀ (p : Port) (s : State), s.mgmt.sstate = 2 → s.lineEn p.val = false → (s.port p.val).oos = false →
    (s.port p.val).defects.getLsbD 0 = false → Completes (.defectClear p .los) s fun t =>
      t = lineEnable p.val true (s.setReg (pgLINE p.val) 0x100 (setBit (s.lineCtl p.val) 31 true)) ∧ t.lineEn p.val = true) ∧
  (∀ (p : Port) (g : Gauges) (s : State), s.lineEn p.val = true →
    let l := s.port p.val
    let sf := l.secSf || s.portSf p.val
    let es := sf || decide (l.secErr > 0)
    let ses := sf || decide (l.secErr ≥ 12000)
    let d : SecAdd := (b2n es, b2n ses, 0, if ses then 0 else (l.secErr : Int))
    let exc := s.lineLite p.val && (g.cd > 1600 || g.cd < -1600)
    Completes (.pmSecond p g) s fun t =>
      (l.unavail = false → ses = false ∨ l.sesRun + 1 < 10 →
        t.port p.val = { l with
          sesRun := if ses then l.sesRun + 1 else 0, secErr := 0, secSf := s.portSf p.val
          bin15 := (l.bin15.addSec d).sample g, bin24 := (l.bin24.addSec d).sample g
          ber := g.ber, osnr := g.osnr, dgd := g.dgd, cd := g.cd, rxp := g.rxp, liteOver := exc }) ∧
      (l.unavail = false → ses = true → 10 ≤ l.sesRun + 1 → (t.port p.val).unavail = true ∧ (t.port p.val).sesRun = 0) ∧
      (l.unavail = true → ses = false → 10 ≤ l.okRun.length + 1 → (t.port p.val).unavail = false) ∧
      (l.unavail = true → ses = true → (t.port p.val).unavail = true ∧ (t.port p.val).okRun = []) ∧
      t.port (1 - p.val) = s.port (1 - p.val) ∧ OnlyIn [.line, .host, .mgmt, .pages, .cnts] s t) ∧
  ∀ (p : Port) (day : Bool) (s : State), Completes (.pmBinClose p day) s fun t =>
    let l := s.port p.val
    let fresh : PmBin := { start := s.nowSec, valid := true }
    t.port p.val = (if day then { l with bin24 := fresh, past24 := [l.bin24.closed 86400] }
      else { l with bin15 := fresh, past15 := (l.bin15.closed 900 :: l.past15).take 32 }) ∧
    t.port (1 - p.val) = s.port (1 - p.val) ∧ OnlyIn [.line] s t

/-- LINE_CTL_WRITE (R262), SEL_LOCKOUT, SEL_FORCE, SEL_MANUAL and SEL_CLEAR (R277), CH_CTL_WRITE (R271, R282), TRIB_WRITE (R275,
R282), FWD_FELT_WRITE (R276). -/
def Obligations.LineRegisters : Prop :=
  (∀ (w : Who) (p : Port) (v : Word) (s : State),
    let x := s.taken w (pgLINE p.val) 0x100 v
    let old := s.lineCtl p.val
    s.allows w (pgLINE p.val) 0x100 v = true → fld x 26 2 ≤ 1 → fld x 24 2 ≠ 3 →
    (bit old 31 = true → fld old 24 4 ≠ fld x 24 4 → Completes (.lineCtlWrite w p v) s fun t =>
      Recorded w (pgLINE p.val) .portBusy 0x100 v s t ∧ OnlyIn [.pages] s t) ∧
    (bit old 31 = false → bit x 31 = true → (s.port p.val).oos = true → Completes (.lineCtlWrite w p v) s fun t =>
      Recorded w (pgLINE p.val) .portOos 0x100 v s t ∧ OnlyIn [.pages] s t) ∧
    ((bit old 31 = true → fld old 24 4 = fld x 24 4) → (bit old 31 = false → bit x 31 = true → (s.port p.val).oos = false) →
      (∀ n, n < 15 → s.cirOver p.val (n + 1) (fld x 24 2) 0 = false) →
      (bit x 31 = bit old 31 → Completes (.lineCtlWrite w p v) s fun t => Stored w (pgLINE p.val) 0x100 v [] s t) ∧
      (bit x 31 ≠ bit old 31 → Completes (.lineCtlWrite w p v) s fun t =>
        t.regs = (s.setReg (pgLINE p.val) 0x100 x).regs ∧ (t.port p.val).defects = 0 ∧ (t.port p.val).shown = 0 ∧ (t.port p.val).told = 0 ∧
        (t.port p.val).asm = [] ∧ (t.port p.val).cur = [] ∧ OnlyIn [.line, .opt, .host, .mgmt, .pages, .regs, .cnts] s t))) ∧
  (∀ (w : Who) (v : Word) (c : Instr) (x : Word) (s : State),
    (c = .selLockout w v ∧ x = withSel v 1 ∨ c = .selForce w v ∧ x = withSel v 3 ∨ c = .selManual w v ∧ x = withSel v 5 ∨
      c = .selClear w v ∧ x = setFld v 24 3 0) →
    let i := s.ixOf w (pgLINE 0) 0x1C4
    let y := s.taken w (pgLINE 0) 0x1C4 x
    s.allows w (pgLINE 0) 0x1C4 x = true →
    bit (s.selCtl i) 31 = true → bit y 31 = true → fld (s.selCtl i) 0 16 = fld y 0 16 →
    Completes c s fun t =>
      let u := s.setReg (pgLINE 0) 0x1C4 y i
      t.regs = u.regs ∧ fld y 24 3 = fld x 24 3 ∧ (t.sel i).sel = ((u.selRequest i).2).getD (s.sel i).sel ∧
      (t.sel i).wtr = decide ((u.selRequest i).1 = 5) ∧
      (fld x 24 3 = 1 → (t.sel i).sel = 1) ∧ (fld x 24 3 = 2 → (t.sel i).sel = 0) ∧
      (∀ n, n ≠ i → t.sel n = s.sel n) ∧ OnlyIn [.line, .host, .mgmt, .pages, .regs, .cnts] s t) ∧
  (∀ (w : Who) (p : Port) (v : Word) (s : State),
    let i := s.ixOf w (pgLINE p.val) 0x194
    let x := s.taken w (pgLINE p.val) 0x194 v
    s.allows w (pgLINE p.val) 0x194 v = true →
    (bit (s.chCtl p.val i) 31 = false → bit x 31 = true → chTrib x ≠ 0 →
      s.cirOver p.val (chTrib x) (fld (s.lineCtl p.val) 24 2) (s.regF (pgLINE p.val) 0x198 0 20 i) = false →
      Completes (.chCtlWrite w p v) s fun t =>
        t.regs = (s.setReg (pgLINE p.val) 0x194 x i).regs ∧ SMap.find (t.port p.val).com i = none ∧
        SMap.find (t.port p.val).peak i = none ∧ t.port (1 - p.val) = s.port (1 - p.val) ∧ OnlyIn [.line, .regs] s t) ∧
    (bit (s.chCtl p.val i) 31 = true → bit x 31 = false → Completes (.chCtlWrite w p v) s fun t =>
      t.regs = (s.setReg (pgLINE p.val) 0x194 x i).regs ∧ OnlyIn [.line, .regs] s t) ∧
    (bit (s.chCtl p.val i) 31 = true → bit x 31 = true → x ≠ s.chCtl p.val i →
      Completes (.chCtlWrite w p v) s fun t => Recorded w (pgLINE p.val) .chBusy 0x194 v s t ∧ OnlyIn [.pages] s t)) ∧
  (∀ (w : Who) (p : Port) (n : Fin 16) (v : Word) (s : State),
    let o := 0x150 + 4 * n.val
    let x := s.taken w (pgLINE p.val) o v
    let busy := s.tribHasCh p.val n.val || (s.relayOn p.val n.val && s.lineEn p.val)
    s.allows w (pgLINE p.val) o v = true → n ≠ 0 →
    (x = s.tribReg p.val n.val ∨ busy = false → (bit x 31 = true → bit x 30 = true → s.tribSlots 0 n.val = s.tribSlots 1 n.val) →
      Completes (.tribWrite w p o v) s fun t => Stored w (pgLINE p.val) o v [] s t) ∧
    (x ≠ s.tribReg p.val n.val → busy = true → Completes (.tribWrite w p o v) s fun t =>
      Recorded w (pgLINE p.val) .chBusy o v s t ∧ OnlyIn [.pages] s t)) ∧
  (∀ (w : Who) (p : Port) (k : Fin 4) (v : Word) (s : State),
    let o := 0x140 + 4 * k.val
    let x := s.taken w (pgLINE p.val) o v
    s.allows w (pgLINE p.val) o v = true →
    (∀ n, n < 16 → n ≠ 0 → slotsAfter p.val k.val x n s ≠ s.tribSlots p.val n →
      s.tribHasCh p.val n = false ∧ s.relayOn p.val n = false ∧ s.relayOn (1 - p.val) n = false) →
    Completes (.tribWrite w p o v) s fun t => Stored w (pgLINE p.val) o v [] s t) ∧
  ∀ (w : Who) (p : Port) (v : Word) (s : State),
    let x := s.taken w (pgLINE p.val) 0x1B0 v
    let relay := (List.range 15).any fun n => s.relayOn p.val (n + 1)
    s.allows w (pgLINE p.val) 0x1B0 v = true →
    (x = s.reg (pgLINE p.val) 0x1B0 ∨ relay = false →
      Completes (.fwdFeltWrite w p v) s fun t => Stored w (pgLINE p.val) 0x1B0 v [] s t) ∧
    (x ≠ s.reg (pgLINE p.val) 0x1B0 → relay = true →
      Completes (.fwdFeltWrite w p v) s fun t => Recorded w (pgLINE p.val) .fwdBusy 0x1B0 v s t ∧ OnlyIn [.pages] s t)

/-! ## Optics (11) -/

/-- CONTROL_LOOP_UPDATE (R286; the trim is open, log 6), ENGINE_TEMP_CHANGE (R287), MONITOR_READING_DONE (R289), CAL_START
(R290), CAL_DONE (R291), LASER_FADE_WINDOW (R293, R295), CROSSFADE_DONE (R294), LMOD_REMOVE, LMOD_INSERT and LMOD_SELF_TEST_DONE
(R296), LANE_ID_CHECK (R301). -/
def Obligations.OpticsCommands : Prop :=
  (∀ (l : OptLoop) (i : Nat) (r : Int) (s : State),
    (s.loopLit l i = false → Completes (.controlLoopUpdate l i r) s fun t => t = s) ∧
    (s.loopLit l i = true → s.isFresh l i = true → Completes (.controlLoopUpdate l i r) s fun t =>
      t.isFresh l i = false ∧
      (l = .ringLock → (t.mring (i / 9) (i % 9)).heat = s.heatAt i (s.oeng (i / 9)).temp ∧
        SMap.find t.opt.acts (actKey l i) = some (BitVec.ofNat 64 (s.heatAt i (s.oeng (i / 9)).temp))) ∧
      (l = .lineFreq →
        let v := s.gridAt i (sext 16 (s.regF (pgLINE (i / 2)) 0x104 0 16))
        SMap.find t.opt.acts (actKey .lineFreq i) = some (BitVec.ofNat 64 v.1.toNat) ∧
        SMap.find t.opt.acts (actKey .linePower i) = some (BitVec.ofNat 64 v.2.toNat)) ∧ OnlyIn [.opt] s t) ∧
    (s.loopLit l i = true → s.isFresh l i = false → (l = .lineFreq → s.opt.refOk = true) → Completes (.controlLoopUpdate l i r) s fun t =>
      let back := l = .lineFreq ∧ (s.lunit (i / 2)).relock = true ∧ s.actLaser (i / 2) = i % 2 ∧ -15 ≤ r ∧ r ≤ 15
      SMap.find t.opt.acts (actKey l i) = some s.draw.1 ∧ t.opt.fresh = s.opt.fresh ∧
      (l = .ringLock → (t.mring (i / 9) (i % 9)).heat = s.draw.1.toNat % 2 ^ 16) ∧
      (l = .lineFreq → ((t.lunit (i / 2)).lasers.getD (i % 2) {}).ferr = r) ∧
      (l = .linePower → ((t.lunit (i / 2)).lasers.getD (i % 2) {}).pwr = r) ∧
      (back → ((t.lunit (i / 2)).lasers.getD (i % 2) {}).st = 3 ∧ (t.lunit (i / 2)).relit = true ∧ (t.lunit (i / 2)).relock = false ∧
        (s.pageOff pgOPT = false → Counted pgOPT 0x83C 1 s t)) ∧
      (¬ back → OnlyIn [.opt] s t) ∧ OnlyIn [.opt, .pages, .cnts] s t) ∧
    (s.loopLit l i = true → s.isFresh l i = false → l = .lineFreq → s.opt.refOk = false →
      Completes (.controlLoopUpdate l i r) s fun t => t = s)) ∧
  (∀ (e : Fin 6) (x : Int) (s : State), Completes (.engineTempChange e x) s fun t =>
    let out := decide (x < 2000) || decide (9500 < x)
    (t.oeng e.val).temp = x ∧ (t.oeng e.val).outside = out ∧
    (∀ i, i < 9 → s.loopLit .ringLock (9 * e.val + i) = true →
      t.mring e.val i = { s.mring e.val i with heat := s.heatAt (9 * e.val + i) x }) ∧
    (∀ i, i < 9 → s.loopLit .ringLock (9 * e.val + i) = false → t.mring e.val i = s.mring e.val i) ∧
    (s.pageOff pgOPT = false → out = true → (s.oeng e.val).outside = false → Raised pgOPT 0x824 7 s t) ∧
    ((out = true → (s.oeng e.val).outside = true) → ∀ o, t.cnt pgOPT o = s.cnt pgOPT o) ∧
    OnlyIn [.opt, .host, .mgmt, .pages, .cnts] s t) ∧
  (∀ (v : BitVec 24) (s : State), Completes (.monitorReadingDone v) s fun t =>
    t.opt.monValid = true ∧ t.opt.monValue = v ∧ OnlyIn [.opt] s t) ∧
  (∀ (e : Fin 6) (c : CalTrigger) (s : State), c = .temp e ∨ c = .period e →
    let due := if c = .temp e then s.calMoved e.val else decide (s.regF pgOPT 0x100 0 16 ≠ 0)
    (due = false → Completes (.calStart c) s fun t => t = s) ∧
    (∀ k, due = true → s.engLit e.val = true → (s.oeng e.val).cal = none → (s.oeng e.val).cover = none → s.fading e.val = false →
      k < 8 → (s.mring e.val k).st = 0 → (∀ i, i < k → (s.mring e.val i).st ≠ 0) → Completes (.calStart c) s fun t =>
        (t.oeng e.val).cal = some k ∧ (t.mring e.val k).st = 2 ∧ (t.mring e.val 8).st = 2 ∧ (t.mring e.val 8).line = k ∧
        OnlyIn [.opt] s t)) ∧
  (∀ (e : Fin 6) (h : BitVec 16) (k : Nat) (s : State), (s.oeng e.val).cal = some k → k < 8 →
    (∀ i, k < i → i < 8 → (s.mring e.val i).st ≠ 0) → Completes (.calDone e h) s fun t =>
      t.mring e.val k = { s.mring e.val k with st := 0, heat := h.toNat } ∧
      t.tbl 0 (9 * e.val + k) (tempEntry (s.oeng e.val).temp) = wd (0xC0000000 + h.toNat) ∧
      (t.mring e.val 8).st = 5 ∧ (t.oeng e.val).cal = none ∧ (t.oeng e.val).calTemp = (s.oeng e.val).temp ∧
      (s.pageOff pgOPT = false → Counted pgOPT 0x814 1 s t) ∧ OnlyIn [.opt, .pages, .cnts] s t) ∧
  (∀ (e : Fin 6) (h : BitVec 16) (k k' : Nat) (s : State), (s.oeng e.val).cal = some k →
    k < k' → k' < 8 → (s.mring e.val k').st = 0 → (∀ i, k < i → i < k' → (s.mring e.val i).st ≠ 0) →
    Completes (.calDone e h) s fun t =>
      t.mring e.val k = { s.mring e.val k with st := 0, heat := h.toNat } ∧ (t.oeng e.val).cal = some k' ∧
      (t.mring e.val k').st = 2 ∧ (t.mring e.val 8).st = 2 ∧ (t.mring e.val 8).line = k' ∧
      OnlyIn [.opt, .pages, .cnts] s t) ∧
  (∀ (b : Fin 4) (x : Int) (s : State), (s.bay b.val).st = 1 → Completes (.laserFadeWindow b x) s fun t =>
    let wr := if x < -150 then (s.bay b.val).warnRun + 1 else 0
    let ar := if x < -300 then (s.bay b.val).actRun + 1 else 0
    (t.bay b.val).pwr = x ∧ (t.bay b.val).warnRun = min 4 wr ∧ (t.bay b.val).actRun = min 4 ar ∧
    (s.pageOff pgOPT = false → t.cnt pgOPT 0x800 = (if wr = 3 then min (s.cnt pgOPT 0x800 + 1) (cntMax pgOPT 0x800) else s.cnt pgOPT 0x800) ∧
      t.cnt pgOPT 0x804 = (if ar = 3 then min (s.cnt pgOPT 0x804 + 1) (cntMax pgOPT 0x804) else s.cnt pgOPT 0x804) ∧
      (wr = 3 → bit (t.hdr pgOPT).intStat 0 = true) ∧ (ar = 3 → bit (t.hdr pgOPT).intStat 1 = true)) ∧
    (ar = 3 → b.val < 3 → (s.bay 3).st = 2 → s.opt.xf = none →
      t.opt.xf = some (b.val, false) ∧ t.opt.pair = b.val ∧ (t.bay b.val).st = 3 ∧ (t.bay 3).st = 3 ∧
      (t.oeng (2 * b.val)).cal = none ∧ (t.oeng (2 * b.val + 1)).cal = none) ∧
    (ar = 3 → ¬ (b.val < 3 ∧ (s.bay 3).st = 2 ∧ s.opt.xf = none) → t.opt.xf = s.opt.xf ∧ (t.bay b.val).st = 1 ∧
      (s.pageOff pgOPT = false → t.cnt pgOPT 0x80C = min (s.cnt pgOPT 0x80C + 1) (cntMax pgOPT 0x80C))) ∧
    (ar ≠ 3 → t.opt.xf = s.opt.xf ∧ (t.bay b.val).st = 1 ∧ t.cnt pgOPT 0x80C = s.cnt pgOPT 0x80C) ∧
    OnlyIn [.opt, .host, .mgmt, .pages, .cnts] s t) ∧
  (∀ (b : Nat) (rev : Bool) (s : State), s.opt.xf = some (b, rev) → b < 3 → Completes .crossfadeDone s fun t =>
    t.opt.xf = none ∧ (t.bay b).st = (if rev then 1 else 4) ∧ (t.bay 3).st = (if rev then 2 else 1) ∧
    (t.bay b).warnRun = 0 ∧ (t.bay 3).warnRun = 0 ∧
    (∀ n, n < 3 → n ≠ b → t.bay n = s.bay n) ∧ (s.pageOff pgOPT = false → Raised pgOPT 0x808 2 s t) ∧
    OnlyIn [.opt, .host, .mgmt, .pages, .cnts] s t) ∧
  (∀ (b : Fin 4) (s : State), (s.bay b.val).fitted = true → Completes (.lmodRemove b) s fun t =>
    t.bay b.val = { fitted := false } ∧
    (∀ k rev, s.opt.xf = some (k, rev) → k < 3 → b.val = k ∨ b.val = 3 →
      t.opt.xf = none ∧ (t.bay (if b.val = 3 then k else 3)).st = 1) ∧
    ((∀ k rev, s.opt.xf = some (k, rev) → b.val ≠ k ∧ b.val ≠ 3) →
      t.opt.xf = s.opt.xf ∧ ∀ n, n < 4 → n ≠ b.val → t.bay n = s.bay n) ∧
    ((s.bay b.val).st = 1 →
      (s.pageOff pgOPT = false → t.cnt pgOPT 0x810 = min (s.cnt pgOPT 0x810 + 1) (cntMax pgOPT 0x810) ∧
        bit (t.hdr pgOPT).intStat 4 = true) ∧
      ∀ e, e < 6 → e / 2 = (if b.val = 3 then s.opt.pair else b.val) → t.engLit e = false →
        (t.oeng e).cal = none ∧ ∀ i, i < 8 → (s.mring e i).on = true → (t.mring e i).st = 3) ∧
    ((s.bay b.val).st ≠ 1 → t.opt.rings = s.opt.rings ∧ t.opt.engs = s.opt.engs ∧ t.cnts = s.cnts) ∧
    OnlyIn [.opt, .host, .mgmt, .pages, .cnts] s t) ∧
  (∀ (b : Fin 4) (s : State), (s.bay b.val).fitted = false → Completes (.lmodInsert b) s fun t =>
    t.bay b.val = { st := 6 } ∧ (∀ n, n < 4 → n ≠ b.val → t.bay n = s.bay n) ∧ OnlyIn [.opt] s t) ∧
  (∀ (b : Fin 4) (ls : List Int) (s : State), (s.bay b.val).st = 6 → Completes (.lmodSelfTestDone b ls) s fun t =>
    let ok := ls.length = 9 ∧ ∀ x, x ∈ ls → -50 ≤ x ∧ x ≤ 50
    let rev := b.val < 3 ∧ (s.bay 3).st = 1 ∧ s.opt.pair = b.val ∧ s.opt.xf = none ∧ bit (s.reg pgOPT 0x100) 24 = true
    (¬ ok → t.bay b.val = { s.bay b.val with st := 5 }) ∧
    (ok → ¬ rev → t.bay b.val = { s.bay b.val with st := 2 } ∧ t.opt.xf = s.opt.xf) ∧
    (ok → rev → t.opt.xf = some (b.val, true) ∧ (t.bay b.val).st = 3 ∧ (t.bay 3).st = 3) ∧
    OnlyIn [.opt, .pages, .cnts] s t) ∧
  ∀ (e : Fin 6) (m : BitVec 8) (k : Nat) (s : State), k < 8 → s.engLit e.val = true →
    (∀ i, i < 8 → i ≠ k → m.getLsbD i = false ∧ (s.mring e.val i).st = 0) →
    Completes (.laneIdCheck e m) s fun t =>
      ((s.mring e.val k).st = 0 → m.getLsbD k = false → t.mring e.val k = s.mring e.val k ∧
        SMap.get (fun _ => 0) (t.oeng e.val).mis k = 0) ∧
      ((s.mring e.val k).st = 0 → m.getLsbD k = true → SMap.get (fun _ => 0) (s.oeng e.val).mis k = 0 →
        t.mring e.val k = s.mring e.val k ∧ SMap.get (fun _ => 0) (t.oeng e.val).mis k = 1) ∧
      ((s.mring e.val k).st = 0 → m.getLsbD k = true → SMap.get (fun _ => 0) (s.oeng e.val).mis k = 1 →
        (s.oeng e.val).cal = none → (s.oeng e.val).cover = none →
        (t.mring e.val k).st = 3 ∧ (t.oeng e.val).cover = some k ∧ (t.mring e.val 8).st = 0 ∧ (t.mring e.val 8).line = k ∧
        (s.pageOff pgOPT = false → t.cnt pgOPT 0x81C = min (s.cnt pgOPT 0x81C + 1) (cntMax pgOPT 0x81C))) ∧
      ((s.mring e.val k).st = 3 → m.getLsbD k = false → (s.oeng e.val).cover = some k →
        (t.mring e.val k).st = 0 ∧ (t.oeng e.val).cover = none ∧ (t.mring e.val 8).st = 5) ∧
      ((s.mring e.val k).st = 3 → m.getLsbD k = true → (s.oeng e.val).cover = some k → (s.oeng e.val).cal = none →
        let l := ((SMap.find (s.oeng e.val).fails k).getD []).filter fun x => decide ((s.time.nt - x).toNat < 1000000000)
        (l.length < 2 → (t.mring e.val k).st = 3 ∧ SMap.find (t.oeng e.val).fails k = some (l ++ [s.time.nt])) ∧
        (2 ≤ l.length → (t.mring e.val k).st = 1 ∧ (t.oeng e.val).cover = some k ∧ SMap.find (t.oeng e.val).fails k = none ∧
          (s.pageOff pgOPT = false → t.cnt pgOPT 0x820 = min (s.cnt pgOPT 0x820 + 1) (cntMax pgOPT 0x820)))) ∧
      OnlyIn [.opt, .host, .mgmt, .pages, .cnts] s t

/-- STANDBY_TUNED and STANDBY_RECHECK (R297), LINE_LASER_FADE_WINDOW (R293, R298), LINE_SWITCH_START (R299), STANDBY_FINE_LOCK
(R299, R300), EMERGENCY_SWITCH and LINE_LASER_UNIT_REPLACE (R300), OPT_TIM_EXTERNAL (R302), OPT_REF_FAIL (R303). -/
def Obligations.LineLaserCommands : Prop :=
  (∀ (p : Port) (lk : Bool) (s : State), s.stbySt p.val = 1 → (s.lunit p.val).act.isSome = true →
    Completes (.standbyTuned p lk) s fun t =>
      t.stbySt p.val = (if lk then 2 else 4) ∧ (t.lunit p.val).act = (s.lunit p.val).act ∧
      t.lunit (1 - p.val) = s.lunit (1 - p.val) ∧
      (s.pageOff pgOPT = false → lk = false → Raised pgOPT 0x834 11 s t) ∧ OnlyIn [.opt, .host, .mgmt, .pages, .cnts] s t) ∧
  (∀ (p : Port) (ok : Bool) (s : State), s.stbySt p.val = 2 → (s.lunit p.val).act.isSome = true →
    Completes (.standbyRecheck p ok) s fun t =>
      (ok = true → t = s) ∧ (ok = false → t.stbySt p.val = 4 ∧ (s.pageOff pgOPT = false → Raised pgOPT 0x834 11 s t)) ∧
      OnlyIn [.opt, .host, .mgmt, .pages, .cnts] s t) ∧
  (∀ (p : Port) (x f : Int) (a : Nat) (s : State), (s.lunit p.val).act = some a → a < 2 →
    ((s.lunit p.val).lasers.getD a {}).st = 3 → Completes (.lineLaserFadeWindow p x f) s fun t =>
      let u := s.lunit p.val
      let wr := if x < -150 then u.warnRun + 1 else 0
      let ar := if x < -300 then u.actRun + 1 else 0
      let go := (ar = 3 ∨ f > 25 ∨ f < -25) ∧ bit (s.reg pgOPT 0x100) 25 = true ∧ u.pend = false ∧ u.switching = false
      (t.lunit p.val).lasers.getD a {} = { u.lasers.getD a {} with pwr := x, ferr := f } ∧
      (t.lunit p.val).warnRun = min 4 wr ∧ (t.lunit p.val).actRun = min 4 ar ∧ (t.lunit p.val).act = some a ∧
      (s.pageOff pgOPT = false → wr = 3 → t.cnt pgOPT 0x828 = min (s.cnt pgOPT 0x828 + 1) (cntMax pgOPT 0x828)) ∧
      (wr ≠ 3 → t.cnt pgOPT 0x828 = s.cnt pgOPT 0x828) ∧
      (t.lunit p.val).pend = (u.pend || (decide go && s.opt.refOk && s.stbySt p.val == 2)) ∧
      OnlyIn [.opt, .host, .mgmt, .pages, .cnts] s t) ∧
  (∀ (p : Port) (s : State), (s.lunit p.val).pend = true → (s.lunit p.val).switching = false →
    (s.otherDark p.val = true → Completes (.lineSwitchStart p) s fun t =>
      t.lunit p.val = { s.lunit p.val with deferred := true } ∧ t.lunit (1 - p.val) = s.lunit (1 - p.val) ∧
      (s.pageOff pgOPT = false → (s.lunit p.val).deferred = false → Counted pgOPT 0x838 1 s t) ∧ OnlyIn [.opt, .pages, .cnts] s t) ∧
    (s.otherDark p.val = false → s.opt.refOk = true → s.stbySt p.val = 2 → Completes (.lineSwitchStart p) s fun t =>
      (t.lunit p.val).pend = false ∧ (t.lunit p.val).switching = true ∧ (t.port p.val).holdTx = true ∧ (t.port p.val).holdMs = 5 ∧
      OnlyIn [.line, .opt, .host, .mgmt, .pages, .cnts] s t) ∧
    (s.otherDark p.val = false → s.opt.refOk = false ∨ s.stbySt p.val ≠ 2 → Completes (.lineSwitchStart p) s fun t =>
      (t.lunit p.val).pend = false ∧ (t.lunit p.val).switching = false ∧ t.line = s.line ∧
      ((s.lunit p.val).byCmd = true → t.opt.status = (if s.opt.refOk then 2 else 5)) ∧
      (s.pageOff pgOPT = false → s.opt.refOk = true → Raised pgOPT 0x834 11 s t) ∧
      OnlyIn [.opt, .host, .mgmt, .pages, .cnts] s t)) ∧
  (∀ (p : Port) (a : Nat) (s : State), (s.lunit p.val).switching = true → (s.lunit p.val).act = some a → a < 2 →
    Completes (.standbyFineLock p) s fun t =>
      (t.lunit p.val).act = some (1 - a) ∧ (t.lunit p.val).switching = false ∧
      ((t.lunit p.val).lasers.getD (1 - a) {}).st = 3 ∧ ((t.lunit p.val).lasers.getD a {}).st = 4 ∧
      ((s.port p.val).shown = 0 → (s.port p.val).holdTx = true → (t.port p.val).holdTx = false ∧ (t.port p.val).inHold = false) ∧
      (s.pageOff pgOPT = false → t.cnt pgOPT 0x82C = min (s.cnt pgOPT 0x82C + 1) (cntMax pgOPT 0x82C)) ∧
      OnlyIn [.line, .opt, .host, .mgmt, .pages, .cnts] s t) ∧
  (∀ (p : Port) (a : Nat) (s : State), (s.lunit p.val).act = some a → a < 2 → ((s.lunit p.val).lasers.getD a {}).st = 3 →
    Completes (.emergencySwitch p) s fun t =>
      ((t.lunit p.val).lasers.getD a {}).st = 4 ∧
      (s.pageOff pgOPT = false → t.cnt pgOPT 0x830 = min (s.cnt pgOPT 0x830 + 1) (cntMax pgOPT 0x830)) ∧
      (s.stbySt p.val = 2 → (t.lunit p.val).switching = true ∧ (t.lunit p.val).pend = false ∧ (t.port p.val).inHold = true ∧
        (t.port p.val).holdTx = (s.port p.val).holdTx) ∧
      (s.stbySt p.val ≠ 2 → (t.lunit p.val).switching = (s.lunit p.val).switching ∧ t.line = s.line ∧
        (s.pageOff pgOPT = false → t.cnt pgOPT 0x834 = min (s.cnt pgOPT 0x834 + 1) (cntMax pgOPT 0x834))) ∧
      OnlyIn [.line, .opt, .host, .mgmt, .pages, .cnts] s t) ∧
  (∀ (p : Port) (s : State), s.lineEn p.val = false → Completes (.lineLaserUnitReplace p) s fun t =>
    t.lunit p.val = { lasers := #v[{ st := 0 }, { st := 1 }], act := some 0 } ∧ t.lunit (1 - p.val) = s.lunit (1 - p.val) ∧
    OnlyIn [.opt] s t) ∧
  (∀ (p : Port) (s : State), (s.lunit p.val).relit = true → (s.port p.val).defects.getLsbD 4 = true →
    Completes (.optTimExternal p) s fun t =>
      (t.lunit p.val).timExt = true ∧ (t.lunit p.val).relit = false ∧
      (s.pageOff pgOPT = false → Raised pgOPT 0x840 12 s t) ∧ OnlyIn [.opt, .host, .mgmt, .pages, .cnts] s t) ∧
  (∀ (p : Port) (a : Nat) (s : State), s.lineEn p.val = true → (s.port p.val).defects.getLsbD 4 = false →
    (s.port p.val).told = (s.port p.val).defects → (unmasked ((s.port p.val).defects ||| 0x10)).getLsbD 4 = true →
    s.opt.refOk = true → (s.lunit p.val).timExt = false → (s.lunit p.val).act = some a → a < 2 →
    ((s.lunit p.val).lasers.getD a {}).st = 3 → Completes (.defectSet p .tim) s fun t =>
      ((t.lunit p.val).lasers.getD a {}).st = 1 ∧ (t.lunit p.val).relock = true ∧ (t.lunit p.val).relit = false ∧
      t.isFresh .lineFreq (2 * p.val + a) = true ∧ OnlyIn [.line, .opt, .host, .mgmt, .pages, .cnts] s t) ∧
  ∀ (s : State), s.opt.refOk = true → Completes .optRefFail s fun t =>
    t.opt.refOk = false ∧ t.opt.rings = s.opt.rings ∧ t.opt.engs = s.opt.engs ∧ t.opt.bays = s.opt.bays ∧
    (∀ i v, i < 4 → SMap.find s.opt.setPts (actKey .lineFreq i) = some v → SMap.find t.opt.acts (actKey .lineFreq i) = some v) ∧
    (∀ p : Port, (s.lunit p.val).relock = true → s.actLaser p.val < 2 →
      (t.lunit p.val).relock = false ∧ ((t.lunit p.val).lasers.getD (s.actLaser p.val) {}).st = 3) ∧
    (s.pageOff pgOPT = false → Raised pgOPT 0x844 13 s t) ∧ OnlyIn [.opt, .host, .mgmt, .pages, .cnts] s t

/-- TBL_DATA_WRITE (R287, R288), MON_READING (R289), CAL_LANE (R290), LINE_SWITCH (R298, R303), REVERT (R296), SAVE_TABLES (R287),
LANE_RETURN (R301). That a command ends in the step that takes it, and that CAL_LANE
runs every lane of the engine, are the model's (logs 28 and 157). -/
def Obligations.OpticsRegisters : Prop :=
  (∀ (w : Who) (v : Word) (tb r e : Nat) (s : State), s.allows w pgOPT 0x144 v = true →
    tblIx (s.idx w pgOPT 0x140) = some (tb, r, e) → Completes (.tblDataWrite w v) s fun t =>
      t.tbl tb r e = (if tb = 0 then v &&& 0x8000FFFF else v) ∧
      SMap.get (fun _ => false) t.opt.fresh (if tb = 0 then actKey .ringLock r else actKey .lineFreq r) = true ∧
      (∀ a b c, a < 2 → b < 256 → c < 256 → (a, b, c) ≠ (tb, r, e) → t.tbl a b c = s.tbl a b c) ∧ OnlyIn [.opt] s t) ∧
  (∀ (w : Who) (v : Word) (s : State), s.allows w pgOPT 0x148 v = true → Completes (.monReading w v) s fun t =>
    t.opt.monValid = false ∧ t.opt.monValue = 0 ∧ Stored w pgOPT 0x148 v [.opt] s t) ∧
  (∀ (w : Who) (v : Word) (s : State), s.allows w pgOPT 0x108 (withCmd v 4 1) = true →
    let e := fld v 8 3
    let k := fld v 12 4
    (e > 5 ∨ k > 7 → Completes (.calLane w v) s fun t => t.opt = { s.opt with status := 3 } ∧ OnlyIn [.opt] s t) ∧
    (e ≤ 5 → k ≤ 7 → (s.oeng e).cover.isSome = true → Completes (.calLane w v) s fun t =>
      t.opt = { s.opt with status := 2 } ∧ OnlyIn [.opt] s t) ∧
    (∀ n, e ≤ 5 → k ≤ 7 → s.engLit e = true → (s.oeng e).cover = none → (s.oeng e).cal = none → s.fading e = false → n < 8 →
      (s.mring e n).st = 0 → (∀ i, i < n → (s.mring e i).st ≠ 0) → Completes (.calLane w v) s fun t =>
        t.opt.status = 0 ∧ (t.oeng e).cal = some n ∧ (t.mring e n).st = 2 ∧ (t.mring e 8).st = 2 ∧ (t.mring e 8).line = n ∧
        OnlyIn [.opt] s t) ∧
    (e ≤ 5 → k ≤ 7 → (s.oeng e).cover = none →
      s.engLit e = false ∨ (s.oeng e).cal.isSome = true ∨ s.fading e = true ∨ (∀ i, i < 8 → (s.mring e i).st ≠ 0) →
      Completes (.calLane w v) s fun t => t.opt = { s.opt with status := 1 } ∧ OnlyIn [.opt] s t)) ∧
  (∀ (w : Who) (v : Word) (s : State), s.allows w pgOPT 0x108 (withCmd v 4 2) = true →
    let p := fld v 16 1
    (s.opt.refOk = false → Completes (.lineSwitch w v) s fun t => t.opt = { s.opt with status := 5 } ∧ OnlyIn [.opt] s t) ∧
    (s.opt.refOk = true → s.stbySt p ≠ 2 → Completes (.lineSwitch w v) s fun t =>
      t.opt = { s.opt with status := 2 } ∧ (s.pageOff pgOPT = false → Raised pgOPT 0x834 11 s t) ∧
      OnlyIn [.opt, .host, .mgmt, .pages, .cnts] s t) ∧
    (s.opt.refOk = true → s.stbySt p = 2 → Completes (.lineSwitch w v) s fun t =>
      t.lunit p = { s.lunit p with
        pend := true, byCmd := true, deferred := s.otherDark p || ((s.lunit p).pend && (s.lunit p).deferred) } ∧
      t.lunit (1 - p) = s.lunit (1 - p) ∧
      t.opt.status = (if s.otherDark p then 4 else 0) ∧
      (s.pageOff pgOPT = false → s.otherDark p = true → ((s.lunit p).pend && (s.lunit p).deferred) = false →
        Counted pgOPT 0x838 1 s t) ∧
      OnlyIn [.opt, .pages, .cnts] s t)) ∧
  (∀ (w : Who) (v : Word) (s : State), s.allows w pgOPT 0x108 (withCmd v 4 3) = true →
    let b := fld v 20 2
    (b = 3 → Completes (.revert w v) s fun t => t.opt = { s.opt with status := 3 } ∧ OnlyIn [.opt] s t) ∧
    (b ≠ 3 → s.opt.xf.isSome = true → Completes (.revert w v) s fun t => t.opt = { s.opt with status := 1 } ∧ OnlyIn [.opt] s t) ∧
    (b ≠ 3 → s.opt.xf = none → (s.bay 3).st = 1 → s.opt.pair = b → (s.bay b).st = 2 → Completes (.revert w v) s fun t =>
      t.opt.status = 0 ∧ t.opt.xf = some (b, true) ∧ (t.bay b).st = 3 ∧ (t.bay 3).st = 3 ∧ OnlyIn [.opt, .pages, .cnts] s t) ∧
    (b ≠ 3 → s.opt.xf = none → ¬ ((s.bay 3).st = 1 ∧ s.opt.pair = b ∧ (s.bay b).st = 2) → Completes (.revert w v) s fun t =>
      t.opt = { s.opt with status := 2 } ∧ OnlyIn [.opt] s t)) ∧
  (∀ (w : Who) (v : Word) (s : State), s.allows w pgOPT 0x108 (withCmd v 4 4) = true →
    (s.opt.xf = none → (∀ e, e < 6 → (s.oeng e).cal = none) → Completes (.saveTables w v) s fun t =>
      t.opt = { s.opt with status := 0, flash := s.opt.tbl } ∧ OnlyIn [.opt] s t) ∧
    (s.opt.xf.isSome = true → Completes (.saveTables w v) s fun t =>
      t.opt = { s.opt with status := 1 } ∧ OnlyIn [.opt] s t)) ∧
  ∀ (w : Who) (v : Word) (s : State), s.allows w pgOPT 0x108 (withCmd v 4 5) = true →
    let e := fld v 8 3
    let k := fld v 12 4
    (e > 5 ∨ k > 7 ∨ (s.mring e k).st ≠ 1 ∧ (s.mring e k).st ≠ 4 → Completes (.laneReturn w v) s fun t =>
      t.opt = { s.opt with status := 3 } ∧ OnlyIn [.opt] s t) ∧
    (e ≤ 5 → k ≤ 7 → (s.mring e k).st = 1 ∨ (s.mring e k).st = 4 → Completes (.laneReturn w v) s fun t =>
      t.opt.status = 0 ∧ (t.mring e k).st = 0 ∧
      ((s.oeng e).cover = some k → (∀ i, i < 8 → i ≠ k → (s.mring e i).st ≠ 4) → (t.oeng e).cover = none ∧ (t.mring e 8).st = 5) ∧
      (∀ n, (s.oeng e).cover = some k → n < 8 → n ≠ k → (s.mring e n).st = 4 → (∀ i, i < n → i ≠ k → (s.mring e i).st ≠ 4) →
        (t.oeng e).cover = some n ∧ (t.mring e n).st = 1 ∧ (t.mring e 8).line = n) ∧
      ((s.oeng e).cover ≠ some k → (t.oeng e).cover = (s.oeng e).cover ∧ t.mring e 8 = s.mring e 8) ∧ OnlyIn [.opt] s t)

/-! ## The cipher (12) -/

/-- SEGMENT_RECEIVE (R317, R318), CONTEXT_LOAD (R319), CIPH_PARITY and CIPH_SVC_WRITE (R320), CIPH_SESSION_STALE (R314) and
ATTEST_MESSAGE (R327). Whether a tag verifies is a cited standard's (log 9). -/
def Obligations.Cipher : Prop :=
  (∀ (p : Port) (k : Fin 17) (b : List Byte) (s : State), let pg := pgCIPH p.val
    let h := segHdrOf b
    let body := b.drop 32
    s.pageOff pg = false →
    (s.regF pg 0x100 8 4 = 0 → Completes (.segmentReceive p k b) s fun t =>
      Counted pg 0x81C 1 s t ∧ OnlyIn [.pages, .cnts] s t) ∧
    (s.regF pg 0x100 8 4 ≠ 0 → segWell k.val b = false → Completes (.segmentReceive p k b) s fun t =>
      Raised pg 0x804 1 s t ∧ OnlyIn [.host, .mgmt, .pages, .cnts] s t) ∧
    (s.regF pg 0x100 8 4 ≠ 0 → segWell k.val b = true → h.ty = 5 → Completes (.segmentReceive p k b) s fun t =>
      t.out = s.out ++ [.handshake (64 + p.val) (body.take h.plen)] ∧ Counted pg 0x840 1 s t ∧ OnlyIn [.pages, .cnts] s t) ∧
    (s.regF pg 0x100 8 4 ≠ 0 → segWell k.val b = true → h.ty ≠ 5 → s.rxCtx p.val k.val h = none →
      Completes (.segmentReceive p k b) s fun t => Raised pg 0x808 2 s t ∧ OnlyIn [.host, .mgmt, .pages, .cnts] s t) ∧
    ∀ c key s1, s.regF pg 0x100 8 4 ≠ 0 → segWell k.val b = true → h.ty ≠ 5 → s.rxCtx p.val k.val h = some (c, key, s1) →
      (h.ty ≠ 1 → (∃ n, c.lastOf h.sgen h.kepoch = some n ∧ h.scnt ≤ n) → Completes (.segmentReceive p k b) s fun t =>
        Raised pg 0x80C 3 s t ∧ OnlyIn [.host, .mgmt, .pages, .cnts] s t) ∧
      (h.ty = 1 ∨ (∀ n, c.lastOf h.sgen h.kepoch = some n → n < h.scnt) → Completes (.segmentReceive p k b) s fun t =>
        match Config.gcmOpen (key.take 32) (segIv key h.scnt) (b.take 32) (body.take h.plen) (body.drop (body.length - 16)) with
        | some pt =>
          if allZero ((body.drop h.plen).take (fill16 h.plen).length) = true then
            (h.ty ≠ 1 → (t.ctx c).lastOf h.sgen h.kepoch = some h.scnt ∧ Counted pg 0x840 1 s1 t) ∧
            (h.ty = 2 ∨ h.ty = 3 → OnlyIn [.ciph, .host, .mem, .mgmt, .pages, .cnts] s t) ∧
            (h.ty = 3 → t.out = s1.out ++ (protSplit pt.length pt).map fun m => .protRecv (Fin.ofNat 2 p.val) m) ∧
            (h.ty = 4 → Out.mgmtFrame (Fin.ofNat 2 p.val) pt ∈ t.out ∧
              (Config.mccAckOf pt = none → t.mgmt.mcc.getD p.val 0 = 0) ∧
              ∀ a, Config.mccAckOf pt = some a → (t.port p.val).mccQ = (s.port p.val).mccQ ++ [a]) ∧
            OnlyIn [.sch, .sheet, .ring, .outer, .line, .ciph, .host, .mem, .mgmt, .pages, .cnts] s t
          else Raised pg 0x800 0 s1 t ∧ OnlyIn [.host, .mgmt, .pages, .cnts] s t
        | none =>
          Raised pg 0x800 0 s1 t ∧ ((s1.hdr pg).errValid = false →
            (t.hdr pg).errInfo = wd (h.ty + h.chan * 2 ^ 4) ∧ (t.hdr pg).errAddr = BitVec.ofNat 64 h.scnt) ∧
          OnlyIn [.host, .mgmt, .pages, .cnts] s t)) ∧
  (∀ (p : Port) (lt : BitVec 2) (tag : Word) (ch : BitVec 8) (tx : Bool) (s : State),
    let d : Ctx := { port := p.val, tx := tx, ltype := lt.toNat, jobtag := tag, chan := ch.toNat }
    let c := s.ctx d
    let w := c.wrapped (s.kwk p.val)
    let good := decide (s.hbmRead c.spillAddr w.length = w) && !s.hbmBad c.spillAddr w.length
    (c.resident = true → Completes (.contextLoad p lt tag ch tx) s fun t => t = s) ∧
    (c.resident = false →
      (s.ciph.ctxs.length ≤ 512 ∨ (∀ x ∈ s.ciph.ctxs, x.used < s.ciph.useNo) ∧
        ∃ y ∈ s.ciph.ctxs, y.port = p.val ∧ y.resident = true ∧ y.ltype = 1 ∧ y.names c = false) →
      Completes (.contextLoad p lt tag ch tx) s fun t =>
        (t.ctx d).resident = true ∧ (t.ctx d).scnt = c.scnt ∧ (t.ctx d).last = c.last ∧
        (good = true → (t.ctx d).keys = c.keys ∧ t.cnts = s.cnts) ∧
        (good = false → s.pageOff (pgCIPH p.val) = false → Raised (pgCIPH p.val) 0x820 7 s t) ∧
        OnlyIn [.ciph, .host, .mem, .mgmt, .pages, .cnts] s t)) ∧
  (∀ (p : Port) (e : Fin 4) (work : EngineWork) (s : State), let pg := pgCIPH p.val
    let rx := decide (work = .opening)
    let i := e.val + if rx = true then 8 else 0
    bit (s.reg pg 0x100) i = true → s.pageOff pg = false → Completes (.ciphParity p e work) s fun t =>
      t.regs = (s.setReg pg 0x100 (setBit (s.reg pg 0x100) i false)).regs ∧
      t.cnt pg 0x810 = min (s.cnt pg 0x810 + 1) (cntMax pg 0x810) ∧ bit (t.hdr pg).intStat 4 = true ∧
      (rx = true → (∃ f : Fin 4, f ≠ e ∧ bit (s.reg pg 0x100) (f.val + 8) = true) → Raised pg 0x810 4 s t) ∧
      (rx = true → fld (s.reg pg 0x100) 8 4 = 2 ^ e.val → t.cnt pg 0x818 = min (s.cnt pg 0x818 + 1) (cntMax pg 0x818)) ∧
      (rx = false → fld (s.reg pg 0x100) 0 4 = 2 ^ e.val → s.txEngines (1 - p.val) = 0 →
        t.cnt pg 0x818 = min (s.cnt pg 0x818 + 1) (cntMax pg 0x818)) ∧
      (∀ (r : Port) (n : Fin 17) q b, rx = false → work = .sending r n → SMap.find (s.port r.val).curOf n.val = some (.record q) →
        SMap.find (s.port r.val).cur n.val = some b → b ≠ [] →
        (t.port r.val).recQ = q :: (s.port r.val).recQ ∧
        SMap.find (t.port r.val).cur n.val = some (b.take (b.length - 16) ++ (b.drop (b.length - 16)).map fun x => ~~~ x)) ∧
      OnlyIn [.ring, .outer, .line, .ciph, .host, .mem, .mgmt, .pages, .regs, .cnts] s t) ∧
  (∀ (w : Who) (p : Port) (v : Word) (kat : BitVec 12) (s : State), let pg := pgCIPH p.val
    s.allows w pg 0x100 v = true → Completes (.ciphSvcWrite w p v kat) s fun t =>
      let x := s.taken w pg 0x100 v
      t.regs = (s.setReg pg 0x100 (x &&& (s.reg pg 0x100 ||| kat.setWidth 32))).regs ∧
      OnlyIn [.sch, .sheet, .ring, .outer, .line, .ciph, .host, .pool, .mem, .mgmt, .pages, .regs, .cnts] s t) ∧
  (∀ (i : Fin 66) (s : State), (s.sess i.val).live = true → Completes (.ciphSessionStale i) s fun t =>
    t.sess i.val = { s.sess i.val with st := 4 } ∧ (∀ n, n ≠ i.val → t.sess n = s.sess n) ∧
    (s.pageOff (sessPage i.val) = false → Raised (sessPage i.val) 0x82C 9 s t) ∧
    OnlyIn [.ciph, .host, .mgmt, .pages, .cnts] s t) ∧
  ∀ (q : BitVec 16) (n : List Byte) (s : State),
    (s.boot.done.getLsbD 11 = true → Completes (.attestMessage q n) s fun t =>
      (∀ r, r < 2 → ∃ m : ProtMsg, (t.port r).protQ = (s.port r).protQ ++ [(m, none)] ∧ m.dst = q ∧ m.src = Config.seid ∧
        m.kind = 3 ∧ m.hops = 15 ∧ m.body = s.attestReport n) ∧
      OnlyIn [.line, .host, .pool, .mem, .mgmt, .pages, .cnts] s t) ∧
    (s.boot.done.getLsbD 11 = false → Completes (.attestMessage q n) s fun t => t = s)

/-- SESSION_RENEW and HANDSHAKE_RETRY (R314, R321, R324; log 33), KX1_INIT to KX4_DONE (R321 to R323), HANDSHAKE_RESEND (R324) and
PEER_CTL_WRITE (R325). -/
def Obligations.Sessions : Prop :=
  (∀ (i : Fin 66) (c : Instr) (s : State),
    (c = .sessionRenew i ∧ (s.sess i.val).st = 2 ∨
      c = .handshakeRetry i ∧ ((s.sess i.val).st ∈ [0, 4, 5] ∨ (s.sess i.val).st = 2 ∧ (s.sess i.val).reason ≠ 0)) →
    s.sessOn i.val = true → (s.sess i.val).await = 0 → Completes c s fun t =>
      if s.initiates i.val = true then Started i.val s t ∧ OnlyIn [.line, .ciph, .host, .pool, .mem, .mgmt, .pages, .cnts] s t else t = s) ∧
  (∀ (i : Fin 66) (m : List Byte) (s : State), let x := s.sess i.val
    s.sessOn i.val = true →
    (x.await = 3 → x.kx1 = m → Completes (.kx1Init i m) s fun t =>
      SentAgain i.val x.msg s t ∧ t.ciph = s.ciph ∧ OnlyIn [.line, .host, .pool, .mem, .mgmt, .pages, .cnts] s t) ∧
    (¬ (x.await = 3 ∧ x.kx1 = m) → Completes (.kx1Init i m) s fun t =>
      if x.await = 2 ∧ s.initiates i.val = true then t = s
      else if s.kxWell i.val 1 12334 m = false then Abandoned i.val 7 s t
      else if s.kxIdentCheck i.val 1648 m ≠ 0 then Abandoned i.val (s.kxIdentCheck i.val 1648 m) s t
      else
        (t.sess i.val).st = stHandshake x.st ∧ (t.sess i.val).init = false ∧ (t.sess i.val).await = 3 ∧
        (t.sess i.val).sends = 1 ∧ (t.sess i.val).newGen = kxGen m ∧ (t.sess i.val).sid = kxSid m ∧ (t.sess i.val).kx1 = m ∧
        (t.sess i.val).gens = x.gens ∧ (t.sess i.val).sgen = x.sgen ∧ SentAgain i.val (t.sess i.val).msg s t ∧
        (∀ n, n ≠ i.val → t.sess n = s.sess n) ∧ OnlyIn [.line, .ciph, .host, .pool, .mem, .mgmt, .pages, .cnts] s t)) ∧
  (∀ (i : Fin 66) (m : List Byte) (s : State), let x := s.sess i.val
    (x.await ≠ 2 → Completes (.kx2Resp i m) s fun t => t = s) ∧
    (x.await = 2 → Completes (.kx2Resp i m) s fun t =>
      if ¬ (s.kxWell i.val 2 15643 m = true ∧ kxSid m = x.sid ∧ kxGen m = x.newGen) then Abandoned i.val 7 s t
      else if s.kxIdentCheck i.val 1648 m ≠ 0 then Abandoned i.val (s.kxIdentCheck i.val 1648 m) s t
      else if Config.verify ((m.drop 1648).take 10650) (kxT2 x.kx1 m) (m.drop 12334) = false then Abandoned i.val 4 s t
      else
        (t.sess i.val).st = x.st ∧ (t.sess i.val).await = 4 ∧ (t.sess i.val).sends = 1 ∧ (t.sess i.val).kx2 = m ∧
        (t.sess i.val).gens = x.gens ∧ (t.sess i.val).sgen = x.sgen ∧ (t.sess i.val).msg = (t.sess i.val).kx3 ∧
        SentAgain i.val (t.sess i.val).kx3 s t ∧ (∀ n, n ≠ i.val → t.sess n = s.sess n) ∧ OnlyIn [.line, .ciph, .host, .pool, .mem, .mgmt, .pages, .cnts] s t)) ∧
  (∀ (i : Fin 66) (m : List Byte) (s : State), let x := s.sess i.val
    (x.await = 0 → x.kx3 = m → x.init = false → m ≠ [] → Completes (.kx3Fin i m) s fun t =>
      SentAgain i.val x.msg s t ∧ t.ciph = s.ciph ∧ OnlyIn [.line, .host, .pool, .mem, .mgmt, .pages, .cnts] s t) ∧
    (x.await = 3 → Completes (.kx3Fin i m) s fun t =>
      let t3 := kxT3 x.kx1 x.kx2 m
      if ¬ (s.kxWell i.val 3 3389 m = true ∧ kxSid m = x.sid) then Abandoned i.val 7 s t
      else if Config.verify ((x.kx1.drop 1648).take 10650) t3 ((m.drop 48).take 3309) = false then Abandoned i.val 4 s t
      else if m.drop 3357 ≠ kxMacI (kxRoot x.ss t3) t3 then Abandoned i.val 5 s t
      else InForce i.val (kxRoot x.ss t3) s t)) ∧
  (∀ (i : Fin 66) (m : List Byte) (s : State), let x := s.sess i.val
    (x.await ≠ 4 → Completes (.kx4Done i m) s fun t => t = s) ∧
    (x.await = 4 → Completes (.kx4Done i m) s fun t =>
      if ¬ (s.kxWell i.val 4 80 m = true ∧ kxSid m = x.sid) then Abandoned i.val 7 s t
      else if m.drop 48 ≠ kxMacR x.root (kxT3 x.kx1 x.kx2 x.kx3) x.macI then Abandoned i.val 5 s t
      else InForce i.val x.root s t)) ∧
  (∀ (i : Fin 66) (s : State), let x := s.sess i.val
    (x.await = 0 → Completes (.handshakeResend i) s fun t => t = s) ∧
    (x.await ≠ 0 → x.sends < 5 → Completes (.handshakeResend i) s fun t =>
      t.sess i.val = { x with sends := x.sends + 1 } ∧ SentAgain i.val x.msg s t ∧ (∀ n, n ≠ i.val → t.sess n = s.sess n) ∧
      OnlyIn [.line, .ciph, .host, .pool, .mem, .mgmt, .pages, .cnts] s t) ∧
    (x.await ≠ 0 → 5 ≤ x.sends → Completes (.handshakeResend i) s fun t => Abandoned i.val 6 s t)) ∧
  ∀ (w : Who) (v : Word) (s : State), s.allows w (pgCIPH 0) 0x114 v = true →
    let i := s.ixOf w (pgCIPH 0) 0x114
    let x := s.taken w (pgCIPH 0) 0x114 v
    let old := s.reg (pgCIPH 0) 0x114 i
    (bit old 31 = true → bit x 31 = false → s.peerNamed (fld old 0 16) = true → Completes (.peerCtlWrite w v) s fun t =>
      Recorded w (pgCIPH 0) .peerBusy 0x114 v s t ∧ OnlyIn [.pages] s t) ∧
    (bit old 31 = true → bit x 31 = true → x ≠ old → Completes (.peerCtlWrite w v) s fun t =>
      Recorded w (pgCIPH 0) .peerBusy 0x114 v s t ∧ OnlyIn [.pages] s t) ∧
    (bit old 31 = true → bit x 31 = false → s.peerNamed (fld old 0 16) = false → Completes (.peerCtlWrite w v) s fun t =>
      Stored w (pgCIPH 0) 0x114 v [.ciph, .mgmt] s t ∧ t.sess i = {} ∧ (∀ n, n ≠ i → t.sess n = s.sess n) ∧
      (∀ g, g < 4 → SMap.find t.ciph.keys (64 + 4 * i + g) = none) ∧ ∀ c ∈ t.ciph.ctxs, s.ctxOf i c = false) ∧
    (bit old 31 = false → bit x 31 = false → Completes (.peerCtlWrite w v) s fun t => Stored w (pgCIPH 0) 0x114 v [] s t) ∧
    (bit old 31 = false → bit x 31 = true → Completes (.peerCtlWrite w v) s fun t =>
      Stored w (pgCIPH 0) 0x114 v [.line, .ciph, .host, .pool, .mem, .mgmt, .pages, .cnts] s t ∧
      (if Config.seid.toNat < fld x 0 16 then (t.sess i).st = 1 ∧ (t.sess i).init = true ∧ (t.sess i).await = 2
        else t.sess i = {}))

/-! ## Time (13) -/

/-- TIME_WINDOW (R333 to R335; the rounding of a mean is open, log 6), TIME_SRC_LOST (R337), CAL_ASYM_DONE (R339), LAUNCH_ARM and
LAUNCH_FIRE (R341, R342), PPS_OUTPUT_EDGE (R343), PPS_IN_EDGE and SET_TIME_TIMEOUT (R344). -/
def Obligations.TimeCommands : Prop :=
  (∀ (x : Option Int) (s : State), s.regF (pgTIME 0) 0x100 0 2 = 0 → Completes (.timeWindow x) s fun t =>
    t.time.st = 0 ∧ t.time.active = 0 ∧ t.time.stratum = 255 ∧ t.time.theta = none ∧ t.time.nt = s.time.nt ∧
    (∀ p, p < 2 → (t.tport p).n = 0 ∧ (t.tport p).sumA = 0 ∧ (t.tport p).sumB = 0) ∧
    OnlyIn [.ring, .host, .time, .mgmt, .pages, .cnts] s t) ∧
  (∀ (x : Option Int) (q : Nat) (s : State), s.regF (pgTIME 0) 0x100 0 2 ≠ 0 → q < 2 → s.srcWanted = q + 2 →
    s.time.active = q + 2 → s.time.st ≠ 0 → 64 ≤ (s.tport q).n → Completes (.timeWindow x) s fun t =>
      let th := s.portTheta q
      let big := th.1.natAbs > s.jumpNs * th.2
      (s.time.st = 1 → t.time.nt = s.time.nt + BitVec.ofInt 64 (-(asInt th.1 th.2)) ∧ t.time.st = 2 ∧
        (s.pageOff (pgTIME 0) = false → t.cnt (pgTIME 0) 0x804 = min (s.cnt (pgTIME 0) 0x804 + 1) (cntMax (pgTIME 0) 0x804))) ∧
      (s.time.st = 2 → ¬ big → t.time.nt = s.time.nt + BitVec.ofInt 64 (-(th.1 / (4 * th.2))) ∧ t.time.st = 2 ∧
        t.time.outliers = 0 ∧ -20000 ≤ t.time.trim ∧ t.time.trim ≤ 20000) ∧
      (2 ≤ s.time.st → big → t.time.nt = s.time.nt ∧ t.time.outliers = s.time.outliers + 1 ∧
        t.time.st = (if s.time.outliers = 3 then 3 else s.time.st) ∧
        (s.pageOff (pgTIME 0) = false → t.cnt (pgTIME 0) 0x80C = min (s.cnt (pgTIME 0) 0x80C + 1) (cntMax (pgTIME 0) 0x80C) ∧
          (s.time.outliers = 3 → t.cnt (pgTIME 0) 0x800 = min (s.cnt (pgTIME 0) 0x800 + 1) (cntMax (pgTIME 0) 0x800)))) ∧
      (∀ p, p < 2 → (t.tport p).n = 0 ∧ (t.tport p).sumA = 0 ∧ (t.tport p).sumB = 0) ∧
      (t.tport q).rtt = asInt ((s.tport q).sumA + (s.tport q).sumB) (s.tport q).n ∧
      t.time.stratum = min 255 ((s.tport q).stratum + 1) ∧ OnlyIn [.sch, .ring, .fab, .host, .mem, .time, .mgmt, .pages, .cnts] s t) ∧
  (∀ (s : State), s.time.st ≠ 0 → s.time.lost = false → ¬ (2 ≤ s.time.active ∧ s.srcUsable s.time.active = true) →
    Completes .timeSrcLost s fun t =>
      let u := s.updTime fun x => { x with ppsLost := x.ppsLost || decide (x.active = 1) }
      let b := s.regF (pgTIME 0) 0x100 8 2
      t.time.st = 3 ∧ t.time.newSrc = true ∧ t.time.ppsLost = u.time.ppsLost ∧ t.time.nt = s.time.nt ∧
      t.time.active = (if u.srcUsable b then b else s.time.active) ∧ t.time.lost = !u.srcUsable b ∧
      (u.srcUsable b = true → t.time.stratum = match b with | 0 => 255 | 1 => 0 | q => min 255 ((s.tport (q - 2)).stratum + 1)) ∧
      (s.pageOff (pgTIME 0) = false → Raised (pgTIME 0) 0x808 2 s t) ∧ OnlyIn [.host, .time, .mgmt, .pages, .cnts] s t) ∧
  (∀ (m : Int) (p : Nat) (s : State), s.time.calPort = some p → p < 2 → Completes (.calAsymDone m) s fun t =>
    t.regs = (s.setReg (pgTIME p) 0x140 (BitVec.ofInt 32 m)).regs ∧ t.reg (pgTIME p) 0x140 = BitVec.ofInt 32 m ∧
    t.time.busy = false ∧ t.time.status = 0 ∧ t.time.calPort = none ∧ OnlyIn [.time, .regs] s t) ∧
  (∀ (s : State),
    (s.time.setPend = true → Completes .ppsInEdge s fun t =>
      let new := s.reg64 (pgTIME 0) 0x118 * 1000000000
      (∀ e ∈ s.sch.ops, e.st = .armed → e.d.trig = 2 → passed s.time.nt new e.d.trigVal = true →
        ∀ x, t.entry? e.id = some x → x.st ≠ .armed) ∧
      t.fab.wraps = (if s.time.nt < new then s.fab.wraps + (hiW new - hiW s.time.nt) else s.fab.wraps) ∧
      t.time.nt = new ∧ t.time.setPend = false ∧ t.time.busy = false ∧ t.time.status = 0 ∧
      t.time.mepoch = (if s.time.active = 1 then (s.time.mepoch + 1) % 2 ^ 16 else s.time.mepoch) ∧
      OnlyIn [.sch, .fab, .host, .mem, .time, .mgmt, .pages, .cnts] s t) ∧
    (s.time.setPend = false → Completes .ppsInEdge s fun t =>
      t.time = { s.time with ppsLost := false } ∧ OnlyIn [.time] s t)) ∧
  (∀ (s : State), s.time.setPend = true → Completes .setTimeTimeout s fun t =>
    t.time.setPend = false ∧ t.time.busy = false ∧ t.time.status = 2 ∧ t.time.nt = s.time.nt ∧ OnlyIn [.time] s t) ∧
  (∀ (m : Mac) (x : Launch) (l : List Launch) (s : State), s.launchesOf m.val = x :: l →
    SMap.find s.time.armed m.val = none → -(s.regF (pgTIME 0) 0x128 0 16 : Int) ≤ s.pastT x.t → s.pastT x.t ≤ 10 →
    Completes (.launchArm m) s fun t =>
      SMap.find t.time.armed m.val = some true ∧ t.launchesOf m.val = x :: l ∧ t.out = s.out ∧ OnlyIn [.time] s t) ∧
  (∀ (m : Mac) (x : Launch) (l : List Launch) (s : State), s.launchesOf m.val = x :: l →
    (SMap.find s.time.armed m.val).isSome = true → 0 ≤ s.pastT x.t → Completes (.launchFire m) s fun t =>
      let late := s.regF (pgTIME 0) 0x128 16 16
      t.launchesOf m.val = l ∧ SMap.find t.time.armed m.val = none ∧
      (s.pastT x.t ≤ max 10 late → Out.frame m 1 x.frame ∈ t.out) ∧
      (max 10 late < s.pastT x.t → (s.pageOff (pgTIME 0) = false →
        t.cnt (pgTIME 0) 0x818 = min (s.cnt (pgTIME 0) 0x818 + 1) (cntMax (pgTIME 0) 0x818))) ∧
      (10 < s.pastT x.t → s.pastT x.t ≤ late → (s.pageOff (pgTIME 0) = false →
        t.cnt (pgTIME 0) 0x814 = min (s.cnt (pgTIME 0) 0x814 + 1) (cntMax (pgTIME 0) 0x814))) ∧
      OnlyIn [.fab, .host, .mem, .time, .mgmt, .pages, .cnts] s t) ∧
  ∀ (fall : Bool) (s : State), s.time.ioOwner = 1 → s.time.pps = fall → Completes (.ppsOutputEdge fall) s fun t =>
    t.time = { s.time with pps := !fall } ∧ t.out = s.out ++ [.pin "TIME_IO" (!fall)] ∧ OnlyIn [.time] s t

/-- ACCEPT_STEP, REACQUIRE, CAL_ASYM, SET_TIME (R334, R335, R339, R344, R345), TIME_SRC_WRITE (R337), TIME_IO_CTL_WRITE (R343),
TIME_NS_READ and TIME_HI_READ (R329), TSQ_TS_READ (R340). REACQUIRE in FREE ending with 2 is a reading (log 92). -/
def Obligations.TimeRegisters : Prop :=
  (∀ (w : Who) (v : Word) (c : Instr) (n : Nat) (s : State),
    (c = .acceptStep w v ∧ n = 1 ∨ c = .reacquire w v ∧ n = 2 ∨ c = .calAsym w v ∧ n = 3 ∨ c = .setTime w v ∧ n = 4) →
    s.allows w (pgTIME 0) 0x108 (withCmd v 4 n) = true → s.time.busy = true → Completes c s fun t =>
      Recorded w (pgTIME 0) .busyCmd 0x108 (withCmd v 4 n) s t ∧ OnlyIn [.pages] s t) ∧
  (∀ (w : Who) (v : Word) (s : State), s.allows w (pgTIME 0) 0x108 (withCmd v 4 1) = true → s.time.busy = false →
    (∀ th, s.time.theta = some th → s.time.st = 3 → Completes (.acceptStep w v) s fun t =>
      t.time.nt = s.time.nt + BitVec.ofInt 64 (-(asInt th.1 th.2)) ∧ t.time.st = 2 ∧ t.time.status = 0 ∧
      (s.time.active = 1 → t.time.mepoch = (s.time.mepoch + 1) % 2 ^ 16) ∧
      (s.pageOff (pgTIME 0) = false → t.cnt (pgTIME 0) 0x804 = min (s.cnt (pgTIME 0) 0x804 + 1) (cntMax (pgTIME 0) 0x804) ∧
        bit (t.hdr (pgTIME 0)).intStat 1 = true) ∧ OnlyIn [.sch, .fab, .host, .mem, .time, .mgmt, .pages, .cnts] s t) ∧
    (s.time.theta = none ∨ s.time.st ≠ 3 → Completes (.acceptStep w v) s fun t =>
      t.time.status = 2 ∧ t.time.nt = s.time.nt ∧ t.time.st = s.time.st ∧ OnlyIn [.time] s t)) ∧
  (∀ (w : Who) (v : Word) (s : State), s.allows w (pgTIME 0) 0x108 (withCmd v 4 2) = true → s.time.busy = false →
    (s.time.st ≠ 0 → Completes (.reacquire w v) s fun t =>
      t.time.st = 1 ∧ t.time.status = 0 ∧ t.time.outliers = 0 ∧ t.time.nt = s.time.nt ∧ OnlyIn [.time] s t) ∧
    (s.time.st = 0 → Completes (.reacquire w v) s fun t =>
      t.time.st = 0 ∧ t.time.status = 2 ∧ t.time.nt = s.time.nt ∧ OnlyIn [.time] s t)) ∧
  (∀ (w : Who) (v : Word) (s : State), s.allows w (pgTIME 0) 0x108 (withCmd v 4 3) = true → s.time.busy = false →
    let p := fld v 8 1
    let good := s.time.st = 2 ∧ s.time.active ≠ p + 2 ∧ (s.tport p).locked = true ∧
      (s.tport p).master = (if s.time.active = 1 then Config.seid.toNat else s.time.master) ∧ (s.tport p).mepoch = s.time.mepoch
    (good → Completes (.calAsym w v) s fun t =>
      t.time = { s.time with busy := true, calPort := some p } ∧ OnlyIn [.time] s t) ∧
    (¬ good → Completes (.calAsym w v) s fun t =>
      t.time.busy = false ∧ t.time.status = 2 ∧ t.time.calPort = none ∧ t.time.nt = s.time.nt ∧ OnlyIn [.time] s t)) ∧
  (∀ (w : Who) (v : Word) (s : State), s.allows w (pgTIME 0) 0x108 (withCmd v 4 4) = true → s.time.busy = false →
    (s.time.active = 1 → s.time.st ≠ 0 → Completes (.setTime w v) s fun t =>
      t.time = { s.time with busy := true, setPend := true } ∧ OnlyIn [.time] s t) ∧
    (s.time.active ≠ 1 ∨ s.time.st = 0 → Completes (.setTime w v) s fun t =>
      t.time.busy = false ∧ t.time.status = 2 ∧ t.time.setPend = false ∧ t.time.nt = s.time.nt ∧ OnlyIn [.time] s t)) ∧
  (∀ (w : Who) (v : Word) (s : State), s.allows w (pgTIME 0) 0x100 v = true → Completes (.timeSrcWrite w v) s fun t =>
    Stored w (pgTIME 0) 0x100 v [] s t ∧ t.regF (pgTIME 0) 0x100 0 2 = fld v 0 2) ∧
  (∀ (w : Who) (v : Word) (s : State), s.allows w (pgTIME 0) 0x12C v = true →
    (fld v 0 2 = 1 → s.time.ioOwner ≠ 2 → Completes (.timeIoCtlWrite w v) s fun t =>
      t.time = { s.time with ioOwner := 1, ioRefused := false } ∧ OnlyIn [.time] s t) ∧
    (fld v 0 2 = 1 → s.time.ioOwner = 2 → Completes (.timeIoCtlWrite w v) s fun t =>
      Recorded w (pgTIME 0) .owned 0x12C v s t ∧ t.time = { s.time with ioRefused := true } ∧ OnlyIn [.time, .pages] s t) ∧
    (fld v 0 2 = 0 → s.time.ioOwner = 1 → Completes (.timeIoCtlWrite w v) s fun t =>
      t.time = { s.time with ioOwner := 0, pps := false } ∧ OnlyIn [.time] s t)) ∧
  ∀ (w : Who) (s : State), s.reaches w (pgTIME 0) = true → s.pageOff (pgTIME 0) = false →
    (∀ f, w = .func f → isPf f.val = true) →
    Completes (.timeNsRead w) s (fun t =>
      t.out = s.out ++ [.read w (pgBase (pgTIME 0) + 0x110) (loW s.time.nt)] ∧
      SMap.find t.time.hi (whoCode w) = some (hiW s.time.nt) ∧
      (∀ k, k ≠ whoCode w → SMap.find t.time.hi k = SMap.find s.time.hi k) ∧ t.time.nt = s.time.nt ∧ OnlyIn [.time] s t) ∧
    Completes (.timeHiRead w) s (fun t =>
      t.out = s.out ++ [.read w (pgBase (pgTIME 0) + 0x114) ((SMap.find s.time.hi (whoCode w)).getD (hiW s.time.nt))] ∧
      SMap.find t.time.hi (whoCode w) = none ∧
      (∀ k, k ≠ whoCode w → SMap.find t.time.hi k = SMap.find s.time.hi k) ∧ OnlyIn [.time] s t) ∧
    (∀ x l, s.time.tsq = x :: l → Completes (.tsqTsRead w) s fun t =>
      t.out = s.out ++ [.read w (pgBase (pgTIME 0) + 0x168) x.ts] ∧ t.time = { s.time with tsq := l } ∧ OnlyIn [.time] s t) ∧
    (s.time.tsq = [] → Completes (.tsqTsRead w) s fun t =>
      t.out = s.out ++ [.read w (pgBase (pgTIME 0) + 0x168) 0] ∧ OnlyIn [] s t)

/-! ## Memories and buffer pools (14) -/

/-- SCRUB_STEP (R355 to R357), HBM_IMBAL_WINDOW (R353), POOL_WAIT_SERVED (R361 to R363), POOL_SIZE_WRITE (R360), MEM_RANGE_WRITE
(R359). -/
def Obligations.MemoriesAndPools : Prop :=
  (∀ (hbm : Bool) (addr : Nat) (e : EccErr) (s : State), let a := addr % (if hbm = true then hbmTop else lpSnapEnd)
    let p := if hbm = true then pgMEM (s.hbmDie a) else pgMEM2
    let bad := if hbm = true then s.hbmBad a 1 else s.lpBad a 1
    (s.regF p 0x100 0 8 = 0 → Completes (.scrubStep hbm addr e) s fun t => t = s) ∧
    (s.regF p 0x100 0 8 ≠ 0 → s.pageOff p = false →
      (e = .none → bad = false → scrubLast hbm a = false → Completes (.scrubStep hbm addr e) s fun t => t = s) ∧
      (e = .corrected → bad = false → scrubLast hbm a = false → Completes (.scrubStep hbm addr e) s fun t =>
        Counted p 0x800 1 s t ∧ OnlyIn [.mgmt, .pages, .cnts] s t) ∧
      (e = .uncorrectable ∨ bad = true → scrubLast hbm a = false → Completes (.scrubStep hbm addr e) s fun t =>
        Raised p 0x804 0 s t ∧
        (hbm = true → t.mem = { s.mem with hbmPoison := SMap.put (a / 64) true s.mem.hbmPoison }) ∧
        (hbm = false → t.mem = { s.mem with lpPoison := SMap.put (a / 8) true s.mem.lpPoison }) ∧
        ((s.hdr p).errValid = false → (t.hdr p).errInfo = 4 ∧
          (t.hdr p).errAddr = BitVec.ofNat 64 (if hbm = true then a / 64 * 64 else a / 8 * 8)) ∧
        OnlyIn [.host, .mem, .mgmt, .pages, .cnts] s t) ∧
      (hbm = false → e = .none → bad = false → scrubLast hbm a = true → Completes (.scrubStep hbm addr e) s fun t =>
        Counted p 0x810 1 s t ∧ OnlyIn [.pages, .cnts] s t))) ∧
  (∀ (d : Die) (l : List Nat) (port : BitVec 3) (s : State), let b := (List.range 96).map fun i => l.getD i 0
    let n := s.regF (pgMEM d.val) 0x108 24 8
    let x := s.mem.imbal.getD d.val {}
    let hot := s.windowHot d.val b
    (n = 0 ∨ hot = x.state → Completes (.hbmImbalWindow d l port) s fun t =>
      t.mem.imbal.getD d.val {} = { x with run := 0, bytes := b } ∧
      (∀ k, k ≠ d.val → t.mem.imbal.getD k {} = s.mem.imbal.getD k {}) ∧ OnlyIn [.mem] s t) ∧
    (n ≠ 0 → hot ≠ x.state → x.run + 1 < n → Completes (.hbmImbalWindow d l port) s fun t =>
      t.mem.imbal.getD d.val {} = { x with run := x.run + 1, bytes := b } ∧
      (∀ k, k ≠ d.val → t.mem.imbal.getD k {} = s.mem.imbal.getD k {}) ∧ OnlyIn [.mem] s t) ∧
    (n ≠ 0 → hot ≠ x.state → n ≤ x.run + 1 → Completes (.hbmImbalWindow d l port) s fun t =>
      (hot = true → t.mem.imbal.getD d.val {} = { state := true, run := 0, hotValid := true, hotPort := port.toNat
                                                  hotPc := 96 * d.val + b.idxOf (b.foldl max 0), bytes := b } ∧
        (s.pageOff (pgMEM d.val) = false → Raised (pgMEM d.val) 0x80C 2 s t)) ∧
      (hot = false → t.mem.imbal.getD d.val {} = { x with state := false, run := 0, bytes := b } ∧ OnlyIn [.mem] s t) ∧
      (∀ k, k ≠ d.val → t.mem.imbal.getD k {} = s.mem.imbal.getD k {}) ∧ t.mem = { s.mem with imbal := t.mem.imbal } ∧
      OnlyIn [.host, .mem, .mgmt, .pages, .cnts] s t)) ∧
  (∀ (k : Fin 8) (i : Nat) (o g : BitVec 8) (s : State), let key := poolKey k.val i
    (SMap.find s.pool.bufs key = none → Completes (.poolWaitServed k i o g) s fun t =>
      (s.pageOff pgPOOL = false → Raised pgPOOL 0x844 3 s t) ∧ OnlyIn [.host, .mgmt, .pages, .cnts] s t) ∧
    ∀ b, SMap.find s.pool.bufs key = some b →
      (poolOwnerNum b.owner ≠ o.toNat ∨ SMap.get (fun _ => 0) s.pool.gens key ≠ g.toNat →
        Completes (.poolWaitServed k i o g) s fun t =>
          (s.pageOff pgPOOL = false → Raised pgPOOL 0x848 4 s t) ∧ OnlyIn [.host, .mgmt, .pages, .cnts] s t) ∧
      (poolOwnerNum b.owner = o.toNat → SMap.get (fun _ => 0) s.pool.gens key = g.toNat →
        (s.pool.waiting = [] → s.pool.limited = [] → Completes (.poolWaitServed k i o g) s fun t =>
          t.pool.bufs = SMap.erase key s.pool.bufs ∧ t.pool.gens = s.pool.gens ∧ t.pool.waiting = [] ∧ t.pool.limited = [] ∧
          OnlyIn [.pool] s t) ∧
        ∀ r, s.pool.waiting = [r] → s.pool.limited = [] → r.pool = k.val → r.count = 1 → i < 2 ^ 25 →
          (s.poolUsedIx k.val).length ≤ s.poolBufs k.val →
          let excess := (s.updPool fun p => { p with bufs := SMap.erase key p.bufs }).poolOver r k.val
          (excess = false → Completes (.poolWaitServed k i o g) s fun t =>
            t.pool.waiting = [] ∧ t.pool.limited = [] ∧ t.poolHas r.owner r.key = true ∧
            t.mem.hbm = s.mem.hbm ∧ t.mem.lp = s.mem.lp ∧ OnlyIn [.host, .pool, .mem, .mgmt, .pages, .cnts] s t) ∧
          (excess = true → Completes (.poolWaitServed k i o g) s fun t =>
            t.pool.waiting = [] ∧ t.pool.limited = [r] ∧ t.pool.bufs = SMap.erase key s.pool.bufs ∧
            OnlyIn [.pool, .pages, .cnts] s t))) ∧
  (∀ (w : Who) (k : Fin 8) (v : Word) (s : State), let o := 0x110 + 0x10 * k.val
    s.allows w pgPOOL o v = true →
    let x := s.taken w pgPOOL o v
    let sum := ((List.range 8).map fun i => if i = k.val then fld x 0 11 else s.regF pgPOOL (0x110 + 0x10 * i) 0 11).sum
    (s.pool.bufs ≠ [] → Completes (.poolSizeWrite w k v) s fun t =>
      Recorded w pgPOOL .poolBusy o v s t ∧ OnlyIn [.pages] s t) ∧
    (s.pool.bufs = [] → 1024 < sum → Completes (.poolSizeWrite w k v) s fun t =>
      Recorded w pgPOOL .poolOver o v s t ∧ OnlyIn [.pages] s t) ∧
    (s.pool.bufs = [] → sum ≤ 1024 → s.pool.waiting = [] → s.pool.limited = [] → Completes (.poolSizeWrite w k v) s fun t =>
      Stored w pgPOOL o v [.pool] s t ∧ t.poolFree k.val = fld x 0 11 * 4 ^ (7 - k.val) ∧ t.pool.bufs = [] ∧
      t.pool.gens = s.pool.gens ∧ t.pool.waiting = [] ∧ t.pool.limited = [])) ∧
  ∀ (w : Who) (j : Job) (snap : Bool) (v : Word) (s : State), let o := 0x200 + 4 * b2n snap + 0x10 * j.val
    s.allows w pgMEM2 o v = true →
    let x := s.taken w pgMEM2 o v
    let b := fld x 0 14 * 2 ^ 26
    let n := fld x 16 14 * 2 ^ 26
    let part := if snap = true then lpSnapEnd - lpSnap else 640 * 2 ^ 30
    let hit := ∃ i, i < 8 ∧ i ≠ j.val ∧
      let r := s.reg pgMEM2 (0x200 + 4 * b2n snap + 0x10 * i)
      overlaps b n (fld r 0 14 * 2 ^ 26) (fld r 16 14 * 2 ^ 26) = true
    (s.memBusy j.val = true → Completes (.memRangeWrite w j snap v) s fun t =>
      Recorded w pgMEM2 .memBusy o v s t ∧ OnlyIn [.pages] s t) ∧
    (s.memBusy j.val = false → 0 < n → part < b + n ∨ hit → Completes (.memRangeWrite w j snap v) s fun t =>
      Recorded w pgMEM2 .memOverlap o v s t ∧ OnlyIn [.pages] s t) ∧
    (s.memBusy j.val = false → n = 0 ∨ b + n ≤ part ∧ ¬ hit → Completes (.memRangeWrite w j snap v) s fun t =>
      Stored w pgMEM2 o v [] s t)

/-! ## The host interface (15) -/

/-- HEADBOX_WRITE (R375 to R377), what every packet command shares (R371, R377, R378; 17 R431), and HOST_PKT_GAP (R377). -/
def Obligations.PacketRules : Prop :=
  (∀ (f : Func) (off : Nat) (b : List Byte) (bad : Bool) (s : State), let sl := off / 0x2000
    let o := off % 0x2000
    let x := s.slot f.val sl
    let have' := (b.zipIdx).foldl (fun m c => SMap.put (o + c.2) c.1 m) x.bytes
    (s.pwr.st ≠ .on ∨ s.fnOn f.val = false → Completes (.headboxWrite f off b bad) s fun t => t = s) ∧
    (s.pwr.st = .on → s.fnOn f.val = true → s.inRecovery = false → b ≠ [] → o + b.length ≤ 0x2000 → off + b.length ≤ 0x1000000 →
    (x.taken = true ∨ x.whole = true → Completes (.headboxWrite f off b bad) s fun t =>
      (s.pageOff (pgHOSTF f.val) = false → Raised (pgHOSTF f.val) 0x808 1 s t) ∧ t.slot f.val sl = x ∧ t.host.pkts = s.host.pkts ∧
      OnlyIn [.host, .mgmt, .pages, .cnts] s t) ∧
    (x.taken = false → x.whole = false → bad = true → Completes (.headboxWrite f off b bad) s fun t =>
      (∃ r, (t.fn f.val).hold = (s.fn f.val).hold ++ [r] ∧ r.status = 0x01 ∧ r.slot = some sl) ∧
      (t.slot f.val sl).taken = true ∧ t.host.pkts = s.host.pkts ∧ OnlyIn [.host, .mgmt, .pages, .cnts] s t) ∧
    (x.taken = false → x.whole = false → bad = false → Slot.have? { x with bytes := have' } 0 64 = none →
      Completes (.headboxWrite f off b bad) s fun t =>
        t.slot f.val sl = { x with bytes := have' } ∧ t.host.pkts = s.host.pkts ∧ t.fn f.val = s.fn f.val ∧ OnlyIn [.host] s t) ∧
    (∀ hb, x.taken = false → x.whole = false → bad = false → Slot.have? { x with bytes := have' } 0 64 = some hb →
      4096 ≤ (s.fn f.val).hold.length →
      hdrStatus f.val (pktHdr hb) ≠ none ∨ Slot.have? { x with bytes := have' } 64 (pktHdr hb).len ≠ none →
      Completes (.headboxWrite f off b bad) s fun t =>
        t.slot f.val sl = { x with bytes := have', whole := true } ∧ t.host.pkts = s.host.pkts ∧ t.fn f.val = s.fn f.val ∧
        OnlyIn [.host] s t) ∧
    ∀ hb, x.taken = false → x.whole = false → bad = false → Slot.have? { x with bytes := have' } 0 64 = some hb →
      (s.fn f.val).hold.length < 4096 →
      let h := pktHdr hb
      let d := (h.seq - s.pktNext f.val h.q.val).toNat
      (∀ st, hdrStatus f.val h = some st → Completes (.headboxWrite f off b bad) s fun t =>
        (∃ r, (t.fn f.val).hold = (s.fn f.val).hold ++ [r] ∧ r.seq = h.seq ∧ r.status = st ∧ r.tag = h.tag ∧ r.slot = some sl) ∧
        (t.slot f.val sl).taken = true ∧ t.host.pkts = s.host.pkts ∧ OnlyIn [.host, .mgmt, .pages, .cnts] s t) ∧
      (hdrStatus f.val h = none → Slot.have? { x with bytes := have' } 64 h.len = none →
        Completes (.headboxWrite f off b bad) s fun t =>
          t.slot f.val sl = { x with bytes := have' } ∧ t.host.pkts = s.host.pkts ∧ t.fn f.val = s.fn f.val ∧ OnlyIn [.host] s t) ∧
      ∀ pl, hdrStatus f.val h = none → Slot.have? { x with bytes := have' } 64 h.len = some pl →
        (2048 ≤ d → Completes (.headboxWrite f off b bad) s fun t =>
          (∃ r, (t.fn f.val).hold = (s.fn f.val).hold ++ [r] ∧ r.seq = h.seq ∧
            r.status = (if 2 ^ 32 - 2048 ≤ d then 0x05 else 0x01) ∧ r.slot = some sl) ∧
          (t.slot f.val sl).taken = true ∧ t.host.pkts = s.host.pkts ∧ OnlyIn [.host, .mgmt, .pages, .cnts] s t) ∧
        (d < 2048 → Completes (.headboxWrite f off b bad) s fun t =>
          t.host.pkts = s.host.pkts ++ [{ f := f, slot := sl, q := h.q, opcode := h.opcode, seq := h.seq, target := h.target
                                          arg0 := h.arg0, arg1 := h.arg1, tag := h.tag, payload := pl }] ∧
          (t.slot f.val sl).taken = true ∧ (t.fn f.val).hold = (s.fn f.val).hold ∧ PktOnly [] s t))) ∧
  (∀ (c : Instr) (f : Func) (q : PktJob) (op : Nat) (s : State), pktOf c = some (f, q, op) →
    (s.pktReady f.val q.val = none → Completes c s fun t => t = s) ∧
    ∀ k, s.pktReady f.val q.val = some k →
      (k.opcode ≠ op → Completes c s fun t => t = s) ∧
      (k.opcode = op → s.boot.done.getLsbD 11 = false → op ≠ 0 → op ≠ 4 → Completes c s fun t =>
        Ended k 0x04 0 0 s t ∧ PktOnly [] s t) ∧
      (k.opcode = op → s.boot.done.getLsbD 11 = true ∨ op = 0 ∨ op = 4 → s.mayStart f.val q.val op = false →
        Completes c s fun t => Ended k 0x03 0 0 s t ∧ PktOnly [] s t) ∧
      (k.opcode = op → s.boot.done.getLsbD 11 = true ∨ op = 0 ∨ op = 4 → s.mayStart f.val q.val op = true →
        q.val < 8 → stAllows (s.jobSt q.val) op = false → Completes c s fun t => Ended k 0x04 0 0 s t ∧ PktOnly [] s t) ∧
      ∀ x, k.opcode = op → s.boot.done.getLsbD 11 = true ∨ op = 0 ∨ op = 4 → s.mayStart f.val q.val op = true →
        (q.val < 8 → stAllows (s.jobSt q.val) op = true) → s.poolBad .headbox (slotKey2 f.val k.slot) = some x →
        Completes c s fun t => Ended k 0x1F 0 0 s t ∧ PktOnly [] s t) ∧
  ∀ (f : Func) (q : PktJob) (s : State),
    (s.pktsOf f.val q.val ≠ [] → (∀ k ∈ s.pktsOf f.val q.val, k.seq ≠ s.pktNext f.val q.val) → s.regF pgHOST 0x108 0 20 ≠ 0 →
      SMap.get (fun _ => false) (s.fn f.val).gap q.val = false → Completes (.hostPktGap f q) s fun t =>
        SMap.get (fun _ => false) (t.fn f.val).gap q.val = true ∧ t.host.pkts = s.host.pkts ∧
        (s.pageOff (pgHOSTF f.val) = false → Raised (pgHOSTF f.val) 0x80C 2 s t) ∧ OnlyIn [.host, .mgmt, .pages, .cnts] s t) ∧
    (SMap.get (fun _ => false) (s.fn f.val).gap q.val = true → Completes (.hostPktGap f q) s fun t => t = s)

/-- NOP, SUBMIT (R379), CANCEL (02 R47), REG_WRITE, REG_READ (R379), MEM_WRITE and MEM_READ (R380). -/
def Obligations.PacketAccesses : Prop :=
  (∀ (f : Func) (q : PktJob) (k : Pkt) (s : State), PktGo f q 0x00 k s → Completes (.nop f q) s fun t =>
    Ended k 0 0 0 s t ∧ PktOnly [] s t) ∧
  (∀ (f : Func) (q : PktJob) (k : Pkt) (s : State), PktGo f q 0x01 k s →
    let a := submitFrom f q.val 0 (descsOf k.payload) (pktNow k s)
    (Completes (.submit f q) s fun t =>
        Ended k a.status a.result a.detail s t ∧ t.sch = a.st.sch ∧ PktOnly [.sch] s t) ∧
    ∀ b, descsOf k.payload = [b] →
      let d := decodeDesc b
      (d.job.val ≠ q.val ∨ (SMap.find s.sch.lastSeq (srcKey (.fn f) d.job.val) ≠ some d.seq ∧ d.seq = s.seqNext (.fn f) d.job.val ∧
          (descHeadOk b = false ∨ s.descOk (.fn f) d = false)) → Completes (.submit f q) s fun t =>
        Ended k 0x08 0 0 s t ∧ t.sch = s.sch ∧ PktOnly [] s t) ∧
      (d.job.val = q.val → SMap.find s.sch.lastSeq (srcKey (.fn f) d.job.val) = some d.seq → Completes (.submit f q) s fun t =>
        Ended k 0x05 0 0 s t ∧ t.sch = s.sch ∧ PktOnly [] s t) ∧
      (d.job.val = q.val → SMap.find s.sch.lastSeq (srcKey (.fn f) d.job.val) ≠ some d.seq → d.seq ≠ s.seqNext (.fn f) d.job.val →
        Completes (.submit f q) s fun t => Ended k 0x07 0 0 s t ∧ t.sch = s.sch ∧ PktOnly [] s t) ∧
      (d.job.val = q.val → SMap.find s.sch.lastSeq (srcKey (.fn f) d.job.val) ≠ some d.seq → d.seq = s.seqNext (.fn f) d.job.val →
        descHeadOk b = true → s.descOk (.fn f) d = true →
        (s.opsFull d.job.val = true ∨ s.claimOver d = true → Completes (.submit f q) s fun t =>
          Ended k 0x06 0 0 s t ∧ t.sch = s.sch ∧ PktOnly [] s t) ∧
        (s.opsFull d.job.val = false → s.claimOver d = false → Completes (.submit f q) s fun t =>
          Ended k 0 1 0 s t ∧ t.sch.ops.length = s.sch.ops.length + 1 ∧ t.sch.nextId = s.sch.nextId + 1 ∧
          (∃ e ∈ t.sch.ops, e.id = s.sch.nextId ∧ e.d = d ∧ e.src = .fn f) ∧
          SMap.find t.sch.lastSeq (srcKey (.fn f) d.job.val) = some d.seq ∧ PktOnly [.sch] s t))) ∧
  (∀ (f : Func) (q : PktJob) (k : Pkt) (s : State), PktGo f q 0x02 k s →
    let u := retryCores (forAll (s.toCancel f q.val k) cancelEntry (pktNow k s))
    (Completes (.cancel f q) s fun t =>
        Ended k 0 (s.toCancel f q.val k).length 0 s t ∧ t.sch = u.sch ∧ t.vat = u.vat ∧ t.eng = u.eng ∧ t.gc = u.gc ∧
        t.sheet = u.sheet ∧ t.ring = u.ring ∧ t.fab = u.fab ∧ t.line = u.line ∧
        PktOnly [.sch, .vat, .eng, .gc, .sheet, .ring, .fab, .line] s t) ∧
    (∀ e, s.toCancel f q.val k = [e] → s.entry? e.id = some e → (∀ c, c < 64 → (s.core c).subQ = []) →
      (e.st = .active → Completes (.cancel f q) s fun t =>
        t.entry? e.id = some { e with cancelled := true } ∧ ∀ i, i ≠ e.id → t.entry? i = s.entry? i) ∧
      (e.st ≠ .active → Completes (.cancel f q) s fun t => t.entry? e.id = none))) ∧
  (∀ (f : Func) (q : PktJob) (k : Pkt) (s : State), PktGo f q 0x03 k s →
    let u := regPairs f k (wordsOf k.payload) (pktNow k s)
    Completes (.regWrite f q) s fun t =>
      (k ∉ u.host.pkts → t = u) ∧
      (k ∈ u.host.pkts → HasRecord k 0 (k.payload.length / 8) 0 t ∧ t.host.pkts.length < u.host.pkts.length ∧
        t.pktNext f.val q.val = u.pktNext f.val q.val ∧ PktOnly [] u t)) ∧
  (∀ (f : Func) (q : PktJob) (no : Bool) (k : Pkt) (s : State), PktGo f q 0x04 k s →
    let r := regReads f (wordsOf k.payload) (pktNow k s)
    Completes (.regRead f q no) s fun t =>
      (no = false → Ended k 0 (k.payload.length / 4) 0 s t ∧ .dma f k.target.toNat r.1 false ∈ t.out) ∧
      (no = true → Ended k 0x0A 0 0 s t) ∧ PktOnly [.time, .pwr, .halves] s t) ∧
  (∀ (f : Func) (q : PktJob) (k : Pkt) (s : State), PktGo f q 0x05 k s →
    let m := fldN k.arg0.toNat 0 3
    let a := k.target.toNat
    let n := k.payload.length
    (n = 0 ∨ s.memOk m q.val a n = false → Completes (.memWrite f q) s fun t => Ended k 0x0A 0 0 s t ∧ PktOnly [] s t) ∧
    (n ≠ 0 → s.memOk m q.val a n = true → Completes (.memWrite f q) s fun t =>
      Ended k 0 n 0 s t ∧
      (m = 0 → (∀ x, memGet t.mem.hbm x = if a ≤ x ∧ x < a + n then k.payload.getD (x - a) 0 else memGet s.mem.hbm x) ∧
        t.mem.lp = s.mem.lp ∧ t.gc = s.gc) ∧
      (m = 1 ∨ m = 2 → (∀ x, memGet t.mem.lp x = if a ≤ x ∧ x < a + n then k.payload.getD (x - a) 0 else memGet s.mem.lp x) ∧
        t.mem.hbm = s.mem.hbm ∧ t.gc = s.gc) ∧
      (m = 3 ∨ m = 4 → let b := (m - 3) * 2 ^ 23 + s.shmBase (m - 3) q.val + a
        (∀ x, memGet t.gc.shm x = if b ≤ x ∧ x < b + n then k.payload.getD (x - b) 0 else memGet s.gc.shm x) ∧ SameBytes s t) ∧
      OnlyIn (.gc :: pktParts) s t)) ∧
  ∀ (f : Func) (q : PktJob) (no : Bool) (k : Pkt) (s : State), PktGo f q 0x06 k s →
    let m := fldN k.arg0.toNat 0 3
    let a := k.target.toNat
    let n := fldN k.arg0.toNat 32 25
    (n = 0 ∨ 16777216 < n ∨ s.memOk m q.val a n = false → Completes (.memRead f q no) s fun t =>
      Ended k 0x0A 0 0 s t ∧ PktOnly [] s t) ∧
    (n ≠ 0 → n ≤ 16777216 → s.memOk m q.val a n = true → s.memBad m a n = true → Completes (.memRead f q no) s fun t =>
      Ended k 0x1F 0 0 s t ∧ PktOnly [] s t) ∧
    (n ≠ 0 → n ≤ 16777216 → s.memOk m q.val a n = true → s.memBad m a n = false → Completes (.memRead f q no) s fun t =>
      (no = false → Ended k 0 n 0 s t ∧ .dma f k.arg1.toNat (s.memFetch m q.val a n) false ∈ t.out) ∧
      (no = true → Ended k 0x0A 0 0 s t) ∧ PktOnly [] s t)

/-- QP_CREATE, QP_MODIFY, QP_DESTROY (R381, 09 R233), JOB_ASSIGN, JOB_START, JOB_QUIESCE, JOB_RELEASE (R371, R386). Which QPN a
new queue pair gets is open (log 18). -/
def Obligations.QueuePairsAndJobs : Prop :=
  (∀ (f : Func) (q : PktJob) (k : Pkt) (s : State), PktGo f q 0x07 k s → ∀ h : q.val < 8,
    let c := wordsOf k.payload
    (s.qpCtxOk c = false → Completes (.qpCreate f q) s fun t => Ended k 0x01 0 0 s t ∧ PktOnly [] s t) ∧
    (s.qpCtxOk c = true → s.regF pgSW (0x400 + 0x10 * q.val) 0 14 ≤ s.qpUsed q.val ∨ 8192 ≤ s.fab.qps.length →
      Completes (.qpCreate f q) s fun t =>
        Ended k 0x0B 0 0 s t ∧ (s.pageOff pgSW = false → t.cnt pgSW 0x81C = min (s.cnt pgSW 0x81C + 1) (cntMax pgSW 0x81C)) ∧
        PktOnly [] s t) ∧
    (s.qpCtxOk c = true → s.qpUsed q.val < s.regF pgSW (0x400 + 0x10 * q.val) 0 14 → s.fab.qps.length < 8192 →
      Completes (.qpCreate f q) s fun t => ∃ x : Qp,
        Ended k 0 x.qpn.toNat 0 s t ∧ SMap.find s.fab.qps (qpIx x.qpn) = none ∧
        t.fab.qps = SMap.put (qpIx x.qpn) x s.fab.qps ∧ x.job = ⟨q.val, h⟩ ∧ x.ctx = setAt c 0 (wd x.qpn.toNat) ∧
        x.epsn = BitVec.ofNat 24 (qpF c 5 0 24) ∧ x.spsn = BitVec.ofNat 24 (qpF c 4 0 24) ∧ x.una = x.spsn ∧ x.nxt = x.spsn ∧ x.outq = [] ∧
        PktOnly [.fab] s t)) ∧
  (∀ (f : Func) (q : PktJob) (k : Pkt) (s : State), PktGo f q 0x08 k s →
    let m := loW k.arg0
    let v := wordsOf k.payload
    (s.qpMine q k = none → Completes (.qpModify f q) s fun t => Ended k 0x01 0 0 s t ∧ PktOnly [] s t) ∧
    ∀ x, s.qpMine q k = some x →
      let c := (List.range 32).map fun i => if i ≠ 0 && bit m i then v.getD i 0 else x.ctx.getD i 0
      let st := qpF c 1 0 3
      (s.qpCtxOk c = false ∨ (bit m 1 = true ∨ st ≠ x.state) ∧ qpStep x.state st = false → Completes (.qpModify f q) s fun t =>
        Ended k 0x01 0 0 s t ∧ PktOnly [] s t) ∧
      (s.qpCtxOk c = true → (bit m 1 = false ∧ st = x.state) ∨ qpStep x.state st = true → Completes (.qpModify f q) s fun t =>
        Ended k 0 0 0 s t ∧
        ((st = 0 ∨ st = 4 → st = x.state) →
          let y : Qp := if bit m 4 = true then Qp.idle { x with ctx := c, spsn := BitVec.ofNat 24 (qpF c 4 0 24) }
            else { x with ctx := c }
          t.fab.qps = SMap.put (qpIx x.qpn)
            (if bit m 5 = true then { y with epsn := BitVec.ofNat 24 (qpF c 5 0 24) } else y) s.fab.qps ∧
          PktOnly [.fab] s t) ∧
        PktOnly [.sch, .vat, .fab] s t)) ∧
  (∀ (f : Func) (q : PktJob) (k : Pkt) (s : State), PktGo f q 0x09 k s →
    (s.qpMine q k = none → Completes (.qpDestroy f q) s fun t => Ended k 0x01 0 0 s t ∧ PktOnly [] s t) ∧
    ∀ x, s.qpMine q k = some x → Completes (.qpDestroy f q) s fun t =>
      Ended k 0 0 0 s t ∧ t.qp? x.qpn = none ∧ PktOnly [.sch, .vat, .fab] s t) ∧
  (∀ (f : Func) (q : PktJob) (k : Pkt) (s : State), PktGo f q 0x0A k s → q.val < 8 →
    let g := fldN k.arg0.toNat 0 5
    (portOf g ≠ f.val ∨ s.fnOn g = false ∨ isPf g = true ∧ g ≠ f.val → Completes (.jobAssign f q) s fun t =>
      Ended k 0x03 0 0 s t ∧ PktOnly [] s t) ∧
    (portOf g = f.val → s.fnOn g = true → isPf g = false ∨ g = f.val → Completes (.jobAssign f q) s fun t =>
      Ended k 0 0 0 s t ∧ t.jobSt q.val = .assigned ∧ t.owner q.val = g ∧ t.axis q.val = 0 ∧ (∀ c, c < 512 → t.mc q.val c = 0) ∧
      t.registeredAll q.val = [] ∧ t.regF pgSCH (0x210 + 0x40 * q.val) 0 10 = 0 ∧
      (∀ g', g' < 32 → SMap.find t.sch.lastSeq (8 * g' + q.val) = none) ∧
      (∀ j, j < 8 → j ≠ q.val → t.jobSt j = s.jobSt j ∧ t.owner j = s.owner j ∧ t.axis j = s.axis j) ∧ t.sch.ops = s.sch.ops ∧
      (∀ a, memGet t.mem.hbm a =
        if s.hbmBase q.val ≤ a ∧ a < s.hbmBase q.val + s.hbmSize q.val then memByte a else memGet s.mem.hbm a) ∧ t.mem.lp = s.mem.lp ∧
      OnlyIn ([.sch, .regs] ++ pktParts) s t)) ∧
  (∀ (f : Func) (q : PktJob) (k : Pkt) (s : State), PktGo f q 0x0B k s → Completes (.jobStart f q) s fun t =>
    Ended k 0 0 0 s t ∧ t.jobSt q.val = .running ∧ (∀ j, j ≠ q.val → t.jobSt j = s.jobSt j) ∧
    t.regs = (if bit (s.reg pgSW 0x320) 31 = true then (s.setReg pgSW 0x320 (setBit (s.reg pgSW 0x320) 31 false)).regs else s.regs) ∧
    PktOnly [.regs] s t) ∧
  (∀ (f : Func) (q : PktJob) (k : Pkt) (s : State), PktGo f q 0x0C k s → ∀ h : q.val < 8,
    let u := (quiesceJob ⟨q.val, h⟩ (pktNow k s)).2
    Completes (.jobQuiesce f q) s fun t =>
      Ended k 0 (s.jobOps q.val).length 0 s t ∧ t.jobSt q.val = .assigned ∧
      (∀ j, j ≠ q.val → t.jobSt j = s.jobSt j) ∧ t.host.owner = s.host.owner ∧ PktOnly [] u t ∧
      PktOnly [.sch, .vat, .eng, .gc, .sheet, .ring, .outer, .fab, .line, .regs] s t) ∧
  ∀ (f : Func) (q : PktJob) (k : Pkt) (s : State), PktGo f q 0x0D k s →
    (s.jobHolds q.val = true ∨ s.grantsZero q.val = false → Completes (.jobRelease f q) s fun t =>
      Ended k 0x04 0 0 s t ∧ PktOnly [] s t) ∧
    (s.jobHolds q.val = false → s.grantsZero q.val = true → Completes (.jobRelease f q) s fun t =>
      Ended k 0 0 0 s t ∧ t.jobSt q.val = .free ∧ (∀ j, j ≠ q.val → t.jobSt j = s.jobSt j ∧ t.owner j = s.owner j) ∧
      PktOnly [] s t)

/-- ATTEST (12 R327), TIME_SEND (13 R340), LAUNCH (13 R341, R342), CAPTURE_DUMP (09 R257), COMPLETION_RECORD (R382), CQ_HEAD_WRITE,
CQ_CTL_WRITE, CQ_IRQ_TIMER (R385), FLR, PCIE_LINK_DOWN, PERST_N_ASSERT and VF_DISABLE (R387, 19 R451). -/
def Obligations.ReportsRingsAndResets : Prop :=
  (∀ (f : Func) (q : PktJob) (no : Bool) (k : Pkt) (s : State), PktGo f q 0x0E k s → Completes (.attest f q no) s fun t =>
    (no = false → Ended k 0 3469 0 s t ∧ .dma f k.target.toNat (s.attestReport k.payload) false ∈ t.out) ∧
    (no = true → Ended k 0x0A 0 0 s t) ∧ PktOnly [] s t) ∧
  (∀ (f : Func) (q : PktJob) (k : Pkt) (s : State), PktGo f q 0x0F k s → Completes (.timeSend f q) s fun t =>
    let a := k.arg0.toNat
    Ended k 0 0 0 s t ∧ (∀ r, r < 2 → ∃ m : ProtMsg, (t.port r).protQ = (s.port r).protQ ++
      [(m, if fldN a 32 1 = 1 then some (fldN a 16 16) else none)] ∧ m.dst = BitVec.ofNat 16 a ∧ m.kind = 2 ∧ m.body = k.payload) ∧
    PktOnly [.line] s t) ∧
  (∀ (f : Func) (q : PktJob) (k : Pkt) (s : State), PktGo f q 0x10 k s →
    let a := k.arg0.toNat
    let m := fldN a 32 5
    (s.macUp m = false → Completes (.launch f q) s fun t =>
      Passed k s t ∧ HasRecord k 0x27 0 0 t ∧ t.time = s.time ∧ PktOnly [] s t) ∧
    (s.macUp m = true → 8 ≤ (s.launchesOf m).length → Completes (.launch f q) s fun t => Ended k 0x06 0 0 s t ∧ PktOnly [] s t) ∧
    (s.macUp m = true → (s.launchesOf m).length < 8 → Completes (.launch f q) s fun t =>
      Passed k s t ∧ (∃ x : Launch, t.launchesOf m = s.launchesOf m ++ [x] ∧ x.t = loW k.arg0 ∧ x.frame = k.payload ∧ x.f = f.val ∧
        x.r.seq = k.seq ∧ x.r.tag = k.tag ∧ x.r.slot = some k.slot ∧ x.tsid = (if fldN a 40 1 = 1 then some (fldN a 48 16) else none)) ∧
      (∀ n, n ≠ m → t.launchesOf n = s.launchesOf n) ∧ PktOnly [.time] s t)) ∧
  (∀ (f : Func) (q : PktJob) (no : Bool) (k : Pkt) (s : State), PktGo f q 0x11 k s →
    let i := k.arg0.toNat
    let n := k.arg1.toNat
    let data := (List.range n).flatMap fun r => capRecord s (i + r)
    let oldest := (s.fab.capW + capRing - s.fab.capHeld) % capRing
    let skip := (oldest + capRing - i % capRing) % capRing
    Completes (.captureDump f q no) s fun t =>
      (no = false → Ended k 0 n 0 s t ∧ .dma f k.target.toNat data true ∈ t.out) ∧ (no = true → Ended k 0x0A 0 0 s t) ∧
      t.fab.capHeld = (if skip < n then s.fab.capHeld - min s.fab.capHeld (n - skip) else s.fab.capHeld) ∧
      t.fab = { s.fab with capHeld := t.fab.capHeld } ∧ PktOnly [.fab] s t) ∧
  (∀ (f : Func) (no : Bool) (r : CRec) (rest : List CRec) (s : State), let x := s.fn f.val
    x.hold = r :: rest →
    (s.cqValid f.val = false ∨ s.cqSize f.val ≤ x.used → Completes (.completionRecord f no) s fun t => t = s) ∧
    (s.cqValid f.val = true → x.used < s.cqSize f.val → (∀ kv ∈ s.host.slots, kv.2.whole = false) →
      Completes (.completionRecord f no) s fun t =>
        (t.fn f.val).hold = rest ∧ (t.fn f.val).tail = (x.tail + 1) % s.cqSize f.val ∧ (t.fn f.val).used = x.used + 1 ∧
        (t.fn f.val).phase = (if x.tail + 1 = s.cqSize f.val then !x.phase else x.phase) ∧
        (∀ sl, r.slot = some sl → t.slot f.val sl = {}) ∧
        (no = false → .dma f ((s.reg64 (pgHOSTF f.val) 0x110).toNat + 32 * x.tail) (r.bytes x.phase) false ∈ t.out ∧
          let n := x.sinceIrq + 1
          let c := s.regF (pgHOSTF f.val) 0x124 0 16
          (t.fn f.val).sinceIrq = if c ≠ 0 ∧ c ≤ n then 0 else n) ∧
        PktOnly [] s t)) ∧
  (∀ (f : Func) (v : Word) (s : State), let p := pgHOSTF f.val
    s.allows (.func f) p 0x11C v = true → Completes (.cqHeadWrite (.func f) v) s fun t =>
      let x := s.taken (.func f) p 0x11C v
      let n := s.cqSize f.val
      t.regs = (s.setReg p 0x11C x).regs ∧ (t.fn f.val).used = ((s.fn f.val).tail + n - fld x 0 16 % n) % n ∧
      (t.fn f.val).hold = (s.fn f.val).hold ∧ OnlyIn [.host, .regs] s t) ∧
  (∀ (f : Func) (v : Word) (s : State), let p := pgHOSTF f.val
    s.allows (.func f) p 0x118 v = true →
    let x := s.taken (.func f) p 0x118 v
    (s.cqValid f.val = true → fld x 0 4 = s.regF p 0x118 0 4 → Completes (.cqCtlWrite (.func f) v) s fun t =>
      t.regs = (s.setReg p 0x118 (setBit (s.reg p 0x118) 31 (bit x 31))).regs ∧ OnlyIn [.regs] s t) ∧
    (s.cqValid f.val = true → fld x 0 4 ≠ s.regF p 0x118 0 4 → Completes (.cqCtlWrite (.func f) v) s fun t =>
      t.regs = (s.setReg p 0x118 (setBit (s.reg p 0x118) 31 (bit x 31))).regs ∧ (t.hdr p).errValid = true ∧
      OnlyIn [.pages, .regs] s t) ∧
    (s.cqValid f.val = false → bit x 31 = true → fld x 0 4 < 6 → Completes (.cqCtlWrite (.func f) v) s fun t =>
      Recorded (.func f) p .badRing 0x118 v s t ∧ OnlyIn [.pages] s t) ∧
    (s.cqValid f.val = false → bit x 31 = true → 6 ≤ fld x 0 4 → Completes (.cqCtlWrite (.func f) v) s fun t =>
      t.reg p 0x118 = x ∧ t.reg p 0x11C = 0 ∧ (t.fn f.val).tail = 0 ∧ (t.fn f.val).phase = true ∧ (t.fn f.val).used = 0 ∧
      (t.fn f.val).hold = (s.fn f.val).hold ∧ OnlyIn [.host, .regs] s t) ∧
    (s.cqValid f.val = false → bit x 31 = false → Completes (.cqCtlWrite (.func f) v) s fun t =>
      Stored (.func f) p 0x118 v [] s t)) ∧
  (∀ (f : Func) (s : State),
    ((s.fn f.val).sinceIrq ≠ 0 → s.regF (pgHOSTF f.val) 0x124 16 16 ≠ 0 → Completes (.cqIrqTimer f) s fun t =>
      (t.fn f.val).sinceIrq = 0 ∧
      t.out = s.out ++ [if (s.fn f.val).msixEn = true ∧ (s.fn f.val).fnMask = false ∧
          (SMap.get (fun _ => ({} : MsixEntry)) (s.fn f.val).msix 1).masked = false then .msix f 1 else .pba f 1] ∧
      OnlyIn [.host] s t) ∧
    ((s.fn f.val).sinceIrq = 0 → Completes (.cqIrqTimer f) s fun t => t = s)) ∧
  (∀ (c : Instr) (f : Func) (s : State),
    (c = .flr f ∨ (∃ p : Port, (c = .pcieLinkDown p ∨ c = .perstNAssert p) ∧ f.val = p.val ∧ s.host.linkUp.getD p.val false = true)) →
    Completes c s fun t =>
      (t.fn f.val).hold = [] ∧ (t.fn f.val).tail = 0 ∧ (t.fn f.val).used = 0 ∧ (∀ q, t.pktNext f.val q = 0) ∧
      (∀ k ∈ t.host.pkts, k.f ≠ f) ∧ (∀ sl, sl < 2048 → t.slot f.val sl = {}) ∧
      (∀ o, 0x100 ≤ o → o < 0x1000 → t.reg (pgHOSTF f.val) o = regDefault (regKey (pgHOSTF f.val) o 0)) ∧
      (∀ j : Job, s.jobSt j.val ≠ .free → (s.owner j.val = f.val ∨ isPf f.val = true ∧ portOf (s.owner j.val) = f.val) →
        t.jobSt j.val = .assigned) ∧
      (∀ j : Job, ¬ (s.owner j.val = f.val ∨ isPf f.val = true ∧ portOf (s.owner j.val) = f.val) →
        t.jobSt j.val = s.jobSt j.val) ∧
      (c ≠ .flr f → t.host.linkUp.getD f.val true = false) ∧
      (∀ m, (t.launchesOf m).map Launch.frame = (s.launchesOf m).map Launch.frame) ∧
      PktOnly [.sch, .vat, .eng, .gc, .sheet, .ring, .outer, .fab, .line, .time, .regs, .snaps, .halves] s t) ∧
  (∀ (p : Port) (s : State), s.host.linkUp.getD p.val false = false →
    Completes (.pcieLinkDown p) s (fun t => t = s) ∧ Completes (.perstNAssert p) s fun t => t = s) ∧
  ∀ (p : Port) (n : Fin 16) (s : State), let old := s.host.numVfs.getD p.val 0
    let gone (o : Nat) : Prop := isPf o = false ∧ portOf o = p.val ∧ vfNum p.val n.val < o
    (old ≤ n.val → Completes (.vfDisable p n) s fun t => t = s) ∧
    (n.val < old → Completes (.vfDisable p n) s fun t =>
      t.host.numVfs.getD p.val 16 = n.val ∧
      (∀ j : Job, s.jobSt j.val ≠ .free → gone (s.owner j.val) → t.jobSt j.val = .assigned ∧ t.owner j.val = p.val) ∧
      (∀ j : Job, s.jobSt j.val = .free ∨ ¬ gone (s.owner j.val) → t.jobSt j.val = s.jobSt j.val ∧ t.owner j.val = s.owner j.val) ∧
      PktOnly [.sch, .vat, .eng, .gc, .sheet, .ring, .outer, .fab, .line, .regs] s t)

/-! ## Resilience (16) -/

/-- HEARTBEAT_SEND (R391, R406), HEARTBEAT and LEASE_EXPIRY (R392), PORT_SF_HOLD and MGMT_HOLD_LIMIT (R394), PEER_FAIL and
PEER_CLEAR (R395), CLAIM (R407) and LEADER_JOIN_REQUEST (R402). -/
def Obligations.Leases : Prop :=
  (∀ (s : State), Completes .heartbeatSend s fun t =>
    t.mgmt.hbseq = s.mgmt.hbseq + 1 ∧
    (∀ i, i < 64 → s.peerValid i = true → (s.sess i).live = true ∨ (s.sess i).st = 4 → ∀ r, r < 2 → ∃ m : ProtMsg,
      (m, none) ∈ (t.port r).protQ ∧ m.dst = s.peerSeid i ∧ m.src = Config.seid ∧ m.kind = 3 ∧
      m.body = natLE 2 Config.seid.toNat ++ natLE 2 s.site ++ natLE 4 (s.mgmt.hbseq + 1).toNat ++ natLE 2 s.reach.toNat ++
        natLE 2 s.mgmt.health) ∧
    t.mgmt.peers = s.mgmt.peers ∧ t.mgmt.grps = s.mgmt.grps ∧ t.mgmt.sstate = s.mgmt.sstate ∧
    (s.mgmt.sstate ≠ 2 → t.mgmt.claimed = s.mgmt.claimed ∧ ∀ e b, Out.root e "CLAIM" b ∈ t.out → Out.root e "CLAIM" b ∈ s.out) ∧
    (s.mgmt.sstate = 2 → s.mgmt.claimed = false → (∃ i, i < 64 ∧ s.peerValid i = true) →
      (∀ i, i < 64 → s.peerValid i = true → (s.sess i).live = true) → t.mgmt.claimed = true ∧
        ∀ i, i < 64 → s.peerValid i = true → Out.root (s.peerSeid i) "CLAIM"
          (s.regF pgMGMT 0x138 0 16 :: identityDigest.map BitVec.toNat) ∈ t.out) ∧
    PktOnly [.line] s t) ∧
  (∀ (p : Port) (h : HeartMsg) (s : State),
    (s.peerIx h.seid.toNat = none → Completes (.heartbeat p h) s fun t => t = s) ∧
    ∀ i, s.peerIx h.seid.toNat = some i →
      let x := s.mpeer i
      let y : MPeer := { lease0 := x.lease0 || decide (p = 0), lease1 := x.lease1 || decide (p = 1), failed := x.failed
                         site := h.site.toNat, hbseq := h.hbseq, reach := h.reach, health := h.health
                         side := if x.up = true then x.side else h.reach }
      (x.up = true → Completes (.heartbeat p h) s fun t =>
        t.mpeer i = y ∧ (∀ k, k ≠ i → t.mpeer k = s.mpeer k) ∧ OnlyIn [.mgmt] s t) ∧
      (x.up = false → s.groupsWith h.seid = [] → Completes (.heartbeat p h) s fun t =>
        t.mpeer i = y ∧ (∀ k, k ≠ i → t.mpeer k = s.mpeer k) ∧ t.mgmt.lost.getLsbD h.site.toNat = false ∧
        (s.pageOff pgMGMT = false → Counted pgMGMT 0x804 1 s t) ∧ OnlyIn [.mgmt, .pages, .cnts] s t) ∧
      (x.up = false → ∀ g, s.groupsWith h.seid = [g] → s.fencedIn g h.seid = false → (s.grp g).st = .held →
        (s.mgrp g).running = false → (∀ q ∈ s.nbrPorts g, s.portSf q = false ∧ s.gtSeid g (s.nbrPos g q) = h.seid) →
        Completes (.heartbeat p h) s fun t => t.mpeer i = y ∧ (t.grp g).st = .up ∧
          OnlyIn [.sch, .vat, .eng, .gc, .sheet, .ring, .outer, .fab, .line, .ciph, .host, .pool, .mem, .mgmt, .pages, .cnts] s t)) ∧
  (∀ (i : Fin 64) (r : Port) (s : State), let x := s.mpeer i.val
    let y : MPeer := { x with lease0 := x.lease0 && decide (r ≠ 0), lease1 := x.lease1 && decide (r ≠ 1) }
    (x.up = false ∨ y.up = true → Completes (.leaseExpiry i r) s fun t =>
      t.mpeer i.val = y ∧ (∀ k, k ≠ i.val → t.mpeer k = s.mpeer k) ∧ OnlyIn [.mgmt] s t) ∧
    (x.up = true → y.up = false → Completes (.leaseExpiry i r) s fun t =>
      t.mpeer i.val = y ∧ (∀ k, k ≠ i.val → t.mpeer k = s.mpeer k) ∧
      (s.pageOff pgMGMT = false → t.cnt pgMGMT 0x800 = min (s.cnt pgMGMT 0x800 + 1) (cntMax pgMGMT 0x800) ∧
        bit (t.hdr pgMGMT).intStat 0 = true) ∧
      (∀ g, g < 64 → (t.grp g).st =
        if (s.grp g).st = .up ∧ g ∈ s.groupsWith (s.peerSeid i.val) ∧ s.neighbours g (s.peerSeid i.val) = true then .held
        else (s.grp g).st) ∧
      (x.site < 16 → (∀ k, k < 64 → s.peerValid k = true → (s.mpeer k).site = x.site → k = i.val ∨ (s.mpeer k).up = false) →
        t.mgmt.lost.getLsbD x.site = true) ∧
      OnlyIn [.ring, .host, .mgmt, .pages, .cnts] s t)) ∧
  (∀ (p : Port) (s : State),
    (s.portSf p.val = false → Completes (.portSfHold p) s fun t => t = s) ∧
    (s.portSf p.val = true → Completes (.portSfHold p) s fun t =>
      (∀ g, g < 64 → (t.grp g).st =
        if (s.grp g).st = .up ∧ gtValid (s.gtCtl g) = true ∧ p.val ∈ s.nbrPorts g then .held else (s.grp g).st) ∧
      OnlyIn [.ring, .host, .mgmt, .pages, .cnts] s t)) ∧
  (∀ (g : Fin 64) (s : State), let m := s.mgrp g.val
    ((s.grp g.val).st ≠ .held ∨ m.running = true ∨ m.limitRaised = true → Completes (.mgmtHoldLimit g) s fun t => t = s) ∧
    ((s.grp g.val).st = .held → m.running = false → m.limitRaised = false → gtValid (s.gtCtl g.val) = true →
      Completes (.mgmtHoldLimit g) s fun t =>
        let u := raiseEv pgMGMT 0x80C 2 (updMgrp g.val (fun x => { x with limitRaised := true }) s)
        (s.pageOff pgMGMT = false → Raised pgMGMT 0x80C 2 s u) ∧
        (s.nbrLost g.val = true → Reconfigures g.val (s.cutNow s.portSf g.val) u t) ∧
        (∀ p, s.nbrLost g.val = false → (s.nbrPorts g.val).find? s.portSf = some p →
          Reconfigures g.val (some (s.cutAt g.val p)) u t) ∧
        (s.nbrLost g.val = false → (s.nbrPorts g.val).find? s.portSf = none →
          Reconfigures g.val (s.cutNow s.portSf g.val) u t))) ∧
  (∀ (w : Who) (v : Word) (c : Instr) (n : Nat) (s : State), let i := fld v 8 6
    (c = .peerFail w v ∧ n = 1 ∨ c = .peerClear w v ∧ n = 2) → s.allows w pgMGMT 0x108 (withCmd v 3 n) = true →
    (s.mgmt.busy = true → Completes c s fun t =>
      Recorded w pgMGMT .busyCmd 0x108 (withCmd v 3 n) s t ∧ OnlyIn [.pages] s t) ∧
    (s.mgmt.busy = false → s.peerValid i = false → Completes c s fun t => t.mgmt = { s.mgmt with status := 3 } ∧ OnlyIn [.mgmt] s t) ∧
    (s.mgmt.busy = false → s.peerValid i = true → s.groupsWith (s.peerSeid i) = [] → Completes c s fun t =>
      t.mpeer i = { s.mpeer i with failed := decide (n = 1) } ∧ (∀ k, k ≠ i → t.mpeer k = s.mpeer k) ∧ t.mgmt.status = 0 ∧
      OnlyIn [.mgmt] s t) ∧
    (∀ g, s.mgmt.busy = false → s.peerValid i = true → s.groupsWith (s.peerSeid i) = [g] → s.grpLive g = true →
      (n = 1 ∧ s.fencedIn g (s.peerSeid i) = false ∨ n = 2 ∧ s.fencedIn g (s.peerSeid i) = true ∧ (s.mpeer i).up = true) →
      Completes c s fun t =>
        let u := updMpeer i (fun y => { y with failed := decide (n = 1) }) s
        Reconfigures g (u.cutNow u.portSf g) u t ∧ (t.mpeer i).failed = decide (n = 1) ∧ t.mgmt.status = 0)) ∧
  (∀ (seid : BitVec 16) (d : List Word) (s : State), let ok := s.spareDigest seid.toNat (d.flatMap fun w => natLE 4 w.toNat)
    let dig := BitVec.ofNat 64 (digLow (d.flatMap fun w => natLE 4 w.toNat))
    (ok = false → Completes (.claim seid d) s fun t => t = s) ∧
    (∀ i, ok = true → s.peerIx seid.toNat = some i → s.groupsWith seid = [] → Completes (.claim seid d) s fun t =>
      t.mpeer i = { s.mpeer i with failed := false, holder := some dig } ∧ (∀ k, k ≠ i → t.mpeer k = s.mpeer k) ∧
      OnlyIn [.mgmt] s t) ∧
    (∀ i g, ok = true → s.peerIx seid.toNat = some i → s.groupsWith seid = [g] → s.grpLive g = true →
      Completes (.claim seid d) s fun t =>
        let u := updMpeer i (fun y => { y with failed := false, holder := some dig }) s
        Reconfigures g (u.cutNow u.portSf g) u t)) ∧
  ∀ (g : Fin 64) (q : Fin 16) (s : State), gtValid (s.gtCtl g.val) = true →
    (s.leaderPos g.val ≠ gtPos (s.gtCtl g.val) → Completes (.leaderJoinRequest g q) s fun t => t = s) ∧
    (s.leaderPos g.val = gtPos (s.gtCtl g.val) → s.grpLive g.val = true → Completes (.leaderJoinRequest g q) s fun t =>
      Reconfigures g.val (s.cutNow s.portSf g.val) s t)

/-- RECONF (R396, R401), RECONF_READY (R396), ADOPTION_SHEETS (R397) and EPOCH_NAK (R402). -/
def Obligations.Reconfiguration : Prop :=
  (∀ (g : Fin 64) (epoch : Word) (fn : BitVec 16) (cut : Option (BitVec 4)) (s : State), let c := s.gtCtl g.val
    let leader := s.lowSite g.val ((List.range (gtS c)).filter fun q => !fn.getLsbD q)
    (gtValid c = false ∨ s.grpLive g.val = false ∨ fn.getLsbD (gtPos c) = true → Completes (.reconf g epoch fn cut) s fun t => t = s) ∧
    (gtValid c = true → s.grpLive g.val = true → fn.getLsbD (gtPos c) = false →
      (epoch = s.grpEpoch g.val → Completes (.reconf g epoch fn cut) s fun t => t = s) ∧
      (epoch.toNat < (s.grpEpoch g.val).toNat → Completes (.reconf g epoch fn cut) s fun t =>
        (s.pageOff pgMGMT = false → Counted pgMGMT 0x81C 1 s t) ∧ t.ring = s.ring ∧ t.mgmt.grps = s.mgmt.grps ∧
        OnlyIn [.mgmt, .pages, .cnts] s t) ∧
      ((s.grpEpoch g.val).toNat < epoch.toNat → Completes (.reconf g epoch fn cut) s fun t =>
        (t.grp g.val).st = .held ∧ (t.mgrp g.val).epoch = epoch ∧ (t.mgrp g.val).fenced = fn ∧ (t.mgrp g.val).cut = cut ∧
        (t.mgrp g.val).chain = (decide (fn ≠ 0) || cut.isSome) ∧ (t.mgrp g.val).leader = leader ∧ (t.mgrp g.val).running = true ∧
        (t.mgrp g.val).adopt = [] ∧
        (leader ≠ gtPos c → ∃ ap : List Nat, Out.root (s.gtSeid g.val leader) "READY"
          ([(s.gtTag g.val).toNat, gtGroup c, epoch.toNat, gtPos c] ++ ap) ∈ t.out) ∧
        (leader = gtPos c → (SMap.find (t.mgrp g.val).ready (gtPos c)).isSome = true) ∧
        PktOnly [.sch, .vat, .eng, .gc, .sheet, .ring, .outer, .fab, .line] s t))) ∧
  (∀ (g : Fin 64) (pos : Fin 16) (ap : List DWord) (names : List (Option (Fin 16))) (s : State), let m := s.mgrp g.val
    let me := gtPos (s.gtCtl g.val)
    let run := (List.range (gtS (s.gtCtl g.val))).filter fun q => !m.fenced.getLsbD q
    (m.running = false ∨ m.adopt ≠ [] ∨ m.leader ≠ me ∧ pos.val ≠ m.leader → Completes (.reconfReady g pos ap names) s fun t => t = s) ∧
    (m.running = true → m.adopt = [] → m.leader = me → pos.val ∈ run → names = [] →
      (∃ q ∈ run, q ≠ pos.val ∧ SMap.find m.ready q = none) → Completes (.reconfReady g pos ap names) s fun t =>
        t.mgrp g.val = { m with ready := SMap.put pos.val ap m.ready } ∧ (∀ k, k ≠ g.val → t.mgrp k = s.mgrp k) ∧ OnlyIn [.mgmt] s t) ∧
    (m.running = true → m.adopt = [] → m.leader = me → pos.val ∈ run → names = [] →
      (∀ q ∈ run, q ≠ pos.val → (SMap.find m.ready q).isSome = true) → Completes (.reconfReady g pos ap names) s fun t =>
        (∀ q ∈ run, q ≠ me → ∃ l : List Nat, Out.root (s.gtSeid g.val q) "ADOPT"
          ([(s.gtTag g.val).toNat, gtGroup (s.gtCtl g.val), (s.grpEpoch g.val).toNat] ++ l) ∈ t.out) ∧
        OnlyIn [.sch, .gc, .ring, .outer, .line, .ciph, .host, .pool, .mem, .mgmt, .pages, .cnts] s t) ∧
    (m.running = true → m.adopt = [] → m.leader ≠ me → pos.val = m.leader →
      ((∀ r ∈ s.grpReams g.val, names.getD r none = none) → Completes (.reconfReady g pos ap names) s fun t =>
        (t.grp g.val).st = .up ∧ (t.mgrp g.val).running = false ∧ (t.mgrp g.val).ready = [] ∧ (t.mgrp g.val).adopt = [] ∧
        (s.pageOff pgMGMT = false → t.cnt pgMGMT 0x814 = min (s.cnt pgMGMT 0x814 + 1) (cntMax pgMGMT 0x814)) ∧
        (s.mgmt.sstate = 2 → t.mgmt.sstate = 3) ∧
        OnlyIn [.sch, .gc, .ring, .outer, .line, .ciph, .host, .pool, .mem, .mgmt, .pages, .cnts] s t) ∧
      (m.auth = none → ∀ r n, r ∈ s.grpReams g.val → names.getD r none = some n → n.val ≠ me →
        s.applied (gtJob (s.gtCtl g.val)) r < (ap.getD r 0).toNat → Completes (.reconfReady g pos ap names) s fun t =>
          r ∈ (t.mgrp g.val).adopt ∧ (t.mgrp g.val).adopted = [] ∧ (t.mgrp g.val).srcs = names ∧ (t.mgrp g.val).running = true ∧ (t.grp g.val).st = (s.grp g.val).st))) ∧
  (∀ (g : Fin 64) (r : Fin 1024) (blk : Nat) (epoch : Word) (th m v : List Word) (ap : DWord) (s : State),
    let j := gtJob (s.gtCtl g.val)
    let x := s.mgrp g.val
    let n := s.npad j r.val
    let len := min adoptBlk (n - blk * adoptBlk)
    let c := s.adoptArrs j r.val
    let l := s.adoptList j r.val
    let arrs := (if c.1.isSome = true then [th] else []) ++ (if c.2.1.isSome = true then [m.take len] else []) ++ [v.take len]
    let takes : Prop := x.running = true ∧ r.val ∈ x.adopt
    let forming : Prop :=
      ∃ e ∈ s.sch.ops, e.d.opcode = 11 ∧ e.d.job.val = j ∧ e.d.taskId = 3 ∧ e.d.mergeFn = 1 ∧ e.d.taskReam = r.val
    let done := SMap.get (fun _ => ([] : List Nat)) x.adopted r.val
    let u := forAll l.zipIdx (fun a t =>
      hbmWrite (a.1 + 4 * blk * adoptBlk) ((arrs.getD a.2 []).flatMap fun w => natLE 4 w.toNat) t) s
    (epoch ≠ s.grpEpoch g.val → Completes (.adoptionSheets g r blk epoch th m v ap) s fun t =>
      (s.pageOff pgRING = false → Raised pgRING 0x814 4 s t) ∧ OnlyIn [.host, .mgmt, .pages, .cnts] s t) ∧
    (epoch = s.grpEpoch g.val → x.srcs.getD r.val none = none → Completes (.adoptionSheets g r blk epoch th m v ap) s fun t => t = s) ∧
    ∀ src, epoch = s.grpEpoch g.val → x.srcs.getD r.val none = some src →
      (src.val = gtPos (s.gtCtl g.val) ∨ s.adoptBlks j r.val ≤ blk ∨ th.length ≠ len ∨ takes ∧ forming →
        Completes (.adoptionSheets g r blk epoch th m v ap) s fun t => t = s) ∧
      (src.val ≠ gtPos (s.gtCtl g.val) → blk < s.adoptBlks j r.val → th.length = len →
        (∀ i, i < l.length →
          let k := cwKey g.val (s.adoptHalf g.val src.val) 0
            (s.adoptRseq g.val (s.adoptHalf g.val src.val) r.val (blk * l.length + i))
          s.cwMem? k = none ∧ s.rx? k = none) →
        (¬ takes ∨ blk ∈ done → ¬ (takes ∧ forming) → Completes (.adoptionSheets g r blk epoch th m v ap) s fun t =>
          (t.mgrp g.val).adopt = x.adopt ∧ (t.mgrp g.val).adopted = x.adopted ∧
          PktOnly [.ring, .outer, .line, .ciph] s t) ∧
        (takes → ¬ forming → blk ∉ done → done.length + 1 < s.adoptBlks j r.val →
          Completes (.adoptionSheets g r blk epoch th m v ap) s fun t =>
            t.mem.hbm = u.mem.hbm ∧ t.mem.lp = s.mem.lp ∧ (t.mgrp g.val).adopt = x.adopt ∧
            (t.mgrp g.val).adopted = SMap.set (fun _ => []) r.val (blk :: done) x.adopted ∧
            OnlyIn [.ring, .outer, .line, .ciph, .host, .pool, .mem, .mgmt, .pages, .cnts] s t) ∧
        (takes → ¬ forming → blk ∉ done → s.adoptBlks j r.val ≤ done.length + 1 → x.adopt.erase r.val ≠ [] →
          Completes (.adoptionSheets g r blk epoch th m v ap) s fun t =>
            t.mem.hbm = (hbmWrite ((s.reamOf j r.val).base + 0x48) (natLE 8 ap.toNat) u).mem.hbm ∧ t.mem.lp = s.mem.lp ∧
            (t.mgrp g.val).adopt = x.adopt.erase r.val ∧ (t.mgrp g.val).running = true ∧
            (s.pageOff pgMGMT = false → t.cnt pgMGMT 0x818 = min (s.cnt pgMGMT 0x818 + 1) (cntMax pgMGMT 0x818)) ∧
            OnlyIn [.ring, .outer, .line, .ciph, .host, .pool, .mem, .mgmt, .pages, .cnts] s t) ∧
        (takes → ¬ forming → blk ∉ done → s.adoptBlks j r.val ≤ done.length + 1 → x.adopt.erase r.val = [] →
          Completes (.adoptionSheets g r blk epoch th m v ap) s fun t =>
            (t.grp g.val).st = .up ∧ (t.mgrp g.val).running = false ∧ (t.mgrp g.val).adopt = [] ∧
            (s.pageOff pgMGMT = false → t.cnt pgMGMT 0x818 = min (s.cnt pgMGMT 0x818 + 1) (cntMax pgMGMT 0x818) ∧
              t.cnt pgMGMT 0x814 = min (s.cnt pgMGMT 0x814 + 1) (cntMax pgMGMT 0x814)) ∧
            OnlyIn [.sch, .gc, .ring, .outer, .line, .ciph, .host, .pool, .mem, .mgmt, .pages, .cnts] s t))) ∧
  ∀ (g : Fin 64) (epoch : Word) (holder : BitVec 16) (dig : DWord) (s : State), let c := s.gtCtl g.val
    (gtValid c = false ∨ s.grpLive g.val = false ∨ epoch.toNat ≤ (s.grpEpoch g.val).toNat →
      Completes (.epochNak g epoch holder dig) s fun t => t = s) ∧
    (gtValid c = true → s.grpLive g.val = true → (s.grpEpoch g.val).toNat < epoch.toNat →
      Completes (.epochNak g epoch holder dig) s fun t =>
        if holder = Config.seid ∧ dig.toNat = digLow identityDigest then
          let others := (List.range (gtS c)).filter fun q => q ≠ gtPos c && s.memberRuns g.val q
          t.out = s.out ++ [.root (s.gtSeid g.val (s.lowSite g.val others)) "JOIN"
            [(s.gtTag g.val).toNat, gtGroup c, gtPos c]] ∧ OnlyIn [] s t
        else
          (t.grp g.val).st = .refused ∧ (t.grp g.val).reason = 6 ∧ (s.pageOff pgMGMT = false → Raised pgMGMT 0x820 4 s t) ∧
          OnlyIn [.ring, .line, .host, .mgmt, .pages, .cnts] s t)

/-- MIRROR_INTAKE (R403), MIRROR_REFRESH (R404), SPARE_MIRROR_REQUEST (R406), SPARE_READY (R405), TAKEOVER (R406),
MGMT_TAKEOVER_FAIL (R408), HEALTH_DECAY (R409), EXPEL_REQ, MGMT_EXPEL, MGMT_HEALTH_ALARM, EXPEL_RETRY, MGMT_EXPEL_LAPSED (R410),
MGMT_PORT_DOWN (R411) and MCC_RESEND (R453). -/
def Obligations.MirrorsAndSpares : Prop :=
  (∀ (j : Job) (epoch rseq : Word) (b : List Byte) (s : State),
    (s.planGrp j.val = none ∨ s.mirNream j.val = 0 → Completes (.mirrorIntake j epoch rseq b) s fun t => t = s) ∧
    ∀ g, s.planGrp j.val = some g → s.mirNream j.val ≠ 0 →
      (epoch ≠ s.grpEpoch g → Completes (.mirrorIntake j epoch rseq b) s fun t =>
        (s.pageOff pgMGMT = false → Counted pgMGMT 0x81C 1 s t) ∧ t.mgmt.intake = s.mgmt.intake ∧ OnlyIn [.mgmt, .pages, .cnts] s t) ∧
      (epoch = s.grpEpoch g →
        let c := rseq.toNat / 2 ^ 27
        let n := rseq.toNat / 2 % 2 ^ 26 - (s.grp g).nbase
        (SMap.get (fun _ => (0 : Word)) s.mgmt.mirNext (32 * j.val + c)).toNat = n → ∀ r i, s.mirPlace j.val g c n = some (r, i) →
          (SMap.get (fun _ => true) s.mgmt.mirValid (1024 * j.val + r) = false → Completes (.mirrorIntake j epoch rseq b) s fun t =>
            t.mgmt = { s.mgmt with mirNext := SMap.set (fun _ => (0 : Word)) (32 * j.val + c) (wd (n + 1)) s.mgmt.mirNext } ∧
            OnlyIn [.mgmt] s t) ∧
          (SMap.get (fun _ => true) s.mgmt.mirValid (1024 * j.val + r) = true → Completes (.mirrorIntake j epoch rseq b) s fun t =>
            SMap.get (fun _ => (0 : Word)) t.mgmt.mirNext (32 * j.val + c) = wd (n + 1) ∧ t.mgmt.intakeNo = s.mgmt.intakeNo + 1 ∧
            (∃ x ∈ t.mgmt.intake, x.key = s.mgmt.intakeNo ∧ x.job = j ∧ x.ream = r ∧ x.rseq = rseq ∧ x.sheets = cutSheets b.length b) ∧
            OnlyIn [.sch, .vat, .eng, .gc, .sheet, .ring, .fab, .line, .host, .pool, .mem, .mgmt, .pages, .regs, .cnts] s t))) ∧
  (∀ (w : Who) (v : Word) (s : State), s.allows w pgMGMT 0x108 (withCmd v 3 5) = true →
    (s.mgmt.busy = true → Completes (.mirrorRefresh (.cmd w v)) s fun t =>
      Recorded w pgMGMT .busyCmd 0x108 (withCmd v 3 5) s t ∧ OnlyIn [.pages] s t) ∧
    (s.mgmt.busy = false → Completes (.mirrorRefresh (.cmd w v)) s fun t =>
      t.mgmt.status = 0 ∧ ((∀ j, j < 8 → s.mirrorQp j = none) → t.mgmt = { s.mgmt with status := 0 } ∧ OnlyIn [.mgmt] s t) ∧
      OnlyIn [.fab, .host, .mgmt, .pages, .cnts] s t)) ∧
  (∀ (j : Job) (r : Fin 1024) (s : State),
    (s.nream j.val ≤ r.val ∨ s.mirrorQp j.val = none → Completes (.mirrorRefresh (.buddy j r)) s fun t => t = s) ∧
    (∀ k q, r.val < s.nream j.val → s.mirrorQp j.val = some k → SMap.find s.fab.qps k = some q →
      let a := s.adoptArrs j.val r.val
      let arr (o : Option Nat) : List Byte := match o with | some x => s.hbmRead x (4 * s.npad j.val r.val) | none => []
      Completes (.mirrorRefresh (.buddy j r)) s fun t =>
        (q.state = 3 → s.qp? q.qpn = some q →
          Out.rdma q.qpn q.copyVa.toNat q.copyKey (arr a.1 ++ arr a.2.1 ++ arr a.2.2) none ∈ t.out) ∧
        (s.pageOff pgMGMT = false → t.cnt pgMGMT 0x828 = min (s.cnt pgMGMT 0x828 + 1) (cntMax pgMGMT 0x828)) ∧
        t.mem = s.mem ∧ OnlyIn [.fab, .host, .mgmt, .pages, .cnts] s t)) ∧
  (∀ (j : Job) (r : Fin 1024) (th : List Word) (s : State), let p := plReam (s.mirReam j.val r.val)
    let o := s.mirNat p 0 8
    (s.mirNream j.val ≤ r.val → Completes (.mirrorRefresh (.arrive j r th [] [])) s fun t => t = s) ∧
    (r.val < s.mirNream j.val → Completes (.mirrorRefresh (.arrive j r th [] [])) s fun t =>
      SMap.get (fun _ => true) t.mgmt.mirValid (1024 * j.val + r.val) = true ∧
      (th ≠ [] → o ≠ 0 → s.mirIn j.val p o (4 * th.length) = true →
        t.mem = (mirWrite p o (th.flatMap fun w => natLE 4 w.toNat) s).mem) ∧
      (th = [] ∨ o = 0 ∨ s.mirIn j.val p o (4 * th.length) = false → t.mem = s.mem) ∧ OnlyIn [.mem, .mgmt] s t)) ∧
  (∀ (e : BitVec 16) (s : State),
    (s.regF pgMGMT 0x134 0 16 ≠ e.toNat ∨ s.fab.qps = [] → Completes (.spareMirrorRequest e) s fun t => t = s) ∧
    ∀ i q, s.regF pgMGMT 0x134 0 16 = e.toNat → s.fab.qps = [(i, q)] → i = qpIx q.qpn → q.role = 5 → q.dest = e.toNat →
      q.state = 3 → s.mirNream q.job.val = 1 →
      let p := plReam (s.mirReam q.job.val 0)
      let arr (f : Nat) : List Byte :=
        if s.mirNat p f 8 = 0 then [] else s.mirRead p (s.mirNat p f 8) (4 * s.mirNpad q.job.val 0)
      Completes (.spareMirrorRequest e) s fun t =>
        Out.rdma q.qpn q.copyVa.toNat q.copyKey (arr 0 ++ arr 8 ++ if p.optim = 2 then arr 0x18 else []) none ∈ t.out ∧ t.mem = s.mem ∧
        OnlyIn [.fab, .host, .mgmt, .pages, .cnts] s t) ∧
  (∀ (w : Who) (v : Word) (c : Instr) (n : Nat) (s : State), (c = .takeover w v ∧ n = 3 ∨ c = .spareReady w v ∧ n = 4) →
    s.allows w pgMGMT 0x108 (withCmd v 3 n) = true →
    (s.mgmt.busy = true → Completes c s fun t =>
      Recorded w pgMGMT .busyCmd 0x108 (withCmd v 3 n) s t ∧ OnlyIn [.pages] s t) ∧
    (s.mgmt.busy = false → (n = 3 ∧ s.spareReady = false ∨ n = 4 ∧ s.maySpare = false) → Completes c s fun t =>
      t.mgmt = { s.mgmt with status := 2 } ∧ OnlyIn [.mgmt] s t) ∧
    (s.mgmt.busy = false → n = 4 → s.maySpare = true → Completes c s fun t =>
      t.mgmt = { s.mgmt with status := 0, sstate := 1 } ∧ OnlyIn [.mgmt] s t) ∧
    (s.mgmt.busy = false → n = 3 → s.spareReady = true → Completes c s fun t =>
      t.mgmt.status = 0 ∧ t.mgmt.sstate = 2 ∧ t.mgmt.grantOpen = false ∧ t.mgmt.claimed = false ∧
      (s.pageOff pgMGMT = false → t.cnt pgMGMT 0x82C = min (s.cnt pgMGMT 0x82C + 1) (cntMax pgMGMT 0x82C)) ∧
      Out.root 0 "SPARE_REQUEST" [s.regF pgMGMT 0x138 0 16] ∈ t.out ∧
      Out.root (BitVec.ofNat 16 (s.regF pgMGMT 0x134 16 16)) "MIRROR_REQUEST" [s.regF pgMGMT 0x138 0 16] ∈ t.out ∧
      OnlyIn [.sch, .vat, .eng, .gc, .sheet, .ring, .fab, .line, .host, .pool, .mem, .mgmt, .pages, .cnts] s t)) ∧
  (∀ (s : State), Completes .healthDecay s fun t =>
    t.mgmt = { s.mgmt with health := s.mgmt.health / 2 } ∧ OnlyIn [.mgmt] s t) ∧
  (∀ (c : Instr) (o b : Nat) (s : State),
    (c = .mgmtTakeoverFail ∧ o = 0x830 ∧ b = 7 ∧ s.mgmt.sstate = 2 ∨ c = .mgmtExpel ∧ o = 0x838 ∧ b = 9 ∧ s.mgmt.expelAsked = true ∨
      c = .mgmtHealthAlarm ∧ o = 0x834 ∧ b = 8 ∧ s.mgmt.expelAsked = true) → Completes c s fun t =>
      (s.pageOff pgMGMT = false → Raised pgMGMT o b s t) ∧
      (c = .mgmtTakeoverFail → t.mgmt.sstate = 1 ∧ t.mgmt.expelAsked = s.mgmt.expelAsked) ∧
      (c ≠ .mgmtTakeoverFail → t.mgmt.expelAsked = false ∧ t.mgmt.expelDenied = decide (c = .mgmtHealthAlarm) ∧
        t.mgmt.sstate = s.mgmt.sstate) ∧
      t.mgmt.grps = s.mgmt.grps ∧ t.mgmt.peers = s.mgmt.peers ∧ OnlyIn [.host, .mgmt, .pages, .cnts] s t) ∧
  (∀ (e : BitVec 16) (s : State),
    (s.isSpare = false → Completes (.expelReq e) s fun t => t = s) ∧
    (s.isSpare = true → s.spareReady = false ∨ (∃ n, s.mgmt.lastGrant = some n ∧ (s.time.nt - n).toNat < 600000000000) →
      Completes (.expelReq e) s fun t => t.out = s.out ++ [.root e "EXPEL_DENY" []] ∧ OnlyIn [] s t) ∧
    (s.spareReady = true → (∀ n, s.mgmt.lastGrant = some n → 600000000000 ≤ (s.time.nt - n).toNat) →
      Completes (.expelReq e) s fun t =>
        t.mgmt.lastGrant = some s.time.nt ∧ t.mgmt.grantOpen = true ∧ Out.root e "EXPEL_GRANT" [] ∈ t.out ∧
        (s.pageOff pgMGMT = false → Raised pgMGMT 0x838 9 s t) ∧ OnlyIn [.host, .mgmt, .pages, .cnts] s t)) ∧
  (∀ (s : State),
    (s.mgmt.expelDenied = false → Completes .expelRetry s fun t => t = s) ∧
    (s.mgmt.expelDenied = true → s.thr ≠ 0 → s.thr ≤ s.mgmt.health → Completes .expelRetry s fun t =>
      t.mgmt = { s.mgmt with expelAsked := true, expelDenied := false } ∧
      t.out = s.out ++ [.root (BitVec.ofNat 16 (s.regF pgMGMT 0x130 0 16)) "EXPEL_REQ" [s.mgmt.health]] ∧ OnlyIn [.mgmt] s t) ∧
    (s.mgmt.expelDenied = true → s.thr = 0 ∨ s.mgmt.health < s.thr → Completes .expelRetry s fun t =>
      t.mgmt = { s.mgmt with expelDenied := false } ∧ t.out = s.out ∧ OnlyIn [.mgmt] s t)) ∧
  (∀ (s : State),
    (s.mgmt.grantOpen = false → Completes .mgmtExpelLapsed s fun t => t = s) ∧
    (s.mgmt.grantOpen = true → Completes .mgmtExpelLapsed s fun t =>
      t.mgmt = { s.mgmt with grantOpen := false } ∧ (s.pageOff pgMGMT = false → Counted pgMGMT 0x83C 1 s t) ∧
      OnlyIn [.mgmt, .pages, .cnts] s t)) ∧
  ∀ (p : Port) (b : List Byte) (s : State), s.pageOff pgMGMT = false →
    (Completes (.mgmtPortDown p) s fun t =>
      t.mgmt.portUp = vset s.mgmt.portUp p.val false ∧ Raised pgMGMT 0x840 10 s t ∧ OnlyIn [.host, .mgmt, .pages, .cnts] s t) ∧
    (s.mgmt.mcc.getD p.val 0 < 8 → Completes (.mccResend ⟨p, b⟩) s fun t =>
      t.mgmt = { s.mgmt with mcc := vset s.mgmt.mcc p.val (s.mgmt.mcc.getD p.val 0 + 1) } ∧ Counted pgMGMT 0x844 1 s t ∧
      (t.port p.val).mccQ = (s.port p.val).mccQ ++ [b] ∧ OnlyIn [.line, .mgmt, .pages, .cnts] s t) ∧
    (8 ≤ s.mgmt.mcc.getD p.val 0 → Completes (.mccResend ⟨p, b⟩) s fun t =>
      t.mgmt.mcc = vset s.mgmt.mcc p.val 0 ∧ Out.mgmtNet b ∈ t.out ∧ Raised pgMGMT 0x848 11 s t ∧ OnlyIn [.host, .mgmt, .pages, .cnts] s t)

/-! ## Clocks, power and boot (17) -/

/-- GATE and UNGATE (R420), RESET_ASSERT and RESET_RELEASE (R422), SET_SRC and CLK_SWITCH_HANG (R421), FORCE_SWITCH (R423). The
statuses of a fixed domain and of a domain that is not in reset are readings of Table 17.10 (log 124). -/
def Obligations.ClockDomains : Prop :=
  (∀ (w : Who) (v : Word) (c : Instr) (n : Nat) (s : State),
    (c = .gate w v ∧ n = 1 ∨ c = .ungate w v ∧ n = 2 ∨ c = .resetAssert w v ∧ n = 3 ∨ c = .resetRelease w v ∧ n = 4 ∨
      c = .forceSwitch w v ∧ n = 6 ∨ (∃ b, c = .setSrc w v b) ∧ n = 5) →
    s.allows w pgCLK 0x108 (withCmd v 4 n) = true →
    (s.clk.busy = true → Completes c s fun t =>
      Recorded w pgCLK .busyCmd 0x108 (withCmd v 4 n) s t ∧ OnlyIn [.pages] s t) ∧
    (s.clk.busy = false → fld v 8 5 ≤ 17 → domFixed (fld v 8 5) = true → n ≤ 4 ∨ fld v 16 2 ≤ 1 → Completes c s fun t =>
      t.clk = { s.clk with status := 4 } ∧ OnlyIn [.clk] s t) ∧
    (s.clk.busy = false → fld v 8 5 ≤ 17 → 5 ≤ n → 1 < fld v 16 2 → Completes c s fun t =>
      t.clk = { s.clk with status := 7 } ∧ OnlyIn [.clk] s t) ∧
    (s.clk.busy = false → 17 < fld v 8 5 → Completes c s fun t =>
      t.clk = { s.clk with status := 7 } ∧ OnlyIn [.clk] s t)) ∧
  (∀ (w : Who) (v : Word) (s : State), let d := fld v 8 5
    s.allows w pgCLK 0x108 (withCmd v 4 1) = true → s.clk.busy = false → d ≤ 17 → domFixed d = false →
    (s.domInUse d = true → Completes (.gate w v) s fun t => t.clk = { s.clk with status := 3 } ∧ OnlyIn [.clk] s t) ∧
    (∀ k, k ∈ domChildren d → s.domInUse d = false → (s.dom k).gated = false → Completes (.gate w v) s fun t =>
      t.clk = { s.clk with status := 2 } ∧ OnlyIn [.clk] s t) ∧
    (s.domInUse d = false → (∀ k, k ∈ domChildren d → (s.dom k).gated = true) → Completes (.gate w v) s fun t =>
      t.clk.status = 0 ∧ t.dom d = { s.dom d with gated := true } ∧ (∀ n, n < 18 → n ≠ d → t.dom n = s.dom n) ∧
      OnlyIn [.clk] s t)) ∧
  (∀ (w : Who) (v : Word) (s : State), let d := fld v 8 5
    s.allows w pgCLK 0x108 (withCmd v 4 2) = true → s.clk.busy = false → d ≤ 17 → domFixed d = false →
    ((s.dom (domParent d)).gated = true → Completes (.ungate w v) s fun t =>
      t.clk = { s.clk with status := 2 } ∧ OnlyIn [.clk] s t) ∧
    ((s.dom (domParent d)).gated = false → Completes (.ungate w v) s fun t =>
      t.clk.status = 0 ∧ t.dom d = { s.dom d with gated := false } ∧ (∀ n, n < 18 → n ≠ d → t.dom n = s.dom n) ∧
      OnlyIn [.clk] s t)) ∧
  (∀ (w : Who) (v : Word) (s : State), let d := fld v 8 5
    s.allows w pgCLK 0x108 (withCmd v 4 3) = true → s.clk.busy = false → d ≤ 17 → domFixed d = false →
    (s.domInUse d = true → (s.dom d).hung = false → Completes (.resetAssert w v) s fun t =>
      t.clk = { s.clk with status := 3 } ∧ OnlyIn [.clk] s t) ∧
    (s.domInUse d = false ∨ (s.dom d).hung = true → Completes (.resetAssert w v) s fun t =>
      t.clk.status = 0 ∧ t.dom d = { s.dom d with inReset := true } ∧ (∀ n, n < 18 → n ≠ d → t.dom n = s.dom n) ∧
      (d = 12 ∨ d = 13 → ∀ k x, SMap.find s.vat.slots k = some x → k / 2048 = d - 12 →
        SMap.find t.vat.slots k = some { x with poisoned := true }) ∧
      (d < 16 → t.mem = s.mem) ∧ (d < 12 ∨ d > 13 → t.vat = s.vat ∧ OnlyIn [.sch, .mem, .clk] s t) ∧
      OnlyIn [.sch, .vat, .host, .mem, .mgmt, .clk, .pages, .cnts] s t)) ∧
  (∀ (w : Who) (v : Word) (s : State), let d := fld v 8 5
    s.allows w pgCLK 0x108 (withCmd v 4 4) = true → s.clk.busy = false → d ≤ 17 → domFixed d = false →
    ((s.dom d).inReset = false → Completes (.resetRelease w v) s fun t =>
      t.clk = { s.clk with status := 5 } ∧ OnlyIn [.clk] s t) ∧
    ((s.dom d).inReset = true → Completes (.resetRelease w v) s fun t =>
      t.clk.status = 0 ∧ (t.dom d).inReset = false ∧ (∀ n, n < 18 → n ≠ d → t.dom n = s.dom n) ∧
      (∀ p, p < 40 → pgDom p = d →
        t.hdr p = { hdrDefault p with locked := (s.hdr p).locked } ∧ (∀ o, o < 0x1000 → t.cnt p o = 0)) ∧
      (∀ p, p < 72 → (40 ≤ p ∨ pgDom p ≠ d) → t.hdr p = s.hdr p ∧ ∀ o, o < 0x1000 → t.cnt p o = s.cnt p o) ∧
      OnlyIn [.vat, .eng, .gc, .sheet, .fab, .line, .ciph, .mem, .clk, .pages, .regs, .cnts, .snaps, .halves] s t)) ∧
  (∀ (w : Who) (v : Word) (b : Bool) (s : State), let d := fld v 8 5
    s.allows w pgCLK 0x108 (withCmd v 4 5) = true → s.clk.busy = false → d ≤ 17 → domFixed d = false →
    (fld v 16 2 ≤ 1 → b = false → (s.dom d).hung = false → Completes (.setSrc w v b) s fun t =>
      t.clk.status = 0 ∧ t.clk.busy = false ∧ t.dom d = { s.dom d with byp := decide (fld v 16 2 = 1) } ∧
      (∀ n, n < 18 → n ≠ d → t.dom n = s.dom n) ∧ OnlyIn [.clk] s t) ∧
    (fld v 16 2 ≤ 1 → b = true ∨ (s.dom d).hung = true → Completes (.setSrc w v b) s fun t =>
      t.clk.busy = true ∧ t.clk.hang = some (d, decide (fld v 16 2 = 1)) ∧ t.dom d = { s.dom d with switching := true } ∧
      (∀ n, n < 18 → n ≠ d → t.dom n = s.dom n) ∧ OnlyIn [.clk] s t)) ∧
  (∀ (d : Nat) (x : Bool) (s : State), s.clk.hang = some (d, x) → d < 18 → Completes .clkSwitchHang s fun t =>
    t.clk.busy = false ∧ t.clk.hang = none ∧ t.clk.status = 8 ∧ t.dom d = { s.dom d with switching := false, hung := true } ∧
    (∀ n, n < 18 → n ≠ d → t.dom n = s.dom n) ∧ (s.pageOff pgCLK = false → Raised pgCLK 0x808 2 s t) ∧
    OnlyIn [.host, .mgmt, .clk, .pages, .cnts] s t) ∧
  ∀ (w : Who) (v : Word) (s : State), let d := fld v 8 5
    s.allows w pgCLK 0x108 (withCmd v 4 6) = true → s.clk.busy = false → d ≤ 17 → domFixed d = false →
    ((s.dom d).inReset = false → fld v 16 2 ≤ 1 → Completes (.forceSwitch w v) s fun t =>
      t.clk = { s.clk with status := 5 } ∧ OnlyIn [.clk] s t) ∧
    ((s.dom d).inReset = true → fld v 16 2 ≤ 1 → Completes (.forceSwitch w v) s fun t =>
      t.clk.status = 0 ∧ t.dom d = { s.dom d with byp := decide (fld v 16 2 = 1), hung := false } ∧
      (∀ n, n < 18 → n ≠ d → t.dom n = s.dom n) ∧ OnlyIn [.clk] s t)

/-- SUPERVISOR_WINDOW (R416, R417), REF_SELECT (R419), CLK_NMI_WRITE (R418), FM_GO and CLK_FM_DONE (R425), FM_OUT_CLAIM (R426). -/
def Obligations.ClockSources : Prop :=
  (∀ (c : SrcCounts) (s : State), s.pwr.st = .on → Completes (.supervisorWindow c) s fun t =>
    (∀ i, i < 7 → inBand i (SrcCounts.of c i) = true → t.clk.badRun.getD i 0 = 0 ∧
      t.clk.goodRun.getD i 0 = min 1000 (s.clk.goodRun.getD i 0 + 1) ∧
      t.clk.good.getLsbD i = (s.clk.good.getLsbD i || decide (1000 ≤ s.clk.goodRun.getD i 0 + 1))) ∧
    (∀ i, i < 7 → inBand i (SrcCounts.of c i) = false → t.clk.goodRun.getD i 0 = 0 ∧
      (SrcCounts.sure c i = false → t.clk.badRun.getD i 0 = 0 ∧ t.clk.good.getLsbD i = s.clk.good.getLsbD i) ∧
      (SrcCounts.sure c i = true → t.clk.badRun.getD i 0 = min 2 (s.clk.badRun.getD i 0 + 1) ∧
        t.clk.good.getLsbD i = (s.clk.good.getLsbD i && decide (s.clk.badRun.getD i 0 + 1 < 2)))) ∧
    (∀ i, i < 2 → s.clk.ref = i → inBand i (SrcCounts.of c i) = false → SrcCounts.sure c i = true → s.clk.good.getLsbD i = true →
      1 ≤ s.clk.badRun.getD i 0 → t.clk.ref = 2 ∧ bit t.clk.nmi 0 = true) ∧
    ((∀ i, i < 2 → inBand i (SrcCounts.of c i) = true) → t.clk.ref = s.clk.ref ∧ t.clk.nmi = s.clk.nmi) ∧
    t.clk.doms = s.clk.doms ∧ OnlyIn [.host, .mgmt, .clk, .pages, .cnts] s t) ∧
  (∀ (w : Who) (v : Word) (s : State), s.allows w pgCLK 0x108 (withCmd v 4 7) = true → s.clk.busy = false → fld v 8 5 ≤ 17 →
    (1 < fld v 16 2 → Completes (.refSelect w v) s fun t => t.clk = { s.clk with status := 7 } ∧ OnlyIn [.clk] s t) ∧
    (fld v 16 2 ≤ 1 → s.clk.good.getLsbD (fld v 16 2) = false → Completes (.refSelect w v) s fun t =>
      t.clk = { s.clk with status := 6 } ∧ OnlyIn [.clk] s t) ∧
    (fld v 16 2 ≤ 1 → s.clk.good.getLsbD (fld v 16 2) = true → Completes (.refSelect w v) s fun t =>
      t.clk = { s.clk with status := 0, ref := fld v 16 2 } ∧ OnlyIn [.clk] s t)) ∧
  (∀ (w : Who) (v : Word) (s : State), s.allows w pgCLK 0x110 v = true → Completes (.clkNmiWrite w v) s fun t =>
    let x := s.taken w pgCLK 0x110 v
    t.clk = { s.clk with nmi := s.clk.nmi &&& ~~~ x } ∧
    (s.clk.nmi ≠ 0 → s.clk.nmi &&& ~~~ x = 0 → s.pwr.faultHeld = false → t.out = s.out ++ [.pin "FAULT_N" true]) ∧
    (s.clk.nmi &&& ~~~ x ≠ 0 → t.out = s.out) ∧ OnlyIn [.clk] s t) ∧
  (∀ (w : Who) (v : Word) (s : State), s.allows w pgCLK 0x180 (withBit v 31 true) = true →
    let x := s.taken w pgCLK 0x180 (withBit v 31 true)
    (fmTargetOk (fld x 0 5) = false → Completes (.fmGo w v) s fun t =>
      Recorded w pgCLK .rsvdEnc 0x180 (withBit v 31 true) s t ∧ OnlyIn [.pages] s t) ∧
    (fmTargetOk (fld x 0 5) = true → s.clk.fmGo = false → Completes (.fmGo w v) s fun t =>
      t.clk = { s.clk with fmGo := true, fmFail := false, fmDone := s.clk.fmDone && !bit x 30 } ∧
      t.regs = (s.setReg pgCLK 0x180 (x &&& 0x31F)).regs ∧ OnlyIn [.clk, .regs] s t)) ∧
  (∀ (n : BitVec 64) (bad : Bool) (s : State), s.clk.fmGo = true → Completes (.clkFmDone n bad) s fun t =>
    t.clk = { s.clk with fmGo := false, fmDone := true, fmFail := bad, fmCount := if bad then 0 else n } ∧
    (s.pageOff pgCLK = false → Raised pgCLK 0x80C 3 s t) ∧ OnlyIn [.host, .mgmt, .clk, .pages, .cnts] s t) ∧
  ∀ (w : Who) (v : Word) (s : State), s.allows w pgCLK 0x190 v = true →
    let x := s.taken w pgCLK 0x190 v
    (bit x 31 = true → s.time.ioOwner = 1 → Completes (.fmOutClaim w v) s fun t =>
      Recorded w pgCLK .owned 0x190 v s t ∧ t.time.ioOwner = 1 ∧ t.clk = s.clk ∧ OnlyIn [.time, .pages] s t) ∧
    (bit x 31 = true → s.time.ioOwner ≠ 1 → Completes (.fmOutClaim w v) s fun t =>
      t.time = { s.time with ioOwner := 2, ioRefused := false } ∧ t.clk = { s.clk with fmClaim := true } ∧
      t.regs = (s.setReg pgCLK 0x190 x).regs ∧ OnlyIn [.time, .clk, .regs] s t) ∧
    (bit x 31 = false → Completes (.fmOutClaim w v) s fun t =>
      t.time = { s.time with ioOwner := if s.time.ioOwner = 2 then 0 else s.time.ioOwner } ∧
      t.clk = { s.clk with fmClaim := false } ∧ t.regs = (s.setReg pgCLK 0x190 x).regs ∧ OnlyIn [.time, .clk, .regs] s t)

/-- INPUT_RISE, INPUT_LOSS, ENABLE_RISE (R427), ENABLE_FALL (R428), POWER_FAULT (R429), and the PMBus commands of Table 17.6 (R430).
The PMBus status bits are PMBus's own (log 48); readings in ON are open (log 49). -/
def Obligations.PowerAndPmbus : Prop :=
  (∀ (mv : Nat) (a : BitVec 3) (s : State), s.pwr.st = .off → 38000 < mv → Completes (.inputRise mv a) s fun t =>
    t.pwr = { s.pwr with st := .standby, addr := a } ∧ OnlyIn [.pwr] s t) ∧
  (∀ (s : State), s.pwr.st ≠ .off → Completes .inputLoss s fun t =>
    t.pwr.st = .off ∧ t.pwr.rails = 0 ∧ t.pwr.word = 0 ∧ t.pwr.enable = s.pwr.enable ∧ t.regs = [] ∧ t.cnts = [] ∧
    t.sch = {} ∧ t.mem = {} ∧ t.boot.ledger = s.boot.ledger ∧ t.boot.cfgRec = s.boot.cfgRec ∧ t.opt.flash = s.opt.flash ∧
    t.pending = s.pending) ∧
  (∀ (mv : Nat) (s : State), s.pwr.st = .standby →
    (40000 ≤ mv → mv ≤ 59500 → Completes (.enableRise mv) s fun t =>
      t.pwr.st = .on ∧ t.pwr.enable = true ∧ t.boot.step = 1 ∧ t.boot.done = 0 ∧ t.boot.bootNo = s.boot.bootNo + 1 ∧
      (t.boot.ledger.take 1).map (fun x => (x.bootNo, x.step, x.kind)) = [(s.boot.bootNo + 1, 1, 1)] ∧ t.regs = [] ∧ t.sch = {} ∧
      t.opt.flash = s.opt.flash ∧ t.pending = s.pending) ∧
    (mv < 40000 → Completes (.enableRise mv) s fun t =>
      t.pwr = { s.pwr with enable := true, stInput := s.pwr.stInput ||| 0x10 } ∧ OnlyIn [.pwr] s t) ∧
    (59500 < mv → Completes (.enableRise mv) s fun t =>
      t.pwr = { s.pwr with enable := true, stInput := s.pwr.stInput ||| 0x80 } ∧ OnlyIn [.pwr] s t)) ∧
  (∀ (s : State), s.pwr.st = .on ∨ s.pwr.st = .fault → Completes .enableFall s fun t =>
    t.pwr.st = .standby ∧ t.pwr.enable = false ∧ t.pwr.rails = 0 ∧ t.regs = [] ∧ t.sch = {} ∧ t.mem = {} ∧
    t.boot.ledger = s.boot.ledger ∧ t.pwr.faultHeld = false ∧
    (s.faultN = true → t.out = s.out ++ [.reset, .pin "FAULT_N" true]) ∧ (s.faultN = false → t.out = s.out ++ [.reset]) ∧
    t.pending = s.pending) ∧
  (∀ (k : PwrFault) (s : State), s.pwr.st = .on →
    (k = .uvWarn → Completes (.powerFault k) s fun t =>
      t.pwr = { s.pwr with stInput := s.pwr.stInput ||| 0x20 } ∧ (s.pageOff pgPWR = false → Raised pgPWR 0x800 0 s t) ∧
      OnlyIn [.host, .mgmt, .pwr, .pages, .cnts] s t) ∧
    (k = .thermWarn → Completes (.powerFault k) s fun t =>
      t.pwr = { s.pwr with stTemp := s.pwr.stTemp ||| 0x40 } ∧ (s.pageOff pgPWR = false → Raised pgPWR 0x804 1 s t) ∧
      OnlyIn [.host, .mgmt, .pwr, .pages, .cnts] s t) ∧
    (k ≠ .uvWarn → k ≠ .thermWarn → Completes (.powerFault k) s fun t =>
      t.pwr.st = .fault ∧ t.pwr.faultHeld = true ∧ t.pwr.rails = 0 ∧
      (∃ r : LedRec, t.boot.ledger.head? = some r ∧ r.kind = 3 ∧ r.bootNo = s.boot.bootNo) ∧
      (k = .thermShut → fldN t.pwr.stTemp 7 1 = 1) ∧ (k = .uv → fldN t.pwr.stInput 4 1 = 1) ∧
      (k = .ov → fldN t.pwr.stInput 7 1 = 1) ∧ (k = .oc → fldN t.pwr.stInput 2 1 = 1) ∧
      t.regs = [] ∧ t.sch = {} ∧ t.pending = s.pending)) ∧
  (∀ (s : State), s.pwr.st ≠ .off → Completes .clearFaults s fun t =>
    t.pwr = { s.pwr with cml := false, stInput := 0, stTemp := 0 } ∧ t.pwr.word = 0 ∧
    (s.pwr.word ≠ 0 → t.out = s.out ++ [.pin "PMB_ALERT_N" true]) ∧ (s.pwr.word = 0 → t.out = s.out) ∧ OnlyIn [.pwr] s t) ∧
  (∀ (c : Byte) (s : State), s.pwr.st ≠ .off → c.toNat ∉ pmbCodes → Completes (.pmbusUnsupported c) s fun t =>
    t.pwr = { s.pwr with cml := true } ∧ OnlyIn [.pwr] s t) ∧
  (∀ (c : Instr) (code : Nat) (data : List Byte) (s : State), s.pwr.st ≠ .off →
    (c = .statusWord ∧ code = 0x79 ∧ data = natLE 2 s.pwr.word ∨ c = .statusInput ∧ code = 0x7C ∧ data = natLE 1 s.pwr.stInput ∨
      c = .statusTemperature ∧ code = 0x7D ∧ data = natLE 1 s.pwr.stTemp ∨ c = .pmbusRevision ∧ code = 0x98 ∧ data = [0x44] ∨
      c = .mfrId ∧ code = 0x99 ∧ data = 7 :: "FELWICK".toList.map (fun x => BitVec.ofNat 8 x.toNat) ∨
      c = .mfrModel ∧ code = 0x9A ∧ data = 10 :: "FM-TS9-M1A".toList.map (fun x => BitVec.ofNat 8 x.toNat)) →
    Completes c s fun t => t.out = s.out ++ [.pmbus code data] ∧ OnlyIn [] s t) ∧
  ∀ (c : Instr) (code : Nat) (s : State), s.pwr.st ≠ .off →
    (c = .readVin ∧ code = 0x88 ∨ c = .readIin ∧ code = 0x89 ∨ c = .readTemperature1 ∧ code = 0x8D ∨
      c = .readTemperature2 ∧ code = 0x8E ∨ c = .readPin ∧ code = 0x97) →
    Completes c s fun t =>
      (s.pwr.st = .on → t.out = s.out ++ [.pmbus code (natLE 2 (s.draw.1.toNat % 2 ^ 16))]) ∧
      (s.pwr.st ≠ .on → t.out = s.out ++ [.pmbus code [0, 0]]) ∧ OnlyIn [] s t

/-- BOOT_STEP_DONE, BOOT_WATCHDOG, BOOT_RESTART (R431, R432), CLEAR_ALT (R433), CFG_SAVE (R434), RECOVER (R435), LOAD, ABORT,
BAR2_IMAGE_WRITE and FLASH_PROGRAM_DONE (R436). -/
def Obligations.Boot : Prop :=
  (∀ (r : BootResult) (s : State), s.stepRuns = true → 1 ≤ s.boot.step → s.boot.step ≤ 12 →
    let accepted := ∀ i, s.boot.running = some i → Config.imageVerifies i = true ∧ Config.minSvn ≤ Config.imageSvn i
    (r.ok = true → (s.boot.step = 3 → accepted) → Completes (.bootStepDone r) s fun t =>
      t.boot.done = s.boot.done ||| BitVec.ofNat 12 (2 ^ (s.boot.step - 1)) ∧ t.boot.stopped = false ∧
      (∀ n, nextStep s.boot.recovery s.boot.step = some n → t.boot.step = n ∧ t.pwr.rails = s.pwr.rails + stepRail n ∧
        (t.boot.ledger.take 2).map (fun x => (x.bootNo, x.step, x.kind)) =
          [(s.boot.bootNo, n, 1), (s.boot.bootNo, s.boot.step, 2)]) ∧
      (nextStep s.boot.recovery s.boot.step = none → t.boot.step = s.boot.step ∧
        (t.boot.ledger.take 1).map (fun x => (x.bootNo, x.step, x.kind, x.result, x.detail)) =
          [(s.boot.bootNo, s.boot.step, 2, r.result, r.detail)]) ∧
      (s.boot.step = 4 → s.boot.skip.getLsbD 3 = false → ∀ p, p < 72 → (t.hdr p).locked = true) ∧
      (s.boot.step = 5 → s.boot.skip.getLsbD 4 = false → s.clk.good.getLsbD (b2n (s.boot.alt.getLsbD 4)) = true →
        t.clk.ref = b2n (s.boot.alt.getLsbD 4))) ∧
    (r.ok = false ∨ s.boot.step = 3 ∧ ¬ accepted → Completes (.bootStepDone r) s fun t =>
      t.boot = { s.boot with stopped := true } ∧ OnlyIn [.pwr, .boot] s t)) ∧
  (∀ (s : State), s.stepRuns = true → Completes .bootWatchdog s fun t =>
    t.boot = { s.boot with stopped := true } ∧
    (s.boot.recovery = true → 5 ≤ s.boot.step → t.pwr.faultHeld = true) ∧
    (s.boot.recovery = false → t.pwr = s.pwr) ∧ OnlyIn [.pwr, .boot] s t) ∧
  (∀ (s : State), s.pwr.st = .on → s.boot.stopped = true → Completes .bootRestart s fun t =>
    t.boot.step = 1 ∧ t.boot.done = 0 ∧ t.boot.stopped = false ∧ t.boot.bootNo = s.boot.bootNo + 1 ∧ t.pwr.st = .on ∧
    (s.boot.hasRec s.boot.bootNo 12 2 = false → t.boot.fails = min 3 (s.boot.fails + 1)) ∧
    (3 ≤ s.boot.fails + 1 → s.boot.hasRec s.boot.bootNo 12 2 = false → t.boot.recovery = true) ∧
    t.regs = [] ∧ t.sch = {} ∧ t.boot.cfgRec = s.boot.cfgRec ∧ t.out = s.out ++ [.reset] ∧ t.pending = s.pending) ∧
  (∀ (w : Who) (v : Word) (c : Instr) (n : Nat) (s : State),
    (c = .clearAlt w v ∧ n = 1 ∨ c = .recover w v ∧ n = 2 ∨ c = .cfgSave w v ∧ n = 3 ∨ c = .load w v ∧ n = 4 ∨
      c = .abort w v ∧ n = 5) → s.allows w pgBOOT 0x108 (withCmd v 4 n) = true → s.boot.busy = true → Completes c s fun t =>
      Recorded w pgBOOT .busyCmd 0x108 (withCmd v 4 n) s t ∧ OnlyIn [.pages] s t) ∧
  (∀ (w : Who) (v : Word) (s : State), s.allows w pgBOOT 0x108 (withCmd v 4 1) = true → s.boot.busy = false →
    Completes (.clearAlt w v) s fun t =>
      t.boot = { s.boot with alt := 0, skip := 0, status := 0 } ∧ OnlyIn [.boot] s t) ∧
  (∀ (w : Who) (v : Word) (s : State), s.allows w pgBOOT 0x108 (withCmd v 4 2) = true → s.boot.busy = false →
    ((∀ j, j < 8 → s.jobSt j = .free) → Completes (.recover w v) s fun t =>
      t.boot.recovery = true ∧ t.boot.step = 1 ∧ t.boot.done = 0 ∧ t.boot.status = 0 ∧
      t.boot.bootNo = s.boot.bootNo + 1 ∧ t.regs = [] ∧ t.pending = s.pending) ∧
    (∀ j, j < 8 → s.jobSt j ≠ .free → Completes (.recover w v) s fun t =>
      t.boot = { s.boot with status := 2 } ∧ OnlyIn [.boot] s t)) ∧
  (∀ (w : Who) (v : Word) (s : State), s.allows w pgBOOT 0x108 (withCmd v 4 3) = true → s.boot.busy = false →
    Completes (.cfgSave w v) s fun t =>
      t.boot = { s.boot with cfgRec := s.regF pgBOOT 0x110 0 2, status := 0 } ∧ OnlyIn [.boot] s t) ∧
  (∀ (w : Who) (v : Word) (s : State), s.allows w pgBOOT 0x108 (withCmd v 4 4) = true → s.boot.busy = false →
    let len := s.regF pgBOOT 0x140 0 25
    let img := (List.range len).map fun i => SMap.get (fun _ => (0 : Byte)) s.boot.image i
    (s.inRecovery = false ∨ s.boot.loadOwner = none ∨ s.boot.loadOwner ≠ whoPort w → Completes (.load w v) s fun t =>
      t.boot = { s.boot with status := 2 } ∧ OnlyIn [.boot] s t) ∧
    (s.inRecovery = true → s.boot.loadOwner.isSome = true → s.boot.loadOwner = whoPort w → 1 ≤ len → len ≤ 0x1000000 →
      (Config.imageVerifies img = false → Completes (.load w v) s fun t =>
        t.boot = { s.boot with status := 0, loadStat := 2 } ∧ (s.pageOff pgBOOT = false → Raised pgBOOT 0x804 1 s t) ∧
        OnlyIn [.host, .mgmt, .boot, .pages, .cnts] s t) ∧
      (Config.imageVerifies img = true → Config.imageSvn img < Config.minSvn → Completes (.load w v) s fun t =>
        t.boot = { s.boot with status := 0, loadStat := 3 } ∧ (s.pageOff pgBOOT = false → Raised pgBOOT 0x804 1 s t) ∧
        OnlyIn [.host, .mgmt, .boot, .pages, .cnts] s t) ∧
      (Config.imageVerifies img = true → ¬ Config.imageSvn img < Config.minSvn → Completes (.load w v) s fun t =>
        t.boot = { s.boot with status := 0, loadStat := 1, busy := true, flashImage := some [] } ∧ OnlyIn [.boot] s t))) ∧
  (∀ (w : Who) (v : Word) (s : State), s.allows w pgBOOT 0x108 (withCmd v 4 5) = true → s.boot.busy = false →
    (s.boot.loadOwner.isSome = true → s.boot.loadOwner = whoPort w → Completes (.abort w v) s fun t =>
      t.boot = { s.boot with status := 0, loadOwner := none, loadStat := 0, image := [] } ∧ OnlyIn [.boot] s t) ∧
    (s.boot.loadOwner = none ∨ s.boot.loadOwner ≠ whoPort w → Completes (.abort w v) s fun t =>
      t.boot = { s.boot with status := 2 } ∧ OnlyIn [.boot] s t)) ∧
  (∀ (p : Port) (o : Nat) (b : List Byte) (s : State), s.inRecovery = true → s.boot.busy = false → b ≠ [] →
    o + b.length ≤ 0x1000000 → s.host.linkUp.getD p.val false = true →
    (s.boot.loadOwner = none ∨ s.boot.loadOwner = some p.val → Completes (.bar2ImageWrite p o b) s fun t =>
      t.boot = { s.boot with image := memWrite o b s.boot.image, loadOwner := some p.val } ∧ OnlyIn [.boot] s t) ∧
    (s.boot.loadOwner = some (1 - p.val) → Completes (.bar2ImageWrite p o b) s fun t => t = s)) ∧
  ∀ (s : State), s.boot.busy = true → s.boot.loadStat = 1 → Completes .flashProgramDone s fun t =>
    t.boot.flashImage = some ((List.range (s.regF pgBOOT 0x140 0 25)).map fun i => SMap.get (fun _ => (0 : Byte)) s.boot.image i) ∧
    t.boot.fails = 0 ∧ t.boot.recovery = false ∧ t.boot.step = 1 ∧ t.boot.busy = false ∧ t.pwr.st = .on ∧
    t.boot.bootNo = s.boot.bootNo + 1 ∧ t.out = s.out ++ [.reset] ∧ t.regs = [] ∧ t.pending = s.pending

end
end

