-- ==== Sys2Proof/Laws/Bits.lean ====
section
/-! SUPPORT. A fixed number of like things: what a place reads as after one place has been set or changed. -/
namespace Sys2Proof.Machine

open Sys2Proof

theorem vget_vmod {α : Type} {n : Nat} (v : Vector α n) (i j : Nat) (f : α → α) (d : α) (h : j < n) :
    (vmod v i f).getD j d = if j = i then f (v.getD j d) else v.getD j d := by
  unfold vmod
  split
  · by_cases e : j = i
    · subst e; simp [Vector.getD, h]
    · have : i ≠ j := fun x => e x.symm
      simp [Vector.getD, e, h, this]
  · have : ¬ j = i := by omega
    simp [this]

theorem vget_vset {α : Type} {n : Nat} (v : Vector α n) (i j : Nat) (a d : α) (h : j < n) :
    (vset v i a).getD j d = if j = i then a else v.getD j d := by
  unfold vset
  by_cases e : j = i
  · subst e; simp [Vector.getD, h]
  · have : i ≠ j := fun x => e x.symm
    simp [Vector.getD, e, h, this]

end Sys2Proof.Machine
end

