-- ==== Sys2Proof/Laws/SMap.lean ====
section
/-! SUPPORT. Laws of sparse maps: what a set, an erase and a filter leave to be read, and that they keep the canonical form. -/
namespace Sys2Proof.Machine

variable {V : Type}

/-! ## Reading -/

theorem SMap.get_erase_self (d : Nat → V) (k : Nat) (m : SMap V) : SMap.get d (SMap.erase k m) k = d k := by
  induction m with
  | nil => rfl
  | cons a m ih => simp only [SMap.erase]; split <;> simp_all [SMap.get]

theorem SMap.get_erase_ne (d : Nat → V) {k k' : Nat} (h : k' ≠ k) (m : SMap V) :
    SMap.get d (SMap.erase k m) k' = SMap.get d m k' := by
  induction m with
  | nil => rfl
  | cons a m ih =>
    simp only [SMap.erase]
    split
    · next e => subst e; simp [SMap.get, h, ih]
    · simp [SMap.get, ih]

theorem SMap.get_insert_self (d : Nat → V) (k : Nat) (v : V) {m : SMap V} (h : ∀ a ∈ m, a.1 ≠ k) :
    SMap.get d (SMap.insert k v m) k = v := by
  induction m with
  | nil => simp [SMap.insert, SMap.get]
  | cons a m ih =>
    have h1 : k ≠ a.1 := fun e => h a (by simp) e.symm
    have ih' := ih fun b hb => h b (by simp [hb])
    simp only [SMap.insert]; split <;> simp [SMap.get, h1, ih']

theorem SMap.get_insert_ne (d : Nat → V) {k k' : Nat} (v : V) (h : k' ≠ k) (m : SMap V) :
    SMap.get d (SMap.insert k v m) k' = SMap.get d m k' := by
  induction m with
  | nil => simp [SMap.insert, SMap.get, h]
  | cons a m ih => simp only [SMap.insert]; split <;> simp [SMap.get, h, ih]

theorem SMap.mem_erase {k : Nat} {m : SMap V} {a : Nat × V} : a ∈ SMap.erase k m ↔ a ∈ m ∧ a.1 ≠ k := by
  induction m with
  | nil => simp [SMap.erase]
  | cons b m ih =>
    simp only [SMap.erase]
    split
    · next e => subst e; rw [ih]; constructor
                · rintro ⟨x, y⟩; exact ⟨by simp [x], y⟩
                · rintro ⟨x, y⟩
                  rcases List.mem_cons.1 x with rfl | x
                  · exact absurd rfl y
                  · exact ⟨x, y⟩
    · next e =>
      simp only [List.mem_cons, ih]
      constructor
      · rintro (rfl | ⟨x, y⟩)
        · exact ⟨.inl rfl, fun h => e h.symm⟩
        · exact ⟨.inr x, y⟩
      · rintro ⟨rfl | x, y⟩
        · exact .inl rfl
        · exact .inr ⟨x, y⟩

theorem SMap.mem_insert {k : Nat} {v : V} {m : SMap V} {a : Nat × V} : a ∈ SMap.insert k v m ↔ a = (k, v) ∨ a ∈ m := by
  induction m with
  | nil => simp [SMap.insert]
  | cons b m ih =>
    simp only [SMap.insert]
    split
    · simp
    · simp only [List.mem_cons, ih]; constructor <;> (rintro (h | h | h) <;> simp [h])

/-- What a key reads after a set: the new value at that key, what it read before at every other. -/
theorem SMap.get_set [DecidableEq V] (d : Nat → V) (k k' : Nat) (v : V) (m : SMap V) :
    SMap.get d (SMap.set d k v m) k' = if k' = k then v else SMap.get d m k' := by
  unfold SMap.set
  by_cases e : k' = k
  · subst e
    by_cases hv : v = d k'
    · simp [hv, SMap.get_erase_self]
    · simp only [hv, if_false, if_true]
      exact SMap.get_insert_self d k' v fun a ha => (SMap.mem_erase.1 ha).2
  · by_cases hv : v = d k
    · simp [hv, e, SMap.get_erase_ne d e]
    · simp [hv, e, SMap.get_insert_ne d v e, SMap.get_erase_ne d e]

@[simp] theorem SMap.get_set_self [DecidableEq V] (d : Nat → V) (k : Nat) (v : V) (m : SMap V) :
    SMap.get d (SMap.set d k v m) k = v := by simp [SMap.get_set]

theorem SMap.get_set_ne [DecidableEq V] (d : Nat → V) {k k' : Nat} (h : k' ≠ k) (v : V) (m : SMap V) :
    SMap.get d (SMap.set d k v m) k' = SMap.get d m k' := by simp [SMap.get_set, h]

theorem SMap.get_modify [DecidableEq V] (d : Nat → V) (k k' : Nat) (f : V → V) (m : SMap V) :
    SMap.get d (SMap.modify d k f m) k' = if k' = k then f (SMap.get d m k) else SMap.get d m k' :=
  SMap.get_set d k k' _ m

/-- A filter on the key alone leaves the keys that pass as they were, and the others at their default. -/
theorem SMap.get_filter_key (d : Nat → V) (p : Nat → Bool) (m : SMap V) (k : Nat) :
    SMap.get d (m.filter fun a => p a.1) k = if p k then SMap.get d m k else d k := by
  induction m with
  | nil => simp [SMap.get]
  | cons a m ih =>
    obtain ⟨k', v⟩ := a
    simp only [List.filter]
    by_cases e : k = k'
    · subst e
      cases h : p k <;> simp [SMap.get, h, ih]
    · cases h : p k' <;> simp [SMap.get, e, ih]

/-- `find` is `get` with nothing at an unlisted key. -/
theorem SMap.find_put (k k' : Nat) (v : V) (m : SMap V) :
    SMap.find (SMap.put k v m) k' = if k' = k then some v else SMap.find m k' := by
  have fe : ∀ m : SMap V, SMap.find (SMap.erase k m) k' = if k' = k then none else SMap.find m k' := by
    intro m
    induction m with
    | nil => simp [SMap.erase, SMap.find]
    | cons a m ih =>
      obtain ⟨k₂, v₂⟩ := a
      simp only [SMap.erase]
      by_cases e2 : k = k₂
      · subst e2; by_cases e : k' = k <;> simp [SMap.find, e, ih] <;> simp_all
      · by_cases e : k' = k
        · subst e; simp [SMap.find, e2, ih]
        · simp only [e2, if_false, SMap.find, ih, e]
  have fi : ∀ m : SMap V, (∀ a ∈ m, a.1 ≠ k) → SMap.find (SMap.insert k v m) k' = if k' = k then some v else SMap.find m k' := by
    intro m h
    induction m with
    | nil => simp [SMap.insert, SMap.find]
    | cons a m ih =>
      obtain ⟨k₂, v₂⟩ := a
      have h1 : k₂ ≠ k := h (k₂, v₂) (by simp)
      have ih' := ih fun b hb => h b (by simp [hb])
      simp only [SMap.insert]
      split
      · by_cases e : k' = k <;> simp [SMap.find, e]
      · by_cases e : k' = k
        · subst e; simp [SMap.find, Ne.symm h1, ih']
        · simp [SMap.find, e, ih']
  rw [SMap.put, fi _ fun a ha => (SMap.mem_erase.1 ha).2, fe]
  by_cases e : k' = k <;> simp [e]

@[simp] theorem SMap.find_put_self (k : Nat) (v : V) (m : SMap V) : SMap.find (SMap.put k v m) k = some v := by
  simp [SMap.find_put]

/-! ## The canonical form -/

theorem SMap.find_erase (k k' : Nat) (m : SMap V) :
    SMap.find (SMap.erase k m) k' = if k' = k then none else SMap.find m k' := by
  induction m with
  | nil => simp [SMap.erase, SMap.find]
  | cons a m ih =>
    simp only [SMap.erase]
    by_cases h : k = a.1 <;> by_cases h' : k' = k <;> simp_all [SMap.find]

/-- One value set at many keys. -/
theorem SMap.get_foldl_set [DecidableEq V] {α : Type} (d : Nat → V) (f : α → Nat) (v : V) (l : List α) (m : SMap V) (k : Nat) :
    SMap.get d (l.foldl (fun m c => SMap.set d (f c) v m) m) k = if k ∈ l.map f then v else SMap.get d m k := by
  induction l generalizing m with
  | nil => simp
  | cons a l ih =>
    simp only [List.foldl_cons, ih, SMap.get_set, List.map_cons, List.mem_cons]
    by_cases h : k ∈ l.map f <;> by_cases h2 : k = f a <;> simp [h, h2]

/-- Many keys erased. -/
theorem SMap.find_foldl_erase {α : Type} (f : α → Nat) (l : List α) (m : SMap V) (k : Nat) :
    SMap.find (l.foldl (fun m c => SMap.erase (f c) m) m) k = if k ∈ l.map f then none else SMap.find m k := by
  induction l generalizing m with
  | nil => simp
  | cons a l ih =>
    simp only [List.foldl_cons, ih, SMap.find_erase, List.map_cons, List.mem_cons]
    by_cases h : k ∈ l.map f <;> by_cases h2 : k = f a <;> simp [h, h2]

theorem SMap.wfFrom_iff [DecidableEq V] (d : Nat → V) (m : SMap V) :
    ∀ lo, SMap.wfFrom d lo m = true ↔
      (∀ l, lo = some l → ∀ a ∈ m, l < a.1) ∧ m.Pairwise (fun a b => a.1 < b.1) ∧ ∀ a ∈ m, a.2 ≠ d a.1 := by
  induction m with
  | nil => intro lo; simp [SMap.wfFrom]
  | cons a m ih =>
    obtain ⟨k, v⟩ := a
    intro lo
    simp only [SMap.wfFrom, Bool.and_eq_true, decide_eq_true_eq, ih, List.pairwise_cons, List.mem_cons, forall_eq_or_imp]
    constructor
    · rintro ⟨⟨h1, h2⟩, h3, h4, h5⟩
      have hk := h3 k rfl
      refine ⟨fun l e => ?_, ⟨hk, h4⟩, h2, h5⟩
      subst e
      have : l < k := by simpa using h1
      exact ⟨this, fun b hb => Nat.lt_trans this (hk b hb)⟩
    · rintro ⟨h1, ⟨h3, h4⟩, h2, h5⟩
      refine ⟨⟨?_, h2⟩, fun l e => ?_, h4, h5⟩
      · cases lo with
        | none => rfl
        | some l => simpa using (h1 l rfl).1
      · cases e; exact h3

/-- The canonical form: keys strictly rising, and no entry equal to its default. -/
theorem SMap.wf_iff [DecidableEq V] (d : Nat → V) (m : SMap V) :
    SMap.wf d m = true ↔ m.Pairwise (fun a b => a.1 < b.1) ∧ ∀ a ∈ m, a.2 ≠ d a.1 := by
  simp [SMap.wf, SMap.wfFrom_iff]

@[simp] theorem SMap.wf_nil [DecidableEq V] (d : Nat → V) : SMap.wf d ([] : SMap V) = true := rfl

/-- What any filter leaves of a canonical map is canonical. -/
theorem SMap.wf_filter [DecidableEq V] {d : Nat → V} {m : SMap V} (h : SMap.wf d m = true) (p : Nat × V → Bool) :
    SMap.wf d (m.filter p) = true := by
  rw [SMap.wf_iff] at *
  exact ⟨h.1.filter _, fun a ha => h.2 a (List.mem_filter.1 ha).1⟩

theorem SMap.erase_eq_filter (k : Nat) (m : SMap V) : SMap.erase k m = m.filter fun a => decide (k ≠ a.1) := by
  induction m with
  | nil => rfl
  | cons a m ih =>
    obtain ⟨k', v⟩ := a
    simp only [SMap.erase, List.filter]
    by_cases e : k = k'
    · subst e; simp [ih]
    · simp [e, ih]

theorem SMap.wf_erase [DecidableEq V] {d : Nat → V} {m : SMap V} (h : SMap.wf d m = true) (k : Nat) :
    SMap.wf d (SMap.erase k m) = true := by
  rw [SMap.erase_eq_filter]; exact SMap.wf_filter h _

theorem SMap.pairwise_insert {k : Nat} {v : V} {m : SMap V} (h : m.Pairwise fun a b => a.1 < b.1) (hk : ∀ a ∈ m, a.1 ≠ k) :
    (SMap.insert k v m).Pairwise fun a b => a.1 < b.1 := by
  induction m with
  | nil => simp [SMap.insert]
  | cons b m ih =>
    obtain ⟨k', v'⟩ := b
    rw [List.pairwise_cons] at h
    simp only [SMap.insert]
    split
    · next hlt =>
      refine List.pairwise_cons.2 ⟨fun a ha => ?_, List.pairwise_cons.2 h⟩
      rcases List.mem_cons.1 ha with rfl | ha
      · exact hlt
      · exact Nat.lt_trans hlt (h.1 a ha)
    · next hge =>
      have hne : k' ≠ k := hk (k', v') (by simp)
      refine List.pairwise_cons.2 ⟨fun a ha => ?_, ih h.2 fun a ha => hk a (by simp [ha])⟩
      rcases SMap.mem_insert.1 ha with rfl | ha
      · exact Nat.lt_of_le_of_ne (Nat.le_of_not_lt hge) hne
      · exact h.1 a ha

/-- A set keeps the canonical form. -/
theorem SMap.wf_set [DecidableEq V] {d : Nat → V} {m : SMap V} (h : SMap.wf d m = true) (k : Nat) (v : V) :
    SMap.wf d (SMap.set d k v m) = true := by
  have he := SMap.wf_erase h k
  unfold SMap.set
  split
  · exact he
  · next hv =>
    rw [SMap.wf_iff] at *
    refine ⟨SMap.pairwise_insert he.1 fun a ha => (SMap.mem_erase.1 ha).2, fun a ha => ?_⟩
    rcases SMap.mem_insert.1 ha with rfl | ha
    · exact hv
    · exact he.2 a ha

theorem SMap.wf_modify [DecidableEq V] {d : Nat → V} {m : SMap V} (h : SMap.wf d m = true) (k : Nat) (f : V → V) :
    SMap.wf d (SMap.modify d k f m) = true := SMap.wf_set h _ _

theorem SMap.wf_keep [DecidableEq V] {d : Nat → V} {m : SMap V} (h : SMap.wf d m = true) (p : Nat → V → Bool) :
    SMap.wf d (SMap.keep p m) = true := SMap.wf_filter h _

/-- Two canonical maps that read the same everywhere are the same data. -/
theorem SMap.ext_of_wf [DecidableEq V] {d : Nat → V} {m₁ m₂ : SMap V} (h₁ : SMap.wf d m₁ = true) (h₂ : SMap.wf d m₂ = true)
    (h : ∀ k, SMap.get d m₁ k = SMap.get d m₂ k) : m₁ = m₂ := by
  have miss : ∀ (m : SMap V) (k : Nat), (∀ a ∈ m, k < a.1) → SMap.get d m k = d k := by
    intro m k hm
    induction m with
    | nil => rfl
    | cons a m ih =>
      have : k ≠ a.1 := Nat.ne_of_lt (hm a (by simp))
      simp [SMap.get, this, ih fun b hb => hm b (by simp [hb])]
  rw [SMap.wf_iff] at h₁ h₂
  induction m₁ generalizing m₂ with
  | nil =>
    cases m₂ with
    | nil => rfl
    | cons b m₂ => exact absurd (by simpa [SMap.get] using (h b.1).symm) (h₂.2 b (by simp))
  | cons a m₁ ih =>
    cases m₂ with
    | nil => exact absurd (by simpa [SMap.get] using h a.1) (h₁.2 a (by simp))
    | cons b m₂ =>
      obtain ⟨ka, va⟩ := a
      obtain ⟨kb, vb⟩ := b
      have p₁ := List.pairwise_cons.1 h₁.1
      have p₂ := List.pairwise_cons.1 h₂.1
      have hk : ka = kb := by
        rcases Nat.lt_trichotomy ka kb with hlt | he | hlt
        · have := h ka
          rw [miss ((kb, vb) :: m₂) ka (by
            intro c hc; rcases List.mem_cons.1 hc with rfl | hc
            · exact hlt
            · exact Nat.lt_trans hlt (p₂.1 c hc))] at this
          exact absurd (by simpa [SMap.get] using this) (h₁.2 (ka, va) (by simp))
        · exact he
        · have := h kb
          rw [miss ((ka, va) :: m₁) kb (by
            intro c hc; rcases List.mem_cons.1 hc with rfl | hc
            · exact hlt
            · exact Nat.lt_trans hlt (p₁.1 c hc))] at this
          exact absurd (by simpa [SMap.get] using this.symm) (h₂.2 (kb, vb) (by simp))
      subst hk
      have hv : va = vb := by simpa [SMap.get] using h ka
      subst hv
      have := ih ⟨p₁.2, fun a ha => h₁.2 a (by simp [ha])⟩ ⟨p₂.2, fun a ha => h₂.2 a (by simp [ha])⟩ fun k => by
        by_cases e : k = ka
        · subst e; rw [miss m₁ k p₁.1, miss m₂ k p₂.1]
        · simpa [SMap.get, e] using h k
      rw [this]

end Sys2Proof.Machine
end

