-- ==== Sys2Proof/Laws/State.lean ====
section
/-! SUPPORT. What each update of the state leaves in each field: one lemma per field per update. -/
namespace Sys2Proof.Machine

open Sys2Proof

variable (s : State)

/-! ## updSch -/

@[simp] theorem State.updSch_pending (f : Sch → Sch) : (s.updSch f).pending = s.pending := rfl
@[simp] theorem State.updSch_out (f : Sch → Sch) : (s.updSch f).out = s.out := rfl
@[simp] theorem State.updSch_freeCtr (f : Sch → Sch) : (s.updSch f).freeCtr = s.freeCtr := rfl
@[simp] theorem State.updSch_pages (f : Sch → Sch) : (s.updSch f).pages = s.pages := rfl
@[simp] theorem State.updSch_regs (f : Sch → Sch) : (s.updSch f).regs = s.regs := rfl
@[simp] theorem State.updSch_cnts (f : Sch → Sch) : (s.updSch f).cnts = s.cnts := rfl
@[simp] theorem State.updSch_snaps (f : Sch → Sch) : (s.updSch f).snaps = s.snaps := rfl
@[simp] theorem State.updSch_latch (f : Sch → Sch) : (s.updSch f).latch = s.latch := rfl
@[simp] theorem State.updSch_heldLo (f : Sch → Sch) : (s.updSch f).heldLo = s.heldLo := rfl
@[simp] theorem State.updSch_sch (f : Sch → Sch) : (s.updSch f).sch = f s.sch := rfl
@[simp] theorem State.updSch_vat (f : Sch → Sch) : (s.updSch f).vat = s.vat := rfl
@[simp] theorem State.updSch_eng (f : Sch → Sch) : (s.updSch f).eng = s.eng := rfl
@[simp] theorem State.updSch_gc (f : Sch → Sch) : (s.updSch f).gc = s.gc := rfl
@[simp] theorem State.updSch_sheet (f : Sch → Sch) : (s.updSch f).sheet = s.sheet := rfl
@[simp] theorem State.updSch_ring (f : Sch → Sch) : (s.updSch f).ring = s.ring := rfl
@[simp] theorem State.updSch_outer (f : Sch → Sch) : (s.updSch f).outer = s.outer := rfl
@[simp] theorem State.updSch_fab (f : Sch → Sch) : (s.updSch f).fab = s.fab := rfl
@[simp] theorem State.updSch_line (f : Sch → Sch) : (s.updSch f).line = s.line := rfl
@[simp] theorem State.updSch_opt (f : Sch → Sch) : (s.updSch f).opt = s.opt := rfl
@[simp] theorem State.updSch_ciph (f : Sch → Sch) : (s.updSch f).ciph = s.ciph := rfl
@[simp] theorem State.updSch_host (f : Sch → Sch) : (s.updSch f).host = s.host := rfl
@[simp] theorem State.updSch_pool (f : Sch → Sch) : (s.updSch f).pool = s.pool := rfl
@[simp] theorem State.updSch_mem (f : Sch → Sch) : (s.updSch f).mem = s.mem := rfl
@[simp] theorem State.updSch_time (f : Sch → Sch) : (s.updSch f).time = s.time := rfl
@[simp] theorem State.updSch_mgmt (f : Sch → Sch) : (s.updSch f).mgmt = s.mgmt := rfl
@[simp] theorem State.updSch_clk (f : Sch → Sch) : (s.updSch f).clk = s.clk := rfl
@[simp] theorem State.updSch_pwr (f : Sch → Sch) : (s.updSch f).pwr = s.pwr := rfl
@[simp] theorem State.updSch_boot (f : Sch → Sch) : (s.updSch f).boot = s.boot := rfl

/-! ## updVat -/

@[simp] theorem State.updVat_pending (f : Vat → Vat) : (s.updVat f).pending = s.pending := rfl
@[simp] theorem State.updVat_out (f : Vat → Vat) : (s.updVat f).out = s.out := rfl
@[simp] theorem State.updVat_freeCtr (f : Vat → Vat) : (s.updVat f).freeCtr = s.freeCtr := rfl
@[simp] theorem State.updVat_pages (f : Vat → Vat) : (s.updVat f).pages = s.pages := rfl
@[simp] theorem State.updVat_regs (f : Vat → Vat) : (s.updVat f).regs = s.regs := rfl
@[simp] theorem State.updVat_cnts (f : Vat → Vat) : (s.updVat f).cnts = s.cnts := rfl
@[simp] theorem State.updVat_snaps (f : Vat → Vat) : (s.updVat f).snaps = s.snaps := rfl
@[simp] theorem State.updVat_latch (f : Vat → Vat) : (s.updVat f).latch = s.latch := rfl
@[simp] theorem State.updVat_heldLo (f : Vat → Vat) : (s.updVat f).heldLo = s.heldLo := rfl
@[simp] theorem State.updVat_sch (f : Vat → Vat) : (s.updVat f).sch = s.sch := rfl
@[simp] theorem State.updVat_vat (f : Vat → Vat) : (s.updVat f).vat = f s.vat := rfl
@[simp] theorem State.updVat_eng (f : Vat → Vat) : (s.updVat f).eng = s.eng := rfl
@[simp] theorem State.updVat_gc (f : Vat → Vat) : (s.updVat f).gc = s.gc := rfl
@[simp] theorem State.updVat_sheet (f : Vat → Vat) : (s.updVat f).sheet = s.sheet := rfl
@[simp] theorem State.updVat_ring (f : Vat → Vat) : (s.updVat f).ring = s.ring := rfl
@[simp] theorem State.updVat_outer (f : Vat → Vat) : (s.updVat f).outer = s.outer := rfl
@[simp] theorem State.updVat_fab (f : Vat → Vat) : (s.updVat f).fab = s.fab := rfl
@[simp] theorem State.updVat_line (f : Vat → Vat) : (s.updVat f).line = s.line := rfl
@[simp] theorem State.updVat_opt (f : Vat → Vat) : (s.updVat f).opt = s.opt := rfl
@[simp] theorem State.updVat_ciph (f : Vat → Vat) : (s.updVat f).ciph = s.ciph := rfl
@[simp] theorem State.updVat_host (f : Vat → Vat) : (s.updVat f).host = s.host := rfl
@[simp] theorem State.updVat_pool (f : Vat → Vat) : (s.updVat f).pool = s.pool := rfl
@[simp] theorem State.updVat_mem (f : Vat → Vat) : (s.updVat f).mem = s.mem := rfl
@[simp] theorem State.updVat_time (f : Vat → Vat) : (s.updVat f).time = s.time := rfl
@[simp] theorem State.updVat_mgmt (f : Vat → Vat) : (s.updVat f).mgmt = s.mgmt := rfl
@[simp] theorem State.updVat_clk (f : Vat → Vat) : (s.updVat f).clk = s.clk := rfl
@[simp] theorem State.updVat_pwr (f : Vat → Vat) : (s.updVat f).pwr = s.pwr := rfl
@[simp] theorem State.updVat_boot (f : Vat → Vat) : (s.updVat f).boot = s.boot := rfl

/-! ## updEng -/

@[simp] theorem State.updEng_pending (f : Eng → Eng) : (s.updEng f).pending = s.pending := rfl
@[simp] theorem State.updEng_out (f : Eng → Eng) : (s.updEng f).out = s.out := rfl
@[simp] theorem State.updEng_freeCtr (f : Eng → Eng) : (s.updEng f).freeCtr = s.freeCtr := rfl
@[simp] theorem State.updEng_pages (f : Eng → Eng) : (s.updEng f).pages = s.pages := rfl
@[simp] theorem State.updEng_regs (f : Eng → Eng) : (s.updEng f).regs = s.regs := rfl
@[simp] theorem State.updEng_cnts (f : Eng → Eng) : (s.updEng f).cnts = s.cnts := rfl
@[simp] theorem State.updEng_snaps (f : Eng → Eng) : (s.updEng f).snaps = s.snaps := rfl
@[simp] theorem State.updEng_latch (f : Eng → Eng) : (s.updEng f).latch = s.latch := rfl
@[simp] theorem State.updEng_heldLo (f : Eng → Eng) : (s.updEng f).heldLo = s.heldLo := rfl
@[simp] theorem State.updEng_sch (f : Eng → Eng) : (s.updEng f).sch = s.sch := rfl
@[simp] theorem State.updEng_vat (f : Eng → Eng) : (s.updEng f).vat = s.vat := rfl
@[simp] theorem State.updEng_eng (f : Eng → Eng) : (s.updEng f).eng = f s.eng := rfl
@[simp] theorem State.updEng_gc (f : Eng → Eng) : (s.updEng f).gc = s.gc := rfl
@[simp] theorem State.updEng_sheet (f : Eng → Eng) : (s.updEng f).sheet = s.sheet := rfl
@[simp] theorem State.updEng_ring (f : Eng → Eng) : (s.updEng f).ring = s.ring := rfl
@[simp] theorem State.updEng_outer (f : Eng → Eng) : (s.updEng f).outer = s.outer := rfl
@[simp] theorem State.updEng_fab (f : Eng → Eng) : (s.updEng f).fab = s.fab := rfl
@[simp] theorem State.updEng_line (f : Eng → Eng) : (s.updEng f).line = s.line := rfl
@[simp] theorem State.updEng_opt (f : Eng → Eng) : (s.updEng f).opt = s.opt := rfl
@[simp] theorem State.updEng_ciph (f : Eng → Eng) : (s.updEng f).ciph = s.ciph := rfl
@[simp] theorem State.updEng_host (f : Eng → Eng) : (s.updEng f).host = s.host := rfl
@[simp] theorem State.updEng_pool (f : Eng → Eng) : (s.updEng f).pool = s.pool := rfl
@[simp] theorem State.updEng_mem (f : Eng → Eng) : (s.updEng f).mem = s.mem := rfl
@[simp] theorem State.updEng_time (f : Eng → Eng) : (s.updEng f).time = s.time := rfl
@[simp] theorem State.updEng_mgmt (f : Eng → Eng) : (s.updEng f).mgmt = s.mgmt := rfl
@[simp] theorem State.updEng_clk (f : Eng → Eng) : (s.updEng f).clk = s.clk := rfl
@[simp] theorem State.updEng_pwr (f : Eng → Eng) : (s.updEng f).pwr = s.pwr := rfl
@[simp] theorem State.updEng_boot (f : Eng → Eng) : (s.updEng f).boot = s.boot := rfl

/-! ## updGc -/

@[simp] theorem State.updGc_pending (f : Gc → Gc) : (s.updGc f).pending = s.pending := rfl
@[simp] theorem State.updGc_out (f : Gc → Gc) : (s.updGc f).out = s.out := rfl
@[simp] theorem State.updGc_freeCtr (f : Gc → Gc) : (s.updGc f).freeCtr = s.freeCtr := rfl
@[simp] theorem State.updGc_pages (f : Gc → Gc) : (s.updGc f).pages = s.pages := rfl
@[simp] theorem State.updGc_regs (f : Gc → Gc) : (s.updGc f).regs = s.regs := rfl
@[simp] theorem State.updGc_cnts (f : Gc → Gc) : (s.updGc f).cnts = s.cnts := rfl
@[simp] theorem State.updGc_snaps (f : Gc → Gc) : (s.updGc f).snaps = s.snaps := rfl
@[simp] theorem State.updGc_latch (f : Gc → Gc) : (s.updGc f).latch = s.latch := rfl
@[simp] theorem State.updGc_heldLo (f : Gc → Gc) : (s.updGc f).heldLo = s.heldLo := rfl
@[simp] theorem State.updGc_sch (f : Gc → Gc) : (s.updGc f).sch = s.sch := rfl
@[simp] theorem State.updGc_vat (f : Gc → Gc) : (s.updGc f).vat = s.vat := rfl
@[simp] theorem State.updGc_eng (f : Gc → Gc) : (s.updGc f).eng = s.eng := rfl
@[simp] theorem State.updGc_gc (f : Gc → Gc) : (s.updGc f).gc = f s.gc := rfl
@[simp] theorem State.updGc_sheet (f : Gc → Gc) : (s.updGc f).sheet = s.sheet := rfl
@[simp] theorem State.updGc_ring (f : Gc → Gc) : (s.updGc f).ring = s.ring := rfl
@[simp] theorem State.updGc_outer (f : Gc → Gc) : (s.updGc f).outer = s.outer := rfl
@[simp] theorem State.updGc_fab (f : Gc → Gc) : (s.updGc f).fab = s.fab := rfl
@[simp] theorem State.updGc_line (f : Gc → Gc) : (s.updGc f).line = s.line := rfl
@[simp] theorem State.updGc_opt (f : Gc → Gc) : (s.updGc f).opt = s.opt := rfl
@[simp] theorem State.updGc_ciph (f : Gc → Gc) : (s.updGc f).ciph = s.ciph := rfl
@[simp] theorem State.updGc_host (f : Gc → Gc) : (s.updGc f).host = s.host := rfl
@[simp] theorem State.updGc_pool (f : Gc → Gc) : (s.updGc f).pool = s.pool := rfl
@[simp] theorem State.updGc_mem (f : Gc → Gc) : (s.updGc f).mem = s.mem := rfl
@[simp] theorem State.updGc_time (f : Gc → Gc) : (s.updGc f).time = s.time := rfl
@[simp] theorem State.updGc_mgmt (f : Gc → Gc) : (s.updGc f).mgmt = s.mgmt := rfl
@[simp] theorem State.updGc_clk (f : Gc → Gc) : (s.updGc f).clk = s.clk := rfl
@[simp] theorem State.updGc_pwr (f : Gc → Gc) : (s.updGc f).pwr = s.pwr := rfl
@[simp] theorem State.updGc_boot (f : Gc → Gc) : (s.updGc f).boot = s.boot := rfl

/-! ## updSheet -/

@[simp] theorem State.updSheet_pending (f : SheetB → SheetB) : (s.updSheet f).pending = s.pending := rfl
@[simp] theorem State.updSheet_out (f : SheetB → SheetB) : (s.updSheet f).out = s.out := rfl
@[simp] theorem State.updSheet_freeCtr (f : SheetB → SheetB) : (s.updSheet f).freeCtr = s.freeCtr := rfl
@[simp] theorem State.updSheet_pages (f : SheetB → SheetB) : (s.updSheet f).pages = s.pages := rfl
@[simp] theorem State.updSheet_regs (f : SheetB → SheetB) : (s.updSheet f).regs = s.regs := rfl
@[simp] theorem State.updSheet_cnts (f : SheetB → SheetB) : (s.updSheet f).cnts = s.cnts := rfl
@[simp] theorem State.updSheet_snaps (f : SheetB → SheetB) : (s.updSheet f).snaps = s.snaps := rfl
@[simp] theorem State.updSheet_latch (f : SheetB → SheetB) : (s.updSheet f).latch = s.latch := rfl
@[simp] theorem State.updSheet_heldLo (f : SheetB → SheetB) : (s.updSheet f).heldLo = s.heldLo := rfl
@[simp] theorem State.updSheet_sch (f : SheetB → SheetB) : (s.updSheet f).sch = s.sch := rfl
@[simp] theorem State.updSheet_vat (f : SheetB → SheetB) : (s.updSheet f).vat = s.vat := rfl
@[simp] theorem State.updSheet_eng (f : SheetB → SheetB) : (s.updSheet f).eng = s.eng := rfl
@[simp] theorem State.updSheet_gc (f : SheetB → SheetB) : (s.updSheet f).gc = s.gc := rfl
@[simp] theorem State.updSheet_sheet (f : SheetB → SheetB) : (s.updSheet f).sheet = f s.sheet := rfl
@[simp] theorem State.updSheet_ring (f : SheetB → SheetB) : (s.updSheet f).ring = s.ring := rfl
@[simp] theorem State.updSheet_outer (f : SheetB → SheetB) : (s.updSheet f).outer = s.outer := rfl
@[simp] theorem State.updSheet_fab (f : SheetB → SheetB) : (s.updSheet f).fab = s.fab := rfl
@[simp] theorem State.updSheet_line (f : SheetB → SheetB) : (s.updSheet f).line = s.line := rfl
@[simp] theorem State.updSheet_opt (f : SheetB → SheetB) : (s.updSheet f).opt = s.opt := rfl
@[simp] theorem State.updSheet_ciph (f : SheetB → SheetB) : (s.updSheet f).ciph = s.ciph := rfl
@[simp] theorem State.updSheet_host (f : SheetB → SheetB) : (s.updSheet f).host = s.host := rfl
@[simp] theorem State.updSheet_pool (f : SheetB → SheetB) : (s.updSheet f).pool = s.pool := rfl
@[simp] theorem State.updSheet_mem (f : SheetB → SheetB) : (s.updSheet f).mem = s.mem := rfl
@[simp] theorem State.updSheet_time (f : SheetB → SheetB) : (s.updSheet f).time = s.time := rfl
@[simp] theorem State.updSheet_mgmt (f : SheetB → SheetB) : (s.updSheet f).mgmt = s.mgmt := rfl
@[simp] theorem State.updSheet_clk (f : SheetB → SheetB) : (s.updSheet f).clk = s.clk := rfl
@[simp] theorem State.updSheet_pwr (f : SheetB → SheetB) : (s.updSheet f).pwr = s.pwr := rfl
@[simp] theorem State.updSheet_boot (f : SheetB → SheetB) : (s.updSheet f).boot = s.boot := rfl

/-! ## updRing -/

@[simp] theorem State.updRing_pending (f : Ring → Ring) : (s.updRing f).pending = s.pending := rfl
@[simp] theorem State.updRing_out (f : Ring → Ring) : (s.updRing f).out = s.out := rfl
@[simp] theorem State.updRing_freeCtr (f : Ring → Ring) : (s.updRing f).freeCtr = s.freeCtr := rfl
@[simp] theorem State.updRing_pages (f : Ring → Ring) : (s.updRing f).pages = s.pages := rfl
@[simp] theorem State.updRing_regs (f : Ring → Ring) : (s.updRing f).regs = s.regs := rfl
@[simp] theorem State.updRing_cnts (f : Ring → Ring) : (s.updRing f).cnts = s.cnts := rfl
@[simp] theorem State.updRing_snaps (f : Ring → Ring) : (s.updRing f).snaps = s.snaps := rfl
@[simp] theorem State.updRing_latch (f : Ring → Ring) : (s.updRing f).latch = s.latch := rfl
@[simp] theorem State.updRing_heldLo (f : Ring → Ring) : (s.updRing f).heldLo = s.heldLo := rfl
@[simp] theorem State.updRing_sch (f : Ring → Ring) : (s.updRing f).sch = s.sch := rfl
@[simp] theorem State.updRing_vat (f : Ring → Ring) : (s.updRing f).vat = s.vat := rfl
@[simp] theorem State.updRing_eng (f : Ring → Ring) : (s.updRing f).eng = s.eng := rfl
@[simp] theorem State.updRing_gc (f : Ring → Ring) : (s.updRing f).gc = s.gc := rfl
@[simp] theorem State.updRing_sheet (f : Ring → Ring) : (s.updRing f).sheet = s.sheet := rfl
@[simp] theorem State.updRing_ring (f : Ring → Ring) : (s.updRing f).ring = f s.ring := rfl
@[simp] theorem State.updRing_outer (f : Ring → Ring) : (s.updRing f).outer = s.outer := rfl
@[simp] theorem State.updRing_fab (f : Ring → Ring) : (s.updRing f).fab = s.fab := rfl
@[simp] theorem State.updRing_line (f : Ring → Ring) : (s.updRing f).line = s.line := rfl
@[simp] theorem State.updRing_opt (f : Ring → Ring) : (s.updRing f).opt = s.opt := rfl
@[simp] theorem State.updRing_ciph (f : Ring → Ring) : (s.updRing f).ciph = s.ciph := rfl
@[simp] theorem State.updRing_host (f : Ring → Ring) : (s.updRing f).host = s.host := rfl
@[simp] theorem State.updRing_pool (f : Ring → Ring) : (s.updRing f).pool = s.pool := rfl
@[simp] theorem State.updRing_mem (f : Ring → Ring) : (s.updRing f).mem = s.mem := rfl
@[simp] theorem State.updRing_time (f : Ring → Ring) : (s.updRing f).time = s.time := rfl
@[simp] theorem State.updRing_mgmt (f : Ring → Ring) : (s.updRing f).mgmt = s.mgmt := rfl
@[simp] theorem State.updRing_clk (f : Ring → Ring) : (s.updRing f).clk = s.clk := rfl
@[simp] theorem State.updRing_pwr (f : Ring → Ring) : (s.updRing f).pwr = s.pwr := rfl
@[simp] theorem State.updRing_boot (f : Ring → Ring) : (s.updRing f).boot = s.boot := rfl

/-! ## updOuter -/

@[simp] theorem State.updOuter_pending (f : Outer → Outer) : (s.updOuter f).pending = s.pending := rfl
@[simp] theorem State.updOuter_out (f : Outer → Outer) : (s.updOuter f).out = s.out := rfl
@[simp] theorem State.updOuter_freeCtr (f : Outer → Outer) : (s.updOuter f).freeCtr = s.freeCtr := rfl
@[simp] theorem State.updOuter_pages (f : Outer → Outer) : (s.updOuter f).pages = s.pages := rfl
@[simp] theorem State.updOuter_regs (f : Outer → Outer) : (s.updOuter f).regs = s.regs := rfl
@[simp] theorem State.updOuter_cnts (f : Outer → Outer) : (s.updOuter f).cnts = s.cnts := rfl
@[simp] theorem State.updOuter_snaps (f : Outer → Outer) : (s.updOuter f).snaps = s.snaps := rfl
@[simp] theorem State.updOuter_latch (f : Outer → Outer) : (s.updOuter f).latch = s.latch := rfl
@[simp] theorem State.updOuter_heldLo (f : Outer → Outer) : (s.updOuter f).heldLo = s.heldLo := rfl
@[simp] theorem State.updOuter_sch (f : Outer → Outer) : (s.updOuter f).sch = s.sch := rfl
@[simp] theorem State.updOuter_vat (f : Outer → Outer) : (s.updOuter f).vat = s.vat := rfl
@[simp] theorem State.updOuter_eng (f : Outer → Outer) : (s.updOuter f).eng = s.eng := rfl
@[simp] theorem State.updOuter_gc (f : Outer → Outer) : (s.updOuter f).gc = s.gc := rfl
@[simp] theorem State.updOuter_sheet (f : Outer → Outer) : (s.updOuter f).sheet = s.sheet := rfl
@[simp] theorem State.updOuter_ring (f : Outer → Outer) : (s.updOuter f).ring = s.ring := rfl
@[simp] theorem State.updOuter_outer (f : Outer → Outer) : (s.updOuter f).outer = f s.outer := rfl
@[simp] theorem State.updOuter_fab (f : Outer → Outer) : (s.updOuter f).fab = s.fab := rfl
@[simp] theorem State.updOuter_line (f : Outer → Outer) : (s.updOuter f).line = s.line := rfl
@[simp] theorem State.updOuter_opt (f : Outer → Outer) : (s.updOuter f).opt = s.opt := rfl
@[simp] theorem State.updOuter_ciph (f : Outer → Outer) : (s.updOuter f).ciph = s.ciph := rfl
@[simp] theorem State.updOuter_host (f : Outer → Outer) : (s.updOuter f).host = s.host := rfl
@[simp] theorem State.updOuter_pool (f : Outer → Outer) : (s.updOuter f).pool = s.pool := rfl
@[simp] theorem State.updOuter_mem (f : Outer → Outer) : (s.updOuter f).mem = s.mem := rfl
@[simp] theorem State.updOuter_time (f : Outer → Outer) : (s.updOuter f).time = s.time := rfl
@[simp] theorem State.updOuter_mgmt (f : Outer → Outer) : (s.updOuter f).mgmt = s.mgmt := rfl
@[simp] theorem State.updOuter_clk (f : Outer → Outer) : (s.updOuter f).clk = s.clk := rfl
@[simp] theorem State.updOuter_pwr (f : Outer → Outer) : (s.updOuter f).pwr = s.pwr := rfl
@[simp] theorem State.updOuter_boot (f : Outer → Outer) : (s.updOuter f).boot = s.boot := rfl

/-! ## updFab -/

@[simp] theorem State.updFab_pending (f : FabB → FabB) : (s.updFab f).pending = s.pending := rfl
@[simp] theorem State.updFab_out (f : FabB → FabB) : (s.updFab f).out = s.out := rfl
@[simp] theorem State.updFab_freeCtr (f : FabB → FabB) : (s.updFab f).freeCtr = s.freeCtr := rfl
@[simp] theorem State.updFab_pages (f : FabB → FabB) : (s.updFab f).pages = s.pages := rfl
@[simp] theorem State.updFab_regs (f : FabB → FabB) : (s.updFab f).regs = s.regs := rfl
@[simp] theorem State.updFab_cnts (f : FabB → FabB) : (s.updFab f).cnts = s.cnts := rfl
@[simp] theorem State.updFab_snaps (f : FabB → FabB) : (s.updFab f).snaps = s.snaps := rfl
@[simp] theorem State.updFab_latch (f : FabB → FabB) : (s.updFab f).latch = s.latch := rfl
@[simp] theorem State.updFab_heldLo (f : FabB → FabB) : (s.updFab f).heldLo = s.heldLo := rfl
@[simp] theorem State.updFab_sch (f : FabB → FabB) : (s.updFab f).sch = s.sch := rfl
@[simp] theorem State.updFab_vat (f : FabB → FabB) : (s.updFab f).vat = s.vat := rfl
@[simp] theorem State.updFab_eng (f : FabB → FabB) : (s.updFab f).eng = s.eng := rfl
@[simp] theorem State.updFab_gc (f : FabB → FabB) : (s.updFab f).gc = s.gc := rfl
@[simp] theorem State.updFab_sheet (f : FabB → FabB) : (s.updFab f).sheet = s.sheet := rfl
@[simp] theorem State.updFab_ring (f : FabB → FabB) : (s.updFab f).ring = s.ring := rfl
@[simp] theorem State.updFab_outer (f : FabB → FabB) : (s.updFab f).outer = s.outer := rfl
@[simp] theorem State.updFab_fab (f : FabB → FabB) : (s.updFab f).fab = f s.fab := rfl
@[simp] theorem State.updFab_line (f : FabB → FabB) : (s.updFab f).line = s.line := rfl
@[simp] theorem State.updFab_opt (f : FabB → FabB) : (s.updFab f).opt = s.opt := rfl
@[simp] theorem State.updFab_ciph (f : FabB → FabB) : (s.updFab f).ciph = s.ciph := rfl
@[simp] theorem State.updFab_host (f : FabB → FabB) : (s.updFab f).host = s.host := rfl
@[simp] theorem State.updFab_pool (f : FabB → FabB) : (s.updFab f).pool = s.pool := rfl
@[simp] theorem State.updFab_mem (f : FabB → FabB) : (s.updFab f).mem = s.mem := rfl
@[simp] theorem State.updFab_time (f : FabB → FabB) : (s.updFab f).time = s.time := rfl
@[simp] theorem State.updFab_mgmt (f : FabB → FabB) : (s.updFab f).mgmt = s.mgmt := rfl
@[simp] theorem State.updFab_clk (f : FabB → FabB) : (s.updFab f).clk = s.clk := rfl
@[simp] theorem State.updFab_pwr (f : FabB → FabB) : (s.updFab f).pwr = s.pwr := rfl
@[simp] theorem State.updFab_boot (f : FabB → FabB) : (s.updFab f).boot = s.boot := rfl

/-! ## updLine -/

@[simp] theorem State.updLine_pending (f : LineB → LineB) : (s.updLine f).pending = s.pending := rfl
@[simp] theorem State.updLine_out (f : LineB → LineB) : (s.updLine f).out = s.out := rfl
@[simp] theorem State.updLine_freeCtr (f : LineB → LineB) : (s.updLine f).freeCtr = s.freeCtr := rfl
@[simp] theorem State.updLine_pages (f : LineB → LineB) : (s.updLine f).pages = s.pages := rfl
@[simp] theorem State.updLine_regs (f : LineB → LineB) : (s.updLine f).regs = s.regs := rfl
@[simp] theorem State.updLine_cnts (f : LineB → LineB) : (s.updLine f).cnts = s.cnts := rfl
@[simp] theorem State.updLine_snaps (f : LineB → LineB) : (s.updLine f).snaps = s.snaps := rfl
@[simp] theorem State.updLine_latch (f : LineB → LineB) : (s.updLine f).latch = s.latch := rfl
@[simp] theorem State.updLine_heldLo (f : LineB → LineB) : (s.updLine f).heldLo = s.heldLo := rfl
@[simp] theorem State.updLine_sch (f : LineB → LineB) : (s.updLine f).sch = s.sch := rfl
@[simp] theorem State.updLine_vat (f : LineB → LineB) : (s.updLine f).vat = s.vat := rfl
@[simp] theorem State.updLine_eng (f : LineB → LineB) : (s.updLine f).eng = s.eng := rfl
@[simp] theorem State.updLine_gc (f : LineB → LineB) : (s.updLine f).gc = s.gc := rfl
@[simp] theorem State.updLine_sheet (f : LineB → LineB) : (s.updLine f).sheet = s.sheet := rfl
@[simp] theorem State.updLine_ring (f : LineB → LineB) : (s.updLine f).ring = s.ring := rfl
@[simp] theorem State.updLine_outer (f : LineB → LineB) : (s.updLine f).outer = s.outer := rfl
@[simp] theorem State.updLine_fab (f : LineB → LineB) : (s.updLine f).fab = s.fab := rfl
@[simp] theorem State.updLine_line (f : LineB → LineB) : (s.updLine f).line = f s.line := rfl
@[simp] theorem State.updLine_opt (f : LineB → LineB) : (s.updLine f).opt = s.opt := rfl
@[simp] theorem State.updLine_ciph (f : LineB → LineB) : (s.updLine f).ciph = s.ciph := rfl
@[simp] theorem State.updLine_host (f : LineB → LineB) : (s.updLine f).host = s.host := rfl
@[simp] theorem State.updLine_pool (f : LineB → LineB) : (s.updLine f).pool = s.pool := rfl
@[simp] theorem State.updLine_mem (f : LineB → LineB) : (s.updLine f).mem = s.mem := rfl
@[simp] theorem State.updLine_time (f : LineB → LineB) : (s.updLine f).time = s.time := rfl
@[simp] theorem State.updLine_mgmt (f : LineB → LineB) : (s.updLine f).mgmt = s.mgmt := rfl
@[simp] theorem State.updLine_clk (f : LineB → LineB) : (s.updLine f).clk = s.clk := rfl
@[simp] theorem State.updLine_pwr (f : LineB → LineB) : (s.updLine f).pwr = s.pwr := rfl
@[simp] theorem State.updLine_boot (f : LineB → LineB) : (s.updLine f).boot = s.boot := rfl

/-! ## updOpt -/

@[simp] theorem State.updOpt_pending (f : Opt → Opt) : (s.updOpt f).pending = s.pending := rfl
@[simp] theorem State.updOpt_out (f : Opt → Opt) : (s.updOpt f).out = s.out := rfl
@[simp] theorem State.updOpt_freeCtr (f : Opt → Opt) : (s.updOpt f).freeCtr = s.freeCtr := rfl
@[simp] theorem State.updOpt_pages (f : Opt → Opt) : (s.updOpt f).pages = s.pages := rfl
@[simp] theorem State.updOpt_regs (f : Opt → Opt) : (s.updOpt f).regs = s.regs := rfl
@[simp] theorem State.updOpt_cnts (f : Opt → Opt) : (s.updOpt f).cnts = s.cnts := rfl
@[simp] theorem State.updOpt_snaps (f : Opt → Opt) : (s.updOpt f).snaps = s.snaps := rfl
@[simp] theorem State.updOpt_latch (f : Opt → Opt) : (s.updOpt f).latch = s.latch := rfl
@[simp] theorem State.updOpt_heldLo (f : Opt → Opt) : (s.updOpt f).heldLo = s.heldLo := rfl
@[simp] theorem State.updOpt_sch (f : Opt → Opt) : (s.updOpt f).sch = s.sch := rfl
@[simp] theorem State.updOpt_vat (f : Opt → Opt) : (s.updOpt f).vat = s.vat := rfl
@[simp] theorem State.updOpt_eng (f : Opt → Opt) : (s.updOpt f).eng = s.eng := rfl
@[simp] theorem State.updOpt_gc (f : Opt → Opt) : (s.updOpt f).gc = s.gc := rfl
@[simp] theorem State.updOpt_sheet (f : Opt → Opt) : (s.updOpt f).sheet = s.sheet := rfl
@[simp] theorem State.updOpt_ring (f : Opt → Opt) : (s.updOpt f).ring = s.ring := rfl
@[simp] theorem State.updOpt_outer (f : Opt → Opt) : (s.updOpt f).outer = s.outer := rfl
@[simp] theorem State.updOpt_fab (f : Opt → Opt) : (s.updOpt f).fab = s.fab := rfl
@[simp] theorem State.updOpt_line (f : Opt → Opt) : (s.updOpt f).line = s.line := rfl
@[simp] theorem State.updOpt_opt (f : Opt → Opt) : (s.updOpt f).opt = f s.opt := rfl
@[simp] theorem State.updOpt_ciph (f : Opt → Opt) : (s.updOpt f).ciph = s.ciph := rfl
@[simp] theorem State.updOpt_host (f : Opt → Opt) : (s.updOpt f).host = s.host := rfl
@[simp] theorem State.updOpt_pool (f : Opt → Opt) : (s.updOpt f).pool = s.pool := rfl
@[simp] theorem State.updOpt_mem (f : Opt → Opt) : (s.updOpt f).mem = s.mem := rfl
@[simp] theorem State.updOpt_time (f : Opt → Opt) : (s.updOpt f).time = s.time := rfl
@[simp] theorem State.updOpt_mgmt (f : Opt → Opt) : (s.updOpt f).mgmt = s.mgmt := rfl
@[simp] theorem State.updOpt_clk (f : Opt → Opt) : (s.updOpt f).clk = s.clk := rfl
@[simp] theorem State.updOpt_pwr (f : Opt → Opt) : (s.updOpt f).pwr = s.pwr := rfl
@[simp] theorem State.updOpt_boot (f : Opt → Opt) : (s.updOpt f).boot = s.boot := rfl

/-! ## updCiph -/

@[simp] theorem State.updCiph_pending (f : Ciph → Ciph) : (s.updCiph f).pending = s.pending := rfl
@[simp] theorem State.updCiph_out (f : Ciph → Ciph) : (s.updCiph f).out = s.out := rfl
@[simp] theorem State.updCiph_freeCtr (f : Ciph → Ciph) : (s.updCiph f).freeCtr = s.freeCtr := rfl
@[simp] theorem State.updCiph_pages (f : Ciph → Ciph) : (s.updCiph f).pages = s.pages := rfl
@[simp] theorem State.updCiph_regs (f : Ciph → Ciph) : (s.updCiph f).regs = s.regs := rfl
@[simp] theorem State.updCiph_cnts (f : Ciph → Ciph) : (s.updCiph f).cnts = s.cnts := rfl
@[simp] theorem State.updCiph_snaps (f : Ciph → Ciph) : (s.updCiph f).snaps = s.snaps := rfl
@[simp] theorem State.updCiph_latch (f : Ciph → Ciph) : (s.updCiph f).latch = s.latch := rfl
@[simp] theorem State.updCiph_heldLo (f : Ciph → Ciph) : (s.updCiph f).heldLo = s.heldLo := rfl
@[simp] theorem State.updCiph_sch (f : Ciph → Ciph) : (s.updCiph f).sch = s.sch := rfl
@[simp] theorem State.updCiph_vat (f : Ciph → Ciph) : (s.updCiph f).vat = s.vat := rfl
@[simp] theorem State.updCiph_eng (f : Ciph → Ciph) : (s.updCiph f).eng = s.eng := rfl
@[simp] theorem State.updCiph_gc (f : Ciph → Ciph) : (s.updCiph f).gc = s.gc := rfl
@[simp] theorem State.updCiph_sheet (f : Ciph → Ciph) : (s.updCiph f).sheet = s.sheet := rfl
@[simp] theorem State.updCiph_ring (f : Ciph → Ciph) : (s.updCiph f).ring = s.ring := rfl
@[simp] theorem State.updCiph_outer (f : Ciph → Ciph) : (s.updCiph f).outer = s.outer := rfl
@[simp] theorem State.updCiph_fab (f : Ciph → Ciph) : (s.updCiph f).fab = s.fab := rfl
@[simp] theorem State.updCiph_line (f : Ciph → Ciph) : (s.updCiph f).line = s.line := rfl
@[simp] theorem State.updCiph_opt (f : Ciph → Ciph) : (s.updCiph f).opt = s.opt := rfl
@[simp] theorem State.updCiph_ciph (f : Ciph → Ciph) : (s.updCiph f).ciph = f s.ciph := rfl
@[simp] theorem State.updCiph_host (f : Ciph → Ciph) : (s.updCiph f).host = s.host := rfl
@[simp] theorem State.updCiph_pool (f : Ciph → Ciph) : (s.updCiph f).pool = s.pool := rfl
@[simp] theorem State.updCiph_mem (f : Ciph → Ciph) : (s.updCiph f).mem = s.mem := rfl
@[simp] theorem State.updCiph_time (f : Ciph → Ciph) : (s.updCiph f).time = s.time := rfl
@[simp] theorem State.updCiph_mgmt (f : Ciph → Ciph) : (s.updCiph f).mgmt = s.mgmt := rfl
@[simp] theorem State.updCiph_clk (f : Ciph → Ciph) : (s.updCiph f).clk = s.clk := rfl
@[simp] theorem State.updCiph_pwr (f : Ciph → Ciph) : (s.updCiph f).pwr = s.pwr := rfl
@[simp] theorem State.updCiph_boot (f : Ciph → Ciph) : (s.updCiph f).boot = s.boot := rfl

/-! ## updHost -/

@[simp] theorem State.updHost_pending (f : HostB → HostB) : (s.updHost f).pending = s.pending := rfl
@[simp] theorem State.updHost_out (f : HostB → HostB) : (s.updHost f).out = s.out := rfl
@[simp] theorem State.updHost_freeCtr (f : HostB → HostB) : (s.updHost f).freeCtr = s.freeCtr := rfl
@[simp] theorem State.updHost_pages (f : HostB → HostB) : (s.updHost f).pages = s.pages := rfl
@[simp] theorem State.updHost_regs (f : HostB → HostB) : (s.updHost f).regs = s.regs := rfl
@[simp] theorem State.updHost_cnts (f : HostB → HostB) : (s.updHost f).cnts = s.cnts := rfl
@[simp] theorem State.updHost_snaps (f : HostB → HostB) : (s.updHost f).snaps = s.snaps := rfl
@[simp] theorem State.updHost_latch (f : HostB → HostB) : (s.updHost f).latch = s.latch := rfl
@[simp] theorem State.updHost_heldLo (f : HostB → HostB) : (s.updHost f).heldLo = s.heldLo := rfl
@[simp] theorem State.updHost_sch (f : HostB → HostB) : (s.updHost f).sch = s.sch := rfl
@[simp] theorem State.updHost_vat (f : HostB → HostB) : (s.updHost f).vat = s.vat := rfl
@[simp] theorem State.updHost_eng (f : HostB → HostB) : (s.updHost f).eng = s.eng := rfl
@[simp] theorem State.updHost_gc (f : HostB → HostB) : (s.updHost f).gc = s.gc := rfl
@[simp] theorem State.updHost_sheet (f : HostB → HostB) : (s.updHost f).sheet = s.sheet := rfl
@[simp] theorem State.updHost_ring (f : HostB → HostB) : (s.updHost f).ring = s.ring := rfl
@[simp] theorem State.updHost_outer (f : HostB → HostB) : (s.updHost f).outer = s.outer := rfl
@[simp] theorem State.updHost_fab (f : HostB → HostB) : (s.updHost f).fab = s.fab := rfl
@[simp] theorem State.updHost_line (f : HostB → HostB) : (s.updHost f).line = s.line := rfl
@[simp] theorem State.updHost_opt (f : HostB → HostB) : (s.updHost f).opt = s.opt := rfl
@[simp] theorem State.updHost_ciph (f : HostB → HostB) : (s.updHost f).ciph = s.ciph := rfl
@[simp] theorem State.updHost_host (f : HostB → HostB) : (s.updHost f).host = f s.host := rfl
@[simp] theorem State.updHost_pool (f : HostB → HostB) : (s.updHost f).pool = s.pool := rfl
@[simp] theorem State.updHost_mem (f : HostB → HostB) : (s.updHost f).mem = s.mem := rfl
@[simp] theorem State.updHost_time (f : HostB → HostB) : (s.updHost f).time = s.time := rfl
@[simp] theorem State.updHost_mgmt (f : HostB → HostB) : (s.updHost f).mgmt = s.mgmt := rfl
@[simp] theorem State.updHost_clk (f : HostB → HostB) : (s.updHost f).clk = s.clk := rfl
@[simp] theorem State.updHost_pwr (f : HostB → HostB) : (s.updHost f).pwr = s.pwr := rfl
@[simp] theorem State.updHost_boot (f : HostB → HostB) : (s.updHost f).boot = s.boot := rfl

/-! ## updPool -/

@[simp] theorem State.updPool_pending (f : Pool → Pool) : (s.updPool f).pending = s.pending := rfl
@[simp] theorem State.updPool_out (f : Pool → Pool) : (s.updPool f).out = s.out := rfl
@[simp] theorem State.updPool_freeCtr (f : Pool → Pool) : (s.updPool f).freeCtr = s.freeCtr := rfl
@[simp] theorem State.updPool_pages (f : Pool → Pool) : (s.updPool f).pages = s.pages := rfl
@[simp] theorem State.updPool_regs (f : Pool → Pool) : (s.updPool f).regs = s.regs := rfl
@[simp] theorem State.updPool_cnts (f : Pool → Pool) : (s.updPool f).cnts = s.cnts := rfl
@[simp] theorem State.updPool_snaps (f : Pool → Pool) : (s.updPool f).snaps = s.snaps := rfl
@[simp] theorem State.updPool_latch (f : Pool → Pool) : (s.updPool f).latch = s.latch := rfl
@[simp] theorem State.updPool_heldLo (f : Pool → Pool) : (s.updPool f).heldLo = s.heldLo := rfl
@[simp] theorem State.updPool_sch (f : Pool → Pool) : (s.updPool f).sch = s.sch := rfl
@[simp] theorem State.updPool_vat (f : Pool → Pool) : (s.updPool f).vat = s.vat := rfl
@[simp] theorem State.updPool_eng (f : Pool → Pool) : (s.updPool f).eng = s.eng := rfl
@[simp] theorem State.updPool_gc (f : Pool → Pool) : (s.updPool f).gc = s.gc := rfl
@[simp] theorem State.updPool_sheet (f : Pool → Pool) : (s.updPool f).sheet = s.sheet := rfl
@[simp] theorem State.updPool_ring (f : Pool → Pool) : (s.updPool f).ring = s.ring := rfl
@[simp] theorem State.updPool_outer (f : Pool → Pool) : (s.updPool f).outer = s.outer := rfl
@[simp] theorem State.updPool_fab (f : Pool → Pool) : (s.updPool f).fab = s.fab := rfl
@[simp] theorem State.updPool_line (f : Pool → Pool) : (s.updPool f).line = s.line := rfl
@[simp] theorem State.updPool_opt (f : Pool → Pool) : (s.updPool f).opt = s.opt := rfl
@[simp] theorem State.updPool_ciph (f : Pool → Pool) : (s.updPool f).ciph = s.ciph := rfl
@[simp] theorem State.updPool_host (f : Pool → Pool) : (s.updPool f).host = s.host := rfl
@[simp] theorem State.updPool_pool (f : Pool → Pool) : (s.updPool f).pool = f s.pool := rfl
@[simp] theorem State.updPool_mem (f : Pool → Pool) : (s.updPool f).mem = s.mem := rfl
@[simp] theorem State.updPool_time (f : Pool → Pool) : (s.updPool f).time = s.time := rfl
@[simp] theorem State.updPool_mgmt (f : Pool → Pool) : (s.updPool f).mgmt = s.mgmt := rfl
@[simp] theorem State.updPool_clk (f : Pool → Pool) : (s.updPool f).clk = s.clk := rfl
@[simp] theorem State.updPool_pwr (f : Pool → Pool) : (s.updPool f).pwr = s.pwr := rfl
@[simp] theorem State.updPool_boot (f : Pool → Pool) : (s.updPool f).boot = s.boot := rfl

/-! ## updMem -/

@[simp] theorem State.updMem_pending (f : MemB → MemB) : (s.updMem f).pending = s.pending := rfl
@[simp] theorem State.updMem_out (f : MemB → MemB) : (s.updMem f).out = s.out := rfl
@[simp] theorem State.updMem_freeCtr (f : MemB → MemB) : (s.updMem f).freeCtr = s.freeCtr := rfl
@[simp] theorem State.updMem_pages (f : MemB → MemB) : (s.updMem f).pages = s.pages := rfl
@[simp] theorem State.updMem_regs (f : MemB → MemB) : (s.updMem f).regs = s.regs := rfl
@[simp] theorem State.updMem_cnts (f : MemB → MemB) : (s.updMem f).cnts = s.cnts := rfl
@[simp] theorem State.updMem_snaps (f : MemB → MemB) : (s.updMem f).snaps = s.snaps := rfl
@[simp] theorem State.updMem_latch (f : MemB → MemB) : (s.updMem f).latch = s.latch := rfl
@[simp] theorem State.updMem_heldLo (f : MemB → MemB) : (s.updMem f).heldLo = s.heldLo := rfl
@[simp] theorem State.updMem_sch (f : MemB → MemB) : (s.updMem f).sch = s.sch := rfl
@[simp] theorem State.updMem_vat (f : MemB → MemB) : (s.updMem f).vat = s.vat := rfl
@[simp] theorem State.updMem_eng (f : MemB → MemB) : (s.updMem f).eng = s.eng := rfl
@[simp] theorem State.updMem_gc (f : MemB → MemB) : (s.updMem f).gc = s.gc := rfl
@[simp] theorem State.updMem_sheet (f : MemB → MemB) : (s.updMem f).sheet = s.sheet := rfl
@[simp] theorem State.updMem_ring (f : MemB → MemB) : (s.updMem f).ring = s.ring := rfl
@[simp] theorem State.updMem_outer (f : MemB → MemB) : (s.updMem f).outer = s.outer := rfl
@[simp] theorem State.updMem_fab (f : MemB → MemB) : (s.updMem f).fab = s.fab := rfl
@[simp] theorem State.updMem_line (f : MemB → MemB) : (s.updMem f).line = s.line := rfl
@[simp] theorem State.updMem_opt (f : MemB → MemB) : (s.updMem f).opt = s.opt := rfl
@[simp] theorem State.updMem_ciph (f : MemB → MemB) : (s.updMem f).ciph = s.ciph := rfl
@[simp] theorem State.updMem_host (f : MemB → MemB) : (s.updMem f).host = s.host := rfl
@[simp] theorem State.updMem_pool (f : MemB → MemB) : (s.updMem f).pool = s.pool := rfl
@[simp] theorem State.updMem_mem (f : MemB → MemB) : (s.updMem f).mem = f s.mem := rfl
@[simp] theorem State.updMem_time (f : MemB → MemB) : (s.updMem f).time = s.time := rfl
@[simp] theorem State.updMem_mgmt (f : MemB → MemB) : (s.updMem f).mgmt = s.mgmt := rfl
@[simp] theorem State.updMem_clk (f : MemB → MemB) : (s.updMem f).clk = s.clk := rfl
@[simp] theorem State.updMem_pwr (f : MemB → MemB) : (s.updMem f).pwr = s.pwr := rfl
@[simp] theorem State.updMem_boot (f : MemB → MemB) : (s.updMem f).boot = s.boot := rfl

/-! ## updTime -/

@[simp] theorem State.updTime_pending (f : TimeB → TimeB) : (s.updTime f).pending = s.pending := rfl
@[simp] theorem State.updTime_out (f : TimeB → TimeB) : (s.updTime f).out = s.out := rfl
@[simp] theorem State.updTime_freeCtr (f : TimeB → TimeB) : (s.updTime f).freeCtr = s.freeCtr := rfl
@[simp] theorem State.updTime_pages (f : TimeB → TimeB) : (s.updTime f).pages = s.pages := rfl
@[simp] theorem State.updTime_regs (f : TimeB → TimeB) : (s.updTime f).regs = s.regs := rfl
@[simp] theorem State.updTime_cnts (f : TimeB → TimeB) : (s.updTime f).cnts = s.cnts := rfl
@[simp] theorem State.updTime_snaps (f : TimeB → TimeB) : (s.updTime f).snaps = s.snaps := rfl
@[simp] theorem State.updTime_latch (f : TimeB → TimeB) : (s.updTime f).latch = s.latch := rfl
@[simp] theorem State.updTime_heldLo (f : TimeB → TimeB) : (s.updTime f).heldLo = s.heldLo := rfl
@[simp] theorem State.updTime_sch (f : TimeB → TimeB) : (s.updTime f).sch = s.sch := rfl
@[simp] theorem State.updTime_vat (f : TimeB → TimeB) : (s.updTime f).vat = s.vat := rfl
@[simp] theorem State.updTime_eng (f : TimeB → TimeB) : (s.updTime f).eng = s.eng := rfl
@[simp] theorem State.updTime_gc (f : TimeB → TimeB) : (s.updTime f).gc = s.gc := rfl
@[simp] theorem State.updTime_sheet (f : TimeB → TimeB) : (s.updTime f).sheet = s.sheet := rfl
@[simp] theorem State.updTime_ring (f : TimeB → TimeB) : (s.updTime f).ring = s.ring := rfl
@[simp] theorem State.updTime_outer (f : TimeB → TimeB) : (s.updTime f).outer = s.outer := rfl
@[simp] theorem State.updTime_fab (f : TimeB → TimeB) : (s.updTime f).fab = s.fab := rfl
@[simp] theorem State.updTime_line (f : TimeB → TimeB) : (s.updTime f).line = s.line := rfl
@[simp] theorem State.updTime_opt (f : TimeB → TimeB) : (s.updTime f).opt = s.opt := rfl
@[simp] theorem State.updTime_ciph (f : TimeB → TimeB) : (s.updTime f).ciph = s.ciph := rfl
@[simp] theorem State.updTime_host (f : TimeB → TimeB) : (s.updTime f).host = s.host := rfl
@[simp] theorem State.updTime_pool (f : TimeB → TimeB) : (s.updTime f).pool = s.pool := rfl
@[simp] theorem State.updTime_mem (f : TimeB → TimeB) : (s.updTime f).mem = s.mem := rfl
@[simp] theorem State.updTime_time (f : TimeB → TimeB) : (s.updTime f).time = f s.time := rfl
@[simp] theorem State.updTime_mgmt (f : TimeB → TimeB) : (s.updTime f).mgmt = s.mgmt := rfl
@[simp] theorem State.updTime_clk (f : TimeB → TimeB) : (s.updTime f).clk = s.clk := rfl
@[simp] theorem State.updTime_pwr (f : TimeB → TimeB) : (s.updTime f).pwr = s.pwr := rfl
@[simp] theorem State.updTime_boot (f : TimeB → TimeB) : (s.updTime f).boot = s.boot := rfl

/-! ## updMgmt -/

@[simp] theorem State.updMgmt_pending (f : Mgmt → Mgmt) : (s.updMgmt f).pending = s.pending := rfl
@[simp] theorem State.updMgmt_out (f : Mgmt → Mgmt) : (s.updMgmt f).out = s.out := rfl
@[simp] theorem State.updMgmt_freeCtr (f : Mgmt → Mgmt) : (s.updMgmt f).freeCtr = s.freeCtr := rfl
@[simp] theorem State.updMgmt_pages (f : Mgmt → Mgmt) : (s.updMgmt f).pages = s.pages := rfl
@[simp] theorem State.updMgmt_regs (f : Mgmt → Mgmt) : (s.updMgmt f).regs = s.regs := rfl
@[simp] theorem State.updMgmt_cnts (f : Mgmt → Mgmt) : (s.updMgmt f).cnts = s.cnts := rfl
@[simp] theorem State.updMgmt_snaps (f : Mgmt → Mgmt) : (s.updMgmt f).snaps = s.snaps := rfl
@[simp] theorem State.updMgmt_latch (f : Mgmt → Mgmt) : (s.updMgmt f).latch = s.latch := rfl
@[simp] theorem State.updMgmt_heldLo (f : Mgmt → Mgmt) : (s.updMgmt f).heldLo = s.heldLo := rfl
@[simp] theorem State.updMgmt_sch (f : Mgmt → Mgmt) : (s.updMgmt f).sch = s.sch := rfl
@[simp] theorem State.updMgmt_vat (f : Mgmt → Mgmt) : (s.updMgmt f).vat = s.vat := rfl
@[simp] theorem State.updMgmt_eng (f : Mgmt → Mgmt) : (s.updMgmt f).eng = s.eng := rfl
@[simp] theorem State.updMgmt_gc (f : Mgmt → Mgmt) : (s.updMgmt f).gc = s.gc := rfl
@[simp] theorem State.updMgmt_sheet (f : Mgmt → Mgmt) : (s.updMgmt f).sheet = s.sheet := rfl
@[simp] theorem State.updMgmt_ring (f : Mgmt → Mgmt) : (s.updMgmt f).ring = s.ring := rfl
@[simp] theorem State.updMgmt_outer (f : Mgmt → Mgmt) : (s.updMgmt f).outer = s.outer := rfl
@[simp] theorem State.updMgmt_fab (f : Mgmt → Mgmt) : (s.updMgmt f).fab = s.fab := rfl
@[simp] theorem State.updMgmt_line (f : Mgmt → Mgmt) : (s.updMgmt f).line = s.line := rfl
@[simp] theorem State.updMgmt_opt (f : Mgmt → Mgmt) : (s.updMgmt f).opt = s.opt := rfl
@[simp] theorem State.updMgmt_ciph (f : Mgmt → Mgmt) : (s.updMgmt f).ciph = s.ciph := rfl
@[simp] theorem State.updMgmt_host (f : Mgmt → Mgmt) : (s.updMgmt f).host = s.host := rfl
@[simp] theorem State.updMgmt_pool (f : Mgmt → Mgmt) : (s.updMgmt f).pool = s.pool := rfl
@[simp] theorem State.updMgmt_mem (f : Mgmt → Mgmt) : (s.updMgmt f).mem = s.mem := rfl
@[simp] theorem State.updMgmt_time (f : Mgmt → Mgmt) : (s.updMgmt f).time = s.time := rfl
@[simp] theorem State.updMgmt_mgmt (f : Mgmt → Mgmt) : (s.updMgmt f).mgmt = f s.mgmt := rfl
@[simp] theorem State.updMgmt_clk (f : Mgmt → Mgmt) : (s.updMgmt f).clk = s.clk := rfl
@[simp] theorem State.updMgmt_pwr (f : Mgmt → Mgmt) : (s.updMgmt f).pwr = s.pwr := rfl
@[simp] theorem State.updMgmt_boot (f : Mgmt → Mgmt) : (s.updMgmt f).boot = s.boot := rfl

/-! ## updClk -/

@[simp] theorem State.updClk_pending (f : Clk → Clk) : (s.updClk f).pending = s.pending := rfl
@[simp] theorem State.updClk_out (f : Clk → Clk) : (s.updClk f).out = s.out := rfl
@[simp] theorem State.updClk_freeCtr (f : Clk → Clk) : (s.updClk f).freeCtr = s.freeCtr := rfl
@[simp] theorem State.updClk_pages (f : Clk → Clk) : (s.updClk f).pages = s.pages := rfl
@[simp] theorem State.updClk_regs (f : Clk → Clk) : (s.updClk f).regs = s.regs := rfl
@[simp] theorem State.updClk_cnts (f : Clk → Clk) : (s.updClk f).cnts = s.cnts := rfl
@[simp] theorem State.updClk_snaps (f : Clk → Clk) : (s.updClk f).snaps = s.snaps := rfl
@[simp] theorem State.updClk_latch (f : Clk → Clk) : (s.updClk f).latch = s.latch := rfl
@[simp] theorem State.updClk_heldLo (f : Clk → Clk) : (s.updClk f).heldLo = s.heldLo := rfl
@[simp] theorem State.updClk_sch (f : Clk → Clk) : (s.updClk f).sch = s.sch := rfl
@[simp] theorem State.updClk_vat (f : Clk → Clk) : (s.updClk f).vat = s.vat := rfl
@[simp] theorem State.updClk_eng (f : Clk → Clk) : (s.updClk f).eng = s.eng := rfl
@[simp] theorem State.updClk_gc (f : Clk → Clk) : (s.updClk f).gc = s.gc := rfl
@[simp] theorem State.updClk_sheet (f : Clk → Clk) : (s.updClk f).sheet = s.sheet := rfl
@[simp] theorem State.updClk_ring (f : Clk → Clk) : (s.updClk f).ring = s.ring := rfl
@[simp] theorem State.updClk_outer (f : Clk → Clk) : (s.updClk f).outer = s.outer := rfl
@[simp] theorem State.updClk_fab (f : Clk → Clk) : (s.updClk f).fab = s.fab := rfl
@[simp] theorem State.updClk_line (f : Clk → Clk) : (s.updClk f).line = s.line := rfl
@[simp] theorem State.updClk_opt (f : Clk → Clk) : (s.updClk f).opt = s.opt := rfl
@[simp] theorem State.updClk_ciph (f : Clk → Clk) : (s.updClk f).ciph = s.ciph := rfl
@[simp] theorem State.updClk_host (f : Clk → Clk) : (s.updClk f).host = s.host := rfl
@[simp] theorem State.updClk_pool (f : Clk → Clk) : (s.updClk f).pool = s.pool := rfl
@[simp] theorem State.updClk_mem (f : Clk → Clk) : (s.updClk f).mem = s.mem := rfl
@[simp] theorem State.updClk_time (f : Clk → Clk) : (s.updClk f).time = s.time := rfl
@[simp] theorem State.updClk_mgmt (f : Clk → Clk) : (s.updClk f).mgmt = s.mgmt := rfl
@[simp] theorem State.updClk_clk (f : Clk → Clk) : (s.updClk f).clk = f s.clk := rfl
@[simp] theorem State.updClk_pwr (f : Clk → Clk) : (s.updClk f).pwr = s.pwr := rfl
@[simp] theorem State.updClk_boot (f : Clk → Clk) : (s.updClk f).boot = s.boot := rfl

/-! ## updPwr -/

@[simp] theorem State.updPwr_pending (f : Pwr → Pwr) : (s.updPwr f).pending = s.pending := rfl
@[simp] theorem State.updPwr_out (f : Pwr → Pwr) : (s.updPwr f).out = s.out := rfl
@[simp] theorem State.updPwr_freeCtr (f : Pwr → Pwr) : (s.updPwr f).freeCtr = s.freeCtr := rfl
@[simp] theorem State.updPwr_pages (f : Pwr → Pwr) : (s.updPwr f).pages = s.pages := rfl
@[simp] theorem State.updPwr_regs (f : Pwr → Pwr) : (s.updPwr f).regs = s.regs := rfl
@[simp] theorem State.updPwr_cnts (f : Pwr → Pwr) : (s.updPwr f).cnts = s.cnts := rfl
@[simp] theorem State.updPwr_snaps (f : Pwr → Pwr) : (s.updPwr f).snaps = s.snaps := rfl
@[simp] theorem State.updPwr_latch (f : Pwr → Pwr) : (s.updPwr f).latch = s.latch := rfl
@[simp] theorem State.updPwr_heldLo (f : Pwr → Pwr) : (s.updPwr f).heldLo = s.heldLo := rfl
@[simp] theorem State.updPwr_sch (f : Pwr → Pwr) : (s.updPwr f).sch = s.sch := rfl
@[simp] theorem State.updPwr_vat (f : Pwr → Pwr) : (s.updPwr f).vat = s.vat := rfl
@[simp] theorem State.updPwr_eng (f : Pwr → Pwr) : (s.updPwr f).eng = s.eng := rfl
@[simp] theorem State.updPwr_gc (f : Pwr → Pwr) : (s.updPwr f).gc = s.gc := rfl
@[simp] theorem State.updPwr_sheet (f : Pwr → Pwr) : (s.updPwr f).sheet = s.sheet := rfl
@[simp] theorem State.updPwr_ring (f : Pwr → Pwr) : (s.updPwr f).ring = s.ring := rfl
@[simp] theorem State.updPwr_outer (f : Pwr → Pwr) : (s.updPwr f).outer = s.outer := rfl
@[simp] theorem State.updPwr_fab (f : Pwr → Pwr) : (s.updPwr f).fab = s.fab := rfl
@[simp] theorem State.updPwr_line (f : Pwr → Pwr) : (s.updPwr f).line = s.line := rfl
@[simp] theorem State.updPwr_opt (f : Pwr → Pwr) : (s.updPwr f).opt = s.opt := rfl
@[simp] theorem State.updPwr_ciph (f : Pwr → Pwr) : (s.updPwr f).ciph = s.ciph := rfl
@[simp] theorem State.updPwr_host (f : Pwr → Pwr) : (s.updPwr f).host = s.host := rfl
@[simp] theorem State.updPwr_pool (f : Pwr → Pwr) : (s.updPwr f).pool = s.pool := rfl
@[simp] theorem State.updPwr_mem (f : Pwr → Pwr) : (s.updPwr f).mem = s.mem := rfl
@[simp] theorem State.updPwr_time (f : Pwr → Pwr) : (s.updPwr f).time = s.time := rfl
@[simp] theorem State.updPwr_mgmt (f : Pwr → Pwr) : (s.updPwr f).mgmt = s.mgmt := rfl
@[simp] theorem State.updPwr_clk (f : Pwr → Pwr) : (s.updPwr f).clk = s.clk := rfl
@[simp] theorem State.updPwr_pwr (f : Pwr → Pwr) : (s.updPwr f).pwr = f s.pwr := rfl
@[simp] theorem State.updPwr_boot (f : Pwr → Pwr) : (s.updPwr f).boot = s.boot := rfl

/-! ## updBoot -/

@[simp] theorem State.updBoot_pending (f : Boot → Boot) : (s.updBoot f).pending = s.pending := rfl
@[simp] theorem State.updBoot_out (f : Boot → Boot) : (s.updBoot f).out = s.out := rfl
@[simp] theorem State.updBoot_freeCtr (f : Boot → Boot) : (s.updBoot f).freeCtr = s.freeCtr := rfl
@[simp] theorem State.updBoot_pages (f : Boot → Boot) : (s.updBoot f).pages = s.pages := rfl
@[simp] theorem State.updBoot_regs (f : Boot → Boot) : (s.updBoot f).regs = s.regs := rfl
@[simp] theorem State.updBoot_cnts (f : Boot → Boot) : (s.updBoot f).cnts = s.cnts := rfl
@[simp] theorem State.updBoot_snaps (f : Boot → Boot) : (s.updBoot f).snaps = s.snaps := rfl
@[simp] theorem State.updBoot_latch (f : Boot → Boot) : (s.updBoot f).latch = s.latch := rfl
@[simp] theorem State.updBoot_heldLo (f : Boot → Boot) : (s.updBoot f).heldLo = s.heldLo := rfl
@[simp] theorem State.updBoot_sch (f : Boot → Boot) : (s.updBoot f).sch = s.sch := rfl
@[simp] theorem State.updBoot_vat (f : Boot → Boot) : (s.updBoot f).vat = s.vat := rfl
@[simp] theorem State.updBoot_eng (f : Boot → Boot) : (s.updBoot f).eng = s.eng := rfl
@[simp] theorem State.updBoot_gc (f : Boot → Boot) : (s.updBoot f).gc = s.gc := rfl
@[simp] theorem State.updBoot_sheet (f : Boot → Boot) : (s.updBoot f).sheet = s.sheet := rfl
@[simp] theorem State.updBoot_ring (f : Boot → Boot) : (s.updBoot f).ring = s.ring := rfl
@[simp] theorem State.updBoot_outer (f : Boot → Boot) : (s.updBoot f).outer = s.outer := rfl
@[simp] theorem State.updBoot_fab (f : Boot → Boot) : (s.updBoot f).fab = s.fab := rfl
@[simp] theorem State.updBoot_line (f : Boot → Boot) : (s.updBoot f).line = s.line := rfl
@[simp] theorem State.updBoot_opt (f : Boot → Boot) : (s.updBoot f).opt = s.opt := rfl
@[simp] theorem State.updBoot_ciph (f : Boot → Boot) : (s.updBoot f).ciph = s.ciph := rfl
@[simp] theorem State.updBoot_host (f : Boot → Boot) : (s.updBoot f).host = s.host := rfl
@[simp] theorem State.updBoot_pool (f : Boot → Boot) : (s.updBoot f).pool = s.pool := rfl
@[simp] theorem State.updBoot_mem (f : Boot → Boot) : (s.updBoot f).mem = s.mem := rfl
@[simp] theorem State.updBoot_time (f : Boot → Boot) : (s.updBoot f).time = s.time := rfl
@[simp] theorem State.updBoot_mgmt (f : Boot → Boot) : (s.updBoot f).mgmt = s.mgmt := rfl
@[simp] theorem State.updBoot_clk (f : Boot → Boot) : (s.updBoot f).clk = s.clk := rfl
@[simp] theorem State.updBoot_pwr (f : Boot → Boot) : (s.updBoot f).pwr = s.pwr := rfl
@[simp] theorem State.updBoot_boot (f : Boot → Boot) : (s.updBoot f).boot = f s.boot := rfl

/-! ## emit -/

@[simp] theorem State.emit_pending (o : Out) : (s.emit o).pending = s.pending := rfl
@[simp] theorem State.emit_out (o : Out) : (s.emit o).out = s.out ++ [o] := rfl
@[simp] theorem State.emit_freeCtr (o : Out) : (s.emit o).freeCtr = s.freeCtr := rfl
@[simp] theorem State.emit_pages (o : Out) : (s.emit o).pages = s.pages := rfl
@[simp] theorem State.emit_regs (o : Out) : (s.emit o).regs = s.regs := rfl
@[simp] theorem State.emit_cnts (o : Out) : (s.emit o).cnts = s.cnts := rfl
@[simp] theorem State.emit_snaps (o : Out) : (s.emit o).snaps = s.snaps := rfl
@[simp] theorem State.emit_latch (o : Out) : (s.emit o).latch = s.latch := rfl
@[simp] theorem State.emit_heldLo (o : Out) : (s.emit o).heldLo = s.heldLo := rfl
@[simp] theorem State.emit_sch (o : Out) : (s.emit o).sch = s.sch := rfl
@[simp] theorem State.emit_vat (o : Out) : (s.emit o).vat = s.vat := rfl
@[simp] theorem State.emit_eng (o : Out) : (s.emit o).eng = s.eng := rfl
@[simp] theorem State.emit_gc (o : Out) : (s.emit o).gc = s.gc := rfl
@[simp] theorem State.emit_sheet (o : Out) : (s.emit o).sheet = s.sheet := rfl
@[simp] theorem State.emit_ring (o : Out) : (s.emit o).ring = s.ring := rfl
@[simp] theorem State.emit_outer (o : Out) : (s.emit o).outer = s.outer := rfl
@[simp] theorem State.emit_fab (o : Out) : (s.emit o).fab = s.fab := rfl
@[simp] theorem State.emit_line (o : Out) : (s.emit o).line = s.line := rfl
@[simp] theorem State.emit_opt (o : Out) : (s.emit o).opt = s.opt := rfl
@[simp] theorem State.emit_ciph (o : Out) : (s.emit o).ciph = s.ciph := rfl
@[simp] theorem State.emit_host (o : Out) : (s.emit o).host = s.host := rfl
@[simp] theorem State.emit_pool (o : Out) : (s.emit o).pool = s.pool := rfl
@[simp] theorem State.emit_mem (o : Out) : (s.emit o).mem = s.mem := rfl
@[simp] theorem State.emit_time (o : Out) : (s.emit o).time = s.time := rfl
@[simp] theorem State.emit_mgmt (o : Out) : (s.emit o).mgmt = s.mgmt := rfl
@[simp] theorem State.emit_clk (o : Out) : (s.emit o).clk = s.clk := rfl
@[simp] theorem State.emit_pwr (o : Out) : (s.emit o).pwr = s.pwr := rfl
@[simp] theorem State.emit_boot (o : Out) : (s.emit o).boot = s.boot := rfl

/-! ## draw -/

@[simp] theorem State.draw_fst : s.draw.1 = Config.free s.freeCtr := rfl
@[simp] theorem State.draw_pending : s.draw.2.pending = s.pending := rfl
@[simp] theorem State.draw_out : s.draw.2.out = s.out := rfl
@[simp] theorem State.draw_freeCtr : s.draw.2.freeCtr = s.freeCtr + 1 := rfl
@[simp] theorem State.draw_pages : s.draw.2.pages = s.pages := rfl
@[simp] theorem State.draw_regs : s.draw.2.regs = s.regs := rfl
@[simp] theorem State.draw_cnts : s.draw.2.cnts = s.cnts := rfl
@[simp] theorem State.draw_snaps : s.draw.2.snaps = s.snaps := rfl
@[simp] theorem State.draw_latch : s.draw.2.latch = s.latch := rfl
@[simp] theorem State.draw_heldLo : s.draw.2.heldLo = s.heldLo := rfl
@[simp] theorem State.draw_sch : s.draw.2.sch = s.sch := rfl
@[simp] theorem State.draw_vat : s.draw.2.vat = s.vat := rfl
@[simp] theorem State.draw_eng : s.draw.2.eng = s.eng := rfl
@[simp] theorem State.draw_gc : s.draw.2.gc = s.gc := rfl
@[simp] theorem State.draw_sheet : s.draw.2.sheet = s.sheet := rfl
@[simp] theorem State.draw_ring : s.draw.2.ring = s.ring := rfl
@[simp] theorem State.draw_outer : s.draw.2.outer = s.outer := rfl
@[simp] theorem State.draw_fab : s.draw.2.fab = s.fab := rfl
@[simp] theorem State.draw_line : s.draw.2.line = s.line := rfl
@[simp] theorem State.draw_opt : s.draw.2.opt = s.opt := rfl
@[simp] theorem State.draw_ciph : s.draw.2.ciph = s.ciph := rfl
@[simp] theorem State.draw_host : s.draw.2.host = s.host := rfl
@[simp] theorem State.draw_pool : s.draw.2.pool = s.pool := rfl
@[simp] theorem State.draw_mem : s.draw.2.mem = s.mem := rfl
@[simp] theorem State.draw_time : s.draw.2.time = s.time := rfl
@[simp] theorem State.draw_mgmt : s.draw.2.mgmt = s.mgmt := rfl
@[simp] theorem State.draw_clk : s.draw.2.clk = s.clk := rfl
@[simp] theorem State.draw_pwr : s.draw.2.pwr = s.pwr := rfl
@[simp] theorem State.draw_boot : s.draw.2.boot = s.boot := rfl

/-! ## setReg -/

@[simp] theorem State.setReg_pending (p o : Nat) (v : Word) (ix : Nat) : (s.setReg p o v ix).pending = s.pending := by rw [State.setReg]
@[simp] theorem State.setReg_out (p o : Nat) (v : Word) (ix : Nat) : (s.setReg p o v ix).out = s.out := by rw [State.setReg]
@[simp] theorem State.setReg_freeCtr (p o : Nat) (v : Word) (ix : Nat) : (s.setReg p o v ix).freeCtr = s.freeCtr := by rw [State.setReg]
@[simp] theorem State.setReg_pages (p o : Nat) (v : Word) (ix : Nat) : (s.setReg p o v ix).pages = s.pages := by rw [State.setReg]
@[simp] theorem State.setReg_regs (p o : Nat) (v : Word) (ix : Nat) : (s.setReg p o v ix).regs = SMap.set regDefault (regKey p o ix) v s.regs := by rw [State.setReg]
@[simp] theorem State.setReg_cnts (p o : Nat) (v : Word) (ix : Nat) : (s.setReg p o v ix).cnts = s.cnts := by rw [State.setReg]
@[simp] theorem State.setReg_snaps (p o : Nat) (v : Word) (ix : Nat) : (s.setReg p o v ix).snaps = s.snaps := by rw [State.setReg]
@[simp] theorem State.setReg_latch (p o : Nat) (v : Word) (ix : Nat) : (s.setReg p o v ix).latch = s.latch := by rw [State.setReg]
@[simp] theorem State.setReg_heldLo (p o : Nat) (v : Word) (ix : Nat) : (s.setReg p o v ix).heldLo = s.heldLo := by rw [State.setReg]
@[simp] theorem State.setReg_sch (p o : Nat) (v : Word) (ix : Nat) : (s.setReg p o v ix).sch = s.sch := by rw [State.setReg]
@[simp] theorem State.setReg_vat (p o : Nat) (v : Word) (ix : Nat) : (s.setReg p o v ix).vat = s.vat := by rw [State.setReg]
@[simp] theorem State.setReg_eng (p o : Nat) (v : Word) (ix : Nat) : (s.setReg p o v ix).eng = s.eng := by rw [State.setReg]
@[simp] theorem State.setReg_gc (p o : Nat) (v : Word) (ix : Nat) : (s.setReg p o v ix).gc = s.gc := by rw [State.setReg]
@[simp] theorem State.setReg_sheet (p o : Nat) (v : Word) (ix : Nat) : (s.setReg p o v ix).sheet = s.sheet := by rw [State.setReg]
@[simp] theorem State.setReg_ring (p o : Nat) (v : Word) (ix : Nat) : (s.setReg p o v ix).ring = s.ring := by rw [State.setReg]
@[simp] theorem State.setReg_outer (p o : Nat) (v : Word) (ix : Nat) : (s.setReg p o v ix).outer = s.outer := by rw [State.setReg]
@[simp] theorem State.setReg_fab (p o : Nat) (v : Word) (ix : Nat) : (s.setReg p o v ix).fab = s.fab := by rw [State.setReg]
@[simp] theorem State.setReg_line (p o : Nat) (v : Word) (ix : Nat) : (s.setReg p o v ix).line = s.line := by rw [State.setReg]
@[simp] theorem State.setReg_opt (p o : Nat) (v : Word) (ix : Nat) : (s.setReg p o v ix).opt = s.opt := by rw [State.setReg]
@[simp] theorem State.setReg_ciph (p o : Nat) (v : Word) (ix : Nat) : (s.setReg p o v ix).ciph = s.ciph := by rw [State.setReg]
@[simp] theorem State.setReg_host (p o : Nat) (v : Word) (ix : Nat) : (s.setReg p o v ix).host = s.host := by rw [State.setReg]
@[simp] theorem State.setReg_pool (p o : Nat) (v : Word) (ix : Nat) : (s.setReg p o v ix).pool = s.pool := by rw [State.setReg]
@[simp] theorem State.setReg_mem (p o : Nat) (v : Word) (ix : Nat) : (s.setReg p o v ix).mem = s.mem := by rw [State.setReg]
@[simp] theorem State.setReg_time (p o : Nat) (v : Word) (ix : Nat) : (s.setReg p o v ix).time = s.time := by rw [State.setReg]
@[simp] theorem State.setReg_mgmt (p o : Nat) (v : Word) (ix : Nat) : (s.setReg p o v ix).mgmt = s.mgmt := by rw [State.setReg]
@[simp] theorem State.setReg_clk (p o : Nat) (v : Word) (ix : Nat) : (s.setReg p o v ix).clk = s.clk := by rw [State.setReg]
@[simp] theorem State.setReg_pwr (p o : Nat) (v : Word) (ix : Nat) : (s.setReg p o v ix).pwr = s.pwr := by rw [State.setReg]
@[simp] theorem State.setReg_boot (p o : Nat) (v : Word) (ix : Nat) : (s.setReg p o v ix).boot = s.boot := by rw [State.setReg]

/-! ## updHdr -/

@[simp] theorem State.updHdr_pending (p : Nat) (f : PageHdr → PageHdr) : (s.updHdr p f).pending = s.pending := by rw [State.updHdr]
@[simp] theorem State.updHdr_out (p : Nat) (f : PageHdr → PageHdr) : (s.updHdr p f).out = s.out := by rw [State.updHdr]
@[simp] theorem State.updHdr_freeCtr (p : Nat) (f : PageHdr → PageHdr) : (s.updHdr p f).freeCtr = s.freeCtr := by rw [State.updHdr]
@[simp] theorem State.updHdr_pages (p : Nat) (f : PageHdr → PageHdr) : (s.updHdr p f).pages = SMap.modify hdrDefault p f s.pages := by rw [State.updHdr]
@[simp] theorem State.updHdr_regs (p : Nat) (f : PageHdr → PageHdr) : (s.updHdr p f).regs = s.regs := by rw [State.updHdr]
@[simp] theorem State.updHdr_cnts (p : Nat) (f : PageHdr → PageHdr) : (s.updHdr p f).cnts = s.cnts := by rw [State.updHdr]
@[simp] theorem State.updHdr_snaps (p : Nat) (f : PageHdr → PageHdr) : (s.updHdr p f).snaps = s.snaps := by rw [State.updHdr]
@[simp] theorem State.updHdr_latch (p : Nat) (f : PageHdr → PageHdr) : (s.updHdr p f).latch = s.latch := by rw [State.updHdr]
@[simp] theorem State.updHdr_heldLo (p : Nat) (f : PageHdr → PageHdr) : (s.updHdr p f).heldLo = s.heldLo := by rw [State.updHdr]
@[simp] theorem State.updHdr_sch (p : Nat) (f : PageHdr → PageHdr) : (s.updHdr p f).sch = s.sch := by rw [State.updHdr]
@[simp] theorem State.updHdr_vat (p : Nat) (f : PageHdr → PageHdr) : (s.updHdr p f).vat = s.vat := by rw [State.updHdr]
@[simp] theorem State.updHdr_eng (p : Nat) (f : PageHdr → PageHdr) : (s.updHdr p f).eng = s.eng := by rw [State.updHdr]
@[simp] theorem State.updHdr_gc (p : Nat) (f : PageHdr → PageHdr) : (s.updHdr p f).gc = s.gc := by rw [State.updHdr]
@[simp] theorem State.updHdr_sheet (p : Nat) (f : PageHdr → PageHdr) : (s.updHdr p f).sheet = s.sheet := by rw [State.updHdr]
@[simp] theorem State.updHdr_ring (p : Nat) (f : PageHdr → PageHdr) : (s.updHdr p f).ring = s.ring := by rw [State.updHdr]
@[simp] theorem State.updHdr_outer (p : Nat) (f : PageHdr → PageHdr) : (s.updHdr p f).outer = s.outer := by rw [State.updHdr]
@[simp] theorem State.updHdr_fab (p : Nat) (f : PageHdr → PageHdr) : (s.updHdr p f).fab = s.fab := by rw [State.updHdr]
@[simp] theorem State.updHdr_line (p : Nat) (f : PageHdr → PageHdr) : (s.updHdr p f).line = s.line := by rw [State.updHdr]
@[simp] theorem State.updHdr_opt (p : Nat) (f : PageHdr → PageHdr) : (s.updHdr p f).opt = s.opt := by rw [State.updHdr]
@[simp] theorem State.updHdr_ciph (p : Nat) (f : PageHdr → PageHdr) : (s.updHdr p f).ciph = s.ciph := by rw [State.updHdr]
@[simp] theorem State.updHdr_host (p : Nat) (f : PageHdr → PageHdr) : (s.updHdr p f).host = s.host := by rw [State.updHdr]
@[simp] theorem State.updHdr_pool (p : Nat) (f : PageHdr → PageHdr) : (s.updHdr p f).pool = s.pool := by rw [State.updHdr]
@[simp] theorem State.updHdr_mem (p : Nat) (f : PageHdr → PageHdr) : (s.updHdr p f).mem = s.mem := by rw [State.updHdr]
@[simp] theorem State.updHdr_time (p : Nat) (f : PageHdr → PageHdr) : (s.updHdr p f).time = s.time := by rw [State.updHdr]
@[simp] theorem State.updHdr_mgmt (p : Nat) (f : PageHdr → PageHdr) : (s.updHdr p f).mgmt = s.mgmt := by rw [State.updHdr]
@[simp] theorem State.updHdr_clk (p : Nat) (f : PageHdr → PageHdr) : (s.updHdr p f).clk = s.clk := by rw [State.updHdr]
@[simp] theorem State.updHdr_pwr (p : Nat) (f : PageHdr → PageHdr) : (s.updHdr p f).pwr = s.pwr := by rw [State.updHdr]
@[simp] theorem State.updHdr_boot (p : Nat) (f : PageHdr → PageHdr) : (s.updHdr p f).boot = s.boot := by rw [State.updHdr]

/-! ## Readers after an update of something else -/

@[simp] theorem State.updSch_reg_eq (f : Sch → Sch) (p o ix : Nat) : (s.updSch f).reg p o ix = s.reg p o ix := rfl
@[simp] theorem State.updVat_reg_eq (f : Vat → Vat) (p o ix : Nat) : (s.updVat f).reg p o ix = s.reg p o ix := rfl
@[simp] theorem State.updEng_reg_eq (f : Eng → Eng) (p o ix : Nat) : (s.updEng f).reg p o ix = s.reg p o ix := rfl
@[simp] theorem State.updGc_reg_eq (f : Gc → Gc) (p o ix : Nat) : (s.updGc f).reg p o ix = s.reg p o ix := rfl
@[simp] theorem State.updSheet_reg_eq (f : SheetB → SheetB) (p o ix : Nat) : (s.updSheet f).reg p o ix = s.reg p o ix := rfl
@[simp] theorem State.updRing_reg_eq (f : Ring → Ring) (p o ix : Nat) : (s.updRing f).reg p o ix = s.reg p o ix := rfl
@[simp] theorem State.updOuter_reg_eq (f : Outer → Outer) (p o ix : Nat) : (s.updOuter f).reg p o ix = s.reg p o ix := rfl
@[simp] theorem State.updFab_reg_eq (f : FabB → FabB) (p o ix : Nat) : (s.updFab f).reg p o ix = s.reg p o ix := rfl
@[simp] theorem State.updLine_reg_eq (f : LineB → LineB) (p o ix : Nat) : (s.updLine f).reg p o ix = s.reg p o ix := rfl
@[simp] theorem State.updOpt_reg_eq (f : Opt → Opt) (p o ix : Nat) : (s.updOpt f).reg p o ix = s.reg p o ix := rfl
@[simp] theorem State.updCiph_reg_eq (f : Ciph → Ciph) (p o ix : Nat) : (s.updCiph f).reg p o ix = s.reg p o ix := rfl
@[simp] theorem State.updHost_reg_eq (f : HostB → HostB) (p o ix : Nat) : (s.updHost f).reg p o ix = s.reg p o ix := rfl
@[simp] theorem State.updPool_reg_eq (f : Pool → Pool) (p o ix : Nat) : (s.updPool f).reg p o ix = s.reg p o ix := rfl
@[simp] theorem State.updMem_reg_eq (f : MemB → MemB) (p o ix : Nat) : (s.updMem f).reg p o ix = s.reg p o ix := rfl
@[simp] theorem State.updTime_reg_eq (f : TimeB → TimeB) (p o ix : Nat) : (s.updTime f).reg p o ix = s.reg p o ix := rfl
@[simp] theorem State.updMgmt_reg_eq (f : Mgmt → Mgmt) (p o ix : Nat) : (s.updMgmt f).reg p o ix = s.reg p o ix := rfl
@[simp] theorem State.updClk_reg_eq (f : Clk → Clk) (p o ix : Nat) : (s.updClk f).reg p o ix = s.reg p o ix := rfl
@[simp] theorem State.updPwr_reg_eq (f : Pwr → Pwr) (p o ix : Nat) : (s.updPwr f).reg p o ix = s.reg p o ix := rfl
@[simp] theorem State.updBoot_reg_eq (f : Boot → Boot) (p o ix : Nat) : (s.updBoot f).reg p o ix = s.reg p o ix := rfl
@[simp] theorem State.emit_reg_eq (x : Out) (p o ix : Nat) : (s.emit x).reg p o ix = s.reg p o ix := rfl
@[simp] theorem State.draw_reg_eq (p o ix : Nat) : s.draw.2.reg p o ix = s.reg p o ix := rfl
@[simp] theorem State.updHdr_reg_eq (p : Nat) (f : PageHdr → PageHdr) (q o ix : Nat) : (s.updHdr p f).reg q o ix = s.reg q o ix := by unfold State.reg; simp only [State.updHdr_regs]
@[simp] theorem State.updSch_hdr_eq (f : Sch → Sch) (p : Nat) : (s.updSch f).hdr p = s.hdr p := rfl
@[simp] theorem State.updVat_hdr_eq (f : Vat → Vat) (p : Nat) : (s.updVat f).hdr p = s.hdr p := rfl
@[simp] theorem State.updEng_hdr_eq (f : Eng → Eng) (p : Nat) : (s.updEng f).hdr p = s.hdr p := rfl
@[simp] theorem State.updGc_hdr_eq (f : Gc → Gc) (p : Nat) : (s.updGc f).hdr p = s.hdr p := rfl
@[simp] theorem State.updSheet_hdr_eq (f : SheetB → SheetB) (p : Nat) : (s.updSheet f).hdr p = s.hdr p := rfl
@[simp] theorem State.updRing_hdr_eq (f : Ring → Ring) (p : Nat) : (s.updRing f).hdr p = s.hdr p := rfl
@[simp] theorem State.updOuter_hdr_eq (f : Outer → Outer) (p : Nat) : (s.updOuter f).hdr p = s.hdr p := rfl
@[simp] theorem State.updFab_hdr_eq (f : FabB → FabB) (p : Nat) : (s.updFab f).hdr p = s.hdr p := rfl
@[simp] theorem State.updLine_hdr_eq (f : LineB → LineB) (p : Nat) : (s.updLine f).hdr p = s.hdr p := rfl
@[simp] theorem State.updOpt_hdr_eq (f : Opt → Opt) (p : Nat) : (s.updOpt f).hdr p = s.hdr p := rfl
@[simp] theorem State.updCiph_hdr_eq (f : Ciph → Ciph) (p : Nat) : (s.updCiph f).hdr p = s.hdr p := rfl
@[simp] theorem State.updHost_hdr_eq (f : HostB → HostB) (p : Nat) : (s.updHost f).hdr p = s.hdr p := rfl
@[simp] theorem State.updPool_hdr_eq (f : Pool → Pool) (p : Nat) : (s.updPool f).hdr p = s.hdr p := rfl
@[simp] theorem State.updMem_hdr_eq (f : MemB → MemB) (p : Nat) : (s.updMem f).hdr p = s.hdr p := rfl
@[simp] theorem State.updTime_hdr_eq (f : TimeB → TimeB) (p : Nat) : (s.updTime f).hdr p = s.hdr p := rfl
@[simp] theorem State.updMgmt_hdr_eq (f : Mgmt → Mgmt) (p : Nat) : (s.updMgmt f).hdr p = s.hdr p := rfl
@[simp] theorem State.updClk_hdr_eq (f : Clk → Clk) (p : Nat) : (s.updClk f).hdr p = s.hdr p := rfl
@[simp] theorem State.updPwr_hdr_eq (f : Pwr → Pwr) (p : Nat) : (s.updPwr f).hdr p = s.hdr p := rfl
@[simp] theorem State.updBoot_hdr_eq (f : Boot → Boot) (p : Nat) : (s.updBoot f).hdr p = s.hdr p := rfl
@[simp] theorem State.emit_hdr_eq (x : Out) (p : Nat) : (s.emit x).hdr p = s.hdr p := rfl
@[simp] theorem State.draw_hdr_eq (p : Nat) : s.draw.2.hdr p = s.hdr p := rfl
@[simp] theorem State.setReg_hdr_eq (p o ix : Nat) (v : Word) (q : Nat) : (s.setReg p o v ix).hdr q = s.hdr q := by unfold State.hdr; simp only [State.setReg_pages]
@[simp] theorem State.updSch_cnt_eq (f : Sch → Sch) (p o : Nat) : (s.updSch f).cnt p o = s.cnt p o := rfl
@[simp] theorem State.updVat_cnt_eq (f : Vat → Vat) (p o : Nat) : (s.updVat f).cnt p o = s.cnt p o := rfl
@[simp] theorem State.updEng_cnt_eq (f : Eng → Eng) (p o : Nat) : (s.updEng f).cnt p o = s.cnt p o := rfl
@[simp] theorem State.updGc_cnt_eq (f : Gc → Gc) (p o : Nat) : (s.updGc f).cnt p o = s.cnt p o := rfl
@[simp] theorem State.updSheet_cnt_eq (f : SheetB → SheetB) (p o : Nat) : (s.updSheet f).cnt p o = s.cnt p o := rfl
@[simp] theorem State.updRing_cnt_eq (f : Ring → Ring) (p o : Nat) : (s.updRing f).cnt p o = s.cnt p o := rfl
@[simp] theorem State.updOuter_cnt_eq (f : Outer → Outer) (p o : Nat) : (s.updOuter f).cnt p o = s.cnt p o := rfl
@[simp] theorem State.updFab_cnt_eq (f : FabB → FabB) (p o : Nat) : (s.updFab f).cnt p o = s.cnt p o := rfl
@[simp] theorem State.updLine_cnt_eq (f : LineB → LineB) (p o : Nat) : (s.updLine f).cnt p o = s.cnt p o := rfl
@[simp] theorem State.updOpt_cnt_eq (f : Opt → Opt) (p o : Nat) : (s.updOpt f).cnt p o = s.cnt p o := rfl
@[simp] theorem State.updCiph_cnt_eq (f : Ciph → Ciph) (p o : Nat) : (s.updCiph f).cnt p o = s.cnt p o := rfl
@[simp] theorem State.updHost_cnt_eq (f : HostB → HostB) (p o : Nat) : (s.updHost f).cnt p o = s.cnt p o := rfl
@[simp] theorem State.updPool_cnt_eq (f : Pool → Pool) (p o : Nat) : (s.updPool f).cnt p o = s.cnt p o := rfl
@[simp] theorem State.updMem_cnt_eq (f : MemB → MemB) (p o : Nat) : (s.updMem f).cnt p o = s.cnt p o := rfl
@[simp] theorem State.updTime_cnt_eq (f : TimeB → TimeB) (p o : Nat) : (s.updTime f).cnt p o = s.cnt p o := rfl
@[simp] theorem State.updMgmt_cnt_eq (f : Mgmt → Mgmt) (p o : Nat) : (s.updMgmt f).cnt p o = s.cnt p o := rfl
@[simp] theorem State.updClk_cnt_eq (f : Clk → Clk) (p o : Nat) : (s.updClk f).cnt p o = s.cnt p o := rfl
@[simp] theorem State.updPwr_cnt_eq (f : Pwr → Pwr) (p o : Nat) : (s.updPwr f).cnt p o = s.cnt p o := rfl
@[simp] theorem State.updBoot_cnt_eq (f : Boot → Boot) (p o : Nat) : (s.updBoot f).cnt p o = s.cnt p o := rfl
@[simp] theorem State.emit_cnt_eq (x : Out) (p o : Nat) : (s.emit x).cnt p o = s.cnt p o := rfl
@[simp] theorem State.draw_cnt_eq (p o : Nat) : s.draw.2.cnt p o = s.cnt p o := rfl
@[simp] theorem State.setReg_cnt_eq (p o ix : Nat) (v : Word) (q o2 : Nat) : (s.setReg p o v ix).cnt q o2 = s.cnt q o2 := by unfold State.cnt; simp only [State.setReg_cnts]
@[simp] theorem State.updHdr_cnt_eq (p : Nat) (f : PageHdr → PageHdr) (q o : Nat) : (s.updHdr p f).cnt q o = s.cnt q o := by unfold State.cnt; simp only [State.updHdr_cnts]
@[simp] theorem State.updSch_fn_eq (f : Sch → Sch) (n : Nat) : (s.updSch f).fn n = s.fn n := rfl
@[simp] theorem State.updVat_fn_eq (f : Vat → Vat) (n : Nat) : (s.updVat f).fn n = s.fn n := rfl
@[simp] theorem State.updEng_fn_eq (f : Eng → Eng) (n : Nat) : (s.updEng f).fn n = s.fn n := rfl
@[simp] theorem State.updGc_fn_eq (f : Gc → Gc) (n : Nat) : (s.updGc f).fn n = s.fn n := rfl
@[simp] theorem State.updSheet_fn_eq (f : SheetB → SheetB) (n : Nat) : (s.updSheet f).fn n = s.fn n := rfl
@[simp] theorem State.updRing_fn_eq (f : Ring → Ring) (n : Nat) : (s.updRing f).fn n = s.fn n := rfl
@[simp] theorem State.updOuter_fn_eq (f : Outer → Outer) (n : Nat) : (s.updOuter f).fn n = s.fn n := rfl
@[simp] theorem State.updFab_fn_eq (f : FabB → FabB) (n : Nat) : (s.updFab f).fn n = s.fn n := rfl
@[simp] theorem State.updLine_fn_eq (f : LineB → LineB) (n : Nat) : (s.updLine f).fn n = s.fn n := rfl
@[simp] theorem State.updOpt_fn_eq (f : Opt → Opt) (n : Nat) : (s.updOpt f).fn n = s.fn n := rfl
@[simp] theorem State.updCiph_fn_eq (f : Ciph → Ciph) (n : Nat) : (s.updCiph f).fn n = s.fn n := rfl
@[simp] theorem State.updPool_fn_eq (f : Pool → Pool) (n : Nat) : (s.updPool f).fn n = s.fn n := rfl
@[simp] theorem State.updMem_fn_eq (f : MemB → MemB) (n : Nat) : (s.updMem f).fn n = s.fn n := rfl
@[simp] theorem State.updTime_fn_eq (f : TimeB → TimeB) (n : Nat) : (s.updTime f).fn n = s.fn n := rfl
@[simp] theorem State.updMgmt_fn_eq (f : Mgmt → Mgmt) (n : Nat) : (s.updMgmt f).fn n = s.fn n := rfl
@[simp] theorem State.updClk_fn_eq (f : Clk → Clk) (n : Nat) : (s.updClk f).fn n = s.fn n := rfl
@[simp] theorem State.updPwr_fn_eq (f : Pwr → Pwr) (n : Nat) : (s.updPwr f).fn n = s.fn n := rfl
@[simp] theorem State.updBoot_fn_eq (f : Boot → Boot) (n : Nat) : (s.updBoot f).fn n = s.fn n := rfl
@[simp] theorem State.emit_fn_eq (x : Out) (n : Nat) : (s.emit x).fn n = s.fn n := rfl
@[simp] theorem State.draw_fn_eq (n : Nat) : s.draw.2.fn n = s.fn n := rfl
@[simp] theorem State.setReg_fn_eq (p o ix : Nat) (v : Word) (n : Nat) : (s.setReg p o v ix).fn n = s.fn n := by unfold State.fn; simp only [State.setReg_host]
@[simp] theorem State.updHdr_fn_eq (p : Nat) (f : PageHdr → PageHdr) (n : Nat) : (s.updHdr p f).fn n = s.fn n := by unfold State.fn; simp only [State.updHdr_host]
@[simp] theorem State.updSch_jobSt_eq (f : Sch → Sch) (j : Nat) : (s.updSch f).jobSt j = s.jobSt j := rfl
@[simp] theorem State.updVat_jobSt_eq (f : Vat → Vat) (j : Nat) : (s.updVat f).jobSt j = s.jobSt j := rfl
@[simp] theorem State.updEng_jobSt_eq (f : Eng → Eng) (j : Nat) : (s.updEng f).jobSt j = s.jobSt j := rfl
@[simp] theorem State.updGc_jobSt_eq (f : Gc → Gc) (j : Nat) : (s.updGc f).jobSt j = s.jobSt j := rfl
@[simp] theorem State.updSheet_jobSt_eq (f : SheetB → SheetB) (j : Nat) : (s.updSheet f).jobSt j = s.jobSt j := rfl
@[simp] theorem State.updRing_jobSt_eq (f : Ring → Ring) (j : Nat) : (s.updRing f).jobSt j = s.jobSt j := rfl
@[simp] theorem State.updOuter_jobSt_eq (f : Outer → Outer) (j : Nat) : (s.updOuter f).jobSt j = s.jobSt j := rfl
@[simp] theorem State.updFab_jobSt_eq (f : FabB → FabB) (j : Nat) : (s.updFab f).jobSt j = s.jobSt j := rfl
@[simp] theorem State.updLine_jobSt_eq (f : LineB → LineB) (j : Nat) : (s.updLine f).jobSt j = s.jobSt j := rfl
@[simp] theorem State.updOpt_jobSt_eq (f : Opt → Opt) (j : Nat) : (s.updOpt f).jobSt j = s.jobSt j := rfl
@[simp] theorem State.updCiph_jobSt_eq (f : Ciph → Ciph) (j : Nat) : (s.updCiph f).jobSt j = s.jobSt j := rfl
@[simp] theorem State.updPool_jobSt_eq (f : Pool → Pool) (j : Nat) : (s.updPool f).jobSt j = s.jobSt j := rfl
@[simp] theorem State.updMem_jobSt_eq (f : MemB → MemB) (j : Nat) : (s.updMem f).jobSt j = s.jobSt j := rfl
@[simp] theorem State.updTime_jobSt_eq (f : TimeB → TimeB) (j : Nat) : (s.updTime f).jobSt j = s.jobSt j := rfl
@[simp] theorem State.updMgmt_jobSt_eq (f : Mgmt → Mgmt) (j : Nat) : (s.updMgmt f).jobSt j = s.jobSt j := rfl
@[simp] theorem State.updClk_jobSt_eq (f : Clk → Clk) (j : Nat) : (s.updClk f).jobSt j = s.jobSt j := rfl
@[simp] theorem State.updPwr_jobSt_eq (f : Pwr → Pwr) (j : Nat) : (s.updPwr f).jobSt j = s.jobSt j := rfl
@[simp] theorem State.updBoot_jobSt_eq (f : Boot → Boot) (j : Nat) : (s.updBoot f).jobSt j = s.jobSt j := rfl
@[simp] theorem State.emit_jobSt_eq (x : Out) (j : Nat) : (s.emit x).jobSt j = s.jobSt j := rfl
@[simp] theorem State.draw_jobSt_eq (j : Nat) : s.draw.2.jobSt j = s.jobSt j := rfl
@[simp] theorem State.setReg_jobSt_eq (p o ix : Nat) (v : Word) (j : Nat) : (s.setReg p o v ix).jobSt j = s.jobSt j := by unfold State.jobSt; simp only [State.setReg_host]
@[simp] theorem State.updHdr_jobSt_eq (p : Nat) (f : PageHdr → PageHdr) (j : Nat) : (s.updHdr p f).jobSt j = s.jobSt j := by unfold State.jobSt; simp only [State.updHdr_host]
@[simp] theorem State.updSch_owner_eq (f : Sch → Sch) (j : Nat) : (s.updSch f).owner j = s.owner j := rfl
@[simp] theorem State.updVat_owner_eq (f : Vat → Vat) (j : Nat) : (s.updVat f).owner j = s.owner j := rfl
@[simp] theorem State.updEng_owner_eq (f : Eng → Eng) (j : Nat) : (s.updEng f).owner j = s.owner j := rfl
@[simp] theorem State.updGc_owner_eq (f : Gc → Gc) (j : Nat) : (s.updGc f).owner j = s.owner j := rfl
@[simp] theorem State.updSheet_owner_eq (f : SheetB → SheetB) (j : Nat) : (s.updSheet f).owner j = s.owner j := rfl
@[simp] theorem State.updRing_owner_eq (f : Ring → Ring) (j : Nat) : (s.updRing f).owner j = s.owner j := rfl
@[simp] theorem State.updOuter_owner_eq (f : Outer → Outer) (j : Nat) : (s.updOuter f).owner j = s.owner j := rfl
@[simp] theorem State.updFab_owner_eq (f : FabB → FabB) (j : Nat) : (s.updFab f).owner j = s.owner j := rfl
@[simp] theorem State.updLine_owner_eq (f : LineB → LineB) (j : Nat) : (s.updLine f).owner j = s.owner j := rfl
@[simp] theorem State.updOpt_owner_eq (f : Opt → Opt) (j : Nat) : (s.updOpt f).owner j = s.owner j := rfl
@[simp] theorem State.updCiph_owner_eq (f : Ciph → Ciph) (j : Nat) : (s.updCiph f).owner j = s.owner j := rfl
@[simp] theorem State.updPool_owner_eq (f : Pool → Pool) (j : Nat) : (s.updPool f).owner j = s.owner j := rfl
@[simp] theorem State.updMem_owner_eq (f : MemB → MemB) (j : Nat) : (s.updMem f).owner j = s.owner j := rfl
@[simp] theorem State.updTime_owner_eq (f : TimeB → TimeB) (j : Nat) : (s.updTime f).owner j = s.owner j := rfl
@[simp] theorem State.updMgmt_owner_eq (f : Mgmt → Mgmt) (j : Nat) : (s.updMgmt f).owner j = s.owner j := rfl
@[simp] theorem State.updClk_owner_eq (f : Clk → Clk) (j : Nat) : (s.updClk f).owner j = s.owner j := rfl
@[simp] theorem State.updPwr_owner_eq (f : Pwr → Pwr) (j : Nat) : (s.updPwr f).owner j = s.owner j := rfl
@[simp] theorem State.updBoot_owner_eq (f : Boot → Boot) (j : Nat) : (s.updBoot f).owner j = s.owner j := rfl
@[simp] theorem State.emit_owner_eq (x : Out) (j : Nat) : (s.emit x).owner j = s.owner j := rfl
@[simp] theorem State.draw_owner_eq (j : Nat) : s.draw.2.owner j = s.owner j := rfl
@[simp] theorem State.setReg_owner_eq (p o ix : Nat) (v : Word) (j : Nat) : (s.setReg p o v ix).owner j = s.owner j := by unfold State.owner; simp only [State.setReg_host]
@[simp] theorem State.updHdr_owner_eq (p : Nat) (f : PageHdr → PageHdr) (j : Nat) : (s.updHdr p f).owner j = s.owner j := by unfold State.owner; simp only [State.updHdr_host]
@[simp] theorem State.updSch_dom_eq (f : Sch → Sch) (d : Nat) : (s.updSch f).dom d = s.dom d := rfl
@[simp] theorem State.updVat_dom_eq (f : Vat → Vat) (d : Nat) : (s.updVat f).dom d = s.dom d := rfl
@[simp] theorem State.updEng_dom_eq (f : Eng → Eng) (d : Nat) : (s.updEng f).dom d = s.dom d := rfl
@[simp] theorem State.updGc_dom_eq (f : Gc → Gc) (d : Nat) : (s.updGc f).dom d = s.dom d := rfl
@[simp] theorem State.updSheet_dom_eq (f : SheetB → SheetB) (d : Nat) : (s.updSheet f).dom d = s.dom d := rfl
@[simp] theorem State.updRing_dom_eq (f : Ring → Ring) (d : Nat) : (s.updRing f).dom d = s.dom d := rfl
@[simp] theorem State.updOuter_dom_eq (f : Outer → Outer) (d : Nat) : (s.updOuter f).dom d = s.dom d := rfl
@[simp] theorem State.updFab_dom_eq (f : FabB → FabB) (d : Nat) : (s.updFab f).dom d = s.dom d := rfl
@[simp] theorem State.updLine_dom_eq (f : LineB → LineB) (d : Nat) : (s.updLine f).dom d = s.dom d := rfl
@[simp] theorem State.updOpt_dom_eq (f : Opt → Opt) (d : Nat) : (s.updOpt f).dom d = s.dom d := rfl
@[simp] theorem State.updCiph_dom_eq (f : Ciph → Ciph) (d : Nat) : (s.updCiph f).dom d = s.dom d := rfl
@[simp] theorem State.updHost_dom_eq (f : HostB → HostB) (d : Nat) : (s.updHost f).dom d = s.dom d := rfl
@[simp] theorem State.updPool_dom_eq (f : Pool → Pool) (d : Nat) : (s.updPool f).dom d = s.dom d := rfl
@[simp] theorem State.updMem_dom_eq (f : MemB → MemB) (d : Nat) : (s.updMem f).dom d = s.dom d := rfl
@[simp] theorem State.updTime_dom_eq (f : TimeB → TimeB) (d : Nat) : (s.updTime f).dom d = s.dom d := rfl
@[simp] theorem State.updMgmt_dom_eq (f : Mgmt → Mgmt) (d : Nat) : (s.updMgmt f).dom d = s.dom d := rfl
@[simp] theorem State.updPwr_dom_eq (f : Pwr → Pwr) (d : Nat) : (s.updPwr f).dom d = s.dom d := rfl
@[simp] theorem State.updBoot_dom_eq (f : Boot → Boot) (d : Nat) : (s.updBoot f).dom d = s.dom d := rfl
@[simp] theorem State.emit_dom_eq (x : Out) (d : Nat) : (s.emit x).dom d = s.dom d := rfl
@[simp] theorem State.draw_dom_eq (d : Nat) : s.draw.2.dom d = s.dom d := rfl
@[simp] theorem State.setReg_dom_eq (p o ix : Nat) (v : Word) (d : Nat) : (s.setReg p o v ix).dom d = s.dom d := by unfold State.dom; simp only [State.setReg_clk]
@[simp] theorem State.updHdr_dom_eq (p : Nat) (f : PageHdr → PageHdr) (d : Nat) : (s.updHdr p f).dom d = s.dom d := by unfold State.dom; simp only [State.updHdr_clk]
@[simp] theorem State.updSch_pageOff_eq (f : Sch → Sch) (p : Nat) : (s.updSch f).pageOff p = s.pageOff p := rfl
@[simp] theorem State.updVat_pageOff_eq (f : Vat → Vat) (p : Nat) : (s.updVat f).pageOff p = s.pageOff p := rfl
@[simp] theorem State.updEng_pageOff_eq (f : Eng → Eng) (p : Nat) : (s.updEng f).pageOff p = s.pageOff p := rfl
@[simp] theorem State.updGc_pageOff_eq (f : Gc → Gc) (p : Nat) : (s.updGc f).pageOff p = s.pageOff p := rfl
@[simp] theorem State.updSheet_pageOff_eq (f : SheetB → SheetB) (p : Nat) : (s.updSheet f).pageOff p = s.pageOff p := rfl
@[simp] theorem State.updRing_pageOff_eq (f : Ring → Ring) (p : Nat) : (s.updRing f).pageOff p = s.pageOff p := rfl
@[simp] theorem State.updOuter_pageOff_eq (f : Outer → Outer) (p : Nat) : (s.updOuter f).pageOff p = s.pageOff p := rfl
@[simp] theorem State.updFab_pageOff_eq (f : FabB → FabB) (p : Nat) : (s.updFab f).pageOff p = s.pageOff p := rfl
@[simp] theorem State.updLine_pageOff_eq (f : LineB → LineB) (p : Nat) : (s.updLine f).pageOff p = s.pageOff p := rfl
@[simp] theorem State.updOpt_pageOff_eq (f : Opt → Opt) (p : Nat) : (s.updOpt f).pageOff p = s.pageOff p := rfl
@[simp] theorem State.updCiph_pageOff_eq (f : Ciph → Ciph) (p : Nat) : (s.updCiph f).pageOff p = s.pageOff p := rfl
@[simp] theorem State.updHost_pageOff_eq (f : HostB → HostB) (p : Nat) : (s.updHost f).pageOff p = s.pageOff p := rfl
@[simp] theorem State.updPool_pageOff_eq (f : Pool → Pool) (p : Nat) : (s.updPool f).pageOff p = s.pageOff p := rfl
@[simp] theorem State.updMem_pageOff_eq (f : MemB → MemB) (p : Nat) : (s.updMem f).pageOff p = s.pageOff p := rfl
@[simp] theorem State.updTime_pageOff_eq (f : TimeB → TimeB) (p : Nat) : (s.updTime f).pageOff p = s.pageOff p := rfl
@[simp] theorem State.updMgmt_pageOff_eq (f : Mgmt → Mgmt) (p : Nat) : (s.updMgmt f).pageOff p = s.pageOff p := rfl
@[simp] theorem State.updPwr_pageOff_eq (f : Pwr → Pwr) (p : Nat) : (s.updPwr f).pageOff p = s.pageOff p := rfl
@[simp] theorem State.updBoot_pageOff_eq (f : Boot → Boot) (p : Nat) : (s.updBoot f).pageOff p = s.pageOff p := rfl
@[simp] theorem State.emit_pageOff_eq (x : Out) (p : Nat) : (s.emit x).pageOff p = s.pageOff p := rfl
@[simp] theorem State.draw_pageOff_eq (p : Nat) : s.draw.2.pageOff p = s.pageOff p := rfl
@[simp] theorem State.setReg_pageOff_eq (p o ix : Nat) (v : Word) (q : Nat) : (s.setReg p o v ix).pageOff q = s.pageOff q := by unfold State.pageOff; simp only [State.setReg_clk, State.dom]
@[simp] theorem State.updHdr_pageOff_eq (p : Nat) (f : PageHdr → PageHdr) (q : Nat) : (s.updHdr p f).pageOff q = s.pageOff q := by unfold State.pageOff; simp only [State.updHdr_clk, State.dom]

/-! ## Registers and headers after a write -/

/-- A register reads what was written to it, and every other register what it read before. -/
theorem State.reg_setReg (p o ix p' o' ix' : Nat) (v : Word) :
    (s.setReg p o v ix).reg p' o' ix' = if regKey p' o' ix' = regKey p o ix then v else s.reg p' o' ix' :=
  SMap.get_set regDefault _ _ v s.regs

@[simp] theorem State.reg_setReg_self (p o ix : Nat) (v : Word) : (s.setReg p o v ix).reg p o ix = v := by
  simp [State.reg_setReg]

/-- A page header reads what the update makes of it, and every other page's what it was. -/
theorem State.hdr_updHdr (p p' : Nat) (f : PageHdr → PageHdr) :
    (s.updHdr p f).hdr p' = if p' = p then f (s.hdr p) else s.hdr p' := SMap.get_modify hdrDefault _ _ f s.pages

@[simp] theorem State.hdr_updHdr_self (p : Nat) (f : PageHdr → PageHdr) : (s.updHdr p f).hdr p = f (s.hdr p) := by
  simp [State.hdr_updHdr]

/-- What a function holds after an update of one function. -/
theorem State.fn_updFn (f f' : Nat) (g : FnSt → FnSt) :
    (s.updFn f g).fn f' = if f' = f then g (s.fn f) else s.fn f' := SMap.get_modify fnDefault _ _ g s.host.fns

end Sys2Proof.Machine
end

