-- ==== Sys2Proof/Laws/Keeps.lean ====
section
/-! SUPPORT. What every command keeps, with the parts it may change: the relation between the states before and after, its
composition, and its lemmas for the updates of one block each. -/
namespace Sys2Proof.Machine

open Sys2Proof

/-- Every part of the first list is in the second. -/
def subParts (l m : List Part) : Bool := l.all fun b => m.contains b

/-- `t` comes from `s` by changes that keep what every command keeps, in the listed parts only. -/
structure KeepsIn (m : List Part) (s t : State) : Prop where
  keeps : Keeps s t
  only : OnlyIn m s t

/-- The refusing or completing answer of a register write that keeps. -/
structure EffK (m : List Part) (s : State) (e : Eff) : Prop where
  on : ∀ t, e = .ok t → KeepsIn m s t

/-- A command that answers a next state, and keeps. -/
def ResK (m : List Part) (s : State) (r : Res) : Prop := ∃ t, r = .next t ∧ KeepsIn m s t

/-- An optional state, and a state beside an optional value, that keep. -/
structure OptK {α : Type} (m : List Part) (s : State) (st : α → State) (r : Option α) : Prop where
  on : ∀ a, r = some a → KeepsIn m s (st a)

/-! ## Composition -/

theorem Part.same_trans {s t u : State} (b : Part) (h : b.same s t) (h' : b.same t u) : b.same s u := by
  cases b <;> simp only [Part.same] at * <;> simp [h, h']

theorem Keeps.refl (s : State) : Keeps s s :=
  ⟨id, rfl, Nat.le_refl _, List.prefix_rfl, .inr fun _ h => h⟩

theorem Keeps.trans {s t u : State} (h : Keeps s t) (h' : Keeps t u) : Keeps s u where
  inv := h'.inv ∘ h.inv
  queue := h'.queue.trans h.queue
  drawn := Nat.le_trans h.drawn h'.drawn
  trail := h.trail.trans h'.trail
  locks := by
    obtain ⟨l₁, e₁⟩ := h.trail
    obtain ⟨l₂, e₂⟩ := h'.trail
    have e : u.out = s.out ++ (l₁ ++ l₂) := by rw [← e₂, ← e₁, List.append_assoc]
    rcases h.locks with ⟨l, hl, hr⟩ | h1
    · refine .inl ⟨l ++ l₂, ?_, by simp [hr]⟩
      rw [← e₂, hl, List.append_assoc]
    · rcases h'.locks with ⟨l, hl, hr⟩ | h2
      · refine .inl ⟨l₁ ++ l, ?_, by simp [hr]⟩
        rw [hl, ← e₁, List.append_assoc]
      · exact .inr fun p hp => h2 p (h1 p hp)

theorem KeepsIn.refl {m : List Part} (s : State) : KeepsIn m s s :=
  ⟨Keeps.refl s, fun b _ => by cases b <;> simp [Part.same]⟩

theorem KeepsIn.trans {m : List Part} {s t u : State} (h : KeepsIn m s t) (h' : KeepsIn m t u) : KeepsIn m s u :=
  ⟨h.keeps.trans h'.keeps, fun b hb => b.same_trans (h.only b hb) (h'.only b hb)⟩

theorem KeepsIn.mono {l m : List Part} {s t : State} (h : KeepsIn l s t) (hs : subParts l m = true) : KeepsIn m s t :=
  ⟨h.keeps, fun b hb => h.only b fun hl => hb (by simpa using List.all_eq_true.1 hs b hl)⟩

/-- One more operation after what is already known to keep. -/
theorem KeepsIn.step {l m : List Part} {s t u : State} (h : KeepsIn m s t) (h' : KeepsIn l t u) (hs : subParts l m = true) :
    KeepsIn m s u := h.trans (h'.mono hs)

theorem KeepsIn.after {l m : List Part} {s t u : State} (h' : KeepsIn l t u) (hs : subParts l m = true) (h : KeepsIn m s t) :
    KeepsIn m s u := h.trans (h'.mono hs)

theorem subParts_trans {a b c : List Part} (h : subParts a b = true) (h' : subParts b c = true) : subParts a c = true := by
  simp only [subParts, List.all_eq_true, List.contains_eq_mem, decide_eq_true_eq] at *
  exact fun x hx => h' x (h x hx)

theorem KeepsIn.andThen {m : List Part} {s t u : State} (h' : KeepsIn m t u) (h : KeepsIn m s t) : KeepsIn m s u := h.trans h'

theorem EffK.after {l m : List Part} {s t : State} {e : Eff} (h' : EffK l t e) (hs : subParts l m = true)
    (h : KeepsIn m s t) : EffK m s e := ⟨fun u hu => h.step (h'.on u hu) hs⟩

theorem KeepsIn.ite {m : List Part} {s a b : State} {c : Prop} [Decidable c] (ha : KeepsIn m s a) (hb : KeepsIn m s b) :
    KeepsIn m s (if c then a else b) := by split <;> assumption

theorem KeepsIn.whenD {m : List Part} {s t : State} {c : Bool} {f : State → State} (h : KeepsIn m s t)
    (hf : ∀ x, KeepsIn m x (f x)) : KeepsIn m s (Machine.whenD c f t) := by
  unfold Machine.whenD; split
  · exact h.trans (hf t)
  · exact h

theorem KeepsIn.foldl {α : Type} {m : List Part} {s : State} {f : State → α → State} (hf : ∀ x a, KeepsIn m x (f x a))
    (l : List α) : ∀ t, KeepsIn m s t → KeepsIn m s (l.foldl f t) := by
  induction l with
  | nil => exact fun t h => h
  | cons a l ih => exact fun t h => ih _ (h.trans (hf t a))

theorem KeepsIn.foldl' {α : Type} {m : List Part} {s t : State} {f : State → α → State} {l : List α} (h : KeepsIn m s t)
    (hf : ∀ x a, KeepsIn m x (f x a)) : KeepsIn m s (l.foldl f t) := KeepsIn.foldl hf l t h

theorem KeepsIn.forAll {α : Type} {m : List Part} {s t : State} {f : α → State → State} {l : List α} (h : KeepsIn m s t)
    (hf : ∀ x a, KeepsIn m x (f a x)) : KeepsIn m s (Machine.forAll l f t) := KeepsIn.foldl hf l t h

/-- A fold whose accumulator holds a state beside a value. -/
theorem KeepsIn.foldlP {α β : Type} {m : List Part} {s : State} {st : β → State} {f : β → α → β} {l : List α} {b : β}
    (h : KeepsIn m s (st b)) (hf : ∀ x a, KeepsIn m (st x) (st (f x a))) : KeepsIn m s (st (l.foldl f b)) := by
  induction l generalizing b with
  | nil => exact h
  | cons a l ih => exact ih (h.trans (hf b a))

theorem EffK.ok {m : List Part} {s t : State} (h : KeepsIn m s t) : EffK m s (.ok t) := by
  refine ⟨fun u e => ?_⟩; cases e; exact h

theorem EffK.error {m : List Part} {s : State} (c : RefCode) : EffK m s (.error c) := by
  refine ⟨fun u e => ?_⟩; cases e

theorem EffK.ite {m : List Part} {s : State} {a b : Eff} {c : Prop} [Decidable c] (ha : EffK m s a) (hb : EffK m s b) :
    EffK m s (if c then a else b) := by split <;> assumption

theorem EffK.step {l m : List Part} {s t : State} {e : Eff} (h : KeepsIn m s t) (h' : EffK l t e) (hs : subParts l m = true) :
    EffK m s e := ⟨fun u hu => h.step (h'.on u hu) hs⟩

theorem EffK.map {m : List Part} {s : State} {e : Eff} {f : State → State} (h : EffK m s e)
    (hf : ∀ x, KeepsIn m x (f x)) : EffK m s (e.map f) := by
  refine ⟨fun u hu => ?_⟩
  cases e with
  | error c => cases hu
  | ok t => cases hu; exact (h.on t rfl).trans (hf t)

theorem EffK.get {m : List Part} {s t : State} {e : Eff} (h : EffK m s e) (he : e = .ok t) : KeepsIn m s t := h.on t he

theorem OptK.get {α : Type} {m : List Part} {s : State} {st : α → State} {r : Option α} {a : α} (h : OptK m s st r)
    (he : r = Option.some a) : KeepsIn m s (st a) := h.on a he

theorem OptK.get1 {m : List Part} {s t : State} {r : Option State} (h : OptK m s (fun x => x) r) (he : r = Option.some t) :
    KeepsIn m s t := h.on t he

theorem OptK.get2 {α : Type} {m : List Part} {s t : State} {r : Option (α × State)} {b : α}
    (h : OptK m s (fun x => x.2) r) (he : r = Option.some (b, t)) : KeepsIn m s t := h.on (b, t) he

theorem ResK.next {m : List Part} {s t : State} (h : KeepsIn m s t) : ResK m s (.next t) := ⟨t, rfl, h⟩

theorem ResK.get {m : List Part} {s t : State} {r : Res} (h : ResK m s r) (he : r = .next t) : KeepsIn m s t := by
  obtain ⟨u, e, k⟩ := h; rw [e] at he; cases he; exact k

theorem ResK.after {l m : List Part} {s t : State} {r : Res} (h' : ResK l t r) (hs : subParts l m = true) (h : KeepsIn m s t) :
    ResK m s r := by
  obtain ⟨u, e, k⟩ := h'; exact ⟨u, e, h.step k hs⟩

theorem ResK.mono {l m : List Part} {s : State} {r : Res} (h : ResK l s r) (hs : subParts l m = true) : ResK m s r := by
  obtain ⟨t, e, k⟩ := h; exact ⟨t, e, k.mono hs⟩

theorem OptK.ite {α : Type} {m : List Part} {s : State} {st : α → State} {a b : Option α} {c : Prop} [Decidable c]
    (ha : OptK m s st a) (hb : OptK m s st b) : OptK m s st (if c then a else b) := by split <;> assumption

theorem OptK.after {α : Type} {l m : List Part} {s t : State} {st : α → State} {r : Option α} (h' : OptK l t st r)
    (hs : subParts l m = true) (h : KeepsIn m s t) : OptK m s st r := ⟨fun a e => h.step (h'.on a e) hs⟩

theorem OptK.none {α : Type} {m : List Part} {s : State} {st : α → State} : OptK m s st Option.none := by
  refine ⟨fun a e => ?_⟩; cases e

theorem OptK.some {α : Type} {m : List Part} {s : State} {st : α → State} {a : α} (h : KeepsIn m s (st a)) :
    OptK m s st (Option.some a) := by
  refine ⟨fun b e => ?_⟩; cases e; exact h

/-! ## Updates of one block -/

/-- A change of the blocks alone: registers, counters, headers, memories, queue, trail and free values stay. -/
theorem Keeps.ofBlocks {s t : State} (h1 : t.regs = s.regs) (h2 : t.cnts = s.cnts) (h3 : t.snaps = s.snaps)
    (h4 : t.pages = s.pages) (h5 : t.mem.hbm = s.mem.hbm) (h6 : t.mem.lp = s.mem.lp) (h7 : t.pending = s.pending)
    (h8 : t.out = s.out) (h9 : s.freeCtr ≤ t.freeCtr) : Keeps s t where
  inv i :=
    { regs := by rw [h1]; exact i.regs
      cnts := by rw [h2]; exact i.cnts
      snaps := by rw [h3]; exact i.snaps
      pages := by rw [h4]; exact i.pages
      hbm := by rw [h5]; exact i.hbm
      lp := by rw [h6]; exact i.lp
      bound := by unfold State.cnt; rw [h2]; exact i.bound
      hdrs := by unfold State.hdr; rw [h4]; exact i.hdrs }
  queue := h7
  drawn := h9
  trail := h8 ▸ List.prefix_rfl
  locks := .inr fun p hp => by unfold State.hdr at *; rw [h4]; exact hp

theorem State.updSch_k (f : Sch → Sch) (s : State) : KeepsIn [.sch] s (s.updSch f) :=
  ⟨Keeps.ofBlocks rfl rfl rfl rfl rfl rfl rfl rfl (Nat.le_refl _), fun b hb => by
    cases b <;> first | exact absurd (by decide) hb | simp [Part.same]⟩

theorem State.updVat_k (f : Vat → Vat) (s : State) : KeepsIn [.vat] s (s.updVat f) :=
  ⟨Keeps.ofBlocks rfl rfl rfl rfl rfl rfl rfl rfl (Nat.le_refl _), fun b hb => by
    cases b <;> first | exact absurd (by decide) hb | simp [Part.same]⟩

theorem State.updEng_k (f : Eng → Eng) (s : State) : KeepsIn [.eng] s (s.updEng f) :=
  ⟨Keeps.ofBlocks rfl rfl rfl rfl rfl rfl rfl rfl (Nat.le_refl _), fun b hb => by
    cases b <;> first | exact absurd (by decide) hb | simp [Part.same]⟩

theorem State.updGc_k (f : Gc → Gc) (s : State) : KeepsIn [.gc] s (s.updGc f) :=
  ⟨Keeps.ofBlocks rfl rfl rfl rfl rfl rfl rfl rfl (Nat.le_refl _), fun b hb => by
    cases b <;> first | exact absurd (by decide) hb | simp [Part.same]⟩

theorem State.updSheet_k (f : SheetB → SheetB) (s : State) : KeepsIn [.sheet] s (s.updSheet f) :=
  ⟨Keeps.ofBlocks rfl rfl rfl rfl rfl rfl rfl rfl (Nat.le_refl _), fun b hb => by
    cases b <;> first | exact absurd (by decide) hb | simp [Part.same]⟩

theorem State.updRing_k (f : Ring → Ring) (s : State) : KeepsIn [.ring] s (s.updRing f) :=
  ⟨Keeps.ofBlocks rfl rfl rfl rfl rfl rfl rfl rfl (Nat.le_refl _), fun b hb => by
    cases b <;> first | exact absurd (by decide) hb | simp [Part.same]⟩

theorem State.updOuter_k (f : Outer → Outer) (s : State) : KeepsIn [.outer] s (s.updOuter f) :=
  ⟨Keeps.ofBlocks rfl rfl rfl rfl rfl rfl rfl rfl (Nat.le_refl _), fun b hb => by
    cases b <;> first | exact absurd (by decide) hb | simp [Part.same]⟩

theorem State.updFab_k (f : FabB → FabB) (s : State) : KeepsIn [.fab] s (s.updFab f) :=
  ⟨Keeps.ofBlocks rfl rfl rfl rfl rfl rfl rfl rfl (Nat.le_refl _), fun b hb => by
    cases b <;> first | exact absurd (by decide) hb | simp [Part.same]⟩

theorem State.updLine_k (f : LineB → LineB) (s : State) : KeepsIn [.line] s (s.updLine f) :=
  ⟨Keeps.ofBlocks rfl rfl rfl rfl rfl rfl rfl rfl (Nat.le_refl _), fun b hb => by
    cases b <;> first | exact absurd (by decide) hb | simp [Part.same]⟩

theorem State.updOpt_k (f : Opt → Opt) (s : State) : KeepsIn [.opt] s (s.updOpt f) :=
  ⟨Keeps.ofBlocks rfl rfl rfl rfl rfl rfl rfl rfl (Nat.le_refl _), fun b hb => by
    cases b <;> first | exact absurd (by decide) hb | simp [Part.same]⟩

theorem State.updCiph_k (f : Ciph → Ciph) (s : State) : KeepsIn [.ciph] s (s.updCiph f) :=
  ⟨Keeps.ofBlocks rfl rfl rfl rfl rfl rfl rfl rfl (Nat.le_refl _), fun b hb => by
    cases b <;> first | exact absurd (by decide) hb | simp [Part.same]⟩

theorem State.updHost_k (f : HostB → HostB) (s : State) : KeepsIn [.host] s (s.updHost f) :=
  ⟨Keeps.ofBlocks rfl rfl rfl rfl rfl rfl rfl rfl (Nat.le_refl _), fun b hb => by
    cases b <;> first | exact absurd (by decide) hb | simp [Part.same]⟩

theorem State.updPool_k (f : Pool → Pool) (s : State) : KeepsIn [.pool] s (s.updPool f) :=
  ⟨Keeps.ofBlocks rfl rfl rfl rfl rfl rfl rfl rfl (Nat.le_refl _), fun b hb => by
    cases b <;> first | exact absurd (by decide) hb | simp [Part.same]⟩

theorem State.updTime_k (f : TimeB → TimeB) (s : State) : KeepsIn [.time] s (s.updTime f) :=
  ⟨Keeps.ofBlocks rfl rfl rfl rfl rfl rfl rfl rfl (Nat.le_refl _), fun b hb => by
    cases b <;> first | exact absurd (by decide) hb | simp [Part.same]⟩

theorem State.updMgmt_k (f : Mgmt → Mgmt) (s : State) : KeepsIn [.mgmt] s (s.updMgmt f) :=
  ⟨Keeps.ofBlocks rfl rfl rfl rfl rfl rfl rfl rfl (Nat.le_refl _), fun b hb => by
    cases b <;> first | exact absurd (by decide) hb | simp [Part.same]⟩

theorem State.updClk_k (f : Clk → Clk) (s : State) : KeepsIn [.clk] s (s.updClk f) :=
  ⟨Keeps.ofBlocks rfl rfl rfl rfl rfl rfl rfl rfl (Nat.le_refl _), fun b hb => by
    cases b <;> first | exact absurd (by decide) hb | simp [Part.same]⟩

theorem State.updPwr_k (f : Pwr → Pwr) (s : State) : KeepsIn [.pwr] s (s.updPwr f) :=
  ⟨Keeps.ofBlocks rfl rfl rfl rfl rfl rfl rfl rfl (Nat.le_refl _), fun b hb => by
    cases b <;> first | exact absurd (by decide) hb | simp [Part.same]⟩

theorem State.updBoot_k (f : Boot → Boot) (s : State) : KeepsIn [.boot] s (s.updBoot f) :=
  ⟨Keeps.ofBlocks rfl rfl rfl rfl rfl rfl rfl rfl (Nat.le_refl _), fun b hb => by
    cases b <;> first | exact absurd (by decide) hb | simp [Part.same]⟩

/-- An update of the memory block that leaves both memories as they are. -/
theorem State.updMem_k (f : MemB → MemB) (s : State) (h1 : (f s.mem).hbm = s.mem.hbm) (h2 : (f s.mem).lp = s.mem.lp) :
    KeepsIn [.mem] s (s.updMem f) :=
  ⟨Keeps.ofBlocks rfl rfl rfl rfl h1 h2 rfl rfl (Nat.le_refl _), fun b hb => by
    cases b <;> first | exact absurd (by decide) hb | simp [Part.same]⟩

/-- An update of the memory block that keeps the canonical form of both memories. -/
theorem State.updMem_wf_k (f : MemB → MemB) (s : State) (h1 : Memory.wf s.mem.hbm = true → Memory.wf (f s.mem).hbm = true)
    (h2 : Memory.wf s.mem.lp = true → Memory.wf (f s.mem).lp = true) : KeepsIn [.mem] s (s.updMem f) where
  keeps :=
    { inv := fun i => ⟨i.regs, i.cnts, i.snaps, i.pages, h1 i.hbm, h2 i.lp, i.bound, i.hdrs⟩
      queue := rfl
      drawn := Nat.le_refl _
      trail := List.prefix_rfl
      locks := .inr fun _ h => h }
  only b hb := by cases b <;> first | exact absurd (by decide) hb | simp [Part.same]

theorem State.emit_k (o : Out) (s : State) : KeepsIn [] s (s.emit o) where
  keeps :=
    { inv := fun i => ⟨i.regs, i.cnts, i.snaps, i.pages, i.hbm, i.lp, i.bound, i.hdrs⟩
      queue := rfl
      drawn := Nat.le_refl _
      trail := ⟨[o], rfl⟩
      locks := .inr fun _ h => h }
  only b _ := by cases b <;> simp [Part.same]

theorem State.draw_k (s : State) : KeepsIn [] s s.draw.2 :=
  ⟨Keeps.ofBlocks rfl rfl rfl rfl rfl rfl rfl rfl (Nat.le_succ _), fun b _ => by cases b <;> simp [Part.same]⟩

theorem State.setReg_k (p o : Nat) (v : Word) (ix : Nat) (s : State) : KeepsIn [.regs] s (s.setReg p o v ix) where
  keeps :=
    { inv := fun i =>
        { regs := by rw [State.setReg_regs]; exact SMap.wf_set i.regs _ _
          cnts := i.cnts, snaps := i.snaps, pages := i.pages, hbm := i.hbm, lp := i.lp, bound := i.bound, hdrs := i.hdrs }
      queue := by simp
      drawn := by simp
      trail := by simp
      locks := .inr fun p' h => by unfold State.hdr at *; simpa using h }
  only b hb := by cases b <;> first | exact absurd (by decide) hb | simp [Part.same]

/-- An update of a page header that leaves it as its fields allow and does not unlock the page. -/
theorem State.updHdr_k (p : Nat) (f : PageHdr → PageHdr) (s : State) (h1 : ∀ h, hdrOk p h → hdrOk p (f h))
    (h2 : ∀ h : PageHdr, h.locked = true → (f h).locked = true) : KeepsIn [.pages] s (s.updHdr p f) where
  keeps :=
    { inv := fun i =>
        { regs := i.regs, cnts := i.cnts, snaps := i.snaps, hbm := i.hbm, lp := i.lp, bound := i.bound
          pages := by rw [State.updHdr_pages]; exact SMap.wf_modify i.pages _ _
          hdrs := fun p' => by
            rw [State.hdr_updHdr]; split
            · next e => subst e; exact h1 _ (i.hdrs _)
            · exact i.hdrs p' }
      queue := by simp
      drawn := by simp
      trail := by simp
      locks := .inr fun p' h => by
        rw [State.hdr_updHdr]; split
        · next e => subst e; exact h2 _ h
        · exact h }
  only b hb := by cases b <;> first | exact absurd (by decide) hb | simp [Part.same]

theorem State.halves_k (s : State) (l h : SMap Word) : KeepsIn [.halves] s { s with latch := l, heldLo := h } :=
  ⟨Keeps.ofBlocks rfl rfl rfl rfl rfl rfl rfl rfl (Nat.le_refl _), fun b hb => by
    cases b <;> first | exact absurd (by decide) hb | simp [Part.same]⟩

/-- Snapshots of any keys. -/
theorem State.snaps_k (s : State) (l : List (Nat × Nat)) :
    KeepsIn [.snaps] s { s with snaps := l.foldl (fun m kv => SMap.set (fun _ => 0) kv.1 kv.2 m) s.snaps } where
  keeps :=
    { inv := fun i =>
        { regs := i.regs, cnts := i.cnts, pages := i.pages, hbm := i.hbm, lp := i.lp, bound := i.bound, hdrs := i.hdrs
          snaps := by
            have : ∀ (l : List (Nat × Nat)) (m : SMap Nat), SMap.wf (fun _ => 0) m = true →
                SMap.wf (fun _ => 0) (l.foldl (fun m kv => SMap.set (fun _ => 0) kv.1 kv.2 m) m) = true := by
              intro l
              induction l with
              | nil => exact fun _ h => h
              | cons a l ih => exact fun m h => ih _ (SMap.wf_set h _ _)
            exact this l _ i.snaps }
      queue := rfl
      drawn := Nat.le_refl _
      trail := List.prefix_rfl
      locks := .inr fun _ h => h }
  only b hb := by cases b <;> first | exact absurd (by decide) hb | simp [Part.same]

/-- Counters of any keys set to zero. -/
theorem State.zeroCnts_k {α : Type} (s : State) (l : List α) (k : α → Nat) :
    KeepsIn [.cnts] s { s with cnts := l.foldl (fun (m : SMap Nat) (c : α) => SMap.set (fun _ => 0) (k c) 0 m) s.cnts } where
  keeps :=
    { inv := fun i =>
        { regs := i.regs, snaps := i.snaps, pages := i.pages, hbm := i.hbm, lp := i.lp, hdrs := i.hdrs
          cnts := by
            have : ∀ (l : List α) (m : SMap Nat), SMap.wf (fun _ => 0) m = true →
                SMap.wf (fun _ => 0) (l.foldl (fun (m : SMap Nat) (c : α) => SMap.set (fun _ => 0) (k c) 0 m) m) = true := by
              intro l
              induction l with
              | nil => exact fun _ h => h
              | cons a l ih => exact fun m h => ih _ (SMap.wf_set h _ _)
            exact this l _ i.cnts
          bound := fun p o h => by
            have : ∀ (l : List α) (m : SMap Nat) (x : Nat),
                SMap.get (fun _ => 0) (l.foldl (fun (m : SMap Nat) (c : α) => SMap.set (fun _ => 0) (k c) 0 m) m) x ≤
                  SMap.get (fun _ => 0) m x := by
              intro l
              induction l with
              | nil => exact fun _ _ => Nat.le_refl _
              | cons a l ih =>
                intro m x
                refine Nat.le_trans (ih _ x) ?_
                rw [SMap.get_set]; split
                · exact Nat.zero_le _
                · exact Nat.le_refl _
            exact Nat.le_trans (this l s.cnts (cntKey p o)) (i.bound p o h) }
      queue := rfl
      drawn := Nat.le_refl _
      trail := List.prefix_rfl
      locks := .inr fun _ h => h }
  only b hb := by cases b <;> first | exact absurd (by decide) hb | simp [Part.same]

/-! ## Resets of a page -/

theorem pgVec_lt (p : Nat) : pgVec p < 64 := by
  unfold pgVec; split <;> omega

theorem hdrOk_default (p : Nat) : hdrOk p (hdrDefault p) := ⟨Nat.zero_le _, by simp [hdrDefault], by simp [hdrDefault], pgVec_lt p⟩

theorem fld_lt (w : Word) (lo n : Nat) : fld w lo n < 2 ^ n := Nat.mod_lt _ (Nat.two_pow_pos n)

/-- Registers, counters and snapshots that go by their key, and a header that returns to its reset value with its lock. -/
theorem KeepsIn.pageReset (s : State) (p : Nat) (q₁ q₂ q₃ : Nat → Bool) (l h : SMap Word) :
    KeepsIn [.pages, .regs, .cnts, .snaps, .halves] s
      { s with
        regs := s.regs.filter fun kv => q₁ kv.1
        cnts := s.cnts.filter fun kv => q₂ kv.1
        snaps := s.snaps.filter fun kv => q₃ kv.1
        latch := l
        heldLo := h
        pages := SMap.set hdrDefault p { hdrDefault p with locked := (s.hdr p).locked } s.pages } where
  keeps :=
    { inv := fun i =>
        { regs := SMap.wf_filter i.regs _
          cnts := SMap.wf_filter i.cnts _
          snaps := SMap.wf_filter i.snaps _
          pages := SMap.wf_set i.pages _ _
          hbm := i.hbm
          lp := i.lp
          bound := fun p' o' h' => by
            show SMap.get (fun _ => 0) (s.cnts.filter fun kv => q₂ kv.1) (cntKey p' o') ≤ cntMax p' o'
            rw [SMap.get_filter_key (fun _ => 0) q₂]
            split
            · exact i.bound p' o' h'
            · exact Nat.zero_le _
          hdrs := fun p' => by
            show hdrOk p' (SMap.get hdrDefault (SMap.set hdrDefault p _ s.pages) p')
            rw [SMap.get_set]
            split
            · next e => subst e; exact hdrOk_default p'
            · exact i.hdrs p' }
      queue := rfl
      drawn := Nat.le_refl _
      trail := List.prefix_rfl
      locks := .inr fun p' hl => by
        show (SMap.get hdrDefault (SMap.set hdrDefault p _ s.pages) p').locked = true
        rw [SMap.get_set]
        split
        · next e => subst e; exact hl
        · exact hl }
  only b hb := by cases b <;> first | exact absurd (by decide) hb | simp [Part.same]

theorem mem_allParts (b : Part) : b ∈ allParts := by cases b <;> decide

/-- A state that keeps the model's queue, trail and free values and is at reset otherwise, once the reset is in the trail. -/
theorem KeepsIn.atReset {s t : State} (h1 : t.pending = s.pending) (h2 : t.out = s.out ++ [.reset])
    (h3 : t.freeCtr = s.freeCtr) (h4 : t.regs = []) (h5 : t.cnts = []) (h6 : t.snaps = []) (h7 : t.pages = [])
    (h8 : t.mem.hbm = []) (h9 : t.mem.lp = []) : KeepsIn allParts s t where
  keeps :=
    { inv := fun _ =>
        { regs := by rw [h4]; rfl
          cnts := by rw [h5]; rfl
          snaps := by rw [h6]; rfl
          pages := by rw [h7]; rfl
          hbm := by rw [h8]; rfl
          lp := by rw [h9]; rfl
          bound := fun p o _ => by
            unfold State.cnt; rw [h5]; exact Nat.zero_le _
          hdrs := fun p => by
            unfold State.hdr; rw [h7]; exact hdrOk_default p }
      queue := h1
      drawn := Nat.le_of_eq h3.symm
      trail := by rw [h2]; exact List.prefix_append ..
      locks := .inl ⟨[.reset], h2, by simp⟩ }
  only b hb := absurd (mem_allParts b) hb

end Sys2Proof.Machine
end

