-- ==== Sys2Proof/Laws/Keeps/Ops.lean ====
section
/-! SUPPORT. What the operations and commands of Machine/Ops.lean keep, and the parts they may change. -/
namespace Sys2Proof.Machine

open Sys2Proof

set_option linter.all false

theorem State.updFn_k (f : Nat) (g : FnSt → FnSt) (s : State) : KeepsIn [.host] s (State.updFn f g s) := by
  unfold State.updFn
  repeat' first
    | exact rfl
    | with_unfolding_none first
        | apply KeepsIn.refl | assumption | intro _ | apply KeepsIn.ite | apply KeepsIn.after (State.updHost_k ..)
    | dsimp only | split

theorem sendMsix_k (f v : Nat) (s : State) : KeepsIn [.host] s (sendMsix f v s) := by
  unfold sendMsix
  repeat' first
    | exact rfl
    | with_unfolding_none first
        | apply KeepsIn.refl | assumption | intro _ | apply KeepsIn.ite | apply KeepsIn.after (State.emit_k ..)
        | apply KeepsIn.after (State.updFn_k ..)
    | dsimp only | split

theorem vectorSend_k (p : Nat) (s : State) : KeepsIn [.host] s (vectorSend p s) := by
  unfold vectorSend
  repeat' first
    | exact rfl
    | with_unfolding_none first
        | apply KeepsIn.refl | assumption | intro _ | apply KeepsIn.ite | apply KeepsIn.after (sendMsix_k ..)
    | dsimp only | split

theorem setIntStat_k (p : Nat) (m : Word) (s : State) : KeepsIn [.host, .pages] s (setIntStat p m s) := by
  unfold setIntStat
  dsimp only
  refine KeepsIn.ite ?_ ?_
  · refine KeepsIn.step (m := [.host, .pages]) ?_ (vectorSend_k ..) (by decide)
    exact KeepsIn.step (KeepsIn.refl _) (State.updHdr_k _ _ _ (fun _ h => h) fun _ h => h) (by decide)
  · exact KeepsIn.step (KeepsIn.refl _) (State.updHdr_k _ _ _ (fun _ h => h) fun _ h => h) (by decide)


theorem event_k (p b : Nat) (s : State) : KeepsIn [.host, .pages] s (event p b s) := by
  unfold event
  repeat' first
    | exact rfl
    | with_unfolding_none first
        | apply KeepsIn.refl | assumption | intro _ | apply KeepsIn.ite | apply KeepsIn.after (setIntStat_k ..)
    | dsimp only | split

theorem pgCnts_offset (p : Nat) : ∀ c ∈ pgCnts p, c.1 < 0x1000 := by
  unfold pgCnts
  generalize pgKind p = k
  generalize pgInst p = q
  by_cases h0 : q = 0
  · subst h0; cases k <;> decide
  · by_cases h2 : q = 2
    · subst h2; cases k <;> decide
    · cases k <;> simp only [h0, h2, if_false, ne_eq, not_false_eq_true, if_true] <;> decide

/-- A counter read by another offset that is not in the page reads a narrow bound. -/
theorem cntMax_ge (p o : Nat) : 2 ^ 32 - 1 ≤ cntMax p o := by unfold cntMax; split <;> decide

theorem cntMax_far (p o : Nat) (h : 0x1000 ≤ o) : cntMax p o = 2 ^ 32 - 1 := by
  unfold cntMax
  rw [if_neg]
  simp only [List.any_eq_true, Bool.and_eq_true, decide_eq_true_eq, not_exists, not_and]
  intro c hc e
  have := pgCnts_offset p c hc
  omega

theorem bump_k (p o n : Nat) (s : State) : KeepsIn [.pages, .cnts] s (bump p o n s) := by
  unfold bump
  refine KeepsIn.ite (KeepsIn.refl _) ?_
  dsimp only
  have base : KeepsIn [.pages, .cnts] s { s with cnts := SMap.set (fun _ => 0) (cntKey p o) (min (s.cnt p o + n) (cntMax p o)) s.cnts } :=
    { keeps :=
        { inv := fun i =>
            { regs := i.regs
              cnts := SMap.wf_set i.cnts _ _
              snaps := i.snaps
              pages := i.pages
              hbm := i.hbm
              lp := i.lp
              bound := fun p' o' h' => by
                show SMap.get (fun _ => 0) (SMap.set (fun _ => 0) (cntKey p o) _ s.cnts) (cntKey p' o') ≤ cntMax p' o'
                rw [SMap.get_set]
                split
                · next e =>
                  by_cases ho : o < 0x1000
                  · have : p' = p ∧ o' = o := by unfold cntKey at e; omega
                    rw [this.1, this.2]; exact Nat.min_le_right _ _
                  · rw [cntMax_far p o (by omega)]
                    exact Nat.le_trans (Nat.min_le_right _ _) (cntMax_ge p' o')
                · exact i.bound p' o' h'
              hdrs := i.hdrs }
          queue := rfl
          drawn := Nat.le_refl _
          trail := List.prefix_rfl
          locks := .inr fun _ h => h }
      only := fun b hb => by cases b <;> first | exact absurd (by decide) hb | simp [Part.same] }
  refine KeepsIn.ite ?_ base
  exact base.step (State.updHdr_k _ _ _ (fun _ h => h) fun _ h => h) (by decide)


theorem addHealth_k (n : Nat) (s : State) : KeepsIn [.mgmt] s (addHealth n s) := by
  unfold addHealth
  repeat' first
    | exact rfl
    | with_unfolding_none first
        | apply KeepsIn.refl | assumption | intro _ | apply KeepsIn.ite | apply KeepsIn.after (State.updMgmt_k ..)
        | apply KeepsIn.after (State.emit_k ..)
    | dsimp only | split

theorem addCe_k (s : State) : KeepsIn [.mgmt] s (addCe s) := by
  unfold addCe
  repeat' first
    | exact rfl
    | with_unfolding_none first
        | apply KeepsIn.refl | assumption | intro _ | apply KeepsIn.ite | apply KeepsIn.after (addHealth_k ..)
        | apply KeepsIn.after (State.updMgmt_k ..)
    | dsimp only | split

theorem raiseEv_k (p o b : Nat) (s : State) : KeepsIn [.host, .mgmt, .pages, .cnts] s (raiseEv p o b s) := by
  unfold raiseEv
  repeat' first
    | exact rfl
    | with_unfolding_none first
        | apply KeepsIn.refl | assumption | intro _ | apply KeepsIn.ite | apply KeepsIn.after (addHealth_k ..)
        | apply KeepsIn.after (event_k ..) | apply KeepsIn.after (bump_k ..)
    | dsimp only | split

theorem capture_k (p : Nat) (refusal : Bool) (code : Nat) (info : Word) (addr : DWord) (s : State) :
    KeepsIn [.pages] s (capture p refusal code info addr s) := by
  unfold capture
  refine State.updHdr_k _ _ _ (fun h hh => ?_) fun h hl => ?_
  · split
    · exact ⟨Nat.min_le_left _ _, hh.2⟩
    · exact ⟨Nat.zero_le _, hh.2⟩
  · split <;> exact hl


theorem captureEv_k (p o : Nat) (info : Word) (addr : DWord) (s : State) :
    KeepsIn [.pages] s (captureEv p o info addr s) := by
  unfold captureEv
  repeat' first
    | exact rfl
    | with_unfolding_none first
        | apply KeepsIn.refl | assumption | intro _ | apply KeepsIn.ite | apply KeepsIn.after (capture_k ..)
    | dsimp only | split

theorem raiseCap_k (p o b : Nat) (info : Word) (addr : DWord) (s : State) :
    KeepsIn [.host, .mgmt, .pages, .cnts] s (raiseCap p o b info addr s) := by
  unfold raiseCap
  repeat' first
    | exact rfl
    | with_unfolding_none first
        | apply KeepsIn.refl | assumption | intro _ | apply KeepsIn.ite | apply KeepsIn.after (addHealth_k ..)
        | apply KeepsIn.after (event_k ..) | apply KeepsIn.after (captureEv_k ..) | apply KeepsIn.after (bump_k ..)
    | dsimp only | split

theorem refuse_k (w : Who) (p : Nat) (c : RefCode) (o : Nat) (v : Word) (s : State) :
    KeepsIn [.pages] s (refuse w p c o v s) := by
  unfold refuse
  repeat' first
    | exact rfl
    | with_unfolding_none first
        | apply KeepsIn.refl | assumption | intro _ | apply KeepsIn.ite | apply KeepsIn.after (capture_k ..)
    | dsimp only | split

theorem nmi_k (cause : Nat) (s : State) : KeepsIn [.clk] s (nmi cause s) := by
  unfold nmi
  repeat' first
    | exact rfl
    | with_unfolding_none first
        | apply KeepsIn.refl | assumption | intro _ | apply KeepsIn.ite | apply KeepsIn.after (State.updClk_k ..)
        | apply KeepsIn.after (State.emit_k ..)
    | dsimp only | split

theorem State.setJobSt_k (j : Nat) (x : JobSt) (s : State) : KeepsIn [.host] s (State.setJobSt j x s) := by
  unfold State.setJobSt
  repeat' first
    | exact rfl
    | with_unfolding_none first
        | apply KeepsIn.refl | assumption | intro _ | apply KeepsIn.ite | apply KeepsIn.after (State.updHost_k ..)
    | dsimp only | split

theorem pushRec_k (f : Nat) (r : CRec) (s : State) : KeepsIn [.host] s (pushRec f r s) := by
  unfold pushRec
  repeat' first
    | exact rfl
    | with_unfolding_none first
        | apply KeepsIn.refl | assumption | intro _ | apply KeepsIn.ite | apply KeepsIn.after (State.updFn_k ..)
    | dsimp only | split

end Sys2Proof.Machine
end

