-- ==== Sys2Proof/Laws/Events.lean ====
section
/-! SUPPORT. What counting, raising an event, capturing and refusing do to a page's counters and header (18 R444 to R448). -/
namespace Sys2Proof.Machine

open Sys2Proof

theorem cnt_of_cnts {s t : State} (h : t.cnts = s.cnts) (p o : Nat) : t.cnt p o = s.cnt p o := by
  simp only [State.cnt, h]

theorem hdr_of_pages {s t : State} (h : t.pages = s.pages) (p : Nat) : t.hdr p = s.hdr p := by
  simp only [State.hdr, h]

theorem reg_of_regs {s t : State} (h : t.regs = s.regs) (p o ix : Nat) : t.reg p o ix = s.reg p o ix := by
  simp only [State.reg, h]

theorem pageOff_of_clk {s t : State} (h : t.clk = s.clk) (p : Nat) : t.pageOff p = s.pageOff p := by
  simp only [State.pageOff, State.dom, h]

/-! ## Counters -/

theorem bump_cnt {p o n : Nat} {s : State} (hp : s.pageOff p = false) (q r : Nat) (hn : n ≠ 0) :
    (bump p o n s).cnt q r =
      if cntKey q r = cntKey p o then min (s.cnt p o + n) (cntMax p o) else s.cnt q r := by
  have hc : (s.pageOff p || decide (n = 0)) = false := by simp [hp, hn]
  have h0 : ∀ v : Nat, ({ s with cnts := SMap.set (fun _ => 0) (cntKey p o) v s.cnts } : State).cnt q r =
      if cntKey q r = cntKey p o then v else s.cnt q r := fun v => SMap.get_set _ _ _ _ _
  unfold bump
  rw [hc]
  simp only [Bool.false_eq_true, if_false]
  split
  · rw [State.updHdr_cnt_eq, h0]
  · rw [h0]

theorem bump_hdr (p o n : Nat) (s : State) (q : Nat) :
    ((bump p o n s).hdr q).intStat = (s.hdr q).intStat ∧ ((bump p o n s).hdr q).intEn = (s.hdr q).intEn := by
  unfold bump
  split
  · exact ⟨rfl, rfl⟩
  · dsimp only
    split
    · rw [State.hdr_updHdr]
      split
      · rename_i h; subst h; exact ⟨rfl, rfl⟩
      · exact ⟨rfl, rfl⟩
    · exact ⟨rfl, rfl⟩

theorem bump_clk (p o n : Nat) (s : State) : (bump p o n s).clk = s.clk := (bump_k p o n s).only .clk (by decide)

/-! ## Events -/

theorem setIntStat_hdr (p : Nat) (m : Word) (s : State) (q : Nat) :
    (setIntStat p m s).hdr q = if q = p then { s.hdr p with intStat := (s.hdr p).intStat ||| m } else s.hdr q := by
  unfold setIntStat
  dsimp only
  split
  · rw [hdr_of_pages ((vectorSend_k p _).only .pages (by decide)), State.hdr_updHdr]
  · rw [State.hdr_updHdr]

theorem event_hdr {p b : Nat} {s : State} (hp : s.pageOff p = false) (q : Nat) :
    (event p b s).hdr q = if q = p then { s.hdr p with intStat := (s.hdr p).intStat ||| wd (2 ^ b) } else s.hdr q := by
  unfold event
  rw [hp]
  exact setIntStat_hdr ..

theorem raiseEv_cnt {p o b : Nat} {s : State} (hp : s.pageOff p = false) (q r : Nat) :
    (raiseEv p o b s).cnt q r = if cntKey q r = cntKey p o then min (s.cnt p o + 1) (cntMax p o) else s.cnt q r := by
  unfold raiseEv
  rw [hp]
  simp only [Bool.false_eq_true, if_false]
  rw [cnt_of_cnts ((addHealth_k _ _).only .cnts (by decide)), cnt_of_cnts ((event_k p b _).only .cnts (by decide)),
    bump_cnt hp q r (by decide)]

theorem raiseEv_intStat {p o b : Nat} {s : State} (hp : s.pageOff p = false) (q : Nat) :
    ((raiseEv p o b s).hdr q).intStat = if q = p then (s.hdr p).intStat ||| wd (2 ^ b) else (s.hdr q).intStat := by
  unfold raiseEv
  rw [hp]
  simp only [Bool.false_eq_true, if_false]
  have h1 : (bump p o 1 s).pageOff p = false := by rw [pageOff_of_clk (bump_clk p o 1 s), hp]
  rw [hdr_of_pages ((addHealth_k _ _).only .pages (by decide)), event_hdr h1]
  split
  · rename_i h; subst h; simp only [(bump_hdr q o 1 s q).1]
  · rw [(bump_hdr p o 1 s q).1]

/-- An event that is counted leaves every page's capture. -/
theorem raiseEv_err (p o b : Nat) (s : State) (q : Nat) :
    ((raiseEv p o b s).hdr q).errValid = (s.hdr q).errValid ∧ ((raiseEv p o b s).hdr q).errLost = (s.hdr q).errLost ∧
      ((raiseEv p o b s).hdr q).errInfo = (s.hdr q).errInfo := by
  cases hp : s.pageOff p with
  | true => unfold raiseEv; rw [hp]; exact ⟨rfl, rfl, rfl⟩
  | false =>
    unfold raiseEv
    rw [hp]
    simp only [Bool.false_eq_true, if_false]
    have h1 : (bump p o 1 s).pageOff p = false := by rw [pageOff_of_clk (bump_clk p o 1 s), hp]
    have hb : ((bump p o 1 s).hdr q).errValid = (s.hdr q).errValid ∧ ((bump p o 1 s).hdr q).errLost = (s.hdr q).errLost ∧
        ((bump p o 1 s).hdr q).errInfo = (s.hdr q).errInfo := by
      unfold bump
      split
      · exact ⟨rfl, rfl, rfl⟩
      · dsimp only
        split
        · rw [State.hdr_updHdr]
          split
          · rename_i h; subst h; exact ⟨rfl, rfl, rfl⟩
          · exact ⟨rfl, rfl, rfl⟩
        · exact ⟨rfl, rfl, rfl⟩
    rw [hdr_of_pages ((addHealth_k _ _).only .pages (by decide)), event_hdr h1]
    split
    · rename_i h; subst h; exact hb
    · exact hb

theorem raiseEv_clk (p o b : Nat) (s : State) : (raiseEv p o b s).clk = s.clk := (raiseEv_k p o b s).only .clk (by decide)

/-- A counting event raises its counter and its bit. -/
theorem raiseEv_raised {p o b : Nat} {s : State} (hp : s.pageOff p = false) : Raised p o b s (raiseEv p o b s) := by
  refine ⟨?_, ?_, ?_⟩
  · rw [raiseEv_cnt hp, if_pos rfl]
  · rw [raiseEv_intStat hp, if_pos rfl]
  · intro q hq
    rw [raiseEv_cnt hp, if_neg]
    simp only [cntKey]; omega

theorem captureEv_cnts (p o : Nat) (i : Word) (a : DWord) (s : State) : (captureEv p o i a s).cnts = s.cnts :=
  (captureEv_k p o i a s).only .cnts (by decide)

theorem capture_hdr (p : Nat) (r : Bool) (c : Nat) (i : Word) (a : DWord) (s : State) (q : Nat) :
    ((capture p r c i a s).hdr q).intStat = (s.hdr q).intStat := by
  unfold capture
  rw [State.hdr_updHdr]
  split
  · rename_i h; subst h; split <;> rfl
  · rfl

theorem captureEv_hdr (p o : Nat) (i : Word) (a : DWord) (s : State) (q : Nat) :
    ((captureEv p o i a s).hdr q).intStat = (s.hdr q).intStat := by
  unfold captureEv
  split
  · rfl
  · exact capture_hdr ..

theorem raiseCap_cnt {p o b : Nat} {i : Word} {a : DWord} {s : State} (hp : s.pageOff p = false) (q r : Nat) :
    (raiseCap p o b i a s).cnt q r = if cntKey q r = cntKey p o then min (s.cnt p o + 1) (cntMax p o) else s.cnt q r := by
  unfold raiseCap
  rw [hp]
  simp only [Bool.false_eq_true, if_false]
  rw [cnt_of_cnts ((addHealth_k _ _).only .cnts (by decide)), cnt_of_cnts ((event_k p b _).only .cnts (by decide)),
    cnt_of_cnts (captureEv_cnts ..), bump_cnt hp q r (by decide)]

theorem raiseCap_intStat {p o b : Nat} {i : Word} {a : DWord} {s : State} (hp : s.pageOff p = false) (q : Nat) :
    ((raiseCap p o b i a s).hdr q).intStat = if q = p then (s.hdr p).intStat ||| wd (2 ^ b) else (s.hdr q).intStat := by
  unfold raiseCap
  rw [hp]
  simp only [Bool.false_eq_true, if_false]
  have h1 : (captureEv p o i a (bump p o 1 s)).pageOff p = false := by
    rw [pageOff_of_clk ((captureEv_k p o i a _).only .clk (by decide)), pageOff_of_clk (bump_clk p o 1 s), hp]
  rw [hdr_of_pages ((addHealth_k _ _).only .pages (by decide)), event_hdr h1]
  split
  · rename_i h; subst h; simp only [captureEv_hdr, (bump_hdr q o 1 s q).1]
  · rw [captureEv_hdr, (bump_hdr p o 1 s q).1]

/-- A capturing event raises its counter and its bit. -/
theorem raiseCap_raised {p o b : Nat} {i : Word} {a : DWord} {s : State} (hp : s.pageOff p = false) :
    Raised p o b s (raiseCap p o b i a s) := by
  refine ⟨?_, ?_, ?_⟩
  · rw [raiseCap_cnt hp, if_pos rfl]
  · rw [raiseCap_intStat hp, if_pos rfl]
  · intro q hq
    rw [raiseCap_cnt hp, if_neg]
    simp only [cntKey]; omega

/-- What is raised stays raised over operations that touch neither the page headers nor the counters. -/
theorem Raised.of_same {p o b : Nat} {s t s' t' : State} (h : Raised p o b s t) (hc : s'.cnts = s.cnts) (hp : s'.pages = s.pages)
    (hc' : t'.cnts = t.cnts) (hp' : t'.pages = t.pages) : Raised p o b s' t' := by
  unfold Raised State.cnt State.hdr at *
  rw [hc, hp, hc', hp']
  exact h

/-- A refusal is recorded. -/
theorem refuse_recorded (w : Who) (p : Nat) (c : RefCode) (o : Nat) (v : Word) (s : State) :
    Recorded w p c o v s (refuse w p c o v s) := by
  unfold Recorded refuse capture
  rw [State.hdr_updHdr_self]
  cases (s.hdr p).errValid <;> simp

end Sys2Proof.Machine
end

