-- ==== Sys2Proof/Laws/Keeps/MemOps.lean ====
section
/-! SUPPORT. What the operations and commands of Machine/MemOps.lean keep, and the parts they may change. -/
namespace Sys2Proof.Machine

open Sys2Proof

set_option linter.all false

theorem memWrite_wf (bs : List Byte) : ∀ (a : Nat) (m : SMap Byte), Memory.wf m = true → Memory.wf (memWrite a bs m) = true := by
  induction bs with
  | nil => exact fun _ _ h => h
  | cons b bs ih => exact fun a m h => ih _ _ (SMap.wf_set h a b)

theorem hbmWrite_k (a : Nat) (bs : List Byte) (s : State) : KeepsIn [.mem] s (hbmWrite a bs s) :=
  State.updMem_wf_k _ s (memWrite_wf bs a _) id


theorem hbmZero_k (a n : Nat) (s : State) : KeepsIn [.mem] s (hbmZero a n s) :=
  State.updMem_wf_k _ s (fun h => SMap.wf_keep h fun k _ => decide (k < a) || decide (a + n ≤ k)) id


theorem lpWrite_k (a : Nat) (bs : List Byte) (s : State) : KeepsIn [.mem] s (lpWrite a bs s) :=
  State.updMem_wf_k _ s id (memWrite_wf bs a _)


theorem hbmUe_k (a port : Nat) (s : State) : KeepsIn [.host, .mem, .mgmt, .pages, .cnts] s (hbmUe a port s) := by
  unfold hbmUe
  repeat' first
    | exact rfl
    | with_unfolding_none first
        | apply KeepsIn.refl | assumption | intro _ | apply KeepsIn.ite | apply KeepsIn.after (raiseCap_k ..)
        | apply KeepsIn.after (State.updMem_k _ _ ?_ ?_)
    | dsimp only | split

theorem lpUe_k (a port : Nat) (s : State) : KeepsIn [.host, .mem, .mgmt, .pages, .cnts] s (lpUe a port s) := by
  unfold lpUe
  repeat' first
    | exact rfl
    | with_unfolding_none first
        | apply KeepsIn.refl | assumption | intro _ | apply KeepsIn.ite | apply KeepsIn.after (raiseCap_k ..)
        | apply KeepsIn.after (State.updMem_k _ _ ?_ ?_)
    | dsimp only | split

theorem reportHbm_k (a n port : Nat) (s : State) : KeepsIn [.host, .mem, .mgmt, .pages, .cnts] s (reportHbm a n port s) := by
  unfold reportHbm
  repeat' first
    | exact rfl
    | with_unfolding_none first
        | apply KeepsIn.refl | assumption | intro _ | apply KeepsIn.ite | apply KeepsIn.after (hbmUe_k ..)
    | dsimp only | split

theorem reportLp_k (a n port : Nat) (s : State) : KeepsIn [.host, .mem, .mgmt, .pages, .cnts] s (reportLp a n port s) := by
  unfold reportLp
  repeat' first
    | exact rfl
    | with_unfolding_none first
        | apply KeepsIn.refl | assumption | intro _ | apply KeepsIn.ite | apply KeepsIn.after (lpUe_k ..)
    | dsimp only | split

theorem shmWrite_k (d a : Nat) (bs : List Byte) (s : State) : KeepsIn [.gc] s (shmWrite d a bs s) := by
  unfold shmWrite
  repeat' first
    | exact rfl
    | with_unfolding_none first
        | apply KeepsIn.refl | assumption | intro _ | apply KeepsIn.ite | apply KeepsIn.after (State.updGc_k ..)
    | dsimp only | split

end Sys2Proof.Machine
end

