-- ==== Sys2Proof/Laws/Keeps/PoolOps.lean ====
section
/-! SUPPORT. What the operations and commands of Machine/PoolOps.lean keep, and the parts they may change. -/
namespace Sys2Proof.Machine

open Sys2Proof

set_option linter.all false

theorem poolTook_k (k : Nat) (s : State) : KeepsIn [.host, .pool, .mgmt, .pages, .cnts] s (poolTook k s) := by
  unfold poolTook
  repeat' first
    | exact rfl
    | with_unfolding_none first
        | apply KeepsIn.refl | assumption | intro _ | apply KeepsIn.ite | apply KeepsIn.after (State.updPool_k ..)
        | apply KeepsIn.after (raiseEv_k ..)
    | dsimp only | split

theorem poolGave_k (k : Nat) (s : State) : KeepsIn [.pool] s (poolGave k s) := by
  unfold poolGave
  repeat' first
    | exact rfl
    | with_unfolding_none first
        | apply KeepsIn.refl | assumption | intro _ | apply KeepsIn.ite | apply KeepsIn.after (State.updPool_k ..)
    | dsimp only | split

theorem poolTake1_k (r : PoolReq) (k n : Nat) (s : State) :
    KeepsIn [.host, .pool, .mem, .mgmt, .pages, .cnts] s (poolTake1 r k n s) := by
  unfold poolTake1
  repeat' first
    | exact rfl
    | with_unfolding_none first
        | apply KeepsIn.refl | assumption | intro _ | apply KeepsIn.ite | apply KeepsIn.after (State.draw_k ..)
        | apply KeepsIn.after (poolTook_k ..) | apply KeepsIn.after (State.updPool_k ..)
        | apply KeepsIn.after (State.updMem_k _ _ ?_ ?_)
    | dsimp only | split

theorem poolTake_k (r : PoolReq) (k : Nat) : ∀ (n len : Nat) (s : State), KeepsIn [.host, .pool, .mem, .mgmt, .pages, .cnts] s (poolTake r k n len s) := by
  intro n
  induction n with
  | zero => intro len s; rw [poolTake]; exact KeepsIn.refl _
  | succ n ih => intro len s; rw [poolTake]; exact KeepsIn.after (ih ..) rfl (KeepsIn.after (poolTake1_k ..) rfl (KeepsIn.refl _))


theorem poolServe_k (r : PoolReq) (k : Nat) (s : State) :
    KeepsIn [.host, .pool, .mem, .mgmt, .pages, .cnts] s (poolServe r k s) := by
  unfold poolServe
  repeat' first
    | exact rfl
    | with_unfolding_none first
        | apply KeepsIn.refl | assumption | intro _ | apply KeepsIn.ite | apply KeepsIn.after (raiseEv_k ..)
        | apply KeepsIn.after (poolTake_k ..)
    | dsimp only | split

theorem poolReq_k (o : PoolOwner) (key : Nat) (j : Option Job) (len : Nat) (s : State) :
    KeepsIn [.host, .pool, .mem, .mgmt, .pages, .cnts] s (poolReq o key j len s) := by
  unfold poolReq
  repeat' first
    | exact rfl
    | with_unfolding_none first
        | apply KeepsIn.refl | assumption | intro _ | apply KeepsIn.ite | apply KeepsIn.after (bump_k ..)
        | apply KeepsIn.after (State.updPool_k ..) | apply KeepsIn.after (raiseEv_k ..)
        | apply KeepsIn.after (poolServe_k ..)
    | dsimp only | split

theorem poolDrain_k  : ∀ (n : Nat) (s : State), KeepsIn [.host, .pool, .mem, .mgmt, .pages, .cnts] s (poolDrain  n s) := by
  intro n
  induction n with
  | zero =>
    intro s
    rw [poolDrain]
    repeat' first
      | exact rfl
      | with_unfolding_none first
          | apply KeepsIn.refl | assumption | apply KeepsIn.ite | apply KeepsIn.after (ih ..)
          | apply KeepsIn.after (bump_k ..) | apply KeepsIn.after (State.updPool_k ..) | apply KeepsIn.after (poolServe_k ..)
      | dsimp only | split
  | succ n ih =>
    intro s
    rw [poolDrain]
    repeat' first
      | exact rfl
      | with_unfolding_none first
          | apply KeepsIn.refl | assumption | apply KeepsIn.ite | apply KeepsIn.after (ih ..)
          | apply KeepsIn.after (bump_k ..) | apply KeepsIn.after (State.updPool_k ..) | apply KeepsIn.after (poolServe_k ..)
      | dsimp only | split

theorem poolSettle_k (s : State) : KeepsIn [.host, .pool, .mem, .mgmt, .pages, .cnts] s (poolSettle s) := by
  unfold poolSettle
  repeat' first
    | exact rfl
    | with_unfolding_none first
        | apply KeepsIn.refl | assumption | intro _ | apply KeepsIn.ite | apply KeepsIn.after (poolDrain_k ..)
    | dsimp only | split

theorem poolRelease_k (o : PoolOwner) (key : Nat) (s : State) :
    KeepsIn [.host, .pool, .mem, .mgmt, .pages, .cnts] s (poolRelease o key s) := by
  unfold poolRelease
  repeat' first
    | exact rfl
    | with_unfolding_none first
        | apply KeepsIn.refl | assumption | intro _ | apply KeepsIn.ite | apply KeepsIn.forAll
        | apply KeepsIn.after (State.updPool_k ..) | apply KeepsIn.after (poolSettle_k ..)
        | apply KeepsIn.after (poolGave_k ..)
    | dsimp only | split

theorem poolPass_k (o : PoolOwner) (key : Nat) (j : Option Job) (len : Nat) (s : State) :
    KeepsIn [.host, .pool, .mem, .mgmt, .pages, .cnts] s (poolPass o key j len s) := by
  unfold poolPass
  repeat' first
    | exact rfl
    | with_unfolding_none first
        | apply KeepsIn.refl | assumption | intro _ | apply KeepsIn.ite | apply KeepsIn.after (poolRelease_k ..)
        | apply KeepsIn.after (poolReq_k ..)
    | dsimp only | split

theorem poolReleaseJob_k (j : Job) (s : State) :
    KeepsIn [.host, .pool, .mem, .mgmt, .pages, .cnts] s (poolReleaseJob j s) := by
  unfold poolReleaseJob
  repeat' first
    | exact rfl
    | with_unfolding_none first
        | apply KeepsIn.refl | assumption | intro _ | apply KeepsIn.ite | apply KeepsIn.forAll
        | apply KeepsIn.after (poolSettle_k ..) | apply KeepsIn.after (poolGave_k ..)
        | apply KeepsIn.after (State.updPool_k ..)
    | dsimp only | split

theorem poolFreeNamed_k (k i owner gen : Nat) (s : State) :
    KeepsIn [.host, .pool, .mem, .mgmt, .pages, .cnts] s (poolFreeNamed k i owner gen s) := by
  unfold poolFreeNamed
  repeat' first
    | exact rfl
    | with_unfolding_none first
        | apply KeepsIn.refl | assumption | intro _ | apply KeepsIn.ite | apply KeepsIn.after (raiseCap_k ..)
        | apply KeepsIn.after (poolSettle_k ..) | apply KeepsIn.after (poolGave_k ..)
        | apply KeepsIn.after (State.updPool_k ..)
    | dsimp only | split

end Sys2Proof.Machine
end

