-- ==== Sys2Proof/Laws/Keeps/FabOps.lean ====
section
/-! SUPPORT. What the operations and commands of Machine/FabOps.lean keep, and the parts they may change. -/
namespace Sys2Proof.Machine

open Sys2Proof

set_option linter.all false

theorem bumpMac_k (m o n : Nat) (s : State) : KeepsIn [.pages, .cnts] s (bumpMac m o n s) := by
  unfold bumpMac
  repeat' first
    | exact rfl
    | with_unfolding_none first
        | apply KeepsIn.refl | assumption | intro _ | apply KeepsIn.ite | apply KeepsIn.after (bump_k ..)
    | dsimp only | split

theorem raiseMac_k (m o b : Nat) (s : State) : KeepsIn [.host, .pages, .cnts] s (raiseMac m o b s) := by
  unfold raiseMac
  repeat' first
    | exact rfl
    | with_unfolding_none first
        | apply KeepsIn.refl | assumption | intro _ | apply KeepsIn.ite | apply KeepsIn.after (event_k ..)
        | apply KeepsIn.after (bumpMac_k ..)
    | dsimp only | split

theorem State.withVoq_k (s : State) (p : VPkt) : KeepsIn [.fab] s (State.withVoq s p) := by
  unfold State.withVoq
  repeat' first
    | exact rfl
    | with_unfolding_none first
        | apply KeepsIn.refl | assumption | intro _ | apply KeepsIn.ite | apply KeepsIn.after (State.updFab_k ..)
    | dsimp only | split

theorem pfcEval_k (m : Nat) (s : State) : KeepsIn [.fab, .pages, .cnts] s (pfcEval m s) := by
  unfold pfcEval
  repeat' first
    | exact rfl
    | with_unfolding_none first
        | apply KeepsIn.refl | assumption | intro _ | apply KeepsIn.ite | apply KeepsIn.after (State.updFab_k ..)
        | apply KeepsIn.after (bumpMac_k ..) | apply KeepsIn.after (State.emit_k ..)
    | dsimp only | split

theorem notePeak_k (o c : Nat) (s : State) : KeepsIn [.fab] s (notePeak o c s) := by
  unfold notePeak
  repeat' first
    | exact rfl
    | with_unfolding_none first
        | apply KeepsIn.refl | assumption | intro _ | apply KeepsIn.ite | apply KeepsIn.after (State.updFab_k ..)
    | dsimp only | split

theorem enqueue_k (p : VPkt) (s : State) : KeepsIn [.fab, .host, .mgmt, .pages, .cnts] s (enqueue p s) := by
  unfold enqueue
  repeat' first
    | exact rfl
    | with_unfolding_none first
        | apply KeepsIn.refl | assumption | intro _ | apply KeepsIn.ite | apply KeepsIn.after (raiseEv_k ..)
        | apply KeepsIn.after (bump_k ..) | apply KeepsIn.after (notePeak_k ..) | apply KeepsIn.after (State.withVoq_k ..)
        | apply KeepsIn.after (pfcEval_k ..)
    | dsimp only | split

theorem noteFlow_k (id : List Nat) (seid : Nat) (may fence : Bool) (s : State) :
    KeepsIn [.fab] s (noteFlow id seid may fence s) := by
  unfold noteFlow
  repeat' first
    | exact rfl
    | with_unfolding_none first
        | apply KeepsIn.refl | assumption | intro _ | apply KeepsIn.ite | apply KeepsIn.after (State.updFab_k ..)
    | dsimp only | split

theorem noRoute_k (input seid : Nat) (s : State) : KeepsIn [.host, .mgmt, .pages, .cnts] s (noRoute input seid s) := by
  unfold noRoute
  repeat' first
    | exact rfl
    | with_unfolding_none first
        | apply KeepsIn.refl | assumption | intro _ | apply KeepsIn.ite | apply KeepsIn.after (raiseCap_k ..)
    | dsimp only | split

theorem egress_k (seid : Nat) (may : Bool) (mk : Nat → VPkt) (s : State) :
    KeepsIn [.fab, .host, .mgmt, .pages, .cnts] s (egress seid may mk s) := by
  unfold egress
  repeat' first
    | exact rfl
    | with_unfolding_none first
        | apply KeepsIn.refl | assumption | intro _ | apply KeepsIn.ite | apply KeepsIn.after (noRoute_k ..)
        | apply KeepsIn.after (noteFlow_k ..) | apply KeepsIn.after (bumpMac_k ..) | apply KeepsIn.after (enqueue_k ..)
    | dsimp only | split

theorem capFrame_k (m : Nat) (sent : Bool) (cls : Nat) (qpn : Option Nat) (data : List Byte) (len : Nat) (s : State) :
    KeepsIn [.fab, .host, .mem, .mgmt, .pages, .cnts] s (capFrame m sent cls qpn data len s) := by
  unfold capFrame
  repeat' first
    | exact rfl
    | with_unfolding_none first
        | apply KeepsIn.refl | assumption | intro _ | apply KeepsIn.ite | apply KeepsIn.after (State.updFab_k ..)
        | apply KeepsIn.after (raiseEv_k ..) | apply KeepsIn.after (lpWrite_k ..)
    | dsimp only | split

theorem mirrorFrame_k (m : Nat) (sent : Bool) (qpn : Option Nat) (data : List Byte) (len : Nat) (s : State) :
    KeepsIn [.fab, .host, .mgmt, .pages, .cnts] s (mirrorFrame m sent qpn data len s) := by
  unfold mirrorFrame
  repeat' first
    | exact rfl
    | with_unfolding_none first
        | apply KeepsIn.refl | assumption | intro _ | apply KeepsIn.ite | apply KeepsIn.after (bump_k ..)
        | apply KeepsIn.after (bumpMac_k ..) | apply KeepsIn.after (enqueue_k ..)
    | dsimp only | split

theorem mirrorOff_k (s : State) : KeepsIn [.host, .mgmt, .pages, .regs, .cnts] s (mirrorOff s) := by
  unfold mirrorOff
  repeat' first
    | exact rfl
    | with_unfolding_none first
        | apply KeepsIn.refl | assumption | intro _ | apply KeepsIn.ite | apply KeepsIn.after (raiseEv_k ..)
        | apply KeepsIn.after (State.setReg_k ..)
    | dsimp only | split

theorem countTx_k (o c bytes : Nat) (s : State) : KeepsIn [.fab, .pages, .cnts] s (countTx o c bytes s) := by
  unfold countTx
  repeat' first
    | exact rfl
    | with_unfolding_none first
        | apply KeepsIn.refl | assumption | intro _ | apply KeepsIn.ite | apply KeepsIn.whenD | apply KeepsIn.foldl'
        | apply KeepsIn.foldlP (st := Prod.snd) | apply KeepsIn.foldlP (st := Prod.fst) | apply KeepsIn.after (bumpMac_k ..)
        | apply KeepsIn.after (State.updFab_k ..)
    | dsimp only | split

theorem frameOut_k (o c : Nat) (qpn : Option Nat) (data : List Byte) (bytes : Nat) (s : State) :
    KeepsIn [.fab, .host, .mem, .mgmt, .pages, .cnts] s (frameOut o c qpn data bytes s) := by
  unfold frameOut
  repeat' first
    | exact rfl
    | with_unfolding_none first
        | apply KeepsIn.refl | assumption | intro _ | apply KeepsIn.ite | apply KeepsIn.after (mirrorFrame_k ..)
        | apply KeepsIn.after (capFrame_k ..) | apply KeepsIn.after (countTx_k ..) | apply KeepsIn.after (State.emit_k ..)
    | dsimp only | split

end Sys2Proof.Machine
end

