-- ==== Sys2Proof/Laws/Keeps/QpOps.lean ====
section
/-! SUPPORT. What the operations and commands of Machine/QpOps.lean keep, and the parts they may change. -/
namespace Sys2Proof.Machine

open Sys2Proof

set_option linter.all false

theorem putQp_k (x : Qp) (s : State) : KeepsIn [.fab] s (putQp x s) := by
  unfold putQp
  repeat' first
    | exact rfl
    | with_unfolding_none first
        | apply KeepsIn.refl | assumption | intro _ | apply KeepsIn.ite | apply KeepsIn.after (State.updFab_k ..)
    | dsimp only | split

theorem updQp_k (qpn : BitVec 24) (f : Qp → Qp) (s : State) : KeepsIn [.fab] s (updQp qpn f s) := by
  unfold updQp
  repeat' first
    | exact rfl
    | with_unfolding_none first
        | apply KeepsIn.refl | assumption | intro _ | apply KeepsIn.ite | apply KeepsIn.after (putQp_k ..)
    | dsimp only | split

theorem txSend_k (q : Qp) (m : TxMsg) (i : Nat) (s : State) :
    KeepsIn [.fab, .host, .mgmt, .pages, .cnts] s (txSend q m i s) := by
  unfold txSend
  repeat' first
    | exact rfl
    | with_unfolding_none first
        | apply KeepsIn.refl | assumption | intro _ | apply KeepsIn.ite | apply KeepsIn.after (egress_k ..)
        | apply KeepsIn.after (putQp_k ..)
    | dsimp only | split

theorem reread_k (m : TxMsg) (i pmtu : Nat) (s : State) : KeepsIn [] s (reread m i pmtu s) := by
  unfold reread
  repeat' first
    | exact rfl
    | with_unfolding_none first
        | apply KeepsIn.refl | assumption | intro _ | apply KeepsIn.ite | apply KeepsIn.after (State.emit_k ..)
    | dsimp only | split

theorem pumpN_k (qpn : BitVec 24) : ∀ (n : Nat) (s : State), KeepsIn [.fab, .host, .mgmt, .pages, .cnts] s (pumpN qpn n s) := by
  intro n
  induction n with
  | zero =>
    intro s
    rw [pumpN]
    repeat' first
      | exact rfl
      | with_unfolding_none first
          | apply KeepsIn.refl | assumption | apply KeepsIn.ite | apply KeepsIn.after (ih ..)
          | apply KeepsIn.after (txSend_k ..) | apply KeepsIn.after (reread_k ..)
      | dsimp only | split
  | succ n ih =>
    intro s
    rw [pumpN]
    repeat' first
      | exact rfl
      | with_unfolding_none first
          | apply KeepsIn.refl | assumption | apply KeepsIn.ite | apply KeepsIn.after (ih ..)
          | apply KeepsIn.after (txSend_k ..) | apply KeepsIn.after (reread_k ..)
      | dsimp only | split

theorem qpPump_k (qpn : BitVec 24) (s : State) : KeepsIn [.fab, .host, .mgmt, .pages, .cnts] s (qpPump qpn s) := by
  unfold qpPump
  repeat' first
    | exact rfl
    | with_unfolding_none first
        | apply KeepsIn.refl | assumption | intro _ | apply KeepsIn.ite | apply KeepsIn.after (pumpN_k ..)
    | dsimp only | split

theorem rdmaPost_k (input : Nat) (qpn : BitVec 24) (va : Nat) (key : Word) (len : Nat) (imm : Option Word) (src : MsgSrc)
    (for_ : MsgFor) (s : State) :
    KeepsIn [.fab, .host, .mgmt, .pages, .cnts] s (rdmaPost input qpn va key len imm src for_ s) := by
  unfold rdmaPost
  repeat' first
    | exact rfl
    | with_unfolding_none first
        | apply KeepsIn.refl | assumption | intro _ | apply KeepsIn.ite | apply KeepsIn.after (qpPump_k ..)
        | apply KeepsIn.after (putQp_k ..) | apply KeepsIn.after (State.emit_k ..)
    | dsimp only | split

theorem rdmaWrite_k (input : Nat) (qpn : BitVec 24) (va : Nat) (key : Word) (data : List Byte) (imm : Option Word)
    (s : State) :
    KeepsIn [.fab, .host, .mgmt, .pages, .cnts] s (rdmaWrite input qpn va key data imm s) := by
  unfold rdmaWrite
  repeat' first
    | exact rfl
    | with_unfolding_none first
        | apply KeepsIn.refl | assumption | intro _ | apply KeepsIn.ite | apply KeepsIn.after (rdmaPost_k ..)
    | dsimp only | split

theorem scatPiece_k (id : Nat) (g : List (Qp × TxMsg)) (s : State) :
    KeepsIn [.fab, .host, .mgmt, .pages, .cnts] s (scatPiece id g s) := by
  unfold scatPiece
  repeat' first
    | exact rfl
    | with_unfolding_none first
        | apply KeepsIn.refl | assumption | intro _ | apply KeepsIn.ite | apply KeepsIn.forAll
        | apply KeepsIn.after (txSend_k ..) | apply KeepsIn.after (State.emit_k ..)
    | dsimp only | split

theorem scatN_k (id : Nat) : ∀ (n : Nat) (s : State), KeepsIn [.fab, .host, .mgmt, .pages, .cnts] s (scatN id n s) := by
  intro n
  induction n with
  | zero =>
    intro s
    rw [scatN]
    repeat' first
      | exact rfl
      | with_unfolding_none first
          | apply KeepsIn.refl | assumption | apply KeepsIn.ite | apply KeepsIn.after (ih ..)
          | apply KeepsIn.after (scatPiece_k ..)
      | dsimp only | split
  | succ n ih =>
    intro s
    rw [scatN]
    repeat' first
      | exact rfl
      | with_unfolding_none first
          | apply KeepsIn.refl | assumption | apply KeepsIn.ite | apply KeepsIn.after (ih ..)
          | apply KeepsIn.after (scatPiece_k ..)
      | dsimp only | split

theorem scatPump_k (id : Nat) (s : State) : KeepsIn [.fab, .host, .mgmt, .pages, .cnts] s (scatPump id s) := by
  unfold scatPump
  repeat' first
    | exact rfl
    | with_unfolding_none first
        | apply KeepsIn.refl | assumption | intro _ | apply KeepsIn.ite | apply KeepsIn.foldl'
        | apply KeepsIn.foldlP (st := Prod.snd) | apply KeepsIn.foldlP (st := Prod.fst) | apply KeepsIn.after (scatN_k ..)
    | dsimp only | split

theorem oweN_k (qpn : BitVec 24) : ∀ (n : Nat) (s : State), KeepsIn [.fab, .host, .mgmt, .pages, .cnts] s (oweN qpn n s) := by
  intro n
  induction n with
  | zero =>
    intro s
    rw [oweN]
    repeat' first
      | exact rfl
      | with_unfolding_none first
          | apply KeepsIn.refl | assumption | apply KeepsIn.ite | apply KeepsIn.after (ih ..)
          | apply KeepsIn.after (egress_k ..) | apply KeepsIn.after (putQp_k ..)
      | dsimp only | split
  | succ n ih =>
    intro s
    rw [oweN]
    repeat' first
      | exact rfl
      | with_unfolding_none first
          | apply KeepsIn.refl | assumption | apply KeepsIn.ite | apply KeepsIn.after (ih ..)
          | apply KeepsIn.after (egress_k ..) | apply KeepsIn.after (putQp_k ..)
      | dsimp only | split

theorem owePump_k (qpn : BitVec 24) (s : State) : KeepsIn [.fab, .host, .mgmt, .pages, .cnts] s (owePump qpn s) := by
  unfold owePump
  repeat' first
    | exact rfl
    | with_unfolding_none first
        | apply KeepsIn.refl | assumption | intro _ | apply KeepsIn.ite | apply KeepsIn.foldl'
        | apply KeepsIn.foldlP (st := Prod.snd) | apply KeepsIn.foldlP (st := Prod.fst) | apply KeepsIn.after (oweN_k ..)
    | dsimp only | split

theorem owe_k (qpn : BitVec 24) (r : Rsp) (s : State) : KeepsIn [.fab] s (owe qpn r s) := by
  unfold owe
  repeat' first
    | exact rfl
    | with_unfolding_none first
        | apply KeepsIn.refl | assumption | intro _ | apply KeepsIn.ite | apply KeepsIn.after (updQp_k ..)
    | dsimp only | split

theorem nakReq_k (qpn : BitVec 24) (syn : Nat) (s : State) : KeepsIn [.fab] s (nakReq qpn syn s) := by
  unfold nakReq
  repeat' first
    | exact rfl
    | with_unfolding_none first
        | apply KeepsIn.refl | assumption | intro _ | apply KeepsIn.ite | apply KeepsIn.after (updQp_k ..)
    | dsimp only | split

theorem fabPump_k (s : State) : KeepsIn [.fab, .host, .mgmt, .pages, .cnts] s (fabPump s) := by
  unfold fabPump
  repeat' first
    | exact rfl
    | with_unfolding_none first
        | apply KeepsIn.refl | assumption | intro _ | apply KeepsIn.ite | apply KeepsIn.forAll
        | apply KeepsIn.after (owePump_k ..) | apply KeepsIn.after (qpPump_k ..) | apply KeepsIn.after (scatPump_k ..)
    | dsimp only | split

theorem resendQp_k (q : Qp) (s : State) : KeepsIn [.fab, .host, .mgmt, .pages, .cnts] s (resendQp q s) := by
  unfold resendQp
  repeat' first
    | exact rfl
    | with_unfolding_none first
        | apply KeepsIn.refl | assumption | intro _ | apply KeepsIn.ite | apply KeepsIn.after (qpPump_k ..)
        | apply KeepsIn.after (putQp_k ..)
    | dsimp only | split

theorem freezeOp_k (id : Nat) (s : State) : KeepsIn [.fab] s (freezeOp id s) := by
  unfold freezeOp
  repeat' first
    | exact rfl
    | with_unfolding_none first
        | apply KeepsIn.refl | assumption | intro _ | apply KeepsIn.ite | apply KeepsIn.after (State.updFab_k ..)
    | dsimp only | split

end Sys2Proof.Machine
end

