-- ==== Sys2Proof/Laws/Keeps/VatOps.lean ====
section
/-! SUPPORT. What the operations and commands of Machine/VatOps.lean keep, and the parts they may change. -/
namespace Sys2Proof.Machine

open Sys2Proof

set_option linter.all false

theorem putWave_k (j h : Nat) (w : Wave) (s : State) : KeepsIn [.vat] s (putWave j h w s) := by
  unfold putWave
  repeat' first
    | exact rfl
    | with_unfolding_none first
        | apply KeepsIn.refl | assumption | intro _ | apply KeepsIn.ite | apply KeepsIn.after (State.updVat_k ..)
    | dsimp only | split

theorem updWave_k (j h : Nat) (f : Wave → Wave) (s : State) : KeepsIn [.vat] s (updWave j h f s) := by
  unfold updWave
  repeat' first
    | exact rfl
    | with_unfolding_none first
        | apply KeepsIn.refl | assumption | intro _ | apply KeepsIn.ite | apply KeepsIn.after (putWave_k ..)
    | dsimp only | split

theorem updVSlot_k (d n : Nat) (f : VSlot → VSlot) (s : State) : KeepsIn [.vat] s (updVSlot d n f s) := by
  unfold updVSlot
  repeat' first
    | exact rfl
    | with_unfolding_none first
        | apply KeepsIn.refl | assumption | intro _ | apply KeepsIn.ite | apply KeepsIn.after (State.updVat_k ..)
    | dsimp only | split

theorem setAcc_k (d n i : Nat) (x : DWord) (s : State) : KeepsIn [.vat] s (setAcc d n i x s) := by
  unfold setAcc
  repeat' first
    | exact rfl
    | with_unfolding_none first
        | apply KeepsIn.refl | assumption | intro _ | apply KeepsIn.ite | apply KeepsIn.after (State.updVat_k ..)
    | dsimp only | split

theorem clearSlots_k (d : Nat) (ns : List Nat) (s : State) : KeepsIn [.vat] s (clearSlots d ns s) := by
  unfold clearSlots
  repeat' first
    | exact rfl
    | with_unfolding_none first
        | apply KeepsIn.refl | assumption | intro _ | apply KeepsIn.ite | apply KeepsIn.after (State.updVat_k ..)
    | dsimp only | split

theorem setWork_k (id : Nat) (w : Work) (s : State) : KeepsIn [.sch] s (setWork id w s) := by
  unfold setWork
  repeat' first
    | exact rfl
    | with_unfolding_none first
        | apply KeepsIn.refl | assumption | intro _ | apply KeepsIn.ite | apply KeepsIn.after (State.updSch_k ..)
    | dsimp only | split

theorem faultOp_k (id status detail : Nat) (s : State) : KeepsIn [.sch] s (faultOp id status detail s) := by
  unfold faultOp
  repeat' first
    | exact rfl
    | with_unfolding_none first
        | apply KeepsIn.refl | assumption | intro _ | apply KeepsIn.ite | apply KeepsIn.after (State.updSch_k ..)
    | dsimp only | split

theorem sendGrant_k (j c : Nat) (g : Word) (r : GrantRec) (s : State) :
    KeepsIn [.fab, .host, .mgmt, .pages, .cnts] s (sendGrant j c g r s) := by
  unfold sendGrant
  repeat' first
    | exact rfl
    | with_unfolding_none first
        | apply KeepsIn.refl | assumption | intro _ | apply KeepsIn.ite | apply KeepsIn.after (rdmaWrite_k ..)
    | dsimp only | split

theorem writeGrant_k (j c : Nat) (r : GrantRec) (s : State) :
    KeepsIn [.vat, .fab, .host, .mgmt, .pages, .cnts] s (writeGrant j c r s) := by
  unfold writeGrant
  repeat' first
    | exact rfl
    | with_unfolding_none first
        | apply KeepsIn.refl | assumption | intro _ | apply KeepsIn.ite | apply KeepsIn.after (sendGrant_k ..)
        | apply KeepsIn.after (State.updVat_k ..)
    | dsimp only | split

theorem grant_k (j c : Nat) (r : GrantRec) (s : State) :
    KeepsIn [.vat, .fab, .host, .pool, .mem, .mgmt, .pages, .cnts] s (grant j c r s) := by
  unfold grant
  repeat' first
    | exact rfl
    | with_unfolding_none first
        | apply KeepsIn.refl | assumption | intro _ | apply KeepsIn.ite | apply KeepsIn.after (writeGrant_k ..)
        | apply KeepsIn.after (State.updVat_k ..) | apply KeepsIn.after (raiseEv_k ..) | apply KeepsIn.after (poolReq_k ..)
    | dsimp only | split

theorem grantDrain_k (j c : Nat) : ∀ (l : List GrantRec) (s : State), KeepsIn [.vat, .fab, .host, .mgmt, .pages, .cnts] s (grantDrain j c l s) := by
  intro l
  induction l with
  | nil =>
    intro s
    rw [grantDrain]
    repeat' first
      | exact rfl
      | with_unfolding_none first
          | apply KeepsIn.refl | assumption | apply KeepsIn.ite | apply KeepsIn.after (ih ..)
          | apply KeepsIn.after (State.updVat_k ..) | apply KeepsIn.after (writeGrant_k ..)
      | dsimp only | split
  | cons a l ih =>
    intro s
    rw [grantDrain]
    repeat' first
      | exact rfl
      | with_unfolding_none first
          | apply KeepsIn.refl | assumption | apply KeepsIn.ite | apply KeepsIn.after (ih ..)
          | apply KeepsIn.after (State.updVat_k ..) | apply KeepsIn.after (writeGrant_k ..)
      | dsimp only | split

theorem grantRelease_k (j c : Nat) (s : State) :
    KeepsIn [.vat, .fab, .host, .pool, .mem, .mgmt, .pages, .cnts] s (grantRelease j c s) := by
  unfold grantRelease
  repeat' first
    | exact rfl
    | with_unfolding_none first
        | apply KeepsIn.refl | assumption | intro _ | apply KeepsIn.ite | apply KeepsIn.after (grantDrain_k ..)
        | apply KeepsIn.after (poolRelease_k ..)
    | dsimp only | split

theorem grantAll_k (j : Nat) (cs : BitVec 512) (r : GrantRec) (s : State) :
    KeepsIn [.vat, .fab, .host, .pool, .mem, .mgmt, .pages, .cnts] s (grantAll j cs r s) := by
  unfold grantAll
  repeat' first
    | exact rfl
    | with_unfolding_none first
        | apply KeepsIn.refl | assumption | intro _ | apply KeepsIn.ite | apply KeepsIn.forAll
        | apply KeepsIn.after (grant_k ..)
    | dsimp only | split

theorem newTag_k (w : Nat) (s : State) : KeepsIn [.vat] s (newTag w s) := by
  unfold newTag
  repeat' first
    | exact rfl
    | with_unfolding_none first
        | apply KeepsIn.refl | assumption | intro _ | apply KeepsIn.ite | apply KeepsIn.after (State.draw_k ..)
        | apply KeepsIn.after (State.updVat_k ..)
    | dsimp only | split

theorem updStats_k (j r : Nat) (f : RStats → RStats) (s : State) : KeepsIn [.outer] s (updStats j r f s) := by
  unfold updStats
  repeat' first
    | exact rfl
    | with_unfolding_none first
        | apply KeepsIn.refl | assumption | intro _ | apply KeepsIn.ite | apply KeepsIn.after (State.updOuter_k ..)
    | dsimp only | split

theorem collectEval_k (j h : Nat) (s : State) :
    KeepsIn [.sch, .vat, .outer, .host, .mgmt, .pages, .cnts] s (collectEval j h s) := by
  unfold collectEval
  repeat' first
    | exact rfl
    | with_unfolding_none first
        | apply KeepsIn.refl | assumption | intro _ | apply KeepsIn.ite | apply KeepsIn.after (setWork_k ..)
        | apply KeepsIn.after (putWave_k ..) | apply KeepsIn.after (updStats_k ..) | apply KeepsIn.after (raiseEv_k ..)
    | dsimp only | split

theorem resendClear_k (j h : Nat) (s : State) : KeepsIn [.vat] s (resendClear j h s) := by
  unfold resendClear
  repeat' first
    | exact rfl
    | with_unfolding_none first
        | apply KeepsIn.refl | assumption | intro _ | apply KeepsIn.ite | apply KeepsIn.after (clearSlots_k ..)
        | apply KeepsIn.after (putWave_k ..)
    | dsimp only | split

theorem resendAsk_k (j h : Nat) (s : State) :
    KeepsIn [.vat, .fab, .host, .pool, .mem, .mgmt, .pages, .cnts] s (resendAsk j h s) := by
  unfold resendAsk
  repeat' first
    | exact rfl
    | with_unfolding_none first
        | apply KeepsIn.refl | assumption | intro _ | apply KeepsIn.ite | apply KeepsIn.after (grantAll_k ..)
    | dsimp only | split

theorem retag_k (j r : Nat) (s : State) : KeepsIn [.vat] s (retag j r s) := by
  unfold retag
  repeat' first
    | exact rfl
    | with_unfolding_none first
        | apply KeepsIn.refl | assumption | intro _ | apply KeepsIn.ite | apply KeepsIn.after (newTag_k ..)
    | dsimp only | split

theorem resendReam_k (j r : Nat) (s : State) :
    KeepsIn [.vat, .fab, .host, .pool, .mem, .mgmt, .pages, .cnts] s (resendReam j r s) := by
  unfold resendReam
  repeat' first
    | exact rfl
    | with_unfolding_none first
        | apply KeepsIn.refl | assumption | intro _ | apply KeepsIn.ite | apply KeepsIn.forAll | apply KeepsIn.foldl'
        | apply KeepsIn.foldlP (st := Prod.snd) | apply KeepsIn.foldlP (st := Prod.fst) | apply KeepsIn.after (retag_k ..)
        | apply KeepsIn.after (resendClear_k ..) | apply KeepsIn.after (resendAsk_k ..) | apply KeepsIn.after (raiseEv_k ..)
    | dsimp only | split

theorem poisonFault_k (id : Nat) (w : Wave) (s : State) :
    KeepsIn [.sch, .host, .mgmt, .pages, .cnts] s (poisonFault id w s) := by
  unfold poisonFault
  repeat' first
    | exact rfl
    | with_unfolding_none first
        | apply KeepsIn.refl | assumption | intro _ | apply KeepsIn.ite | apply KeepsIn.after (faultOp_k ..)
        | apply KeepsIn.after (raiseEv_k ..)
    | dsimp only | split

theorem poisonSlot_k (d n cnt ev : Nat) (s : State) :
    KeepsIn [.sch, .vat, .fab, .host, .pool, .mem, .mgmt, .pages, .cnts] s (poisonSlot d n cnt ev s) := by
  unfold poisonSlot
  repeat' first
    | exact rfl
    | with_unfolding_none first
        | apply KeepsIn.refl | assumption | intro _ | apply KeepsIn.ite | apply KeepsIn.after (updVSlot_k ..)
        | apply KeepsIn.after (State.updVat_k ..) | apply KeepsIn.after (raiseEv_k ..) | apply KeepsIn.after (raiseCap_k ..)
        | apply KeepsIn.after (poisonFault_k ..) | apply KeepsIn.after (resendReam_k ..)
    | dsimp only | split

theorem noteInput_k (j r d : Nat) (x : Dy) (s : State) : KeepsIn [.vat] s (noteInput j r d x s) := by
  unfold noteInput
  repeat' first
    | exact rfl
    | with_unfolding_none first
        | apply KeepsIn.refl | assumption | intro _ | apply KeepsIn.ite | apply KeepsIn.after (State.updVat_k ..)
    | dsimp only | split

theorem vatEnter_k (j : Nat) (w : Wave) (e : Nat) (x : Dy) (u : Nat) (flip : DWord) (s : State) :
    KeepsIn [.sch, .vat, .fab, .host, .pool, .mem, .mgmt, .pages, .cnts] s (vatEnter j w e x u flip s) := by
  unfold vatEnter
  repeat' first
    | exact rfl
    | with_unfolding_none first
        | apply KeepsIn.refl | assumption | intro _ | apply KeepsIn.ite | apply KeepsIn.after (raiseEv_k ..)
        | apply KeepsIn.after (poisonSlot_k ..) | apply KeepsIn.after (setAcc_k ..) | apply KeepsIn.after (raiseCap_k ..)
    | dsimp only | split

theorem vatReplace_k (j : Nat) (w : Wave) (e : Nat) (x : Dy) (u : Nat) (s : State) :
    KeepsIn [.vat, .host, .mgmt, .pages, .cnts] s (vatReplace j w e x u s) := by
  unfold vatReplace
  repeat' first
    | exact rfl
    | with_unfolding_none first
        | apply KeepsIn.refl | assumption | intro _ | apply KeepsIn.ite | apply KeepsIn.after (raiseEv_k ..)
        | apply KeepsIn.after (setAcc_k ..) | apply KeepsIn.after (raiseCap_k ..)
    | dsimp only | split

theorem countNonfin_k (j r d n : Nat) (s : State) : KeepsIn [.vat, .host, .pages, .cnts] s (countNonfin j r d n s) := by
  unfold countNonfin
  repeat' first
    | exact rfl
    | with_unfolding_none first
        | apply KeepsIn.refl | assumption | intro _ | apply KeepsIn.ite | apply KeepsIn.after (bump_k ..)
        | apply KeepsIn.after (event_k ..) | apply KeepsIn.after (State.updVat_k ..)
    | dsimp only | split

theorem updMsg_k (k : Nat) (f : VMsg → VMsg) (s : State) : KeepsIn [.vat] s (updMsg k f s) := by
  unfold updMsg
  repeat' first
    | exact rfl
    | with_unfolding_none first
        | apply KeepsIn.refl | assumption | intro _ | apply KeepsIn.ite | apply KeepsIn.after (State.updVat_k ..)
    | dsimp only | split

theorem contribAdds_k (j c : Nat) (w : Wave) (e0 : Nat) (flips : List (Nat × DWord)) (real : List (Option Dy × Nat))
    (s : State) :
    KeepsIn [.sch, .vat, .fab, .host, .pool, .mem, .mgmt, .pages, .cnts] s (contribAdds j c w e0 flips real s) := by
  unfold contribAdds
  repeat' first
    | exact rfl
    | with_unfolding_none first
        | apply KeepsIn.refl | assumption | intro _ | apply KeepsIn.ite | apply KeepsIn.foldl'
        | apply KeepsIn.foldlP (st := Prod.snd) | apply KeepsIn.foldlP (st := Prod.fst) | apply KeepsIn.after (vatEnter_k ..)
        | apply KeepsIn.after (noteInput_k ..)
    | dsimp only | split

theorem contribBlock_k (j c r nelem : Nat) (f : Fmt) (flips : List (Nat × DWord)) (blk : List Byte) (a : State × Bool) :
    KeepsIn [.sch, .vat, .outer, .fab, .host, .pool, .mem, .mgmt, .pages, .cnts] a.1 (contribBlock j c r nelem f flips blk a).1 := by
  unfold contribBlock
  repeat' first
    | exact rfl
    | with_unfolding_none first
        | apply KeepsIn.refl | assumption | intro _ | apply KeepsIn.ite | apply KeepsIn.after (updMsg_k ..)
        | apply KeepsIn.after (bump_k ..) | apply KeepsIn.after (contribAdds_k ..) | apply KeepsIn.after (countNonfin_k ..)
        | apply KeepsIn.after (collectEval_k ..) | apply KeepsIn.after (updVSlot_k ..)
    | dsimp only | split

theorem contribPacket_k (j c r nelem : Nat) (f : Fmt) (data : List Byte) (flips : List (Nat × DWord)) (s : State) :
    KeepsIn [.sch, .vat, .outer, .fab, .host, .pool, .mem, .mgmt, .pages, .cnts] s (contribPacket j c r nelem f data flips s) := by
  unfold contribPacket
  repeat' first
    | exact rfl | exact contribBlock_k ..
    | with_unfolding_none first
        | apply KeepsIn.refl | assumption | intro _ | apply KeepsIn.ite | apply KeepsIn.foldl'
        | apply KeepsIn.foldlP (st := Prod.snd) | apply KeepsIn.foldlP (st := Prod.fst)
        | apply KeepsIn.after (contribBlock_k ..) | apply KeepsIn.after (bump_k ..) | apply KeepsIn.after (raiseEv_k ..)
        | apply KeepsIn.after (updMsg_k ..) | apply KeepsIn.after (State.updVat_k ..)
    | dsimp only | split

theorem winNak_k (q : BitVec 24) (j w : Nat) (s : State) :
    KeepsIn [.fab, .host, .mgmt, .pages, .cnts] s (winNak q j w s) := by
  unfold winNak
  repeat' first
    | exact rfl
    | with_unfolding_none first
        | apply KeepsIn.refl | assumption | intro _ | apply KeepsIn.ite | apply KeepsIn.after (nakReq_k ..)
        | apply KeepsIn.after (raiseCap_k ..) | apply KeepsIn.after (State.emit_k ..)
    | dsimp only | split

theorem qpCut_k (j c : Nat) (s : State) :
    KeepsIn [.sch, .vat, .fab, .host, .pool, .mem, .mgmt, .pages, .cnts] s (qpCut j c s) := by
  unfold qpCut
  repeat' first
    | exact rfl
    | with_unfolding_none first
        | apply KeepsIn.refl | assumption | intro _ | apply KeepsIn.ite | apply KeepsIn.after (State.updVat_k ..)
        | apply KeepsIn.after (poisonSlot_k ..)
    | dsimp only | split

theorem qpCutAll_k (q : BitVec 24) (s : State) :
    KeepsIn [.sch, .vat, .fab, .host, .pool, .mem, .mgmt, .pages, .cnts] s (qpCutAll q s) := by
  unfold qpCutAll
  repeat' first
    | exact rfl
    | with_unfolding_none first
        | apply KeepsIn.refl | assumption | intro _ | apply KeepsIn.ite | apply KeepsIn.forAll
        | apply KeepsIn.after (qpCut_k ..)
    | dsimp only | split

theorem cmapRemove_k (j : Nat) (gone : BitVec 512) (s : State) :
    KeepsIn [.sch, .vat, .outer, .fab, .host, .pool, .mem, .mgmt, .pages, .cnts] s (cmapRemove j gone s) := by
  unfold cmapRemove
  repeat' first
    | exact rfl
    | with_unfolding_none first
        | apply KeepsIn.refl | assumption | intro _ | apply KeepsIn.ite | apply KeepsIn.forAll
        | apply KeepsIn.after (updWave_k ..) | apply KeepsIn.after (collectEval_k ..) | apply KeepsIn.after (resendReam_k ..)
    | dsimp only | split

end Sys2Proof.Machine
end

