-- ==== Sys2Proof/Laws/Keeps/SchedBase.lean ====
section
/-! SUPPORT. What the operations and commands of Machine/SchedBase.lean keep, and the parts they may change. -/
namespace Sys2Proof.Machine

open Sys2Proof

set_option linter.all false

theorem setCtr_k (i : Nat) (v : Word) (s : State) : KeepsIn [.sch] s (setCtr i v s) := by
  unfold setCtr
  repeat' first
    | exact rfl
    | with_unfolding_none first
        | apply KeepsIn.refl | assumption | intro _ | apply KeepsIn.ite | apply KeepsIn.after (State.updSch_k ..)
    | dsimp only | split

theorem signal_k (i inc : Nat) (s : State) : KeepsIn [.sch, .host, .pages] s (signal i inc s) := by
  unfold signal
  repeat' first
    | exact rfl
    | with_unfolding_none first
        | apply KeepsIn.refl | assumption | intro _ | apply KeepsIn.ite | apply KeepsIn.after (event_k ..)
        | apply KeepsIn.after (captureEv_k ..) | apply KeepsIn.after (setCtr_k ..)
    | dsimp only | split

theorem updEntry_k (id : Nat) (f : Entry → Entry) (s : State) : KeepsIn [.sch] s (updEntry id f s) := by
  unfold updEntry
  repeat' first
    | exact rfl
    | with_unfolding_none first
        | apply KeepsIn.refl | assumption | intro _ | apply KeepsIn.ite | apply KeepsIn.after (State.updSch_k ..)
    | dsimp only | split

theorem enter_k (id : Nat) (st : OpSt) (s : State) : KeepsIn [.sch] s (enter id st s) := by
  unfold enter
  repeat' first
    | exact rfl
    | with_unfolding_none first
        | apply KeepsIn.refl | assumption | intro _ | apply KeepsIn.ite | apply KeepsIn.after (updEntry_k ..)
        | apply KeepsIn.after (State.updSch_k ..)
    | dsimp only | split

theorem evalEntry_k (id : Nat) (s : State) : KeepsIn [.sch] s (evalEntry id s) := by
  unfold evalEntry
  repeat' first
    | exact rfl
    | with_unfolding_none first
        | apply KeepsIn.refl | assumption | intro _ | apply KeepsIn.ite | apply KeepsIn.after (enter_k ..)
    | dsimp only | split

theorem evalJob_k (j : Nat) (s : State) : KeepsIn [.sch] s (evalJob j s) := by
  unfold evalJob
  repeat' first
    | exact rfl
    | with_unfolding_none first
        | apply KeepsIn.refl | assumption | intro _ | apply KeepsIn.ite | apply KeepsIn.forAll
        | apply KeepsIn.after (evalEntry_k ..)
    | dsimp only | split

theorem toWaiting_k (id : Nat) (s : State) : KeepsIn [.sch] s (toWaiting id s) := by
  unfold toWaiting
  repeat' first
    | exact rfl
    | with_unfolding_none first
        | apply KeepsIn.refl | assumption | intro _ | apply KeepsIn.ite | apply KeepsIn.after (evalEntry_k ..)
        | apply KeepsIn.after (enter_k ..)
    | dsimp only | split

theorem stepTriggers_k (j : Nat) (s : State) : KeepsIn [.sch] s (stepTriggers j s) := by
  unfold stepTriggers
  repeat' first
    | exact rfl
    | with_unfolding_none first
        | apply KeepsIn.refl | assumption | intro _ | apply KeepsIn.ite | apply KeepsIn.forAll
        | apply KeepsIn.after (toWaiting_k ..)
    | dsimp only | split

end Sys2Proof.Machine
end

