-- ==== Sys2Proof/Laws/Keeps/RingOps.lean ====
section
/-! SUPPORT. What the operations and commands of Machine/RingOps.lean keep, and the parts they may change. -/
namespace Sys2Proof.Machine

open Sys2Proof

set_option linter.all false

theorem updGrp_k (g : Nat) (f : Grp → Grp) (s : State) : KeepsIn [.ring] s (updGrp g f s) := by
  unfold updGrp
  repeat' first
    | exact rfl
    | with_unfolding_none first
        | apply KeepsIn.refl | assumption | intro _ | apply KeepsIn.ite | apply KeepsIn.after (State.updRing_k ..)
    | dsimp only | split

theorem updPort_k (p : Nat) (f : LinePort → LinePort) (s : State) : KeepsIn [.line] s (updPort p f s) := by
  unfold updPort
  repeat' first
    | exact rfl
    | with_unfolding_none first
        | apply KeepsIn.refl | assumption | intro _ | apply KeepsIn.ite | apply KeepsIn.after (State.updLine_k ..)
    | dsimp only | split

theorem sendRec_k (k kind count tbytes : Nat) (s : State) : KeepsIn [.line] s (sendRec k kind count tbytes s) := by
  unfold sendRec
  repeat' first
    | exact rfl
    | with_unfolding_none first
        | apply KeepsIn.refl | assumption | intro _ | apply KeepsIn.ite | apply KeepsIn.after (updPort_k ..)
    | dsimp only | split

theorem putTx_k (k : Nat) (t : TxCw) (s : State) : KeepsIn [.ring] s (putTx k t s) := by
  unfold putTx
  repeat' first
    | exact rfl
    | with_unfolding_none first
        | apply KeepsIn.refl | assumption | intro _ | apply KeepsIn.ite | apply KeepsIn.after (State.updRing_k ..)
    | dsimp only | split

theorem putRx_k (k : Nat) (t : RxCw) (s : State) : KeepsIn [.ring] s (putRx k t s) := by
  unfold putRx
  repeat' first
    | exact rfl
    | with_unfolding_none first
        | apply KeepsIn.refl | assumption | intro _ | apply KeepsIn.ite | apply KeepsIn.after (State.updRing_k ..)
    | dsimp only | split

theorem txSettle_k (k : Nat) (s : State) : KeepsIn [.sch, .ring, .host, .pages] s (txSettle k s) := by
  unfold txSettle
  repeat' first
    | exact rfl
    | with_unfolding_none first
        | apply KeepsIn.refl | assumption | intro _ | apply KeepsIn.ite | apply KeepsIn.after (State.updRing_k ..)
        | apply KeepsIn.after (putTx_k ..) | apply KeepsIn.after (evalJob_k ..) | apply KeepsIn.after (signal_k ..)
    | dsimp only | split

theorem rxSettle_k (k : Nat) (s : State) : KeepsIn [.ring, .line] s (rxSettle k s) := by
  unfold rxSettle
  repeat' first
    | exact rfl
    | with_unfolding_none first
        | apply KeepsIn.refl | assumption | intro _ | apply KeepsIn.ite | apply KeepsIn.after (sendRec_k ..)
        | apply KeepsIn.after (State.updRing_k ..)
    | dsimp only | split

theorem cwsReleased_k (wk : Nat) (cws : List Nat) (s : State) : KeepsIn [.ring, .line] s (cwsReleased wk cws s) := by
  unfold cwsReleased
  repeat' first
    | exact rfl
    | with_unfolding_none first
        | apply KeepsIn.refl | assumption | intro _ | apply KeepsIn.ite | apply KeepsIn.forAll
        | apply KeepsIn.after (rxSettle_k ..) | apply KeepsIn.after (putRx_k ..)
    | dsimp only | split

theorem waveRelease_k (j h : Nat) (s : State) :
    KeepsIn [.vat, .gc, .ring, .fab, .line, .host, .pool, .mem, .mgmt, .pages, .cnts] s (waveRelease j h s) := by
  unfold waveRelease
  repeat' first
    | exact rfl
    | with_unfolding_none first
        | apply KeepsIn.refl | assumption | intro _ | apply KeepsIn.ite | apply KeepsIn.after (grantAll_k ..)
        | apply KeepsIn.after (State.updVat_k ..) | apply KeepsIn.after (cwsReleased_k ..)
        | apply KeepsIn.after (State.updGc_k ..)
    | dsimp only | split

end Sys2Proof.Machine
end

