-- ==== Sys2Proof/Laws/Keeps/SchedOps.lean ====
section
/-! SUPPORT. What the operations and commands of Machine/SchedOps.lean keep, and the parts they may change. -/
namespace Sys2Proof.Machine

open Sys2Proof

set_option linter.all false

theorem enterDesc_k (src : Src) (d : Desc) (s : State) : KeepsIn [.sch] s (enterDesc src d s) := by
  unfold enterDesc
  repeat' first
    | exact rfl
    | with_unfolding_none first
        | apply KeepsIn.refl | assumption | intro _ | apply KeepsIn.ite | apply KeepsIn.after (State.updSch_k ..)
        | apply KeepsIn.after (evalEntry_k ..) | apply KeepsIn.after (toWaiting_k ..)
    | dsimp only | split

theorem acceptFn_k (f : Func) (d : Desc) (headOk : Bool) (s : State) :
    KeepsIn [.sch, .host, .mgmt, .pages, .cnts] s (acceptFn f d headOk s).2 := by
  unfold acceptFn
  repeat' first
    | exact rfl
    | with_unfolding_none first
        | apply KeepsIn.refl | assumption | intro _ | apply KeepsIn.ite | apply KeepsIn.after (raiseEv_k ..)
        | apply KeepsIn.after (enterDesc_k ..)
    | dsimp only | split

theorem updCore_k (c : Nat) (f : CoreSt → CoreSt) (s : State) : KeepsIn [.gc] s (updCore c f s) := by
  unfold updCore
  repeat' first
    | exact rfl
    | with_unfolding_none first
        | apply KeepsIn.refl | assumption | intro _ | apply KeepsIn.ite | apply KeepsIn.after (State.updGc_k ..)
    | dsimp only | split

theorem acceptCore_k (c : Nat) (d0 : Desc) (headOk : Bool) (s : State) :
    OptK [.sch, .gc, .host, .mgmt, .pages, .cnts] s (fun x => x.2) (acceptCore c d0 headOk s) := by
  unfold acceptCore
  repeat' first
    | exact rfl
    | with_unfolding_none first
        | apply KeepsIn.refl | apply OptK.ite | apply OptK.none | apply OptK.some | assumption | intro _ | apply KeepsIn.ite
        | apply KeepsIn.after (raiseEv_k ..) | apply KeepsIn.after (enterDesc_k ..) | apply KeepsIn.after (updCore_k ..)
    | dsimp only | split

theorem coreDone_k (c : Nat) (s : State) : KeepsIn [.sch, .gc] s (coreDone c s) := by
  unfold coreDone
  repeat' first
    | exact rfl
    | with_unfolding_none first
        | apply KeepsIn.refl | assumption | intro _ | apply KeepsIn.ite | apply KeepsIn.after (updCore_k ..)
        | apply KeepsIn.after (setWork_k ..)
    | dsimp only | split

theorem drainOne_k (c : Nat) (d : Desc) (a : List Desc × State) : KeepsIn [.sch, .gc, .host, .mgmt, .pages, .cnts] a.2 (drainOne c d a).2 := by
  unfold drainOne
  repeat' first
    | exact rfl
    | with_unfolding_none first
        | apply KeepsIn.refl | assumption | intro _ | apply KeepsIn.ite | apply OptK.after (acceptCore_k ..)
        | apply KeepsIn.after (OptK.get2 (acceptCore_k ..) (by assumption)) | apply KeepsIn.after (updCore_k ..)
    | dsimp only | split

theorem drainCore_k (c : Nat) (ds : List Desc) (s : State) :
    KeepsIn [.sch, .gc, .host, .mgmt, .pages, .cnts] s (drainCore c ds s) := by
  unfold drainCore
  repeat' first
    | exact rfl | exact drainOne_k ..
    | with_unfolding_none first
        | apply KeepsIn.refl | assumption | intro _ | apply KeepsIn.ite | apply KeepsIn.foldl'
        | apply KeepsIn.foldlP (st := Prod.snd) | apply KeepsIn.foldlP (st := Prod.fst) | apply KeepsIn.after (drainOne_k ..)
        | apply KeepsIn.after (coreDone_k ..) | apply KeepsIn.after (updCore_k ..)
    | dsimp only | split

theorem retryCores_k (s : State) : KeepsIn [.sch, .gc, .host, .mgmt, .pages, .cnts] s (retryCores s) := by
  unfold retryCores
  repeat' first
    | exact rfl
    | with_unfolding_none first
        | apply KeepsIn.refl | assumption | intro _ | apply KeepsIn.ite | apply KeepsIn.forAll
        | apply KeepsIn.after (drainCore_k ..)
    | dsimp only | split

theorem submitCore_k (c : Nat) (d : Desc) (headOk : Bool) (s : State) :
    KeepsIn [.sch, .gc, .host, .mgmt, .pages, .cnts] s (submitCore c d headOk s) := by
  unfold submitCore
  repeat' first
    | exact rfl
    | with_unfolding_none first
        | apply KeepsIn.refl | assumption | intro _ | apply KeepsIn.ite | apply KeepsIn.after (updCore_k ..)
        | apply OptK.after (acceptCore_k ..) | apply KeepsIn.after (OptK.get2 (acceptCore_k ..) (by assumption))
    | dsimp only | split

theorem issue_k (cls u : Nat) (e : Entry) (s : State) : KeepsIn [.sch] s (issue cls u e s) := by
  unfold issue
  repeat' first
    | exact rfl
    | with_unfolding_none first
        | apply KeepsIn.refl | assumption | intro _ | apply KeepsIn.ite | apply KeepsIn.after (enter_k ..)
        | apply KeepsIn.after (State.updSch_k ..)
    | dsimp only | split

theorem releaseOn_k (d : Desc) (s : State) :
    KeepsIn [.vat, .gc, .ring, .fab, .line, .host, .pool, .mem, .mgmt, .pages, .cnts] s (releaseOn d s) := by
  unfold releaseOn
  repeat' first
    | exact rfl
    | with_unfolding_none first
        | apply KeepsIn.refl | assumption | intro _ | apply KeepsIn.ite | apply KeepsIn.after (waveRelease_k ..)
    | dsimp only | split

theorem doomedRelease_k (d : Desc) (s : State) :
    KeepsIn [.vat, .gc, .ring, .fab, .line, .host, .pool, .mem, .mgmt, .pages, .cnts] s (doomedRelease d s) := by
  unfold doomedRelease
  repeat' first
    | exact rfl
    | with_unfolding_none first
        | apply KeepsIn.refl | assumption | intro _ | apply KeepsIn.ite | apply KeepsIn.after (releaseOn_k ..)
    | dsimp only | split

theorem waveCancel_k (d : Desc) (s : State) :
    KeepsIn [.vat, .gc, .ring, .fab, .line, .host, .pool, .mem, .mgmt, .pages, .cnts] s (waveCancel d s) := by
  unfold waveCancel
  repeat' first
    | exact rfl
    | with_unfolding_none first
        | apply KeepsIn.refl | assumption | intro _ | apply KeepsIn.ite | apply KeepsIn.after (doomedRelease_k ..)
        | apply KeepsIn.after (updWave_k ..)
    | dsimp only | split

theorem waveEnd_k (e : Entry) (done : Bool) (s : State) :
    KeepsIn [.vat, .gc, .ring, .fab, .line, .host, .pool, .mem, .mgmt, .pages, .cnts] s (waveEnd e done s) := by
  unfold waveEnd
  repeat' first
    | exact rfl
    | with_unfolding_none first
        | apply KeepsIn.refl | assumption | intro _ | apply KeepsIn.ite | apply KeepsIn.after (releaseOn_k ..)
        | apply KeepsIn.after (waveCancel_k ..) | apply KeepsIn.after (doomedRelease_k ..)
    | dsimp only | split

theorem qbFree_k (d j q : Nat) (s : State) : KeepsIn [.eng] s (qbFree d j q s) := by
  unfold qbFree
  repeat' first
    | exact rfl
    | with_unfolding_none first
        | apply KeepsIn.refl | assumption | intro _ | apply KeepsIn.ite | apply KeepsIn.after (State.updEng_k ..)
    | dsimp only | split

theorem cbFree_k (d j q : Nat) (s : State) : KeepsIn [.sheet] s (cbFree d j q s) := by
  unfold cbFree
  repeat' first
    | exact rfl
    | with_unfolding_none first
        | apply KeepsIn.refl | assumption | intro _ | apply KeepsIn.ite | apply KeepsIn.after (State.updSheet_k ..)
    | dsimp only | split

theorem updStrm_k (k : Nat) (f : Strm → Strm) (s : State) : KeepsIn [.sheet] s (updStrm k f s) := by
  unfold updStrm
  repeat' first
    | exact rfl
    | with_unfolding_none first
        | apply KeepsIn.refl | assumption | intro _ | apply KeepsIn.ite | apply KeepsIn.after (State.updSheet_k ..)
    | dsimp only | split

theorem strmEnd_k (e : Entry) (bad : Bool) (s : State) : KeepsIn [.sch, .sheet] s (strmEnd e bad s) := by
  unfold strmEnd
  repeat' first
    | exact rfl
    | with_unfolding_none first
        | apply KeepsIn.refl | assumption | intro _ | apply KeepsIn.ite | apply KeepsIn.after (faultOp_k ..)
        | apply KeepsIn.after (State.updSheet_k ..)
    | dsimp only | split

theorem strmLost_k (d : Desc) (s : State) : KeepsIn [.sch, .sheet] s (strmLost d s) := by
  unfold strmLost
  repeat' first
    | exact rfl
    | with_unfolding_none first
        | apply KeepsIn.refl | assumption | intro _ | apply KeepsIn.ite | apply KeepsIn.after (State.updSheet_k ..)
        | apply KeepsIn.after (faultOp_k ..)
    | dsimp only | split

theorem readsDone_k (e : Entry) (s : State) : KeepsIn [.sch, .ring, .host, .pages] s (readsDone e s) := by
  unfold readsDone
  repeat' first
    | exact rfl
    | with_unfolding_none first
        | apply KeepsIn.refl | assumption | intro _ | apply KeepsIn.ite | apply KeepsIn.after (txSettle_k ..)
        | apply KeepsIn.after (putTx_k ..)
    | dsimp only | split

theorem readsGone_k (d : Desc) (s : State) : KeepsIn [.sch, .ring, .host, .pages] s (readsGone d s) := by
  unfold readsGone
  repeat' first
    | exact rfl
    | with_unfolding_none first
        | apply KeepsIn.refl | assumption | intro _ | apply KeepsIn.ite | apply KeepsIn.forAll
        | apply KeepsIn.after (txSettle_k ..)
    | dsimp only | split

theorem refetchSettle_k (s : State) : KeepsIn [.sch] s (refetchSettle s) := by
  unfold refetchSettle
  repeat' first
    | exact rfl
    | with_unfolding_none first
        | apply KeepsIn.refl | assumption | intro _ | apply KeepsIn.ite | apply KeepsIn.after (State.updSch_k ..)
    | dsimp only | split

theorem unitEnd_k (e : Entry) (faulted cancelled : Bool) (s : State) :
    KeepsIn [.sch, .eng, .sheet, .ring, .fab, .line, .host, .pages] s (unitEnd e faulted cancelled s) := by
  unfold unitEnd
  repeat' first
    | exact rfl
    | with_unfolding_none first
        | apply KeepsIn.refl | assumption | intro _ | apply KeepsIn.ite | apply KeepsIn.after (State.updEng_k ..)
        | apply KeepsIn.after (qbFree_k ..) | apply KeepsIn.after (State.updSheet_k ..) | apply KeepsIn.after (putTx_k ..)
        | apply KeepsIn.after (rxSettle_k ..) | apply KeepsIn.after (putRx_k ..) | apply KeepsIn.after (cbFree_k ..)
        | apply KeepsIn.after (readsDone_k ..) | apply KeepsIn.after (refetchSettle_k ..)
        | apply KeepsIn.after (strmEnd_k ..) | apply KeepsIn.after (freezeOp_k ..)
    | dsimp only | split

theorem opRec_k (e : Entry) (status : Nat) (detail : Word) (s : State) : KeepsIn [.host] s (opRec e status detail s) := by
  unfold opRec
  repeat' first
    | exact rfl
    | with_unfolding_none first
        | apply KeepsIn.refl | assumption | intro _ | apply KeepsIn.ite | apply KeepsIn.after (pushRec_k ..)
    | dsimp only | split

theorem pushExc_k (d : Nat) (r : ExcRec) (s : State) : KeepsIn [.gc, .host, .mgmt, .pages, .cnts] s (pushExc d r s) := by
  unfold pushExc
  repeat' first
    | exact rfl
    | with_unfolding_none first
        | apply KeepsIn.refl | assumption | intro _ | apply KeepsIn.ite | apply KeepsIn.after (raiseEv_k ..)
        | apply KeepsIn.after (State.updGc_k ..)
    | dsimp only | split

theorem removeEntry_k (id : Nat) (s : State) : KeepsIn [.sch] s (removeEntry id s) := by
  unfold removeEntry
  repeat' first
    | exact rfl
    | with_unfolding_none first
        | apply KeepsIn.refl | assumption | intro _ | apply KeepsIn.ite | apply KeepsIn.after (State.updSch_k ..)
    | dsimp only | split

theorem applySignals_k (d : Desc) (s : State) : KeepsIn [.sch, .host, .pages] s (applySignals d s) := by
  unfold applySignals
  repeat' first
    | exact rfl
    | with_unfolding_none first
        | apply KeepsIn.refl | assumption | intro _ | apply KeepsIn.ite | apply KeepsIn.forAll
        | apply KeepsIn.after (signal_k ..)
    | dsimp only | split

theorem replayDrop_k (e : Entry) (s : State) : KeepsIn [.host, .pool, .mem, .mgmt, .pages, .cnts] s (replayDrop e s) := by
  unfold replayDrop
  repeat' first
    | exact rfl
    | with_unfolding_none first
        | apply KeepsIn.refl | assumption | intro _ | apply KeepsIn.ite | apply KeepsIn.after (State.updMgmt_k ..)
        | apply KeepsIn.after (poolRelease_k ..)
    | dsimp only | split

theorem dropEntry_k (e : Entry) (s : State) :
    KeepsIn [.sch, .vat, .eng, .gc, .sheet, .ring, .fab, .line, .host, .pool, .mem, .mgmt, .pages, .cnts] s (dropEntry e s) := by
  unfold dropEntry
  repeat' first
    | exact rfl
    | with_unfolding_none first
        | apply KeepsIn.refl | assumption | intro _ | apply KeepsIn.ite | apply KeepsIn.after (removeEntry_k ..)
        | apply KeepsIn.after (unitEnd_k ..) | apply KeepsIn.after (readsGone_k ..) | apply KeepsIn.after (strmLost_k ..)
        | apply KeepsIn.after (waveCancel_k ..) | apply KeepsIn.after (replayDrop_k ..) | apply KeepsIn.after (opRec_k ..)
    | dsimp only | split

theorem mirInvalid_k (j r : Nat) (s : State) :
    KeepsIn [.sch, .vat, .eng, .gc, .sheet, .ring, .fab, .line, .host, .pool, .mem, .mgmt, .pages, .cnts] s (mirInvalid j r s) := by
  unfold mirInvalid
  repeat' first
    | exact rfl
    | with_unfolding_none first
        | apply KeepsIn.refl | assumption | intro _ | apply KeepsIn.ite | apply KeepsIn.forAll
        | apply KeepsIn.after (State.updMgmt_k ..) | apply KeepsIn.after (raiseEv_k ..)
        | apply KeepsIn.after (dropEntry_k ..) | apply KeepsIn.after (State.emit_k ..)
    | dsimp only | split

theorem replayEnd_k (e : Entry) (bad : Bool) (s : State) :
    KeepsIn [.sch, .vat, .eng, .gc, .sheet, .ring, .fab, .line, .host, .pool, .mem, .mgmt, .pages, .cnts] s (replayEnd e bad s) := by
  unfold replayEnd
  repeat' first
    | exact rfl
    | with_unfolding_none first
        | apply KeepsIn.refl | assumption | intro _ | apply KeepsIn.ite | apply KeepsIn.whenD
        | apply KeepsIn.after (mirInvalid_k ..) | apply KeepsIn.after (replayDrop_k ..)
    | dsimp only | split

theorem endDone_k (e : Entry) (s : State) :
    KeepsIn [.sch, .vat, .eng, .gc, .sheet, .ring, .fab, .line, .host, .pool, .mem, .mgmt, .pages, .cnts] s (endDone e s) := by
  unfold endDone
  repeat' first
    | exact rfl
    | with_unfolding_none first
        | apply KeepsIn.refl | assumption | intro _ | apply KeepsIn.ite | apply KeepsIn.after (applySignals_k ..)
        | apply KeepsIn.after (unitEnd_k ..) | apply KeepsIn.after (replayEnd_k ..) | apply KeepsIn.after (readsGone_k ..)
        | apply KeepsIn.after (removeEntry_k ..) | apply KeepsIn.after (waveEnd_k ..) | apply KeepsIn.after (opRec_k ..)
        | apply KeepsIn.after (evalJob_k ..) | apply KeepsIn.after (retryCores_k ..)
    | dsimp only | split

theorem endFaulted_k (e : Entry) (status detail : Nat) (s : State) :
    KeepsIn [.sch, .vat, .eng, .gc, .sheet, .ring, .fab, .line, .host, .pool, .mem, .mgmt, .pages, .cnts] s (endFaulted e status detail s) := by
  unfold endFaulted
  repeat' first
    | exact rfl
    | with_unfolding_none first
        | apply KeepsIn.refl | assumption | intro _ | apply KeepsIn.ite | apply KeepsIn.after (replayEnd_k ..)
        | apply KeepsIn.after (readsGone_k ..) | apply KeepsIn.after (removeEntry_k ..) | apply KeepsIn.after (unitEnd_k ..)
        | apply KeepsIn.after (waveEnd_k ..) | apply KeepsIn.after (opRec_k ..) | apply KeepsIn.after (evalJob_k ..)
        | apply KeepsIn.after (retryCores_k ..) | apply KeepsIn.after (raiseEv_k ..) | apply KeepsIn.after (pushExc_k ..)
    | dsimp only | split

theorem stopEntry_k (e : Entry) (s : State) :
    KeepsIn [.sch, .vat, .eng, .gc, .sheet, .ring, .fab, .line, .host, .pool, .mem, .mgmt, .pages, .cnts] s (stopEntry e s) := by
  unfold stopEntry
  repeat' first
    | exact rfl
    | with_unfolding_none first
        | apply KeepsIn.refl | assumption | intro _ | apply KeepsIn.ite | apply KeepsIn.after (endFaulted_k ..)
        | apply KeepsIn.after (dropEntry_k ..)
    | dsimp only | split

theorem cancelEntry_k (e : Entry) (s : State) :
    KeepsIn [.sch, .vat, .eng, .gc, .sheet, .ring, .fab, .line, .host, .pool, .mem, .mgmt, .pages, .cnts] s (cancelEntry e s) := by
  unfold cancelEntry
  repeat' first
    | exact rfl
    | with_unfolding_none first
        | apply KeepsIn.refl | assumption | intro _ | apply KeepsIn.ite | apply KeepsIn.after (updEntry_k ..)
        | apply KeepsIn.after (dropEntry_k ..)
    | dsimp only | split

end Sys2Proof.Machine
end

