-- ==== Sys2Proof/Laws/Keeps/Sched.lean ====
section
/-! SUPPORT. What the operations and commands of Machine/Sched.lean keep, and the parts they may change. -/
namespace Sys2Proof.Machine

open Sys2Proof

set_option linter.all false

theorem store_k (p o ix : Nat) (v : Word) (s : State) : KeepsIn [.regs] s (store p o ix v s) := by
  unfold store
  repeat' first
    | exact rfl
    | with_unfolding_none first
        | apply KeepsIn.refl | assumption | intro _ | apply KeepsIn.ite | apply KeepsIn.after (State.setReg_k ..)
    | dsimp only | split

theorem storePair_k (p o ix : Nat) (v : DWord) (s : State) : KeepsIn [.regs] s (storePair p o ix v s) := by
  unfold storePair
  repeat' first
    | exact rfl
    | with_unfolding_none first
        | apply KeepsIn.refl | assumption | intro _ | apply KeepsIn.ite | apply KeepsIn.after (State.setReg_k ..)
    | dsimp only | split

theorem axisEval_k (j : Nat) (s : State) : KeepsIn [.sch] s (axisEval j s) := by
  unfold axisEval
  repeat' first
    | exact rfl
    | with_unfolding_none first
        | apply KeepsIn.refl | assumption | intro _ | apply KeepsIn.ite | apply KeepsIn.after (stepTriggers_k ..)
        | apply KeepsIn.after (State.updSch_k ..)
    | dsimp only | split

theorem stepMarkOp_k (j off : Nat) (b : List Byte) (s : State) :
    KeepsIn [.sch, .host, .mgmt, .pages, .cnts] s (stepMarkOp j off b s) := by
  unfold stepMarkOp
  repeat' first
    | exact rfl
    | with_unfolding_none first
        | apply KeepsIn.refl | assumption | intro _ | apply KeepsIn.ite | apply KeepsIn.after (raiseEv_k ..)
        | apply KeepsIn.after (bump_k ..) | apply KeepsIn.after (axisEval_k ..) | apply KeepsIn.after (State.updSch_k ..)
    | dsimp only | split

theorem execStepMark_k (j : Job) (off : Nat) (bytes : List Byte) (s : State) :
    ResK [.sch, .host, .mgmt, .pages, .cnts] s (execStepMark j off bytes s) := by
  unfold execStepMark
  repeat' first
    | exact rfl
    | with_unfolding_none first
        | apply KeepsIn.refl | apply ResK.next | assumption | intro _ | apply KeepsIn.ite
        | apply KeepsIn.after (stepMarkOp_k ..)
    | dsimp only | split

theorem stepLoad_k (j : Nat) (v : DWord) (s : State) : EffK [.sch] s (stepLoad j v s) := by
  unfold stepLoad
  repeat' first
    | exact rfl
    | with_unfolding_none first
        | apply KeepsIn.refl | apply EffK.ok | apply EffK.error | apply EffK.ite | assumption | intro _ | apply KeepsIn.ite
        | apply KeepsIn.foldl' | apply KeepsIn.foldlP (st := Prod.snd) | apply KeepsIn.foldlP (st := Prod.fst)
        | apply KeepsIn.after (State.updSch_k ..) | apply EffK.map
    | dsimp only | split

theorem regmapWr_k (j k : Nat) (v : Word) (s : State) : KeepsIn [.sch, .regs] s (regmapWr j k v s) := by
  unfold regmapWr
  repeat' first
    | exact rfl
    | with_unfolding_none first
        | apply KeepsIn.refl | assumption | intro _ | apply KeepsIn.ite | apply KeepsIn.foldl'
        | apply KeepsIn.foldlP (st := Prod.snd) | apply KeepsIn.foldlP (st := Prod.fst) | apply KeepsIn.after (store_k ..)
        | apply KeepsIn.after (State.updSch_k ..) | apply KeepsIn.after (axisEval_k ..)
    | dsimp only | split

theorem cntPart_k (j : Nat) (v : Word) (s : State) : EffK [.sch, .regs] s (cntPart j v s) := by
  unfold cntPart
  repeat' first
    | exact rfl
    | with_unfolding_none first
        | apply KeepsIn.refl | apply EffK.ok | apply EffK.error | apply EffK.ite | assumption | intro _ | apply KeepsIn.ite
        | apply KeepsIn.after (store_k ..) | apply KeepsIn.after (State.updSch_k ..) | apply EffK.map
    | dsimp only | split

theorem cntVal_k (i : Nat) (v : Word) (s : State) : KeepsIn [.sch] s (cntVal i v s) := by
  unfold cntVal
  repeat' first
    | exact rfl
    | with_unfolding_none first
        | apply KeepsIn.refl | assumption | intro _ | apply KeepsIn.ite | apply KeepsIn.after (setCtr_k ..)
        | apply KeepsIn.after (evalJob_k ..)
    | dsimp only | split

theorem schEffect_k (p o ix : Nat) (v : DWord) (s : State) : EffK [.sch, .regs] s (schEffect p o ix v s) := by
  unfold schEffect
  repeat' first
    | exact rfl
    | with_unfolding_none first
        | apply KeepsIn.refl | apply EffK.ok | apply EffK.error | apply EffK.ite | assumption | intro _ | apply KeepsIn.ite
        | apply KeepsIn.after (cntVal_k ..) | apply KeepsIn.after (store_k ..) | apply KeepsIn.after (regmapWr_k ..)
        | apply EffK.after (stepLoad_k ..) | apply KeepsIn.after (EffK.get (stepLoad_k ..) (by assumption))
        | apply KeepsIn.after (axisEval_k ..) | apply EffK.after (cntPart_k ..)
        | apply KeepsIn.after (EffK.get (cntPart_k ..) (by assumption)) | apply EffK.map
    | dsimp only | split

theorem coreFree_k (c : Nat) (s : State) : KeepsIn [.gc] s (coreFree c s) := by
  unfold coreFree
  repeat' first
    | exact rfl
    | with_unfolding_none first
        | apply KeepsIn.refl | assumption | intro _ | apply KeepsIn.ite | apply KeepsIn.after (updCore_k ..)
    | dsimp only | split

theorem coreStoreByte_k (c : Nat) (r : CoreRegion) (b : Byte) (s : State) :
    KeepsIn [.vat, .gc, .mem] s (coreStoreByte c r b s) := by
  unfold coreStoreByte
  repeat' first
    | exact rfl
    | with_unfolding_none first
        | apply KeepsIn.refl | assumption | intro _ | apply KeepsIn.ite | apply KeepsIn.after (updCore_k ..)
        | apply KeepsIn.after (shmWrite_k ..) | apply KeepsIn.after (setAcc_k ..) | apply KeepsIn.after (hbmWrite_k ..)
    | dsimp only | split

theorem coreTrap_k (c id : Nat) (mcause : Word) (s : State) :
    KeepsIn [.sch, .gc, .host, .mgmt, .pages, .cnts] s (coreTrap c id mcause s) := by
  unfold coreTrap
  repeat' first
    | exact rfl
    | with_unfolding_none first
        | apply KeepsIn.refl | assumption | intro _ | apply KeepsIn.ite | apply KeepsIn.after (State.draw_k ..)
        | apply KeepsIn.after (faultOp_k ..) | apply KeepsIn.after (raiseCap_k ..) | apply KeepsIn.after (coreFree_k ..)
    | dsimp only | split

theorem coreStore_k (c : Nat) (e : Entry) (a : Nat) (bs : List Byte) (s : State) :
    KeepsIn [.sch, .vat, .gc, .host, .mem, .mgmt, .pages, .cnts] s (coreStore c e a bs s) := by
  unfold coreStore
  repeat' first
    | exact rfl
    | with_unfolding_none first
        | apply KeepsIn.refl | assumption | intro _ | apply KeepsIn.ite | apply KeepsIn.forAll
        | apply KeepsIn.after (coreTrap_k ..) | apply KeepsIn.after (hbmWrite_k ..)
        | apply KeepsIn.after (coreStoreByte_k ..) | apply KeepsIn.after (submitCore_k ..)
    | dsimp only | split

theorem coreLoadOp_k (c : Nat) (e : Entry) (a n : Nat) (s : State) :
    KeepsIn [.sch, .gc, .host, .mem, .mgmt, .pages, .cnts] s (coreLoadOp c e a n s) := by
  unfold coreLoadOp
  repeat' first
    | exact rfl
    | with_unfolding_none first
        | apply KeepsIn.refl | assumption | intro _ | apply KeepsIn.ite | apply KeepsIn.after (coreTrap_k ..)
        | apply KeepsIn.after (updCore_k ..) | apply KeepsIn.after (poisonFault_k ..) | apply KeepsIn.after (coreFree_k ..)
        | apply KeepsIn.after (faultOp_k ..) | apply KeepsIn.after (reportHbm_k ..) | apply KeepsIn.after (State.emit_k ..)
    | dsimp only | split

theorem taskAct_k (c : Nat) (x : TaskAct) (s : State) :
    KeepsIn [.sch, .vat, .gc, .host, .mem, .mgmt, .pages, .regs, .cnts] s (taskAct c x s) := by
  unfold taskAct
  repeat' first
    | exact rfl
    | with_unfolding_none first
        | apply KeepsIn.refl | assumption | intro _ | apply KeepsIn.ite | apply KeepsIn.after (coreStore_k ..)
        | apply KeepsIn.after (coreLoadOp_k ..) | apply KeepsIn.after (addCe_k ..) | apply KeepsIn.after (bump_k ..)
        | apply KeepsIn.after (State.setReg_k ..) | apply KeepsIn.after (faultOp_k ..) | apply KeepsIn.after (raiseEv_k ..)
        | apply KeepsIn.after (coreFree_k ..)
    | dsimp only | split

theorem taskActs_k (c : Nat) (l : List TaskAct) (s : State) :
    KeepsIn [.sch, .vat, .gc, .host, .mem, .mgmt, .pages, .regs, .cnts] s (taskActs c l s) := by
  unfold taskActs
  repeat' first
    | exact rfl
    | with_unfolding_none first
        | apply KeepsIn.refl | assumption | intro _ | apply KeepsIn.ite | apply KeepsIn.forAll
        | apply KeepsIn.after (taskAct_k ..)
    | dsimp only | split

theorem execSubCommit_k (c : Core) (desc : List Byte) (acts : List TaskAct) (s : State) :
    ResK [.sch, .vat, .gc, .host, .mem, .mgmt, .pages, .regs, .cnts] s (execSubCommit c desc acts s) := by
  unfold execSubCommit
  repeat' first
    | exact rfl
    | with_unfolding_none first
        | apply KeepsIn.refl | apply ResK.next | assumption | intro _ | apply KeepsIn.ite
        | apply KeepsIn.after (taskActs_k ..) | apply KeepsIn.after (submitCore_k ..) | apply KeepsIn.after (updCore_k ..)
    | dsimp only | split

theorem execTimeTriggerMet_k (e : Nat) (s : State) : ResK [.sch] s (execTimeTriggerMet e s) := by
  unfold execTimeTriggerMet
  repeat' first
    | exact rfl
    | with_unfolding_none first
        | apply KeepsIn.refl | apply ResK.next | assumption | intro _ | apply KeepsIn.ite
        | apply KeepsIn.after (toWaiting_k ..)
    | dsimp only | split

theorem claimGrantOp_k (e : Entry) (s : State) : KeepsIn [.sch, .vat] s (claimGrantOp e s) := by
  unfold claimGrantOp
  repeat' first
    | exact rfl
    | with_unfolding_none first
        | apply KeepsIn.refl | assumption | intro _ | apply KeepsIn.ite | apply KeepsIn.foldl'
        | apply KeepsIn.foldlP (st := Prod.snd) | apply KeepsIn.foldlP (st := Prod.fst)
        | apply KeepsIn.after (State.updVat_k ..) | apply KeepsIn.after (enter_k ..) | apply KeepsIn.after (putWave_k ..)
    | dsimp only | split

theorem execClaimGrant_k (d : Die) (s : State) : ResK [.sch, .vat] s (execClaimGrant d s) := by
  unfold execClaimGrant
  repeat' first
    | exact rfl
    | with_unfolding_none first
        | apply KeepsIn.refl | apply ResK.next | assumption | intro _ | apply KeepsIn.ite
        | apply KeepsIn.after (claimGrantOp_k ..)
    | dsimp only | split

theorem execOpDone_k (e : Nat) (s : State) :
    ResK [.sch, .vat, .eng, .gc, .sheet, .ring, .fab, .line, .host, .pool, .mem, .mgmt, .pages, .cnts] s (execOpDone e s) := by
  unfold execOpDone
  repeat' first
    | exact rfl
    | with_unfolding_none first
        | apply KeepsIn.refl | apply ResK.next | assumption | intro _ | apply KeepsIn.ite
        | apply KeepsIn.after (endDone_k ..)
    | dsimp only | split

theorem execOpFaulted_k (e : Nat) (s : State) :
    ResK [.sch, .vat, .eng, .gc, .sheet, .ring, .fab, .line, .host, .pool, .mem, .mgmt, .pages, .cnts] s (execOpFaulted e s) := by
  unfold execOpFaulted
  repeat' first
    | exact rfl
    | with_unfolding_none first
        | apply KeepsIn.refl | apply ResK.next | assumption | intro _ | apply KeepsIn.ite
        | apply KeepsIn.after (endFaulted_k ..)
    | dsimp only | split

theorem execSchOpStall_k (e : Nat) (s : State) : ResK [.sch, .host, .mgmt, .pages, .cnts] s (execSchOpStall e s) := by
  unfold execSchOpStall
  repeat' first
    | exact rfl
    | with_unfolding_none first
        | apply KeepsIn.refl | apply ResK.next | assumption | intro _ | apply KeepsIn.ite
        | apply KeepsIn.after (raiseEv_k ..) | apply KeepsIn.after (updEntry_k ..)
    | dsimp only | split

end Sys2Proof.Machine
end

