-- ==== Sys2Proof/Laws/Keeps/Engines.lean ====
section
/-! SUPPORT. What the operations and commands of Machine/Engines.lean keep, and the parts they may change. -/
namespace Sys2Proof.Machine

open Sys2Proof

set_option linter.all false

theorem bumpEv_k (p o b n : Nat) (s : State) : KeepsIn [.host, .pages, .cnts] s (bumpEv p o b n s) := by
  unfold bumpEv
  repeat' first
    | exact rfl
    | with_unfolding_none first
        | apply KeepsIn.refl | assumption | intro _ | apply KeepsIn.ite | apply KeepsIn.after (event_k ..)
        | apply KeepsIn.after (bump_k ..)
    | dsimp only | split

theorem badEdesc_k (e : Entry) (s : State) : KeepsIn [.sch, .host, .mgmt, .pages, .cnts] s (badEdesc e s) := by
  unfold badEdesc
  repeat' first
    | exact rfl
    | with_unfolding_none first
        | apply KeepsIn.refl | assumption | intro _ | apply KeepsIn.ite | apply KeepsIn.after (raiseCap_k ..)
        | apply KeepsIn.after (faultOp_k ..)
    | dsimp only | split

theorem badWave_k (e : Entry) (s : State) : KeepsIn [.sch, .host, .mgmt, .pages, .cnts] s (badWave e s) := by
  unfold badWave
  repeat' first
    | exact rfl
    | with_unfolding_none first
        | apply KeepsIn.refl | assumption | intro _ | apply KeepsIn.ite | apply KeepsIn.after (raiseEv_k ..)
        | apply KeepsIn.after (faultOp_k ..)
    | dsimp only | split

theorem stateWrite_k (lp : Bool) (a : Nat) (bs : List Byte) (s : State) : KeepsIn [.mem] s (stateWrite lp a bs s) := by
  unfold stateWrite
  repeat' first
    | exact rfl
    | with_unfolding_none first
        | apply KeepsIn.refl | assumption | intro _ | apply KeepsIn.ite | apply KeepsIn.after (lpWrite_k ..)
        | apply KeepsIn.after (hbmWrite_k ..)
    | dsimp only | split

theorem engUe_k (e : Entry) (lp : Bool) (a n : Nat) (s : State) :
    KeepsIn [.sch, .host, .mem, .mgmt, .pages, .cnts] s (engUe e lp a n s) := by
  unfold engUe
  repeat' first
    | exact rfl
    | with_unfolding_none first
        | apply KeepsIn.refl | assumption | intro _ | apply KeepsIn.ite | apply KeepsIn.after (faultOp_k ..)
        | apply KeepsIn.after (reportLp_k ..) | apply KeepsIn.after (reportHbm_k ..)
    | dsimp only | split

theorem unlessUe_k {m : List Part} {f : State → State} (hm : subParts [.sch, .host, .mem, .mgmt, .pages, .cnts] m = true)
    (hf : ∀ x0, KeepsIn m x0 (f x0)) (e : Entry) (lp : Bool) (a n : Nat) (s : State) :
    KeepsIn m s (unlessUe e lp a n f s) := by
  unfold unlessUe
  repeat' first
    | exact rfl | exact subParts_trans rfl hm
    | with_unfolding_none first
        | apply KeepsIn.refl | assumption | intro _ | apply KeepsIn.ite | apply KeepsIn.andThen (hf ..)
        | apply KeepsIn.after (engUe_k ..)
    | dsimp only | split

theorem withWave_k {m : List Part} {f : Wave → State → State} (hm : subParts [.sch, .host, .mgmt, .pages, .cnts] m = true)
    (hf : ∀ x0 x1, KeepsIn m x1 (f x0 x1)) (e : Entry) (c : Content) (s : State) :
    KeepsIn m s (withWave e c f s) := by
  unfold withWave
  repeat' first
    | exact rfl | exact subParts_trans rfl hm
    | with_unfolding_none first
        | apply KeepsIn.refl | assumption | intro _ | apply KeepsIn.ite | apply KeepsIn.andThen (hf ..)
        | apply KeepsIn.after (badWave_k ..) | apply KeepsIn.after (poisonFault_k ..)
    | dsimp only | split

theorem engIssue_k {m : List Part} {run : Entry → List Word → State → State}
    (hm : subParts [.sch, .host, .mgmt, .pages, .cnts] m = true) (hf : ∀ x0 x1 x2, KeepsIn m x2 (run x0 x1 x2)) (d : Nat) (serves : Nat → Nat → Bool) (s : State) :
    KeepsIn m s (engIssue d serves run s) := by
  unfold engIssue
  repeat' first
    | exact rfl | exact subParts_trans rfl hm
    | with_unfolding_none first
        | apply KeepsIn.refl | assumption | intro _ | apply KeepsIn.ite | apply KeepsIn.andThen (hf ..)
        | apply KeepsIn.after (updEntry_k ..) | apply KeepsIn.after (issue_k ..) | apply KeepsIn.after (faultOp_k ..)
        | apply KeepsIn.after (badEdesc_k ..)
    | dsimp only | split

theorem putStaged_k (w : Wave) (ws : List Word) (s : State) : KeepsIn [.vat] s (putStaged w ws s) := by
  unfold putStaged
  repeat' first
    | exact rfl
    | with_unfolding_none first
        | apply KeepsIn.refl | assumption | intro _ | apply KeepsIn.ite | apply KeepsIn.foldl'
        | apply KeepsIn.foldlP (st := Prod.snd) | apply KeepsIn.foldlP (st := Prod.fst) | apply KeepsIn.after (setAcc_k ..)
    | dsimp only | split

theorem hadamardOp_k (e : Entry) (ws : List Word) (s : State) :
    KeepsIn [.sch, .vat, .host, .mgmt, .pages, .cnts] s (hadamardOp e ws s) := by
  unfold hadamardOp
  repeat' first
    | exact rfl
    | with_unfolding_none first
        | apply KeepsIn.refl | assumption | intro _ | apply KeepsIn.ite | apply KeepsIn.foldl'
        | apply KeepsIn.foldlP (st := Prod.snd) | apply KeepsIn.foldlP (st := Prod.fst)
        | apply KeepsIn.andThen (withWave_k ?_ ?_ ..) | apply KeepsIn.after (bumpEv_k ..)
        | apply KeepsIn.after (updWave_k ..) | apply KeepsIn.after (putStaged_k ..) | apply KeepsIn.after (vatReplace_k ..)
        | apply KeepsIn.after (setWork_k ..)
    | dsimp only | split

theorem execHadamard_k (d : Die) (s : State) : ResK [.sch, .vat, .host, .mgmt, .pages, .cnts] s (execHadamard d s) := by
  unfold execHadamard
  repeat' first
    | exact rfl
    | with_unfolding_none first
        | apply KeepsIn.refl | apply ResK.next | assumption | intro _ | apply KeepsIn.ite
        | apply KeepsIn.andThen (engIssue_k ?_ ?_ ..) | apply KeepsIn.after (hadamardOp_k ..)
    | dsimp only | split

theorem quantEvents_k (e : Entry) (steps esc sat nonfin conv : Nat) (top : Bool) (s : State) :
    KeepsIn [.host, .mgmt, .pages, .cnts] s (quantEvents e steps esc sat nonfin conv top s) := by
  unfold quantEvents
  repeat' first
    | exact rfl
    | with_unfolding_none first
        | apply KeepsIn.refl | assumption | intro _ | apply KeepsIn.ite | apply KeepsIn.after (bumpEv_k ..)
        | apply KeepsIn.after (raiseCap_k ..)
    | dsimp only | split

theorem quantRun_k (e : Entry) (ws : List Word) (w : Wave) (raddr : Nat) (s : State) :
    KeepsIn [.sch, .eng, .outer, .host, .mem, .mgmt, .pages, .cnts] s (quantRun e ws w raddr s) := by
  unfold quantRun
  repeat' first
    | exact rfl
    | with_unfolding_none first
        | apply KeepsIn.refl | assumption | intro _ | apply KeepsIn.ite | apply KeepsIn.foldl'
        | apply KeepsIn.foldlP (st := Prod.snd) | apply KeepsIn.foldlP (st := Prod.fst) | apply KeepsIn.after (hbmWrite_k ..)
        | apply KeepsIn.after (State.updEng_k ..) | apply KeepsIn.after (updStats_k ..) | apply KeepsIn.after (setWork_k ..)
        | apply KeepsIn.after (quantEvents_k ..)
    | dsimp only | split

theorem quantiseOp_k (e : Entry) (ws : List Word) (s : State) :
    KeepsIn [.sch, .eng, .outer, .host, .mem, .mgmt, .pages, .cnts] s (quantiseOp e ws s) := by
  unfold quantiseOp
  repeat' first
    | exact rfl
    | with_unfolding_none first
        | apply KeepsIn.refl | assumption | intro _ | apply KeepsIn.ite | apply KeepsIn.after (faultOp_k ..)
        | apply KeepsIn.after (badEdesc_k ..) | apply KeepsIn.andThen (unlessUe_k ?_ ?_ ..)
        | apply KeepsIn.andThen (withWave_k ?_ ?_ ..) | apply KeepsIn.after (quantRun_k ..)
        | apply KeepsIn.after (State.updEng_k ..)
    | dsimp only | split

theorem execQuantise_k (d : Die) (s : State) :
    ResK [.sch, .eng, .outer, .host, .mem, .mgmt, .pages, .cnts] s (execQuantise d s) := by
  unfold execQuantise
  repeat' first
    | exact rfl
    | with_unfolding_none first
        | apply KeepsIn.refl | apply ResK.next | assumption | intro _ | apply KeepsIn.ite
        | apply KeepsIn.andThen (engIssue_k ?_ ?_ ..) | apply KeepsIn.after (quantiseOp_k ..)
    | dsimp only | split

theorem putReturn_k (w : Wave) (width : Nat) (bytes : List Byte) (s : State) :
    KeepsIn [.vat] s (putReturn w width bytes s) := by
  unfold putReturn
  repeat' first
    | exact rfl
    | with_unfolding_none first
        | apply KeepsIn.refl | assumption | intro _ | apply KeepsIn.ite | apply KeepsIn.foldl'
        | apply KeepsIn.foldlP (st := Prod.snd) | apply KeepsIn.foldlP (st := Prod.fst) | apply KeepsIn.after (setAcc_k ..)
    | dsimp only | split

theorem unlessArr_k {m : List Part} {f : State → State} (hm : subParts [.sch, .host, .mem, .mgmt, .pages, .cnts] m = true)
    (hf : ∀ x0, KeepsIn m x0 (f x0)) (e : Entry) (lp : Bool) (a : Option Nat) (n : Nat) (s : State) :
    KeepsIn m s (unlessArr e lp a n f s) := by
  unfold unlessArr
  repeat' first
    | exact rfl | exact subParts_trans rfl hm
    | with_unfolding_none first
        | apply KeepsIn.refl | assumption | intro _ | apply KeepsIn.ite | apply KeepsIn.andThen (hf ..)
        | apply KeepsIn.andThen (unlessUe_k ?_ ?_ ..)
    | dsimp only | split

theorem arrWrite_k (lp : Bool) (a : Option Nat) (ws : List Word) (s : State) : KeepsIn [.mem] s (arrWrite lp a ws s) := by
  unfold arrWrite
  repeat' first
    | exact rfl
    | with_unfolding_none first
        | apply KeepsIn.refl | assumption | intro _ | apply KeepsIn.ite | apply KeepsIn.after (stateWrite_k ..)
    | dsimp only | split

theorem updRun_k (e : Entry) (ws : List Word) (h : UpdHp) (ar : UpdArr) (w : Wave) (n : Nat) (s : State) :
    KeepsIn [.sch, .vat, .host, .mem, .pages, .cnts] s (updRun e ws h ar w n s) := by
  unfold updRun
  repeat' first
    | exact rfl
    | with_unfolding_none first
        | apply KeepsIn.refl | assumption | intro _ | apply KeepsIn.ite | apply KeepsIn.foldl'
        | apply KeepsIn.foldlP (st := Prod.snd) | apply KeepsIn.foldlP (st := Prod.fst) | apply KeepsIn.after (arrWrite_k ..)
        | apply KeepsIn.after (bumpEv_k ..) | apply KeepsIn.after (updWave_k ..) | apply KeepsIn.after (putReturn_k ..)
        | apply KeepsIn.after (setWork_k ..)
    | dsimp only | split

theorem updateOp_k (e : Entry) (ws : List Word) (s : State) :
    KeepsIn [.sch, .vat, .host, .mem, .mgmt, .pages, .cnts] s (updateOp e ws s) := by
  unfold updateOp
  repeat' first
    | exact rfl
    | with_unfolding_none first
        | apply KeepsIn.refl | assumption | intro _ | apply KeepsIn.ite | apply KeepsIn.after (badEdesc_k ..)
        | apply KeepsIn.andThen (unlessUe_k ?_ ?_ ..) | apply KeepsIn.andThen (withWave_k ?_ ?_ ..)
        | apply KeepsIn.andThen (unlessArr_k ?_ ?_ ..) | apply KeepsIn.after (updRun_k ..)
    | dsimp only | split

theorem execUpdate_k (d : Die) (s : State) : ResK [.sch, .vat, .host, .mem, .mgmt, .pages, .cnts] s (execUpdate d s) := by
  unfold execUpdate
  repeat' first
    | exact rfl
    | with_unfolding_none first
        | apply KeepsIn.refl | apply ResK.next | assumption | intro _ | apply KeepsIn.ite
        | apply KeepsIn.andThen (engIssue_k ?_ ?_ ..) | apply KeepsIn.after (updateOp_k ..)
    | dsimp only | split

theorem putMat_k (d a : Nat) (r : Written) (s : State) : KeepsIn [.host, .mem, .pages, .cnts] s (putMat d a r s) := by
  unfold putMat
  repeat' first
    | exact rfl
    | with_unfolding_none first
        | apply KeepsIn.refl | assumption | intro _ | apply KeepsIn.ite | apply KeepsIn.after (bumpEv_k ..)
        | apply KeepsIn.after (hbmWrite_k ..)
    | dsimp only | split

theorem nsOrthoOp_k (e : Entry) (ws : List Word) (s : State) :
    KeepsIn [.sch, .host, .mem, .mgmt, .pages, .cnts] s (nsOrthoOp e ws s) := by
  unfold nsOrthoOp
  repeat' first
    | exact rfl | exact (State.draw_k _).mono rfl
    | with_unfolding_none first
        | apply KeepsIn.refl | assumption | intro _ | apply KeepsIn.ite | apply KeepsIn.andThen (unlessUe_k ?_ ?_ ..)
        | apply KeepsIn.after (hbmWrite_k ..) | apply KeepsIn.after (setWork_k ..) | apply KeepsIn.after (putMat_k ..)
        | apply KeepsIn.after (bumpEv_k ..)
    | dsimp only | split

theorem execNsOrtho_k (d : Die) (s : State) : ResK [.sch, .host, .mem, .mgmt, .pages, .cnts] s (execNsOrtho d s) := by
  unfold execNsOrtho
  repeat' first
    | exact rfl
    | with_unfolding_none first
        | apply KeepsIn.refl | apply ResK.next | assumption | intro _ | apply KeepsIn.ite
        | apply KeepsIn.andThen (engIssue_k ?_ ?_ ..) | apply KeepsIn.after (nsOrthoOp_k ..)
    | dsimp only | split

theorem projectOp_k (e : Entry) (ws : List Word) (s : State) :
    KeepsIn [.sch, .host, .mem, .mgmt, .pages, .cnts] s (projectOp e ws s) := by
  unfold projectOp
  repeat' first
    | exact rfl
    | with_unfolding_none first
        | apply KeepsIn.refl | assumption | intro _ | apply KeepsIn.ite | apply KeepsIn.andThen (unlessUe_k ?_ ?_ ..)
        | apply KeepsIn.after (bumpEv_k ..) | apply KeepsIn.after (setWork_k ..) | apply KeepsIn.after (putMat_k ..)
    | dsimp only | split

theorem execProject_k (d : Die) (s : State) : ResK [.sch, .host, .mem, .mgmt, .pages, .cnts] s (execProject d s) := by
  unfold execProject
  repeat' first
    | exact rfl
    | with_unfolding_none first
        | apply KeepsIn.refl | apply ResK.next | assumption | intro _ | apply KeepsIn.ite
        | apply KeepsIn.andThen (engIssue_k ?_ ?_ ..) | apply KeepsIn.after (projectOp_k ..)
    | dsimp only | split

theorem gemmOp_k (e : Entry) (ws : List Word) (s : State) :
    KeepsIn [.sch, .host, .mem, .mgmt, .pages, .cnts] s (gemmOp e ws s) := by
  unfold gemmOp
  repeat' first
    | exact rfl
    | with_unfolding_none first
        | apply KeepsIn.refl | assumption | intro _ | apply KeepsIn.ite | apply KeepsIn.andThen (unlessUe_k ?_ ?_ ..)
        | apply KeepsIn.after (bumpEv_k ..) | apply KeepsIn.after (setWork_k ..) | apply KeepsIn.after (putMat_k ..)
    | dsimp only | split

theorem execGemm_k (d : Die) (s : State) : ResK [.sch, .host, .mem, .mgmt, .pages, .cnts] s (execGemm d s) := by
  unfold execGemm
  repeat' first
    | exact rfl
    | with_unfolding_none first
        | apply KeepsIn.refl | apply ResK.next | assumption | intro _ | apply KeepsIn.ite
        | apply KeepsIn.andThen (engIssue_k ?_ ?_ ..) | apply KeepsIn.after (gemmOp_k ..)
    | dsimp only | split

theorem execEngParity_k (d : Die) (e : Fin 8) (held : Option Nat) (s : State) :
    ResK [.sch, .host, .mgmt, .pages, .regs, .cnts] s (execEngParity d e held s) := by
  unfold execEngParity
  repeat' first
    | exact rfl
    | with_unfolding_none first
        | apply KeepsIn.refl | apply ResK.next | assumption | intro _ | apply KeepsIn.ite
        | apply KeepsIn.after (faultOp_k ..) | apply KeepsIn.after (raiseEv_k ..) | apply KeepsIn.after (State.setReg_k ..)
    | dsimp only | split

theorem edtWr_k (d j : Nat) (v : Word) (s : State) : EffK [.regs] s (edtWr d j v s) := by
  unfold edtWr
  repeat' first
    | exact rfl
    | with_unfolding_none first
        | apply KeepsIn.refl | apply EffK.ok | apply EffK.error | apply EffK.ite | assumption | intro _ | apply KeepsIn.ite
        | apply KeepsIn.after (store_k ..) | apply EffK.map
    | dsimp only | split

theorem engEffect_k (p o ix : Nat) (v : DWord) (s : State) : EffK [.regs] s (engEffect p o ix v s) := by
  unfold engEffect
  repeat' first
    | exact rfl
    | with_unfolding_none first
        | apply KeepsIn.refl | apply EffK.ok | apply EffK.error | apply EffK.ite | assumption | intro _ | apply KeepsIn.ite
        | apply EffK.after (edtWr_k ..) | apply KeepsIn.after (EffK.get (edtWr_k ..) (by assumption))
        | apply KeepsIn.after (store_k ..) | apply EffK.map
    | dsimp only | split

end Sys2Proof.Machine
end

