-- ==== Sys2Proof/Laws/Keeps/Vat.lean ====
section
/-! SUPPORT. What the operations and commands of Machine/Vat.lean keep, and the parts they may change. -/
namespace Sys2Proof.Machine

open Sys2Proof

set_option linter.all false

theorem roundBegin_k (j r round win : Nat) (s : State) : KeepsIn [.vat] s (roundBegin j r round win s) := by
  unfold roundBegin
  repeat' first
    | exact rfl
    | with_unfolding_none first
        | apply KeepsIn.refl | assumption | intro _ | apply KeepsIn.ite | apply KeepsIn.after (newTag_k ..)
        | apply KeepsIn.after (State.updVat_k ..)
    | dsimp only | split

theorem collectOp_k (e : Entry) (s : State) :
    KeepsIn [.sch, .vat, .outer, .fab, .host, .pool, .mem, .mgmt, .pages, .cnts] s (collectOp e s) := by
  unfold collectOp
  repeat' first
    | exact rfl
    | with_unfolding_none first
        | apply KeepsIn.refl | assumption | intro _ | apply KeepsIn.ite | apply KeepsIn.after (issue_k ..)
        | apply KeepsIn.after (faultOp_k ..) | apply KeepsIn.after (roundBegin_k ..) | apply KeepsIn.after (collectEval_k ..)
        | apply KeepsIn.after (grantAll_k ..) | apply KeepsIn.after (putWave_k ..)
    | dsimp only | split

theorem execCollect_k (d : Die) (s : State) :
    ResK [.sch, .vat, .outer, .fab, .host, .pool, .mem, .mgmt, .pages, .cnts] s (execCollect d s) := by
  unfold execCollect
  repeat' first
    | exact rfl
    | with_unfolding_none first
        | apply KeepsIn.refl | apply ResK.next | assumption | intro _ | apply KeepsIn.ite
        | apply KeepsIn.after (collectOp_k ..)
    | dsimp only | split

theorem recollectOp_k (e : Entry) (s : State) :
    KeepsIn [.sch, .vat, .outer, .fab, .host, .pool, .mem, .mgmt, .pages, .cnts] s (recollectOp e s) := by
  unfold recollectOp
  repeat' first
    | exact rfl
    | with_unfolding_none first
        | apply KeepsIn.refl | assumption | intro _ | apply KeepsIn.ite | apply KeepsIn.after (issue_k ..)
        | apply KeepsIn.after (faultOp_k ..) | apply KeepsIn.after (raiseEv_k ..) | apply KeepsIn.after (collectEval_k ..)
        | apply KeepsIn.after (resendReam_k ..) | apply KeepsIn.after (putWave_k ..)
    | dsimp only | split

theorem execRecollect_k (d : Die) (s : State) :
    ResK [.sch, .vat, .outer, .fab, .host, .pool, .mem, .mgmt, .pages, .cnts] s (execRecollect d s) := by
  unfold execRecollect
  repeat' first
    | exact rfl
    | with_unfolding_none first
        | apply KeepsIn.refl | apply ResK.next | assumption | intro _ | apply KeepsIn.ite
        | apply KeepsIn.after (recollectOp_k ..)
    | dsimp only | split

theorem contribFirst_k (q : BitVec 24) (h : Reth) (data : List Byte) (flips : List (Nat × DWord)) (s : State) :
    KeepsIn [.sch, .vat, .outer, .fab, .host, .pool, .mem, .mgmt, .pages, .cnts] s (contribFirst q h data flips s) := by
  unfold contribFirst
  repeat' first
    | exact rfl
    | with_unfolding_none first
        | apply KeepsIn.refl | assumption | intro _ | apply KeepsIn.ite | apply KeepsIn.after (winNak_k ..)
        | apply KeepsIn.after (contribPacket_k ..) | apply KeepsIn.after (State.updVat_k ..)
    | dsimp only | split

theorem contribMore_k (q : BitVec 24) (data : List Byte) (flips : List (Nat × DWord)) (s : State) :
    KeepsIn [.sch, .vat, .outer, .fab, .host, .pool, .mem, .mgmt, .pages, .cnts] s (contribMore q data flips s) := by
  unfold contribMore
  repeat' first
    | exact rfl
    | with_unfolding_none first
        | apply KeepsIn.refl | assumption | intro _ | apply KeepsIn.ite | apply KeepsIn.after (contribPacket_k ..)
    | dsimp only | split

theorem execContributionWrite_k (qpn : BitVec 24) (reth : Option Reth) (data : List Byte) (flips : List (Nat × BitVec 64))
    (s : State) :
    ResK [.sch, .vat, .outer, .fab, .host, .pool, .mem, .mgmt, .pages, .cnts] s (execContributionWrite qpn reth data flips s) := by
  unfold execContributionWrite
  repeat' first
    | exact rfl
    | with_unfolding_none first
        | apply KeepsIn.refl | apply ResK.next | assumption | intro _ | apply KeepsIn.ite
        | apply KeepsIn.after (contribFirst_k ..) | apply KeepsIn.after (contribMore_k ..)
    | dsimp only | split

theorem execGrantHoldRelease_k (j : Job) (c : Contrib) (s : State) :
    ResK [.vat, .fab, .host, .pool, .mem, .mgmt, .pages, .cnts] s (execGrantHoldRelease j c s) := by
  unfold execGrantHoldRelease
  repeat' first
    | exact rfl
    | with_unfolding_none first
        | apply KeepsIn.refl | apply ResK.next | assumption | intro _ | apply KeepsIn.ite
        | apply KeepsIn.after (grantRelease_k ..)
    | dsimp only | split

theorem gackOp_k (j : Nat) (q : BitVec 24) (off : Nat) (b : List Byte) (s : State) :
    KeepsIn [.vat, .host, .mgmt, .pages, .cnts] s (gackOp j q off b s) := by
  unfold gackOp
  repeat' first
    | exact rfl
    | with_unfolding_none first
        | apply KeepsIn.refl | assumption | intro _ | apply KeepsIn.ite | apply KeepsIn.after (raiseEv_k ..)
        | apply KeepsIn.after (State.updVat_k ..)
    | dsimp only | split

theorem execGackWrite_k (j : Job) (qpn : BitVec 24) (off : Nat) (bytes : List Byte) (s : State) :
    ResK [.vat, .host, .mgmt, .pages, .cnts] s (execGackWrite j qpn off bytes s) := by
  unfold execGackWrite
  repeat' first
    | exact rfl
    | with_unfolding_none first
        | apply KeepsIn.refl | apply ResK.next | assumption | intro _ | apply KeepsIn.ite | apply KeepsIn.after (gackOp_k ..)
    | dsimp only | split

theorem winCtlWr_k (ix : Nat) (v0 : Word) (s : State) : EffK [.vat, .regs] s (winCtlWr ix v0 s) := by
  unfold winCtlWr
  repeat' first
    | exact rfl
    | with_unfolding_none first
        | apply KeepsIn.refl | apply EffK.ok | apply EffK.error | apply EffK.ite | assumption | intro _ | apply KeepsIn.ite
        | apply KeepsIn.after (store_k ..) | apply KeepsIn.after (newTag_k ..) | apply EffK.map
    | dsimp only | split

theorem quotaWr_k (d j : Nat) (v : Word) (s : State) : EffK [.regs] s (quotaWr d j v s) := by
  unfold quotaWr
  repeat' first
    | exact rfl
    | with_unfolding_none first
        | apply KeepsIn.refl | apply EffK.ok | apply EffK.error | apply EffK.ite | assumption | intro _ | apply KeepsIn.ite
        | apply KeepsIn.foldl' | apply KeepsIn.foldlP (st := Prod.snd) | apply KeepsIn.foldlP (st := Prod.fst)
        | apply KeepsIn.after (store_k ..) | apply EffK.map
    | dsimp only | split

theorem gqpnWr_k (ix : Nat) (v : Word) (s : State) :
    KeepsIn [.fab, .host, .mgmt, .pages, .regs, .cnts] s (gqpnWr ix v s) := by
  unfold gqpnWr
  repeat' first
    | exact rfl
    | with_unfolding_none first
        | apply KeepsIn.refl | assumption | intro _ | apply KeepsIn.ite | apply KeepsIn.forAll
        | apply KeepsIn.after (store_k ..) | apply KeepsIn.after (sendGrant_k ..)
    | dsimp only | split

theorem cmapWr_k (j k : Nat) (v : Word) (s : State) :
    KeepsIn [.sch, .vat, .outer, .fab, .host, .pool, .mem, .mgmt, .pages, .regs, .cnts] s (cmapWr j k v s) := by
  unfold cmapWr
  repeat' first
    | exact rfl
    | with_unfolding_none first
        | apply KeepsIn.refl | assumption | intro _ | apply KeepsIn.ite | apply KeepsIn.after (cmapRemove_k ..)
        | apply KeepsIn.after (store_k ..)
    | dsimp only | split

theorem vatEffect_k (p o ix : Nat) (v : DWord) (s : State) :
    EffK [.sch, .vat, .outer, .fab, .host, .pool, .mem, .mgmt, .pages, .regs, .cnts] s (vatEffect p o ix v s) := by
  unfold vatEffect
  repeat' first
    | exact rfl
    | with_unfolding_none first
        | apply KeepsIn.refl | apply EffK.ok | apply EffK.error | apply EffK.ite | assumption | intro _ | apply KeepsIn.ite
        | apply KeepsIn.after (store_k ..) | apply EffK.after (winCtlWr_k ..)
        | apply KeepsIn.after (EffK.get (winCtlWr_k ..) (by assumption)) | apply KeepsIn.after (storePair_k ..)
        | apply KeepsIn.after (gqpnWr_k ..) | apply EffK.after (quotaWr_k ..)
        | apply KeepsIn.after (EffK.get (quotaWr_k ..) (by assumption)) | apply KeepsIn.after (cmapWr_k ..) | apply EffK.map
    | dsimp only | split

end Sys2Proof.Machine
end

