-- ==== Sys2Proof/Laws/Keeps/Sheets.lean ====
section
/-! SUPPORT. What the operations and commands of Machine/Sheets.lean keep, and the parts they may change. -/
namespace Sys2Proof.Machine

open Sys2Proof

set_option linter.all false

theorem codecIssue_k {m : List Part} {run : Entry → State → State} (hm : subParts [.sch] m = true)
    (hf : ∀ x0 x1, KeepsIn m x1 (run x0 x1)) (d : Nat) (serves : Entry → Bool) (s : State) :
    KeepsIn m s (codecIssue d serves run s) := by
  unfold codecIssue
  repeat' first
    | exact rfl | exact subParts_trans rfl hm
    | with_unfolding_none first
        | apply KeepsIn.refl | assumption | intro _ | apply KeepsIn.ite | apply KeepsIn.andThen (hf ..)
        | apply KeepsIn.after (issue_k ..) | apply KeepsIn.after (faultOp_k ..)
    | dsimp only | split

theorem countPacked_k (d : Nat) (ps : List (List Byte × Bool)) (s : State) :
    KeepsIn [.sheet, .pages, .cnts] s (countPacked d ps s) := by
  unfold countPacked
  repeat' first
    | exact rfl
    | with_unfolding_none first
        | apply KeepsIn.refl | assumption | intro _ | apply KeepsIn.ite | apply KeepsIn.foldl'
        | apply KeepsIn.foldlP (st := Prod.snd) | apply KeepsIn.foldlP (st := Prod.fst) | apply KeepsIn.after (bump_k ..)
        | apply KeepsIn.after (State.updSheet_k ..)
    | dsimp only | split

theorem packOp_k (e : Entry) (s : State) : KeepsIn [.sch, .sheet, .pages, .cnts] s (packOp e s) := by
  unfold packOp
  repeat' first
    | exact rfl
    | with_unfolding_none first
        | apply KeepsIn.refl | assumption | intro _ | apply KeepsIn.ite | apply KeepsIn.after (faultOp_k ..)
        | apply KeepsIn.after (setWork_k ..) | apply KeepsIn.after (countPacked_k ..)
        | apply KeepsIn.after (State.updSheet_k ..)
    | dsimp only | split

theorem execPack_k (d : Die) (s : State) : ResK [.sch, .sheet, .pages, .cnts] s (execPack d s) := by
  unfold execPack
  repeat' first
    | exact rfl
    | with_unfolding_none first
        | apply KeepsIn.refl | apply ResK.next | assumption | intro _ | apply KeepsIn.ite
        | apply KeepsIn.andThen (codecIssue_k ?_ ?_ ..) | apply KeepsIn.after (packOp_k ..)
    | dsimp only | split

theorem enterSheet_k (j h i : Nat) (r : RawSheet) (s : State) :
    KeepsIn [.sch, .vat, .fab, .host, .pool, .mem, .mgmt, .pages, .cnts] s (enterSheet j h i r s) := by
  unfold enterSheet
  repeat' first
    | exact rfl
    | with_unfolding_none first
        | apply KeepsIn.refl | assumption | intro _ | apply KeepsIn.ite | apply KeepsIn.foldl'
        | apply KeepsIn.foldlP (st := Prod.snd) | apply KeepsIn.foldlP (st := Prod.fst) | apply KeepsIn.after (vatEnter_k ..)
        | apply KeepsIn.after (noteInput_k ..)
    | dsimp only | split

theorem notePassed_k (k i : Nat) (s : State) : KeepsIn [.ring, .line] s (notePassed k i s) := by
  unfold notePassed
  repeat' first
    | exact rfl
    | with_unfolding_none first
        | apply KeepsIn.refl | assumption | intro _ | apply KeepsIn.ite | apply KeepsIn.after (sendRec_k ..)
        | apply KeepsIn.after (putRx_k ..)
    | dsimp only | split

theorem passSheet_k (e : Entry) (k i : Nat) (r : RawSheet) (s : State) :
    KeepsIn [.sch, .vat, .sheet, .ring, .fab, .line, .host, .pool, .mem, .mgmt, .pages, .cnts] s (passSheet e k i r s) := by
  unfold passSheet
  repeat' first
    | exact rfl
    | with_unfolding_none first
        | apply KeepsIn.refl | assumption | intro _ | apply KeepsIn.ite | apply KeepsIn.after (notePassed_k ..)
        | apply KeepsIn.after (bump_k ..) | apply KeepsIn.after (enterSheet_k ..) | apply KeepsIn.after (updStrm_k ..)
    | dsimp only | split

theorem countDamaged_k (d j chan : Nat) (sseq : Word) (c : Cause) (s : State) :
    KeepsIn [.host, .mgmt, .pages, .cnts] s (countDamaged d j chan sseq c s) := by
  unfold countDamaged
  repeat' first
    | exact rfl
    | with_unfolding_none first
        | apply KeepsIn.refl | assumption | intro _ | apply KeepsIn.ite | apply KeepsIn.after (bump_k ..)
        | apply KeepsIn.after (raiseCap_k ..)
    | dsimp only | split

theorem damagedRec_k (e : Entry) (s : State) : KeepsIn [.gc, .host, .mgmt, .pages, .cnts] s (damagedRec e s) := by
  unfold damagedRec
  repeat' first
    | exact rfl
    | with_unfolding_none first
        | apply KeepsIn.refl | assumption | intro _ | apply KeepsIn.ite | apply KeepsIn.after (pushExc_k ..)
    | dsimp only | split

theorem damageSheet_k (e : Entry) (k i : Nat) (sseq : Word) (c : Cause) (s : State) :
    KeepsIn [.gc, .sheet, .host, .mgmt, .pages, .cnts] s (damageSheet e k i sseq c s) := by
  unfold damageSheet
  repeat' first
    | exact rfl
    | with_unfolding_none first
        | apply KeepsIn.refl | assumption | intro _ | apply KeepsIn.ite | apply KeepsIn.after (damagedRec_k ..)
        | apply KeepsIn.after (countDamaged_k ..) | apply KeepsIn.after (State.updSheet_k ..)
    | dsimp only | split

theorem takeSheet_k (e : Entry) (k i : Nat) (s : State) :
    KeepsIn [.sch, .vat, .gc, .sheet, .ring, .fab, .line, .host, .pool, .mem, .mgmt, .pages, .cnts] s (takeSheet e k i s) := by
  unfold takeSheet
  repeat' first
    | exact rfl
    | with_unfolding_none first
        | apply KeepsIn.refl | assumption | intro _ | apply KeepsIn.ite | apply KeepsIn.after (damageSheet_k ..)
        | apply KeepsIn.after (passSheet_k ..)
    | dsimp only | split

theorem finish_k (id : Nat) (s : State) : KeepsIn [.sch] s (finish id s) := by
  unfold finish
  repeat' first
    | exact rfl
    | with_unfolding_none first
        | apply KeepsIn.refl | assumption | intro _ | apply KeepsIn.ite | apply KeepsIn.after (setWork_k ..)
    | dsimp only | split

theorem strmDrain_k (k : Nat) (s : State) :
    KeepsIn [.sch, .vat, .sheet, .fab, .host, .pool, .mem, .mgmt, .pages, .cnts] s (strmDrain k s) := by
  unfold strmDrain
  repeat' first
    | exact rfl
    | with_unfolding_none first
        | apply KeepsIn.refl | assumption | intro _ | apply KeepsIn.ite | apply KeepsIn.forAll
        | apply KeepsIn.after (enterSheet_k ..) | apply KeepsIn.after (updStrm_k ..) | apply KeepsIn.after (finish_k ..)
    | dsimp only | split

theorem strmPump_k (k : Nat) : ∀ (n : Nat) (s : State), KeepsIn [.sch, .vat, .gc, .sheet, .ring, .fab, .line, .host, .pool, .mem, .mgmt, .pages, .cnts] s (strmPump k n s) := by
  intro n
  induction n with
  | zero =>
    intro s
    rw [strmPump]
    repeat' first
      | exact rfl
      | with_unfolding_none first
          | apply KeepsIn.refl | assumption | apply KeepsIn.ite | apply KeepsIn.after (ih ..)
          | apply KeepsIn.after (strmDrain_k ..) | apply KeepsIn.after (takeSheet_k ..) | apply KeepsIn.after (updStrm_k ..)
      | dsimp only | split
  | succ n ih =>
    intro s
    rw [strmPump]
    repeat' first
      | exact rfl
      | with_unfolding_none first
          | apply KeepsIn.refl | assumption | apply KeepsIn.ite | apply KeepsIn.after (ih ..)
          | apply KeepsIn.after (strmDrain_k ..) | apply KeepsIn.after (takeSheet_k ..) | apply KeepsIn.after (updStrm_k ..)
      | dsimp only | split

theorem expandSettle_k (e : Entry) (s : State) : KeepsIn [.sch] s (expandSettle e s) := by
  unfold expandSettle
  repeat' first
    | exact rfl
    | with_unfolding_none first
        | apply KeepsIn.refl | assumption | intro _ | apply KeepsIn.ite | apply KeepsIn.after (finish_k ..)
    | dsimp only | split

theorem strmRun_k (k : Nat) (s : State) :
    KeepsIn [.sch, .vat, .gc, .sheet, .ring, .fab, .line, .host, .pool, .mem, .mgmt, .pages, .cnts] s (strmRun k s) := by
  unfold strmRun
  repeat' first
    | exact rfl
    | with_unfolding_none first
        | apply KeepsIn.refl | assumption | intro _ | apply KeepsIn.ite | apply KeepsIn.after (strmPump_k ..)
        | apply KeepsIn.after (strmDrain_k ..) | apply KeepsIn.after (expandSettle_k ..)
    | dsimp only | split

theorem strmBind_k (k : Nat) (d : Desc) (f : Strm → Strm) (s : State) : KeepsIn [.sheet] s (strmBind k d f s) := by
  unfold strmBind
  repeat' first
    | exact rfl
    | with_unfolding_none first
        | apply KeepsIn.refl | assumption | intro _ | apply KeepsIn.ite | apply KeepsIn.after (State.updSheet_k ..)
    | dsimp only | split

theorem strmIssue_k {m : List Part} {run : State → State} (hm : subParts [.sch, .sheet] m = true) (hf : ∀ x0, KeepsIn m x0
    (run x0)) (e : Entry) (s : State) :
    KeepsIn m s (strmIssue e run s) := by
  unfold strmIssue
  repeat' first
    | exact rfl | exact subParts_trans rfl hm
    | with_unfolding_none first
        | apply KeepsIn.refl | assumption | intro _ | apply KeepsIn.ite | apply KeepsIn.andThen (hf ..)
        | apply KeepsIn.after (faultOp_k ..) | apply KeepsIn.after (strmBind_k ..)
        | apply KeepsIn.after (State.updSheet_k ..) | apply KeepsIn.after (updStrm_k ..)
    | dsimp only | split

theorem placeWave_k (j h round eb : Nat) (mir : Option Nat) (s : State) :
    KeepsIn [.vat] s (placeWave j h round eb mir s) := by
  unfold placeWave
  repeat' first
    | exact rfl
    | with_unfolding_none first
        | apply KeepsIn.refl | assumption | intro _ | apply KeepsIn.ite | apply KeepsIn.forAll
        | apply KeepsIn.after (putWave_k ..) | apply KeepsIn.after (updVSlot_k ..)
    | dsimp only | split

theorem linkCw_k (e : Entry) (k : Nat) (s : State) : KeepsIn [.sch, .vat, .ring] s (linkCw e k s) := by
  unfold linkCw
  repeat' first
    | exact rfl
    | with_unfolding_none first
        | apply KeepsIn.refl | assumption | intro _ | apply KeepsIn.ite | apply KeepsIn.after (updWave_k ..)
        | apply KeepsIn.after (putRx_k ..) | apply KeepsIn.after (updEntry_k ..) | apply KeepsIn.after (putTx_k ..)
    | dsimp only | split

theorem expandRun_k (e : Entry) (k : Nat) (w : Wave) (s : State) :
    KeepsIn [.sch, .vat, .gc, .sheet, .ring, .fab, .line, .host, .pool, .mem, .mgmt, .pages, .cnts] s (expandRun e k w s) := by
  unfold expandRun
  repeat' first
    | exact rfl
    | with_unfolding_none first
        | apply KeepsIn.refl | assumption | intro _ | apply KeepsIn.ite | apply KeepsIn.forAll
        | apply KeepsIn.after (linkCw_k ..) | apply KeepsIn.after (expandSettle_k ..) | apply KeepsIn.after (takeSheet_k ..)
        | apply KeepsIn.after (strmRun_k ..) | apply KeepsIn.after (updStrm_k ..)
    | dsimp only | split

theorem expandGo_k (e : Entry) (s : State) :
    KeepsIn [.sch, .vat, .gc, .sheet, .ring, .fab, .line, .host, .pool, .mem, .mgmt, .pages, .cnts] s (expandGo e s) := by
  unfold expandGo
  repeat' first
    | exact rfl
    | with_unfolding_none first
        | apply KeepsIn.refl | assumption | intro _ | apply KeepsIn.ite | apply KeepsIn.after (faultOp_k ..)
        | apply KeepsIn.after (poisonFault_k ..) | apply KeepsIn.after (placeWave_k ..)
        | apply KeepsIn.after (expandRun_k ..)
    | dsimp only | split

theorem expandOp_k (e : Entry) (s : State) :
    KeepsIn [.sch, .vat, .gc, .sheet, .ring, .fab, .line, .host, .pool, .mem, .mgmt, .pages, .cnts] s (expandOp e s) := by
  unfold expandOp
  repeat' first
    | exact rfl
    | with_unfolding_none first
        | apply KeepsIn.refl | assumption | intro _ | apply KeepsIn.ite | apply KeepsIn.andThen (strmIssue_k ?_ ?_ ..)
        | apply KeepsIn.after (expandGo_k ..)
    | dsimp only | split

theorem askSheet_k (by_ die askDie : Nat) (g : Dmg) (s : State) :
    KeepsIn [.sheet, .line, .pages, .cnts] s (askSheet by_ die askDie g s) := by
  unfold askSheet
  repeat' first
    | exact rfl
    | with_unfolding_none first
        | apply KeepsIn.refl | assumption | intro _ | apply KeepsIn.ite | apply KeepsIn.after (State.updSheet_k ..)
        | apply KeepsIn.after (bump_k ..) | apply KeepsIn.after (sendRec_k ..)
    | dsimp only | split

theorem expandRefetchOp_k (e : Entry) (s : State) : KeepsIn [.sch, .sheet, .line, .pages, .cnts] s (expandRefetchOp e s) := by
  unfold expandRefetchOp
  repeat' first
    | exact rfl
    | with_unfolding_none first
        | apply KeepsIn.refl | assumption | intro _ | apply KeepsIn.ite | apply KeepsIn.forAll
        | apply KeepsIn.after (setWork_k ..) | apply KeepsIn.after (refetchSettle_k ..) | apply KeepsIn.after (askSheet_k ..)
    | dsimp only | split

theorem execExpandRefetch_k (d : Die) (s : State) : ResK [.sch, .sheet, .line, .pages, .cnts] s (execExpandRefetch d s) := by
  unfold execExpandRefetch
  repeat' first
    | exact rfl
    | with_unfolding_none first
        | apply KeepsIn.refl | apply ResK.next | assumption | intro _ | apply KeepsIn.ite
        | apply KeepsIn.andThen (codecIssue_k ?_ ?_ ..) | apply KeepsIn.after (expandRefetchOp_k ..)
    | dsimp only | split

theorem putSheet_k (k i : Nat) (b : List Byte) (s : State) : KeepsIn [.ring, .mgmt] s (putSheet k i b s) := by
  unfold putSheet
  repeat' first
    | exact rfl
    | with_unfolding_none first
        | apply KeepsIn.refl | assumption | intro _ | apply KeepsIn.ite | apply KeepsIn.after (putRx_k ..)
        | apply KeepsIn.after (putTx_k ..) | apply KeepsIn.after (State.updMgmt_k ..)
    | dsimp only | split

theorem dropDmg_k (g : Dmg) (s : State) : KeepsIn [.sheet] s (dropDmg g s) := by
  unfold dropDmg
  repeat' first
    | exact rfl
    | with_unfolding_none first
        | apply KeepsIn.refl | assumption | intro _ | apply KeepsIn.ite | apply KeepsIn.after (State.updSheet_k ..)
    | dsimp only | split

theorem failAgain_k (e : Entry) (g : Dmg) (s : State) :
    KeepsIn [.sch, .gc, .sheet, .host, .mgmt, .pages, .cnts] s (failAgain e g s) := by
  unfold failAgain
  repeat' first
    | exact rfl
    | with_unfolding_none first
        | apply KeepsIn.refl | assumption | intro _ | apply KeepsIn.ite | apply KeepsIn.after (raiseEv_k ..)
        | apply KeepsIn.after (faultOp_k ..) | apply KeepsIn.after (State.updSheet_k ..)
        | apply KeepsIn.after (damagedRec_k ..)
    | dsimp only | split

theorem lateSheet_k (k i : Nat) (s : State) : KeepsIn [.pages, .cnts] s (lateSheet k i s) := by
  unfold lateSheet
  repeat' first
    | exact rfl
    | with_unfolding_none first
        | apply KeepsIn.refl | assumption | intro _ | apply KeepsIn.ite | apply KeepsIn.after (bump_k ..)
    | dsimp only | split

theorem answered_k (k i : Nat) (s : State) : KeepsIn [.sheet] s (answered k i s) := by
  unfold answered
  repeat' first
    | exact rfl
    | with_unfolding_none first
        | apply KeepsIn.refl | assumption | intro _ | apply KeepsIn.ite | apply KeepsIn.after (State.updSheet_k ..)
    | dsimp only | split

theorem replaceSheet_k (e : Entry) (g : Dmg) (b : List Byte) (s : State) :
    KeepsIn [.sch, .vat, .gc, .sheet, .ring, .fab, .line, .host, .pool, .mem, .mgmt, .pages, .cnts] s (replaceSheet e g b s) := by
  unfold replaceSheet
  repeat' first
    | exact rfl
    | with_unfolding_none first
        | apply KeepsIn.refl | assumption | intro _ | apply KeepsIn.ite | apply KeepsIn.after (putSheet_k ..)
        | apply KeepsIn.after (refetchSettle_k ..) | apply KeepsIn.after (failAgain_k ..)
        | apply KeepsIn.after (countDamaged_k ..) | apply KeepsIn.after (passSheet_k ..) | apply KeepsIn.after (dropDmg_k ..)
        | apply KeepsIn.after (strmRun_k ..) | apply KeepsIn.after (expandSettle_k ..)
    | dsimp only | split

theorem addGo_k (e : Entry) (s : State) :
    KeepsIn [.sch, .vat, .gc, .sheet, .ring, .fab, .line, .host, .pool, .mem, .mgmt, .pages, .cnts] s (addGo e s) := by
  unfold addGo
  repeat' first
    | exact rfl
    | with_unfolding_none first
        | apply KeepsIn.refl | assumption | intro _ | apply KeepsIn.ite | apply KeepsIn.after (faultOp_k ..)
        | apply KeepsIn.after (poisonFault_k ..) | apply KeepsIn.after (strmRun_k ..)
    | dsimp only | split

theorem addOp_k (e : Entry) (s : State) :
    KeepsIn [.sch, .vat, .gc, .sheet, .ring, .fab, .line, .host, .pool, .mem, .mgmt, .pages, .cnts] s (addOp e s) := by
  unfold addOp
  repeat' first
    | exact rfl
    | with_unfolding_none first
        | apply KeepsIn.refl | assumption | intro _ | apply KeepsIn.ite | apply KeepsIn.andThen (strmIssue_k ?_ ?_ ..)
        | apply KeepsIn.after (addGo_k ..)
    | dsimp only | split

theorem execAdd_k (d : Die) (s : State) :
    ResK [.sch, .vat, .gc, .sheet, .ring, .fab, .line, .host, .pool, .mem, .mgmt, .pages, .cnts] s (execAdd d s) := by
  unfold execAdd
  repeat' first
    | exact rfl
    | with_unfolding_none first
        | apply KeepsIn.refl | apply ResK.next | assumption | intro _ | apply KeepsIn.ite | apply KeepsIn.after (addOp_k ..)
        | apply KeepsIn.after (issue_k ..)
    | dsimp only | split

theorem execSheetParity_k (d : Die) (codec : Fin 8) (held : Option Nat) (s : State) :
    ResK [.sch, .host, .mgmt, .pages, .regs, .cnts] s (execSheetParity d codec held s) := by
  unfold execSheetParity
  repeat' first
    | exact rfl
    | with_unfolding_none first
        | apply KeepsIn.refl | apply ResK.next | assumption | intro _ | apply KeepsIn.ite
        | apply KeepsIn.after (faultOp_k ..) | apply KeepsIn.after (raiseEv_k ..) | apply KeepsIn.after (State.setReg_k ..)
    | dsimp only | split

theorem sheetEffect_k (p o ix : Nat) (v : DWord) (s : State) : EffK [.regs] s (sheetEffect p o ix v s) := by
  unfold sheetEffect
  repeat' first
    | exact rfl
    | with_unfolding_none first
        | apply KeepsIn.refl | apply EffK.ok | apply EffK.error | apply EffK.ite | assumption | intro _ | apply KeepsIn.ite
        | apply KeepsIn.after (store_k ..) | apply EffK.map
    | dsimp only | split

end Sys2Proof.Machine
end

