-- ==== Sys2Proof/Laws/Keeps/CiphOps.lean ====
section
/-! SUPPORT. What the operations and commands of Machine/CiphOps.lean keep, and the parts they may change. -/
namespace Sys2Proof.Machine

open Sys2Proof

set_option linter.all false

theorem updSess_k (i : Nat) (f : Sess → Sess) (s : State) : KeepsIn [.ciph] s (updSess i f s) := by
  unfold updSess
  repeat' first
    | exact rfl
    | with_unfolding_none first
        | apply KeepsIn.refl | assumption | intro _ | apply KeepsIn.ite | apply KeepsIn.after (State.updCiph_k ..)
    | dsimp only | split

theorem protQueue_k (p : Nat) (m : ProtMsg) (ts : Option Nat) (s : State) : KeepsIn [.line] s (protQueue p m ts s) := by
  unfold protQueue
  repeat' first
    | exact rfl
    | with_unfolding_none first
        | apply KeepsIn.refl | assumption | intro _ | apply KeepsIn.ite | apply KeepsIn.after (updPort_k ..)
    | dsimp only | split

theorem protSend_k (dst : BitVec 16) (kind : Nat) (body : List Byte) (ts : Option Nat) (s : State) :
    KeepsIn [.line, .host, .pool, .mem, .mgmt, .pages, .cnts] s (protSend dst kind body ts s) := by
  unfold protSend
  repeat' first
    | exact rfl
    | with_unfolding_none first
        | apply KeepsIn.refl | assumption | intro _ | apply KeepsIn.ite | apply KeepsIn.after (protQueue_k ..)
        | apply KeepsIn.after (poolPass_k ..) | apply KeepsIn.after (State.updLine_k ..)
    | dsimp only | split

theorem drawBytes_k  : ∀ (n : Nat) (s : State), KeepsIn [] s (drawBytes  n s).2 := by
  intro n
  induction n with
  | zero =>
    intro s
    rw [drawBytes]
    repeat' first
      | exact rfl
      | with_unfolding_none first
          | apply KeepsIn.refl | assumption | apply KeepsIn.ite | apply KeepsIn.after (ih ..)
          | apply KeepsIn.after (State.draw_k ..)
      | dsimp only | split
  | succ n ih =>
    intro s
    rw [drawBytes]
    repeat' first
      | exact rfl
      | with_unfolding_none first
          | apply KeepsIn.refl | assumption | apply KeepsIn.ite | apply KeepsIn.after (ih ..)
          | apply KeepsIn.after (State.draw_k ..)
      | dsimp only | split

theorem kxSend_k (i : Nat) (m : List Byte) (s : State) :
    KeepsIn [.line, .host, .pool, .mem, .mgmt, .pages, .cnts] s (kxSend i m s) := by
  unfold kxSend
  repeat' first
    | exact rfl
    | with_unfolding_none first
        | apply KeepsIn.refl | assumption | intro _ | apply KeepsIn.ite | apply KeepsIn.after (protSend_k ..)
        | apply KeepsIn.after (updPort_k ..) | apply KeepsIn.after (poolPass_k ..)
    | dsimp only | split

theorem kxAwait_k (i next : Nat) (m : List Byte) (s : State) :
    KeepsIn [.line, .ciph, .host, .pool, .mem, .mgmt, .pages, .cnts] s (kxAwait i next m s) := by
  unfold kxAwait
  repeat' first
    | exact rfl
    | with_unfolding_none first
        | apply KeepsIn.refl | assumption | intro _ | apply KeepsIn.ite | apply KeepsIn.after (kxSend_k ..)
        | apply KeepsIn.after (updSess_k ..)
    | dsimp only | split

theorem kxStart_k (i : Nat) (s : State) :
    KeepsIn [.line, .ciph, .host, .pool, .mem, .mgmt, .pages, .cnts] s (kxStart i s) := by
  unfold kxStart
  repeat' first
    | exact rfl
    | with_unfolding_none first
        | apply KeepsIn.refl | assumption | intro _ | apply KeepsIn.ite | apply KeepsIn.after (drawBytes_k ..)
        | apply KeepsIn.after (State.draw_k ..) | apply KeepsIn.after (kxAwait_k ..) | apply KeepsIn.after (updSess_k ..)
    | dsimp only | split

theorem spillCtx_k (o : Ctx) (s : State) : KeepsIn [.ciph, .mem] s (spillCtx o s) := by
  unfold spillCtx
  repeat' first
    | exact rfl
    | with_unfolding_none first
        | apply KeepsIn.refl | assumption | intro _ | apply KeepsIn.ite | apply KeepsIn.after (hbmWrite_k ..)
        | apply KeepsIn.after (State.updCiph_k ..)
    | dsimp only | split

theorem spillLru_k (port : Nat) (s : State) : KeepsIn [.ciph, .mem] s (spillLru port s) := by
  unfold spillLru
  repeat' first
    | exact rfl
    | with_unfolding_none first
        | apply KeepsIn.refl | assumption | intro _ | apply KeepsIn.ite | apply KeepsIn.foldl'
        | apply KeepsIn.foldlP (st := Prod.snd) | apply KeepsIn.foldlP (st := Prod.fst) | apply KeepsIn.after (spillCtx_k ..)
    | dsimp only | split

theorem putCtx_k (c : Ctx) (s : State) : KeepsIn [.ciph, .mem] s (putCtx c s) := by
  unfold putCtx
  repeat' first
    | exact rfl
    | with_unfolding_none first
        | apply KeepsIn.refl | assumption | intro _ | apply KeepsIn.ite | apply KeepsIn.after (spillLru_k ..)
        | apply KeepsIn.after (State.updCiph_k ..)
    | dsimp only | split

theorem loadCtx_k (c : Ctx) (s : State) : KeepsIn [.host, .mgmt, .pages, .cnts] s (loadCtx c s).2 := by
  unfold loadCtx
  repeat' first
    | exact rfl
    | with_unfolding_none first
        | apply KeepsIn.refl | assumption | intro _ | apply KeepsIn.ite | apply KeepsIn.after (raiseEv_k ..)
    | dsimp only | split

theorem State.sealDie_k (s : State) : KeepsIn [] s (State.sealDie s).2 := by
  unfold State.sealDie
  repeat' first
    | exact rfl
    | with_unfolding_none first
        | apply KeepsIn.refl | assumption | intro _ | apply KeepsIn.ite | apply KeepsIn.after (State.draw_k ..)
    | dsimp only | split

theorem sealOne_k (d : Ctx) (ty : Nat) (epoch rseq : Word) (pt : List Byte) (s : State) :
    OptK [.ciph, .host, .mem, .mgmt, .pages, .cnts] s (fun x => x.2) (sealOne d ty epoch rseq pt s) := by
  unfold sealOne
  repeat' first
    | exact rfl
    | with_unfolding_none first
        | apply KeepsIn.refl | apply OptK.ite | apply OptK.none | apply OptK.some | assumption | intro _ | apply KeepsIn.ite
        | apply KeepsIn.after (loadCtx_k ..) | apply KeepsIn.after (State.sealDie_k ..) | apply KeepsIn.after (bump_k ..)
        | apply KeepsIn.after (putCtx_k ..)
    | dsimp only | split

theorem noteWait_k (d : Ctx) (s : State) :
    KeepsIn [.line, .ciph, .host, .pool, .mem, .mgmt, .pages, .cnts] s (noteWait d s) := by
  unfold noteWait
  repeat' first
    | exact rfl
    | with_unfolding_none first
        | apply KeepsIn.refl | assumption | intro _ | apply KeepsIn.ite | apply KeepsIn.after (loadCtx_k ..)
        | apply KeepsIn.after (putCtx_k ..) | apply KeepsIn.after (kxStart_k ..)
    | dsimp only | split

theorem resealSegs_k (d : Ctx) (old : Nat × Nat) (segs sheets : List (List Byte)) (s : State) :
    KeepsIn [.ciph, .host, .mem, .mgmt, .pages, .cnts] s (resealSegs d old segs sheets s).2 := by
  unfold resealSegs
  repeat' first
    | exact rfl
    | with_unfolding_none first
        | apply KeepsIn.refl | assumption | intro _ | apply KeepsIn.ite | apply KeepsIn.foldl'
        | apply KeepsIn.foldlP (st := Prod.snd) | apply KeepsIn.foldlP (st := Prod.fst) | apply OptK.after (sealOne_k ..)
        | apply KeepsIn.after (OptK.get2 (sealOne_k ..) (by assumption)) | apply KeepsIn.after (bump_k ..)
    | dsimp only | split

theorem resealCopy_k (d : Ctx) (old : Nat × Nat) (k : Nat) (t : TxCw) (s : State) :
    KeepsIn [.ring, .ciph, .host, .mem, .mgmt, .pages, .cnts] s (resealCopy d old k t s) := by
  unfold resealCopy
  repeat' first
    | exact rfl
    | with_unfolding_none first
        | apply KeepsIn.refl | assumption | intro _ | apply KeepsIn.ite | apply KeepsIn.after (resealSegs_k ..)
        | apply KeepsIn.after (putTx_k ..)
    | dsimp only | split

theorem resealEnd_k (d : Ctx) (old : Nat × Nat) (i : Nat) (x : ScEnd) (s : State) :
    KeepsIn [.outer, .ciph, .host, .mem, .mgmt, .pages, .cnts] s (resealEnd d old i x s) := by
  unfold resealEnd
  repeat' first
    | exact rfl
    | with_unfolding_none first
        | apply KeepsIn.refl | assumption | intro _ | apply KeepsIn.ite | apply KeepsIn.foldl'
        | apply KeepsIn.foldlP (st := Prod.snd) | apply KeepsIn.foldlP (st := Prod.fst)
        | apply KeepsIn.after (resealSegs_k ..) | apply KeepsIn.after (State.updOuter_k ..)
    | dsimp only | split

theorem resealIfNeeded_k (d : Ctx) (mine : List (Nat × Nat)) (s : State) :
    KeepsIn [.ring, .outer, .ciph, .host, .mem, .mgmt, .pages, .cnts] s (resealIfNeeded d mine s) := by
  unfold resealIfNeeded
  repeat' first
    | exact rfl
    | with_unfolding_none first
        | apply KeepsIn.refl | assumption | intro _ | apply KeepsIn.ite | apply KeepsIn.foldl'
        | apply KeepsIn.foldlP (st := Prod.snd) | apply KeepsIn.foldlP (st := Prod.fst)
        | apply KeepsIn.after (resealCopy_k ..) | apply KeepsIn.after (resealEnd_k ..)
    | dsimp only | split

theorem sealFrom_k (d : Ctx) (epoch rseq : Word) (sseq : Bool) : ∀ (gs : List (List (List Byte))) (mine : List (Nat × Nat))
    (s : State), OptK [.ring, .outer, .ciph, .host, .mem, .mgmt, .pages, .cnts] s (fun x => x.2) (sealFrom d epoch rseq sseq mine gs s) := by
  intro gs
  induction gs with
  | nil => intro mine s; rw [sealFrom]; exact OptK.some (KeepsIn.refl _)
  | cons g gs ih =>
    intro mine s
    rw [sealFrom]
    split
    · exact OptK.none
    · split
      · exact OptK.none
      · exact OptK.some (KeepsIn.after (OptK.get2 (ih ..) (by assumption)) rfl
          (KeepsIn.after (OptK.get2 (sealOne_k ..) (by assumption)) rfl
            (KeepsIn.after (resealIfNeeded_k ..) rfl (KeepsIn.refl _))))


theorem sealBlank_k (d : Ctx) (epoch rseq : Word) (sseq : Bool) (segs sheets : List (List Byte)) (s : State) :
    KeepsIn [.ring, .outer, .ciph, .host, .mem, .mgmt, .pages, .cnts] s (sealBlank d epoch rseq sseq segs sheets s).2 := by
  unfold sealBlank
  repeat' first
    | exact rfl
    | with_unfolding_none first
        | apply KeepsIn.refl | assumption | intro _ | apply KeepsIn.ite | apply KeepsIn.foldl'
        | apply KeepsIn.foldlP (st := Prod.snd) | apply KeepsIn.foldlP (st := Prod.fst) | apply OptK.after (sealFrom_k ..)
        | apply KeepsIn.after (OptK.get2 (sealFrom_k ..) (by assumption))
    | dsimp only | split

theorem sealAll_k (d : Ctx) (epoch rseq : Word) (sseq : Bool) (gs : List (List (List Byte))) (s : State) :
    OptK [.ring, .outer, .ciph, .host, .mem, .mgmt, .pages, .cnts] s (fun x => x.2) (sealAll d epoch rseq sseq gs s) := by
  unfold sealAll
  repeat' first
    | exact rfl
    | with_unfolding_none first
        | apply KeepsIn.refl | apply OptK.ite | apply OptK.none | apply OptK.some | assumption | intro _ | apply KeepsIn.ite
        | apply OptK.after (sealFrom_k ..) | apply KeepsIn.after (OptK.get2 (sealFrom_k ..) (by assumption))
    | dsimp only | split

end Sys2Proof.Machine
end

