-- ==== Sys2Proof/Laws/Keeps/Streams.lean ====
section
/-! SUPPORT. What the operations and commands of Machine/Streams.lean keep, and the parts they may change. -/
namespace Sys2Proof.Machine

open Sys2Proof

set_option linter.all false

theorem updSc_k (i : Nat) (f : ScEnd → ScEnd) (s : State) : KeepsIn [.outer] s (updSc i f s) := by
  unfold updSc
  repeat' first
    | exact rfl
    | with_unfolding_none first
        | apply KeepsIn.refl | assumption | intro _ | apply KeepsIn.ite | apply KeepsIn.after (State.updOuter_k ..)
    | dsimp only | split

theorem scStart_k (i : Nat) (peer : Option PeerEnd) (s : State) : KeepsIn [.outer, .line] s (scStart i peer s) := by
  unfold scStart
  repeat' first
    | exact rfl
    | with_unfolding_none first
        | apply KeepsIn.refl | assumption | intro _ | apply KeepsIn.ite | apply KeepsIn.after (updSc_k ..)
        | apply KeepsIn.after (updPort_k ..)
    | dsimp only | split

theorem scStop_k (i : Nat) (s : State) :
    KeepsIn [.outer, .line, .host, .pool, .mem, .mgmt, .pages, .cnts] s (scStop i s) := by
  unfold scStop
  repeat' first
    | exact rfl
    | with_unfolding_none first
        | apply KeepsIn.refl | assumption | intro _ | apply KeepsIn.ite | apply KeepsIn.forAll
        | apply KeepsIn.after (State.updLine_k ..) | apply KeepsIn.after (updPort_k ..) | apply KeepsIn.after (updSc_k ..)
        | apply KeepsIn.after (poolRelease_k ..)
    | dsimp only | split

theorem scCtlWr_k (i : Nat) (v : Word) (peer : Option PeerEnd) (s : State) :
    EffK [.outer, .line, .host, .pool, .mem, .mgmt, .pages, .regs, .cnts] s (scCtlWr i v peer s) := by
  unfold scCtlWr
  repeat' first
    | exact rfl
    | with_unfolding_none first
        | apply KeepsIn.refl | apply EffK.ok | apply EffK.error | apply EffK.ite | assumption | intro _ | apply KeepsIn.ite
        | apply KeepsIn.after (store_k ..) | apply KeepsIn.after (scStop_k ..) | apply KeepsIn.after (scStart_k ..)
        | apply EffK.map
    | dsimp only | split

theorem scRec_k (i kind : Nat) (rseq : Word) (count tbytes : Nat) (s : State) :
    KeepsIn [.line] s (scRec i kind rseq count tbytes s) := by
  unfold scRec
  repeat' first
    | exact rfl
    | with_unfolding_none first
        | apply KeepsIn.refl | assumption | intro _ | apply KeepsIn.ite | apply KeepsIn.after (updPort_k ..)
    | dsimp only | split

theorem scTransmit_k (i : Nat) (m : StrmMsg) (s : State) : KeepsIn [.line] s (scTransmit i m s) := by
  unfold scTransmit
  repeat' first
    | exact rfl
    | with_unfolding_none first
        | apply KeepsIn.refl | assumption | intro _ | apply KeepsIn.ite | apply KeepsIn.foldl'
        | apply KeepsIn.foldlP (st := Prod.snd) | apply KeepsIn.foldlP (st := Prod.fst) | apply KeepsIn.after (updPort_k ..)
        | apply KeepsIn.after (scRec_k ..)
    | dsimp only | split

theorem scSeal_k (i : Nat) (s : State) :
    KeepsIn [.ring, .outer, .line, .ciph, .host, .pool, .mem, .mgmt, .pages, .cnts] s (scSeal i s) := by
  unfold scSeal
  repeat' first
    | exact rfl
    | with_unfolding_none first
        | apply KeepsIn.refl | assumption | intro _ | apply KeepsIn.ite | apply KeepsIn.foldl'
        | apply KeepsIn.foldlP (st := Prod.snd) | apply KeepsIn.foldlP (st := Prod.fst) | apply OptK.after (sealAll_k ..)
        | apply KeepsIn.after (OptK.get2 (sealAll_k ..) (by assumption)) | apply KeepsIn.after (noteWait_k ..)
        | apply KeepsIn.after (scTransmit_k ..) | apply KeepsIn.after (poolRelease_k ..) | apply KeepsIn.after (updSc_k ..)
    | dsimp only | split

theorem scReseal_k (i : Nat) (s : State) :
    KeepsIn [.ring, .outer, .ciph, .host, .mem, .mgmt, .pages, .cnts] s (scReseal i s) := by
  unfold scReseal
  repeat' first
    | exact rfl
    | with_unfolding_none first
        | apply KeepsIn.refl | assumption | intro _ | apply KeepsIn.ite | apply KeepsIn.forAll
        | apply KeepsIn.after (sealBlank_k ..) | apply KeepsIn.after (updSc_k ..)
    | dsimp only | split

theorem scMessage_k (i : Nat) (q : BitVec 24) (data : List Byte) (s : State) :
    KeepsIn [.sheet, .ring, .outer, .fab, .line, .ciph, .host, .pool, .mem, .mgmt, .pages, .cnts] s (scMessage i q data s) := by
  unfold scMessage
  repeat' first
    | exact rfl
    | with_unfolding_none first
        | apply KeepsIn.refl | assumption | intro _ | apply KeepsIn.ite | apply KeepsIn.after (nakReq_k ..)
        | apply KeepsIn.after (raiseEv_k ..) | apply KeepsIn.after (State.emit_k ..) | apply KeepsIn.after (scSeal_k ..)
        | apply KeepsIn.after (poolReq_k ..) | apply KeepsIn.after (updSc_k ..) | apply KeepsIn.after (countPacked_k ..)
    | dsimp only | split

theorem execStreamMessage_k (qpn : BitVec 24) (data : List Byte) (s : State) :
    ResK [.sheet, .ring, .outer, .fab, .line, .ciph, .host, .pool, .mem, .mgmt, .pages, .cnts] s (execStreamMessage qpn data s) := by
  unfold execStreamMessage
  repeat' first
    | exact rfl
    | with_unfolding_none first
        | apply KeepsIn.refl | apply ResK.next | assumption | intro _ | apply KeepsIn.ite
        | apply KeepsIn.after (scMessage_k ..)
    | dsimp only | split

theorem scResend_k (i : Nat) (m : StrmMsg) (s : State) :
    KeepsIn [.outer, .line, .host, .mgmt, .pages, .cnts] s (scResend i m s) := by
  unfold scResend
  repeat' first
    | exact rfl
    | with_unfolding_none first
        | apply KeepsIn.refl | assumption | intro _ | apply KeepsIn.ite | apply KeepsIn.whenD
        | apply KeepsIn.after (raiseEv_k ..) | apply KeepsIn.after (updSc_k ..) | apply KeepsIn.after (scTransmit_k ..)
    | dsimp only | split

theorem scFree_k (i : Nat) (p : StrmMsg → Bool) (s : State) : KeepsIn [.outer] s (scFree i p s) := by
  unfold scFree
  repeat' first
    | exact rfl
    | with_unfolding_none first
        | apply KeepsIn.refl | assumption | intro _ | apply KeepsIn.ite | apply KeepsIn.after (updSc_k ..)
    | dsimp only | split

theorem strmAcked_k (r : RingRec) (s : State) : KeepsIn [.outer] s (strmAcked r s) := by
  unfold strmAcked
  repeat' first
    | exact rfl
    | with_unfolding_none first
        | apply KeepsIn.refl | assumption | intro _ | apply KeepsIn.ite | apply KeepsIn.after (scFree_k ..)
    | dsimp only | split

theorem strmRefetch_k (r : RingRec) (s : State) : KeepsIn [.line] s (strmRefetch r s) := by
  unfold strmRefetch
  repeat' first
    | exact rfl
    | with_unfolding_none first
        | apply KeepsIn.refl | assumption | intro _ | apply KeepsIn.ite | apply KeepsIn.after (updPort_k ..)
    | dsimp only | split

theorem scDamaged_k (i : Nat) (q : Word) (bytes : List Byte) (c : Cause) (s : State) :
    KeepsIn [.outer, .line, .host, .mgmt, .pages, .cnts] s (scDamaged i q bytes c s) := by
  unfold scDamaged
  repeat' first
    | exact rfl
    | with_unfolding_none first
        | apply KeepsIn.refl | assumption | intro _ | apply KeepsIn.ite | apply KeepsIn.after (countDamaged_k ..)
        | apply KeepsIn.after (raiseCap_k ..) | apply KeepsIn.after (updSc_k ..) | apply KeepsIn.after (bump_k ..)
        | apply KeepsIn.after (scRec_k ..)
    | dsimp only | split

theorem scCheck_k (i : Nat) (b : List Byte) (s : State) :
    KeepsIn [.outer, .line, .host, .mgmt, .pages, .cnts] s (scCheck i b s) := by
  unfold scCheck
  repeat' first
    | exact rfl
    | with_unfolding_none first
        | apply KeepsIn.refl | assumption | intro _ | apply KeepsIn.ite | apply KeepsIn.after (scDamaged_k ..)
        | apply KeepsIn.after (updSc_k ..) | apply KeepsIn.after (bump_k ..)
    | dsimp only | split

theorem strmSheet_k (i : Nat) (b : List Byte) (s : State) :
    KeepsIn [.outer, .line, .host, .mgmt, .pages, .cnts] s (strmSheet i b s) := by
  unfold strmSheet
  repeat' first
    | exact rfl
    | with_unfolding_none first
        | apply KeepsIn.refl | assumption | intro _ | apply KeepsIn.ite | apply KeepsIn.after (bump_k ..)
        | apply KeepsIn.after (State.emit_k ..) | apply KeepsIn.after (scCheck_k ..)
    | dsimp only | split

theorem strmReplace_k (i : Nat) (q : Word) (b : List Byte) (s : State) :
    KeepsIn [.outer, .line, .host, .mgmt, .pages, .cnts] s (strmReplace i q b s) := by
  unfold strmReplace
  repeat' first
    | exact rfl
    | with_unfolding_none first
        | apply KeepsIn.refl | assumption | intro _ | apply KeepsIn.ite | apply KeepsIn.after (scCheck_k ..)
        | apply KeepsIn.after (bump_k ..)
    | dsimp only | split

theorem strmAnnounce_k (r : RingRec) (s : State) :
    KeepsIn [.outer, .line, .host, .mgmt, .pages, .cnts] s (strmAnnounce r s) := by
  unfold strmAnnounce
  repeat' first
    | exact rfl
    | with_unfolding_none first
        | apply KeepsIn.refl | assumption | intro _ | apply KeepsIn.ite | apply KeepsIn.whenD | apply KeepsIn.forAll
        | apply KeepsIn.after (scRec_k ..) | apply KeepsIn.after (bump_k ..) | apply KeepsIn.after (updSc_k ..)
        | apply KeepsIn.after (scDamaged_k ..)
    | dsimp only | split

theorem execStreamDelivery_k (i : Fin 256) (s : State) :
    ResK [.outer, .fab, .host, .mgmt, .pages, .cnts] s (execStreamDelivery i s) := by
  unfold execStreamDelivery
  repeat' first
    | exact rfl
    | with_unfolding_none first
        | apply KeepsIn.refl | apply ResK.next | assumption | intro _ | apply KeepsIn.ite | apply KeepsIn.foldl'
        | apply KeepsIn.foldlP (st := Prod.snd) | apply KeepsIn.foldlP (st := Prod.fst) | apply KeepsIn.after (raiseCap_k ..)
        | apply KeepsIn.after (updSc_k ..) | apply KeepsIn.after (rdmaPost_k ..) | apply KeepsIn.after (bump_k ..)
    | dsimp only | split

theorem execStreamConsumerAck_k (j : Job) (off : Nat) (bytes : List Byte) (s : State) :
    ResK [.outer, .host, .mgmt, .pages, .cnts] s (execStreamConsumerAck j off bytes s) := by
  unfold execStreamConsumerAck
  repeat' first
    | exact rfl
    | with_unfolding_none first
        | apply KeepsIn.refl | apply ResK.next | assumption | intro _ | apply KeepsIn.ite
        | apply KeepsIn.after (raiseEv_k ..) | apply KeepsIn.after (updSc_k ..)
    | dsimp only | split

theorem strmDelivered_k (i : Nat) (mseq : Word) (s : State) : KeepsIn [.outer, .line] s (strmDelivered i mseq s) := by
  unfold strmDelivered
  repeat' first
    | exact rfl
    | with_unfolding_none first
        | apply KeepsIn.refl | assumption | intro _ | apply KeepsIn.ite | apply KeepsIn.after (scRec_k ..)
        | apply KeepsIn.after (updSc_k ..)
    | dsimp only | split

end Sys2Proof.Machine
end

