-- ==== Sys2Proof/Laws/Keeps/Rings.lean ====
section
/-! SUPPORT. What the operations and commands of Machine/Rings.lean keep, and the parts they may change. -/
namespace Sys2Proof.Machine

open Sys2Proof

set_option linter.all false

theorem announceCw_k (k : Nat) (s : State) : KeepsIn [.line] s (announceCw k s) := by
  unfold announceCw
  repeat' first
    | exact rfl
    | with_unfolding_none first
        | apply KeepsIn.refl | assumption | intro _ | apply KeepsIn.ite | apply KeepsIn.after (sendRec_k ..)
    | dsimp only | split

theorem queueSegs_k (k : Nat) (s : State) : KeepsIn [.line] s (queueSegs k s) := by
  unfold queueSegs
  repeat' first
    | exact rfl
    | with_unfolding_none first
        | apply KeepsIn.refl | assumption | intro _ | apply KeepsIn.ite | apply KeepsIn.after (updPort_k ..)
    | dsimp only | split

theorem transmitCw_k (k : Nat) (s : State) : KeepsIn [.ring, .line] s (transmitCw k s) := by
  unfold transmitCw
  repeat' first
    | exact rfl
    | with_unfolding_none first
        | apply KeepsIn.refl | assumption | intro _ | apply KeepsIn.ite | apply KeepsIn.after (queueSegs_k ..)
        | apply KeepsIn.after (announceCw_k ..) | apply KeepsIn.after (putTx_k ..)
    | dsimp only | split

theorem sealCw_k (k : Nat) (sheets : List (List Byte)) (s : State) :
    OptK [.ring, .outer, .ciph, .host, .mem, .mgmt, .pages, .cnts] s (fun x => x.2) (sealCw k sheets s) := by
  unfold sealCw
  repeat' first
    | exact rfl
    | with_unfolding_none first
        | apply KeepsIn.refl | apply OptK.ite | apply OptK.none | apply OptK.some | assumption | intro _ | apply KeepsIn.ite
        | apply OptK.after (sealAll_k ..) | apply KeepsIn.after (OptK.get2 (sealAll_k ..) (by assumption))
    | dsimp only | split

theorem sealCopy_k (k : Nat) (sheets : List (List Byte)) (s : State) :
    OptK [.ring, .outer, .line, .ciph, .host, .mem, .mgmt, .pages, .cnts] s (fun x => x) (sealCopy k sheets s) := by
  unfold sealCopy
  repeat' first
    | exact rfl
    | with_unfolding_none first
        | apply KeepsIn.refl | apply OptK.ite | apply OptK.none | apply OptK.some | assumption | intro _ | apply KeepsIn.ite
        | apply KeepsIn.foldl' | apply KeepsIn.foldlP (st := Prod.snd) | apply KeepsIn.foldlP (st := Prod.fst)
        | apply OptK.after (sealCw_k ..) | apply KeepsIn.after (OptK.get2 (sealCw_k ..) (by assumption))
        | apply KeepsIn.after (putTx_k ..) | apply KeepsIn.after (transmitCw_k ..) | apply KeepsIn.after (bump_k ..)
    | dsimp only | split

theorem sendSheets_k (e : Entry) (k : Nat) (sheets : List (List Byte)) (s : State) :
    KeepsIn [.sch, .ring, .outer, .line, .ciph, .host, .pool, .mem, .mgmt, .pages, .cnts] s (sendSheets e k sheets s) := by
  unfold sendSheets
  repeat' first
    | exact rfl
    | with_unfolding_none first
        | apply KeepsIn.refl | assumption | intro _ | apply KeepsIn.ite | apply KeepsIn.foldl'
        | apply KeepsIn.foldlP (st := Prod.snd) | apply KeepsIn.foldlP (st := Prod.fst) | apply OptK.after (sealCopy_k ..)
        | apply KeepsIn.after (OptK.get1 (sealCopy_k ..) (by assumption)) | apply KeepsIn.after (noteWait_k ..)
        | apply KeepsIn.after (finish_k ..) | apply KeepsIn.after (updStats_k ..)
    | dsimp only | split

theorem lineIssue_k {m : List Part} {run : Entry → State → State} (hm : subParts [.sch] m = true)
    (hf : ∀ x0 x1, KeepsIn m x1 (run x0 x1)) (p : Nat) (serves : Entry → Bool) (s : State) :
    KeepsIn m s (lineIssue p serves run s) := by
  unfold lineIssue
  repeat' first
    | exact rfl | exact subParts_trans rfl hm
    | with_unfolding_none first
        | apply KeepsIn.refl | assumption | intro _ | apply KeepsIn.ite | apply KeepsIn.andThen (hf ..)
        | apply KeepsIn.after (issue_k ..)
    | dsimp only | split

theorem sendOp_k (e : Entry) (s : State) :
    KeepsIn [.sch, .ring, .outer, .line, .ciph, .host, .pool, .mem, .mgmt, .pages, .cnts] s (sendOp e s) := by
  unfold sendOp
  repeat' first
    | exact rfl
    | with_unfolding_none first
        | apply KeepsIn.refl | assumption | intro _ | apply KeepsIn.ite | apply KeepsIn.after (faultOp_k ..)
        | apply KeepsIn.after (bumpEv_k ..) | apply KeepsIn.after (sendSheets_k ..)
    | dsimp only | split

theorem execSend_k (p : Port) (s : State) :
    ResK [.sch, .ring, .outer, .line, .ciph, .host, .pool, .mem, .mgmt, .pages, .cnts] s (execSend p s) := by
  unfold execSend
  repeat' first
    | exact rfl
    | with_unfolding_none first
        | apply KeepsIn.refl | apply ResK.next | assumption | intro _ | apply KeepsIn.ite
        | apply KeepsIn.andThen (lineIssue_k ?_ ?_ ..) | apply KeepsIn.after (sendOp_k ..)
    | dsimp only | split

theorem fwdDamage_k (e : Entry) (k : Nat) (bad : List Nat) (s : State) :
    KeepsIn [.sheet, .line, .host, .mgmt, .pages, .cnts] s (fwdDamage e k bad s) := by
  unfold fwdDamage
  repeat' first
    | exact rfl
    | with_unfolding_none first
        | apply KeepsIn.refl | assumption | intro _ | apply KeepsIn.ite | apply KeepsIn.forAll
        | apply KeepsIn.after (askSheet_k ..) | apply KeepsIn.after (countDamaged_k ..)
        | apply KeepsIn.after (State.updSheet_k ..)
    | dsimp only | split

theorem fwdRun_k (e : Entry) (k : Nat) (s : State) :
    KeepsIn [.sch, .sheet, .ring, .outer, .line, .ciph, .host, .pool, .mem, .mgmt, .pages, .cnts] s (fwdRun e k s) := by
  unfold fwdRun
  repeat' first
    | exact rfl
    | with_unfolding_none first
        | apply KeepsIn.refl | assumption | intro _ | apply KeepsIn.ite | apply KeepsIn.after (sendSheets_k ..)
        | apply KeepsIn.after (fwdDamage_k ..)
    | dsimp only | split

theorem sendFwdOp_k (e : Entry) (s : State) :
    KeepsIn [.sch, .sheet, .ring, .outer, .line, .ciph, .host, .pool, .mem, .mgmt, .pages, .cnts] s (sendFwdOp e s) := by
  unfold sendFwdOp
  repeat' first
    | exact rfl
    | with_unfolding_none first
        | apply KeepsIn.refl | assumption | intro _ | apply KeepsIn.ite | apply KeepsIn.after (faultOp_k ..)
        | apply KeepsIn.after (fwdRun_k ..)
    | dsimp only | split

theorem execSendFwd_k (p : Port) (s : State) :
    ResK [.sch, .sheet, .ring, .outer, .line, .ciph, .host, .pool, .mem, .mgmt, .pages, .cnts] s (execSendFwd p s) := by
  unfold execSendFwd
  repeat' first
    | exact rfl
    | with_unfolding_none first
        | apply KeepsIn.refl | apply ResK.next | assumption | intro _ | apply KeepsIn.ite
        | apply KeepsIn.andThen (lineIssue_k ?_ ?_ ..) | apply KeepsIn.after (sendFwdOp_k ..)
    | dsimp only | split

theorem fwdReplace_k (e : Entry) (g : Dmg) (b : List Byte) (s : State) :
    KeepsIn [.sch, .sheet, .ring, .outer, .line, .ciph, .host, .pool, .mem, .mgmt, .pages, .cnts] s (fwdReplace e g b s) := by
  unfold fwdReplace
  repeat' first
    | exact rfl
    | with_unfolding_none first
        | apply KeepsIn.refl | assumption | intro _ | apply KeepsIn.ite | apply KeepsIn.after (putSheet_k ..)
        | apply KeepsIn.after (fwdRun_k ..) | apply KeepsIn.after (dropDmg_k ..) | apply KeepsIn.after (countDamaged_k ..)
        | apply KeepsIn.after (raiseEv_k ..) | apply KeepsIn.after (faultOp_k ..) | apply KeepsIn.after (State.updSheet_k ..)
        | apply KeepsIn.after (askSheet_k ..)
    | dsimp only | split

theorem adoptPump_k (g : Nat) (s : State) :
    KeepsIn [.ring, .outer, .line, .ciph, .host, .pool, .mem, .mgmt, .pages, .cnts] s (adoptPump g s) := by
  unfold adoptPump
  repeat' first
    | exact rfl
    | with_unfolding_none first
        | apply KeepsIn.refl | assumption | intro _ | apply KeepsIn.ite | apply KeepsIn.forAll
        | apply OptK.after (sealCopy_k ..) | apply KeepsIn.after (OptK.get1 (sealCopy_k ..) (by assumption))
        | apply KeepsIn.after (noteWait_k ..) | apply KeepsIn.after (State.updMgmt_k ..)
    | dsimp only | split

theorem resealCw_k (k : Nat) (s : State) :
    KeepsIn [.ring, .outer, .ciph, .host, .mem, .mgmt, .pages, .cnts] s (resealCw k s) := by
  unfold resealCw
  repeat' first
    | exact rfl
    | with_unfolding_none first
        | apply KeepsIn.refl | assumption | intro _ | apply KeepsIn.ite | apply KeepsIn.after (sealBlank_k ..)
        | apply KeepsIn.after (putTx_k ..)
    | dsimp only | split

theorem resealBlanks_k (s : State) :
    KeepsIn [.ring, .outer, .ciph, .host, .mem, .mgmt, .pages, .cnts] s (resealBlanks s) := by
  unfold resealBlanks
  repeat' first
    | exact rfl
    | with_unfolding_none first
        | apply KeepsIn.refl | assumption | intro _ | apply KeepsIn.ite | apply KeepsIn.forAll
        | apply KeepsIn.after (scReseal_k ..) | apply KeepsIn.after (resealCw_k ..)
    | dsimp only | split

theorem resumeSends_k (s0 : State) :
    KeepsIn [.sch, .sheet, .ring, .outer, .line, .ciph, .host, .pool, .mem, .mgmt, .pages, .cnts] s0 (resumeSends s0) := by
  unfold resumeSends
  repeat' first
    | exact rfl
    | with_unfolding_none first
        | apply KeepsIn.refl | assumption | intro _ | apply KeepsIn.ite | apply KeepsIn.forAll
        | apply KeepsIn.after (resealBlanks_k ..) | apply KeepsIn.after (adoptPump_k ..) | apply KeepsIn.after (scSeal_k ..)
        | apply KeepsIn.after (fwdRun_k ..) | apply KeepsIn.after (sendOp_k ..)
    | dsimp only | split

theorem recvOp_k (e : Entry) (s : State) : KeepsIn [.sch] s (recvOp e s) := by
  unfold recvOp
  repeat' first
    | exact rfl
    | with_unfolding_none first
        | apply KeepsIn.refl | assumption | intro _ | apply KeepsIn.ite | apply KeepsIn.after (finish_k ..)
    | dsimp only | split

theorem execRecv_k (p : Port) (s : State) : ResK [.sch] s (execRecv p s) := by
  unfold execRecv
  repeat' first
    | exact rfl
    | with_unfolding_none first
        | apply KeepsIn.refl | apply ResK.next | assumption | intro _ | apply KeepsIn.ite
        | apply KeepsIn.andThen (lineIssue_k ?_ ?_ ..) | apply KeepsIn.after (recvOp_k ..)
    | dsimp only | split

theorem repeatRecs_k (k : Nat) (s : State) : KeepsIn [.line] s (repeatRecs k s) := by
  unfold repeatRecs
  repeat' first
    | exact rfl
    | with_unfolding_none first
        | apply KeepsIn.refl | assumption | intro _ | apply KeepsIn.ite | apply KeepsIn.whenD
        | apply KeepsIn.after (sendRec_k ..)
    | dsimp only | split

theorem assemble_k (k : Nat) (s : State) : KeepsIn [.sch, .ring, .line, .host, .mgmt, .pages, .cnts] s (assemble k s) := by
  unfold assemble
  repeat' first
    | exact rfl
    | with_unfolding_none first
        | apply KeepsIn.refl | assumption | intro _ | apply KeepsIn.ite | apply KeepsIn.forAll | apply KeepsIn.foldl'
        | apply KeepsIn.foldlP (st := Prod.snd) | apply KeepsIn.foldlP (st := Prod.fst) | apply KeepsIn.after (raiseCap_k ..)
        | apply KeepsIn.after (State.updRing_k ..) | apply KeepsIn.after (sendRec_k ..) | apply KeepsIn.after (bump_k ..)
        | apply KeepsIn.after (putRx_k ..) | apply KeepsIn.after (State.emit_k ..) | apply KeepsIn.after (finish_k ..)
    | dsimp only | split

theorem sheetArrive_k (k : Nat) (b : List Byte) (s : State) :
    KeepsIn [.sch, .sheet, .ring, .line, .host, .mgmt, .pages, .cnts] s (sheetArrive k b s) := by
  unfold sheetArrive
  repeat' first
    | exact rfl
    | with_unfolding_none first
        | apply KeepsIn.refl | assumption | intro _ | apply KeepsIn.ite | apply KeepsIn.after (State.emit_k ..)
        | apply KeepsIn.after (answered_k ..) | apply KeepsIn.after (lateSheet_k ..) | apply KeepsIn.after (bump_k ..)
        | apply KeepsIn.after (assemble_k ..) | apply KeepsIn.after (putRx_k ..)
    | dsimp only | split

theorem epochNak_k (g : Nat) (seid : BitVec 16) (s : State) : KeepsIn [.mgmt] s (epochNak g seid s) := by
  unfold epochNak
  repeat' first
    | exact rfl
    | with_unfolding_none first
        | apply KeepsIn.refl | assumption | intro _ | apply KeepsIn.ite | apply KeepsIn.after (State.updMgmt_k ..)
        | apply KeepsIn.after (State.emit_k ..)
    | dsimp only | split

theorem ringGuard_k {m : List Part} {f : Nat → State → State} (hm : subParts [.host, .mgmt, .pages, .cnts] m = true)
    (hf : ∀ x0 x1, KeepsIn m x1 (f x0 x1)) (port : Nat) (tag : Word) (chan : Nat) (epoch : Word) (s : State) :
    KeepsIn m s (ringGuard port tag chan epoch f s) := by
  unfold ringGuard
  repeat' first
    | exact rfl | exact subParts_trans rfl hm
    | with_unfolding_none first
        | apply KeepsIn.refl | assumption | intro _ | apply KeepsIn.ite | apply KeepsIn.andThen (hf ..)
        | apply KeepsIn.after (epochNak_k ..) | apply KeepsIn.after (raiseEv_k ..)
    | dsimp only | split

theorem execAnnounce_k (p : Port) (r : RingRec) (s : State) :
    ResK [.sch, .ring, .outer, .line, .host, .mgmt, .pages, .cnts] s (execAnnounce p r s) := by
  unfold execAnnounce
  repeat' first
    | exact rfl
    | with_unfolding_none first
        | apply KeepsIn.refl | apply ResK.next | assumption | intro _ | apply KeepsIn.ite
        | apply KeepsIn.after (strmAnnounce_k ..) | apply KeepsIn.andThen (ringGuard_k ?_ ?_ ..)
        | apply KeepsIn.after (repeatRecs_k ..) | apply KeepsIn.after (bump_k ..) | apply KeepsIn.after (assemble_k ..)
        | apply KeepsIn.after (putRx_k ..)
    | dsimp only | split

theorem recBack_k (f : TxCw → TxCw) (g : Nat) (r : RingRec) (s : State) :
    KeepsIn [.sch, .ring, .host, .pages] s (recBack f g r s) := by
  unfold recBack
  repeat' first
    | exact rfl
    | with_unfolding_none first
        | apply KeepsIn.refl | assumption | intro _ | apply KeepsIn.ite | apply KeepsIn.after (txSettle_k ..)
        | apply KeepsIn.after (putTx_k ..)
    | dsimp only | split

theorem execReceipt_k (p : Port) (r : RingRec) (s : State) :
    ResK [.sch, .ring, .host, .mgmt, .pages, .cnts] s (execReceipt p r s) := by
  unfold execReceipt
  repeat' first
    | exact rfl
    | with_unfolding_none first
        | apply KeepsIn.refl | apply ResK.next | assumption | intro _ | apply KeepsIn.ite
        | apply KeepsIn.andThen (ringGuard_k ?_ ?_ ..) | apply KeepsIn.after (recBack_k ..)
    | dsimp only | split

theorem execAck_k (p : Port) (r : RingRec) (s : State) :
    ResK [.sch, .ring, .outer, .line, .ciph, .host, .pool, .mem, .mgmt, .pages, .cnts] s (execAck p r s) := by
  unfold execAck
  repeat' first
    | exact rfl
    | with_unfolding_none first
        | apply KeepsIn.refl | apply ResK.next | assumption | intro _ | apply KeepsIn.ite
        | apply KeepsIn.after (strmAcked_k ..) | apply KeepsIn.andThen (ringGuard_k ?_ ?_ ..)
        | apply KeepsIn.after (adoptPump_k ..) | apply KeepsIn.after (recBack_k ..)
    | dsimp only | split

theorem execCredit_k (p : Port) (r : RingRec) (s : State) :
    ResK [.sch, .ring, .outer, .line, .ciph, .host, .pool, .mem, .mgmt, .pages, .cnts] s (execCredit p r s) := by
  unfold execCredit
  repeat' first
    | exact rfl
    | with_unfolding_none first
        | apply KeepsIn.refl | apply ResK.next | assumption | intro _ | apply KeepsIn.ite
        | apply KeepsIn.andThen (ringGuard_k ?_ ?_ ..) | apply KeepsIn.after (adoptPump_k ..)
        | apply KeepsIn.after (recBack_k ..)
    | dsimp only | split

theorem execRefetch_k (p : Port) (r : RingRec) (s : State) :
    ResK [.line, .host, .mgmt, .pages, .cnts] s (execRefetch p r s) := by
  unfold execRefetch
  repeat' first
    | exact rfl
    | with_unfolding_none first
        | apply KeepsIn.refl | apply ResK.next | assumption | intro _ | apply KeepsIn.ite
        | apply KeepsIn.after (strmRefetch_k ..) | apply KeepsIn.andThen (ringGuard_k ?_ ?_ ..)
        | apply KeepsIn.after (updPort_k ..)
    | dsimp only | split

theorem rttCheck_k (g port : Nat) (s : State) : KeepsIn [.ring, .host, .mgmt, .pages, .cnts] s (rttCheck g port s) := by
  unfold rttCheck
  repeat' first
    | exact rfl
    | with_unfolding_none first
        | apply KeepsIn.refl | assumption | intro _ | apply KeepsIn.ite | apply KeepsIn.after (State.updRing_k ..)
        | apply KeepsIn.after (raiseEv_k ..)
    | dsimp only | split

theorem resendCw_k (k : Nat) (s : State) : KeepsIn [.ring, .line, .host, .mgmt, .pages, .cnts] s (resendCw k s) := by
  unfold resendCw
  repeat' first
    | exact rfl
    | with_unfolding_none first
        | apply KeepsIn.refl | assumption | intro _ | apply KeepsIn.ite | apply KeepsIn.whenD
        | apply KeepsIn.after (raiseEv_k ..) | apply KeepsIn.after (putTx_k ..) | apply KeepsIn.after (transmitCw_k ..)
    | dsimp only | split

theorem probeCw_k (k : Nat) (s : State) : KeepsIn [.ring, .line] s (probeCw k s) := by
  unfold probeCw
  repeat' first
    | exact rfl
    | with_unfolding_none first
        | apply KeepsIn.refl | assumption | intro _ | apply KeepsIn.ite | apply KeepsIn.after (announceCw_k ..)
        | apply KeepsIn.after (putTx_k ..)
    | dsimp only | split

theorem execProbeTimer_k (cw : CwId) (s : State) : ResK [.ring, .line] s (execProbeTimer cw s) := by
  unfold execProbeTimer
  repeat' first
    | exact rfl
    | with_unfolding_none first
        | apply KeepsIn.refl | apply ResK.next | assumption | intro _ | apply KeepsIn.ite
        | apply KeepsIn.after (probeCw_k ..)
    | dsimp only | split

theorem unqueueCw_k (k : Nat) (t : TxCw) (s : State) : KeepsIn [.line] s (unqueueCw k t s) := by
  unfold unqueueCw
  repeat' first
    | exact rfl
    | with_unfolding_none first
        | apply KeepsIn.refl | assumption | intro _ | apply KeepsIn.ite | apply KeepsIn.after (updPort_k ..)
    | dsimp only | split

theorem resendSome_k (p : Nat → TxCw → Bool) (s : State) :
    KeepsIn [.ring, .line, .host, .mgmt, .pages, .cnts] s (resendSome p s) := by
  unfold resendSome
  repeat' first
    | exact rfl
    | with_unfolding_none first
        | apply KeepsIn.refl | assumption | intro _ | apply KeepsIn.ite | apply KeepsIn.forAll
        | apply KeepsIn.after (resendCw_k ..) | apply KeepsIn.after (unqueueCw_k ..) | apply KeepsIn.after (probeCw_k ..)
    | dsimp only | split

theorem refuseSetup_k (g reason : Nat) (s : State) :
    KeepsIn [.ring, .line, .host, .mgmt, .pages, .cnts] s (refuseSetup g reason s) := by
  unfold refuseSetup
  repeat' first
    | exact rfl
    | with_unfolding_none first
        | apply KeepsIn.refl | assumption | intro _ | apply KeepsIn.ite | apply KeepsIn.after (updPort_k ..)
        | apply KeepsIn.after (raiseCap_k ..) | apply KeepsIn.after (updGrp_k ..)
    | dsimp only | split

theorem setupStart_k (g : Nat) (s : State) : KeepsIn [.ring, .line, .host, .mgmt, .pages, .cnts] s (setupStart g s) := by
  unfold setupStart
  repeat' first
    | exact rfl
    | with_unfolding_none first
        | apply KeepsIn.refl | assumption | intro _ | apply KeepsIn.ite | apply KeepsIn.after (updGrp_k ..)
        | apply KeepsIn.after (refuseSetup_k ..) | apply KeepsIn.after (updPort_k ..)
    | dsimp only | split

theorem dropGroup_k (g : Nat) (s : State) : KeepsIn [.ring, .line] s (dropGroup g s) := by
  unfold dropGroup
  repeat' first
    | exact rfl
    | with_unfolding_none first
        | apply KeepsIn.refl | assumption | intro _ | apply KeepsIn.ite | apply KeepsIn.after (State.updRing_k ..)
        | apply KeepsIn.after (State.updLine_k ..)
    | dsimp only | split

theorem teardown_k (g : Nat) (v : Word) (s : State) : KeepsIn [.ring, .line, .regs] s (teardown g v s) := by
  unfold teardown
  repeat' first
    | exact rfl
    | with_unfolding_none first
        | apply KeepsIn.refl | assumption | intro _ | apply KeepsIn.ite | apply KeepsIn.after (updPort_k ..)
        | apply KeepsIn.after (store_k ..) | apply KeepsIn.after (updGrp_k ..) | apply KeepsIn.after (dropGroup_k ..)
    | dsimp only | split

theorem gtCtlWr_k (g : Nat) (v : Word) (s : State) :
    EffK [.ring, .line, .host, .mgmt, .pages, .regs, .cnts] s (gtCtlWr g v s) := by
  unfold gtCtlWr
  repeat' first
    | exact rfl
    | with_unfolding_none first
        | apply KeepsIn.refl | apply EffK.ok | apply EffK.error | apply EffK.ite | assumption | intro _ | apply KeepsIn.ite
        | apply KeepsIn.after (teardown_k ..) | apply KeepsIn.after (store_k ..) | apply KeepsIn.after (setupStart_k ..)
        | apply EffK.map
    | dsimp only | split

theorem setupMsgTo_k (g : Nat) (next : Bool) (s : State) : KeepsIn [] s (setupMsgTo g next s) := by
  unfold setupMsgTo
  repeat' first
    | exact rfl
    | with_unfolding_none first
        | apply KeepsIn.refl | assumption | intro _ | apply KeepsIn.ite | apply KeepsIn.after (State.emit_k ..)
    | dsimp only | split

theorem setupSend_k (g : Nat) (s : State) : KeepsIn [.ring, .line, .host, .mgmt, .pages, .cnts] s (setupSend g s) := by
  unfold setupSend
  repeat' first
    | exact rfl
    | with_unfolding_none first
        | apply KeepsIn.refl | assumption | intro _ | apply KeepsIn.ite | apply KeepsIn.after (refuseSetup_k ..)
        | apply KeepsIn.after (setupMsgTo_k ..)
    | dsimp only | split

theorem execSetupSend_k (g : Fin 64) (s : State) :
    ResK [.ring, .line, .host, .mgmt, .pages, .cnts] s (execSetupSend g s) := by
  unfold execSetupSend
  repeat' first
    | exact rfl
    | with_unfolding_none first
        | apply KeepsIn.refl | apply ResK.next | assumption | intro _ | apply KeepsIn.ite
        | apply KeepsIn.after (setupSend_k ..)
    | dsimp only | split

theorem execSetupRetry_k (g : Fin 64) (s : State) :
    ResK [.ring, .line, .host, .mgmt, .pages, .cnts] s (execSetupRetry g s) := by
  unfold execSetupRetry
  repeat' first
    | exact rfl
    | with_unfolding_none first
        | apply KeepsIn.refl | apply ResK.next | assumption | intro _ | apply KeepsIn.ite
        | apply KeepsIn.after (setupSend_k ..)
    | dsimp only | split

theorem execSetupMessage_k (m : SetupMsg) (s : State) : ResK [] s (execSetupMessage m s) := by
  unfold execSetupMessage
  repeat' first
    | exact rfl
    | with_unfolding_none first
        | apply KeepsIn.refl | apply ResK.next | assumption | intro _ | apply KeepsIn.ite
        | apply KeepsIn.after (State.emit_k ..)
    | dsimp only | split

theorem setGates_k (g : Nat) (s : State) : KeepsIn [.sch, .ring] s (setGates g s) := by
  unfold setGates
  repeat' first
    | exact rfl
    | with_unfolding_none first
        | apply KeepsIn.refl | assumption | intro _ | apply KeepsIn.ite | apply KeepsIn.forAll
        | apply KeepsIn.after (evalJob_k ..) | apply KeepsIn.after (setCtr_k ..) | apply KeepsIn.after (State.updRing_k ..)
    | dsimp only | split

theorem scatterSettle_k (id : Nat) (s : State) : KeepsIn [.sch] s (scatterSettle id s) := by
  unfold scatterSettle
  repeat' first
    | exact rfl
    | with_unfolding_none first
        | apply KeepsIn.refl | assumption | intro _ | apply KeepsIn.ite | apply KeepsIn.after (finish_k ..)
    | dsimp only | split

theorem returnWrite_k (e : Entry) (w : Wave) (c b : Nat) (s : State) :
    KeepsIn [.fab, .host, .mgmt, .pages, .cnts] s (returnWrite e w c b s) := by
  unfold returnWrite
  repeat' first
    | exact rfl
    | with_unfolding_none first
        | apply KeepsIn.refl | assumption | intro _ | apply KeepsIn.ite | apply KeepsIn.after (rdmaPost_k ..)
    | dsimp only | split

theorem scatterPass_k (id : Nat) (s : State) : KeepsIn [.sch, .fab, .host, .mgmt, .pages, .cnts] s (scatterPass id s) := by
  unfold scatterPass
  repeat' first
    | exact rfl
    | with_unfolding_none first
        | apply KeepsIn.refl | assumption | intro _ | apply KeepsIn.ite | apply KeepsIn.forAll
        | apply KeepsIn.after (scatPump_k ..) | apply KeepsIn.after (returnWrite_k ..) | apply KeepsIn.after (updEntry_k ..)
    | dsimp only | split

theorem scatterGo_k (id : Nat) (s : State) : KeepsIn [.sch, .fab, .host, .mgmt, .pages, .cnts] s (scatterGo id s) := by
  unfold scatterGo
  repeat' first
    | exact rfl
    | with_unfolding_none first
        | apply KeepsIn.refl | assumption | intro _ | apply KeepsIn.ite | apply KeepsIn.whenD
        | apply KeepsIn.after (scatterSettle_k ..) | apply KeepsIn.after (scatterPass_k ..)
    | dsimp only | split

theorem scatterMark_k (id : Nat) (acks : BitVec 512) (s : State) :
    KeepsIn [.sch, .fab, .host, .mgmt, .pages, .cnts] s (scatterMark id acks s) := by
  unfold scatterMark
  repeat' first
    | exact rfl
    | with_unfolding_none first
        | apply KeepsIn.refl | assumption | intro _ | apply KeepsIn.ite | apply KeepsIn.after (scatterGo_k ..)
        | apply KeepsIn.after (updEntry_k ..)
    | dsimp only | split

theorem msgDone_k (f : MsgFor) (s : State) :
    KeepsIn [.sch, .outer, .fab, .line, .host, .mgmt, .pages, .cnts] s (msgDone f s) := by
  unfold msgDone
  repeat' first
    | exact rfl
    | with_unfolding_none first
        | apply KeepsIn.refl | assumption | intro _ | apply KeepsIn.ite | apply KeepsIn.after (scatterMark_k ..)
        | apply KeepsIn.after (finish_k ..) | apply KeepsIn.after (strmDelivered_k ..)
    | dsimp only | split

theorem qpAcked_k (qpn psn : BitVec 24) (s : State) :
    KeepsIn [.sch, .outer, .fab, .line, .host, .mgmt, .pages, .cnts] s (qpAcked qpn psn s) := by
  unfold qpAcked
  repeat' first
    | exact rfl
    | with_unfolding_none first
        | apply KeepsIn.refl | assumption | intro _ | apply KeepsIn.ite | apply KeepsIn.forAll
        | apply KeepsIn.after (msgDone_k ..) | apply KeepsIn.after (putQp_k ..)
    | dsimp only | split

theorem ackFor_k (f : MsgFor) (s : State) :
    KeepsIn [.sch, .outer, .fab, .line, .host, .mgmt, .pages, .cnts] s (ackFor f s) := by
  unfold ackFor
  repeat' first
    | exact rfl
    | with_unfolding_none first
        | apply KeepsIn.refl | assumption | intro _ | apply KeepsIn.ite | apply KeepsIn.after (qpAcked_k ..)
        | apply KeepsIn.after (msgDone_k ..)
    | dsimp only | split

theorem scatterAcks_k (id : Nat) (acks : BitVec 512) (s : State) :
    KeepsIn [.sch, .outer, .fab, .line, .host, .mgmt, .pages, .cnts] s (scatterAcks id acks s) := by
  unfold scatterAcks
  repeat' first
    | exact rfl
    | with_unfolding_none first
        | apply KeepsIn.refl | assumption | intro _ | apply KeepsIn.ite | apply KeepsIn.forAll
        | apply KeepsIn.after (fabPump_k ..) | apply KeepsIn.after (ackFor_k ..)
    | dsimp only | split

theorem scatterOp_k (e : Entry) (acks : BitVec 512) (s : State) :
    KeepsIn [.sch, .outer, .fab, .line, .host, .mgmt, .pages, .cnts] s (scatterOp e acks s) := by
  unfold scatterOp
  repeat' first
    | exact rfl
    | with_unfolding_none first
        | apply KeepsIn.refl | assumption | intro _ | apply KeepsIn.ite | apply KeepsIn.after (faultOp_k ..)
        | apply KeepsIn.after (poisonFault_k ..) | apply KeepsIn.after (bumpEv_k ..) | apply KeepsIn.after (scatterAcks_k ..)
        | apply KeepsIn.after (scatterGo_k ..) | apply KeepsIn.after (updEntry_k ..)
    | dsimp only | split

theorem execScatter_k (acks : BitVec 512) (s : State) :
    ResK [.sch, .outer, .fab, .line, .host, .mgmt, .pages, .cnts] s (execScatter acks s) := by
  unfold execScatter
  repeat' first
    | exact rfl
    | with_unfolding_none first
        | apply KeepsIn.refl | apply ResK.next | assumption | intro _ | apply KeepsIn.ite
        | apply KeepsIn.after (scatterOp_k ..) | apply KeepsIn.after (issue_k ..) | apply KeepsIn.after (scatterAcks_k ..)
    | dsimp only | split

theorem scatterDrop_k (j : Nat) (gone : BitVec 512) (skip : Bool) (s : State) :
    KeepsIn [.sch, .fab, .host, .mgmt, .pages, .cnts] s (scatterDrop j gone skip s) := by
  unfold scatterDrop
  repeat' first
    | exact rfl
    | with_unfolding_none first
        | apply KeepsIn.refl | assumption | intro _ | apply KeepsIn.ite | apply KeepsIn.forAll
        | apply KeepsIn.after (scatterGo_k ..) | apply KeepsIn.after (updEntry_k ..) | apply KeepsIn.after (bumpEv_k ..)
    | dsimp only | split

theorem copyAck_k (id : Nat) (s : State) :
    KeepsIn [.sch, .outer, .fab, .line, .host, .mgmt, .pages, .cnts] s (copyAck id s) := by
  unfold copyAck
  repeat' first
    | exact rfl
    | with_unfolding_none first
        | apply KeepsIn.refl | assumption | intro _ | apply KeepsIn.ite | apply KeepsIn.after (fabPump_k ..)
        | apply KeepsIn.after (ackFor_k ..)
    | dsimp only | split

theorem copyOp_k (e : Entry) (ack : Bool) (s : State) :
    KeepsIn [.sch, .ring, .outer, .fab, .line, .host, .mgmt, .pages, .cnts] s (copyOp e ack s) := by
  unfold copyOp
  repeat' first
    | exact rfl
    | with_unfolding_none first
        | apply KeepsIn.refl | assumption | intro _ | apply KeepsIn.ite | apply KeepsIn.whenD
        | apply KeepsIn.after (updEntry_k ..) | apply KeepsIn.after (putTx_k ..) | apply KeepsIn.after (rdmaPost_k ..)
        | apply KeepsIn.after (copyAck_k ..) | apply KeepsIn.after (faultOp_k ..)
    | dsimp only | split

theorem execCopy_k (ack : Bool) (s : State) :
    ResK [.sch, .ring, .outer, .fab, .line, .host, .mgmt, .pages, .cnts] s (execCopy ack s) := by
  unfold execCopy
  repeat' first
    | exact rfl
    | with_unfolding_none first
        | apply KeepsIn.refl | apply ResK.next | assumption | intro _ | apply KeepsIn.ite | apply KeepsIn.whenD
        | apply KeepsIn.after (copyOp_k ..) | apply KeepsIn.after (issue_k ..) | apply KeepsIn.after (copyAck_k ..)
    | dsimp only | split

theorem execStreamAck_k (i : Fin 256) (seq : Word) (s : State) :
    ResK [.sch, .outer, .fab, .line, .host, .mgmt, .pages, .cnts] s (execStreamAck i seq s) := by
  unfold execStreamAck
  repeat' first
    | exact rfl
    | with_unfolding_none first
        | apply KeepsIn.refl | apply ResK.next | assumption | intro _ | apply KeepsIn.ite
        | apply KeepsIn.after (fabPump_k ..) | apply KeepsIn.after (ackFor_k ..) | apply KeepsIn.after (scFree_k ..)
    | dsimp only | split

theorem ringEffect_k (p o ix : Nat) (v : DWord) (s : State) :
    EffK [.ring, .line, .host, .mgmt, .pages, .regs, .cnts] s (ringEffect p o ix v s) := by
  unfold ringEffect
  repeat' first
    | exact rfl
    | with_unfolding_none first
        | apply KeepsIn.refl | apply EffK.ok | apply EffK.error | apply EffK.ite | assumption | intro _ | apply KeepsIn.ite
        | apply KeepsIn.after (store_k ..) | apply EffK.after (gtCtlWr_k ..)
        | apply KeepsIn.after (EffK.get (gtCtlWr_k ..) (by assumption)) | apply KeepsIn.after (storePair_k ..)
        | apply EffK.map
    | dsimp only | split

end Sys2Proof.Machine
end

