-- ==== Sys2Proof/Laws/Keeps/Plan.lean ====
section
/-! SUPPORT. What the operations and commands of Machine/Plan.lean keep, and the parts they may change. -/
namespace Sys2Proof.Machine

open Sys2Proof

set_option linter.all false

theorem putEdesc_k (d j edx : Nat) (ws : List Word) (s : State) : KeepsIn [.regs] s (putEdesc d j edx ws s) := by
  unfold putEdesc
  repeat' first
    | exact rfl
    | with_unfolding_none first
        | apply KeepsIn.refl | assumption | intro _ | apply KeepsIn.ite | apply KeepsIn.forAll
        | apply KeepsIn.after (State.setReg_k ..)
    | dsimp only | split

theorem PlWave.gate_k (x : PlWave) (xf : Nat) (s : State) : KeepsIn [.ring] s (PlWave.gate x xf s).2 := by
  unfold PlWave.gate
  repeat' first
    | exact rfl
    | with_unfolding_none first
        | apply KeepsIn.refl | assumption | intro _ | apply KeepsIn.ite | apply KeepsIn.after (State.updRing_k ..)
    | dsimp only | split

theorem plRs_k (x : PlWave) (s : State) : KeepsIn [.ring, .regs] s (plRs x s).2 := by
  unfold plRs
  repeat' first
    | exact rfl
    | with_unfolding_none first
        | apply KeepsIn.refl | assumption | intro _ | apply KeepsIn.ite | apply KeepsIn.after (PlWave.gate_k ..)
        | apply KeepsIn.after (putEdesc_k ..)
    | dsimp only | split

theorem plApply_k (x : PlWave) (wv : Nat) (s : State) : KeepsIn [.regs] s (plApply x wv s).2 := by
  unfold plApply
  repeat' first
    | exact rfl
    | with_unfolding_none first
        | apply KeepsIn.refl | assumption | intro _ | apply KeepsIn.ite | apply KeepsIn.after (putEdesc_k ..)
    | dsimp only | split

theorem plAg_k (x : PlWave) (sendAt lastCtr : Nat) (s : State) : KeepsIn [.ring, .regs] s (plAg x sendAt lastCtr s).2 := by
  unfold plAg
  repeat' first
    | exact rfl
    | with_unfolding_none first
        | apply KeepsIn.refl | assumption | intro _ | apply KeepsIn.ite | apply KeepsIn.after (PlWave.gate_k ..)
        | apply KeepsIn.after (putEdesc_k ..) | apply KeepsIn.after (plApply_k ..)
    | dsimp only | split

theorem putChain_k (j h : Nat) (l : List Desc) (s : State) : KeepsIn [.gc] s (putChain j h l s) := by
  unfold putChain
  repeat' first
    | exact rfl
    | with_unfolding_none first
        | apply KeepsIn.refl | assumption | intro _ | apply KeepsIn.ite | apply KeepsIn.after (State.updGc_k ..)
    | dsimp only | split

theorem plWave_k (x : PlWave) (lastCtr : Nat) (s : State) : KeepsIn [.gc, .ring, .regs] s (plWave x lastCtr s).2 := by
  unfold plWave
  repeat' first
    | exact rfl
    | with_unfolding_none first
        | apply KeepsIn.refl | assumption | intro _ | apply KeepsIn.ite | apply KeepsIn.after (plRs_k ..)
        | apply KeepsIn.after (plAg_k ..) | apply KeepsIn.after (putChain_k ..)
    | dsimp only | split

theorem plHeader_k (j _r round : Nat) (p : PlReam) (first : Bool) (s : State) :
    KeepsIn [.mem] s (plHeader j _r round p first s) := by
  unfold plHeader
  repeat' first
    | exact rfl
    | with_unfolding_none first
        | apply KeepsIn.refl | assumption | intro _ | apply KeepsIn.ite | apply KeepsIn.foldl'
        | apply KeepsIn.foldlP (st := Prod.snd) | apply KeepsIn.foldlP (st := Prod.fst) | apply KeepsIn.after (hbmWrite_k ..)
    | dsimp only | split

theorem planRound_k (j : Job) (r grpCores : Nat) (b : List Byte) (s : State) :
    KeepsIn [.gc, .ring, .outer, .host, .mem, .mgmt, .pages, .regs, .cnts] s (planRound j r grpCores b s).2 := by
  unfold planRound
  repeat' first
    | exact rfl
    | with_unfolding_none first
        | apply KeepsIn.refl | assumption | intro _ | apply KeepsIn.ite | apply KeepsIn.whenD | apply KeepsIn.foldl'
        | apply KeepsIn.foldlP (st := Prod.snd) | apply KeepsIn.foldlP (st := Prod.fst) | apply KeepsIn.after (plHeader_k ..)
        | apply KeepsIn.after (raiseEv_k ..) | apply KeepsIn.after (State.updOuter_k ..) | apply KeepsIn.after (plWave_k ..)
    | dsimp only | split

end Sys2Proof.Machine
end

