-- ==== Sys2Proof/Laws/Keeps/Cores.lean ====
section
/-! SUPPORT. What the operations and commands of Machine/Cores.lean keep, and the parts they may change. -/
namespace Sys2Proof.Machine

open Sys2Proof

set_option linter.all false

theorem coreTake_k (c : Nat) (e : Entry) (builtin : Bool) (s : State) : KeepsIn [.gc] s (coreTake c e builtin s) := by
  unfold coreTake
  repeat' first
    | exact rfl
    | with_unfolding_none first
        | apply KeepsIn.refl | assumption | intro _ | apply KeepsIn.ite | apply KeepsIn.after (updCore_k ..)
    | dsimp only | split

theorem takeTask_k {m : List Part} {run : Entry → State → State} (hm : subParts [.sch] m = true)
    (hf : ∀ x0 x1, KeepsIn m x1 (run x0 x1)) (c : Nat) (serves : Entry → Bool) (s : State) :
    KeepsIn m s (takeTask c serves run s) := by
  unfold takeTask
  repeat' first
    | exact rfl | exact subParts_trans rfl hm
    | with_unfolding_none first
        | apply KeepsIn.refl | assumption | intro _ | apply KeepsIn.ite | apply KeepsIn.andThen (hf ..)
        | apply KeepsIn.after (faultOp_k ..) | apply KeepsIn.after (issue_k ..)
    | dsimp only | split

theorem userTask_k (c : Nat) (e : Entry) (s : State) :
    KeepsIn [.sch, .gc, .host, .mgmt, .pages, .cnts] s (userTask c e s) := by
  unfold userTask
  repeat' first
    | exact rfl
    | with_unfolding_none first
        | apply KeepsIn.refl | assumption | intro _ | apply KeepsIn.ite | apply KeepsIn.after (faultOp_k ..)
        | apply KeepsIn.after (poisonFault_k ..) | apply KeepsIn.after (updCore_k ..) | apply KeepsIn.after (coreTake_k ..)
    | dsimp only | split

theorem execTask_k (c : Core) (s : State) : ResK [.sch, .gc, .host, .mgmt, .pages, .cnts] s (execTask c s) := by
  unfold execTask
  repeat' first
    | exact rfl
    | with_unfolding_none first
        | apply KeepsIn.refl | apply ResK.next | assumption | intro _ | apply KeepsIn.ite
        | apply KeepsIn.andThen (takeTask_k ?_ ?_ ..) | apply KeepsIn.after (userTask_k ..)
    | dsimp only | split

theorem taskEnd_k {m : List Part} {f : Entry → State → State}
    (hm : subParts [.sch, .vat, .gc, .host, .mem, .mgmt, .pages, .regs, .cnts] m = true) (hf : ∀ x0 x1, KeepsIn m x1 (f x0 x1)) (c : Nat) (acts : List TaskAct) (s : State) :
    KeepsIn m s (taskEnd c acts f s) := by
  unfold taskEnd
  repeat' first
    | exact rfl | exact subParts_trans rfl hm
    | with_unfolding_none first
        | apply KeepsIn.refl | assumption | intro _ | apply KeepsIn.ite | apply KeepsIn.andThen (hf ..)
        | apply KeepsIn.after (taskActs_k ..) | apply KeepsIn.after (coreFree_k ..)
    | dsimp only | split

theorem retContent_k (e : Entry) (s : State) : KeepsIn [.vat] s (retContent e s) := by
  unfold retContent
  repeat' first
    | exact rfl
    | with_unfolding_none first
        | apply KeepsIn.refl | assumption | intro _ | apply KeepsIn.ite | apply KeepsIn.after (putWave_k ..)
    | dsimp only | split

theorem execTaskReturn_k (c : Core) (a0 : BitVec 64) (acts : List TaskAct) (s : State) :
    ResK [.sch, .vat, .gc, .host, .mem, .mgmt, .pages, .regs, .cnts] s (execTaskReturn c a0 acts s) := by
  unfold execTaskReturn
  repeat' first
    | exact rfl
    | with_unfolding_none first
        | apply KeepsIn.refl | apply ResK.next | assumption | intro _ | apply KeepsIn.ite
        | apply KeepsIn.andThen (taskEnd_k ?_ ?_ ..) | apply KeepsIn.after (setWork_k ..)
        | apply KeepsIn.after (retContent_k ..) | apply KeepsIn.after (faultOp_k ..) | apply KeepsIn.after (raiseEv_k ..)
    | dsimp only | split

theorem execTaskTrap_k (c : Core) (mcause mepc : BitVec 64) (acts : List TaskAct) (s : State) :
    ResK [.sch, .vat, .gc, .host, .mem, .mgmt, .pages, .regs, .cnts] s (execTaskTrap c mcause mepc acts s) := by
  unfold execTaskTrap
  repeat' first
    | exact rfl
    | with_unfolding_none first
        | apply KeepsIn.refl | apply ResK.next | assumption | intro _ | apply KeepsIn.ite
        | apply KeepsIn.andThen (taskEnd_k ?_ ?_ ..) | apply KeepsIn.after (faultOp_k ..)
        | apply KeepsIn.after (raiseCap_k ..)
    | dsimp only | split

theorem execTaskTimeout_k (c : Core) (acts : List TaskAct) (s : State) :
    ResK [.sch, .vat, .gc, .host, .mem, .mgmt, .pages, .regs, .cnts] s (execTaskTimeout c acts s) := by
  unfold execTaskTimeout
  repeat' first
    | exact rfl
    | with_unfolding_none first
        | apply KeepsIn.refl | apply ResK.next | assumption | intro _ | apply KeepsIn.ite
        | apply KeepsIn.after (taskActs_k ..) | apply KeepsIn.after (faultOp_k ..) | apply KeepsIn.after (raiseEv_k ..)
        | apply KeepsIn.after (coreFree_k ..)
    | dsimp only | split

theorem execWaitGo_k (c : Core) (idx val : Word) (s : State) :
    ResK [.sch, .gc, .host, .mem, .mgmt, .pages, .cnts] s (execWaitGo c idx val s) := by
  unfold execWaitGo
  repeat' first
    | exact rfl
    | with_unfolding_none first
        | apply KeepsIn.refl | apply ResK.next | assumption | intro _ | apply KeepsIn.ite
        | apply KeepsIn.after (coreLoadOp_k ..) | apply KeepsIn.after (updCore_k ..)
    | dsimp only | split

theorem execWaitGoRelease_k (c : Core) (s : State) : ResK [.gc] s (execWaitGoRelease c s) := by
  unfold execWaitGoRelease
  repeat' first
    | exact rfl
    | with_unfolding_none first
        | apply KeepsIn.refl | apply ResK.next | assumption | intro _ | apply KeepsIn.ite
        | apply KeepsIn.after (updCore_k ..) | apply KeepsIn.after (State.emit_k ..)
    | dsimp only | split

theorem execExceptionHandler_k (c : Core) (s : State) :
    ResK [.sch, .gc, .host, .mgmt, .pages, .cnts] s (execExceptionHandler c s) := by
  unfold execExceptionHandler
  repeat' first
    | exact rfl
    | with_unfolding_none first
        | apply KeepsIn.refl | apply ResK.next | assumption | intro _ | apply KeepsIn.ite | apply KeepsIn.forAll
        | apply KeepsIn.after (State.updGc_k ..) | apply KeepsIn.after (submitCore_k ..)
    | dsimp only | split

theorem builtinTrap_k (c : Nat) (e : Entry) (s : State) :
    KeepsIn [.sch, .host, .mgmt, .pages, .cnts] s (builtinTrap c e s) := by
  unfold builtinTrap
  repeat' first
    | exact rfl
    | with_unfolding_none first
        | apply KeepsIn.refl | assumption | intro _ | apply KeepsIn.ite | apply KeepsIn.after (State.draw_k ..)
        | apply KeepsIn.after (faultOp_k ..) | apply KeepsIn.after (raiseCap_k ..)
    | dsimp only | split

theorem withReam_k {m : List Part} {f : List Byte → PlReam → State → State}
    (hm : subParts [.sch, .host, .mem, .mgmt, .pages, .cnts] m = true) (hf : ∀ x0 x1 x2, KeepsIn m x2 (f x0 x1 x2)) (c : Nat) (e : Entry) (s : State) :
    KeepsIn m s (withReam c e f s) := by
  unfold withReam
  repeat' first
    | exact rfl | exact subParts_trans rfl hm
    | with_unfolding_none first
        | apply KeepsIn.refl | assumption | intro _ | apply KeepsIn.ite | apply KeepsIn.andThen (hf ..)
        | apply KeepsIn.after (builtinTrap_k ..) | apply KeepsIn.after (faultOp_k ..) | apply KeepsIn.after (reportHbm_k ..)
    | dsimp only | split

theorem planOp_k (c : Nat) (e : Entry) (s : State) :
    KeepsIn [.sch, .gc, .ring, .outer, .host, .mem, .mgmt, .pages, .regs, .cnts] s (planOp c e s) := by
  unfold planOp
  repeat' first
    | exact rfl
    | with_unfolding_none first
        | apply KeepsIn.refl | assumption | intro _ | apply KeepsIn.ite | apply KeepsIn.forAll
        | apply KeepsIn.andThen (withReam_k ?_ ?_ ..) | apply KeepsIn.after (planRound_k ..)
        | apply KeepsIn.after (coreTake_k ..) | apply KeepsIn.after (submitCore_k ..) | apply KeepsIn.after (coreDone_k ..)
    | dsimp only | split

theorem execPlan_k (c : Core) (s : State) :
    ResK [.sch, .gc, .ring, .outer, .host, .mem, .mgmt, .pages, .regs, .cnts] s (execPlan c s) := by
  unfold execPlan
  repeat' first
    | exact rfl
    | with_unfolding_none first
        | apply KeepsIn.refl | apply ResK.next | assumption | intro _ | apply KeepsIn.ite
        | apply KeepsIn.andThen (takeTask_k ?_ ?_ ..) | apply KeepsIn.after (planOp_k ..)
    | dsimp only | split

theorem builtinDone_k (c : Nat) (e : Entry) (s : State) : KeepsIn [.sch, .gc] s (builtinDone c e s) := by
  unfold builtinDone
  repeat' first
    | exact rfl
    | with_unfolding_none first
        | apply KeepsIn.refl | assumption | intro _ | apply KeepsIn.ite | apply KeepsIn.after (coreDone_k ..)
        | apply KeepsIn.after (coreTake_k ..)
    | dsimp only | split

theorem floorOp_k (c : Nat) (e : Entry) (s : State) : KeepsIn [.sch, .gc, .regs] s (floorOp c e s) := by
  unfold floorOp
  repeat' first
    | exact rfl
    | with_unfolding_none first
        | apply KeepsIn.refl | assumption | intro _ | apply KeepsIn.ite | apply KeepsIn.after (builtinDone_k ..)
        | apply KeepsIn.after (State.setReg_k ..)
    | dsimp only | split

theorem execFloor_k (c : Core) (s : State) : ResK [.sch, .gc, .regs] s (execFloor c s) := by
  unfold execFloor
  repeat' first
    | exact rfl
    | with_unfolding_none first
        | apply KeepsIn.refl | apply ResK.next | assumption | intro _ | apply KeepsIn.ite
        | apply KeepsIn.andThen (takeTask_k ?_ ?_ ..) | apply KeepsIn.after (floorOp_k ..)
    | dsimp only | split

theorem statsOp_k (c : Nat) (e : Entry) (s : State) :
    KeepsIn [.sch, .gc, .outer, .host, .mem, .mgmt, .pages, .cnts] s (statsOp c e s) := by
  unfold statsOp
  repeat' first
    | exact rfl
    | with_unfolding_none first
        | apply KeepsIn.refl | assumption | intro _ | apply KeepsIn.ite | apply KeepsIn.andThen (withReam_k ?_ ?_ ..)
        | apply KeepsIn.after (builtinDone_k ..) | apply KeepsIn.after (bump_k ..) | apply KeepsIn.after (hbmWrite_k ..)
        | apply KeepsIn.after (State.updOuter_k ..)
    | dsimp only | split

theorem execStats_k (c : Core) (s : State) :
    ResK [.sch, .gc, .outer, .host, .mem, .mgmt, .pages, .cnts] s (execStats c s) := by
  unfold execStats
  repeat' first
    | exact rfl
    | with_unfolding_none first
        | apply KeepsIn.refl | apply ResK.next | assumption | intro _ | apply KeepsIn.ite
        | apply KeepsIn.andThen (takeTask_k ?_ ?_ ..) | apply KeepsIn.after (statsOp_k ..)
    | dsimp only | split

theorem mergeSnapOp_k (c : Nat) (e : Entry) (s : State) :
    KeepsIn [.sch, .gc, .host, .mem, .mgmt, .pages, .cnts] s (mergeSnapOp c e s) := by
  unfold mergeSnapOp
  repeat' first
    | exact rfl
    | with_unfolding_none first
        | apply KeepsIn.refl | assumption | intro _ | apply KeepsIn.ite | apply KeepsIn.andThen (withReam_k ?_ ?_ ..)
        | apply KeepsIn.after (builtinDone_k ..) | apply KeepsIn.after (hbmWrite_k ..)
        | apply KeepsIn.after (builtinTrap_k ..)
    | dsimp only | split

theorem execMergeSnap_k (c : Core) (s : State) :
    ResK [.sch, .gc, .host, .mem, .mgmt, .pages, .cnts] s (execMergeSnap c s) := by
  unfold execMergeSnap
  repeat' first
    | exact rfl
    | with_unfolding_none first
        | apply KeepsIn.refl | apply ResK.next | assumption | intro _ | apply KeepsIn.ite
        | apply KeepsIn.andThen (takeTask_k ?_ ?_ ..) | apply KeepsIn.after (mergeSnapOp_k ..)
    | dsimp only | split

theorem mergeDrop_k (j r : Nat) (s : State) : KeepsIn [.outer, .host, .mgmt, .pages, .cnts] s (mergeDrop j r s) := by
  unfold mergeDrop
  repeat' first
    | exact rfl
    | with_unfolding_none first
        | apply KeepsIn.refl | assumption | intro _ | apply KeepsIn.ite | apply KeepsIn.after (raiseEv_k ..)
        | apply KeepsIn.after (State.updOuter_k ..)
    | dsimp only | split

theorem mergeFormOp_k (c : Nat) (e : Entry) (s : State) :
    KeepsIn [.sch, .gc, .outer, .host, .mem, .mgmt, .pages, .cnts] s (mergeFormOp c e s) := by
  unfold mergeFormOp
  repeat' first
    | exact rfl
    | with_unfolding_none first
        | apply KeepsIn.refl | assumption | intro _ | apply KeepsIn.ite | apply KeepsIn.andThen (withReam_k ?_ ?_ ..)
        | apply KeepsIn.after (builtinDone_k ..) | apply KeepsIn.after (mergeDrop_k ..) | apply KeepsIn.after (hbmWrite_k ..)
        | apply KeepsIn.after (State.updOuter_k ..) | apply KeepsIn.after (builtinTrap_k ..)
    | dsimp only | split

theorem execMergeForm_k (c : Core) (s : State) :
    ResK [.sch, .gc, .outer, .host, .mem, .mgmt, .pages, .cnts] s (execMergeForm c s) := by
  unfold execMergeForm
  repeat' first
    | exact rfl
    | with_unfolding_none first
        | apply KeepsIn.refl | apply ResK.next | assumption | intro _ | apply KeepsIn.ite
        | apply KeepsIn.andThen (takeTask_k ?_ ?_ ..) | apply KeepsIn.after (mergeFormOp_k ..)
    | dsimp only | split

theorem mergeAddEl_k (j : Nat) (w : Wave) (mg e : Nat) (s : State) :
    KeepsIn [.vat, .host, .mgmt, .pages, .cnts] s (mergeAddEl j w mg e s) := by
  unfold mergeAddEl
  repeat' first
    | exact rfl
    | with_unfolding_none first
        | apply KeepsIn.refl | assumption | intro _ | apply KeepsIn.ite | apply KeepsIn.after (State.draw_k ..)
        | apply KeepsIn.after (setAcc_k ..) | apply KeepsIn.after (raiseCap_k ..)
    | dsimp only | split

theorem mergeSettle_k (j r : Nat) (p : PlReam) (s : State) :
    KeepsIn [.outer, .host, .mem, .mgmt, .pages, .cnts] s (mergeSettle j r p s) := by
  unfold mergeSettle
  repeat' first
    | exact rfl
    | with_unfolding_none first
        | apply KeepsIn.refl | assumption | intro _ | apply KeepsIn.ite | apply KeepsIn.after (State.updOuter_k ..)
        | apply KeepsIn.after (hbmWrite_k ..) | apply KeepsIn.after (raiseEv_k ..)
    | dsimp only | split

theorem mergeAddOp_k (c : Nat) (e : Entry) (s : State) :
    KeepsIn [.sch, .vat, .gc, .outer, .host, .mem, .mgmt, .pages, .cnts] s (mergeAddOp c e s) := by
  unfold mergeAddOp
  repeat' first
    | exact rfl
    | with_unfolding_none first
        | apply KeepsIn.refl | assumption | intro _ | apply KeepsIn.ite | apply KeepsIn.forAll
        | apply KeepsIn.after (faultOp_k ..) | apply KeepsIn.after (poisonFault_k ..)
        | apply KeepsIn.andThen (withReam_k ?_ ?_ ..) | apply KeepsIn.after (builtinTrap_k ..)
        | apply KeepsIn.after (builtinDone_k ..) | apply KeepsIn.after (mergeSettle_k ..)
        | apply KeepsIn.after (mergeAddEl_k ..)
    | dsimp only | split

theorem execMergeAdd_k (c : Core) (s : State) :
    ResK [.sch, .vat, .gc, .outer, .host, .mem, .mgmt, .pages, .cnts] s (execMergeAdd c s) := by
  unfold execMergeAdd
  repeat' first
    | exact rfl
    | with_unfolding_none first
        | apply KeepsIn.refl | apply ResK.next | assumption | intro _ | apply KeepsIn.ite
        | apply KeepsIn.andThen (takeTask_k ?_ ?_ ..) | apply KeepsIn.after (mergeAddOp_k ..)
    | dsimp only | split

theorem hbmRangeWr_k (j : Nat) (base : DWord) (size : Word) (s : State) : EffK [.mem, .regs] s (hbmRangeWr j base size s) := by
  unfold hbmRangeWr
  dsimp only
  refine EffK.ite (EffK.error _) (EffK.ite (EffK.error _) (EffK.ok ?_))
  have h0 : KeepsIn [.mem, .regs] s (store (pgGC 0) (0x20C + 0x20 * j) 0 size (storePair (pgGC 0) (0x204 + 0x20 * j) 0 base s)) :=
    KeepsIn.after (store_k ..) rfl (KeepsIn.after (storePair_k ..) rfl (KeepsIn.refl _))
  refine KeepsIn.ite h0 ?_
  generalize store _ _ _ _ _ = t at h0
  exact KeepsIn.step h0 (State.updMem_wf_k _ t (fun h => SMap.wf_keep h fun a _ =>
    !(base.toNat / 2 ^ 26 * 2 ^ 26 ≤ a && a < base.toNat / 2 ^ 26 * 2 ^ 26 + fld size 0 13 * 2 ^ 26) ||
      (s.hbmBase j ≤ a && a < s.hbmBase j + s.hbmSize j)) id) rfl


theorem shmWr_k (d j : Nat) (v : Word) (s : State) : EffK [.regs] s (shmWr d j v s) := by
  unfold shmWr
  repeat' first
    | exact rfl
    | with_unfolding_none first
        | apply KeepsIn.refl | apply EffK.ok | apply EffK.error | apply EffK.ite | assumption | intro _ | apply KeepsIn.ite
        | apply KeepsIn.after (store_k ..) | apply EffK.map
    | dsimp only | split

theorem gcEffect_k (p o ix : Nat) (v : DWord) (s : State) : EffK [.mem, .regs] s (gcEffect p o ix v s) := by
  unfold gcEffect
  repeat' first
    | exact rfl
    | with_unfolding_none first
        | apply KeepsIn.refl | apply EffK.ok | apply EffK.error | apply EffK.ite | assumption | intro _ | apply KeepsIn.ite
        | apply KeepsIn.after (store_k ..) | apply EffK.after (shmWr_k ..)
        | apply KeepsIn.after (EffK.get (shmWr_k ..) (by assumption)) | apply EffK.after (hbmRangeWr_k ..)
        | apply KeepsIn.after (EffK.get (hbmRangeWr_k ..) (by assumption)) | apply EffK.map
    | dsimp only | split

end Sys2Proof.Machine
end

