-- ==== Sys2Proof/Laws/Keeps/Outer.lean ====
section
/-! SUPPORT. What the operations and commands of Machine/Outer.lean keep, and the parts they may change. -/
namespace Sys2Proof.Machine

open Sys2Proof

set_option linter.all false

theorem rootTask_k (j : Nat) (task arg : Nat) (r : Nat) (s : State) :
    KeepsIn [.sch, .gc, .host, .mgmt, .pages, .cnts] s (rootTask j task arg r s) := by
  unfold rootTask
  repeat' first
    | exact rfl
    | with_unfolding_none first
        | apply KeepsIn.refl | assumption | intro _ | apply KeepsIn.ite | apply KeepsIn.after (submitCore_k ..)
    | dsimp only | split

theorem planFirst_k (j : Nat) (s : State) : KeepsIn [.sch, .gc, .outer, .host, .mgmt, .pages, .cnts] s (planFirst j s) := by
  unfold planFirst
  repeat' first
    | exact rfl
    | with_unfolding_none first
        | apply KeepsIn.refl | assumption | intro _ | apply KeepsIn.ite | apply KeepsIn.forAll
        | apply KeepsIn.after (rootTask_k ..) | apply KeepsIn.after (State.updOuter_k ..)
    | dsimp only | split

theorem execSetupAnswer_k (g : Fin 64) (next ok : Bool) (s : State) :
    ResK [.sch, .gc, .ring, .outer, .line, .host, .mgmt, .pages, .cnts] s (execSetupAnswer g next ok s) := by
  unfold execSetupAnswer
  repeat' first
    | exact rfl
    | with_unfolding_none first
        | apply KeepsIn.refl | apply ResK.next | assumption | intro _ | apply KeepsIn.ite
        | apply KeepsIn.after (refuseSetup_k ..) | apply KeepsIn.after (updGrp_k ..) | apply KeepsIn.after (planFirst_k ..)
        | apply KeepsIn.after (setGates_k ..) | apply KeepsIn.after (rttCheck_k ..)
    | dsimp only | split

theorem outerFresh_k (j : Nat) (s : State) : KeepsIn [.vat, .eng, .outer] s (outerFresh j s) := by
  unfold outerFresh
  repeat' first
    | exact rfl
    | with_unfolding_none first
        | apply KeepsIn.refl | assumption | intro _ | apply KeepsIn.ite | apply KeepsIn.after (State.updOuter_k ..)
        | apply KeepsIn.after (State.updEng_k ..) | apply KeepsIn.after (State.updVat_k ..)
    | dsimp only | split

theorem outerCtlWr_k (j : Nat) (v : Word) (s : State) :
    EffK [.sch, .vat, .eng, .gc, .outer, .host, .mgmt, .pages, .regs, .cnts] s (outerCtlWr j v s) := by
  unfold outerCtlWr
  repeat' first
    | exact rfl
    | with_unfolding_none first
        | apply KeepsIn.refl | apply EffK.ok | apply EffK.error | apply EffK.ite | assumption | intro _ | apply KeepsIn.ite
        | apply KeepsIn.after (planFirst_k ..) | apply KeepsIn.after (store_k ..) | apply KeepsIn.after (outerFresh_k ..)
        | apply KeepsIn.after (State.updOuter_k ..) | apply EffK.map
    | dsimp only | split

theorem outerRefused_k (j : Nat) (s : State) : KeepsIn [.outer] s (outerRefused j s) := by
  unfold outerRefused
  repeat' first
    | exact rfl
    | with_unfolding_none first
        | apply KeepsIn.refl | assumption | intro _ | apply KeepsIn.ite | apply KeepsIn.after (State.updOuter_k ..)
    | dsimp only | split

theorem outerEffect_k (p o ix : Nat) (v : DWord) (s : State) :
    EffK [.sch, .vat, .eng, .gc, .outer, .line, .host, .pool, .mem, .mgmt, .pages, .regs, .cnts] s (outerEffect p o ix v s) := by
  unfold outerEffect
  repeat' first
    | exact rfl
    | with_unfolding_none first
        | apply KeepsIn.refl | apply EffK.ok | apply EffK.error | apply EffK.ite | assumption | intro _ | apply KeepsIn.ite
        | apply EffK.after (scCtlWr_k ..) | apply KeepsIn.after (EffK.get (scCtlWr_k ..) (by assumption))
        | apply KeepsIn.after (State.draw_k ..) | apply KeepsIn.after (storePair_k ..) | apply KeepsIn.after (store_k ..)
        | apply EffK.after (outerCtlWr_k ..) | apply KeepsIn.after (EffK.get (outerCtlWr_k ..) (by assumption))
        | apply EffK.map
    | dsimp only | split

theorem execRefetchReplacement_k (cw : CwId) (i : Nat) (sheet : List Byte) (s : State) :
    ResK [.sch, .vat, .gc, .sheet, .ring, .outer, .fab, .line, .ciph, .host, .pool, .mem, .mgmt, .pages, .cnts] s (execRefetchReplacement cw i sheet s) := by
  unfold execRefetchReplacement
  repeat' first
    | exact rfl
    | with_unfolding_none first
        | apply KeepsIn.refl | apply ResK.next | assumption | intro _ | apply KeepsIn.ite
        | apply KeepsIn.after (strmReplace_k ..) | apply KeepsIn.after (answered_k ..) | apply KeepsIn.after (lateSheet_k ..)
        | apply KeepsIn.after (fwdReplace_k ..) | apply KeepsIn.after (replaceSheet_k ..)
    | dsimp only | split

end Sys2Proof.Machine
end

