-- ==== Sys2Proof/Laws/Keeps/TimeOps.lean ====
section
/-! SUPPORT. What the operations and commands of Machine/TimeOps.lean keep, and the parts they may change. -/
namespace Sys2Proof.Machine

open Sys2Proof

set_option linter.all false

theorem tick_k (s : State) : KeepsIn [.fab, .time] s (tick s) := by
  unfold tick
  repeat' first
    | exact rfl
    | with_unfolding_none first
        | apply KeepsIn.refl | assumption | intro _ | apply KeepsIn.ite | apply KeepsIn.after (State.updTime_k ..)
        | apply KeepsIn.after (State.updFab_k ..)
    | dsimp only | split

theorem pushStamp_k (tsid src : Nat) (s : State) : KeepsIn [.host, .time, .mgmt, .pages, .cnts] s (pushStamp tsid src s) := by
  unfold pushStamp
  repeat' first
    | exact rfl
    | with_unfolding_none first
        | apply KeepsIn.refl | assumption | intro _ | apply KeepsIn.ite | apply KeepsIn.after (raiseEv_k ..)
        | apply KeepsIn.after (State.updTime_k ..)
    | dsimp only | split

theorem setLaunches_k (m : Nat) (l : List Launch) (s : State) : KeepsIn [.time] s (setLaunches m l s) := by
  unfold setLaunches
  repeat' first
    | exact rfl
    | with_unfolding_none first
        | apply KeepsIn.refl | assumption | intro _ | apply KeepsIn.ite | apply KeepsIn.after (State.updTime_k ..)
    | dsimp only | split

theorem launchEnd_k (x : Launch) (status : Nat) (s : State) : KeepsIn [.host] s (launchEnd x status s) := by
  unfold launchEnd
  repeat' first
    | exact rfl
    | with_unfolding_none first
        | apply KeepsIn.refl | assumption | intro _ | apply KeepsIn.ite | apply KeepsIn.after (pushRec_k ..)
    | dsimp only | split

theorem launchMiss_k (x : Launch) (s : State) : KeepsIn [.host, .mgmt, .pages, .cnts] s (launchMiss x s) := by
  unfold launchMiss
  repeat' first
    | exact rfl
    | with_unfolding_none first
        | apply KeepsIn.refl | assumption | intro _ | apply KeepsIn.ite | apply KeepsIn.after (launchEnd_k ..)
        | apply KeepsIn.after (raiseEv_k ..)
    | dsimp only | split

theorem dropLaunches_k (m : Nat) (s : State) : KeepsIn [.host, .time, .mgmt, .pages, .cnts] s (dropLaunches m s) := by
  unfold dropLaunches
  repeat' first
    | exact rfl
    | with_unfolding_none first
        | apply KeepsIn.refl | assumption | intro _ | apply KeepsIn.ite | apply KeepsIn.forAll
        | apply KeepsIn.after (launchMiss_k ..) | apply KeepsIn.after (setLaunches_k ..)
    | dsimp only | split

end Sys2Proof.Machine
end

