-- ==== Sys2Proof/Laws/Keeps/Host.lean ====
section
/-! SUPPORT. What the operations and commands of Machine/Host.lean keep, and the parts they may change. -/
namespace Sys2Proof.Machine

open Sys2Proof

set_option linter.all false

theorem dmaRejected_k (f : Nat) (s : State) : KeepsIn [.host, .mgmt, .pages, .cnts] s (dmaRejected f s) := by
  unfold dmaRejected
  repeat' first
    | exact rfl
    | with_unfolding_none first
        | apply KeepsIn.refl | assumption | intro _ | apply KeepsIn.ite | apply KeepsIn.after (raiseEv_k ..)
        | apply KeepsIn.after (State.draw_k ..) | apply KeepsIn.after (bump_k ..)
    | dsimp only | split

theorem hostDma_k (f addr : Nat) (data : List Byte) (relaxed rejected : Bool) (s : State) :
    KeepsIn [.host, .mgmt, .pages, .cnts] s (hostDma f addr data relaxed rejected s) := by
  unfold hostDma
  repeat' first
    | exact rfl
    | with_unfolding_none first
        | apply KeepsIn.refl | assumption | intro _ | apply KeepsIn.ite | apply KeepsIn.after (dmaRejected_k ..)
        | apply KeepsIn.after (State.emit_k ..)
    | dsimp only | split

theorem quiesceOps_k (j : Nat) (s : State) :
    KeepsIn [.sch, .vat, .eng, .gc, .sheet, .ring, .fab, .line, .host, .pool, .mem, .mgmt, .pages, .cnts] s (quiesceOps j s) := by
  unfold quiesceOps
  repeat' first
    | exact rfl
    | with_unfolding_none first
        | apply KeepsIn.refl | assumption | intro _ | apply KeepsIn.ite | apply KeepsIn.forAll
        | apply KeepsIn.after (stopEntry_k ..) | apply KeepsIn.after (coreFree_k ..)
    | dsimp only | split

theorem quiesceUnits_k (j : Job) (s : State) :
    KeepsIn [.vat, .eng, .gc, .sheet, .ring, .fab, .line, .host, .pool, .mem, .mgmt, .pages, .cnts] s (quiesceUnits j s) := by
  unfold quiesceUnits
  repeat' first
    | exact rfl
    | with_unfolding_none first
        | apply KeepsIn.refl | assumption | intro _ | apply KeepsIn.ite | apply KeepsIn.forAll
        | apply KeepsIn.after (waveRelease_k ..) | apply KeepsIn.after (State.updEng_k ..)
        | apply KeepsIn.after (State.updSheet_k ..) | apply KeepsIn.after (State.updVat_k ..)
        | apply KeepsIn.after (poolReleaseJob_k ..) | apply KeepsIn.after (State.updMgmt_k ..)
    | dsimp only | split

theorem quiesceZero_k (j : Nat) (s : State) : KeepsIn [.sch, .vat, .eng, .outer, .regs] s (quiesceZero j s) := by
  unfold quiesceZero
  repeat' first
    | exact rfl
    | with_unfolding_none first
        | apply KeepsIn.refl | assumption | intro _ | apply KeepsIn.ite | apply KeepsIn.after (State.updSch_k ..)
        | apply KeepsIn.after (outerFresh_k ..) | apply KeepsIn.after (State.setReg_k ..)
        | apply KeepsIn.after (State.updOuter_k ..)
    | dsimp only | split

theorem quiesceJob_k (j : Job) (s : State) :
    KeepsIn [.sch, .vat, .eng, .gc, .sheet, .ring, .outer, .fab, .line, .host, .pool, .mem, .mgmt, .pages, .regs, .cnts] s (quiesceJob j s).2 := by
  unfold quiesceJob
  repeat' first
    | exact rfl
    | with_unfolding_none first
        | apply KeepsIn.refl | assumption | intro _ | apply KeepsIn.ite | apply KeepsIn.after (State.setJobSt_k ..)
        | apply KeepsIn.after (retryCores_k ..) | apply KeepsIn.after (quiesceZero_k ..)
        | apply KeepsIn.after (quiesceUnits_k ..) | apply KeepsIn.after (quiesceOps_k ..)
        | apply KeepsIn.after (raiseEv_k ..)
    | dsimp only | split

theorem quiesceJobs_k (js : List Job) (s : State) :
    KeepsIn [.sch, .vat, .eng, .gc, .sheet, .ring, .outer, .fab, .line, .host, .pool, .mem, .mgmt, .pages, .regs, .cnts] s (quiesceJobs js s) := by
  unfold quiesceJobs
  repeat' first
    | exact rfl
    | with_unfolding_none first
        | apply KeepsIn.refl | assumption | intro _ | apply KeepsIn.ite | apply KeepsIn.forAll
        | apply KeepsIn.after (quiesceJob_k ..)
    | dsimp only | split

theorem hostFReset_k (f : Nat) (s : State) : KeepsIn [.pages, .regs, .cnts, .snaps, .halves] s (hostFReset f s) :=
  KeepsIn.pageReset s (pgHOSTF f) (fun k => decide (k / 0x10000000 ≠ pgHOSTF f)) (fun k => decide (k / 0x1000 ≠ pgHOSTF f))
    (fun k => decide (k / 0x1000 ≠ pgHOSTF f)) _ _


theorem dropWork_k (f : Nat) (s : State) : KeepsIn [.host, .pool, .mem, .time, .mgmt, .pages, .cnts] s (dropWork f s) := by
  unfold dropWork
  repeat' first
    | exact rfl
    | with_unfolding_none first
        | apply KeepsIn.refl | assumption | intro _ | apply KeepsIn.ite | apply KeepsIn.forAll
        | apply KeepsIn.after (poolRelease_k ..) | apply KeepsIn.after (State.updTime_k ..)
        | apply KeepsIn.after (State.updHost_k ..) | apply KeepsIn.after (State.updFn_k ..)
    | dsimp only | split

theorem flrOp_k (f : Nat) (s : State) :
    KeepsIn [.sch, .vat, .eng, .gc, .sheet, .ring, .outer, .fab, .line, .host, .pool, .mem, .time, .mgmt, .pages, .regs, .cnts, .snaps, .halves] s (flrOp f s) := by
  unfold flrOp
  repeat' first
    | exact rfl
    | with_unfolding_none first
        | apply KeepsIn.refl | assumption | intro _ | apply KeepsIn.ite | apply KeepsIn.after (hostFReset_k ..)
        | apply KeepsIn.after (dropWork_k ..) | apply KeepsIn.after (quiesceJobs_k ..) | apply KeepsIn.after (raiseEv_k ..)
        | apply KeepsIn.after (State.updSch_k ..)
    | dsimp only | split

theorem execFlr_k (f : Func) (s : State) :
    ResK [.sch, .vat, .eng, .gc, .sheet, .ring, .outer, .fab, .line, .host, .pool, .mem, .time, .mgmt, .pages, .regs, .cnts, .snaps, .halves] s (execFlr f s) := by
  unfold execFlr
  repeat' first
    | exact rfl
    | with_unfolding_none first
        | apply KeepsIn.refl | apply ResK.next | assumption | intro _ | apply KeepsIn.ite | apply KeepsIn.after (flrOp_k ..)
    | dsimp only | split

theorem linkDown_k (p : Nat) (s : State) :
    KeepsIn [.sch, .vat, .eng, .gc, .sheet, .ring, .outer, .fab, .line, .host, .pool, .mem, .time, .mgmt, .pages, .regs, .cnts, .snaps, .halves] s (linkDown p s) := by
  unfold linkDown
  repeat' first
    | exact rfl
    | with_unfolding_none first
        | apply KeepsIn.refl | assumption | intro _ | apply KeepsIn.ite | apply KeepsIn.after (flrOp_k ..)
        | apply KeepsIn.after (State.updHost_k ..)
    | dsimp only | split

theorem execPcieLinkDown_k (p : Port) (s : State) :
    ResK [.sch, .vat, .eng, .gc, .sheet, .ring, .outer, .fab, .line, .host, .pool, .mem, .time, .mgmt, .pages, .regs, .cnts, .snaps, .halves] s (execPcieLinkDown p s) := by
  unfold execPcieLinkDown
  repeat' first
    | exact rfl
    | with_unfolding_none first
        | apply KeepsIn.refl | apply ResK.next | assumption | intro _ | apply KeepsIn.ite
        | apply KeepsIn.after (linkDown_k ..)
    | dsimp only | split

theorem execPerstNAssert_k (p : Port) (s : State) :
    ResK [.sch, .vat, .eng, .gc, .sheet, .ring, .outer, .fab, .line, .host, .pool, .mem, .time, .mgmt, .pages, .regs, .cnts, .snaps, .halves] s (execPerstNAssert p s) := by
  unfold execPerstNAssert
  repeat' first
    | exact rfl
    | with_unfolding_none first
        | apply KeepsIn.refl | apply ResK.next | assumption | intro _ | apply KeepsIn.ite
        | apply KeepsIn.after (linkDown_k ..)
    | dsimp only | split

theorem execVfDisable_k (p : Port) (numVfs : Fin 16) (s : State) :
    ResK [.sch, .vat, .eng, .gc, .sheet, .ring, .outer, .fab, .line, .host, .pool, .mem, .mgmt, .pages, .regs, .cnts] s (execVfDisable p numVfs s) := by
  unfold execVfDisable
  repeat' first
    | exact rfl
    | with_unfolding_none first
        | apply KeepsIn.refl | apply ResK.next | assumption | intro _ | apply KeepsIn.ite | apply KeepsIn.foldl'
        | apply KeepsIn.foldlP (st := Prod.snd) | apply KeepsIn.foldlP (st := Prod.fst)
        | apply KeepsIn.after (quiesceJobs_k ..) | apply KeepsIn.after (State.updHost_k ..)
    | dsimp only | split

theorem updSlot_k (f sl : Nat) (g : Slot → Slot) (s : State) : KeepsIn [.host] s (updSlot f sl g s) := by
  unfold updSlot
  repeat' first
    | exact rfl
    | with_unfolding_none first
        | apply KeepsIn.refl | assumption | intro _ | apply KeepsIn.ite | apply KeepsIn.after (State.updHost_k ..)
    | dsimp only | split

theorem pktRec_k (f sl : Nat) (h : PktHdr) (status : Nat) (result : DWord) (detail : Word) (s : State) :
    KeepsIn [.host, .mgmt, .pages, .cnts] s (pktRec f sl h status result detail s) := by
  unfold pktRec
  repeat' first
    | exact rfl
    | with_unfolding_none first
        | apply KeepsIn.refl | assumption | intro _ | apply KeepsIn.ite | apply KeepsIn.after (pushRec_k ..)
        | apply KeepsIn.after (raiseEv_k ..) | apply KeepsIn.after (bump_k ..)
    | dsimp only | split

theorem takePkt_k (f sl : Nat) (h : PktHdr) (payload : List Byte) (s : State) :
    KeepsIn [.host, .pool, .mem, .mgmt, .pages, .cnts] s (takePkt f sl h payload s) := by
  unfold takePkt
  repeat' first
    | exact rfl
    | with_unfolding_none first
        | apply KeepsIn.refl | assumption | intro _ | apply KeepsIn.ite | apply KeepsIn.after (updSlot_k ..)
        | apply KeepsIn.after (pktRec_k ..) | apply KeepsIn.after (State.updHost_k ..) | apply KeepsIn.after (poolReq_k ..)
    | dsimp only | split

theorem slotEval_k (f sl : Nat) (s : State) : KeepsIn [.host, .pool, .mem, .mgmt, .pages, .cnts] s (slotEval f sl s) := by
  unfold slotEval
  repeat' first
    | exact rfl
    | with_unfolding_none first
        | apply KeepsIn.refl | assumption | intro _ | apply KeepsIn.ite | apply KeepsIn.after (updSlot_k ..)
        | apply KeepsIn.after (takePkt_k ..)
    | dsimp only | split

theorem slotPoison_k (f sl : Nat) (s : State) : KeepsIn [.host, .mgmt, .pages, .cnts] s (slotPoison f sl s) := by
  unfold slotPoison
  repeat' first
    | exact rfl
    | with_unfolding_none first
        | apply KeepsIn.refl | assumption | intro _ | apply KeepsIn.ite | apply KeepsIn.after (pktRec_k ..)
        | apply KeepsIn.after (updSlot_k ..) | apply KeepsIn.after (State.draw_k ..)
    | dsimp only | split

theorem slotWrite_k (f sl o : Nat) (bs : List Byte) (poisoned : Bool) (s : State) :
    KeepsIn [.host, .pool, .mem, .mgmt, .pages, .cnts] s (slotWrite f sl o bs poisoned s) := by
  unfold slotWrite
  repeat' first
    | exact rfl
    | with_unfolding_none first
        | apply KeepsIn.refl | assumption | intro _ | apply KeepsIn.ite | apply KeepsIn.foldl'
        | apply KeepsIn.foldlP (st := Prod.snd) | apply KeepsIn.foldlP (st := Prod.fst) | apply KeepsIn.after (raiseEv_k ..)
        | apply KeepsIn.after (slotPoison_k ..) | apply KeepsIn.after (slotEval_k ..) | apply KeepsIn.after (updSlot_k ..)
    | dsimp only | split

theorem headWrite_k (f off : Nat) (bs : List Byte) (poisoned : Bool) (s : State) :
    KeepsIn [.host, .pool, .mem, .mgmt, .pages, .cnts] s (headWrite f off bs poisoned s) := by
  unfold headWrite
  repeat' first
    | exact rfl
    | with_unfolding_none first
        | apply KeepsIn.refl | assumption | intro _ | apply KeepsIn.ite | apply KeepsIn.forAll
        | apply KeepsIn.after (slotWrite_k ..)
    | dsimp only | split

theorem retakeSlots_k (f : Nat) (s : State) : KeepsIn [.host, .pool, .mem, .mgmt, .pages, .cnts] s (retakeSlots f s) := by
  unfold retakeSlots
  repeat' first
    | exact rfl
    | with_unfolding_none first
        | apply KeepsIn.refl | assumption | intro _ | apply KeepsIn.ite | apply KeepsIn.forAll
        | apply KeepsIn.after (slotEval_k ..)
    | dsimp only | split

theorem pktLeave_k (k : Pkt) (s : State) : KeepsIn [.host, .pool, .mem, .mgmt, .pages, .cnts] s (pktLeave k s) := by
  unfold pktLeave
  repeat' first
    | exact rfl
    | with_unfolding_none first
        | apply KeepsIn.refl | assumption | intro _ | apply KeepsIn.ite | apply KeepsIn.after (poolRelease_k ..)
        | apply KeepsIn.after (State.updHost_k ..)
    | dsimp only | split

theorem pktEnd_k (k : Pkt) (status : Nat) (result : DWord) (detail : Word) (s : State) :
    KeepsIn [.host, .pool, .mem, .mgmt, .pages, .cnts] s (pktEnd k status result detail s) := by
  unfold pktEnd
  repeat' first
    | exact rfl
    | with_unfolding_none first
        | apply KeepsIn.refl | assumption | intro _ | apply KeepsIn.ite | apply KeepsIn.after (poolRelease_k ..)
        | apply KeepsIn.after (pktRec_k ..) | apply KeepsIn.after (State.updHost_k ..)
    | dsimp only | split

theorem pktSweep_k (f q : Nat) (s : State) : KeepsIn [.host, .pool, .mem, .mgmt, .pages, .cnts] s (pktSweep f q s) := by
  unfold pktSweep
  repeat' first
    | exact rfl
    | with_unfolding_none first
        | apply KeepsIn.refl | assumption | intro _ | apply KeepsIn.ite | apply KeepsIn.forAll
        | apply KeepsIn.after (pktEnd_k ..)
    | dsimp only | split

theorem pktRun_k {m : List Part} {body : Pkt → State → PktAns}
    (hm : subParts [.host, .pool, .mem, .mgmt, .pages, .cnts] m = true) (hf : ∀ x0 x1, KeepsIn m x1 (body x0 x1).st) (f : Func) (q : PktJob) (opcode : Nat) (s : State) :
    KeepsIn m s (pktRun f q opcode body s) := by
  unfold pktRun
  repeat' first
    | exact rfl | exact subParts_trans rfl hm
    | with_unfolding_none first
        | apply KeepsIn.refl | assumption | intro _ | apply KeepsIn.ite | apply KeepsIn.andThen (hf ..)
        | apply KeepsIn.after (State.updFn_k ..) | apply KeepsIn.after (reportHbm_k ..) | apply KeepsIn.after (pktSweep_k ..)
        | apply KeepsIn.after (pktLeave_k ..) | apply KeepsIn.after (pktEnd_k ..)
    | dsimp only | split

theorem execHostPktGap_k (f : Func) (q : PktJob) (s : State) :
    ResK [.host, .mgmt, .pages, .cnts] s (execHostPktGap f q s) := by
  unfold execHostPktGap
  repeat' first
    | exact rfl
    | with_unfolding_none first
        | apply KeepsIn.refl | apply ResK.next | assumption | intro _ | apply KeepsIn.ite
        | apply KeepsIn.after (raiseEv_k ..) | apply KeepsIn.after (State.updFn_k ..)
    | dsimp only | split

theorem recIrq_k (f : Nat) (s : State) : KeepsIn [.host] s (recIrq f s) := by
  unfold recIrq
  repeat' first
    | exact rfl
    | with_unfolding_none first
        | apply KeepsIn.refl | assumption | intro _ | apply KeepsIn.ite | apply KeepsIn.after (sendMsix_k ..)
        | apply KeepsIn.after (State.updFn_k ..)
    | dsimp only | split

theorem writeRec_k (f : Nat) (r : CRec) (rest : List CRec) (rejected : Bool) (s : State) :
    KeepsIn [.host, .pool, .mem, .mgmt, .pages, .cnts] s (writeRec f r rest rejected s) := by
  unfold writeRec
  repeat' first
    | exact rfl
    | with_unfolding_none first
        | apply KeepsIn.refl | assumption | intro _ | apply KeepsIn.ite | apply KeepsIn.whenD
        | apply KeepsIn.after (hostDma_k ..) | apply KeepsIn.after (State.updFn_k ..)
        | apply KeepsIn.after (State.updHost_k ..) | apply KeepsIn.after (retakeSlots_k ..)
        | apply KeepsIn.after (recIrq_k ..)
    | dsimp only | split

theorem execCompletionRecord_k (f : Func) (rejected : Bool) (s : State) :
    ResK [.host, .pool, .mem, .mgmt, .pages, .cnts] s (execCompletionRecord f rejected s) := by
  unfold execCompletionRecord
  repeat' first
    | exact rfl
    | with_unfolding_none first
        | apply KeepsIn.refl | apply ResK.next | assumption | intro _ | apply KeepsIn.ite
        | apply KeepsIn.after (writeRec_k ..)
    | dsimp only | split

theorem execCqIrqTimer_k (f : Func) (s : State) : ResK [.host] s (execCqIrqTimer f s) := by
  unfold execCqIrqTimer
  repeat' first
    | exact rfl
    | with_unfolding_none first
        | apply KeepsIn.refl | apply ResK.next | assumption | intro _ | apply KeepsIn.ite
        | apply KeepsIn.after (sendMsix_k ..) | apply KeepsIn.after (State.updFn_k ..)
    | dsimp only | split

theorem cqCtlWr_k (w : Who) (f : Nat) (v : Word) (s : State) : EffK [.host, .pages, .regs] s (cqCtlWr w f v s) := by
  unfold cqCtlWr
  repeat' first
    | exact rfl
    | with_unfolding_none first
        | apply KeepsIn.refl | apply EffK.ok | apply EffK.error | apply EffK.ite | assumption | intro _ | apply KeepsIn.ite
        | apply KeepsIn.after (State.setReg_k ..) | apply KeepsIn.after (refuse_k ..)
        | apply KeepsIn.after (State.updFn_k ..) | apply EffK.map
    | dsimp only | split

theorem cqHeadWr_k (f : Nat) (v : Word) (s : State) : KeepsIn [.host, .regs] s (cqHeadWr f v s) := by
  unfold cqHeadWr
  repeat' first
    | exact rfl
    | with_unfolding_none first
        | apply KeepsIn.refl | assumption | intro _ | apply KeepsIn.ite | apply KeepsIn.after (State.setReg_k ..)
        | apply KeepsIn.after (State.updFn_k ..)
    | dsimp only | split

theorem hostFEffect_k (w : Who) (f o : Nat) (v : DWord) (s : State) :
    EffK [.host, .pages, .regs] s (hostFEffect w f o v s) := by
  unfold hostFEffect
  repeat' first
    | exact rfl
    | with_unfolding_none first
        | apply KeepsIn.refl | apply EffK.ok | apply EffK.error | apply EffK.ite | assumption | intro _ | apply KeepsIn.ite
        | apply KeepsIn.after (storePair_k ..) | apply EffK.after (cqCtlWr_k ..)
        | apply KeepsIn.after (EffK.get (cqCtlWr_k ..) (by assumption)) | apply KeepsIn.after (cqHeadWr_k ..)
        | apply KeepsIn.after (store_k ..) | apply EffK.map
    | dsimp only | split

end Sys2Proof.Machine
end

