-- ==== Sys2Proof/Laws/Keeps/Fabric.lean ====
section
/-! SUPPORT. What the operations and commands of Machine/Fabric.lean keep, and the parts they may change. -/
namespace Sys2Proof.Machine

open Sys2Proof

set_option linter.all false

theorem ecnMark_k (p : VPkt) (q : Nat) (s : State) : KeepsIn [] s (ecnMark p q s).2 := by
  unfold ecnMark
  repeat' first
    | exact rfl
    | with_unfolding_none first
        | apply KeepsIn.refl | assumption | intro _ | apply KeepsIn.ite | apply KeepsIn.after (State.draw_k ..)
    | dsimp only | split

theorem rootTake_k (m : Nat) (f : Frame) (s : State) : KeepsIn [.fab, .host, .mgmt, .pages, .cnts] s (rootTake m f s) := by
  unfold rootTake
  repeat' first
    | exact rfl
    | with_unfolding_none first
        | apply KeepsIn.refl | assumption | intro _ | apply KeepsIn.ite | apply KeepsIn.after (bumpMac_k ..)
        | apply KeepsIn.after (enqueue_k ..)
    | dsimp only | split

theorem noteLeft_k (p : VPkt) (s : State) : KeepsIn [.fab] s (noteLeft p s) := by
  unfold noteLeft
  repeat' first
    | exact rfl
    | with_unfolding_none first
        | apply KeepsIn.refl | assumption | intro _ | apply KeepsIn.ite | apply KeepsIn.after (updQp_k ..)
    | dsimp only | split

theorem leave_k (p : VPkt) (q : Nat) (s : State) : KeepsIn [.fab, .host, .mem, .mgmt, .pages, .cnts] s (leave p q s) := by
  unfold leave
  repeat' first
    | exact rfl
    | with_unfolding_none first
        | apply KeepsIn.refl | assumption | intro _ | apply KeepsIn.ite | apply KeepsIn.whenD
        | apply KeepsIn.after (ecnMark_k ..) | apply KeepsIn.after (noteLeft_k ..) | apply KeepsIn.after (bumpMac_k ..)
        | apply KeepsIn.after (frameOut_k ..) | apply KeepsIn.after (rootTake_k ..) | apply KeepsIn.after (State.emit_k ..)
        | apply KeepsIn.after (pfcEval_k ..)
    | dsimp only | split

theorem sendPkt_k (p : VPkt) (s : State) : KeepsIn [.fab, .host, .mem, .mgmt, .pages, .cnts] s (sendPkt p s) := by
  unfold sendPkt
  repeat' first
    | exact rfl
    | with_unfolding_none first
        | apply KeepsIn.refl | assumption | intro _ | apply KeepsIn.ite | apply KeepsIn.after (leave_k ..)
        | apply KeepsIn.after (State.updFab_k ..)
    | dsimp only | split

theorem serveOne_k (o : Nat) (s : State) : KeepsIn [.fab, .host, .mem, .mgmt, .pages, .cnts] s (serveOne o s) := by
  unfold serveOne
  repeat' first
    | exact rfl
    | with_unfolding_none first
        | apply KeepsIn.refl | assumption | intro _ | apply KeepsIn.ite | apply KeepsIn.after (sendPkt_k ..)
        | apply KeepsIn.after (State.updFab_k ..)
    | dsimp only | split

theorem execOutputServe_k (o : Fin 31) (s : State) :
    ResK [.fab, .host, .mem, .mgmt, .pages, .cnts] s (execOutputServe o s) := by
  unfold execOutputServe
  repeat' first
    | exact rfl
    | with_unfolding_none first
        | apply KeepsIn.refl | apply ResK.next | assumption | intro _ | apply KeepsIn.ite
        | apply KeepsIn.after (fabPump_k ..) | apply KeepsIn.after (serveOne_k ..)
    | dsimp only | split

theorem qpError_k (q : Qp) (s : State) :
    KeepsIn [.sch, .vat, .fab, .host, .pool, .mem, .mgmt, .pages, .cnts] s (qpError q s) := by
  unfold qpError
  repeat' first
    | exact rfl
    | with_unfolding_none first
        | apply KeepsIn.refl | assumption | intro _ | apply KeepsIn.ite | apply KeepsIn.after (raiseMac_k ..)
        | apply KeepsIn.after (putQp_k ..) | apply KeepsIn.after (qpCutAll_k ..) | apply KeepsIn.after (scatterDrop_k ..)
    | dsimp only | split

theorem retryQp_k (q : Qp) (s : State) :
    KeepsIn [.sch, .vat, .fab, .host, .pool, .mem, .mgmt, .pages, .cnts] s (retryQp q s) := by
  unfold retryQp
  repeat' first
    | exact rfl
    | with_unfolding_none first
        | apply KeepsIn.refl | assumption | intro _ | apply KeepsIn.ite | apply KeepsIn.after (qpError_k ..)
        | apply KeepsIn.after (resendQp_k ..)
    | dsimp only | split

theorem execAckTimeout_k (qpn : BitVec 24) (s : State) :
    ResK [.sch, .vat, .fab, .host, .pool, .mem, .mgmt, .pages, .cnts] s (execAckTimeout qpn s) := by
  unfold execAckTimeout
  repeat' first
    | exact rfl
    | with_unfolding_none first
        | apply KeepsIn.refl | apply ResK.next | assumption | intro _ | apply KeepsIn.ite
        | apply KeepsIn.after (fabPump_k ..) | apply KeepsIn.after (resendQp_k ..) | apply KeepsIn.after (retryQp_k ..)
    | dsimp only | split

theorem cnpOp_k (m : Nat) (qpn : BitVec 24) (s : State) : KeepsIn [.fab, .pages, .cnts] s (cnpOp m qpn s) := by
  unfold cnpOp
  repeat' first
    | exact rfl
    | with_unfolding_none first
        | apply KeepsIn.refl | assumption | intro _ | apply KeepsIn.ite | apply KeepsIn.after (bumpMac_k ..)
        | apply KeepsIn.after (putQp_k ..)
    | dsimp only | split

theorem execCnpRx_k (qpn : BitVec 24) (s : State) : ResK [.fab, .pages, .cnts] s (execCnpRx qpn s) := by
  unfold execCnpRx
  repeat' first
    | exact rfl
    | with_unfolding_none first
        | apply KeepsIn.refl | apply ResK.next | assumption | intro _ | apply KeepsIn.ite | apply KeepsIn.after (cnpOp_k ..)
    | dsimp only | split

theorem execRateIncrease_k (qpn : BitVec 24) (s : State) : ResK [.fab] s (execRateIncrease qpn s) := by
  unfold execRateIncrease
  repeat' first
    | exact rfl
    | with_unfolding_none first
        | apply KeepsIn.refl | apply ResK.next | assumption | intro _ | apply KeepsIn.ite | apply KeepsIn.after (putQp_k ..)
    | dsimp only | split

theorem nakQp_k (m : Nat) (qpn psn : BitVec 24) (syn : Nat) (s : State) :
    KeepsIn [.fab, .pages, .cnts] s (nakQp m qpn psn syn s) := by
  unfold nakQp
  repeat' first
    | exact rfl
    | with_unfolding_none first
        | apply KeepsIn.refl | assumption | intro _ | apply KeepsIn.ite | apply KeepsIn.after (bumpMac_k ..)
        | apply KeepsIn.after (updQp_k ..)
    | dsimp only | split

theorem roceDrop_k (m row : Nat) (q : BitVec 24) (s : State) : KeepsIn [.pages, .cnts] s (roceDrop m row q s) := by
  unfold roceDrop
  repeat' first
    | exact rfl
    | with_unfolding_none first
        | apply KeepsIn.refl | assumption | intro _ | apply KeepsIn.ite | apply KeepsIn.after (captureEv_k ..)
        | apply KeepsIn.after (bumpMac_k ..)
    | dsimp only | split

theorem roceReadOp_k (m : Nat) (q : Qp) (f : Frame) (h : Reth) (s : State) :
    KeepsIn [.fab, .host, .mem, .mgmt, .pages, .cnts] s (roceReadOp m q f h s) := by
  unfold roceReadOp
  repeat' first
    | exact rfl
    | with_unfolding_none first
        | apply KeepsIn.refl | assumption | intro _ | apply KeepsIn.ite | apply KeepsIn.after (nakQp_k ..)
        | apply KeepsIn.after (winNak_k ..) | apply KeepsIn.after (reportLp_k ..) | apply KeepsIn.after (reportHbm_k ..)
        | apply KeepsIn.after (owe_k ..)
    | dsimp only | split

theorem vatWrite_k (q : Qp) (f : Frame) (s : State) :
    KeepsIn [.sch, .vat, .outer, .fab, .host, .pool, .mem, .mgmt, .pages, .cnts] s (vatWrite q f s) := by
  unfold vatWrite
  repeat' first
    | exact rfl
    | with_unfolding_none first
        | apply KeepsIn.refl | assumption | intro _ | apply KeepsIn.ite | apply KeepsIn.after (contribMore_k ..)
        | apply KeepsIn.after (bump_k ..) | apply KeepsIn.after (stepMarkOp_k ..)
        | apply KeepsIn.after (ResK.get (execStreamConsumerAck_k ..) (by assumption))
        | apply ResK.after (execStreamConsumerAck_k ..) | apply KeepsIn.after (gackOp_k ..)
        | apply KeepsIn.after (contribFirst_k ..)
    | dsimp only | split

theorem roceServe_k (m : Nat) (qpn : BitVec 24) (f : Frame) (s : State) :
    KeepsIn [.sch, .vat, .sheet, .ring, .outer, .fab, .line, .ciph, .host, .pool, .mem, .mgmt, .pages, .cnts] s (roceServe m qpn f s) := by
  unfold roceServe
  repeat' first
    | exact rfl
    | with_unfolding_none first
        | apply KeepsIn.refl | assumption | intro _ | apply KeepsIn.ite | apply KeepsIn.after (nakQp_k ..)
        | apply KeepsIn.after (putQp_k ..) | apply KeepsIn.after (scMessage_k ..) | apply KeepsIn.after (vatWrite_k ..)
        | apply KeepsIn.after (roceReadOp_k ..)
    | dsimp only | split

theorem roceTake_k (m : Nat) (q : Qp) (f : Frame) (s : State) :
    KeepsIn [.sch, .vat, .sheet, .ring, .outer, .fab, .line, .ciph, .host, .pool, .mem, .mgmt, .pages, .cnts] s (roceTake m q f s) := by
  unfold roceTake
  repeat' first
    | exact rfl
    | with_unfolding_none first
        | apply KeepsIn.refl | assumption | intro _ | apply KeepsIn.ite | apply KeepsIn.whenD
        | apply KeepsIn.after (roceServe_k ..) | apply KeepsIn.after (putQp_k ..) | apply KeepsIn.after (owe_k ..)
    | dsimp only | split

theorem cnpSend_k (m : Nat) (qpn : BitVec 24) (s : State) : KeepsIn [.fab, .pages, .cnts] s (cnpSend m qpn s) := by
  unfold cnpSend
  repeat' first
    | exact rfl
    | with_unfolding_none first
        | apply KeepsIn.refl | assumption | intro _ | apply KeepsIn.ite | apply KeepsIn.after (bumpMac_k ..)
        | apply KeepsIn.after (putQp_k ..)
    | dsimp only | split

theorem drainReord_k (m : Nat) (qpn : BitVec 24) : ∀ (n : Nat) (s : State), KeepsIn [.sch, .vat, .sheet, .ring, .outer, .fab, .line, .ciph, .host, .pool, .mem, .mgmt, .pages, .cnts] s (drainReord m qpn n s) := by
  intro n
  induction n with
  | zero =>
    intro s
    rw [drainReord]
    repeat' first
      | exact rfl
      | with_unfolding_none first
          | apply KeepsIn.refl | assumption | apply KeepsIn.ite | apply KeepsIn.after (ih ..)
          | apply KeepsIn.after (roceTake_k ..)
      | dsimp only | split
  | succ n ih =>
    intro s
    rw [drainReord]
    repeat' first
      | exact rfl
      | with_unfolding_none first
          | apply KeepsIn.refl | assumption | apply KeepsIn.ite | apply KeepsIn.after (ih ..)
          | apply KeepsIn.after (roceTake_k ..)
      | dsimp only | split

theorem roceRequest_k (m : Nat) (q : Qp) (f : Frame) (s : State) :
    KeepsIn [.sch, .vat, .sheet, .ring, .outer, .fab, .line, .ciph, .host, .pool, .mem, .mgmt, .pages, .cnts] s (roceRequest m q f s) := by
  unfold roceRequest
  repeat' first
    | exact rfl
    | with_unfolding_none first
        | apply KeepsIn.refl | assumption | intro _ | apply KeepsIn.ite | apply KeepsIn.after (nakQp_k ..)
        | apply KeepsIn.after (putQp_k ..) | apply KeepsIn.after (drainReord_k ..) | apply KeepsIn.after (roceTake_k ..)
        | apply KeepsIn.after (roceReadOp_k ..) | apply KeepsIn.after (owe_k ..) | apply KeepsIn.after (roceDrop_k ..)
    | dsimp only | split

theorem roceAnswer_k (q : Qp) (f : Frame) (s : State) :
    KeepsIn [.sch, .vat, .outer, .fab, .line, .host, .pool, .mem, .mgmt, .pages, .cnts] s (roceAnswer q f s) := by
  unfold roceAnswer
  repeat' first
    | exact rfl
    | with_unfolding_none first
        | apply KeepsIn.refl | assumption | intro _ | apply KeepsIn.ite | apply KeepsIn.after (qpAcked_k ..)
        | apply KeepsIn.after (qpError_k ..) | apply KeepsIn.after (putQp_k ..) | apply KeepsIn.after (retryQp_k ..)
    | dsimp only | split

theorem terminate_k (m : Nat) (f : Frame) (s : State) :
    KeepsIn [.sch, .vat, .sheet, .ring, .outer, .fab, .line, .ciph, .host, .pool, .mem, .mgmt, .pages, .cnts] s (terminate m f s) := by
  unfold terminate
  repeat' first
    | exact rfl
    | with_unfolding_none first
        | apply KeepsIn.refl | assumption | intro _ | apply KeepsIn.ite | apply KeepsIn.whenD
        | apply KeepsIn.after (bumpMac_k ..) | apply KeepsIn.after (roceDrop_k ..) | apply KeepsIn.after (cnpSend_k ..)
        | apply KeepsIn.after (cnpOp_k ..) | apply KeepsIn.after (roceAnswer_k ..) | apply KeepsIn.after (roceRequest_k ..)
    | dsimp only | split

theorem forwardFrame_k (m : Nat) (f : Frame) (s : State) :
    KeepsIn [.fab, .host, .mem, .mgmt, .pages, .cnts] s (forwardFrame m f s) := by
  unfold forwardFrame
  repeat' first
    | exact rfl
    | with_unfolding_none first
        | apply KeepsIn.refl | assumption | intro _ | apply KeepsIn.ite | apply KeepsIn.after (noRoute_k ..)
        | apply KeepsIn.after (leave_k ..) | apply KeepsIn.after (noteFlow_k ..) | apply KeepsIn.after (egress_k ..)
    | dsimp only | split

theorem toRoot_k (m : Nat) (f : Frame) (s : State) : KeepsIn [.fab, .host, .mgmt, .pages, .cnts] s (toRoot m f s) := by
  unfold toRoot
  repeat' first
    | exact rfl
    | with_unfolding_none first
        | apply KeepsIn.refl | assumption | intro _ | apply KeepsIn.ite | apply KeepsIn.after (enqueue_k ..)
    | dsimp only | split

theorem execFabricFrame_k (m : Mac) (f : Frame) (s : State) :
    ResK [.sch, .vat, .sheet, .ring, .outer, .fab, .line, .ciph, .host, .pool, .mem, .mgmt, .pages, .cnts] s (execFabricFrame m f s) := by
  unfold execFabricFrame
  repeat' first
    | exact rfl
    | with_unfolding_none first
        | apply KeepsIn.refl | apply ResK.next | assumption | intro _ | apply KeepsIn.ite | apply KeepsIn.after (bumpEv_k ..)
        | apply KeepsIn.after (bumpMac_k ..) | apply KeepsIn.after (mirrorFrame_k ..) | apply KeepsIn.after (capFrame_k ..)
        | apply KeepsIn.after (fabPump_k ..) | apply KeepsIn.after (terminate_k ..) | apply KeepsIn.after (toRoot_k ..)
        | apply KeepsIn.after (forwardFrame_k ..)
    | dsimp only | split

theorem unhold_k (m c : Nat) (s : State) : KeepsIn [.fab, .pages, .cnts] s (unhold m c s) := by
  unfold unhold
  repeat' first
    | exact rfl
    | with_unfolding_none first
        | apply KeepsIn.refl | assumption | intro _ | apply KeepsIn.ite | apply KeepsIn.after (bumpMac_k ..)
        | apply KeepsIn.after (State.updFab_k ..)
    | dsimp only | split

theorem execFabLinkDown_k (m : Mac) (s : State) :
    ResK [.fab, .host, .time, .mgmt, .pages, .cnts] s (execFabLinkDown m s) := by
  unfold execFabLinkDown
  repeat' first
    | exact rfl
    | with_unfolding_none first
        | apply KeepsIn.refl | apply ResK.next | assumption | intro _ | apply KeepsIn.ite | apply KeepsIn.forAll
        | apply KeepsIn.after (raiseMac_k ..) | apply KeepsIn.after (bumpMac_k ..) | apply KeepsIn.after (unhold_k ..)
        | apply KeepsIn.after (State.updFab_k ..) | apply KeepsIn.after (fabPump_k ..)
        | apply KeepsIn.after (dropLaunches_k ..) | apply KeepsIn.after (pfcEval_k ..)
    | dsimp only | split

theorem execFabLinkUp_k (m : Mac) (s : State) : ResK [.fab, .pages, .cnts] s (execFabLinkUp m s) := by
  unfold execFabLinkUp
  repeat' first
    | exact rfl
    | with_unfolding_none first
        | apply KeepsIn.refl | apply ResK.next | assumption | intro _ | apply KeepsIn.ite
        | apply KeepsIn.after (pfcEval_k ..) | apply KeepsIn.after (State.updFab_k ..)
    | dsimp only | split

theorem execPfcXoffRx_k (m : Mac) (prio : BitVec 3) (s : State) : ResK [.fab, .pages, .cnts] s (execPfcXoffRx m prio s) := by
  unfold execPfcXoffRx
  repeat' first
    | exact rfl
    | with_unfolding_none first
        | apply KeepsIn.refl | apply ResK.next | assumption | intro _ | apply KeepsIn.ite
        | apply KeepsIn.after (bumpMac_k ..) | apply KeepsIn.after (State.updFab_k ..)
    | dsimp only | split

theorem execPfcPauseEnd_k (m : Mac) (prio : BitVec 3) (s : State) :
    ResK [.fab, .pages, .cnts] s (execPfcPauseEnd m prio s) := by
  unfold execPfcPauseEnd
  repeat' first
    | exact rfl
    | with_unfolding_none first
        | apply KeepsIn.refl | apply ResK.next | assumption | intro _ | apply KeepsIn.ite | apply KeepsIn.after (unhold_k ..)
    | dsimp only | split

theorem execFabPfcLong_k (m : Mac) (prio : BitVec 3) (s : State) :
    ResK [.fab, .host, .pages, .cnts] s (execFabPfcLong m prio s) := by
  unfold execFabPfcLong
  repeat' first
    | exact rfl
    | with_unfolding_none first
        | apply KeepsIn.refl | apply ResK.next | assumption | intro _ | apply KeepsIn.ite
        | apply KeepsIn.after (raiseMac_k ..) | apply KeepsIn.after (State.updFab_k ..)
    | dsimp only | split

theorem execImbalanceWindow_k (g : Fin 16) (s : State) :
    ResK [.fab, .host, .mgmt, .pages, .cnts] s (execImbalanceWindow g s) := by
  unfold execImbalanceWindow
  repeat' first
    | exact rfl
    | with_unfolding_none first
        | apply KeepsIn.refl | apply ResK.next | assumption | intro _ | apply KeepsIn.ite | apply KeepsIn.foldl'
        | apply KeepsIn.foldlP (st := Prod.snd) | apply KeepsIn.foldlP (st := Prod.fst)
        | apply KeepsIn.after (State.updFab_k ..) | apply KeepsIn.after (raiseEv_k ..)
    | dsimp only | split

theorem pfcSettle_k (p : Nat) (s : State) : KeepsIn [.fab, .pages, .cnts] s (pfcSettle p s) := by
  unfold pfcSettle
  repeat' first
    | exact rfl
    | with_unfolding_none first
        | apply KeepsIn.refl | assumption | intro _ | apply KeepsIn.ite | apply KeepsIn.forAll
        | apply KeepsIn.after (pfcEval_k ..) | apply KeepsIn.after (unhold_k ..) | apply KeepsIn.after (State.updFab_k ..)
    | dsimp only | split

theorem fabEffect_k (p o ix : Nat) (v : DWord) (s : State) : EffK [.fab, .pages, .regs, .cnts] s (fabEffect p o ix v s) := by
  unfold fabEffect
  repeat' first
    | exact rfl
    | with_unfolding_none first
        | apply KeepsIn.refl | apply EffK.ok | apply EffK.error | apply EffK.ite | assumption | intro _ | apply KeepsIn.ite
        | apply KeepsIn.after (pfcSettle_k ..) | apply KeepsIn.after (store_k ..) | apply EffK.map
    | dsimp only | split

theorem qpQuotaWr_k (j : Nat) (v : Word) (s : State) : EffK [.regs] s (qpQuotaWr j v s) := by
  unfold qpQuotaWr
  repeat' first
    | exact rfl
    | with_unfolding_none first
        | apply KeepsIn.refl | apply EffK.ok | apply EffK.error | apply EffK.ite | assumption | intro _ | apply KeepsIn.ite
        | apply KeepsIn.foldl' | apply KeepsIn.foldlP (st := Prod.snd) | apply KeepsIn.foldlP (st := Prod.fst)
        | apply KeepsIn.after (store_k ..) | apply EffK.map
    | dsimp only | split

theorem rrCtlWr_k (ix : Nat) (v : Word) (s : State) : EffK [.fab, .regs] s (rrCtlWr ix v s) := by
  unfold rrCtlWr
  repeat' first
    | exact rfl
    | with_unfolding_none first
        | apply KeepsIn.refl | apply EffK.ok | apply EffK.error | apply EffK.ite | assumption | intro _ | apply KeepsIn.ite
        | apply KeepsIn.after (store_k ..) | apply KeepsIn.after (State.draw_k ..) | apply KeepsIn.after (State.updFab_k ..)
        | apply EffK.map
    | dsimp only | split

theorem mirrorCtlWr_k (v : Word) (s : State) : EffK [.regs] s (mirrorCtlWr v s) := by
  unfold mirrorCtlWr
  repeat' first
    | exact rfl
    | with_unfolding_none first
        | apply KeepsIn.refl | apply EffK.ok | apply EffK.error | apply EffK.ite | assumption | intro _ | apply KeepsIn.ite
        | apply KeepsIn.after (store_k ..) | apply EffK.map
    | dsimp only | split

theorem rekeyOp_k (s : State) : KeepsIn [.fab] s (rekeyOp s) := by
  unfold rekeyOp
  repeat' first
    | exact rfl
    | with_unfolding_none first
        | apply KeepsIn.refl | assumption | intro _ | apply KeepsIn.ite | apply KeepsIn.after (State.draw_k ..)
        | apply KeepsIn.after (State.updFab_k ..)
    | dsimp only | split

theorem swEffect_k (p o ix : Nat) (v : DWord) (s : State) : EffK [.fab, .regs] s (swEffect p o ix v s) := by
  unfold swEffect
  repeat' first
    | exact rfl
    | with_unfolding_none first
        | apply KeepsIn.refl | apply EffK.ok | apply EffK.error | apply EffK.ite | assumption | intro _ | apply KeepsIn.ite
        | apply KeepsIn.after (store_k ..) | apply EffK.after (rrCtlWr_k ..)
        | apply KeepsIn.after (EffK.get (rrCtlWr_k ..) (by assumption)) | apply KeepsIn.after (rekeyOp_k ..)
        | apply EffK.after (mirrorCtlWr_k ..) | apply KeepsIn.after (EffK.get (mirrorCtlWr_k ..) (by assumption))
        | apply KeepsIn.after (storePair_k ..) | apply EffK.after (qpQuotaWr_k ..)
        | apply KeepsIn.after (EffK.get (qpQuotaWr_k ..) (by assumption)) | apply EffK.map
    | dsimp only | split

end Sys2Proof.Machine
end

