-- ==== Sys2Proof/Laws/Keeps/Time.lean ====
section
/-! SUPPORT. What the operations and commands of Machine/Time.lean keep, and the parts they may change. -/
namespace Sys2Proof.Machine

open Sys2Proof

set_option linter.all false

theorem updTport_k (p : Nat) (f : TPort → TPort) (s : State) : KeepsIn [.time] s (updTport p f s) := by
  unfold updTport
  repeat' first
    | exact rfl
    | with_unfolding_none first
        | apply KeepsIn.refl | assumption | intro _ | apply KeepsIn.ite | apply KeepsIn.after (State.updTime_k ..)
    | dsimp only | split

theorem followSrc_k (s : State) : KeepsIn [.time] s (followSrc s) := by
  unfold followSrc
  repeat' first
    | exact rfl
    | with_unfolding_none first
        | apply KeepsIn.refl | assumption | intro _ | apply KeepsIn.ite | apply KeepsIn.after (State.updTime_k ..)
    | dsimp only | split

theorem ttReceive_k (p : Nat) (b : List Byte) (at_ : DWord) (s : State) : KeepsIn [.time] s (ttReceive p b at_ s) := by
  unfold ttReceive
  repeat' first
    | exact rfl
    | with_unfolding_none first
        | apply KeepsIn.refl | assumption | intro _ | apply KeepsIn.ite | apply KeepsIn.after (followSrc_k ..)
        | apply KeepsIn.after (updTport_k ..)
    | dsimp only | split

theorem publishPort_k (p : Nat) (s : State) : KeepsIn [.ring, .host, .time, .mgmt, .pages, .cnts] s (publishPort p s) := by
  unfold publishPort
  repeat' first
    | exact rfl
    | with_unfolding_none first
        | apply KeepsIn.refl | assumption | intro _ | apply KeepsIn.ite | apply KeepsIn.forAll
        | apply KeepsIn.after (updTport_k ..) | apply KeepsIn.after (rttCheck_k ..)
        | apply KeepsIn.after (State.updRing_k ..)
    | dsimp only | split

theorem selectSrc_k (s : State) : KeepsIn [.time] s (selectSrc s) := by
  unfold selectSrc
  repeat' first
    | exact rfl
    | with_unfolding_none first
        | apply KeepsIn.refl | assumption | intro _ | apply KeepsIn.ite | apply KeepsIn.after (followSrc_k ..)
        | apply KeepsIn.after (State.updTime_k ..)
    | dsimp only | split

theorem launchGo_k (m : Nat) (x : Launch) (rest : List Launch) (status : Nat) (s : State) :
    KeepsIn [.fab, .host, .mem, .time, .mgmt, .pages, .cnts] s (launchGo m x rest status s) := by
  unfold launchGo
  repeat' first
    | exact rfl
    | with_unfolding_none first
        | apply KeepsIn.refl | assumption | intro _ | apply KeepsIn.ite | apply KeepsIn.after (frameOut_k ..)
        | apply KeepsIn.after (setLaunches_k ..) | apply KeepsIn.after (launchEnd_k ..)
        | apply KeepsIn.after (pushStamp_k ..)
    | dsimp only | split

theorem launchJudge_k (m : Nat) (x : Launch) (rest : List Launch) (l : Int) (s : State) :
    KeepsIn [.fab, .host, .mem, .time, .mgmt, .pages, .cnts] s (launchJudge m x rest l s) := by
  unfold launchJudge
  repeat' first
    | exact rfl
    | with_unfolding_none first
        | apply KeepsIn.refl | assumption | intro _ | apply KeepsIn.ite | apply KeepsIn.after (launchGo_k ..)
        | apply KeepsIn.after (bump_k ..) | apply KeepsIn.after (launchMiss_k ..) | apply KeepsIn.after (setLaunches_k ..)
    | dsimp only | split

theorem fireArmed_k (m : Nat) (s : State) : KeepsIn [.fab, .host, .mem, .time, .mgmt, .pages, .cnts] s (fireArmed m s) := by
  unfold fireArmed
  repeat' first
    | exact rfl
    | with_unfolding_none first
        | apply KeepsIn.refl | assumption | intro _ | apply KeepsIn.ite | apply KeepsIn.after (launchJudge_k ..)
    | dsimp only | split

theorem correctTime_k (new : DWord) (s : State) :
    KeepsIn [.sch, .fab, .host, .mem, .time, .mgmt, .pages, .cnts] s (correctTime new s) := by
  unfold correctTime
  repeat' first
    | exact rfl
    | with_unfolding_none first
        | apply KeepsIn.refl | assumption | intro _ | apply KeepsIn.ite | apply KeepsIn.forAll
        | apply KeepsIn.after (State.updTime_k ..) | apply KeepsIn.after (State.updFab_k ..)
        | apply KeepsIn.after (fireArmed_k ..) | apply KeepsIn.after (toWaiting_k ..)
    | dsimp only | split

theorem stepTime_k (d : Int) (s : State) :
    KeepsIn [.sch, .fab, .host, .mem, .time, .mgmt, .pages, .cnts] s (stepTime d s) := by
  unfold stepTime
  repeat' first
    | exact rfl
    | with_unfolding_none first
        | apply KeepsIn.refl | assumption | intro _ | apply KeepsIn.ite | apply KeepsIn.after (correctTime_k ..)
        | apply KeepsIn.after (State.updTime_k ..)
    | dsimp only | split

theorem applySmall_k (th : Int × Nat) (s : State) :
    KeepsIn [.sch, .fab, .host, .mem, .time, .mgmt, .pages, .cnts] s (applySmall th s) := by
  unfold applySmall
  repeat' first
    | exact rfl
    | with_unfolding_none first
        | apply KeepsIn.refl | assumption | intro _ | apply KeepsIn.ite | apply KeepsIn.after (State.draw_k ..)
        | apply KeepsIn.after (stepTime_k ..) | apply KeepsIn.after (State.updTime_k ..)
    | dsimp only | split

theorem applyTheta_k (th : Int × Nat) (s0 : State) :
    KeepsIn [.sch, .fab, .host, .mem, .time, .mgmt, .pages, .cnts] s0 (applyTheta th s0) := by
  unfold applyTheta
  repeat' first
    | exact rfl
    | with_unfolding_none first
        | apply KeepsIn.refl | assumption | intro _ | apply KeepsIn.ite | apply KeepsIn.after (State.updTime_k ..)
        | apply KeepsIn.after (raiseEv_k ..) | apply KeepsIn.after (stepTime_k ..) | apply KeepsIn.after (applySmall_k ..)
        | apply KeepsIn.after (bump_k ..) | apply KeepsIn.after (raiseCap_k ..)
    | dsimp only | split

theorem execTimeWindow_k (ext : Option Int) (s : State) :
    ResK [.sch, .ring, .fab, .host, .mem, .time, .mgmt, .pages, .cnts] s (execTimeWindow ext s) := by
  unfold execTimeWindow
  repeat' first
    | exact rfl
    | with_unfolding_none first
        | apply KeepsIn.refl | apply ResK.next | assumption | intro _ | apply KeepsIn.ite
        | apply KeepsIn.after (selectSrc_k ..) | apply KeepsIn.after (applyTheta_k ..)
        | apply KeepsIn.after (publishPort_k ..)
    | dsimp only | split

theorem execTimeSrcLost_k (s : State) : ResK [.host, .time, .mgmt, .pages, .cnts] s (execTimeSrcLost s) := by
  unfold execTimeSrcLost
  repeat' first
    | exact rfl
    | with_unfolding_none first
        | apply KeepsIn.refl | apply ResK.next | assumption | intro _ | apply KeepsIn.ite
        | apply KeepsIn.after (raiseEv_k ..) | apply KeepsIn.after (State.updTime_k ..)
        | apply KeepsIn.after (followSrc_k ..)
    | dsimp only | split

theorem timeEnd_k (status : Nat) (s : State) : KeepsIn [.time] s (timeEnd status s) := by
  unfold timeEnd
  repeat' first
    | exact rfl
    | with_unfolding_none first
        | apply KeepsIn.refl | assumption | intro _ | apply KeepsIn.ite | apply KeepsIn.after (State.updTime_k ..)
    | dsimp only | split

theorem bumpEpoch_k (s : State) : KeepsIn [.time] s (bumpEpoch s) := by
  unfold bumpEpoch
  repeat' first
    | exact rfl
    | with_unfolding_none first
        | apply KeepsIn.refl | assumption | intro _ | apply KeepsIn.ite | apply KeepsIn.after (State.updTime_k ..)
    | dsimp only | split

theorem acceptStepOp_k (s : State) : KeepsIn [.sch, .fab, .host, .mem, .time, .mgmt, .pages, .cnts] s (acceptStepOp s) := by
  unfold acceptStepOp
  repeat' first
    | exact rfl
    | with_unfolding_none first
        | apply KeepsIn.refl | assumption | intro _ | apply KeepsIn.ite | apply KeepsIn.after (timeEnd_k ..)
        | apply KeepsIn.after (bumpEpoch_k ..) | apply KeepsIn.after (raiseEv_k ..) | apply KeepsIn.after (stepTime_k ..)
    | dsimp only | split

theorem reacquireOp_k (s : State) : KeepsIn [.time] s (reacquireOp s) := by
  unfold reacquireOp
  repeat' first
    | exact rfl
    | with_unfolding_none first
        | apply KeepsIn.refl | assumption | intro _ | apply KeepsIn.ite | apply KeepsIn.after (timeEnd_k ..)
        | apply KeepsIn.after (State.updTime_k ..)
    | dsimp only | split

theorem calAsymOp_k (p : Nat) (s : State) : KeepsIn [.time] s (calAsymOp p s) := by
  unfold calAsymOp
  repeat' first
    | exact rfl
    | with_unfolding_none first
        | apply KeepsIn.refl | assumption | intro _ | apply KeepsIn.ite | apply KeepsIn.after (State.updTime_k ..)
        | apply KeepsIn.after (timeEnd_k ..)
    | dsimp only | split

theorem setTimeOp_k (s : State) : KeepsIn [.time] s (setTimeOp s) := by
  unfold setTimeOp
  repeat' first
    | exact rfl
    | with_unfolding_none first
        | apply KeepsIn.refl | assumption | intro _ | apply KeepsIn.ite | apply KeepsIn.after (State.updTime_k ..)
        | apply KeepsIn.after (timeEnd_k ..)
    | dsimp only | split

theorem timeCmdWr_k (v : Word) (s : State) :
    EffK [.sch, .fab, .host, .mem, .time, .mgmt, .pages, .cnts] s (timeCmdWr v s) := by
  unfold timeCmdWr
  repeat' first
    | exact rfl
    | with_unfolding_none first
        | apply KeepsIn.refl | apply EffK.ok | apply EffK.error | apply EffK.ite | assumption | intro _ | apply KeepsIn.ite
        | apply KeepsIn.after (acceptStepOp_k ..) | apply KeepsIn.after (reacquireOp_k ..)
        | apply KeepsIn.after (calAsymOp_k ..) | apply KeepsIn.after (setTimeOp_k ..) | apply KeepsIn.after (timeEnd_k ..)
        | apply EffK.map
    | dsimp only | split

theorem execCalAsymDone_k (mean : Int) (s : State) : ResK [.time, .regs] s (execCalAsymDone mean s) := by
  unfold execCalAsymDone
  repeat' first
    | exact rfl
    | with_unfolding_none first
        | apply KeepsIn.refl | apply ResK.next | assumption | intro _ | apply KeepsIn.ite
        | apply KeepsIn.after (timeEnd_k ..) | apply KeepsIn.after (State.setReg_k ..)
    | dsimp only | split

theorem execPpsInEdge_k (s : State) : ResK [.sch, .fab, .host, .mem, .time, .mgmt, .pages, .cnts] s (execPpsInEdge s) := by
  unfold execPpsInEdge
  repeat' first
    | exact rfl
    | with_unfolding_none first
        | apply KeepsIn.refl | apply ResK.next | assumption | intro _ | apply KeepsIn.ite
        | apply KeepsIn.after (State.updTime_k ..) | apply KeepsIn.after (timeEnd_k ..)
        | apply KeepsIn.after (bumpEpoch_k ..) | apply KeepsIn.after (correctTime_k ..)
    | dsimp only | split

theorem execSetTimeTimeout_k (s : State) : ResK [.time] s (execSetTimeTimeout s) := by
  unfold execSetTimeTimeout
  repeat' first
    | exact rfl
    | with_unfolding_none first
        | apply KeepsIn.refl | apply ResK.next | assumption | intro _ | apply KeepsIn.ite
        | apply KeepsIn.after (timeEnd_k ..)
    | dsimp only | split

theorem execLaunchArm_k (m : Mac) (s : State) :
    ResK [.fab, .host, .mem, .time, .mgmt, .pages, .cnts] s (execLaunchArm m s) := by
  unfold execLaunchArm
  repeat' first
    | exact rfl
    | with_unfolding_none first
        | apply KeepsIn.refl | apply ResK.next | assumption | intro _ | apply KeepsIn.ite
        | apply KeepsIn.after (launchJudge_k ..) | apply KeepsIn.after (State.updTime_k ..)
    | dsimp only | split

theorem execLaunchFire_k (m : Mac) (s : State) :
    ResK [.fab, .host, .mem, .time, .mgmt, .pages, .cnts] s (execLaunchFire m s) := by
  unfold execLaunchFire
  repeat' first
    | exact rfl
    | with_unfolding_none first
        | apply KeepsIn.refl | apply ResK.next | assumption | intro _ | apply KeepsIn.ite
        | apply KeepsIn.after (fireArmed_k ..)
    | dsimp only | split

theorem timeNsRd_k (w : Who) (s : State) : KeepsIn [.time] s (timeNsRd w s).2 := by
  unfold timeNsRd
  repeat' first
    | exact rfl
    | with_unfolding_none first
        | apply KeepsIn.refl | assumption | intro _ | apply KeepsIn.ite | apply KeepsIn.after (State.updTime_k ..)
    | dsimp only | split

theorem timeHiRd_k (w : Who) (s : State) : KeepsIn [.time] s (timeHiRd w s).2 := by
  unfold timeHiRd
  repeat' first
    | exact rfl
    | with_unfolding_none first
        | apply KeepsIn.refl | assumption | intro _ | apply KeepsIn.ite | apply KeepsIn.after (State.updTime_k ..)
    | dsimp only | split

theorem tsqTsRd_k (s : State) : KeepsIn [.time] s (tsqTsRd s).2 := by
  unfold tsqTsRd
  repeat' first
    | exact rfl
    | with_unfolding_none first
        | apply KeepsIn.refl | assumption | intro _ | apply KeepsIn.ite | apply KeepsIn.after (State.updTime_k ..)
    | dsimp only | split

theorem timeIoWr_k (v : Word) (s : State) : EffK [.time] s (timeIoWr v s) := by
  unfold timeIoWr
  repeat' first
    | exact rfl
    | with_unfolding_none first
        | apply KeepsIn.refl | apply EffK.ok | apply EffK.error | apply EffK.ite | assumption | intro _ | apply KeepsIn.ite
        | apply KeepsIn.after (State.updTime_k ..) | apply EffK.map
    | dsimp only | split

theorem fmClaim_k (claim : Bool) (s : State) : EffK [.time] s (fmClaim claim s) := by
  unfold fmClaim
  repeat' first
    | exact rfl
    | with_unfolding_none first
        | apply KeepsIn.refl | apply EffK.ok | apply EffK.error | apply EffK.ite | assumption | intro _ | apply KeepsIn.ite
        | apply KeepsIn.after (State.updTime_k ..) | apply EffK.map
    | dsimp only | split

theorem ioRefuse_k (s : State) : KeepsIn [.time] s (ioRefuse s) := by
  unfold ioRefuse
  repeat' first
    | exact rfl
    | with_unfolding_none first
        | apply KeepsIn.refl | assumption | intro _ | apply KeepsIn.ite | apply KeepsIn.after (State.updTime_k ..)
    | dsimp only | split

theorem execPpsOutputEdge_k (fall : Bool) (s : State) : ResK [.time] s (execPpsOutputEdge fall s) := by
  unfold execPpsOutputEdge
  repeat' first
    | exact rfl
    | with_unfolding_none first
        | apply KeepsIn.refl | apply ResK.next | assumption | intro _ | apply KeepsIn.ite
        | apply KeepsIn.after (State.updTime_k ..) | apply KeepsIn.after (State.emit_k ..)
    | dsimp only | split

theorem timeEffect_k (p o ix : Nat) (v : DWord) (s : State) :
    EffK [.sch, .fab, .host, .mem, .time, .mgmt, .pages, .regs, .cnts] s (timeEffect p o ix v s) := by
  unfold timeEffect
  repeat' first
    | exact rfl
    | with_unfolding_none first
        | apply KeepsIn.refl | apply EffK.ok | apply EffK.error | apply EffK.ite | assumption | intro _ | apply KeepsIn.ite
        | apply EffK.after (timeCmdWr_k ..) | apply KeepsIn.after (EffK.get (timeCmdWr_k ..) (by assumption))
        | apply KeepsIn.after (storePair_k ..) | apply EffK.after (timeIoWr_k ..)
        | apply KeepsIn.after (EffK.get (timeIoWr_k ..) (by assumption)) | apply KeepsIn.after (State.updTime_k ..)
        | apply KeepsIn.after (store_k ..) | apply EffK.map
    | dsimp only | split

end Sys2Proof.Machine
end

