-- ==== Sys2Proof/Laws/Keeps/LineOps.lean ====
section
/-! SUPPORT. What the operations and commands of Machine/LineOps.lean keep, and the parts they may change. -/
namespace Sys2Proof.Machine

open Sys2Proof

set_option linter.all false

theorem updSel_k (i : Nat) (f : Sel → Sel) (s : State) : KeepsIn [.line] s (updSel i f s) := by
  unfold updSel
  repeat' first
    | exact rfl
    | with_unfolding_none first
        | apply KeepsIn.refl | assumption | intro _ | apply KeepsIn.ite | apply KeepsIn.after (State.updLine_k ..)
    | dsimp only | split

theorem protDeliver_k (i r : Nat) (m : ProtMsg) (s : State) :
    KeepsIn [.line, .host, .pages, .cnts] s (protDeliver i r m s) := by
  unfold protDeliver
  repeat' first
    | exact rfl
    | with_unfolding_none first
        | apply KeepsIn.refl | assumption | intro _ | apply KeepsIn.ite | apply KeepsIn.after (event_k ..)
        | apply KeepsIn.after (bump_k ..) | apply KeepsIn.after (updSel_k ..) | apply KeepsIn.after (State.emit_k ..)
    | dsimp only | split

theorem deliverHeld_k (i r : Nat) : ∀ (n : Nat) (s : State), KeepsIn [.line, .host, .pages, .cnts] s (deliverHeld i r n s) := by
  intro n
  induction n with
  | zero =>
    intro s
    rw [deliverHeld]
    repeat' first
      | exact rfl
      | with_unfolding_none first
          | apply KeepsIn.refl | assumption | apply KeepsIn.ite | apply KeepsIn.after (ih ..)
          | apply KeepsIn.after (protDeliver_k ..) | apply KeepsIn.after (updPort_k ..)
      | dsimp only | split
  | succ n ih =>
    intro s
    rw [deliverHeld]
    repeat' first
      | exact rfl
      | with_unfolding_none first
          | apply KeepsIn.refl | assumption | apply KeepsIn.ite | apply KeepsIn.after (ih ..)
          | apply KeepsIn.after (protDeliver_k ..) | apply KeepsIn.after (updPort_k ..)
      | dsimp only | split

theorem selSwitch_k (i r : Nat) (s : State) : KeepsIn [.line, .host, .mgmt, .pages, .cnts] s (selSwitch i r s) := by
  unfold selSwitch
  repeat' first
    | exact rfl
    | with_unfolding_none first
        | apply KeepsIn.refl | assumption | intro _ | apply KeepsIn.ite | apply KeepsIn.after (deliverHeld_k ..)
        | apply KeepsIn.after (raiseEv_k ..) | apply KeepsIn.after (updSel_k ..)
    | dsimp only | split

theorem selEval_k (i : Nat) (s : State) : KeepsIn [.line, .host, .mgmt, .pages, .cnts] s (selEval i s) := by
  unfold selEval
  repeat' first
    | exact rfl
    | with_unfolding_none first
        | apply KeepsIn.refl | assumption | intro _ | apply KeepsIn.ite | apply KeepsIn.after (updSel_k ..)
        | apply KeepsIn.after (selSwitch_k ..)
    | dsimp only | split

theorem selEvalAll_k (s : State) : KeepsIn [.line, .host, .mgmt, .pages, .cnts] s (selEvalAll s) := by
  unfold selEvalAll
  repeat' first
    | exact rfl
    | with_unfolding_none first
        | apply KeepsIn.refl | assumption | intro _ | apply KeepsIn.ite | apply KeepsIn.forAll
        | apply KeepsIn.after (selEval_k ..)
    | dsimp only | split

theorem holdForce_k (p : Nat) (s : State) : KeepsIn [.line] s (holdForce p s) := by
  unfold holdForce
  repeat' first
    | exact rfl
    | with_unfolding_none first
        | apply KeepsIn.refl | assumption | intro _ | apply KeepsIn.ite | apply KeepsIn.forAll
        | apply KeepsIn.after (updSel_k ..)
    | dsimp only | split

theorem holdRelease_k (p : Nat) (s : State) : KeepsIn [.line] s (holdRelease p s) := by
  unfold holdRelease
  repeat' first
    | exact rfl
    | with_unfolding_none first
        | apply KeepsIn.refl | assumption | intro _ | apply KeepsIn.ite | apply KeepsIn.after (State.updLine_k ..)
    | dsimp only | split

theorem holdAnnounce_k (p ms : Nat) (s : State) : KeepsIn [.line, .host, .mgmt, .pages, .cnts] s (holdAnnounce p ms s) := by
  unfold holdAnnounce
  repeat' first
    | exact rfl
    | with_unfolding_none first
        | apply KeepsIn.refl | assumption | intro _ | apply KeepsIn.ite | apply KeepsIn.after (selEvalAll_k ..)
        | apply KeepsIn.after (holdForce_k ..) | apply KeepsIn.after (updPort_k ..)
    | dsimp only | split

theorem holdEnd_k (p : Nat) (s : State) : KeepsIn [.line, .host, .mgmt, .pages, .cnts] s (holdEnd p s) := by
  unfold holdEnd
  repeat' first
    | exact rfl
    | with_unfolding_none first
        | apply KeepsIn.refl | assumption | intro _ | apply KeepsIn.ite | apply KeepsIn.after (selEvalAll_k ..)
        | apply KeepsIn.after (holdRelease_k ..) | apply KeepsIn.after (updPort_k ..)
    | dsimp only | split

theorem stbyTrim_k (p : Nat) : ∀ (n : Nat) (s : State), KeepsIn [.line, .host, .mgmt, .pages, .cnts] s (stbyTrim p n s) := by
  intro n
  induction n with
  | zero =>
    intro s
    rw [stbyTrim]
    repeat' first
      | exact rfl
      | with_unfolding_none first
          | apply KeepsIn.refl | assumption | apply KeepsIn.ite | apply KeepsIn.after (ih ..)
          | apply KeepsIn.after (raiseEv_k ..) | apply KeepsIn.after (updPort_k ..)
      | dsimp only | split
  | succ n ih =>
    intro s
    rw [stbyTrim]
    repeat' first
      | exact rfl
      | with_unfolding_none first
          | apply KeepsIn.refl | assumption | apply KeepsIn.ite | apply KeepsIn.after (ih ..)
          | apply KeepsIn.after (raiseEv_k ..) | apply KeepsIn.after (updPort_k ..)
      | dsimp only | split

theorem protHold_k (i p : Nat) (m : ProtMsg) (s : State) :
    KeepsIn [.line, .host, .mgmt, .pages, .cnts] s (protHold i p m s) := by
  unfold protHold
  repeat' first
    | exact rfl
    | with_unfolding_none first
        | apply KeepsIn.refl | assumption | intro _ | apply KeepsIn.ite | apply KeepsIn.after (stbyTrim_k ..)
        | apply KeepsIn.after (updPort_k ..)
    | dsimp only | split

theorem protLocal_k (p : Nat) (m : ProtMsg) (s : State) :
    KeepsIn [.line, .host, .mgmt, .pages, .cnts] s (protLocal p m s) := by
  unfold protLocal
  repeat' first
    | exact rfl
    | with_unfolding_none first
        | apply KeepsIn.refl | assumption | intro _ | apply KeepsIn.ite | apply KeepsIn.after (bump_k ..)
        | apply KeepsIn.after (selEval_k ..) | apply KeepsIn.after (updSel_k ..) | apply KeepsIn.after (protHold_k ..)
        | apply KeepsIn.after (protDeliver_k ..)
    | dsimp only | split

theorem execProtMessage_k (p : Port) (m : ProtMsg) (s : State) :
    ResK [.line, .host, .mgmt, .pages, .cnts] s (execProtMessage p m s) := by
  unfold execProtMessage
  repeat' first
    | exact rfl
    | with_unfolding_none first
        | apply KeepsIn.refl | apply ResK.next | assumption | intro _ | apply KeepsIn.ite | apply KeepsIn.after (bump_k ..)
        | apply KeepsIn.after (protQueue_k ..) | apply KeepsIn.after (protLocal_k ..)
    | dsimp only | split

theorem execRouteTimeout_k (i : Fin 64) (r : Port) (s : State) :
    ResK [.line, .host, .mgmt, .pages, .cnts] s (execRouteTimeout i r s) := by
  unfold execRouteTimeout
  repeat' first
    | exact rfl
    | with_unfolding_none first
        | apply KeepsIn.refl | apply ResK.next | assumption | intro _ | apply KeepsIn.ite
        | apply KeepsIn.after (selEval_k ..) | apply KeepsIn.after (updSel_k ..)
    | dsimp only | split

theorem execWtrExpiry_k (i : Fin 64) (s : State) : ResK [.line, .host, .mgmt, .pages, .cnts] s (execWtrExpiry i s) := by
  unfold execWtrExpiry
  repeat' first
    | exact rfl
    | with_unfolding_none first
        | apply KeepsIn.refl | apply ResK.next | assumption | intro _ | apply KeepsIn.ite
        | apply KeepsIn.after (selEval_k ..) | apply KeepsIn.after (selSwitch_k ..)
    | dsimp only | split

theorem execStbyHoldExpiry_k (i : Fin 64) (mseq : Word) (s : State) : ResK [.line] s (execStbyHoldExpiry i mseq s) := by
  unfold execStbyHoldExpiry
  repeat' first
    | exact rfl
    | with_unfolding_none first
        | apply KeepsIn.refl | apply ResK.next | assumption | intro _ | apply KeepsIn.ite
        | apply KeepsIn.after (updPort_k ..)
    | dsimp only | split

theorem selCtlWr_k (i : Nat) (v : Word) (s : State) :
    EffK [.line, .host, .mgmt, .pages, .regs, .cnts] s (selCtlWr i v s) := by
  unfold selCtlWr
  repeat' first
    | exact rfl
    | with_unfolding_none first
        | apply KeepsIn.refl | apply EffK.ok | apply EffK.error | apply EffK.ite | assumption | intro _ | apply KeepsIn.ite
        | apply KeepsIn.after (selEval_k ..) | apply KeepsIn.after (store_k ..) | apply KeepsIn.after (updPort_k ..)
        | apply KeepsIn.after (updSel_k ..) | apply EffK.map
    | dsimp only | split

end Sys2Proof.Machine
end

