-- ==== Sys2Proof/Laws/Keeps/Optics.lean ====
section
/-! SUPPORT. What the operations and commands of Machine/Optics.lean keep, and the parts they may change. -/
namespace Sys2Proof.Machine

open Sys2Proof

set_option linter.all false

theorem setTbl_k (t r e : Nat) (v : Word) (s : State) : KeepsIn [.opt] s (setTbl t r e v s) := by
  unfold setTbl
  repeat' first
    | exact rfl
    | with_unfolding_none first
        | apply KeepsIn.refl | assumption | intro _ | apply KeepsIn.ite | apply KeepsIn.after (State.updOpt_k ..)
    | dsimp only | split

theorem updMring_k (e i : Nat) (f : MRing → MRing) (s : State) : KeepsIn [.opt] s (updMring e i f s) := by
  unfold updMring
  repeat' first
    | exact rfl
    | with_unfolding_none first
        | apply KeepsIn.refl | assumption | intro _ | apply KeepsIn.ite | apply KeepsIn.after (State.updOpt_k ..)
    | dsimp only | split

theorem updOeng_k (e : Nat) (f : OEng → OEng) (s : State) : KeepsIn [.opt] s (updOeng e f s) := by
  unfold updOeng
  repeat' first
    | exact rfl
    | with_unfolding_none first
        | apply KeepsIn.refl | assumption | intro _ | apply KeepsIn.ite | apply KeepsIn.after (State.updOpt_k ..)
    | dsimp only | split

theorem updBay_k (b : Nat) (f : LBay → LBay) (s : State) : KeepsIn [.opt] s (updBay b f s) := by
  unfold updBay
  repeat' first
    | exact rfl
    | with_unfolding_none first
        | apply KeepsIn.refl | assumption | intro _ | apply KeepsIn.ite | apply KeepsIn.after (State.updOpt_k ..)
    | dsimp only | split

theorem updUnit_k (p : Nat) (f : LUnit → LUnit) (s : State) : KeepsIn [.opt] s (updUnit p f s) := by
  unfold updUnit
  repeat' first
    | exact rfl
    | with_unfolding_none first
        | apply KeepsIn.refl | assumption | intro _ | apply KeepsIn.ite | apply KeepsIn.after (State.updOpt_k ..)
    | dsimp only | split

theorem updLaser_k (p i : Nat) (f : LLas → LLas) (s : State) : KeepsIn [.opt] s (updLaser p i f s) := by
  unfold updLaser
  repeat' first
    | exact rfl
    | with_unfolding_none first
        | apply KeepsIn.refl | assumption | intro _ | apply KeepsIn.ite | apply KeepsIn.after (updUnit_k ..)
    | dsimp only | split

theorem actSet_k (l : OptLoop) (i : Nat) (table : Bool) (v : DWord) (s : State) :
    KeepsIn [.opt] s (actSet l i table v s) := by
  unfold actSet
  repeat' first
    | exact rfl
    | with_unfolding_none first
        | apply KeepsIn.refl | assumption | intro _ | apply KeepsIn.ite | apply KeepsIn.after (State.updOpt_k ..)
    | dsimp only | split

theorem setFresh_k (l : OptLoop) (i : Nat) (v : Bool) (s : State) : KeepsIn [.opt] s (setFresh l i v s) := by
  unfold setFresh
  repeat' first
    | exact rfl
    | with_unfolding_none first
        | apply KeepsIn.refl | assumption | intro _ | apply KeepsIn.ite | apply KeepsIn.after (State.updOpt_k ..)
    | dsimp only | split

theorem tableRing_k (e i : Nat) (s : State) : KeepsIn [.opt] s (tableRing e i s) := by
  unfold tableRing
  repeat' first
    | exact rfl
    | with_unfolding_none first
        | apply KeepsIn.refl | assumption | intro _ | apply KeepsIn.ite | apply KeepsIn.after (updMring_k ..)
        | apply KeepsIn.after (actSet_k ..)
    | dsimp only | split

theorem tableLaser_k (i : Nat) (s : State) : KeepsIn [.opt] s (tableLaser i s) := by
  unfold tableLaser
  repeat' first
    | exact rfl
    | with_unfolding_none first
        | apply KeepsIn.refl | assumption | intro _ | apply KeepsIn.ite | apply KeepsIn.after (actSet_k ..)
    | dsimp only | split

theorem lockRings_k (e : Nat) (s : State) : KeepsIn [.opt] s (lockRings e s) := by
  unfold lockRings
  repeat' first
    | exact rfl
    | with_unfolding_none first
        | apply KeepsIn.refl | assumption | intro _ | apply KeepsIn.ite | apply KeepsIn.forAll
        | apply KeepsIn.after (updMring_k ..) | apply KeepsIn.after (tableRing_k ..) | apply KeepsIn.after (updOeng_k ..)
    | dsimp only | split

theorem loopTable_k (l : OptLoop) (i : Nat) (s : State) : KeepsIn [.opt] s (loopTable l i s) := by
  unfold loopTable
  repeat' first
    | exact rfl
    | with_unfolding_none first
        | apply KeepsIn.refl | assumption | intro _ | apply KeepsIn.ite | apply KeepsIn.after (tableRing_k ..)
        | apply KeepsIn.after (tableLaser_k ..)
    | dsimp only | split

theorem loopTrim_k (l : OptLoop) (i : Nat) (s : State) : KeepsIn [.opt] s (loopTrim l i s) := by
  unfold loopTrim
  repeat' first
    | exact rfl
    | with_unfolding_none first
        | apply KeepsIn.refl | assumption | intro _ | apply KeepsIn.ite | apply KeepsIn.after (State.draw_k ..)
        | apply KeepsIn.after (actSet_k ..) | apply KeepsIn.after (updMring_k ..)
    | dsimp only | split

theorem loopShow_k (l : OptLoop) (i : Nat) (reading : Int) (s : State) : KeepsIn [.opt] s (loopShow l i reading s) := by
  unfold loopShow
  repeat' first
    | exact rfl
    | with_unfolding_none first
        | apply KeepsIn.refl | assumption | intro _ | apply KeepsIn.ite | apply KeepsIn.after (updLaser_k ..)
    | dsimp only | split

theorem relight_k (i : Nat) (reading : Int) (s : State) : KeepsIn [.opt, .pages, .cnts] s (relight i reading s) := by
  unfold relight
  repeat' first
    | exact rfl
    | with_unfolding_none first
        | apply KeepsIn.refl | assumption | intro _ | apply KeepsIn.ite | apply KeepsIn.after (bump_k ..)
        | apply KeepsIn.after (updUnit_k ..) | apply KeepsIn.after (updLaser_k ..)
    | dsimp only | split

theorem execControlLoopUpdate_k (l : OptLoop) (i : Nat) (reading : Int) (s : State) :
    ResK [.opt, .pages, .cnts] s (execControlLoopUpdate l i reading s) := by
  unfold execControlLoopUpdate
  repeat' first
    | exact rfl
    | with_unfolding_none first
        | apply KeepsIn.refl | apply ResK.next | assumption | intro _ | apply KeepsIn.ite
        | apply KeepsIn.after (loopShow_k ..) | apply KeepsIn.after (loopTable_k ..) | apply KeepsIn.after (setFresh_k ..)
        | apply KeepsIn.after (loopTrim_k ..) | apply KeepsIn.after (relight_k ..)
    | dsimp only | split

theorem execEngineTempChange_k (e : Fin 6) (t : Int) (s : State) :
    ResK [.opt, .host, .mgmt, .pages, .cnts] s (execEngineTempChange e t s) := by
  unfold execEngineTempChange
  repeat' first
    | exact rfl
    | with_unfolding_none first
        | apply KeepsIn.refl | apply ResK.next | assumption | intro _ | apply KeepsIn.ite | apply KeepsIn.forAll
        | apply KeepsIn.after (updOeng_k ..) | apply KeepsIn.after (tableRing_k ..) | apply KeepsIn.after (raiseEv_k ..)
    | dsimp only | split

theorem execMonitorReadingDone_k (value : BitVec 24) (s : State) : ResK [.opt] s (execMonitorReadingDone value s) := by
  unfold execMonitorReadingDone
  repeat' first
    | exact rfl
    | with_unfolding_none first
        | apply KeepsIn.refl | apply ResK.next | assumption | intro _ | apply KeepsIn.ite
        | apply KeepsIn.after (State.updOpt_k ..)
    | dsimp only | split

theorem calLane_k (e k : Nat) (s : State) : KeepsIn [.opt] s (calLane e k s) := by
  unfold calLane
  repeat' first
    | exact rfl
    | with_unfolding_none first
        | apply KeepsIn.refl | assumption | intro _ | apply KeepsIn.ite | apply KeepsIn.after (updMring_k ..)
        | apply KeepsIn.after (updOeng_k ..)
    | dsimp only | split

theorem parkSpare_k (e : Nat) (s : State) : KeepsIn [.opt] s (parkSpare e s) := by
  unfold parkSpare
  repeat' first
    | exact rfl
    | with_unfolding_none first
        | apply KeepsIn.refl | assumption | intro _ | apply KeepsIn.ite | apply KeepsIn.after (updMring_k ..)
    | dsimp only | split

theorem calRun_k (e : Nat) (s : State) : KeepsIn [.opt] s (calRun e s) := by
  unfold calRun
  repeat' first
    | exact rfl
    | with_unfolding_none first
        | apply KeepsIn.refl | assumption | intro _ | apply KeepsIn.ite | apply KeepsIn.after (calLane_k ..)
    | dsimp only | split

theorem execCalStart_k (c : CalTrigger) (s : State) : ResK [.opt] s (execCalStart c s) := by
  unfold execCalStart
  repeat' first
    | exact rfl
    | with_unfolding_none first
        | apply KeepsIn.refl | apply ResK.next | assumption | intro _ | apply KeepsIn.ite | apply KeepsIn.after (calRun_k ..)
    | dsimp only | split

theorem execCalDone_k (e : Fin 6) (heat : BitVec 16) (s : State) : ResK [.opt, .pages, .cnts] s (execCalDone e heat s) := by
  unfold execCalDone
  repeat' first
    | exact rfl
    | with_unfolding_none first
        | apply KeepsIn.refl | apply ResK.next | assumption | intro _ | apply KeepsIn.ite | apply KeepsIn.after (bump_k ..)
        | apply KeepsIn.after (updMring_k ..) | apply KeepsIn.after (actSet_k ..) | apply KeepsIn.after (setTbl_k ..)
        | apply KeepsIn.after (calLane_k ..) | apply KeepsIn.after (parkSpare_k ..) | apply KeepsIn.after (updOeng_k ..)
    | dsimp only | split

theorem calAbort_k (e : Nat) (s : State) : KeepsIn [.opt, .pages, .cnts] s (calAbort e s) := by
  unfold calAbort
  repeat' first
    | exact rfl
    | with_unfolding_none first
        | apply KeepsIn.refl | assumption | intro _ | apply KeepsIn.ite | apply KeepsIn.after (parkSpare_k ..)
        | apply KeepsIn.after (bump_k ..) | apply KeepsIn.after (updMring_k ..) | apply KeepsIn.after (tableRing_k ..)
        | apply KeepsIn.after (updOeng_k ..)
    | dsimp only | split

theorem xfStart_k (b : Nat) (rev : Bool) (s : State) : KeepsIn [.opt, .pages, .cnts] s (xfStart b rev s) := by
  unfold xfStart
  repeat' first
    | exact rfl
    | with_unfolding_none first
        | apply KeepsIn.refl | assumption | intro _ | apply KeepsIn.ite | apply KeepsIn.after (calAbort_k ..)
        | apply KeepsIn.after (updBay_k ..) | apply KeepsIn.after (State.updOpt_k ..)
    | dsimp only | split

theorem execLaserFadeWindow_k (b : Fin 4) (pwr : Int) (s : State) :
    ResK [.opt, .host, .mgmt, .pages, .cnts] s (execLaserFadeWindow b pwr s) := by
  unfold execLaserFadeWindow
  repeat' first
    | exact rfl
    | with_unfolding_none first
        | apply KeepsIn.refl | apply ResK.next | assumption | intro _ | apply KeepsIn.ite | apply KeepsIn.after (updBay_k ..)
        | apply KeepsIn.after (raiseEv_k ..) | apply KeepsIn.after (xfStart_k ..)
    | dsimp only | split

theorem execCrossfadeDone_k (s : State) : ResK [.opt, .host, .mgmt, .pages, .cnts] s (execCrossfadeDone s) := by
  unfold execCrossfadeDone
  repeat' first
    | exact rfl
    | with_unfolding_none first
        | apply KeepsIn.refl | apply ResK.next | assumption | intro _ | apply KeepsIn.ite | apply KeepsIn.after (updBay_k ..)
        | apply KeepsIn.after (raiseEv_k ..) | apply KeepsIn.after (State.updOpt_k ..)
    | dsimp only | split

theorem xfLost_k (b : Nat) (s : State) : KeepsIn [.opt] s (xfLost b s) := by
  unfold xfLost
  repeat' first
    | exact rfl
    | with_unfolding_none first
        | apply KeepsIn.refl | assumption | intro _ | apply KeepsIn.ite | apply KeepsIn.after (updBay_k ..)
        | apply KeepsIn.after (State.updOpt_k ..)
    | dsimp only | split

theorem darken_k (e : Nat) (s : State) : KeepsIn [.opt, .pages, .cnts] s (darken e s) := by
  unfold darken
  repeat' first
    | exact rfl
    | with_unfolding_none first
        | apply KeepsIn.refl | assumption | intro _ | apply KeepsIn.ite | apply KeepsIn.forAll
        | apply KeepsIn.after (updMring_k ..) | apply KeepsIn.after (calAbort_k ..)
    | dsimp only | split

theorem execLmodRemove_k (b : Fin 4) (s : State) : ResK [.opt, .host, .mgmt, .pages, .cnts] s (execLmodRemove b s) := by
  unfold execLmodRemove
  repeat' first
    | exact rfl
    | with_unfolding_none first
        | apply KeepsIn.refl | apply ResK.next | assumption | intro _ | apply KeepsIn.ite | apply KeepsIn.after (updBay_k ..)
        | apply KeepsIn.after (xfLost_k ..) | apply KeepsIn.after (raiseEv_k ..) | apply KeepsIn.after (darken_k ..)
    | dsimp only | split

theorem execLmodInsert_k (b : Fin 4) (s : State) : ResK [.opt] s (execLmodInsert b s) := by
  unfold execLmodInsert
  repeat' first
    | exact rfl
    | with_unfolding_none first
        | apply KeepsIn.refl | apply ResK.next | assumption | intro _ | apply KeepsIn.ite | apply KeepsIn.after (updBay_k ..)
    | dsimp only | split

theorem execLmodSelfTestDone_k (b : Fin 4) (lines : List Int) (s : State) :
    ResK [.opt, .pages, .cnts] s (execLmodSelfTestDone b lines s) := by
  unfold execLmodSelfTestDone
  repeat' first
    | exact rfl
    | with_unfolding_none first
        | apply KeepsIn.refl | apply ResK.next | assumption | intro _ | apply KeepsIn.ite | apply KeepsIn.after (updBay_k ..)
        | apply KeepsIn.after (xfStart_k ..)
    | dsimp only | split

theorem stbyTune_k (p : Nat) (s : State) : KeepsIn [.opt] s (stbyTune p s) := by
  unfold stbyTune
  repeat' first
    | exact rfl
    | with_unfolding_none first
        | apply KeepsIn.refl | assumption | intro _ | apply KeepsIn.ite | apply KeepsIn.after (setFresh_k ..)
        | apply KeepsIn.after (updLaser_k ..)
    | dsimp only | split

theorem gridChanged_k (p : Nat) (s : State) : KeepsIn [.opt] s (gridChanged p s) := by
  unfold gridChanged
  repeat' first
    | exact rfl
    | with_unfolding_none first
        | apply KeepsIn.refl | assumption | intro _ | apply KeepsIn.ite | apply KeepsIn.forAll
        | apply KeepsIn.after (stbyTune_k ..) | apply KeepsIn.after (setFresh_k ..)
    | dsimp only | split

theorem laserEnable_k (p : Nat) (on : Bool) (s : State) : KeepsIn [.opt] s (laserEnable p on s) := by
  unfold laserEnable
  repeat' first
    | exact rfl
    | with_unfolding_none first
        | apply KeepsIn.refl | assumption | intro _ | apply KeepsIn.ite | apply KeepsIn.after (updUnit_k ..)
        | apply KeepsIn.after (updLaser_k ..)
    | dsimp only | split

theorem execStandbyTuned_k (p : Port) (locked : Bool) (s : State) :
    ResK [.opt, .host, .mgmt, .pages, .cnts] s (execStandbyTuned p locked s) := by
  unfold execStandbyTuned
  repeat' first
    | exact rfl
    | with_unfolding_none first
        | apply KeepsIn.refl | apply ResK.next | assumption | intro _ | apply KeepsIn.ite
        | apply KeepsIn.after (updLaser_k ..) | apply KeepsIn.after (raiseEv_k ..)
    | dsimp only | split

theorem execStandbyRecheck_k (p : Port) (passed : Bool) (s : State) :
    ResK [.opt, .host, .mgmt, .pages, .cnts] s (execStandbyRecheck p passed s) := by
  unfold execStandbyRecheck
  repeat' first
    | exact rfl
    | with_unfolding_none first
        | apply KeepsIn.refl | apply ResK.next | assumption | intro _ | apply KeepsIn.ite
        | apply KeepsIn.after (raiseEv_k ..) | apply KeepsIn.after (updLaser_k ..)
    | dsimp only | split

theorem switchDefer_k (p : Nat) (s : State) : KeepsIn [.opt, .pages, .cnts] s (switchDefer p s) := by
  unfold switchDefer
  repeat' first
    | exact rfl
    | with_unfolding_none first
        | apply KeepsIn.refl | assumption | intro _ | apply KeepsIn.ite | apply KeepsIn.after (bump_k ..)
        | apply KeepsIn.after (updUnit_k ..)
    | dsimp only | split

theorem switchRefused_k (p : Nat) (s : State) : OptK [.host, .mgmt, .pages, .cnts] s (fun x => x.1) (switchRefused p s) := by
  unfold switchRefused
  refine OptK.ite (OptK.some (KeepsIn.refl _)) (OptK.ite (OptK.some ?_) OptK.none)
  exact KeepsIn.after (raiseEv_k ..) rfl (KeepsIn.refl _)


theorem switchSchedule_k (p : Nat) (byCmd : Bool) (s : State) :
    KeepsIn [.opt, .host, .mgmt, .pages, .cnts] s (switchSchedule p byCmd s).1 := by
  unfold switchSchedule
  repeat' first
    | exact rfl | refine KeepsIn.after ((switchRefused_k _ _).on _ (by assumption)) rfl ?_
    | with_unfolding_none first
        | apply KeepsIn.refl | assumption | intro _ | apply KeepsIn.ite | apply KeepsIn.after (updUnit_k ..)
        | apply KeepsIn.after (switchDefer_k ..)
    | dsimp only | split

theorem execLineLaserFadeWindow_k (p : Port) (pwr ferr : Int) (s : State) :
    ResK [.opt, .host, .mgmt, .pages, .cnts] s (execLineLaserFadeWindow p pwr ferr s) := by
  unfold execLineLaserFadeWindow
  repeat' first
    | exact rfl
    | with_unfolding_none first
        | apply KeepsIn.refl | apply ResK.next | assumption | intro _ | apply KeepsIn.ite
        | apply KeepsIn.after (updUnit_k ..) | apply KeepsIn.after (updLaser_k ..) | apply KeepsIn.after (raiseEv_k ..)
        | apply KeepsIn.after (switchSchedule_k ..)
    | dsimp only | split

theorem unpend_k (p : Nat) (extra : LUnit → LUnit) (s : State) : KeepsIn [.opt] s (unpend p extra s) := by
  unfold unpend
  repeat' first
    | exact rfl
    | with_unfolding_none first
        | apply KeepsIn.refl | assumption | intro _ | apply KeepsIn.ite | apply KeepsIn.after (updUnit_k ..)
    | dsimp only | split

theorem execLineSwitchStart_k (p : Port) (s : State) :
    ResK [.line, .opt, .host, .mgmt, .pages, .cnts] s (execLineSwitchStart p s) := by
  unfold execLineSwitchStart
  repeat' first
    | exact rfl | refine KeepsIn.after ((switchRefused_k _ _).on _ (by assumption)) rfl ?_
    | with_unfolding_none first
        | apply KeepsIn.refl | apply ResK.next | assumption | intro _ | apply KeepsIn.ite
        | apply KeepsIn.after (switchDefer_k ..) | apply KeepsIn.after (unpend_k ..)
        | apply KeepsIn.after (State.updOpt_k ..) | apply KeepsIn.after (holdAnnounce_k ..)
    | dsimp only | split

theorem execEmergencySwitch_k (p : Port) (s : State) :
    ResK [.line, .opt, .host, .mgmt, .pages, .cnts] s (execEmergencySwitch p s) := by
  unfold execEmergencySwitch
  repeat' first
    | exact rfl
    | with_unfolding_none first
        | apply KeepsIn.refl | apply ResK.next | assumption | intro _ | apply KeepsIn.ite
        | apply KeepsIn.after (raiseEv_k ..) | apply KeepsIn.after (updLaser_k ..) | apply KeepsIn.after (updPort_k ..)
        | apply KeepsIn.after (unpend_k ..)
    | dsimp only | split

theorem execStandbyFineLock_k (p : Port) (s : State) :
    ResK [.line, .opt, .host, .mgmt, .pages, .cnts] s (execStandbyFineLock p s) := by
  unfold execStandbyFineLock
  repeat' first
    | exact rfl
    | with_unfolding_none first
        | apply KeepsIn.refl | apply ResK.next | assumption | intro _ | apply KeepsIn.ite
        | apply KeepsIn.after (holdEnd_k ..) | apply KeepsIn.after (raiseEv_k ..) | apply KeepsIn.after (updUnit_k ..)
        | apply KeepsIn.after (updLaser_k ..)
    | dsimp only | split

theorem execLineLaserUnitReplace_k (p : Port) (s : State) : ResK [.opt] s (execLineLaserUnitReplace p s) := by
  unfold execLineLaserUnitReplace
  repeat' first
    | exact rfl
    | with_unfolding_none first
        | apply KeepsIn.refl | apply ResK.next | assumption | intro _ | apply KeepsIn.ite
        | apply KeepsIn.after (updUnit_k ..)
    | dsimp only | split

theorem coverLane_k (e k : Nat) (s : State) : KeepsIn [.opt] s (coverLane e k s) := by
  unfold coverLane
  repeat' first
    | exact rfl
    | with_unfolding_none first
        | apply KeepsIn.refl | assumption | intro _ | apply KeepsIn.ite | apply KeepsIn.after (updMring_k ..)
        | apply KeepsIn.after (updOeng_k ..)
    | dsimp only | split

theorem coverFailed_k (e k : Nat) (s : State) : KeepsIn [.opt] s (coverFailed e k s) := by
  unfold coverFailed
  repeat' first
    | exact rfl
    | with_unfolding_none first
        | apply KeepsIn.refl | assumption | intro _ | apply KeepsIn.ite | apply KeepsIn.after (updMring_k ..)
        | apply KeepsIn.after (coverLane_k ..)
    | dsimp only | split

theorem uncoverLane_k (e k : Nat) (s : State) : KeepsIn [.opt] s (uncoverLane e k s) := by
  unfold uncoverLane
  repeat' first
    | exact rfl
    | with_unfolding_none first
        | apply KeepsIn.refl | assumption | intro _ | apply KeepsIn.ite | apply KeepsIn.after (parkSpare_k ..)
        | apply KeepsIn.after (updOeng_k ..) | apply KeepsIn.after (coverFailed_k ..)
    | dsimp only | split

theorem relockRing_k (e i : Nat) (s : State) : KeepsIn [.opt] s (relockRing e i s) := by
  unfold relockRing
  repeat' first
    | exact rfl
    | with_unfolding_none first
        | apply KeepsIn.refl | assumption | intro _ | apply KeepsIn.ite | apply KeepsIn.after (updMring_k ..)
        | apply KeepsIn.after (tableRing_k ..)
    | dsimp only | split

theorem laneId_k (e i : Nat) (s : State) : KeepsIn [.host, .mgmt, .pages, .cnts] s (laneId e i s) := by
  unfold laneId
  repeat' first
    | exact rfl
    | with_unfolding_none first
        | apply KeepsIn.refl | assumption | intro _ | apply KeepsIn.ite | apply KeepsIn.after (raiseCap_k ..)
    | dsimp only | split

theorem laneWrong_k (e k : Nat) (s : State) : KeepsIn [.opt, .host, .mgmt, .pages, .cnts] s (laneWrong e k s) := by
  unfold laneWrong
  repeat' first
    | exact rfl
    | with_unfolding_none first
        | apply KeepsIn.refl | assumption | intro _ | apply KeepsIn.ite | apply KeepsIn.after (calAbort_k ..)
        | apply KeepsIn.after (laneId_k ..) | apply KeepsIn.after (relockRing_k ..) | apply KeepsIn.after (coverLane_k ..)
    | dsimp only | split

theorem failLane_k (e k : Nat) (s : State) : KeepsIn [.opt, .host, .mgmt, .pages, .cnts] s (failLane e k s) := by
  unfold failLane
  repeat' first
    | exact rfl
    | with_unfolding_none first
        | apply KeepsIn.refl | assumption | intro _ | apply KeepsIn.ite | apply KeepsIn.after (calAbort_k ..)
        | apply KeepsIn.after (raiseEv_k ..) | apply KeepsIn.after (coverFailed_k ..) | apply KeepsIn.after (updMring_k ..)
    | dsimp only | split

theorem relockFail_k (e k : Nat) (s : State) : KeepsIn [.opt, .host, .mgmt, .pages, .cnts] s (relockFail e k s) := by
  unfold relockFail
  repeat' first
    | exact rfl
    | with_unfolding_none first
        | apply KeepsIn.refl | assumption | intro _ | apply KeepsIn.ite | apply KeepsIn.after (relockRing_k ..)
        | apply KeepsIn.after (updOeng_k ..) | apply KeepsIn.after (failLane_k ..)
    | dsimp only | split

theorem laneCount_k {m : List Part} {wrong : State → State} (hm : subParts [.opt] m = true) (hf : ∀ x0, KeepsIn m x0
    (wrong x0)) (e k : Nat) (bad : Bool) (s : State) :
    KeepsIn m s (laneCount e k bad wrong s) := by
  unfold laneCount
  repeat' first
    | exact rfl | exact subParts_trans rfl hm
    | with_unfolding_none first
        | apply KeepsIn.refl | assumption | intro _ | apply KeepsIn.ite | apply KeepsIn.andThen (hf ..)
        | apply KeepsIn.after (updOeng_k ..)
    | dsimp only | split

theorem laneCheck_k (e : Nat) (mm : BitVec 8) (k : Nat) (s : State) :
    KeepsIn [.opt, .host, .mgmt, .pages, .cnts] s (laneCheck e mm k s) := by
  unfold laneCheck
  repeat' first
    | exact rfl
    | with_unfolding_none first
        | apply KeepsIn.refl | assumption | intro _ | apply KeepsIn.ite | apply KeepsIn.after (relockFail_k ..)
        | apply KeepsIn.after (uncoverLane_k ..) | apply KeepsIn.after (updMring_k ..)
        | apply KeepsIn.after (relockRing_k ..) | apply KeepsIn.andThen (laneCount_k ?_ ?_ ..)
        | apply KeepsIn.after (laneId_k ..) | apply KeepsIn.after (laneWrong_k ..)
    | dsimp only | split

theorem execLaneIdCheck_k (e : Fin 6) (mismatch : BitVec 8) (s : State) :
    ResK [.opt, .host, .mgmt, .pages, .cnts] s (execLaneIdCheck e mismatch s) := by
  unfold execLaneIdCheck
  repeat' first
    | exact rfl
    | with_unfolding_none first
        | apply KeepsIn.refl | apply ResK.next | assumption | intro _ | apply KeepsIn.ite | apply KeepsIn.forAll
        | apply KeepsIn.after (laneCheck_k ..)
    | dsimp only | split

theorem timRelock_k (p : Nat) (s : State) : KeepsIn [.opt] s (timRelock p s) := by
  unfold timRelock
  repeat' first
    | exact rfl
    | with_unfolding_none first
        | apply KeepsIn.refl | assumption | intro _ | apply KeepsIn.ite | apply KeepsIn.after (setFresh_k ..)
        | apply KeepsIn.after (updUnit_k ..) | apply KeepsIn.after (updLaser_k ..)
    | dsimp only | split

theorem timCleared_k (p : Nat) (s : State) : KeepsIn [.opt] s (timCleared p s) := by
  unfold timCleared
  repeat' first
    | exact rfl
    | with_unfolding_none first
        | apply KeepsIn.refl | assumption | intro _ | apply KeepsIn.ite | apply KeepsIn.after (updUnit_k ..)
    | dsimp only | split

theorem execOptTimExternal_k (p : Port) (s : State) :
    ResK [.opt, .host, .mgmt, .pages, .cnts] s (execOptTimExternal p s) := by
  unfold execOptTimExternal
  repeat' first
    | exact rfl
    | with_unfolding_none first
        | apply KeepsIn.refl | apply ResK.next | assumption | intro _ | apply KeepsIn.ite
        | apply KeepsIn.after (raiseCap_k ..) | apply KeepsIn.after (updUnit_k ..)
    | dsimp only | split

theorem laserHold_k (i : Nat) (s : State) : KeepsIn [.opt] s (laserHold i s) := by
  unfold laserHold
  repeat' first
    | exact rfl
    | with_unfolding_none first
        | apply KeepsIn.refl | assumption | intro _ | apply KeepsIn.ite | apply KeepsIn.after (State.updOpt_k ..)
    | dsimp only | split

theorem relockEnd_k (p : Nat) (s : State) : KeepsIn [.opt] s (relockEnd p s) := by
  unfold relockEnd
  repeat' first
    | exact rfl
    | with_unfolding_none first
        | apply KeepsIn.refl | assumption | intro _ | apply KeepsIn.ite | apply KeepsIn.after (updUnit_k ..)
        | apply KeepsIn.after (updLaser_k ..)
    | dsimp only | split

theorem execOptRefFail_k (s : State) : ResK [.opt, .host, .mgmt, .pages, .cnts] s (execOptRefFail s) := by
  unfold execOptRefFail
  repeat' first
    | exact rfl
    | with_unfolding_none first
        | apply KeepsIn.refl | apply ResK.next | assumption | intro _ | apply KeepsIn.ite | apply KeepsIn.forAll
        | apply KeepsIn.after (relockEnd_k ..) | apply KeepsIn.after (laserHold_k ..) | apply KeepsIn.after (raiseEv_k ..)
        | apply KeepsIn.after (State.updOpt_k ..)
    | dsimp only | split

theorem optEnd_k (status : Nat) (s : State) : KeepsIn [.opt] s (optEnd status s) := by
  unfold optEnd
  repeat' first
    | exact rfl
    | with_unfolding_none first
        | apply KeepsIn.refl | assumption | intro _ | apply KeepsIn.ite | apply KeepsIn.after (State.updOpt_k ..)
    | dsimp only | split

theorem calLaneOp_k (e k : Nat) (s : State) : KeepsIn [.opt] s (calLaneOp e k s) := by
  unfold calLaneOp
  repeat' first
    | exact rfl
    | with_unfolding_none first
        | apply KeepsIn.refl | assumption | intro _ | apply KeepsIn.ite | apply KeepsIn.after (optEnd_k ..)
        | apply KeepsIn.after (calRun_k ..)
    | dsimp only | split

theorem lineSwitchOp_k (p : Nat) (s : State) : KeepsIn [.opt, .host, .mgmt, .pages, .cnts] s (lineSwitchOp p s) := by
  unfold lineSwitchOp
  repeat' first
    | exact rfl
    | with_unfolding_none first
        | apply KeepsIn.refl | assumption | intro _ | apply KeepsIn.ite | apply KeepsIn.after (switchSchedule_k ..)
        | apply KeepsIn.after (optEnd_k ..)
    | dsimp only | split

theorem revertOp_k (b : Nat) (s : State) : KeepsIn [.opt, .pages, .cnts] s (revertOp b s) := by
  unfold revertOp
  repeat' first
    | exact rfl
    | with_unfolding_none first
        | apply KeepsIn.refl | assumption | intro _ | apply KeepsIn.ite | apply KeepsIn.after (optEnd_k ..)
        | apply KeepsIn.after (xfStart_k ..)
    | dsimp only | split

theorem saveTablesOp_k (s : State) : KeepsIn [.opt] s (saveTablesOp s) := by
  unfold saveTablesOp
  repeat' first
    | exact rfl
    | with_unfolding_none first
        | apply KeepsIn.refl | assumption | intro _ | apply KeepsIn.ite | apply KeepsIn.after (optEnd_k ..)
        | apply KeepsIn.after (State.updOpt_k ..)
    | dsimp only | split

theorem laneReturnOp_k (e k : Nat) (s : State) : KeepsIn [.opt] s (laneReturnOp e k s) := by
  unfold laneReturnOp
  repeat' first
    | exact rfl
    | with_unfolding_none first
        | apply KeepsIn.refl | assumption | intro _ | apply KeepsIn.ite | apply KeepsIn.after (optEnd_k ..)
        | apply KeepsIn.after (uncoverLane_k ..) | apply KeepsIn.after (updMring_k ..) | apply KeepsIn.after (tableRing_k ..)
    | dsimp only | split

theorem optCmd_k (v : Word) (s : State) : KeepsIn [.opt, .host, .mgmt, .pages, .cnts] s (optCmd v s) := by
  unfold optCmd
  repeat' first
    | exact rfl
    | with_unfolding_none first
        | apply KeepsIn.refl | assumption | intro _ | apply KeepsIn.ite | apply KeepsIn.after (calLaneOp_k ..)
        | apply KeepsIn.after (lineSwitchOp_k ..) | apply KeepsIn.after (revertOp_k ..)
        | apply KeepsIn.after (saveTablesOp_k ..) | apply KeepsIn.after (laneReturnOp_k ..)
        | apply KeepsIn.after (optEnd_k ..)
    | dsimp only | split

theorem tblWr_k (ix : Word) (v : Word) (s : State) : KeepsIn [.opt] s (tblWr ix v s) := by
  unfold tblWr
  repeat' first
    | exact rfl
    | with_unfolding_none first
        | apply KeepsIn.refl | assumption | intro _ | apply KeepsIn.ite | apply KeepsIn.after (setFresh_k ..)
        | apply KeepsIn.after (setTbl_k ..)
    | dsimp only | split

theorem optEffect_k (p o ix : Nat) (tix : Word) (v : DWord) (s : State) :
    EffK [.opt, .host, .mgmt, .pages, .regs, .cnts] s (optEffect p o ix tix v s) := by
  unfold optEffect
  repeat' first
    | exact rfl
    | with_unfolding_none first
        | apply KeepsIn.refl | apply EffK.ok | apply EffK.error | apply EffK.ite | assumption | intro _ | apply KeepsIn.ite
        | apply KeepsIn.after (optCmd_k ..) | apply KeepsIn.after (tblWr_k ..) | apply KeepsIn.after (store_k ..)
        | apply KeepsIn.after (State.updOpt_k ..) | apply EffK.map
    | dsimp only | split

end Sys2Proof.Machine
end

