-- ==== Sys2Proof/Laws/Keeps/Boot.lean ====
section
/-! SUPPORT. What the operations and commands of Machine/Boot.lean keep, and the parts they may change. -/
namespace Sys2Proof.Machine

open Sys2Proof

set_option linter.all false

theorem moduleReset_k (s : State) : KeepsIn [.sch, .vat, .eng, .gc, .sheet, .ring, .outer, .fab, .line, .opt, .ciph, .host, .pool, .mem, .time, .mgmt, .clk, .pwr, .boot, .pages, .regs, .cnts, .snaps, .halves] s (moduleReset s) :=
  KeepsIn.atReset rfl rfl rfl rfl rfl rfl rfl rfl rfl


theorem lockAll_k (s : State) : KeepsIn [.pages] s (lockAll s) :=
  KeepsIn.forAll (KeepsIn.refl s) fun x p => State.updHdr_k p _ x (fun _ h => h) fun _ _ => rfl


theorem bootLock_k (s : State) : KeepsIn [.pages, .regs] s (bootLock s) := by
  unfold bootLock
  repeat' first
    | exact rfl
    | with_unfolding_none first
        | apply KeepsIn.refl | assumption | intro _ | apply KeepsIn.ite | apply KeepsIn.after (lockAll_k ..)
        | apply KeepsIn.after (State.setReg_k ..)
    | dsimp only | split

theorem failOver_k (s : State) : KeepsIn [.host, .mgmt, .clk, .pages, .cnts] s (failOver s) := by
  unfold failOver
  repeat' first
    | exact rfl
    | with_unfolding_none first
        | apply KeepsIn.refl | assumption | intro _ | apply KeepsIn.ite | apply KeepsIn.after (addHealth_k ..)
        | apply KeepsIn.after (nmi_k ..) | apply KeepsIn.after (raiseEv_k ..) | apply KeepsIn.after (State.updClk_k ..)
    | dsimp only | split

theorem bootPll_k (alt : Bool) (s : State) : KeepsIn [.host, .mgmt, .clk, .pages, .cnts] s (bootPll alt s) := by
  unfold bootPll
  repeat' first
    | exact rfl
    | with_unfolding_none first
        | apply KeepsIn.refl | assumption | intro _ | apply KeepsIn.ite | apply KeepsIn.after (State.updClk_k ..)
        | apply KeepsIn.after (failOver_k ..)
    | dsimp only | split

theorem bootPcie_k (detail : Word) (s : State) : KeepsIn [.fab, .host] s (bootPcie detail s) := by
  unfold bootPcie
  repeat' first
    | exact rfl
    | with_unfolding_none first
        | apply KeepsIn.refl | assumption | intro _ | apply KeepsIn.ite | apply KeepsIn.after (State.draw_k ..)
        | apply KeepsIn.after (State.updFab_k ..) | apply KeepsIn.after (State.updHost_k ..)
    | dsimp only | split

theorem bootHbm_k (alt : Bool) (s : State) : KeepsIn [.mem] s (bootHbm alt s) := by
  unfold bootHbm
  repeat' first
    | exact rfl
    | with_unfolding_none first
        | apply KeepsIn.refl | assumption | intro _ | apply KeepsIn.ite | apply KeepsIn.after (State.draw_k ..)
        | apply KeepsIn.after (State.updMem_k _ _ ?_ ?_)
    | dsimp only | split

theorem bootOptics_k (detail : Word) (s : State) : KeepsIn [.opt] s (bootOptics detail s) := by
  unfold bootOptics
  repeat' first
    | exact rfl
    | with_unfolding_none first
        | apply KeepsIn.refl | assumption | intro _ | apply KeepsIn.ite | apply KeepsIn.forAll
        | apply KeepsIn.after (State.updOpt_k ..) | apply KeepsIn.after (lockRings_k ..) | apply KeepsIn.after (updBay_k ..)
    | dsimp only | split

theorem bootLine_k (detail : Word) (s : State) : KeepsIn [.line, .opt, .ciph] s (bootLine detail s) := by
  unfold bootLine
  repeat' first
    | exact rfl
    | with_unfolding_none first
        | apply KeepsIn.refl | assumption | intro _ | apply KeepsIn.ite | apply KeepsIn.forAll
        | apply KeepsIn.after (drawBytes_k ..) | apply KeepsIn.after (State.updCiph_k ..)
        | apply KeepsIn.after (stbyTune_k ..) | apply KeepsIn.after (setFresh_k ..) | apply KeepsIn.after (updUnit_k ..)
        | apply KeepsIn.after (updPort_k ..)
    | dsimp only | split

theorem bootTest_k (alt : Bool) (detail : Word) (s : State) : KeepsIn [.regs] s (bootTest alt detail s) := by
  unfold bootTest
  repeat' first
    | exact rfl
    | with_unfolding_none first
        | apply KeepsIn.refl | assumption | intro _ | apply KeepsIn.ite | apply KeepsIn.forAll
        | apply KeepsIn.after (State.draw_k ..) | apply KeepsIn.after (State.setReg_k ..)
    | dsimp only | split

theorem stepEffect_k (k : Nat) (alt : Bool) (detail : Word) (s : State) :
    KeepsIn [.fab, .line, .opt, .ciph, .host, .mem, .mgmt, .clk, .pages, .regs, .cnts] s (stepEffect k alt detail s) := by
  unfold stepEffect
  repeat' first
    | exact rfl
    | with_unfolding_none first
        | apply KeepsIn.refl | assumption | intro _ | apply KeepsIn.ite | apply KeepsIn.after (lockAll_k ..)
        | apply KeepsIn.after (bootLock_k ..) | apply KeepsIn.after (bootPll_k ..) | apply KeepsIn.after (bootPcie_k ..)
        | apply KeepsIn.after (bootHbm_k ..) | apply KeepsIn.after (bootOptics_k ..) | apply KeepsIn.after (bootLine_k ..)
        | apply KeepsIn.after (bootTest_k ..) | apply KeepsIn.after (raiseEv_k ..)
    | dsimp only | split

theorem stepStart_k (k : Nat) (s : State) : KeepsIn [.pwr, .boot] s (stepStart k s) := by
  unfold stepStart
  repeat' first
    | exact rfl
    | with_unfolding_none first
        | apply KeepsIn.refl | assumption | intro _ | apply KeepsIn.ite | apply KeepsIn.after (State.updPwr_k ..)
        | apply KeepsIn.after (State.updBoot_k ..)
    | dsimp only | split

theorem stepFail_k (s : State) : KeepsIn [.pwr, .boot] s (stepFail s) := by
  unfold stepFail
  repeat' first
    | exact rfl
    | with_unfolding_none first
        | apply KeepsIn.refl | assumption | intro _ | apply KeepsIn.ite | apply KeepsIn.after (State.updBoot_k ..)
        | apply KeepsIn.after (State.updPwr_k ..) | apply KeepsIn.after (State.emit_k ..)
    | dsimp only | split

theorem execBootStepDone_k (r : BootResult) (s : State) :
    ResK [.fab, .line, .opt, .ciph, .host, .mem, .mgmt, .clk, .pwr, .boot, .pages, .regs, .cnts] s (execBootStepDone r s) := by
  unfold execBootStepDone
  repeat' first
    | exact rfl
    | with_unfolding_none first
        | apply KeepsIn.refl | apply ResK.next | assumption | intro _ | apply KeepsIn.ite
        | apply KeepsIn.after (stepFail_k ..) | apply KeepsIn.after (State.updBoot_k ..)
        | apply KeepsIn.after (stepEffect_k ..) | apply KeepsIn.after (stepStart_k ..)
    | dsimp only | split

theorem execBootWatchdog_k (s : State) : ResK [.pwr, .boot] s (execBootWatchdog s) := by
  unfold execBootWatchdog
  repeat' first
    | exact rfl
    | with_unfolding_none first
        | apply KeepsIn.refl | apply ResK.next | assumption | intro _ | apply KeepsIn.ite
        | apply KeepsIn.after (stepFail_k ..)
    | dsimp only | split

theorem execBootRestart_k (s : State) :
    ResK [.sch, .vat, .eng, .gc, .sheet, .ring, .outer, .fab, .line, .opt, .ciph, .host, .pool, .mem, .time, .mgmt, .clk, .pwr, .boot, .pages, .regs, .cnts, .snaps, .halves] s (execBootRestart s) := by
  unfold execBootRestart
  repeat' first
    | exact rfl
    | with_unfolding_none first
        | apply KeepsIn.refl | apply ResK.next | assumption | intro _ | apply KeepsIn.ite
        | apply KeepsIn.after (moduleReset_k ..)
    | dsimp only | split

theorem bootLoad_k (w : Who) (s : State) : KeepsIn [.host, .mgmt, .boot, .pages, .cnts] s (bootLoad w s).2 := by
  unfold bootLoad
  repeat' first
    | exact rfl
    | with_unfolding_none first
        | apply KeepsIn.refl | assumption | intro _ | apply KeepsIn.ite | apply KeepsIn.after (State.updBoot_k ..)
        | apply KeepsIn.after (raiseEv_k ..)
    | dsimp only | split

theorem bootCmdRun_k (w : Who) (v : Word) (s : State) :
    KeepsIn [.sch, .vat, .eng, .gc, .sheet, .ring, .outer, .fab, .line, .opt, .ciph, .host, .pool, .mem, .time, .mgmt, .clk, .pwr, .boot, .pages, .regs, .cnts, .snaps, .halves] s (bootCmdRun w v s).2 := by
  unfold bootCmdRun
  repeat' first
    | exact rfl
    | with_unfolding_none first
        | apply KeepsIn.refl | assumption | intro _ | apply KeepsIn.ite | apply KeepsIn.after (State.updBoot_k ..)
        | apply KeepsIn.after (moduleReset_k ..) | apply KeepsIn.after (bootLoad_k ..)
    | dsimp only | split

theorem bootCmdWr_k (w : Who) (v : Word) (s : State) :
    EffK [.sch, .vat, .eng, .gc, .sheet, .ring, .outer, .fab, .line, .opt, .ciph, .host, .pool, .mem, .time, .mgmt, .clk, .pwr, .boot, .pages, .regs, .cnts, .snaps, .halves] s (bootCmdWr w v s) := by
  unfold bootCmdWr
  repeat' first
    | exact rfl
    | with_unfolding_none first
        | apply KeepsIn.refl | apply EffK.ok | apply EffK.error | apply EffK.ite | assumption | intro _ | apply KeepsIn.ite
        | apply KeepsIn.after (bootCmdRun_k ..) | apply KeepsIn.after (State.updBoot_k ..) | apply EffK.map
    | dsimp only | split

theorem imageWrite_k (p off : Nat) (bs : List Byte) (s : State) : KeepsIn [.boot] s (imageWrite p off bs s) := by
  unfold imageWrite
  repeat' first
    | exact rfl
    | with_unfolding_none first
        | apply KeepsIn.refl | assumption | intro _ | apply KeepsIn.ite | apply KeepsIn.after (State.updBoot_k ..)
    | dsimp only | split

theorem execBar2ImageWrite_k (p : Port) (off : Nat) (bytes : List Byte) (s : State) :
    ResK [.boot] s (execBar2ImageWrite p off bytes s) := by
  unfold execBar2ImageWrite
  repeat' first
    | exact rfl
    | with_unfolding_none first
        | apply KeepsIn.refl | apply ResK.next | assumption | intro _ | apply KeepsIn.ite
        | apply KeepsIn.after (imageWrite_k ..)
    | dsimp only | split

theorem execFlashProgramDone_k (s : State) :
    ResK [.sch, .vat, .eng, .gc, .sheet, .ring, .outer, .fab, .line, .opt, .ciph, .host, .pool, .mem, .time, .mgmt, .clk, .pwr, .boot, .pages, .regs, .cnts, .snaps, .halves] s (execFlashProgramDone s) := by
  unfold execFlashProgramDone
  repeat' first
    | exact rfl
    | with_unfolding_none first
        | apply KeepsIn.refl | apply ResK.next | assumption | intro _ | apply KeepsIn.ite
        | apply KeepsIn.after (moduleReset_k ..) | apply KeepsIn.after (State.updBoot_k ..)
    | dsimp only | split

theorem bootEffect_k (w : Who) (p o ix : Nat) (v : DWord) (s : State) :
    EffK [.sch, .vat, .eng, .gc, .sheet, .ring, .outer, .fab, .line, .opt, .ciph, .host, .pool, .mem, .time, .mgmt, .clk, .pwr, .boot, .pages, .regs, .cnts, .snaps, .halves] s (bootEffect w p o ix v s) := by
  unfold bootEffect
  repeat' first
    | exact rfl
    | with_unfolding_none first
        | apply KeepsIn.refl | apply EffK.ok | apply EffK.error | apply EffK.ite | assumption | intro _ | apply KeepsIn.ite
        | apply EffK.after (bootCmdWr_k ..) | apply KeepsIn.after (EffK.get (bootCmdWr_k ..) (by assumption))
        | apply KeepsIn.after (store_k ..) | apply EffK.map
    | dsimp only | split

end Sys2Proof.Machine
end

