-- ==== Sys2Proof/Laws/Keeps/LineTx.lean ====
section
/-! SUPPORT. What the operations and commands of Machine/LineTx.lean keep, and the parts they may change. -/
namespace Sys2Proof.Machine

open Sys2Proof

set_option linter.all false

theorem segSent_k (q : QSeg) (s : State) : KeepsIn [.ring, .outer] s (segSent q s) := by
  unfold segSent
  repeat' first
    | exact rfl
    | with_unfolding_none first
        | apply KeepsIn.refl | assumption | intro _ | apply KeepsIn.ite | apply KeepsIn.after (updSc_k ..)
        | apply KeepsIn.after (putTx_k ..)
    | dsimp only | split

theorem meterFill_k (p : Nat) (s : State) : KeepsIn [.line] s (meterFill p s) := by
  unfold meterFill
  repeat' first
    | exact rfl
    | with_unfolding_none first
        | apply KeepsIn.refl | assumption | intro _ | apply KeepsIn.ite | apply KeepsIn.forAll
        | apply KeepsIn.after (updPort_k ..)
    | dsimp only | split

theorem meterTake_k (p i n : Nat) (s : State) : KeepsIn [.line] s (meterTake p i n s) := by
  unfold meterTake
  repeat' first
    | exact rfl
    | with_unfolding_none first
        | apply KeepsIn.refl | assumption | intro _ | apply KeepsIn.ite | apply KeepsIn.after (updPort_k ..)
    | dsimp only | split

theorem setCur_k (p t : Nat) (u : Option CurUnit) (s : State) : KeepsIn [.line] s (setCur p t u s) := by
  unfold setCur
  repeat' first
    | exact rfl
    | with_unfolding_none first
        | apply KeepsIn.refl | assumption | intro _ | apply KeepsIn.ite | apply KeepsIn.after (updPort_k ..)
    | dsimp only | split

theorem sendRecord_k (p : Nat) (q : QRec) (s : State) :
    OptK [.ring, .outer, .ciph, .host, .mem, .mgmt, .pages, .cnts] s (fun x => x.2) (sendRecord p q s) := by
  unfold sendRecord
  repeat' first
    | exact rfl
    | with_unfolding_none first
        | apply KeepsIn.refl | apply OptK.ite | apply OptK.none | apply OptK.some | assumption | intro _ | apply KeepsIn.ite
        | apply OptK.after (sealOne_k ..) | apply KeepsIn.after (OptK.get2 (sealOne_k ..) (by assumption))
        | apply KeepsIn.after (resealIfNeeded_k ..)
    | dsimp only | split

theorem pickRecord_k (p : Nat) : ∀ (l : List Nat) (s : State), OptK [.ring, .outer, .line, .ciph, .host, .mem, .mgmt, .pages, .cnts] s (fun x => x.2) (pickRecord p l s) := by
  intro l
  induction l with
  | nil => intro s; rw [pickRecord]; exact OptK.none
  | cons i is ih =>
    intro s
    rw [pickRecord]
    split
    · exact ih s
    · split
      · exact ih s
      · apply OptK.some
        dsimp only
        exact KeepsIn.after (setCur_k ..) rfl (KeepsIn.after (updPort_k ..) rfl
          (KeepsIn.after (OptK.get2 (sendRecord_k ..) (by assumption)) rfl (KeepsIn.refl _)))


theorem pickSheets_k (p t cls : Nat) (chs : List Nat) (s : State) :
    OptK [.ring, .outer, .line] s (fun x => x.2) (pickSheets p t cls chs s) := by
  unfold pickSheets
  repeat' first
    | exact rfl
    | with_unfolding_none first
        | apply KeepsIn.refl | apply OptK.ite | apply OptK.none | apply OptK.some | assumption | intro _ | apply KeepsIn.ite
        | apply KeepsIn.after (segSent_k ..) | apply KeepsIn.after (meterTake_k ..) | apply KeepsIn.after (updPort_k ..)
    | dsimp only | split

theorem pickProt_k (p : Nat) (s : State) :
    OptK [.line, .ciph, .host, .mem, .time, .mgmt, .pages, .cnts] s (fun x => x.2) (pickProt p s) := by
  unfold pickProt
  repeat' first
    | exact rfl
    | with_unfolding_none first
        | apply KeepsIn.refl | apply OptK.ite | apply OptK.none | apply OptK.some | assumption | intro _ | apply KeepsIn.ite
        | apply KeepsIn.after (updPort_k ..) | apply OptK.after (sealOne_k ..)
        | apply KeepsIn.after (OptK.get2 (sealOne_k ..) (by assumption)) | apply KeepsIn.after (setCur_k ..)
        | apply KeepsIn.after (pushStamp_k ..)
    | dsimp only | split

theorem pickMgmt_k (p : Nat) (s : State) :
    OptK [.line, .ciph, .host, .mem, .mgmt, .pages, .cnts] s (fun x => x.2) (pickMgmt p s) := by
  unfold pickMgmt
  repeat' first
    | exact rfl
    | with_unfolding_none first
        | apply KeepsIn.refl | apply OptK.ite | apply OptK.none | apply OptK.some | assumption | intro _ | apply KeepsIn.ite
        | apply OptK.after (sealOne_k ..) | apply KeepsIn.after (OptK.get2 (sealOne_k ..) (by assumption))
        | apply KeepsIn.after (setCur_k ..) | apply KeepsIn.after (updPort_k ..)
    | dsimp only | split

theorem ownUnit_k (p : Nat) {m : List Part} (hm : subParts [.pages, .cnts] m = true) (s : State) (r : Option (List Byte × State))
    (hr : OptK m s (fun x => x.2) r) : OptK m s (fun x => x.2.2) (ownUnit p r) := by
  unfold ownUnit
  cases r with
  | none => exact OptK.none
  | some a => exact OptK.some (KeepsIn.after (bump_k ..) hm (hr.on a rfl))


theorem nextUnit_k (p t : Nat) (s : State) : OptK [.ring, .outer, .line, .ciph, .host, .mem, .time, .mgmt, .pages, .cnts] s (fun x => x.2.2) (nextUnit p t s) := by
  unfold nextUnit
  dsimp only
  have h0 := setCur_k p t none s
  generalize setCur p t none s = s1 at h0 ⊢
  refine OptK.after (l := [.ring, .outer, .line, .ciph, .host, .mem, .time, .mgmt, .pages, .cnts]) ?_ (by decide) (h0.mono (by decide))
  split
  · exact ownUnit_k _ rfl _ _ (OptK.after (pickProt_k ..) rfl (KeepsIn.refl _))
  · split
    · exact ownUnit_k _ rfl _ _ (OptK.after (pickMgmt_k ..) rfl (KeepsIn.refl _))
    · split
      · split
        · exact OptK.none
        · split
          · exact OptK.none
          · exact OptK.some (KeepsIn.after (updPort_k ..) rfl (KeepsIn.refl _))
      · split
        · exact OptK.none
        · refine ownUnit_k _ rfl _ _ ?_
          split
          · exact ⟨fun a e => by cases e; exact (OptK.after (pickRecord_k ..) rfl (KeepsIn.refl _)).on _ (by assumption)⟩
          · split
            · exact ⟨fun a e => by cases e; exact (OptK.after (pickSheets_k ..) rfl (KeepsIn.refl _)).on _ (by assumption)⟩
            · exact OptK.after (pickSheets_k ..) rfl (KeepsIn.refl _)


theorem fillWords_k (p t : Nat) : ∀ (fuel left : Nat) (acc : List Byte) (ptr : Option Nat) (cur : List Byte) (s : State),
    KeepsIn [.ring, .outer, .line, .ciph, .host, .mem, .time, .mgmt, .pages, .cnts] s (fillWords p t fuel left acc ptr cur s).2.2.2 := by
  intro fuel
  induction fuel with
  | zero => intro left acc ptr cur s; rw [fillWords]; exact KeepsIn.refl _
  | succ n ih =>
    intro left acc ptr cur s
    rw [fillWords]
    split
    · exact KeepsIn.refl _
    · split
      · exact ih ..
      · split
        · exact KeepsIn.refl _
        · next b seg s1 h => exact KeepsIn.trans (((nextUnit_k p t s).on _ h).mono rfl) (ih ..)


theorem noChan_k (p : Nat) (s : State) : KeepsIn [.line, .host, .mgmt, .pages, .cnts] s (noChan p s) := by
  unfold noChan
  repeat' first
    | exact rfl
    | with_unfolding_none first
        | apply KeepsIn.refl | assumption | intro _ | apply KeepsIn.ite | apply KeepsIn.forAll
        | apply KeepsIn.after (raiseEv_k ..) | apply KeepsIn.after (updPort_k ..)
    | dsimp only | split

theorem purgeSegs_k (p : Nat) (s : State) : KeepsIn [.line] s (purgeSegs p s) := by
  unfold purgeSegs
  repeat' first
    | exact rfl
    | with_unfolding_none first
        | apply KeepsIn.refl | assumption | intro _ | apply KeepsIn.ite | apply KeepsIn.after (updPort_k ..)
    | dsimp only | split

theorem noteWaits_k (p : Nat) (s : State) :
    KeepsIn [.line, .ciph, .host, .pool, .mem, .mgmt, .pages, .cnts] s (noteWaits p s) := by
  unfold noteWaits
  repeat' first
    | exact rfl
    | with_unfolding_none first
        | apply KeepsIn.refl | assumption | intro _ | apply KeepsIn.ite | apply KeepsIn.forAll
        | apply KeepsIn.after (noteWait_k ..)
    | dsimp only | split

theorem runWords_k (p t words : Nat) (cur : List Byte) (s : State) :
    KeepsIn [.ring, .outer, .line, .ciph, .host, .mem, .time, .mgmt, .pages, .cnts] s (runWords p t words cur s).2 := by
  unfold runWords
  repeat' first
    | exact rfl
    | with_unfolding_none first
        | apply KeepsIn.refl | assumption | intro _ | apply KeepsIn.ite | apply KeepsIn.after (fillWords_k ..)
        | apply KeepsIn.after (updPort_k ..)
    | dsimp only | split

theorem tribArea_k (p f : Nat) (just : Nat → Just) (t : Nat) (s : State) :
    KeepsIn [.ring, .outer, .line, .ciph, .host, .mem, .time, .mgmt, .pages, .cnts] s (tribArea p f just t s).2 := by
  unfold tribArea
  repeat' first
    | exact rfl
    | with_unfolding_none first
        | apply KeepsIn.refl | assumption | intro _ | apply KeepsIn.ite | apply KeepsIn.after (runWords_k ..)
    | dsimp only | split

theorem allAreas_k (p f : Nat) (just : Nat → Just) : ∀ (l : List Nat) (s : State), KeepsIn [.ring, .outer, .line, .ciph, .host, .mem, .time, .mgmt, .pages, .cnts] s (allAreas p f just l s).2 := by
  intro l
  induction l with
  | nil =>
    intro s
    rw [allAreas]
    repeat' first
      | exact rfl
      | with_unfolding_none first
          | apply KeepsIn.refl | assumption | apply KeepsIn.ite | apply KeepsIn.after (ih ..)
          | apply KeepsIn.after (tribArea_k ..)
      | dsimp only | split
  | cons a l ih =>
    intro s
    rw [allAreas]
    repeat' first
      | exact rfl
      | with_unfolding_none first
          | apply KeepsIn.refl | assumption | apply KeepsIn.ite | apply KeepsIn.after (ih ..)
          | apply KeepsIn.after (tribArea_k ..)
      | dsimp only | split

theorem frameTransmit_k (p : Nat) (s0 : State) :
    KeepsIn [.ring, .outer, .line, .ciph, .host, .pool, .mem, .time, .mgmt, .pages, .cnts] s0 (frameTransmit p s0) := by
  unfold frameTransmit
  repeat' first
    | exact rfl
    | with_unfolding_none first
        | apply KeepsIn.refl | assumption | intro _ | apply KeepsIn.ite | apply KeepsIn.forAll
        | apply KeepsIn.after (noteWaits_k ..) | apply KeepsIn.after (noChan_k ..) | apply KeepsIn.after (meterFill_k ..)
        | apply KeepsIn.after (purgeSegs_k ..) | apply KeepsIn.after (scSeal_k ..) | apply KeepsIn.after (runWords_k ..)
        | apply KeepsIn.after (allAreas_k ..) | apply KeepsIn.after (updPort_k ..) | apply KeepsIn.after (State.emit_k ..)
    | dsimp only | split

theorem execFrameTransmit_k (p : Port) (s : State) :
    ResK [.ring, .outer, .line, .ciph, .host, .pool, .mem, .time, .mgmt, .pages, .cnts] s (execFrameTransmit p s) := by
  unfold execFrameTransmit
  repeat' first
    | exact rfl
    | with_unfolding_none first
        | apply KeepsIn.refl | apply ResK.next | assumption | intro _ | apply KeepsIn.ite
        | apply KeepsIn.after (frameTransmit_k ..)
    | dsimp only | split

end Sys2Proof.Machine
end

