-- ==== Sys2Proof/Laws/Keeps/Reconf.lean ====
section
/-! SUPPORT. What the operations and commands of Machine/Reconf.lean keep, and the parts they may change. -/
namespace Sys2Proof.Machine

open Sys2Proof

set_option linter.all false

theorem updMpeer_k (i : Nat) (f : MPeer → MPeer) (s : State) : KeepsIn [.mgmt] s (updMpeer i f s) := by
  unfold updMpeer
  repeat' first
    | exact rfl
    | with_unfolding_none first
        | apply KeepsIn.refl | assumption | intro _ | apply KeepsIn.ite | apply KeepsIn.after (State.updMgmt_k ..)
    | dsimp only | split

theorem updMgrp_k (g : Nat) (f : MGrp → MGrp) (s : State) : KeepsIn [.mgmt] s (updMgrp g f s) := by
  unfold updMgrp
  repeat' first
    | exact rfl
    | with_unfolding_none first
        | apply KeepsIn.refl | assumption | intro _ | apply KeepsIn.ite | apply KeepsIn.after (State.updMgmt_k ..)
    | dsimp only | split

theorem groupHold_k (g : Nat) (s : State) : KeepsIn [.ring, .host, .mgmt, .pages, .cnts] s (groupHold g s) := by
  unfold groupHold
  repeat' first
    | exact rfl
    | with_unfolding_none first
        | apply KeepsIn.refl | assumption | intro _ | apply KeepsIn.ite | apply KeepsIn.after (raiseEv_k ..)
        | apply KeepsIn.after (updMgrp_k ..) | apply KeepsIn.after (updGrp_k ..)
    | dsimp only | split

theorem groupResume_k (sf : Nat → Bool) (g : Nat) (s : State) :
    KeepsIn [.ring, .line, .host, .mgmt, .pages, .cnts] s (groupResume sf g s) := by
  unfold groupResume
  repeat' first
    | exact rfl
    | with_unfolding_none first
        | apply KeepsIn.refl | assumption | intro _ | apply KeepsIn.ite | apply KeepsIn.after (resendSome_k ..)
        | apply KeepsIn.after (updGrp_k ..)
    | dsimp only | split

theorem setFence_k (g : Nat) (fenced : BitVec 16) (s : State) :
    KeepsIn [.host, .mgmt, .pages, .cnts] s (setFence g fenced s) := by
  unfold setFence
  repeat' first
    | exact rfl
    | with_unfolding_none first
        | apply KeepsIn.refl | assumption | intro _ | apply KeepsIn.ite | apply KeepsIn.after (bumpEv_k ..)
        | apply KeepsIn.after (updMgrp_k ..)
    | dsimp only | split

theorem freeCoresOf_k (e : Entry) (s : State) : KeepsIn [.gc] s (freeCoresOf e s) := by
  unfold freeCoresOf
  repeat' first
    | exact rfl
    | with_unfolding_none first
        | apply KeepsIn.refl | assumption | intro _ | apply KeepsIn.ite | apply KeepsIn.forAll
        | apply KeepsIn.after (coreFree_k ..)
    | dsimp only | split

theorem reconfClear_k (g : Nat) (s : State) :
    KeepsIn [.sch, .vat, .eng, .gc, .sheet, .ring, .fab, .line, .host, .pool, .mem, .mgmt, .pages, .cnts] s (reconfClear g s) := by
  unfold reconfClear
  repeat' first
    | exact rfl
    | with_unfolding_none first
        | apply KeepsIn.refl | assumption | intro _ | apply KeepsIn.ite | apply KeepsIn.forAll
        | apply KeepsIn.after (stopEntry_k ..) | apply KeepsIn.after (freeCoresOf_k ..)
        | apply KeepsIn.after (dropGroup_k ..) | apply KeepsIn.after (waveRelease_k ..) | apply KeepsIn.after (setGates_k ..)
        | apply KeepsIn.after (State.updGc_k ..)
    | dsimp only | split

theorem mergeForm_k (g : Nat) (s : State) : KeepsIn [.sch, .gc, .outer, .host, .mgmt, .pages, .cnts] s (mergeForm g s) := by
  unfold mergeForm
  repeat' first
    | exact rfl
    | with_unfolding_none first
        | apply KeepsIn.refl | assumption | intro _ | apply KeepsIn.ite | apply KeepsIn.forAll
        | apply KeepsIn.after (rootTask_k ..) | apply KeepsIn.after (State.updOuter_k ..)
    | dsimp only | split

theorem reconfMember_k (g : Nat) (epoch : Word) (fenced : BitVec 16) (cut : Option (BitVec 4)) (leader : Nat) (s : State) :
    KeepsIn [.sch, .vat, .eng, .gc, .sheet, .ring, .outer, .fab, .line, .host, .pool, .mem, .mgmt, .pages, .cnts] s (reconfMember g epoch fenced cut leader s) := by
  unfold reconfMember
  repeat' first
    | exact rfl
    | with_unfolding_none first
        | apply KeepsIn.refl | assumption | intro _ | apply KeepsIn.ite | apply KeepsIn.whenD
        | apply KeepsIn.after (setFence_k ..) | apply KeepsIn.after (updMgrp_k ..) | apply KeepsIn.after (reconfClear_k ..)
        | apply KeepsIn.after (updGrp_k ..) | apply KeepsIn.after (mergeForm_k ..) | apply KeepsIn.after (State.emit_k ..)
    | dsimp only | split

theorem adoptStart_k (g : Nat) (names : List (Option (Fin 16))) (s : State) :
    KeepsIn [.ring, .outer, .line, .ciph, .host, .pool, .mem, .mgmt, .pages, .cnts] s (adoptStart g names s) := by
  unfold adoptStart
  repeat' first
    | exact rfl
    | with_unfolding_none first
        | apply KeepsIn.refl | assumption | intro _ | apply KeepsIn.ite | apply KeepsIn.foldl'
        | apply KeepsIn.foldlP (st := Prod.snd) | apply KeepsIn.foldlP (st := Prod.fst) | apply KeepsIn.after (updMgrp_k ..)
        | apply KeepsIn.after (adoptPump_k ..) | apply KeepsIn.after (updGrp_k ..) | apply KeepsIn.after (State.updRing_k ..)
    | dsimp only | split

theorem reconfUp_k (g : Nat) (s : State) :
    KeepsIn [.sch, .gc, .ring, .outer, .host, .mem, .mgmt, .pages, .cnts] s (reconfUp g s) := by
  unfold reconfUp
  repeat' first
    | exact rfl
    | with_unfolding_none first
        | apply KeepsIn.refl | assumption | intro _ | apply KeepsIn.ite | apply KeepsIn.whenD | apply KeepsIn.forAll
        | apply KeepsIn.foldl' | apply KeepsIn.foldlP (st := Prod.snd) | apply KeepsIn.foldlP (st := Prod.fst)
        | apply KeepsIn.after (hbmWrite_k ..) | apply KeepsIn.after (updMgrp_k ..) | apply KeepsIn.after (updGrp_k ..)
        | apply KeepsIn.after (State.updOuter_k ..) | apply KeepsIn.after (rootTask_k ..)
        | apply KeepsIn.after (planFirst_k ..) | apply KeepsIn.after (bump_k ..) | apply KeepsIn.after (State.updMgmt_k ..)
    | dsimp only | split

theorem reconfNamed_k (g : Nat) (names : List (Option (Fin 16))) (ap : List DWord) (s : State) :
    KeepsIn [.sch, .gc, .ring, .outer, .line, .ciph, .host, .pool, .mem, .mgmt, .pages, .cnts] s (reconfNamed g names ap s) := by
  unfold reconfNamed
  repeat' first
    | exact rfl
    | with_unfolding_none first
        | apply KeepsIn.refl | assumption | intro _ | apply KeepsIn.ite | apply KeepsIn.after (adoptStart_k ..)
        | apply KeepsIn.after (reconfUp_k ..) | apply KeepsIn.after (updMgrp_k ..)
    | dsimp only | split

theorem reconfReadyOp_k (g pos : Nat) (ap : List DWord) (names : List (Option (Fin 16))) (s : State) :
    KeepsIn [.sch, .gc, .ring, .outer, .line, .ciph, .host, .pool, .mem, .mgmt, .pages, .cnts] s (reconfReadyOp g pos ap names s) := by
  unfold reconfReadyOp
  repeat' first
    | exact rfl
    | with_unfolding_none first
        | apply KeepsIn.refl | assumption | intro _ | apply KeepsIn.ite | apply KeepsIn.forAll
        | apply KeepsIn.after (reconfNamed_k ..) | apply KeepsIn.after (updMgrp_k ..) | apply KeepsIn.after (State.emit_k ..)
    | dsimp only | split

theorem adoptWave_k (g k : Nat) (a : Option Nat) (ws : List Word) (s : State) :
    KeepsIn [.ring, .outer, .line, .ciph, .host, .pool, .mem, .mgmt, .pages, .cnts] s (adoptWave g k a ws s) := by
  unfold adoptWave
  repeat' first
    | exact rfl
    | with_unfolding_none first
        | apply KeepsIn.refl | assumption | intro _ | apply KeepsIn.ite | apply KeepsIn.whenD | apply KeepsIn.foldl'
        | apply KeepsIn.foldlP (st := Prod.snd) | apply KeepsIn.foldlP (st := Prod.fst)
        | apply KeepsIn.after (repeatRecs_k ..) | apply KeepsIn.after (bump_k ..) | apply KeepsIn.after (sendRec_k ..)
        | apply KeepsIn.after (putRx_k ..) | apply KeepsIn.after (adoptPump_k ..) | apply KeepsIn.after (updMgrp_k ..)
        | apply KeepsIn.after (hbmWrite_k ..) | apply KeepsIn.after (State.updRing_k ..)
    | dsimp only | split

theorem adoptBlock_k (g src r blk : Nat) (write : Bool) (arrs : List (List Word)) (s : State) :
    KeepsIn [.ring, .outer, .line, .ciph, .host, .pool, .mem, .mgmt, .pages, .cnts] s (adoptBlock g src r blk write arrs s) := by
  unfold adoptBlock
  repeat' first
    | exact rfl
    | with_unfolding_none first
        | apply KeepsIn.refl | assumption | intro _ | apply KeepsIn.ite | apply KeepsIn.forAll
        | apply KeepsIn.after (adoptWave_k ..)
    | dsimp only | split

theorem adoptOp_k (g r blk : Nat) (epoch : Word) (th m v : List Word) (applied : DWord) (s : State) :
    KeepsIn [.sch, .gc, .ring, .outer, .line, .ciph, .host, .pool, .mem, .mgmt, .pages, .cnts] s (adoptOp g r blk epoch th m v applied s) := by
  unfold adoptOp
  repeat' first
    | exact rfl
    | with_unfolding_none first
        | apply KeepsIn.refl | assumption | intro _ | apply KeepsIn.ite | apply KeepsIn.after (raiseEv_k ..)
        | apply KeepsIn.after (epochNak_k ..) | apply KeepsIn.after (adoptBlock_k ..) | apply KeepsIn.after (updMgrp_k ..)
        | apply KeepsIn.after (bump_k ..) | apply KeepsIn.after (hbmWrite_k ..) | apply KeepsIn.after (reconfUp_k ..)
    | dsimp only | split

theorem startReconf_k (g : Nat) (cut : Option Nat) (s : State) :
    KeepsIn [.sch, .vat, .eng, .gc, .sheet, .ring, .outer, .fab, .line, .ciph, .host, .pool, .mem, .mgmt, .pages, .cnts] s (startReconf g cut s) := by
  unfold startReconf
  repeat' first
    | exact rfl
    | with_unfolding_none first
        | apply KeepsIn.refl | assumption | intro _ | apply KeepsIn.ite | apply KeepsIn.forAll
        | apply KeepsIn.after (setFence_k ..) | apply KeepsIn.after (State.draw_k ..) | apply KeepsIn.after (State.emit_k ..)
        | apply KeepsIn.after (updGrp_k ..) | apply KeepsIn.after (reconfMember_k ..)
        | apply KeepsIn.after (reconfReadyOp_k ..)
    | dsimp only | split

theorem sfCleared_k (sf : Nat → Bool) (p : Nat) (s : State) :
    KeepsIn [.sch, .vat, .eng, .gc, .sheet, .ring, .outer, .fab, .line, .ciph, .host, .pool, .mem, .mgmt, .pages, .cnts] s (sfCleared sf p s) := by
  unfold sfCleared
  repeat' first
    | exact rfl
    | with_unfolding_none first
        | apply KeepsIn.refl | assumption | intro _ | apply KeepsIn.ite | apply KeepsIn.forAll
        | apply KeepsIn.after (startReconf_k ..) | apply KeepsIn.after (groupResume_k ..)
    | dsimp only | split

end Sys2Proof.Machine
end

