-- ==== Sys2Proof/Laws/Keeps/Line.lean ====
section
/-! SUPPORT. What the operations and commands of Machine/Line.lean keep, and the parts they may change. -/
namespace Sys2Proof.Machine

open Sys2Proof

set_option linter.all false

theorem unitArrive_k (p t : Nat) (b : List Byte) (s : State) :
    KeepsIn [.line, .host, .mgmt, .pages, .cnts] s (unitArrive p t b s) := by
  unfold unitArrive
  repeat' first
    | exact rfl
    | with_unfolding_none first
        | apply KeepsIn.refl | assumption | intro _ | apply KeepsIn.ite | apply KeepsIn.foldl'
        | apply KeepsIn.foldlP (st := Prod.snd) | apply KeepsIn.foldlP (st := Prod.fst) | apply KeepsIn.after (raiseEv_k ..)
        | apply KeepsIn.after (updPort_k ..) | apply KeepsIn.after (State.emit_k ..)
    | dsimp only | split

theorem setAsm_k (p t : Nat) (step : Bool) (asm : List Byte) (s : State) : KeepsIn [.line] s (setAsm p t step asm s) := by
  unfold setAsm
  repeat' first
    | exact rfl
    | with_unfolding_none first
        | apply KeepsIn.refl | assumption | intro _ | apply KeepsIn.ite | apply KeepsIn.after (updPort_k ..)
    | dsimp only | split

theorem takeUnits_k (p t : Nat) (bytes : List Byte) (s : State) :
    KeepsIn [.line, .host, .mgmt, .pages, .cnts] s (takeUnits p t bytes s) := by
  unfold takeUnits
  repeat' first
    | exact rfl
    | with_unfolding_none first
        | apply KeepsIn.refl | assumption | intro _ | apply KeepsIn.ite | apply KeepsIn.forAll
        | apply KeepsIn.after (setAsm_k ..) | apply KeepsIn.after (unitArrive_k ..)
    | dsimp only | split

theorem delineate_k (p t ptr : Nat) (words : List Byte) (s : State) :
    KeepsIn [.line, .host, .mgmt, .pages, .cnts] s (delineate p t ptr words s) := by
  unfold delineate
  repeat' first
    | exact rfl
    | with_unfolding_none first
        | apply KeepsIn.refl | assumption | intro _ | apply KeepsIn.ite | apply KeepsIn.after (setAsm_k ..)
        | apply KeepsIn.after (takeUnits_k ..) | apply KeepsIn.after (bump_k ..)
    | dsimp only | split

theorem rxTrib_k (p f : Nat) (bytes : List Byte) (t : Nat) (s : State) :
    KeepsIn [.line, .host, .mgmt, .pages, .cnts] s (rxTrib p f bytes t s) := by
  unfold rxTrib
  repeat' first
    | exact rfl
    | with_unfolding_none first
        | apply KeepsIn.refl | assumption | intro _ | apply KeepsIn.ite | apply KeepsIn.after (bump_k ..)
        | apply KeepsIn.after (delineate_k ..)
    | dsimp only | split

theorem rxMcc_k (p : Nat) (mcc : List Byte) (s : State) : KeepsIn [.line] s (rxMcc p mcc s) := by
  unfold rxMcc
  repeat' first
    | exact rfl
    | with_unfolding_none first
        | apply KeepsIn.refl | assumption | intro _ | apply KeepsIn.ite | apply KeepsIn.forAll
        | apply KeepsIn.after (State.emit_k ..) | apply KeepsIn.after (updPort_k ..)
    | dsimp only | split

theorem dropSteps_k (p : Nat) (s : State) : KeepsIn [.line] s (dropSteps p s) := by
  unfold dropSteps
  repeat' first
    | exact rfl
    | with_unfolding_none first
        | apply KeepsIn.refl | assumption | intro _ | apply KeepsIn.ite | apply KeepsIn.after (updPort_k ..)
    | dsimp only | split

theorem rxOverhead_k (p : Nat) (bytes : List Byte) (at_ : DWord) (s : State) :
    KeepsIn [.line, .host, .time, .mgmt, .pages, .cnts] s (rxOverhead p bytes at_ s) := by
  unfold rxOverhead
  repeat' first
    | exact rfl
    | with_unfolding_none first
        | apply KeepsIn.refl | assumption | intro _ | apply KeepsIn.ite | apply KeepsIn.after (rxMcc_k ..)
        | apply KeepsIn.after (bump_k ..) | apply KeepsIn.after (updPort_k ..) | apply KeepsIn.after (ttReceive_k ..)
        | apply KeepsIn.after (selEvalAll_k ..) | apply KeepsIn.after (holdForce_k ..)
        | apply KeepsIn.after (holdRelease_k ..)
    | dsimp only | split

theorem execFrameReceive_k (p : Port) (bytes : List Byte) (at_ : BitVec 64) (fec : FecCounts) (s : State) :
    ResK [.line, .host, .time, .mgmt, .pages, .cnts] s (execFrameReceive p bytes at_ fec s) := by
  unfold execFrameReceive
  repeat' first
    | exact rfl
    | with_unfolding_none first
        | apply KeepsIn.refl | apply ResK.next | assumption | intro _ | apply KeepsIn.ite | apply KeepsIn.forAll
        | apply KeepsIn.after (bump_k ..) | apply KeepsIn.after (rxOverhead_k ..) | apply KeepsIn.after (rxTrib_k ..)
    | dsimp only | split

theorem raiseDefect_k (p i : Nat) (s : State) : KeepsIn [.opt, .host, .mgmt, .pages, .cnts] s (raiseDefect p i s) := by
  unfold raiseDefect
  repeat' first
    | exact rfl
    | with_unfolding_none first
        | apply KeepsIn.refl | assumption | intro _ | apply KeepsIn.ite | apply KeepsIn.after (timRelock_k ..)
        | apply KeepsIn.after (raiseCap_k ..) | apply KeepsIn.after (raiseEv_k ..)
    | dsimp only | split

theorem setDefects_k (p : Nat) (d : BitVec 8) (s : State) :
    KeepsIn [.line, .opt, .host, .mgmt, .pages, .cnts] s (setDefects p d s) := by
  unfold setDefects
  repeat' first
    | exact rfl
    | with_unfolding_none first
        | apply KeepsIn.refl | assumption | intro _ | apply KeepsIn.ite | apply KeepsIn.forAll
        | apply KeepsIn.after (updPort_k ..) | apply KeepsIn.after (dropSteps_k ..) | apply KeepsIn.after (raiseDefect_k ..)
        | apply KeepsIn.after (selEvalAll_k ..)
    | dsimp only | split

theorem execDefectSet_k (p : Port) (k : Defect) (s : State) :
    ResK [.line, .opt, .host, .mgmt, .pages, .cnts] s (execDefectSet p k s) := by
  unfold execDefectSet
  repeat' first
    | exact rfl
    | with_unfolding_none first
        | apply KeepsIn.refl | apply ResK.next | assumption | intro _ | apply KeepsIn.ite
        | apply KeepsIn.after (setDefects_k ..)
    | dsimp only | split

theorem scDefectResend_k (p i : Nat) (s : State) :
    KeepsIn [.outer, .line, .host, .mgmt, .pages, .cnts] s (scDefectResend p i s) := by
  unfold scDefectResend
  repeat' first
    | exact rfl
    | with_unfolding_none first
        | apply KeepsIn.refl | assumption | intro _ | apply KeepsIn.ite | apply KeepsIn.forAll
        | apply KeepsIn.after (scResend_k ..) | apply KeepsIn.after (updPort_k ..)
    | dsimp only | split

theorem defectResend_k (p : Nat) (s : State) :
    KeepsIn [.ring, .outer, .line, .host, .mgmt, .pages, .cnts] s (defectResend p s) := by
  unfold defectResend
  repeat' first
    | exact rfl
    | with_unfolding_none first
        | apply KeepsIn.refl | assumption | intro _ | apply KeepsIn.ite | apply KeepsIn.forAll
        | apply KeepsIn.after (resendSome_k ..) | apply KeepsIn.after (scDefectResend_k ..)
    | dsimp only | split

theorem pmSecond_k (p : Nat) (g : Gauges) (s : State) : KeepsIn [.line, .host, .mgmt, .pages, .cnts] s (pmSecond p g s) := by
  unfold pmSecond
  repeat' first
    | exact rfl
    | with_unfolding_none first
        | apply KeepsIn.refl | assumption | intro _ | apply KeepsIn.ite | apply KeepsIn.after (updPort_k ..)
        | apply KeepsIn.after (raiseEv_k ..)
    | dsimp only | split

theorem execPmSecond_k (p : Port) (g : Gauges) (s : State) :
    ResK [.line, .host, .mgmt, .pages, .cnts] s (execPmSecond p g s) := by
  unfold execPmSecond
  repeat' first
    | exact rfl
    | with_unfolding_none first
        | apply KeepsIn.refl | apply ResK.next | assumption | intro _ | apply KeepsIn.ite
        | apply KeepsIn.after (pmSecond_k ..)
    | dsimp only | split

theorem execPmBinClose_k (p : Port) (day : Bool) (s : State) : ResK [.line] s (execPmBinClose p day s) := by
  unfold execPmBinClose
  repeat' first
    | exact rfl
    | with_unfolding_none first
        | apply KeepsIn.refl | apply ResK.next | assumption | intro _ | apply KeepsIn.ite
        | apply KeepsIn.after (updPort_k ..)
    | dsimp only | split

theorem lineEnable_k (p : Nat) (on : Bool) (s : State) :
    KeepsIn [.line, .opt, .host, .mgmt, .pages, .cnts] s (lineEnable p on s) := by
  unfold lineEnable
  repeat' first
    | exact rfl
    | with_unfolding_none first
        | apply KeepsIn.refl | assumption | intro _ | apply KeepsIn.ite | apply KeepsIn.after (updPort_k ..)
        | apply KeepsIn.after (selEvalAll_k ..) | apply KeepsIn.after (holdRelease_k ..)
        | apply KeepsIn.after (laserEnable_k ..)
    | dsimp only | split

theorem execDefectClear_k (p : Port) (k : Defect) (s : State) :
    ResK [.sch, .vat, .eng, .gc, .sheet, .ring, .outer, .fab, .line, .opt, .ciph, .host, .pool, .mem, .mgmt, .pages, .regs, .cnts] s (execDefectClear p k s) := by
  unfold execDefectClear
  repeat' first
    | exact rfl
    | with_unfolding_none first
        | apply KeepsIn.refl | apply ResK.next | assumption | intro _ | apply KeepsIn.ite
        | apply KeepsIn.after (setDefects_k ..) | apply KeepsIn.after (timCleared_k ..)
        | apply KeepsIn.after (selEvalAll_k ..) | apply KeepsIn.after (holdRelease_k ..) | apply KeepsIn.after (holdEnd_k ..)
        | apply KeepsIn.after (defectResend_k ..) | apply KeepsIn.after (sfCleared_k ..)
        | apply KeepsIn.after (lineEnable_k ..) | apply KeepsIn.after (State.setReg_k ..)
    | dsimp only | split

theorem lineCtlWr_k (p : Nat) (v : Word) (s : State) :
    EffK [.line, .opt, .host, .mgmt, .pages, .regs, .cnts] s (lineCtlWr p v s) := by
  unfold lineCtlWr
  repeat' first
    | exact rfl
    | with_unfolding_none first
        | apply KeepsIn.refl | apply EffK.ok | apply EffK.error | apply EffK.ite | assumption | intro _ | apply KeepsIn.ite
        | apply KeepsIn.after (store_k ..) | apply KeepsIn.after (lineEnable_k ..) | apply EffK.map
    | dsimp only | split

theorem slotmapWr_k (p k : Nat) (v : Word) (s : State) : EffK [.regs] s (slotmapWr p k v s) := by
  unfold slotmapWr
  repeat' first
    | exact rfl
    | with_unfolding_none first
        | apply KeepsIn.refl | apply EffK.ok | apply EffK.error | apply EffK.ite | assumption | intro _ | apply KeepsIn.ite
        | apply KeepsIn.after (store_k ..) | apply EffK.map
    | dsimp only | split

theorem tribWr_k (p t : Nat) (v : Word) (s : State) : EffK [.regs] s (tribWr p t v s) := by
  unfold tribWr
  repeat' first
    | exact rfl
    | with_unfolding_none first
        | apply KeepsIn.refl | apply EffK.ok | apply EffK.error | apply EffK.ite | assumption | intro _ | apply KeepsIn.ite
        | apply KeepsIn.after (store_k ..) | apply EffK.map
    | dsimp only | split

theorem chCtlWr_k (p i : Nat) (v : Word) (s : State) : EffK [.line, .regs] s (chCtlWr p i v s) := by
  unfold chCtlWr
  repeat' first
    | exact rfl
    | with_unfolding_none first
        | apply KeepsIn.refl | apply EffK.ok | apply EffK.error | apply EffK.ite | assumption | intro _ | apply KeepsIn.ite
        | apply KeepsIn.after (updPort_k ..) | apply KeepsIn.after (store_k ..) | apply EffK.map
    | dsimp only | split

theorem fwdFeltWr_k (p : Nat) (v : Word) (s : State) : EffK [.regs] s (fwdFeltWr p v s) := by
  unfold fwdFeltWr
  repeat' first
    | exact rfl
    | with_unfolding_none first
        | apply KeepsIn.refl | apply EffK.ok | apply EffK.error | apply EffK.ite | assumption | intro _ | apply KeepsIn.ite
        | apply KeepsIn.after (store_k ..) | apply EffK.map
    | dsimp only | split

theorem lineEffect_k (p o ix : Nat) (v : DWord) (s : State) :
    EffK [.line, .opt, .host, .mgmt, .pages, .regs, .cnts] s (lineEffect p o ix v s) := by
  unfold lineEffect
  repeat' first
    | exact rfl
    | with_unfolding_none first
        | apply KeepsIn.refl | apply EffK.ok | apply EffK.error | apply EffK.ite | assumption | intro _ | apply KeepsIn.ite
        | apply EffK.after (lineCtlWr_k ..) | apply KeepsIn.after (EffK.get (lineCtlWr_k ..) (by assumption))
        | apply KeepsIn.after (gridChanged_k ..) | apply KeepsIn.after (store_k ..) | apply EffK.after (slotmapWr_k ..)
        | apply KeepsIn.after (EffK.get (slotmapWr_k ..) (by assumption)) | apply EffK.after (tribWr_k ..)
        | apply KeepsIn.after (EffK.get (tribWr_k ..) (by assumption)) | apply EffK.after (chCtlWr_k ..)
        | apply KeepsIn.after (EffK.get (chCtlWr_k ..) (by assumption)) | apply EffK.after (fwdFeltWr_k ..)
        | apply KeepsIn.after (EffK.get (fwdFeltWr_k ..) (by assumption)) | apply EffK.after (selCtlWr_k ..)
        | apply KeepsIn.after (EffK.get (selCtlWr_k ..) (by assumption)) | apply EffK.map
    | dsimp only | split

end Sys2Proof.Machine
end

