-- ==== Sys2Proof/Laws/Keeps/Cipher.lean ====
section
/-! SUPPORT. What the operations and commands of Machine/Cipher.lean keep, and the parts they may change. -/
namespace Sys2Proof.Machine

open Sys2Proof

set_option linter.all false

theorem State.rxCtx_k (s : State) (p trib : Nat) (h : SegHdr) : OptK [.host, .mgmt, .pages, .cnts] s (fun x => x.2.2) (s.rxCtx p trib h) := by
  unfold State.rxCtx
  dsimp only
  refine OptK.ite OptK.none ?_
  cases State.keyFor _ _ _ _ with
  | none => exact OptK.none
  | some a => exact OptK.some (KeepsIn.after (loadCtx_k ..) rfl (KeepsIn.refl _))


theorem recordsIn_k (p : Nat) (h : SegHdr) (pt : List Byte) (s : State) : KeepsIn [] s (recordsIn p h pt s) := by
  unfold recordsIn
  repeat' first
    | exact rfl
    | with_unfolding_none first
        | apply KeepsIn.refl | assumption | intro _ | apply KeepsIn.ite | apply KeepsIn.forAll
        | apply KeepsIn.after (State.emit_k ..)
    | dsimp only | split

theorem sheetsIn_k (p : Nat) (h : SegHdr) (pt : List Byte) (s : State) :
    KeepsIn [.sch, .sheet, .ring, .outer, .line, .host, .mgmt, .pages, .cnts] s (sheetsIn p h pt s) := by
  unfold sheetsIn
  repeat' first
    | exact rfl
    | with_unfolding_none first
        | apply KeepsIn.refl | assumption | intro _ | apply KeepsIn.ite | apply KeepsIn.forAll
        | apply KeepsIn.andThen (ringGuard_k ?_ ?_ ..) | apply KeepsIn.after (sheetArrive_k ..)
        | apply KeepsIn.after (strmSheet_k ..)
    | dsimp only | split

theorem mccFrame_k (p : Nat) (f : List Byte) (s : State) : KeepsIn [.line, .mgmt] s (mccFrame p f s) := by
  unfold mccFrame
  repeat' first
    | exact rfl
    | with_unfolding_none first
        | apply KeepsIn.refl | assumption | intro _ | apply KeepsIn.ite | apply KeepsIn.after (updPort_k ..)
        | apply KeepsIn.after (State.emit_k ..) | apply KeepsIn.after (State.updMgmt_k ..)
    | dsimp only | split

theorem segOpened_k (p : Nat) (h : SegHdr) (pt : List Byte) (s : State) :
    KeepsIn [.sch, .sheet, .ring, .outer, .line, .host, .mgmt, .pages, .cnts] s (segOpened p h pt s) := by
  unfold segOpened
  repeat' first
    | exact rfl
    | with_unfolding_none first
        | apply KeepsIn.refl | assumption | intro _ | apply KeepsIn.ite | apply KeepsIn.forAll
        | apply KeepsIn.after (bump_k ..) | apply KeepsIn.after (sheetsIn_k ..) | apply KeepsIn.after (recordsIn_k ..)
        | apply KeepsIn.after (State.emit_k ..) | apply KeepsIn.after (mccFrame_k ..)
    | dsimp only | split

theorem execSegmentReceive_k (p : Port) (trib : Fin 17) (bytes : List Byte) (s : State) :
    ResK [.sch, .sheet, .ring, .outer, .line, .ciph, .host, .mem, .mgmt, .pages, .cnts] s (execSegmentReceive p trib bytes s) := by
  unfold execSegmentReceive
  repeat' first
    | exact rfl | refine KeepsIn.after ((State.rxCtx_k ..).on _ (by assumption)) rfl ?_
    | with_unfolding_none first
        | apply KeepsIn.refl | apply ResK.next | assumption | intro _ | apply KeepsIn.ite | apply KeepsIn.after (bump_k ..)
        | apply KeepsIn.after (raiseEv_k ..) | apply KeepsIn.after (segOpened_k ..) | apply KeepsIn.after (raiseCap_k ..)
        | apply KeepsIn.after (putCtx_k ..)
    | dsimp only | split

theorem execContextLoad_k (p : Port) (ltype : BitVec 2) (jobtag : Word) (chan : BitVec 8) (tx : Bool) (s : State) :
    ResK [.ciph, .host, .mem, .mgmt, .pages, .cnts] s (execContextLoad p ltype jobtag chan tx s) := by
  unfold execContextLoad
  repeat' first
    | exact rfl
    | with_unfolding_none first
        | apply KeepsIn.refl | apply ResK.next | assumption | intro _ | apply KeepsIn.ite
        | apply KeepsIn.after (loadCtx_k ..) | apply KeepsIn.after (putCtx_k ..)
    | dsimp only | split

theorem noEngine_k (p : Nat) (before : State) (s : State) :
    KeepsIn [.host, .mgmt, .pages, .cnts] s (noEngine p before s) := by
  unfold noEngine
  repeat' first
    | exact rfl
    | with_unfolding_none first
        | apply KeepsIn.refl | assumption | intro _ | apply KeepsIn.ite | apply KeepsIn.after (raiseEv_k ..)
    | dsimp only | split

theorem sheetsLost_k (cw i : Nat) (s : State) : KeepsIn [.ring, .outer] s (sheetsLost cw i s) := by
  unfold sheetsLost
  repeat' first
    | exact rfl
    | with_unfolding_none first
        | apply KeepsIn.refl | assumption | intro _ | apply KeepsIn.ite | apply KeepsIn.after (updSc_k ..)
        | apply KeepsIn.after (putTx_k ..)
    | dsimp only | split

theorem sendingLost_k (p t : Nat) (s : State) : KeepsIn [.line] s (sendingLost p t s) := by
  unfold sendingLost
  repeat' first
    | exact rfl
    | with_unfolding_none first
        | apply KeepsIn.refl | assumption | intro _ | apply KeepsIn.ite | apply KeepsIn.after (updPort_k ..)
    | dsimp only | split

theorem workLost_k (w : EngineWork) (s : State) : KeepsIn [.ring, .outer, .line] s (workLost w s) := by
  unfold workLost
  repeat' first
    | exact rfl
    | with_unfolding_none first
        | apply KeepsIn.refl | assumption | intro _ | apply KeepsIn.ite | apply KeepsIn.after (sheetsLost_k ..)
        | apply KeepsIn.after (sendingLost_k ..)
    | dsimp only | split

theorem execCiphParity_k (p : Port) (e : Fin 4) (work : EngineWork) (s : State) :
    ResK [.ring, .outer, .line, .ciph, .host, .mem, .mgmt, .pages, .regs, .cnts] s (execCiphParity p e work s) := by
  unfold execCiphParity
  repeat' first
    | exact rfl
    | with_unfolding_none first
        | apply KeepsIn.refl | apply ResK.next | assumption | intro _ | apply KeepsIn.ite
        | apply KeepsIn.after (noEngine_k ..) | apply KeepsIn.after (raiseEv_k ..) | apply KeepsIn.after (State.setReg_k ..)
        | apply KeepsIn.after (resealBlanks_k ..) | apply KeepsIn.after (workLost_k ..)
    | dsimp only | split

theorem ciphSvcWr_k (p : Nat) (v : Word) (kat : BitVec 12) (s : State) :
    KeepsIn [.sch, .sheet, .ring, .outer, .line, .ciph, .host, .pool, .mem, .mgmt, .pages, .regs, .cnts] s (ciphSvcWr p v kat s) := by
  unfold ciphSvcWr
  repeat' first
    | exact rfl
    | with_unfolding_none first
        | apply KeepsIn.refl | assumption | intro _ | apply KeepsIn.ite | apply KeepsIn.forAll
        | apply KeepsIn.after (State.setReg_k ..) | apply KeepsIn.after (raiseEv_k ..)
        | apply KeepsIn.after (resumeSends_k ..) | apply KeepsIn.after (noEngine_k ..)
    | dsimp only | split

theorem kxAbandon_k (i reason : Nat) (s : State) : KeepsIn [.ciph, .host, .mgmt, .pages, .cnts] s (kxAbandon i reason s) := by
  unfold kxAbandon
  repeat' first
    | exact rfl
    | with_unfolding_none first
        | apply KeepsIn.refl | assumption | intro _ | apply KeepsIn.ite | apply KeepsIn.after (raiseCap_k ..)
        | apply KeepsIn.after (updSess_k ..)
    | dsimp only | split

theorem kxAnswer_k (i : Nat) (m : List Byte) (s : State) :
    KeepsIn [.line, .ciph, .host, .pool, .mem, .mgmt, .pages, .cnts] s (kxAnswer i m s) := by
  unfold kxAnswer
  repeat' first
    | exact rfl
    | with_unfolding_none first
        | apply KeepsIn.refl | assumption | intro _ | apply KeepsIn.ite | apply KeepsIn.after (drawBytes_k ..)
        | apply KeepsIn.after (State.draw_k ..) | apply KeepsIn.after (kxAwait_k ..) | apply KeepsIn.after (updSess_k ..)
    | dsimp only | split

theorem execKx1Init_k (s' : Fin 66) (msg : List Byte) (s : State) :
    ResK [.line, .ciph, .host, .pool, .mem, .mgmt, .pages, .cnts] s (execKx1Init s' msg s) := by
  unfold execKx1Init
  repeat' first
    | exact rfl
    | with_unfolding_none first
        | apply KeepsIn.refl | apply ResK.next | assumption | intro _ | apply KeepsIn.ite | apply KeepsIn.after (kxSend_k ..)
        | apply KeepsIn.after (kxAbandon_k ..) | apply KeepsIn.after (kxAnswer_k ..)
    | dsimp only | split

theorem execKx2Resp_k (s' : Fin 66) (msg : List Byte) (s : State) :
    ResK [.line, .ciph, .host, .pool, .mem, .mgmt, .pages, .cnts] s (execKx2Resp s' msg s) := by
  unfold execKx2Resp
  repeat' first
    | exact rfl
    | with_unfolding_none first
        | apply KeepsIn.refl | apply ResK.next | assumption | intro _ | apply KeepsIn.ite
        | apply KeepsIn.after (kxAbandon_k ..) | apply KeepsIn.after (kxAwait_k ..) | apply KeepsIn.after (updSess_k ..)
    | dsimp only | split

theorem storeRoot_k (i gen : Nat) (root : List Byte) (s : State) : KeepsIn [.ciph] s (storeRoot i gen root s) := by
  unfold storeRoot
  repeat' first
    | exact rfl
    | with_unfolding_none first
        | apply KeepsIn.refl | assumption | intro _ | apply KeepsIn.ite | apply KeepsIn.foldl'
        | apply KeepsIn.foldlP (st := Prod.snd) | apply KeepsIn.foldlP (st := Prod.fst)
        | apply KeepsIn.after (State.updCiph_k ..)
    | dsimp only | split

theorem ctxsMap_k (i : Nat) (f : Ctx → Ctx) (s : State) : KeepsIn [.ciph, .mem] s (ctxsMap i f s) := by
  unfold ctxsMap
  repeat' first
    | exact rfl
    | with_unfolding_none first
        | apply KeepsIn.refl | assumption | intro _ | apply KeepsIn.ite | apply KeepsIn.forAll
        | apply KeepsIn.after (State.updCiph_k ..) | apply KeepsIn.after (spillCtx_k ..)
    | dsimp only | split

theorem kxInstall_k (i : Nat) (root : List Byte) (s : State) :
    KeepsIn [.sch, .sheet, .ring, .outer, .line, .ciph, .host, .pool, .mem, .mgmt, .pages, .cnts] s (kxInstall i root s) := by
  unfold kxInstall
  repeat' first
    | exact rfl
    | with_unfolding_none first
        | apply KeepsIn.refl | assumption | intro _ | apply KeepsIn.ite | apply KeepsIn.after (ctxsMap_k ..)
        | apply KeepsIn.after (updSess_k ..) | apply KeepsIn.after (storeRoot_k ..) | apply KeepsIn.after (resumeSends_k ..)
        | apply KeepsIn.after (bump_k ..)
    | dsimp only | split

theorem execKx3Fin_k (s' : Fin 66) (msg : List Byte) (s : State) :
    ResK [.sch, .sheet, .ring, .outer, .line, .ciph, .host, .pool, .mem, .mgmt, .pages, .cnts] s (execKx3Fin s' msg s) := by
  unfold execKx3Fin
  repeat' first
    | exact rfl
    | with_unfolding_none first
        | apply KeepsIn.refl | apply ResK.next | assumption | intro _ | apply KeepsIn.ite | apply KeepsIn.after (kxSend_k ..)
        | apply KeepsIn.after (kxAbandon_k ..) | apply KeepsIn.after (kxInstall_k ..) | apply KeepsIn.after (kxAwait_k ..)
        | apply KeepsIn.after (updSess_k ..)
    | dsimp only | split

theorem execKx4Done_k (s' : Fin 66) (msg : List Byte) (s : State) :
    ResK [.sch, .sheet, .ring, .outer, .line, .ciph, .host, .pool, .mem, .mgmt, .pages, .cnts] s (execKx4Done s' msg s) := by
  unfold execKx4Done
  repeat' first
    | exact rfl
    | with_unfolding_none first
        | apply KeepsIn.refl | apply ResK.next | assumption | intro _ | apply KeepsIn.ite
        | apply KeepsIn.after (kxAbandon_k ..) | apply KeepsIn.after (kxInstall_k ..)
    | dsimp only | split

theorem execHandshakeResend_k (s' : Fin 66) (s : State) :
    ResK [.line, .ciph, .host, .pool, .mem, .mgmt, .pages, .cnts] s (execHandshakeResend s' s) := by
  unfold execHandshakeResend
  repeat' first
    | exact rfl
    | with_unfolding_none first
        | apply KeepsIn.refl | apply ResK.next | assumption | intro _ | apply KeepsIn.ite | apply KeepsIn.after (kxSend_k ..)
        | apply KeepsIn.after (updSess_k ..) | apply KeepsIn.after (kxAbandon_k ..)
    | dsimp only | split

theorem execHandshakeRetry_k (s' : Fin 66) (s : State) :
    ResK [.line, .ciph, .host, .pool, .mem, .mgmt, .pages, .cnts] s (execHandshakeRetry s' s) := by
  unfold execHandshakeRetry
  repeat' first
    | exact rfl
    | with_unfolding_none first
        | apply KeepsIn.refl | apply ResK.next | assumption | intro _ | apply KeepsIn.ite
        | apply KeepsIn.after (kxStart_k ..)
    | dsimp only | split

theorem execSessionRenew_k (s' : Fin 66) (s : State) :
    ResK [.line, .ciph, .host, .pool, .mem, .mgmt, .pages, .cnts] s (execSessionRenew s' s) := by
  unfold execSessionRenew
  repeat' first
    | exact rfl
    | with_unfolding_none first
        | apply KeepsIn.refl | apply ResK.next | assumption | intro _ | apply KeepsIn.ite
        | apply KeepsIn.after (kxStart_k ..)
    | dsimp only | split

theorem execCiphSessionStale_k (s' : Fin 66) (s : State) :
    ResK [.ciph, .host, .mgmt, .pages, .cnts] s (execCiphSessionStale s' s) := by
  unfold execCiphSessionStale
  repeat' first
    | exact rfl
    | with_unfolding_none first
        | apply KeepsIn.refl | apply ResK.next | assumption | intro _ | apply KeepsIn.ite
        | apply KeepsIn.after (raiseEv_k ..) | apply KeepsIn.after (updSess_k ..)
    | dsimp only | split

theorem sessClose_k (i : Nat) (s : State) : KeepsIn [.ciph] s (sessClose i s) := by
  unfold sessClose
  repeat' first
    | exact rfl
    | with_unfolding_none first
        | apply KeepsIn.refl | assumption | intro _ | apply KeepsIn.ite | apply KeepsIn.after (updSess_k ..)
        | apply KeepsIn.after (State.updCiph_k ..)
    | dsimp only | split

theorem peerCtlWr_k (i : Nat) (v : Word) (s : State) :
    EffK [.line, .ciph, .host, .pool, .mem, .mgmt, .pages, .regs, .cnts] s (peerCtlWr i v s) := by
  unfold peerCtlWr
  repeat' first
    | exact rfl
    | with_unfolding_none first
        | apply KeepsIn.refl | apply EffK.ok | apply EffK.error | apply EffK.ite | assumption | intro _ | apply KeepsIn.ite
        | apply KeepsIn.after (store_k ..) | apply KeepsIn.after (sessClose_k ..) | apply KeepsIn.after (State.updMgmt_k ..)
        | apply KeepsIn.after (updSess_k ..) | apply KeepsIn.after (kxStart_k ..) | apply EffK.map
    | dsimp only | split

theorem execAttestMessage_k (src : BitVec 16) (nonce : List Byte) (s : State) :
    ResK [.line, .host, .pool, .mem, .mgmt, .pages, .cnts] s (execAttestMessage src nonce s) := by
  unfold execAttestMessage
  repeat' first
    | exact rfl
    | with_unfolding_none first
        | apply KeepsIn.refl | apply ResK.next | assumption | intro _ | apply KeepsIn.ite
        | apply KeepsIn.after (protSend_k ..)
    | dsimp only | split

theorem ciphEffect_k (p o ix : Nat) (v : DWord) (s : State) :
    EffK [.sch, .sheet, .ring, .outer, .line, .ciph, .host, .pool, .mem, .mgmt, .pages, .regs, .cnts] s (ciphEffect p o ix v s) := by
  unfold ciphEffect
  repeat' first
    | exact rfl
    | with_unfolding_none first
        | apply KeepsIn.refl | apply EffK.ok | apply EffK.error | apply EffK.ite | assumption | intro _ | apply KeepsIn.ite
        | apply KeepsIn.after (ciphSvcWr_k ..) | apply KeepsIn.after (State.draw_k ..) | apply EffK.after (peerCtlWr_k ..)
        | apply KeepsIn.after (EffK.get (peerCtlWr_k ..) (by assumption)) | apply KeepsIn.after (store_k ..) | apply EffK.map
    | dsimp only | split

end Sys2Proof.Machine
end

