-- ==== Sys2Proof/Laws/Keeps/Memory.lean ====
section
/-! SUPPORT. What the operations and commands of Machine/Memory.lean keep, and the parts they may change. -/
namespace Sys2Proof.Machine

open Sys2Proof

set_option linter.all false

theorem memCe_k (p : Nat) (s : State) : KeepsIn [.mgmt, .pages, .cnts] s (memCe p s) := by
  unfold memCe
  repeat' first
    | exact rfl
    | with_unfolding_none first
        | apply KeepsIn.refl | assumption | intro _ | apply KeepsIn.ite | apply KeepsIn.after (addCe_k ..)
        | apply KeepsIn.after (bump_k ..)
    | dsimp only | split

theorem scrubFinds_k (hbm : Bool) (a : Nat) (e : EccErr) (s : State) :
    KeepsIn [.host, .mem, .mgmt, .pages, .cnts] s (scrubFinds hbm a e s) := by
  unfold scrubFinds
  repeat' first
    | exact rfl
    | with_unfolding_none first
        | apply KeepsIn.refl | assumption | intro _ | apply KeepsIn.ite | apply KeepsIn.after (memCe_k ..)
        | apply KeepsIn.after (hbmUe_k ..) | apply KeepsIn.after (lpUe_k ..)
    | dsimp only | split

theorem scrubPass_k (hbm : Bool) (a : Nat) (s : State) : KeepsIn [.pages, .cnts] s (scrubPass hbm a s) := by
  unfold scrubPass
  repeat' first
    | exact rfl
    | with_unfolding_none first
        | apply KeepsIn.refl | assumption | intro _ | apply KeepsIn.ite | apply KeepsIn.after (bump_k ..)
    | dsimp only | split

theorem execScrubStep_k (hbm : Bool) (addr : Nat) (err : EccErr) (s : State) :
    ResK [.host, .mem, .mgmt, .pages, .cnts] s (execScrubStep hbm addr err s) := by
  unfold execScrubStep
  repeat' first
    | exact rfl
    | with_unfolding_none first
        | apply KeepsIn.refl | apply ResK.next | assumption | intro _ | apply KeepsIn.ite
        | apply KeepsIn.after (scrubPass_k ..) | apply KeepsIn.after (scrubFinds_k ..)
    | dsimp only | split

theorem execHbmImbalWindow_k (d : Die) (bytes : List Nat) (port : BitVec 3) (s : State) :
    ResK [.host, .mem, .mgmt, .pages, .cnts] s (execHbmImbalWindow d bytes port s) := by
  unfold execHbmImbalWindow
  repeat' first
    | exact rfl
    | with_unfolding_none first
        | apply KeepsIn.refl | apply ResK.next | assumption | intro _ | apply KeepsIn.ite | apply KeepsIn.foldl'
        | apply KeepsIn.foldlP (st := Prod.snd) | apply KeepsIn.foldlP (st := Prod.fst)
        | apply KeepsIn.after (State.updMem_k _ _ ?_ ?_) | apply KeepsIn.after (raiseEv_k ..)
    | dsimp only | split

theorem execPoolWaitServed_k (k : Fin 8) (i : Nat) (owner gen : BitVec 8) (s : State) :
    ResK [.host, .pool, .mem, .mgmt, .pages, .cnts] s (execPoolWaitServed k i owner gen s) := by
  unfold execPoolWaitServed
  repeat' first
    | exact rfl
    | with_unfolding_none first
        | apply KeepsIn.refl | apply ResK.next | assumption | intro _ | apply KeepsIn.ite
        | apply KeepsIn.after (poolFreeNamed_k ..)
    | dsimp only | split

theorem memRangeWr_k (j : Nat) (snap : Bool) (v : Word) (s : State) : EffK [.regs] s (memRangeWr j snap v s) := by
  unfold memRangeWr
  repeat' first
    | exact rfl
    | with_unfolding_none first
        | apply KeepsIn.refl | apply EffK.ok | apply EffK.error | apply EffK.ite | assumption | intro _ | apply KeepsIn.ite
        | apply KeepsIn.after (store_k ..) | apply EffK.map
    | dsimp only | split

theorem memEffect_k (p o ix : Nat) (v : DWord) (s : State) : EffK [.regs] s (memEffect p o ix v s) := by
  unfold memEffect
  repeat' first
    | exact rfl
    | with_unfolding_none first
        | apply KeepsIn.refl | apply EffK.ok | apply EffK.error | apply EffK.ite | assumption | intro _ | apply KeepsIn.ite
        | apply EffK.after (memRangeWr_k ..) | apply KeepsIn.after (EffK.get (memRangeWr_k ..) (by assumption))
        | apply KeepsIn.after (store_k ..) | apply EffK.map
    | dsimp only | split

theorem poolSizeWr_k (k : Nat) (v : Word) (s : State) :
    EffK [.host, .pool, .mem, .mgmt, .pages, .regs, .cnts] s (poolSizeWr k v s) := by
  unfold poolSizeWr
  repeat' first
    | exact rfl
    | with_unfolding_none first
        | apply KeepsIn.refl | apply EffK.ok | apply EffK.error | apply EffK.ite | assumption | intro _ | apply KeepsIn.ite
        | apply KeepsIn.foldl' | apply KeepsIn.foldlP (st := Prod.snd) | apply KeepsIn.foldlP (st := Prod.fst)
        | apply KeepsIn.after (store_k ..) | apply KeepsIn.after (poolSettle_k ..) | apply KeepsIn.after (poolGave_k ..)
        | apply KeepsIn.after (State.updPool_k ..) | apply EffK.map
    | dsimp only | split

theorem poolMarkWr_k (o : Nat) (v : Word) (s : State) : EffK [.regs] s (poolMarkWr o v s) := by
  unfold poolMarkWr
  repeat' first
    | exact rfl
    | with_unfolding_none first
        | apply KeepsIn.refl | apply EffK.ok | apply EffK.error | apply EffK.ite | assumption | intro _ | apply KeepsIn.ite
        | apply KeepsIn.after (store_k ..) | apply EffK.map
    | dsimp only | split

theorem poolEffect_k (p o ix : Nat) (v : DWord) (s : State) :
    EffK [.host, .pool, .mem, .mgmt, .pages, .regs, .cnts] s (poolEffect p o ix v s) := by
  unfold poolEffect
  repeat' first
    | exact rfl
    | with_unfolding_none first
        | apply KeepsIn.refl | apply EffK.ok | apply EffK.error | apply EffK.ite | assumption | intro _ | apply KeepsIn.ite
        | apply EffK.after (poolSizeWr_k ..) | apply KeepsIn.after (EffK.get (poolSizeWr_k ..) (by assumption))
        | apply EffK.after (poolMarkWr_k ..) | apply KeepsIn.after (EffK.get (poolMarkWr_k ..) (by assumption))
        | apply KeepsIn.after (poolSettle_k ..) | apply KeepsIn.after (store_k ..) | apply EffK.map
    | dsimp only | split

theorem poolSnap_k (s : State) : KeepsIn [.pool] s (poolSnap s) := by
  unfold poolSnap
  repeat' first
    | exact rfl
    | with_unfolding_none first
        | apply KeepsIn.refl | assumption | intro _ | apply KeepsIn.ite | apply KeepsIn.foldl'
        | apply KeepsIn.foldlP (st := Prod.snd) | apply KeepsIn.foldlP (st := Prod.fst)
        | apply KeepsIn.after (State.updPool_k ..)
    | dsimp only | split

end Sys2Proof.Machine
end

