-- ==== Sys2Proof/Laws/Keeps/ClkPwr.lean ====
section
/-! SUPPORT. What the operations and commands of Machine/ClkPwr.lean keep, and the parts they may change. -/
namespace Sys2Proof.Machine

open Sys2Proof

set_option linter.all false

theorem judge_k (c : SrcCounts) (i : Nat) (s : State) : KeepsIn [.host, .mgmt, .clk, .pages, .cnts] s (judge c i s) := by
  unfold judge
  repeat' first
    | exact rfl
    | with_unfolding_none first
        | apply KeepsIn.refl | assumption | intro _ | apply KeepsIn.ite | apply KeepsIn.after (State.updClk_k ..)
        | apply KeepsIn.after (raiseEv_k ..) | apply KeepsIn.after (failOver_k ..)
    | dsimp only | split

theorem execSupervisorWindow_k (n : SrcCounts) (s : State) :
    ResK [.host, .mgmt, .clk, .pages, .cnts] s (execSupervisorWindow n s) := by
  unfold execSupervisorWindow
  repeat' first
    | exact rfl
    | with_unfolding_none first
        | apply KeepsIn.refl | apply ResK.next | assumption | intro _ | apply KeepsIn.ite | apply KeepsIn.forAll
        | apply KeepsIn.after (judge_k ..)
    | dsimp only | split

theorem nmiClear_k (v : Word) (s : State) : KeepsIn [.clk] s (nmiClear v s) := by
  unfold nmiClear
  repeat' first
    | exact rfl
    | with_unfolding_none first
        | apply KeepsIn.refl | assumption | intro _ | apply KeepsIn.ite | apply KeepsIn.after (State.updClk_k ..)
        | apply KeepsIn.after (nmi_k ..) | apply KeepsIn.after (State.emit_k ..)
    | dsimp only | split

theorem updDom_k (d : Nat) (f : DomSt → DomSt) (s : State) : KeepsIn [.clk] s (updDom d f s) := by
  unfold updDom
  repeat' first
    | exact rfl
    | with_unfolding_none first
        | apply KeepsIn.refl | assumption | intro _ | apply KeepsIn.ite | apply KeepsIn.after (State.updClk_k ..)
    | dsimp only | split

theorem poisonDie_k (d : Nat) (s : State) : KeepsIn [.sch, .vat, .host, .mgmt, .pages, .cnts] s (poisonDie d s) := by
  unfold poisonDie
  repeat' first
    | exact rfl
    | with_unfolding_none first
        | apply KeepsIn.refl | assumption | intro _ | apply KeepsIn.ite | apply KeepsIn.forAll
        | apply KeepsIn.after (poisonFault_k ..) | apply KeepsIn.after (State.updVat_k ..)
    | dsimp only | split

theorem loseHbm_k (d : Nat) (s : State) : KeepsIn [.mem] s (loseHbm d s) :=
  State.updMem_wf_k _ s (fun h => SMap.wf_keep h fun a _ => decide (s.hbmDie a ≠ d)) id


theorem domAssert_k (d : Nat) (s : State) :
    KeepsIn [.sch, .vat, .host, .mem, .mgmt, .clk, .pages, .cnts] s (domAssert d s) := by
  unfold domAssert
  repeat' first
    | exact rfl
    | with_unfolding_none first
        | apply KeepsIn.refl | assumption | intro _ | apply KeepsIn.ite | apply KeepsIn.forAll
        | apply KeepsIn.after (faultOp_k ..) | apply KeepsIn.after (poisonDie_k ..) | apply KeepsIn.after (loseHbm_k ..)
        | apply KeepsIn.after (updDom_k ..)
    | dsimp only | split

theorem pageReset_k (p : Nat) (s : State) : KeepsIn [.pages, .regs, .cnts, .snaps, .halves] s (pageReset p s) :=
  KeepsIn.pageReset s p (fun k => decide (k / 0x10000000 ≠ p)) (fun k => decide (k / 0x1000 ≠ p))
    (fun k => decide (k / 0x1000 ≠ p)) _ _


theorem blockReset_k (d : Nat) (s : State) :
    KeepsIn [.vat, .eng, .gc, .sheet, .fab, .line, .ciph, .mem] s (blockReset d s) := by
  unfold blockReset
  repeat' first
    | exact rfl
    | with_unfolding_none first
        | apply KeepsIn.refl | assumption | intro _ | apply KeepsIn.ite | apply KeepsIn.after (State.updFab_k ..)
        | apply KeepsIn.after (updPort_k ..) | apply KeepsIn.after (State.updCiph_k ..)
        | apply KeepsIn.after (State.updVat_k ..) | apply KeepsIn.after (State.updEng_k ..)
        | apply KeepsIn.after (State.updSheet_k ..) | apply KeepsIn.after (State.updGc_k ..)
        | apply KeepsIn.after (State.updMem_k _ _ ?_ ?_)
    | dsimp only | split

theorem domRelease_k (d : Nat) (s : State) :
    KeepsIn [.vat, .eng, .gc, .sheet, .fab, .line, .ciph, .mem, .clk, .pages, .regs, .cnts, .snaps, .halves] s (domRelease d s) := by
  unfold domRelease
  repeat' first
    | exact rfl
    | with_unfolding_none first
        | apply KeepsIn.refl | assumption | intro _ | apply KeepsIn.ite | apply KeepsIn.forAll
        | apply KeepsIn.after (updDom_k ..) | apply KeepsIn.after (blockReset_k ..) | apply KeepsIn.after (pageReset_k ..)
    | dsimp only | split

theorem domCmd_k (op d arg : Nat) (s : State) :
    KeepsIn [.sch, .vat, .eng, .gc, .sheet, .fab, .line, .ciph, .host, .mem, .mgmt, .clk, .pages, .regs, .cnts, .snaps, .halves] s (domCmd op d arg s).2 := by
  unfold domCmd
  repeat' first
    | exact rfl
    | with_unfolding_none first
        | apply KeepsIn.refl | assumption | intro _ | apply KeepsIn.ite | apply KeepsIn.after (updDom_k ..)
        | apply KeepsIn.after (domAssert_k ..) | apply KeepsIn.after (domRelease_k ..)
    | dsimp only | split

theorem setSrcCmd_k (d arg : Nat) (stopped : Bool) (s : State) : KeepsIn [.clk] s (setSrcCmd d arg stopped s).2 := by
  unfold setSrcCmd
  repeat' first
    | exact rfl
    | with_unfolding_none first
        | apply KeepsIn.refl | assumption | intro _ | apply KeepsIn.ite | apply KeepsIn.after (updDom_k ..)
        | apply KeepsIn.after (State.updClk_k ..)
    | dsimp only | split

theorem refSelectCmd_k (arg : Nat) (s : State) : KeepsIn [.clk] s (refSelectCmd arg s).2 := by
  unfold refSelectCmd
  repeat' first
    | exact rfl
    | with_unfolding_none first
        | apply KeepsIn.refl | assumption | intro _ | apply KeepsIn.ite | apply KeepsIn.after (State.updClk_k ..)
    | dsimp only | split

theorem clkCmdWr_k (v : Word) (stopped : Bool) (s : State) :
    EffK [.sch, .vat, .eng, .gc, .sheet, .fab, .line, .ciph, .host, .mem, .mgmt, .clk, .pages, .regs, .cnts, .snaps, .halves] s (clkCmdWr v stopped s) := by
  unfold clkCmdWr
  repeat' first
    | exact rfl
    | with_unfolding_none first
        | apply KeepsIn.refl | apply EffK.ok | apply EffK.error | apply EffK.ite | assumption | intro _ | apply KeepsIn.ite
        | apply KeepsIn.after (setSrcCmd_k ..) | apply KeepsIn.after (refSelectCmd_k ..) | apply KeepsIn.after (domCmd_k ..)
        | apply KeepsIn.after (State.updClk_k ..) | apply EffK.map
    | dsimp only | split

theorem execClkSwitchHang_k (s : State) : ResK [.host, .mgmt, .clk, .pages, .cnts] s (execClkSwitchHang s) := by
  unfold execClkSwitchHang
  repeat' first
    | exact rfl
    | with_unfolding_none first
        | apply KeepsIn.refl | apply ResK.next | assumption | intro _ | apply KeepsIn.ite
        | apply KeepsIn.after (raiseEv_k ..) | apply KeepsIn.after (updDom_k ..) | apply KeepsIn.after (State.updClk_k ..)
    | dsimp only | split

theorem fmCtlWr_k (v : Word) (s : State) : EffK [.clk, .regs] s (fmCtlWr v s) := by
  unfold fmCtlWr
  repeat' first
    | exact rfl
    | with_unfolding_none first
        | apply KeepsIn.refl | apply EffK.ok | apply EffK.error | apply EffK.ite | assumption | intro _ | apply KeepsIn.ite
        | apply KeepsIn.after (State.setReg_k ..) | apply KeepsIn.after (State.updClk_k ..) | apply EffK.map
    | dsimp only | split

theorem execClkFmDone_k (count : DWord) (refFailed : Bool) (s : State) :
    ResK [.host, .mgmt, .clk, .pages, .cnts] s (execClkFmDone count refFailed s) := by
  unfold execClkFmDone
  repeat' first
    | exact rfl
    | with_unfolding_none first
        | apply KeepsIn.refl | apply ResK.next | assumption | intro _ | apply KeepsIn.ite
        | apply KeepsIn.after (raiseEv_k ..) | apply KeepsIn.after (State.updClk_k ..)
    | dsimp only | split

theorem fmOutWr_k (v : Word) (s : State) : EffK [.time, .clk, .regs] s (fmOutWr v s) := by
  unfold fmOutWr
  repeat' first
    | exact rfl
    | with_unfolding_none first
        | apply KeepsIn.refl | apply EffK.ok | apply EffK.error | apply EffK.ite | assumption | intro _ | apply KeepsIn.ite
        | apply EffK.after (fmClaim_k ..) | apply KeepsIn.after (EffK.get (fmClaim_k ..) (by assumption))
        | apply KeepsIn.after (State.setReg_k ..) | apply KeepsIn.after (State.updClk_k ..) | apply EffK.map
    | dsimp only | split

theorem clkEffect_k (p o ix : Nat) (v : DWord) (s : State) :
    EffK [.sch, .vat, .eng, .gc, .sheet, .fab, .line, .ciph, .host, .mem, .time, .mgmt, .clk, .pages, .regs, .cnts, .snaps, .halves] s (clkEffect p o ix v s) := by
  unfold clkEffect
  repeat' first
    | exact rfl
    | with_unfolding_none first
        | apply KeepsIn.refl | apply EffK.ok | apply EffK.error | apply EffK.ite | assumption | intro _ | apply KeepsIn.ite
        | apply EffK.after (clkCmdWr_k ..) | apply KeepsIn.after (EffK.get (clkCmdWr_k ..) (by assumption))
        | apply KeepsIn.after (State.draw_k ..) | apply KeepsIn.after (nmiClear_k ..) | apply EffK.after (fmCtlWr_k ..)
        | apply KeepsIn.after (EffK.get (fmCtlWr_k ..) (by assumption)) | apply EffK.after (fmOutWr_k ..)
        | apply KeepsIn.after (EffK.get (fmOutWr_k ..) (by assumption)) | apply KeepsIn.after (store_k ..) | apply EffK.map
    | dsimp only | split

theorem updPmb_k (f : Pwr → Pwr) (s : State) : KeepsIn [.pwr] s (updPmb f s) := by
  unfold updPmb
  repeat' first
    | exact rfl
    | with_unfolding_none first
        | apply KeepsIn.refl | assumption | intro _ | apply KeepsIn.ite | apply KeepsIn.after (State.updPwr_k ..)
        | apply KeepsIn.after (State.emit_k ..)
    | dsimp only | split

theorem powerDown_k (st : PwrSt) (s : State) : KeepsIn [.sch, .vat, .eng, .gc, .sheet, .ring, .outer, .fab, .line, .opt, .ciph, .host, .pool, .mem, .time, .mgmt, .clk, .pwr, .boot, .pages, .regs, .cnts, .snaps, .halves] s (powerDown st s) := by
  unfold powerDown
  dsimp only
  refine KeepsIn.ite ?_ ?_
  · exact KeepsIn.after (State.emit_k ..) rfl (KeepsIn.atReset rfl rfl rfl rfl rfl rfl rfl rfl rfl)
  · exact KeepsIn.atReset rfl rfl rfl rfl rfl rfl rfl rfl rfl


theorem execInputRise_k (mv : Nat) (addr : BitVec 3) (s : State) : ResK [.pwr] s (execInputRise mv addr s) := by
  unfold execInputRise
  repeat' first
    | exact rfl
    | with_unfolding_none first
        | apply KeepsIn.refl | apply ResK.next | assumption | intro _ | apply KeepsIn.ite
        | apply KeepsIn.after (State.updPwr_k ..)
    | dsimp only | split

theorem execInputLoss_k (s : State) :
    ResK [.sch, .vat, .eng, .gc, .sheet, .ring, .outer, .fab, .line, .opt, .ciph, .host, .pool, .mem, .time, .mgmt, .clk, .pwr, .boot, .pages, .regs, .cnts, .snaps, .halves] s (execInputLoss s) := by
  unfold execInputLoss
  repeat' first
    | exact rfl
    | with_unfolding_none first
        | apply KeepsIn.refl | apply ResK.next | assumption | intro _ | apply KeepsIn.ite | apply KeepsIn.after (updPmb_k ..)
        | apply KeepsIn.after (powerDown_k ..)
    | dsimp only | split

theorem execEnableRise_k (mv : Nat) (s : State) :
    ResK [.sch, .vat, .eng, .gc, .sheet, .ring, .outer, .fab, .line, .opt, .ciph, .host, .pool, .mem, .time, .mgmt, .clk, .pwr, .boot, .pages, .regs, .cnts, .snaps, .halves] s (execEnableRise mv s) := by
  unfold execEnableRise
  repeat' first
    | exact rfl
    | with_unfolding_none first
        | apply KeepsIn.refl | apply ResK.next | assumption | intro _ | apply KeepsIn.ite
        | apply KeepsIn.after (State.updPwr_k ..) | apply KeepsIn.after (updPmb_k ..)
        | apply KeepsIn.after (moduleReset_k ..)
    | dsimp only | split

theorem execEnableFall_k (s : State) :
    ResK [.sch, .vat, .eng, .gc, .sheet, .ring, .outer, .fab, .line, .opt, .ciph, .host, .pool, .mem, .time, .mgmt, .clk, .pwr, .boot, .pages, .regs, .cnts, .snaps, .halves] s (execEnableFall s) := by
  unfold execEnableFall
  repeat' first
    | exact rfl
    | with_unfolding_none first
        | apply KeepsIn.refl | apply ResK.next | assumption | intro _ | apply KeepsIn.ite
        | apply KeepsIn.after (State.updPwr_k ..) | apply KeepsIn.after (powerDown_k ..)
    | dsimp only | split

theorem shutDown_k (cause : Nat) (s : State) :
    KeepsIn [.sch, .vat, .eng, .gc, .sheet, .ring, .outer, .fab, .line, .opt, .ciph, .host, .pool, .mem, .time, .mgmt, .clk, .pwr, .boot, .pages, .regs, .cnts, .snaps, .halves] s (shutDown cause s) := by
  unfold shutDown
  repeat' first
    | exact rfl
    | with_unfolding_none first
        | apply KeepsIn.refl | assumption | intro _ | apply KeepsIn.ite | apply KeepsIn.after (nmi_k ..)
        | apply KeepsIn.after (powerDown_k ..) | apply KeepsIn.after (State.updBoot_k ..)
    | dsimp only | split

theorem execPowerFault_k (k : PwrFault) (s : State) :
    ResK [.sch, .vat, .eng, .gc, .sheet, .ring, .outer, .fab, .line, .opt, .ciph, .host, .pool, .mem, .time, .mgmt, .clk, .pwr, .boot, .pages, .regs, .cnts, .snaps, .halves] s (execPowerFault k s) := by
  unfold execPowerFault
  repeat' first
    | exact rfl
    | with_unfolding_none first
        | apply KeepsIn.refl | apply ResK.next | assumption | intro _ | apply KeepsIn.ite | apply KeepsIn.after (updPmb_k ..)
        | apply KeepsIn.after (raiseEv_k ..) | apply KeepsIn.after (shutDown_k ..)
    | dsimp only | split

theorem pwrSample_k (s : State) : KeepsIn [.pwr] s (pwrSample s) := by
  unfold pwrSample
  repeat' first
    | exact rfl
    | with_unfolding_none first
        | apply KeepsIn.refl | assumption | intro _ | apply KeepsIn.ite | apply KeepsIn.after (State.updPwr_k ..)
        | apply KeepsIn.after (State.draw_k ..)
    | dsimp only | split

theorem pmbAns_k (code : Nat) (data : List Byte) (s : State) : KeepsIn [] s (pmbAns code data s) := by
  unfold pmbAns
  repeat' first
    | exact rfl
    | with_unfolding_none first
        | apply KeepsIn.refl | assumption | intro _ | apply KeepsIn.ite | apply KeepsIn.after (State.emit_k ..)
    | dsimp only | split

theorem pmbRead_k (code : Nat) (s : State) : KeepsIn [] s (pmbRead code s) := by
  unfold pmbRead
  repeat' first
    | exact rfl
    | with_unfolding_none first
        | apply KeepsIn.refl | assumption | intro _ | apply KeepsIn.ite | apply KeepsIn.after (pmbAns_k ..)
        | apply KeepsIn.after (State.draw_k ..)
    | dsimp only | split

theorem execClearFaults_k (s : State) : ResK [.pwr] s (execClearFaults s) := by
  unfold execClearFaults
  repeat' first
    | exact rfl
    | with_unfolding_none first
        | apply KeepsIn.refl | apply ResK.next | assumption | intro _ | apply KeepsIn.ite | apply KeepsIn.after (updPmb_k ..)
    | dsimp only | split

theorem execStatusWord_k (s : State) : ResK [] s (execStatusWord s) := by
  unfold execStatusWord
  repeat' first
    | exact rfl
    | with_unfolding_none first
        | apply KeepsIn.refl | apply ResK.next | assumption | intro _ | apply KeepsIn.ite | apply KeepsIn.after (pmbAns_k ..)
    | dsimp only | split

theorem execStatusInput_k (s : State) : ResK [] s (execStatusInput s) := by
  unfold execStatusInput
  repeat' first
    | exact rfl
    | with_unfolding_none first
        | apply KeepsIn.refl | apply ResK.next | assumption | intro _ | apply KeepsIn.ite | apply KeepsIn.after (pmbAns_k ..)
    | dsimp only | split

theorem execStatusTemperature_k (s : State) : ResK [] s (execStatusTemperature s) := by
  unfold execStatusTemperature
  repeat' first
    | exact rfl
    | with_unfolding_none first
        | apply KeepsIn.refl | apply ResK.next | assumption | intro _ | apply KeepsIn.ite | apply KeepsIn.after (pmbAns_k ..)
    | dsimp only | split

theorem execReadVin_k (s : State) : ResK [] s (execReadVin s) := by
  unfold execReadVin
  repeat' first
    | exact rfl
    | with_unfolding_none first
        | apply KeepsIn.refl | apply ResK.next | assumption | intro _ | apply KeepsIn.ite
        | apply KeepsIn.after (pmbRead_k ..)
    | dsimp only | split

theorem execReadIin_k (s : State) : ResK [] s (execReadIin s) := by
  unfold execReadIin
  repeat' first
    | exact rfl
    | with_unfolding_none first
        | apply KeepsIn.refl | apply ResK.next | assumption | intro _ | apply KeepsIn.ite
        | apply KeepsIn.after (pmbRead_k ..)
    | dsimp only | split

theorem execReadTemperature1_k (s : State) : ResK [] s (execReadTemperature1 s) := by
  unfold execReadTemperature1
  repeat' first
    | exact rfl
    | with_unfolding_none first
        | apply KeepsIn.refl | apply ResK.next | assumption | intro _ | apply KeepsIn.ite
        | apply KeepsIn.after (pmbRead_k ..)
    | dsimp only | split

theorem execReadTemperature2_k (s : State) : ResK [] s (execReadTemperature2 s) := by
  unfold execReadTemperature2
  repeat' first
    | exact rfl
    | with_unfolding_none first
        | apply KeepsIn.refl | apply ResK.next | assumption | intro _ | apply KeepsIn.ite
        | apply KeepsIn.after (pmbRead_k ..)
    | dsimp only | split

theorem execReadPin_k (s : State) : ResK [] s (execReadPin s) := by
  unfold execReadPin
  repeat' first
    | exact rfl
    | with_unfolding_none first
        | apply KeepsIn.refl | apply ResK.next | assumption | intro _ | apply KeepsIn.ite
        | apply KeepsIn.after (pmbRead_k ..)
    | dsimp only | split

theorem execPmbusRevision_k (s : State) : ResK [] s (execPmbusRevision s) := by
  unfold execPmbusRevision
  repeat' first
    | exact rfl
    | with_unfolding_none first
        | apply KeepsIn.refl | apply ResK.next | assumption | intro _ | apply KeepsIn.ite | apply KeepsIn.after (pmbAns_k ..)
    | dsimp only | split

theorem execMfrId_k (s : State) : ResK [] s (execMfrId s) := by
  unfold execMfrId
  repeat' first
    | exact rfl
    | with_unfolding_none first
        | apply KeepsIn.refl | apply ResK.next | assumption | intro _ | apply KeepsIn.ite | apply KeepsIn.after (pmbAns_k ..)
    | dsimp only | split

theorem execMfrModel_k (s : State) : ResK [] s (execMfrModel s) := by
  unfold execMfrModel
  repeat' first
    | exact rfl
    | with_unfolding_none first
        | apply KeepsIn.refl | apply ResK.next | assumption | intro _ | apply KeepsIn.ite | apply KeepsIn.after (pmbAns_k ..)
    | dsimp only | split

theorem execPmbusUnsupported_k (code : Byte) (s : State) : ResK [.pwr] s (execPmbusUnsupported code s) := by
  unfold execPmbusUnsupported
  repeat' first
    | exact rfl
    | with_unfolding_none first
        | apply KeepsIn.refl | apply ResK.next | assumption | intro _ | apply KeepsIn.ite | apply KeepsIn.after (updPmb_k ..)
    | dsimp only | split

end Sys2Proof.Machine
end

