-- ==== Sys2Proof/Laws/Keeps/Felt.lean ====
section
/-! SUPPORT. What the operations and commands of Machine/Felt.lean keep, and the parts they may change. -/
namespace Sys2Proof.Machine

open Sys2Proof

set_option linter.all false

theorem feltRead_k (s : State) : KeepsIn [] s (feltRead s).2 := by
  unfold feltRead
  repeat' first
    | exact rfl
    | with_unfolding_none first
        | apply KeepsIn.refl | assumption | intro _ | apply KeepsIn.ite | apply KeepsIn.after (State.draw_k ..)
    | dsimp only | split

theorem feltUe_k (s : State) : KeepsIn [.host, .mem, .mgmt, .pages, .cnts] s (feltUe s) := by
  unfold feltUe
  repeat' first
    | exact rfl
    | with_unfolding_none first
        | apply KeepsIn.refl | assumption | intro _ | apply KeepsIn.ite | apply KeepsIn.after (lpUe_k ..)
    | dsimp only | split

theorem feltLost_k (k : Nat) (s : State) :
    KeepsIn [.sch, .vat, .eng, .gc, .sheet, .ring, .outer, .fab, .line, .ciph, .host, .pool, .mem, .mgmt, .pages, .cnts] s (feltLost k s) := by
  unfold feltLost
  repeat' first
    | exact rfl
    | with_unfolding_none first
        | apply KeepsIn.refl | assumption | intro _ | apply KeepsIn.ite | apply KeepsIn.after (raiseEv_k ..)
        | apply KeepsIn.after (feltUe_k ..) | apply KeepsIn.after (State.updRing_k ..)
        | apply KeepsIn.after (startReconf_k ..)
    | dsimp only | split

theorem expandFelt_k (e : Entry) (s : State) :
    KeepsIn [.sch, .vat, .eng, .gc, .sheet, .ring, .outer, .fab, .line, .ciph, .host, .pool, .mem, .mgmt, .pages, .cnts] s (expandFelt e s) := by
  unfold expandFelt
  repeat' first
    | exact rfl
    | with_unfolding_none first
        | apply KeepsIn.refl | assumption | intro _ | apply KeepsIn.ite | apply KeepsIn.after (reportHbm_k ..)
        | apply KeepsIn.after (faultOp_k ..) | apply KeepsIn.after (expandOp_k ..) | apply KeepsIn.after (feltRead_k ..)
        | apply KeepsIn.after (feltLost_k ..) | apply KeepsIn.after (State.draw_k ..) | apply KeepsIn.after (putRx_k ..)
        | apply KeepsIn.after (feltUe_k ..)
    | dsimp only | split

theorem execExpand_k (d : Die) (s : State) :
    ResK [.sch, .vat, .eng, .gc, .sheet, .ring, .outer, .fab, .line, .ciph, .host, .pool, .mem, .mgmt, .pages, .cnts] s (execExpand d s) := by
  unfold execExpand
  repeat' first
    | exact rfl
    | with_unfolding_none first
        | apply KeepsIn.refl | apply ResK.next | assumption | intro _ | apply KeepsIn.ite
        | apply KeepsIn.andThen (codecIssue_k ?_ ?_ ..) | apply KeepsIn.after (expandFelt_k ..)
    | dsimp only | split

theorem execResendTimer_k (cw : CwId) (s : State) :
    ResK [.sch, .vat, .eng, .gc, .sheet, .ring, .outer, .fab, .line, .ciph, .host, .pool, .mem, .mgmt, .pages, .cnts] s (execResendTimer cw s) := by
  unfold execResendTimer
  repeat' first
    | exact rfl
    | with_unfolding_none first
        | apply KeepsIn.refl | apply ResK.next | assumption | intro _ | apply KeepsIn.ite
        | apply KeepsIn.after (feltRead_k ..) | apply KeepsIn.after (raiseEv_k ..) | apply KeepsIn.after (feltUe_k ..)
        | apply KeepsIn.after (updSc_k ..) | apply KeepsIn.after (scResend_k ..) | apply KeepsIn.after (feltLost_k ..)
        | apply KeepsIn.after (rttCheck_k ..) | apply KeepsIn.after (resendCw_k ..)
    | dsimp only | split

end Sys2Proof.Machine
end

