-- ==== Sys2Proof/Laws/Keeps/Mgmt.lean ====
section
/-! SUPPORT. What the operations and commands of Machine/Mgmt.lean keep, and the parts they may change. -/
namespace Sys2Proof.Machine

open Sys2Proof

set_option linter.all false

theorem reconfNow_k (g : Nat) (s : State) :
    KeepsIn [.sch, .vat, .eng, .gc, .sheet, .ring, .outer, .fab, .line, .ciph, .host, .pool, .mem, .mgmt, .pages, .cnts] s (reconfNow g s) := by
  unfold reconfNow
  repeat' first
    | exact rfl
    | with_unfolding_none first
        | apply KeepsIn.refl | assumption | intro _ | apply KeepsIn.ite | apply KeepsIn.after (startReconf_k ..)
    | dsimp only | split

theorem claimSend_k (s : State) : KeepsIn [.mgmt] s (claimSend s) := by
  unfold claimSend
  repeat' first
    | exact rfl
    | with_unfolding_none first
        | apply KeepsIn.refl | assumption | intro _ | apply KeepsIn.ite | apply KeepsIn.forAll
        | apply KeepsIn.after (State.emit_k ..) | apply KeepsIn.after (State.updMgmt_k ..)
    | dsimp only | split

theorem execHeartbeatSend_k (s : State) : ResK [.line, .host, .pool, .mem, .mgmt, .pages, .cnts] s (execHeartbeatSend s) := by
  unfold execHeartbeatSend
  repeat' first
    | exact rfl
    | with_unfolding_none first
        | apply KeepsIn.refl | apply ResK.next | assumption | intro _ | apply KeepsIn.ite | apply KeepsIn.forAll
        | apply KeepsIn.after (State.updMgmt_k ..) | apply KeepsIn.after (claimSend_k ..)
        | apply KeepsIn.after (protSend_k ..)
    | dsimp only | split

theorem peerBack_k (seid : BitVec 16) (failed : Bool) (s : State) :
    KeepsIn [.sch, .vat, .eng, .gc, .sheet, .ring, .outer, .fab, .line, .ciph, .host, .pool, .mem, .mgmt, .pages, .cnts] s (peerBack seid failed s) := by
  unfold peerBack
  repeat' first
    | exact rfl
    | with_unfolding_none first
        | apply KeepsIn.refl | assumption | intro _ | apply KeepsIn.ite | apply KeepsIn.whenD | apply KeepsIn.forAll
        | apply KeepsIn.after (reconfNow_k ..) | apply KeepsIn.after (groupResume_k ..) | apply KeepsIn.after (bump_k ..)
    | dsimp only | split

theorem execHeartbeat_k (p : Port) (h : HeartMsg) (s : State) :
    ResK [.sch, .vat, .eng, .gc, .sheet, .ring, .outer, .fab, .line, .ciph, .host, .pool, .mem, .mgmt, .pages, .cnts] s (execHeartbeat p h s) := by
  unfold execHeartbeat
  repeat' first
    | exact rfl
    | with_unfolding_none first
        | apply KeepsIn.refl | apply ResK.next | assumption | intro _ | apply KeepsIn.ite
        | apply KeepsIn.after (updMpeer_k ..) | apply KeepsIn.after (peerBack_k ..)
        | apply KeepsIn.after (State.updMgmt_k ..)
    | dsimp only | split

theorem siteLost_k (i : Nat) (s : State) : KeepsIn [.host, .mgmt, .pages, .cnts] s (siteLost i s) := by
  unfold siteLost
  repeat' first
    | exact rfl
    | with_unfolding_none first
        | apply KeepsIn.refl | assumption | intro _ | apply KeepsIn.ite | apply KeepsIn.after (raiseEv_k ..)
        | apply KeepsIn.after (State.updMgmt_k ..)
    | dsimp only | split

theorem execLeaseExpiry_k (peer : Fin 64) (r : Port) (s : State) :
    ResK [.ring, .host, .mgmt, .pages, .cnts] s (execLeaseExpiry peer r s) := by
  unfold execLeaseExpiry
  repeat' first
    | exact rfl
    | with_unfolding_none first
        | apply KeepsIn.refl | apply ResK.next | assumption | intro _ | apply KeepsIn.ite | apply KeepsIn.forAll
        | apply KeepsIn.after (updMpeer_k ..) | apply KeepsIn.after (siteLost_k ..) | apply KeepsIn.after (groupHold_k ..)
        | apply KeepsIn.after (raiseEv_k ..)
    | dsimp only | split

theorem execPortSfHold_k (p : Port) (s : State) : ResK [.ring, .host, .mgmt, .pages, .cnts] s (execPortSfHold p s) := by
  unfold execPortSfHold
  repeat' first
    | exact rfl
    | with_unfolding_none first
        | apply KeepsIn.refl | apply ResK.next | assumption | intro _ | apply KeepsIn.ite | apply KeepsIn.forAll
        | apply KeepsIn.after (groupHold_k ..)
    | dsimp only | split

theorem execMgmtHoldLimit_k (g : Fin 64) (s : State) :
    ResK [.sch, .vat, .eng, .gc, .sheet, .ring, .outer, .fab, .line, .ciph, .host, .pool, .mem, .mgmt, .pages, .cnts] s (execMgmtHoldLimit g s) := by
  unfold execMgmtHoldLimit
  repeat' first
    | exact rfl
    | with_unfolding_none first
        | apply KeepsIn.refl | apply ResK.next | assumption | intro _ | apply KeepsIn.ite
        | apply KeepsIn.after (raiseEv_k ..) | apply KeepsIn.after (updMgrp_k ..) | apply KeepsIn.after (startReconf_k ..)
    | dsimp only | split

theorem execReconf_k (g : Fin 64) (epoch : Word) (fenced : BitVec 16) (cut : Option (BitVec 4)) (s : State) :
    ResK [.sch, .vat, .eng, .gc, .sheet, .ring, .outer, .fab, .line, .host, .pool, .mem, .mgmt, .pages, .cnts] s (execReconf g epoch fenced cut s) := by
  unfold execReconf
  repeat' first
    | exact rfl
    | with_unfolding_none first
        | apply KeepsIn.refl | apply ResK.next | assumption | intro _ | apply KeepsIn.ite
        | apply KeepsIn.after (epochNak_k ..) | apply KeepsIn.after (bump_k ..) | apply KeepsIn.after (reconfMember_k ..)
    | dsimp only | split

theorem execReconfReady_k (g : Fin 64) (pos : Fin 16) (applied : List DWord) (names : List (Option (Fin 16))) (s : State) :
    ResK [.sch, .gc, .ring, .outer, .line, .ciph, .host, .pool, .mem, .mgmt, .pages, .cnts] s (execReconfReady g pos applied names s) := by
  unfold execReconfReady
  repeat' first
    | exact rfl
    | with_unfolding_none first
        | apply KeepsIn.refl | apply ResK.next | assumption | intro _ | apply KeepsIn.ite
        | apply KeepsIn.after (reconfReadyOp_k ..)
    | dsimp only | split

theorem execAdoptionSheets_k (g : Fin 64) (ream : Fin 1024) (blk : Nat) (epoch : Word) (theta m v : List Word)
    (applied : DWord) (s : State) :
    ResK [.sch, .gc, .ring, .outer, .line, .ciph, .host, .pool, .mem, .mgmt, .pages, .cnts] s (execAdoptionSheets g ream blk epoch theta m v applied s) := by
  unfold execAdoptionSheets
  repeat' first
    | exact rfl
    | with_unfolding_none first
        | apply KeepsIn.refl | apply ResK.next | assumption | intro _ | apply KeepsIn.ite
        | apply KeepsIn.after (adoptOp_k ..)
    | dsimp only | split

theorem execLeaderJoinRequest_k (g : Fin 64) (_pos : Fin 16) (s : State) :
    ResK [.sch, .vat, .eng, .gc, .sheet, .ring, .outer, .fab, .line, .ciph, .host, .pool, .mem, .mgmt, .pages, .cnts] s (execLeaderJoinRequest g _pos s) := by
  unfold execLeaderJoinRequest
  repeat' first
    | exact rfl
    | with_unfolding_none first
        | apply KeepsIn.refl | apply ResK.next | assumption | intro _ | apply KeepsIn.ite
        | apply KeepsIn.after (reconfNow_k ..)
    | dsimp only | split

theorem execClaim_k (seid : BitVec 16) (digest : List Word) (s : State) :
    ResK [.sch, .vat, .eng, .gc, .sheet, .ring, .outer, .fab, .line, .ciph, .host, .pool, .mem, .mgmt, .pages, .cnts] s (execClaim seid digest s) := by
  unfold execClaim
  repeat' first
    | exact rfl
    | with_unfolding_none first
        | apply KeepsIn.refl | apply ResK.next | assumption | intro _ | apply KeepsIn.ite | apply KeepsIn.forAll
        | apply KeepsIn.after (updMpeer_k ..) | apply KeepsIn.after (reconfNow_k ..)
    | dsimp only | split

theorem execEpochNak_k (g : Fin 64) (epoch : Word) (holder : BitVec 16) (digest : DWord) (s : State) :
    ResK [.ring, .line, .host, .mgmt, .pages, .cnts] s (execEpochNak g epoch holder digest s) := by
  unfold execEpochNak
  repeat' first
    | exact rfl
    | with_unfolding_none first
        | apply KeepsIn.refl | apply ResK.next | assumption | intro _ | apply KeepsIn.ite
        | apply KeepsIn.after (State.emit_k ..) | apply KeepsIn.after (raiseEv_k ..) | apply KeepsIn.after (dropGroup_k ..)
        | apply KeepsIn.after (updGrp_k ..)
    | dsimp only | split

theorem mirWrite_k (p : PlReam) (o : Nat) (bs : List Byte) (s : State) : KeepsIn [.mem] s (mirWrite p o bs s) := by
  unfold mirWrite
  repeat' first
    | exact rfl
    | with_unfolding_none first
        | apply KeepsIn.refl | assumption | intro _ | apply KeepsIn.ite | apply KeepsIn.after (lpWrite_k ..)
        | apply KeepsIn.after (hbmWrite_k ..)
    | dsimp only | split

theorem mirGap_k (j g c a b : Nat) (s : State) :
    KeepsIn [.sch, .vat, .eng, .gc, .sheet, .ring, .fab, .line, .host, .pool, .mem, .mgmt, .pages, .cnts] s (mirGap j g c a b s) := by
  unfold mirGap
  repeat' first
    | exact rfl
    | with_unfolding_none first
        | apply KeepsIn.refl | assumption | intro _ | apply KeepsIn.ite | apply KeepsIn.forAll
        | apply KeepsIn.after (mirInvalid_k ..)
    | dsimp only | split

theorem mirHeader_k (j round : Nat) (p : PlReam) (s : State) : KeepsIn [.mem] s (mirHeader j round p s) := by
  unfold mirHeader
  repeat' first
    | exact rfl
    | with_unfolding_none first
        | apply KeepsIn.refl | assumption | intro _ | apply KeepsIn.ite | apply KeepsIn.foldl'
        | apply KeepsIn.foldlP (st := Prod.snd) | apply KeepsIn.foldlP (st := Prod.fst) | apply KeepsIn.after (mirWrite_k ..)
    | dsimp only | split

theorem mirApply_k (j r w d wv ebase vslots : Nat) (p : PlReam) (s : State) :
    KeepsIn [.regs] s (mirApply j r w d wv ebase vslots p s).2 := by
  unfold mirApply
  repeat' first
    | exact rfl
    | with_unfolding_none first
        | apply KeepsIn.refl | assumption | intro _ | apply KeepsIn.ite | apply KeepsIn.after (putEdesc_k ..)
    | dsimp only | split

theorem mirReplay_k (j : Job) (g r w c round : Nat) (rseq : Word) (data : List Byte) (s : State) :
    KeepsIn [.sch, .gc, .host, .pool, .mem, .mgmt, .pages, .regs, .cnts] s (mirReplay j g r w c round rseq data s) := by
  unfold mirReplay
  repeat' first
    | exact rfl
    | with_unfolding_none first
        | apply KeepsIn.refl | assumption | intro _ | apply KeepsIn.ite | apply KeepsIn.forAll
        | apply KeepsIn.after (mirHeader_k ..) | apply KeepsIn.after (putEdesc_k ..) | apply KeepsIn.after (mirApply_k ..)
        | apply KeepsIn.after (State.updMgmt_k ..) | apply KeepsIn.after (submitCore_k ..)
        | apply KeepsIn.after (poolReq_k ..)
    | dsimp only | split

theorem execMirrorIntake_k (j : Job) (epoch : Word) (rseq : Word) (data : List Byte) (s : State) :
    ResK [.sch, .vat, .eng, .gc, .sheet, .ring, .fab, .line, .host, .pool, .mem, .mgmt, .pages, .regs, .cnts] s (execMirrorIntake j epoch rseq data s) := by
  unfold execMirrorIntake
  repeat' first
    | exact rfl
    | with_unfolding_none first
        | apply KeepsIn.refl | apply ResK.next | assumption | intro _ | apply KeepsIn.ite
        | apply KeepsIn.after (epochNak_k ..) | apply KeepsIn.after (bump_k ..) | apply KeepsIn.after (mirGap_k ..)
        | apply KeepsIn.after (State.updMgmt_k ..) | apply KeepsIn.after (mirReplay_k ..)
    | dsimp only | split

theorem refreshSend_k (j r : Nat) (s : State) : KeepsIn [.fab, .host, .mgmt, .pages, .cnts] s (refreshSend j r s) := by
  unfold refreshSend
  repeat' first
    | exact rfl
    | with_unfolding_none first
        | apply KeepsIn.refl | assumption | intro _ | apply KeepsIn.ite | apply KeepsIn.after (bump_k ..)
        | apply KeepsIn.after (rdmaWrite_k ..)
    | dsimp only | split

theorem refreshArrive_k (j r : Nat) (th m v : List Word) (s : State) :
    KeepsIn [.mem, .mgmt] s (refreshArrive j r th m v s) := by
  unfold refreshArrive
  repeat' first
    | exact rfl
    | with_unfolding_none first
        | apply KeepsIn.refl | assumption | intro _ | apply KeepsIn.ite | apply KeepsIn.after (mirWrite_k ..)
        | apply KeepsIn.after (State.updMgmt_k ..)
    | dsimp only | split

theorem refreshAll_k (s : State) : KeepsIn [.fab, .host, .mgmt, .pages, .cnts] s (refreshAll s) := by
  unfold refreshAll
  repeat' first
    | exact rfl
    | with_unfolding_none first
        | apply KeepsIn.refl | assumption | intro _ | apply KeepsIn.ite | apply KeepsIn.forAll
        | apply KeepsIn.after (refreshSend_k ..)
    | dsimp only | split

theorem execSpareMirrorRequest_k (seid : BitVec 16) (s : State) :
    ResK [.fab, .host, .mgmt, .pages, .cnts] s (execSpareMirrorRequest seid s) := by
  unfold execSpareMirrorRequest
  repeat' first
    | exact rfl
    | with_unfolding_none first
        | apply KeepsIn.refl | apply ResK.next | assumption | intro _ | apply KeepsIn.ite | apply KeepsIn.forAll
        | apply KeepsIn.after (rdmaWrite_k ..)
    | dsimp only | split

theorem zeroResiduals_k (s : State) : KeepsIn [.mem] s (zeroResiduals s) := by
  unfold zeroResiduals
  repeat' first
    | exact rfl
    | with_unfolding_none first
        | apply KeepsIn.refl | assumption | intro _ | apply KeepsIn.ite | apply KeepsIn.forAll
        | apply KeepsIn.after (hbmWrite_k ..)
    | dsimp only | split

theorem takeoverOp_k (s : State) :
    KeepsIn [.sch, .vat, .eng, .gc, .sheet, .ring, .fab, .line, .host, .pool, .mem, .mgmt, .pages, .cnts] s (takeoverOp s) := by
  unfold takeoverOp
  repeat' first
    | exact rfl
    | with_unfolding_none first
        | apply KeepsIn.refl | assumption | intro _ | apply KeepsIn.ite | apply KeepsIn.forAll
        | apply KeepsIn.after (raiseEv_k ..) | apply KeepsIn.after (State.updMgmt_k ..)
        | apply KeepsIn.after (State.emit_k ..) | apply KeepsIn.after (mirInvalid_k ..)
        | apply KeepsIn.after (zeroResiduals_k ..)
    | dsimp only | split

theorem peerFailOp_k (i : Nat) (s : State) :
    KeepsIn [.sch, .vat, .eng, .gc, .sheet, .ring, .outer, .fab, .line, .ciph, .host, .pool, .mem, .mgmt, .pages, .cnts] s (peerFailOp i s) := by
  unfold peerFailOp
  repeat' first
    | exact rfl
    | with_unfolding_none first
        | apply KeepsIn.refl | assumption | intro _ | apply KeepsIn.ite | apply KeepsIn.forAll
        | apply KeepsIn.after (reconfNow_k ..) | apply KeepsIn.after (updMpeer_k ..)
    | dsimp only | split

theorem peerClearOp_k (i : Nat) (s : State) :
    KeepsIn [.sch, .vat, .eng, .gc, .sheet, .ring, .outer, .fab, .line, .ciph, .host, .pool, .mem, .mgmt, .pages, .cnts] s (peerClearOp i s) := by
  unfold peerClearOp
  repeat' first
    | exact rfl
    | with_unfolding_none first
        | apply KeepsIn.refl | assumption | intro _ | apply KeepsIn.ite | apply KeepsIn.forAll
        | apply KeepsIn.after (updMpeer_k ..) | apply KeepsIn.after (reconfNow_k ..)
    | dsimp only | split

theorem mgmtCmdRun_k (v : Word) (s : State) :
    KeepsIn [.sch, .vat, .eng, .gc, .sheet, .ring, .outer, .fab, .line, .ciph, .host, .pool, .mem, .mgmt, .pages, .cnts] s (mgmtCmdRun v s).2 := by
  unfold mgmtCmdRun
  repeat' first
    | exact rfl
    | with_unfolding_none first
        | apply KeepsIn.refl | assumption | intro _ | apply KeepsIn.ite | apply KeepsIn.after (peerFailOp_k ..)
        | apply KeepsIn.after (peerClearOp_k ..) | apply KeepsIn.after (takeoverOp_k ..)
        | apply KeepsIn.after (State.updMgmt_k ..) | apply KeepsIn.after (refreshAll_k ..)
    | dsimp only | split

theorem mgmtCmdWr_k (v : Word) (s : State) :
    EffK [.sch, .vat, .eng, .gc, .sheet, .ring, .outer, .fab, .line, .ciph, .host, .pool, .mem, .mgmt, .pages, .cnts] s (mgmtCmdWr v s) := by
  unfold mgmtCmdWr
  repeat' first
    | exact rfl
    | with_unfolding_none first
        | apply KeepsIn.refl | apply EffK.ok | apply EffK.error | apply EffK.ite | assumption | intro _ | apply KeepsIn.ite
        | apply KeepsIn.after (mgmtCmdRun_k ..) | apply KeepsIn.after (State.updMgmt_k ..) | apply EffK.map
    | dsimp only | split

theorem mirrorRefreshMsg_k (req : MirrorReq) (s : State) :
    KeepsIn [.fab, .host, .mem, .mgmt, .pages, .cnts] s (mirrorRefreshMsg req s) := by
  unfold mirrorRefreshMsg
  repeat' first
    | exact rfl
    | with_unfolding_none first
        | apply KeepsIn.refl | assumption | intro _ | apply KeepsIn.ite | apply KeepsIn.after (refreshSend_k ..)
        | apply KeepsIn.after (refreshArrive_k ..)
    | dsimp only | split

theorem execMgmtTakeoverFail_k (s : State) : ResK [.host, .mgmt, .pages, .cnts] s (execMgmtTakeoverFail s) := by
  unfold execMgmtTakeoverFail
  repeat' first
    | exact rfl
    | with_unfolding_none first
        | apply KeepsIn.refl | apply ResK.next | assumption | intro _ | apply KeepsIn.ite
        | apply KeepsIn.after (raiseEv_k ..) | apply KeepsIn.after (State.updMgmt_k ..)
    | dsimp only | split

theorem execHealthDecay_k (s : State) : ResK [.mgmt] s (execHealthDecay s) := by
  unfold execHealthDecay
  repeat' first
    | exact rfl
    | with_unfolding_none first
        | apply KeepsIn.refl | apply ResK.next | assumption | intro _ | apply KeepsIn.ite
        | apply KeepsIn.after (State.updMgmt_k ..)
    | dsimp only | split

theorem execExpelReq_k (seid : BitVec 16) (s : State) : ResK [.host, .mgmt, .pages, .cnts] s (execExpelReq seid s) := by
  unfold execExpelReq
  repeat' first
    | exact rfl
    | with_unfolding_none first
        | apply KeepsIn.refl | apply ResK.next | assumption | intro _ | apply KeepsIn.ite
        | apply KeepsIn.after (raiseEv_k ..) | apply KeepsIn.after (State.updMgmt_k ..)
        | apply KeepsIn.after (State.emit_k ..)
    | dsimp only | split

theorem execMgmtExpel_k (s : State) : ResK [.host, .mgmt, .pages, .cnts] s (execMgmtExpel s) := by
  unfold execMgmtExpel
  repeat' first
    | exact rfl
    | with_unfolding_none first
        | apply KeepsIn.refl | apply ResK.next | assumption | intro _ | apply KeepsIn.ite
        | apply KeepsIn.after (raiseEv_k ..) | apply KeepsIn.after (State.updMgmt_k ..)
    | dsimp only | split

theorem execMgmtHealthAlarm_k (s : State) : ResK [.host, .mgmt, .pages, .cnts] s (execMgmtHealthAlarm s) := by
  unfold execMgmtHealthAlarm
  repeat' first
    | exact rfl
    | with_unfolding_none first
        | apply KeepsIn.refl | apply ResK.next | assumption | intro _ | apply KeepsIn.ite
        | apply KeepsIn.after (raiseEv_k ..) | apply KeepsIn.after (State.updMgmt_k ..)
    | dsimp only | split

theorem execExpelRetry_k (s : State) : ResK [.mgmt] s (execExpelRetry s) := by
  unfold execExpelRetry
  repeat' first
    | exact rfl
    | with_unfolding_none first
        | apply KeepsIn.refl | apply ResK.next | assumption | intro _ | apply KeepsIn.ite
        | apply KeepsIn.after (State.updMgmt_k ..) | apply KeepsIn.after (State.emit_k ..)
    | dsimp only | split

theorem execMgmtExpelLapsed_k (s : State) : ResK [.mgmt, .pages, .cnts] s (execMgmtExpelLapsed s) := by
  unfold execMgmtExpelLapsed
  repeat' first
    | exact rfl
    | with_unfolding_none first
        | apply KeepsIn.refl | apply ResK.next | assumption | intro _ | apply KeepsIn.ite | apply KeepsIn.after (bump_k ..)
        | apply KeepsIn.after (State.updMgmt_k ..)
    | dsimp only | split

theorem execMgmtPortDown_k (p : Port) (s : State) : ResK [.host, .mgmt, .pages, .cnts] s (execMgmtPortDown p s) := by
  unfold execMgmtPortDown
  repeat' first
    | exact rfl
    | with_unfolding_none first
        | apply KeepsIn.refl | apply ResK.next | assumption | intro _ | apply KeepsIn.ite
        | apply KeepsIn.after (raiseEv_k ..) | apply KeepsIn.after (State.updMgmt_k ..)
    | dsimp only | split

theorem execMccResend_k (f : MccFrame) (s : State) : ResK [.line, .host, .mgmt, .pages, .cnts] s (execMccResend f s) := by
  unfold execMccResend
  repeat' first
    | exact rfl
    | with_unfolding_none first
        | apply KeepsIn.refl | apply ResK.next | assumption | intro _ | apply KeepsIn.ite | apply KeepsIn.after (bump_k ..)
        | apply KeepsIn.after (updPort_k ..) | apply KeepsIn.after (State.updMgmt_k ..) | apply KeepsIn.after (raiseEv_k ..)
        | apply KeepsIn.after (State.emit_k ..)
    | dsimp only | split

theorem mgmtEffect_k (p o ix : Nat) (v : DWord) (s : State) :
    EffK [.sch, .vat, .eng, .gc, .sheet, .ring, .outer, .fab, .line, .ciph, .host, .pool, .mem, .mgmt, .pages, .regs, .cnts] s (mgmtEffect p o ix v s) := by
  unfold mgmtEffect
  repeat' first
    | exact rfl
    | with_unfolding_none first
        | apply KeepsIn.refl | apply EffK.ok | apply EffK.error | apply EffK.ite | assumption | intro _ | apply KeepsIn.ite
        | apply EffK.after (mgmtCmdWr_k ..) | apply KeepsIn.after (EffK.get (mgmtCmdWr_k ..) (by assumption))
        | apply KeepsIn.after (store_k ..) | apply KeepsIn.after (State.updMgmt_k ..) | apply KeepsIn.after (storePair_k ..)
        | apply EffK.map
    | dsimp only | split

end Sys2Proof.Machine
end

