-- ==== Sys2Proof/Laws/Keeps/Bus.lean ====
section
/-! SUPPORT. What the operations and commands of Machine/Bus.lean keep, and the parts they may change. -/
namespace Sys2Proof.Machine

open Sys2Proof

set_option linter.all false

theorem notOwner_k (w : Who) (o : Nat) (v : Word) (s : State) :
    KeepsIn [.host, .mgmt, .pages, .cnts] s (notOwner w o v s) := by
  unfold notOwner
  repeat' first
    | exact rfl
    | with_unfolding_none first
        | apply KeepsIn.refl | assumption | intro _ | apply KeepsIn.ite | apply KeepsIn.after (refuse_k ..)
        | apply KeepsIn.after (raiseEv_k ..)
    | dsimp only | split

theorem restartPeaks_k (p : Nat) (s : State) : KeepsIn [.sch, .fab, .pool] s (restartPeaks p s) := by
  unfold restartPeaks
  repeat' first
    | exact rfl
    | with_unfolding_none first
        | apply KeepsIn.refl | assumption | intro _ | apply KeepsIn.ite | apply KeepsIn.foldl'
        | apply KeepsIn.foldlP (st := Prod.snd) | apply KeepsIn.foldlP (st := Prod.fst)
        | apply KeepsIn.after (State.updSch_k ..) | apply KeepsIn.after (State.updFab_k ..)
        | apply KeepsIn.after (poolSnap_k ..)
    | dsimp only | split

theorem snapPage_k (p : Nat) (s : State) : KeepsIn [.sch, .fab, .pool, .pages, .snaps] s (snapPage p s) := by
  unfold snapPage
  dsimp only
  exact KeepsIn.after (State.updHdr_k _ _ _ (fun _ h => h) fun _ h => h) rfl
    (KeepsIn.after (restartPeaks_k ..) rfl (KeepsIn.after (State.snaps_k s _) rfl (KeepsIn.refl s)))


theorem clearPage_k (p : Nat) (s : State) : KeepsIn [.pages, .cnts] s (clearPage p s) := by
  unfold clearPage
  exact KeepsIn.after (State.updHdr_k _ _ _ (fun _ h => h) fun _ h => h) rfl
    (KeepsIn.after (State.zeroCnts_k s (pgCnts p) fun c => cntKey p c.1) rfl (KeepsIn.refl s))


theorem cntCtlWr_k (p : Nat) (v : Word) (s : State) :
    KeepsIn [.sch, .fab, .pool, .pages, .cnts, .snaps] s (cntCtlWr p v s) := by
  unfold cntCtlWr
  repeat' first
    | exact fun _ h => h | exact rfl | exact fun _ h => h
    | with_unfolding_none first
        | apply KeepsIn.refl | assumption | intro _ | apply KeepsIn.ite | apply KeepsIn.whenD
        | apply KeepsIn.after (clearPage_k ..) | apply KeepsIn.after (snapPage_k ..)
        | apply KeepsIn.after (State.updHdr_k _ _ _ ?_ ?_)
    | dsimp only | split

theorem resendVec_k (p : Nat) (s : State) : KeepsIn [.host] s (resendVec p s) := by
  unfold resendVec
  repeat' first
    | exact rfl
    | with_unfolding_none first
        | apply KeepsIn.refl | assumption | intro _ | apply KeepsIn.ite | apply KeepsIn.whenD
        | apply KeepsIn.after (vectorSend_k ..)
    | dsimp only | split

theorem hdrWr_k (w : Who) (p o : Nat) (v : Word) (s : State) : KeepsIn [.sch, .fab, .host, .pool, .pages, .cnts, .snaps] s (hdrWr w p o v s) := by
  unfold hdrWr
  split
  · split
    · exact KeepsIn.after (refuse_k ..) rfl (KeepsIn.refl _)
    · next hd =>
      refine KeepsIn.after (resendVec_k ..) rfl (KeepsIn.after (State.updHdr_k _ _ _ (fun h hh => ?_) fun _ h => h) rfl (KeepsIn.refl s))
      exact ⟨hh.1, hh.2.1, by show fld v 8 2 < 2; omega, fld_lt v 0 6⟩
  · exact KeepsIn.after (resendVec_k ..) rfl (KeepsIn.after (State.updHdr_k _ _ _ (fun _ h => h) fun _ h => h) rfl (KeepsIn.refl s))
  · refine KeepsIn.after (resendVec_k ..) rfl (KeepsIn.after (State.updHdr_k _ _ _ (fun h hh => ?_) fun _ h => h) rfl (KeepsIn.refl s))
    exact ⟨hh.1, by show v &&& evMask p &&& ~~~ evMask p = 0; rw [BitVec.and_assoc]; simp, hh.2.2⟩
  · exact KeepsIn.after (setIntStat_k ..) rfl (KeepsIn.refl s)
  · exact KeepsIn.after (cntCtlWr_k ..) rfl (KeepsIn.refl s)
  · refine KeepsIn.ite ?_ (KeepsIn.refl s)
    exact KeepsIn.after (State.updHdr_k _ _ _ (fun h hh => ⟨Nat.zero_le _, hh.2⟩) fun _ h => h) rfl (KeepsIn.refl s)
  · exact KeepsIn.refl s


theorem pageEffect_k (w : Who) (p o ix : Nat) (v : DWord) (s : State) :
    EffK [.sch, .vat, .eng, .gc, .sheet, .ring, .outer, .fab, .line, .opt, .ciph, .host, .pool, .mem, .time, .mgmt, .clk, .pwr, .boot, .pages, .regs, .cnts, .snaps, .halves] s (pageEffect w p o ix v s) := by
  unfold pageEffect
  repeat' first
    | exact rfl
    | with_unfolding_none first
        | apply KeepsIn.refl | apply EffK.ok | apply EffK.error | apply EffK.ite | assumption | intro _ | apply KeepsIn.ite
        | apply EffK.after (schEffect_k ..) | apply KeepsIn.after (EffK.get (schEffect_k ..) (by assumption))
        | apply EffK.after (ringEffect_k ..) | apply KeepsIn.after (EffK.get (ringEffect_k ..) (by assumption))
        | apply EffK.after (outerEffect_k ..) | apply KeepsIn.after (EffK.get (outerEffect_k ..) (by assumption))
        | apply EffK.after (swEffect_k ..) | apply KeepsIn.after (EffK.get (swEffect_k ..) (by assumption))
        | apply EffK.after (optEffect_k ..) | apply KeepsIn.after (EffK.get (optEffect_k ..) (by assumption))
        | apply EffK.after (memEffect_k ..) | apply KeepsIn.after (EffK.get (memEffect_k ..) (by assumption))
        | apply EffK.after (poolEffect_k ..) | apply KeepsIn.after (EffK.get (poolEffect_k ..) (by assumption))
        | apply KeepsIn.after (store_k ..) | apply EffK.after (fabEffect_k ..)
        | apply KeepsIn.after (EffK.get (fabEffect_k ..) (by assumption)) | apply EffK.after (vatEffect_k ..)
        | apply KeepsIn.after (EffK.get (vatEffect_k ..) (by assumption)) | apply KeepsIn.after (scatterDrop_k ..)
        | apply EffK.after (engEffect_k ..) | apply KeepsIn.after (EffK.get (engEffect_k ..) (by assumption))
        | apply EffK.after (gcEffect_k ..) | apply KeepsIn.after (EffK.get (gcEffect_k ..) (by assumption))
        | apply EffK.after (sheetEffect_k ..) | apply KeepsIn.after (EffK.get (sheetEffect_k ..) (by assumption))
        | apply EffK.after (lineEffect_k ..) | apply KeepsIn.after (EffK.get (lineEffect_k ..) (by assumption))
        | apply EffK.after (ciphEffect_k ..) | apply KeepsIn.after (EffK.get (ciphEffect_k ..) (by assumption))
        | apply EffK.after (timeEffect_k ..) | apply KeepsIn.after (EffK.get (timeEffect_k ..) (by assumption))
        | apply EffK.after (clkEffect_k ..) | apply KeepsIn.after (EffK.get (clkEffect_k ..) (by assumption))
        | apply EffK.after (bootEffect_k ..) | apply KeepsIn.after (EffK.get (bootEffect_k ..) (by assumption))
        | apply EffK.after (mgmtEffect_k ..) | apply KeepsIn.after (EffK.get (mgmtEffect_k ..) (by assumption))
        | apply EffK.after (hostFEffect_k ..) | apply KeepsIn.after (EffK.get (hostFEffect_k ..) (by assumption))
        | apply EffK.map
    | dsimp only | split

theorem refusedToo_k (c : RefCode) (o : Nat) (s : State) : KeepsIn [.outer, .time] s (refusedToo c o s) := by
  unfold refusedToo
  repeat' first
    | exact rfl
    | with_unfolding_none first
        | apply KeepsIn.refl | assumption | intro _ | apply KeepsIn.ite | apply KeepsIn.after (outerRefused_k ..)
        | apply KeepsIn.after (ioRefuse_k ..)
    | dsimp only | split

theorem takeWrite_k {m : List Part} {eff : Nat → DWord → State → Eff} (hm : subParts [.outer, .time, .pages] m = true)
    (hf : ∀ x0 x1 x2, EffK m x2 (eff x0 x1 x2)) (w : Who) (p o ix : Nat) (val : DWord) (v : Word) (s : State) :
    KeepsIn m s (takeWrite eff w p o ix val v s) := by
  unfold takeWrite
  repeat' first
    | exact rfl | exact subParts_trans rfl hm
    | with_unfolding_none first
        | apply KeepsIn.refl | assumption | intro _ | apply KeepsIn.ite | apply KeepsIn.andThen (hf ..)
        | apply KeepsIn.andThen (EffK.get (hf ..) (by assumption)) | apply KeepsIn.after (refusedToo_k ..)
        | apply KeepsIn.after (refuse_k ..)
    | dsimp only | split

theorem rowWrite_k {m : List Part} {eff : Nat → DWord → State → Eff}
    (hm : subParts [.outer, .time, .pages, .regs, .halves] m = true) (hf : ∀ x0 x1 x2, EffK m x2 (eff x0 x1 x2)) (w : Who) (p o ix : Nat) (r : RegRow) (v : Word) (s : State) :
    KeepsIn m s (rowWrite eff w p o ix r v s) := by
  unfold rowWrite
  repeat' first
    | exact rfl | exact subParts_trans rfl hm
    | with_unfolding_none first
        | apply KeepsIn.refl | assumption | intro _ | apply KeepsIn.ite | apply EffK.ok | apply KeepsIn.andThen (hf ..)
        | apply KeepsIn.andThen (EffK.get (hf ..) (by assumption)) | apply KeepsIn.after (store_k ..)
        | apply KeepsIn.andThen (takeWrite_k ?_ ?_ ..) | apply KeepsIn.after (State.halves_k _ _ _)
    | dsimp only | split

theorem regWriteAt_k {m : List Part} {eff : Nat → DWord → State → Eff}
    (hm : subParts [.outer, .host, .time, .mgmt, .pages, .regs, .cnts, .halves] m = true) (hf : ∀ x0 x1 x2, EffK m x2 (eff x0 x1 x2)) (w : Who) (p o : Nat) (v : Word) (s : State) :
    KeepsIn m s (regWriteAt eff w p o v s) := by
  unfold regWriteAt
  repeat' first
    | exact rfl | exact subParts_trans rfl hm
    | with_unfolding_none first
        | apply KeepsIn.refl | assumption | intro _ | apply KeepsIn.ite | apply EffK.ok | apply KeepsIn.andThen (hf ..)
        | apply KeepsIn.andThen (EffK.get (hf ..) (by assumption)) | apply KeepsIn.after (notOwner_k ..)
        | apply KeepsIn.after (refuse_k ..) | apply KeepsIn.andThen (rowWrite_k ?_ ?_ ..)
    | dsimp only | split

theorem regWriteBy_k {m : List Part} {eff : Nat → DWord → State → Eff}
    (hm : subParts [.sch, .outer, .fab, .host, .pool, .time, .mgmt, .pages, .regs, .cnts, .snaps, .halves] m = true) (hf : ∀ x0 x1 x2, EffK m x2 (eff x0 x1 x2)) (w : Who) (p o : Nat) (v : Word) (s : State) :
    KeepsIn m s (regWriteBy eff w p o v s) := by
  unfold regWriteBy
  repeat' first
    | exact rfl | exact subParts_trans rfl hm
    | with_unfolding_none first
        | apply KeepsIn.refl | assumption | intro _ | apply KeepsIn.ite | apply EffK.ok | apply KeepsIn.andThen (hf ..)
        | apply KeepsIn.andThen (EffK.get (hf ..) (by assumption)) | apply KeepsIn.after (hdrWr_k ..)
        | apply KeepsIn.after (notOwner_k ..) | apply KeepsIn.andThen (regWriteAt_k ?_ ?_ ..)
    | dsimp only | split

theorem regWrite_k (w : Who) (p o : Nat) (v : Word) (s : State) :
    KeepsIn [.sch, .vat, .eng, .gc, .sheet, .ring, .outer, .fab, .line, .opt, .ciph, .host, .pool, .mem, .time, .mgmt, .clk, .pwr, .boot, .pages, .regs, .cnts, .snaps, .halves] s (regWrite w p o v s) := by
  unfold regWrite
  repeat' first
    | exact rfl
    | with_unfolding_none first
        | apply KeepsIn.refl | assumption | intro _ | apply KeepsIn.ite | apply EffK.ok
        | apply KeepsIn.andThen (regWriteBy_k ?_ ?_ ..) | apply EffK.after (pageEffect_k ..)
        | apply KeepsIn.after (EffK.get (pageEffect_k ..) (by assumption))
    | dsimp only | split

theorem msixWr_k (f v k : Nat) (x : Word) (s : State) : KeepsIn [.host] s (msixWr f v k x s) := by
  unfold msixWr
  repeat' first
    | exact rfl
    | with_unfolding_none first
        | apply KeepsIn.refl | assumption | intro _ | apply KeepsIn.ite | apply KeepsIn.after (State.updFn_k ..)
        | apply KeepsIn.after (sendMsix_k ..)
    | dsimp only | split

theorem targetWrite_k (w : Who) (t : Target) (v : Word) (s : State) :
    KeepsIn [.sch, .vat, .eng, .gc, .sheet, .ring, .outer, .fab, .line, .opt, .ciph, .host, .pool, .mem, .time, .mgmt, .clk, .pwr, .boot, .pages, .regs, .cnts, .snaps, .halves] s (targetWrite w t v s) := by
  unfold targetWrite
  repeat' first
    | exact rfl
    | with_unfolding_none first
        | apply KeepsIn.refl | assumption | intro _ | apply KeepsIn.ite | apply KeepsIn.after (regWrite_k ..)
        | apply KeepsIn.after (msixWr_k ..)
    | dsimp only | split

theorem barWrite_k (w : Who) (off : Nat) (v : Word) (s : State) :
    KeepsIn [.sch, .vat, .eng, .gc, .sheet, .ring, .outer, .fab, .line, .opt, .ciph, .host, .pool, .mem, .time, .mgmt, .clk, .pwr, .boot, .pages, .regs, .cnts, .snaps, .halves] s (barWrite w off v s) := by
  unfold barWrite
  repeat' first
    | exact rfl
    | with_unfolding_none first
        | apply KeepsIn.refl | assumption | intro _ | apply KeepsIn.ite | apply KeepsIn.after (targetWrite_k ..)
    | dsimp only | split

theorem pairRead_k (w : Who) (p o : Nat) (hi : Bool) (v : DWord) (s : State) : KeepsIn [.halves] s (pairRead w p o hi v s).2 := by
  unfold pairRead
  split
  · exact State.halves_k s _ s.heldLo
  · dsimp only
    split
    · exact State.halves_k s _ s.heldLo
    · exact KeepsIn.refl s


theorem cntRead_k (w : Who) (p o : Nat) (s : State) : KeepsIn [.halves] s (cntRead w p o s).2 := by
  unfold cntRead
  repeat' first
    | exact rfl
    | with_unfolding_none first
        | apply KeepsIn.refl | assumption | intro _ | apply KeepsIn.ite | apply KeepsIn.after (pairRead_k ..)
    | dsimp only | split

theorem rowRead_k (w : Who) (p o : Nat) (r : RegRow) (s : State) :
    KeepsIn [.time, .pwr, .halves] s (rowRead w p o r s).2 := by
  unfold rowRead
  repeat' first
    | exact rfl
    | with_unfolding_none first
        | apply KeepsIn.refl | assumption | intro _ | apply KeepsIn.ite | apply KeepsIn.after (timeNsRd_k ..)
        | apply KeepsIn.after (timeHiRd_k ..) | apply KeepsIn.after (tsqTsRd_k ..) | apply KeepsIn.after (pwrSample_k ..)
        | apply KeepsIn.after (pairRead_k ..)
    | dsimp only | split

theorem regRead_k (w : Who) (p o : Nat) (s : State) : KeepsIn [.time, .pwr, .halves] s (regRead w p o s).2 := by
  unfold regRead
  repeat' first
    | exact rfl
    | with_unfolding_none first
        | apply KeepsIn.refl | assumption | intro _ | apply KeepsIn.ite | apply KeepsIn.after (cntRead_k ..)
        | apply KeepsIn.after (rowRead_k ..)
    | dsimp only | split

theorem targetRead_k (w : Who) (t : Target) (s : State) : KeepsIn [.time, .pwr, .halves] s (targetRead w t s).2 := by
  unfold targetRead
  repeat' first
    | exact rfl
    | with_unfolding_none first
        | apply KeepsIn.refl | assumption | intro _ | apply KeepsIn.ite | apply KeepsIn.after (regRead_k ..)
    | dsimp only | split

theorem readOut_k (w : Who) (off : Nat) (r : Word × State) : ResK [] r.2 (readOut w off r) :=
  ResK.next (State.emit_k ..)


theorem execBlkIntStatWrite_k (w : Who) (pg : Fin 72) (v : Word) (s : State) :
    ResK [.sch, .vat, .eng, .gc, .sheet, .ring, .outer, .fab, .line, .opt, .ciph, .host, .pool, .mem, .time, .mgmt, .clk, .pwr, .boot, .pages, .regs, .cnts, .snaps, .halves] s (execBlkIntStatWrite w pg v s) := by
  unfold execBlkIntStatWrite
  repeat' first
    | exact rfl
    | with_unfolding_none first
        | apply KeepsIn.refl | apply ResK.next | assumption | intro _ | apply KeepsIn.ite
        | apply KeepsIn.after (regWrite_k ..)
    | dsimp only | split

theorem execBlkIntEnWrite_k (w : Who) (pg : Fin 72) (v : Word) (s : State) :
    ResK [.sch, .vat, .eng, .gc, .sheet, .ring, .outer, .fab, .line, .opt, .ciph, .host, .pool, .mem, .time, .mgmt, .clk, .pwr, .boot, .pages, .regs, .cnts, .snaps, .halves] s (execBlkIntEnWrite w pg v s) := by
  unfold execBlkIntEnWrite
  repeat' first
    | exact rfl
    | with_unfolding_none first
        | apply KeepsIn.refl | apply ResK.next | assumption | intro _ | apply KeepsIn.ite
        | apply KeepsIn.after (regWrite_k ..)
    | dsimp only | split

theorem execBlkCtlWrite_k (w : Who) (pg : Fin 72) (v : Word) (s : State) :
    ResK [.sch, .vat, .eng, .gc, .sheet, .ring, .outer, .fab, .line, .opt, .ciph, .host, .pool, .mem, .time, .mgmt, .clk, .pwr, .boot, .pages, .regs, .cnts, .snaps, .halves] s (execBlkCtlWrite w pg v s) := by
  unfold execBlkCtlWrite
  repeat' first
    | exact rfl
    | with_unfolding_none first
        | apply KeepsIn.refl | apply ResK.next | assumption | intro _ | apply KeepsIn.ite
        | apply KeepsIn.after (regWrite_k ..)
    | dsimp only | split

theorem execBlkIntSet_k (w : Who) (pg : Fin 72) (v : Word) (s : State) :
    ResK [.sch, .vat, .eng, .gc, .sheet, .ring, .outer, .fab, .line, .opt, .ciph, .host, .pool, .mem, .time, .mgmt, .clk, .pwr, .boot, .pages, .regs, .cnts, .snaps, .halves] s (execBlkIntSet w pg v s) := by
  unfold execBlkIntSet
  repeat' first
    | exact rfl
    | with_unfolding_none first
        | apply KeepsIn.refl | apply ResK.next | assumption | intro _ | apply KeepsIn.ite
        | apply KeepsIn.after (regWrite_k ..)
    | dsimp only | split

theorem execBlkErrSrcWrite_k (w : Who) (pg : Fin 72) (v : Word) (s : State) :
    ResK [.sch, .vat, .eng, .gc, .sheet, .ring, .outer, .fab, .line, .opt, .ciph, .host, .pool, .mem, .time, .mgmt, .clk, .pwr, .boot, .pages, .regs, .cnts, .snaps, .halves] s (execBlkErrSrcWrite w pg v s) := by
  unfold execBlkErrSrcWrite
  repeat' first
    | exact rfl
    | with_unfolding_none first
        | apply KeepsIn.refl | apply ResK.next | assumption | intro _ | apply KeepsIn.ite
        | apply KeepsIn.after (regWrite_k ..)
    | dsimp only | split

theorem execCntSnap_k (w : Who) (pg : Fin 72) (v : Word) (s : State) :
    ResK [.sch, .vat, .eng, .gc, .sheet, .ring, .outer, .fab, .line, .opt, .ciph, .host, .pool, .mem, .time, .mgmt, .clk, .pwr, .boot, .pages, .regs, .cnts, .snaps, .halves] s (execCntSnap w pg v s) := by
  unfold execCntSnap
  repeat' first
    | exact rfl
    | with_unfolding_none first
        | apply KeepsIn.refl | apply ResK.next | assumption | intro _ | apply KeepsIn.ite
        | apply KeepsIn.after (regWrite_k ..)
    | dsimp only | split

theorem execCntClear_k (w : Who) (pg : Fin 72) (v : Word) (s : State) :
    ResK [.sch, .vat, .eng, .gc, .sheet, .ring, .outer, .fab, .line, .opt, .ciph, .host, .pool, .mem, .time, .mgmt, .clk, .pwr, .boot, .pages, .regs, .cnts, .snaps, .halves] s (execCntClear w pg v s) := by
  unfold execCntClear
  repeat' first
    | exact rfl
    | with_unfolding_none first
        | apply KeepsIn.refl | apply ResK.next | assumption | intro _ | apply KeepsIn.ite
        | apply KeepsIn.after (regWrite_k ..)
    | dsimp only | split

theorem execPairLoRead_k (w : Who) (off : Nat) (s : State) : ResK [.time, .pwr, .halves] s (execPairLoRead w off s) := by
  unfold execPairLoRead
  repeat' first
    | exact rfl
    | with_unfolding_none first
        | apply KeepsIn.refl | apply ResK.next | assumption | intro _ | apply KeepsIn.ite
        | apply KeepsIn.after (ResK.get (readOut_k ..) (by assumption)) | apply ResK.after (readOut_k ..)
        | apply KeepsIn.after (targetRead_k ..)
    | dsimp only | split

theorem execPairHiRead_k (w : Who) (off : Nat) (s : State) : ResK [.time, .pwr, .halves] s (execPairHiRead w off s) := by
  unfold execPairHiRead
  repeat' first
    | exact rfl
    | with_unfolding_none first
        | apply KeepsIn.refl | apply ResK.next | assumption | intro _ | apply KeepsIn.ite
        | apply KeepsIn.after (ResK.get (readOut_k ..) (by assumption)) | apply ResK.after (readOut_k ..)
        | apply KeepsIn.after (targetRead_k ..)
    | dsimp only | split

theorem execPairLoWrite_k (w : Who) (off : Nat) (v : Word) (s : State) :
    ResK [.sch, .vat, .eng, .gc, .sheet, .ring, .outer, .fab, .line, .opt, .ciph, .host, .pool, .mem, .time, .mgmt, .clk, .pwr, .boot, .pages, .regs, .cnts, .snaps, .halves] s (execPairLoWrite w off v s) := by
  unfold execPairLoWrite
  repeat' first
    | exact rfl
    | with_unfolding_none first
        | apply KeepsIn.refl | apply ResK.next | assumption | intro _ | apply KeepsIn.ite
        | apply KeepsIn.after (barWrite_k ..)
    | dsimp only | split

theorem execPairHiWrite_k (w : Who) (off : Nat) (v : Word) (s : State) :
    ResK [.sch, .vat, .eng, .gc, .sheet, .ring, .outer, .fab, .line, .opt, .ciph, .host, .pool, .mem, .time, .mgmt, .clk, .pwr, .boot, .pages, .regs, .cnts, .snaps, .halves] s (execPairHiWrite w off v s) := by
  unfold execPairHiWrite
  repeat' first
    | exact rfl
    | with_unfolding_none first
        | apply KeepsIn.refl | apply ResK.next | assumption | intro _ | apply KeepsIn.ite
        | apply KeepsIn.after (barWrite_k ..)
    | dsimp only | split

theorem execRegisterWrite_k (w : Who) (off : Nat) (v : Word) (s : State) :
    ResK [.sch, .vat, .eng, .gc, .sheet, .ring, .outer, .fab, .line, .opt, .ciph, .host, .pool, .mem, .time, .mgmt, .clk, .pwr, .boot, .pages, .regs, .cnts, .snaps, .halves] s (execRegisterWrite w off v s) := by
  unfold execRegisterWrite
  repeat' first
    | exact rfl
    | with_unfolding_none first
        | apply KeepsIn.refl | apply ResK.next | assumption | intro _ | apply KeepsIn.ite
        | apply KeepsIn.after (barWrite_k ..)
    | dsimp only | split

end Sys2Proof.Machine
end

