-- ==== Sys2Proof/Laws/Keeps/Regs.lean ====
section
/-! SUPPORT. What the operations and commands of Machine/Regs.lean keep, and the parts they may change. -/
namespace Sys2Proof.Machine

open Sys2Proof

set_option linter.all false

theorem execSchStepLoad_k (w : Who) (j : Job) (v : Word) (s : State) :
    ResK [.sch, .vat, .eng, .gc, .sheet, .ring, .outer, .fab, .line, .opt, .ciph, .host, .pool, .mem, .time, .mgmt, .clk, .pwr, .boot, .pages, .regs, .cnts, .snaps, .halves] s (execSchStepLoad w j v s) := by
  unfold execSchStepLoad
  repeat' first
    | exact rfl
    | with_unfolding_none first
        | apply KeepsIn.refl | apply ResK.next | assumption | intro _ | apply KeepsIn.ite
        | apply KeepsIn.after (regWrite_k ..)
    | dsimp only | split

theorem execRegmapWrite_k (w : Who) (j : Job) (k : Fin 16) (v : Word) (s : State) :
    ResK [.sch, .vat, .eng, .gc, .sheet, .ring, .outer, .fab, .line, .opt, .ciph, .host, .pool, .mem, .time, .mgmt, .clk, .pwr, .boot, .pages, .regs, .cnts, .snaps, .halves] s (execRegmapWrite w j k v s) := by
  unfold execRegmapWrite
  repeat' first
    | exact rfl
    | with_unfolding_none first
        | apply KeepsIn.refl | apply ResK.next | assumption | intro _ | apply KeepsIn.ite
        | apply KeepsIn.after (regWrite_k ..)
    | dsimp only | split

theorem execQuorumWrite_k (w : Who) (j : Job) (v : Word) (s : State) :
    ResK [.sch, .vat, .eng, .gc, .sheet, .ring, .outer, .fab, .line, .opt, .ciph, .host, .pool, .mem, .time, .mgmt, .clk, .pwr, .boot, .pages, .regs, .cnts, .snaps, .halves] s (execQuorumWrite w j v s) := by
  unfold execQuorumWrite
  repeat' first
    | exact rfl
    | with_unfolding_none first
        | apply KeepsIn.refl | apply ResK.next | assumption | intro _ | apply KeepsIn.ite
        | apply KeepsIn.after (regWrite_k ..)
    | dsimp only | split

theorem execSchCntValWrite_k (w : Who) (v : Word) (s : State) :
    ResK [.sch, .vat, .eng, .gc, .sheet, .ring, .outer, .fab, .line, .opt, .ciph, .host, .pool, .mem, .time, .mgmt, .clk, .pwr, .boot, .pages, .regs, .cnts, .snaps, .halves] s (execSchCntValWrite w v s) := by
  unfold execSchCntValWrite
  repeat' first
    | exact rfl
    | with_unfolding_none first
        | apply KeepsIn.refl | apply ResK.next | assumption | intro _ | apply KeepsIn.ite
        | apply KeepsIn.after (regWrite_k ..)
    | dsimp only | split

theorem execCntPartWrite_k (w : Who) (j : Job) (v : Word) (s : State) :
    ResK [.sch, .vat, .eng, .gc, .sheet, .ring, .outer, .fab, .line, .opt, .ciph, .host, .pool, .mem, .time, .mgmt, .clk, .pwr, .boot, .pages, .regs, .cnts, .snaps, .halves] s (execCntPartWrite w j v s) := by
  unfold execCntPartWrite
  repeat' first
    | exact rfl
    | with_unfolding_none first
        | apply KeepsIn.refl | apply ResK.next | assumption | intro _ | apply KeepsIn.ite
        | apply KeepsIn.after (regWrite_k ..)
    | dsimp only | split

theorem execCmapWrite_k (w : Who) (j : Job) (k : Fin 16) (v : Word) (s : State) :
    ResK [.sch, .vat, .eng, .gc, .sheet, .ring, .outer, .fab, .line, .opt, .ciph, .host, .pool, .mem, .time, .mgmt, .clk, .pwr, .boot, .pages, .regs, .cnts, .snaps, .halves] s (execCmapWrite w j k v s) := by
  unfold execCmapWrite
  repeat' first
    | exact rfl
    | with_unfolding_none first
        | apply KeepsIn.refl | apply ResK.next | assumption | intro _ | apply KeepsIn.ite
        | apply KeepsIn.after (regWrite_k ..)
    | dsimp only | split

theorem execVatWinCtlWrite_k (w : Who) (v : Word) (s : State) :
    ResK [.sch, .vat, .eng, .gc, .sheet, .ring, .outer, .fab, .line, .opt, .ciph, .host, .pool, .mem, .time, .mgmt, .clk, .pwr, .boot, .pages, .regs, .cnts, .snaps, .halves] s (execVatWinCtlWrite w v s) := by
  unfold execVatWinCtlWrite
  repeat' first
    | exact rfl
    | with_unfolding_none first
        | apply KeepsIn.refl | apply ResK.next | assumption | intro _ | apply KeepsIn.ite
        | apply KeepsIn.after (regWrite_k ..)
    | dsimp only | split

theorem execVatQuotaWrite_k (w : Who) (d : Die) (j : Job) (v : Word) (s : State) :
    ResK [.sch, .vat, .eng, .gc, .sheet, .ring, .outer, .fab, .line, .opt, .ciph, .host, .pool, .mem, .time, .mgmt, .clk, .pwr, .boot, .pages, .regs, .cnts, .snaps, .halves] s (execVatQuotaWrite w d j v s) := by
  unfold execVatQuotaWrite
  repeat' first
    | exact rfl
    | with_unfolding_none first
        | apply KeepsIn.refl | apply ResK.next | assumption | intro _ | apply KeepsIn.ite
        | apply KeepsIn.after (regWrite_k ..)
    | dsimp only | split

theorem execGrantQpReplace_k (w : Who) (v : Word) (s : State) :
    ResK [.sch, .vat, .eng, .gc, .sheet, .ring, .outer, .fab, .line, .opt, .ciph, .host, .pool, .mem, .time, .mgmt, .clk, .pwr, .boot, .pages, .regs, .cnts, .snaps, .halves] s (execGrantQpReplace w v s) := by
  unfold execGrantQpReplace
  repeat' first
    | exact rfl
    | with_unfolding_none first
        | apply KeepsIn.refl | apply ResK.next | assumption | intro _ | apply KeepsIn.ite
        | apply KeepsIn.after (regWrite_k ..)
    | dsimp only | split

theorem execEngSvcWrite_k (w : Who) (d : Die) (v : Word) (s : State) :
    ResK [.sch, .vat, .eng, .gc, .sheet, .ring, .outer, .fab, .line, .opt, .ciph, .host, .pool, .mem, .time, .mgmt, .clk, .pwr, .boot, .pages, .regs, .cnts, .snaps, .halves] s (execEngSvcWrite w d v s) := by
  unfold execEngSvcWrite
  repeat' first
    | exact rfl
    | with_unfolding_none first
        | apply KeepsIn.refl | apply ResK.next | assumption | intro _ | apply KeepsIn.ite
        | apply KeepsIn.after (regWrite_k ..)
    | dsimp only | split

theorem execEngEdtWrite_k (w : Who) (d : Die) (j : Job) (v : Word) (s : State) :
    ResK [.sch, .vat, .eng, .gc, .sheet, .ring, .outer, .fab, .line, .opt, .ciph, .host, .pool, .mem, .time, .mgmt, .clk, .pwr, .boot, .pages, .regs, .cnts, .snaps, .halves] s (execEngEdtWrite w d j v s) := by
  unfold execEngEdtWrite
  repeat' first
    | exact rfl
    | with_unfolding_none first
        | apply KeepsIn.refl | apply ResK.next | assumption | intro _ | apply KeepsIn.ite
        | apply KeepsIn.after (regWrite_k ..)
    | dsimp only | split

theorem execGcSvcWrite_k (w : Who) (d : Die) (v : Word) (s : State) :
    ResK [.sch, .vat, .eng, .gc, .sheet, .ring, .outer, .fab, .line, .opt, .ciph, .host, .pool, .mem, .time, .mgmt, .clk, .pwr, .boot, .pages, .regs, .cnts, .snaps, .halves] s (execGcSvcWrite w d v s) := by
  unfold execGcSvcWrite
  repeat' first
    | exact rfl
    | with_unfolding_none first
        | apply KeepsIn.refl | apply ResK.next | assumption | intro _ | apply KeepsIn.ite
        | apply KeepsIn.after (regWrite_k ..)
    | dsimp only | split

theorem execGcShmWrite_k (w : Who) (d : Die) (off : Nat) (v : Word) (s : State) :
    ResK [.sch, .vat, .eng, .gc, .sheet, .ring, .outer, .fab, .line, .opt, .ciph, .host, .pool, .mem, .time, .mgmt, .clk, .pwr, .boot, .pages, .regs, .cnts, .snaps, .halves] s (execGcShmWrite w d off v s) := by
  unfold execGcShmWrite
  repeat' first
    | exact rfl
    | with_unfolding_none first
        | apply KeepsIn.refl | apply ResK.next | assumption | intro _ | apply KeepsIn.ite | apply KeepsIn.whenD
        | apply KeepsIn.after (regWrite_k ..)
    | dsimp only | split

theorem execHbmRangeWrite_k (w : Who) (d : Die) (off : Nat) (v : Word) (s : State) :
    ResK [.sch, .vat, .eng, .gc, .sheet, .ring, .outer, .fab, .line, .opt, .ciph, .host, .pool, .mem, .time, .mgmt, .clk, .pwr, .boot, .pages, .regs, .cnts, .snaps, .halves] s (execHbmRangeWrite w d off v s) := by
  unfold execHbmRangeWrite
  repeat' first
    | exact rfl
    | with_unfolding_none first
        | apply KeepsIn.refl | apply ResK.next | assumption | intro _ | apply KeepsIn.ite | apply KeepsIn.whenD
        | apply KeepsIn.after (regWrite_k ..)
    | dsimp only | split

theorem execSheetSvcWrite_k (w : Who) (d : Die) (v : Word) (s : State) :
    ResK [.sch, .vat, .eng, .gc, .sheet, .ring, .outer, .fab, .line, .opt, .ciph, .host, .pool, .mem, .time, .mgmt, .clk, .pwr, .boot, .pages, .regs, .cnts, .snaps, .halves] s (execSheetSvcWrite w d v s) := by
  unfold execSheetSvcWrite
  repeat' first
    | exact rfl
    | with_unfolding_none first
        | apply KeepsIn.refl | apply ResK.next | assumption | intro _ | apply KeepsIn.ite
        | apply KeepsIn.after (regWrite_k ..)
    | dsimp only | split

theorem execRingSetupStart_k (w : Who) (v : Word) (s : State) :
    ResK [.sch, .vat, .eng, .gc, .sheet, .ring, .outer, .fab, .line, .opt, .ciph, .host, .pool, .mem, .time, .mgmt, .clk, .pwr, .boot, .pages, .regs, .cnts, .snaps, .halves] s (execRingSetupStart w v s) := by
  unfold execRingSetupStart
  repeat' first
    | exact rfl
    | with_unfolding_none first
        | apply KeepsIn.refl | apply ResK.next | assumption | intro _ | apply KeepsIn.ite
        | apply KeepsIn.after (regWrite_k ..)
    | dsimp only | split

theorem execRingTeardown_k (w : Who) (v : Word) (s : State) :
    ResK [.sch, .vat, .eng, .gc, .sheet, .ring, .outer, .fab, .line, .opt, .ciph, .host, .pool, .mem, .time, .mgmt, .clk, .pwr, .boot, .pages, .regs, .cnts, .snaps, .halves] s (execRingTeardown w v s) := by
  unfold execRingTeardown
  repeat' first
    | exact rfl
    | with_unfolding_none first
        | apply KeepsIn.refl | apply ResK.next | assumption | intro _ | apply KeepsIn.ite
        | apply KeepsIn.after (regWrite_k ..)
    | dsimp only | split

theorem execOuterEnable_k (w : Who) (j : Job) (v : Word) (s : State) :
    ResK [.sch, .vat, .eng, .gc, .sheet, .ring, .outer, .fab, .line, .opt, .ciph, .host, .pool, .mem, .time, .mgmt, .clk, .pwr, .boot, .pages, .regs, .cnts, .snaps, .halves] s (execOuterEnable w j v s) := by
  unfold execOuterEnable
  repeat' first
    | exact rfl
    | with_unfolding_none first
        | apply KeepsIn.refl | apply ResK.next | assumption | intro _ | apply KeepsIn.ite
        | apply KeepsIn.after (regWrite_k ..)
    | dsimp only | split

theorem execOuterDisable_k (w : Who) (j : Job) (v : Word) (s : State) :
    ResK [.sch, .vat, .eng, .gc, .sheet, .ring, .outer, .fab, .line, .opt, .ciph, .host, .pool, .mem, .time, .mgmt, .clk, .pwr, .boot, .pages, .regs, .cnts, .snaps, .halves] s (execOuterDisable w j v s) := by
  unfold execOuterDisable
  repeat' first
    | exact rfl
    | with_unfolding_none first
        | apply KeepsIn.refl | apply ResK.next | assumption | intro _ | apply KeepsIn.ite
        | apply KeepsIn.after (regWrite_k ..)
    | dsimp only | split

theorem execStreamEndEnable_k (w : Who) (v : Word) (peer : Option PeerEnd) (s : State) :
    ResK [.sch, .outer, .fab, .line, .host, .pool, .mem, .time, .mgmt, .pages, .regs, .cnts, .snaps, .halves] s (execStreamEndEnable w v peer s) := by
  unfold execStreamEndEnable
  repeat' first
    | exact rfl
    | with_unfolding_none first
        | apply KeepsIn.refl | apply ResK.next | assumption | intro _ | apply KeepsIn.ite | apply EffK.ok
        | apply KeepsIn.andThen (regWriteBy_k ?_ ?_ ..) | apply EffK.after (scCtlWr_k ..)
        | apply KeepsIn.after (EffK.get (scCtlWr_k ..) (by assumption))
    | dsimp only | split

theorem execStreamEndDisable_k (w : Who) (v : Word) (s : State) :
    ResK [.sch, .vat, .eng, .gc, .sheet, .ring, .outer, .fab, .line, .opt, .ciph, .host, .pool, .mem, .time, .mgmt, .clk, .pwr, .boot, .pages, .regs, .cnts, .snaps, .halves] s (execStreamEndDisable w v s) := by
  unfold execStreamEndDisable
  repeat' first
    | exact rfl
    | with_unfolding_none first
        | apply KeepsIn.refl | apply ResK.next | assumption | intro _ | apply KeepsIn.ite
        | apply KeepsIn.after (regWrite_k ..)
    | dsimp only | split

theorem execFabPortCtlWrite_k (w : Who) (p : Fin 12) (v : Word) (s : State) :
    ResK [.sch, .vat, .eng, .gc, .sheet, .ring, .outer, .fab, .line, .opt, .ciph, .host, .pool, .mem, .time, .mgmt, .clk, .pwr, .boot, .pages, .regs, .cnts, .snaps, .halves] s (execFabPortCtlWrite w p v s) := by
  unfold execFabPortCtlWrite
  repeat' first
    | exact rfl
    | with_unfolding_none first
        | apply KeepsIn.refl | apply ResK.next | assumption | intro _ | apply KeepsIn.ite
        | apply KeepsIn.after (regWrite_k ..)
    | dsimp only | split

theorem execRekey_k (w : Who) (v : Word) (s : State) :
    ResK [.sch, .vat, .eng, .gc, .sheet, .ring, .outer, .fab, .line, .opt, .ciph, .host, .pool, .mem, .time, .mgmt, .clk, .pwr, .boot, .pages, .regs, .cnts, .snaps, .halves] s (execRekey w v s) := by
  unfold execRekey
  repeat' first
    | exact rfl
    | with_unfolding_none first
        | apply KeepsIn.refl | apply ResK.next | assumption | intro _ | apply KeepsIn.ite
        | apply KeepsIn.after (regWrite_k ..)
    | dsimp only | split

theorem execSwMirrorCtlWrite_k (w : Who) (v : Word) (s : State) :
    ResK [.sch, .vat, .eng, .gc, .sheet, .ring, .outer, .fab, .line, .opt, .ciph, .host, .pool, .mem, .time, .mgmt, .clk, .pwr, .boot, .pages, .regs, .cnts, .snaps, .halves] s (execSwMirrorCtlWrite w v s) := by
  unfold execSwMirrorCtlWrite
  repeat' first
    | exact rfl
    | with_unfolding_none first
        | apply KeepsIn.refl | apply ResK.next | assumption | intro _ | apply KeepsIn.ite
        | apply KeepsIn.after (regWrite_k ..)
    | dsimp only | split

theorem execSwQpQuotaWrite_k (w : Who) (j : Job) (v : Word) (s : State) :
    ResK [.sch, .vat, .eng, .gc, .sheet, .ring, .outer, .fab, .line, .opt, .ciph, .host, .pool, .mem, .time, .mgmt, .clk, .pwr, .boot, .pages, .regs, .cnts, .snaps, .halves] s (execSwQpQuotaWrite w j v s) := by
  unfold execSwQpQuotaWrite
  repeat' first
    | exact rfl
    | with_unfolding_none first
        | apply KeepsIn.refl | apply ResK.next | assumption | intro _ | apply KeepsIn.ite
        | apply KeepsIn.after (regWrite_k ..)
    | dsimp only | split

theorem execReadRegionValid_k (w : Who) (v : Word) (s : State) :
    ResK [.sch, .vat, .eng, .gc, .sheet, .ring, .outer, .fab, .line, .opt, .ciph, .host, .pool, .mem, .time, .mgmt, .clk, .pwr, .boot, .pages, .regs, .cnts, .snaps, .halves] s (execReadRegionValid w v s) := by
  unfold execReadRegionValid
  repeat' first
    | exact rfl
    | with_unfolding_none first
        | apply KeepsIn.refl | apply ResK.next | assumption | intro _ | apply KeepsIn.ite
        | apply KeepsIn.after (regWrite_k ..)
    | dsimp only | split

theorem execLineCtlWrite_k (w : Who) (p : Port) (v : Word) (s : State) :
    ResK [.sch, .vat, .eng, .gc, .sheet, .ring, .outer, .fab, .line, .opt, .ciph, .host, .pool, .mem, .time, .mgmt, .clk, .pwr, .boot, .pages, .regs, .cnts, .snaps, .halves] s (execLineCtlWrite w p v s) := by
  unfold execLineCtlWrite
  repeat' first
    | exact rfl
    | with_unfolding_none first
        | apply KeepsIn.refl | apply ResK.next | assumption | intro _ | apply KeepsIn.ite
        | apply KeepsIn.after (regWrite_k ..)
    | dsimp only | split

theorem execSelLockout_k (w : Who) (v : Word) (s : State) :
    ResK [.sch, .vat, .eng, .gc, .sheet, .ring, .outer, .fab, .line, .opt, .ciph, .host, .pool, .mem, .time, .mgmt, .clk, .pwr, .boot, .pages, .regs, .cnts, .snaps, .halves] s (execSelLockout w v s) := by
  unfold execSelLockout
  repeat' first
    | exact rfl
    | with_unfolding_none first
        | apply KeepsIn.refl | apply ResK.next | assumption | intro _ | apply KeepsIn.ite
        | apply KeepsIn.after (regWrite_k ..)
    | dsimp only | split

theorem execSelForce_k (w : Who) (v : Word) (s : State) :
    ResK [.sch, .vat, .eng, .gc, .sheet, .ring, .outer, .fab, .line, .opt, .ciph, .host, .pool, .mem, .time, .mgmt, .clk, .pwr, .boot, .pages, .regs, .cnts, .snaps, .halves] s (execSelForce w v s) := by
  unfold execSelForce
  repeat' first
    | exact rfl
    | with_unfolding_none first
        | apply KeepsIn.refl | apply ResK.next | assumption | intro _ | apply KeepsIn.ite
        | apply KeepsIn.after (regWrite_k ..)
    | dsimp only | split

theorem execSelManual_k (w : Who) (v : Word) (s : State) :
    ResK [.sch, .vat, .eng, .gc, .sheet, .ring, .outer, .fab, .line, .opt, .ciph, .host, .pool, .mem, .time, .mgmt, .clk, .pwr, .boot, .pages, .regs, .cnts, .snaps, .halves] s (execSelManual w v s) := by
  unfold execSelManual
  repeat' first
    | exact rfl
    | with_unfolding_none first
        | apply KeepsIn.refl | apply ResK.next | assumption | intro _ | apply KeepsIn.ite
        | apply KeepsIn.after (regWrite_k ..)
    | dsimp only | split

theorem execSelClear_k (w : Who) (v : Word) (s : State) :
    ResK [.sch, .vat, .eng, .gc, .sheet, .ring, .outer, .fab, .line, .opt, .ciph, .host, .pool, .mem, .time, .mgmt, .clk, .pwr, .boot, .pages, .regs, .cnts, .snaps, .halves] s (execSelClear w v s) := by
  unfold execSelClear
  repeat' first
    | exact rfl
    | with_unfolding_none first
        | apply KeepsIn.refl | apply ResK.next | assumption | intro _ | apply KeepsIn.ite
        | apply KeepsIn.after (regWrite_k ..)
    | dsimp only | split

theorem execChCtlWrite_k (w : Who) (p : Port) (v : Word) (s : State) :
    ResK [.sch, .vat, .eng, .gc, .sheet, .ring, .outer, .fab, .line, .opt, .ciph, .host, .pool, .mem, .time, .mgmt, .clk, .pwr, .boot, .pages, .regs, .cnts, .snaps, .halves] s (execChCtlWrite w p v s) := by
  unfold execChCtlWrite
  repeat' first
    | exact rfl
    | with_unfolding_none first
        | apply KeepsIn.refl | apply ResK.next | assumption | intro _ | apply KeepsIn.ite
        | apply KeepsIn.after (regWrite_k ..)
    | dsimp only | split

theorem execTribWrite_k (w : Who) (p : Port) (off : Nat) (v : Word) (s : State) :
    ResK [.sch, .vat, .eng, .gc, .sheet, .ring, .outer, .fab, .line, .opt, .ciph, .host, .pool, .mem, .time, .mgmt, .clk, .pwr, .boot, .pages, .regs, .cnts, .snaps, .halves] s (execTribWrite w p off v s) := by
  unfold execTribWrite
  repeat' first
    | exact rfl
    | with_unfolding_none first
        | apply KeepsIn.refl | apply ResK.next | assumption | intro _ | apply KeepsIn.ite | apply KeepsIn.whenD
        | apply KeepsIn.after (regWrite_k ..)
    | dsimp only | split

theorem execFwdFeltWrite_k (w : Who) (p : Port) (v : Word) (s : State) :
    ResK [.sch, .vat, .eng, .gc, .sheet, .ring, .outer, .fab, .line, .opt, .ciph, .host, .pool, .mem, .time, .mgmt, .clk, .pwr, .boot, .pages, .regs, .cnts, .snaps, .halves] s (execFwdFeltWrite w p v s) := by
  unfold execFwdFeltWrite
  repeat' first
    | exact rfl
    | with_unfolding_none first
        | apply KeepsIn.refl | apply ResK.next | assumption | intro _ | apply KeepsIn.ite
        | apply KeepsIn.after (regWrite_k ..)
    | dsimp only | split

theorem execTblDataWrite_k (w : Who) (v : Word) (s : State) :
    ResK [.sch, .vat, .eng, .gc, .sheet, .ring, .outer, .fab, .line, .opt, .ciph, .host, .pool, .mem, .time, .mgmt, .clk, .pwr, .boot, .pages, .regs, .cnts, .snaps, .halves] s (execTblDataWrite w v s) := by
  unfold execTblDataWrite
  repeat' first
    | exact rfl
    | with_unfolding_none first
        | apply KeepsIn.refl | apply ResK.next | assumption | intro _ | apply KeepsIn.ite
        | apply KeepsIn.after (regWrite_k ..)
    | dsimp only | split

theorem execMonReading_k (w : Who) (v : Word) (s : State) :
    ResK [.sch, .vat, .eng, .gc, .sheet, .ring, .outer, .fab, .line, .opt, .ciph, .host, .pool, .mem, .time, .mgmt, .clk, .pwr, .boot, .pages, .regs, .cnts, .snaps, .halves] s (execMonReading w v s) := by
  unfold execMonReading
  repeat' first
    | exact rfl
    | with_unfolding_none first
        | apply KeepsIn.refl | apply ResK.next | assumption | intro _ | apply KeepsIn.ite
        | apply KeepsIn.after (regWrite_k ..)
    | dsimp only | split

theorem execCalLane_k (w : Who) (v : Word) (s : State) :
    ResK [.sch, .vat, .eng, .gc, .sheet, .ring, .outer, .fab, .line, .opt, .ciph, .host, .pool, .mem, .time, .mgmt, .clk, .pwr, .boot, .pages, .regs, .cnts, .snaps, .halves] s (execCalLane w v s) := by
  unfold execCalLane
  repeat' first
    | exact rfl
    | with_unfolding_none first
        | apply KeepsIn.refl | apply ResK.next | assumption | intro _ | apply KeepsIn.ite
        | apply KeepsIn.after (regWrite_k ..)
    | dsimp only | split

theorem execLineSwitch_k (w : Who) (v : Word) (s : State) :
    ResK [.sch, .vat, .eng, .gc, .sheet, .ring, .outer, .fab, .line, .opt, .ciph, .host, .pool, .mem, .time, .mgmt, .clk, .pwr, .boot, .pages, .regs, .cnts, .snaps, .halves] s (execLineSwitch w v s) := by
  unfold execLineSwitch
  repeat' first
    | exact rfl
    | with_unfolding_none first
        | apply KeepsIn.refl | apply ResK.next | assumption | intro _ | apply KeepsIn.ite
        | apply KeepsIn.after (regWrite_k ..)
    | dsimp only | split

theorem execRevert_k (w : Who) (v : Word) (s : State) :
    ResK [.sch, .vat, .eng, .gc, .sheet, .ring, .outer, .fab, .line, .opt, .ciph, .host, .pool, .mem, .time, .mgmt, .clk, .pwr, .boot, .pages, .regs, .cnts, .snaps, .halves] s (execRevert w v s) := by
  unfold execRevert
  repeat' first
    | exact rfl
    | with_unfolding_none first
        | apply KeepsIn.refl | apply ResK.next | assumption | intro _ | apply KeepsIn.ite
        | apply KeepsIn.after (regWrite_k ..)
    | dsimp only | split

theorem execSaveTables_k (w : Who) (v : Word) (s : State) :
    ResK [.sch, .vat, .eng, .gc, .sheet, .ring, .outer, .fab, .line, .opt, .ciph, .host, .pool, .mem, .time, .mgmt, .clk, .pwr, .boot, .pages, .regs, .cnts, .snaps, .halves] s (execSaveTables w v s) := by
  unfold execSaveTables
  repeat' first
    | exact rfl
    | with_unfolding_none first
        | apply KeepsIn.refl | apply ResK.next | assumption | intro _ | apply KeepsIn.ite
        | apply KeepsIn.after (regWrite_k ..)
    | dsimp only | split

theorem execLaneReturn_k (w : Who) (v : Word) (s : State) :
    ResK [.sch, .vat, .eng, .gc, .sheet, .ring, .outer, .fab, .line, .opt, .ciph, .host, .pool, .mem, .time, .mgmt, .clk, .pwr, .boot, .pages, .regs, .cnts, .snaps, .halves] s (execLaneReturn w v s) := by
  unfold execLaneReturn
  repeat' first
    | exact rfl
    | with_unfolding_none first
        | apply KeepsIn.refl | apply ResK.next | assumption | intro _ | apply KeepsIn.ite
        | apply KeepsIn.after (regWrite_k ..)
    | dsimp only | split

theorem execCiphSvcWrite_k (w : Who) (p : Port) (v : Word) (kat : BitVec 12) (s : State) :
    ResK [.sch, .sheet, .ring, .outer, .fab, .line, .ciph, .host, .pool, .mem, .time, .mgmt, .pages, .regs, .cnts, .snaps, .halves] s (execCiphSvcWrite w p v kat s) := by
  unfold execCiphSvcWrite
  repeat' first
    | exact rfl
    | with_unfolding_none first
        | apply KeepsIn.refl | apply ResK.next | assumption | intro _ | apply KeepsIn.ite | apply EffK.ok
        | apply KeepsIn.andThen (regWriteBy_k ?_ ?_ ..) | apply KeepsIn.after (ciphSvcWr_k ..)
    | dsimp only | split

theorem execPeerCtlWrite_k (w : Who) (v : Word) (s : State) :
    ResK [.sch, .vat, .eng, .gc, .sheet, .ring, .outer, .fab, .line, .opt, .ciph, .host, .pool, .mem, .time, .mgmt, .clk, .pwr, .boot, .pages, .regs, .cnts, .snaps, .halves] s (execPeerCtlWrite w v s) := by
  unfold execPeerCtlWrite
  repeat' first
    | exact rfl
    | with_unfolding_none first
        | apply KeepsIn.refl | apply ResK.next | assumption | intro _ | apply KeepsIn.ite
        | apply KeepsIn.after (regWrite_k ..)
    | dsimp only | split

theorem execAcceptStep_k (w : Who) (v : Word) (s : State) :
    ResK [.sch, .vat, .eng, .gc, .sheet, .ring, .outer, .fab, .line, .opt, .ciph, .host, .pool, .mem, .time, .mgmt, .clk, .pwr, .boot, .pages, .regs, .cnts, .snaps, .halves] s (execAcceptStep w v s) := by
  unfold execAcceptStep
  repeat' first
    | exact rfl
    | with_unfolding_none first
        | apply KeepsIn.refl | apply ResK.next | assumption | intro _ | apply KeepsIn.ite
        | apply KeepsIn.after (regWrite_k ..)
    | dsimp only | split

theorem execReacquire_k (w : Who) (v : Word) (s : State) :
    ResK [.sch, .vat, .eng, .gc, .sheet, .ring, .outer, .fab, .line, .opt, .ciph, .host, .pool, .mem, .time, .mgmt, .clk, .pwr, .boot, .pages, .regs, .cnts, .snaps, .halves] s (execReacquire w v s) := by
  unfold execReacquire
  repeat' first
    | exact rfl
    | with_unfolding_none first
        | apply KeepsIn.refl | apply ResK.next | assumption | intro _ | apply KeepsIn.ite
        | apply KeepsIn.after (regWrite_k ..)
    | dsimp only | split

theorem execCalAsym_k (w : Who) (v : Word) (s : State) :
    ResK [.sch, .vat, .eng, .gc, .sheet, .ring, .outer, .fab, .line, .opt, .ciph, .host, .pool, .mem, .time, .mgmt, .clk, .pwr, .boot, .pages, .regs, .cnts, .snaps, .halves] s (execCalAsym w v s) := by
  unfold execCalAsym
  repeat' first
    | exact rfl
    | with_unfolding_none first
        | apply KeepsIn.refl | apply ResK.next | assumption | intro _ | apply KeepsIn.ite
        | apply KeepsIn.after (regWrite_k ..)
    | dsimp only | split

theorem execSetTime_k (w : Who) (v : Word) (s : State) :
    ResK [.sch, .vat, .eng, .gc, .sheet, .ring, .outer, .fab, .line, .opt, .ciph, .host, .pool, .mem, .time, .mgmt, .clk, .pwr, .boot, .pages, .regs, .cnts, .snaps, .halves] s (execSetTime w v s) := by
  unfold execSetTime
  repeat' first
    | exact rfl
    | with_unfolding_none first
        | apply KeepsIn.refl | apply ResK.next | assumption | intro _ | apply KeepsIn.ite
        | apply KeepsIn.after (regWrite_k ..)
    | dsimp only | split

theorem execTimeSrcWrite_k (w : Who) (v : Word) (s : State) :
    ResK [.sch, .vat, .eng, .gc, .sheet, .ring, .outer, .fab, .line, .opt, .ciph, .host, .pool, .mem, .time, .mgmt, .clk, .pwr, .boot, .pages, .regs, .cnts, .snaps, .halves] s (execTimeSrcWrite w v s) := by
  unfold execTimeSrcWrite
  repeat' first
    | exact rfl
    | with_unfolding_none first
        | apply KeepsIn.refl | apply ResK.next | assumption | intro _ | apply KeepsIn.ite
        | apply KeepsIn.after (regWrite_k ..)
    | dsimp only | split

theorem execTimeNsRead_k (w : Who) (s : State) : ResK [.time, .pwr, .halves] s (execTimeNsRead w s) := by
  unfold execTimeNsRead
  repeat' first
    | exact rfl
    | with_unfolding_none first
        | apply KeepsIn.refl | apply ResK.next | assumption | intro _ | apply KeepsIn.ite
        | apply KeepsIn.after (ResK.get (readOut_k ..) (by assumption)) | apply ResK.after (readOut_k ..)
        | apply KeepsIn.after (regRead_k ..)
    | dsimp only | split

theorem execTimeHiRead_k (w : Who) (s : State) : ResK [.time, .pwr, .halves] s (execTimeHiRead w s) := by
  unfold execTimeHiRead
  repeat' first
    | exact rfl
    | with_unfolding_none first
        | apply KeepsIn.refl | apply ResK.next | assumption | intro _ | apply KeepsIn.ite
        | apply KeepsIn.after (ResK.get (readOut_k ..) (by assumption)) | apply ResK.after (readOut_k ..)
        | apply KeepsIn.after (regRead_k ..)
    | dsimp only | split

theorem execTsqTsRead_k (w : Who) (s : State) : ResK [.time, .pwr, .halves] s (execTsqTsRead w s) := by
  unfold execTsqTsRead
  repeat' first
    | exact rfl
    | with_unfolding_none first
        | apply KeepsIn.refl | apply ResK.next | assumption | intro _ | apply KeepsIn.ite
        | apply KeepsIn.after (ResK.get (readOut_k ..) (by assumption)) | apply ResK.after (readOut_k ..)
        | apply KeepsIn.after (regRead_k ..)
    | dsimp only | split

theorem execTimeIoCtlWrite_k (w : Who) (v : Word) (s : State) :
    ResK [.sch, .vat, .eng, .gc, .sheet, .ring, .outer, .fab, .line, .opt, .ciph, .host, .pool, .mem, .time, .mgmt, .clk, .pwr, .boot, .pages, .regs, .cnts, .snaps, .halves] s (execTimeIoCtlWrite w v s) := by
  unfold execTimeIoCtlWrite
  repeat' first
    | exact rfl
    | with_unfolding_none first
        | apply KeepsIn.refl | apply ResK.next | assumption | intro _ | apply KeepsIn.ite
        | apply KeepsIn.after (regWrite_k ..)
    | dsimp only | split

theorem execFmOutClaim_k (w : Who) (v : Word) (s : State) :
    ResK [.sch, .vat, .eng, .gc, .sheet, .ring, .outer, .fab, .line, .opt, .ciph, .host, .pool, .mem, .time, .mgmt, .clk, .pwr, .boot, .pages, .regs, .cnts, .snaps, .halves] s (execFmOutClaim w v s) := by
  unfold execFmOutClaim
  repeat' first
    | exact rfl
    | with_unfolding_none first
        | apply KeepsIn.refl | apply ResK.next | assumption | intro _ | apply KeepsIn.ite
        | apply KeepsIn.after (regWrite_k ..)
    | dsimp only | split

theorem execPoolSizeWrite_k (w : Who) (k : Fin 8) (v : Word) (s : State) :
    ResK [.sch, .vat, .eng, .gc, .sheet, .ring, .outer, .fab, .line, .opt, .ciph, .host, .pool, .mem, .time, .mgmt, .clk, .pwr, .boot, .pages, .regs, .cnts, .snaps, .halves] s (execPoolSizeWrite w k v s) := by
  unfold execPoolSizeWrite
  repeat' first
    | exact rfl
    | with_unfolding_none first
        | apply KeepsIn.refl | apply ResK.next | assumption | intro _ | apply KeepsIn.ite
        | apply KeepsIn.after (regWrite_k ..)
    | dsimp only | split

theorem execMemRangeWrite_k (w : Who) (j : Job) (snap : Bool) (v : Word) (s : State) :
    ResK [.sch, .vat, .eng, .gc, .sheet, .ring, .outer, .fab, .line, .opt, .ciph, .host, .pool, .mem, .time, .mgmt, .clk, .pwr, .boot, .pages, .regs, .cnts, .snaps, .halves] s (execMemRangeWrite w j snap v s) := by
  unfold execMemRangeWrite
  repeat' first
    | exact rfl
    | with_unfolding_none first
        | apply KeepsIn.refl | apply ResK.next | assumption | intro _ | apply KeepsIn.ite
        | apply KeepsIn.after (regWrite_k ..)
    | dsimp only | split

theorem ownWrite_k (w : Who) (o : Nat) (v : Word) (s : State) :
    KeepsIn [.sch, .vat, .eng, .gc, .sheet, .ring, .outer, .fab, .line, .opt, .ciph, .host, .pool, .mem, .time, .mgmt, .clk, .pwr, .boot, .pages, .regs, .cnts, .snaps, .halves] s (ownWrite w o v s) := by
  unfold ownWrite
  repeat' first
    | exact rfl
    | with_unfolding_none first
        | apply KeepsIn.refl | assumption | intro _ | apply KeepsIn.ite | apply KeepsIn.after (regWrite_k ..)
    | dsimp only | split

theorem execCqHeadWrite_k (w : Who) (v : Word) (s : State) :
    ResK [.sch, .vat, .eng, .gc, .sheet, .ring, .outer, .fab, .line, .opt, .ciph, .host, .pool, .mem, .time, .mgmt, .clk, .pwr, .boot, .pages, .regs, .cnts, .snaps, .halves] s (execCqHeadWrite w v s) := by
  unfold execCqHeadWrite
  repeat' first
    | exact rfl
    | with_unfolding_none first
        | apply KeepsIn.refl | apply ResK.next | assumption | intro _ | apply KeepsIn.ite
        | apply KeepsIn.after (ownWrite_k ..)
    | dsimp only | split

theorem execCqCtlWrite_k (w : Who) (v : Word) (s : State) :
    ResK [.sch, .vat, .eng, .gc, .sheet, .ring, .outer, .fab, .line, .opt, .ciph, .host, .pool, .mem, .time, .mgmt, .clk, .pwr, .boot, .pages, .regs, .cnts, .snaps, .halves] s (execCqCtlWrite w v s) := by
  unfold execCqCtlWrite
  repeat' first
    | exact rfl
    | with_unfolding_none first
        | apply KeepsIn.refl | apply ResK.next | assumption | intro _ | apply KeepsIn.ite
        | apply KeepsIn.after (ownWrite_k ..)
    | dsimp only | split

theorem execPeerFail_k (w : Who) (v : Word) (s : State) :
    ResK [.sch, .vat, .eng, .gc, .sheet, .ring, .outer, .fab, .line, .opt, .ciph, .host, .pool, .mem, .time, .mgmt, .clk, .pwr, .boot, .pages, .regs, .cnts, .snaps, .halves] s (execPeerFail w v s) := by
  unfold execPeerFail
  repeat' first
    | exact rfl
    | with_unfolding_none first
        | apply KeepsIn.refl | apply ResK.next | assumption | intro _ | apply KeepsIn.ite
        | apply KeepsIn.after (regWrite_k ..)
    | dsimp only | split

theorem execPeerClear_k (w : Who) (v : Word) (s : State) :
    ResK [.sch, .vat, .eng, .gc, .sheet, .ring, .outer, .fab, .line, .opt, .ciph, .host, .pool, .mem, .time, .mgmt, .clk, .pwr, .boot, .pages, .regs, .cnts, .snaps, .halves] s (execPeerClear w v s) := by
  unfold execPeerClear
  repeat' first
    | exact rfl
    | with_unfolding_none first
        | apply KeepsIn.refl | apply ResK.next | assumption | intro _ | apply KeepsIn.ite
        | apply KeepsIn.after (regWrite_k ..)
    | dsimp only | split

theorem execTakeover_k (w : Who) (v : Word) (s : State) :
    ResK [.sch, .vat, .eng, .gc, .sheet, .ring, .outer, .fab, .line, .opt, .ciph, .host, .pool, .mem, .time, .mgmt, .clk, .pwr, .boot, .pages, .regs, .cnts, .snaps, .halves] s (execTakeover w v s) := by
  unfold execTakeover
  repeat' first
    | exact rfl
    | with_unfolding_none first
        | apply KeepsIn.refl | apply ResK.next | assumption | intro _ | apply KeepsIn.ite
        | apply KeepsIn.after (regWrite_k ..)
    | dsimp only | split

theorem execSpareReady_k (w : Who) (v : Word) (s : State) :
    ResK [.sch, .vat, .eng, .gc, .sheet, .ring, .outer, .fab, .line, .opt, .ciph, .host, .pool, .mem, .time, .mgmt, .clk, .pwr, .boot, .pages, .regs, .cnts, .snaps, .halves] s (execSpareReady w v s) := by
  unfold execSpareReady
  repeat' first
    | exact rfl
    | with_unfolding_none first
        | apply KeepsIn.refl | apply ResK.next | assumption | intro _ | apply KeepsIn.ite
        | apply KeepsIn.after (regWrite_k ..)
    | dsimp only | split

theorem execMirrorRefresh_k (req : MirrorReq) (s : State) :
    ResK [.sch, .vat, .eng, .gc, .sheet, .ring, .outer, .fab, .line, .opt, .ciph, .host, .pool, .mem, .time, .mgmt, .clk, .pwr, .boot, .pages, .regs, .cnts, .snaps, .halves] s (execMirrorRefresh req s) := by
  unfold execMirrorRefresh
  repeat' first
    | exact rfl
    | with_unfolding_none first
        | apply KeepsIn.refl | apply ResK.next | assumption | intro _ | apply KeepsIn.ite
        | apply KeepsIn.after (regWrite_k ..) | apply KeepsIn.after (mirrorRefreshMsg_k ..)
    | dsimp only | split

theorem execClkNmiWrite_k (w : Who) (v : Word) (s : State) :
    ResK [.sch, .vat, .eng, .gc, .sheet, .ring, .outer, .fab, .line, .opt, .ciph, .host, .pool, .mem, .time, .mgmt, .clk, .pwr, .boot, .pages, .regs, .cnts, .snaps, .halves] s (execClkNmiWrite w v s) := by
  unfold execClkNmiWrite
  repeat' first
    | exact rfl
    | with_unfolding_none first
        | apply KeepsIn.refl | apply ResK.next | assumption | intro _ | apply KeepsIn.ite
        | apply KeepsIn.after (regWrite_k ..)
    | dsimp only | split

theorem execGate_k (w : Who) (v : Word) (s : State) :
    ResK [.sch, .vat, .eng, .gc, .sheet, .ring, .outer, .fab, .line, .opt, .ciph, .host, .pool, .mem, .time, .mgmt, .clk, .pwr, .boot, .pages, .regs, .cnts, .snaps, .halves] s (execGate w v s) := by
  unfold execGate
  repeat' first
    | exact rfl
    | with_unfolding_none first
        | apply KeepsIn.refl | apply ResK.next | assumption | intro _ | apply KeepsIn.ite
        | apply KeepsIn.after (regWrite_k ..)
    | dsimp only | split

theorem execUngate_k (w : Who) (v : Word) (s : State) :
    ResK [.sch, .vat, .eng, .gc, .sheet, .ring, .outer, .fab, .line, .opt, .ciph, .host, .pool, .mem, .time, .mgmt, .clk, .pwr, .boot, .pages, .regs, .cnts, .snaps, .halves] s (execUngate w v s) := by
  unfold execUngate
  repeat' first
    | exact rfl
    | with_unfolding_none first
        | apply KeepsIn.refl | apply ResK.next | assumption | intro _ | apply KeepsIn.ite
        | apply KeepsIn.after (regWrite_k ..)
    | dsimp only | split

theorem execResetAssert_k (w : Who) (v : Word) (s : State) :
    ResK [.sch, .vat, .eng, .gc, .sheet, .ring, .outer, .fab, .line, .opt, .ciph, .host, .pool, .mem, .time, .mgmt, .clk, .pwr, .boot, .pages, .regs, .cnts, .snaps, .halves] s (execResetAssert w v s) := by
  unfold execResetAssert
  repeat' first
    | exact rfl
    | with_unfolding_none first
        | apply KeepsIn.refl | apply ResK.next | assumption | intro _ | apply KeepsIn.ite
        | apply KeepsIn.after (regWrite_k ..)
    | dsimp only | split

theorem execResetRelease_k (w : Who) (v : Word) (s : State) :
    ResK [.sch, .vat, .eng, .gc, .sheet, .ring, .outer, .fab, .line, .opt, .ciph, .host, .pool, .mem, .time, .mgmt, .clk, .pwr, .boot, .pages, .regs, .cnts, .snaps, .halves] s (execResetRelease w v s) := by
  unfold execResetRelease
  repeat' first
    | exact rfl
    | with_unfolding_none first
        | apply KeepsIn.refl | apply ResK.next | assumption | intro _ | apply KeepsIn.ite
        | apply KeepsIn.after (regWrite_k ..)
    | dsimp only | split

theorem execSetSrc_k (w : Who) (v : Word) (oldStopped : Bool) (s : State) :
    ResK [.sch, .vat, .eng, .gc, .sheet, .outer, .fab, .line, .ciph, .host, .pool, .mem, .time, .mgmt, .clk, .pages, .regs, .cnts, .snaps, .halves] s (execSetSrc w v oldStopped s) := by
  unfold execSetSrc
  repeat' first
    | exact rfl
    | with_unfolding_none first
        | apply KeepsIn.refl | apply ResK.next | assumption | intro _ | apply KeepsIn.ite | apply EffK.ok
        | apply KeepsIn.andThen (regWriteBy_k ?_ ?_ ..) | apply EffK.after (clkCmdWr_k ..)
        | apply KeepsIn.after (EffK.get (clkCmdWr_k ..) (by assumption))
    | dsimp only | split

theorem execForceSwitch_k (w : Who) (v : Word) (s : State) :
    ResK [.sch, .vat, .eng, .gc, .sheet, .ring, .outer, .fab, .line, .opt, .ciph, .host, .pool, .mem, .time, .mgmt, .clk, .pwr, .boot, .pages, .regs, .cnts, .snaps, .halves] s (execForceSwitch w v s) := by
  unfold execForceSwitch
  repeat' first
    | exact rfl
    | with_unfolding_none first
        | apply KeepsIn.refl | apply ResK.next | assumption | intro _ | apply KeepsIn.ite
        | apply KeepsIn.after (regWrite_k ..)
    | dsimp only | split

theorem execRefSelect_k (w : Who) (v : Word) (s : State) :
    ResK [.sch, .vat, .eng, .gc, .sheet, .ring, .outer, .fab, .line, .opt, .ciph, .host, .pool, .mem, .time, .mgmt, .clk, .pwr, .boot, .pages, .regs, .cnts, .snaps, .halves] s (execRefSelect w v s) := by
  unfold execRefSelect
  repeat' first
    | exact rfl
    | with_unfolding_none first
        | apply KeepsIn.refl | apply ResK.next | assumption | intro _ | apply KeepsIn.ite
        | apply KeepsIn.after (regWrite_k ..)
    | dsimp only | split

theorem execFmGo_k (w : Who) (v : Word) (s : State) :
    ResK [.sch, .vat, .eng, .gc, .sheet, .ring, .outer, .fab, .line, .opt, .ciph, .host, .pool, .mem, .time, .mgmt, .clk, .pwr, .boot, .pages, .regs, .cnts, .snaps, .halves] s (execFmGo w v s) := by
  unfold execFmGo
  repeat' first
    | exact rfl
    | with_unfolding_none first
        | apply KeepsIn.refl | apply ResK.next | assumption | intro _ | apply KeepsIn.ite
        | apply KeepsIn.after (regWrite_k ..)
    | dsimp only | split

theorem execClearAlt_k (w : Who) (v : Word) (s : State) :
    ResK [.sch, .vat, .eng, .gc, .sheet, .ring, .outer, .fab, .line, .opt, .ciph, .host, .pool, .mem, .time, .mgmt, .clk, .pwr, .boot, .pages, .regs, .cnts, .snaps, .halves] s (execClearAlt w v s) := by
  unfold execClearAlt
  repeat' first
    | exact rfl
    | with_unfolding_none first
        | apply KeepsIn.refl | apply ResK.next | assumption | intro _ | apply KeepsIn.ite
        | apply KeepsIn.after (regWrite_k ..)
    | dsimp only | split

theorem execRecover_k (w : Who) (v : Word) (s : State) :
    ResK [.sch, .vat, .eng, .gc, .sheet, .ring, .outer, .fab, .line, .opt, .ciph, .host, .pool, .mem, .time, .mgmt, .clk, .pwr, .boot, .pages, .regs, .cnts, .snaps, .halves] s (execRecover w v s) := by
  unfold execRecover
  repeat' first
    | exact rfl
    | with_unfolding_none first
        | apply KeepsIn.refl | apply ResK.next | assumption | intro _ | apply KeepsIn.ite
        | apply KeepsIn.after (regWrite_k ..)
    | dsimp only | split

theorem execCfgSave_k (w : Who) (v : Word) (s : State) :
    ResK [.sch, .vat, .eng, .gc, .sheet, .ring, .outer, .fab, .line, .opt, .ciph, .host, .pool, .mem, .time, .mgmt, .clk, .pwr, .boot, .pages, .regs, .cnts, .snaps, .halves] s (execCfgSave w v s) := by
  unfold execCfgSave
  repeat' first
    | exact rfl
    | with_unfolding_none first
        | apply KeepsIn.refl | apply ResK.next | assumption | intro _ | apply KeepsIn.ite
        | apply KeepsIn.after (regWrite_k ..)
    | dsimp only | split

theorem execLoad_k (w : Who) (v : Word) (s : State) :
    ResK [.sch, .vat, .eng, .gc, .sheet, .ring, .outer, .fab, .line, .opt, .ciph, .host, .pool, .mem, .time, .mgmt, .clk, .pwr, .boot, .pages, .regs, .cnts, .snaps, .halves] s (execLoad w v s) := by
  unfold execLoad
  repeat' first
    | exact rfl
    | with_unfolding_none first
        | apply KeepsIn.refl | apply ResK.next | assumption | intro _ | apply KeepsIn.ite
        | apply KeepsIn.after (regWrite_k ..)
    | dsimp only | split

theorem execAbort_k (w : Who) (v : Word) (s : State) :
    ResK [.sch, .vat, .eng, .gc, .sheet, .ring, .outer, .fab, .line, .opt, .ciph, .host, .pool, .mem, .time, .mgmt, .clk, .pwr, .boot, .pages, .regs, .cnts, .snaps, .halves] s (execAbort w v s) := by
  unfold execAbort
  repeat' first
    | exact rfl
    | with_unfolding_none first
        | apply KeepsIn.refl | apply ResK.next | assumption | intro _ | apply KeepsIn.ite
        | apply KeepsIn.after (regWrite_k ..)
    | dsimp only | split

end Sys2Proof.Machine
end

