-- ==== Sys2Proof/Laws/Sched.lean ====
section
/-! SUPPORT. What the scheduler's shared operations can do (02): which fields of the scheduler each leaves alone, and what
becomes of an entry. -/
namespace Sys2Proof.Machine

open Sys2Proof

theorem ite_both {α : Type} {P : α → Prop} {c : Prop} [Decidable c] {a b : α} (ha : P a) (hb : P b) :
    P (if c then a else b) := by split <;> assumption

/-- Entries may have moved to another state, in place; the scheduler's other tables are as they were. -/
structure SchMoves (s t : State) : Prop where
  axis : t.sch.axis = s.sch.axis
  mc : t.sch.mc = s.sch.mc
  mseq : t.sch.mseq = s.sch.mseq
  cnt : t.sch.cnt = s.sch.cnt
  nextId : t.sch.nextId = s.sch.nextId
  lastSeq : t.sch.lastSeq = s.sch.lastSeq
  rr : t.sch.rr = s.sch.rr
  ents : (t.sch.ops.map fun e => (e.id, e.src, e.d)) = s.sch.ops.map fun e => (e.id, e.src, e.d)

theorem SchMoves.refl (s : State) : SchMoves s s := ⟨rfl, rfl, rfl, rfl, rfl, rfl, rfl, rfl⟩

theorem SchMoves.trans {s t u : State} (h : SchMoves s t) (h' : SchMoves t u) : SchMoves s u :=
  ⟨h'.axis.trans h.axis, h'.mc.trans h.mc, h'.mseq.trans h.mseq, h'.cnt.trans h.cnt, h'.nextId.trans h.nextId,
    h'.lastSeq.trans h.lastSeq, h'.rr.trans h.rr, h'.ents.trans h.ents⟩

theorem SchMoves.len {s t : State} (h : SchMoves s t) : t.sch.ops.length = s.sch.ops.length := by
  simpa using congrArg List.length h.ents

theorem updEntry_moves (id : Nat) (f : Entry → Entry) (hf : ∀ e, ((f e).id, (f e).src, (f e).d) = (e.id, e.src, e.d))
    (s : State) : SchMoves s (updEntry id f s) := by
  refine ⟨rfl, rfl, rfl, rfl, rfl, rfl, rfl, ?_⟩
  simp only [updEntry, State.updSch_sch, List.map_map]
  apply List.map_congr_left
  intro e _
  simp only [Function.comp]
  split
  · exact hf e
  · rfl

theorem enter_moves (id : Nat) (st : OpSt) (s : State) : SchMoves s (enter id st s) := by
  unfold enter
  dsimp only
  split
  · refine SchMoves.trans (updEntry_moves id _ ?_ s) ⟨rfl, rfl, rfl, rfl, rfl, rfl, rfl, rfl⟩
    intro e; rfl
  · refine updEntry_moves id _ ?_ s
    intro e; rfl

theorem evalEntry_moves (id : Nat) (s : State) : SchMoves s (evalEntry id s) := by
  unfold evalEntry
  split
  · exact .refl s
  · split
    · exact enter_moves ..
    · exact .refl s

theorem toWaiting_moves (id : Nat) (s : State) : SchMoves s (toWaiting id s) :=
  (enter_moves id .waiting s).trans (evalEntry_moves id _)

theorem forAll_moves {α : Type} {f : α → State → State} (hf : ∀ a s, SchMoves s (f a s)) (l : List α) (s : State) :
    SchMoves s (forAll l f s) := by
  unfold forAll
  induction l generalizing s with
  | nil => exact .refl s
  | cons a l ih => exact (hf a s).trans (ih _)

theorem evalJob_moves (j : Nat) (s : State) : SchMoves s (evalJob j s) := forAll_moves evalEntry_moves _ s

theorem stepTriggers_moves (j : Nat) (s : State) : SchMoves s (stepTriggers j s) := forAll_moves toWaiting_moves _ s

/-! ## Entries -/

theorem updEntry_entry (id i : Nat) (f : Entry → Entry) (hf : ∀ e, (f e).id = e.id) (s : State) :
    (updEntry id f s).entry? i = if i = id then (s.entry? i).map f else s.entry? i := by
  simp only [updEntry, State.entry?, State.updSch]
  induction s.sch.ops with
  | nil => simp
  | cons e l ih =>
    simp only [List.map_cons, List.find?_cons]
    by_cases h : e.id = id
    · simp only [h, if_true, hf]
      by_cases hi : i = id
      · subst hi; simp
      · have : ¬ id = i := fun h => hi h.symm
        simpa [this, hi] using ih
    · simp only [h, if_false]
      by_cases hi : e.id = i
      · subst hi; simp [h]
      · simpa [hi] using ih

/-- An entry enters a state, and no other entry is touched. -/
theorem enter_entry (id i : Nat) (st : OpSt) (s : State) :
    (enter id st s).entry? i = if i = id then (s.entry? i).map fun e => { e with
      st := st, stalled := false, order := if st = .claiming then s.sch.claimNo else e.order } else s.entry? i := by
  have h := updEntry_entry id i (fun e => { e with
      st := st, stalled := false, order := if st = .claiming then s.sch.claimNo else e.order }) (fun _ => rfl) s
  rw [← h]
  unfold enter
  dsimp only
  split <;> rfl

theorem evalEntry_entry_ne {id i : Nat} (h : i ≠ id) (s : State) : (evalEntry id s).entry? i = s.entry? i := by
  unfold evalEntry
  split
  · rfl
  · split
    · rw [enter_entry, if_neg h]
    · rfl

theorem toWaiting_entry_ne {id i : Nat} (h : i ≠ id) (s : State) : (toWaiting id s).entry? i = s.entry? i := by
  rw [toWaiting, evalEntry_entry_ne h, enter_entry, if_neg h]

/-- The state and the descriptor of an entry whose trigger is met. -/
theorem toWaiting_entry {id : Nat} {e : Entry} {s : State} (h : s.entry? id = some e) :
    ((toWaiting id s).entry? id).map (fun y => (y.st, y.d)) =
      some (if s.condsHold e.d then (if e.d.claim then OpSt.claiming else .ready) else .waiting, e.d) := by
  have h1 := enter_entry id id .waiting s
  rw [if_pos rfl, h] at h1
  have hc : (enter id .waiting s).condsHold e.d = s.condsHold e.d := by
    simp only [State.condsHold, State.ctr, State.partBase, State.regF, State.reg]
    rfl
  unfold toWaiting evalEntry
  simp only [Option.map_some] at h1
  simp only [h1, hc]
  by_cases hh : s.condsHold e.d = true
  · simp [hh, enter_entry, h1]
  · simp [hh, h1]

theorem condsHold_of_moves {s t : State} (h : SchMoves s t) (hr : t.regs = s.regs) (d : Desc) :
    t.condsHold d = s.condsHold d := by
  have h1 : ∀ i, t.ctr i = s.ctr i := fun i => by simp only [State.ctr, h.cnt]
  have h2 : ∀ j, t.partBase j = s.partBase j := fun j => by simp only [State.partBase, State.regF, State.reg, hr]
  simp only [State.condsHold, h1, h2]

/-- What becomes of one entry when it is evaluated. -/
theorem evalEntry_entry (id : Nat) (s : State) :
    (evalEntry id s).entry? id = (s.entry? id).map fun e =>
      if e.st = .waiting && s.condsHold e.d then
        { e with st := if e.d.claim then .claiming else .ready, stalled := false
                 order := if e.d.claim then s.sch.claimNo else e.order }
      else e := by
  unfold evalEntry
  cases h : s.entry? id with
  | none => simp [h]
  | some e =>
    simp only [Option.map_some]
    split
    · rw [enter_entry, if_pos rfl, h]
      cases e.d.claim <;> simp
    · exact h

/-- Evaluating a list of entries evaluates each of them once. -/
theorem forAll_evalEntry (l : List Nat) (id : Nat) : ∀ s : State,
    (forAll l evalEntry s).entry? id = if id ∈ l then (s.entry? id).map fun e =>
        if e.st = .waiting && s.condsHold e.d then
          { e with st := if e.d.claim then .claiming else .ready, stalled := false
                   order := if e.d.claim then ((forAll (l.takeWhile (· ≠ id)) evalEntry s).sch.claimNo) else e.order }
        else e
      else s.entry? id := by
  unfold forAll
  induction l with
  | nil => intro s; simp
  | cons a l ih =>
    intro s
    have hc : ∀ d, (evalEntry a s).condsHold d = s.condsHold d :=
      condsHold_of_moves (evalEntry_moves a s) ((evalEntry_k a s).only .regs (by decide))
    rw [List.foldl_cons, ih]
    simp only [hc]
    by_cases ha : a = id
    · subst ha
      rw [evalEntry_entry]
      simp only [List.mem_cons, true_or, if_true, ne_eq, not_true_eq_false, decide_false, Bool.false_eq_true,
        not_false_eq_true, List.takeWhile_cons_of_neg, List.foldl_nil]
      cases s.entry? a with
      | none => simp
      | some e =>
        simp only [Option.map_some]
        by_cases hw : e.st = .waiting ∧ s.condsHold e.d = true
        · cases e.d.claim <;> simp [hw]
        · have : (decide (e.st = .waiting) && s.condsHold e.d) = false := by
            simpa using fun h => by simpa [h] using hw
          simp [this]
    · have hne : id ≠ a := fun h => ha h.symm
      rw [evalEntry_entry_ne hne]
      have ht : (a :: l).takeWhile (· ≠ id) = a :: l.takeWhile (· ≠ id) := List.takeWhile_cons_of_pos (by simpa using ha)
      simp only [List.mem_cons, hne, false_or, ht, List.foldl_cons]

/-! ## A descriptor that becomes an entry -/

/-- The scoreboard after a descriptor has become an entry: what it held, and the new entry behind it. -/
theorem enterDesc_ents (src : Src) (d : Desc) (s : State) :
    ((enterDesc src d s).sch.ops.map fun e => (e.id, e.src, e.d)) =
      (s.sch.ops.map fun e => (e.id, e.src, e.d)) ++ [(s.sch.nextId, src, d)] ∧
    (enterDesc src d s).sch.nextId = s.sch.nextId + 1 ∧ (enterDesc src d s).sch.cnt = s.sch.cnt ∧
    (enterDesc src d s).sch.lastSeq = SMap.put (srcKey src d.job.val) d.seq s.sch.lastSeq := by
  have key : ∀ (t s1 : State) (st : OpSt), SchMoves s1 t →
      s1 = (s.updSch fun x =>
        { x with
          ops := x.ops ++ [{ id := s.sch.nextId, src := src, d := d, st := st }]
          nextId := s.sch.nextId + 1, peak := max x.peak (x.ops.length + 1)
          lastSeq := SMap.put (srcKey src d.job.val) d.seq x.lastSeq }) →
      (t.sch.ops.map fun e => (e.id, e.src, e.d)) =
        (s.sch.ops.map fun e => (e.id, e.src, e.d)) ++ [(s.sch.nextId, src, d)] ∧
      t.sch.nextId = s.sch.nextId + 1 ∧ t.sch.cnt = s.sch.cnt ∧
      t.sch.lastSeq = SMap.put (srcKey src d.job.val) d.seq s.sch.lastSeq := by
    rintro t s1 st h rfl
    refine ⟨?_, ?_, ?_, ?_⟩
    · rw [h.ents, State.updSch_sch]; simp
    · rw [h.nextId, State.updSch_sch]
    · rw [h.cnt, State.updSch_sch]
    · rw [h.lastSeq, State.updSch_sch]
  unfold enterDesc
  dsimp only
  split
  · exact key _ _ _ (evalEntry_moves _ _) rfl
  · split
    · exact key _ _ _ (toWaiting_moves _ _) rfl
    · split
      · exact key _ _ _ (toWaiting_moves _ _) rfl
      · exact key _ _ _ (.refl _) rfl

/-! ## Ends of operations: which entries are there afterwards -/

/-- Every entry of `t` was an entry of `s`, or is newer than all numbers that `s` has given. -/
structure IdsFrom (s t : State) : Prop where
  next : s.sch.nextId ≤ t.sch.nextId
  ids : ∀ y ∈ t.sch.ops, (∃ x ∈ s.sch.ops, x.id = y.id) ∨ s.sch.nextId ≤ y.id

theorem IdsFrom.refl (s : State) : IdsFrom s s := ⟨Nat.le_refl _, fun y hy => .inl ⟨y, hy, rfl⟩⟩

theorem IdsFrom.trans {s t u : State} (h : IdsFrom s t) (h' : IdsFrom t u) : IdsFrom s u := by
  refine ⟨Nat.le_trans h.next h'.next, fun y hy => ?_⟩
  rcases h'.ids y hy with ⟨x, hx, he⟩ | hn
  · rcases h.ids x hx with ⟨z, hz, hz'⟩ | hn
    · exact .inl ⟨z, hz, hz'.trans he⟩
    · exact .inr (he ▸ hn)
  · exact .inr (Nat.le_trans h.next hn)

theorem IdsFrom.of_sch {s t : State} (h : t.sch = s.sch) : IdsFrom s t := by
  refine ⟨h ▸ Nat.le_refl _, fun y hy => .inl ⟨y, by rw [← h]; exact hy, rfl⟩⟩

/-- Operations that leave the scheduler alone. -/
theorem KeepsIn.ids {m : List Part} {s t : State} (h : KeepsIn m s t) (hm : Part.sch ∉ m) : IdsFrom s t :=
  .of_sch (h.only .sch hm)

theorem IdsFrom.of_moves {s t : State} (h : SchMoves s t) : IdsFrom s t := by
  refine ⟨Nat.le_of_eq h.nextId.symm, fun y hy => .inl ?_⟩
  have hm : (y.id, y.src, y.d) ∈ s.sch.ops.map fun e => (e.id, e.src, e.d) := by
    rw [← h.ents]; exact List.mem_map.2 ⟨y, hy, rfl⟩
  obtain ⟨x, hx, he⟩ := List.mem_map.1 hm
  exact ⟨x, hx, (Prod.mk.inj he).1⟩

/-- A change of entries in place, by a function that keeps their numbers. -/
theorem IdsFrom.of_map {s : State} {f : Sch → Sch} (g : Entry → Entry) (hg : ∀ e, (g e).id = e.id)
    (ho : (f s.sch).ops = s.sch.ops.map g) (hn : (f s.sch).nextId = s.sch.nextId) : IdsFrom s (s.updSch f) := by
  refine ⟨Nat.le_of_eq hn.symm, fun y hy => .inl ?_⟩
  rw [State.updSch_sch, ho] at hy
  obtain ⟨x, hx, he⟩ := List.mem_map.1 hy
  exact ⟨x, hx, by rw [← he, hg]⟩

theorem IdsFrom.of_filter {s : State} {f : Sch → Sch} (g : Entry → Bool)
    (ho : (f s.sch).ops = s.sch.ops.filter g) (hn : (f s.sch).nextId = s.sch.nextId) : IdsFrom s (s.updSch f) := by
  refine ⟨Nat.le_of_eq hn.symm, fun y hy => .inl ?_⟩
  rw [State.updSch_sch, ho] at hy
  exact ⟨y, (List.mem_filter.1 hy).1, rfl⟩

theorem IdsFrom.forAll {α : Type} {f : α → State → State} (hf : ∀ a s, IdsFrom s (f a s)) (l : List α) (s : State) :
    IdsFrom s (Machine.forAll l f s) := by
  unfold Machine.forAll
  induction l generalizing s with
  | nil => exact .refl s
  | cons a l ih => exact (hf a s).trans (ih _)

theorem signal_ids (i n : Nat) (s : State) : IdsFrom s (signal i n s) := by
  have h : ∀ v, IdsFrom s (setCtr i v s) := fun v => ⟨Nat.le_refl _, fun y hy => .inl ⟨y, hy, rfl⟩⟩
  unfold signal
  dsimp only
  split
  · exact ((h _).trans ((captureEv_k ..).ids (by decide))).trans ((event_k ..).ids (by decide))
  · exact h _

theorem evalJob_ids (j : Nat) (s : State) : IdsFrom s (evalJob j s) := .of_moves (evalJob_moves j s)

theorem txSettle_ids (k : Nat) (s : State) : IdsFrom s (txSettle k s) := by
  unfold txSettle
  split
  · exact .refl s
  · extract_lets idle t1 up t2 s1
    have hs : s1.sch = s.sch := ite_both (P := fun u : State => u.sch = s.sch) rfl rfl
    exact ite_both (P := IdsFrom s) (((IdsFrom.of_sch hs).trans (signal_ids ..)).trans (evalJob_ids ..)) (.of_sch hs)

theorem faultOp_ids (id a b : Nat) (s : State) : IdsFrom s (faultOp id a b s) := by
  unfold faultOp
  refine .of_map (fun e => match e.work with
    | .faulted _ _ => e
    | _ => if e.id = id && e.st = .active then { e with work := .faulted a b } else e) (fun e => ?_) rfl rfl
  cases e.work <;> simp only [] <;> first | rfl | (split <;> rfl)

theorem strmEnd_ids (e : Entry) (bad : Bool) (s : State) : IdsFrom s (strmEnd e bad s) := by
  unfold strmEnd
  extract_lets k
  split
  · exact .refl s
  · extract_lets x1 partner s1 x2
    refine ite_both (P := IdsFrom s) (.refl s) ?_
    have h : IdsFrom s s1 := by
      refine ite_both (P := IdsFrom s) ?_ (.refl s)
      cases partner
      · exact .refl s
      · exact faultOp_ids ..
    exact ite_both (P := IdsFrom s) (h.trans (.of_sch rfl)) (h.trans (.of_sch rfl))

theorem strmLost_ids (d : Desc) (s : State) : IdsFrom s (strmLost d s) := by
  unfold strmLost
  cases d.strm with
  | none => exact .refl s
  | some k =>
    dsimp only
    refine ite_both (P := IdsFrom s) (.of_sch rfl) ?_
    cases SMap.find s.sheet.streams k with
    | none => exact .of_sch rfl
    | some x =>
      dsimp only
      refine ite_both (P := IdsFrom s) (.of_sch rfl) (ite_both (P := IdsFrom s) (.of_sch rfl) ?_)
      generalize (if d.opcode = 6 then x.add else x.expand) = q
      cases q with
      | none => exact ite_both (P := IdsFrom s) (.of_sch rfl) (.of_sch rfl)
      | some q =>
        have h := faultOp_ids q 0x1B 0 s
        exact ite_both (P := IdsFrom s) (h.trans (.of_sch rfl)) (h.trans (.of_sch rfl))

theorem readsGone_ids (d : Desc) (s : State) : IdsFrom s (readsGone d s) := by
  unfold readsGone
  exact ite_both (P := IdsFrom s) (.refl s) (.forAll txSettle_ids _ s)

theorem waveCancel_ids (d : Desc) (s : State) : IdsFrom s (waveCancel d s) := (waveCancel_k d s).ids (by decide)

theorem waveEnd_sch (e : Entry) (done : Bool) (s : State) : (waveEnd e done s).sch = s.sch :=
  (waveEnd_k e done s).only .sch (by decide)

theorem refetchSettle_ids (s : State) : IdsFrom s (refetchSettle s) := by
  unfold refetchSettle
  refine .of_map (fun e => if (decide (e.st = .active) && decide (e.d.opcode = 6) && e.d.refetch && decide (e.work = .running) &&
            !(s.sheet.damaged.any fun g => g.asked.contains e.id)) = true then { e with work := .finished } else e) (fun e => ?_) rfl rfl
  split <;> rfl

theorem readsDone_ids (e : Entry) (s : State) : IdsFrom s (readsDone e s) := by
  unfold readsDone
  split
  · exact .refl s
  · split
    · exact ite_both (P := IdsFrom s) (.refl s) (((putTx_k _ _ s).ids (by decide)).trans (txSettle_ids ..))
    · exact .refl s

/-- Where the ended operation is neither an EXPAND or ADD nor a COPY, the unit leaves the scheduler alone. -/
theorem unitEnd_other (e : Entry) (f c : Bool) (s : State) (h6 : e.d.opcode ≠ 6) (h7 : e.d.opcode ≠ 7) (h10 : e.d.opcode ≠ 10) :
    KeepsIn [.eng, .sheet, .ring, .fab, .line, .host, .pages] s (unitEnd e f c s) := by
  unfold unitEnd
  dsimp only
  split <;> first
    | exact absurd (by assumption) h6 | exact absurd (by assumption) h7 | exact absurd (by assumption) h10 | skip
  all_goals repeat' first
    | exact rfl
    | with_unfolding_none first
        | apply KeepsIn.refl | assumption | intro _ | apply KeepsIn.ite | apply KeepsIn.after (State.updEng_k ..)
        | apply KeepsIn.after (qbFree_k ..) | apply KeepsIn.after (State.updSheet_k ..) | apply KeepsIn.after (putTx_k ..)
        | apply KeepsIn.after (rxSettle_k ..) | apply KeepsIn.after (putRx_k ..) | apply KeepsIn.after (cbFree_k ..)
        | apply KeepsIn.after (freezeOp_k ..)
    | dsimp only | split

theorem unitEnd_ids (e : Entry) (f c : Bool) (s : State) : IdsFrom s (unitEnd e f c s) := by
  by_cases h6 : e.d.opcode = 6
  · unfold unitEnd
    extract_lets d
    split <;> first | (rename_i h; exact absurd (h.symm.trans h6) (by decide)) | skip
    · have h1 : IdsFrom s (readsDone e s) := readsDone_ids e s
      have h2 := h1.trans (((State.updSheet_k (fun x => { x with damaged := x.damaged.filter fun g => g.target ≠ e.id })
        (readsDone e s)).ids (by decide)).trans (refetchSettle_ids _))
      exact ite_both (P := IdsFrom s) h2 (h2.trans (strmEnd_ids ..))
    · exact .refl s
  · by_cases h7 : e.d.opcode = 7
    · unfold unitEnd
      extract_lets d
      split <;> first | (rename_i h; exact absurd (h.symm.trans h7) (by decide)) | exact strmEnd_ids .. | exact .refl s
    · by_cases h10 : e.d.opcode = 10
      · unfold unitEnd
        extract_lets d
        split <;> first
          | (rename_i h; exact absurd (h.symm.trans h10) (by decide))
          | exact ((freezeOp_k e.id s).ids (by decide)).trans (readsDone_ids ..) | exact .refl s
      · exact (unitEnd_other e f c s h6 h7 h10).ids (by decide)

theorem removeEntry_ids (id : Nat) (s : State) : IdsFrom s (removeEntry id s) := .of_filter _ rfl rfl

theorem dropEntry_ids (e : Entry) (s : State) : IdsFrom s (dropEntry e s) := by
  unfold dropEntry
  extract_lets s1 s2
  have h1 : IdsFrom s s1 :=
    (ite_both (P := IdsFrom s) (unitEnd_ids e false true s) (.refl s)).trans (removeEntry_ids e.id _)
  have h2 : IdsFrom s s2 :=
    (ite_both (P := IdsFrom s) (h1.trans (waveCancel_ids e.d s1)) h1).trans
      ((strmLost_ids e.d _).trans (readsGone_ids e.d _))
  exact (ite_both (P := IdsFrom s) (h2.trans ((opRec_k e 0x09 0 s2).ids (by decide))) h2).trans
    ((replayDrop_k e _).ids (by decide))

theorem mirInvalid_ids (j r : Nat) (s : State) : IdsFrom s (mirInvalid j r s) := by
  unfold mirInvalid
  dsimp only
  split
  · exact .refl s
  · refine IdsFrom.trans (IdsFrom.trans (IdsFrom.trans ?_ (IdsFrom.forAll dropEntry_ids _ _))
      ((raiseEv_k pgMGMT 0x824 5 _).ids (by decide))) ((State.emit_k _ _).ids (by decide))
    exact (State.updMgmt_k _ s).ids (by decide)

theorem replayEnd_ids (e : Entry) (bad : Bool) (s : State) : IdsFrom s (replayEnd e bad s) := by
  unfold replayEnd
  split
  · exact .refl s
  · have h := (replayDrop_k e s).ids (by decide)
    cases bad
    · exact h
    · exact h.trans (mirInvalid_ids ..)

theorem enterDesc_ids (src : Src) (d : Desc) (s : State) : IdsFrom s (enterDesc src d s) := by
  obtain ⟨h1, h2, -, -⟩ := enterDesc_ents src d s
  refine ⟨by omega, fun y hy => ?_⟩
  have hm : (y.id, y.src, y.d) ∈ (enterDesc src d s).sch.ops.map fun e => (e.id, e.src, e.d) := List.mem_map.2 ⟨y, hy, rfl⟩
  rw [h1, List.mem_append] at hm
  rcases hm with hm | hm
  · obtain ⟨x, hx, he⟩ := List.mem_map.1 hm
    exact .inl ⟨x, hx, (Prod.mk.inj he).1⟩
  · have := (Prod.mk.inj (List.mem_singleton.1 hm)).1
    exact .inr (by omega)

theorem updCore_ids (c : Nat) (f : CoreSt → CoreSt) (s : State) : IdsFrom s (updCore c f s) :=
  (updCore_k c f s).ids (by decide)

theorem acceptCore_ids {c : Nat} {d : Desc} {h : Bool} {s t : State} {n : Nat} (e : acceptCore c d h s = some (n, t)) :
    IdsFrom s t := by
  unfold acceptCore at e
  dsimp only at e
  split at e
  · cases e; exact (raiseEv_k pgSCH 0x810 1 s).ids (by decide)
  · split at e
    · cases e
    · cases e; exact (updCore_ids c _ s).trans (enterDesc_ids _ _ _)

theorem setWork_ids (id : Nat) (w : Work) (s : State) : IdsFrom s (setWork id w s) :=
  .of_map (fun e => if e.id = id then { e with work := w } else e) (fun e => by split <;> rfl) rfl rfl

theorem coreDone_ids (c : Nat) (s : State) : IdsFrom s (coreDone c s) := by
  unfold coreDone
  extract_lets x s1
  have h : IdsFrom s s1 := updCore_ids ..
  split
  · exact ite_both (P := IdsFrom s) (h.trans (setWork_ids ..)) h
  · exact h

theorem drainCore_ids (c : Nat) (ds : List Desc) (s : State) : IdsFrom s (drainCore c ds s) := by
  unfold drainCore
  dsimp only
  have h : ∀ (l : List Desc) (a : List Desc × State), IdsFrom s a.2 → IdsFrom s (l.foldl (fun a d => drainOne c d a) a).2 := by
    intro l
    induction l with
    | nil => exact fun a h => h
    | cons d l ih =>
      intro a ha
      refine ih _ ?_
      show IdsFrom s (drainOne c d a).2
      unfold drainOne
      split
      · exact ha
      · split
        · exact ha
        · rename_i he
          exact (ha.trans (acceptCore_ids he)).trans (updCore_ids ..)
  have h0 := h ds ([], s) (.refl s)
  split
  · exact h0.trans (coreDone_ids ..)
  · exact h0.trans (updCore_ids ..)

theorem retryCores_ids (s : State) : IdsFrom s (retryCores s) := by
  unfold retryCores
  refine IdsFrom.forAll (fun c t => ?_) _ _
  split
  · exact .refl t
  · exact drainCore_ids ..

/-- After an entry is taken out, none has its number. -/
theorem removeEntry_not (id : Nat) (s : State) : ∀ y ∈ (removeEntry id s).sch.ops, y.id ≠ id := by
  intro y hy
  simp only [removeEntry, State.updSch_sch] at hy
  simpa using (List.mem_filter.1 hy).2

/-- A number that no entry has, and that has been given, is not given again. -/
theorem IdsFrom.gone {s t : State} (h : IdsFrom s t) {id : Nat} (hn : id < s.sch.nextId) (hs : ∀ y ∈ s.sch.ops, y.id ≠ id) :
    t.entry? id = none := by
  unfold State.entry?
  rw [List.find?_eq_none]
  intro y hy
  simp only [decide_eq_true_eq]
  rcases h.ids y hy with ⟨x, hx, he⟩ | hl
  · exact fun e => hs x hx (he.trans e)
  · omega

theorem applySignals_ids (d : Desc) (s : State) : IdsFrom s (applySignals d s) := IdsFrom.forAll (fun _ _ => signal_ids ..) _ _

/-- An operation that ends is no longer in the scoreboard. -/
theorem endDone_gone (e : Entry) (s : State) (hn : e.id < s.sch.nextId) : (endDone e s).entry? e.id = none := by
  unfold endDone
  dsimp only
  have h1 : IdsFrom s (if e.cancelled = true then s else applySignals e.d s) := by
    split
    · exact .refl s
    · exact applySignals_ids ..
  have h2 := h1.trans (unitEnd_ids e false e.cancelled _)
  generalize unitEnd e false e.cancelled (if e.cancelled = true then s else applySignals e.d s) = t at h2
  have hr := removeEntry_ids e.id t
  have hk : ∀ u, IdsFrom (removeEntry e.id t) u → u.entry? e.id = none := fun u hu =>
    hu.gone (Nat.lt_of_lt_of_le hn (h2.trans hr).next) (removeEntry_not e.id t)
  apply hk
  refine ((IdsFrom.trans ?_ (retryCores_ids _))).trans (evalJob_ids ..)
  have h3 := (readsGone_ids e.d (removeEntry e.id t)).trans (replayEnd_ids e false _)
  have h4 := h3.trans (.of_sch (waveEnd_sch e true _))
  exact ite_both (P := IdsFrom _) (h4.trans ((opRec_k ..).ids (by decide))) h4

theorem endFaulted_gone (e : Entry) (st det : Nat) (s : State) (hn : e.id < s.sch.nextId) :
    (endFaulted e st det s).entry? e.id = none := by
  have hk : ∀ (f c : Bool) (u : State), IdsFrom (removeEntry e.id (unitEnd e f c s)) u → u.entry? e.id = none := by
    intro f c u hu
    exact hu.gone (Nat.lt_of_lt_of_le hn ((unitEnd_ids e f c s).trans (removeEntry_ids ..)).next) (removeEntry_not _ _)
  unfold endFaulted
  split
  · dsimp only
    apply hk true true
    have h3 := (readsGone_ids e.d (removeEntry e.id (unitEnd e true true s))).trans (replayEnd_ids e false _)
    have h4 := h3.trans (.of_sch (waveEnd_sch e false _))
    exact ((ite_both (P := IdsFrom _) (h4.trans ((opRec_k ..).ids (by decide))) h4).trans (retryCores_ids _)).trans
      (evalJob_ids ..)
  · dsimp only
    apply hk true false
    refine IdsFrom.trans ?_ (retryCores_ids _)
    have h3 := (readsGone_ids e.d (removeEntry e.id (unitEnd e true false s))).trans (replayEnd_ids e true _)
    have h6 := ((h3.trans (.of_sch (waveEnd_sch e false _))).trans ((raiseEv_k pgSCH 0x818 2 _).ids (by decide))).trans
      ((opRec_k e st (wd det) _).ids (by decide))
    split
    · exact h6
    · exact h6.trans ((pushExc_k ..).ids (by decide))

/-! ## A task's stores, and claims -/

theorem core_updCore (c i : Nat) (f : CoreSt → CoreSt) (s : State) :
    (updCore c f s).core i = if i = c then f (s.core c) else s.core i := SMap.get_modify _ _ _ f s.gc.cores

/-- Cores other than `c` are as they were. -/
def OtherCores (c : Nat) (s t : State) : Prop := ∀ i, i ≠ c → t.core i = s.core i

theorem OtherCores.refl (c : Nat) (s : State) : OtherCores c s s := fun _ _ => rfl

theorem OtherCores.trans {c : Nat} {s t u : State} (h : OtherCores c s t) (h' : OtherCores c t u) : OtherCores c s u :=
  fun i hi => (h' i hi).trans (h i hi)

theorem OtherCores.of_gc {c : Nat} {s t : State} (h : t.gc = s.gc) : OtherCores c s t :=
  fun i _ => by simp only [State.core, h]

theorem KeepsIn.cores {m : List Part} {s t : State} (h : KeepsIn m s t) (hm : Part.gc ∉ m) (c : Nat) : OtherCores c s t :=
  .of_gc (h.only .gc hm)

theorem updCore_other (c : Nat) (f : CoreSt → CoreSt) (s : State) : OtherCores c s (updCore c f s) :=
  fun i hi => by rw [core_updCore, if_neg hi]

theorem acceptCore_other {c : Nat} {d : Desc} {h : Bool} {s t : State} {n : Nat} (e : acceptCore c d h s = some (n, t)) :
    OtherCores c s t := by
  unfold acceptCore at e
  dsimp only at e
  split at e
  · cases e; exact (raiseEv_k pgSCH 0x810 1 s).cores (by decide) c
  · split at e
    · cases e
    · cases e; exact (updCore_other c _ s).trans ((enterDesc_k ..).cores (by decide) c)

theorem submitCore_other (c : Nat) (d : Desc) (h : Bool) (s : State) : OtherCores c s (submitCore c d h s) := by
  unfold submitCore
  refine ite_both (P := OtherCores c s) (updCore_other _ _ _) ?_
  cases e : acceptCore c d h s with
  | none => exact updCore_other _ _ _
  | some x => exact (acceptCore_other e).trans (updCore_other _ _ _)

theorem coreTrap_other (c id : Nat) (m : Word) (s : State) : OtherCores c s (coreTrap c id m s) := by
  unfold coreTrap
  dsimp only
  exact ((OtherCores.of_gc rfl : OtherCores c s s.draw.2).trans (updCore_other _ _ _)).trans
    (((raiseCap_k ..).cores (by decide) c).trans ((faultOp_k ..).cores (by decide) c))

theorem coreStoreByte_other (c : Nat) (r : CoreRegion) (b : Byte) (s : State) : OtherCores c s (coreStoreByte c r b s) := by
  cases r <;> unfold coreStoreByte <;> first
    | exact updCore_other _ _ _ | exact .of_gc rfl | exact (setAcc_k ..).cores (by decide) c
    | exact (hbmWrite_k ..).cores (by decide) c | exact fun _ _ => rfl

theorem OtherCores.forAll {c : Nat} {α : Type} {f : α → State → State} (hf : ∀ a s, OtherCores c s (f a s)) (l : List α) (s : State) :
    OtherCores c s (Machine.forAll l f s) := by
  unfold Machine.forAll
  induction l generalizing s with
  | nil => exact .refl c s
  | cons a l ih => exact (hf a s).trans (ih _)

theorem coreStore_other (c : Nat) (e : Entry) (a : Nat) (bs : List Byte) (s : State) : OtherCores c s (coreStore c e a bs s) := by
  unfold coreStore
  extract_lets j rs s1
  have h1 : OtherCores c s s1 := by
    simp only [s1]
    split
    · exact (hbmWrite_k ..).cores (by decide) c
    · exact .forAll (fun _ _ => coreStoreByte_other _ _ _ _) _ s
  exact ite_both (P := OtherCores c s) (coreTrap_other _ _ _ _)
    (ite_both (P := OtherCores c s) (h1.trans (submitCore_other _ _ _ _)) h1)

theorem coreLoadOp_other (c : Nat) (e : Entry) (a n : Nat) (s : State) : OtherCores c s (coreLoadOp c e a n s) := by
  have hf := updCore_other c (fun x => { x with task := none, builtin := false, waiting := false, subQ := [] }) s
  unfold coreLoadOp
  extract_lets j rs ctr s1
  refine ite_both (P := OtherCores c s) (coreTrap_other _ _ _ _) (ite_both (P := OtherCores c s) (updCore_other _ _ _) ?_)
  have h1 : OtherCores c s s1 := ite_both (P := OtherCores c s) (updCore_other _ _ _) (.refl c s)
  split
  · exact hf.trans ((poisonFault_k ..).cores (by decide) c)
  · exact ite_both (P := OtherCores c s)
      (hf.trans (((reportHbm_k ..).cores (by decide) c).trans ((faultOp_k ..).cores (by decide) c))) (.of_gc rfl)
  · exact h1.trans (.of_gc rfl)

/-- A task's acts touch no other core. -/
theorem taskActs_other (c : Nat) (l : List TaskAct) (s : State) : OtherCores c s (taskActs c l s) := by
  refine .forAll (fun x s => ?_) l s
  unfold taskAct
  cases s.coreGoes c with
  | none => exact .refl c s
  | some e =>
    cases x with
    | store a bs => exact coreStore_other _ _ _ _ _
    | load a n => exact coreLoadOp_other _ _ _ _ _
    | memCe =>
      exact ite_both (P := OtherCores c s) (.refl c s)
        (((bump_k ..).cores (by decide) c).trans ((addCe_k _).cores (by decide) c))
    | memUe r =>
      dsimp only
      generalize h : (if r = true then
        s.setReg (pgGC (c / 32)) 0x100 (setFld (s.reg (pgGC (c / 32)) 0x100) (c % 32) 1 0) else s) = s1
      have h1 : OtherCores c s s1 := by
        subst h
        exact ite_both (P := OtherCores c s) ((State.setReg_k ..).cores (by decide) c) (.refl c s)
      exact (h1.trans (updCore_other _ _ _)).trans (((raiseEv_k ..).cores (by decide) c).trans ((faultOp_k ..).cores (by decide) c))

/-- The claim that is served next is a CLAIMING one of the die. -/
theorem firstClaim_spec {s : State} {d : Nat} {e : Entry} (h : s.firstClaim d = some e) :
    e ∈ s.sch.ops ∧ e.st = .claiming ∧ e.d.unit = d := by
  have key : ∀ (l : List Entry) (a : Option Entry),
      l.foldl (fun a e => match a with | none => some e | some b => if e.order < b.order then some e else a) a = some e →
      e ∈ l ∨ a = some e := by
    intro l
    induction l with
    | nil => exact fun a h => .inr h
    | cons x l ih =>
      intro a h
      rcases ih _ h with h1 | h1
      · exact .inl (List.mem_cons_of_mem _ h1)
      · cases a with
        | none => simp only [Option.some.injEq] at h1; exact .inl (h1 ▸ List.mem_cons_self)
        | some b =>
          dsimp only at h1
          split at h1
          · simp only [Option.some.injEq] at h1; exact .inl (h1 ▸ List.mem_cons_self)
          · exact .inr h1
  rcases key _ _ h with h1 | h1
  · have := List.mem_filter.1 h1
    simp only [Bool.and_eq_true, decide_eq_true_eq] at this
    exact ⟨this.1, this.2⟩
  · cases h1

/-- Slots given in order to a claim: the i-th of the list holds the i-th record. -/
theorem find_zipIdx_put {V : Type} (f : Nat → Nat) (hf : ∀ a b, f a = f b → a = b) (g : Nat → Nat → V) (ns : List Nat) (hn : ns.Nodup)
    (n0 k : Nat) (m : SMap V) :
    SMap.find ((ns.zipIdx n0).foldl (fun m ni => SMap.put (f ni.1) (g ni.1 ni.2) m) m) k =
      match ns.findIdx? (fun n => f n = k) with
      | some i => some (g (ns.getD i 0) (n0 + i))
      | none => SMap.find m k := by
  induction ns generalizing n0 m with
  | nil => rfl
  | cons a l ih =>
    have hl := (List.nodup_cons.1 hn)
    rw [List.zipIdx_cons, List.foldl_cons, ih hl.2, List.findIdx?_cons]
    by_cases h : f a = k
    · have hnone : l.findIdx? (fun n => decide (f n = k)) = none := by
        rw [List.findIdx?_eq_none_iff]
        intro x hx
        simp only [decide_eq_false_iff_not]
        intro hk
        exact hl.1 (hf _ _ (h.trans hk.symm) ▸ hx)
      simp [h, hnone]
    · have hk : ¬ k = f a := fun e => h e.symm
      simp only [h, decide_false, Bool.false_eq_true, if_false, SMap.find_put, hk]
      cases hi : l.findIdx? (fun n => decide (f n = k)) with
      | none => simp
      | some i => simp; congr 1; omega

/-! ## The sync counters over the end of an operation (R42, R48) -/

theorem faultOp_cnt (id a b : Nat) (s : State) : (faultOp id a b s).sch.cnt = s.sch.cnt := rfl

theorem strmEnd_cnt (e : Entry) (bad : Bool) (s : State) : (strmEnd e bad s).sch.cnt = s.sch.cnt := by
  unfold strmEnd
  extract_lets k
  split
  · rfl
  · extract_lets x1 partner s1 x2
    refine ite_both (P := fun u : State => u.sch.cnt = s.sch.cnt) rfl ?_
    have h : s1.sch.cnt = s.sch.cnt := by
      refine ite_both (P := fun u : State => u.sch.cnt = s.sch.cnt) ?_ rfl
      cases partner <;> rfl
    exact ite_both (P := fun u : State => u.sch.cnt = s.sch.cnt) h h

/-- An operation that is neither an EXPAND nor a COPY leaves the counters alone when its unit lets it go. -/
theorem unitEnd_cnt (e : Entry) (f c : Bool) (s : State) (h6 : e.d.opcode ≠ 6) (h10 : e.d.opcode ≠ 10) :
    (unitEnd e f c s).sch.cnt = s.sch.cnt := by
  by_cases h7 : e.d.opcode = 7
  · unfold unitEnd
    extract_lets d
    split <;> first | (rename_i h; exact absurd (h.symm.trans h7) (by decide)) | exact strmEnd_cnt .. | rfl
  · rw [(unitEnd_other e f c s h6 h7 h10).only .sch (by decide)]

theorem acceptCore_cnt {c : Nat} {d : Desc} {h : Bool} {s t : State} {n : Nat} (e : acceptCore c d h s = some (n, t)) :
    t.sch.cnt = s.sch.cnt := by
  unfold acceptCore at e
  dsimp only at e
  split at e
  · cases e; rw [(raiseEv_k pgSCH 0x810 1 s).only .sch (by decide)]
  · split at e
    · cases e
    · cases e; rw [(enterDesc_ents _ _ _).2.2.1, (updCore_k c _ s).only .sch (by decide)]

theorem coreDone_cnt (c : Nat) (s : State) : (coreDone c s).sch.cnt = s.sch.cnt := by
  unfold coreDone
  extract_lets x s1
  split
  · exact ite_both (P := fun u : State => u.sch.cnt = s.sch.cnt) rfl rfl
  · rfl

theorem drainCore_cnt (c : Nat) (ds : List Desc) (s : State) : (drainCore c ds s).sch.cnt = s.sch.cnt := by
  unfold drainCore
  dsimp only
  have h : ∀ (l : List Desc) (a : List Desc × State), a.2.sch.cnt = s.sch.cnt →
      (l.foldl (fun a d => drainOne c d a) a).2.sch.cnt = s.sch.cnt := by
    intro l
    induction l with
    | nil => exact fun a h => h
    | cons d l ih =>
      intro a ha
      refine ih _ ?_
      show (drainOne c d a).2.sch.cnt = s.sch.cnt
      unfold drainOne
      split
      · exact ha
      · split
        · exact ha
        · rename_i he
          exact (acceptCore_cnt he).trans ha
  have h0 := h ds ([], s) rfl
  split
  · exact (coreDone_cnt ..).trans h0
  · exact h0

theorem retryCores_cnt (s : State) : (retryCores s).sch.cnt = s.sch.cnt := by
  unfold retryCores Machine.forAll
  generalize List.range 64 = l
  induction l generalizing s with
  | nil => rfl
  | cons c l ih =>
    rw [List.foldl_cons, ih]
    exact ite_both (P := fun u : State => u.sch.cnt = s.sch.cnt) rfl (drainCore_cnt ..)

/-- An operation that is neither an EXPAND nor a COPY reads no transmit copy. -/
theorem readsGone_none (d : Desc) (h6 : d.opcode ≠ 6) (h10 : d.opcode ≠ 10) (s : State) : readsGone d s = s := by
  unfold readsGone
  rw [if_pos (by simp [h6, h10])]

/-- OP_DONE: the counters after it are those after its signals, unless it read a copy whose gate then rises. -/
theorem endDone_cnt (e : Entry) (s : State) (hc : e.cancelled = false) (h6 : e.d.opcode ≠ 6) (h10 : e.d.opcode ≠ 10) :
    (endDone e s).sch.cnt = (applySignals e.d s).sch.cnt := by
  unfold endDone
  extract_lets s1 s2 s3 s4 s5
  have e1 : s1 = applySignals e.d s := by simp only [s1, hc]; rfl
  have e3 : s3.sch.cnt = s2.sch.cnt := by
    have : s3.sch = (removeEntry e.id s2).sch := by
      simp only [s3, replayEnd, readsGone_none e.d h6 h10]
      split
      · rfl
      · exact (replayDrop_k e _).only .sch (by decide)
    rw [this]; rfl
  have e4 : s4.sch = s3.sch := waveEnd_sch e true s3
  have e5 : s5.sch = s4.sch := ite_both (P := fun u : State => u.sch = s4.sch) rfl rfl
  rw [(evalJob_moves _ _).cnt, retryCores_cnt, e5, e4, e3, unitEnd_cnt _ _ _ _ h6 h10, e1]

/-- OP_FAULTED: no counter changes, unless it read a copy whose gate then rises, or was a mirror's replay. -/
theorem endFaulted_cnt (e : Entry) (st det : Nat) (s : State) (hc : e.cancelled = false) (h6 : e.d.opcode ≠ 6)
    (h10 : e.d.opcode ≠ 10) (hr : (s.mgmt.replays.all fun r => r.1 ≠ e.d.plain) = true) :
    (endFaulted e st det s).sch.cnt = s.sch.cnt := by
  unfold endFaulted
  rw [hc]
  simp only [Bool.false_eq_true, if_false, readsGone_none e.d h6 h10]
  have hm : (removeEntry e.id (unitEnd e true false s)).mgmt.replays = s.mgmt.replays := by
    have := (unitEnd_k e true false s).only .mgmt (by decide)
    show (unitEnd e true false s).mgmt.replays = _
    rw [this]
  have e1 : replayEnd e true (removeEntry e.id (unitEnd e true false s)) = removeEntry e.id (unitEnd e true false s) := by
    unfold replayEnd
    rw [hm]
    have : s.mgmt.replays.find? (fun x => decide (x.1 = e.d.plain)) = none := by
      rw [List.find?_eq_none]
      intro x hx
      simpa using List.all_eq_true.1 hr x hx
    rw [this]
  rw [e1, retryCores_cnt]
  have e2 : ∀ u : State, (opRec e st (wd det) (raiseEv pgSCH 0x818 2 u)).sch = u.sch := fun u =>
    ((opRec_k e st (wd det) _).only .sch (by decide)).trans ((raiseEv_k pgSCH 0x818 2 u).only .sch (by decide))
  have e3 : ∀ (d : Nat) (r : ExcRec) (u : State), (pushExc d r u).sch = u.sch := fun d r u => (pushExc_k d r u).only .sch (by decide)
  have e4 : (waveEnd e false (removeEntry e.id (unitEnd e true false s))).sch.cnt = s.sch.cnt := by
    rw [waveEnd_sch]; exact unitEnd_cnt _ _ _ _ h6 h10
  cases e.d.excDie with
  | none => rw [e2, e4]
  | some d => rw [e3, e2, e4]

/-! ## The step axis (R32) -/

theorem axisEval_mc (j : Nat) (s : State) : (axisEval j s).sch.mc = s.sch.mc := by
  unfold axisEval; dsimp only
  refine ite_both (P := fun t : State => t.sch.mc = s.sch.mc) rfl ?_
  rw [(stepTriggers_moves _ _).mc, State.updSch_sch]

theorem axisEval_mseq (j : Nat) (s : State) : (axisEval j s).sch.mseq = s.sch.mseq := by
  unfold axisEval; dsimp only
  refine ite_both (P := fun t : State => t.sch.mseq = s.sch.mseq) rfl ?_
  rw [(stepTriggers_moves _ _).mseq, State.updSch_sch]

theorem axisEval_regs (j : Nat) (s : State) : (axisEval j s).regs = s.regs :=
  (axisEval_k j s).only .regs (by decide)

theorem foldl_max_le (l : List Nat) : ∀ a, a ≤ l.foldl max a ∧ ∀ x ∈ l, x ≤ l.foldl max a := by
  induction l with
  | nil => intro a; simp
  | cons b l ih =>
    intro a
    have h := ih (max a b)
    simp only [List.foldl_cons, List.mem_cons, forall_eq_or_imp]
    refine ⟨by omega, by omega, h.2⟩

theorem foldl_max_mem (l : List Nat) : ∀ a, l.foldl max a = a ∨ l.foldl max a ∈ l := by
  induction l with
  | nil => intro a; simp
  | cons b l ih =>
    intro a
    simp only [List.foldl_cons, List.mem_cons]
    rcases ih (max a b) with h | h
    · rcases Nat.le_total a b with hab | hab
      · rw [Nat.max_eq_right hab] at h ⊢; exact .inr (.inl h)
      · rw [Nat.max_eq_left hab] at h ⊢; exact .inl h
    · exact .inr (.inr h)

/-- The greatest value that at least `q` of the values reach: none is greater, and it is zero or one of them that `q` reach. -/
theorem quorumMax_spec {q : Nat} (hq : 0 < q) (ms : List Nat) :
    (∀ x, q ≤ ms.countP (fun y => decide (x ≤ y)) → x ≤ quorumMax q ms) ∧
      (quorumMax q ms = 0 ∨ quorumMax q ms ∈ ms ∧ q ≤ ms.countP fun y => decide (quorumMax q ms ≤ y)) := by
  constructor
  · intro x hx
    have hpos : 0 < ms.countP fun y => decide (x ≤ y) := by omega
    -- the least of the values that reach x is itself reached by as many
    have hex : ∃ m ∈ ms, x ≤ m ∧ q ≤ ms.countP fun y => decide (m ≤ y) := by
      let f := ms.filter fun y => decide (x ≤ y)
      have hf : f ≠ [] := by
        intro h
        obtain ⟨y, hy, hxy⟩ := List.countP_pos_iff.1 hpos
        have hm : y ∈ f := List.mem_filter.2 ⟨hy, hxy⟩
        rw [h] at hm
        exact absurd hm List.not_mem_nil
      obtain ⟨m, hm, hmin⟩ : ∃ m ∈ f, ∀ y ∈ f, m ≤ y := by
        have : f.min? ≠ none := by simpa using hf
        obtain ⟨m, hm⟩ := Option.ne_none_iff_exists'.1 this
        exact ⟨m, (List.min?_eq_some_iff.1 hm).1, (List.min?_eq_some_iff.1 hm).2⟩
      have hm' := List.mem_filter.1 hm
      refine ⟨m, hm'.1, by simpa using hm'.2, Nat.le_trans hx ?_⟩
      apply List.countP_mono_left
      intro y hy hxy
      simp only [decide_eq_true_eq] at *
      exact hmin y (List.mem_filter.2 ⟨hy, by simpa using hxy⟩)
    obtain ⟨m, hm, hxm, hqm⟩ := hex
    refine Nat.le_trans hxm ((foldl_max_le _ 0).2 m ?_)
    exact List.mem_filter.2 ⟨hm, by simpa using hqm⟩
  · rcases foldl_max_mem (ms.filter fun x => decide (q ≤ ms.countP fun y => decide (x ≤ y))) 0 with h | h
    · exact .inl h
    · have := List.mem_filter.1 h
      exact .inr ⟨this.1, of_decide_eq_true this.2⟩

/-- The axis after an evaluation. -/
theorem axisEval_axis (j i : Nat) (s : State) :
    (axisEval j s).axis i =
      let cs := s.registeredAll j
      let q0 := s.regF pgSCH (0x210 + 0x40 * j) 0 10
      let q := if q0 = 0 then cs.length else q0
      let v := quorumMax q (cs.map fun c => (s.mc j c).toNat)
      if cs.isEmpty || q > cs.length || v ≤ (s.axis j).toNat then s.axis i else if i = j then BitVec.ofNat 64 v else s.axis i := by
  unfold axisEval
  dsimp only
  generalize (if s.regF pgSCH (0x210 + 0x40 * j) 0 10 = 0 then (s.registeredAll j).length
    else s.regF pgSCH (0x210 + 0x40 * j) 0 10) = q
  split
  · rfl
  · simp only [State.axis]
    rw [(stepTriggers_moves _ _).axis, State.updSch_sch]
    dsimp only
    rw [SMap.get_set]

/-- Where registers and marks are the same, so is what a quorum has reached. -/
theorem reached_congr {s t : State} (hr : t.regs = s.regs) (hm : t.sch.mc = s.sch.mc) (j x : Nat) :
    t.reached j x = s.reached j x := by
  have h1 : ∀ p o ix, t.reg p o ix = s.reg p o ix := fun p o ix => by simp only [State.reg, hr]
  have h2 : ∀ c, t.mc j c = s.mc j c := fun c => by simp only [State.mc, hm]
  have h3 : t.registeredAll j = s.registeredAll j := by simp only [State.registeredAll, State.registered, h1]
  simp only [State.reached, State.regF, h1, h2, h3]
  rfl

/-- R32: an evaluation moves the axis as the rule says. -/
theorem axisEval_moves (j : Nat) (s : State) : AxisMoves j s (axisEval j s) := by
  have hcong : ∀ x, (axisEval j s).reached j x = s.reached j x := reached_congr (axisEval_regs j s) (axisEval_mc j s) j
  simp only [AxisMoves, hcong]
  have ha := fun i => axisEval_axis j i s
  simp only [] at ha
  generalize hcs : s.registeredAll j = cs at ha
  generalize hq : (if s.regF pgSCH (0x210 + 0x40 * j) 0 10 = 0 then cs.length else s.regF pgSCH (0x210 + 0x40 * j) 0 10) = q at ha
  have hre : ∀ x, s.reached j x = (!cs.isEmpty && decide (q ≤ cs.length) &&
      decide (q ≤ (cs.map fun c => (s.mc j c).toNat).countP fun y => decide (x ≤ y))) := by
    intro x
    simp only [State.reached, hcs, hq, List.countP_map]
    rfl
  by_cases he : cs.isEmpty = true ∨ q > cs.length
  · have hc : (cs.isEmpty || decide (q > cs.length) ||
        decide (quorumMax q (cs.map fun c => (s.mc j c).toNat) ≤ (s.axis j).toNat)) = true := by
      rcases he with h | h <;> simp [h]
    simp only [hc, if_true] at ha
    refine ⟨Nat.le_of_eq (by rw [ha]), fun x hx => ?_, .inl (ha j), fun i _ => ha i⟩
    rw [hre] at hx
    simp only [Bool.and_eq_true, decide_eq_true_eq, Bool.not_eq_true'] at hx
    rcases he with h | h
    · simp [h] at hx
    · omega
  · have hne : cs.isEmpty = false := by simpa using fun h => he (.inl h)
    have hle : q ≤ cs.length := Nat.le_of_not_lt fun h => he (.inr h)
    have hpos : 0 < q := by
      have : 0 < cs.length := by
        cases cs with
        | nil => simp at hne
        | cons a l => simp
      rw [← hq]; split <;> omega
    obtain ⟨h1, h2⟩ := quorumMax_spec hpos (cs.map fun c => (s.mc j c).toNat)
    generalize hv : quorumMax q (cs.map fun c => (s.mc j c).toNat) = v at ha h1 h2
    have hlt : v < 2 ^ 64 := by
      rcases h2 with h | h
      · omega
      · obtain ⟨c, -, hc⟩ := List.mem_map.1 h.1
        rw [← hc]; exact (s.mc j c).isLt
    by_cases hva : v ≤ (s.axis j).toNat
    · have hc : (cs.isEmpty || decide (q > cs.length) || decide (v ≤ (s.axis j).toNat)) = true := by simp [hva]
      simp only [hc, if_true] at ha
      refine ⟨Nat.le_of_eq (by rw [ha]), fun x hx => ?_, .inl (ha j), fun i _ => ha i⟩
      rw [hre] at hx
      simp only [Bool.and_eq_true, decide_eq_true_eq] at hx
      rw [ha]
      exact Nat.le_trans (h1 x hx.2) hva
    · have hc : (cs.isEmpty || decide (q > cs.length) || decide (v ≤ (s.axis j).toNat)) = false := by
        simp only [hne, Bool.false_or, Bool.or_eq_false_iff, decide_eq_false_iff_not]; omega
      simp only [hc, Bool.false_eq_true, if_false] at ha
      have haj := ha j
      rw [if_pos rfl] at haj
      have hn : ((axisEval j s).axis j).toNat = v := by
        rw [haj, BitVec.toNat_ofNat, Nat.mod_eq_of_lt hlt]
      rw [hn]
      refine ⟨by omega, fun x hx => ?_, .inr ?_, fun i hi => by rw [ha i, if_neg hi]⟩
      · rw [hre] at hx
        simp only [Bool.and_eq_true, decide_eq_true_eq] at hx
        exact h1 x hx.2
      · rw [hre]
        rcases h2 with h | h
        · omega
        · simp [hne, hle]
          simpa using h.2

end Sys2Proof.Machine
end

