-- ==== Sys2Proof/Laws/Units.lean ====
section
/-! SUPPORT. A unit takes an operation: which entry it is, what issuing it does, and how its entry shows the unit's end. -/
namespace Sys2Proof.Machine

open Sys2Proof

theorem notin_sub {l l' : List Part} {q : Part} (h : q ∉ l') (hs : ∀ x ∈ l, x ∈ l') : q ∉ l := fun h1 => h (hs _ h1)

/-- Two steps in a row change what either changes. -/
theorem OnlyIn.trans {l l' m : List Part} {s t u : State} (h : OnlyIn l s t) (h' : OnlyIn l' t u) (hl : ∀ x ∈ l, x ∈ m)
    (hl' : ∀ x ∈ l', x ∈ m) : OnlyIn m s u := fun q hq =>
  Part.same_trans q (h q (notin_sub hq hl)) (h' q (notin_sub hq hl'))

theorem OnlyIn.mono {l m : List Part} {s t : State} (h : OnlyIn l s t) (hl : ∀ x ∈ l, x ∈ m) : OnlyIn m s t :=
  fun q hq => h q (notin_sub hq hl)

theorem OnlyIn.refl (l : List Part) (s : State) : OnlyIn l s s := fun q _ => by cases q <;> first | rfl | exact ⟨rfl, rfl⟩

theorem rrPick_mem {last : Nat} {es : List Entry} {e : Entry} (h : rrPick last es = some e) : e ∈ es := by
  unfold rrPick at h
  obtain ⟨k, _, hk⟩ := List.exists_of_findSome?_eq_some h
  exact List.mem_of_find?_eq_some hk

/-- A unit that picks an entry has a clock. -/
theorem pick_clocked {s : State} {c u : Nat} {p : Entry → Bool} {e : Entry} (h : s.pick c u p = some e) :
    s.unclocked (unitPage c u) = false := by
  unfold State.pick at h
  split at h
  · cases h
  · exact Bool.not_eq_true _ ▸ ‹¬ s.unclocked (unitPage c u) = true›

/-- The entry that a unit picks is READY, in the scoreboard, and one of the unit's. -/
theorem pick_spec {s : State} {c u : Nat} {p : Entry → Bool} {e : Entry} (h : s.pick c u p = some e) :
    e ∈ s.sch.ops ∧ e.st = .ready ∧ p e = true := by
  have hc := pick_clocked h
  unfold State.pick at h
  rw [hc] at h
  have := rrPick_mem h
  simp only [State.readyOf, List.mem_filter, Bool.and_eq_true, decide_eq_true_eq] at this
  exact ⟨this.1, this.2.1, this.2.2⟩

theorem entry_isSome {s : State} {e : Entry} (h : e ∈ s.sch.ops) : (s.entry? e.id).isSome = true := by
  unfold State.entry?
  rw [List.find?_isSome]
  exact ⟨e, h, by simp⟩

theorem issue_entry (c u : Nat) (e : Entry) (i : Nat) (s : State) :
    (issue c u e s).entry? i = if i = e.id then (s.entry? i).map fun x => { x with st := .active, stalled := false }
      else s.entry? i := by
  have h := enter_entry e.id i .active s
  simp only [show ¬ (OpSt.active = OpSt.claiming) by decide, if_false] at h
  rw [← h]; rfl

theorem entry_of_sch {s t : State} (h : t.sch = s.sch) (i : Nat) : t.entry? i = s.entry? i := by
  simp only [State.entry?, h]

theorem setWork_entry (id : Nat) (w : Work) (i : Nat) (s : State) :
    (setWork id w s).entry? i = if i = id then (s.entry? i).map fun x => { x with work := w } else s.entry? i := by
  have h := updEntry_entry id i (fun e => { e with work := w }) (fun _ => rfl) s
  rw [← h]; rfl

theorem setWork_stOf (id : Nat) (w : Work) (i : Nat) (s : State) : (setWork id w s).stOf i = s.stOf i := by
  unfold State.stOf; rw [setWork_entry]; split <;> simp [Option.map_map, Function.comp_def]

theorem stOf_of_sch {s t : State} (h : t.sch = s.sch) (i : Nat) : t.stOf i = s.stOf i := by
  unfold State.stOf; rw [entry_of_sch h]

theorem collectEval_stOf (j h i : Nat) (s : State) : (collectEval j h s).stOf i = s.stOf i := by
  unfold collectEval
  split
  · split
    · rename_i w e _ _ _
      dsimp only
      have hs : ∀ f, (updStats j w.ream f (setWork e.id .finished (putWave j h { w with wcount := popc w.cset } s))).stOf i = s.stOf i := by
        intro f
        rw [stOf_of_sch ((updStats_k ..).only .sch (by decide)), setWork_stOf, stOf_of_sch ((putWave_k ..).only .sch (by decide))]
      split
      · rw [stOf_of_sch ((raiseEv_k ..).only .sch (by decide)), hs]
      · rw [hs]
    · rfl
  · rfl

theorem issue_stOf {c u : Nat} {e : Entry} {s : State} (h : e ∈ s.sch.ops) : (issue c u e s).stOf e.id = some .active := by
  unfold State.stOf
  rw [issue_entry, if_pos rfl]
  have := entry_isSome h
  cases hh : s.entry? e.id with
  | none => rw [hh] at this; exact absurd this (by decide)
  | some x => rfl

/-- A unit's end shows in its entry, which is ACTIVE; no other entry moves. -/
theorem served_setWork {id : Nat} {w : Work} {s t : State} (hst : t.stOf id = some .active)
    (ho : ∀ i, i ≠ id → t.entry? i = s.entry? i) : Served id w s (setWork id w t) := by
  refine ⟨by rw [setWork_stOf]; exact hst, ?_, fun i hi => ?_⟩
  · unfold State.workOf; rw [setWork_entry, if_pos rfl]
    unfold State.stOf at hst
    cases hh : t.entry? id with
    | none => rw [hh] at hst; exact absurd hst (by simp)
    | some x => rfl
  · rw [setWork_entry, if_neg hi, ho i hi]

/-- The same, where what runs between issue and end leaves the scoreboard alone. -/
theorem served_issue {c u : Nat} {e : Entry} {w : Work} {s t : State} (h : e ∈ s.sch.ops) (ht : t.sch = (issue c u e s).sch) :
    Served e.id w s (setWork e.id w t) :=
  served_setWork (by rw [stOf_of_sch ht]; exact issue_stOf h) fun i hi => by
    rw [entry_of_sch ht, issue_entry, if_neg hi]

theorem updEntry_stOf {id : Nat} {f : Entry → Entry} (hf : ∀ e, (f e).id = e.id ∧ (f e).st = e.st) (i : Nat) (s : State) :
    (updEntry id f s).stOf i = s.stOf i := by
  unfold State.stOf
  rw [updEntry_entry id i f (fun e => (hf e).1)]
  split
  · rw [Option.map_map]; congr 1; funext e; exact (hf e).2
  · rfl

end Sys2Proof.Machine
end

