-- ==== Sys2Proof/Laws/Cores.lean ====
section
/-! SUPPORT. General cores: what taking a task, freeing a core and finishing a built-in task do, and how a fault shows. -/
namespace Sys2Proof.Machine

open Sys2Proof

theorem faulted_same (id a b : Nat) (e : Entry) : (faulted id a b e).id = e.id ∧ (faulted id a b e).st = e.st := by
  unfold faulted
  split
  · exact ⟨rfl, rfl⟩
  · split <;> exact ⟨rfl, rfl⟩

theorem faultOp_entry (id a b i : Nat) (s : State) :
    (faultOp id a b s).entry? i = if i = id then (s.entry? i).map (faulted id a b) else s.entry? i := by
  simp only [faultOp, State.entry?, State.updSch]
  induction s.sch.ops with
  | nil => simp
  | cons e l ih =>
    simp only [List.map_cons, List.find?_cons, (faulted_same id a b e).1]
    by_cases h : e.id = i
    · simp only [h, decide_true, Option.map_some]
      split
      · rfl
      · rename_i hne
        unfold faulted
        split
        · rfl
        · rw [if_neg]; simp [h, hne]
    · simp only [h, decide_false]
      exact ih

theorem faultOp_work {id a b : Nat} {s : State} {e : Entry} (h : s.entry? id = some e) (hc : e.canFault) (he : e.id = id) :
    (faultOp id a b s).workOf id = some (.faulted a b) := by
  unfold State.workOf
  rw [faultOp_entry, if_pos rfl, h]
  obtain ⟨h1, h2⟩ := hc
  simp only [Option.map_some, Option.some.injEq]
  unfold faulted
  split
  · rename_i x y hw; exact absurd hw (h2 x y)
  · simp [h1, he]

theorem faultOp_other {id a b i : Nat} {s : State} (h : i ≠ id) : (faultOp id a b s).entry? i = s.entry? i := by
  rw [faultOp_entry, if_neg h]

theorem faultOp_st (id a b i : Nat) (s : State) : (faultOp id a b s).stOf i = s.stOf i := by
  unfold State.stOf
  rw [faultOp_entry]
  split
  · cases s.entry? i with
    | none => rfl
    | some e => simp only [Option.map_some, (faulted_same id a b e).2]
  · rfl

/-- A core's built-in task finishes. -/
theorem builtinDone_eq (c : Nat) (e : Entry) (s : State) : ∃ u, builtinDone c e s = setWork e.id .finished u ∧ u.sch = s.sch ∧
    (u.core c).task = none ∧ u.vat = s.vat ∧ u.mem = s.mem ∧ u.regs = s.regs ∧ u.outer = s.outer := by
  unfold builtinDone coreDone coreTake
  simp only [core_updCore, if_true]
  exact ⟨_, rfl, rfl, by simp only [core_updCore, if_true], rfl, rfl, rfl, rfl⟩

theorem takeTask_run {c : Nat} {e : Entry} {s : State} (h : TaskTakes c e s) {serves : Entry → Bool} (hs : serves e = true)
    (run : Entry → State → State) : takeTask c serves run s = run e (issue 5 (c / 8) e s) := by
  unfold takeTask
  dsimp only
  rw [h.next]
  dsimp only
  rw [if_neg (by simp [hs]), if_neg (by simp [h.svc]), if_neg (by simp only [h.idle, h.exc]; decide)]

theorem taskTakes_mem {c : Nat} {e : Entry} {s : State} (h : TaskTakes c e s) : e ∈ s.sch.ops := (pick_spec h.next).1

end Sys2Proof.Machine
end

