-- ==== Sys2Proof/Laws/Engines.lean ====
section
/-! SUPPORT. The engine complex takes an operation; what its shared steps do to one block depends on that block alone. -/
namespace Sys2Proof.Machine

open Sys2Proof

/-- The state in which an engine operation runs: its entry ACTIVE, with the descriptor read. -/
def engIssued (d : Nat) (e : Entry) (ws : List Word) (s : State) : State :=
  updEntry e.id (fun x => { x with edesc := ws }) (issue 1 d e s)

theorem engIssued_k (d : Nat) (e : Entry) (ws : List Word) (s : State) : KeepsIn [.sch] s (engIssued d e ws s) :=
  ((issue_k ..).mono (by decide)).step (updEntry_k ..) (by decide)

theorem engTakes_mem {d : Nat} {e : Entry} {ws : List Word} {s : State} (h : EngTakes d e ws s) :
    e ∈ s.sch.ops ∧ e.d.unit = d := by
  have hn := h.next
  unfold State.engNext at hn
  split at hn
  · exact absurd hn (by simp)
  · cases hp : s.pick 1 d (s.engReady d) with
    | none => rw [hp] at hn; exact absurd hn (by simp)
    | some x =>
      rw [hp] at hn
      simp only [Option.map_some, Option.some.injEq, Prod.mk.injEq] at hn
      obtain ⟨rfl, -⟩ := hn
      have := pick_spec hp
      refine ⟨this.1, ?_⟩
      have h3 := this.2.2
      simp only [State.engReady, isEngOp, Bool.and_eq_true, decide_eq_true_eq] at h3
      exact h3.1.1

theorem engIssue_run {d : Nat} {e : Entry} {ws : List Word} {s : State} (h : EngTakes d e ws s) {serves : Nat → Nat → Bool}
    (hs : serves e.d.opcode (edKind ws) = true) (run : Entry → List Word → State → State) :
    engIssue d serves run s = run { e with edesc := ws } ws (engIssued d e ws s) := by
  have hf := h.form
  have hp := h.place
  unfold engIssue
  rw [h.next]
  simp only [hs]
  show (if (!true) = true then s else if s.regF (pgENG d) 0x100 0 8 = 0 then _ else if (!edFormOk e.d.opcode ws || !s.edPlaceOk e.d ws) = true then _ else run { e with edesc := ws } ws (engIssued d e ws s)) = _
  rw [if_neg (by decide), if_neg h.svc, if_neg (by simp [hf, hp])]

theorem engIssued_served {d : Nat} {e : Entry} {ws : List Word} {s t : State} {w : Work} (h : EngTakes d e ws s)
    (ht : t.sch = (engIssued d e ws s).sch) : Served e.id w s (setWork e.id w t) := by
  refine served_setWork ?_ fun i hi => ?_
  · rw [stOf_of_sch ht]
    unfold engIssued
    rw [updEntry_stOf (f := fun x => { x with edesc := ws }) (fun _ => ⟨rfl, rfl⟩)]
    exact issue_stOf (engTakes_mem h).1
  · rw [entry_of_sch ht]
    unfold engIssued
    rw [updEntry_entry e.id i (fun x => { x with edesc := ws }) (fun _ => rfl), if_neg hi, issue_entry, if_neg hi]

end Sys2Proof.Machine
end

