-- ==== Sys2Proof/Laws/Frames.lean ====
section
/-! SUPPORT. The parts that a write of a register or of a page header may change, by the kind of its page. -/
namespace Sys2Proof.Machine

open Sys2Proof

theorem subParts_mem {l m : List Part} (h : subParts l m = true) : ∀ x ∈ l, x ∈ m := by
  intro x hx
  have := List.all_eq_true.mp h x hx
  simpa using this

theorem EffK.wider {l m : List Part} {s : State} {e : Eff} (h : EffK l s e) (hs : subParts l m = true) : EffK m s e :=
  ⟨fun t ht => (h.on t ht).mono hs⟩

/-- A page's effect changes what its kind may. -/
theorem pageEffect_parts (w : Who) (p o ix : Nat) (v : DWord) (s : State) :
    EffK (regParts (pgKind p)) s (pageEffect w p o ix v s) := by
  unfold pageEffect
  generalize hk : pgKind p = k
  cases k
  case sch => exact (schEffect_k ..).wider rfl
  case ring => exact (ringEffect_k ..).wider rfl
  case outer => exact (outerEffect_k ..).wider rfl
  case sw => exact (swEffect_k ..).wider rfl
  case opt => exact (optEffect_k ..).wider rfl
  case mem => exact (memEffect_k ..).wider rfl
  case pool => exact (poolEffect_k ..).wider rfl
  case host => exact ⟨fun t ht => by cases ht; exact (store_k ..).mono rfl⟩
  case fab => exact (fabEffect_k ..).wider rfl
  case vat =>
    dsimp only
    split
    · refine ⟨fun t ht => ?_⟩
      cases hv : vatEffect p o ix v s with
      | error c => rw [hv] at ht; cases ht
      | ok u =>
        rw [hv] at ht; cases ht
        exact (((vatEffect_k ..).on u hv).mono rfl).trans ((scatterDrop_k ..).mono rfl)
    · exact (vatEffect_k ..).wider rfl
  case eng => exact (engEffect_k ..).wider rfl
  case gc => exact (gcEffect_k ..).wider rfl
  case sheet => exact (sheetEffect_k ..).wider rfl
  case line => exact (lineEffect_k ..).wider rfl
  case ciph => exact (ciphEffect_k ..).wider rfl
  case time => exact (timeEffect_k ..).wider rfl
  case clk => exact (clkEffect_k ..).wider rfl
  case pwr => exact ⟨fun t ht => by cases ht; exact KeepsIn.refl _⟩
  case boot => exact (bootEffect_k ..).wider rfl
  case mgmt => exact (mgmtEffect_k ..).wider rfl
  case hostF => exact (hostFEffect_k ..).wider rfl

/-- A write of a register from 0x100 on. -/
theorem regWrite_parts (w : Who) (p o : Nat) (v : Word) (s : State) (h : ¬ o < 0x100) :
    KeepsIn (regParts (pgKind p)) s (regWrite w p o v s) := by
  have hs : subParts [.outer, .host, .time, .mgmt, .pages, .regs, .cnts, .halves] (regParts (pgKind p)) = true := by
    cases pgKind p <;> rfl
  unfold regWrite regWriteBy
  rw [if_neg h]
  split
  · exact KeepsIn.refl _
  · exact regWriteAt_k hs (fun _ _ _ => pageEffect_parts ..) ..

/-- A write of a page header. -/
theorem hdrWrite_parts (w : Who) (p o : Nat) (v : Word) (s : State) (h : o < 0x100) :
    KeepsIn hdrParts s (regWrite w p o v s) := by
  unfold regWrite regWriteBy
  rw [if_pos h]
  split
  · exact KeepsIn.refl _
  · split
    · exact (hdrWr_k ..).mono rfl
    · exact (notOwner_k ..).mono rfl

/-- A write through what an offset names. -/
theorem targetWrite_parts (w : Who) (t : Target) (v : Word) (s : State) : KeepsIn (targetParts t) s (targetWrite w t v s) := by
  unfold targetWrite
  split
  · rename_i p o
    unfold targetParts
    by_cases h : o < 0x100
    · simp only [h, if_true]; exact hdrWrite_parts _ _ _ _ _ h
    · simp only [h, if_false]; exact regWrite_parts _ _ _ _ _ h
  · split
    · exact (msixWr_k ..).mono rfl
    · exact KeepsIn.refl _
  · exact KeepsIn.refl _

end Sys2Proof.Machine
end

