-- ==== Sys2Proof/Laws/Keeps/Packets.lean ====
section
/-! SUPPORT. What the operations and commands of Machine/Packets.lean keep, and the parts they may change. -/
namespace Sys2Proof.Machine

open Sys2Proof

set_option linter.all false

theorem execHeadboxWrite_k (f : Func) (off : Nat) (bytes : List Byte) (poisoned : Bool) (s : State) :
    ResK [.host, .pool, .mem, .mgmt, .boot, .pages, .cnts] s (execHeadboxWrite f off bytes poisoned s) := by
  unfold execHeadboxWrite
  repeat' first
    | exact rfl
    | with_unfolding_none first
        | apply KeepsIn.refl | apply ResK.next | assumption | intro _ | apply KeepsIn.ite
        | apply KeepsIn.after (imageWrite_k ..) | apply KeepsIn.after (headWrite_k ..)
        | apply KeepsIn.after (State.updHost_k ..)
    | dsimp only | split

theorem execNop_k (f : Func) (q : PktJob) (s : State) :
    ResK [.host, .pool, .mem, .mgmt, .pages, .cnts] s (execNop f q s) := by
  unfold execNop
  repeat' first
    | exact rfl
    | with_unfolding_none first
        | apply KeepsIn.refl | apply ResK.next | assumption | intro _ | apply KeepsIn.ite
        | apply KeepsIn.andThen (pktRun_k ?_ ?_ ..)
    | dsimp only | split

theorem submitFrom_k (f : Func) (q : Nat) : ∀ (l : List (List Byte)) (i : Nat) (s : State),
    KeepsIn [.sch, .host, .mgmt, .pages, .cnts] s (submitFrom f q i l s).st := by
  intro l
  induction l with
  | nil => intro i s; exact KeepsIn.refl _
  | cons b bs ih =>
    intro i s
    rw [submitFrom]
    have h : KeepsIn [.sch, .host, .mgmt, .pages, .cnts] s
        (if (decodeDesc b).job.val ≠ q then (0x08, raiseEv pgSCH 0x810 1 s)
          else acceptFn f (decodeDesc b) (descHeadOk b) s).2 := by
      split
      · exact KeepsIn.after (raiseEv_k ..) rfl (KeepsIn.refl _)
      · exact KeepsIn.after (acceptFn_k ..) rfl (KeepsIn.refl _)
    generalize (if (decodeDesc b).job.val ≠ q then (0x08, raiseEv pgSCH 0x810 1 s)
      else acceptFn f (decodeDesc b) (descHeadOk b) s) = r at h
    split
    · exact h
    · exact h.trans (ih ..)


theorem execSubmit_k (f : Func) (q : PktJob) (s : State) :
    ResK [.sch, .host, .pool, .mem, .mgmt, .pages, .cnts] s (execSubmit f q s) := by
  unfold execSubmit
  repeat' first
    | exact rfl
    | with_unfolding_none first
        | apply KeepsIn.refl | apply ResK.next | assumption | intro _ | apply KeepsIn.ite
        | apply KeepsIn.andThen (pktRun_k ?_ ?_ ..) | apply KeepsIn.after (submitFrom_k ..)
    | dsimp only | split

theorem execCancel_k (f : Func) (q : PktJob) (s : State) :
    ResK [.sch, .vat, .eng, .gc, .sheet, .ring, .fab, .line, .host, .pool, .mem, .mgmt, .pages, .cnts] s (execCancel f q s) := by
  unfold execCancel
  repeat' first
    | exact rfl
    | with_unfolding_none first
        | apply KeepsIn.refl | apply ResK.next | assumption | intro _ | apply KeepsIn.ite | apply KeepsIn.forAll
        | apply KeepsIn.andThen (pktRun_k ?_ ?_ ..) | apply KeepsIn.after (retryCores_k ..)
        | apply KeepsIn.after (cancelEntry_k ..)
    | dsimp only | split

theorem regPairs_k (f : Func) (k : Pkt) : ∀ (l : List Word) (s : State), KeepsIn [.sch, .vat, .eng, .gc, .sheet, .ring, .outer, .fab, .line, .opt, .ciph, .host, .pool, .mem, .time, .mgmt, .clk, .pwr, .boot, .pages, .regs, .cnts, .snaps, .halves] s (regPairs f k l s)
  | o :: v :: ws, s => by
    rw [regPairs]
    refine KeepsIn.trans ?_ (regPairs_k f k ws _)
    split
    · exact KeepsIn.after (targetWrite_k ..) rfl (KeepsIn.refl _)
    · exact KeepsIn.refl _
  | [], s => by rw [regPairs]; exact KeepsIn.refl _; simp
  | [_], s => by rw [regPairs]; exact KeepsIn.refl _; simp


theorem execRegWrite_k (f : Func) (q : PktJob) (s : State) :
    ResK [.sch, .vat, .eng, .gc, .sheet, .ring, .outer, .fab, .line, .opt, .ciph, .host, .pool, .mem, .time, .mgmt, .clk, .pwr, .boot, .pages, .regs, .cnts, .snaps, .halves] s (execRegWrite f q s) := by
  unfold execRegWrite
  repeat' first
    | exact rfl
    | with_unfolding_none first
        | apply KeepsIn.refl | apply ResK.next | assumption | intro _ | apply KeepsIn.ite
        | apply KeepsIn.andThen (pktRun_k ?_ ?_ ..) | apply KeepsIn.after (regPairs_k ..)
    | dsimp only | split

theorem regReads_k (f : Func) : ∀ (l : List Word) (s : State), KeepsIn [.time, .pwr, .halves] s (regReads f l s).2 := by
  intro l
  induction l with
  | nil =>
    intro s
    rw [regReads]
    repeat' first
      | exact rfl
      | with_unfolding_none first
          | apply KeepsIn.refl | assumption | apply KeepsIn.ite | apply KeepsIn.after (ih ..)
          | apply KeepsIn.after (targetRead_k ..)
      | dsimp only | split
  | cons a l ih =>
    intro s
    rw [regReads]
    repeat' first
      | exact rfl
      | with_unfolding_none first
          | apply KeepsIn.refl | assumption | apply KeepsIn.ite | apply KeepsIn.after (ih ..)
          | apply KeepsIn.after (targetRead_k ..)
      | dsimp only | split

theorem dataOut_k (f : Func) (addr : DWord) (data : List Byte) (relaxed rejected : Bool) (result : Nat) (s : State) :
    KeepsIn [.host, .mgmt, .pages, .cnts] s (dataOut f addr data relaxed rejected result s).st := by
  unfold dataOut
  repeat' first
    | exact rfl
    | with_unfolding_none first
        | apply KeepsIn.refl | assumption | intro _ | apply KeepsIn.ite | apply KeepsIn.after (hostDma_k ..)
    | dsimp only | split

theorem execRegRead_k (f : Func) (q : PktJob) (rejected : Bool) (s : State) :
    ResK [.host, .pool, .mem, .time, .mgmt, .pwr, .pages, .cnts, .halves] s (execRegRead f q rejected s) := by
  unfold execRegRead
  repeat' first
    | exact rfl
    | with_unfolding_none first
        | apply KeepsIn.refl | apply ResK.next | assumption | intro _ | apply KeepsIn.ite
        | apply KeepsIn.andThen (pktRun_k ?_ ?_ ..) | apply KeepsIn.after (regReads_k ..)
        | apply KeepsIn.after (dataOut_k ..)
    | dsimp only | split

theorem memPut_k (mem j a : Nat) (bs : List Byte) (s : State) : KeepsIn [.gc, .mem] s (memPut mem j a bs s) := by
  unfold memPut
  repeat' first
    | exact rfl
    | with_unfolding_none first
        | apply KeepsIn.refl | assumption | intro _ | apply KeepsIn.ite | apply KeepsIn.after (hbmWrite_k ..)
        | apply KeepsIn.after (shmWrite_k ..) | apply KeepsIn.after (lpWrite_k ..)
    | dsimp only | split

theorem execMemWrite_k (f : Func) (q : PktJob) (s : State) :
    ResK [.gc, .host, .pool, .mem, .mgmt, .pages, .cnts] s (execMemWrite f q s) := by
  unfold execMemWrite
  repeat' first
    | exact rfl
    | with_unfolding_none first
        | apply KeepsIn.refl | apply ResK.next | assumption | intro _ | apply KeepsIn.ite
        | apply KeepsIn.andThen (pktRun_k ?_ ?_ ..) | apply KeepsIn.after (memPut_k ..)
    | dsimp only | split

theorem dumpBuffer_k (k : Pkt) (n : Nat) (s : State) :
    KeepsIn [.host, .pool, .mem, .mgmt, .pages, .cnts] s (dumpBuffer k n s) := by
  unfold dumpBuffer
  repeat' first
    | exact rfl
    | with_unfolding_none first
        | apply KeepsIn.refl | assumption | intro _ | apply KeepsIn.ite | apply KeepsIn.after (poolPass_k ..)
    | dsimp only | split

theorem execMemRead_k (f : Func) (q : PktJob) (rejected : Bool) (s : State) :
    ResK [.host, .pool, .mem, .mgmt, .pages, .cnts] s (execMemRead f q rejected s) := by
  unfold execMemRead
  repeat' first
    | exact rfl
    | with_unfolding_none first
        | apply KeepsIn.refl | apply ResK.next | assumption | intro _ | apply KeepsIn.ite
        | apply KeepsIn.andThen (pktRun_k ?_ ?_ ..) | apply KeepsIn.after (reportHbm_k ..)
        | apply KeepsIn.after (reportLp_k ..) | apply KeepsIn.after (dataOut_k ..) | apply KeepsIn.after (dumpBuffer_k ..)
    | dsimp only | split

theorem qpCreateBody_k (q : PktJob) (k : Pkt) (s : State) :
    KeepsIn [.fab, .host, .mgmt, .pages, .cnts] s (qpCreateBody q k s).st := by
  unfold qpCreateBody
  repeat' first
    | exact rfl
    | with_unfolding_none first
        | apply KeepsIn.refl | assumption | intro _ | apply KeepsIn.ite | apply KeepsIn.after (raiseEv_k ..)
        | apply KeepsIn.after (putQp_k ..) | apply KeepsIn.after (State.draw_k ..)
    | dsimp only | split

theorem execQpCreate_k (f : Func) (q : PktJob) (s : State) :
    ResK [.fab, .host, .pool, .mem, .mgmt, .pages, .cnts] s (execQpCreate f q s) := by
  unfold execQpCreate
  repeat' first
    | exact rfl
    | with_unfolding_none first
        | apply KeepsIn.refl | apply ResK.next | assumption | intro _ | apply KeepsIn.ite
        | apply KeepsIn.andThen (pktRun_k ?_ ?_ ..) | apply KeepsIn.after (qpCreateBody_k ..)
    | dsimp only | split

theorem qpLeave_k (q : Qp) (s : State) :
    KeepsIn [.sch, .vat, .fab, .host, .pool, .mem, .mgmt, .pages, .cnts] s (qpLeave q s) := by
  unfold qpLeave
  repeat' first
    | exact rfl
    | with_unfolding_none first
        | apply KeepsIn.refl | assumption | intro _ | apply KeepsIn.ite | apply KeepsIn.after (qpCutAll_k ..)
        | apply KeepsIn.after (scatterDrop_k ..)
    | dsimp only | split

theorem qpModifyBody_k (q : PktJob) (k : Pkt) (s : State) :
    KeepsIn [.sch, .vat, .fab, .host, .pool, .mem, .mgmt, .pages, .cnts] s (qpModifyBody q k s).st := by
  unfold qpModifyBody
  repeat' first
    | exact rfl
    | with_unfolding_none first
        | apply KeepsIn.refl | assumption | intro _ | apply KeepsIn.ite | apply KeepsIn.whenD
        | apply KeepsIn.after (qpLeave_k ..) | apply KeepsIn.after (putQp_k ..)
    | dsimp only | split

theorem execQpModify_k (f : Func) (q : PktJob) (s : State) :
    ResK [.sch, .vat, .fab, .host, .pool, .mem, .mgmt, .pages, .cnts] s (execQpModify f q s) := by
  unfold execQpModify
  repeat' first
    | exact rfl
    | with_unfolding_none first
        | apply KeepsIn.refl | apply ResK.next | assumption | intro _ | apply KeepsIn.ite
        | apply KeepsIn.andThen (pktRun_k ?_ ?_ ..) | apply KeepsIn.after (qpModifyBody_k ..)
    | dsimp only | split

theorem qpDestroyBody_k (q : PktJob) (k : Pkt) (s : State) :
    KeepsIn [.sch, .vat, .fab, .host, .pool, .mem, .mgmt, .pages, .cnts] s (qpDestroyBody q k s).st := by
  unfold qpDestroyBody
  repeat' first
    | exact rfl
    | with_unfolding_none first
        | apply KeepsIn.refl | assumption | intro _ | apply KeepsIn.ite | apply KeepsIn.after (qpLeave_k ..)
        | apply KeepsIn.after (State.updFab_k ..)
    | dsimp only | split

theorem execQpDestroy_k (f : Func) (q : PktJob) (s : State) :
    ResK [.sch, .vat, .fab, .host, .pool, .mem, .mgmt, .pages, .cnts] s (execQpDestroy f q s) := by
  unfold execQpDestroy
  repeat' first
    | exact rfl
    | with_unfolding_none first
        | apply KeepsIn.refl | apply ResK.next | assumption | intro _ | apply KeepsIn.ite
        | apply KeepsIn.andThen (pktRun_k ?_ ?_ ..) | apply KeepsIn.after (qpDestroyBody_k ..)
    | dsimp only | split

theorem jobFresh_k (j : Nat) (s : State) : KeepsIn [.sch, .regs] s (jobFresh j s) := by
  unfold jobFresh
  repeat' first
    | exact rfl
    | with_unfolding_none first
        | apply KeepsIn.refl | assumption | intro _ | apply KeepsIn.ite | apply KeepsIn.forAll
        | apply KeepsIn.after (State.setReg_k ..) | apply KeepsIn.after (State.updSch_k ..)
    | dsimp only | split

theorem jobAssignBody_k (f : Func) (q : PktJob) (k : Pkt) (s : State) :
    KeepsIn [.sch, .host, .mem, .regs] s (jobAssignBody f q k s).st := by
  unfold jobAssignBody
  repeat' first
    | exact rfl
    | with_unfolding_none first
        | apply KeepsIn.refl | assumption | intro _ | apply KeepsIn.ite | apply KeepsIn.after (hbmZero_k ..)
        | apply KeepsIn.after (jobFresh_k ..) | apply KeepsIn.after (State.setJobSt_k ..)
        | apply KeepsIn.after (State.updHost_k ..)
    | dsimp only | split

theorem execJobAssign_k (f : Func) (q : PktJob) (s : State) :
    ResK [.sch, .host, .pool, .mem, .mgmt, .pages, .regs, .cnts] s (execJobAssign f q s) := by
  unfold execJobAssign
  repeat' first
    | exact rfl
    | with_unfolding_none first
        | apply KeepsIn.refl | apply ResK.next | assumption | intro _ | apply KeepsIn.ite
        | apply KeepsIn.andThen (pktRun_k ?_ ?_ ..) | apply KeepsIn.after (jobAssignBody_k ..)
    | dsimp only | split

theorem execJobStart_k (f : Func) (q : PktJob) (s : State) :
    ResK [.host, .pool, .mem, .mgmt, .pages, .regs, .cnts] s (execJobStart f q s) := by
  unfold execJobStart
  repeat' first
    | exact rfl
    | with_unfolding_none first
        | apply KeepsIn.refl | apply ResK.next | assumption | intro _ | apply KeepsIn.ite
        | apply KeepsIn.andThen (pktRun_k ?_ ?_ ..) | apply KeepsIn.after (mirrorOff_k ..)
        | apply KeepsIn.after (State.setJobSt_k ..)
    | dsimp only | split

theorem execJobQuiesce_k (f : Func) (q : PktJob) (s : State) :
    ResK [.sch, .vat, .eng, .gc, .sheet, .ring, .outer, .fab, .line, .host, .pool, .mem, .mgmt, .pages, .regs, .cnts] s (execJobQuiesce f q s) := by
  unfold execJobQuiesce
  repeat' first
    | exact rfl
    | with_unfolding_none first
        | apply KeepsIn.refl | apply ResK.next | assumption | intro _ | apply KeepsIn.ite
        | apply KeepsIn.andThen (pktRun_k ?_ ?_ ..) | apply KeepsIn.after (quiesceJob_k ..)
    | dsimp only | split

theorem execJobRelease_k (f : Func) (q : PktJob) (s : State) :
    ResK [.host, .pool, .mem, .mgmt, .pages, .cnts] s (execJobRelease f q s) := by
  unfold execJobRelease
  repeat' first
    | exact rfl
    | with_unfolding_none first
        | apply KeepsIn.refl | apply ResK.next | assumption | intro _ | apply KeepsIn.ite
        | apply KeepsIn.andThen (pktRun_k ?_ ?_ ..) | apply KeepsIn.after (State.setJobSt_k ..)
        | apply KeepsIn.after (State.updHost_k ..)
    | dsimp only | split

theorem execAttest_k (f : Func) (q : PktJob) (rejected : Bool) (s : State) :
    ResK [.host, .pool, .mem, .mgmt, .pages, .cnts] s (execAttest f q rejected s) := by
  unfold execAttest
  repeat' first
    | exact rfl
    | with_unfolding_none first
        | apply KeepsIn.refl | apply ResK.next | assumption | intro _ | apply KeepsIn.ite
        | apply KeepsIn.andThen (pktRun_k ?_ ?_ ..) | apply KeepsIn.after (dataOut_k ..)
    | dsimp only | split

theorem execTimeSend_k (f : Func) (q : PktJob) (s : State) :
    ResK [.line, .host, .pool, .mem, .mgmt, .pages, .cnts] s (execTimeSend f q s) := by
  unfold execTimeSend
  repeat' first
    | exact rfl
    | with_unfolding_none first
        | apply KeepsIn.refl | apply ResK.next | assumption | intro _ | apply KeepsIn.ite
        | apply KeepsIn.andThen (pktRun_k ?_ ?_ ..) | apply KeepsIn.after (protSend_k ..)
    | dsimp only | split

theorem launchBody_k (k : Pkt) (s : State) : KeepsIn [.host, .time, .mgmt, .pages, .cnts] s (launchBody k s).st := by
  unfold launchBody
  repeat' first
    | exact rfl
    | with_unfolding_none first
        | apply KeepsIn.refl | assumption | intro _ | apply KeepsIn.ite | apply KeepsIn.after (launchMiss_k ..)
        | apply KeepsIn.after (State.updTime_k ..)
    | dsimp only | split

theorem execLaunch_k (f : Func) (q : PktJob) (s : State) :
    ResK [.host, .pool, .mem, .time, .mgmt, .pages, .cnts] s (execLaunch f q s) := by
  unfold execLaunch
  repeat' first
    | exact rfl
    | with_unfolding_none first
        | apply KeepsIn.refl | apply ResK.next | assumption | intro _ | apply KeepsIn.ite
        | apply KeepsIn.andThen (pktRun_k ?_ ?_ ..) | apply KeepsIn.after (launchBody_k ..)
    | dsimp only | split

theorem captureBody_k (f : Func) (rejected : Bool) (k : Pkt) (s : State) :
    KeepsIn [.fab, .host, .pool, .mem, .mgmt, .pages, .cnts] s (captureBody f rejected k s).st := by
  unfold captureBody
  repeat' first
    | exact rfl
    | with_unfolding_none first
        | apply KeepsIn.refl | assumption | intro _ | apply KeepsIn.ite | apply KeepsIn.forAll
        | apply KeepsIn.after (reportLp_k ..) | apply KeepsIn.after (State.updFab_k ..) | apply KeepsIn.after (dataOut_k ..)
        | apply KeepsIn.after (dumpBuffer_k ..)
    | dsimp only | split

theorem execCaptureDump_k (f : Func) (q : PktJob) (rejected : Bool) (s : State) :
    ResK [.fab, .host, .pool, .mem, .mgmt, .pages, .cnts] s (execCaptureDump f q rejected s) := by
  unfold execCaptureDump
  repeat' first
    | exact rfl
    | with_unfolding_none first
        | apply KeepsIn.refl | apply ResK.next | assumption | intro _ | apply KeepsIn.ite
        | apply KeepsIn.andThen (pktRun_k ?_ ?_ ..) | apply KeepsIn.after (captureBody_k ..)
    | dsimp only | split

end Sys2Proof.Machine
end

