-- ==== Sys2Proof/Laws/Regs.lean ====
section
/-! SUPPORT. What a register write does where nothing forbids it: its page's effect, on the value that the register takes. -/
namespace Sys2Proof.Machine

open Sys2Proof

/-- An allowed write of a register of one word is its page's effect. -/
theorem regWriteBy_word {eff : Nat → DWord → State → Eff} {w : Who} {p o : Nat} {v : Word} {s : State} {r : RegRow}
    (h : s.allows w p o v = true) (hr : regRow p o = some r) (hc : r.cls ≠ .ownIdx) (hp : r.pair = false)
    (hm : r.rw ||| r.rwl ||| cmdBits p o ≠ 0) :
    regWriteBy eff w p o v s = takeWrite eff w p o (s.ixOf w p o) ((s.taken w p o v).setWidth 64) v s := by
  simp only [State.allows, hr, Bool.and_eq_true, Bool.not_eq_true', decide_eq_true_eq] at h
  obtain ⟨⟨h1, h2⟩, ⟨⟨h3, h4⟩, h5⟩, h6⟩ := h
  have hi : s.entryIx w p r = s.ixOf w p o := by simp [State.ixOf, hr]
  have h2' : ¬ o < 0x100 := by omega
  simp only [regWriteBy, h1, h2', regWriteAt, hr, hi, h3, h4, h5, h6, rowWrite, hc, hp, hm, State.taken]
  simp

/-- An allowed write of an _IDX register stores the writer's copy. -/
theorem regWriteBy_idx {eff : Nat → DWord → State → Eff} {w : Who} {p o : Nat} {v : Word} {s : State} {r : RegRow}
    (h : s.allows w p o v = true) (hr : regRow p o = some r) (hc : r.cls = .ownIdx) :
    regWriteBy eff w p o v s = s.setReg p o (merge r.rw (s.reg p o (whoCode w)) v) (whoCode w) := by
  simp only [State.allows, hr, Bool.and_eq_true, Bool.not_eq_true', decide_eq_true_eq] at h
  obtain ⟨⟨h1, h2⟩, ⟨⟨h3, h4⟩, h5⟩, h6⟩ := h
  have hi : s.entryIx w p r = s.ixOf w p o := by simp [State.ixOf, hr]
  have hw : s.ixOf w p o = whoCode w := by rw [← hi]; simp [State.entryIx, hc]
  have h2' : ¬ o < 0x100 := by omega
  rw [hw] at h3 h6
  simp only [regWriteBy, h1, h2', regWriteAt, hr, hi, hw, h3, h4, h5, h6, rowWrite, hc, store]
  simp

/-- An allowed write of a _HI register is its page's effect on the whole pair; the held half is used up. -/
theorem regWriteBy_pair {eff : Nat → DWord → State → Eff} {w : Who} {p o : Nat} {v : Word} {s : State} {r : RegRow}
    (h : s.allows w p o v = true) (hr : regRow p o = some r) (hc : r.cls ≠ .ownIdx) (hp : r.pair = true)
    (hw : r.word o ≠ 0) (hm : ¬ (r.rw = 0 ∧ r.rwHi = 0)) :
    regWriteBy eff w p o v s = takeWrite eff w p o (s.ixOf w p o) (s.takenPair w p o v) v
      { s with heldLo := SMap.erase (pairKey w p (o - 4)) s.heldLo } := by
  simp only [State.allows, hr, Bool.and_eq_true, Bool.not_eq_true', decide_eq_true_eq] at h
  obtain ⟨⟨h1, h2⟩, ⟨⟨h3, h4⟩, h5⟩, h6⟩ := h
  have hi : s.entryIx w p r = s.ixOf w p o := by simp [State.ixOf, hr]
  have h2' : ¬ o < 0x100 := by omega
  simp only [regWriteBy, h1, h2', regWriteAt, hr, hi, h3, h4, h5, h6, rowWrite, hc, hp, hw, State.takenPair]
  simpa using fun a b => absurd ⟨a, b⟩ hm

/-- An allowed write of a _LO register is held for the writer. -/
theorem regWriteBy_lo {eff : Nat → DWord → State → Eff} {w : Who} {p o : Nat} {v : Word} {s : State} {r : RegRow}
    (h : s.allows w p o v = true) (hr : regRow p o = some r) (hc : r.cls ≠ .ownIdx) (hp : r.pair = true)
    (hw : r.word o = 0) (hm : ¬ (r.rw = 0 ∧ r.rwHi = 0)) :
    regWriteBy eff w p o v s = { s with heldLo := SMap.put (pairKey w p o) v s.heldLo } := by
  simp only [State.allows, hr, Bool.and_eq_true, Bool.not_eq_true', decide_eq_true_eq] at h
  obtain ⟨⟨h1, h2⟩, ⟨⟨h3, h4⟩, h5⟩, h6⟩ := h
  have hi : s.entryIx w p r = s.ixOf w p o := by simp [State.ixOf, hr]
  have h2' : ¬ o < 0x100 := by omega
  simp only [regWriteBy, h1, h2', regWriteAt, hr, hi, h3, h4, h5, h6, rowWrite, hc, hp, hw]
  simpa using fun a b => absurd ⟨a, b⟩ hm

/-- A write whose page takes the value. -/
theorem takeWrite_ok {eff : Nat → DWord → State → Eff} {w : Who} {p o ix : Nat} {val : DWord} {v : Word} {s t : State}
    (h : eff ix val s = .ok t) : takeWrite eff w p o ix val v s = t := by simp [takeWrite, h]

/-- A write that the page refuses. -/
theorem takeWrite_error {eff : Nat → DWord → State → Eff} {w : Who} {p o ix : Nat} {val : DWord} {v : Word} {s : State}
    {c : RefCode} (h : eff ix val s = .error c) :
    takeWrite eff w p o ix val v s = refusedToo c o (refuse w p c o v s) := by simp [takeWrite, h]

/-- The whole of a register that software may set takes the value written. -/
theorem merge_all (old v : Word) : merge 0xFFFFFFFF old v = v := by
  have h : (0xFFFFFFFF : Word) = BitVec.allOnes 32 := by decide
  rw [merge, h, BitVec.not_allOnes, BitVec.and_zero, BitVec.zero_or, BitVec.and_allOnes]

/-! Bits and fields of what is written. -/

theorem bit_merge (m a v : Word) (i : Nat) : bit (merge m a v) i = if bit m i then bit v i else bit a i := by
  unfold bit merge
  simp only [BitVec.getLsbD_or, BitVec.getLsbD_and, BitVec.getLsbD_not]
  by_cases hi : i < 32
  · cases m.getLsbD i <;> simp [hi]
  · have h1 : a.getLsbD i = false := BitVec.getLsbD_of_ge _ _ (by omega)
    have h2 : v.getLsbD i = false := BitVec.getLsbD_of_ge _ _ (by omega)
    simp [h1, h2]

theorem bit_setBit (w : Word) (i j : Nat) (b : Bool) (hi : i < 32) : bit (setBit w i b) j = if j = i then b else bit w j := by
  unfold bit setBit setFld
  simp only [BitVec.getLsbD_or, BitVec.getLsbD_and, BitVec.getLsbD_not, wd, BitVec.getLsbD_ofNat]
  by_cases hj : j < 32
  · by_cases h : j = i
    · subst h; cases b <;> simp [hj, b2n]
    · have h2 : i ≠ j := fun e => h e.symm
      cases b <;> simp [hj, b2n, h, h2]
  · have h1 : w.getLsbD j = false := BitVec.getLsbD_of_ge _ _ (by omega)
    have h2 : j ≠ i := by omega
    simp [h1, hj, h2]

theorem fld_withCmd (v : Word) (n c : Nat) (hn : n ≤ 32) (hc : c < 2 ^ n) : fld (setFld v 0 n c) 0 n = c := by
  unfold fld fldN
  apply Nat.eq_of_testBit_eq
  intro i
  simp only [Nat.pow_zero, Nat.div_one, Nat.testBit_mod_two_pow]
  rw [BitVec.testBit_toNat]
  unfold setFld
  simp only [BitVec.getLsbD_or, BitVec.getLsbD_and, BitVec.getLsbD_not, wd, BitVec.getLsbD_ofNat, Nat.pow_zero, Nat.mul_one]
  rw [Nat.mod_eq_of_lt hc]
  by_cases h : i < n
  · have : i < 32 := by omega
    simp [h, this, Nat.testBit_two_pow_sub_one]
  · simp [h]
    have := Nat.testBit_lt_two_pow (Nat.lt_of_lt_of_le hc (Nat.pow_le_pow_right (by decide) (by omega : n ≤ i)))
    exact this

@[simp] theorem loW_setWidth (v : Word) : loW (v.setWidth 64) = v := by
  simp [loW]

/-! The halves of a pair are what it is made of. -/

theorem hi_pair (a b : Word) : hiW (pairW a b) = a := by
  apply BitVec.eq_of_toNat_eq
  simp only [hiW, pairW, BitVec.toNat_setWidth, BitVec.toNat_ushiftRight, BitVec.toNat_ofNat, Nat.shiftRight_eq_div_pow]
  have := a.isLt; have := b.isLt; omega

theorem lo_pair (a b : Word) : loW (pairW a b) = b := by
  apply BitVec.eq_of_toNat_eq
  simp only [loW, pairW, BitVec.toNat_setWidth, BitVec.toNat_ofNat]
  have := a.isLt; have := b.isLt; omega

theorem pair_parts (v : DWord) : pairW (hiW v) (loW v) = v := by
  apply BitVec.eq_of_toNat_eq
  simp only [hiW, loW, pairW, BitVec.toNat_setWidth, BitVec.toNat_ushiftRight, BitVec.toNat_ofNat, Nat.shiftRight_eq_div_pow]
  have := v.isLt; omega

/-- Nothing else is found where no other job has it. -/
theorem any_false {f : Nat → Bool} (j : Job) (h : ∀ i : Job, i ≠ j → f i.val = false) :
    (List.range 8).any (fun i => decide (i ≠ j.val) && f i) = false := by
  rw [Bool.eq_false_iff]
  intro hx
  simp only [List.any_eq_true, List.mem_range, Bool.and_eq_true, decide_eq_true_eq] at hx
  obtain ⟨i, hi, hne, hf⟩ := hx
  have := h ⟨i, hi⟩ (fun e => hne (by rw [← e]))
  rw [this] at hf; exact absurd hf (by decide)

/-- An allowed write of a register of one word that its page takes. -/
theorem regWrite_ok {w : Who} {p o : Nat} {v : Word} {s t : State} {r : RegRow}
    (h : s.allows w p o v = true) (hr : regRow p o = some r) (hc : r.cls ≠ .ownIdx) (hp : r.pair = false)
    (hm : r.rw ||| r.rwl ||| cmdBits p o ≠ 0)
    (he : pageEffect w p o (s.ixOf w p o) ((s.taken w p o v).setWidth 64) s = .ok t) : regWrite w p o v s = t := by
  unfold regWrite
  rw [regWriteBy_word h hr hc hp hm]
  apply takeWrite_ok
  simpa [hr, hp] using he

/-- An allowed write of a register of one word that its page refuses. -/
theorem regWrite_error {w : Who} {p o : Nat} {v : Word} {s : State} {r : RegRow} {c : RefCode}
    (h : s.allows w p o v = true) (hr : regRow p o = some r) (hc : r.cls ≠ .ownIdx) (hp : r.pair = false)
    (hm : r.rw ||| r.rwl ||| cmdBits p o ≠ 0)
    (he : pageEffect w p o (s.ixOf w p o) ((s.taken w p o v).setWidth 64) s = .error c) :
    regWrite w p o v s = refusedToo c o (refuse w p c o v s) := by
  unfold regWrite
  rw [regWriteBy_word h hr hc hp hm]
  apply takeWrite_error
  simpa [hr, hp] using he

/-- An allowed write of a _HI register that its page takes. -/
theorem regWrite_pair_ok {w : Who} {p o : Nat} {v : Word} {s t : State} {r : RegRow}
    (h : s.allows w p o v = true) (hr : regRow p o = some r) (hc : r.cls ≠ .ownIdx) (hp : r.pair = true)
    (hw : r.word o = 1) (hm : ¬ (r.rw = 0 ∧ r.rwHi = 0))
    (he : pageEffect w p (o - 4) (s.ixOf w p o) (s.takenPair w p o v)
      { s with heldLo := SMap.erase (pairKey w p (o - 4)) s.heldLo } = .ok t) : regWrite w p o v s = t := by
  unfold regWrite
  rw [regWriteBy_pair h hr hc hp (by rw [hw]; decide) hm]
  apply takeWrite_ok
  simpa [hr, hp, hw] using he

/-- A register that no other register selects an entry of has the one entry 0. -/
theorem ixOf_none {s : State} {w : Who} {p o : Nat} {r : RegRow} (hr : regRow p o = some r) (hc : r.cls ≠ .ownIdx)
    (hi : r.ix = none) : s.ixOf w p o = 0 := by
  simp only [State.ixOf, hr, Option.map_some, Option.getD_some]
  unfold State.entryIx
  split
  · rename_i h; exact absurd h hc
  · rename_i h _ ; simp [hi] at h
  · rfl

/-- An allowed write of a register that its page just stores. -/
theorem stored_ok {w : Who} {p o : Nat} {v : Word} {s : State} {r : RegRow}
    (h : s.allows w p o v = true) (hr : regRow p o = some r) (hc : r.cls ≠ .ownIdx) (hp : r.pair = false)
    (hm : r.rw ||| r.rwl ||| cmdBits p o ≠ 0)
    (he : pageEffect w p o (s.ixOf w p o) ((s.taken w p o v).setWidth 64) s =
      .ok (store p o (s.ixOf w p o) (s.taken w p o v) s)) : Stored w p o v [] s (regWrite w p o v s) := by
  rw [regWrite_ok h hr hc hp hm he]
  refine ⟨rfl, fun b hb => ?_⟩
  cases b <;> first | exact absurd (List.mem_singleton.2 rfl) hb | simp [Part.same, store]

end Sys2Proof.Machine
end

