-- ==== Sys2Proof/Laws/Sheets.lean ====
section
/-! SUPPORT. What a step of a sheet codec takes and ends. -/
namespace Sys2Proof.Machine

open Sys2Proof

/-- A codec that is in service takes an operation that its row serves. -/
theorem codecIssue_run {d : Nat} {e : Entry} {serves : Entry → Bool} {run : Entry → State → State} {s : State}
   (h : s.codecPick d = some e) (hs : serves e = true) (hv : s.regF (pgSHEET d) 0x104 0 8 ≠ 0) : codecIssue d serves run s = run e (issue 2 d e s) := by
  unfold codecIssue
  rw [h]; dsimp only
  rw [hs, if_neg (by decide), if_neg]
  exact hv

/-- What a die's codecs take is READY, and of that die. -/
theorem codecPick_unit {d : Nat} {e : Entry} {s : State} (h : s.codecPick d = some e) : e ∈ s.sch.ops ∧ e.st = .ready ∧ e.d.unit = d := by
  have := pick_spec h
  refine ⟨this.1, this.2.1, ?_⟩
  have h3 := this.2.2
  simp only [State.codecReady, isCodecOp, Bool.and_eq_true, decide_eq_true_eq] at h3
  exact h3.1.1

/-- Issuing an operation changes the scoreboard alone. -/
theorem issue_only (c u : Nat) (e : Entry) (s : State) : OnlyIn [.sch] s (issue c u e s) := fun p h => (issue_k c u e s).only p h

/-- A running operation is finished. -/
theorem finish_run {id : Nat} {s : State} (h1 : s.stOf id = some .active) (h2 : s.workOf id = some .running) : finish id s = setWork id .finished s := by
  unfold State.stOf at h1
  unfold State.workOf at h2
  unfold finish
  cases h : s.entry? id with
  | none => rw [h] at h1; simp at h1
  | some x =>
    rw [h] at h1 h2
    simp only [Option.map_some, Option.some.injEq] at h1 h2
    dsimp only
    rw [if_pos (by simp [h1, h2])]

/-- No other operation is. -/
theorem finish_other {id i : Nat} (hi : i ≠ id) (s : State) : (finish id s).entry? i = s.entry? i := by
  unfold finish
  split
  · rfl
  · split
    · rw [setWork_entry, if_neg hi]
    · rfl

end Sys2Proof.Machine
end

