-- ==== Sys2Proof/Laws/Vat.lean ====
section
/-! SUPPORT. What the vat's operations do: grant records, held and released; waves and tags. -/
namespace Sys2Proof.Machine

open Sys2Proof

/-! ## Grant records -/

/-- What each round of a loop keeps, the loop keeps. -/
theorem forAll_inv {α : Type} {P : State → Prop} {f : α → State → State} (hf : ∀ a t, P t → P (f a t)) (l : List α) (s : State)
    (h : P s) : P (forAll l f s) := by
  induction l generalizing s with
  | nil => exact h
  | cons a l ih => exact ih _ (hf a s h)

theorem writeGrant_vat (j c : Nat) (r : GrantRec) (s : State) :
    (writeGrant j c r s).vat = { s.vat with
      gseq := SMap.set (fun _ => 0) (ctIx j c) (s.gseqOf j c + 1) s.vat.gseq
      unack := SMap.put (ctIx j c) (s.unackOf j c ++ [(s.gseqOf j c + 1, s.keyed j r)]) s.vat.unack } := by
  have h := fun g r' => (sendGrant_k j c g r' s).only .vat (by decide)
  simp only [Part.same] at h
  simp only [writeGrant, State.updVat_vat, h]
  rfl

theorem grant_vat (j c : Nat) (r : GrantRec) (s : State) :
    (grant j c r s).vat =
      if (s.grantRoom j c && (s.heldOf j c).isEmpty) = true then { s.vat with
        gseq := SMap.set (fun _ => 0) (ctIx j c) (s.gseqOf j c + 1) s.vat.gseq
        unack := SMap.put (ctIx j c) (s.unackOf j c ++ [(s.gseqOf j c + 1, s.keyed j r)]) s.vat.unack }
      else { s.vat with heldG := SMap.put (ctIx j c) (s.heldOf j c ++ [r]) s.vat.heldG } := by
  unfold grant
  split
  · rw [writeGrant_vat]
  · dsimp only
    rw [(raiseEv_k ..).only .vat (by decide), (poolReq_k ..).only .vat (by decide)]
    rfl

theorem grant_regs (j c : Nat) (r : GrantRec) (s : State) : (grant j c r s).regs = s.regs :=
  (grant_k j c r s).only .regs (by decide)

theorem winKey_congr {s t : State} (hr : t.regs = s.regs) (ht : t.vat.tags = s.vat.tags) (j : Nat) (r : GrantRec) :
    t.keyed j r = s.keyed j r := by
  simp only [State.keyed, State.reduceWin, State.regEntries, State.winKey, State.winTag, hr, ht]

/-- What grants do not touch. -/
theorem grant_same (j c : Nat) (r : GrantRec) (s : State) :
    (grant j c r s).vat.waves = s.vat.waves ∧ (grant j c r s).vat.slots = s.vat.slots ∧
      (grant j c r s).vat.acc = s.vat.acc ∧ (grant j c r s).vat.tags = s.vat.tags ∧ (grant j c r s).vat.gack = s.vat.gack := by
  rw [grant_vat]; split <;> exact ⟨rfl, rfl, rfl, rfl, rfl⟩

theorem grantAll_same (j : Nat) (cs : BitVec 512) (r : GrantRec) (s : State) :
    (grantAll j cs r s).vat.waves = s.vat.waves ∧ (grantAll j cs r s).vat.slots = s.vat.slots ∧
      (grantAll j cs r s).vat.acc = s.vat.acc ∧ (grantAll j cs r s).vat.tags = s.vat.tags ∧
      (grantAll j cs r s).vat.gack = s.vat.gack := by
  unfold grantAll
  generalize setIdx cs = l
  refine forAll_inv (P := fun t => t.vat.waves = s.vat.waves ∧ t.vat.slots = s.vat.slots ∧ t.vat.acc = s.vat.acc ∧
    t.vat.tags = s.vat.tags ∧ t.vat.gack = s.vat.gack) (fun c t h => ?_) l s ⟨rfl, rfl, rfl, rfl, rfl⟩
  obtain ⟨g1, g2, g3, g4, g5⟩ := grant_same j c r t
  exact ⟨g1.trans h.1, g2.trans h.2.1, g3.trans h.2.2.1, g4.trans h.2.2.2.1, g5.trans h.2.2.2.2⟩

theorem grant_self (j c : Nat) (r : GrantRec) (s : State) :
    let t := grant j c r s
    (s.grantRoom j c = true ∧ s.heldOf j c = [] →
      t.gseqOf j c = s.gseqOf j c + 1 ∧ t.heldOf j c = [] ∧
      t.unackOf j c = s.unackOf j c ++ [(s.gseqOf j c + 1, s.keyed j r)]) ∧
    (¬ (s.grantRoom j c = true ∧ s.heldOf j c = []) →
      t.gseqOf j c = s.gseqOf j c ∧ t.heldOf j c = s.heldOf j c ++ [r] ∧ t.unackOf j c = s.unackOf j c) := by
  have hc : (s.grantRoom j c && (s.heldOf j c).isEmpty) = true ↔ (s.grantRoom j c = true ∧ s.heldOf j c = []) := by simp
  dsimp only
  refine ⟨fun h => ?_, fun h => ?_⟩
  · have hv := grant_vat j c r s
    rw [if_pos (hc.2 h)] at hv
    have e1 : (grant j c r s).gseqOf j c = s.gseqOf j c + 1 := by unfold State.gseqOf; rw [hv, SMap.get_set, if_pos rfl]; rfl
    have e2 : (grant j c r s).heldOf j c = s.heldOf j c := by unfold State.heldOf; rw [hv]
    have e3 : (grant j c r s).unackOf j c = s.unackOf j c ++ [(s.gseqOf j c + 1, s.keyed j r)] := by
      unfold State.unackOf; rw [hv, SMap.find_put, if_pos rfl]; rfl
    exact ⟨e1, e2.trans h.2, e3⟩
  · have hv := grant_vat j c r s
    rw [if_neg (fun x => h (hc.1 x))] at hv
    have e1 : (grant j c r s).gseqOf j c = s.gseqOf j c := by unfold State.gseqOf; rw [hv]
    have e2 : (grant j c r s).heldOf j c = s.heldOf j c ++ [r] := by unfold State.heldOf; rw [hv, SMap.find_put, if_pos rfl]; rfl
    have e3 : (grant j c r s).unackOf j c = s.unackOf j c := by unfold State.unackOf; rw [hv]
    exact ⟨e1, e2, e3⟩

theorem grant_other {j c : Nat} (r : GrantRec) (s : State) {i b : Nat} (h : ctIx i b ≠ ctIx j c) :
    let t := grant j c r s
    t.gseqOf i b = s.gseqOf i b ∧ t.heldOf i b = s.heldOf i b ∧ t.unackOf i b = s.unackOf i b := by
  have hv := grant_vat j c r s
  dsimp only
  unfold State.gseqOf State.heldOf State.unackOf
  split at hv <;> rw [hv] <;> simp [SMap.get_set, SMap.find_put, h]

theorem grantRoom_congr {s t : State} (hr : t.regs = s.regs) {j c : Nat} (hg : t.gseqOf j c = s.gseqOf j c)
    (ha : t.vat.gack = s.vat.gack) : t.grantRoom j c = s.grantRoom j c := by
  simp only [State.grantRoom, State.ctGqpn, State.ctK, State.gackOf, State.regF, reg_of_regs hr, hg, ha]
  rfl

theorem grantAll_spec (j : Nat) (r : GrantRec) (cs : BitVec 512) (s : State) (c : Nat) :
    let t := grantAll j cs r s
    (cs.getLsbD c = true → Granted j (s.keyed j r) r c s t) ∧
      (cs.getLsbD c = false → t.gseqOf j c = s.gseqOf j c ∧ t.heldOf j c = s.heldOf j c ∧ t.unackOf j c = s.unackOf j c) := by
  have key : ∀ (l : List Nat), l.Nodup → (∀ x ∈ l, x < 512) → ∀ t : State,
      let u := forAll l (fun c t => grant j c r t) t
      (c ∈ l → Granted j (t.keyed j r) r c t u) ∧
      (c ∉ l → u.gseqOf j c = t.gseqOf j c ∧ u.heldOf j c = t.heldOf j c ∧ u.unackOf j c = t.unackOf j c) := by
    intro l
    induction l with
    | nil => intro _ _ t; exact ⟨by simp, fun _ => ⟨rfl, rfl, rfl⟩⟩
    | cons a l ih =>
      intro hn hl t
      have ihh := ih (List.nodup_cons.1 hn).2 (fun x hx => hl x (List.mem_cons_of_mem _ hx)) (grant j a r t)
      obtain ⟨i1, i2⟩ := ihh
      have hr := grant_regs j a r t
      have hs := grant_same j a r t
      by_cases hac : c = a
      · subst hac
        have hnot := (List.nodup_cons.1 hn).1
        obtain ⟨e1, e2, e3⟩ := i2 hnot
        refine ⟨fun _ => ?_, fun h => absurd (List.mem_cons_self ..) h⟩
        have g := grant_self j c r t
        dsimp only at g e1 e2 e3 ⊢
        unfold Granted
        refine ⟨fun h => ?_, fun h => ?_⟩
        · obtain ⟨a1, a2, a3⟩ := g.1 h
          exact ⟨e1.trans a1, e2.trans a2, e3.trans a3⟩
        · obtain ⟨a1, a2, a3⟩ := g.2 h
          exact ⟨e1.trans a1, e2.trans a2, e3.trans a3⟩
      · have hk : ctIx j c ≠ ctIx j a := by unfold ctIx; omega
        obtain ⟨o1, o2, o3⟩ := grant_other r t hk
        have hroom := grantRoom_congr hr o1 hs.2.2.2.2
        have hkey := winKey_congr hr hs.2.2.2.1 j r
        refine ⟨fun h => ?_, fun h => ?_⟩
        · have := i1 ((List.mem_cons.1 h).resolve_left hac)
          unfold Granted at this ⊢
          rw [hroom, o1, o2, o3, hkey] at this
          exact this
        · obtain ⟨b1, b2, b3⟩ := i2 (fun x => h (List.mem_cons_of_mem _ x))
          exact ⟨b1.trans o1, b2.trans o2, b3.trans o3⟩
  have hm : c ∈ setIdx cs ↔ cs.getLsbD c = true := by
    simp only [setIdx, List.mem_filter, List.mem_range]
    refine ⟨fun h => h.2, fun h => ⟨?_, h⟩⟩
    by_cases hc : c < 512
    · exact hc
    · rw [BitVec.getLsbD_of_ge _ _ (by omega)] at h; exact absurd h (by decide)
  have := key (setIdx cs) (List.nodup_range.sublist List.filter_sublist) (fun x hx => List.mem_range.1 (List.mem_filter.1 hx).1) s
  refine ⟨fun h => this.1 (hm.2 h), fun h => this.2 (fun x => ?_)⟩
  rw [hm.1 x] at h; exact absurd h (by decide)

theorem grant_sch (j c : Nat) (r : GrantRec) (s : State) : (grant j c r s).sch = s.sch :=
  (grant_k j c r s).only .sch (by decide)

theorem grantAll_sch (j : Nat) (cs : BitVec 512) (r : GrantRec) (s : State) : (grantAll j cs r s).sch = s.sch :=
  (grantAll_k j cs r s).only .sch (by decide)

/-- The release of held records: those the ring has room for are written, in order. -/
theorem grantDrain_spec (j c : Nat) : ∀ (l : List GrantRec) (s : State), ∃ n, n ≤ l.length ∧
    (grantDrain j c l s).heldOf j c = l.drop n ∧
    (∃ rs, (grantDrain j c l s).unackOf j c = s.unackOf j c ++ rs ∧
      rs.map (fun x => (x.2.ream, x.2.kind, x.2.round, x.2.efirst, x.2.ecount)) =
        (l.take n).map (fun x => (x.ream, x.kind, x.round, x.efirst, x.ecount))) ∧
    (grantDrain j c l s).gseqOf j c = s.gseqOf j c + BitVec.ofNat 32 n ∧
    (n < l.length → (grantDrain j c l s).grantRoom j c = false) := by
  intro l
  induction l with
  | nil =>
    intro s
    refine ⟨0, Nat.le_refl _, ?_, ⟨[], ?_, rfl⟩, ?_, fun h => absurd h (by simp)⟩
    · simp [grantDrain, State.heldOf, SMap.find_erase]
    · simp [grantDrain, State.unackOf]
    · simp [grantDrain, State.gseqOf]
  | cons r l ih =>
    intro s
    unfold grantDrain
    split
    · obtain ⟨n, h0, h1, ⟨rs, h2, h3⟩, h4, h5⟩ := ih (writeGrant j c r s)
      refine ⟨n + 1, by simp only [List.length_cons]; omega, h1, ⟨(s.gseqOf j c + 1, s.keyed j r) :: rs, ?_, ?_⟩, ?_, fun h => h5 (by simp only [List.length_cons] at h; omega)⟩
      · rw [h2]
        have : (writeGrant j c r s).unackOf j c = s.unackOf j c ++ [(s.gseqOf j c + 1, s.keyed j r)] := by
          simp only [State.unackOf, writeGrant_vat, SMap.find_put, if_true, Option.getD]
        rw [this, List.append_assoc]; rfl
      · simp only [List.map_cons, h3, List.take_succ_cons]; rfl
      · rw [h4]
        have : (writeGrant j c r s).gseqOf j c = s.gseqOf j c + 1 := by
          simp only [State.gseqOf, writeGrant_vat, SMap.get_set, if_true]
        rw [this, BitVec.ofNat_add, BitVec.add_assoc, BitVec.add_comm (BitVec.ofNat 32 n)]; rfl
    · rename_i hr
      refine ⟨0, Nat.zero_le _, ?_, ⟨[], ?_, rfl⟩, ?_, fun _ => ?_⟩
      · simp [State.heldOf]
      · simp [State.unackOf]
      · simp [State.gseqOf]
      · have : (s.updVat fun v => { v with heldG := SMap.put (ctIx j c) (r :: l) v.heldG }).grantRoom j c = s.grantRoom j c :=
          grantRoom_congr rfl rfl rfl
        rw [this]; simpa using hr

/-! ## Waves -/

theorem collectEval_vat (j h : Nat) (s : State) :
    (collectEval j h s).vat = s.vat ∨ ∃ w, s.wave? j h = some w ∧
      (collectEval j h s).vat = { s.vat with waves := SMap.put (waveKey j h) { w with wcount := popc w.cset } s.vat.waves } := by
  unfold collectEval
  split
  · rename_i w e hw _
    split
    · right
      refine ⟨w, hw, ?_⟩
      dsimp only
      have hs : ∀ f, (updStats j w.ream f (setWork e.id .finished (putWave j h { w with wcount := popc w.cset } s))).vat =
          { s.vat with waves := SMap.put (waveKey j h) { w with wcount := popc w.cset } s.vat.waves } := by
        intro f
        rw [(updStats_k ..).only .vat (by decide), (setWork_k ..).only .vat (by decide)]; rfl
      split
      · rw [(raiseEv_k ..).only .vat (by decide), hs]
      · rw [hs]
    · left; rfl
  · left; rfl

/-- Evaluating a COLLECT changes nothing of the vat but a wave's count. -/
theorem collectEval_same (j h : Nat) (s : State) :
    let t := collectEval j h s
    t.vat.slots = s.vat.slots ∧ t.vat.acc = s.vat.acc ∧ t.vat.tags = s.vat.tags ∧ t.vat.gseq = s.vat.gseq ∧
      t.vat.heldG = s.vat.heldG ∧ t.vat.unack = s.vat.unack ∧ t.vat.gack = s.vat.gack ∧ t.vat.msgs = s.vat.msgs := by
  rcases collectEval_vat j h s with e | ⟨w, _, e⟩ <;> (dsimp only; rw [e]; exact ⟨rfl, rfl, rfl, rfl, rfl, rfl, rfl, rfl⟩)

theorem collectEval_wave (j h i g : Nat) (s : State) :
    (collectEval j h s).wave? i g = s.wave? i g ∨
      ∃ w n, s.wave? j h = some w ∧ waveKey i g = waveKey j h ∧ (collectEval j h s).wave? i g = some { w with wcount := n } := by
  rcases collectEval_vat j h s with e | ⟨w, hw, e⟩
  · left; unfold State.wave?; rw [e]
  · unfold State.wave? at hw ⊢
    rw [e, SMap.find_put]
    split
    · rename_i hk; exact .inr ⟨w, _, hw, hk, rfl⟩
    · left; rfl

theorem collectEval_cset (j h i g : Nat) (s : State) :
    ((collectEval j h s).wave? i g).map Wave.cset = (s.wave? i g).map Wave.cset := by
  rcases collectEval_wave j h i g s with e | ⟨w, n, hw, hk, e⟩
  · rw [e]
  · have : s.wave? i g = s.wave? j h := by unfold State.wave?; rw [hk]
    rw [e, this, hw]; rfl

theorem newTag_tag (w i : Nat) (s : State) :
    (newTag w s).winTag i = if i = w then (Config.free s.freeCtr).toNat % 2 ^ 18 else s.winTag i := by
  simp only [newTag, State.winTag, State.updVat_vat, SMap.get_set]
  split <;> rfl

theorem clearSlots_slot {d n : Nat} {ns : List Nat} {s : State} (hn : n ∈ ns) (h : n < 2048) :
    (clearSlots d ns s).vslot? d n = (s.vslot? d n).map fun x => { x with bitmap := 0, poisoned := false } := by
  simp only [clearSlots, State.vslot?, State.updVat_vat, slotKey]
  induction s.vat.slots with
  | nil => rfl
  | cons a l ih =>
    obtain ⟨k, v⟩ := a
    simp only [List.map_cons]
    by_cases hk : 2048 * d + n = k
    · subst hk
      have h1 : (2048 * d + n) / 2048 = d := by omega
      have h2 : (2048 * d + n) % 2048 = n := by omega
      simp [SMap.find, h1, h2, hn]
    · split <;> simpa [SMap.find, hk] using ih

theorem clearSlots_acc {d n i : Nat} {ns : List Nat} {s : State} (hn : n ∈ ns) (h : n < 2048) (hi : i < 8192) :
    (clearSlots d ns s).accAt d n i = 0 := by
  simp only [clearSlots, State.accAt, State.updVat_vat]
  rw [SMap.get_filter_key (fun _ => 0) (fun k => !(decide (k / 8192 / 2048 = d) && ns.contains (k / 8192 % 2048)))]
  have h1 : accKey d n i / 8192 / 2048 = d := by unfold accKey slotKey; omega
  have h2 : accKey d n i / 8192 % 2048 = n := by unfold accKey slotKey; omega
  simp [h1, h2, hn]

/-! ## Resends -/

theorem find_some_mem {V : Type} {m : SMap V} {k : Nat} {v : V} (h : SMap.find m k = some v) : (k, v) ∈ m := by
  induction m with
  | nil => exact absurd h (by simp [SMap.find])
  | cons a l ih =>
    obtain ⟨a, b⟩ := a
    unfold SMap.find at h
    split at h
    · cases h; rename_i hk; subst hk; exact List.mem_cons_self ..
    · exact List.mem_cons_of_mem _ (ih h)

/-- A collecting wave of the ream is among those that a resend clears. -/
theorem mem_collecting {s : State} {j h r : Nat} {w : Wave} (hw : s.wave? j h = some w) (hh : h < 4096) (hr : w.ream = r)
    (hc : (s.collectOf j h).isSome = true) : h ∈ s.collecting j r := by
  unfold State.collecting
  simp only [List.mem_map, List.mem_filter, Bool.and_eq_true, decide_eq_true_eq]
  refine ⟨(waveKey j h, w), ⟨find_some_mem hw, ⟨?_, hr⟩, ?_⟩, ?_⟩
  · unfold waveKey; omega
  · have : waveKey j h % 4096 = h := by unfold waveKey; omega
    rw [this]; exact hc
  · unfold waveKey; omega

/-- A slot and accumulators cleared. -/
structure SlotClear (d n : Nat) (s t : State) : Prop where
  slot : t.vslot? d n = (s.vslot? d n).map fun x => { x with bitmap := 0, poisoned := false }
  acc : ∀ i, i < 8192 → t.accAt d n i = 0

theorem clearSlots_keeps (d n d' : Nat) (ns : List Nat) (s : State) (hn : n < 2048) :
    ((clearSlots d' ns s).vslot? d n = s.vslot? d n ∨
      (clearSlots d' ns s).vslot? d n = (s.vslot? d n).map fun x => { x with bitmap := 0, poisoned := false }) ∧
    ∀ i, i < 8192 → (clearSlots d' ns s).accAt d n i = s.accAt d n i ∨ (clearSlots d' ns s).accAt d n i = 0 := by
  by_cases hm : d = d' ∧ n ∈ ns
  · obtain ⟨rfl, hm⟩ := hm
    exact ⟨.inr (clearSlots_slot hm hn), fun i hi => .inr (clearSlots_acc hm hn hi)⟩
  · refine ⟨.inl ?_, fun i hi => .inl ?_⟩
    · simp only [clearSlots, State.vslot?, State.updVat_vat]
      induction s.vat.slots with
      | nil => rfl
      | cons a l ih =>
        obtain ⟨k, v⟩ := a
        simp only [List.map_cons]
        by_cases hk : slotKey d n = k
        · subst hk
          have h1 : slotKey d n / 2048 = d := by unfold slotKey; omega
          have h2 : slotKey d n % 2048 = n := by unfold slotKey; omega
          have : ¬ (decide (d = d') && ns.contains n) = true := by simpa using fun a b => hm ⟨a, b⟩
          simp only [h1, h2, this, SMap.find, Bool.false_eq_true, if_false, if_true]
        · split <;> simpa [SMap.find, hk] using ih
    · simp only [clearSlots, State.accAt, State.updVat_vat]
      rw [SMap.get_filter_key (fun _ => 0) (fun k => !(decide (k / 8192 / 2048 = d') && ns.contains (k / 8192 % 2048)))]
      have h1 : accKey d n i / 8192 / 2048 = d := by unfold accKey slotKey; omega
      have h2 : accKey d n i / 8192 % 2048 = n := by unfold accKey slotKey; omega
      have : (!(decide (d = d') && ns.contains n)) = true := by
        have : (decide (d = d') && ns.contains n) = false := by simpa using fun a b => hm ⟨a, b⟩
        rw [this]; rfl
      simp only [h1, h2, this, if_true]

theorem resendAsk_same (j h : Nat) (s : State) :
    (resendAsk j h s).vat.slots = s.vat.slots ∧ (resendAsk j h s).vat.acc = s.vat.acc ∧
      (resendAsk j h s).vat.tags = s.vat.tags ∧ (resendAsk j h s).vat.waves = s.vat.waves := by
  unfold resendAsk
  split
  · exact ⟨rfl, rfl, rfl, rfl⟩
  · rename_i w _
    have g := grantAll_same j w.cset (s.waveRec j w 2) s
    exact ⟨g.2.1, g.2.2.1, g.2.2.2.1, g.1⟩

/-- A resend clears the slots of every collecting wave, and draws a tag for the ream's window. -/
theorem resendReam_clears {j r : Nat} {s : State} {h : Nat} {w : Wave} {n : Nat} (hh : h ∈ s.collecting j r)
    (hw : s.wave? j h = some w) (hn : n ∈ w.slots) (hl : n < 2048) : SlotClear w.die n s (resendReam j r s) := by
  unfold resendReam
  dsimp only
  generalize hs1 : retag j r s = s1
  have v1 : s1.vat.slots = s.vat.slots ∧ s1.vat.acc = s.vat.acc ∧ s1.vat.waves = s.vat.waves := by
    rw [← hs1]; unfold retag; split <;> exact ⟨rfl, rfl, rfl⟩
  have gN : ∀ a t, t.wave? j a = none → resendClear j a t = t := fun a t e => by unfold resendClear; rw [e]
  have gS : ∀ a t x, t.wave? j a = some x → resendClear j a t =
      clearSlots x.die x.slots (putWave j a { x with content := .int, resends := x.resends + 1 } t) :=
    fun a t x e => by unfold resendClear; rw [e]
  have loop : ∀ (l : List Nat) (t : State), (∃ x, t.wave? j h = some x ∧ x.die = w.die ∧ x.slots = w.slots) →
      (t.vslot? w.die n = s.vslot? w.die n ∨ t.vslot? w.die n = (s.vslot? w.die n).map fun x => { x with bitmap := 0, poisoned := false }) →
      (h ∈ l ∨ SlotClear w.die n s t) → SlotClear w.die n s (forAll l (fun h t => resendClear j h t) t) := by
    intro l
    induction l with
    | nil => intro t _ _ h3; exact h3.resolve_left (by simp)
    | cons a l ih =>
      intro t h1 h2 h3
      obtain ⟨x, hx, hxd, hxs⟩ := h1
      show SlotClear w.die n s (forAll l (fun h t => resendClear j h t) (resendClear j a t))
      cases ha : t.wave? j a with
      | none =>
        rw [gN a t ha]
        refine ih t ⟨x, hx, hxd, hxs⟩ h2 ?_
        rcases h3 with h3 | h3
        · rcases List.mem_cons.1 h3 with e | e
          · subst e; rw [hx] at ha; exact absurd ha (by simp)
          · exact .inl e
        · exact .inr h3
      | some y =>
        rw [gS a t y ha]
        have hp : ∀ z, (putWave j a z t).vslot? w.die n = t.vslot? w.die n := fun _ => rfl
        have hq : ∀ z i, (putWave j a z t).accAt w.die n i = t.accAt w.die n i := fun _ _ => rfl
        have hc := clearSlots_keeps w.die n y.die y.slots (putWave j a { y with content := .int, resends := y.resends + 1 } t) hl
        rw [hp] at hc
        refine ih _ ?_ ?_ ?_
        · by_cases hk : waveKey j h = waveKey j a
          · have : t.wave? j h = t.wave? j a := by unfold State.wave?; rw [hk]
            rw [hx, ha] at this; cases this
            refine ⟨{ x with content := .int, resends := x.resends + 1 }, ?_, hxd, hxs⟩
            unfold State.wave? clearSlots putWave; simp only [State.updVat_vat, SMap.find_put, hk, if_true]
          · refine ⟨x, ?_, hxd, hxs⟩
            unfold State.wave? clearSlots putWave; simp only [State.updVat_vat, SMap.find_put, hk, if_false]; exact hx
        · rcases hc.1 with e | e
          · rw [e]; exact h2
          · right; rw [e]
            rcases h2 with h2 | h2 <;> rw [h2]
            simp only [Option.map_map, Function.comp_def]
        · by_cases hah : a = h
          · right
            subst hah
            rw [hx] at ha; cases ha
            rw [hxd, hxs]
            refine ⟨?_, fun i hi => clearSlots_acc hn hl hi⟩
            rw [clearSlots_slot hn hl, hp]
            rcases h2 with h2 | h2 <;> rw [h2]
            simp only [Option.map_map, Function.comp_def]
          · rcases h3 with h3 | h3
            · left; exact (List.mem_cons.1 h3).resolve_left (fun e => hah e.symm)
            · right
              refine ⟨?_, fun i hi => ?_⟩
              · rcases hc.1 with e | e
                · rw [e]; exact h3.slot
                · rw [e, h3.slot]; simp only [Option.map_map, Function.comp_def]
              · rcases hc.2 i hi with e | e
                · rw [e, hq]; exact h3.acc i hi
                · exact e
  have hv : s1.vslot? w.die n = s.vslot? w.die n := by unfold State.vslot?; rw [v1.1]
  have L := loop (s.collecting j r) s1 ⟨w, by unfold State.wave? at hw ⊢; rw [v1.2.2, hw], rfl, rfl⟩ (.inl hv) (.inl hh)
  generalize forAll (s.collecting j r) (fun h t => resendClear j h t) s1 = s2 at L ⊢
  have G := forAll_inv (P := fun t => t.vat.slots = s2.vat.slots ∧ t.vat.acc = s2.vat.acc)
    (fun h t ht => by have g := resendAsk_same j h t; exact ⟨g.1.trans ht.1, g.2.1.trans ht.2⟩) (s.collecting j r) s2 ⟨rfl, rfl⟩
  have R := fun d u => (raiseEv_k (pgVAT d) 0x814 5 u).only .vat (by decide)
  refine ⟨?_, fun i hi => ?_⟩
  · have := L.slot
    unfold State.vslot? at this ⊢
    rw [R, G.1, this]
  · have := L.acc i hi
    unfold State.accAt at this ⊢
    rw [R, G.2, this]

theorem resendReam_tag {j r : Nat} {s : State} {w : Nat} (hw : s.reduceWin j r = some w) (i : Nat) :
    (resendReam j r s).winTag i = if i = w then (Config.free s.freeCtr).toNat % 2 ^ 18 else s.winTag i := by
  unfold resendReam
  dsimp only
  have hr : retag j r s = newTag w s := by unfold retag; rw [hw]
  rw [hr]
  have G := forAll_inv (P := fun t => t.vat.tags = (newTag w s).vat.tags) (f := fun h t => resendClear j h t)
    (fun a t ht => by unfold resendClear; split <;> exact ht) (s.collecting j r) (newTag w s) rfl
  have H := forAll_inv (P := fun t => t.vat.tags = (newTag w s).vat.tags)
    (fun h t ht => (resendAsk_same j h t).2.2.1.trans ht) (s.collecting j r) _ G
  have R := fun d u => (raiseEv_k (pgVAT d) 0x814 5 u).only .vat (by decide)
  have T := newTag_tag w i s
  unfold State.winTag at T ⊢
  rw [R, H, T]

/-- A resend keeps every wave's contributor set. -/
theorem resendReam_cset (j r i h : Nat) (s : State) :
    ((resendReam j r s).wave? i h).map Wave.cset = (s.wave? i h).map Wave.cset := by
  unfold resendReam
  dsimp only
  have G := forAll_inv (P := fun t => (t.wave? i h).map Wave.cset = (s.wave? i h).map Wave.cset)
    (f := fun h t => resendClear j h t)
    (fun a t ht => by
      unfold resendClear
      split
      · exact ht
      · rename_i w hw
        unfold State.wave? clearSlots putWave at *
        simp only [State.updVat_vat, SMap.find_put]
        split
        · rename_i hk; rw [hk] at ht ⊢; rw [hw] at ht; exact ht
        · exact ht) (s.collecting j r) (retag j r s)
    (by unfold retag; split <;> rfl)
  have H := forAll_inv (P := fun t => (t.wave? i h).map Wave.cset = (s.wave? i h).map Wave.cset)
    (fun a t ht => by
      have : (resendAsk j a t).wave? i h = t.wave? i h := by unfold State.wave?; rw [(resendAsk_same j a t).2.2.2]
      rw [this]; exact ht) (s.collecting j r) _ G
  have R := fun d u => (raiseEv_k (pgVAT d) 0x814 5 u).only .vat (by decide)
  unfold State.wave? at H ⊢
  rw [R, H]

/-- A draw has 24 bits (03 R68). -/
theorem draw24_lt (ss : DWord) (e : Nat) : draw24 ss e < 2 ^ 24 := by
  unfold draw24
  have := (mix (ss ^^^ BitVec.ofNat 64 e)).isLt
  omega

end Sys2Proof.Machine
end

