-- ==== Sys2Proof/Laws/Rings.lean ====
section
/-! SUPPORT. What the steps of the shard rings take, keep and end. -/
namespace Sys2Proof.Machine

open Sys2Proof

/-- A line die takes an operation that its row serves. -/
theorem lineIssue_run {p : Nat} {e : Entry} {serves : Entry → Bool} {run : Entry → State → State} {s : State}
   (h : s.pick 3 p (isLineOp p) = some e) (hs : serves e = true) : lineIssue p serves run s = run e (issue 3 p e s) := by
  unfold lineIssue
  rw [h]; dsimp only
  rw [hs, if_pos rfl]

/-- The chunk-wave of an operation depends on the group table alone. -/
theorem cwOf_of {s t : State} (hr : t.regs = s.regs) (d : Desc) : t.cwOf d = s.cwOf d := by
  unfold State.cwOf State.grpOfChan State.gtCtl State.reg; rw [hr]

/-- Issuing leaves the unit's progress. -/
theorem issue_workOf {c u : Nat} {e : Entry} {s : State} (h : s.entry? e.id = some e) : (issue c u e s).workOf e.id = some e.work := by
  unfold State.workOf; rw [issue_entry, if_pos rfl, h]; rfl

theorem workOf_of_sch {s t : State} (h : t.sch = s.sch) (i : Nat) : t.workOf i = s.workOf i := by
  unfold State.workOf; rw [entry_of_sch h]

/-- A running entry finishes, and no other moves. -/
theorem served_finish {id : Nat} {s t : State} (hst : t.stOf id = some .active) (hw : t.workOf id = some .running)
    (ho : ∀ i, i ≠ id → t.entry? i = s.entry? i) : Served id .finished s (finish id t) := by
  rw [finish_run hst hw]; exact served_setWork hst ho

/-- A unit that serves an entry after steps that moved no other one. -/
theorem served_trans {id : Nat} {w : Work} {s u t : State} (h : Served id w u t) (ho : ∀ i, i ≠ id → u.entry? i = s.entry? i) : Served id w s t :=
  ⟨h.1, h.2.1, fun i hi => (h.2.2 i hi).trans (ho i hi)⟩

/-- Transmitting keeps a copy whose timer does not run. -/
theorem transmitCw_tx {k : Nat} {t : TxCw} {s : State} (h : s.tx? k = some t) (ht : t.timer = .none) : (transmitCw k s).tx? k = some t := by
  unfold transmitCw
  rw [h]; dsimp only
  have h1 : ∀ u : State, (queueSegs k u).ring = u.ring := fun u => (queueSegs_k k u).only .ring (by decide)
  have h2 : ∀ u : State, (announceCw k u).ring = u.ring := fun u => (announceCw_k k u).only .ring (by decide)
  unfold State.tx?
  rw [h1, h2]
  show SMap.find (SMap.put _ _ _) _ = _
  rw [SMap.find_put_self, ← ht]

/-- A sealed copy is kept in felt. -/
theorem sealCopy_tx {k : Nat} {sheets segs : List (List Byte)} {s u : State} (h : sealCw k sheets s = some (segs, u)) :
   ∃ t, sealCopy k sheets s = some t ∧ t.sch = s.sch ∧ t.tx? k = some { port := (s.cwCtx k).port, sheets := sheets, segs := segs, nsheet := sheets.length, tbytes := (sheets.foldl (fun a x => a + x.length) 0), receipt := decide (s.grpM (cwGrp k) ≤ 1), ack := decide (s.grpM (cwGrp k) ≤ 1), credit := decide (s.grpM (cwGrp k) ≤ 1) } := by
  have hk : ∀ t, sealCopy k sheets s = some t → t.sch = s.sch := by
    intro t ht
    have := sealCopy_k k sheets s
    rw [ht] at this
    exact (this.on t rfl).only .sch (by decide)
  unfold sealCopy at hk ⊢
  dsimp only at hk ⊢
  rw [h] at hk ⊢
  dsimp only at hk ⊢
  refine ⟨_, rfl, hk _ rfl, ?_⟩
  split
  · show SMap.find (SMap.put _ _ _) _ = _
    rw [SMap.find_put_self]
  · have hb : ∀ u : State, (bump pgRING 0x820 1 u).ring = u.ring := fun u => (bump_k pgRING 0x820 1 u).only .ring (by decide)
    have h3 : ∀ (t : TxCw) (v : State), (bump pgRING 0x820 1 (putTx k t v)).tx? k = some t := by
      intro t v; unfold State.tx?; rw [hb]; show SMap.find (SMap.put _ _ _) _ = _; rw [SMap.find_put_self]
    exact transmitCw_tx (h3 _ u) rfl

/-- A SEND whose sheets pass keeps the sealed copy and finishes. -/
theorem sendSheets_run {e : Entry} {k : Nat} {sheets segs : List (List Byte)} {s u : State} (h : sealCw k sheets s = some (segs, u))
   (hst : s.stOf e.id = some .active) (hw : s.workOf e.id = some .running) :
   Served e.id .finished s (sendSheets e k sheets s) ∧ (sendSheets e k sheets s).tx? k = some { port := (s.cwCtx k).port, sheets := sheets, segs := segs, nsheet := sheets.length, tbytes := (sheets.foldl (fun a x => a + x.length) 0), receipt := decide (s.grpM (cwGrp k) ≤ 1), ack := decide (s.grpM (cwGrp k) ≤ 1), credit := decide (s.grpM (cwGrp k) ≤ 1) } := by
  obtain ⟨t, h1, h2, h3⟩ := sealCopy_tx h
  unfold sendSheets
  rw [h1]; dsimp only
  have h4 : ∀ f, (updStats e.d.job.val e.d.ream f t).sch = s.sch := fun f => ((updStats_k _ _ f t).only .sch (by decide)).trans h2
  refine ⟨served_finish (by rw [stOf_of_sch (h4 _)]; exact hst) (by rw [workOf_of_sch (h4 _)]; exact hw) fun i _ => entry_of_sch (h4 _) i, ?_⟩
  unfold State.tx?
  rw [show ∀ v : State, (finish e.id v).ring = v.ring from fun v => (finish_k e.id v).only .ring (by decide)]
  rw [show ∀ f, (updStats e.d.job.val e.d.ream f t).ring = t.ring from fun f => (updStats_k _ _ f t).only .ring (by decide)]
  exact h3

theorem updEntry_workOf {id : Nat} {f : Entry → Entry} (hf : ∀ e, (f e).id = e.id ∧ (f e).work = e.work) (i : Nat) (s : State) :
    (updEntry id f s).workOf i = s.workOf i := by
  unfold State.workOf
  rw [updEntry_entry id i f (fun e => (hf e).1)]
  split
  · cases s.entry? i with
    | none => rfl
    | some x => simp [(hf x).2]
  · rfl

theorem countP_not {α : Type} (p : α → Bool) (l : List α) : l.countP (fun a => !p a) = l.length - (l.filter p).length := by
  have := List.length_eq_countP_add_countP p (l := l)
  rw [← List.countP_eq_length_filter]
  simp only [Bool.not_eq_true] at this
  have h2 : l.countP (fun a => !p a) = l.countP (fun a => decide (p a = false)) := by
    congr 1; funext a; cases p a <;> rfl
  omega

theorem copyQp_of {s t : State} (h : t.fab = s.fab) (j i : Nat) : t.copyQp? j i = s.copyQp? j i := by unfold State.copyQp?; rw [h]

/-- A record of a group that carries, at its epoch, is acted on. -/
theorem ringGuard_run {p g : Nat} {r : RingRec} {f : Nat → State → State} {s : State} (h : Carries g r s) :
    ringGuard p r.jobtag r.chan.toNat r.epoch f s = f g s := by
  unfold ringGuard
  rw [h.grp]; dsimp only
  rw [h.live, if_neg (by decide), if_neg (by simpa using h.epoch)]

/-- A copy that is put is found. -/
theorem putTx_tx (k : Nat) (x : TxCw) (s : State) : (putTx k x s).tx? k = some x := by
  show SMap.find (SMap.put _ _ _) _ = _; rw [SMap.find_put_self]

/-- What a record back from the receiver does to its copy. -/
theorem recBack_tx {f : TxCw → TxCw} {g : Nat} {r : RingRec} {x : TxCw} {s : State} (h : s.tx? (recKey g r) = some x) :
   recBack f g r s = txSettle (recKey g r) (putTx (recKey g r) { { f x with receipt := true } with timer := if (f x).ack && (f x).credit then .none else if x.receipt then (f x).timer else .probe } s) := by
  unfold recBack; dsimp only; rw [h]

/-- An update of one line port. -/
theorem updPort_port (p q : Nat) (f : LinePort → LinePort) (s : State) (h : p < 2) : (updPort p f s).port q = if q = p then f (s.port q) else s.port q := by
  by_cases hq : q < 2
  · exact vget_vmod s.line.ports p q f {} hq
  · have e : ¬ q = p := by omega
    rw [if_neg e]
    unfold updPort State.port State.updLine
    simp [Vector.getD, hq]

/-! ## The group table -/

theorem updGrp_grp (g i : Nat) (f : Grp → Grp) (s : State) : (updGrp g f s).grp i = if i = g then f (s.grp g) else s.grp i := by
  unfold updGrp State.grp
  exact SMap.get_modify (V := Grp) ..

/-- An update of a line port, read at a port that exists. -/
theorem updPort_at (p q : Nat) (f : LinePort → LinePort) (s : State) (h : q < 2) :
    (updPort p f s).port q = if q = p then f (s.port q) else s.port q := vget_vmod s.line.ports p q f {} h

theorem find_filter_key {V : Type} (p : Nat → Bool) (m : SMap V) (k : Nat) : SMap.find (m.filter fun a => p a.1) k = if p k then SMap.find m k else none := by
  induction m with
  | nil => simp [SMap.find]
  | cons a m ih =>
    obtain ⟨a, v⟩ := a
    simp only [List.filter]
    cases hp : p a <;> simp only [SMap.find] <;> by_cases hk : k = a
    · subst hk; simp [ih, hp]
    · simp [ih, hk]
    · subst hk; simp [hp]
    · simp [ih, hk]

end Sys2Proof.Machine
end

