-- ==== Sys2Proof/Laws/Streams.lean ====
section
/-! SUPPORT. Frames of the streams and outer rounds: what changing an end of a stream, a port or a register leaves. -/
namespace Sys2Proof.Machine

open Sys2Proof

/-- The ends of streams after one is changed. -/
theorem updSc_sc (g i : Nat) (f : ScEnd → ScEnd) (s : State) : (updSc g f s).sc i = if i = g then f (s.sc g) else s.sc i := by
  unfold updSc State.sc
  exact SMap.get_modify (V := ScEnd) ..

/-- The ends are part of the outer block. -/
theorem sc_of_outer {s t : State} (h : t.outer = s.outer) (i : Nat) : t.sc i = s.sc i := by unfold State.sc; rw [h]

/-- Changing an end changes the outer block alone. -/
theorem updSc_only (i : Nat) (f : ScEnd → ScEnd) (s : State) : OnlyIn [.outer] s (updSc i f s) := fun q hq => (updSc_k i f s).only q hq

/-- Changing a port changes the line alone. -/
theorem updPort_only (p : Nat) (f : LinePort → LinePort) (s : State) : OnlyIn [.line] s (updPort p f s) := fun q hq => (updPort_k p f s).only q hq

/-- Storing a register changes the registers alone. -/
theorem setReg_only (p o ix : Nat) (v : Word) (s : State) : OnlyIn [.regs] s (s.setReg p o v ix) := fun q hq => by cases q <;> first | rfl | exact ⟨rfl, rfl⟩ | exact absurd (by decide) hq

/-- A refused control block shows its reason. -/
theorem outerRefused_reason (j : Nat) (s : State) : SMap.get (fun _ => 0) (outerRefused j s).outer.reason j = s.ocbReason j := by
  unfold outerRefused; exact SMap.get_set_self ..

/-- Transmitting a message changes the line alone. -/
theorem scTransmit_only (i : Nat) (m : StrmMsg) (s : State) : OnlyIn [.line] s (scTransmit i m s) := fun q hq => (scTransmit_k i m s).only q hq

/-- A record goes out on the line alone. -/
theorem scRec_only (i k : Nat) (r : Word) (c t : Nat) (s : State) : OnlyIn [.line] s (scRec i k r c t s) := fun q hq => (scRec_k i k r c t s).only q hq

/-- A passed sheet of an EXPAND leaves the list of damaged sheets. -/
theorem passSheet_dmg (e : Entry) (k i : Nat) (r : RawSheet) (s : State) (h : e.d.destWave = true) : (passSheet e k i r s).sheet = s.sheet := by
  unfold passSheet
  dsimp only
  rw [h, if_pos rfl]
  have h1 : ∀ (j h i : Nat) (r : RawSheet) (u : State), (enterSheet j h i r u).sheet = u.sheet := fun j h i r u => (enterSheet_k j h i r u).only .sheet (by decide)
  have h2 : ∀ u, (notePassed k i u).sheet = u.sheet := fun u => (notePassed_k k i u).only .sheet (by decide)
  have h3 : ∀ a b c u, (bump a b c u).sheet = u.sheet := fun a b c u => (bump_k a b c u).only .sheet (by decide)
  rw [h1, h2, h3]

end Sys2Proof.Machine
end

