-- ==== Sys2Proof/WellFormed.lean ====
section
/-! DEFINITION. Which commands are well formed: the operands that the types of Sys2Proof/Syntax.lean leave wider than the
spec. A register access names a 32-bit word of its window, a list carries as many items as the table or record it fills, an
address lies in its memory. The meanings answer on every operand, well formed or not: most of these lengths are checks that the
spec gives the gateway itself (a step mark of another size, a headbox write across slots), and those are part of the meaning. -/
namespace Sys2Proof

/-- The offset of a 32-bit register within a window of `n` bytes (18 R440). -/
def wordAt (n off : Nat) : Bool := off % 4 = 0 && decide (off < n)

/-- What a general-core task does: addresses of 64 bits, and no more than a vector's bytes in one access (05 R135, R138). -/
def actsOk (l : List TaskAct) : Bool :=
  l.all fun
    | .store a bs => decide (a < 2 ^ 64) && decide (1 ≤ bs.length) && decide (bs.length ≤ 512)
    | .load a n => decide (a < 2 ^ 64) && decide (1 ≤ n) && decide (n ≤ 512)
    | .memCe | .memUe _ => true

/-- The actuators of a control loop (11 Table 11.2): 9 rings on 6 engines, 9 lines on 4 bays, 2 lasers on 2 ports, and the
sections of 9 lines at 6 engines. -/
def OptLoop.size : OptLoop → Nat
  | .ringLock | .couplerPhase => 54
  | .fabricPower => 36
  | .lineFreq | .linePower => 4

/-- A chunk-wave's name: an entry of the ring group table or a stream end, a half, a transfer (07 R182, R184; 08 R226). -/
def CwId.wf (c : CwId) : Bool := decide (c.grp < 64 + 256) && decide (c.half < 2) && decide (c.xfer < 32)

/-- A command is well formed. -/
def Instr.wf : Instr → Bool
  | .subCommit _ desc st => desc.length = 64 && actsOk st
  | .taskReturn _ _ st | .taskTrap _ _ _ st | .taskTimeout _ st => actsOk st
  | .contributionWrite _ _ data flips => decide (data.length ≤ 4096) && flips.all fun p => decide (p.1 < 8192)
  | .refetchReplacement cw _ _ => cw.wf
  | .resendTimer cw | .probeTimer cw => cw.wf
  | .gcShmWrite _ _ off _ | .hbmRangeWrite _ _ off _ | .tribWrite _ _ off _ => wordAt 0x1000 off
  | .registerWrite _ off _ | .pairLoWrite _ off _ | .pairHiWrite _ off _ | .pairLoRead _ off | .pairHiRead _ off =>
      wordAt 0x100000 off
  | .controlLoopUpdate l i _ => decide (i < l.size)
  | .lmodSelfTestDone _ lines => lines.length = 9
  | .mccResend f => !f.bytes.isEmpty && decide (f.bytes.length ≤ 65536)
  | .attestMessage _ nonce => nonce.length = 32
  | .scrubStep hbm a _ => decide (a < if hbm then 0x6494000000 else 0xEE6B280000)
  | .hbmImbalWindow _ bytes _ => bytes.length = 96
  | .reconfReady _ _ applied _ => decide (applied.length ≤ 1024)
  | .adoptionSheets _ _ _ _ th m v _ => th.length = m.length && m.length = v.length
  | .mirrorRefresh (.arrive _ _ th m v) => th.length = m.length && m.length = v.length
  | .mirrorRefresh (.cmd ..) | .mirrorRefresh (.buddy ..) => true
  | .claim _ digest => digest.length = 8
  | .bar2ImageWrite _ off bytes => !bytes.isEmpty && decide (off + bytes.length ≤ 0x1000000)
  | .headboxWrite _ off bytes _ => !bytes.isEmpty && decide (off + bytes.length ≤ 0x1000000)
  | _ => true

end Sys2Proof
end

