-- ==== Sys2Proof/Tests/Slice0.lean ====
section
/-! SUPPORT. Tests of the model, and a witness for the hypotheses of each clause of each statement: a concrete state and
operands that meet all of them together. -/
namespace Sys2Proof.Tests

open Sys2Proof Machine

set_option Elab.async false

/-! ## Small states -/

/-- A job entry of the scoreboard for tests: opcode, state, and the rest zero. -/
def desc (opc : Nat) : Desc :=
  { unit := 0, cpl := false, nsig := 0, nwait := 0, trig := 0, job := 0, opcode := opc, seq := 0, release := false,
    claim := false, wave := 0, vslots := 0, ream := 0, wcnt := [0, 0, 0, 0], wval := [0, 0, 0, 0], scnt := [0, 0],
    sinc := [0, 0], trigVal := 0, opArg := 0 }

def entry (opc : Nat) (st : OpSt) : Entry := { id := 0, src := .fn 0, d := desc opc, st := st }

/-- The module on, with one entry in the scoreboard. -/
def withEntry (e : Entry) (s : State := {}) : State := s.updSch fun x => { x with ops := [e], nextId := 1 }

/-- Job 0 is RUNNING and owned by PF0. -/
def running (s : State := {}) : State := s.setJobSt 0 .running

/-- Boot as given. -/
def bootS (b : Boot) : State := ({} : State).updBoot fun _ => b

/-! ## Well-formedness: each check refuses an ill-formed term, and a good one passes -/

theorem test_wf_desc : (Instr.subCommit 0 [0, 0] []).wf = false := by decide
theorem test_wf_desc_ok : (Instr.subCommit 0 (List.replicate 64 0) [.store 0x100 [1], .load 0 4, .memCe]).wf = true := by decide
theorem test_wf_store : (Instr.taskReturn 0 0 [.store (2 ^ 64) [1]]).wf = false := by decide
theorem test_wf_load : (Instr.taskTimeout 0 [.load 0 513]).wf = false := by decide
theorem test_wf_flips : (Instr.contributionWrite 0 none [] [(8192, 1)]).wf = false := by decide
theorem test_wf_grp : (Instr.resendTimer ⟨320, 0, 0, 0⟩).wf = false := by decide
theorem test_wf_half : (Instr.probeTimer ⟨0, 2, 0, 0⟩).wf = false := by decide
theorem test_wf_xfer : (Instr.refetchReplacement ⟨0, 0, 32, 0⟩ 0 []).wf = false := by decide
theorem test_wf_page_off : (Instr.gcShmWrite .root 0 0x1000 0).wf = false := by decide
theorem test_wf_align : (Instr.registerWrite .root 0x102 0).wf = false := by decide
theorem test_wf_align_ok : (Instr.registerWrite .root 0x104 0).wf = true := by decide
theorem test_wf_loop : (Instr.controlLoopUpdate .linePower 4 0).wf = false := by decide
theorem test_wf_lines : (Instr.lmodSelfTestDone 0 [0]).wf = false := by decide
theorem test_wf_mcc : (Instr.mccResend ⟨0, []⟩).wf = false := by decide
theorem test_wf_nonce : (Instr.attestMessage 0 [1]).wf = false := by decide
theorem test_wf_scrub : (Instr.scrubStep true 0x6494000000 .none).wf = false := by decide
theorem test_wf_bytes : (Instr.hbmImbalWindow 0 [1] 0).wf = false := by decide
theorem test_wf_arrays : (Instr.adoptionSheets 0 0 0 0 [1] [] [] 0).wf = false := by decide
theorem test_wf_arrive : (Instr.mirrorRefresh (.arrive 0 0 [1] [] [])).wf = false := by decide
theorem test_wf_digest : (Instr.claim 0 [1]).wf = false := by decide
theorem test_wf_image : (Instr.bar2ImageWrite 0 0x1000000 [1]).wf = false := by decide
theorem test_wf_headbox : (Instr.headboxWrite 0 0 [] false).wf = false := by decide

/-! ## Every step and every command -/

/-- A command waits in front of another, and the step runs it. -/
theorem witness_stepRunsFront : step { State.reset with pending := [.clearAlt .root 0, .inputLoss] } =
    exec (.clearAlt .root 0) { State.reset with pending := [.inputLoss] } := rfl

theorem witness_idle : ({} : State).pending = [] ∧ ({} : State).pageOff (pgTIME 0) = false ∧ loW (({} : State).time.nt + 1) ≠ 0 := by
  decide +kernel

/-- The TIME domain gated. -/
theorem witness_idleOff : (({} : State).updClk fun c => { c with doms := vset c.doms (pgDom (pgTIME 0)) { gated := true } }).pageOff (pgTIME 0) = true := by
  decide +kernel

theorem witness_everyStep : step State.reset = .next (tick State.reset) := rfl

/-- A locked page. -/
def lockedS (p : Nat) (s : State := {}) : State := s.updHdr p fun h => { h with locked := true }

theorem witness_locks : ((lockedS pgSCH).hdr pgSCH).locked = true ∧ step (lockedS pgSCH) = .next (tick (lockedS pgSCH)) := by
  exact ⟨by decide +kernel, rfl⟩

/-! ## Register accesses -/

theorem witness_header : ({} : State).reaches .root 5 = true ∧ ({} : State).mayHdr .root 5 true = true ∧
    ({} : State).reaches (.func 0) 5 = true ∧ ({} : State).mayHdr (.func 0) 5 true = true := by decide +kernel

/-- An event waits and is enabled: each header write leaves the summary set. -/
def pendS : State := ({} : State).updHdr 5 fun h => { h with intStat := 3, intEn := 3 }

theorem witness_summary : (pendS.updHdr 5 fun h => { h with intStat := h.intStat &&& ~~~1 }).summary 5 = true ∧
    (pendS.updHdr 5 fun h => { h with intStat := h.intStat &&& ~~~3 }).summary 5 = false ∧ fld 0x102 8 2 < 2 ∧ 2 ≤ fld 0x200 8 2 ∧
    bit 0x80000000 31 = true := by decide +kernel

/-- SCH_J0_STEP is a pair at 0x200; its upper half is at 0x204. SCH_J0_STEP_LOAD, at 0x208, is a pair that software writes. -/
theorem witness_pairs : ∃ r r' off, barTarget (.func 0) off = .page pgSCH 0x208 ∧ barTarget (.func 0) (off + 4) = .page pgSCH 0x20C ∧
    regRow pgSCH 0x208 = some r ∧ regRow pgSCH 0x20C = some r' ∧ r.pair = true ∧ r.word 0x208 = 0 ∧ r'.pair = true ∧ r'.word 0x20C = 1 ∧
    r.cls ≠ .ownIdx ∧ ¬ (r.rw = 0 ∧ r.rwHi = 0) ∧ (running : State).allows (.func 0) pgSCH 0x208 5 = true ∧
    (running : State).allows (.func 0) pgSCH 0x20C 5 = true ∧ (running : State).mayRead (.func 0) pgSCH 0x208 r 0 = true ∧
    (running : State).pageOff pgSCH = false ∧ (running : State).reaches (.func 0) pgSCH = true :=
  ⟨{ off := 0x208, n := 8, stride := 0x40, words := 2, pair := true, cls := .jobN, rw := 0xFFFFFFFF },
    { off := 0x208, n := 8, stride := 0x40, words := 2, pair := true, cls := .jobN, rw := 0xFFFFFFFF }, pgBase pgSCH + 0x208, by decide +kernel⟩

/-- A 64-bit counter of a FAB page. -/
theorem witness_counterPair : ∃ p c off, c ∈ pgCnts p ∧ c.2 = true ∧ barTarget (.func 0) off = .page p c.1 ∧
    barTarget (.func 0) (off + 4) = .page p (c.1 + 4) ∧ ({} : State).mayHdr (.func 0) p false = true ∧
    (({} : State).hdr p).view = false ∧ ({} : State).pageOff p = false := ⟨pgFAB 0, (0x800, true), pgBase (pgFAB 0) + 0x800, by decide +kernel⟩

theorem witness_pairKeys : pairKey (.func 3) pgSCH 0x208 < pairKey .root 127 0xFFC ∧ ({} : State).pwr.st = .on := by decide +kernel

/-- A VF may not write the HOST page. -/
theorem witness_notOwner : ∃ r off, barTarget (.func 1) off = .page pgHOST 0x100 ∧ regRow pgHOST 0x100 = some r ∧
    ({} : State).mayWrite (.func 1) pgHOST 0x100 r (({} : State).entryIx (.func 1) pgHOST r) 0 = false ∧
    ({} : State).reaches (.func 1) pgHOST = true ∧ ({} : State).pageOff (pgHOSTF 1) = false :=
  ⟨(regRow pgHOST 0x100).getD { off := 0 }, pgBase pgHOST + 0x100, by decide +kernel⟩

theorem witness_hostWrite : ∃ r off, barTarget (.func 0) off = .page pgHOST 0x100 ∧ regRow pgHOST 0x100 = some r ∧
    r.cls ≠ .ownIdx ∧ r.pair = false ∧ r.rw ||| r.rwl ≠ 0 ∧ ({} : State).allows (.func 0) pgHOST 0x100 1 = true :=
  ⟨(regRow pgHOST 0x100).getD { off := 0 }, pgBase pgHOST + 0x100, by decide +kernel⟩

/-- A state with the clock domain of page `p` gated. -/
def gatedS (p : Nat) (s : State := {}) : State := s.updClk fun c => { c with doms := vset c.doms (pgDom p) { gated := true } }

theorem witness_domOff : ∃ r off, barTarget (.func 0) off = .page (pgENG 0) 0x100 ∧ regRow (pgENG 0) 0x100 = some r ∧
    (gatedS (pgENG 0)).pageOff (pgENG 0) = true ∧ (gatedS (pgENG 0)).reaches (.func 0) (pgENG 0) = true ∧
    (gatedS (pgENG 0)).mayHdr (.func 0) (pgENG 0) true = true ∧ (gatedS (pgENG 0)).mayHdr (.func 0) (pgENG 0) false = true ∧
    (gatedS (pgENG 0)).mayWrite (.func 0) (pgENG 0) 0x100 r ((gatedS (pgENG 0)).entryIx (.func 0) (pgENG 0) r) 0 = true :=
  ⟨(regRow (pgENG 0) 0x100).getD { off := 0 }, pgBase (pgENG 0) + 0x100, by decide +kernel⟩

/-- LOCKED: HOST_CTRL holds an RWL field. -/
theorem witness_locked : ∃ r, regRow pgHOST 0x100 = some r ∧ r.rwl ≠ 0 ∧ ((lockedS pgHOST).hdr pgHOST).locked = true ∧
    (lockedS pgHOST).pageOff pgHOST = false ∧
    (lockedS pgHOST).mayWrite (.func 0) pgHOST 0x100 r ((lockedS pgHOST).entryIx (.func 0) pgHOST r) 0 = true :=
  ⟨(regRow pgHOST 0x100).getD { off := 0 }, by decide +kernel⟩

/-- RSVD_ENC: a reserved TYPE in SW_ROUTE. -/
theorem witness_rsvd : ∃ r off, barTarget (.func 0) off = .page pgSW 0x114 ∧ regRow pgSW 0x114 = some r ∧ r.rwl = 0 ∧
    rsvd r (merge r.rw (({} : State).reg pgSW 0x114 (({} : State).entryIx (.func 0) pgSW r)) 0x30000000) = true ∧
    ({} : State).mayWrite (.func 0) pgSW 0x114 r (({} : State).entryIx (.func 0) pgSW r) 0x30000000 = true ∧
    ({} : State).pageOff pgSW = false :=
  ⟨(regRow pgSW 0x114).getD { off := 0 }, pgBase pgSW + 0x114, by decide +kernel⟩
/-- The window's index register: each function has its own copy. -/
theorem witness_ownIdx : ∃ r off, barTarget (.func 1) off = .page (pgVAT 0) 0x110 ∧
    regRow (pgVAT 0) 0x110 = some r ∧ r.cls = .ownIdx ∧ r.rwl = 0 ∧ rsvd r (merge r.rw (({} : State).reg (pgVAT 0) 0x110 1) 7) = false :=
  ⟨(regRow (pgVAT 0) 0x110).getD { off := 0 }, pgBase (pgVAT 0) + 0x110, by decide +kernel⟩

/-! ## Two rules of the scheduler -/

theorem witness_stepLoad : (running : State).allows (.func 0) pgSCH 0x20C 5 = true ∧ (running : State).jobOps 0 = [] ∧
    (running (withEntry (entry 6 .waiting))).allows (.func 0) pgSCH 0x20C 5 = true ∧
    (running (withEntry (entry 6 .waiting))).jobOps 0 ≠ [] := by decide +kernel

/-- Counter 5 nearly full: one signal saturates it, one does not. -/
theorem witness_signal : let s := setCtr 5 0xFFFFFFF0 {}
    (s.ctr 5).toNat + 15 ≤ 0xFFFFFFFF ∧ (s.ctr 5).toNat + 16 > 0xFFFFFFFF ∧ s.pageOff pgSCH = false := by decide +kernel

/-! ## Scheduler -/

theorem witness_stepMark : ∃ (j : Job) (c : Contrib) (b : List Byte) (s : State),
    b.length = 16 ∧ leAt b 8 2 = c.val ∧ leAt b 0xA 2 = 0 ∧ s.registered j.val c.val = true ∧
    (SMap.find s.sch.mseq (mcKey j.val c.val)).all (serialGt (wAt b 0xC)) = true ∧
    (s.mc j.val c.val).toNat < leAt b 0 8 ∧ leAt b 0 8 ≤ (s.axis j.val).toNat + 65535 :=
  ⟨0, 3, natLE 8 5 ++ natLE 2 3 ++ [0, 0] ++ natLE 4 1, ({} : State).setReg pgSCH 0x400 8, by decide⟩

theorem witness_stepMark_limit : ∃ (j : Job) (c : Contrib) (b : List Byte) (s : State),
    b.length = 16 ∧ leAt b 8 2 = c.val ∧ leAt b 0xA 2 = 0 ∧ s.registered j.val c.val = true ∧
    (SMap.find s.sch.mseq (mcKey j.val c.val)).all (serialGt (wAt b 0xC)) = true ∧
    (s.mc j.val c.val).toNat < leAt b 0 8 ∧ leAt b 0 8 = (s.axis j.val).toNat + 65535 :=
  ⟨7, 511, natLE 8 65535 ++ natLE 2 511 ++ [0, 0] ++ natLE 4 1, ({} : State).setReg pgSCH 0x5FC 0x80000000, by decide⟩

theorem witness_schStepLoad : ∃ (w : Who) (j : Job) (v : Word) (s : State),
    s.allows w pgSCH (0x20C + 0x40 * j.val) v = true ∧ s.jobOps j.val = [] := ⟨.func 0, 0, 1, running, by decide⟩

theorem witness_regmapWrite : ∃ (w : Who) (j : Job) (k : Fin 16) (v : Word) (s : State),
    s.allows w pgSCH (0x400 + 0x40 * j.val + 4 * k.val) v = true := ⟨.func 0, 0, 15, 0xFFFFFFFF, running, by decide⟩

theorem witness_quorumWrite : ∃ (w : Who) (j : Job) (v : Word) (s : State),
    s.allows w pgSCH (0x210 + 0x40 * j.val) v = true := ⟨.func 0, 0, 1, running, by decide⟩

theorem witness_schCntValWrite : ∃ (w : Who) (v : Word) (s : State), s.allows w pgSCH 0x10C v = true :=
  ⟨.func 0, 5, ({} : State), by decide⟩

theorem witness_cntPartWrite : ∃ (w : Who) (j : Job) (v : Word) (s : State),
    s.allows w pgSCH (0x214 + 0x40 * j.val) v = true ∧ s.jobOps j.val = [] ∧
    64 * fld (s.taken w pgSCH (0x214 + 0x40 * j.val) v) 0 6 ≤ 2048 ∧
    64 * fld (s.taken w pgSCH (0x214 + 0x40 * j.val) v) 16 8 + 64 * fld (s.taken w pgSCH (0x214 + 0x40 * j.val) v) 0 6 ≤ 16384 ∧
    ∀ i : Job, i ≠ j → s.partSize i.val = 0 ∨ 64 * fld (s.taken w pgSCH (0x214 + 0x40 * j.val) v) 0 6 = 0 ∨
      s.partBase i.val + s.partSize i.val ≤ 64 * fld (s.taken w pgSCH (0x214 + 0x40 * j.val) v) 16 8 ∨
      64 * fld (s.taken w pgSCH (0x214 + 0x40 * j.val) v) 16 8 + 64 * fld (s.taken w pgSCH (0x214 + 0x40 * j.val) v) 0 6 ≤
        s.partBase i.val := ⟨.func 0, 0, 0x00E00020, ({} : State), by decide⟩

/-- A TASK of opcode 11 as a core submits it: unit 0, nothing else. -/
def taskDesc : List Byte := natLE 4 11 ++ List.replicate 60 0

theorem witness_subCommit : ∃ (c : Core) (desc : List Byte) (acts : List TaskAct) (s : State),
    let s1 := taskActs c.val acts s
    let d := { decodeDesc desc with seq := s1.seqNext (.cores (Fin.ofNat 2 (c.val / 32))) (decodeDesc desc).job.val }
    (s1.coreGoes c.val).isSome = true ∧ descHeadOk desc = true ∧ s1.coreMay c.val d.job.val = true ∧
    s1.descOk (.cores (Fin.ofNat 2 (c.val / 32))) d = true ∧ s1.opsFull d.job.val = false ∧ s1.claimOver d = false :=
  ⟨0, taskDesc, [.store 0x100 [1, 2]], updCore 0 (fun x => { x with task := some 0 })
    ((withEntry (entry 11 .active) running).setReg pgSCH 0x218 8), by decide +kernel⟩

theorem witness_timeTriggerMet : ∃ (e : Nat) (x : Entry) (s : State),
    s.entry? e = some x ∧ x.st = .armed ∧ x.d.trig = 2 ∧ s.timeMet x.d.trigVal = true :=
  ⟨0, { entry 7 .armed with d := { desc 7 with trig := 2 } }, withEntry { entry 7 .armed with d := { desc 7 with trig := 2 } },
    rfl, by decide⟩

theorem witness_claimGrant : ∃ (d : Die) (e : Entry) (s : State),
    s.firstClaim d.val = some e ∧ e.d.vslots ≤ (s.freeSlots d.val).length :=
  ⟨0, entry 6 .claiming, withEntry (entry 6 .claiming), rfl, Nat.zero_le _⟩

theorem witness_schOpStall : ∃ (e : Nat) (x : Entry) (s : State),
    s.entry? e = some x ∧ x.stalls = true ∧ x.stalled = false ∧ s.regF pgSCH 0x100 0 20 ≠ 0 ∧ s.pageOff pgSCH = false :=
  ⟨0, entry 7 .armed, withEntry (entry 7 .armed), rfl, by decide⟩

theorem witness_opDone : ∃ (e : Nat) (x : Entry) (s : State),
    s.entry? e = some x ∧ x.st = .active ∧ x.work = .finished ∧ x.cancelled = false ∧ e < s.sch.nextId :=
  ⟨0, { entry 7 .active with work := .finished }, withEntry { entry 7 .active with work := .finished }, rfl, by decide⟩

theorem witness_opFaulted : ∃ (e st det : Nat) (x : Entry) (s : State),
    s.entry? e = some x ∧ x.st = .active ∧ x.work = .faulted st det ∧ x.cancelled = false ∧ e < s.sch.nextId :=
  ⟨0, 0x15, 0, { entry 7 .active with work := .faulted 0x15 0 }, withEntry { entry 7 .active with work := .faulted 0x15 0 },
    rfl, by decide⟩

/-! ## Vat -/

/-- Window 0 is a VALID REDUCE window of ream 0 of job 0, in FP32. -/
def vatWin (s : State := {}) : State := s.setReg (pgVAT 0) 0x114 0x80000000

/-- A wave of one slot, 0, of ream 0. -/
def wave0 : Wave := { die := 0, ream := 0, ebase := 0, slots := [0] }

/-- Entry 0 READY with a wave 0 of job 0, and window 0. -/
def vatReady (e : Entry) : State :=
  { vatWin (withEntry e) with vat := { waves := [(0, wave0)], slots := [(0, { job := 0, wave := 0, efirst := 0 })] } }

theorem witness_collect : ∃ (d : Die) (e : Entry) (win : Nat) (w : Wave) (s : State),
    s.vatPick d.val = some e ∧ e.d.opcode = 0 ∧ e.d.recollect = false ∧
    s.reduceWin e.d.job.val e.d.ream = some win ∧ s.wave? e.d.job.val e.d.wave = some w ∧ w.ream = e.d.ream :=
  ⟨0, entry 0 .ready, 0, wave0, vatReady (entry 0 .ready), rfl, rfl, by decide, by decide, rfl, rfl⟩

/-- A COLLECT with RECOLLECT set. -/
def recollectE : Entry := { entry 0 .ready with d := { desc 0 with opArg := 0x100000000 } }

theorem witness_recollect : ∃ (d : Die) (e : Entry) (win : Nat) (w : Wave) (s : State),
    s.vatPick d.val = some e ∧ e.d.opcode = 0 ∧ e.d.recollect = true ∧ e.work = .running ∧ e.d.wave < 4096 ∧
    s.reduceWin e.d.job.val e.d.ream = some win ∧ s.waveOn e.d = some w ∧ w.ream = e.d.ream ∧ w.ebase = e.d.ebase ∧
    s.collectOf e.d.job.val e.d.wave = none ∧ w.resends < s.resendMax w.die :=
  ⟨0, recollectE, 0, wave0, vatReady recollectE, rfl, rfl, by decide, rfl, by decide, by decide, rfl, by decide, by decide, rfl,
    by decide⟩

theorem witness_cmapWrite : ∃ (w : Who) (j : Job) (k : Fin 16) (v : Word) (s : State),
    s.allows w (pgVAT 0) (0x400 + 0x40 * j.val + 4 * k.val) v = true := ⟨.func 0, 7, 15, 5, running (({} : State).setJobSt 7 .running), by decide⟩

theorem witness_vatWinCtlWrite : ∃ (w : Who) (v : Word) (s : State),
    let ix := s.idx w (pgVAT 0) 0x110
    let x := s.taken w (pgVAT 0) 0x114 v
    let y := if winType x = 0 then x else setFld x 16 10 0
    s.allows w (pgVAT 0) 0x114 v = true ∧ winType y ≠ 3 ∧ (if winType y = 0 then fld y 12 4 ≤ 8 else fld y 12 4 ≤ 11) ∧
    s.winBusy ix = false ∧
    (winValid y = true → winType y = 0 → ∀ e ∈ s.regEntries (pgVAT 0) 0x114, e.1 ≠ ix → winValid e.2 = true →
      winType e.2 = 0 → winJob e.2 = winJob y → winReam e.2 ≠ winReam y) :=
  ⟨.func 0, 0x80000000, running, by decide⟩

/-- Queue pair 1 of job 0 in state `st`. -/
def qpAt (st : Nat) : Qp := { qpn := 1, job := 0, ctx := [0, wd st], rate := ⟨0, 0⟩, epsn := 0, spsn := 0, una := 0, nxt := 0 }

/-- Contributor 0 of job 0 has queue pair 1, ready to receive, and a grant to ream 0 of one element. -/
def contribS : State :=
  let s := ({ vatReady { entry 0 .active with d := { desc 0 with opArg := 0 } } with
    vat := { waves := [(0, { wave0 with cset := 1 })], slots := [(0, { job := 0, wave := 0, efirst := 0 })] } } : State)
  (putQp (qpAt 2) s).setReg (pgVAT 0) 0x134 0x80000001 |>.setReg (pgVAT 0) 0x188 1

/-- Zero enters as zero, whatever the draw, and adds to zero with no mismatch. -/
theorem zeroAdd {a : DWord} {F : Int} {u : Nat} (ha : a = 0) (hf : F = 0) (h : u < 2 ^ 24) :
    (vatAdd a (vatEntry ⟨0, -149⟩ F u).v 0).2.1 = false := by
  have hv : (Dy.shift ⟨0, -149⟩ (-0)).srInt u = 0 := by
    have : (0 : Int) / pow2 125 = 0 := Int.zero_ediv _
    show ((0 : Int) / pow2 125 + u) / 2 ^ 24 = 0
    rw [this]; omega
  rw [ha, hf]
  have : (vatEntry ⟨0, -149⟩ 0 u).v = 0 := by
    show (clamp63 ((Dy.shift ⟨0, -149⟩ (-0)).srInt u)).1 = 0
    rw [hv]; decide
  rw [this]; decide +kernel

theorem witness_contributionWrite : ∃ (q : BitVec 24) (rh : Reth) (data : List Byte) (j c h : Nat) (f : Fmt) (wv : Wave)
    (sl : VSlot) (x : Dy) (s : State),
    let win := fld rh.rkey 18 14
    let ctl := s.winCtl win
    let off := rh.va.toNat - (s.winBase win).toNat
    let e := off / f.blkBytes
    let n := (wv.at e).1
    let y := vatEntry x (s.floorF j wv.ream) (draw24 (seedContrib j wv.ream wv.round.toNat c) e)
    let r := vatAdd (s.accAt wv.die n 0) y.v 0
    s.qpTakes q = true ∧ s.ctIn j q = some c ∧ s.qpOfJob j q = true ∧ c < 512 ∧ winFmt ctl = some f ∧ f.blk = 1 ∧ winValid ctl = true ∧ winType ctl = 0 ∧
    winJob ctl = j ∧ winReam ctl = wv.ream ∧ (s.winBase win).toNat ≤ rh.va.toNat ∧ off % f.slotBytes = 0 ∧
    rh.len = f.blkBytes ∧ data.length = f.blkBytes ∧ off + f.blkBytes = f.reamBytes (s.nelem j wv.ream) ∧
    fld rh.rkey 0 18 = s.winTag win ∧ s.grantedWave j wv.ream c (e / 8192) = some (h, wv) ∧
    s.vslot? wv.die n = some sl ∧ sl.poisoned = false ∧ sl.bitmap.getLsbD c = false ∧
    decodeBlk f data = [some x] ∧ r.2.1 = false :=
  ⟨1, { va := 0, rkey := 0, len := 4 }, [0, 0, 0, 0], 0, 0, 0, .f32, { wave0 with cset := 1 }, { job := 0, wave := 0, efirst := 0 },
    ⟨0, -149⟩, contribS, by decide +kernel, by decide +kernel, by decide +kernel, by decide, by decide +kernel, by decide, by decide +kernel,
    by decide +kernel, by decide +kernel, by decide +kernel, by decide +kernel, by decide +kernel, by decide, by decide,
    by decide +kernel, by decide +kernel, by decide +kernel, by decide +kernel, by decide, BitVec.getLsbD_zero, by decide,
    zeroAdd (by decide +kernel) (by decide +kernel) (draw24_lt _ _)⟩

/-- A record held for contributor 0 of job 0, whose ring has 16 places. -/
def heldS : State :=
  let s := ({} : State).updVat fun v =>
    { v with heldG := [(0, [{ ream := 0, kind := 1, round := 0, efirst := 0, ecount := 1 }])] }
  (s.setReg (pgVAT 0) 0x138 0x80000001).setReg (pgVAT 0) 0x14C 4

theorem witness_grantHoldRelease : ∃ (j : Job) (c : Contrib) (s : State),
    s.grantRoom j.val c.val = true ∧ s.heldOf j.val c.val ≠ [] := ⟨0, 0, heldS, by decide⟩

theorem witness_gackWrite : ∃ (j : Job) (c : Contrib) (q : BitVec 24) (b : List Byte) (s : State),
    s.qpTakes q = true ∧ b.length = 8 ∧ leAt b 4 4 = 0 ∧ bit (s.ctQpn j.val c.val) 31 = true ∧
    fld (s.ctQpn j.val c.val) 0 24 = q.toNat ∧ serialGt (wAt b 0) (s.gackOf j.val c.val) = true ∧
    serialGt (wAt b 0) (s.gseqOf j.val c.val) = false :=
  ⟨0, 0, 1, [1, 0, 0, 0, 0, 0, 0, 0], contribS.updVat fun v => { v with gseq := [(0, 1)] }, by decide⟩

theorem witness_vatQuotaWrite : ∃ (w : Who) (d : Die) (j : Job) (v : Word) (s : State),
    s.allows w (pgVAT d.val) (0x200 + 0x10 * j.val) v = true ∧
    (fld (s.taken w (pgVAT d.val) (0x200 + 0x10 * j.val) v) 0 12 = s.quota d.val j.val ∨ s.committed d.val j.val = 0) ∧
    ((List.finRange 8).foldl (fun a i => if i = j then a else a + s.quota d.val i.val) 0) +
      fld (s.taken w (pgVAT d.val) (0x200 + 0x10 * j.val) v) 0 12 ≤ 2048 := ⟨.func 0, 1, 7, 0x800, {}, by decide⟩

theorem witness_grantQpReplace : ∃ (w : Who) (v : Word) (s : State),
    s.allows w (pgVAT 0) 0x138 v = true ∧ bit (s.taken w (pgVAT 0) 0x138 v) 31 = true ∧
    s.taken w (pgVAT 0) 0x138 v ≠ s.reg (pgVAT 0) 0x138 (s.idx w (pgVAT 0) 0x130) := ⟨.func 0, 0x80000002, running heldS, by decide⟩

/-! ## Matrix engines -/

/-- A job's HBM range: 64 MiB from the lowest address a job may have. -/
def withHbm (s : State := {}) : State :=
  ((s.setReg (pgGC 0) 0x204 0x40000000).setReg (pgGC 0) 0x208 1).setReg (pgGC 0) 0x20C 1

/-- The engine descriptor with the words listed; the others are zero. -/
def edesc (ws : List (Nat × Word)) : List Word :=
  (List.range 16).map fun i => ((ws.find? fun p => p.1 = i).map Prod.snd).getD 0

/-- Entry 0 is READY for engine 0 with the descriptor `ws`, and the wave of job 0, one slot, stands in state `c`. -/
def engS (opc : Nat) (ws : List (Nat × Word)) (c : Content := .int) : State :=
  let s := withHbm (withEntry (entry opc .ready))
  ws.foldl (fun s p => s.setReg (pgENG 0) (0x120 + 4 * p.1) p.2)
    { s with vat := { waves := [(0, { wave0 with content := c })], slots := [(0, { job := 0, wave := 0, efirst := 0 })] } }

theorem witness_hadamard : let s := engS 1 []
    EngTakes 0 (entry 1 .ready) (edesc []) s ∧ s.waveOn (desc 1) = some wave0 ∧ wave0.content = .int ∧
    s.wavePoisoned wave0 = false :=
  ⟨⟨by decide +kernel, by decide +kernel, by decide +kernel, by decide +kernel⟩, by decide +kernel, rfl, by decide +kernel⟩

/-- Descriptor of a quantisation to MX8 sheets whose ream header stands at the start of the range. -/
def quantD : List (Nat × Word) := [(0, 0x5001), (2, 0x40000000), (3, 1)]

theorem witness_quantise : let s := hbmWrite 0x140000010 (natLE 8 0x1000) (engS 2 quantD)
    EngTakes 0 (entry 2 .ready) (edesc quantD) s ∧ s.qbOf 0 0 0 = none ∧
    s.hbmOk 0 (edState (edesc quantD)) 0x1000 = true ∧ s.hbmBad (edState (edesc quantD)) 0x1000 = false ∧
    s.hdrNat false (edState (edesc quantD)) 0x10 8 ≠ 0 ∧
    s.hbmOk 0 (edState (edesc quantD) + s.hdrNat false (edState (edesc quantD)) 0x10 8) (2 * s.npad 0 0) = true ∧
    s.waveOn (desc 2) = some wave0 ∧ s.wavePoisoned wave0 = false ∧
    s.hbmBad (edState (edesc quantD) + s.hdrNat false (edState (edesc quantD)) 0x10 8) (2 * s.waveElems 0 wave0) = false :=
  ⟨⟨by decide +kernel, by decide +kernel, by decide +kernel, by decide +kernel⟩, by decide +kernel, by decide +kernel,
    by decide +kernel, by decide +kernel, by decide +kernel, by decide +kernel, by decide +kernel, by decide +kernel⟩

/-- Descriptor of an update by the optimizer of code 0. -/
def updD : List (Nat × Word) := [(0, 2), (2, 0x40000000), (3, 1)]

theorem witness_update : let w := { wave0 with content := Content.staged }
    let s := hbmWrite 0x140000000 (natLE 8 0x1000) (hbmWrite 0x140000028 (natLE 8 1)
      ((engS 8 updD .staged).setReg pgOUTER 0x20C 0x40010000 |>.setReg pgOUTER 0x210 1))
    EngTakes 0 (entry 8 .ready) (edesc updD) s ∧ edKind (edesc updD) = 2 ∧ edOpt (edesc updD) = 0 ∧
    s.stateOk false 0 (edState (edesc updD)) 0x1000 = true ∧ s.hbmOk 0 (s.hpAddr 0 0) 32 = true ∧
    s.stateBad false (edState (edesc updD)) 0x1000 = false ∧ s.hbmBad (s.hpAddr 0 0) 32 = false ∧
    optNeeds 0 true = (true, false, false) ∧ s.hdrNat false (edState (edesc updD)) 0 8 = 0x1000 ∧
    s.hdrNat false (edState (edesc updD)) 0x28 8 = 1 ∧ s.stateOk false 0 0x140001000 4 = true ∧ s.waveOn (desc 8) = some w ∧
    s.wavePoisoned w = false ∧ ∀ n, s.stateBad false 0x140001000 n = false :=
  ⟨⟨by decide +kernel, by decide +kernel, by decide +kernel, by decide +kernel⟩, by decide, by decide, by decide +kernel,
    by decide +kernel, by decide +kernel, by decide +kernel, by decide, by decide +kernel, by decide +kernel, by decide +kernel,
    by decide +kernel, by decide +kernel, fun _ => rfl⟩

/-- Descriptor of a product kind on 1 × 1 matrices in FP32. -/
def matD (kind : Word) : List (Nat × Word) :=
  [(0, kind), (4, 1), (5, 1), (7, if kind = 3 then 4 else 0), (8, 0x40000000), (9, 1), (10, 0x40001000), (11, 1),
   (12, 0x40002000), (13, 1)] ++ if kind = 3 then [] else [(6, 1)]

theorem witness_nsOrtho : let s := engS 8 (matD 3)
    EngTakes 0 (entry 8 .ready) (edesc (matD 3)) s ∧ edKind (edesc (matD 3)) = 3 ∧ s.hbmBad 0x140000000 4 = false :=
  ⟨⟨by decide +kernel, by decide +kernel, by decide +kernel, by decide +kernel⟩, by decide +kernel, by decide +kernel⟩

theorem witness_project : let s := engS 8 (matD 4)
    EngTakes 0 (entry 8 .ready) (edesc (matD 4)) s ∧ edKind (edesc (matD 4)) = 4 ∧ s.hbmBad 0x140000000 4 = false ∧
    s.hbmBad 0x140001000 4 = false :=
  ⟨⟨by decide +kernel, by decide +kernel, by decide +kernel, by decide +kernel⟩, by decide +kernel, by decide +kernel,
    by decide +kernel⟩

theorem witness_gemm : let s := engS 8 (matD 5)
    EngTakes 0 (entry 8 .ready) (edesc (matD 5)) s ∧ edKind (edesc (matD 5)) = 5 ∧ s.hbmBad 0x140000000 4 = false ∧
    s.hbmBad 0x140001000 4 = false ∧ s.hbmBad 0x140002000 4 = false :=
  ⟨⟨by decide +kernel, by decide +kernel, by decide +kernel, by decide +kernel⟩, by decide +kernel, by decide +kernel,
    by decide +kernel, by decide +kernel⟩

/-! ## General cores -/

/-- A TASK of job 0 for group 0: task identity `id`, and the argument above it. -/
def taskE (id arg : Nat) (st : OpSt := .ready) : Entry := { entry 11 st with d := { desc 11 with opArg := BitVec.ofNat 64 (id + 256 * arg) } }

/-- Ream 0 of job 0 is enabled: its state header stands at the start of the job's range, with an array of weights, a merge
array and a snapshot held; it has one element. -/
def reamS (s : State) : State :=
  let o := ((List.replicate 0x80 (0 : Byte)).set 0 1)
  let s := (withHbm s).updOuter fun x => { x with ocb := [(0, o ++ (((List.replicate 32 (0 : Byte)).set 0x1B 0x40).set 0x1C 1))] }
  hbmWrite 0x140000000 (natLE 8 0x1000) (hbmWrite 0x140000020 (natLE 8 0x10000)
    (hbmWrite 0x140000050 (natLE 8 (2 ^ 63)) (s.setReg (pgVAT 0) 0x188 1)))

/-- Its entry of the control block. -/
def reamB : List Byte := ((List.replicate 32 (0 : Byte)).set 0x1B 0x40).set 0x1C 1

/-- A user task 16 of job 0 is installed. -/
def installed (s : State) : State := s.setReg (pgGC 0) 0x114 0x80000000 16

theorem witness_task : let s := installed (withEntry (taskE 16 0))
    TaskTakes 0 (taskE 16 0) s ∧ bit (s.reg (pgGC 0) 0x114 16) 31 = true ∧ (s.waveOn (taskE 16 0).d).any s.wavePoisoned = false ∧
    (taskE 16 0).d.userApply = false :=
  ⟨⟨by decide +kernel, by decide +kernel, by decide +kernel, rfl⟩, by decide +kernel, by decide +kernel, by decide +kernel⟩

/-- Core 0 runs the user task. -/
def runS (x : CoreSt := {}) : State :=
  (withEntry (taskE 16 0 .active)).updGc fun g => { g with cores := [(0, { x with task := some 0, lastJob := some 0 })] }

theorem witness_taskReturn : TaskRuns 0 (taskE 16 0 .active) runS ∧ (taskE 16 0 .active).canFault ∧ runS.pageOff (pgGC 0) = false :=
  ⟨⟨by decide +kernel, by decide +kernel, by decide +kernel, by decide +kernel, by decide +kernel⟩, ⟨rfl, fun _ _ => by simp [taskE, entry]⟩, by decide +kernel⟩

theorem witness_taskTimeout : runS.regF (pgGC 0) 0x210 0 20 ≠ 0 := by decide +kernel

/-- Job 0 has 64 counters. -/
theorem witness_waitGo : let s := runS.setReg pgSCH 0x214 1
    TaskRuns 0 (taskE 16 0 .active) s ∧ (0 : Word).toNat < s.partSize 0 :=
  ⟨⟨by decide +kernel, by decide +kernel, by decide +kernel, by decide +kernel, by decide +kernel⟩, by decide +kernel⟩

theorem witness_waitGoRelease : let s := (runS { waiting := true }).setReg pgSCH 0x214 1
    (s.core 0).task = some 0 ∧ s.entry? 0 = some (taskE 16 0 .active) ∧ (s.core 0).waiting = true ∧
    (s.core 0).waitVal.toNat ≤ (s.ctr (s.partBase 0 + (s.core 0).waitIdx.toNat)).toNat := by decide +kernel

theorem witness_exceptionHandler :
    let x : ExcRec := { job := 0, opcode := 11, seq := 0, status := 0x21, ream := 0, wave := 0, d := desc 11 }
    let s := ({} : State).updGc fun g => { g with exc := #v[[x], []] }
    s.gc.exc.getD 0 [] = x :: [] ∧ s.coreIdle 0 = true := by decide +kernel

/-- What every built-in task on an enabled ream needs. -/
theorem builtin_takes (id arg : Nat) (s : State) (h : s.pick 5 0 (fun e => e.d.opcode = 11 && e.d.unit = 0) = some (taskE id arg))
    (h1 : s.grpInSvc 0 = true) (h2 : s.coreIdle 0 = true) (h3 : s.gc.exc = #v[[], []]) : TaskTakes 0 (taskE id arg) s :=
  ⟨h, h1, h2, by rw [h3]; rfl⟩

theorem witness_plan : let s := reamS (withEntry (taskE 0 0))
    TaskTakes 0 (taskE 0 0) s ∧ s.ocbReam 0 0 = some reamB ∧ s.hbmOk 0 (plReam reamB).base 0x1000 = true ∧
    s.hbmBad (plReam reamB).base 0x200 = false :=
  ⟨builtin_takes _ _ _ (by decide +kernel) (by decide +kernel) (by decide +kernel) rfl, by decide +kernel, by decide +kernel,
    by decide +kernel⟩

theorem witness_floor : let s := (withEntry (taskE 1 0)).updVat fun v => { v with ehi := [(0, -20)], ehiLast := [(0, -20)] }
    TaskTakes 0 (taskE 1 0) s ∧ bit (s.reg (pgVAT 0) 0x184 (reamIx 0 (taskE 1 0).d.taskReam)) 31 = false ∧
    (issue 5 0 (taskE 1 0) s).taskEhi 0 (taskE 1 0).d.taskReam ≠ -256 :=
  ⟨builtin_takes _ _ _ (by decide +kernel) (by decide +kernel) (by decide +kernel) rfl, by decide +kernel, by decide +kernel⟩

theorem witness_stats : TaskTakes 0 (taskE 2 0) (reamS (withEntry (taskE 2 0))) ∧ (taskE 2 0).d.taskId = 2 :=
  ⟨builtin_takes _ _ _ (by decide +kernel) (by decide +kernel) (by decide +kernel) rfl, by decide +kernel⟩

theorem witness_mergeSnap : let s := reamS (withEntry (taskE 3 0))
    TaskTakes 0 (taskE 3 0) s ∧ (taskE 3 0).d.mergeFn = 0 ∧ s.reamArr 0 (plReam reamB) 0 (s.npad 0 0) = some 0x140001000 ∧
    s.reamArr 0 (plReam reamB) 0x20 (s.npad 0 0) = some 0x140010000 :=
  ⟨builtin_takes _ _ _ (by decide +kernel) (by decide +kernel) (by decide +kernel) rfl, by decide +kernel, by decide +kernel,
    by decide +kernel⟩

theorem witness_mergeForm : let s := reamS (withEntry (taskE 3 0x400))
    TaskTakes 0 (taskE 3 0x400) s ∧ (taskE 3 0x400).d.mergeFn = 1 ∧ (taskE 3 0x400).d.taskReam = 0 ∧
    s.hbmNat ((plReam reamB).base + 0x20) 8 ≠ 0 ∧ s.snapHeld (plReam reamB) = true ∧
    (s.hbmNat ((plReam reamB).base + 0x48) 8 + 2 ^ 63 - s.hbmNat ((plReam reamB).base + 0x50) 8 % 2 ^ 63) % 2 ^ 63 ≤
      fld (s.reg pgOUTER 0x214) 8 8 :=
  ⟨builtin_takes _ _ _ (by decide +kernel) (by decide +kernel) (by decide +kernel) rfl, by decide +kernel, by decide +kernel, by decide +kernel,
    by decide +kernel, by decide +kernel⟩

theorem witness_mergeAdd : let s := { reamS (withEntry (taskE 3 0x800)) with
      vat := { waves := [(0, wave0)], slots := [(0, { job := 0, wave := 0, efirst := 0 })] } }
    TaskTakes 0 (taskE 3 0x800) s ∧ (taskE 3 0x800).d.mergeFn = 2 ∧ s.waveOn (taskE 3 0x800).d = some wave0 ∧
    wave0.ream = (taskE 3 0x800).d.taskReam ∧ s.wavePoisoned wave0 = false ∧
    s.reamArr 0 (plReam reamB) 0x20 (s.npad 0 0) = some 0x140010000 :=
  ⟨builtin_takes _ _ _ (by decide +kernel) (by decide +kernel) (by decide +kernel) rfl, by decide +kernel, by decide +kernel,
    by decide +kernel, by decide +kernel, by decide +kernel⟩

theorem witness_svcWrite : let s : State := {}
    s.allows .root (pgENG 1) 0x100 0xFE = true ∧ s.allows .root (pgGC 1) 0x100 5 = true ∧
    s.allows .root (pgSHEET 0) 0x104 5 = true := by decide +kernel

theorem witness_engEdtWrite : let s : State := {}
    let x := s.taken .root (pgENG 1) 0x270 0x003F0001
    s.allows .root (pgENG 1) 0x270 0x003F0001 = true ∧ s.jobOps 7 = [] ∧ fld x 16 6 + fld x 0 7 ≤ 64 ∧
    ∀ i : Job, i ≠ 7 → overlaps (fld x 16 6 * 64) (fld x 0 7 * 64) (s.edtBase 1 i.val) (s.edtSize 1 i.val) = false := by decide +kernel

theorem witness_gcShmWrite : let s : State := {}
    let x := s.taken .root (pgGC 1) 0x2E0 0x006F0001
    s.allows .root (pgGC 1) 0x2E0 0x006F0001 = true ∧ s.taskBusy 7 = false ∧ fld x 16 7 + fld x 0 7 ≤ 112 ∧
    ∀ i : Job, i ≠ 7 →
      overlaps (fld x 16 7 * 0x10000) (fld x 0 7 * 0x10000) (s.shmBase 1 i.val) (s.shmSize 1 i.val) = false := by decide +kernel

/-- Task 16 of job 0, through the task-table selector. -/
theorem witness_gcShmWriteTask : let s := (running ({} : State)).setReg (pgGC 0) 0x110 16 0
    s.allows (.func 0) (pgGC 0) 0x114 0x80000000 = true ∧ s.taskBusy 0 = false ∧ 16 ≤ s.idx (.func 0) (pgGC 0) 0x110 % 256 := by
  decide +kernel

theorem witness_hbmRangeWrite : let s := ({} : State).setReg (pgGC 0) 0x2E4 0x40000000 |>.setReg (pgGC 0) 0x2E8 1
    let n := fld (s.taken .root (pgGC 1) 0x2EC 2) 0 13 * 2 ^ 26
    s.allows .root (pgGC 1) 0x2EC 2 = true ∧ s.taskBusy 7 = false ∧ hbmLow ≤ s.hbmBase 7 ∧ s.hbmBase 7 + n ≤ hbmTop ∧
    ∀ i : Job, i ≠ 7 → overlaps (s.hbmBase 7) n (s.hbmBase i.val) (s.hbmSize i.val) = false := by decide +kernel

theorem witness_hbmRangeBase : let s := ({} : State).setReg (pgGC 0) 0x20C 1
    s.allows .root (pgGC 0) 0x208 1 = true ∧ s.taskBusy 0 = false ∧
    hbmLow ≤ (s.takenPair .root (pgGC 0) 0x208 2).toNat / 2 ^ 26 * 2 ^ 26 ∧
    (s.takenPair .root (pgGC 0) 0x208 2).toNat / 2 ^ 26 * 2 ^ 26 + s.hbmSize 0 ≤ hbmTop := by decide +kernel

theorem witness_engParity : let s := withEntry (entry 2 .active)
    s.pageOff (pgENG 0) = false ∧ bit (s.reg (pgENG 0) 0x100) 7 = true ∧ s.entry? 0 = some (entry 2 .active) ∧
    isEngOp 0 (entry 2 .active) = true ∧ (entry 2 .active).canFault :=
  ⟨by decide +kernel, by decide +kernel, by decide +kernel, by decide +kernel, rfl, fun _ _ => by simp [entry]⟩

/-- What the user task on core 0 does: every clause of CoreAccesses on its own range, at its ends. -/
theorem taskRuns0 (s : State) (h : s.gc = runS.gc) (h' : s.sch = runS.sch) : TaskRuns 0 (taskE 16 0 .active) s :=
  ⟨by simp only [State.core, h]; decide +kernel, by simp only [State.entry?, h']; decide +kernel, by simp only [State.core, h]; decide +kernel,
    by simp only [State.core, h]; decide +kernel, by simp only [State.core, h]; decide +kernel⟩

theorem task0_canFault : (taskE 16 0 .active).canFault := ⟨rfl, fun _ _ => by simp [taskE, entry]⟩

theorem witness_coreLocal : TaskRuns 0 (taskE 16 0 .active) runS ∧ 0x3BFFF + [(1 : Byte)].length ≤ 0x3C000 ∧ 0x3FFFF + 1 ≤ 0x40000 :=
  ⟨taskRuns0 _ rfl rfl, by decide, by decide⟩

theorem witness_coreHbm : let s := withHbm runS
    TaskRuns 0 (taskE 16 0 .active) s ∧ s.hbmOk 0 0x140000000 1 = true ∧ s.hbmOk 0 0x143FFFFFF 1 = true ∧
    s.hbmBad 0x140000000 1 = false ∧
    (s.updMem fun m => { m with hbmPoison := [(0x5000000, true)] }).hbmBad 0x140000000 1 = true :=
  ⟨taskRuns0 _ rfl rfl, by decide +kernel, by decide +kernel, by decide +kernel, by decide +kernel⟩

/-- A store into the context block, one below shared memory, and a load above the job's range are outside the fences. -/
theorem witness_coreFault : let s := withHbm runS
    TaskRuns 0 (taskE 16 0 .active) s ∧ (taskE 16 0 .active).canFault ∧ s.pageOff (pgGC 0) = false ∧
    s.coreRegion 0 0 true 0x3C000 = none ∧ s.coreRegion 0 0 true 0x40000 = none ∧ s.coreRegion 0 0 false 0x40000 = none ∧
    s.coreRegion 0 0 false (0x10000000000 + 0x144000000) = none :=
  ⟨taskRuns0 _ rfl rfl, task0_canFault, by decide +kernel, by decide +kernel, by decide +kernel, by decide +kernel, by decide +kernel⟩

theorem witness_coreIdle : ({} : State).coreGoes 0 = none ∧ (runS { waiting := true }).coreGoes 0 = none := by decide +kernel

theorem test_core_store : memGet ((taskActs 0 [.store 0x3BFFF [7]] runS).core 0).mem 0x3BFFF = 7 := by decide +kernel
theorem test_core_fence : (taskActs 0 [.store 0x3BFFF [7, 7]] runS).workOf 0 = some (.faulted 0x22 0) := by decide +kernel

/-! ## Sheet codecs -/

/-- A wave 0 of job 0, one slot, on the state. -/
def withWave (s : State) : State :=
  { s with vat := { waves := [(0, wave0)], slots := [(0, { job := 0, wave := 0, efirst := 0 })] } }

theorem witness_pack : let b : QBuf := { job := 0, qbid := 0, quant := 7, done := true }
    let s := (withEntry (entry 3 .ready)).updEng fun x => { x with qbs := [(0, b)] }
    s.codecPick 0 = some (entry 3 .ready) ∧ s.regF (pgSHEET 0) 0x104 0 8 ≠ 0 ∧ s.cbOf 0 0 0 = none ∧ s.qbOf 0 0 0 = some (0, b) := by
  decide +kernel

/-- Group 0 of job 0 has a received chunk-wave, number 0. -/
def recvS (s : State) : State := (s.setReg pgRING 0x114 0x80000200).updRing fun r => { r with rx := [(0, { recvd := true })] }

/-- An EXPAND of it into wave 0. -/
def expandE : Entry := { entry 6 .ready with d := { desc 6 with opArg := 0x10 } }

theorem witness_expand : let s := recvS (withWave (withEntry expandE))
    s.codecPick 0 = some expandE ∧ expandE.d.refetch = false ∧ expandE.d.destWave = true ∧ s.replayFed expandE = true ∧ s.replayBad expandE = none ∧
    s.feltBad = false ∧ s.expandCw expandE = some 0 ∧ s.cwComplete 0 = true ∧ s.waveOn expandE.d = some wave0 ∧
    s.wavePoisoned wave0 = false ∧ wave0.content = .int ∧ expandE.d.claim = false ∧ s.regF (pgSHEET 0) 0x104 0 8 ≠ 0 := by decide +kernel

/-- An EXPAND of it into stream 0, and one that claims the wave of ream 0 for it. -/
def expandStrmE : Entry := { expandE with d := { desc 6 with opArg := 0 } }

theorem witness_expandStream : let s := recvS (withWave (withEntry expandStrmE))
    s.codecPick 0 = some expandStrmE ∧ expandStrmE.d.refetch = false ∧ expandStrmE.d.destWave = false ∧
    s.replayFed expandStrmE = true ∧ s.replayBad expandStrmE = none ∧ s.feltBad = false ∧ s.expandCw expandStrmE = some 0 ∧
    s.cwComplete 0 = true ∧ s.waveOn expandStrmE.d = some wave0 ∧ s.wavePoisoned wave0 = false ∧
    s.strmFree (strmKey 0 expandStrmE.d.stream) expandStrmE.d true = true ∧
    (s.sheet.aborts.any fun a => a.hits (strmKey 0 expandStrmE.d.stream) expandStrmE.d) = false ∧
    SMap.find s.sheet.streams (strmKey 0 expandStrmE.d.stream) = none := by decide +kernel

def expandClaimE : Entry := { expandE with d := { desc 6 with opArg := 0x10, claim := true, vslots := 1 } }

theorem witness_expandClaim : let s := (recvS (withWave (reamS (withEntry expandClaimE)))).setReg pgRING 0x118 0x10000
    s.codecPick 0 = some expandClaimE ∧ s.expandCw expandClaimE = some 0 ∧ s.cwComplete 0 = true ∧
    s.waveOn expandClaimE.d = some wave0 ∧ s.cwWave 0 0 = some (1, expandClaimE.d.ream, 0, expandClaimE.d.vslots) := by decide +kernel

/-- An EXPAND that asks for sheets again. -/
def refetchE : Entry := { entry 6 .ready with d := { desc 6 with opArg := 0x20 } }

theorem witness_expandRefetch : (withEntry refetchE).codecPick 0 = some refetchE ∧ refetchE.d.refetch = true ∧
    (issue 2 0 refetchE (withEntry refetchE)).refetchTarget 0 refetchE.d.packBase = none := by decide +kernel

theorem witness_add : let s := withWave (withEntry (entry 7 .ready))
    s.vatPick 0 = some (entry 7 .ready) ∧ s.waveOn (desc 7) = some wave0 ∧ s.wavePoisoned wave0 = false ∧
    s.strmFree (strmKey 0 0) (desc 7) false = true ∧ (s.sheet.aborts.any fun a => a.hits (strmKey 0 0) (desc 7)) = false ∧
    SMap.find s.sheet.streams (strmKey 0 0) = none := by decide +kernel

/-- Its stream holds a sheet already. -/
theorem witness_addPartner : let x : Strm := { job := 0, wave := 0, expand := some 9 }
    let s := (withWave (withEntry (entry 7 .ready))).updSheet fun y => { y with streams := [(0, x)] }
    s.strmFree (strmKey 0 0) (desc 7) false = true ∧ SMap.find s.sheet.streams (strmKey 0 0) = some x ∧ x.bad = false := by
  decide +kernel

theorem witness_sheetParity : let s := withEntry (entry 3 .active)
    s.pageOff (pgSHEET 0) = false ∧ bit (s.reg (pgSHEET 0) 0x104) 7 = true ∧ s.entry? 0 = some (entry 3 .active) ∧
    isCodecOp 0 (entry 3 .active) = true ∧ isRefetch (entry 3 .active) = false ∧ (entry 3 .active).canFault :=
  ⟨by decide +kernel, by decide +kernel, by decide +kernel, by decide +kernel, by decide +kernel, rfl, fun _ _ => by simp [entry]⟩

/-! ## Shard rings -/

/-- Group 0 of job 0 with three members, this gateway at position 1, UP. -/
def upS (s : State) : State :=
  (s.setReg pgRING 0x114 0x80000301).updRing fun r => { r with grps := [(0, { st := .up })] }

/-- A SEND, forward if `fwd`, of the chunk-wave (0, transfer `x`) of buffer 0. -/
def sendE (fwd : Bool) (x : Nat) : Entry :=
  { entry 4 .ready with d := { desc 4 with opArg := BitVec.ofNat 64 (x * 2 ^ 16 + b2n fwd * 2 ^ 21) } }

/-- A group of one member seals nothing. -/
def aloneS (s : State) : State :=
  (upS s).updMgmt fun m => { m with grps := [(0, { chain := true, fenced := 0b101 })] }

theorem witness_send : let s := (aloneS (withEntry (sendE false 0))).updSheet fun x =>
      { x with cbs := [(0, { job := 0, qbid := 0, pack := 9, done := true, sheets := [] })] }
    let s1 := issue 3 0 (sendE false 0) s
    s.pick 3 0 (isLineOp 0) = some (sendE false 0) ∧ s.cwOf (sendE false 0).d = some 0 ∧
    s.cbOf 0 0 0 = some (0, { job := 0, qbid := 0, pack := 9, done := true, sheets := [] }) ∧
    sealCw 0 [] s1 = some ([], s1) := by
  refine ⟨by decide +kernel, by decide +kernel, by decide +kernel, ?_⟩
  unfold sealCw; rw [if_pos (by decide +kernel)]

theorem witness_sendFwd : let s := (aloneS (withEntry (sendE true 1))).updRing fun r =>
      { r with rx := [(0, { nsheet := some 0, recvd := true })] }
    let s1 := issue 3 0 (sendE true 1) s
    s.pick 3 0 (isLineOp 0) = some (sendE true 1) ∧ (sendE true 1).d.fwd = true ∧
    s.cwOf (sendE true 1).d = some (cwKey 0 0 1 0) ∧ s.fwdFrom (sendE true 1) = some 0 ∧
    s.rx? 0 = some { nsheet := some 0, recvd := true } ∧ s.dmgOf 0 = false ∧
    sealCw (cwKey 0 0 1 0) [] s1 = some ([], s1) := by
  refine ⟨by decide +kernel, by decide +kernel, by decide +kernel, by decide +kernel, by decide +kernel, by decide +kernel, ?_⟩
  unfold sealCw; rw [if_pos (by decide +kernel)]

theorem witness_recv : let s := (upS (withEntry (entry 5 .ready))).updRing fun r => { r with rx := [(0, { receipt := true })] }
    s.pick 3 0 (isLineOp 0) = some (entry 5 .ready) ∧ s.entry? 0 = some (entry 5 .ready) ∧ s.cwOf (desc 5) = some 0 := by
  decide +kernel

theorem witness_scatter : let s := { withEntry (entry 9 .ready) with vat := { waves := [(0, { wave0 with content := .ret })], slots := [(0, { job := 0, wave := 0, efirst := 0 })] } }
    s.swNext 9 = some (entry 9 .ready) ∧ s.entry? 0 = some (entry 9 .ready) ∧
    s.waveOn (desc 9) = some { wave0 with content := .ret } ∧ s.wavePoisoned { wave0 with content := .ret } = false := by
  decide +kernel

theorem witness_scatterAck : let s := withEntry (entry 9 .active)
    s.swNext 9 = none ∧ s.scatterFirst = some (entry 9 .active) ∧
    s.entry? 0 = some (entry 9 .active) := by decide +kernel

theorem witness_copy : let q : Qp := { qpAt 3 with ctx := [0, 0x5003] }
    let s := ((upS (withEntry (entry 10 .ready))).updRing fun r => { r with rx := [(0, { nsheet := some 0, receipt := true })] }).updFab
      fun f => { f with qps := [(0, q)] }
    s.swNext 10 = some (entry 10 .ready) ∧ s.copySrc (entry 10 .ready) = some (0, []) ∧
    s.copyQp? 0 0 = some q := by decide +kernel

theorem witness_copyAck : let s := withEntry (entry 10 .active)
    s.swNext 10 = none ∧ (s.activeOf fun e => e.d.opcode = 10 && e.work = Work.running).head? = some (entry 10 .active) ∧
    s.entry? 0 = some (entry 10 .active) := by decide +kernel

/-- A record of group 0: half 0, transfer 0, chunk-wave 0. -/
def rec0 (count : Nat) : RingRec := { jobtag := 0, chan := 0, xfer := 0, rseq := 0, epoch := 0, count := BitVec.ofNat 11 count, tbytes := 8 }

theorem carries0 (n : Nat) (s : State) (h : s.grpOfTag 0 0 = some 0) (hl : s.grpLive 0 = true) (he : s.grpEpoch 0 = 0) :
    Carries 0 (rec0 n) s := ⟨h, hl, he.symm⟩

theorem witness_announce : let s := upS {}
    Carries 0 (rec0 2) s ∧ s.cwMem? (recKey 0 (rec0 2)) = none ∧ s.rx? (recKey 0 (rec0 2)) = none :=
  ⟨carries0 2 _ (by decide +kernel) (by decide +kernel) (by decide +kernel), by decide +kernel, by decide +kernel⟩

theorem witness_announceAgain : let s := (upS {}).updRing fun r => { r with rx := [(0, { nsheet := some 2 })] }
    Carries 0 (rec0 2) s ∧ ((s.rx? (recKey 0 (rec0 2))).getD {}).nsheet.isSome = true :=
  ⟨carries0 2 _ (by decide +kernel) (by decide +kernel) (by decide +kernel), by decide +kernel⟩

/-- A copy that waits for its records, in felt. -/
def tx0 : TxCw := { port := 0, sheets := [[1]], segs := [[1]], nsheet := 1, tbytes := 1, timer := .resend }
def txS (x : TxCw) : State := (upS {}).updRing fun r => { r with tx := [(0, x)] }

theorem witness_recordsBack : Carries 0 (rec0 0) (txS tx0) ∧ (txS tx0).tx? (recKey 0 (rec0 0)) = some tx0 ∧ tx0.ack = false ∧
    tx0.credit = false ∧ tx0.freed = false ∧ tx0.gated = false ∧ tx0.reads = 0 ∧ (txS tx0).txWanted (recKey 0 (rec0 0)) = false ∧ (rec0 0).count.toNat < tx0.sheets.length ∧
    tx0.port < 2 :=
  ⟨carries0 0 _ (by decide +kernel) (by decide +kernel) (by decide +kernel), by decide +kernel, rfl, rfl, rfl, rfl, rfl,
    by decide +kernel, by decide, by decide +kernel⟩

def cw0 : CwId := { grp := 0, half := 0, xfer := 0, rseq := 0 }

theorem witness_probeTimer : (txS { tx0 with timer := .probe }).tx? (CwId.key cw0) = some { tx0 with timer := .probe } := by
  decide +kernel

theorem witness_resendTimer : (txS tx0).tx? (CwId.key cw0) = some tx0 ∧ tx0.receipt = false ∧ (txS tx0).feltBad = false := by
  decide +kernel

/-- The neighbours 2 and 3 of position 1 of group 0 have live sessions. -/
def nbrS : State :=
  let s := ((({} : State).setReg pgRING 0x140 2).setReg pgRING 0x148 3).setReg pgRING 0x11C 0x210
  ((s.setReg (pgCIPH 0) 0x114 0x80000002 0).setReg (pgCIPH 0) 0x114 0x80000003 1).updCiph fun c =>
    { c with sess := [(0, { st := 2 }), (1, { st := 2 })] }

theorem witness_ringSetupStart :
    let v : Word := 0x00000301
    let x := nbrS.taken .root pgRING 0x114 (withBit v 31 true)
    let u := nbrS.setReg pgRING 0x114 x 0
    nbrS.allows .root pgRING 0x114 (withBit v 31 true) = true ∧ nbrS.ixOf .root pgRING 0x114 = 0 ∧ gtValid (nbrS.gtCtl 0) = false ∧
    2 ≤ gtS x ∧ gtS x ≤ 16 ∧ gtPos x < gtS x ∧ ((List.range (gtS x)).map (u.gtSite 0)).eraseDups.length = gtS x ∧
    u.peerLive (u.nbrSeid 0 true).toNat = true ∧ u.peerLive (u.nbrSeid 0 false).toNat = true ∧
    2 * u.grpMib 0 ≤ u.feltRoom 0 ∧ 2 * u.grpMib 0 ≤ u.feltRoom 1 := by decide +kernel

theorem witness_ringTeardown : let s := upS {}
    s.allows .root pgRING 0x114 (withBit 0 31 false) = true ∧ gtValid (s.gtCtl (s.ixOf .root pgRING 0x114)) = true ∧
    gtValid (s.taken .root pgRING 0x114 (withBit 0 31 false)) = false ∧ s.chanBusy (s.ixOf .root pgRING 0x114) = false := by
  decide +kernel

/-- The group is set up, and its job is enabled. -/
def setupS : State :=
  ((upS {}).updRing fun r => { r with grps := [(0, { st := .setup })] }).updOuter fun x => { x with ocb := [(0, List.replicate 0x80 0)] }

theorem witness_setupSend : (setupS.grp 0).st = .setup ∧ SMap.find setupS.outer.ocb (gtJob (setupS.gtCtl 0)) = some (List.replicate 0x80 0) ∧
    setupS.nream 0 = 0 := by decide +kernel

/-- The job has one ream of more than 16,384 waves of one slot. -/
theorem witness_setupRefused : let s := ((setupS.setReg pgRING 0x118 0x10000).setReg (pgVAT 0) 0x188 0x08001000).updOuter fun x =>
      { x with ocb := [(0, 1 :: List.replicate 0x9F 0)] }
    s.nream 0 = 1 ∧ 16384 < s.reamWaves 0 0 0 ∧ (SMap.find s.outer.ocb (gtJob (s.gtCtl 0))).isSome = true := by decide +kernel

theorem witness_setupMessage : setupS.grpOfTag 0 0 = some 0 ∧ (SMap.find setupS.outer.ocb (gtJob (setupS.gtCtl 0))).isSome = true := by
  decide +kernel

theorem witness_setupAnswer : (setupS.grp 0).st = .setup ∧
    ((setupS.updRing fun r => { r with grps := [(0, { st := .setup, okPrev := true })] }).grp 0).okPrev = true := by decide +kernel


/-- A copy that is still read. -/
theorem witness_ackRead : Carries 0 (rec0 0) (txS { tx0 with reads := 1 }) ∧
    (txS { tx0 with reads := 1 }).tx? (recKey 0 (rec0 0)) = some { tx0 with reads := 1 } :=
  ⟨carries0 0 _ (by decide +kernel) (by decide +kernel) (by decide +kernel), by decide +kernel⟩

/-! ## Outer rounds and streams -/

/-- Job 0 is RUNNING with its HBM range; the control block at 0x140100000 holds `b`. -/
def ocbS (b : List Byte) : State :=
  hbmWrite 0x140000028 (natLE 8 4096) (hbmWrite 0x140100000 b
    (((((withHbm running).setReg pgOUTER 0x204 0x40100000).setReg pgOUTER 0x208 1).setReg pgOUTER 0x20C 0x40200000).setReg
      pgOUTER 0x210 1 |>.setReg (pgVAT 0) 0x188 1))

/-- A sound control block. -/
def ocbGood : List Byte :=
  natLE 4 0x00010001 ++ List.replicate 0x3C 0 ++ natLE 4 1 ++ List.replicate 0x3C 0 ++
  natLE 4 3 ++ natLE 4 0 ++ natLE 8 1 ++ natLE 8 0 ++ natLE 8 0x140000000

theorem witness_outerEnable : (ocbS ocbGood).allows (.func 0) pgOUTER 0x200 (withBit 0 31 true) = true ∧
    bit ((ocbS ocbGood).reg pgOUTER 0x200) 31 = false ∧ (ocbS ocbGood).ocbReason 0 = 0 := by decide +kernel

/-- A block of zeros is refused. -/
theorem witness_outerRefused : (ocbS []).ocbReason 0 = 1 := by decide +kernel

theorem witness_outerDisable : let s := (ocbS []).setReg pgOUTER 0x200 0x80000000
    s.allows (.func 0) pgOUTER 0x200 (withBit 0 31 false) = true ∧ bit (s.reg pgOUTER 0x200) 31 = true ∧ s.jobOps 0 = [] := by
  decide +kernel

theorem witness_streamEndEnable : (running : State).allows (.func 0) pgOUTER 0x144 (withBit 0 31 true) = true ∧
    bit ((running : State).scCtl ((running : State).ixOf (.func 0) pgOUTER 0x144)) 31 = false ∧
    ∃ f, fmtOf (fld ((running : State).taken (.func 0) pgOUTER 0x144 (withBit 0 31 true)) 0 4) = some f ∧ f.line = true :=
  ⟨by decide +kernel, by decide +kernel, .f32, by decide +kernel, rfl⟩

/-- FMT 0xC names no format. -/
theorem witness_streamEndFormat : (running : State).allows (.func 0) pgOUTER 0x144 (withBit 0xC 31 true) = true ∧
    fmtOf (fld ((running : State).taken (.func 0) pgOUTER 0x144 (withBit 0xC 31 true)) 0 4) = none := by decide +kernel

/-- Stream end 0 of job 0 is UP: receive if `r`, channel 64, FP32, one entry of 64 KiB; the far end is SEID 5. -/
def scS (r : Bool) (x : ScEnd) : State :=
  let s := (((running : State).setReg pgOUTER 0x144 (if r then 0xC0400000 else 0x80400000)).setReg pgOUTER 0x148 5).setReg
    pgOUTER 0x160 0x00010001
  (s.setReg pgOUTER 0x14C 1 |>.setReg pgOUTER 0x150 1).updOuter fun o => { o with sc := [(0, x)] }

theorem witness_streamEndDisable : let s := scS true { st := 1, felt := 1 }
    s.allows (.func 0) pgOUTER 0x144 (withBit 0 31 false) = true ∧ bit (s.scCtl (s.ixOf (.func 0) pgOUTER 0x144)) 31 = true := by
  decide +kernel

/-- The far end has a live session of generation 0, whose root key is held. -/
def sealS : State :=
  (putQp (qpAt 3) (scS false { st := 1, felt := 1 })).setReg (pgCIPH 0) 0x114 0x80000005 |>.updCiph fun c =>
    { c with sess := [(0, { st := 2, gens := [0] })], keys := [(64, List.replicate 32 0)] }

theorem witness_streamMessage : sealS.qpTakes 1 = true ∧ sealS.scOfIn 1 = some 0 ∧ sealS.scFmt 0 = some .f32 ∧
    [(0 : Byte), 0, 0, 0].length % Fmt.f32.blkBytes = 0 ∧ 4 ≤ sealS.scMax 0 ∧ sealS.scRoom 0 = true ∧ (sealS.sc 0).tx = [] := by
  decide +kernel

/-- A whole message of one sheet waits. -/
def delivS : State :=
  putQp (qpAt 3) (scS true { st := 1, felt := 1, rx := [{ sseq := 0, bytes := [0], ok := true }], ann := [⟨0, 1, 1⟩] })

theorem witness_streamDelivery : delivS.scUp 0 = true ∧ scRecv (delivS.scCtl 0) = true ∧ delivS.qp? 1 = some (qpAt 3) ∧
    (delivS.sc 0).nextMsg = some (⟨0, 1, 1⟩, [{ sseq := 0, bytes := [0], ok := true }]) ∧
    [({ sseq := 0, bytes := [0], ok := true } : StrmSheet)].foldl (fun n y => n + y.bytes.length) 0 = 1 ∧
    ((delivS.sc 0).mseq - loW (delivS.sc 0).consumed).toNat < 2 ^ delivS.regF pgOUTER 0x160 0 4 0 := by decide +kernel

theorem witness_streamConsumerAck : ((List.range 256).find? fun i => bit (delivS.scCtl i) 31 && scRecv (delivS.scCtl i) &&
    scJob (delivS.scCtl i) = 0 && scChan (delivS.scCtl i) = 64) = some 0 := by decide +kernel

theorem witness_streamAck : let s := scS true { st := 1, unacked := [(3, 7)] }
    bit (s.scCtl 0) 31 = true ∧ scRecv (s.scCtl 0) = true ∧ s.fab.qps = [] ∧ ((s.sc 0).unacked.find? fun u => u.1 = 3) = some (3, 7) := by decide +kernel

theorem witness_streamAckTx : bit ((scS false {}).scCtl 0) 31 = true ∧ scRecv ((scS false {}).scCtl 0) = false := by decide +kernel

theorem witness_streamResend : let m : StrmMsg := { mseq := 3, first := 0, sheets := [], segs := [], timer := true }
    let s := scS false { st := 1, tx := [m] }
    ((s.sc 0).tx.find? fun m => m.mseq = 3) = some m ∧ s.feltBad = false := by decide +kernel

theorem witness_refetchLate : ((({} : State).sheet.damaged.find? fun g => g.cw = CwId.key cw0 && g.i = 0) = none) := rfl

/-- A CODED sheet of 4,096 zeros in FP8 E4M3, as 06 lays it out. -/
def zeroSheet : List Byte := [3, 0, 16, 0, 5, 0, 0, 16, 0, 0, 0, 0, 78, 50, 68, 75, 192, 255, 63, 0, 4]

theorem unstream_zeros (f : Fmt) (kz kv n : Nat) (bs r : List Bool) (h : unrice kz bs = some (n, r)) :
    unstream f kz kv (n + 1) n bs = (List.replicate n 0, .ok r) := by
  rw [unstream, h]
  simp

theorem payload_zeros (b : List Byte) (n : Nat) (bs r : List Bool) (h4 : shEcount b = n) (h5 : shStored b = false)
    (h6 : shZcount b = n) (h7 : bitsOfBytes ((b.drop 16).take (shElen b)) = bs) (h8 : (bs.take 6).any id = false)
    (h : unrice 0 (bs.drop 6) = some (n, r)) (hr : r.length < 8 ∧ r.any id = false) : ∃ x, checkPayload .e4m3 b = .ok x := by
  have hk : (bs.take 3).foldr (fun b a => b2n b + 2 * a) 0 = 0 ∧ ((bs.drop 3).take 3).foldr (fun b a => b2n b + 2 * a) 0 = 0 := by
    rcases bs with _ | ⟨_ | _, bs⟩ <;> (try rcases bs with _ | ⟨_ | _, bs⟩) <;> (try rcases bs with _ | ⟨_ | _, bs⟩) <;>
      (try rcases bs with _ | ⟨_ | _, bs⟩) <;> (try rcases bs with _ | ⟨_ | _, bs⟩) <;>
      (try rcases bs with _ | ⟨_ | _, bs⟩) <;> simp_all [b2n]
  have hz := unstream_zeros .e4m3 0 0 n _ r h
  have hs : Fmt.hdrBytes .e4m3 = 0 := rfl
  have hy : Fmt.sym .e4m3 0 = 0 := by decide +kernel
  rw [checkPayload, h5]
  simp only [h4, h6, hs, Nat.mul_zero, List.drop_zero, List.take_zero, reduceCtorEq, if_false, Bool.false_eq_true,
    decide_false, Bool.false_and, h7, hk, hz, decide_true, Bool.true_or, Bool.not_true, Bool.or_false]
  have hr' : ¬ r.length ≥ 8 := by omega
  simp [List.countP_replicate, hy, hr.2, hr']

theorem zeroSheet_ok : ∃ r, checkSheet false zeroSheet = .ok r := by
  have h1 : headOk false zeroSheet = true := by decide +kernel
  have h2 : crcOk zeroSheet = true := by decide +kernel
  have h3 : shFmt zeroSheet = some .e4m3 := by decide +kernel
  rw [checkSheet, h1, h2, h3]
  simp only [Bool.not_true, Bool.false_eq_true, if_false]
  have h4 : shEcount zeroSheet = 4096 := by decide +kernel
  have h6 : shZcount zeroSheet = 4096 := by decide +kernel
  have h : unrice 0 ((bitsOfBytes ((zeroSheet.drop 16).take (shElen zeroSheet))).drop 6) =
      some (4096, [false, false, false, false, false]) := by decide +kernel
  generalize 4096 = n at h4 h6 h
  exact payload_zeros zeroSheet n _ [false, false, false, false, false] h4 (by decide +kernel) h6 rfl (by decide +kernel) h
    (by decide +kernel)

theorem witness_refetchReplacement :
    let g : Dmg := { target := 0, cw := 0, i := 0 }
    let s := (withEntry { expandE with st := .active }).updSheet fun x => { x with damaged := [g] }
    (s.sheet.damaged.find? fun g => g.cw = CwId.key cw0 && g.i = 0) = some g ∧ (s.entry? 0).isSome = true ∧
    expandE.d.opcode = 6 ∧ expandE.d.destWave = true := by decide +kernel

/-! ## Fabric ports and switch core -/

/-- A packet of class REQ from MAC 0 for output 2. -/
def vp (c : Nat) : VPkt := { input := 0, src := some 0, output := 2, cls := c, bytes := 64, data := [], flow := [] }

theorem witness_outputServe : let s := ({} : State).updFab fun f => { f with voq := [vp 0] }
    s.voqHead 2 0 = some (vp 0) := by decide +kernel

theorem witness_outputDrr : let s := ({} : State).updFab fun f => { f with voq := [vp 1], deficit := [(17, 100)] }
    s.voqHead 2 0 = none ∧ (∃ d, drrPick 2 400 false (SMap.get (fun _ => 1) s.fab.rrCls 2) s.fab.deficit s = some (vp 1, d)) ∧ SMap.get (fun _ => 1) s.fab.rrCls 2 = 1 :=
  ⟨by decide +kernel, ⟨[(17, 36)], by decide +kernel⟩, by decide +kernel⟩

theorem witness_outputMirror : let s := ({} : State).updFab fun f => { f with voq := [vp 5] }
    s.voqHead 2 0 = none ∧ drrPick 2 400 false (SMap.get (fun _ => 1) s.fab.rrCls 2) s.fab.deficit s = none ∧ s.voqHead 2 5 = some (vp 5) ∧
    bit (s.reg pgSW 0x320) 31 = false ∧ (vp 5).root = none := by decide +kernel

/-- Queue pair 1 in RTS with one packet out and one retry. -/
def retryQp : Qp := { qpAt 3 with spsn := 1, nxt := 1, ctx := [0, 3, 0x10000] }

theorem witness_ackTimeout : (putQp retryQp {}).qp? 1 = some retryQp ∧ retryQp.state = 3 ∧ retryQp.una ≠ retryQp.spsn ∧
    retryQp.rnrWait = false := by decide +kernel

theorem witness_ackRetry : retryQp.retries < retryQp.retry := by decide +kernel

theorem witness_retryOut : ({ retryQp with retries := 15 } : Qp).retry ≤ ({ retryQp with retries := 15 } : Qp).retries := by decide +kernel

theorem witness_cnp : (putQp (qpAt 3) {}).qp? 1 = some (qpAt 3) ∧
    (putQp (qpAt 3) {}).pageOff (macPg ((putQp (qpAt 3) {}).qpMac (qpAt 3))) = false := by decide +kernel

/-- MAC 0 and its link up. -/
def macS (s : State := {}) : State := (s.setReg (pgFAB 0) 0x100 0x00010100).updFab fun f => { f with linkUp := [(0, true), (2, true)] }

theorem witness_lanes : let s := (macS).updOpt fun o => { o with rings := (List.range 8).map fun i => (i, { st := 0, line := i }) }
    s.macEn 0 = true ∧ s.lanesOn 0 = true ∧ (macS).lanesOn 0 = false := by decide +kernel

theorem witness_mac : (macS).macUp 0 = true ∧ (macS).macEn 0 = true ∧ bit ((macS).reg pgSW 0x300) 31 = false ∧
    bit ((macS).reg pgSW 0x320) 31 = false ∧ (macS).pageOff (macPg 0) = false := by decide +kernel

/-- Of two addresses 256 apart one is none of the gateway's own. -/
theorem notOwn : isOwnMac 0x020000000105 = false ∨ isOwnMac 0x020000000205 = false := by
  simp only [isOwnMac, decide_eq_false_iff_not]
  generalize Config.baseMac = b
  bv_omega

/-- A frame for the address `d`. -/
def frame0 (d : BitVec 48) : Frame :=
  { fcsOk := true, dmac := d, smac := 0, v6 := false, dstIp := 0, srcIp := 0, udpSrc := 0, udpDst := 4791, kind := .roce, ipOptions := false
    dscp := 0, ecnCapable := false, ce := false, icrcOk := true, rcOpcode := true, pkey := 0, qpn := 1, psn := 0, op := .send, syn := 0
    lastOrOnly := true, reth := none, payload := [], data := [], len := 64, fecCorr := 0, fecBad := 0 }

/-- The address `d` is that of SEID 0x105, behind MAC 2. -/
def fwdS (d : BitVec 48) : State :=
  ((((macS).setReg pgSW 0x11C (d.setWidth 32) 0).setReg pgSW 0x120 ((d >>> 32).setWidth 32) 0).setReg pgSW 0x124 0x80000105 0).setReg pgSW 0x114
    0x80000002 0x105

/-- With `notOwn`: a frame that is cut through, or queued where CT_EN is clear. -/
theorem witness_forward (d : BitVec 48) (hd : d = 0x020000000105 ∨ d = 0x020000000205) : d.getLsbD 40 = false ∧
    ((List.range 16384).find? fun i =>
      bit ((fwdS d).reg pgSW 0x124 i) 31 && ((fwdS d).reg64 pgSW 0x11C i).toNat % 2 ^ 48 = d.toNat) = some 0 ∧
    (fwdS d).route ((fwdS d).regF pgSW 0x124 0 16 0) [0, 0, 0, 1] false = some (2, false) ∧ (fwdS d).macUp 2 = true ∧
    ((fwdS d).setReg pgSW 0x100 0).cutThrough 0 (vp 1) = false ∧ (fwdS d).cutThrough 0 (vp 1) = true := by
  rcases hd with rfl | rfl <;> decide +kernel

/-- No entry of the table is VALID where none was written. -/
theorem noEntry {i : Nat} (h : i < 16384) : (macS).reg pgSW 0x124 i = 0 := by
  have e : (macS).regs = [(regKey (pgFAB 0) 0x100 0, 0x00010100)] := by decide +kernel
  have r : regReset pgSW 0x124 = 0 := by decide +kernel
  have k : regKey pgSW 0x124 i / 0x10000 = pgSW * 0x1000 + 0x124 := by simp only [regKey]; omega
  have n : regKey pgSW 0x124 i ≠ regKey (pgFAB 0) 0x100 0 := by simp only [regKey, pgFAB, pgSW]; omega
  have q : (pgSW * 0x1000 + 0x124) / 0x1000 = pgSW ∧ (pgSW * 0x1000 + 0x124) % 0x1000 = 0x124 := by decide
  rw [State.reg, e, SMap.get, if_neg n, SMap.get, regDefault, k, q.1, q.2, r]

/-- An address without an entry, an entry without a route, and a MAC that is down. -/
theorem witness_noForward (d : BitVec 48) (hd : d = 0x020000000105 ∨ d = 0x020000000205) :
    ((List.range 16384).find? fun i => bit ((macS).reg pgSW 0x124 i) 31 && ((macS).reg64 pgSW 0x11C i).toNat % 2 ^ 48 = d.toNat) = none ∧
    ((fwdS d).setReg pgSW 0x114 0 0x105).route 0x105 [0, 0, 0, 1] false = none ∧
    (let u := (fwdS d).updFab fun f => { f with linkUp := [(0, true)] }
     u.route 0x105 [0, 0, 0, 1] false = some (2, false) ∧ u.macUp 2 = false) := by
  refine ⟨List.find?_eq_none.2 fun i hi => ?_, ?_⟩
  · rw [noEntry (List.mem_range.1 hi)]
    simp [bit]
  · rcases hd with rfl | rfl <;> decide +kernel

theorem witness_frameOwn : isOwnMac Config.baseMac = true ∧ (frame0 Config.baseMac).fcsOk = true ∧
    ({ frame0 0 with fcsOk := false } : Frame).fcsOk = false := by
  simp [isOwnMac, frame0]

/-- A multicast address is not the gateway's, or another is not. -/
theorem witness_multicast : ∃ d, isOwnMac d = false ∧ d.getLsbD 40 = true := by
  have h : isOwnMac 0x010000000105 = false ∨ isOwnMac 0x010000000205 = false := by
    simp only [isOwnMac, decide_eq_false_iff_not]
    generalize Config.baseMac = b
    bv_omega
  rcases h with h | h
  · exact ⟨_, h, by decide⟩
  · exact ⟨_, h, by decide⟩

theorem witness_pfc : let s := macS.updFab fun f => { f with held := [(0, 5)] }
    s.pfcEn 0 = true ∧ s.macUp 0 = true ∧ s.priClass 0 (BitVec.ofNat 3 (s.regF (macPg 0) 0x108 0 3)) = some 0 ∧
    SMap.find s.fab.held 0 = some 5 ∧ SMap.find s.fab.longRaised 0 = none ∧
    s.regF (macPg 0) 0x108 24 8 ≠ 0 ∧ ((8 : DWord) - 5).toNat * 27 / 20 ≠ 0 := by decide +kernel

theorem witness_fabPort : let s := ({} : State).setReg (pgFAB 0) 0x100 0x00010000
    s.allows (.func 0) (pgFAB 0) 0x100 1 = true ∧ bit (s.taken (.func 0) (pgFAB 0) 0x100 1) 0 ≠ bit (s.reg (pgFAB 0) 0x100) 0 ∧
    fld (s.reg (pgFAB 0) 0x100) 16 2 ≠ 0 ∧ ({} : State).allows (.func 0) (pgFAB 0) 0x100 1 = true ∧
    fld (({} : State).reg (pgFAB 0) 0x100) 16 2 = 0 := by decide +kernel

theorem witness_rekey : ({} : State).allows (.func 0) pgSW 0x1C8 (withBit 0 0 true) = true := by decide +kernel

theorem witness_mirror : ({} : State).allows (.func 0) pgSW 0x320 0xC0000003 = true ∧
    bit (({} : State).taken (.func 0) pgSW 0x320 0xC0000003) 30 = true ∧ fld (({} : State).taken (.func 0) pgSW 0x320 0xC0000003) 0 5 < 24 ∧
    (∀ j, j < 8 → ({} : State).jobSt j ≠ .running) ∧
    ({} : State).allows (.func 0) pgSW 0x320 0x80000000 = true ∧ bit (({} : State).taken (.func 0) pgSW 0x320 0x80000000) 30 = false ∧
    fld (({} : State).taken (.func 0) pgSW 0x320 0x80000000) 0 5 = ({} : State).regF pgSW 0x324 0 24 ∧
    24 ≤ fld (({} : State).taken (.func 0) pgSW 0x320 0xC0000018) 0 5 ∧
    (running : State).allows (.func 0) pgSW 0x320 0xC0000003 = true ∧ (running : State).jobSt 0 = .running ∧
    bit ((running : State).taken (.func 0) pgSW 0x320 0xC0000003) 31 = true := by decide +kernel

theorem witness_qpQuota : let n (v : Word) := fld (({} : State).taken (.func 0) pgSW 0x400 v) 0 14
    ({} : State).allows (.func 0) pgSW 0x400 100 = true ∧ ({} : State).allows (.func 0) pgSW 0x400 0x3000 = true ∧
    ({} : State).qpUsed 0 ≤ n 100 ∧ n 0x3000 > 8192 := by decide +kernel

theorem witness_readRegion : (running : State).allows (.func 0) pgSW 0x154 (withBit 0 31 true) = true ∧
    bit ((running : State).reg pgSW 0x154 ((running : State).ixOf (.func 0) pgSW 0x154)) 31 = false ∧
    bit ((running : State).taken (.func 0) pgSW 0x154 (withBit 0 31 true)) 30 = false ∧
    bit ((running : State).taken (.func 0) pgSW 0x154 (withBit 0x40000000 31 true)) 30 = true ∧
    (running : State).mirOk true 0 1 0 = false := by decide +kernel

/-- Queue pair 1 with the words 1 and 2 of its context, and what makes a frame of MAC 0 for it sound. -/
def roceQp (c1 c2 : Word) : Qp := { qpAt 3 with ctx := [0, c1, c2] }
def roceS (q : Qp) (s : State := {}) : State := (putQp q (macS s)).setReg pgSW 0x134 0x80000000

/-- What `soundFrame` asks, decided. -/
theorem sound (f : Frame) (q : Qp) (s : State)
    (h : s.macUp 0 = true ∧ s.macEn 0 = true ∧ bit (s.reg pgSW 0x300) 31 = false ∧ bit (s.reg pgSW 0x320) 31 = false ∧
      f.fcsOk = true ∧ f.ipOptions = false ∧ f.udpDst = 4791 ∧ f.kind = .roce ∧ s.qp? f.qpn = some q ∧ f.icrcOk = true ∧
      f.rcOpcode = true ∧ (q.state = 2 ∨ q.state = 3) ∧ f.pkey = q.pkey ∧ s.lipOf f.v6 f.dstIp = some 0 ∧
      s.regF pgSW 0x134 24 3 0 = q.job.val) : s.soundFrame 0 f q := by
  obtain ⟨a1, a2, a3, a4, a5, a6, a7, a8, a9, b1, b2, b3, b4, b5, b6⟩ := h
  exact ⟨a1, a2, a3, a4, a5, a6, a7, a8, a9, b1, b2, b3, b4, 0, b5, b6⟩

theorem witness_roceSend : let q := { roceQp 0x3003 0 with sendBuf := [1] }
    let f := { frame0 Config.baseMac with payload := [2], lastOrOnly := false }
    (roceS q).soundFrame 0 f q ∧ f.ce = false ∧ q.role = 3 ∧ f.psn = q.epsn ∧ f.payload.length ≤ q.pmtu ∧ q.reord = [] :=
  ⟨sound _ _ _ (by decide +kernel), by decide, by decide, by decide, by decide, by decide⟩

theorem witness_roceRead : let q := roceQp 0x103 0x01000000
    let h : Reth := { va := BitVec.ofNat 64 lpSnap, rkey := 0, len := 4 }
    let f := { frame0 Config.baseMac with op := .read, reth := some h }
    let s := (((roceS q).setReg pgSW 0x154 0xC0000000).setReg pgSW 0x158 ((BitVec.ofNat 64 lpSnap).setWidth 32)).setReg pgSW 0x15C
      ((BitVec.ofNat 64 lpSnap >>> 32).setWidth 32) |>.setReg pgSW 0x160 4096
    s.soundFrame 0 f q ∧ f.payload.length ≤ q.pmtu ∧ q.keyRead = true ∧ s.rrOf q.job.val h = some (true, lpSnap) ∧
    (q.readsOpen + s.fab.voq.countP fun p => p.rdEnd && p.qpn = some q.qpn.toNat) < q.maxRd ∧ (putQp q s).readsOpen < 2048 ∧
    s.lpBad lpSnap h.len = false :=
  ⟨sound _ _ _ (by decide +kernel), by decide +kernel⟩

theorem witness_roceRnr : let q := roceQp 0x3003 0
    (roceS q).soundFrame 0 (frame0 Config.baseMac) q ∧ q.sendBuf = [] ∧ (roceS q).scOfIn (frame0 Config.baseMac).qpn = none :=
  ⟨sound _ _ _ (by decide +kernel), by decide, by decide +kernel⟩

/-- A gap, a duplicate, and on a sprayed queue pair one ahead within its window and one beyond. -/
theorem witness_roceWrite : ∀ x ∈ ([(1, 3), (0xFFFFFF, 3), (1, 0x203), (0x200, 0x203)] : List (BitVec 24 × Word)), let q := roceQp x.2 0
    let f := { frame0 Config.baseMac with op := .write, psn := x.1 }
    (roceS q).soundFrame 0 f q ∧ f.psn - q.epsn = x.1 ∧ q.reord = [] ∧ q.nakSent = false ∧ q.spray = decide (x.2 = 0x203) := by
  intro x hx
  simp only [List.mem_cons, List.not_mem_nil, or_false] at hx
  rcases hx with rfl | rfl | rfl | rfl <;> exact ⟨sound _ _ _ (by decide +kernel), by decide⟩

theorem witness_roceUnsupported : let q := roceQp 3 0
    (roceS q).soundFrame 0 { frame0 Config.baseMac with op := .unsupported } q ∧ (roceS q).pageOff (macPg 0) = false :=
  ⟨sound _ _ _ (by decide +kernel), by decide +kernel⟩

theorem witness_roceAck : let q := { roceQp 3 0 with spsn := 2, nxt := 2 }
    let f := { frame0 Config.baseMac with op := .ack, psn := 1 }
    (roceS q).soundFrame 0 f q ∧ q.acks f.psn = true ∧ q.outq = [] :=
  ⟨sound _ _ _ (by decide +kernel), by decide, by decide⟩

theorem witness_qpWindow : (putQp retryQp {}).qp? 1 = some retryQp ∧ (retryQp.nxt - retryQp.una).toNat ≤ 1024 := by decide +kernel

/-! ## Line ports -/

/-- Line ports enabled in LITE-free mode 0, selector 0 VALID for peer 5, revertive. -/
def lineS (l : LinePort := {}) : State :=
  ((({} : State).setReg (pgLINE 0) 0x100 0x80000000).setReg (pgLINE 0) 0x1C4 0xC0000005 0).updLine fun x => { x with ports := #v[l, {}] }

/-- A message from peer 5 to SEID `d`. -/
def pm (d : BitVec 16) : ProtMsg := { dst := d, src := 5, kind := 1, hops := 3, mseq := 9, body := [] }

theorem witness_protDrop : ({ pm 5 with hops := 0 } : ProtMsg).hops = 0 ∧ (lineS).pageOff (pgLINE 0) = false := by decide +kernel

theorem witness_protSelf : ({ pm 5 with src := Config.seid } : ProtMsg).src = Config.seid := rfl

/-- A message that passes through, one without a selector, and ones that are delivered and held: whatever this gateway's own
SEID is, as long as it is not 5. -/
theorem witness_prot (h : Config.seid ≠ 5) : (pm 6).hops ≠ 0 ∧ (pm 6).src ≠ Config.seid ∧ (pm Config.seid).dst = Config.seid ∧
    (lineS).selOf 5 = some 0 ∧ (lineS).selOf 6 = none := ⟨by decide, fun e => h e.symm, rfl, by decide +kernel, by decide +kernel⟩

theorem witness_protDeliver : let u := selEval 0 (updSel 0 (fun x => { x with tmo0 := false }) lineS)
    (u.sel 0).sel = 0 ∧ (u.sel 0).beyond 9 = true ∧ stbyBytes ((u.port 1).stby ++ [(0, pm 5)]) ≤ 256 * 2 ^ 20 ∧ (u.sel 0).sel ≠ 1 := by
  decide +kernel

theorem witness_protOld : let s := updSel 0 (fun x => { x with last := some 9 }) lineS
    let u := selEval 0 (updSel 0 (fun x => { x with tmo0 := false }) s)
    (u.sel 0).sel = 0 ∧ (u.sel 0).beyond 9 = false := by decide +kernel

theorem witness_selector : bit ((lineS).selCtl 0) 31 = true := by decide +kernel

/-- The selector waits to restore: it stands on route 1, its preferred route is 0. -/
theorem witness_wtr : let s := updSel 0 (fun x => { x with sel := 1, wtr := true }) lineS
    bit (s.selCtl 0) 31 = true ∧ (s.sel 0).wtr = true ∧ (s.selRequest 0).1 = 5 := by decide +kernel

theorem witness_line : (lineS).lineEn 0 = true ∧ (lineS).portSf 0 = false ∧ ((lineS).port 0).shown &&& 7 = 0 ∧
    (lineS { shown := 1, defects := 1 }).portSf 0 = true ∧ ((lineS { shown := 1, defects := 1 }).port 0).shown &&& 7 ≠ 0 ∧
    (lineS { shown := 0x40, defects := 0x40 }).portSf 0 = true ∧ ((lineS { shown := 0x40, defects := 0x40 }).port 0).shown &&& 7 = 0 := by
  decide +kernel

theorem witness_frame : (List.replicate (1280 + (lineS).linePay 0) (0 : Byte)).length = 1280 + (lineS).linePay 0 := List.length_replicate

theorem witness_defectSet : ((lineS).port 0).defects.getLsbD (Defect.ix .los) = false ∧
    (unmasked (((lineS).port 0).defects ||| BitVec.ofNat 8 (2 ^ Defect.ix .los))).getLsbD (Defect.ix .los) = true ∧
    (unmasked (((lineS { defects := 1, shown := 1 }).port 0).defects ||| BitVec.ofNat 8 (2 ^ Defect.ix .lof))).getLsbD (Defect.ix .lof) = false := by
  decide +kernel

theorem witness_light : let s := (({} : State).updMgmt fun m => { m with sstate := 2 }).updLine fun x => { x with ports := #v[{ oos := false }, {}] }
    s.mgmt.sstate = 2 ∧ s.lineEn 0 = false ∧ (s.port 0).oos = false ∧ (s.port 0).defects.getLsbD 0 = false := by decide +kernel

theorem witness_defectClear : let s (d : BitVec 8) := lineS { defects := d, shown := unmasked d }
    ((s 0x80).port 0).defects.getLsbD (Defect.ix .deg) = true ∧ ((s 0x80).port 0).shown.getLsbD (Defect.ix .deg) = true ∧
    (s 0x80).portSf 0 = false ∧ ((s 0x81).port 0).shown.getLsbD (Defect.ix .deg) = false ∧ (s 0x81).portSf 0 = true ∧
    (selEvalAll (holdRelease 0 (holdEnd 0 (setDefects 0 0x01 (s 0x81))))).portSf 0 = true ∧
    ((s 0x20).port 0).shown.getLsbD (Defect.ix .bdi) = true ∧
    ((lineS { defects := 0xA0, shown := 0x20 }).port 0).shown.getLsbD (Defect.ix .deg) = false ∧
    (lineS { defects := 0xA0, shown := 0x20 }).portSf 0 = false := by decide +kernel

theorem witness_pm : ((lineS).port 0).unavail = false ∧ ((lineS { sesRun := 9, secSf := true }).port 0).sesRun + 1 ≥ 10 ∧
    ((lineS { unavail := true, okRun := List.replicate 9 (false, 0) }).port 0).okRun.length + 1 ≥ 10 ∧
    ((lineS { unavail := true, secSf := true }).port 0).secSf = true := by decide +kernel

theorem witness_lineCtl : let x (v : Word) := (lineS).taken (.func 0) (pgLINE 0) 0x100 v
    (lineS).allows (.func 0) (pgLINE 0) 0x100 0x81000000 = true ∧ fld (x 0x81000000) 26 2 ≤ 1 ∧ fld (x 0x81000000) 24 2 ≠ 3 ∧
    fld ((lineS).lineCtl 0) 24 4 ≠ fld (x 0x81000000) 24 4 ∧ bit (x 0) 31 ≠ bit ((lineS).lineCtl 0) 31 ∧
    fld ((lineS).lineCtl 0) 24 4 = fld (x 0) 24 4 ∧ bit (x 0x80000000) 31 = bit ((lineS).lineCtl 0) 31 ∧
    bit (({} : State).lineCtl 0) 31 = false ∧ bit (({} : State).taken (.func 0) (pgLINE 0) 0x100 0x80000000) 31 = true ∧
    ((lineS { oos := true }).port 0).oos = true := by decide +kernel

theorem witness_cir : ∀ n, n < 15 → (lineS).cirOver 0 (n + 1) 0 0 = false := by decide +kernel

theorem witness_selCmds : ∀ v : Word, v = 0xC1000005 ∨ v = 0xC2000005 →
    (lineS).allows (.func 0) (pgLINE 0) 0x1C4 (withSel v 1) = true ∧ bit ((lineS).taken (.func 0) (pgLINE 0) 0x1C4 (withSel v 1)) 31 = true ∧
    fld ((lineS).selCtl ((lineS).ixOf (.func 0) (pgLINE 0) 0x1C4)) 0 16 = fld ((lineS).taken (.func 0) (pgLINE 0) 0x1C4 (withSel v 1)) 0 16 ∧
    bit ((lineS).selCtl ((lineS).ixOf (.func 0) (pgLINE 0) 0x1C4)) 31 = true ∧
    (fld (withSel v 1) 24 3 = 1 ∨ fld (withSel v 1) 24 3 = 2) := by
  rintro v (rfl | rfl) <;> decide +kernel

theorem witness_channel : let s := running (lineS)
    s.allows (.func 0) (pgLINE 0) 0x194 0x80400001 = true ∧ bit (s.chCtl 0 0) 31 = false ∧
    bit (s.taken (.func 0) (pgLINE 0) 0x194 0x80400001) 31 = true ∧ chTrib (s.taken (.func 0) (pgLINE 0) 0x194 0x80400001) ≠ 0 := by
  decide +kernel

/-- A channel in use. -/
theorem witness_channelBusy : let s := (running (lineS)).setReg (pgLINE 0) 0x194 0x80400001 0
    s.allows (.func 0) (pgLINE 0) 0x194 0x80400002 = true ∧ bit (s.chCtl 0 (s.ixOf (.func 0) (pgLINE 0) 0x194)) 31 = true ∧
    s.taken (.func 0) (pgLINE 0) 0x194 0x80400002 ≠ s.chCtl 0 (s.ixOf (.func 0) (pgLINE 0) 0x194) ∧
    s.allows (.func 0) (pgLINE 0) 0x194 0x00400001 = true ∧ bit (s.taken (.func 0) (pgLINE 0) 0x194 0x00400001) 31 = false := by
  decide +kernel

theorem witness_trib : (lineS).allows (.func 0) (pgLINE 0) 0x158 0x80000000 = true ∧ (lineS).lineEn 0 = true ∧
    bit (((lineS).setReg (pgLINE 0) 0x158 0xC0000000).tribReg 0 2) 30 = true ∧
    ((lineS).setReg (pgLINE 0) 0x158 0xC0000000).taken (.func 0) (pgLINE 0) 0x158 0 ≠ ((lineS).setReg (pgLINE 0) 0x158 0xC0000000).tribReg 0 2 := by
  decide +kernel

theorem witness_slotmap : (lineS).allows (.func 0) (pgLINE 0) 0x140 2 = true ∧
    (∀ n, n < 16 → (lineS).tribHasCh 0 n = false ∧ (lineS).relayOn 0 n = false ∧ (lineS).relayOn 1 n = false) := by decide +kernel

theorem witness_fwdFelt : (lineS).allows (.func 0) (pgLINE 0) 0x1B0 3 = true ∧
    (lineS).taken (.func 0) (pgLINE 0) 0x1B0 3 ≠ (lineS).reg (pgLINE 0) 0x1B0 ∧
    ((List.range 15).any fun n => (lineS).relayOn 0 (n + 1)) = false ∧
    ((List.range 15).any fun n => ((lineS).setReg (pgLINE 0) 0x158 0xC0000000).relayOn 0 (n + 1)) = true := by decide +kernel

/-! ## Optics -/

/-- Bay 0 feeds its pair, and the others are empty. -/
def lit : Vector LBay 4 := #v[{ st := 1 }, {}, {}, {}]

/-- Optics as given, with engine 0 locked on its lines and its spare parked. -/
def optS (o : Opt := { bays := lit }) : State :=
  ({} : State).updOpt fun _ => { o with rings := (List.range 9).map fun i => (i, { st := if i < 8 then 0 else 5, line := i }) }

/-- Engine 0 as given. -/
def engO (e : OEng) (o : Opt := { bays := lit }) : State := optS { o with engs := vset o.engs 0 e }

theorem witness_loop : (optS).loopLit .ringLock 0 = true ∧ (optS).isFresh .ringLock 0 = false ∧ (optS).loopLit .ringLock 8 = false ∧
    (let s := optS { fresh := [(0, true)], bays := lit }
     s.loopLit .ringLock 0 = true ∧ s.isFresh .ringLock 0 = true) ∧ (optS).opt.refOk = true := by decide +kernel

theorem witness_temp : (optS).pageOff pgOPT = false ∧ ((optS).oeng 0).outside = false ∧ (optS).loopLit .ringLock 3 = true ∧
    (optS).loopLit .ringLock 8 = false ∧ ((engO { outside := true }).oeng 0).outside = true := by decide +kernel

theorem witness_calStart : (optS).regF pgOPT 0x100 0 16 ≠ 0 ∧ (engO { temp := 9000 }).calMoved 0 = true ∧ (optS).calMoved 0 = false ∧
    (optS).engLit 0 = true ∧ ((optS).oeng 0).cal = none ∧ ((optS).oeng 0).cover = none ∧ (optS).fading 0 = false ∧
    ((optS).mring 0 0).st = 0 ∧ (∀ i, i < 0 → ((optS).mring 0 i).st ≠ 0) := by
  refine ⟨?_, ?_, ?_, ?_, ?_, ?_, ?_, ?_, fun i h => absurd h (Nat.not_lt_zero i)⟩ <;> decide +kernel

theorem witness_calDone : ((engO { cal := some 7 }).oeng 0).cal = some 7 ∧ (∀ i, 7 < i → i < 8 → ((engO { cal := some 7 }).mring 0 i).st ≠ 0) :=
  ⟨by decide +kernel, fun i h h' => absurd h (by omega)⟩

theorem witness_calNext : let s := engO { cal := some 2 }
    (s.oeng 0).cal = some 2 ∧ (s.mring 0 3).st = 0 ∧ (∀ i, 2 < i → i < 3 → (s.mring 0 i).st ≠ 0) :=
  ⟨by decide +kernel, by decide +kernel, fun i h h' => absurd h (by omega)⟩

/-- Bays: 0 feeds and has faded twice, 3 stands by or is empty. -/
def bayS (b3 : Nat) (o : Opt := {}) : State :=
  optS { o with bays := #v[{ st := 1, warnRun := 2, actRun := 2 }, { st := 1 }, { st := 1 }, { st := b3 }] }

theorem witness_fade : ((bayS 2).bay 0).st = 1 ∧ ((bayS 2).bay 0).actRun + 1 = 3 ∧ ((bayS 2).bay 3).st = 2 ∧ (bayS 2).opt.xf = none ∧
    ¬ ((0 : Nat) < 3 ∧ ((bayS 0).bay 3).st = 2 ∧ (bayS 0).opt.xf = none) := by decide +kernel

theorem witness_crossfade : (bayS 3 { xf := some (0, false) }).opt.xf = some (0, false) ∧
    (bayS 3 { xf := some (0, true) }).opt.xf = some (0, true) := by decide +kernel

theorem witness_remove : ((bayS 2).bay 0).fitted = true ∧ ((bayS 2).bay 0).st = 1 ∧
    (∀ k rev, (bayS 2).opt.xf = some (k, rev) → (0 : Nat) ≠ k ∧ (0 : Nat) ≠ 3) ∧
    (bayS 3 { xf := some (0, false) }).opt.xf = some (0, false) ∧ (match exec (.lmodRemove 0) (bayS 2) with | .next t => t.engLit 0 | _ => true) = false ∧
    ((bayS 2).mring 0 0).on = true ∧ ((bayS 2).bay 3).st ≠ 1 :=
  ⟨by decide +kernel, by decide +kernel, nofun, by decide +kernel, by decide +kernel, by decide +kernel, by decide +kernel⟩

theorem witness_insert : ((optS { bays := #v[{ fitted := false }, {}, {}, {}] }).bay 0).fitted = false := by decide +kernel

/-- Bay 0 is in its self-test; bay 3 feeds its pair. -/
def testS : State := (optS { bays := #v[{ st := 6 }, { st := 1 }, { st := 1 }, { st := 1 }], pair := 0 }).setReg pgOPT 0x100 0x01000000

theorem witness_selfTest : (testS.bay 0).st = 6 ∧ (testS.bay 3).st = 1 ∧ testS.opt.pair = 0 ∧ testS.opt.xf = none ∧
    bit (testS.reg pgOPT 0x100) 24 = true ∧ (List.replicate 9 (0 : Int)).length = 9 ∧
    ((optS { bays := #v[{ st := 6 }, {}, {}, {}] }).bay 3).st ≠ 1 := by decide +kernel

theorem witness_laneId : (optS).engLit 0 = true ∧ ((optS).oeng 0).cal = none ∧ ((optS).oeng 0).cover = none ∧
    (∀ i, i < 8 → i ≠ 2 → (4#8).getLsbD i = false ∧ ((optS).mring 0 i).st = 0) ∧ ((optS).mring 0 2).st = 0 ∧
    SMap.get (fun _ => 0) ((optS).oeng 0).mis 2 = 0 ∧ SMap.get (fun _ => 0) ((engO { mis := [(2, 1)] }).oeng 0).mis 2 = 1 := by
  decide +kernel

theorem witness_relocked : let s := updMring 0 2 (fun r => { r with st := 3 }) (engO { cover := some 2 })
    (s.mring 0 2).st = 3 ∧ (s.oeng 0).cover = some 2 ∧ (s.oeng 0).cal = none ∧ s.engLit 0 = true ∧
    ((SMap.find (s.oeng 0).fails 2).getD []).length < 2 ∧
    (let u := updMring 0 2 (fun r => { r with st := 3 }) (engO { cover := some 2, fails := [(2, [0, 0])] })
     2 ≤ (((SMap.find (u.oeng 0).fails 2).getD []).filter fun x => decide ((u.time.nt - x).toNat < 1000000000)).length) ∧
    (∀ i, i < 8 → i ≠ 2 → (0#8).getLsbD i = false ∧ (s.mring 0 i).st = 0) := by
  decide +kernel

/-- Port 0 with active laser 0 lit and its standby in the given state. -/
def lasS (st : Nat) (u : LUnit := {}) : State :=
  optS { units := #v[{ u with act := some 0, lasers := #v[{ st := 3 }, { st := st }] }, {}] }

theorem witness_standby : (lasS 1).stbySt 0 = 1 ∧ (lasS 2).stbySt 0 = 2 ∧ ((lasS 1).lunit 0).act.isSome = true ∧
    (lasS 1).pageOff pgOPT = false := by decide +kernel

theorem witness_lineFade : ((lasS 2 { warnRun := 2, actRun := 2 }).lunit 0).act = some 0 ∧
    (((lasS 2).lunit 0).lasers.getD 0 {}).st = 3 ∧ ((lasS 2 { warnRun := 2, actRun := 2 }).lunit 0).actRun + 1 = 3 ∧
    bit (({} : State).reg pgOPT 0x100) 25 = true := by decide +kernel

theorem witness_switchStart : ((lasS 2 { pend := true }).lunit 0).pend = true ∧ ((lasS 2 { pend := true }).lunit 0).switching = false ∧
    (lasS 2 { pend := true }).otherDark 0 = false ∧ (lasS 2 { pend := true }).stbySt 0 = 2 := by decide +kernel

theorem witness_switchNot : ((lasS 1 { pend := true }).lunit 0).pend = true ∧ ((lasS 1 { pend := true }).lunit 0).switching = false ∧
    (lasS 1 { pend := true }).otherDark 0 = false ∧ (lasS 1 { pend := true }).stbySt 0 ≠ 2 ∧ (lasS 2 { pend := true }).opt.refOk = true ∧
    (updPort 1 (fun l => { l with holdTx := true }) (lasS 2 { pend := true })).otherDark 0 = true := by decide +kernel

theorem witness_fineLock : ((lasS 2 { switching := true }).lunit 0).switching = true ∧
    (((lasS 2 { switching := true }).port 0)).shown = 0 ∧
    ((updPort 0 (fun l => { l with holdTx := true }) (lasS 2 { switching := true })).port 0).holdTx = true := by decide +kernel

theorem witness_emergency : (lasS 2).stbySt 0 = 2 ∧ (lasS 0).stbySt 0 ≠ 2 ∧ (((lasS 0).lunit 0).lasers.getD 0 {}).st = 3 := by decide +kernel

theorem witness_replace : (optS).lineEn 0 = false := by decide +kernel

theorem witness_tim : let s := updPort 0 (fun l => { l with defects := 0x10 }) (lasS 0 { relit := true })
    (s.lunit 0).relit = true ∧ (s.port 0).defects.getLsbD 4 = true := by decide +kernel

/-- The active laser takes its set point again when TIM emerges; a trim within 1.5 GHz locks it. -/
theorem witness_timStart : let s := updPort 0 (fun l => { l with told := 0 }) ((lasS 2).setReg (pgLINE 0) 0x100 0x80000000)
    s.lineEn 0 = true ∧ (s.port 0).defects.getLsbD 4 = false ∧ (s.port 0).told = (s.port 0).defects ∧
    (unmasked ((s.port 0).defects ||| 0x10)).getLsbD 4 = true ∧ s.opt.refOk = true ∧ (s.lunit 0).timExt = false ∧ (s.lunit 0).act = some 0 ∧
    ((s.lunit 0).lasers.getD 0 {}).st = 3 := by decide +kernel

/-- Port 0's active laser is blanked for a re-lock. -/
def relockS (o : Opt := {}) : State :=
  optS { o with units := #v[{ act := some 0, relock := true, lasers := #v[{ st := 1 }, { st := 2 }] }, {}] }

theorem witness_loopRelock : (relockS).loopLit .lineFreq 0 = true ∧ (relockS).isFresh .lineFreq 0 = false ∧ (relockS).opt.refOk = true ∧
    ((relockS).lunit 0).relock = true ∧ (relockS).actLaser 0 = 0 ∧ (relockS { fresh := [(512, true)] }).isFresh .lineFreq 0 = true ∧
    (relockS { refOk := false }).opt.refOk = false ∧ (relockS { refOk := false }).isFresh .lineFreq 0 = false := by decide +kernel

theorem witness_refFail : (relockS { setPts := [(512, 7)] }).opt.refOk = true ∧
    SMap.find (relockS { setPts := [(512, 7)] }).opt.setPts (actKey .lineFreq 0) = some 7 ∧ ((relockS).lunit 0).relock = true ∧
    (relockS).actLaser 0 < 2 := by decide +kernel

theorem witness_tblData : (optS).allows (.func 0) pgOPT 0x144 5 = true ∧
    tblIx ((optS).idx (.func 0) pgOPT 0x140) = some (0, 0, 0) := by decide +kernel

theorem witness_optCmds : (optS).allows (.func 0) pgOPT 0x148 5 = true ∧
    (∀ v, v = 0x0700#32 ∨ v = 0x0200#32 ∨ v = 0x8000#32 ∨ v = 0x300000#32 ∨ v = 0x10000#32 → ∀ n, n < 6 →
      (optS).allows (.func 0) pgOPT 0x108 (withCmd v 4 n) = true) := by
  refine ⟨by decide +kernel, ?_⟩
  rintro v (rfl | rfl | rfl | rfl | rfl) <;> decide +kernel

theorem witness_calLane : (optS).engLit 0 = true ∧ (optS { bays := #v[{ fitted := false }, {}, {}, {}] }).engLit 0 = false ∧ ((engO { cover := some 1 }).oeng 0).cover.isSome = true ∧ ((optS).oeng 0).cover = none ∧
    ((optS).oeng 0).cal = none ∧ (optS).fading 0 = false ∧ ((optS).mring 0 0).st = 0 ∧
    ((engO { cal := some 1 }).oeng 0).cal.isSome = true := by decide +kernel

theorem witness_lineSwitch : (optS { refOk := false }).opt.refOk = false ∧ (optS).stbySt 0 ≠ 2 ∧ (lasS 2).stbySt 0 = 2 ∧
    (lasS 2).opt.refOk = true ∧ (updPort 1 (fun l => { l with holdTx := true }) (lasS 2)).otherDark 0 = true ∧
    ((updPort 1 (fun l => { l with holdTx := true }) (lasS 2)).lunit 0).pend = false := by decide +kernel

theorem witness_revert : let s := optS { bays := #v[{ st := 2 }, {}, {}, { st := 1 }] }
    (s.bay 3).st = 1 ∧ s.opt.pair = 0 ∧ (s.bay 0).st = 2 ∧ s.opt.xf = none ∧
    ¬ (((optS).bay 3).st = 1 ∧ (optS).opt.pair = 0 ∧ ((optS).bay 0).st = 2) ∧ (optS { xf := some (0, true) }).opt.xf.isSome = true := by
  decide +kernel

theorem witness_saveTables : (optS).opt.xf = none ∧ (∀ e, e < 6 → ((optS).oeng e).cal = none) := by decide +kernel

theorem witness_laneReturnNext : let s := updMring 0 0 (fun r => { r with st := 1 }) (updMring 0 3 (fun r => { r with st := 4 }) (engO { cover := some 0 }))
    (s.mring 0 0).st = 1 ∧ (s.oeng 0).cover = some 0 ∧ (s.mring 0 3).st = 4 ∧ (∀ i, i < 3 → i ≠ 0 → (s.mring 0 i).st ≠ 4) ∧
    (∀ i, i < 8 → i ≠ 0 → ((updMring 0 0 (fun r => { r with st := 4 }) (engO { cover := some 0 })).mring 0 i).st ≠ 4) := by decide +kernel

theorem witness_laneReturn : ((updMring 0 0 (fun r => { r with st := 4 }) (engO { cover := some 0 })).mring 0 0).st = 4 ∧
    ((engO { cover := some 0 }).oeng 0).cover = some 0 ∧ ((optS).oeng 0).cover ≠ some 0 ∧
    ((optS).mring 0 0).st ≠ 1 ∧ ((optS).mring 0 0).st ≠ 4 := by decide +kernel

/-! ## The cipher -/

/-- A link session UP on port 0 with its root key, and the receive engines in service. -/
def ciphS (x : Sess := {}) : State :=
  ({} : State).updCiph fun c => { c with keys := [(1, [1]), (16, [1])], sess := [(64, { x with gens := [0] })] }

/-- A PROT segment with no plaintext and SCNT 5: 48 bytes with the tag. -/
def segP : List Byte := SegHdr.bytes ⟨3, 0, 0, 0, 0, 0, 0, 0, 5⟩ ++ List.replicate 16 0

theorem witness_segment : let pg := pgCIPH 0
    (ciphS).pageOff pg = false ∧ (ciphS).regF pg 0x100 8 4 ≠ 0 ∧ segWell 0 segP = true ∧ (segHdrOf segP).ty ≠ 5 ∧
    ((ciphS).rxCtx 0 0 (segHdrOf segP)).isSome = true ∧ ({} : State).rxCtx 0 0 (segHdrOf segP) = none ∧ segWell 0 [] = false ∧
    (((ciphS).setReg pg 0x100 0xF).regF pg 0x100 8 4) = 0 ∧ segWell 0 (hsSegment [1]) = true ∧ (segHdrOf (hsSegment [1])).ty = 5 ∧
    ((ciphS).ctx { port := 0, tx := false, ltype := 2 }).lastOf 0 0 = none := by decide +kernel

/-- The same SCNT again. -/
theorem witness_replay : let d : Ctx := { port := 0, tx := false, ltype := 2 }
    let s := putCtx (d.accept 0 0 5) ciphS
    (s.rxCtx 0 0 (segHdrOf segP)).isSome = true ∧ (s.ctx d).lastOf 0 0 = some 5 ∧ (segHdrOf segP).scnt ≤ 5 := by decide +kernel

theorem witness_contextLoad : let d : Ctx := { port := 0, tx := true, ltype := 1, jobtag := 7, chan := 0 }
    let s (r : Bool) := ({} : State).updCiph fun c => { c with ctxs := [{ d with resident := r }] }
    ((s true).ctx d).resident = true ∧ ((s false).ctx d).resident = false ∧ (s false).ciph.ctxs.length ≤ 512 := by decide +kernel

/-- A record is being sent on tributary 0 of port 0. -/
theorem witness_parity : let q : QRec :=
      { job := 0, chan := 0, kind := 0, r := { jobtag := 0, chan := 0, xfer := 0, rseq := 0, epoch := 0, count := 0, tbytes := 0 } }
    let s := updPort 0 (fun l => { l with cur := [(0, [7])], curOf := [(0, .record q)] }) ciphS
    bit (s.reg (pgCIPH 0) 0x100) 0 = true ∧ s.pageOff (pgCIPH 0) = false ∧ SMap.find (s.port 0).curOf 0 = some (.record q) ∧
    SMap.find (s.port 0).cur 0 = some [7] ∧
    fld (((s.setReg (pgCIPH 0) 0x100 0xF01).setReg (pgCIPH 1) 0x100 0).reg (pgCIPH 0) 0x100) 0 4 = 2 ^ 0 ∧
    ((s.setReg (pgCIPH 0) 0x100 0xF01).setReg (pgCIPH 1) 0x100 0).txEngines 1 = 0 := by decide +kernel

theorem witness_engine : bit ((ciphS).reg (pgCIPH 0) 0x100) 8 = true ∧ bit ((ciphS).reg (pgCIPH 0) 0x100) (1 + 8) = true ∧
    bit ((((ciphS).setReg (pgCIPH 0) 0x100 0x10F)).reg (pgCIPH 0) 0x100) 8 = true ∧
    fld ((((ciphS).setReg (pgCIPH 0) 0x100 0x10F)).reg (pgCIPH 0) 0x100) 8 4 = 2 ^ 0 ∧
    (ciphS).allows (.func 0) (pgCIPH 0) 0x100 0xF0F = true := by decide +kernel

theorem witness_session : ((ciphS { st := 2 }).sess 64).live = true ∧ (bootS { done := 0xFFF }).boot.done.getLsbD 11 = true ∧
    (bootS {}).boot.done.getLsbD 11 = false := by decide +kernel

/-- Port 0's line is enabled, and its session stands as given. -/
def linkS (x : Sess := {}) : State := (ciphS x).setReg (pgLINE 0) 0x100 0x80000000

theorem witness_sessOn : (linkS).sessOn 64 = true ∧ ((linkS).sess 64).await = 0 ∧ ((linkS { st := 2 }).sess 64).st = 2 ∧
    ((linkS { await := 3, kx1 := [1] }).sess 64).await = 3 ∧ ((linkS { await := 3, kx1 := [1] }).sess 64).kx1 = [1] ∧
    ((linkS { await := 2 }).sess 64).await = 2 ∧ ((linkS { await := 4, sends := 5 }).sess 64).await = 4 ∧
    5 ≤ ((linkS { await := 4, sends := 5 }).sess 64).sends ∧ ((linkS { kx3 := [1] }).sess 64).kx3 = [1] := by decide +kernel

/-- CIPH_PEER entry 0 in use for SEID 9; a stream end that names it. -/
def peerS : State := (ciphS).setReg (pgCIPH 0) 0x114 0x80000009 0

theorem witness_peerCtl : let p := pgCIPH 0
    let named := (peerS.setReg pgOUTER 0x144 0x80000000 0).setReg pgOUTER 0x148 9 0
    peerS.allows (.func 0) p 0x114 0 = true ∧ bit (peerS.taken (.func 0) p 0x114 0) 31 = false ∧
    bit (peerS.reg p 0x114 (peerS.ixOf (.func 0) p 0x114)) 31 = true ∧ peerS.peerNamed 9 = false ∧
    named.allows (.func 0) p 0x114 0 = true ∧ named.peerNamed (fld (named.reg p 0x114 (named.ixOf (.func 0) p 0x114)) 0 16) = true ∧
    peerS.allows (.func 0) p 0x114 0x80000008 = true ∧ peerS.taken (.func 0) p 0x114 0x80000008 ≠ 0x80000009 ∧
    bit (peerS.taken (.func 0) p 0x114 0x80000008) 31 = true ∧ (ciphS).allows (.func 0) p 0x114 0x80000009 = true ∧
    bit ((ciphS).reg p 0x114 ((ciphS).ixOf (.func 0) p 0x114)) 31 = false ∧ (ciphS).allows (.func 0) p 0x114 9 = true ∧
    bit ((ciphS).taken (.func 0) p 0x114 0x80000009) 31 = true ∧ bit ((ciphS).taken (.func 0) p 0x114 9) 31 = false := by decide +kernel

/-! ## Time -/

/-- The time unit as given, with source P0 selected. -/
def timeS (x : TimeB := {}) : State := (({} : State).updTime fun _ => x).setReg (pgTIME 0) 0x100 0x01F40002

/-- Port 0 has a whole window with mean offset `a` ns against its peer. -/
def winS (st : Nat) (a : Int) (o : Nat := 0) : State :=
  timeS { st := st, active := 2, outliers := o, ports := #v[{ n := 64, sumA := 128 * a, stratum := 1, locked := true }, {}] }

theorem witness_noSource : (({} : State)).regF (pgTIME 0) 0x100 0 2 = 0 := by decide +kernel

/-- Port 0's peer names no upstream of this gateway: whatever its own SEID is, as long as it is not 0. -/
theorem witness_window (h : Config.seid ≠ 0) : (winS 2 10).regF (pgTIME 0) 0x100 0 2 ≠ 0 ∧ (winS 2 10).srcWanted = 2 ∧
    (winS 2 10).time.active = 2 ∧ 64 ≤ ((winS 2 10).tport 0).n := by
  refine ⟨by decide +kernel, ?_, by decide +kernel, by decide +kernel⟩
  have h1 : (winS 2 10).portSf 0 = false := by decide +kernel
  have h2 : ((winS 2 10).tport 0).upSeid = 0 := by decide +kernel
  have h3 : ((winS 2 10).tport 0).stratum = 1 := by decide +kernel
  have h4 : fld ((winS 2 10).reg (pgTIME 0) 0x100) 0 2 = 2 := by decide +kernel
  have h5 : (0 : Nat) ≠ Config.seid.toNat := fun e => h (BitVec.eq_of_toNat_eq e.symm)
  simp [State.srcWanted, State.srcUsable, h1, h2, h3, h4, h5]

theorem witness_offsets : ¬ ((winS 2 10).portTheta 0).1.natAbs > (winS 2 10).jumpNs * ((winS 2 10).portTheta 0).2 ∧
    ((winS 2 5000).portTheta 0).1.natAbs > (winS 2 5000).jumpNs * ((winS 2 5000).portTheta 0).2 ∧
    (winS 2 5000 3).time.outliers = 3 ∧ (winS 1 5000).time.st = 1 ∧ (winS 1 5000).pageOff (pgTIME 0) = false := by decide +kernel

theorem witness_srcLost : (timeS { st := 2, active := 1 }).time.st ≠ 0 ∧ (timeS { st := 2, active := 1 }).time.lost = false ∧
    ¬ (2 ≤ (timeS { st := 2, active := 1 }).time.active ∧ (timeS { st := 2, active := 1 }).srcUsable 1 = true) := by decide +kernel

theorem witness_asymDone : (timeS { busy := true, calPort := some 1 }).time.calPort = some 1 := by decide +kernel

/-- A correction to 10 s with an operation armed for 1 s. -/
theorem witness_ppsArmed : let e : Entry := { entry 1 .armed with d := { desc 1 with trig := 2, trigVal := 1000000000 } }
    let s := withEntry e ((timeS { busy := true, setPend := true }).setReg (pgTIME 0) 0x118 10)
    s.time.setPend = true ∧ e ∈ s.sch.ops ∧ e.st = .armed ∧ e.d.trig = 2 ∧
    passed s.time.nt (s.reg64 (pgTIME 0) 0x118 * 1000000000) e.d.trigVal = true := by decide +kernel

theorem witness_pps : (timeS { busy := true, setPend := true }).time.setPend = true ∧ (timeS).time.setPend = false ∧
    (timeS { ioOwner := 1 }).time.ioOwner = 1 ∧ (timeS { ioOwner := 1 }).time.pps = false := by decide +kernel

/-- A completion record. -/
def crec0 : CRec := { seq := 0, kind := 0, job := 0, opcode := 0x42, status := 0, tag := 0, result := 0, detail := 0 }

/-- A launch at time `t` on MAC 0, the time being 0x10000. -/
def launchS (t : Word) (arm : Bool) : State :=
  timeS { nt := 0x10000, armed := if arm then [(0, true)] else []
          launches := [(0, [{ t := t, frame := [1], tsid := none, f := 0, r := crec0 }])] }

/-- A launch at `t`, as it stands in its slot. -/
def launch0 (t : Word) : Launch := { t := t, frame := [1], tsid := none, f := 0, r := crec0 }

theorem witness_launch : (launchS 0x10100 false).launchesOf 0 = [launch0 0x10100] ∧
    SMap.find (launchS 0x10100 false).time.armed 0 = none ∧
    -((launchS 0x10100 false).regF (pgTIME 0) 0x128 0 16 : Int) ≤ (launchS 0x10100 false).pastT 0x10100 ∧
    (launchS 0x10100 false).pastT 0x10100 ≤ 10 ∧
    (SMap.find (launchS 0x10000 true).time.armed 0).isSome = true ∧
    0 ≤ (launchS 0x10000 true).pastT 0x10000 ∧
    (launchS 0x10000 true).pastT 0x10000 ≤ max 10 ((launchS 0x10000 true).regF (pgTIME 0) 0x128 16 16) ∧
    max 10 ((launchS 0x8000 true).regF (pgTIME 0) 0x128 16 16) < (launchS 0x8000 true).pastT 0x8000 ∧
    10 < (launchS 0xFF00 true).pastT 0xFF00 ∧
    (launchS 0xFF00 true).pastT 0xFF00 ≤ (launchS 0xFF00 true).regF (pgTIME 0) 0x128 16 16 := by
  refine ⟨?_, ?_, ?_, ?_, ?_, ?_, ?_, ?_, ?_, ?_⟩ <;> decide +kernel

theorem witness_timeCmds : ∀ n, n < 5 → (timeS).allows (.func 0) (pgTIME 0) 0x108 (withCmd 0x100 4 n) = true ∧
    (timeS { busy := true }).allows (.func 0) (pgTIME 0) 0x108 (withCmd 0x100 4 n) = true ∧
    (timeS { st := 3, theta := some (80, 20) }).allows (.func 0) (pgTIME 0) 0x108 (withCmd 0x100 4 n) = true ∧
    (timeS { st := 2, active := 2, mepoch := 3, master := 9, ports := #v[{}, { locked := true, master := 9, mepoch := 3 }] }).allows
      (.func 0) (pgTIME 0) 0x108 (withCmd 0x100 4 n) = true := by decide +kernel

theorem witness_calAsym :
    let s := timeS { st := 2, active := 2, mepoch := 3, master := 9, ports := #v[{}, { locked := true, master := 9, mepoch := 3 }] }
    s.time.st = 2 ∧ s.time.active ≠ fld (0x100#32) 8 1 + 2 ∧ (s.tport (fld (0x100#32) 8 1)).locked = true ∧
    (s.tport (fld (0x100#32) 8 1)).mepoch = s.time.mepoch ∧ (s.tport (fld (0x100#32) 8 1)).master = s.time.master ∧
    s.time.active ≠ 1 ∧ s.time.busy = false := by decide +kernel

theorem witness_timeModes : (timeS { st := 3, theta := some (80, 20) }).time.theta = some (80, 20) ∧ (timeS).time.theta = none ∧
    (timeS { st := 2, active := 1 }).time.active = 1 ∧ (timeS { st := 2, active := 1 }).time.st ≠ 0 ∧
    (timeS { st := 2, active := 1 }).allows (.func 0) (pgTIME 0) 0x108 (withCmd 0 4 4) = true ∧
    (timeS { st := 2, active := 1 }).allows (.func 0) (pgTIME 0) 0x108 (withCmd 0 4 2) = true := by decide +kernel

theorem witness_timeRegs : (timeS).allows (.func 0) (pgTIME 0) 0x100 1 = true ∧ (timeS).allows (.func 0) (pgTIME 0) 0x12C 1 = true ∧
    (timeS).time.ioOwner ≠ 2 ∧ (timeS { ioOwner := 2 }).allows (.func 0) (pgTIME 0) 0x12C 1 = true ∧
    (timeS { ioOwner := 1 }).allows (.func 0) (pgTIME 0) 0x12C 0 = true := by decide +kernel

theorem witness_timeReads : (timeS).reaches (.func 0) (pgTIME 0) = true ∧ (timeS).pageOff (pgTIME 0) = false ∧ isPf 0 = true ∧
    (timeS { tsq := [⟨1, 2, 3⟩] }).time.tsq = ⟨1, 2, 3⟩ :: [] ∧ (timeS).time.tsq = [] := by decide +kernel

/-! ## Memories and buffer pools -/

theorem witness_scrub : let a := 64
    ({} : State).regF (pgMEM (({} : State).hbmDie a)) 0x100 0 8 ≠ 0 ∧ ({} : State).pageOff (pgMEM (({} : State).hbmDie a)) = false ∧
    ({} : State).hbmBad a 1 = false ∧ scrubLast true a = false ∧ scrubLast false (lpSnapEnd - 8) = true ∧
    ({} : State).lpBad (lpSnapEnd - 8) 1 = false ∧ ({} : State).regF pgMEM2 0x100 0 8 ≠ 0 ∧ ({} : State).pageOff pgMEM2 = false ∧
    (hbmUe 64 0 {}).hbmBad 64 1 = true ∧ (({} : State).setReg pgMEM2 0x100 0).regF pgMEM2 0x100 0 8 = 0 := by decide +kernel

/-- One pseudo-channel carries everything: 40,000,000 bytes in the window. -/
theorem witness_imbalWindow : let l := (List.range 96).map fun i => [40000000].getD i 0
    ({} : State).windowHot 0 l = true ∧ ({} : State).regF (pgMEM 0) 0x108 24 8 ≠ 0 ∧
    (({} : State).mem.imbal.getD 0 {}).state = false ∧ (({} : State).mem.imbal.getD 0 {}).run + 1 < ({} : State).regF (pgMEM 0) 0x108 24 8 ∧
    ({} : State).windowHot 0 ((List.range 96).map fun i => ([] : List Nat).getD i 0) = false ∧
    (let s := ({} : State).updMem fun m => { m with imbal := #v[{ run := 254 }, {}] }
     s.regF (pgMEM 0) 0x108 24 8 ≤ (s.mem.imbal.getD 0 {}).run + 1) := by decide +kernel

/-- Buffer 0 of pool 7 is out for a mirror, and a request waits for it. -/
def poolS (ws : List PoolReq := []) : State :=
  (({} : State).setReg pgPOOL 0x180 1).updPool fun p =>
    { p with bufs := [(poolKey 7 0, ⟨.mirror, 3, none, 64⟩)], gens := [(poolKey 7 0, 5)], waiting := ws }

theorem witness_pool : SMap.find (poolS).pool.bufs (poolKey 7 0) = some ⟨.mirror, 3, none, 64⟩ ∧ poolOwnerNum .mirror = (3#8).toNat ∧
    SMap.get (fun _ => 0) (poolS).pool.gens (poolKey 7 0) = (5#8).toNat ∧ SMap.find (poolS).pool.bufs (poolKey 7 1) = none ∧
    (poolS [⟨.dump, 1, none, 7, 1, 64⟩]).pool.waiting = [⟨.dump, 1, none, 7, 1, 64⟩] ∧
    ((poolS [⟨.dump, 1, none, 7, 1, 64⟩]).updPool fun p => { p with bufs := SMap.erase (poolKey 7 0) p.bufs }).poolOver ⟨.dump, 1, none, 7, 1, 64⟩ 7 = false ∧
    ((poolS).poolUsedIx 7).length ≤ (poolS).poolBufs 7 ∧ (poolS).pageOff pgPOOL = false := by decide +kernel

/-- Job 0 is at its limit of 1 MiB with a buffer of the largest pool. -/
theorem witness_poolLimit : let r : PoolReq := ⟨.dump, 1, some 0, 7, 1, 64⟩
    let s := ((poolS [r]).setReg pgPOOL 0x200 1).updPool fun p => { p with bufs := (poolKey 0 0, ⟨.mirror, 4, some 0, 64⟩) :: p.bufs }
    SMap.find s.pool.bufs (poolKey 7 0) = some ⟨.mirror, 3, none, 64⟩ ∧ SMap.get (fun _ => 0) s.pool.gens (poolKey 7 0) = 5 ∧
    s.pool.waiting = [r] ∧ s.pool.limited = [] ∧ (s.poolUsedIx 7).length ≤ s.poolBufs 7 ∧
    (s.updPool fun p => { p with bufs := SMap.erase (poolKey 7 0) p.bufs }).poolOver r 7 = true := by decide +kernel

theorem witness_poolSize : ({} : State).allows (.func 0) pgPOOL 0x180 1 = true ∧ (poolS).allows (.func 0) pgPOOL 0x180 1 = true ∧
    (poolS).pool.bufs ≠ [] ∧ ({} : State).pool.bufs = [] ∧
    ((List.range 8).map fun i => if i = 7 then fld (({} : State).taken (.func 0) pgPOOL 0x180 1) 0 11
      else ({} : State).regF pgPOOL (0x110 + 0x10 * i) 0 11).sum ≤ 1024 ∧
    ({} : State).allows (.func 0) pgPOOL 0x180 0x7FF = true ∧
    1024 < ((List.range 8).map fun i => if i = 7 then fld (({} : State).taken (.func 0) pgPOOL 0x180 0x7FF) 0 11
      else ({} : State).regF pgPOOL (0x110 + 0x10 * i) 0 11).sum := by decide +kernel

theorem witness_memRange : ({} : State).allows (.func 0) pgMEM2 0x200 0x10000 = true ∧ ({} : State).memBusy 0 = false ∧
    fld (({} : State).taken (.func 0) pgMEM2 0x200 0x10000) 16 14 = 1 ∧
    ({} : State).allows (.func 0) pgMEM2 0x200 0x13FFF = true ∧
    640 * 2 ^ 30 < fld (({} : State).taken (.func 0) pgMEM2 0x200 0x13FFF) 0 14 * 2 ^ 26 +
      fld (({} : State).taken (.func 0) pgMEM2 0x200 0x13FFF) 16 14 * 2 ^ 26 ∧
    (let s := ({} : State).setReg pgSW 0x154 0xC0000000 0; s.memBusy 0 = true ∧ s.allows (.func 0) pgMEM2 0x200 0 = true) ∧
    (∀ i, i < 8 → i ≠ 0 → overlaps 0 (2 ^ 26) (fld (({} : State).reg pgMEM2 (0x200 + 0x10 * i)) 0 14 * 2 ^ 26)
      (fld (({} : State).reg pgMEM2 (0x200 + 0x10 * i)) 16 14 * 2 ^ 26) = false) := by decide +kernel

/-! ## The host interface -/

/-- The packet of function 0 in slot 0 with SEQ 0. -/
def pkt0 (q : PktJob) (op : Nat) (payload : List Byte := []) (target arg0 arg1 : DWord := 0) : Pkt :=
  { f := 0, slot := 0, q := q, opcode := op, seq := 0, target := target, arg0 := arg0, arg1 := arg1, tag := 7, payload := payload }

/-- Boot has ended and packet `k` waits, with its pool buffer; its job is in state `st`. -/
def pktS (k : Pkt) (st : JobSt := .running) : State :=
  ((bootS { done := 0xFFF }).updHost fun h => { h with pkts := [k], jobSt := SMap.set (fun _ => JobSt.free) k.q.val st h.jobSt }).updPool
    fun p => { p with bufs := [(poolKey 0 0, ⟨.headbox, 0, none, 64⟩)] }

theorem go_of {f : Func} {q : PktJob} {op : Nat} {k : Pkt} {s : State} (h : s.pktReady f.val q.val = some k ∧ k.opcode = op ∧
    s.boot.done.getLsbD 11 = true ∧ s.mayStart f.val q.val op = true ∧ (q.val < 8 → stAllows (s.jobSt q.val) op = true) ∧
    s.poolBad .headbox (slotKey2 f.val k.slot) = none) :
    PktGo f q op k s := ⟨h.1, h.2.1, .inl h.2.2.1, h.2.2.2.1, h.2.2.2.2.1, h.2.2.2.2.2⟩

/-- The bytes of a NOP packet's header, written whole. -/
def nopHead : List Byte := natLE 4 (15 * 2 ^ 8) ++ List.replicate 60 0

theorem witness_headbox : let s := bootS { done := 0xFFF }
    s.pwr.st = .on ∧ s.fnOn 0 = true ∧ s.inRecovery = false ∧ (s.slot 0 0).taken = false ∧ (s.slot 0 0).whole = false ∧
    Slot.have? { s.slot 0 0 with bytes := (([1] : List Byte).zipIdx).foldl (fun m c => SMap.put (0 + c.2) c.1 m) (s.slot 0 0).bytes } 0 64
      = none ∧
    (((s.updHost fun h => { h with slots := [(0, { taken := true })] }).slot 0 0).taken = true) ∧ s.pageOff (pgHOSTF 0) = false := by
  decide +kernel

theorem witness_headboxOff : ((bootS { done := 0xFFF }).updPwr fun p => { p with st := .off }).pwr.st ≠ .on ∧ ((bootS {}).updHost fun h => { h with numVfs := #v[0, 0] }).fnOn 31 = false := by
  decide +kernel

theorem witness_headboxHeld : 4096 ≤ (((bootS { done := 0xFFF }).updFn 0 fun x => { x with hold := List.replicate 4096 crec0 }).fn 0).hold.length := by
  decide +kernel

theorem witness_packetTaken : let s := bootS { done := 0xFFF }
    let x := { s.slot 0 0 with bytes := (nopHead.zipIdx).foldl (fun m c => SMap.put (0 + c.2) c.1 m) (s.slot 0 0).bytes }
    Slot.have? x 0 64 = some nopHead ∧ (s.fn 0).hold.length < 4096 ∧ hdrStatus 0 (pktHdr nopHead) = none ∧
    Slot.have? x 64 (pktHdr nopHead).len = some [] ∧ ((pktHdr nopHead).seq - s.pktNext 0 (pktHdr nopHead).q.val).toNat < 2048 ∧
    2048 ≤ ((pktHdr nopHead).seq - ((s.updFn 0 fun x => { x with nextSeq := [(8, 3)] }).pktNext 0 (pktHdr nopHead).q.val)).toNat := by
  decide +kernel

/-- A header with a reserved bit set, and one that says 64 bytes follow. -/
theorem witness_pktHeader : hdrStatus 0 (pktHdr (natLE 4 (15 * 2 ^ 8 + 2 ^ 12) ++ List.replicate 60 0)) = some 1 ∧
    hdrStatus 0 (pktHdr (natLE 4 1 ++ natLE 4 0 ++ natLE 4 64 ++ List.replicate 52 0)) = none := by decide +kernel

theorem witness_packetRefused : (pktS (pkt0 0 1)).pktReady 0 0 = some (pkt0 0 1) ∧ ({} : State).pktReady 0 0 = none ∧
    pktOf (.submit 0 0) = some (0, 0, 1) ∧ pktOf (.nop 0 0) = some (0, 0, 0) ∧ (pkt0 0 1).opcode ≠ 0 ∧
    (let s := (pktS (pkt0 0 1)).updBoot fun b => { b with done := 0 }; s.pktReady 0 0 = some (pkt0 0 1) ∧ s.boot.done.getLsbD 11 = false) ∧
    (pktS (pkt0 0 1) .free).mayStart 0 0 1 = false ∧ (pktS (pkt0 0 1) .assigned).mayStart 0 0 1 = true ∧
    stAllows ((pktS (pkt0 0 1) .assigned).jobSt 0) 1 = false := by decide +kernel

/-- The packet's buffer holds a poisoned unit. -/
theorem witness_packetBad : let s := hbmUe ((pktS (pkt0 0 0)).poolAddr 0 0) 0 (pktS (pkt0 0 0))
    s.pktReady 0 0 = some (pkt0 0 0) ∧ s.mayStart 0 0 0 = true ∧ stAllows (s.jobSt 0) 0 = true ∧
    (s.poolBad .headbox (slotKey2 0 0)).isSome = true := by decide +kernel

theorem witness_gap : let k := { pkt0 0 1 with seq := 2 }
    (pktS k).pktsOf 0 0 = [k] ∧ k.seq ≠ (pktS k).pktNext 0 0 ∧ (pktS k).regF pgHOST 0x108 0 20 ≠ 0 ∧
    SMap.get (fun _ => false) ((pktS k).fn 0).gap 0 = false ∧
    SMap.get (fun _ => false) (((pktS k).updFn 0 fun x => { x with gap := [(0, true)] }).fn 0).gap 0 = true := by decide +kernel

theorem witness_nop : PktGo 0 0 0x00 (pkt0 0 0) (pktS (pkt0 0 0)) := go_of (by decide +kernel)

/-- A descriptor of job 0 with opcode 6 and all else 0. -/
def descB : List Byte := natLE 4 6 ++ List.replicate 60 0

theorem witness_submit : PktGo 0 0 0x01 (pkt0 0 1 descB) (pktS (pkt0 0 1 descB)) := go_of (by decide +kernel)

theorem witness_accept : let s := pktS (pkt0 0 1 descB)
    let d := decodeDesc descB
    descsOf descB = [descB] ∧ d.job.val = 0 ∧ SMap.find s.sch.lastSeq (srcKey (.fn 0) 0) = none ∧ d.seq = s.seqNext (.fn 0) 0 ∧
    descHeadOk descB = true ∧ s.descOk (.fn 0) d = true ∧ s.opsFull 0 = true ∧ s.claimOver d = false ∧
    (s.setReg pgSCH 0x218 1).opsFull 0 = false ∧ (s.setReg pgSCH 0x218 1).descOk (.fn 0) d = true ∧
    descHeadOk (natLE 4 0x86 ++ List.replicate 60 0) = false := by decide +kernel

/-- SEQ 0 has been accepted already; SEQ 5 is ahead. -/
theorem witness_seqRefused : let s := (pktS (pkt0 0 1 descB)).updSch fun x => { x with lastSeq := [(srcKey (.fn 0) 0, 0)] }
    let d5 := decodeDesc (natLE 4 6 ++ natLE 4 5 ++ List.replicate 56 0)
    SMap.find s.sch.lastSeq (srcKey (.fn 0) 0) = some (decodeDesc descB).seq ∧
    SMap.find s.sch.lastSeq (srcKey (.fn 0) 0) ≠ some d5.seq ∧ d5.seq ≠ s.seqNext (.fn 0) 0 := by decide +kernel

theorem witness_cancel : let k := pkt0 0 2 [] 0 0 0
    let s (st : OpSt) := withEntry (entry 1 st) (pktS k)
    PktGo 0 0 0x02 k (s .active) ∧ PktGo 0 0 0x02 k (s .waiting) ∧ (s .active).toCancel 0 0 k = [entry 1 .active] ∧
    (s .waiting).toCancel 0 0 k = [entry 1 .waiting] ∧ (s .active).entry? 0 = some (entry 1 .active) ∧
    ∀ c, c < 64 → ((s .active).core c).subQ = [] :=
  ⟨go_of (by decide +kernel), go_of (by decide +kernel), by decide +kernel, by decide +kernel, by decide +kernel, by decide +kernel⟩

theorem witness_regPackets : PktGo 0 0 0x03 (pkt0 0 3 (List.replicate 8 0)) (pktS (pkt0 0 3 (List.replicate 8 0))) ∧
    PktGo 0 0 0x04 (pkt0 0 4 (List.replicate 4 0)) (pktS (pkt0 0 4 (List.replicate 4 0))) :=
  ⟨go_of (by decide +kernel), go_of (by decide +kernel)⟩

/-- Job 0 has all of HBM from 0x1_4000_0000 up to 64 MiB, and one unit of either LPDDR5X range and of shared memory. -/
def rangesS (s : State) : State :=
  ((((s.setReg (pgGC 0) 0x204 0x40000000).setReg (pgGC 0) 0x208 1).setReg (pgGC 0) 0x20C 1).setReg pgMEM2 0x200 0x10000).setReg
    (pgGC 0) 0x200 1

theorem witness_memory : let w (m : DWord) (a : DWord) := pkt0 0 5 [1] a m
    let r (m : DWord) (a : DWord) := pkt0 0 6 [] a (m + 0x100000000)
    PktGo 0 0 0x05 (w 0 0x140000000) (rangesS (pktS (w 0 0x140000000))) ∧
    PktGo 0 0 0x06 (r 0 0x140000000) (rangesS (pktS (r 0 0x140000000))) ∧
    (rangesS (pktS (w 0 0x140000000))).memOk 0 0 0x140000000 1 = true ∧ (rangesS (pktS (w 0 0x140000000))).memOk 2 0 lpMirror 1 = true ∧
    (rangesS (pktS (w 0 0x140000000))).memOk 3 0 0 1 = true ∧ (rangesS (pktS (w 0 0x140000000))).memOk 0 0 0 1 = false ∧
    fldN (r 0 0x140000000).arg0.toNat 32 25 = 1 ∧ (rangesS (pktS (r 0 0x140000000))).memBad 0 0x140000000 1 = false ∧
    (hbmUe 0x140000000 0 (rangesS (pktS (r 0 0x140000000)))).memBad 0 0x140000000 1 = true ∧
    PktGo 0 0 0x06 (r 0 0x140000000) (hbmUe 0x140000000 0 (rangesS (pktS (r 0 0x140000000)))) :=
  ⟨go_of (by decide +kernel), go_of (by decide +kernel), by decide +kernel, by decide +kernel, by decide +kernel, by decide +kernel,
    by decide +kernel, by decide +kernel, by decide +kernel, go_of (by decide +kernel)⟩

/-- A queue-pair context in state RESET: PMTU 1, TIMEOUT_T 8. -/
def qpB : List Byte := natLE 4 0 ++ natLE 4 0x08010000 ++ List.replicate 120 0

theorem witness_qpCreate : PktGo 0 0 0x07 (pkt0 0 7 qpB) (pktS (pkt0 0 7 qpB)) ∧
    (pktS (pkt0 0 7 qpB)).qpCtxOk (wordsOf qpB) = true ∧ (pktS (pkt0 0 7 qpB)).qpCtxOk [] = false ∧
    (let s := (pktS (pkt0 0 7 qpB)).setReg pgSW 0x400 1; s.qpUsed 0 < s.regF pgSW 0x400 0 14 ∧ s.fab.qps.length < 8192) ∧
    (let s := (pktS (pkt0 0 7 qpB)).setReg pgSW 0x400 0; s.regF pgSW 0x400 0 14 ≤ s.qpUsed 0) :=
  ⟨go_of (by decide +kernel), by decide +kernel, by decide +kernel, by decide +kernel, by decide +kernel⟩

/-- Queue pair 5 of job 0 in RESET. -/
def qp5S (k : Pkt) : State := putQp { qpn := 5, job := 0, ctx := wordsOf qpB, rate := Dy.ofInt 400, epsn := 0, spsn := 0, una := 0, nxt := 0 } (pktS k)

theorem witness_qpModify : let k := pkt0 0 8 (natLE 4 0 ++ natLE 4 0x08010001 ++ List.replicate 120 0) 5 2
    PktGo 0 0 0x08 k (qp5S k) ∧ ((qp5S k).qpMine 0 k).isSome = true ∧ (pktS k).qpMine 0 k = none ∧ qpStep 0 1 = true ∧
    qpStep 0 3 = false ∧ PktGo 0 0 0x09 (pkt0 0 9 [] 5) (qp5S (pkt0 0 9 [] 5)) ∧
    (qp5S k).qpCtxOk (wordsOf (natLE 4 0 ++ natLE 4 0x08010001 ++ List.replicate 120 0)) = true :=
  ⟨go_of (by decide +kernel), by decide +kernel, by decide +kernel, by decide +kernel, by decide +kernel, go_of (by decide +kernel),
    by decide +kernel⟩

theorem witness_jobs : PktGo 0 0 0x0A (pkt0 0 0xA) (pktS (pkt0 0 0xA) .free) ∧ (pktS (pkt0 0 0xA) .free).fnOn 0 = true ∧
    portOf 0 = 0 ∧ portOf 1 ≠ 0 ∧ PktGo 0 0 0x0B (pkt0 0 0xB) (pktS (pkt0 0 0xB) .assigned) ∧
    PktGo 0 0 0x0C (pkt0 0 0xC) (pktS (pkt0 0 0xC)) ∧ PktGo 0 0 0x0D (pkt0 0 0xD) (pktS (pkt0 0 0xD) .assigned) ∧
    (qp5S (pkt0 0 0xD)).jobHolds 0 = true :=
  ⟨go_of (by decide +kernel), by decide +kernel, by decide +kernel, by decide +kernel, go_of (by decide +kernel),
    go_of (by decide +kernel), go_of (by decide +kernel), by decide +kernel⟩

theorem witness_jobRelease : (pktS (pkt0 0 0xD) .assigned).jobHolds 0 = false ∧
    (pktS (pkt0 0 0xD) .assigned).grantsZero 0 = true := by decide +kernel

theorem witness_reports : PktGo 0 8 0x0E (pkt0 8 0xE (List.replicate 32 0)) (pktS (pkt0 8 0xE (List.replicate 32 0))) ∧
    PktGo 0 8 0x0F (pkt0 8 0xF [1]) (pktS (pkt0 8 0xF [1])) ∧ PktGo 0 8 0x10 (pkt0 8 0x10 [1]) (pktS (pkt0 8 0x10 [1])) ∧
    PktGo 0 8 0x11 (pkt0 8 0x11 [] 0 0 1) (pktS (pkt0 8 0x11 [] 0 0 1)) ∧ (pktS (pkt0 8 0x10 [1])).macUp 0 = false ∧
    (let s := (pktS (pkt0 8 0x10 [1])).updFab fun b => { b with linkUp := [(0, true)] }
     s.macUp 0 = true ∧ (s.launchesOf 0).length < 8) :=
  ⟨go_of (by decide +kernel), go_of (by decide +kernel), go_of (by decide +kernel), go_of (by decide +kernel), by decide +kernel,
    by decide +kernel⟩

/-- Nine launches kept for MAC 0. -/
theorem witness_launchFull : let s := (pktS (pkt0 8 0x10 [1])).updFab fun b => { b with linkUp := [(0, true)] }
    8 ≤ ((s.updTime fun t => { t with launches := [(0, List.replicate 8
      { t := 0, frame := [], tsid := none, f := 0, r := crec0 })] }).launchesOf 0).length := by decide +kernel

/-- Function 0 with a ring of 64 records, and one record held. -/
def ringS (v : Bool) : State :=
  (({} : State).setReg (pgHOSTF 0) 0x118 (if v then 0x80000006 else 6)).updFn 0 fun x => { x with hold := [crec0], sinceIrq := 1 }

theorem witness_ring : ((ringS true).fn 0).hold = [crec0] ∧ (ringS true).cqValid 0 = true ∧
    ((ringS true).fn 0).used < (ringS true).cqSize 0 ∧ (ringS false).cqValid 0 = false ∧ (ringS true).host.slots = [] ∧
    (ringS true).allows (.func 0) (pgHOSTF 0) 0x11C 3 = true ∧ (ringS true).allows (.func 0) (pgHOSTF 0) 0x118 0x80000006 = true ∧
    fld ((ringS true).taken (.func 0) (pgHOSTF 0) 0x118 0x80000006) 0 4 = (ringS true).regF (pgHOSTF 0) 0x118 0 4 ∧
    (ringS true).allows (.func 0) (pgHOSTF 0) 0x118 0x80000007 = true ∧
    fld ((ringS true).taken (.func 0) (pgHOSTF 0) 0x118 0x80000007) 0 4 ≠ (ringS true).regF (pgHOSTF 0) 0x118 0 4 := by decide +kernel

theorem witness_ringOff : let t (v : Word) := (ringS false).taken (.func 0) (pgHOSTF 0) 0x118 v
    (ringS false).allows (.func 0) (pgHOSTF 0) 0x118 0x80000005 = true ∧ bit (t 0x80000005) 31 = true ∧ fld (t 0x80000005) 0 4 < 6 ∧
    (ringS false).allows (.func 0) (pgHOSTF 0) 0x118 0x80000006 = true ∧ 6 ≤ fld (t 0x80000006) 0 4 ∧
    (ringS false).allows (.func 0) (pgHOSTF 0) 0x118 6 = true ∧ bit (t 6) 31 = false ∧ ((ringS true).fn 0).sinceIrq ≠ 0 ∧
    ((ringS true).setReg (pgHOSTF 0) 0x124 0x10000).regF (pgHOSTF 0) 0x124 16 16 ≠ 0 ∧ (({} : State).fn 0).sinceIrq = 0 := by
  decide +kernel

theorem witness_linkLoss : (({} : State).updHost fun h => { h with linkUp := #v[true, false] }).host.linkUp.getD 0 false = true ∧
    ({} : State).host.linkUp.getD 0 false = false ∧ (running).jobSt 0 ≠ .free ∧ (running).owner 0 = 0 ∧
    (3 : Fin 16).val < ({} : State).host.numVfs.getD 0 0 ∧ ({} : State).host.numVfs.getD 0 0 ≤ (15 : Fin 16).val := by decide +kernel

/-! ## Resilience -/

/-- Peer 0 is SEID 9, with its leases as given; both ring neighbours in group 0 have that SEID. -/
def peerAt (x : MPeer) (st : GrpSt := .up) : State :=
  (((((upS {}).setReg pgRING 0x11C 0x210).setReg pgRING 0x140 9).setReg pgRING 0x148 9).setReg (pgCIPH 0) 0x114 0x80000009).updMgmt
    (fun m => { m with peers := [(0, x)] }) |>.updRing fun r => { r with grps := [(0, { st := st })] }

/-- Peer 0 alone, in no group. -/
def lonePeer (x : MPeer) : State := (({} : State).setReg (pgCIPH 0) 0x114 0x80000009).updMgmt fun m => { m with peers := [(0, x)] }

theorem witness_heartbeatSend : ((lonePeer {}).updCiph fun c => { c with sess := [(0, { st := 2 })] }).peerValid 0 = true ∧
    (((lonePeer {}).updCiph fun c => { c with sess := [(0, { st := 2 })] }).sess 0).live = true ∧ (lonePeer {}).mgmt.sstate ≠ 2 := by
  decide +kernel

theorem witness_claimSend : let s := ((lonePeer {}).updCiph fun c => { c with sess := [(0, { st := 2 })] }).updMgmt fun m =>
      { m with sstate := 2 }
    s.mgmt.sstate = 2 ∧ s.mgmt.claimed = false ∧ s.peerValid 0 = true ∧ ∀ i, i < 64 → s.peerValid i = true → (s.sess i).live = true := by
  decide +kernel

theorem witness_heartbeat : ({} : State).peerIx 9 = none ∧ (peerAt { lease0 := true }).peerIx 9 = some 0 ∧
    ((peerAt { lease0 := true }).mpeer 0).up = true ∧ (lonePeer {}).peerIx 9 = some 0 ∧ ((lonePeer {}).mpeer 0).up = false ∧
    (lonePeer {}).groupsWith 9 = [] ∧ (lonePeer {}).pageOff pgMGMT = false := by decide +kernel

theorem witness_peerBack : let s := peerAt {} .held
    (s.mpeer 0).up = false ∧ s.groupsWith 9 = [0] ∧ s.fencedIn 0 9 = false ∧ (s.grp 0).st = .held ∧ (s.mgrp 0).running = false ∧
    s.nbrPorts 0 = [0, 1] ∧ ∀ q ∈ s.nbrPorts 0, s.portSf q = false ∧ s.gtSeid 0 (s.nbrPos 0 q) = 9 := by decide +kernel

theorem witness_lease : let y : MPeer := { lease0 := true }
    (peerAt y).mpeer 0 = y ∧ y.up = true ∧ (y.lease1 || false) = false ∧ ((peerAt y).grp 0).st = .up ∧
    0 ∈ (peerAt y).groupsWith ((peerAt y).peerSeid 0) ∧ (peerAt y).neighbours 0 ((peerAt y).peerSeid 0) = true ∧ y.site < 16 ∧
    (∀ k, k < 64 → (peerAt y).peerValid k = true → ((peerAt y).mpeer k).site = 0 → k = 0 ∨ ((peerAt y).mpeer k).up = false) ∧
    ((peerAt { lease0 := true, lease1 := true }).mpeer 0).up = true := by decide +kernel

theorem witness_portSf : let s := (upS {}).updLine fun l => { l with ports := vset l.ports 0 { (l.ports.getD 0 {}) with shown := 1 } }
    s.portSf 0 = true ∧ ({} : State).portSf 1 = false ∧ (s.grp 0).st = .up ∧ gtValid (s.gtCtl 0) = true ∧ 0 ∈ s.nbrPorts 0 := by
  decide +kernel

theorem witness_holdLimit : let s := peerAt {} .held
    (s.grp 0).st = .held ∧ (s.mgrp 0).running = false ∧ (s.mgrp 0).limitRaised = false ∧ gtValid (s.gtCtl 0) = true ∧
    s.nbrLost 0 = true ∧ ((peerAt {}).grp 0).st ≠ .held ∧
    (let u := (peerAt { lease0 := true } .held).updLine fun l =>
        { l with ports := vset l.ports 0 { (l.ports.getD 0 {}) with shown := 1 } }
     u.nbrLost 0 = false ∧ (u.nbrPorts 0).find? u.portSf = some 0) ∧
    (let u := peerAt { lease0 := true } .held
     u.nbrLost 0 = false ∧ (u.nbrPorts 0).find? u.portSf = none) := by decide +kernel

theorem witness_peerCmd : ∀ n, n < 6 → (peerAt {}).allows (.func 0) pgMGMT 0x108 (withCmd 0 3 n) = true ∧
    (lonePeer {}).allows (.func 0) pgMGMT 0x108 (withCmd 0 3 n) = true ∧
    (({} : State).updMgmt fun m => { m with busy := true }).allows (.func 0) pgMGMT 0x108 (withCmd 0 3 n) = true := by decide +kernel

theorem witness_peerFail : (peerAt {}).mgmt.busy = false ∧ (peerAt {}).peerValid (fld (0#32) 8 6) = true ∧
    (peerAt {}).groupsWith ((peerAt {}).peerSeid 0) = [0] ∧ (peerAt {}).grpLive 0 = true ∧
    (peerAt {}).fencedIn 0 ((peerAt {}).peerSeid 0) = false ∧ ({} : State).peerValid 0 = false ∧
    (lonePeer {}).groupsWith ((lonePeer {}).peerSeid 0) = [] := by decide +kernel

theorem witness_peerClear : let s := (peerAt { lease0 := true }).updMgmt fun m => { m with grps := [(0, { fenced := 5 })] }
    s.fencedIn 0 (s.peerSeid 0) = true ∧ (s.mpeer 0).up = true ∧ s.groupsWith (s.peerSeid 0) = [0] ∧ s.grpLive 0 = true := by
  decide +kernel

/-- Entry 0 of MGMT_SPD accepts the zero digest as a spare of site 0, where SEID 9 stands. -/
def spdS (s : State) : State := s.setReg pgMGMT 0x154 0xC0000000

theorem witness_claim : let d : List Word := List.replicate 8 0
    let dig := d.flatMap fun w => natLE 4 w.toNat
    (spdS (peerAt {})).spareDigest 9 dig = true ∧ (peerAt {}).spareDigest 9 dig = false ∧ (spdS (peerAt {})).peerIx 9 = some 0 ∧
    (spdS (peerAt {})).groupsWith 9 = [0] ∧ (spdS (peerAt {})).grpLive 0 = true := by decide +kernel

/-- With the leases of SEID 9 gone this gateway leads; with them it does not. -/
theorem witness_leader : gtValid ((peerAt {}).gtCtl 0) = true ∧ (peerAt {}).leaderPos 0 = gtPos ((peerAt {}).gtCtl 0) ∧
    (peerAt {}).grpLive 0 = true ∧ (peerAt { lease0 := true }).leaderPos 0 ≠ gtPos ((peerAt { lease0 := true }).gtCtl 0) := by
  decide +kernel

theorem witness_reconf : gtValid ((peerAt {}).gtCtl 0) = true ∧ (peerAt {}).grpLive 0 = true ∧
    (0#16).getLsbD (gtPos ((peerAt {}).gtCtl 0)) = false ∧ ((peerAt {}).grpEpoch 0).toNat < (1#32).toNat ∧
    (0#32).toNat ≤ ((peerAt {}).grpEpoch 0).toNat ∧ (2#16).getLsbD (gtPos ((peerAt {}).gtCtl 0)) = true ∧
    (peerAt {}).lowSite 0 ((List.range 3).filter fun q => !(0#16).getLsbD q) ≠ 1 ∧
    (peerAt {}).lowSite 0 ((List.range 3).filter fun q => !(1#16).getLsbD q) = 1 := by decide +kernel

/-- A reconfiguration of group 0 runs, led from position `l`. -/
def reconfS (l : Nat) (ready : SMap (List DWord) := []) (adopt : List Nat := [])
    (srcs : List (Option (Fin 16)) := []) (done : SMap (List Nat) := []) : State :=
  (peerAt {} .held).updMgmt fun m =>
    { m with grps := [(0, { running := true, leader := l, ready := ready, adopt := adopt, srcs := srcs, adopted := done })] }

theorem witness_ready : let m := (reconfS 1).mgrp 0
    m.running = true ∧ m.adopt = [] ∧ m.leader = gtPos ((reconfS 1).gtCtl 0) ∧ SMap.find m.ready 1 = none ∧
    (List.range (gtS ((reconfS 1).gtCtl 0))).filter (fun q => !m.fenced.getLsbD q) = [0, 1, 2] ∧
    SMap.find ((reconfS 1 [(0, []), (1, [])]).mgrp 0).ready 0 = some [] ∧
    SMap.find ((reconfS 1 [(0, []), (1, [])]).mgrp 0).ready 1 = some [] ∧
    ((reconfS 0).mgrp 0).leader ≠ gtPos ((reconfS 0).gtCtl 0) ∧ ((peerAt {}).mgrp 0).running = false := by decide +kernel

/-- Job 0 is enabled with one ream of 2²³ elements. -/
def withReam (s : State) : State :=
  (s.setReg (pgVAT 0) 0x188 0x800000).updOuter fun x => { x with ocb := [(0, natLE 4 1 ++ List.replicate 0x7C 0 ++ List.replicate 8 0 ++ natLE 8 (2 ^ 23) ++ List.replicate 16 0)] }

theorem witness_named : (withReam (reconfS 0)).grpReams 0 = [0] ∧ ((withReam (reconfS 0)).mgrp 0).auth = none ∧
    ([some 0] : List (Option (Fin 16))).getD 0 none = some 0 ∧ (0 : Fin 16).val ≠ gtPos ((withReam (reconfS 0)).gtCtl 0) ∧
    (withReam (reconfS 0)).applied 0 0 < (([1] : List DWord).getD 0 0).toNat ∧
    (∀ r ∈ (withReam (reconfS 0)).grpReams 0, ([none] : List (Option (Fin 16))).getD r none = none) := by decide +kernel

/-- Ream 0 of job 0, with θ at 0x1_4000_0000, is to be adopted from position 0; the reams `l` are left, and of it blocks `d` are done. -/
def adoptS (l d : List Nat) : State :=
  ((((withReam (reconfS 0 [] l [some 0, none] [(0, d)])).setReg (pgGC 0) 0x204 0x40000000).setReg (pgGC 0) 0x208 1).setReg
    (pgGC 0) 0x20C 1).updMem fun m => { m with hbm := memWrite 0 (natLE 8 0x140000000) m.hbm }

/-- A block done already, one that is not the last, and the last of this ream and of all. -/
theorem witness_adopt : ∀ x ∈ ([([0, 1], []), ([0, 1], [0]), ([0], [0])] : List (List Nat × List Nat)), let s := adoptS x.1 x.2
    s.grpEpoch 0 = 0 ∧ (s.mgrp 0).running = true ∧ 0 ∈ (s.mgrp 0).adopt ∧ (s.mgrp 0).adopt.erase 0 = x.1.erase 0 ∧ s.sch.ops = [] ∧
    SMap.get (fun _ => ([] : List Nat)) (s.mgrp 0).adopted 0 = x.2 ∧ s.adoptBlks 0 0 = 2 ∧ (1 : Word) ≠ s.grpEpoch 0 ∧
    (s.mgrp 0).srcs.getD 0 none = some 0 ∧ (0 : Fin 16).val ≠ gtPos (s.gtCtl 0) ∧ (s.mgrp 0).srcs.getD 1 none = none ∧
    (s.adoptList 0 0).length = 1 ∧ (∀ b, b < 2 → min adoptBlk (s.npad 0 0 - b * adoptBlk) = adoptBlk) ∧
    (∀ b, b < 2 → let k := cwKey 0 (s.adoptHalf 0 0) 0 (s.adoptRseq 0 (s.adoptHalf 0 0) 0 (b * (s.adoptList 0 0).length + 0))
      s.cwMem? k = none ∧ s.rx? k = none) := by decide +kernel

theorem witness_adoptBlock : (List.replicate adoptBlk (0 : Word)).length = adoptBlk := List.length_replicate

/-- A FORM of the ream runs; a block beyond the ream's last. -/
theorem witness_adoptHeld : let e : Entry := { entry 11 .active with d := { desc 11 with opArg := 3 + 2 ^ 18 } }
    (∃ x ∈ (withEntry e (adoptS [0] [])).sch.ops, x.d.opcode = 11 ∧ x.d.job.val = 0 ∧ x.d.taskId = 3 ∧ x.d.mergeFn = 1 ∧
      x.d.taskReam = 0) ∧ (adoptS [0] []).adoptBlks 0 0 ≤ 2 := by decide +kernel

/-- Job 0 mirrors a position with one ream of one element; its OCB lies at 0x1000. -/
def mirrorS : State :=
  ((upS {}).setReg pgMGMT 0x200 0x1000).updMem fun m => { m with hbm := [(0x1000, 1), (0x1088, 1)] }

theorem witness_mirrorIntake : mirrorS.planGrp 0 = some 0 ∧ mirrorS.mirNream 0 ≠ 0 ∧ mirrorS.grpEpoch 0 = 0 ∧
    (SMap.get (fun _ => (0 : Word)) mirrorS.mgmt.mirNext 0).toNat = 0 ∧ mirrorS.mirPlace 0 0 0 0 = some (0, 0) ∧
    SMap.get (fun _ => true) mirrorS.mgmt.mirValid 0 = true ∧
    SMap.get (fun _ => true) (mirrorS.updMgmt fun m => { m with mirValid := [(0, false)] }).mgmt.mirValid 0 = false ∧
    (upS {}).mirNream 0 = 0 := by decide +kernel

/-- COPY queue pair 5 of job 0, in RTS, to SEID 0x10. -/
def copyQp : Qp := { qpn := 5, job := 0, ctx := [0, 0x5003, 0x10], rate := Dy.ofInt 400, epsn := 0, spsn := 0, una := 0, nxt := 0 }

theorem witness_refresh : let s := withReam (putQp copyQp (upS {}))
    0 < s.nream 0 ∧ s.mirrorQp 0 = some 5 ∧ SMap.find s.fab.qps 5 = some copyQp ∧ copyQp.state = 3 ∧
    s.qp? copyQp.qpn = some copyQp ∧ ({} : State).mirrorQp 0 = none ∧
    0 < mirrorS.mirNream 0 ∧ mirrorS.mirNat (plReam (mirrorS.mirReam 0 0)) 0 8 = 0 ∧ ∀ j, j < 8 → ({} : State).mirrorQp j = none := by
  decide +kernel

/-- The mirror block of the ream lies at the start of the job's mirror range and names its θ at offset 0x1000. -/
theorem witness_arrive : let s := ((mirrorS.setReg pgMGMT 0x200 0x1000).setReg pgMEM2 0x200 0x10000).updMem fun m =>
      { m with hbm := memWrite 0x1080 (List.replicate 8 0 ++ natLE 8 1 ++ List.replicate 8 0 ++ natLE 8 lpMirror) m.hbm
               lp := memWrite lpMirror (natLE 8 0x1000) m.lp }
    let p := plReam (s.mirReam 0 0)
    s.mirNat p 0 8 = 0x1000 ∧ s.mirIn 0 p 0x1000 4 = true ∧ 0 < s.mirNream 0 := by decide +kernel

theorem witness_spareMirror : let s := (putQp copyQp mirrorS).setReg pgMGMT 0x134 0x10
    s.regF pgMGMT 0x134 0 16 = (0x10#16).toNat ∧ s.fab.qps = [(5, copyQp)] ∧ 5 = qpIx copyQp.qpn ∧ copyQp.role = 5 ∧
    copyQp.dest = (0x10#16).toNat ∧ copyQp.state = 3 ∧ s.mirNream 0 = 1 ∧ ({} : State).fab.qps = [] := by decide +kernel

/-- A spare, as its MGMT state says, after boot. -/
def spareS (m : Mgmt) : State := (((bootS { done := 0xFFF }).setReg pgMGMT 0x130 0x80000000).setReg pgMGMT 0x144 1000).updMgmt fun _ => m

theorem witness_spare : (spareS {}).maySpare = true ∧ (spareS {}).spareReady = false ∧ (spareS { sstate := 1 }).spareReady = true ∧
    (spareS { sstate := 2 }).maySpare = false ∧ (∀ n, n < 6 → (spareS {}).allows (.func 0) pgMGMT 0x108 (withCmd 0 3 n) = true ∧
      (spareS { sstate := 1 }).allows (.func 0) pgMGMT 0x108 (withCmd 0 3 n) = true ∧
      (spareS { sstate := 2 }).allows (.func 0) pgMGMT 0x108 (withCmd 0 3 n) = true) ∧ (spareS {}).mgmt.busy = false ∧
    (spareS { sstate := 2 }).mgmt.sstate = 2 ∧ (spareS { expelAsked := true }).mgmt.expelAsked = true := by decide +kernel

theorem witness_expel : (spareS {}).isSpare = true ∧ ({} : State).isSpare = false ∧ (spareS { sstate := 1 }).mgmt.lastGrant = none ∧
    ((spareS { sstate := 1, lastGrant := some 0 }).time.nt - 0).toNat < 600000000000 ∧ (spareS {}).thr ≠ 0 ∧
    (spareS { expelDenied := true, health := 1000 }).thr ≤ (spareS { expelDenied := true, health := 1000 }).mgmt.health ∧
    (spareS { expelDenied := true }).mgmt.health < (spareS { expelDenied := true }).thr ∧
    (spareS { grantOpen := true }).mgmt.grantOpen = true ∧ ({} : State).mgmt.grantOpen = false ∧ ({} : State).mgmt.expelDenied = false ∧
    ({} : State).pageOff pgMGMT = false ∧ ({} : State).mgmt.mcc.getD 0 0 < 8 ∧
    8 ≤ (({} : State).updMgmt fun m => { m with mcc := #v[8, 0] }).mgmt.mcc.getD 0 0 := by decide +kernel

/-! ## Clocks, power and boot -/

/-- The clocks as given. -/
def clkS (c : Clk := {}) : State := ({} : State).updClk fun _ => c

/-- Domain `d` as given. -/
def domS (d : Nat) (x : DomSt) (c : Clk := {}) : State := clkS { c with doms := vset c.doms d x }

/-- CLK_CMD on domain 13 (an ARITH domain), by PF0. -/
theorem witness_clkCmd : ∀ n, n < 8 → (clkS).allows (.func 0) pgCLK 0x108 (withCmd 0x0D00 4 n) = true ∧
    (domS 13 { inReset := true }).allows (.func 0) pgCLK 0x108 (withCmd 0x0D00 4 n) = true ∧
    (domS 13 { hung := true }).allows (.func 0) pgCLK 0x108 (withCmd 0x0D00 4 n) = true ∧
    (clkS { busy := true }).allows (.func 0) pgCLK 0x108 (withCmd 0x0D00 4 n) = true ∧
    (clkS).allows (.func 0) pgCLK 0x108 (withCmd 0x0300 4 n) = true ∧ (clkS).allows (.func 0) pgCLK 0x108 (withCmd 0x1F00 4 n) = true ∧
    (clkS).allows (.func 0) pgCLK 0x108 (withCmd 0x20D00 4 n) = true := by decide +kernel

theorem witness_domain : fld (0x0D00#32) 8 5 = 13 ∧ domFixed 13 = false ∧ fld (0x0300#32) 8 5 = 3 ∧ domFixed 3 = true ∧
    17 < fld (0x1F00#32) 8 5 ∧ (clkS).clk.busy = false ∧ 1 < fld (0x20D00#32) 16 2 ∧ fld (0x0D00#32) 16 2 ≤ 1 := by decide +kernel

theorem witness_gate : (clkS).domInUse 13 = false ∧ ((running clkS).domInUse 13) = true ∧ 15 ∈ domChildren 13 ∧
    ((clkS).dom 15).gated = false ∧ (clkS).domInUse 14 = false ∧ (∀ k, k ∈ domChildren 14 → ((clkS).dom k).gated = true) ∧
    (clkS).allows (.func 0) pgCLK 0x108 (withCmd 0x0E00 4 1) = true ∧ fld (0x0E00#32) 8 5 = 14 ∧ domFixed 14 = false :=
  ⟨by decide +kernel, by decide +kernel, by decide +kernel, by decide +kernel, by decide +kernel, nofun, by decide +kernel,
    by decide +kernel, by decide +kernel⟩

theorem witness_gateBusy : (running clkS).allows (.func 0) pgCLK 0x108 (withCmd 0x0D00 4 1) = true ∧
    ((running clkS).dom 13).hung = false := by decide +kernel

/-- Domain 15 is a child of domain 13. -/
theorem witness_ungate : ((domS 13 { gated := true }).dom (domParent 15)).gated = true ∧ ((clkS).dom (domParent 15)).gated = false ∧
    (domS 13 { gated := true }).allows (.func 0) pgCLK 0x108 (withCmd 0x0F00 4 2) = true ∧ fld (0x0F00#32) 8 5 = 15 ∧ domFixed 15 = false ∧
    (clkS).allows (.func 0) pgCLK 0x108 (withCmd 0x0F00 4 2) = true := by decide +kernel

theorem witness_release : ((domS 13 { inReset := true }).dom 13).inReset = true ∧ ((clkS).dom 13).inReset = false ∧
    ((domS 13 { hung := true }).dom 13).hung = true := by decide +kernel

theorem witness_hang : (clkS { busy := true, hang := some (13, true) }).clk.hang = some (13, true) ∧
    (clkS { busy := true, hang := some (13, true) }).pageOff pgCLK = false := by decide +kernel

/-- REF10M_IN (source 3) has its 1,000 hundredths; OSC_A has stopped while OSC_B is good. -/
def cnts0 : SrcCounts := ⟨0, 64, 0, 10, 0, 0, 0, 156, 100⟩

theorem witness_sources : (clkS).pwr.st = .on ∧ inBand 3 (SrcCounts.of cnts0 3) = true ∧ inBand 0 (SrcCounts.of cnts0 0) = false ∧
    SrcCounts.sure cnts0 0 = true ∧ inBand 1 (SrcCounts.of cnts0 1) = true ∧
    inBand 0 (SrcCounts.of ⟨0, 64, 0, 10, 0, 0, 0, 156, 0⟩ 0) = false ∧ SrcCounts.sure ⟨0, 64, 0, 10, 0, 0, 0, 156, 0⟩ 0 = false := by
  decide +kernel

theorem witness_failOver : let s := clkS { ref := 0, badRun := vset (Vector.replicate 7 0) 0 1 }
    s.clk.ref = 0 ∧ s.clk.good.getLsbD 0 = true ∧ 1 ≤ s.clk.badRun.getD 0 0 := by decide +kernel

theorem witness_oscillators : ∀ i, i < 2 → inBand i (SrcCounts.of ⟨156, 64, 0, 10, 0, 0, 0, 156, 100⟩ i) = true := by decide +kernel

theorem witness_refSelect : (clkS).allows (.func 0) pgCLK 0x108 (withCmd 0x10000 4 7) = true ∧ fld (0x10000#32) 16 2 = 1 ∧
    (clkS).clk.good.getLsbD 1 = true ∧ (clkS { good := 0 }).clk.good.getLsbD 1 = false ∧
    (clkS { good := 0 }).allows (.func 0) pgCLK 0x108 (withCmd 0x10000 4 7) = true ∧
    (clkS).allows (.func 0) pgCLK 0x108 (withCmd 0x20000 4 7) = true ∧ 1 < fld (0x20000#32) 16 2 := by decide +kernel

theorem witness_nmi : (clkS { nmi := 3 }).allows (.func 0) pgCLK 0x110 3 = true ∧ (clkS { nmi := 3 }).clk.nmi ≠ 0 ∧
    (clkS { nmi := 3 }).clk.nmi &&& ~~~ (clkS { nmi := 3 }).taken (.func 0) pgCLK 0x110 3 = 0 ∧
    (clkS { nmi := 3 }).pwr.faultHeld = false ∧ (clkS { nmi := 3 }).allows (.func 0) pgCLK 0x110 1 = true ∧
    (clkS { nmi := 3 }).clk.nmi &&& ~~~ (clkS { nmi := 3 }).taken (.func 0) pgCLK 0x110 1 ≠ 0 := by decide +kernel

theorem witness_meter : (clkS).allows (.func 0) pgCLK 0x180 (withBit 0 31 true) = true ∧ (clkS).clk.fmGo = false ∧
    fmTargetOk (fld ((clkS).taken (.func 0) pgCLK 0x180 (withBit 0 31 true)) 0 5) = true ∧
    (clkS).allows (.func 0) pgCLK 0x180 (withBit 20 31 true) = true ∧
    fmTargetOk (fld ((clkS).taken (.func 0) pgCLK 0x180 (withBit 20 31 true)) 0 5) = false ∧ (clkS { fmGo := true }).clk.fmGo = true := by
  decide +kernel

theorem witness_fmOut : let s (n : Nat) := (clkS).updTime fun t => { t with ioOwner := n }
    (s 1).allows (.func 0) pgCLK 0x190 0x80000000 = true ∧ bit ((s 1).taken (.func 0) pgCLK 0x190 0x80000000) 31 = true ∧
    (s 1).time.ioOwner = 1 ∧ (s 0).allows (.func 0) pgCLK 0x190 0x80000000 = true ∧
    bit ((s 0).taken (.func 0) pgCLK 0x190 0x80000000) 31 = true ∧ (s 0).time.ioOwner ≠ 1 ∧ (s 2).allows (.func 0) pgCLK 0x190 0 = true ∧
    bit ((s 2).taken (.func 0) pgCLK 0x190 0) 31 = false := by decide +kernel

/-- The module in a power state. -/
def pwrS (st : PwrSt) (p : Pwr := {}) : State := ({} : State).updPwr fun _ => { p with st := st }

theorem witness_power : (pwrS .off).pwr.st = .off ∧ (pwrS .standby).pwr.st = .standby ∧ (pwrS .standby).pwr.st ≠ .off ∧
    (pwrS .on).pwr.st = .on ∧ (pwrS .fault { faultHeld := true }).faultN = true ∧ (pwrS .on).faultN = false ∧
    (pwrS .on).pageOff pgPWR = false ∧ (pwrS .on).pwr.st ≠ .off := by decide +kernel

theorem witness_pmbus : (pwrS .on { cml := true }).pwr.word ≠ 0 ∧ (pwrS .on).pwr.word = 0 ∧ (0x10#8).toNat ∉ pmbCodes ∧
    (7 : Byte) :: "FELWICK".toList.map (fun x => BitVec.ofNat 8 x.toNat) = [7, 0x46, 0x45, 0x4C, 0x57, 0x49, 0x43, 0x4B] := by
  decide +kernel

theorem witness_stepRuns : (bootS { step := 4, done := 7 }).stepRuns = true ∧ nextStep false 4 = some 5 ∧ nextStep false 12 = none ∧
    (bootS { step := 12, done := 0x7FF }).stepRuns = true ∧ (bootS { step := 3, done := 3 }).stepRuns = true ∧
    (bootS { step := 3, done := 3 }).boot.running = none ∧ (bootS { step := 5, done := 0xF }).stepRuns = true ∧
    (bootS { step := 4, done := 7 }).boot.skip.getLsbD 3 = false ∧
    (bootS { step := 5, done := 0xF }).clk.good.getLsbD (b2n ((bootS { step := 5, done := 0xF }).boot.alt.getLsbD 4)) = true ∧
    (bootS { step := 5, done := 3, recovery := true }).stepRuns = true := by decide +kernel

theorem witness_restart : (bootS { step := 4, stopped := true, fails := 2 }).boot.stopped = true ∧
    (bootS { step := 4, stopped := true, fails := 2 }).boot.hasRec 1 12 2 = false ∧ (bootS {}).pwr.st = .on := by decide +kernel

theorem witness_bootCmds : ∀ n, n < 6 → (bootS {}).allows (.func 0) pgBOOT 0x108 (withCmd 0 4 n) = true ∧
    (bootS { busy := true }).allows (.func 0) pgBOOT 0x108 (withCmd 0 4 n) = true := by decide +kernel

theorem witness_recover : (∀ j, j < 8 → (bootS {}).jobSt j = .free) ∧ (running (bootS {})).jobSt 0 ≠ .free ∧
    (running (bootS {})).allows (.func 0) pgBOOT 0x108 (withCmd 0 4 2) = true := by decide +kernel

/-- The recovery wait, with port 0 the owner of a load of one byte. -/
def recS (o : Option Nat) (b : Boot := {}) : State :=
  ((bootS { b with recovery := true, step := 6, done := 0x33, loadOwner := o }).setReg pgBOOT 0x140 1).updHost fun h =>
    { h with linkUp := #v[true, true] }

theorem witness_load : (recS (some 0)).allows (.func 0) pgBOOT 0x108 (withCmd 0 4 4) = true ∧ (recS (some 0)).inRecovery = true ∧
    (recS (some 0)).boot.loadOwner = whoPort (.func 0) ∧ (recS (some 0)).regF pgBOOT 0x140 0 25 = 1 ∧ (recS none).boot.loadOwner = none ∧
    (recS (some 0)).allows (.func 0) pgBOOT 0x108 (withCmd 0 4 5) = true ∧ (recS (some 0)).pageOff pgBOOT = false ∧
    (recS none).allows (.func 0) pgBOOT 0x108 (withCmd 0 4 5) = true := by decide +kernel

theorem witness_imageWrite : (recS none).inRecovery = true ∧ (recS none).boot.busy = false ∧ ([1] : List Byte) ≠ [] ∧
    (recS none).host.linkUp.getD 0 false = true ∧ (recS (some 1)).boot.loadOwner = some (1 - 0) := by decide +kernel

theorem witness_programDone : (recS (some 0) { busy := true, loadStat := 1 }).boot.busy = true ∧
    (recS (some 0) { busy := true, loadStat := 1 }).boot.loadStat = 1 := by decide +kernel

end Sys2Proof.Tests
end

section
/-! PROOF. Every step keeps the invariant: what each command keeps, one arm per row of the table, and what a step keeps. -/
namespace Sys2Proof.Machine

open Sys2Proof

/-! ## Every command and every step -/

theorem ResK.keeps {m : List Part} {s : State} {r : Res} (h : ResK m s r) : ∃ t, r = .next t ∧ Keeps s t := by
  obtain ⟨t, ht, k⟩ := h
  exact ⟨t, ht, k.keeps⟩

/-- Every command answers a next state and keeps what every command keeps. The parts it may change differ from arm to arm
and are dropped here. -/
theorem exec_keeps (c : Instr) (s : State) : ∃ t, exec c s = .next t ∧ Keeps s t := by
  cases c with
  | stepMark => exact (execStepMark_k ..).keeps
  | schStepLoad => exact (execSchStepLoad_k ..).keeps
  | regmapWrite => exact (execRegmapWrite_k ..).keeps
  | quorumWrite => exact (execQuorumWrite_k ..).keeps
  | subCommit => exact (execSubCommit_k ..).keeps
  | timeTriggerMet => exact (execTimeTriggerMet_k ..).keeps
  | claimGrant => exact (execClaimGrant_k ..).keeps
  | opDone => exact (execOpDone_k ..).keeps
  | opFaulted => exact (execOpFaulted_k ..).keeps
  | schOpStall => exact (execSchOpStall_k ..).keeps
  | schCntValWrite => exact (execSchCntValWrite_k ..).keeps
  | cntPartWrite => exact (execCntPartWrite_k ..).keeps
  | collect => exact (execCollect_k ..).keeps
  | recollect => exact (execRecollect_k ..).keeps
  | contributionWrite => exact (execContributionWrite_k ..).keeps
  | grantHoldRelease => exact (execGrantHoldRelease_k ..).keeps
  | gackWrite => exact (execGackWrite_k ..).keeps
  | cmapWrite => exact (execCmapWrite_k ..).keeps
  | vatWinCtlWrite => exact (execVatWinCtlWrite_k ..).keeps
  | vatQuotaWrite => exact (execVatQuotaWrite_k ..).keeps
  | grantQpReplace => exact (execGrantQpReplace_k ..).keeps
  | hadamard => exact (execHadamard_k ..).keeps
  | quantise => exact (execQuantise_k ..).keeps
  | update => exact (execUpdate_k ..).keeps
  | nsOrtho => exact (execNsOrtho_k ..).keeps
  | project => exact (execProject_k ..).keeps
  | gemm => exact (execGemm_k ..).keeps
  | engParity => exact (execEngParity_k ..).keeps
  | engSvcWrite => exact (execEngSvcWrite_k ..).keeps
  | engEdtWrite => exact (execEngEdtWrite_k ..).keeps
  | task => exact (execTask_k ..).keeps
  | taskReturn => exact (execTaskReturn_k ..).keeps
  | taskTrap => exact (execTaskTrap_k ..).keeps
  | taskTimeout => exact (execTaskTimeout_k ..).keeps
  | waitGo => exact (execWaitGo_k ..).keeps
  | waitGoRelease => exact (execWaitGoRelease_k ..).keeps
  | gcSvcWrite => exact (execGcSvcWrite_k ..).keeps
  | gcShmWrite => exact (execGcShmWrite_k ..).keeps
  | exceptionHandler => exact (execExceptionHandler_k ..).keeps
  | plan => exact (execPlan_k ..).keeps
  | floor => exact (execFloor_k ..).keeps
  | stats => exact (execStats_k ..).keeps
  | mergeSnap => exact (execMergeSnap_k ..).keeps
  | mergeForm => exact (execMergeForm_k ..).keeps
  | mergeAdd => exact (execMergeAdd_k ..).keeps
  | pack => exact (execPack_k ..).keeps
  | expand => exact (execExpand_k ..).keeps
  | expandRefetch => exact (execExpandRefetch_k ..).keeps
  | refetchReplacement => exact (execRefetchReplacement_k ..).keeps
  | add => exact (execAdd_k ..).keeps
  | sheetParity => exact (execSheetParity_k ..).keeps
  | sheetSvcWrite => exact (execSheetSvcWrite_k ..).keeps
  | send => exact (execSend_k ..).keeps
  | sendFwd => exact (execSendFwd_k ..).keeps
  | recv => exact (execRecv_k ..).keeps
  | scatter => exact (execScatter_k ..).keeps
  | copy => exact (execCopy_k ..).keeps
  | ringSetupStart => exact (execRingSetupStart_k ..).keeps
  | setupSend => exact (execSetupSend_k ..).keeps
  | setupRetry => exact (execSetupRetry_k ..).keeps
  | setupMessage => exact (execSetupMessage_k ..).keeps
  | setupAnswer => exact (execSetupAnswer_k ..).keeps
  | ringTeardown => exact (execRingTeardown_k ..).keeps
  | announce => exact (execAnnounce_k ..).keeps
  | receipt => exact (execReceipt_k ..).keeps
  | ack => exact (execAck_k ..).keeps
  | credit => exact (execCredit_k ..).keeps
  | refetch => exact (execRefetch_k ..).keeps
  | resendTimer => exact (execResendTimer_k ..).keeps
  | probeTimer => exact (execProbeTimer_k ..).keeps
  | outerEnable => exact (execOuterEnable_k ..).keeps
  | outerDisable => exact (execOuterDisable_k ..).keeps
  | streamEndEnable => exact (execStreamEndEnable_k ..).keeps
  | streamEndDisable => exact (execStreamEndDisable_k ..).keeps
  | streamMessage => exact (execStreamMessage_k ..).keeps
  | streamDelivery => exact (execStreamDelivery_k ..).keeps
  | streamConsumerAck => exact (execStreamConsumerAck_k ..).keeps
  | streamAck => exact (execStreamAck_k ..).keeps
  | fabPortCtlWrite => exact (execFabPortCtlWrite_k ..).keeps
  | fabLinkDown => exact (execFabLinkDown_k ..).keeps
  | fabLinkUp => exact (execFabLinkUp_k ..).keeps
  | fabricFrame => exact (execFabricFrame_k ..).keeps
  | outputServe => exact (execOutputServe_k ..).keeps
  | pfcXoffRx => exact (execPfcXoffRx_k ..).keeps
  | pfcPauseEnd => exact (execPfcPauseEnd_k ..).keeps
  | fabPfcLong => exact (execFabPfcLong_k ..).keeps
  | cnpRx => exact (execCnpRx_k ..).keeps
  | rateIncrease => exact (execRateIncrease_k ..).keeps
  | ackTimeout => exact (execAckTimeout_k ..).keeps
  | imbalanceWindow => exact (execImbalanceWindow_k ..).keeps
  | rekey => exact (execRekey_k ..).keeps
  | swMirrorCtlWrite => exact (execSwMirrorCtlWrite_k ..).keeps
  | swQpQuotaWrite => exact (execSwQpQuotaWrite_k ..).keeps
  | readRegionValid => exact (execReadRegionValid_k ..).keeps
  | lineCtlWrite => exact (execLineCtlWrite_k ..).keeps
  | frameTransmit => exact (execFrameTransmit_k ..).keeps
  | frameReceive => exact (execFrameReceive_k ..).keeps
  | defectSet => exact (execDefectSet_k ..).keeps
  | defectClear => exact (execDefectClear_k ..).keeps
  | protMessage => exact (execProtMessage_k ..).keeps
  | routeTimeout => exact (execRouteTimeout_k ..).keeps
  | wtrExpiry => exact (execWtrExpiry_k ..).keeps
  | stbyHoldExpiry => exact (execStbyHoldExpiry_k ..).keeps
  | selLockout => exact (execSelLockout_k ..).keeps
  | selForce => exact (execSelForce_k ..).keeps
  | selManual => exact (execSelManual_k ..).keeps
  | selClear => exact (execSelClear_k ..).keeps
  | pmSecond => exact (execPmSecond_k ..).keeps
  | pmBinClose => exact (execPmBinClose_k ..).keeps
  | chCtlWrite => exact (execChCtlWrite_k ..).keeps
  | tribWrite => exact (execTribWrite_k ..).keeps
  | fwdFeltWrite => exact (execFwdFeltWrite_k ..).keeps
  | controlLoopUpdate => exact (execControlLoopUpdate_k ..).keeps
  | engineTempChange => exact (execEngineTempChange_k ..).keeps
  | tblDataWrite => exact (execTblDataWrite_k ..).keeps
  | monReading => exact (execMonReading_k ..).keeps
  | calLane => exact (execCalLane_k ..).keeps
  | calStart => exact (execCalStart_k ..).keeps
  | calDone => exact (execCalDone_k ..).keeps
  | saveTables => exact (execSaveTables_k ..).keeps
  | laserFadeWindow => exact (execLaserFadeWindow_k ..).keeps
  | crossfadeDone => exact (execCrossfadeDone_k ..).keeps
  | lmodRemove => exact (execLmodRemove_k ..).keeps
  | lmodInsert => exact (execLmodInsert_k ..).keeps
  | lmodSelfTestDone => exact (execLmodSelfTestDone_k ..).keeps
  | revert => exact (execRevert_k ..).keeps
  | standbyTuned => exact (execStandbyTuned_k ..).keeps
  | standbyRecheck => exact (execStandbyRecheck_k ..).keeps
  | lineSwitch => exact (execLineSwitch_k ..).keeps
  | lineSwitchStart => exact (execLineSwitchStart_k ..).keeps
  | standbyFineLock => exact (execStandbyFineLock_k ..).keeps
  | emergencySwitch => exact (execEmergencySwitch_k ..).keeps
  | laneIdCheck => exact (execLaneIdCheck_k ..).keeps
  | laneReturn => exact (execLaneReturn_k ..).keeps
  | optTimExternal => exact (execOptTimExternal_k ..).keeps
  | optRefFail => exact (execOptRefFail_k ..).keeps
  | segmentReceive => exact (execSegmentReceive_k ..).keeps
  | contextLoad => exact (execContextLoad_k ..).keeps
  | ciphParity => exact (execCiphParity_k ..).keeps
  | ciphSvcWrite => exact (execCiphSvcWrite_k ..).keeps
  | sessionRenew => exact (execSessionRenew_k ..).keeps
  | ciphSessionStale => exact (execCiphSessionStale_k ..).keeps
  | kx1Init => exact (execKx1Init_k ..).keeps
  | kx2Resp => exact (execKx2Resp_k ..).keeps
  | kx3Fin => exact (execKx3Fin_k ..).keeps
  | kx4Done => exact (execKx4Done_k ..).keeps
  | handshakeResend => exact (execHandshakeResend_k ..).keeps
  | handshakeRetry => exact (execHandshakeRetry_k ..).keeps
  | peerCtlWrite => exact (execPeerCtlWrite_k ..).keeps
  | attestMessage => exact (execAttestMessage_k ..).keeps
  | timeWindow => exact (execTimeWindow_k ..).keeps
  | timeSrcLost => exact (execTimeSrcLost_k ..).keeps
  | acceptStep => exact (execAcceptStep_k ..).keeps
  | reacquire => exact (execReacquire_k ..).keeps
  | calAsym => exact (execCalAsym_k ..).keeps
  | calAsymDone => exact (execCalAsymDone_k ..).keeps
  | setTime => exact (execSetTime_k ..).keeps
  | ppsInEdge => exact (execPpsInEdge_k ..).keeps
  | setTimeTimeout => exact (execSetTimeTimeout_k ..).keeps
  | timeSrcWrite => exact (execTimeSrcWrite_k ..).keeps
  | timeNsRead => exact (execTimeNsRead_k ..).keeps
  | timeHiRead => exact (execTimeHiRead_k ..).keeps
  | tsqTsRead => exact (execTsqTsRead_k ..).keeps
  | launchArm => exact (execLaunchArm_k ..).keeps
  | launchFire => exact (execLaunchFire_k ..).keeps
  | timeIoCtlWrite => exact (execTimeIoCtlWrite_k ..).keeps
  | fmOutClaim => exact (execFmOutClaim_k ..).keeps
  | scrubStep => exact (execScrubStep_k ..).keeps
  | hbmImbalWindow => exact (execHbmImbalWindow_k ..).keeps
  | poolWaitServed => exact (execPoolWaitServed_k ..).keeps
  | poolSizeWrite => exact (execPoolSizeWrite_k ..).keeps
  | memRangeWrite => exact (execMemRangeWrite_k ..).keeps
  | hbmRangeWrite => exact (execHbmRangeWrite_k ..).keeps
  | headboxWrite => exact (execHeadboxWrite_k ..).keeps
  | nop => exact (execNop_k ..).keeps
  | submit => exact (execSubmit_k ..).keeps
  | cancel => exact (execCancel_k ..).keeps
  | regWrite => exact (execRegWrite_k ..).keeps
  | regRead => exact (execRegRead_k ..).keeps
  | memWrite => exact (execMemWrite_k ..).keeps
  | memRead => exact (execMemRead_k ..).keeps
  | qpCreate => exact (execQpCreate_k ..).keeps
  | qpModify => exact (execQpModify_k ..).keeps
  | qpDestroy => exact (execQpDestroy_k ..).keeps
  | jobAssign => exact (execJobAssign_k ..).keeps
  | jobStart => exact (execJobStart_k ..).keeps
  | jobQuiesce => exact (execJobQuiesce_k ..).keeps
  | jobRelease => exact (execJobRelease_k ..).keeps
  | attest => exact (execAttest_k ..).keeps
  | timeSend => exact (execTimeSend_k ..).keeps
  | launch => exact (execLaunch_k ..).keeps
  | captureDump => exact (execCaptureDump_k ..).keeps
  | hostPktGap => exact (execHostPktGap_k ..).keeps
  | completionRecord => exact (execCompletionRecord_k ..).keeps
  | cqHeadWrite => exact (execCqHeadWrite_k ..).keeps
  | cqCtlWrite => exact (execCqCtlWrite_k ..).keeps
  | cqIrqTimer => exact (execCqIrqTimer_k ..).keeps
  | flr => exact (execFlr_k ..).keeps
  | pcieLinkDown => exact (execPcieLinkDown_k ..).keeps
  | perstNAssert => exact (execPerstNAssert_k ..).keeps
  | vfDisable => exact (execVfDisable_k ..).keeps
  | heartbeatSend => exact (execHeartbeatSend_k ..).keeps
  | heartbeat => exact (execHeartbeat_k ..).keeps
  | leaseExpiry => exact (execLeaseExpiry_k ..).keeps
  | peerFail => exact (execPeerFail_k ..).keeps
  | peerClear => exact (execPeerClear_k ..).keeps
  | mgmtHoldLimit => exact (execMgmtHoldLimit_k ..).keeps
  | reconf => exact (execReconf_k ..).keeps
  | reconfReady => exact (execReconfReady_k ..).keeps
  | adoptionSheets => exact (execAdoptionSheets_k ..).keeps
  | epochNak => exact (execEpochNak_k ..).keeps
  | mirrorIntake => exact (execMirrorIntake_k ..).keeps
  | mirrorRefresh => exact (execMirrorRefresh_k ..).keeps
  | spareReady => exact (execSpareReady_k ..).keeps
  | takeover => exact (execTakeover_k ..).keeps
  | claim => exact (execClaim_k ..).keeps
  | mgmtTakeoverFail => exact (execMgmtTakeoverFail_k ..).keeps
  | healthDecay => exact (execHealthDecay_k ..).keeps
  | expelReq => exact (execExpelReq_k ..).keeps
  | mgmtExpel => exact (execMgmtExpel_k ..).keeps
  | mgmtHealthAlarm => exact (execMgmtHealthAlarm_k ..).keeps
  | expelRetry => exact (execExpelRetry_k ..).keeps
  | mgmtExpelLapsed => exact (execMgmtExpelLapsed_k ..).keeps
  | mgmtPortDown => exact (execMgmtPortDown_k ..).keeps
  | mccResend => exact (execMccResend_k ..).keeps
  | supervisorWindow => exact (execSupervisorWindow_k ..).keeps
  | clkNmiWrite => exact (execClkNmiWrite_k ..).keeps
  | gate => exact (execGate_k ..).keeps
  | ungate => exact (execUngate_k ..).keeps
  | resetAssert => exact (execResetAssert_k ..).keeps
  | resetRelease => exact (execResetRelease_k ..).keeps
  | setSrc => exact (execSetSrc_k ..).keeps
  | clkSwitchHang => exact (execClkSwitchHang_k ..).keeps
  | forceSwitch => exact (execForceSwitch_k ..).keeps
  | refSelect => exact (execRefSelect_k ..).keeps
  | fmGo => exact (execFmGo_k ..).keeps
  | clkFmDone => exact (execClkFmDone_k ..).keeps
  | inputRise => exact (execInputRise_k ..).keeps
  | inputLoss => exact (execInputLoss_k ..).keeps
  | enableRise => exact (execEnableRise_k ..).keeps
  | enableFall => exact (execEnableFall_k ..).keeps
  | powerFault => exact (execPowerFault_k ..).keeps
  | bootStepDone => exact (execBootStepDone_k ..).keeps
  | bootWatchdog => exact (execBootWatchdog_k ..).keeps
  | bootRestart => exact (execBootRestart_k ..).keeps
  | clearAlt => exact (execClearAlt_k ..).keeps
  | recover => exact (execRecover_k ..).keeps
  | cfgSave => exact (execCfgSave_k ..).keeps
  | bar2ImageWrite => exact (execBar2ImageWrite_k ..).keeps
  | load => exact (execLoad_k ..).keeps
  | flashProgramDone => exact (execFlashProgramDone_k ..).keeps
  | abort => exact (execAbort_k ..).keeps
  | clearFaults => exact (execClearFaults_k ..).keeps
  | statusWord => exact (execStatusWord_k ..).keeps
  | statusInput => exact (execStatusInput_k ..).keeps
  | statusTemperature => exact (execStatusTemperature_k ..).keeps
  | readVin => exact (execReadVin_k ..).keeps
  | readIin => exact (execReadIin_k ..).keeps
  | readTemperature1 => exact (execReadTemperature1_k ..).keeps
  | readTemperature2 => exact (execReadTemperature2_k ..).keeps
  | readPin => exact (execReadPin_k ..).keeps
  | pmbusRevision => exact (execPmbusRevision_k ..).keeps
  | mfrId => exact (execMfrId_k ..).keeps
  | mfrModel => exact (execMfrModel_k ..).keeps
  | pmbusUnsupported => exact (execPmbusUnsupported_k ..).keeps
  | blkIntStatWrite => exact (execBlkIntStatWrite_k ..).keeps
  | blkIntEnWrite => exact (execBlkIntEnWrite_k ..).keeps
  | blkCtlWrite => exact (execBlkCtlWrite_k ..).keeps
  | blkIntSet => exact (execBlkIntSet_k ..).keeps
  | blkErrSrcWrite => exact (execBlkErrSrcWrite_k ..).keeps
  | cntSnap => exact (execCntSnap_k ..).keeps
  | cntClear => exact (execCntClear_k ..).keeps
  | pairLoRead => exact (execPairLoRead_k ..).keeps
  | pairHiRead => exact (execPairHiRead_k ..).keeps
  | pairLoWrite => exact (execPairLoWrite_k ..).keeps
  | pairHiWrite => exact (execPairHiWrite_k ..).keeps
  | registerWrite => exact (execRegisterWrite_k ..).keeps
  | lineLaserFadeWindow => exact (execLineLaserFadeWindow_k ..).keeps
  | lineLaserUnitReplace => exact (execLineLaserUnitReplace_k ..).keeps
  | monitorReadingDone => exact (execMonitorReadingDone_k ..).keeps
  | ppsOutputEdge => exact (execPpsOutputEdge_k ..).keeps
  | portSfHold => exact (execPortSfHold_k ..).keeps
  | leaderJoinRequest g pos => exact (execLeaderJoinRequest_k g pos s).keeps
  | spareMirrorRequest => exact (execSpareMirrorRequest_k ..).keeps

/-- The invariant does not speak of the queue. -/
theorem State.Inv.withPending {s : State} (h : s.Inv) (l : List Instr) : State.Inv { s with pending := l } :=
  ⟨h.regs, h.cnts, h.snaps, h.pages, h.hbm, h.lp, h.bound, h.hdrs⟩

theorem step_nil {s : State} (h : s.pending = []) : step s = .next (tick s) := by
  simp only [step, h]

theorem step_cons {s : State} {c : Instr} {l : List Instr} (h : s.pending = c :: l) :
    step s = exec c { s with pending := l } := by
  simp only [step, h]

/-- Settles O3: the invariant does not speak of the queue, and both an idle nanosecond and the front command keep it. -/
theorem everyStepKeepsInv : Obligations.EveryStepKeepsInv := by
  unfold Obligations.EveryStepKeepsInv
  intro s t hs ht
  cases hq : s.pending with
  | nil =>
    rw [step_nil hq] at ht
    cases ht
    exact (tick_k s).keeps.inv hs
  | cons c l =>
    rw [step_cons hq] at ht
    obtain ⟨u, hu, k⟩ := exec_keeps c { s with pending := l }
    cases hu.symm.trans ht
    exact k.inv (hs.withPending l)

end Sys2Proof.Machine
end

section
/-! PROOF. A register write: what refuses it, in the order of log 116, and the HOST page, whose registers hold what is
written. -/
namespace Sys2Proof.Machine

open Sys2Proof

/-! ## What a refusal leaves -/

theorem refuse_intStat (w : Who) (p : Nat) (c : RefCode) (o : Nat) (v : Word) (s : State) (q : Nat) :
    ((refuse w p c o v s).hdr q).intStat = (s.hdr q).intStat := capture_hdr ..

theorem refuse_out (w : Who) (p : Nat) (c : RefCode) (o : Nat) (v : Word) (s : State) : (refuse w p c o v s).out = s.out := rfl

/-- A refusal is recorded alike from two states with the same capture. -/
theorem Recorded.of_err {w : Who} {p : Nat} {c : RefCode} {o : Nat} {v : Word} {s u t : State} (h : Recorded w p c o v u t)
    (hs : (u.hdr p).errValid = (s.hdr p).errValid ∧ (u.hdr p).errLost = (s.hdr p).errLost ∧
      (u.hdr p).errInfo = (s.hdr p).errInfo) : Recorded w p c o v s t := by
  obtain ⟨hv, hl, hi⟩ := hs
  unfold Recorded at *
  rwa [hv, hl, hi] at h

/-- What is raised stays raised over a refusal. -/
theorem Raised.over_refuse {p e b : Nat} {s u : State} (h : Raised p e b s u) (w : Who) (q : Nat) (c : RefCode) (o : Nat)
    (v : Word) : Raised p e b s (refuse w q c o v u) := by
  have hc : ∀ r, (refuse w q c o v u).cnt p r = u.cnt p r :=
    cnt_of_cnts ((refuse_k w q c o v u).only .cnts (by decide)) p
  obtain ⟨h1, h2, h3⟩ := h
  exact ⟨(hc e).trans h1, (refuse_intStat ..).trans h2, fun r hr => (hc r).trans (h3 r hr)⟩

section NotOwner

variable {f : Func} {s : State} (o : Nat) (v : Word)

/-- A write that its class does not allow counts HOST_ACCESS_DENIED on the function's page. -/
theorem notOwner_raised (h : s.pageOff (pgHOSTF f.val) = false) : Raised (pgHOSTF f.val) 0x810 3 s (notOwner (.func f) o v s) :=
  (raiseEv_raised h).over_refuse ..

theorem notOwner_recorded : Recorded (.func f) (pgHOSTF f.val) .notOwner o v s (notOwner (.func f) o v s) :=
  (refuse_recorded ..).of_err (raiseEv_err ..)

end NotOwner

/-! ## Which of its tests ends a write -/

theorem exec_registerWrite {w : Who} {off p o : Nat} {v : Word} {s : State} (h : barTarget w off = .page p o) :
    exec (.registerWrite w off v) s = .next (regWrite w p o v s) := by
  show Host.Outcome.next (targetWrite w (barTarget w off) v s) = _
  rw [h, targetWrite]

section Tests

variable {w : Who} {p o : Nat} {v : Word} {r : RegRow} {s : State}
  (ho : 0x100 ≤ o) (hr : regRow p o = some r) (hp : s.reaches w p = true)
include ho hr hp

theorem regWrite_notOwner (hw : s.mayWrite w p o r (s.entryIx w p r) v = false) : regWrite w p o v s = notOwner w o v s := by
  simp [regWrite, regWriteBy, regWriteAt, hr, hp, hw, Nat.not_lt.2 ho]

variable (hw : s.mayWrite w p o r (s.entryIx w p r) v = true)
include hw

theorem regWrite_domOff (hd : s.pageOff p = true) : regWrite w p o v s = refuse w p .domOff o v s := by
  simp [regWrite, regWriteBy, regWriteAt, hr, hp, hw, hd, Nat.not_lt.2 ho]

variable (hd : s.pageOff p = false)
include hd

theorem regWrite_locked (hl : r.rwl ≠ 0) (hk : (s.hdr p).locked = true) :
    regWrite w p o v s = refuse w p .locked o v s := by
  simpa [regWrite, regWriteBy, regWriteAt, hr, hp, hw, hd, hk, Nat.not_lt.2 ho] using fun h => absurd h hl

theorem regWrite_rsvd (hl : r.rwl = 0 ∨ (s.hdr p).locked = false)
    (he : rsvd r (merge r.rw (s.reg p o (s.entryIx w p r)) v) = true) : regWrite w p o v s = refuse w p .rsvdEnc o v s := by
  rcases hl with hl | hl <;> simp [regWrite, regWriteBy, regWriteAt, hr, hp, hw, hd, hl, he, Nat.not_lt.2 ho]

end Tests

/-- A write that ends in a refusal is recorded, sends nothing and changes the page headers alone. -/
theorem completes_refuse {w : Who} {off p o : Nat} {c : RefCode} {v : Word} {s : State} (ht : barTarget w off = .page p o)
    (h : regWrite w p o v s = refuse w p c o v s) :
    Completes (.registerWrite w off v) s fun t => Recorded w p c o v s t ∧ t.out = s.out ∧ OnlyIn [.pages] s t :=
  ⟨_, (exec_registerWrite ht).trans (congrArg _ h), refuse_recorded .., refuse_out .., (refuse_k ..).only⟩

/-! ## The HOST page -/

theorem pageEffect_host (w : Who) (o ix : Nat) (v : DWord) (s : State) :
    pageEffect w pgHOST o ix v s = .ok (store pgHOST o ix (loW v) s) := rfl

theorem cmdBits_host (o : Nat) : cmdBits pgHOST o = 0#32 := rfl

/-- Settles O10: each refusal is the first test that fails (class, clock, lock, encoding), and the HOST page stores what an
allowed write gives it. -/
theorem registerWrites : Obligations.RegisterWrites := by
  unfold Obligations.RegisterWrites
  refine ⟨?notOwner, ?refused, ?host⟩
  case notOwner =>
    intro f off p o v r s ht ho hr hp hw hd
    refine ⟨_, (exec_registerWrite ht).trans (congrArg _ (regWrite_notOwner ho hr hp hw)), ?_⟩
    exact ⟨notOwner_raised o v hd, notOwner_recorded o v, (notOwner_k ..).only⟩
  case refused =>
    intro w off p o v r s ht ho hr hp hw
    exact ⟨fun hd => completes_refuse ht (regWrite_domOff ho hr hp hw hd),
      fun hd hl hk => completes_refuse ht (regWrite_locked ho hr hp hw hd hl hk),
      fun hd hl he => completes_refuse ht (regWrite_rsvd ho hr hp hw hd hl he)⟩
  case host =>
    intro w off o v r s ht hr hc hp hm ha
    have hm' : r.rw ||| r.rwl ||| cmdBits pgHOST o ≠ 0 := by rwa [cmdBits_host, BitVec.or_zero]
    have he : pageEffect w pgHOST o (s.ixOf w pgHOST o) ((s.taken w pgHOST o v).setWidth 64) s =
        .ok (store pgHOST o (s.ixOf w pgHOST o) (s.taken w pgHOST o v) s) := by
      rw [pageEffect_host, loW_setWidth]
    exact ⟨_, exec_registerWrite ht, stored_ok ha hr hc hp hm' he, by rw [regWrite_ok ha hr hc hp hm' he]; rfl⟩

end Sys2Proof.Machine
end

section
/-! PROOF. The frame of every command fails at DEFECT_CLEAR: at a spare that takes over a position, the end of LOS is the
light that enables the port (16 R406, log 173), and the enable is a bit of LINEn_CTL, which mayChange does not list. -/
namespace Sys2Proof.Machine

open Sys2Proof

/-! ## The enable of a line port -/

theorem lineEn_of_regs {s t : State} (h : t.regs = s.regs) (p : Nat) : t.lineEn p = s.lineEn p := by
  simp only [State.lineEn, State.lineCtl, State.reg, h]

@[simp] theorem lineEn_setReg_enable (p : Nat) (v : Word) (b : Bool) (s : State) :
    (s.setReg (pgLINE p) 0x100 (setBit v 31 b)).lineEn p = b := by
  simp only [State.lineEn, State.lineCtl, State.reg_setReg_self, bit_setBit _ _ _ _ (by decide : 31 < 32), if_true]

/-- What a port does as it is enabled or disabled leaves the enable itself as it is. -/
@[simp] theorem lineEnable_lineEn (p q : Nat) (on : Bool) (s : State) : (lineEnable p on s).lineEn q = s.lineEn q :=
  lineEn_of_regs ((lineEnable_k p on s).only .regs (by decide)) q

/-! ## The light that a takeover waits for -/

theorem exec_defectClear_light {p : Port} {s : State} (hs : s.mgmt.sstate = 2) (he : s.lineEn p.val = false)
    (ho : (s.port p.val).oos = false) (hd : (s.port p.val).defects.getLsbD 0 = false) :
    exec (.defectClear p .los) s =
      .next (lineEnable p.val true (s.setReg (pgLINE p.val) 0x100 (setBit (s.lineCtl p.val) 31 true))) := by
  show execDefectClear p .los s = _
  have hi : Defect.ix .los = 0 := rfl
  simp only [execDefectClear, hi, hd, hs, he, ho]
  rfl

/-- Refutes O7: port 0 of a spare that takes over a position is disabled, and DEFECT_CLEAR of LOS sets its LINEn_CTL.EN. -/
theorem not_everyCommandFrame : ¬ Obligations.EveryCommandFrame := by
  unfold Obligations.EveryCommandFrame
  intro h
  let s : State :=
    (({} : State).updMgmt fun m => { m with sstate := 2 }).updLine fun x => { x with ports := #v[{ oos := false }, {}] }
  obtain ⟨hs, he, ho, hd⟩ : s.mgmt.sstate = 2 ∧ s.lineEn 0 = false ∧ (s.port 0).oos = false ∧
      (s.port 0).defects.getLsbD 0 = false := by decide +kernel
  have hregs := h _ s _ (exec_defectClear_light (p := 0) hs he ho hd) .regs (by decide)
  have hsame := (lineEn_of_regs hregs 0).trans he
  simp at hsame

end Sys2Proof.Machine
end

section
/-! PROOF. Writes of the SCH page: the rows of its table, what an allowed write of each takes, and a load of a step axis. -/
namespace Sys2Proof.Machine

open Sys2Proof

/-! ## Rows of the SCH page (02 Table 2.7) -/

/-- The row of SCH_Jn_STEP_LOAD. -/
def rowStepLoad : RegRow :=
  { off := 0x208, n := 8, stride := 0x40, words := 2, pair := true, cls := .jobN, rw := 0xFFFFFFFF }

theorem regRow_stepLoad (j : Job) :
    regRow pgSCH (0x20C + 0x40 * j.val) = some rowStepLoad ∧ rowStepLoad.word (0x20C + 0x40 * j.val) = 1 := by
  revert j; decide

theorem regRow_quorum (j : Job) : regRow pgSCH (0x210 + 0x40 * j.val) =
    some { off := 0x210, n := 8, stride := 0x40, cls := .jobN, rw := 0x3FF } := by
  revert j; decide

theorem regRow_cntPart (j : Job) : regRow pgSCH (0x214 + 0x40 * j.val) =
    some { off := 0x214, n := 8, stride := 0x40, cls := .grant, rw := 0x00FF003F } := by
  revert j; decide

theorem regRow_regmap (j : Job) (k : Fin 16) : regRow pgSCH (0x400 + 0x40 * j.val + 4 * k.val) =
    some { off := 0x400, n := 8, stride := 0x40, words := 16, cls := .jobN, rw := 0xFFFFFFFF } := by
  revert j k; decide

theorem regRow_cntVal : regRow pgSCH 0x10C = some { off := 0x10C, cls := .counter, rw := 0xFFFFFFFF, ix := some 0x108 } := by
  decide

theorem cmdBits_sch (o : Nat) : cmdBits pgSCH o = 0#32 := rfl

theorem row_settable {r : RegRow} (o : Nat) (h : r.rw ||| r.rwl ≠ 0) : r.rw ||| r.rwl ||| cmdBits pgSCH o ≠ 0 := by
  rwa [cmdBits_sch, BitVec.or_zero]

/-- A register that software may set whole takes the value written. -/
theorem taken_whole {w : Who} {p o : Nat} {v : Word} {s : State} {r : RegRow} (hr : regRow p o = some r)
    (hm : r.rw ||| r.rwl ||| cmdBits p o = 0xFFFFFFFF) : s.taken w p o v = v := by
  simp only [State.taken, hr, hm, merge_all]

/-! ## The page's effect at each offset -/

theorem pageEffect_sch (w : Who) (o ix : Nat) (v : DWord) (s : State) :
    pageEffect w pgSCH o ix v s = schEffect pgSCH o ix v s := rfl

section Effect

variable (j : Job) (ix : Nat) (v : DWord) (s : State)

theorem schEffect_stepLoad : schEffect pgSCH (0x20C + 0x40 * j.val - 4) ix v s = stepLoad j.val v s := by
  have hj : (0x20C + 0x40 * j.val - 4 - 0x200) / 0x40 % 8 = j.val := by omega
  simp only [schEffect, hj]
  rw [if_neg (by omega), if_neg (by omega), if_neg (by omega), if_pos (by omega)]

theorem schEffect_quorum : schEffect pgSCH (0x210 + 0x40 * j.val) ix v s =
    .ok (axisEval j.val (store pgSCH (0x210 + 0x40 * j.val) ix (loW v) s)) := by
  have hj : (0x210 + 0x40 * j.val - 0x200) / 0x40 % 8 = j.val := by omega
  simp only [schEffect, hj]
  rw [if_neg (by omega), if_neg (by omega), if_neg (by omega), if_neg (by omega), if_pos (by omega)]

theorem schEffect_cntPart : schEffect pgSCH (0x214 + 0x40 * j.val) ix v s = cntPart j.val (loW v) s := by
  have hj : (0x214 + 0x40 * j.val - 0x200) / 0x40 % 8 = j.val := by omega
  simp only [schEffect, hj]
  rw [if_neg (by omega), if_neg (by omega), if_neg (by omega), if_neg (by omega), if_neg (by omega), if_pos (by omega)]

theorem schEffect_regmap (k : Fin 16) : schEffect pgSCH (0x400 + 0x40 * j.val + 4 * k.val) ix v s =
    .ok (regmapWr j.val k.val (loW v) s) := by
  have hj : (0x400 + 0x40 * j.val + 4 * k.val - 0x400) / 0x40 = j.val := by omega
  have hk : (0x400 + 0x40 * j.val + 4 * k.val - 0x400) % 0x40 / 4 = k.val := by omega
  simp only [schEffect, hj, hk]
  rw [if_neg (by omega), if_neg (by omega), if_pos (by omega)]

theorem schEffect_cntVal : schEffect pgSCH 0x10C ix v s = .ok (cntVal ix (loW v) s) := rfl

end Effect

/-! ## A write of a _HI register -/

/-- An allowed write of a _HI register that its page refuses; the held half is used up all the same. -/
theorem regWrite_pair_error {w : Who} {p o : Nat} {v : Word} {s : State} {r : RegRow} {c : RefCode}
    (h : s.allows w p o v = true) (hr : regRow p o = some r) (hc : r.cls ≠ .ownIdx) (hp : r.pair = true)
    (hw : r.word o = 1) (hm : ¬ (r.rw = 0 ∧ r.rwHi = 0))
    (he : pageEffect w p (o - 4) (s.ixOf w p o) (s.takenPair w p o v)
      { s with heldLo := SMap.erase (pairKey w p (o - 4)) s.heldLo } = .error c) :
    regWrite w p o v s =
      refusedToo c o (refuse w p c o v { s with heldLo := SMap.erase (pairKey w p (o - 4)) s.heldLo }) := by
  unfold regWrite
  rw [regWriteBy_pair h hr hc hp (by rw [hw]; decide) hm]
  apply takeWrite_error
  simpa [hr, hp, hw] using he

/-- A half that is no longer held is in the halves. -/
theorem onlyIn_heldLo (s : State) (m : SMap Word) : OnlyIn [.halves] s { s with heldLo := m } :=
  (State.halves_k s s.latch m).only

/-! ## A load of a step axis (R35) -/

theorem mc_eq (s : State) (j c : Nat) : s.mc j c = SMap.get (fun _ => 0) s.sch.mc (mcKey j c) := rfl

/-- The axis and every mark of a job stand at `v`; no other axis or mark, and no entry, is touched. -/
structure Loaded (j : Nat) (v : DWord) (s t : State) : Prop where
  axis : ∀ i, t.axis i = if i = j then v else s.axis i
  mc : ∀ i (c : Contrib), t.mc i c.val = if i = j then v else s.mc i c.val
  ops : t.sch.ops = s.sch.ops
  mseq : t.sch.mseq = s.sch.mseq
  pages : t.pages = s.pages

theorem stepLoad_loaded {j : Nat} {v : DWord} {s t : State} (h : stepLoad j v s = .ok t) : Loaded j v s t := by
  unfold stepLoad at h
  split at h
  · cases h
  cases h
  refine ⟨fun i => SMap.get_set _ _ _ _ _, fun i c => ?_, rfl, rfl, rfl⟩
  rw [mc_eq, State.updSch_sch, SMap.get_foldl_set]
  have hmem : mcKey i c.val ∈ (List.range 512).map (mcKey j) ↔ i = j := by
    simp only [List.mem_map, List.mem_range, mcKey]
    constructor
    · rintro ⟨a, ha, he⟩
      omega
    · rintro rfl
      exact ⟨c.val, c.isLt, rfl⟩
  simp only [hmem]
  rfl

theorem stepLoad_ok {j : Nat} (v : DWord) {s : State} (h : s.jobOps j = []) : ∃ t, stepLoad j v s = .ok t := by
  rw [stepLoad, h]
  exact ⟨_, rfl⟩

theorem stepLoad_busy {j : Nat} (v : DWord) {s : State} (h : s.jobOps j ≠ []) : stepLoad j v s = .error .stepLoadBusy := by
  cases hl : s.jobOps j with
  | nil => exact absurd hl h
  | cons e l => rw [stepLoad, hl]; rfl

section StepLoad

variable {w : Who} {j : Job} {v : Word} {s : State} (ha : s.allows w pgSCH (0x20C + 0x40 * j.val) v = true)
include ha

/-- A write that completes SCH_Jn_STEP_LOAD loads the axis of a job without operations. -/
theorem schStepLoad_loads (h : s.jobOps j.val = []) :
    ∃ t, exec (.schStepLoad w j v) s = .next t ∧
      Loaded j.val (s.takenPair w pgSCH (0x20C + 0x40 * j.val) v) s t ∧ OnlyIn [.sch, .halves] s t := by
  obtain ⟨hr, hword⟩ := regRow_stepLoad j
  let u : State := { s with heldLo := SMap.erase (pairKey w pgSCH (0x20C + 0x40 * j.val - 4)) s.heldLo }
  obtain ⟨t, ht⟩ := stepLoad_ok (s.takenPair w pgSCH (0x20C + 0x40 * j.val) v) (s := u) h
  have hl := stepLoad_loaded ht
  have hw := regWrite_pair_ok ha hr (by decide) rfl hword (by decide) ((schEffect_stepLoad j _ _ u).trans ht)
  exact ⟨t, congrArg _ hw, ⟨hl.axis, hl.mc, hl.ops, hl.mseq, hl.pages⟩,
    (onlyIn_heldLo s _).trans ((stepLoad_k ..).get ht).only (by decide) (by decide)⟩

/-- A job with operations refuses the load. -/
theorem schStepLoad_busy (h : s.jobOps j.val ≠ []) :
    ∃ t, exec (.schStepLoad w j v) s = .next t ∧ t.sch = s.sch ∧
      Recorded w pgSCH .stepLoadBusy (0x20C + 0x40 * j.val) v s t ∧ OnlyIn [.pages, .halves] s t := by
  obtain ⟨hr, hword⟩ := regRow_stepLoad j
  let u : State := { s with heldLo := SMap.erase (pairKey w pgSCH (0x20C + 0x40 * j.val - 4)) s.heldLo }
  have hw := regWrite_pair_error ha hr (by decide) rfl hword (by decide)
    ((schEffect_stepLoad j _ _ u).trans (stepLoad_busy _ h))
  exact ⟨refuse w pgSCH .stepLoadBusy _ v u, congrArg _ hw, rfl, refuse_recorded w pgSCH .stepLoadBusy _ v u,
    (onlyIn_heldLo s _).trans (refuse_k ..).only (by decide) (by decide)⟩

end StepLoad

/-- Settles O13: an allowed write of the high half is a load, which the gateway performs while the job has no entry. -/
theorem stepAxisLoad : Obligations.StepAxisLoad := by
  unfold Obligations.StepAxisLoad
  intro w j v s o x ha
  refine ⟨fun h => ?_, schStepLoad_busy ha⟩
  obtain ⟨t, ht, hl, ho⟩ := schStepLoad_loads ha h
  refine ⟨t, ht, (hl.axis j.val).trans (if_pos rfl), fun c => (hl.mc j.val c).trans (if_pos rfl), fun i hi => ?_, hl.pages, ho⟩
  have hij : i.val ≠ j.val := fun e => hi (Fin.ext e)
  exact ⟨(hl.axis i.val).trans (if_neg hij), fun c => (hl.mc i.val c).trans (if_neg hij)⟩

end Sys2Proof.Machine
end

section
/-! PROOF. Sync counters (R48 to R51): signals, wait conditions, writes of a counter and of a counter partition. -/
namespace Sys2Proof.Machine

open Sys2Proof

/-! ## Signals (R48) -/

theorem ctr_setCtr (i k : Nat) (v : Word) (s : State) : (setCtr i v s).ctr k = if k = i then v else s.ctr k :=
  SMap.get_set _ _ _ _ _

/-- A signal sets its counter to the sum, or to its greatest value; what else it does is no part of the scheduler. -/
theorem signal_sch (i n : Nat) (s : State) :
    (signal i n s).sch = (setCtr i (wd (min ((s.ctr i).toNat + n) 0xFFFFFFFF)) s).sch := by
  unfold signal
  dsimp only
  split
  · next h =>
    rw [(event_k ..).only .sch (by decide), (captureEv_k ..).only .sch (by decide), Nat.min_eq_right (Nat.le_of_lt h)]
    rfl
  · next h => rw [Nat.min_eq_left (Nat.le_of_not_lt h)]

theorem ctr_signal (i n k : Nat) (s : State) :
    (signal i n s).ctr k = if k = i then wd (min ((s.ctr i).toNat + n) 0xFFFFFFFF) else s.ctr k := by
  rw [← ctr_setCtr]
  simp only [State.ctr, signal_sch]

theorem ctr_signal_self (i n : Nat) (s : State) :
    ((signal i n s).ctr i).toNat = min ((s.ctr i).toNat + n) 0xFFFFFFFF := by
  rw [ctr_signal, if_pos rfl, wd, BitVec.toNat_ofNat, Nat.mod_eq_of_lt]
  omega

/-- A signal that does not saturate its counter only sets it. -/
theorem signal_fits {i n : Nat} {s : State} (h : (s.ctr i).toNat + n ≤ 0xFFFFFFFF) :
    signal i n s = setCtr i (wd ((s.ctr i).toNat + n)) s := if_neg (Nat.not_lt.2 h)

/-- A signal that saturates its counter raises SCH_CNT_SAT. -/
theorem signal_saturates {i n : Nat} {s : State} (h : (s.ctr i).toNat + n > 0xFFFFFFFF) (hp : s.pageOff pgSCH = false) :
    ((signal i n s).hdr pgSCH).intStat = (s.hdr pgSCH).intStat ||| wd (2 ^ 4) := by
  have hoff : (captureEv pgSCH 0xF04 (wd i) 0 (setCtr i 0xFFFFFFFF s)).pageOff pgSCH = false := by
    rw [pageOff_of_clk ((captureEv_k ..).only .clk (by decide))]
    exact hp
  have he : signal i n s = event pgSCH 4 (captureEv pgSCH 0xF04 (wd i) 0 (setCtr i 0xFFFFFFFF s)) := if_pos h
  rw [he, event_hdr hoff, if_pos rfl]
  dsimp only
  rw [captureEv_hdr]
  rfl

/-- Two signals of one counter are one of the sum. -/
theorem signal_signal (i m n : Nat) (s : State) : (signal i n (signal i m s)).ctr i = (signal i (m + n) s).ctr i := by
  apply BitVec.eq_of_toNat_eq
  rw [ctr_signal_self, ctr_signal_self, ctr_signal_self]
  omega

/-! ## Wait conditions (R49) -/

theorem condsHold_iff (d : Desc) (s : State) : s.condsHold d = true ↔
    ∀ k v, (k, v) ∈ (d.wcnt.zip d.wval).take d.nwait → v.toNat ≤ (s.ctr (s.partBase d.job.val + k)).toNat := by
  simp only [State.condsHold, List.all_eq_true, decide_eq_true_eq, Prod.forall]

/-- Settles O14: every clause is about what one signal leaves in its counter. -/
theorem signalsSaturate : Obligations.SignalsSaturate := by
  unfold Obligations.SignalsSaturate
  refine ⟨fun i n s => ⟨ctr_signal_self i n s, fun k hk => ?_, fun h => ?_, signal_saturates⟩, signal_signal, condsHold_iff⟩
  · rw [ctr_signal, if_neg hk]
  · rw [signal_fits h]
    exact ⟨rfl, rfl⟩

/-! ## A write of a counter (R49, R51) -/

/-- The entries after every waiting one of a job has been evaluated. -/
theorem evalJob_entry (j id : Nat) (s : State) {e : Entry} (h : s.entry? id = some e) :
    (e.st ≠ .waiting → (evalJob j s).entry? id = some e) ∧
      (e.st = .waiting → e.d.job.val = j → ((evalJob j s).entry? id).map Entry.st =
        some (if s.condsHold e.d then (if e.d.claim then .claiming else .ready) else .waiting)) := by
  have hmem : e ∈ s.sch.ops := List.mem_of_find?_eq_some h
  have hid : e.id = id := by simpa using List.find?_some h
  unfold evalJob
  rw [forAll_evalEntry, h]
  constructor
  · intro hw
    simp [hw]
  · intro hw hj
    have hin : id ∈ (s.sch.ops.filter fun e => decide (e.st = .waiting) && decide (e.d.job.val = j)).map Entry.id :=
      List.mem_map.2 ⟨e, List.mem_filter.2 ⟨hmem, by simp [hw, hj]⟩, hid⟩
    rw [if_pos hin]
    by_cases hc : s.condsHold e.d = true <;> simp [hw, hc]

/-- What a software write of counter `i` does to the scheduler. -/
theorem cntVal_moves (i : Nat) (v : Word) (s : State) : SchMoves (setCtr i v s) (cntVal i v s) := by
  unfold cntVal
  dsimp only
  split
  · exact evalJob_moves _ _
  · exact .refl _

theorem cntVal_entry (i : Nat) (v : Word) {s : State} {id : Nat} {e : Entry} (h : s.entry? id = some e) :
    (e.st ≠ .waiting → (cntVal i v s).entry? id = some e) ∧
      (e.st = .waiting → s.ctrJob i = some e.d.job.val → ((cntVal i v s).entry? id).map Entry.st =
        some (if (cntVal i v s).condsHold e.d then (if e.d.claim then .claiming else .ready) else .waiting)) := by
  rw [condsHold_of_moves (cntVal_moves i v s) ((cntVal_k i v s).only .regs (by decide))]
  have h1 : (setCtr i v s).entry? id = some e := h
  unfold cntVal
  dsimp only
  split
  · next j hj =>
    obtain ⟨hother, hwaiting⟩ := evalJob_entry j id (setCtr i v s) h1
    exact ⟨hother, fun hw hc => hwaiting hw (Option.some.inj (hc.symm.trans hj))⟩
  · next hj => exact ⟨fun _ => h1, fun _ hc => absurd (hc.symm.trans hj) (by simp)⟩

/-- An allowed write of SCH_CNT_VAL writes the counter that SCH_CNT_IDX selects. -/
theorem schCntValWrite_next {w : Who} {v : Word} {s : State} (ha : s.allows w pgSCH 0x10C v = true) :
    exec (.schCntValWrite w v) s = .next (cntVal (s.idx w pgSCH 0x108) v s) := by
  have hx : s.ixOf w pgSCH 0x10C = s.idx w pgSCH 0x108 := by rw [State.ixOf, regRow_cntVal]; rfl
  refine congrArg Host.Outcome.next (regWrite_ok ha regRow_cntVal (by decide) rfl (by decide) ?_)
  rw [pageEffect_sch, schEffect_cntVal, loW_setWidth, taken_whole regRow_cntVal (by decide), hx]

/-! ## A write of a counter partition (R50) -/

/-- A partition of at most 32 × 64 counters that overlaps no other is stored, and its counters are zeroed. -/
theorem cntPart_ok {j : Job} {x : Word} {s : State} (ho : s.jobOps j.val = [])
    (hn : 64 * fld x 0 6 ≤ 2048) (hb : 64 * fld x 16 8 + 64 * fld x 0 6 ≤ 16384)
    (hd : ∀ i : Job, i ≠ j → s.partSize i.val = 0 ∨ 64 * fld x 0 6 = 0 ∨
      s.partBase i.val + s.partSize i.val ≤ 64 * fld x 16 8 ∨ 64 * fld x 16 8 + 64 * fld x 0 6 ≤ s.partBase i.val) :
    cntPart j.val x s = .ok ((store pgSCH (0x214 + 0x40 * j.val) 0 x s).updSch fun y =>
      { y with cnt := y.cnt.filter fun kv => !(fld x 16 8 * 64 ≤ kv.1 && kv.1 < (fld x 16 8 + fld x 0 6) * 64) }) := by
  have hover := any_false (f := fun i => decide (s.partSize i > 0) && decide (fld x 0 6 > 0) &&
      decide (fld x 16 8 * 64 < s.partBase i + s.partSize i) && decide (s.partBase i < (fld x 16 8 + fld x 0 6) * 64)) j
    fun i hi => by
      have := hd i hi
      simp only [Bool.and_eq_false_iff, decide_eq_false_iff_not]
      omega
  simp only [← Bool.and_assoc] at hover
  have hsize : ¬ (fld x 0 6 > 32 ∨ fld x 16 8 + fld x 0 6 > 256) := by omega
  simp only [cntPart, ho, hover]
  simp [hsize]

/-- Settles O16: a counter's write is the counter set and its job evaluated; a partition's write stores it and zeroes its
counters. -/
theorem syncCounterWrites : Obligations.SyncCounterWrites := by
  unfold Obligations.SyncCounterWrites
  refine ⟨?counter, ?partition⟩
  case counter =>
    intro w v s ha
    have hm := cntVal_moves (s.idx w pgSCH 0x108) v s
    refine ⟨_, schCntValWrite_next ha, fun i => ?_, fun id e h => cntVal_entry _ _ h, hm.len, hm.axis, hm.mc, (cntVal_k ..).only⟩
    rw [← ctr_setCtr]
    simp only [State.ctr, hm.cnt]
  case partition =>
    intro w j v s ha ho x b n hn hb hd
    have hx : s.ixOf w pgSCH (0x214 + 0x40 * j.val) = 0 := ixOf_none (regRow_cntPart j) (by decide) rfl
    have he := cntPart_ok ho hn hb hd
    have hw := regWrite_ok ha (regRow_cntPart j) (by decide) rfl (row_settable _ (by decide))
      (by rw [pageEffect_sch, schEffect_cntPart, loW_setWidth]; exact he)
    refine ⟨_, congrArg Host.Outcome.next hw, rfl, ?_, ?_, fun i => ?_, rfl, ((cntPart_k ..).get he).only⟩
    · simp only [State.partBase, State.regF, store, State.updSch_reg_eq, State.reg_setReg_self]
      omega
    · simp only [State.partSize, State.regF, store, State.updSch_reg_eq, State.reg_setReg_self]
      omega
    · rw [State.ctr, State.updSch_sch]
      dsimp only
      rw [SMap.get_filter_key (fun _ => 0) (fun k => !(fld x 16 8 * 64 ≤ k && k < (fld x 16 8 + fld x 0 6) * 64))]
      by_cases hi : b ≤ i ∧ i < b + n
      · rw [if_pos hi, if_neg]
        simp; omega
      · rw [if_neg hi, if_pos]
        · rfl
        · simp; omega

end Sys2Proof.Machine
end

section
/-! PROOF. The step axis (R31 to R35): step marks, and writes of the registered map and of the quorum. -/
namespace Sys2Proof.Machine

open Sys2Proof

/-- The axis moves alike from two states with the same axes. -/
theorem AxisMoves.of_axis {j : Nat} {s u t : State} (h : AxisMoves j u t) (ha : u.sch.axis = s.sch.axis) :
    AxisMoves j s t := by
  have e : ∀ i, u.axis i = s.axis i := fun i => by simp only [State.axis, ha]
  simpa only [AxisMoves, e] using h

/-! ## Step marks (R31, R33) -/

section StepMark

variable {j : Job} {c : Contrib} {b : List Byte} {s : State}

/-- A mark that no check of R31 and R33 turns away is taken, and the axis is evaluated. -/
theorem stepMarkOp_takes (hlen : b.length = 16) (hc : leAt b 8 2 = c.val) (hz : leAt b 0xA 2 = 0)
    (hreg : s.registered j.val c.val = true)
    (hseq : (SMap.find s.sch.mseq (mcKey j.val c.val)).all (serialGt (wAt b 0xC)) = true)
    (hnew : (s.mc j.val c.val).toNat < leAt b 0 8) (hfar : leAt b 0 8 ≤ (s.axis j.val).toNat + 65535) :
    stepMarkOp j.val (16 * c.val) b s = axisEval j.val (s.updSch fun x =>
      { x with mc := SMap.set (fun _ => 0) (mcKey j.val c.val) (BitVec.ofNat 64 (leAt b 0 8)) x.mc
               mseq := SMap.put (mcKey j.val c.val) (wAt b 0xC) x.mseq }) := by
  have hq : 16 * c.val / 16 = c.val := by omega
  have hgt : ¬ leAt b 0 8 > (s.axis j.val).toNat + 65535 := Nat.not_lt.2 hfar
  simp only [stepMarkOp, hq]
  rw [if_neg ?form, if_neg ?unreg, if_neg ?stale, if_neg hgt]
  case form => simp [hlen, hc, hz]
  case unreg => simp [hreg]
  case stale =>
    cases hm : SMap.find s.sch.mseq (mcKey j.val c.val) with
    | none => simpa using hnew
    | some l =>
      have hfresh : serialGt (wAt b 0xC) l = true := by simpa [hm] using hseq
      simpa [hfresh] using hnew

end StepMark

/-! ## The registered map (R34) -/

/-- Bit `i` of word `k` of a job's map is its contributor 32 k + i. -/
theorem registered_word (s : State) (j k : Nat) (i : Fin 32) :
    s.registered j (32 * k + i.val) = bit (s.reg pgSCH (0x400 + 0x40 * j + 4 * k)) i.val := by
  have h1 : (32 * k + i.val) / 32 = k := by omega
  have h2 : (32 * k + i.val) % 32 = i.val := by omega
  rw [State.registered, h1, h2]

/-- The contributors that a write of `v` to word `k` of the map adds, by their bits. -/
def State.added (s : State) (j k : Nat) (v : Word) : List Nat :=
  (List.range 32).filter fun i => bit v i && !bit (s.reg pgSCH (0x400 + 0x40 * j + 4 * k)) i

/-- The marks of those that are added are set to the axis, and no MSEQ is held for them. -/
def addMarks (j k : Nat) (v : Word) (s : State) : State :=
  (store pgSCH (0x400 + 0x40 * j + 4 * k) 0 v s).updSch fun x =>
    { x with
      mc := (s.added j k v).foldl (fun m i => SMap.set (fun _ => 0) (mcKey j (32 * k + i)) (s.axis j) m) x.mc
      mseq := (s.added j k v).foldl (fun m i => SMap.erase (mcKey j (32 * k + i)) m) x.mseq }

theorem regmapWr_eq (j k : Nat) (v : Word) (s : State) : regmapWr j k v s = axisEval j (addMarks j k v s) := rfl

section AddMarks

variable (j k : Nat) (v : Word) (s : State)

theorem addMarks_mc (n : Nat) : SMap.get (fun _ => 0) (addMarks j k v s).sch.mc n =
    if n ∈ (s.added j k v).map (fun i => mcKey j (32 * k + i)) then s.axis j else SMap.get (fun _ => 0) s.sch.mc n :=
  SMap.get_foldl_set _ _ _ _ _ _

theorem addMarks_mseq (n : Nat) : SMap.find (addMarks j k v s).sch.mseq n =
    if n ∈ (s.added j k v).map (fun i => mcKey j (32 * k + i)) then none else SMap.find s.sch.mseq n :=
  SMap.find_foldl_erase _ _ _ _

variable {j k v s}

theorem mem_added_iff (i : Fin 32) : mcKey j (32 * k + i.val) ∈ (s.added j k v).map (fun i => mcKey j (32 * k + i)) ↔
    (bit v i.val && !s.registered j (32 * k + i.val)) = true := by
  rw [registered_word]
  simp only [State.added, List.mem_map, List.mem_filter, List.mem_range, mcKey]
  constructor
  · rintro ⟨a, ⟨-, ha⟩, he⟩
    obtain rfl : a = i.val := by omega
    exact ha
  · exact fun h => ⟨i.val, ⟨i.isLt, h⟩, rfl⟩

/-- Every mark that is touched is one of the word's. -/
theorem added_word {n : Nat} (h : n ∈ (s.added j k v).map fun i => mcKey j (32 * k + i)) : n / 32 = 16 * j + k := by
  simp only [State.added, List.mem_map, List.mem_filter, List.mem_range, mcKey] at h
  obtain ⟨a, ⟨ha, -⟩, rfl⟩ := h
  omega

end AddMarks

/-- Settles O15: each command sets its marks, registers or axis, and an evaluation, which moves the axis alone, follows. -/
theorem stepAxisCommands : Obligations.StepAxisCommands := by
  unfold Obligations.StepAxisCommands
  refine ⟨?mark, ?load, ?map, ?quorum⟩
  case mark =>
    intro j c b s hlen hc hz hreg hseq hnew hfar
    refine ⟨_, congrArg Host.Outcome.next (stepMarkOp_takes hlen hc hz hreg hseq hnew hfar), ?_, ?_, fun k hk => ?_,
      (axisEval_moves ..).of_axis rfl, ((State.updSch_k ..).trans (axisEval_k ..)).only⟩
    · rw [mc_eq, axisEval_mc]
      exact SMap.get_set_self ..
    · rw [axisEval_mseq]
      exact SMap.find_put_self ..
    · rw [axisEval_mc, axisEval_mseq]
      exact ⟨SMap.get_set_ne _ hk .., (SMap.find_put ..).trans (if_neg hk)⟩
  case load =>
    intro w j v s ha hj
    obtain ⟨t, ht, hl, ho⟩ := schStepLoad_loads ha hj
    exact ⟨t, ht, (hl.axis j.val).trans (if_pos rfl), fun c => (hl.mc j.val c).trans (if_pos rfl),
      fun i hi => (hl.axis i).trans (if_neg hi), fun i c hi => (hl.mc i.val c).trans (if_neg fun e => hi (Fin.ext e)),
      hl.ops, hl.mseq, ho⟩
  case map =>
    intro w j k v s ha
    have hw := regWrite_ok ha (regRow_regmap j k) (by decide) rfl (row_settable _ (by decide))
      (by rw [pageEffect_sch, schEffect_regmap, loW_setWidth, taken_whole (regRow_regmap j k) (by rw [cmdBits_sch]; decide),
        regmapWr_eq])
    refine ⟨_, congrArg Host.Outcome.next hw, axisEval_regs .., fun i => ?_, fun n hn => ?_,
      (axisEval_moves ..).of_axis rfl, (regmapWr_k j.val k.val v s).only.mono (by decide)⟩
    · simp only [mc_eq, axisEval_mc, axisEval_mseq, addMarks_mc, addMarks_mseq, mem_added_iff]
      by_cases hadd : (bit v i.val && !s.registered j.val (32 * k.val + i.val)) = true <;> simp [hadd]
    · rw [axisEval_mc, axisEval_mseq, addMarks_mc, addMarks_mseq]
      have hnot := fun h => hn (added_word (v := v) (s := s) h)
      rw [if_neg hnot, if_neg hnot]
      exact ⟨rfl, rfl⟩
  case quorum =>
    intro w j v s ha
    have hx : s.ixOf w pgSCH (0x210 + 0x40 * j.val) = 0 := ixOf_none (regRow_quorum j) (by decide) rfl
    have hw := regWrite_ok ha (regRow_quorum j) (by decide) rfl (row_settable _ (by decide))
      (by rw [pageEffect_sch, schEffect_quorum, loW_setWidth, hx])
    exact ⟨_, congrArg Host.Outcome.next hw, axisEval_regs .., axisEval_mc .., axisEval_mseq ..,
      (axisEval_moves ..).of_axis rfl, (((store_k ..).mono (by decide)).step (axisEval_k ..) (by decide)).only⟩

end Sys2Proof.Machine
end

section
/-! PROOF. The scoreboard (R42 to R46, R111, R139): a core's submission, triggers, claims, stalls and the end of an operation. -/
namespace Sys2Proof.Machine

open Sys2Proof

theorem entry?_id {s : State} {id : Nat} {e : Entry} (h : s.entry? id = some e) : e.id = id := by
  simpa using List.find?_some h

/-! ## A core's submission (05 R139) -/

/-- A task that goes on waits on no descriptor. -/
theorem subQ_of_coreGoes {c : Nat} {s : State} (h : (s.coreGoes c).isSome = true) : (s.core c).subQ = [] := by
  unfold State.coreGoes at h
  dsimp only at h
  split at h
  · cases h
  · next hq =>
    have hfree : ((s.core c).builtin = false ∧ (s.core c).waiting = false) ∧ (s.core c).subQ = [] := by simpa using hq
    exact hfree.2

/-- What a core holds is no part of the checks of a descriptor. -/
theorem descOk_updCore (c : Nat) (f : CoreSt → CoreSt) (s : State) (src : Src) (d : Desc) :
    (updCore c f s).descOk src d = s.descOk src d := rfl

theorem coreMay_updCore {c : Nat} {f : CoreSt → CoreSt} (hf : ∀ x, (f x).task = x.task) (s : State) (j : Nat) :
    (updCore c f s).coreMay c j = s.coreMay c j := by
  unfold State.coreMay
  rw [core_updCore, if_pos rfl, hf]
  rfl

theorem enterDesc_core (src : Src) (d : Desc) (s : State) (i : Nat) : (enterDesc src d s).core i = s.core i := by
  have hgc : (enterDesc src d s).gc = s.gc := (enterDesc_k src d s).only .gc (by decide)
  simp only [State.core, hgc]

/-- Core `c` has submitted `d`, which is an entry: SUB_SEQ holds its SEQ, and SUB_STATUS says that it was accepted. -/
def submitted (c : Nat) (d : Desc) (s : State) : State :=
  updCore c (fun x => { x with subStatus := 0 })
    (enterDesc (.cores (Fin.ofNat 2 (c / 32))) d (updCore c (fun x => { x with subSeq := d.seq }) s))

section Submitted

variable (c : Nat) (d : Desc) (s : State)

theorem submitted_core (i : Nat) : (submitted c d s).core i =
    if i = c then { s.core c with subStatus := 0, subSeq := d.seq } else s.core i := by
  rw [submitted, core_updCore, enterDesc_core, enterDesc_core, core_updCore, core_updCore, if_pos rfl]
  split <;> rfl

theorem submitted_ents : ((submitted c d s).sch.ops.map fun e => (e.id, e.src, e.d)) =
    (s.sch.ops.map fun e => (e.id, e.src, e.d)) ++ [(s.sch.nextId, .cores (Fin.ofNat 2 (c / 32)), d)] :=
  (enterDesc_ents (.cores (Fin.ofNat 2 (c / 32))) d (updCore c (fun x => { x with subSeq := d.seq }) s)).1

theorem submitted_k : KeepsIn [.sch, .gc] s (submitted c d s) :=
  (((updCore_k ..).mono (by decide)).step (enterDesc_k ..) (by decide)).step (updCore_k ..) (by decide)

end Submitted

section Submit

variable {c : Nat} {d0 d : Desc} {s : State}

/-- A descriptor that R39 allows and that finds room becomes an entry with the SEQ that the gateway gives. -/
theorem acceptCore_ok (hd : d = { d0 with seq := s.seqNext (.cores (Fin.ofNat 2 (c / 32))) d0.job.val })
    (hmay : s.coreMay c d.job.val = true) (hok : s.descOk (.cores (Fin.ofNat 2 (c / 32))) d = true)
    (hfull : s.opsFull d.job.val = false) (hover : s.claimOver d = false) :
    acceptCore c d0 true s =
      some (0, enterDesc (.cores (Fin.ofNat 2 (c / 32))) d (updCore c (fun x => { x with subSeq := d.seq }) s)) := by
  subst hd
  unfold acceptCore
  dsimp only at hmay hfull ⊢
  rw [hmay, hok, hfull, hover]
  rfl

theorem submitCore_ok (hq : (s.core c).subQ = [])
    (hd : d = { d0 with seq := s.seqNext (.cores (Fin.ofNat 2 (c / 32))) d0.job.val })
    (hmay : s.coreMay c d.job.val = true) (hok : s.descOk (.cores (Fin.ofNat 2 (c / 32))) d = true)
    (hfull : s.opsFull d.job.val = false) (hover : s.claimOver d = false) :
    submitCore c d0 true s = submitted c d s := by
  unfold submitCore
  rw [hq, acceptCore_ok hd hmay hok hfull hover]
  rfl

end Submit

theorem exec_subCommit {c : Core} {desc : List Byte} {acts : List TaskAct} {s : State}
    (h : ((taskActs c.val acts s).coreGoes c.val).isSome = true) :
    exec (.subCommit c desc acts) s = .next (submitCore c.val (decodeDesc desc) (descHeadOk desc)
      (updCore c.val (fun x => { x with subDesc := desc.take 64 }) (taskActs c.val acts s))) := by
  obtain ⟨e, he⟩ := Option.isSome_iff_exists.1 h
  show Host.Outcome.next _ = _
  rw [he]

/-! ## A claim's grant (R44, R111) -/

/-- The slots that a claim is granted: the lowest free ones of its die. -/
def claimSlots (e : Entry) (s : State) : List Nat := (s.freeSlots e.d.unit).take e.d.vslots

/-- The first slot's place in the ream of a claim's wave. -/
def claimBase (e : Entry) : Nat := if e.d.opcode = 0 then e.d.ebase else 0

theorem claimSlots_nodup (e : Entry) (s : State) : (claimSlots e s).Nodup :=
  (List.nodup_range.filter _).sublist (List.take_sublist _ _)

theorem claimSlots_lt {e : Entry} {s : State} {n : Nat} (h : n ∈ claimSlots e s) : n < 2048 :=
  List.mem_range.1 (List.mem_filter.1 (List.mem_of_mem_take h)).1

theorem slotKey_inj (d : Nat) : ∀ a b, slotKey d a = slotKey d b → a = b := by
  unfold slotKey
  omega

section FoldPut

variable {V : Type} {f : Nat → Nat} (hf : ∀ a b, f a = f b → a = b) (g : Nat → Nat → V) {ns : List Nat} (hn : ns.Nodup)
  (m : SMap V)
include hf hn

/-- The i-th of a list of keys holds the i-th value put. -/
theorem find_zipIdx_put_getD {i : Nat} (hi : i < ns.length) :
    SMap.find (ns.zipIdx.foldl (fun m ni => SMap.put (f ni.1) (g ni.1 ni.2) m) m) (f (ns.getD i 0)) =
      some (g (ns.getD i 0) i) := by
  have hfirst : ns.findIdx? (fun n => f n = f (ns.getD i 0)) = some i := by
    rw [List.findIdx?_eq_some_iff_getElem]
    refine ⟨hi, by simp [hi], fun k hk hfk => ?_⟩
    have heq : ns[k] = ns[i] := by simpa [hi] using hf _ _ (of_decide_eq_true hfk)
    exact List.pairwise_iff_getElem.1 hn k i (Nat.lt_trans hk hi) hi hk heq
  rw [find_zipIdx_put f hf g ns hn 0, hfirst]
  dsimp only
  rw [Nat.zero_add]

theorem find_zipIdx_put_of_notMem {n : Nat} (h : n ∉ ns) :
    SMap.find (ns.zipIdx.foldl (fun m ni => SMap.put (f ni.1) (g ni.1 ni.2) m) m) (f n) = SMap.find m (f n) := by
  have hnone : ns.findIdx? (fun k => f k = f n) = none := by
    rw [List.findIdx?_eq_none_iff]
    exact fun k hk => decide_eq_false fun he => h (hf _ _ he ▸ hk)
  rw [find_zipIdx_put f hf g ns hn 0, hnone]

end FoldPut

section ClaimGrant

variable (e : Entry) (s : State)

/-- The vat's tables after a grant: a wave of the slots, each HELD, with its accumulators clear. -/
theorem claimGrantOp_vat : (claimGrantOp e s).vat = { s.vat with
    waves := SMap.put (waveKey e.d.job.val e.d.wave)
      { die := e.d.unit, ream := e.d.ream, ebase := claimBase e, slots := claimSlots e s } s.vat.waves
    acc := s.vat.acc.filter fun kv =>
      !(kv.1 / 8192 / 2048 = e.d.unit && (claimSlots e s).contains (kv.1 / 8192 % 2048))
    slots := (claimSlots e s).zipIdx.foldl (fun m ni => SMap.put (slotKey e.d.unit ni.1)
      { job := e.d.job.val, wave := e.d.wave, efirst := (claimBase e + ni.2) * 8192 } m) s.vat.slots } := by
  unfold claimGrantOp
  dsimp only
  rw [(enter_k ..).only .vat (by decide)]
  rfl

theorem claimGrantOp_wave : (claimGrantOp e s).wave? e.d.job.val e.d.wave =
    some { die := e.d.unit, ream := e.d.ream, ebase := claimBase e, slots := claimSlots e s } := by
  rw [State.wave?, claimGrantOp_vat]
  exact SMap.find_put_self ..

theorem claimGrantOp_slot {i : Nat} (hi : i < (claimSlots e s).length) :
    (claimGrantOp e s).vslot? e.d.unit ((claimSlots e s).getD i 0) =
      some { job := e.d.job.val, wave := e.d.wave, efirst := (claimBase e + i) * 8192 } := by
  rw [State.vslot?, claimGrantOp_vat]
  exact find_zipIdx_put_getD (slotKey_inj _)
    (fun _ i => ({ job := e.d.job.val, wave := e.d.wave, efirst := (claimBase e + i) * 8192 } : VSlot)) (claimSlots_nodup e s) _ hi

theorem claimGrantOp_slot_other {n : Nat} (h : n ∉ claimSlots e s) :
    (claimGrantOp e s).vslot? e.d.unit n = s.vslot? e.d.unit n := by
  rw [State.vslot?, claimGrantOp_vat]
  exact find_zipIdx_put_of_notMem (slotKey_inj _)
    (fun _ i => ({ job := e.d.job.val, wave := e.d.wave, efirst := (claimBase e + i) * 8192 } : VSlot)) (claimSlots_nodup e s) _ h

/-- The accumulators of the slots granted are clear, and those of every other slot are as they were. -/
theorem claimGrantOp_acc (n : Nat) {i : Nat} (hi : i < 8192) :
    (claimGrantOp e s).accAt e.d.unit n i = if n ∈ claimSlots e s then 0 else s.accAt e.d.unit n i := by
  rw [State.accAt, claimGrantOp_vat]
  dsimp only
  rw [SMap.get_filter_key (fun _ => 0)
    (fun k => !(decide (k / 8192 / 2048 = e.d.unit) && (claimSlots e s).contains (k / 8192 % 2048)))]
  have hslot : accKey e.d.unit n i / 8192 = 2048 * e.d.unit + n := by
    unfold accKey slotKey
    omega
  rw [hslot]
  by_cases hn : n < 2048
  · have hdie : (2048 * e.d.unit + n) / 2048 = e.d.unit := by omega
    have hnum : (2048 * e.d.unit + n) % 2048 = n := by omega
    rw [hdie, hnum]
    by_cases hm : n ∈ claimSlots e s <;> simp [hm, State.accAt]
  · have hdie : (2048 * e.d.unit + n) / 2048 ≠ e.d.unit := by omega
    have hm : n ∉ claimSlots e s := fun h => hn (claimSlots_lt h)
    simp [hdie, hm, State.accAt]

theorem claimGrantOp_entry (i : Nat) : (claimGrantOp e s).entry? i =
    if i = e.id then (s.entry? i).map fun x => { x with st := .ready, stalled := false } else s.entry? i :=
  enter_entry e.id i .ready _

end ClaimGrant

theorem exec_claimGrant {d : Die} {e : Entry} {s : State} (h : s.firstClaim d.val = some e)
    (hroom : e.d.vslots ≤ (s.freeSlots d.val).length) : exec (.claimGrant d) s = .next (claimGrantOp e s) := by
  show execClaimGrant d s = _
  unfold execClaimGrant
  rw [h]
  exact congrArg Host.Outcome.next (if_pos hroom)

/-! ## Triggers, stalls and ends -/

section Entry

variable {e : Nat} {x : Entry} {s : State} (h : s.entry? e = some x)
include h

theorem exec_timeTriggerMet (hst : x.st = .armed) (ht : x.d.trig = 2) (hm : s.timeMet x.d.trigVal = true) :
    exec (.timeTriggerMet e) s = .next (toWaiting e s) := by
  show execTimeTriggerMet e s = _
  unfold execTimeTriggerMet
  rw [h]
  simp [hst, ht, hm]

theorem exec_schOpStall (hs : x.stalls = true) (hn : x.stalled = false) (hl : s.regF pgSCH 0x100 0 20 ≠ 0) :
    exec (.schOpStall e) s = .next (raiseEv pgSCH 0x81C 3 (updEntry e (fun y => { y with stalled := true }) s)) := by
  show execSchOpStall e s = _
  unfold execSchOpStall
  rw [h]
  simp [hs, hn, hl]

theorem exec_opDone (hst : x.st = .active) (hw : x.work = .finished) :
    exec (.opDone e) s = .next (endDone x s) := by
  show execOpDone e s = _
  unfold execOpDone
  rw [h]
  simp [hst, hw]

theorem exec_opFaulted {st det : Nat} (hst : x.st = .active) (hw : x.work = .faulted st det) :
    exec (.opFaulted e) s = .next (endFaulted x st det s) := by
  show execOpFaulted e s = _
  unfold execOpFaulted
  rw [h]
  simp [hst, hw]

/-- The stall of an entry marks it, is counted and raised, and touches no other entry. -/
theorem stall_entry (i : Nat) :
    (raiseEv pgSCH 0x81C 3 (updEntry e (fun y => { y with stalled := true }) s)).entry? i =
      if i = e then some { x with stalled := true } else s.entry? i := by
  have hsch : (raiseEv pgSCH 0x81C 3 (updEntry e (fun y => { y with stalled := true }) s)).sch =
      (updEntry e (fun y => { y with stalled := true }) s).sch := (raiseEv_k ..).only .sch (by decide)
  have hent := updEntry_entry e i (fun y => { y with stalled := true }) (fun _ => rfl) s
  simp only [State.entry?, hsch] at hent ⊢
  rw [hent]
  split
  · next hi =>
    subst hi
    exact congrArg (Option.map _) h
  · rfl

end Entry

/-- Settles O17: each command takes its entry one step of Table 2.4 on, by what the shared operation does. -/
theorem scoreboardSteps : Obligations.ScoreboardSteps := by
  unfold Obligations.ScoreboardSteps
  refine ⟨?submit, ?time, ?claim, ?stall, ?done, ?faulted⟩
  case submit =>
    intro c desc acts s s1 d hgo hhead hmay hok hfull hover
    let u := updCore c.val (fun x => { x with subDesc := desc.take 64 }) s1
    have hq : (u.core c.val).subQ = [] := by
      rw [core_updCore, if_pos rfl]
      exact subQ_of_coreGoes hgo
    have hmay' : u.coreMay c.val d.job.val = true := (coreMay_updCore (by intro x; rfl) s1 _).trans hmay
    have hok' : u.descOk (.cores (Fin.ofNat 2 (c.val / 32))) d = true := (descOk_updCore ..).trans hok
    have ht : submitCore c.val (decodeDesc desc) true u = submitted c.val d u := submitCore_ok hq rfl hmay' hok' hfull hover
    refine ⟨submitted c.val d u, (exec_subCommit hgo).trans (by rw [hhead, ht]), submitted_ents c.val d u, ?_, ?_, ?_,
      fun i hi => ?_, (((updCore_k ..).mono (by decide)).trans (submitted_k ..)).only⟩
    · rw [submitted_core, if_pos rfl]
    · rw [submitted_core, if_pos rfl]
    · rw [submitted_core, if_pos rfl, core_updCore, if_pos rfl]
    · rw [submitted_core, if_neg hi, core_updCore, if_neg hi]
      exact taskActs_other c.val acts s i hi
  case time =>
    intro e x s h hst htrig hm
    have hmoves := toWaiting_moves e s
    exact ⟨_, exec_timeTriggerMet h hst htrig hm, toWaiting_entry h, fun i hi => toWaiting_entry_ne hi s, hmoves.cnt,
      hmoves.axis, (toWaiting_k ..).only⟩
  case claim =>
    intro d e s h hroom
    obtain ⟨-, -, hunit⟩ := firstClaim_spec h
    refine ⟨_, exec_claimGrant h hroom, ?_⟩
    rw [← hunit]
    refine ⟨claimGrantOp_wave e s, fun i hi => claimGrantOp_slot e s hi, fun n hn i hi => ?_, fun n hn => ?_, ?_,
      fun i hi => ?_, (claimGrantOp_k ..).only⟩
    · exact (claimGrantOp_acc e s n hi).trans (if_pos hn)
    · exact ⟨claimGrantOp_slot_other e s hn, fun i hi => (claimGrantOp_acc e s n hi).trans (if_neg hn)⟩
    · rw [claimGrantOp_entry, if_pos rfl, Option.map_map]
      rfl
    · rw [claimGrantOp_entry, if_neg hi]
  case stall =>
    intro e x s h hs hn hl hp
    have hstall := stall_entry h
    refine ⟨_, exec_schOpStall h hs hn hl, ?_, fun i hi => ?_, ?_, ?_⟩
    · rw [hstall, if_pos rfl]
    · rw [hstall, if_neg hi]
    · exact (raiseEv_raised (s := updEntry e (fun y => { y with stalled := true }) s) hp).of_same rfl rfl rfl rfl
    · exact (updEntry_k ..).only.trans (raiseEv_k ..).only (by decide) (by decide)
  case done =>
    intro e x s h hst hw hc hnext
    have hid := entry?_id h
    exact ⟨_, exec_opDone h hst hw, hid ▸ endDone_gone x s (hid ▸ hnext), endDone_cnt x s hc, (endDone_k ..).only⟩
  case faulted =>
    intro e st det x s h hst hw hc hnext
    have hid := entry?_id h
    exact ⟨_, exec_opFaulted h hst hw, hid ▸ endFaulted_gone x st det s (hid ▸ hnext), endFaulted_cnt x st det s hc,
      (endFaulted_k ..).only⟩

end Sys2Proof.Machine
end

section
/-! PROOF. Contributions (R83, R85, R92, R95, R102): an element that enters the vat, a block of a message, and the message of one
block. -/
namespace Sys2Proof.Machine

open Sys2Proof

/-! ## An element that enters the vat -/

/-- The greatest exponent of the inputs is no part of the accumulators, slots or messages. -/
theorem noteInput_same (j r d : Nat) (x : Dy) (s : State) :
    (noteInput j r d x s).vat.acc = s.vat.acc ∧ (noteInput j r d x s).vat.slots = s.vat.slots ∧
      (noteInput j r d x s).vat.msgs = s.vat.msgs ∧ (noteInput j r d x s).vat.fIn = s.vat.fIn := by
  unfold noteInput
  split <;> exact ⟨rfl, rfl, rfl, rfl⟩

theorem setAcc_vat_congr {s t : State} (h : t.vat = s.vat) (d n i : Nat) (x : DWord) :
    (setAcc d n i x t).vat = (setAcc d n i x s).vat := by
  simp only [setAcc, State.updVat_vat, h]

/-- The add of an element whose residue agrees, into a slot that is not poisoned, sets its accumulator and nothing else of the
vat; what it may raise is not the vat's. -/
theorem vatEnter_vat {j e : Nat} {w : Wave} {x : Dy} {u : Nat} {flip : DWord} {s : State} {sl : VSlot}
    (hsl : s.vslot? w.die (w.at e).1 = some sl) (hp : sl.poisoned = false)
    (hr : (vatAdd (s.accAt w.die (w.at e).1 (w.at e).2) (vatEntry x (s.floorF j w.ream) u).v flip).2.1 = false) :
    (vatEnter j w e x u flip s).vat = (setAcc w.die (w.at e).1 (w.at e).2
      (vatAdd (s.accAt w.die (w.at e).1 (w.at e).2) (vatEntry x (s.floorF j w.ream) u).v flip).1 s).vat := by
  have hunder : ∀ b : Bool, (if b = true then raiseEv (pgVAT w.die) 0x800 0 s else s).vat = s.vat := fun b =>
    ite_both (P := fun t : State => t.vat = s.vat) ((raiseEv_k ..).only .vat (by decide)) rfl
  unfold vatEnter
  dsimp only
  rw [hsl]
  dsimp only
  rw [hp, hr]
  simp only [Bool.false_eq_true, if_false]
  split
  · rw [(raiseCap_k ..).only .vat (by decide)]
    exact setAcc_vat_congr (hunder _) ..
  · exact setAcc_vat_congr (hunder _) ..

/-- An element of contributor `c` has entered its accumulator in wave `w`. -/
def contribElem (j c : Nat) (w : Wave) (e : Nat) (x : Dy) (s : State) : State :=
  vatEnter j w e x (draw24 (seedContrib j w.ream w.round.toNat c) e) 0 (noteInput j w.ream w.die x s)

/-- What the element's add gives: the accumulator, a residue mismatch, a saturation. -/
def contribSum (j c : Nat) (w : Wave) (e : Nat) (x : Dy) (s : State) : DWord × Bool × Bool :=
  vatAdd (s.accAt w.die (w.at e).1 (w.at e).2)
    (vatEntry x (s.floorF j w.ream) (draw24 (seedContrib j w.ream w.round.toNat c) e)).v 0

/-- The message of a contributor, where it is not stale, takes its one real element. -/
theorem contribAdds_one {j c e : Nat} {w : Wave} {x : Dy} {s : State} (h : s.msgLive (ctIx j c) = true) :
    contribAdds j c w e [] [(some x, 0)] s = contribElem j c w e x s := by
  simp [contribAdds, contribElem, h]

section Elem

variable {j c e : Nat} {w : Wave} {x : Dy} {s : State} {sl : VSlot} (hsl : s.vslot? w.die (w.at e).1 = some sl)
  (hp : sl.poisoned = false) (hr : (contribSum j c w e x s).2.1 = false)
include hsl hp hr

theorem contribElem_vat : (contribElem j c w e x s).vat = { (noteInput j w.ream w.die x s).vat with
    acc := SMap.set (fun _ => 0) (accKey w.die (w.at e).1 (w.at e).2) (contribSum j c w e x s).1 s.vat.acc } := by
  obtain ⟨hacc, hslots, -, hfin⟩ := noteInput_same j w.ream w.die x s
  have hsum : vatAdd ((noteInput j w.ream w.die x s).accAt w.die (w.at e).1 (w.at e).2)
      (vatEntry x ((noteInput j w.ream w.die x s).floorF j w.ream)
        (draw24 (seedContrib j w.ream w.round.toNat c) e)).v 0 = contribSum j c w e x s := by
    simp only [contribSum, State.accAt, State.floorF, hacc, hfin]
  have h := vatEnter_vat (j := j) (u := draw24 (seedContrib j w.ream w.round.toNat c) e) (flip := 0)
    (s := noteInput j w.ream w.die x s) (x := x) (by rw [State.vslot?, hslots]; exact hsl) hp (by rw [hsum]; exact hr)
  rw [contribElem, h, hsum, setAcc, State.updVat_vat, hacc]

theorem contribElem_same : (contribElem j c w e x s).vat.slots = s.vat.slots ∧
    (contribElem j c w e x s).vat.msgs = s.vat.msgs := by
  obtain ⟨-, hslots, hmsgs, -⟩ := noteInput_same j w.ream w.die x s
  rw [contribElem_vat hsl hp hr]
  exact ⟨hslots, hmsgs⟩

end Elem

/-! ## A block of a message (R102, Table 4.2) -/

theorem updMsg_of_find {k : Nat} {m : VMsg} {s : State} (h : SMap.find s.vat.msgs k = some m) (f : VMsg → VMsg) :
    updMsg k f s = s.updVat fun v => { v with msgs := SMap.put k (f m) v.msgs } := by
  rw [updMsg, h]

theorem updVSlot_of_find {d n : Nat} {x : VSlot} {s : State} (h : s.vslot? d n = some x) (f : VSlot → VSlot) :
    updVSlot d n f s = s.updVat fun v => { v with slots := SMap.put (slotKey d n) (f x) v.slots } := by
  rw [updVSlot, h]

/-- A slot whose wave is granted, and which the contributor has not completed, takes its part. -/
theorem partAt_adds {j r c si h : Nat} {w : Wave} {sl : VSlot} {s : State} (hg : s.grantedWave j r c si = some (h, w))
    (hsl : s.vslot? w.die (w.at (si * 8192)).1 = some sl) (hb : sl.bitmap.getLsbD c = false) :
    s.partAt j r c si = .adds := by
  simp [State.partAt, hg, hsl, hb]

/-- Contributor `c` has its bit in the slot's bitmap. -/
def markSlot (c : Nat) (x : VSlot) : VSlot := { x with bitmap := x.bitmap ||| (1 <<< c : BitVec 512) }

section Block

variable {j c r ne h : Nat} {f : Fmt} {blk : List Byte} {m : VMsg} {w : Wave} {x : Dy} {sl : VSlot} {s : State}

/-- The state in which the elements of a message's last block enter. -/
def lastBlock (k : Nat) (m : VMsg) (s : State) : State :=
  s.updVat fun v => { v with msgs := SMap.put k { m with off := m.endOff, part := .adds } v.msgs }

variable (hm : SMap.find s.vat.msgs (ctIx j c) = some m) (hlive : m.stale = false) (hblk : f.blk = 1)
  (hstart : m.off / f.blkBytes % 8192 = 0) (hend : m.off + f.blkBytes = m.endOff) (hreal : m.off / f.blkBytes < ne)
  (hg : s.grantedWave j r c (m.off / f.blkBytes / 8192) = some (h, w))
  (hsl : s.vslot? w.die (w.at (m.off / f.blkBytes)).1 = some sl) (hp : sl.poisoned = false) (hb : sl.bitmap.getLsbD c = false)
  (hdec : decodeBlk f blk = [some x]) (hr : (contribSum j c w (m.off / f.blkBytes) x s).2.1 = false)
include hm hlive hblk hstart hend hreal hg hsl hp hb hdec hr

/-- A block of one element that starts a slot and ends its message: the element enters, the contributor's bit is set, and the
COLLECT is evaluated. -/
theorem contribBlock_one : contribBlock j c r ne f [] blk (s, false) =
    (collectEval j h (updVSlot w.die (w.at (m.off / f.blkBytes)).1 (markSlot c)
      (contribElem j c w (m.off / f.blkBytes) x (lastBlock (ctIx j c) m s))), false) := by
  have he : m.off / f.blkBytes / 8192 * 8192 = m.off / f.blkBytes := by omega
  have hpart : s.partAt j r c (m.off / f.blkBytes / 8192) = .adds := partAt_adds hg (by rw [he]; exact hsl) hb
  have hnow : updMsg (ctIx j c) (fun x => { x with off := m.endOff, part := .adds }) s = lastBlock (ctIx j c) m s :=
    updMsg_of_find hm _
  have hlive0 : (lastBlock (ctIx j c) m s).msgLive (ctIx j c) = true := by
    simp [State.msgLive, lastBlock, hlive]
  have hlive1 : (contribElem j c w (m.off / f.blkBytes) x (lastBlock (ctIx j c) m s)).msgLive (ctIx j c) = true := by
    obtain ⟨-, hmsgs⟩ := contribElem_same (s := lastBlock (ctIx j c) m s) hsl hp hr
    rw [State.msgLive, hmsgs]
    exact hlive0
  have hkept : ((decodeBlk f blk).zipIdx.filter fun vi => decide (m.off / f.blkBytes + vi.2 < ne)) = [(some x, 0)] := by
    simp [hdec, hreal]
  have hfin : nonfinIn f blk [(some x, 0)] = 0 := by simp [nonfinIn, hblk]
  unfold contribBlock
  simp only [hm, hlive, hblk, Nat.one_mul, hstart, decide_true, if_true, hpart, hg, hkept, hfin, hnow, countNonfin,
    contribAdds_one hlive0, hlive1, hend, Bool.false_eq_true, if_false, Bool.or_true, Bool.and_true]
  rfl

/-- What such a block leaves in the vat: one accumulator, one slot and its message have changed. -/
theorem contribBlock_one_vat : ∃ u, contribBlock j c r ne f [] blk (s, false) = (u, false) ∧
    u.vat.acc = SMap.set (fun _ => 0) (accKey w.die (w.at (m.off / f.blkBytes)).1 (w.at (m.off / f.blkBytes)).2)
      (contribSum j c w (m.off / f.blkBytes) x s).1 s.vat.acc ∧
    u.vat.slots = SMap.put (slotKey w.die (w.at (m.off / f.blkBytes)).1) (markSlot c sl) s.vat.slots ∧
    SMap.find u.vat.msgs (ctIx j c) = some { m with off := m.endOff, part := .adds } := by
  have hvat := contribElem_vat (s := lastBlock (ctIx j c) m s) hsl hp hr
  obtain ⟨hslots, hmsgs⟩ := contribElem_same (s := lastBlock (ctIx j c) m s) hsl hp hr
  have hmark := updVSlot_of_find (s := contribElem j c w (m.off / f.blkBytes) x (lastBlock (ctIx j c) m s))
    ((congrArg (SMap.find · _) hslots).trans hsl) (markSlot c)
  refine ⟨_, contribBlock_one hm hlive hblk hstart hend hreal hg hsl hp hb hdec hr, ?_⟩
  rw [hmark]
  obtain ⟨cslots, cacc, -, -, -, -, -, cmsgs⟩ := collectEval_same j h
    ((contribElem j c w (m.off / f.blkBytes) x (lastBlock (ctIx j c) m s)).updVat fun v =>
      { v with slots := SMap.put (slotKey w.die (w.at (m.off / f.blkBytes)).1) (markSlot c sl) v.slots })
  rw [cslots, cacc, cmsgs]
  refine ⟨congrArg Vat.acc hvat, congrArg (SMap.put _ _) hslots, ?_⟩
  rw [State.updVat_vat, hmsgs]
  exact SMap.find_put_self ..

end Block

/-! ## A packet of one block -/

/-- Bytes of the length of a block are one block, and none are left. -/
theorem splitBlocks_one {bs : List Byte} (h : 0 < bs.length) : splitBlocks bs.length bs = ([bs], []) := by
  simp [splitBlocks, Nat.div_self h]

/-- A message whose last block its packet carries is over: its record is gone. -/
theorem contribPacket_last {j c r ne : Nat} {f : Fmt} {data : List Byte} {m m' : VMsg} {s u : State}
    (hm : SMap.find s.vat.msgs (ctIx j c) = some m) (hlive : m.stale = false) (hcarry : m.carry = [])
    (hlen : data.length = f.blkBytes) (hpos : 0 < f.blkBytes)
    (hu : contribBlock j c r ne f [] data (s, false) = (u, false))
    (hm' : SMap.find u.vat.msgs (ctIx j c) = some m') (hend : m'.endOff ≤ m'.off) :
    (contribPacket j c r ne f data [] s).vat.acc = u.vat.acc ∧
      (contribPacket j c r ne f data [] s).vat.slots = u.vat.slots ∧
      SMap.find (contribPacket j c r ne f data [] s).vat.msgs (ctIx j c) = none := by
  have hsplit : splitBlocks f.blkBytes data = ([data], []) := hlen ▸ splitBlocks_one (hlen ▸ hpos)
  have heq : contribPacket j c r ne f data [] s =
      (u.updVat fun v => { v with msgs := SMap.put (ctIx j c) { m' with carry := [] } v.msgs }).updVat
        fun v => { v with msgs := SMap.erase (ctIx j c) v.msgs } := by
    unfold contribPacket
    simp only [hm, hcarry, List.nil_append, hsplit, List.foldl_cons, List.foldl_nil, hu, hlive, Bool.false_eq_true, if_false,
      updMsg_of_find hm', State.updVat_vat, SMap.find_put_self, ge_iff_le, hend, if_true]
  rw [heq]
  exact ⟨rfl, rfl, (SMap.find_erase ..).trans (if_pos rfl)⟩

/-! ## The message of one element -/

/-- The message that a write into a reduction window begins, under the window's tag. -/
def begunMsg (q : BitVec 24) (h : Reth) (s : State) : VMsg :=
  let win := fld h.rkey 18 14
  let off := h.va.toNat - (s.winBase win).toNat
  { qpn := q, win := win, job := winJob (s.winCtl win), off := off, endOff := off + h.len }

section First

variable {q : BitVec 24} {h : Reth} {data : List Byte} {j c r : Nat} {f : Fmt} {s : State}
  (hct : s.ctIn j q = some c) (hqp : s.qpOfJob j q = true) (hf : winFmt (s.winCtl (fld h.rkey 18 14)) = some f)
  (hval : winValid (s.winCtl (fld h.rkey 18 14)) = true) (hty : winType (s.winCtl (fld h.rkey 18 14)) = 0)
  (hj : winJob (s.winCtl (fld h.rkey 18 14)) = j) (hr : winReam (s.winCtl (fld h.rkey 18 14)) = r)
  (hva : (s.winBase (fld h.rkey 18 14)).toNat ≤ h.va.toNat)
  (hshape : msgShapeOk f (s.nelem j r) (h.va.toNat - (s.winBase (fld h.rkey 18 14)).toNat) h.len = true)
  (htag : fld h.rkey 0 18 = s.winTag (fld h.rkey 18 14))
include hct hqp hf hval hty hj hr hva hshape htag

/-- A write that rows 1 and 2 of Table 4.2 let through begins a message. -/
theorem contribFirst_begins : contribFirst q h data [] s = contribPacket j c r (s.nelem j r) f data []
    (s.updVat fun v => { v with msgs := SMap.put (ctIx j c) (begunMsg q h s) v.msgs }) := by
  subst hj hr
  unfold contribFirst
  simp only [hct, hf, hval, hty, hqp, hshape, htag, Nat.not_lt.2 hva, decide_false, ne_eq, not_true, Bool.not_true,
    Bool.or_false, Bool.false_eq_true, if_false]
  rfl

end First

theorem exec_contributionWrite {q : BitVec 24} {h : Reth} {data : List Byte} {s : State} (hq : s.qpTakes q = true) :
    exec (.contributionWrite q (some h) data []) s = .next (contribFirst q h data [] s) := by
  show execContributionWrite q (some h) data [] s = _
  rw [execContributionWrite, hq]
  rfl

/-- The bytes of a slot of a format whose blocks are one element. -/
theorem slotBytes_of_blk {f : Fmt} (h : f.blk = 1) : f.slotBytes = 8192 * f.blkBytes := by
  rw [Fmt.slotBytes, h]

theorem reamBytes_of_blk {f : Fmt} (h : f.blk = 1) (n : Nat) : f.reamBytes n = n * f.blkBytes := by
  simp [Fmt.reamBytes, h, ceilDiv]

theorem blkBytes_pos (f : Fmt) : 0 < f.blkBytes := by
  cases f <;> decide

/-- A message of one element that starts a slot and is the ream's last: where the element is, and that its message is well
shaped. -/
theorem elemMsg_shape {f : Fmt} {ne off : Nat} (hblk : f.blk = 1) (hslot : off % f.slotBytes = 0)
    (hend : off + f.blkBytes = f.reamBytes ne) :
    off / f.blkBytes % 8192 = 0 ∧ off / f.blkBytes < ne ∧ msgShapeOk f ne off f.blkBytes = true := by
  have hpos := blkBytes_pos f
  refine ⟨?_, ?_, by simp [msgShapeOk, hslot, hend, hpos]⟩
  · rw [slotBytes_of_blk hblk, Nat.mul_comm] at hslot
    obtain ⟨k, rfl⟩ := Nat.dvd_of_mod_eq_zero hslot
    rw [Nat.mul_assoc, Nat.mul_div_cancel_left _ hpos, Nat.mul_mod_right]
  · rw [reamBytes_of_blk hblk] at hend
    exact Nat.div_lt_of_lt_mul (by rw [Nat.mul_comm]; omega)

end Sys2Proof.Machine
end

section
/-! PROOF. Grant records that are held, reported and sent again (R101), and quotas (R109). -/
namespace Sys2Proof.Machine

open Sys2Proof

/-! ## Held grants and reports (R101) -/

/-- Whether a ring has room is the vat's and the registers' alone. -/
theorem grantRoom_of_same {s t : State} (hv : t.vat = s.vat) (hr : t.regs = s.regs) (j c : Nat) :
    t.grantRoom j c = s.grantRoom j c :=
  grantRoom_congr hr (by rw [State.gseqOf, hv]; rfl) (by rw [hv])

/-- With room and a record held, a release is the drain of the held records; the pool buffer goes with the last one. -/
theorem grantRelease_drains {j c : Nat} {s : State} (hroom : s.grantRoom j c = true) (hheld : s.heldOf j c ≠ []) :
    (grantRelease j c s).vat = (grantDrain j c (s.heldOf j c) s).vat ∧
      (grantRelease j c s).regs = (grantDrain j c (s.heldOf j c) s).regs := by
  have hcond : (s.grantRoom j c && !(s.heldOf j c).isEmpty) = true := by simp [hroom, hheld]
  unfold grantRelease
  rw [if_pos hcond]
  dsimp only
  split
  · exact ⟨(poolRelease_k ..).only .vat (by decide), (poolRelease_k ..).only .regs (by decide)⟩
  · exact ⟨rfl, rfl⟩

section Report

variable {j : Nat} {q : BitVec 24} {c : Contrib} {b : List Byte} {s : State}

/-- A report that no check of R101 turns away is taken, and the records that it acknowledges are freed. -/
theorem gackOp_takes (hlen : b.length = 8) (hz : leAt b 4 4 = 0) (hv : bit (s.ctQpn j c.val) 31 = true)
    (hq : fld (s.ctQpn j c.val) 0 24 = q.toNat) (hnew : serialGt (wAt b 0) (s.gackOf j c.val) = true)
    (hold : serialGt (wAt b 0) (s.gseqOf j c.val) = false) :
    gackOp j q (8 * c.val) b s = s.updVat fun x =>
      { x with
        gack := SMap.set (fun _ => 0) (ctIx j c.val) (wAt b 0) x.gack
        unack := if ((s.unackOf j c.val).filter fun r => serialGt r.1 (wAt b 0)).isEmpty
          then SMap.erase (ctIx j c.val) x.unack
          else SMap.put (ctIx j c.val) ((s.unackOf j c.val).filter fun r => serialGt r.1 (wAt b 0)) x.unack } := by
  have hc := c.isLt
  have hdiv : 8 * c.val / 8 = c.val := by omega
  unfold gackOp
  dsimp only
  rw [hdiv, if_neg (by omega : ¬ 8 * c.val ≥ 0x1000), if_neg (by simp [hlen, hz, hv, hq]), if_neg (by simp [hnew]),
    if_neg (by simp [hold])]

end Report

/-! A list under a key, with no entry where it is empty. -/

section PutList

variable {V : Type} (k : Nat) (l : List V) (m : SMap (List V))

theorem find_putList_self : (SMap.find (if l.isEmpty then SMap.erase k m else SMap.put k l m) k).getD [] = l := by
  cases l with
  | nil => exact congrArg (Option.getD · []) ((SMap.find_erase ..).trans (if_pos rfl))
  | cons a l => exact congrArg (Option.getD · []) (SMap.find_put_self ..)

theorem find_putList_ne {n : Nat} (h : n ≠ k) :
    SMap.find (if l.isEmpty then SMap.erase k m else SMap.put k l m) n = SMap.find m n := by
  cases l with
  | nil => exact (SMap.find_erase ..).trans (if_neg h)
  | cons a l => exact (SMap.find_put ..).trans (if_neg h)

end PutList

/-! ## Writes of the VAT pages -/

theorem regRow_quota (d : Die) (j : Job) : regRow (pgVAT d.val) (0x200 + 0x10 * j.val) =
    some { off := 0x200, n := 8, stride := 0x10, cls := .grant, rw := 0xFFF } := by
  revert d j; decide

theorem pgInst_vat (d : Die) : pgInst (pgVAT d.val) = d.val := by
  revert d; decide

theorem pgKind_vat (d : Die) : pgKind (pgVAT d.val) = .vat := by
  revert d; decide

/-- What other jobs' quotas add up to, over the jobs or over their numbers. -/
theorem otherQuotas_finRange (d : Die) (j : Job) (s : State) :
    (List.range 8).foldl (fun a i => if i = j.val then a else a + s.quota d.val i) 0 =
      (List.finRange 8).foldl (fun a i => if i = j then a else a + s.quota d.val i.val) 0 := by
  have hnums : List.range 8 = (List.finRange 8).map Fin.val := by decide
  rw [hnums, List.foldl_map]
  simp only [Fin.val_inj]

/-- A quota that fits is stored; with slots held or claimed, only where it does not change (log 60). -/
theorem quotaWr_ok {d : Die} {j : Job} {v : Word} {s : State}
    (hbusy : fld v 0 12 = s.quota d.val j.val ∨ s.committed d.val j.val = 0)
    (hfit : (List.finRange 8).foldl (fun a i => if i = j then a else a + s.quota d.val i.val) 0 + fld v 0 12 ≤ 2048) :
    quotaWr d.val j.val v s = .ok (store (pgVAT d.val) (0x200 + 0x10 * j.val) 0 v s) := by
  have hnot : ¬ (decide (fld v 0 12 ≠ s.quota d.val j.val) &&
      (decide (s.heldSlots d.val j.val > 0) || decide (s.pendSlots d.val j.val > 0))) = true := by
    unfold State.committed at hbusy
    simp only [Bool.and_eq_true, Bool.or_eq_true, decide_eq_true_eq]
    omega
  simp only [quotaWr, otherQuotas_finRange]
  rw [if_neg hnot, if_neg (by omega)]

theorem pageEffect_quota (w : Who) (d : Die) (j : Job) (ix : Nat) (v : DWord) (s : State) :
    pageEffect w (pgVAT d.val) (0x200 + 0x10 * j.val) ix v s = quotaWr d.val j.val (loW v) s := by
  have hj := j.isLt
  have hdiv : (0x200 + 0x10 * j.val - 0x200) / 0x10 = j.val := by omega
  unfold pageEffect
  rw [pgKind_vat]
  dsimp only
  rw [if_neg (by simp; omega)]
  unfold vatEffect
  iterate 8 rw [if_neg (by omega)]
  rw [if_pos (by simp; omega), pgInst_vat, hdiv]

theorem regRow_gqpn : regRow (pgVAT 0) 0x138 =
    some { off := 0x138, cls := .idxDiv 512, rw := 0x80FFFFFF, ix := some 0x130 } := by
  decide

theorem pageEffect_gqpn (w : Who) (ix : Nat) (v : DWord) (s : State) :
    pageEffect w (pgVAT 0) 0x138 ix v s = .ok (gqpnWr ix (loW v) s) := rfl

/-- A grant queue pair that is replaced by another valid one gets every unconsumed record again. -/
theorem gqpnWr_replaces {ix : Nat} {v : Word} {s : State} (hv : bit v 31 = true) (hne : v ≠ s.reg (pgVAT 0) 0x138 ix) :
    gqpnWr ix v s = forAll (s.unackOf (ix / 512) (ix % 512)) (fun r t => sendGrant (ix / 512) (ix % 512) r.1 r.2 t)
      (s.setReg (pgVAT 0) 0x138 v ix) := by
  unfold gqpnWr
  dsimp only
  rw [if_pos (by simp [hv, hne])]
  rfl

theorem cmdBits_vat (d : Die) (o : Nat) : cmdBits (pgVAT d.val) o = 0#32 := by
  unfold cmdBits
  rw [pgKind_vat]
  rfl

theorem exec_gackWrite {j : Job} {q : BitVec 24} {o : Nat} {b : List Byte} {s : State} (hq : s.qpTakes q = true) :
    exec (.gackWrite j q o b) s = .next (gackOp j.val q o b s) := by
  show execGackWrite j q o b s = _
  rw [execGackWrite, if_pos hq]

/-- Settles O19: the message of one element is one block, which enters and sets its bit; a release is the drain of what is held,
a report frees what it acknowledges, and the two registers take what is written. -/
theorem contributing : Obligations.Contributing := by
  unfold Obligations.Contributing
  refine ⟨?contribution, ?release, ?report, ?quota, ?replace⟩
  case contribution =>
    intro q rh data j c h f wv sl x s win ctl off e n y r hq hct hqp hc hf hblk hval hty hj hream hva hslot hlen hdata hend htag
      hg hsl hp hb hdec hr
    obtain ⟨hstart, hreal, hshape⟩ := elemMsg_shape hblk hslot hend
    let m := begunMsg q rh s
    let s1 : State := s.updVat fun v => { v with msgs := SMap.put (ctIx j c) m v.msgs }
    have hm : SMap.find s1.vat.msgs (ctIx j c) = some m := SMap.find_put_self ..
    have hplace : (wv.at e).2 = 0 := hstart
    have hsum : contribSum j c wv e x s1 = r := by
      rw [contribSum, hplace]
      rfl
    have hbegin := (exec_contributionWrite hq).trans (congrArg Host.Outcome.next
      (contribFirst_begins (data := data) hct hqp hf hval hty hj hream hva (hlen ▸ hshape) htag))
    obtain ⟨u, hu, hacc, uslots, umsgs⟩ := contribBlock_one_vat (s := s1) (blk := data) hm rfl hblk hstart
      (congrArg (off + ·) hlen.symm) hreal hg hsl hp hb hdec (hsum ▸ hr)
    have uacc : u.vat.acc = SMap.set (fun _ => 0) (accKey wv.die n (wv.at e).2) (contribSum j c wv e x s1).1 s.vat.acc := hacc
    rw [hsum, hplace] at uacc
    obtain ⟨tacc, tslots, tmsgs⟩ := contribPacket_last hm rfl rfl hdata (blkBytes_pos f) hu umsgs (Nat.le_refl _)
    refine ⟨_, hbegin, ?_, fun k hk => ?_, ?_, fun k hk => ?_, tmsgs,
      ((execContributionWrite_k q (some rh) data [] s).get hbegin).only⟩
    · rw [State.accAt, tacc, uacc]
      exact SMap.get_set_self ..
    · rw [tacc, uacc]
      exact SMap.get_set_ne _ hk ..
    · rw [State.vslot?, tslots, uslots]
      exact SMap.find_put_self ..
    · rw [tslots, uslots]
      exact (SMap.find_put ..).trans (if_neg hk)
  case release =>
    intro j c s hroom hheld
    obtain ⟨hvat, hregs⟩ := grantRelease_drains hroom hheld
    obtain ⟨n, hn, hdrop, ⟨rs, hun, hrs⟩, hg, hfull⟩ := grantDrain_spec j.val c.val (s.heldOf j.val c.val) s
    refine ⟨_, rfl, n, rs, hn, ?_, ?_, hrs, ?_, fun h => ?_, (grantRelease_k ..).only⟩
    · rw [← hdrop, State.heldOf, hvat]
      rfl
    · rw [← hun, State.unackOf, hvat]
      rfl
    · rw [← hg, State.gseqOf, hvat]
      rfl
    · rw [grantRoom_of_same hvat hregs]
      exact hfull h
  case report =>
    intro j c q b s hq hlen hz hv hqpn hnew hold
    exact ⟨_, (exec_gackWrite hq).trans (congrArg _ (gackOp_takes hlen hz hv hqpn hnew hold)), SMap.get_set_self ..,
      find_putList_self .., fun k hk => ⟨SMap.get_set_ne _ hk .., find_putList_ne _ _ _ hk⟩, rfl, rfl,
      (State.updVat_k ..).only⟩
  case quota =>
    intro w d j v s o x ha hbusy hfit
    have hx : s.ixOf w (pgVAT d.val) o = 0 := ixOf_none (regRow_quota d j) (by decide) rfl
    have hw := regWrite_ok ha (regRow_quota d j) (by decide) rfl (by rw [cmdBits_vat]; decide)
      (by rw [pageEffect_quota, loW_setWidth]; exact quotaWr_ok hbusy hfit)
    exact ⟨_, congrArg Host.Outcome.next hw, rfl, (store_k ..).only⟩
  case replace =>
    intro w v s ix x ha hv hne
    have hix : s.ixOf w (pgVAT 0) 0x138 = ix := by
      rw [State.ixOf, regRow_gqpn]
      rfl
    have hw := regWrite_ok ha regRow_gqpn (by decide) rfl (by decide)
      (by rw [pageEffect_gqpn, loW_setWidth, hix])
    exact ⟨_, congrArg Host.Outcome.next hw, gqpnWr_replaces hv hne, (gqpnWr_k ..).only⟩

end Sys2Proof.Machine
end

section
/-! PROOF. The built-in tasks (05 Table 5.9): PLAN (R202), FLOOR (R84), STATS (R207) and MERGE (R219 to R221). -/
namespace Sys2Proof.Machine

open Sys2Proof

/-! ## The task that a core takes -/

/-- Issuing an operation is a change of the scheduler: what a task reads of the other parts is as before it. -/
theorem issue_updSch (cls u : Nat) (e : Entry) (s : State) :
    ∃ y, y = (issue cls u e s).sch ∧ issue cls u e s = s.updSch fun _ => y := by
  refine ⟨_, rfl, ?_⟩
  unfold issue enter
  dsimp only
  split <;> rfl

/-- A command that a core's task serves, where the task is a built-in one that ends at once: the entry is finished and the core
free, and what the task did stays. -/
theorem completes_builtin {i : Instr} {m : List Part} {c : Nat} {e : Entry} {s u : State} {serves : Entry → Bool}
    {run : Entry → State → State} (hi : exec i s = .next (takeTask c serves run s)) (h : TaskTakes c e s)
    (hs : serves e = true) (hrun : run e (issue 5 (c / 8) e s) = builtinDone c e u) (hk : ResK m s (exec i s))
    (hu : u.sch = (issue 5 (c / 8) e s).sch) :
    Completes i s fun t => Served e.id .finished s t ∧ (t.core c).task = none ∧
      (t.vat = u.vat ∧ t.mem = u.mem ∧ t.regs = u.regs ∧ t.outer = u.outer) ∧ OnlyIn m s t := by
  have hx : exec i s = .next (builtinDone c e u) := by rw [hi, takeTask_run h hs, hrun]
  have honly := (hk.get hx).only
  obtain ⟨v, he, hsch, htask, hsame⟩ := builtinDone_eq c e u
  rw [he] at hx honly
  exact ⟨_, hx, served_issue (taskTakes_mem h) (hsch.trans hu), htask, hsame, honly⟩

/-- A task over a ream that the job has, with its state block inside the fence and its header clean, runs on them. -/
theorem withReam_run {c : Nat} {e : Entry} {b : List Byte} {s : State} (f : List Byte → PlReam → State → State)
    (hb : s.ocbReam e.d.job.val e.d.taskReam = some b) (hok : s.hbmOk e.d.job.val (plReam b).base 0x1000 = true)
    (hbad : s.hbmBad (plReam b).base 0x200 = false) : withReam c e f s = f b (plReam b) s := by
  unfold withReam
  simp only [hb, hok, hbad, Bool.not_true, Bool.false_eq_true, if_false]

/-! ## What each task does -/

/-- The next floor exponent of a ream (R84). -/
def State.nextFloor (s : State) (j r : Nat) : Int :=
  s.taskEhi j r + (fld (s.reg (pgVAT 0) 0x184 (reamIx j r)) 0 4 : Int) + clog2 (popc (s.cmap j) + 1) + 4 - 62

/-- The state with it in F_NEXT. -/
def floorWork (j r : Nat) (s : State) : State :=
  s.setReg (pgVAT 0) 0x184 (setFld (s.reg (pgVAT 0) 0x184 (reamIx j r)) 10 9 (twos 9 (s.nextFloor j r))) (reamIx j r)

/-- The statistics record and the round are written, the statistics start again, and the record is counted (R207). -/
def statsWork (j r base : Nat) (s : State) : State :=
  bump pgOUTER 0x81C 1
    ((hbmWrite (base + 0x48) (natLE 8 (s.roundOf j r)) (hbmWrite (base + 0x100) (s.statsRec j r) s)).updOuter fun o =>
      { o with stats := SMap.erase (reamIx j r) o.stats })

/-- The `n` weights at `th` are in the merge array, and the snapshot is held (R219). -/
def snapWork (p : PlReam) (n th mg : Nat) (s : State) : State :=
  hbmWrite (p.base + 0x50) (natLE 8 (s.hbmNat (p.base + 0x48) 8 % 2 ^ 63 + 2 ^ 63)) (hbmWrite mg (s.hbmRead th (4 * n)) s)

/-- By how many rounds the ream is ahead of its snapshot (R220). -/
def State.mergeLag (s : State) (p : PlReam) : Nat :=
  (s.hbmNat (p.base + 0x48) 8 + 2 ^ 63 - s.hbmNat (p.base + 0x50) 8 % 2 ^ 63) % 2 ^ 63

/-- The weighted divergence of the ream's elements (R220). -/
def State.formed (s : State) (j r : Nat) (p : PlReam) (th mg : Nat) : List Byte :=
  let tau := max 1 (fld (s.reg pgOUTER (0x214 + 0x40 * j)) 0 8)
  (List.range (s.npad j r)).flatMap fun i =>
    natLE 4 (f32Mul (f32Div (f32OfNat tau) (f32OfNat (tau + s.mergeLag p)))
      (f32Sub (s.hbmWord (mg + 4 * i)) (s.hbmWord (th + 4 * i)))).toNat

/-- It is in the merge array. -/
def formWork (j r : Nat) (p : PlReam) (th mg : Nat) (s : State) : State :=
  (hbmWrite mg (s.formed j r p th mg) s).updOuter fun o => { o with merge := SMap.put (reamIx j r) 2 o.merge }

/-- The gateway's share of the divergence is in every accumulator of the wave (R220, R221). -/
def addShares (j : Nat) (w : Wave) (mg : Nat) (s : State) : State :=
  forAll (List.range (s.waveElems j w)) (fun i u => mergeAddEl j w mg (w.ebase * 8192 + i) u) s

theorem addShares_sch (j : Nat) (w : Wave) (mg : Nat) (s : State) : (addShares j w mg s).sch = s.sch :=
  forAll_inv (P := fun t => t.sch = s.sch) (fun _ _ ht => ((mergeAddEl_k ..).only .sch (by decide)).trans ht) _ s rfl

section Ops

variable {c : Nat} {e : Entry} {b : List Byte} {s : State}

theorem floorOp_runs (hoff : bit (s.reg (pgVAT 0) 0x184 (reamIx e.d.job.val e.d.taskReam)) 31 = false)
    (hehi : s.taskEhi e.d.job.val e.d.taskReam ≠ -256) :
    floorOp c e s = builtinDone c e (floorWork e.d.job.val e.d.taskReam s) := by
  unfold floorOp
  dsimp only
  rw [if_neg (by simp [hoff, hehi])]
  rfl

variable (hb : s.ocbReam e.d.job.val e.d.taskReam = some b)
  (hok : s.hbmOk e.d.job.val (plReam b).base 0x1000 = true) (hbad : s.hbmBad (plReam b).base 0x200 = false)
include hb hok hbad

theorem planOp_runs : planOp c e s =
    (let r := planRound e.d.job e.d.taskReam (c / 8) b (coreTake c e true s)
     let t := forAll r.1 (fun d u => submitCore c d true u) r.2
     if (t.core c).subQ.isEmpty then coreDone c t else t) := by
  unfold planOp
  exact withReam_run _ hb hok hbad

theorem statsOp_runs : statsOp c e s = builtinDone c e (statsWork e.d.job.val e.d.taskReam (plReam b).base s) := by
  unfold statsOp
  exact withReam_run _ hb hok hbad

variable {th mg : Nat} (hmg : s.reamArr e.d.job.val (plReam b) 0x20 (s.npad e.d.job.val e.d.taskReam) = some mg)
include hmg

/-- ADD, on a wave of the ream that holds INT content and no poison. -/
theorem mergeAddOp_runs {w : Wave} (hw : s.waveOn e.d = some w) (hc : w.content = .int) (hr : w.ream = e.d.taskReam)
    (hp : s.wavePoisoned w = false) : mergeAddOp c e s =
      builtinDone c e (mergeSettle e.d.job.val e.d.taskReam (plReam b) (addShares e.d.job.val w mg s)) := by
  unfold mergeAddOp
  simp only [hw, hc, hr, hp, withReam_run _ hb hok hbad, hmg, ne_eq, not_true, decide_false, Bool.or_self, Bool.false_eq_true,
    if_false]
  rfl

variable (hth : s.reamArr e.d.job.val (plReam b) 0 (s.npad e.d.job.val e.d.taskReam) = some th)
include hth

theorem mergeSnapOp_runs : mergeSnapOp c e s =
    builtinDone c e (snapWork (plReam b) (s.npad e.d.job.val e.d.taskReam) th mg s) := by
  unfold mergeSnapOp
  simp only [withReam_run _ hb hok hbad, hth, hmg]
  rfl

/-- FORM, where a snapshot is held and the ream is not too far ahead of it. -/
theorem mergeFormOp_runs (hoff : s.hbmNat ((plReam b).base + 0x20) 8 ≠ 0) (hsnap : s.snapHeld (plReam b) = true)
    (hlag : s.mergeLag (plReam b) ≤ fld (s.reg pgOUTER (0x214 + 0x40 * e.d.job.val)) 8 8) :
    mergeFormOp c e s = builtinDone c e (formWork e.d.job.val e.d.taskReam (plReam b) th mg s) := by
  have hgo : ¬ (decide (s.hbmNat ((plReam b).base + 0x20) 8 = 0) || !s.snapHeld (plReam b) ||
      decide (s.mergeLag (plReam b) > fld (s.reg pgOUTER (0x214 + 0x40 * e.d.job.val)) 8 8)) = true := by
    simpa [hoff, hsnap] using hlag
  unfold mergeFormOp
  rw [withReam_run _ hb hok hbad]
  refine (if_neg hgo).trans ?_
  simp only [hth, hmg]
  rfl

end Ops

/-- Settles O23: taking a task changes the scheduler alone, so its work is on the state as it stood; all but PLAN then end at
once. -/
theorem builtinTasks : Obligations.BuiltinTasks := by
  unfold Obligations.BuiltinTasks
  refine ⟨?plan, ?floor, ?stats, ?snap, ?form, ?add⟩
  case plan =>
    intro c e b s s1 r s2 h ht hb hok hbad
    obtain ⟨y, -, hy⟩ := issue_updSch 5 (c.val / 8) e s
    have hs1 : s1 = s.updSch fun _ => y := hy
    exact ⟨_, congrArg Host.Outcome.next (takeTask_run h (decide_eq_true ht) _),
      planOp_runs (s := s1) (hs1 ▸ hb) (hs1 ▸ hok) (hs1 ▸ hbad), (((issue_k ..).mono (by decide)).trans (planOp_k ..)).only⟩
  case floor =>
    intro c e s j s1 cfg ehi f h ht hoff hehi
    obtain ⟨y, -, hy⟩ := issue_updSch 5 (c.val / 8) e s
    have hs1 : s1 = s.updSch fun _ => y := hy
    have hcfg : s1.reg (pgVAT 0) 0x184 (reamIx j e.d.taskReam) = cfg := by rw [hs1]; rfl
    have hcmap : s1.cmap j = s.cmap j := by rw [hs1]; rfl
    have hf : s1.nextFloor j e.d.taskReam = f := by rw [State.nextFloor, hcfg, hcmap]
    obtain ⟨t, hx, hserved, hfree, ⟨-, -, hregs, -⟩, honly⟩ := completes_builtin (i := .floor c) rfl h (decide_eq_true ht)
      (floorOp_runs (s := s1) (hs1 ▸ hoff) hehi) (execFloor_k c s) rfl
    refine ⟨t, hx, hserved, hfree, hregs.trans ?_, honly⟩
    rw [floorWork, hcfg, hf, hs1]
    rfl
  case stats =>
    intro c e b s j r base h ht hb hok hbad
    obtain ⟨y, hsch, hy⟩ := issue_updSch 5 (c.val / 8) e s
    obtain ⟨t, hx, hserved, hfree, ⟨-, hmem, -, houter⟩, honly⟩ := completes_builtin (i := .stats c) rfl h (decide_eq_true ht)
      ((congrArg (statsOp c.val e) hy).trans (statsOp_runs (s := s.updSch fun _ => y) hb hok hbad)) (execStats_k c s)
      (((bump_k ..).only .sch (by decide)).trans hsch)
    exact ⟨t, hx, hserved, hfree, hmem.trans ((bump_k ..).only .mem (by decide)),
      houter.trans ((bump_k ..).only .outer (by decide)), honly⟩
  case snap =>
    intro c e b th mg s j p n h ht hfn hb hok hbad hth hmg
    obtain ⟨y, hsch, hy⟩ := issue_updSch 5 (c.val / 8) e s
    obtain ⟨t, hx, hserved, hfree, ⟨-, hmem, -, -⟩, honly⟩ := completes_builtin (i := .mergeSnap c) rfl h (by simp [ht, hfn])
      ((congrArg (mergeSnapOp c.val e) hy).trans (mergeSnapOp_runs (s := s.updSch fun _ => y) hb hok hbad hmg hth))
      (execMergeSnap_k c s) hsch
    exact ⟨t, hx, hserved, hfree, hmem, honly⟩
  case form =>
    intro c e b th mg s j p n k m tau h ht hfn hb hok hbad hoff hsnap hlag hth hmg
    obtain ⟨y, hsch, hy⟩ := issue_updSch 5 (c.val / 8) e s
    obtain ⟨t, hx, hserved, hfree, ⟨-, hmem, -, -⟩, honly⟩ := completes_builtin (i := .mergeForm c) rfl h (by simp [ht, hfn])
      ((congrArg (mergeFormOp c.val e) hy).trans
        (mergeFormOp_runs (s := s.updSch fun _ => y) hb hok hbad hmg hth hoff hsnap hlag)) (execMergeForm_k c s) hsch
    exact ⟨t, hx, hserved, hfree, hmem, honly⟩
  case add =>
    intro c e b w mg s j p h ht hfn hw hc hr hp hb hok hbad hmg
    obtain ⟨y, hsch, hy⟩ := issue_updSch 5 (c.val / 8) e s
    obtain ⟨t, hx, hserved, hfree, ⟨hvat, -, -, -⟩, honly⟩ := completes_builtin (i := .mergeAdd c) rfl h (by simp [ht, hfn])
      ((congrArg (mergeAddOp c.val e) hy).trans (mergeAddOp_runs (s := s.updSch fun _ => y) hb hok hbad hmg hw hc hr hp))
      (execMergeAdd_k c s) (((mergeSettle_k ..).only .sch (by decide)).trans ((addShares_sch ..).trans hsch))
    refine ⟨t, hx, hserved, hfree, hvat.trans (((mergeSettle_k ..).only .vat (by decide)).trans ?_), honly⟩
    rw [hy]
    rfl

end Sys2Proof.Machine
end

section
/-! PROOF. Collecting (R93, R98, R99, R104, R114): a COLLECT, a re-collect, a write of the collection map and of a window's control
register. -/
namespace Sys2Proof.Machine

open Sys2Proof

/-! ## The vat's operation (R45) -/

theorem mem_of_vatPick {s : State} {d : Nat} {e : Entry} (h : s.vatPick d = some e) : e ∈ s.sch.ops :=
  (pick_spec h).1

theorem exec_collect {d : Die} {e : Entry} {s : State} (h : s.vatPick d.val = some e) (hop : e.d.opcode = 0)
    (hre : e.d.recollect = false) : exec (.collect d) s = .next (collectOp e s) := by
  show execCollect d s = _
  simp [execCollect, h, hop, hre]

theorem exec_recollect {d : Die} {e : Entry} {s : State} (h : s.vatPick d.val = some e) (hop : e.d.opcode = 0)
    (hre : e.d.recollect = true) : exec (.recollect d) s = .next (recollectOp e s) := by
  show execRecollect d s = _
  simp [execRecollect, h, hop, hre]

/-! ## Grant rings that stand -/

/-- No contributor's grant ring has moved: sequence numbers, held records and unconsumed ones (R101). -/
structure RingsKept (s t : State) : Prop where
  gseq : t.vat.gseq = s.vat.gseq
  held : t.vat.heldG = s.vat.heldG
  unack : t.vat.unack = s.vat.unack
  gack : t.vat.gack = s.vat.gack

theorem RingsKept.refl (s : State) : RingsKept s s := ⟨rfl, rfl, rfl, rfl⟩

section RingsKept

variable {s t : State} (h : RingsKept s t) (j c : Nat)
include h

theorem RingsKept.gseqOf : t.gseqOf j c = s.gseqOf j c := by rw [State.gseqOf, h.gseq]; rfl

theorem RingsKept.heldOf : t.heldOf j c = s.heldOf j c := by rw [State.heldOf, h.held]; rfl

theorem RingsKept.unackOf : t.unackOf j c = s.unackOf j c := by rw [State.unackOf, h.unack]; rfl

end RingsKept

/-- A grant is the same where it is seen from before and after what leaves the rings, and the registers first, as they are. -/
theorem Granted.of_kept {j c : Nat} {key r : GrantRec} {s a u t : State} (h : Granted j key r c a u) (hregs : a.regs = s.regs)
    (hbefore : RingsKept s a) (hafter : RingsKept u t) : Granted j key r c s t := by
  have hroom := grantRoom_congr hregs (hbefore.gseqOf j c) hbefore.gack
  unfold Granted at h ⊢
  rwa [hroom, hbefore.gseqOf, hbefore.heldOf, hbefore.unackOf, ← hafter.gseqOf, ← hafter.heldOf, ← hafter.unackOf] at h

theorem collectEval_rings (j h : Nat) (s : State) : RingsKept s (collectEval j h s) := by
  obtain ⟨-, -, -, hgseq, hheld, hunack, hgack, -⟩ := collectEval_same j h s
  exact ⟨hgseq, hheld, hunack, hgack⟩

/-- The evaluation of a COLLECT keeps its wave but for the count. -/
theorem collectEval_wave_self {j h : Nat} {w : Wave} {s : State} (hw : s.wave? j h = some w) :
    ∃ n, (collectEval j h s).wave? j h = some { w with wcount := n } := by
  rcases collectEval_wave j h j h s with hsame | ⟨x, n, hx, -, hset⟩
  · exact ⟨w.wcount, hsame.trans hw⟩
  · cases hx.symm.trans hw
    exact ⟨n, hset⟩

theorem collectEval_wave_ne {j h i : Nat} {s : State} (hi : waveKey j i ≠ waveKey j h) :
    (collectEval j h s).wave? j i = s.wave? j i :=
  (collectEval_wave j h j i s).resolve_right fun ⟨_, _, _, hk, _⟩ => hi hk

theorem winKey_of_tags {s t : State} (h : t.vat.tags = s.vat.tags) (win : Nat) : t.winKey win = s.winKey win := by
  rw [State.winKey, State.winTag, h]
  rfl

/-- A record of a grant or a resend is written with the key of its ream's window (R93). -/
theorem keyed_of_win {s : State} {j win : Nat} {r : GrantRec} (hkind : r.kind ≠ 3) (hwin : s.reduceWin j r.ream = some win) :
    s.keyed j r = { r with rkey := s.winKey win } := by
  simp only [State.keyed, hkind, hwin, if_false]

/-- A contributor of the set has been granted a record with the key that the window has then; another's ring has not moved. -/
def GrantedIn (j : Nat) (cs : BitVec 512) (win : Nat) (r : GrantRec) (c : Nat) (s t : State) : Prop :=
  if cs.getLsbD c then Granted j { r with rkey := t.winKey win } r c s t
  else t.gseqOf j c = s.gseqOf j c ∧ t.heldOf j c = s.heldOf j c ∧ t.unackOf j c = s.unackOf j c

theorem grantAll_grants {j win : Nat} {cs : BitVec 512} {r : GrantRec} {s : State} (hkind : r.kind ≠ 3)
    (hwin : s.reduceWin j r.ream = some win) (c : Nat) : GrantedIn j cs win r c s (grantAll j cs r s) := by
  obtain ⟨hin, hout⟩ := grantAll_spec j r cs s c
  obtain ⟨-, -, -, htags, -⟩ := grantAll_same j cs r s
  rw [keyed_of_win hkind hwin, ← winKey_of_tags htags] at hin
  unfold GrantedIn
  split
  next hc => exact hin hc
  next hc => exact hout (Bool.not_eq_true _ ▸ hc)

/-- Grants are the same where they are seen from before what leaves the rings and the registers as they are, and after what
leaves the rings and the windows' tags. -/
theorem GrantedIn.of_kept {j win c : Nat} {cs : BitVec 512} {r : GrantRec} {s a u t : State} (h : GrantedIn j cs win r c a u)
    (hregs : a.regs = s.regs) (hbefore : RingsKept s a) (hafter : RingsKept u t) (htags : t.vat.tags = u.vat.tags) :
    GrantedIn j cs win r c s t := by
  unfold GrantedIn at h ⊢
  rw [winKey_of_tags htags]
  split at h
  next hc =>
    rw [if_pos hc]
    exact h.of_kept hregs hbefore hafter
  next hc =>
    rw [if_neg hc, hafter.gseqOf, hafter.heldOf, hafter.unackOf, ← hbefore.gseqOf, ← hbefore.heldOf, ← hbefore.unackOf]
    exact h

theorem grantAll_wave (j : Nat) (cs : BitVec 512) (r : GrantRec) (s : State) (i h : Nat) :
    (grantAll j cs r s).wave? i h = s.wave? i h := by
  obtain ⟨hwaves, -⟩ := grantAll_same j cs r s
  rw [State.wave?, hwaves]
  rfl

theorem waveRec_congr {s t : State} (hregs : t.regs = s.regs) (j : Nat) (w : Wave) (kind : Nat) :
    t.waveRec j w kind = s.waveRec j w kind := by
  simp only [State.waveRec, State.nelem, State.reg64, reg_of_regs hregs]

theorem waveRec_ream (s : State) (j : Nat) (w : Wave) (kind : Nat) : (s.waveRec j w kind).ream = w.ream := by rw [State.waveRec]

theorem reduceWin_congr {s t : State} (hregs : t.regs = s.regs) (j r : Nat) : t.reduceWin j r = s.reduceWin j r := by
  simp only [State.reduceWin, State.regEntries, hregs]

/-! ## COLLECT (R98, R99) -/

/-- The beginning of a round touches the ream's window and floor, and no wave, slot, accumulator or ring. -/
theorem roundBegin_same (j r n win : Nat) (s : State) :
    let t := roundBegin j r n win s
    t.vat.waves = s.vat.waves ∧ t.vat.slots = s.vat.slots ∧ t.vat.acc = s.vat.acc ∧ RingsKept s t := by
  unfold roundBegin
  dsimp only
  split <;> exact ⟨rfl, rfl, rfl, rfl, rfl, rfl, rfl⟩

/-- The wave as a COLLECT takes it up: the collection map is its contributor set, and the ream's round its own. -/
def collectWave (e : Entry) (w : Wave) (s : State) : Wave :=
  { w with
    cset := s.cmap e.d.job.val, gone := 0, round := BitVec.ofNat 64 (s.roundOf e.d.job.val e.d.ream), resends := 0
    content := .int }

theorem collectWave_ream (e : Entry) (w : Wave) (s : State) : (collectWave e w s).ream = w.ream := by rw [collectWave]

/-- The state in which a COLLECT grants its wave's range. -/
def collectBegin (e : Entry) (win : Nat) (w : Wave) (s : State) : State :=
  putWave e.d.job.val e.d.wave (collectWave e w s)
    (roundBegin e.d.job.val e.d.ream (s.roundOf e.d.job.val e.d.ream) win (issue 0 e.d.unit e s))

section CollectBegin

variable (e : Entry) (win : Nat) (w : Wave) (s : State)

theorem collectBegin_regs : (collectBegin e win w s).regs = s.regs :=
  ((roundBegin_k ..).only .regs (by decide)).trans ((issue_k ..).only .regs (by decide))

theorem collectBegin_sch : (collectBegin e win w s).sch = (issue 0 e.d.unit e s).sch :=
  (roundBegin_k ..).only .sch (by decide)

theorem collectBegin_vat : (collectBegin e win w s).vat.slots = s.vat.slots ∧ (collectBegin e win w s).vat.acc = s.vat.acc ∧
    RingsKept s (collectBegin e win w s) := by
  have hvat : (issue 0 e.d.unit e s).vat = s.vat := (issue_k ..).only .vat (by decide)
  obtain ⟨-, hslots, hacc, hgseq, hheld, hunack, hgack⟩ := roundBegin_same e.d.job.val e.d.ream
    (s.roundOf e.d.job.val e.d.ream) win (issue 0 e.d.unit e s)
  rw [hvat] at hslots hacc hgseq hheld hunack hgack
  exact ⟨hslots, hacc, hgseq, hheld, hunack, hgack⟩

theorem collectBegin_wave (h : Nat) : (collectBegin e win w s).wave? e.d.job.val h =
    if waveKey e.d.job.val h = waveKey e.d.job.val e.d.wave then some (collectWave e w s) else s.wave? e.d.job.val h := by
  have hvat : (issue 0 e.d.unit e s).vat = s.vat := (issue_k ..).only .vat (by decide)
  obtain ⟨hwaves, -⟩ := roundBegin_same e.d.job.val e.d.ream (s.roundOf e.d.job.val e.d.ream) win (issue 0 e.d.unit e s)
  refine (SMap.find_put ..).trans ?_
  rw [hwaves, hvat]
  rfl

end CollectBegin

section Granted

variable {e : Entry} {win : Nat} {w : Wave} {s : State}

/-- The state in which a COLLECT has granted its wave's range. -/
def collectGranted (e : Entry) (win : Nat) (w : Wave) (s : State) : State :=
  grantAll e.d.job.val (s.cmap e.d.job.val) (s.waveRec e.d.job.val (collectWave e w s) 1) (collectBegin e win w s)

/-- With a window for its ream and a wave, a COLLECT grants the wave's range to every contributor of the map, and is
evaluated. -/
theorem collectOp_takes (hwin : s.reduceWin e.d.job.val e.d.ream = some win) (hw : s.wave? e.d.job.val e.d.wave = some w) :
    collectOp e s = collectEval e.d.job.val e.d.wave (collectGranted e win w s) := by
  rw [collectGranted, ← waveRec_congr (collectBegin_regs e win w s)]
  simp only [collectOp, hwin, hw]
  rfl

theorem collectGranted_wave (h : Nat) : (collectGranted e win w s).wave? e.d.job.val h =
    if waveKey e.d.job.val h = waveKey e.d.job.val e.d.wave then some (collectWave e w s) else s.wave? e.d.job.val h :=
  (grantAll_wave ..).trans (collectBegin_wave ..)

theorem collectGranted_same : (collectGranted e win w s).vat.slots = s.vat.slots ∧
    (collectGranted e win w s).vat.acc = s.vat.acc ∧
    (collectGranted e win w s).vat.tags = (collectBegin e win w s).vat.tags := by
  unfold collectGranted
  obtain ⟨hslots, hacc, -⟩ := collectBegin_vat e win w s
  obtain ⟨-, gslots, gacc, gtags, -⟩ := grantAll_same e.d.job.val (s.cmap e.d.job.val)
    (s.waveRec e.d.job.val (collectWave e w s) 1) (collectBegin e win w s)
  exact ⟨gslots.trans hslots, gacc.trans hacc, gtags⟩

theorem collectGranted_stOf (hmem : e ∈ s.sch.ops) : (collectGranted e win w s).stOf e.id = some .active := by
  unfold collectGranted
  rw [stOf_of_sch ((grantAll_sch ..).trans (collectBegin_sch ..))]
  exact issue_stOf hmem

/-- Each contributor of the map is granted the record, with the key that the window has then; no other's ring moves. -/
theorem collectGranted_grants (hwin : s.reduceWin e.d.job.val w.ream = some win) (c : Nat) :
    GrantedIn e.d.job.val (s.cmap e.d.job.val) win (s.waveRec e.d.job.val (collectWave e w s) 1) c s
      (collectGranted e win w s) := by
  obtain ⟨-, -, hrings⟩ := collectBegin_vat e win w s
  have hregs := collectBegin_regs e win w s
  have hthere : (collectBegin e win w s).reduceWin e.d.job.val (s.waveRec e.d.job.val (collectWave e w s) 1).ream = some win := by
    rw [reduceWin_congr hregs, waveRec_ream, collectWave_ream]
    exact hwin
  have hkind : (s.waveRec e.d.job.val (collectWave e w s) 1).kind ≠ 3 := show (1 : Nat) ≠ 3 by decide
  have hgrants := grantAll_grants (cs := s.cmap e.d.job.val) hkind hthere c
  unfold collectGranted
  generalize grantAll _ _ _ _ = t at hgrants ⊢
  exact hgrants.of_kept hregs hrings (.refl t) rfl

end Granted

/-! ## RECOLLECT (R114) -/

/-- The COLLECT that a vat takes is its wave's ACTIVE one. -/
theorem collectOf_issue {c u : Nat} {e : Entry} {s : State} (h : e ∈ s.sch.ops) (hop : e.d.opcode = 0)
    (hwork : e.work = .running) : ((issue c u e s).collectOf e.d.job.val e.d.wave).isSome = true := by
  unfold State.collectOf
  rw [List.find?_isSome]
  refine ⟨{ e with st := .active, stalled := false }, ?_, by simp [hop, hwork]⟩
  exact List.mem_map.2 ⟨e, h, by simp⟩

/-- The state in which a RECOLLECT has its ream resent: contributors that were taken out of the map are out of the set. -/
def recollectBegin (e : Entry) (w : Wave) (s : State) : State :=
  putWave e.d.job.val e.d.wave { w with cset := w.cset &&& ~~~ w.gone } (issue 0 e.d.unit e s)

/-- Below the limit, on a held wave that no COLLECT is ACTIVE for, a RECOLLECT is a resend of the ream. -/
theorem recollectOp_takes {e : Entry} {win : Nat} {w : Wave} {s : State} (hwin : s.reduceWin e.d.job.val e.d.ream = some win)
    (hw : s.waveOn e.d = some w) (hream : w.ream = e.d.ream) (hbase : w.ebase = e.d.ebase)
    (hnone : s.collectOf e.d.job.val e.d.wave = none) (hlimit : w.resends < s.resendMax w.die) :
    recollectOp e s = collectEval e.d.job.val e.d.wave (resendReam e.d.job.val w.ream (recollectBegin e w s)) := by
  have hgo : ¬ (decide (w.ream ≠ e.d.ream) || decide (w.ebase ≠ e.d.ebase) ||
      (s.collectOf e.d.job.val e.d.wave).isSome) = true := by
    simp [hream, hbase, hnone]
  simp only [recollectOp, hwin, hw]
  rw [if_neg hgo, if_neg (Nat.not_le.2 hlimit)]
  rfl

section Recollect

variable {e : Entry} {win : Nat} {w : Wave} {s : State}

theorem recollectBegin_wave : (recollectBegin e w s).wave? e.d.job.val e.d.wave = some { w with cset := w.cset &&& ~~~ w.gone } :=
  SMap.find_put_self ..

/-- Issuing the operation and changing its wave's set draws no value and touches no slot or register. -/
theorem recollectBegin_same : (recollectBegin e w s).freeCtr = s.freeCtr ∧ (recollectBegin e w s).regs = s.regs ∧
    (recollectBegin e w s).vat.slots = s.vat.slots := by
  obtain ⟨y, -, hy⟩ := issue_updSch 0 e.d.unit e s
  rw [recollectBegin, hy]
  exact ⟨rfl, rfl, rfl⟩

theorem recollect_tag (hwin : s.reduceWin e.d.job.val w.ream = some win) :
    (resendReam e.d.job.val w.ream (recollectBegin e w s)).winTag win = (Config.free s.freeCtr).toNat % 2 ^ 18 := by
  obtain ⟨hfree, hregs, -⟩ := recollectBegin_same (e := e) (w := w) (s := s)
  rw [resendReam_tag ((reduceWin_congr hregs ..).trans hwin), if_pos rfl, hfree]

/-- The wave collects, so a resend clears its slots. -/
theorem recollect_clears (hmem : e ∈ s.sch.ops) (hop : e.d.opcode = 0) (hwork : e.work = .running) (hh : e.d.wave < 4096) {n : Nat}
    (hn : n ∈ w.slots) (hlt : n < 2048) :
    SlotClear w.die n s (resendReam e.d.job.val w.ream (recollectBegin e w s)) := by
  obtain ⟨-, -, hslots⟩ := recollectBegin_same (e := e) (w := w) (s := s)
  obtain ⟨hslot, hacc⟩ := resendReam_clears (n := n) (mem_collecting recollectBegin_wave hh rfl (collectOf_issue hmem hop hwork))
    recollectBegin_wave hn hlt
  refine ⟨hslot.trans ?_, hacc⟩
  rw [State.vslot?, hslots]
  rfl

end Recollect

/-! ## The collection map (R104) -/

theorem regRow_cmap (j : Job) (k : Fin 16) : regRow (pgVAT 0) (0x400 + 0x40 * j.val + 4 * k.val) =
    some { off := 0x400, n := 8, stride := 0x40, words := 16, cls := .jobN, rw := 0xFFFFFFFF } := by
  revert j k; decide

theorem cmdBits_vat0 (o : Nat) : cmdBits (pgVAT 0) o = 0#32 := cmdBits_vat 0 o

/-- The members of a job's map that a write of one of its words takes out. -/
def State.cmapGone (s : State) (j k : Nat) (v : Word) : BitVec 512 :=
  BitVec.ofNat 512 ((s.reg (pgVAT 0) (0x400 + 0x40 * j + 4 * k) &&& ~~~ v).toNat * 2 ^ (32 * k))

theorem pageEffect_cmap (w : Who) (j : Job) (k : Fin 16) (ix : Nat) (v : DWord) (s : State) :
    pageEffect w (pgVAT 0) (0x400 + 0x40 * j.val + 4 * k.val) ix v s =
      .ok (scatterDrop j.val (s.cmapGone j.val k.val (loW v)) false (cmapWr j.val k.val (loW v) s)) := by
  have hj := j.isLt
  have hk := k.isLt
  have hjob : (0x400 + 0x40 * j.val + 4 * k.val - 0x400) / 0x40 = j.val := by omega
  have hword : (0x400 + 0x40 * j.val + 4 * k.val - 0x400) % 0x40 / 4 = k.val := by omega
  have hmap : (decide (0x400 ≤ 0x400 + 0x40 * j.val + 4 * k.val) && decide (0x400 + 0x40 * j.val + 4 * k.val < 0x600)) = true := by
    simp; omega
  unfold pageEffect
  rw [show pgKind (pgVAT 0) = .vat from rfl]
  dsimp only
  rw [if_pos hmap]
  unfold vatEffect
  iterate 8 rw [if_neg (by omega)]
  rw [if_neg (by simp; omega), if_pos hmap, hjob, hword]
  rfl

/-- A wave's contributor set once members are taken out of the map: it loses them where the wave collects. -/
def setLess (gone : BitVec 512) (collects : Bool) (cs : BitVec 512) : BitVec 512 :=
  if collects then cs &&& ~~~ gone else cs

/-- Who has left does not leave again. -/
theorem setLess_setLess (gone : BitVec 512) (b : Bool) (cs : BitVec 512) : setLess gone b (setLess gone b cs) = setLess gone b cs := by
  cases b
  · rfl
  · simp [setLess, BitVec.and_assoc]

/-- Members leave one of the job's waves. -/
def leaveWave (j : Nat) (gone : BitVec 512) (h : Nat) (s : State) : State :=
  updWave j h (fun w =>
    if (s.collectOf j h).isSome then { w with cset := w.cset &&& ~~~ gone, gone := w.gone ||| gone }
    else { w with gone := w.gone ||| gone }) s

theorem collectOf_of_sch {s t : State} (hsch : t.sch = s.sch) (j h : Nat) : t.collectOf j h = s.collectOf j h := by
  rw [State.collectOf, hsch]
  rfl

/-- The handles of the job's waves. -/
def State.wavesOf (s : State) (j : Nat) : List Nat :=
  (s.vat.waves.filter fun kv => kv.1 / 4096 = j).map fun kv => kv.1 % 4096

/-- The contributor set of one of the job's waves. -/
def State.csetOf (s : State) (j h : Nat) : Option (BitVec 512) := (s.wave? j h).map Wave.cset

section Leave

variable {j h : Nat} (gone : BitVec 512)

theorem leaveWave_cset (a : Nat) (s : State) : (leaveWave j gone a s).csetOf j h =
    if h = a then (s.csetOf j h).map (setLess gone (s.collectOf j h).isSome) else s.csetOf j h := by
  unfold leaveWave updWave State.csetOf
  split
  next hnone =>
    split
    next hah => rw [hah, hnone]; rfl
    next => rfl
  next w hw =>
    unfold putWave State.wave? at *
    rw [State.updVat_vat, SMap.find_put]
    by_cases hah : h = a
    · subst hah
      rw [if_pos rfl, if_pos rfl, hw]
      cases (s.collectOf j h).isSome <;> rfl
    · rw [if_neg hah, if_neg (fun hk => hah (by unfold waveKey at hk; omega))]

/-- Over several waves, each loses the members once. -/
theorem leaveWaves_cset (l : List Nat) (s : State) : (forAll l (leaveWave j gone) s).csetOf j h =
    if h ∈ l then (s.csetOf j h).map (setLess gone (s.collectOf j h).isSome) else s.csetOf j h := by
  induction l generalizing s with
  | nil => rfl
  | cons a l ih =>
    have hsch : (leaveWave j gone a s).sch = s.sch := (updWave_k ..).only .sch (by decide)
    have htwice : setLess gone (s.collectOf j h).isSome ∘ setLess gone (s.collectOf j h).isSome =
        setLess gone (s.collectOf j h).isSome := funext (setLess_setLess gone _)
    refine (ih (leaveWave j gone a s)).trans ?_
    rw [leaveWave_cset, collectOf_of_sch hsch]
    by_cases hah : h = a
    · subst hah
      rw [if_pos rfl, if_pos List.mem_cons_self, Option.map_map, htwice, ite_self]
    · simp only [List.mem_cons, hah, false_or, if_false]

theorem mem_wavesOf {s : State} {w : Wave} (hh : h < 4096) (hw : s.wave? j h = some w) : h ∈ s.wavesOf j := by
  refine List.mem_map.2 ⟨(waveKey j h, w), List.mem_filter.2 ⟨find_some_mem hw, ?_⟩, ?_⟩
  · simp only [decide_eq_true_eq]
    unfold waveKey
    omega
  · simp only [waveKey]
    omega

/-- Every wave of the job that collects has lost the members, whatever is resent or ends for it. -/
theorem cmapRemove_cset (s : State) (hh : h < 4096) : (cmapRemove j gone s).csetOf j h =
    (s.csetOf j h).map (setLess gone (s.collectOf j h).isSome) := by
  have hleft : (forAll (s.wavesOf j) (leaveWave j gone) s).csetOf j h =
      (s.csetOf j h).map (setLess gone (s.collectOf j h).isSome) := by
    rw [leaveWaves_cset]
    cases hw : s.wave? j h with
    | none => simp [State.csetOf, hw]
    | some w => rw [if_pos (mem_wavesOf hh hw)]
  have heval : ∀ (l : List Nat) (t : State), (forAll l (fun a u => collectEval j a u) t).csetOf j h = t.csetOf j h := fun l t =>
    forAll_inv (P := fun u => u.csetOf j h = t.csetOf j h) (fun a u hu => (collectEval_cset j a j h u).trans hu) l t rfl
  refine forAll_inv (P := fun t => t.csetOf j h = (s.csetOf j h).map (setLess gone (s.collectOf j h).isSome))
    (fun r t ht => ?_) _ _ hleft
  dsimp only
  split
  · exact (heval _ _).trans ((resendReam_cset j r j h t).trans ht)
  · exact (heval _ _).trans ht

end Leave

/-! ## A window's control register (R93) -/

theorem regRow_winCtl : regRow (pgVAT 0) 0x114 =
    some { off := 0x114, cls := .entryJob 0x114 4, rw := 0x83FFF073, ix := some 0x110 } := by
  decide

theorem pageEffect_winCtl (w : Who) (ix : Nat) (v : DWord) (s : State) :
    pageEffect w (pgVAT 0) 0x114 ix v s = winCtlWr ix (loW v) s := rfl

/-- A window's control register as it is stored: only a REDUCE window names a ream. -/
def winStored (v : Word) : Word := if winType v = 0 then v else setFld v 16 10 0

/-- A window's register stored; the window draws a tag where VALID rises. -/
def winSet (ix : Nat) (y : Word) (s : State) : State :=
  if winValid y && !winValid (s.winCtl ix) then newTag ix (store (pgVAT 0) 0x114 ix y s) else store (pgVAT 0) 0x114 ix y s

theorem winSet_regs (ix : Nat) (y : Word) (s : State) : (winSet ix y s).regs = (s.setReg (pgVAT 0) 0x114 y ix).regs :=
  ite_both (P := fun t : State => t.regs = (s.setReg (pgVAT 0) 0x114 y ix).regs) rfl rfl

theorem winSet_tag (ix i : Nat) (y : Word) (s : State) : (winSet ix y s).winTag i =
    if i = ix ∧ winValid y = true ∧ winValid (s.winCtl ix) = false then (Config.free s.freeCtr).toNat % 2 ^ 18
    else s.winTag i := by
  have hrises : (winValid y && !winValid (s.winCtl ix)) = true ↔ winValid y = true ∧ winValid (s.winCtl ix) = false := by
    simp
  unfold winSet
  simp only [hrises]
  split
  next hrise =>
    simp only [newTag_tag, hrise, and_true]
    rfl
  next hstays =>
    rw [if_neg fun h => hstays h.2]
    rfl

/-- A window whose fields are in range, that is free, and that no other VALID window doubles, is set. -/
theorem winCtlWr_ok {ix : Nat} {v : Word} {s : State} (htype : winType (winStored v) ≠ 3)
    (hfmt : if winType (winStored v) = 0 then fld (winStored v) 12 4 ≤ 8 else fld (winStored v) 12 4 ≤ 11)
    (hfree : s.winBusy ix = false)
    (hone : winValid (winStored v) = true → winType (winStored v) = 0 → ∀ e ∈ s.regEntries (pgVAT 0) 0x114, e.1 ≠ ix →
      winValid e.2 = true → winType e.2 = 0 → winJob e.2 = winJob (winStored v) → winReam e.2 ≠ winReam (winStored v)) :
    winCtlWr ix v s = .ok (winSet ix (winStored v) s) := by
  have hnotFmt : ¬ (decide (winType (winStored v) = 0) && decide (fld (winStored v) 12 4 > 8)) = true := by
    simp only [Bool.and_eq_true, decide_eq_true_eq]
    rintro ⟨h0, h8⟩
    rw [if_pos h0] at hfmt
    omega
  have hnotEnc : ¬ fld (winStored v) 12 4 > 11 := by
    split at hfmt <;> omega
  have hnotDup : ¬ (winValid (winStored v) && decide (winType (winStored v) = 0) &&
      (s.regEntries (pgVAT 0) 0x114).any fun e => decide (e.1 ≠ ix) && winValid e.2 && decide (winType e.2 = 0) &&
        decide (winJob e.2 = winJob (winStored v)) && decide (winReam e.2 = winReam (winStored v))) = true := by
    simp only [Bool.and_eq_true, decide_eq_true_eq, List.any_eq_true]
    rintro ⟨⟨hv, h0⟩, e, he, ⟨⟨⟨hne, hev⟩, he0⟩, hej⟩, her⟩
    exact hone hv h0 e he hne hev he0 hej her
  unfold winCtlWr
  dsimp only
  rw [← winStored, if_neg htype, if_neg hnotFmt, if_neg hnotEnc, if_neg (by rw [hfree]; decide), if_neg hnotDup, winSet]

/-- Settles O18: a COLLECT is grants and an evaluation on a wave taken up, a RECOLLECT a resend of a wave that collects; a
write of the map takes members out of each wave, which no resend or evaluation puts back; a window is stored, with a tag. -/
theorem collecting : Obligations.Collecting := by
  unfold Obligations.Collecting
  refine ⟨?collect, ?recollect, ?map, ?window⟩
  case collect =>
    intro d e win w s j w1 hpick hop hre hwin hw hream
    have hx := (exec_collect hpick hop hre).trans (congrArg Host.Outcome.next (collectOp_takes hwin hw))
    obtain ⟨uslots, uacc, -⟩ := collectGranted_same (e := e) (win := win) (w := w) (s := s)
    have hwave := collectGranted_wave (e := e) (win := win) (w := w) (s := s)
    have hgrants := collectGranted_grants (e := e) (w := w) (s := s) (hream ▸ hwin)
    have hst := collectGranted_stOf (win := win) (w := w) (mem_of_vatPick hpick)
    generalize collectGranted e win w s = u at hx uslots uacc hwave hgrants hst
    obtain ⟨tslots, tacc, ttags, -⟩ := collectEval_same j e.d.wave u
    refine ⟨_, hx, collectEval_wave_self ((hwave _).trans (if_pos rfl)), fun h hh => ?_, fun c => ?_, ?_, ?_, ?_,
      ((execCollect_k d s).get hx).only⟩
    · exact (collectEval_wave_ne hh).trans ((hwave h).trans (if_neg hh))
    · exact (hgrants c.val).of_kept rfl (.refl s) (collectEval_rings ..) ttags
    · rw [collectEval_stOf]
      exact hst
    · exact tslots.trans uslots
    · exact tacc.trans uacc
  case recollect =>
    intro d e win w s j hpick hop hre hwork hh hwin hw hream hbase hnone hlimit
    have hx := (exec_recollect hpick hop hre).trans
      (congrArg Host.Outcome.next (recollectOp_takes hwin hw hream hbase hnone hlimit))
    obtain ⟨tslots, tacc, ttags, -⟩ := collectEval_same j e.d.wave (resendReam j w.ream (recollectBegin e w s))
    have hmem := mem_of_vatPick hpick
    refine ⟨_, hx, ?_, fun n hn hlt => ?_, fun n hn hlt i hi => ?_, ?_, ((execRecollect_k d s).get hx).only⟩
    · rw [State.winTag, ttags]
      exact recollect_tag (hream ▸ hwin)
    · rw [State.vslot?, tslots]
      exact (recollect_clears hmem hop hwork hh hn hlt).slot
    · rw [State.accAt, tacc]
      exact (recollect_clears hmem hop hwork hh hn hlt).acc i hi
    · rw [collectEval_stOf, stOf_of_sch ((resendReam_k ..).only .sch (by decide))]
      exact issue_stOf hmem
  case map =>
    intro w j k v s o gone ha
    have hw := regWrite_ok ha (regRow_cmap j k) (by decide) rfl (by rw [cmdBits_vat0]; decide)
      (by rw [pageEffect_cmap, loW_setWidth, taken_whole (regRow_cmap j k) (by rw [cmdBits_vat0]; decide)])
    have hdrop := scatterDrop_k j.val gone false (cmapWr j.val k.val v s)
    refine ⟨_, congrArg Host.Outcome.next hw, (hdrop.only .regs (by decide)).trans ((cmapRemove_k ..).only .regs (by decide)),
      fun h hh => ?_, (((cmapWr_k ..).mono (by decide)).step hdrop (by decide)).only⟩
    have hcset : (cmapWr j.val k.val v s).csetOf j.val h = (s.csetOf j.val h).map (setLess gone (s.collectOf j.val h).isSome) :=
      cmapRemove_cset gone (store (pgVAT 0) o 0 v s) hh
    have hvat : (scatterDrop j.val gone false (cmapWr j.val k.val v s)).vat = (cmapWr j.val k.val v s).vat :=
      hdrop.only .vat (by decide)
    refine (congrArg (fun x : Vat => (SMap.find x.waves (waveKey j.val h)).map Wave.cset) hvat).trans (hcset.trans ?_)
    exact Option.map_map ..
  case window =>
    intro w v s ix x y ha htype hfmt hfree hone
    have hix : s.ixOf w (pgVAT 0) 0x114 = ix := by
      rw [State.ixOf, regRow_winCtl]
      rfl
    have hw := regWrite_ok ha regRow_winCtl (by decide) rfl (by decide)
      (by rw [pageEffect_winCtl, loW_setWidth, hix]; exact winCtlWr_ok htype hfmt hfree hone)
    exact ⟨_, congrArg Host.Outcome.next hw, winSet_regs .., fun i => winSet_tag ..,
      ((winCtlWr_k ix x s).get (winCtlWr_ok htype hfmt hfree hone)).only⟩

end Sys2Proof.Machine
end

section
/-! PROOF. The sheet codecs and the streams between EXPAND and ADD (R160, R163 to R166, R169, R170). -/
namespace Sys2Proof.Machine

open Sys2Proof

/-! ## PACK (R163, R164) -/

/-- The couch-stage buffer that a PACK fills with the sheets of a quantised-block buffer. -/
def packedCb (e : Entry) (b : QBuf) : CBuf :=
  { job := e.d.job.val, qbid := e.d.qbid, pack := e.id, sheets := (packAll e.d.packBase b.sheets).map Prod.fst }

/-- A free couch-stage buffer of the die is bound to it. -/
def bindCb (e : Entry) (b : QBuf) (s : State) : State :=
  s.updSheet fun x => { x with cbs := SMap.put (qbKey e.d.unit (s.cbFreeIx e.d.unit)) (packedCb e b) x.cbs }

theorem packOp_packs {e : Entry} {k : Nat} {b : QBuf} {s : State} (hcb : s.cbOf e.d.unit e.d.job.val e.d.qbid = none)
    (hqb : s.qbOf e.d.unit e.d.job.val e.d.qbid = some (k, b)) (hdone : b.done = true) :
    packOp e s = setWork e.id .finished (countPacked e.d.unit (packAll e.d.packBase b.sheets) (bindCb e b s)) := by
  unfold packOp bindCb packedCb
  simp only [hcb, hqb, hdone, Option.isSome_none, Bool.not_true, Bool.false_eq_true, if_false]

/-- Counting packed sheets leaves the buffers. -/
theorem countPacked_cbs (d : Nat) (ps : List (List Byte × Bool)) (s : State) : (countPacked d ps s).sheet.cbs = s.sheet.cbs := by
  have h : ∀ p o n u, (bump p o n u).sheet = u.sheet := fun p o n u => (bump_k p o n u).only .sheet (by decide)
  simp only [countPacked, State.updSheet_sheet, h]

/-- The buffer that a PACK binds holds its sheets. -/
theorem packed_cb {e : Entry} {ps : List (List Byte × Bool)} {b : QBuf} {s : State} :
    SMap.find (setWork e.id .finished (countPacked e.d.unit ps (bindCb e b s))).sheet.cbs
      (qbKey e.d.unit (s.cbFreeIx e.d.unit)) = some (packedCb e b) := by
  have h : ∀ u : State, (setWork e.id .finished u).sheet = u.sheet := fun _ => rfl
  rw [h, countPacked_cbs]
  exact SMap.find_put_self ..

/-! ## Streams (R166) -/

/-- The field of a stream that names the operation of a descriptor's kind. -/
def strmField (e : Entry) (x : Strm) : Strm := if e.d.opcode = 6 then { x with expand := some e.id } else { x with add := some e.id }

/-- A stream that is free, or bound by the partner to the same wave, and that nothing has aborted, is bound. -/
theorem strmIssue_binds {e : Entry} {k : Nat} {run : State → State} {s : State} (hk : e.d.strm = some k)
    (hfree : s.strmFree k e.d (e.d.opcode = 6) = true) (habort : (s.sheet.aborts.any fun a => a.hits k e.d) = false)
    (hbad : ∀ x, SMap.find s.sheet.streams k = some x → x.bad = false) :
    strmIssue e run s = run (strmBind k e.d (strmField e) s) := by
  have he : (s.updSheet fun y => { y with aborts := y.aborts.eraseP fun a => a.hits k e.d }) = s :=
    congrArg (fun l => { s with sheet := { s.sheet with aborts := l } })
      (List.eraseP_of_forall_not fun a ha => List.any_eq_false.1 habort a ha)
  unfold strmIssue
  cases h : SMap.find s.sheet.streams k with
  | none => simp only [hk, hfree, habort, h, he, Bool.not_true, Bool.false_eq_true, if_false, Bool.or_false]; rfl
  | some x => simp only [hk, hfree, habort, h, he, hbad x h, Bool.not_true, Bool.false_eq_true, if_false, Bool.or_false]; rfl

theorem strmIssue_wave {e : Entry} {run : State → State} {s : State} (hop : e.d.opcode = 6) (hdest : e.d.destWave = true) :
    strmIssue e run s = run s := by
  have hk : e.d.strm = none := by simp [Desc.strm, hop, hdest]
  unfold strmIssue
  rw [hk]

/-- A stream that nothing bound before. -/
theorem strmBind_new {k : Nat} {d : Desc} {f : Strm → Strm} {s : State} (h : SMap.find s.sheet.streams k = none) :
    strmBind k d f s = s.updSheet fun y => { y with streams := SMap.put k (f { job := d.job.val, wave := d.wave }) y.streams } := by
  unfold strmBind
  rw [h]

theorem strmBind_bound {k : Nat} {d : Desc} {f : Strm → Strm} {x : Strm} {s : State} (h : SMap.find s.sheet.streams k = some x) :
    strmBind k d f s = s.updSheet fun y => { y with streams := SMap.put k (f x) y.streams } := by
  unfold strmBind
  rw [h]

/-- A stream of which the ADD alone is bound holds nothing and waits. -/
theorem strmRun_empty {k j h a : Nat} {s : State} (hx : SMap.find s.sheet.streams k = some { job := j, wave := h, add := some a }) :
    strmRun k s = s.updSheet fun y => { y with streams := SMap.put k { job := j, wave := h, add := some a } y.streams } := by
  have hdrain : strmDrain k s =
      s.updSheet fun y => { y with streams := SMap.put k { job := j, wave := h, add := some a } y.streams } := by
    unfold strmDrain updStrm
    simp only [hx, Strm.due, List.length_nil, List.range_zero, List.takeWhile_nil, List.filterMap_nil, forAll,
      List.foldl_nil, Nat.add_zero, List.filter_nil, reduceCtorEq, if_false]
  unfold strmRun
  simp only [hx, Option.getD_none, Option.bind_none, strmPump, hdrain]

/-- An ADD that is the first of its stream binds it, and waits for the EXPAND. -/
theorem strmRun_new {k id : Nat} {d : Desc} {s : State} (h : SMap.find s.sheet.streams k = none) :
    SMap.find (strmRun k (strmBind k d (fun x => { x with add := some id }) s)).sheet.streams k =
        some { job := d.job.val, wave := d.wave, add := some id } ∧
      KeepsIn [.sheet] s (strmRun k (strmBind k d (fun x => { x with add := some id }) s)) := by
  rw [strmBind_new h, strmRun_empty (SMap.find_put_self ..)]
  exact ⟨SMap.find_put_self .., (State.updSheet_k ..).trans (State.updSheet_k ..)⟩

/-! ## EXPAND (R165) -/

/-- Where felt holds no poisoned unit, an EXPAND reads its copy as it is. -/
theorem expandFelt_reads {e : Entry} {k : Nat} {s : State} (hbad : s.replayBad e = none) (hfelt : s.feltBad = false)
    (hcw : s.expandCw e = some k) : expandFelt e s = expandOp e s := by
  unfold expandFelt feltRead
  simp only [hbad, hcw, hfelt, Bool.false_eq_true, if_false, Bool.not_false, if_true, ite_self]

section Go
variable {e : Entry} {k : Nat} {w : Wave} {s : State} (hcw : s.expandCw e = some k) (hdone : s.cwComplete k = true)
  (hw : s.waveOn e.d = some w) (hint : w.content = .int) (hclean : s.wavePoisoned w = false)
include hcw hdone hw hint hclean

theorem expandGo_runs (hclaim : e.d.claim = false) : expandGo e s = expandRun e k w s := by
  unfold expandGo
  simp only [hcw, hdone, hw, hint, hclean, hclaim, Bool.not_true, Bool.false_eq_true, if_false, Bool.false_and, ne_eq,
    not_true_eq_false, decide_false, Bool.or_false]

/-- A claimed wave takes the place and the round of the copy first. -/
theorem expandGo_places {round eb : Nat} {w1 : Wave} (hclaim : e.d.claim = true)
    (hplace : s.cwWave e.d.job.val k = some (round, e.d.ream, eb, e.d.vslots))
    (hw1 : (placeWave e.d.job.val e.d.wave round eb ((s.replayOf e).map fun i => i.npad) s).waveOn e.d = some w1) :
    expandGo e s = expandRun e k w1 (placeWave e.d.job.val e.d.wave round eb ((s.replayOf e).map fun i => i.npad) s) := by
  unfold expandGo
  simp only [hcw, hdone, hw, hint, hclean, hclaim, hplace, hw1, Bool.not_true, Bool.false_eq_true, if_false, Bool.true_and, ne_eq,
    not_true_eq_false, decide_false, Bool.or_false, decide_true, Bool.and_true]

end Go

theorem updVSlot_waves (d n : Nat) (f : VSlot → VSlot) (s : State) : (updVSlot d n f s).vat.waves = s.vat.waves := by
  unfold updVSlot
  split <;> rfl

/-- What a placed wave is. -/
theorem placeWave_waveOn {d : Desc} {round eb : Nat} {mir : Option Nat} {w : Wave} {s : State} (hw : s.waveOn d = some w) :
    (placeWave d.job.val d.wave round eb mir s).waveOn d =
      some { w with ebase := eb, round := BitVec.ofNat 64 round, mir := mir } := by
  have hwave : s.wave? d.job.val d.wave = some w ∧ w.die = d.die := by
    unfold State.waveOn at hw
    split at hw
    · exact absurd hw (by simp)
    · rename_i v hv
      split at hw
      · rename_i hdie
        cases hw
        exact ⟨hv, hdie⟩
      · exact absurd hw (by simp)
  obtain ⟨hwave, hdie⟩ := hwave
  have hloop := forAll_inv (P := fun t : State => t.vat.waves = SMap.put (waveKey d.job.val d.wave)
      { w with ebase := eb, round := BitVec.ofNat 64 round, mir := mir } s.vat.waves)
    (f := fun p : Nat × Nat => updVSlot w.die p.1 fun x => { x with efirst := (eb + p.2) * 8192 })
    (fun p t ht => (updVSlot_waves ..).trans ht) w.slots.zipIdx
    (putWave d.job.val d.wave { w with ebase := eb, round := BitVec.ofNat 64 round, mir := mir } s) rfl
  have hput : (placeWave d.job.val d.wave round eb mir s).wave? d.job.val d.wave =
      some { w with ebase := eb, round := BitVec.ofNat 64 round, mir := mir } := by
    unfold placeWave State.wave?
    simp only [State.wave?] at hwave
    simp only [hwave]
    rw [hloop, SMap.find_put_self]
  unfold State.waveOn
  simp only [hput, hdie, if_true]

theorem expandRun_wave {e : Entry} {k : Nat} {w : Wave} {s : State} (hdest : e.d.destWave = true) : expandRun e k w s =
    expandSettle e (forAll (List.range (s.waveElems e.d.job.val w / 4096)) (fun i t => takeSheet e k i t) (linkCw e k s)) := by
  unfold expandRun
  simp only [hdest, if_true]

theorem expandSettle_wave {e : Entry} {s : State} (hdest : e.d.destWave = true) :
    expandSettle e s = if s.dmgOf e.id then s else finish e.id s := by
  unfold expandSettle
  cases s.dmgOf e.id <;> simp [hdest]

theorem expandSettle_other {e : Entry} {i : Nat} (hi : i ≠ e.id) (s : State) : (expandSettle e s).entry? i = s.entry? i :=
  ite_both (P := fun t : State => t.entry? i = s.entry? i) (finish_other hi s) rfl

/-- Binding a stream is a change of the sheet block. -/
theorem strmBind_updSheet (k : Nat) (d : Desc) (f : Strm → Strm) (s : State) : ∃ z, strmBind k d f s = s.updSheet fun _ => z :=
  ⟨_, rfl⟩

/-- The stream that an EXPAND with DEST = STREAM binds before its checks, where it has one. -/
def expandBound (d : Nat) (e : Entry) (s : State) : State :=
  if e.d.destWave then issue 2 d e s
  else strmBind (strmKey d e.d.stream) e.d (fun x => { x with expand := some e.id }) (issue 2 d e s)

/-- Issuing and binding change the scheduler and the sheet block alone. -/
theorem expandBound_shape (d : Nat) (e : Entry) (s : State) :
    ∃ y z, expandBound d e s = (s.updSch fun _ => y).updSheet fun _ => z := by
  obtain ⟨y, -, hy⟩ := issue_updSch 2 d e s
  unfold expandBound
  rw [hy]
  split
  · exact ⟨y, s.sheet, rfl⟩
  · exact ⟨y, _, rfl⟩

/-- The place of a round's chunk-waves among the reams goes by the registers alone. -/
theorem cwIn_congr {s t : State} (hregs : t.regs = s.regs) (j g c : Nat) (l : List Nat) (n : Nat) :
    t.cwIn j g c l n = s.cwIn j g c l n := by
  have hk : ∀ r, chunkWaves (gtS (t.gtCtl g)) c (t.reamWaves j g r) = chunkWaves (gtS (s.gtCtl g)) c (s.reamWaves j g r) := by
    intro r
    simp only [State.gtCtl, State.reamWaves, State.reamSlots, State.npad, State.nelem, State.gtVslots, State.regF, State.reg64,
      State.reg, hregs]
  induction l generalizing n with
  | nil => rfl
  | cons r l ih => simp only [State.cwIn, hk, ih]

theorem cwWave_upd (y : Sch) (z : SheetB) (s : State) (j k : Nat) :
    ((s.updSch fun _ => y).updSheet fun _ => z).cwWave j k = s.cwWave j k := by
  unfold State.cwWave State.cwPlace
  simp only [cwIn_congr (s := s) (t := (s.updSch fun _ => y).updSheet fun _ => z) rfl]
  rfl

/-! ## What the codec that takes an EXPAND leaves to it -/

section Taken
variable {d : Die} {e : Entry} {k : Nat} {s : State} (hp : s.codecPick d.val = some e) (hop : e.d.opcode = 6)
  (href : e.d.refetch = false) (hfed : s.replayFed e = true) (hbad : s.replayBad e = none) (hfelt : s.feltBad = false)
  (hsvc : s.regF (pgSHEET d.val) 0x104 0 8 ≠ 0) (hcw : s.expandCw e = some k)
include hp hop href hfed hbad hfelt hsvc hcw

/-- An EXPAND of the die, whose replay has its buffers, reads its copy where felt is clean. -/
theorem exec_expand : exec (.expand d) s = .next (strmIssue e (expandGo e) (issue 2 d.val e s)) := by
  refine congrArg Host.Outcome.next ((codecIssue_run hp (by simp [hop, href, hfed]) hsvc).trans ?_)
  obtain ⟨y, -, hy⟩ := issue_updSch 2 d.val e s
  rw [hy]
  exact expandFelt_reads (k := k) hbad hfelt hcw

/-- Its stream, where it has one, is free: it is bound, and the EXPAND goes on to its checks. -/
theorem exec_expand_bound (hstrm : e.d.destWave = false → s.strmFree (strmKey d.val e.d.stream) e.d true = true ∧
    (s.sheet.aborts.any fun a => a.hits (strmKey d.val e.d.stream) e.d) = false ∧
    ∀ x, SMap.find s.sheet.streams (strmKey d.val e.d.stream) = some x → x.bad = false) :
    exec (.expand d) s = .next (expandGo e (expandBound d.val e s)) := by
  rw [exec_expand hp hop href hfed hbad hfelt hsvc hcw]
  refine congrArg Host.Outcome.next ?_
  unfold expandBound
  cases hdest : e.d.destWave with
  | true => rw [strmIssue_wave hop hdest, if_pos rfl]
  | false =>
    obtain ⟨hfree, habort, hnot⟩ := hstrm hdest
    obtain ⟨-, -, hunit⟩ := codecPick_unit hp
    have hk : e.d.strm = some (strmKey d.val e.d.stream) := by simp [Desc.strm, hop, href, hdest, hunit]
    have hfield : strmField e = fun x => { x with expand := some e.id } := by
      funext x
      rw [strmField, if_pos hop]
    obtain ⟨y, -, hy⟩ := issue_updSch 2 d.val e s
    rw [hy, if_neg Bool.false_ne_true, ← hfield]
    exact strmIssue_binds (s := s.updSch fun _ => y) hk (by rw [hop]; exact hfree) habort hnot

end Taken

/-! ## ADD (R166, R169) -/

theorem vatPick_unit {d : Nat} {e : Entry} {s : State} (h : s.vatPick d = some e) : e.d.unit = d := by
  have := (pick_spec h).2.2
  simp only [isVatOp, Bool.and_eq_true, decide_eq_true_eq] at this
  exact this.1

theorem addGo_runs {e : Entry} {w : Wave} {s : State} (hw : s.waveOn e.d = some w) (hint : w.content = .int)
    (hclean : s.wavePoisoned w = false) : addGo e s = strmRun (strmKey e.d.unit e.d.stream) s := by
  unfold addGo
  simp only [hw, hint, hclean, ne_eq, not_true_eq_false, if_false, Bool.false_eq_true]

/-- An ADD whose stream is free binds it and drains what its partner left there. -/
theorem exec_add {d : Die} {e : Entry} {w : Wave} {s : State} (hp : s.vatPick d.val = some e) (hop : e.d.opcode = 7)
    (hw : s.waveOn e.d = some w) (hint : w.content = .int) (hclean : s.wavePoisoned w = false)
    (hfree : s.strmFree (strmKey d.val e.d.stream) e.d false = true)
    (habort : (s.sheet.aborts.any fun a => a.hits (strmKey d.val e.d.stream) e.d) = false)
    (hbad : ∀ x, SMap.find s.sheet.streams (strmKey d.val e.d.stream) = some x → x.bad = false) :
    exec (.add d) s = .next (strmRun (strmKey d.val e.d.stream)
      (strmBind (strmKey d.val e.d.stream) e.d (fun x => { x with add := some e.id }) (issue 0 d.val e s))) := by
  have hunit := vatPick_unit hp
  have hk : e.d.strm = some (strmKey d.val e.d.stream) := by simp [Desc.strm, hop, hunit]
  have hfield : strmField e = fun x => { x with add := some e.id } := by
    funext x
    rw [strmField, if_neg (by rw [hop]; decide)]
  have hx : exec (.add d) s = .next (addOp e (issue 0 d.val e s)) := by
    show execAdd d s = _
    simp only [execAdd, hp, hop, if_true]
  obtain ⟨y, -, hy⟩ := issue_updSch 0 d.val e s
  rw [hx, hy, ← hfield]
  refine congrArg Host.Outcome.next ((strmIssue_binds (s := s.updSch fun _ => y) hk (by rw [hop]; exact hfree) habort hbad).trans ?_)
  rw [← hunit]
  exact addGo_runs (s := strmBind _ e.d (strmField e) (s.updSch fun _ => y)) hw hint hclean

/-! ## Parity (R170) -/

theorem exec_sheetParity {d : Die} {c : Fin 8} {x : Entry} {s : State} (hon : s.pageOff (pgSHEET d.val) = false)
    (hsvc : bit (s.reg (pgSHEET d.val) 0x104) c.val = true) (hx : s.entry? x.id = some x) (hop : isCodecOp d.val x = true)
    (href : isRefetch x = false) (hst : x.st = .active) : exec (.sheetParity d c (some x.id)) s =
      .next (raiseEv (pgSHEET d.val) 0x828 3 ((faultOp x.id 0x1C 0 s).setReg (pgSHEET d.val) 0x104
        (setBit (s.reg (pgSHEET d.val) 0x104) c.val false))) := by
  show execSheetParity d c (some x.id) s = _
  simp only [execSheetParity, hon, hsvc, hx, hop, href, hst, Bool.not_true, Bool.not_false, Bool.or_false, Bool.and_true,
    decide_true, Bool.false_eq_true, if_false, if_true]

/-- The codec's bit clears, the operation that it held faults, and the event is raised. -/
theorem sheetParity_faults {p n id : Nat} {v : Word} {e : Entry} {s : State} (hon : s.pageOff p = false) (hx : s.entry? id = some e)
    (hid : e.id = id) (hfault : e.canFault) :
    let t := raiseEv p 0x828 3 ((faultOp id n 0 s).setReg p 0x104 v)
    t.regs = (s.setReg p 0x104 v).regs ∧ Served id (.faulted n 0) s t ∧ Raised p 0x828 3 s t := by
  intro t
  have hk := (raiseEv_k p 0x828 3 ((faultOp id n 0 s).setReg p 0x104 v)).only
  have hsch : t.sch = (faultOp id n 0 s).sch := (hk .sch (by decide)).trans (State.setReg_sch ..)
  have hon' : ((faultOp id n 0 s).setReg p 0x104 v).pageOff p = false := (State.setReg_pageOff_eq ..).trans hon
  have hregs : ((faultOp id n 0 s).setReg p 0x104 v).regs = (s.setReg p 0x104 v).regs := by
    rw [State.setReg_regs, State.setReg_regs]
    rfl
  have hcnts : s.cnts = ((faultOp id n 0 s).setReg p 0x104 v).cnts := by
    rw [State.setReg_cnts]
    rfl
  have hpages : s.pages = ((faultOp id n 0 s).setReg p 0x104 v).pages := by
    rw [State.setReg_pages]
    rfl
  refine ⟨(hk .regs (by decide)).trans hregs, ⟨?_, ?_, fun i hi => ?_⟩, (raiseEv_raised hon').of_same hcnts hpages rfl rfl⟩
  · rw [stOf_of_sch hsch, faultOp_st, State.stOf, hx, Option.map_some, hfault.1]
  · rw [workOf_of_sch hsch, faultOp_work hx hfault hid]
  · rw [entry_of_sch hsch, faultOp_other hi]

/-- Settles O25: each operation is what its row does on the state in which it is issued, which differs from the one before in the
scheduler alone. -/
theorem sheetOperations : Obligations.SheetOperations := by
  unfold Obligations.SheetOperations
  refine ⟨?pack, ?wave, ?bound, ?refetch, ?add, ?parity⟩
  case pack =>
    intro d e k b s hp hop hsvc hcb hqb hdone
    obtain ⟨hmem, -, hunit⟩ := codecPick_unit hp
    obtain ⟨y, hsch, hy⟩ := issue_updSch 2 d.val e s
    rw [← hunit] at hcb hqb
    have hx : exec (.pack d) s = .next (setWork e.id .finished
        (countPacked e.d.unit (packAll e.d.packBase b.sheets) (bindCb e b (s.updSch fun _ => y)))) := by
      refine congrArg Host.Outcome.next ((codecIssue_run hp (decide_eq_true hop) hsvc).trans ?_)
      rw [hy]
      exact packOp_packs (s := s.updSch fun _ => y) hcb hqb hdone
    refine ⟨_, hx, served_issue hmem (((countPacked_k ..).only .sch (by decide)).trans hsch), ?_, ((execPack_k d s).get hx).only⟩
    rw [← hunit]
    exact packed_cb
  case wave =>
    intro d e k w s s1 u hp hop href hdest hclaim hfed hbad hfelt hsvc hcw hdone hw hint hclean
    obtain ⟨y, -, hy⟩ := issue_updSch 2 d.val e s
    have hgo : expandGo e s1 = expandSettle e u := by
      have hs1 : s1 = s.updSch fun _ => y := hy
      have hcw1 : s1.expandCw e = some k := hs1 ▸ hcw
      have hdone1 : s1.cwComplete k = true := hs1 ▸ hdone
      have hw1 : s1.waveOn e.d = some w := hs1 ▸ hw
      have hclean1 : s1.wavePoisoned w = false := hs1 ▸ hclean
      have helems : s1.waveElems e.d.job.val w = s.waveElems e.d.job.val w := by rw [hs1]; rfl
      rw [expandGo_runs hcw1 hdone1 hw1 hint hclean1 hclaim, expandRun_wave hdest, helems]
    have hx : exec (.expand d) s = .next (expandSettle e u) :=
      (exec_expand hp hop href hfed hbad hfelt hsvc hcw).trans
        (congrArg Host.Outcome.next ((strmIssue_wave hop hdest).trans hgo))
    have hk := (expandSettle_k e u).only
    refine ⟨_, hx, hk .vat (by decide), hk .sheet (by decide), hk .ring (by decide), fun i hi => expandSettle_other hi u,
      fun hd hst hwork => ?_, fun hd => ?_, ((execExpand_k d s).get hx).only⟩
    · rw [expandSettle_wave hdest, hd]
      exact (served_finish hst hwork fun _ _ => rfl).2.1
    · rw [expandSettle_wave hdest, hd]
      rfl
  case bound =>
    intro d e k w s j sk s1 s2 hp hop href hfed hbad hfelt hsvc hcw hdone hw hint hclean hstrm
    have hx : exec (.expand d) s = .next (expandGo e s2) :=
      exec_expand_bound hp hop href hfed hbad hfelt hsvc hcw hstrm
    obtain ⟨y, z, hs2⟩ : ∃ y z, s2 = (s.updSch fun _ => y).updSheet fun _ => z := expandBound_shape d.val e s
    have hcw2 : s2.expandCw e = some k := hs2 ▸ hcw
    have hdone2 : s2.cwComplete k = true := hs2 ▸ hdone
    have hw2 : s2.waveOn e.d = some w := hs2 ▸ hw
    have hclean2 : s2.wavePoisoned w = false := hs2 ▸ hclean
    refine ⟨fun hclaim => ⟨_, hx, expandGo_runs hcw2 hdone2 hw2 hint hclean2 hclaim⟩, ?_⟩
    intro round eb hclaim hplace s3
    have hplace2 : s2.cwWave j k = some (round, e.d.ream, eb, e.d.vslots) := by
      rw [hs2, cwWave_upd]
      exact hplace
    have hmir : s2.replayOf e = s.replayOf e := by rw [hs2]; rfl
    have hw3 := placeWave_waveOn (round := round) (eb := eb) (mir := (s2.replayOf e).map fun i => i.npad) hw2
    have hgo := expandGo_places hcw2 hdone2 hw2 hint hclean2 hclaim hplace2 hw3
    rw [hmir] at hw3 hgo
    exact ⟨_, hx, _, hw3, rfl, rfl, rfl, hgo⟩
  case refetch =>
    intro d e s hp hop href hsvc
    obtain ⟨hmem, -, -⟩ := codecPick_unit hp
    have hx : exec (.expandRefetch d) s = .next (expandRefetchOp e (issue 2 d.val e s)) :=
      congrArg Host.Outcome.next (codecIssue_run hp (by simp [hop, href]) hsvc)
    refine ⟨_, hx, ((execExpandRefetch_k d s).get hx).only, ?_⟩
    unfold expandRefetchOp
    cases (issue 2 d.val e s).refetchTarget e.d.job.val e.d.packBase with
    | none => exact served_issue hmem rfl
    | some x => rfl
  case add =>
    intro d e w s k hp hop hw hint hclean hfree habort hbad
    have hx := exec_add hp hop hw hint hclean hfree habort hbad
    have hsheet : (issue 0 d.val e s).sheet = s.sheet := (issue_k 0 d.val e s).only .sheet (by decide)
    refine ⟨_, hx, fun hnone => ?_, fun x hsome => ?_, ((execAdd_k d s).get hx).only⟩
    · obtain ⟨hfind, hkeep⟩ := strmRun_new (id := e.id) (d := e.d) (s := issue 0 d.val e s) (hsheet ▸ hnone)
      have hsch := hkeep.only .sch (by decide)
      exact ⟨hfind, (stOf_of_sch hsch e.id).trans (issue_stOf (mem_of_vatPick hp)),
        fun i hi => (entry_of_sch hsch i).trans ((issue_entry 0 d.val e i s).trans (if_neg hi)),
        (((issue_k 0 d.val e s).mono (m := [.sch, .sheet]) (by decide)).step hkeep (by decide)).only⟩
    · rw [strmBind_bound (hsheet ▸ hsome)]
  case parity =>
    intro d c x s hon hsvc hx hop href hfault
    have he := exec_sheetParity hon hsvc hx hop href hfault.1
    obtain ⟨hregs, hserved, hraised⟩ := sheetParity_faults (p := pgSHEET d.val) (n := 0x1C)
      (v := setBit (s.reg (pgSHEET d.val) 0x104) c.val false) hon hx rfl hfault
    exact ⟨_, he, hregs, hserved, hraised, ((execSheetParity_k d c (some x.id) s).get he).only⟩

end Sys2Proof.Machine
end

section
/-! PROOF. Chunk-waves on the ring and off it (R164, R183, R186, R188), the return multicast (R215, R217, R249) and the buddy copy
(R251). -/
namespace Sys2Proof.Machine

open Sys2Proof

/-! ## Entries that are served -/

theorem served_of_entry {id : Nat} {w : Work} {x : Entry} {s t : State} (hx : t.entry? id = some x) (hst : x.st = .active)
    (hwork : x.work = w) (ho : ∀ i, i ≠ id → t.entry? i = s.entry? i) : Served id w s t :=
  ⟨by rw [State.stOf, hx, Option.map_some, hst], by rw [State.workOf, hx, Option.map_some, hwork], ho⟩

/-- A running operation that finishes shows it in its entry. -/
theorem finish_entry {id : Nat} {e : Entry} {s : State} (h : s.entry? id = some e) (hst : e.st = .active) (hwork : e.work = .running)
    (i : Nat) : (finish id s).entry? i = if i = id then some { e with work := .finished } else s.entry? i := by
  have h1 : s.stOf id = some .active := by rw [State.stOf, h, Option.map_some, hst]
  have h2 : s.workOf id = some .running := by rw [State.workOf, h, Option.map_some, hwork]
  rw [finish_run h1 h2, setWork_entry]
  split
  · next hi => rw [hi, h, Option.map_some]
  · rfl

/-- A line die's operation that has been issued: it is ACTIVE and as far as it was, and no other entry has moved. -/
theorem issued_running {c u : Nat} {e : Entry} {s : State} (hmem : e ∈ s.sch.ops) (he : s.entry? e.id = some e)
    (hwork : e.work = .running) : (issue c u e s).stOf e.id = some .active ∧ (issue c u e s).workOf e.id = some .running ∧
      ∀ i, i ≠ e.id → (issue c u e s).entry? i = s.entry? i :=
  ⟨issue_stOf hmem, (issue_workOf he).trans (congrArg some hwork), fun i hi => (issue_entry c u e i s).trans (if_neg hi)⟩

/-! ## SEND and RECV (R164, R183, R188) -/

theorem sendOp_sends {e : Entry} {k i : Nat} {b : CBuf} {s : State} (hcw : s.cwOf e.d = some k)
    (hcb : s.cbOf e.d.unit e.d.job.val e.d.qbid = some (i, b)) (hdone : b.done = true) (hcrc : ∀ x ∈ b.sheets, crcOk x = true) :
    sendOp e s = sendSheets e k b.sheets s := by
  have hbad : b.sheets.countP (fun x => !crcOk x) = 0 := List.countP_eq_zero.2 fun x hx => by simp [hcrc x hx]
  unfold sendOp
  simp only [hcw, hcb, hdone, hbad, Bool.not_true, Bool.false_eq_true, if_false, gt_iff_lt, Nat.lt_irrefl]

theorem sendFwdOp_sends {e : Entry} {k k' : Nat} {r : RxCw} {s : State} (hcw : s.cwOf e.d = some k') (hfrom : s.fwdFrom e = some k)
    (hrx : s.rx? k = some r) (hrecvd : r.recvd = true)
    (hcrc : ∀ i, i < r.nsheet.getD 0 → crcOk ((SMap.find r.sheets i).getD []) = true) (hdmg : s.dmgOf e.id = false) :
    sendFwdOp e s = sendSheets e k' r.all s := by
  have hbad : (List.range (r.nsheet.getD 0)).filter (fun i => !crcOk ((SMap.find r.sheets i).getD [])) = [] :=
    List.filter_eq_nil_iff.2 fun i hi => by simp [hcrc i (List.mem_range.1 hi)]
  unfold sendFwdOp fwdRun
  simp only [hfrom, hrx, hrecvd, hcw, hdmg, hbad, Bool.not_true, Bool.false_eq_true, if_false, List.isEmpty_nil, if_true]

theorem recvOp_eq (e : Entry) (s : State) :
    recvOp e s = if ((s.cwOf e.d).bind s.rx?).any (·.receipt) then finish e.id s else s := by
  unfold recvOp
  cases hk : s.cwOf e.d with
  | none => rfl
  | some k =>
    cases hr : s.rx? k with
    | none => simp [hr]
    | some r => simp [hr]

/-! ## Sets of contributors -/

theorem bitsNat_eq_sum (l : List Nat) : bitsNat l = (l.map fun i => 2 ^ i).sum := by
  have h : ∀ (l : List Nat) (a : Nat), l.foldl (fun a i => a + 2 ^ i) a = a + (l.map fun i => 2 ^ i).sum := by
    intro l
    induction l with
    | nil => exact fun _ => rfl
    | cons i l ih =>
      intro a
      rw [List.foldl_cons, ih, List.map_cons, List.sum_cons, Nat.add_assoc]
  exact (h l 0).trans (Nat.zero_add _)

theorem bitsNat_cons (a : Nat) (l : List Nat) : bitsNat (a :: l) = 2 ^ a + bitsNat l := by
  rw [bitsNat_eq_sum, bitsNat_eq_sum, List.map_cons, List.sum_cons]

/-- Below a number whose low bits are clear, a bit is added by setting it. -/
theorem two_pow_add_eq_or {a x : Nat} (h : ∀ i, i ≤ a → x.testBit i = false) : 2 ^ a + x = 2 ^ a ||| x := by
  have hlow : x % 2 ^ (a + 1) = 0 := by
    refine Nat.eq_of_testBit_eq fun i => ?_
    rw [Nat.testBit_mod_two_pow, Nat.zero_testBit]
    by_cases hi : i < a + 1
    · rw [h i (Nat.le_of_lt_succ hi), Bool.and_false]
    · rw [decide_eq_false hi, Bool.false_and]
  have hx : 2 ^ (a + 1) * (x / 2 ^ (a + 1)) = x := Nat.mul_div_cancel' (Nat.dvd_of_mod_eq_zero hlow)
  have hor := Nat.two_pow_add_eq_or_of_lt (Nat.pow_lt_pow_right Nat.one_lt_two (Nat.lt_succ_self a)) (x / 2 ^ (a + 1))
  rw [hx] at hor
  rw [Nat.add_comm, hor, Nat.or_comm]

theorem testBit_bitsNat {l : List Nat} (h : l.Pairwise (· < ·)) (i : Nat) : (bitsNat l).testBit i = decide (i ∈ l) := by
  induction l generalizing i with
  | nil => exact Nat.zero_testBit i
  | cons a l ih =>
    obtain ⟨hlt, hl⟩ := List.pairwise_cons.1 h
    have hlow : ∀ i, i ≤ a → (bitsNat l).testBit i = false := fun i hi =>
      (ih hl i).trans (decide_eq_false fun hmem => Nat.not_lt.2 hi (hlt i hmem))
    rw [bitsNat_cons, two_pow_add_eq_or hlow, Nat.testBit_or, Nat.testBit_two_pow, ih hl, ← Bool.decide_or]
    exact decide_eq_decide.2 (by rw [List.mem_cons, eq_comm])

/-- Places of a bit vector that are picked, set in one again, are the places that were picked. -/
theorem setIdx_bitsNat_filter {w : Nat} (v : BitVec w) (p : Nat → Bool) :
    setIdx (BitVec.ofNat w (bitsNat ((setIdx v).filter p))) = (setIdx v).filter p := by
  have hsorted : ((setIdx v).filter p).Pairwise (· < ·) := ((List.pairwise_lt_range (n := w)).filter _).filter _
  have hmem : ∀ i ∈ List.range w, (BitVec.ofNat w (bitsNat ((setIdx v).filter p))).getLsbD i = (p i && v.getLsbD i) := by
    intro i hi
    have hlt : i < w := List.mem_range.1 hi
    rw [BitVec.getLsbD_ofNat, testBit_bitsNat hsorted, Bool.eq_iff_iff]
    simp [setIdx, hlt]
  rw [setIdx, List.filter_congr hmem]
  simp only [setIdx, List.filter_filter]

theorem setIdx_eq_nil_iff {w : Nat} (v : BitVec w) (p : Nat → Bool) :
    BitVec.ofNat w (bitsNat ((setIdx v).filter p)) = 0 ↔ (setIdx v).filter p = [] := by
  constructor
  · intro h
    have h0 := setIdx_bitsNat_filter v p
    rw [h] at h0
    rw [← h0]
    simp [setIdx]
  · intro h
    rw [h]
    rfl

theorem and_not_zero {w : Nat} (x : BitVec w) : x &&& ~~~ (0 : BitVec w) = x := by
  rw [show (0 : BitVec w) = 0#w from rfl, BitVec.not_zero, BitVec.and_allOnes]

/-! ## SCATTER (R215, R217, R249) -/

/-- A SCATTER of which nobody is left to acknowledge finishes. -/
theorem scatterSettle_entry {id : Nat} {e : Entry} {s : State} (h : s.entry? id = some e) (hop : e.d.opcode = 9) (hst : e.st = .active)
    (hwork : e.work = .running) (i : Nat) : (scatterSettle id s).entry? i = if i = id then
      some { e with work := if e.cset &&& ~~~ e.acked = 0 then .finished else .running } else s.entry? i := by
  unfold scatterSettle
  simp only [h, hop, decide_true, Bool.true_and, decide_eq_true_eq]
  split
  · exact finish_entry h hst hwork i
  · split
    · next hi => rw [hi, h, ← hwork]
    · rfl

/-- A pass takes the next 64 of those that are left, and leaves every other entry. -/
theorem scatterPass_entry {id : Nat} {e : Entry} {w : Wave} {s : State} (h : s.entry? id = some e) (hw : s.waveOn e.d = some w) (i : Nat) :
    (scatterPass id s).entry? i = if i = id then
      some { e with todo := e.todo &&& ~~~ BitVec.ofNat 512 (bitsNat ((setIdx e.todo).take 64)) } else s.entry? i := by
  unfold scatterPass
  simp only [h, hw]
  rw [entry_of_sch ((scatPump_k ..).only .sch (by decide)),
    entry_of_sch (forAll_inv (P := fun t : State => t.sch = _) (fun a t ht => ((returnWrite_k ..).only .sch (by decide)).trans ht) _ _ rfl),
    updEntry_entry]
  · split
    · next hi => rw [hi, h, Option.map_some]
    · rfl
  · exact fun _ => rfl

/-- A SCATTER begins: its first pass goes, and where it has no contributor it is finished at once. -/
theorem scatterGo_begins {id : Nat} {e : Entry} {w : Wave} {s : State} (h : s.entry? id = some e) (hop : e.d.opcode = 9)
    (hst : e.st = .active) (hwork : e.work = .running) (hw : s.waveOn e.d = some w) (hacked : e.acked = 0) (htodo : e.todo = e.cset)
    (i : Nat) : (scatterGo id s).entry? i = if i = id then
      some { e with todo := e.todo &&& ~~~ BitVec.ofNat 512 (bitsNat ((setIdx e.todo).take 64))
                    work := if e.cset = 0 then .finished else .running } else s.entry? i := by
  have hfirst : e.cset &&& ~~~ e.acked &&& ~~~ e.todo = 0 := by
    rw [hacked, htodo, and_not_zero]
    exact BitVec.and_not_self _
  have hleft : e.cset &&& ~~~ e.acked = e.cset := by rw [hacked, and_not_zero]
  unfold scatterGo
  simp only [h, hfirst, decide_true, Bool.true_and]
  by_cases h0 : e.todo = 0
  · have hrest : ∀ x : BitVec 512, e.todo &&& x = e.todo := fun x => by rw [h0]; exact BitVec.zero_and
    rw [decide_eq_false (not_not_intro h0), whenD, if_neg Bool.false_ne_true, scatterSettle_entry h hop hst hwork, hleft, hrest]
  · rw [decide_eq_true h0, whenD, if_pos rfl]
    have hp := scatterPass_entry h hw
    rw [scatterSettle_entry ((hp id).trans (if_pos rfl)) hop hst hwork, hp, hleft]
    split <;> rfl

/-- The contributors of the collection map that a SCATTER can reach (R215). -/
def State.scatterSet (s : State) (j : Nat) : List Nat := (setIdx (s.cmap j)).filter fun c => !s.scatterOut j c

/-- The bits of those contributors. -/
def State.scatterMask (s : State) (j : Nat) : BitVec 512 := BitVec.ofNat 512 (bitsNat (s.scatterSet j))

/-- A SCATTER notes its contributors, and those that it leaves out are counted. -/
def scatterBegin (e : Entry) (s : State) : State :=
  updEntry e.id (fun x => { x with cset := s.scatterMask e.d.job.val, todo := s.scatterMask e.d.job.val })
    (bumpEv pgOUTER 0x808 2 ((setIdx (s.cmap e.d.job.val)).length - (s.scatterSet e.d.job.val).length) s)

theorem scatterOp_begins {e : Entry} {w : Wave} {acks : BitVec 512} {s : State} (hw : s.waveOn e.d = some w)
    (hret : w.content = .ret) (hclean : s.wavePoisoned w = false) :
    scatterOp e acks s = scatterAcks e.id acks (scatterGo e.id (scatterBegin e s)) := by
  have hout : (setIdx (s.cmap e.d.job.val)).countP (s.scatterOut e.d.job.val) =
      (setIdx (s.cmap e.d.job.val)).length - (s.scatterSet e.d.job.val).length := by
    rw [State.scatterSet, ← countP_not]
    simp only [Bool.not_not]
  unfold scatterOp scatterBegin
  simp only [hw, hret, hclean, hout, ne_eq, not_true_eq_false, if_false, Bool.false_eq_true]
  rfl

theorem scatterBegin_k (e : Entry) (s : State) : KeepsIn [.sch, .host, .pages, .cnts] s (scatterBegin e s) :=
  ((bumpEv_k ..).mono (m := [.sch, .host, .pages, .cnts]) (by decide)).step (updEntry_k ..) (by decide)

theorem waveOn_of_vat {s t : State} (h : t.vat = s.vat) (d : Desc) : t.waveOn d = s.waveOn d := by
  unfold State.waveOn State.wave?
  rw [h]

/-- The entry of a SCATTER that has begun: it is through where it reaches no contributor, and else its first 64 are being written. -/
theorem scatterGo_begin_entry {e x : Entry} {w : Wave} {s : State} (h : s.entry? e.id = some x) (hop : x.d.opcode = 9)
    (hst : x.st = .active) (hwork : x.work = .running) (hacked : x.acked = 0) (hw : s.waveOn x.d = some w) (i : Nat) :
    let m := s.scatterMask e.d.job.val
    (scatterGo e.id (scatterBegin e s)).entry? i = if i = e.id then
      some { x with cset := m, todo := m &&& ~~~ BitVec.ofNat 512 (bitsNat ((s.scatterSet e.d.job.val).take 64))
                    work := if s.scatterSet e.d.job.val = [] then .finished else .running } else s.entry? i := by
  intro m
  have hbegin : ∀ i, (scatterBegin e s).entry? i = if i = e.id then some { x with cset := m, todo := m } else s.entry? i := by
    intro i
    unfold scatterBegin
    rw [updEntry_entry, entry_of_sch ((bumpEv_k ..).only .sch (by decide))]
    · split
      · next hi => rw [hi, h, Option.map_some]
      · rfl
    · exact fun _ => rfl
  have hwave : (scatterBegin e s).waveOn x.d = some w := (waveOn_of_vat ((scatterBegin_k e s).only .vat (by decide)) x.d).trans hw
  have hset : setIdx m = s.scatterSet e.d.job.val := setIdx_bitsNat_filter ..
  have hnone : m = 0 ↔ s.scatterSet e.d.job.val = [] := setIdx_eq_nil_iff ..
  rw [scatterGo_begins ((hbegin e.id).trans (if_pos rfl)) hop hst hwork hwave hacked rfl, hbegin]
  simp only [hset, hnone]
  split <;> rfl

/-- Where no contributor waits for a pass, a SCATTER can only finish. -/
theorem scatterGo_last {id : Nat} {e : Entry} {s : State} (h : s.entry? id = some e) (htodo : e.todo = 0) :
    scatterGo id s = scatterSettle id s := by
  unfold scatterGo
  simp only [h, htodo, ne_eq, not_true_eq_false, decide_false, Bool.and_false, whenD, Bool.false_eq_true, if_false]

/-- What contributors acknowledge of a SCATTER that has no pass left. -/
theorem scatterMark_entry {id : Nat} {acks : BitVec 512} {e : Entry} {s : State} (h : s.entry? id = some e) (hop : e.d.opcode = 9)
    (hst : e.st = .active) (hwork : e.work = .running) (htodo : e.todo = 0) (i : Nat) :
    (scatterMark id acks s).entry? i = if i = id then
      some { e with acked := e.acked ||| acks &&& e.cset
                    work := if e.cset &&& ~~~ (e.acked ||| acks) = 0 then .finished else .running } else s.entry? i := by
  have hset : acks &&& e.cset &&& ~~~ e.todo = acks &&& e.cset := by rw [htodo, and_not_zero]
  have hleft : e.cset &&& ~~~ (e.acked ||| acks &&& e.cset) = e.cset &&& ~~~ (e.acked ||| acks) := by
    ext n hn
    simp only [BitVec.getElem_and, BitVec.getElem_not, BitVec.getElem_or]
    cases e.cset[n] <;> simp
  have hu := updEntry_entry id id (fun x => { x with acked := x.acked ||| (acks &&& x.cset &&& ~~~ x.todo) }) (fun _ => rfl) s
  rw [if_pos rfl, h, Option.map_some, hset] at hu
  unfold scatterMark
  rw [scatterGo_last hu htodo, scatterSettle_entry hu hop hst hwork, hleft,
    updEntry_entry id i (fun x => { x with acked := x.acked ||| (acks &&& x.cset &&& ~~~ x.todo) }) (fun _ => rfl)]
  split <;> rfl

/-! ## COPY (R251) -/

/-- A COPY notes itself as a reader of the transmit copy, where that is what it reads. -/
def copyRead (e : Entry) (k : Nat) (s : State) : State :=
  ((s.tx? k).map fun x => updEntry e.id (fun y => { y with pos := k + 1 }) (putTx k { x with reads := x.reads + 1 } s)).getD s

/-- The copy's sheets are posted on its COPY queue pair. -/
def copyPost (e : Entry) (k : Nat) (sheets : List (List Byte)) (q : Qp) (s : State) : State :=
  rdmaPost (cdInput e.d.unit) q.qpn q.copyVa.toNat q.copyKey sheets.flatten.length (some (wd e.d.rseq)) (.felt k) (.copy e.id) s

theorem copyOp_posts {e : Entry} {k : Nat} {sheets : List (List Byte)} {q : Qp} {ack : Bool} {s : State}
    (hsrc : s.copySrc e = some (k, sheets)) (hq : s.copyQp? e.d.job.val (e.d.arg 16 13) = some q) :
    copyOp e ack s = whenD ack (copyAck e.id) (copyPost e k sheets q (copyRead e k s)) := by
  unfold copyOp copyPost copyRead
  simp only [hsrc, hq]
  cases s.tx? k <;> rfl

theorem copyRead_k (e : Entry) (k : Nat) (s : State) : KeepsIn [.sch, .ring] s (copyRead e k s) := by
  unfold copyRead
  cases s.tx? k with
  | none => exact KeepsIn.refl s
  | some x => exact ((putTx_k ..).mono (m := [.sch, .ring]) (by decide)).step (updEntry_k ..) (by decide)

theorem copyRead_tx (e : Entry) (k i : Nat) (s : State) : (copyRead e k s).tx? i =
    if i = k then (s.tx? k).map fun x => { x with reads := x.reads + 1 } else s.tx? i := by
  unfold copyRead
  cases hx : s.tx? k with
  | none =>
    split
    · next hi => rw [hi]; exact hx
    · rfl
  | some x => exact SMap.find_put ..

theorem copyRead_stOf (e : Entry) (k i : Nat) (s : State) : (copyRead e k s).stOf i = s.stOf i := by
  unfold copyRead
  cases s.tx? k with
  | none => rfl
  | some x => exact updEntry_stOf (f := fun y => { y with pos := k + 1 }) (fun _ => ⟨rfl, rfl⟩) i _

theorem copyRead_workOf (e : Entry) (k i : Nat) (s : State) : (copyRead e k s).workOf i = s.workOf i := by
  unfold copyRead
  cases s.tx? k with
  | none => rfl
  | some x => exact updEntry_workOf (f := fun y => { y with pos := k + 1 }) (fun _ => ⟨rfl, rfl⟩) i _

theorem copyRead_other {e : Entry} {i : Nat} (hi : i ≠ e.id) (k : Nat) (s : State) : (copyRead e k s).entry? i = s.entry? i := by
  unfold copyRead
  cases s.tx? k with
  | none => rfl
  | some x => exact (updEntry_entry e.id i (fun y => { y with pos := k + 1 }) (fun _ => rfl) _).trans (if_neg hi)

/-! ## The switch core's operation (R45, R249) -/

theorem swNext_spec {s : State} {op : Nat} {e : Entry} (h : s.swNext op = some e) : e ∈ s.sch.ops ∧ e.d.opcode = op := by
  unfold State.swNext at h
  obtain ⟨hp, hop⟩ := Option.filter_eq_some_iff.1 h
  exact ⟨(pick_spec hp).1, of_decide_eq_true hop⟩

/-- What reaches a contributor is what does not leave it out (R215). -/
theorem scatterOut_not (s : State) (j c : Nat) : (!s.scatterOut j c) = (bit (s.reg pgOUTER 0x110 (ctIx j c)) 31 &&
    (bit (s.ctGqpn j c) 31 && (s.qp? (BitVec.ofNat 24 (fld (s.ctGqpn j c) 0 24))).any fun q => decide (q.state = 3))) := by
  unfold State.scatterOut
  cases s.qp? (BitVec.ofNat 24 (fld (s.ctGqpn j c) 0 24)) <;>
    simp [Bool.not_or, Bool.and_assoc]

/-- Settles O26: each operation acts on the state in which it is issued, and posting messages leaves the scoreboard. -/
theorem ringOperations : Obligations.RingOperations := by
  unfold Obligations.RingOperations
  refine ⟨?send, ?fwd, ?recv, ?scatter, ?acks, ?mark, ?copy, ?ack, ?done⟩
  case send =>
    intro p e k i b segs u s s1 alone hp hop hfwd he hwork hcw hcb hdone hcrc hseal
    obtain ⟨hst, hrun, hother⟩ := issued_running (c := 3) (u := p.val) (pick_spec hp).1 he hwork
    obtain ⟨y, -, hy⟩ := issue_updSch 3 p.val e s
    have hx : exec (.send p) s = .next (sendSheets e k b.sheets s1) := by
      refine congrArg Host.Outcome.next ((lineIssue_run hp (by simp [hop, hfwd])).trans ?_)
      have hs1 : s1 = s.updSch fun _ => y := hy
      show sendOp e s1 = _
      rw [hs1]
      exact sendOp_sends (s := s.updSch fun _ => y) hcw hcb hdone hcrc
    obtain ⟨hserved, htx⟩ := sendSheets_run hseal hst hrun
    exact ⟨_, hx, served_trans hserved hother, htx, ((execSend_k p s).get hx).only⟩
  case fwd =>
    intro p e k k' r segs u s s1 hp hop hfwd he hwork hcw hfrom hrx hrecvd hcrc hdmg hseal
    obtain ⟨hst, hrun, hother⟩ := issued_running (c := 3) (u := p.val) (pick_spec hp).1 he hwork
    obtain ⟨y, -, hy⟩ := issue_updSch 3 p.val e s
    have hx : exec (.sendFwd p) s = .next (sendSheets e k' r.all s1) := by
      refine congrArg Host.Outcome.next ((lineIssue_run hp (by simp [hop, hfwd])).trans ?_)
      have hs1 : s1 = s.updSch fun _ => y := hy
      show sendFwdOp e s1 = _
      rw [hs1]
      exact sendFwdOp_sends (s := s.updSch fun _ => y) hcw hfrom hrx hrecvd hcrc hdmg
    obtain ⟨hserved, htx⟩ := sendSheets_run hseal hst hrun
    exact ⟨_, hx, served_trans hserved hother, ⟨_, htx, rfl, rfl, rfl⟩, ((execSendFwd_k p s).get hx).only⟩
  case recv =>
    intro p e s hp hop he hwork
    obtain ⟨hst, hrun, hother⟩ := issued_running (c := 3) (u := p.val) (pick_spec hp).1 he hwork
    obtain ⟨y, -, hy⟩ := issue_updSch 3 p.val e s
    have hreceipt : ((issue 3 p.val e s).cwOf e.d).bind (issue 3 p.val e s).rx? = (s.cwOf e.d).bind s.rx? := by
      rw [hy]
      rfl
    have hx : exec (.recv p) s = .next (recvOp e (issue 3 p.val e s)) :=
      congrArg Host.Outcome.next (lineIssue_run hp (decide_eq_true hop))
    refine ⟨_, hx, ?_, ((execRecv_k p s).get hx).only⟩
    rw [recvOp_eq, hreceipt]
    split
    · exact served_finish hst hrun hother
    · exact ⟨hst, hrun, hother⟩
  case scatter =>
    intro acks e w s j all qpOk set m u hnext he hwork hcset hacked htodo hw hret hream hclean
    obtain ⟨hmem, hop⟩ := swNext_spec hnext
    obtain ⟨y, -, hy⟩ := issue_updSch 4 0 e s
    have hset : set = (issue 4 0 e s).scatterSet j := by
      rw [hy]
      exact List.filter_congr fun c _ => (scatterOut_not s j c).symm
    have hall : all = setIdx ((issue 4 0 e s).cmap j) := by
      rw [hy]
      rfl
    have hm : m = (issue 4 0 e s).scatterMask j := congrArg (fun l => BitVec.ofNat 512 (bitsNat l)) hset
    have hu : u = scatterGo e.id (scatterBegin e (issue 4 0 e s)) := by
      unfold scatterBegin
      rw [← hset, ← hm, ← hall]
    have hx : exec (.scatter acks) s = .next (scatterAcks e.id acks u) := by
      have h0 : exec (.scatter acks) s = .next (scatterOp e acks (issue 4 0 e s)) := by
        show execScatter acks s = _
        simp only [execScatter, hnext]
      rw [h0, hu]
      refine congrArg Host.Outcome.next (scatterOp_begins (w := w) ?_ hret ?_)
      · rw [hy]
        exact hw
      · rw [hy]
        exact hclean
    have hissued : (issue 4 0 e s).entry? e.id = some { e with st := .active, stalled := false } := by
      rw [issue_entry, if_pos rfl, he, Option.map_some]
    have hentry := scatterGo_begin_entry (w := w) hissued hop rfl hwork hacked (by rw [hy]; exact hw)
    simp only [← hu] at hentry
    have hself := (hentry e.id).trans (if_pos rfl)
    refine ⟨_, hx, rfl, fun i hi => ?_, ?_, ?_, ?_, ?_, ?_, ((execScatter_k acks s).get hx).only⟩
    · rw [hentry, if_neg hi, issue_entry, if_neg hi]
    · rw [State.stOf, hself, Option.map_some]
    · rw [hself, Option.map_some, hm]
    · rw [hself, Option.map_some, hacked]
    · rw [hself, Option.map_some, hm, hset]
    · rw [State.workOf, hself, Option.map_some, hset]
  case acks =>
    intro acks e s hnext hfirst
    have hx : exec (.scatter acks) s = .next (scatterAcks e.id acks s) := by
      show execScatter acks s = _
      simp only [execScatter, hnext, hfirst]
    exact ⟨_, hx, rfl, ((execScatter_k acks s).get hx).only⟩
  case mark =>
    intro id acks e s he hop hst hwork htodo
    have hentry := scatterMark_entry (acks := acks) he hop hst hwork htodo
    have hself := (hentry id).trans (if_pos rfl)
    exact ⟨served_of_entry hself hst rfl fun i hi => (hentry i).trans (if_neg hi), by rw [hself, Option.map_some]⟩
  case copy =>
    intro e k sheets q s u v hnext he hwork hsrc hq
    obtain ⟨hmem, hop⟩ := swNext_spec hnext
    obtain ⟨hst, hrun, hother⟩ := issued_running (c := 4) (u := 0) hmem he hwork
    obtain ⟨y, -, hy⟩ := issue_updSch 4 0 e s
    have htx : ∀ i, (issue 4 0 e s).tx? i = s.tx? i := by
      intro i
      rw [hy]
      rfl
    have hu : u = copyRead e k (issue 4 0 e s) := by
      unfold copyRead
      rw [htx]
    have hv : v = copyPost e k sheets q (copyRead e k (issue 4 0 e s)) := by rw [← hu]; rfl
    have hx : ∀ ack, exec (.copy ack) s = .next (whenD ack (copyAck e.id) v) := by
      intro ack
      have h0 : exec (.copy ack) s = .next (copyOp e ack (issue 4 0 e s)) := by
        show execCopy ack s = _
        simp only [execCopy, hnext]
      rw [h0, hv, copyOp_posts (s := issue 4 0 e s) (by rw [hy]; exact hsrc) (by rw [hy]; exact hq)]
    have hpost : KeepsIn [.fab, .host, .mgmt, .pages, .cnts] (copyRead e k (issue 4 0 e s)) v := hv ▸ rdmaPost_k ..
    have hsch : v.sch = (copyRead e k (issue 4 0 e s)).sch := hpost.only .sch (by decide)
    have htxv : ∀ i, v.tx? i = if i = k then (s.tx? k).map fun x => { x with reads := x.reads + 1 } else s.tx? i := by
      intro i
      have hring : v.tx? i = (copyRead e k (issue 4 0 e s)).tx? i := by
        unfold State.tx?
        rw [hpost.only .ring (by decide)]
      rw [hring, copyRead_tx, htx, htx]
    refine ⟨⟨_, hx false, rfl, ⟨?_, ?_, fun i hi => ?_⟩, (htxv k).trans (if_pos rfl), fun i hi => (htxv i).trans (if_neg hi), ?_⟩,
      ⟨_, hx true, rfl, ((execCopy_k true s).get (hx true)).only⟩⟩
    · exact (stOf_of_sch hsch _).trans ((copyRead_stOf ..).trans hst)
    · exact (workOf_of_sch hsch _).trans ((copyRead_workOf ..).trans hrun)
    · exact (entry_of_sch hsch i).trans ((copyRead_other hi ..).trans (hother i hi))
    · exact ((((issue_k 4 0 e s).mono (m := [.sch, .ring, .fab, .host, .mgmt, .pages, .cnts]) (by decide)).step
        (copyRead_k ..) (by decide)).step hpost (by decide)).only
  case ack =>
    intro e s hnext hfirst
    have hx : exec (.copy true) s = .next (copyAck e.id s) := by
      show execCopy true s = _
      simp only [execCopy, hnext, hfirst]
      rfl
    exact ⟨_, hx, rfl, (copyAck_k e.id s).only⟩
  case done =>
    intro id e s he hst hwork
    have hentry := finish_entry he hst hwork
    exact served_of_entry ((hentry id).trans (if_pos rfl)) hst rfl fun i hi => (hentry i).trans (if_neg hi)

end Sys2Proof.Machine
end

section
/-! PROOF. O30 (R225, R442): where OUTER_MSGS_DELIVERED does not count a message delivered. -/
namespace Sys2Proof.Machine

open Sys2Proof

/-! ## A receive end with a whole message, on a page without a clock -/

/-- A queue pair in RTS that an RNR NAK holds: what is posted on it waits. -/
def rnrHeldQp : Qp :=
  { qpn := 0, job := 0, ctx := [0, 3], rate := Dy.ofInt 1, epsn := 0, spsn := 0, una := 0, nxt := 0, rnrWait := true }

/-- The message of `wholeMsgEnd`: one sheet of one byte, checked. -/
def oneSheet : StrmSheet := { sseq := 0, bytes := [0], ok := true }

/-- Its announcement. -/
def oneSheetAnn : StrmAnn := { first := 0, n := 1, tbytes := 1 }

/-- An UP receive end that holds a whole message. -/
def wholeMsgEnd : ScEnd := { st := 1, rx := [oneSheet], ann := [oneSheetAnn] }

/-- From reset: stream end 0 is VALID and RECEIVE, holds a whole message and delivers on queue pair 0; the domain of the OUTER page is
gated. -/
def gatedDelivery : State :=
  { State.reset with
    regs := [(regKey pgOUTER 0x144 0, 0xC0000000)]
    outer := { State.reset.outer with sc := [(0, wholeMsgEnd)] }
    fab := { State.reset.fab with qps := [(0, rnrHeldQp)] }
    clk := { State.reset.clk with doms := vset State.reset.clk.doms (pgDom pgOUTER) { gated := true } } }

theorem gatedDelivery_pageOff : gatedDelivery.pageOff pgOUTER = true := by decide

theorem gatedDelivery_qp : gatedDelivery.qp? (BitVec.ofNat 24 (gatedDelivery.regF pgOUTER 0x150 0 24 0)) = some rnrHeldQp := by
  decide

theorem gatedDelivery_nextMsg : (gatedDelivery.sc 0).nextMsg = some (oneSheetAnn, [oneSheet]) := by decide

theorem gatedDelivery_delivered_cnt {t : State} (h : exec (.streamDelivery 0) gatedDelivery = .next t) :
    t.cnt pgOUTER 0x820 = 0 := by
  have hc : (match exec (.streamDelivery 0) gatedDelivery with | .next u => u.cnt pgOUTER 0x820 | _ => 1) = 0 := by decide
  rw [h] at hc
  exact hc

/-- Refutes O30: STREAM_DELIVERY of a whole message on an end whose page has no clock (R442) delivers it, and OUTER_MSGS_DELIVERED,
which counts nothing there, stays at 0 where the fifth clause asks for 1. The clause has no hypothesis on the page's clock; the spec's own
modules do not reach the state, for the OUTER page's domain is one that no command gates (`domFixed`). -/
theorem not_streams : ¬ Obligations.Streams := by
  unfold Obligations.Streams
  rintro ⟨-, -, -, -, hdelivery, -⟩
  obtain ⟨t, ht, -, -, hcnt, -⟩ := hdelivery 0 oneSheetAnn [oneSheet] rnrHeldQp gatedDelivery
    (by decide) (by decide) gatedDelivery_qp (by decide) gatedDelivery_nextMsg (by decide) (by decide)
  have hone : min (gatedDelivery.cnt pgOUTER 0x820 + 1) (cntMax pgOUTER 0x820) = 1 := by decide
  rw [gatedDelivery_delivered_cnt ht, hone] at hcnt
  exact absurd hcnt (by decide)

end Sys2Proof.Machine
end

section
/-! PROOF. Ring records (R188, R190): a copy that is freed and whose gate has risen, though no CREDIT has come for it. -/
namespace Sys2Proof.Machine

open Sys2Proof

/-! ## A record back from the receiver -/

/-- A copy that is freed and whose gate has risen goes, whatever still reads it. -/
theorem txSettle_gone {k : Nat} {x : TxCw} {s : State} (h : s.tx? k = some x) (hf : x.freed = true) (hg : x.gated = true) :
    (txSettle k s).tx? k = none := by
  have hgone : (s.updRing fun r => { r with tx := SMap.erase k r.tx }).tx? k = none := (SMap.find_erase ..).trans (if_pos rfl)
  unfold txSettle
  simp only [h]
  cases hack : x.ack && (decide (x.reads = 0) && !s.txWanted k)
  · simp [hf, hg, hgone]
  · simp [hg, hgone]

/-- An ACK of a group that carries marks its copy; adoptions may then go. -/
theorem exec_ack {p : Port} {r : RingRec} {g : Nat} {s : State} (h : Carries g r s) (hchan : r.chan.toNat < 32) :
    exec (.ack p r) s = .next (adoptPump g (recBack (fun x => { x with ack := true }) g r s)) := by
  show execAck p r s = _
  rw [execAck, if_neg (Nat.not_le.2 hchan), ringGuard_run h]

/-- A group without adoption chunk-waves to send. -/
theorem adoptPump_none {g : Nat} {s : State} (h : (s.mgrp g).sends = []) : adoptPump g s = s := by
  unfold adoptPump
  rw [h]
  rfl

/-! ## A gate that has risen before its CREDIT -/

/-- A transmit copy with its RECEIPT and ACK, freed, that an operation still reads; its gate has risen, and it has no CREDIT. -/
def gatedCopy : TxCw :=
  { port := 0, sheets := [], nsheet := 1, tbytes := 17, receipt := true, ack := true, reads := 1, gated := true, freed := true }

/-- From reset: group 0 is VALID and UP, and holds that copy. -/
def gatedUncredited : State :=
  { State.reset with
    regs := [(regKey pgRING 0x114 0, 0x80000000)]
    ring := { State.reset.ring with grps := [(0, { st := .up })], tx := [(0, gatedCopy)] } }

/-- The record that names it. -/
def gatedCopyRec : RingRec := { jobtag := 0, chan := 0, xfer := 0, rseq := 0, epoch := 0, count := 0, tbytes := 0 }

theorem gatedUncredited_carries : Carries 0 gatedCopyRec gatedUncredited := ⟨by decide, by decide, by decide⟩

theorem gatedUncredited_tx : gatedUncredited.tx? (recKey 0 gatedCopyRec) = some gatedCopy := by decide

theorem gatedUncredited_sends : (gatedUncredited.mgrp 0).sends = [] := by decide

/-- An ACK takes the copy away. -/
theorem gatedUncredited_acked :
    (recBack (fun x => { x with ack := true }) 0 gatedCopyRec gatedUncredited).tx? (recKey 0 gatedCopyRec) = none := by
  rw [recBack_tx gatedUncredited_tx]
  exact txSettle_gone (putTx_tx ..) rfl rfl

/-- Refutes O27: an ACK for a copy that is freed and whose gate has risen takes it away (R188), where the clause for an ACK of a copy
that something reads asks only that there is no CREDIT yet, and has the copy kept. The model's own commands do not reach the state, for
a gate rises with the CREDIT. -/
theorem not_ringRecords : ¬ Obligations.RingRecords := by
  unfold Obligations.RingRecords
  rintro ⟨-, hback, -⟩
  obtain ⟨-, -, hread, -⟩ :=
    hback 0 gatedCopyRec 0 gatedCopy gatedUncredited gatedUncredited_carries (by decide) gatedUncredited_tx rfl
  obtain ⟨t, ht, u, hu, htx, honly⟩ := hread (.inl (by decide))
  have hpump : ∀ v : State, v.mgmt = gatedUncredited.mgmt → adoptPump 0 v = v := fun v hv =>
    adoptPump_none (by rw [State.mgrp, hv]; exact gatedUncredited_sends)
  have hacked := exec_ack (p := 0) gatedUncredited_carries (by decide)
  rw [hpump _ ((recBack_k ..).only .mgmt (by decide)), ht, hu, hpump u (honly .mgmt (by decide))] at hacked
  injection hacked with he
  rw [he, gatedUncredited_acked] at htx
  exact absurd htx (by simp)

end Sys2Proof.Machine
end

section
/-! PROOF. Set-up and teardown of a group (R172, R175, R176, R190, R192). -/
namespace Sys2Proof.Machine

open Sys2Proof

/-! ## Writes of RING_GT_CTL (07 Table 7.9) -/

theorem regRow_gtCtl : regRow pgRING 0x114 =
    some { off := 0x114, cls := .entryJob 0x114 24, rw := 0x870F1F0F, ix := some 0x110 } := by
  decide

theorem pageEffect_gtCtl (w : Who) (ix : Nat) (v : DWord) (s : State) :
    pageEffect w pgRING 0x114 ix v s = gtCtlWr ix (loW v) s := rfl

/-- An allowed write of RING_GT_CTL is what its page makes of it. -/
theorem regWrite_gtCtl {w : Who} {v : Word} {s t : State} (ha : s.allows w pgRING 0x114 v = true)
    (h : gtCtlWr (s.ixOf w pgRING 0x114) (s.taken w pgRING 0x114 v) s = .ok t) : regWrite w pgRING 0x114 v s = t :=
  regWrite_ok ha regRow_gtCtl (by decide) rfl (by decide) (by rw [pageEffect_gtCtl, loW_setWidth]; exact h)

/-- VALID is a bit that software sets. -/
theorem gtValid_taken (w : Who) (v : Word) (b : Bool) (s : State) : gtValid (s.taken w pgRING 0x114 (withBit v 31 b)) = b := by
  simp only [gtValid, State.taken, regRow_gtCtl, bit_merge]
  rw [if_pos (by decide), withBit, bit_setBit _ _ _ _ (by decide), if_pos rfl]

/-- A write that makes a group of 2 to 16 members VALID starts its set-up. -/
theorem gtCtlWr_starts {g : Nat} {v : Word} {s : State} (hold : gtValid (s.gtCtl g) = false) (hv : gtValid v = true)
    (hmin : 2 ≤ gtS v) (hmax : gtS v ≤ 16) : gtCtlWr g v s = .ok (setupStart g (s.setReg pgRING 0x114 v g)) := by
  have hsize : ¬ (decide (gtS v < 2) || decide (16 < gtS v)) = true := by
    simp only [Bool.or_eq_true, decide_eq_true_eq]
    omega
  simp only [gtCtlWr, hold, hv, hsize, Bool.false_eq_true, Bool.not_true, if_false]
  rfl

/-- A write that clears VALID tears the group down while no operation names its channels. -/
theorem gtCtlWr_tears {g : Nat} {v : Word} {s : State} (hold : gtValid (s.gtCtl g) = true) (hv : gtValid v = false)
    (hbusy : s.chanBusy g = false) : gtCtlWr g v s = .ok (teardown g v s) := by
  simp only [gtCtlWr, hold, hv, hbusy, Bool.false_eq_true, if_true, if_false]

/-! ## Set-up starts (R175, R192) -/

/-- A reservation of `m` MiB for each direction is taken from a port's felt. -/
def feltTake (m : Nat) (l : LinePort) : LinePort := { l with feltMib := l.feltMib + 2 * m }

/-- A group in SETUP with its felt reserved on both ports. -/
def setupTaken (g : Nat) (s : State) : State :=
  updGrp g (fun x => { x with txMib := s.grpMib g, rxMib := s.grpMib g })
    (updPort 1 (feltTake (s.grpMib g)) (updPort 0 (feltTake (s.grpMib g)) (updGrp g (fun _ => { st := .setup }) s)))

/-- With a sound site table, live neighbours and room on both ports, nothing refuses the set-up. -/
theorem setupStart_takes {g : Nat} {s : State} (hpos : gtPos (s.gtCtl g) < gtS (s.gtCtl g))
    (hsites : ((List.range (gtS (s.gtCtl g))).map (s.gtSite g)).eraseDups.length = gtS (s.gtCtl g))
    (hnext : s.peerLive (s.nbrSeid g true).toNat = true) (hprev : s.peerLive (s.nbrSeid g false).toNat = true)
    (hroom0 : 2 * s.grpMib g ≤ s.feltRoom 0) (hroom1 : 2 * s.grpMib g ≤ s.feltRoom 1) :
    setupStart g s = setupTaken g s := by
  have hlen : ((List.range (gtS (s.gtCtl g))).map (s.gtSite g)).length = gtS (s.gtCtl g) := by
    rw [List.length_map, List.length_range]
  simp only [setupStart, hsites, hlen, hnext, hprev, Nat.not_le.2 hpos, Nat.not_lt.2 hroom0, Nat.not_lt.2 hroom1, ne_eq,
    not_true_eq_false, decide_false, Bool.not_true, Bool.or_self, Bool.false_eq_true, if_false]
  rfl

theorem updPort_grp (p i : Nat) (f : LinePort → LinePort) (s : State) : (updPort p f s).grp i = s.grp i := rfl

theorem setupTaken_grp (g i : Nat) (s : State) : (setupTaken g s).grp i =
    if i = g then { st := .setup, txMib := s.grpMib g, rxMib := s.grpMib g } else s.grp i := by
  simp only [setupTaken, updGrp_grp, updPort_grp, if_true]
  split <;> rfl

/-- The same change of both ports, read at either. -/
theorem updPort_both {q : Nat} (hq : q < 2) (f : LinePort → LinePort) (s : State) :
    (updPort 1 f (updPort 0 f s)).port q = f (s.port q) := by
  simp only [updPort_at _ _ _ _ hq]
  obtain rfl | rfl : q = 0 ∨ q = 1 := by omega
  · rfl
  · rfl

theorem setupTaken_port {q : Nat} (hq : q < 2) (g : Nat) (s : State) :
    (setupTaken g s).port q = feltTake (s.grpMib g) (s.port q) :=
  updPort_both hq ..

theorem setupTaken_k (g : Nat) (s : State) : KeepsIn [.ring, .line] s (setupTaken g s) :=
  ((((updGrp_k ..).mono (m := [.ring, .line]) (by decide)).step (updPort_k ..) (by decide)).step (updPort_k ..) (by decide)).step
    (updGrp_k ..) (by decide)

/-! ## Teardown (R176) -/

/-- The copies of the other groups. -/
theorem find_otherGroups {V : Type} (g : Nat) (m : SMap V) (k : Nat) :
    SMap.find (m.filter fun kv => cwGrp kv.1 ≠ g) k = if cwGrp k = g then none else SMap.find m k := by
  refine (find_filter_key (fun k => decide (cwGrp k ≠ g)) m k).trans ?_
  by_cases h : cwGrp k = g
  · simp [h]
  · simp [h]

section Teardown

variable (g : Nat) (v : Word) (s : State)

theorem teardown_regs : (teardown g v s).regs = (s.setReg pgRING 0x114 v g).regs := by
  unfold teardown store
  rw [State.setReg_regs, State.setReg_regs]
  rfl

theorem teardown_grp (i : Nat) : (teardown g v s).grp i = if i = g then {} else s.grp i :=
  updGrp_grp ..

theorem teardown_tx (k : Nat) : (teardown g v s).tx? k = if cwGrp k = g then none else s.tx? k :=
  find_otherGroups g s.ring.tx k

theorem teardown_rx (k : Nat) : (teardown g v s).rx? k = if cwGrp k = g then none else s.rx? k :=
  find_otherGroups g s.ring.rx k

end Teardown

/-! ## SETUP messages and their answers (R175) -/

/-- A refused group and its reason, without felt; every other group is as it was. -/
theorem refuseSetup_grp (g reason i : Nat) (s : State) : (refuseSetup g reason s).grp i =
    if i = g then
      { s.grp g with st := .refused, reason := reason, txMib := 0, rxMib := 0, okNext := false, okPrev := false }
    else s.grp i := by
  have hring : ∀ p o b x a u, (raiseCap p o b x a u).ring = u.ring := fun p o b x a u =>
    (raiseCap_k p o b x a u).only .ring (by decide)
  unfold refuseSetup State.grp
  rw [hring]
  exact updGrp_grp g i _ _

/-- The SETUP message to a neighbour. -/
def State.setupMsg (s : State) (g : Nat) (next : Bool) : Out :=
  .setup g next
    { jobtag := s.gtTag g, group := gtGroup (s.gtCtl g), s := gtS (s.gtCtl g), pos := gtPos (s.gtCtl g)
      seedCheck := seedCheck (gtJob (s.gtCtl g)), epoch := s.grpEpoch g, digest := s.gtDigest g }

theorem setupMsgTo_out (g : Nat) (next : Bool) (s : State) : (setupMsgTo g next s).out = s.out ++ [s.setupMsg g next] := rfl

/-- Sending one message leaves the other as it would have been. -/
theorem setupMsgTo_setupMsg (g : Nat) (next next' : Bool) (s : State) :
    (setupMsgTo g next s).setupMsg g next' = s.setupMsg g next' := rfl

/-- The messages that are owed to a group's neighbours. -/
def State.setupOwed (s : State) (g : Nat) : List Out :=
  (if (s.grp g).okNext then [] else [s.setupMsg g true]) ++ if (s.grp g).okPrev then [] else [s.setupMsg g false]

section SetupSend

variable {g : Nat} {b : List Byte} {s : State} (hst : (s.grp g).st = .setup)
  (hocb : SMap.find s.outer.ocb (gtJob (s.gtCtl g)) = some b)
include hst hocb

/-- The owed messages are sent, and nothing else changes. -/
theorem setupSend_sends (hfew : ∀ r, r < s.nream (gtJob (s.gtCtl g)) → s.reamWaves (gtJob (s.gtCtl g)) g r ≤ 16384) :
    (setupSend g s).out = s.out ++ s.setupOwed g ∧ OnlyIn [] s (setupSend g s) := by
  have hmany : ((List.range (s.nream (gtJob (s.gtCtl g)))).any
      fun r => decide (s.reamWaves (gtJob (s.gtCtl g)) g r > 16384)) = false := by
    simpa using hfew
  have hx : setupSend g s =
      let s1 := if (s.grp g).okNext then s else setupMsgTo g true s
      if (s.grp g).okPrev then s1 else setupMsgTo g false s1 := by
    simp only [setupSend, hst, hocb, hmany, ne_eq, not_true_eq_false, decide_false, Option.isNone_some, Bool.or_self,
      Bool.false_eq_true, if_false]
  rw [hx]
  refine ⟨?_, (KeepsIn.ite (KeepsIn.ite (.refl s) (setupMsgTo_k ..))
    ((setupMsgTo_k ..).after (by decide) (KeepsIn.ite (.refl s) (setupMsgTo_k ..)))).only⟩
  unfold State.setupOwed
  cases (s.grp g).okNext <;> cases (s.grp g).okPrev <;> simp [setupMsgTo_out, setupMsgTo_setupMsg]

/-- A ream of more than 16,384 waves refuses the set-up. -/
theorem setupSend_refuses {r : Nat} (hr : r < s.nream (gtJob (s.gtCtl g)))
    (hmany : s.reamWaves (gtJob (s.gtCtl g)) g r > 16384) : setupSend g s = refuseSetup g 8 s := by
  have hany : ((List.range (s.nream (gtJob (s.gtCtl g)))).any
      fun r => decide (s.reamWaves (gtJob (s.gtCtl g)) g r > 16384)) = true :=
    List.any_eq_true.2 ⟨r, List.mem_range.2 hr, decide_eq_true hmany⟩
  simp only [setupSend, hst, hocb, hany, ne_eq, not_true_eq_false, decide_false, Option.isNone_some, Bool.or_self,
    Bool.false_eq_true, if_false, if_true]

end SetupSend

/-- A SETUP for a VALID entry of an enabled job is answered. -/
theorem exec_setupMessage {m : SetupMsg} {g : Nat} {b : List Byte} {s : State}
    (hg : s.grpOfTag m.jobtag (2 * m.group) = some g) (hocb : SMap.find s.outer.ocb (gtJob (s.gtCtl g)) = some b) :
    exec (.setupMessage m) s = .next (s.emit (.root (s.gtSeid g m.pos) "SETUP_ANSWER"
      [(s.gtTag g).toNat, m.group, b2n (s.setupReason g m = 0), s.setupReason g m])) := by
  show execSetupMessage m s = _
  simp only [execSetupMessage, hg, hocb, Option.isNone_some, Bool.false_eq_true, if_false]

/-! ## A group that comes up (R175, R190) -/

theorem gateCtr_of_regs {s t : State} (h : t.regs = s.regs) (g h' n : Nat) : t.gateCtr g h' n = s.gateCtr g h' n := by
  simp only [State.gateCtr, State.partBase, State.gtCntBase, State.gtCtl, State.regF, reg_of_regs h]

theorem gtDepth_of_regs {s t : State} (h : t.regs = s.regs) (g : Nat) : t.gtDepth g = s.gtDepth g := by
  simp only [State.gtDepth, State.regF, reg_of_regs h]

/-- One of a group's gate counters, by its place among them, is set to DEPTH. -/
def setGate (g i : Nat) (s : State) : State := setCtr (s.gateCtr g 0 0 + i) (wd (s.gtDepth g)) s

/-- The counters after several gate counters of a group have been set. -/
theorem setGate_forAll_ctr (g k : Nat) (l : List Nat) (s : State) : (forAll l (setGate g) s).ctr k =
    if k ∈ l.map (s.gateCtr g 0 0 + ·) then wd (s.gtDepth g) else s.ctr k := by
  induction l generalizing s with
  | nil => rfl
  | cons i l ih =>
    have hbase : (setGate g i s).gateCtr g 0 0 = s.gateCtr g 0 0 := gateCtr_of_regs rfl ..
    have hdepth : (setGate g i s).gtDepth g = s.gtDepth g := gtDepth_of_regs rfl g
    refine (ih (setGate g i s)).trans ?_
    rw [hbase, hdepth, setGate, ctr_setCtr, List.map_cons]
    by_cases hl : k ∈ l.map (s.gateCtr g 0 0 + ·)
    · rw [if_pos hl, if_pos (List.mem_cons_of_mem _ hl)]
    · simp only [List.mem_cons, hl, or_false, if_false]

theorem ctr_of_cnt {s t : State} (h : t.sch.cnt = s.sch.cnt) (i : Nat) : t.ctr i = s.ctr i := by
  rw [State.ctr, h]
  rfl

/-- Every gate counter of a group is set to DEPTH. -/
theorem setGates_ctr {g h n : Nat} {s : State} (hh : h < 2) (hn : n < 2 * gtS (s.gtCtl g) - 2) :
    (setGates g s).ctr (s.gateCtr g h n) = wd (s.gtDepth g) := by
  have hplace : s.gateCtr g h n = s.gateCtr g 0 0 + (h * (2 * gtS (s.gtCtl g) - 2) + n) := by
    simp only [State.gateCtr]
    omega
  have hlt : h * (2 * gtS (s.gtCtl g) - 2) + n < 2 * (2 * gtS (s.gtCtl g) - 2) := by
    obtain rfl | rfl : h = 0 ∨ h = 1 := by omega
    · omega
    · omega
  have hset := setGate_forAll_ctr g (s.gateCtr g h n) (List.range (2 * (2 * gtS (s.gtCtl g) - 2)))
    (s.updRing fun r => { r with gateN := r.gateN.filter fun kv => kv.1 / 64 ≠ g })
  exact (ctr_of_cnt (evalJob_moves ..).cnt _).trans
    (hset.trans (if_pos (List.mem_map.2 ⟨_, List.mem_range.2 hlt, hplace.symm⟩)))

theorem submitCore_cnt (c : Nat) (d : Desc) (headOk : Bool) (s : State) : (submitCore c d headOk s).sch.cnt = s.sch.cnt := by
  unfold submitCore
  refine ite_both (P := fun t : State => t.sch.cnt = s.sch.cnt) rfl ?_
  split
  · rfl
  · next st s1 h =>
    have hcnt : s1.sch.cnt = s.sch.cnt := acceptCore_cnt h
    exact hcnt

/-- Submitting the first PLANs leaves the counters. -/
theorem planFirst_cnt (j : Nat) (s : State) : (planFirst j s).sch.cnt = s.sch.cnt := by
  unfold planFirst
  split
  · rfl
  · refine ite_both (P := fun t : State => t.sch.cnt = s.sch.cnt) rfl ?_
    exact forAll_inv (P := fun t => t.sch.cnt = s.sch.cnt) (fun _ _ h => (submitCore_cnt ..).trans h) _ _ rfl

theorem grp_of_ring {s t : State} (h : t.ring = s.ring) (i : Nat) : t.grp i = s.grp i := by
  rw [State.grp, h]
  rfl

theorem rttCheck_grp (g p i : Nat) (s : State) : (rttCheck g p s).grp i = s.grp i := by
  have hring : ∀ p o b u, (raiseEv p o b u).ring = u.ring := fun p o b u => (raiseEv_k p o b u).only .ring (by decide)
  unfold rttCheck State.grp
  dsimp only
  split
  · rw [hring]
    rfl
  · rfl

/-- Both round trips are checked, the gates are set, and the first PLANs may go. -/
def comeUp (g : Nat) (s : State) : State := planFirst (gtJob (s.gtCtl g)) (setGates g (rttCheck g 1 (rttCheck g 0 s)))

theorem setGates_grp (g i : Nat) (s : State) : (setGates g s).grp i = s.grp i := by
  have hloop : ∀ (l : List Nat) (u : State), (forAll l (setGate g) u).ring = u.ring := fun l u =>
    forAll_inv (P := fun t => t.ring = u.ring) (f := setGate g) (fun _ _ h => h) l u rfl
  exact grp_of_ring (s := s.updRing fun r => { r with gateN := r.gateN.filter fun kv => kv.1 / 64 ≠ g })
    (((evalJob_k ..).only .ring (by decide)).trans (hloop _ _)) i

theorem comeUp_grp (g i : Nat) (s : State) : (comeUp g s).grp i = s.grp i := by
  have hplan : ∀ j u, (planFirst j u).grp i = u.grp i := fun j u => grp_of_ring ((planFirst_k j u).only .ring (by decide)) i
  rw [comeUp, hplan, setGates_grp, rttCheck_grp, rttCheck_grp]

theorem comeUp_k (g : Nat) (s : State) :
    KeepsIn [.sch, .gc, .ring, .outer, .host, .mgmt, .pages, .cnts] s (comeUp g s) :=
  ((((rttCheck_k ..).mono (m := [.sch, .gc, .ring, .outer, .host, .mgmt, .pages, .cnts]) (by decide)).step (rttCheck_k ..)
    (by decide)).step (setGates_k ..) (by decide)).step (planFirst_k ..) (by decide)

theorem comeUp_ctr {g h n : Nat} {s : State} (hh : h < 2) (hn : n < 2 * gtS (s.gtCtl g) - 2) :
    (comeUp g s).ctr (s.gateCtr g h n) = wd (s.gtDepth g) := by
  have hregs : (rttCheck g 1 (rttCheck g 0 s)).regs = s.regs :=
    ((rttCheck_k ..).only .regs (by decide)).trans ((rttCheck_k ..).only .regs (by decide))
  have hctl : (rttCheck g 1 (rttCheck g 0 s)).gtCtl g = s.gtCtl g := reg_of_regs hregs ..
  have hset := setGates_ctr (g := g) (h := h) (n := n) (s := rttCheck g 1 (rttCheck g 0 s)) hh (by rwa [hctl])
  rw [gateCtr_of_regs hregs, gtDepth_of_regs hregs] at hset
  exact (ctr_of_cnt (planFirst_cnt ..) _).trans hset

/-- The neighbour on one side has answered OK. -/
def noteOk (g : Nat) (next : Bool) (s : State) : State :=
  updGrp g (fun x => { x with okNext := x.okNext || next, okPrev := x.okPrev || !next }) s

/-- A group is UP, and counts its rounds from the next. -/
def markUp (g : Nat) (s : State) : State :=
  updGrp g (fun x => { x with st := .up, origin := s.nextRound (gtJob (s.gtCtl g)) }) s

/-- An OK of a group in SETUP is noted; the second one brings the group up. -/
theorem exec_setupAnswer_ok {g : Fin 64} {next : Bool} {s : State} (hst : (s.grp g.val).st = .setup) :
    exec (.setupAnswer g next true) s = .next (
      if ((s.grp g.val).okNext || next) && ((s.grp g.val).okPrev || !next) then comeUp g.val (markUp g.val (noteOk g.val next s))
      else noteOk g.val next s) := by
  have hnote : (noteOk g.val next s).grp g.val =
      { s.grp g.val with okNext := (s.grp g.val).okNext || next, okPrev := (s.grp g.val).okPrev || !next } :=
    (updGrp_grp ..).trans (if_pos rfl)
  show execSetupAnswer g next true s = _
  unfold execSetupAnswer
  simp only [hst, ne_eq, not_true_eq_false, if_false, Bool.not_true, Bool.false_eq_true]
  rw [← noteOk, hnote]
  rfl

theorem exec_setupAnswer_refuse {g : Fin 64} {next : Bool} {s : State} (hst : (s.grp g.val).st = .setup) :
    exec (.setupAnswer g next false) s = .next (refuseSetup g.val 7 s) := by
  show execSetupAnswer g next false s = _
  simp only [execSetupAnswer, hst, ne_eq, not_true_eq_false, if_false, Bool.not_false, if_true]

theorem noteOk_grp (g i : Nat) (next : Bool) (s : State) : (noteOk g next s).grp i =
    if i = g then { s.grp g with okNext := (s.grp g).okNext || next, okPrev := (s.grp g).okPrev || !next } else s.grp i :=
  updGrp_grp ..

/-- The group after the second OK. -/
theorem markUp_noteOk_grp {g : Nat} {next : Bool} {s : State}
    (hboth : (((s.grp g).okNext || next) && ((s.grp g).okPrev || !next)) = true) (i : Nat) :
    (markUp g (noteOk g next s)).grp i =
      if i = g then
        { s.grp g with okNext := true, okPrev := true, st := .up, origin := s.nextRound (gtJob (s.gtCtl g)) }
      else s.grp i := by
  obtain ⟨hnext, hprev⟩ := Bool.and_eq_true_iff.1 hboth
  rw [markUp, updGrp_grp, noteOk_grp, noteOk_grp, if_pos rfl, hnext, hprev]
  split <;> rfl

/-- Settles O28: each command is one change of the group's entry; what a set-up, an answer or a teardown does beside it leaves the
entry, and the gate counters are set in the same step. -/
theorem ringSetup : Obligations.RingSetup := by
  unfold Obligations.RingSetup
  refine ⟨?start, ?teardown, ?send, ?message, ?answer⟩
  case start =>
    intro w v s g x u ha hold hmin hmax hpos hsites hnext hprev hroom0 hroom1
    have hctl : u.gtCtl g = x := State.reg_setReg_self ..
    have hset : setupStart g u = setupTaken g u :=
      setupStart_takes (by rwa [hctl]) (by rwa [hctl]) hnext hprev hroom0 hroom1
    have hw := regWrite_gtCtl ha ((gtCtlWr_starts hold (gtValid_taken ..) hmin hmax).trans (congrArg Except.ok hset))
    refine ⟨_, congrArg Host.Outcome.next hw, rfl, (setupTaken_grp ..).trans (if_pos rfl),
      fun i hi => (setupTaken_grp ..).trans (if_neg hi), fun q hq => setupTaken_port hq g u, ?_⟩
    exact (((State.setReg_k ..).mono (m := [.ring, .line, .regs]) (by decide)).step (setupTaken_k g u) (by decide)).only
  case teardown =>
    intro w v s g x ha hold hnew hbusy
    have hw := regWrite_gtCtl ha (gtCtlWr_tears hold hnew hbusy)
    exact ⟨_, congrArg Host.Outcome.next hw, teardown_regs .., (teardown_grp ..).trans (if_pos rfl),
      fun k hk => ⟨(teardown_tx ..).trans (if_pos hk), (teardown_rx ..).trans (if_pos hk)⟩,
      fun k hk => ⟨(teardown_tx ..).trans (if_neg hk), (teardown_rx ..).trans (if_neg hk)⟩, (teardown_k ..).only⟩
  case send =>
    intro g b s j msg out hst hocb
    refine ⟨fun hfew => ?_, fun r hr hmany => ?_⟩
    · have hsent := setupSend_sends hst hocb hfew
      exact ⟨⟨_, rfl, hsent⟩, ⟨_, rfl, hsent⟩⟩
    · have hx := setupSend_refuses hst hocb hr hmany
      have hself : (refuseSetup g.val 8 s).grp g.val = _ := (refuseSetup_grp ..).trans (if_pos rfl)
      have hother : ∀ i, i ≠ g.val → (refuseSetup g.val 8 s).grp i = s.grp i := fun i hi =>
        (refuseSetup_grp ..).trans (if_neg hi)
      have honly := (refuseSetup_k g.val 8 s).only
      refine ⟨⟨_, congrArg Host.Outcome.next hx, ?_, ?_, ?_, ?_, hother, honly⟩,
        ⟨_, congrArg Host.Outcome.next hx, ?_, ?_, hother, honly⟩⟩ <;> rw [hself]
  case message =>
    intro m g b s r hg hocb
    exact ⟨_, exec_setupMessage hg hocb, rfl, (State.emit_k ..).only⟩
  case answer =>
    intro g next s x both hst
    refine ⟨?_, ⟨_, exec_setupAnswer_refuse hst, (refuseSetup_grp ..).trans (if_pos rfl),
      fun i hi => (refuseSetup_grp ..).trans (if_neg hi), (refuseSetup_k ..).only⟩⟩
    cases hboth : both
    · have hx := (exec_setupAnswer_ok hst).trans (congrArg Host.Outcome.next (if_neg (Bool.eq_false_iff.1 hboth)))
      exact ⟨_, hx, (noteOk_grp ..).trans (if_pos rfl), fun i hi => (noteOk_grp ..).trans (if_neg hi),
        fun h => absurd h (by decide), (updGrp_k ..).only⟩
    · have hx := (exec_setupAnswer_ok hst).trans (congrArg Host.Outcome.next (if_pos hboth))
      have hgrp := fun i => (comeUp_grp g.val i _).trans (markUp_noteOk_grp hboth i)
      exact ⟨_, hx, (hgrp g.val).trans (if_pos rfl), fun i hi => (hgrp i).trans (if_neg hi), fun _ h n hh hn => comeUp_ctr hh hn,
        ((((updGrp_k ..).mono (by decide)).step (updGrp_k ..) (by decide)).step (comeUp_k ..) (by decide)).only⟩

end Sys2Proof.Machine
end

section
/-! PROOF. O29 (R202): the reams whose first PLANs an enable submits are those of the block that it copies, and a job whose rounds
are off holds no block. -/
namespace Sys2Proof.Machine

open Sys2Proof

/-! ## A job that holds no control block -/

/-- A job without a copy of a control block has no reams. -/
theorem nream_of_noCopy {j : Nat} {s : State} (h : SMap.find s.outer.ocb j = none) : s.nream j = 0 := by
  rw [State.nream, h]

/-- Nothing is done for each of no reams. -/
theorem forAll_noReams {j : Nat} {s : State} (h : SMap.find s.outer.ocb j = none) (f : Nat → State → State) (u : State) :
    forAll (List.range (s.nream j)) f u = u := by
  rw [nream_of_noCopy h]
  rfl

/-! ## A job that is ready to be enabled -/

/-- A control block with one ream of one element: RFIRST is 0, a round is one step, and site 0 has weight 1. -/
def oneReamBlock : List Byte :=
  natLE 4 0x00010001 ++ List.replicate 0x3C 0 ++ natLE 4 1 ++ List.replicate 0x3C 0 ++
    natLE 4 3 ++ natLE 4 0 ++ natLE 8 1 ++ natLE 8 0 ++ natLE 8 0x140000000

/-- From reset: job 0 is RUNNING with an HBM range, one element in ream 0 and room for 16 operations; its group is UP; the control
block and the ream's state header stand in HBM. -/
def readyToEnable : State :=
  hbmWrite 0x140000028 (natLE 8 4096) (hbmWrite 0x140100000 oneReamBlock
    { State.reset with
      regs := [(regKey (pgGC 0) 0x204 0, 0x40000000), (regKey (pgGC 0) 0x208 0, 1), (regKey (pgGC 0) 0x20C 0, 1),
        (regKey pgOUTER 0x204 0, 0x40100000), (regKey pgOUTER 0x208 0, 1), (regKey pgOUTER 0x20C 0, 0x40200000),
        (regKey pgOUTER 0x210 0, 1), (regKey (pgVAT 0) 0x188 0, 1), (regKey pgSCH 0x218 0, 16),
        (regKey pgRING 0x114 0, 0x80000301)]
      ring := { State.reset.ring with grps := [(0, { st := .up })] }
      host := { State.reset.host with jobSt := [(0, .running)] } })

theorem readyToEnable_noCopy : SMap.find readyToEnable.outer.ocb 0 = none := rfl

theorem readyToEnable_allows : readyToEnable.allows .root pgOUTER 0x200 (withBit 0 31 true) = true := by decide +kernel

theorem readyToEnable_sound : readyToEnable.ocbReason 0 = 0 := by decide +kernel

/-- The enable submits the PLAN of the one ream. -/
theorem readyToEnable_planned {t : State} (h : exec (.outerEnable .root 0 0) readyToEnable = .next t) :
    t.sch.ops.map (fun e => (e.d.opcode, e.d.ream)) = [(11, 0)] := by
  have hops : (match exec (.outerEnable .root 0 0) readyToEnable with
      | .next u => u.sch.ops.map fun e => (e.d.opcode, e.d.ream)
      | _ => []) = [(11, 0)] := by decide +kernel
  rw [h] at hops
  exact hops

/-- Refutes O29: the enable of a job whose group is UP submits a PLAN for each ream of the block that it copies (R202), where the clause
counts the reams in the state before the enable. There the job holds no block and so has no reams, and the clause leaves the scheduler as it
was. -/
theorem not_outerEnable : ¬ Obligations.OuterEnable := by
  unfold Obligations.OuterEnable
  rintro ⟨henable, -⟩
  obtain ⟨t, ht, -, -, -, -, -, hsch, -⟩ :=
    (henable .root 0 0 readyToEnable readyToEnable_allows (by decide +kernel)).1 readyToEnable_sound
  have hsame : t.sch = readyToEnable.sch := by
    rw [hsch, forAll_noReams (j := (0 : Job).val) readyToEnable_noCopy]
    exact ite_self _
  have hplan := readyToEnable_planned ht
  rw [hsame] at hplan
  exact absurd hplan (by decide)

end Sys2Proof.Machine
end

section
/-! PROOF. Line ports (10): what a change of a port, a selector's evaluation and an event of the LINE pages leave. -/
namespace Sys2Proof.Machine

open Sys2Proof

/-! ## What is seen of the line ports -/

/-- What `f` shows of each line port is the same in both states. -/
structure SamePorts {α : Type} (f : LinePort → α) (s t : State) : Prop where
  eq : ∀ q, f (t.port q) = f (s.port q)

section SamePorts

variable {α : Type} {f : LinePort → α} {s t u : State}

theorem SamePorts.refl (s : State) : SamePorts f s s := ⟨fun _ => rfl⟩

theorem SamePorts.trans (h : SamePorts f s t) (h' : SamePorts f t u) : SamePorts f s u :=
  ⟨fun q => (h'.eq q).trans (h.eq q)⟩

theorem SamePorts.of_line (h : t.line = s.line) : SamePorts f s t := ⟨fun q => by simp only [State.port, h]⟩

/-- Operations that keep off the line leave its ports. -/
theorem KeepsIn.samePorts {m : List Part} (h : KeepsIn m s t) (hm : Part.line ∉ m) : SamePorts f s t :=
  .of_line (h.only .line hm)

/-- A change of a port that `f` does not see. -/
theorem SamePorts.of_updPort {g : LinePort → LinePort} (hg : ∀ l, f (g l) = f l) (p : Nat) (s : State) :
    SamePorts f s (updPort p g s) where
  eq q := by
    by_cases hq : q < 2
    · rw [updPort_at _ _ _ _ hq]
      split
      · exact hg _
      · rfl
    · simp [State.port, Vector.getD, hq]

theorem SamePorts.of_forAll {ι : Type} {g : ι → State → State} (hg : ∀ i t, SamePorts f t (g i t)) (l : List ι) (s : State) :
    SamePorts f s (forAll l g s) :=
  forAll_inv (fun i t ht => SamePorts.trans ht (hg i t)) l s (.refl s)

theorem SamePorts.of_emit (o : Out) (s : State) : SamePorts f s (s.emit o) := ⟨fun _ => rfl⟩

end SamePorts

/-! ## One selector (R277) -/

theorem sel_of_line {s t : State} (h : t.line = s.line) (i : Nat) : t.sel i = s.sel i := by simp only [State.sel, h]

theorem sel_updSel (i n : Nat) (f : Sel → Sel) (s : State) :
    (updSel i f s).sel n = if n = i then f (s.sel i) else s.sel n := SMap.get_modify (V := Sel) ..

@[simp] theorem sel_updPort (p n : Nat) (f : LinePort → LinePort) (s : State) : (updPort p f s).sel n = s.sel n := rfl

@[simp] theorem port_updSel (i q : Nat) (f : Sel → Sel) (s : State) : (updSel i f s).port q = s.port q := rfl

theorem selCtl_of_regs {s t : State} (h : t.regs = s.regs) (i : Nat) : t.selCtl i = s.selCtl i := reg_of_regs h ..

/-- A row of Table 10.6 other than WTR that the WTR request passes over. -/
theorem wtr_passes {c : Prop} [Decidable c] {a r r' : Nat × Option Nat} {Q : Nat × Option Nat → Prop} (ha : a.1 ≠ 5)
    (h : r.1 = 5 → Q r') : (if c then a else r).1 = 5 → Q (if c then a else r') := by
  split
  · exact fun h5 => absurd h5 ha
  · exact h

/-- A WTR request selects no route. -/
theorem selRequest_wtr {i : Nat} {s : State} : (s.selRequest i).1 = 5 → (s.selRequest i).2 = none := by
  unfold State.selRequest
  dsimp only
  iterate 13 apply wtr_passes (Q := fun r => r.2 = none) (by decide)
  split <;> exact fun _ => rfl

/-- Where WTR was the highest request, there is none once the selection is back on the preferred route. -/
theorem selRequest_reverted {i : Nat} {s t : State} (hctl : t.selCtl i = s.selCtl i)
    (hroute : t.routeSt i = s.routeSt i) (h0 : (t.sel i).hold0 = (s.sel i).hold0)
    (h1 : (t.sel i).hold1 = (s.sel i).hold1) (hsel : (t.sel i).sel = fld (s.selCtl i) 29 1) :
    (s.selRequest i).1 = 5 → t.selRequest i = (6, none) := by
  unfold State.selRequest
  rw [hctl, hroute]
  dsimp only
  rw [h0, h1, hsel]
  iterate 13 apply wtr_passes (Q := fun r => r = (6, none)) (by decide)
  simp

/-! ## Evaluating a selector -/

/-- `P` outlasts every part of delivering a message to selector `i`. -/
structure DeliveryKeeps (i : Nat) (P : State → Prop) : Prop where
  last : ∀ (q : Word) s, P s → P (updSel i (fun x => { x with last := some q }) s)
  held : ∀ r (g : Nat × ProtMsg → Bool) s, P s → P (updPort r (fun l => { l with stby := l.stby.filter g }) s)
  sent : ∀ o s, P s → P (s.emit o)
  gap : ∀ n s, P s → P (event (pgLINE 0) 13 (bump (pgLINE 0) 0x850 n s))

/-- `P` outlasts every part of evaluating selector `i`. -/
structure SelectionKeeps (i : Nat) (P : State → Prop) : Prop extends DeliveryKeeps i P where
  wtr : ∀ b s, P s → P (updSel i (fun x => { x with wtr := b }) s)
  route : ∀ r s, P s → P (updSel i (fun x => { x with sel := r, wtr := false }) s)
  switched : ∀ s, P s → P (raiseEv (pgLINE 0) 0x84C 12 s)

theorem DeliveryKeeps.protDeliver {i : Nat} {P : State → Prop} (h : DeliveryKeeps i P) (r : Nat) (m : ProtMsg) {s : State}
    (hs : P s) : P (protDeliver i r m s) := by
  unfold Machine.protDeliver
  exact h.sent _ _ (h.last _ _ (iteInduction (fun _ => hs) fun _ => h.gap _ _ hs))

theorem DeliveryKeeps.deliverHeld {i : Nat} {P : State → Prop} (h : DeliveryKeeps i P) (r : Nat) :
    ∀ (n : Nat) (s : State), P s → P (deliverHeld i r n s) := by
  intro n
  induction n with
  | zero => exact fun s hs => hs
  | succ n ih =>
    intro s hs
    rw [Machine.deliverHeld]
    split
    · exact hs
    · exact ih _ (h.protDeliver _ _ (h.held _ _ _ hs))

theorem SelectionKeeps.selSwitch {i : Nat} {P : State → Prop} (h : SelectionKeeps i P) (r : Nat) {s : State} (hs : P s) :
    P (selSwitch i r s) := h.deliverHeld _ _ _ (h.switched _ (h.route _ _ hs))

theorem SelectionKeeps.selEval {i : Nat} {P : State → Prop} (h : SelectionKeeps i P) {s : State} (hs : P s) : P (selEval i s) := by
  have hw := h.wtr (decide ((s.selRequest i).1 = 5)) s hs
  unfold Machine.selEval
  split
  · exact hs
  · dsimp only
    split
    · split
      · exact hw
      · exact h.selSwitch _ hw
    · exact hw

theorem SelectionKeeps.selEvalAll {P : State → Prop} (h : ∀ i, SelectionKeeps i P) {s : State} (hs : P s) : P (selEvalAll s) :=
  forAll_inv (fun i _ ht => (h i).selEval ht) _ s hs

/-! ## What it leaves -/

/-- A delivery that takes a held copy leaves what is seen of the ports but the copies. -/
theorem selectionKeeps_ports {α : Type} {f : LinePort → α} (hf : ∀ l x, f { l with stby := x } = f l) (i : Nat) (s : State) :
    SelectionKeeps i (SamePorts f s) where
  last _ _ h := ⟨h.eq⟩
  held r _ t h := h.trans (.of_updPort (fun _ => hf ..) r t)
  sent _ _ h := ⟨h.eq⟩
  gap n t h := (h.trans ((bump_k _ _ n t).samePorts (by decide))).trans ((event_k ..).samePorts (by decide))
  wtr _ _ h := ⟨h.eq⟩
  route _ _ h := ⟨h.eq⟩
  switched t h := h.trans ((raiseEv_k ..).samePorts (by decide))

theorem selEval_ports {α : Type} {f : LinePort → α} (hf : ∀ l x, f { l with stby := x } = f l) (i : Nat) (s : State) :
    SamePorts f s (selEval i s) := (selectionKeeps_ports hf i s).selEval (.refl s)

theorem selEvalAll_ports {α : Type} {f : LinePort → α} (hf : ∀ l x, f { l with stby := x } = f l) (s : State) :
    SamePorts f s (selEvalAll s) := SelectionKeeps.selEvalAll (fun i => selectionKeeps_ports hf i s) (.refl s)

/-- What the events of a selector leave of every selector. -/
theorem sel_gap (i n : Nat) (s : State) : (event (pgLINE 0) 13 (bump (pgLINE 0) 0x850 n s)).sel i = s.sel i :=
  sel_of_line (((event_k ..).only .line (by decide)).trans ((bump_k ..).only .line (by decide))) i

theorem sel_raiseEv (i p o b : Nat) (s : State) : (raiseEv p o b s).sel i = s.sel i :=
  sel_of_line ((raiseEv_k ..).only .line (by decide)) i

/-- Another selector stays. -/
theorem selectionKeeps_other {i n : Nat} (h : n ≠ i) (x : Sel) : SelectionKeeps i (fun t => t.sel n = x) where
  last _ _ hs := by rwa [sel_updSel, if_neg h]
  held _ _ _ hs := hs
  sent _ _ hs := hs
  gap _ _ hs := (sel_gap ..).trans hs
  wtr _ _ hs := by rwa [sel_updSel, if_neg h]
  route _ _ hs := by rwa [sel_updSel, if_neg h]
  switched _ hs := (sel_raiseEv ..).trans hs

/-- A delivery changes nothing of its selector but the MSEQ last delivered. -/
theorem deliveryKeeps_sel {β : Type} {g : Sel → β} (hg : ∀ x q, g { x with last := q } = g x) (i : Nat) (b : β) :
    DeliveryKeeps i (fun t => g (t.sel i) = b) where
  last _ _ hs := by rwa [sel_updSel, if_pos rfl, hg]
  held _ _ _ hs := hs
  sent _ _ hs := hs
  gap _ s hs := (congrArg g (sel_gap ..)).trans hs

/-- What is seen of a selector but its route, its WTR and the MSEQ last delivered stays. -/
theorem selectionKeeps_sel {β : Type} {g : Sel → β} (hl : ∀ x q, g { x with last := q } = g x)
    (hr : ∀ x r w, g { x with sel := r, wtr := w } = g x) (i : Nat) (b : β) : SelectionKeeps i (fun t => g (t.sel i) = b) where
  toDeliveryKeeps := deliveryKeeps_sel hl i b
  wtr w s hs := by
    rw [sel_updSel, if_pos rfl]
    exact (hr (s.sel i) (s.sel i).sel w).trans hs
  route _ _ hs := by rwa [sel_updSel, if_pos rfl, hr]
  switched _ hs := (congrArg g (sel_raiseEv ..)).trans hs

theorem selSwitch_sel (i r : Nat) (s : State) : ((selSwitch i r s).sel i).sel = r ∧ ((selSwitch i r s).sel i).wtr = false := by
  have h := (deliveryKeeps_sel (g := fun x => (x.sel, x.wtr)) (fun _ _ => rfl) i (r, false)).deliverHeld r ((s.port r).stby.length)
    (raiseEv (pgLINE 0) 0x84C 12 (updSel i (fun x => { x with sel := r, wtr := false }) s))
    (by rw [sel_raiseEv, sel_updSel, if_pos rfl])
  exact Prod.ext_iff.1 h

/-- A selector in use follows the highest request. -/
theorem selEval_follows {i : Nat} {s : State} (h : bit (s.selCtl i) 31 = true) :
    ((selEval i s).sel i).sel = (s.selRequest i).2.getD (s.sel i).sel ∧
      ((selEval i s).sel i).wtr = decide ((s.selRequest i).1 = 5) := by
  have hw : ∀ n, (updSel i (fun x => { x with wtr := decide ((s.selRequest i).1 = 5) }) s).sel n =
      if n = i then { s.sel i with wtr := decide ((s.selRequest i).1 = 5) } else s.sel n := fun n => sel_updSel ..
  unfold selEval
  simp only [h, Bool.not_true, Bool.false_eq_true, if_false]
  split
  · next r hr =>
    have h5 : (s.selRequest i).1 ≠ 5 := fun e => by simp [selRequest_wtr e] at hr
    split
    · next e => rw [hw, if_pos rfl, hr]; exact ⟨e.symm, rfl⟩
    · rw [hr, decide_eq_false h5]; exact selSwitch_sel ..
  · next hr => rw [hw, if_pos rfl, hr]; exact ⟨rfl, rfl⟩

/-! ## Holds (R279) -/

theorem holdForce_ports {α : Type} (f : LinePort → α) (p : Nat) (s : State) : SamePorts f s (holdForce p s) :=
  SamePorts.of_forAll (fun i t => (⟨fun _ => rfl⟩ : SamePorts f t (updSel i _ t))) _ s

/-- The end of a hold changes selectors alone. -/
theorem holdRelease_ports {α : Type} (f : LinePort → α) (p : Nat) (s : State) : SamePorts f s (holdRelease p s) := by
  unfold holdRelease
  dsimp only
  split
  · exact ⟨fun _ => rfl⟩
  · exact .refl s

/-! ## Counters (R448) -/

theorem bump_cnt_ne {p o q r : Nat} (h : cntKey q r ≠ cntKey p o) (n : Nat) (s : State) : (bump p o n s).cnt q r = s.cnt q r := by
  by_cases hp : s.pageOff p = true
  · simp [bump, hp]
  · by_cases hn : n = 0
    · simp [bump, hn]
    · rw [bump_cnt (by simpa using hp) q r hn, if_neg h]

theorem raiseEv_cnt_ne {p o q r : Nat} (h : cntKey q r ≠ cntKey p o) (b : Nat) (s : State) :
    (raiseEv p o b s).cnt q r = s.cnt q r := by
  by_cases hp : s.pageOff p = true
  · simp [raiseEv, hp]
  · rw [raiseEv_cnt (by simpa using hp), if_neg h]

theorem bump_counted {p n : Nat} {s : State} (hp : s.pageOff p = false) (o : Nat) (hn : n ≠ 0) : Counted p o n s (bump p o n s) := by
  refine ⟨?_, fun q hq => bump_cnt_ne ?_ n s⟩
  · rw [bump_cnt hp _ _ hn, if_pos rfl]
  · simp only [cntKey]; omega

/-- Selectors count on two counters of LINE0 alone. -/
theorem selectionKeeps_cnt {p o : Nat} (hsw : cntKey p o ≠ cntKey (pgLINE 0) 0x84C) (hgap : cntKey p o ≠ cntKey (pgLINE 0) 0x850)
    (i c : Nat) : SelectionKeeps i (fun t => t.cnt p o = c) where
  last _ _ h := h
  held _ _ _ h := h
  sent _ _ h := h
  gap n s h := by rwa [cnt_of_cnts ((event_k ..).only .cnts (by decide)), bump_cnt_ne hgap]
  wtr _ _ h := h
  route _ _ h := h
  switched s h := by rwa [raiseEv_cnt_ne hsw]

end Sys2Proof.Machine
end

section
/-! PROOF. O36 (R262, R271, R275 to R277, R282): what an allowed write of a LINE page stores, starts or refuses. -/
namespace Sys2Proof.Machine

open Sys2Proof

/-! ## Fields of a written value -/

theorem fld_eq_of_bits {a b : Word} {lo n : Nat} (h : ∀ i, i < n → bit a (lo + i) = bit b (lo + i)) : fld a lo n = fld b lo n := by
  unfold fld fldN
  apply Nat.eq_of_testBit_eq
  intro i
  simp only [Nat.testBit_mod_two_pow, Nat.testBit_div_two_pow]
  by_cases hi : i < n
  · simpa only [bit, BitVec.getLsbD, hi, decide_true, Bool.true_and, Nat.add_comm] using h i hi
  · simp only [hi, decide_false, Bool.false_and]

/-- A field that software sets takes the value written. -/
theorem fld_merge {m : Word} {lo n : Nat} (hm : ∀ i, i < n → bit m (lo + i) = true) (old v : Word) :
    fld (merge m old v) lo n = fld v lo n :=
  fld_eq_of_bits fun i hi => by rw [bit_merge, if_pos (hm i hi)]

theorem bit_setFld (v : Word) {lo n : Nat} (c i : Nat) (hi : i < 32) :
    bit (setFld v lo n c) i = if lo ≤ i ∧ i < lo + n then c.testBit (i - lo) else bit v i := by
  unfold bit setFld
  simp only [BitVec.getLsbD_or, BitVec.getLsbD_and, BitVec.getLsbD_not, wd, BitVec.getLsbD_ofNat, Nat.mul_comm _ (2 ^ lo),
    Nat.testBit_two_pow_mul, Nat.testBit_two_pow_sub_one, Nat.testBit_mod_two_pow, hi, decide_true, Bool.true_and]
  by_cases hlo : lo ≤ i <;> by_cases hn : i < lo + n
  · have : i - lo < n := by omega
    simp [hlo, hn, this]
  · have : ¬ i - lo < n := by omega
    simp [hlo, hn, this]
  · simp [hlo]
  · simp [hlo]

/-- A field that has been set. -/
theorem fld_setFld (v : Word) {lo n : Nat} (c : Nat) (h : lo + n ≤ 32) : fld (setFld v lo n c) lo n = c % 2 ^ n := by
  unfold fld fldN
  apply Nat.eq_of_testBit_eq
  intro i
  simp only [Nat.testBit_mod_two_pow, Nat.testBit_div_two_pow]
  by_cases hi : i < n
  · have hb := bit_setFld v (lo := lo) (n := n) c (i + lo) (by omega)
    rw [if_pos (by omega), Nat.add_sub_cancel] at hb
    simpa only [bit, BitVec.getLsbD, hi, decide_true, Bool.true_and] using hb
  · simp only [hi, decide_false, Bool.false_and]

/-! ## Rows of the LINE pages (Table 10.9) -/

theorem regRow_lineCtl (p : Port) : regRow (pgLINE p.val) 0x100 = some { off := 0x100, rw := 0x8F000000 } := by
  revert p; decide

theorem regRow_slotmap (p : Port) (k : Fin 4) : ∃ r, regRow (pgLINE p.val) (0x140 + 4 * k.val) = some r ∧ r.cls ≠ .ownIdx ∧
    r.pair = false ∧ r.rw ||| r.rwl ≠ 0 ∧ r.ix = none := by
  revert p k; decide

theorem regRow_trib (p : Port) (n : Fin 16) (hn : n ≠ 0) : regRow (pgLINE p.val) (0x150 + 4 * n.val) =
    some { off := 0x154, n := 15, rw := 0xC0000000 } := by
  revert p n; decide

theorem regRow_chCtl (p : Port) : regRow (pgLINE p.val) 0x194 =
    some { off := 0x194, cls := .entryJob 0x194 24, rw := 0x87FF000F, ix := some 0x190 } := by
  revert p; decide

theorem regRow_fwdFelt (p : Port) : regRow (pgLINE p.val) 0x1B0 = some { off := 0x1B0, rw := 0x1F } := by
  revert p; decide

theorem regRow_selCtl : regRow (pgLINE 0) 0x1C4 =
    some { off := 0x1C4, rw := 0xE700FFFF, reset := 0x40000000, ix := some 0x1C0 } := by
  decide

theorem pgKind_line (p : Port) : pgKind (pgLINE p.val) = .line := by
  revert p; decide

theorem pgInst_line (p : Port) : pgInst (pgLINE p.val) = p.val := by
  revert p; decide

theorem cmdBits_line (p : Port) (o : Nat) : cmdBits (pgLINE p.val) o = 0#32 := by
  unfold cmdBits
  rw [pgKind_line]
  rfl

theorem pageEffect_line (w : Who) (p : Port) (o ix : Nat) (v : DWord) (s : State) :
    pageEffect w (pgLINE p.val) o ix v s = lineEffect (pgLINE p.val) o ix v s := by
  unfold pageEffect
  rw [pgKind_line]

/-! ## The page's effect at each offset -/

section Effect

variable (p : Port) (ix : Nat) (v : DWord) (s : State)

theorem lineEffect_ctl : lineEffect (pgLINE p.val) 0x100 ix v s = lineCtlWr p.val (loW v) s := by
  simp only [lineEffect, pgInst_line, if_true]

theorem lineEffect_slotmap (k : Fin 4) :
    lineEffect (pgLINE p.val) (0x140 + 4 * k.val) ix v s = slotmapWr p.val k.val (loW v) s := by
  have hk : (0x140 + 4 * k.val - 0x140) / 4 = k.val := by omega
  simp only [lineEffect, pgInst_line, hk]
  rw [if_neg (by omega), if_neg (by omega), if_pos (by simp; omega)]

theorem lineEffect_trib (n : Fin 16) : lineEffect (pgLINE p.val) (0x150 + 4 * n.val) ix v s = tribWr p.val n.val (loW v) s := by
  have hn : (0x150 + 4 * n.val - 0x150) / 4 = n.val := by omega
  simp only [lineEffect, pgInst_line, hn]
  rw [if_neg (by omega), if_neg (by omega), if_neg (by simp), if_pos (by simp; omega)]

theorem lineEffect_chCtl : lineEffect (pgLINE p.val) 0x194 ix v s = chCtlWr p.val ix (loW v) s := by
  simp [lineEffect, pgInst_line]

theorem lineEffect_fwdFelt : lineEffect (pgLINE p.val) 0x1B0 ix v s = fwdFeltWr p.val (loW v) s := by
  simp [lineEffect, pgInst_line]

theorem lineEffect_selCtl : lineEffect (pgLINE 0) 0x1C4 ix v s = selCtlWr ix (loW v) s := rfl

end Effect

/-! ## An allowed write of a LINE page -/

section Write

variable {w : Who} {p : Port} {o : Nat} {v : Word} {s : State} {r : RegRow}
  (ha : s.allows w (pgLINE p.val) o v = true) (hr : regRow (pgLINE p.val) o = some r)
  (hc : r.cls ≠ .ownIdx) (hp : r.pair = false) (hm : r.rw ||| r.rwl ≠ 0)
include ha hr hc hp hm

theorem regWrite_line_ok {t : State}
    (he : lineEffect (pgLINE p.val) o (s.ixOf w (pgLINE p.val) o) ((s.taken w (pgLINE p.val) o v).setWidth 64) s = .ok t) :
    regWrite w (pgLINE p.val) o v s = t :=
  regWrite_ok ha hr hc hp (by rwa [cmdBits_line, BitVec.or_zero]) (by rwa [pageEffect_line])

theorem regWrite_line_stored {i : Nat} (hi : s.ixOf w (pgLINE p.val) o = i)
    (he : lineEffect (pgLINE p.val) o i ((s.taken w (pgLINE p.val) o v).setWidth 64) s =
      .ok (store (pgLINE p.val) o i (s.taken w (pgLINE p.val) o v) s)) :
    Stored w (pgLINE p.val) o v [] s (regWrite w (pgLINE p.val) o v s) := by
  subst hi
  exact stored_ok ha hr hc hp (by rwa [cmdBits_line, BitVec.or_zero]) (by rwa [pageEffect_line])

/-- A write that a LINE page refuses is recorded and changes the page headers alone. -/
theorem regWrite_line_refused {c : RefCode} (hcode : c ≠ .ocbBad ∧ c ≠ .owned)
    (he : lineEffect (pgLINE p.val) o (s.ixOf w (pgLINE p.val) o) ((s.taken w (pgLINE p.val) o v).setWidth 64) s = .error c) :
    Recorded w (pgLINE p.val) c o v s (regWrite w (pgLINE p.val) o v s) ∧
      OnlyIn [.pages] s (regWrite w (pgLINE p.val) o v s) := by
  have hsame : ∀ u : State, refusedToo c o u = u := by
    obtain ⟨h1, h2⟩ := hcode
    intro u
    unfold refusedToo
    split
    · exact absurd rfl h1
    · exact absurd rfl h2
    · rfl
  rw [regWrite_error ha hr hc hp (by rwa [cmdBits_line, BitVec.or_zero]) (by rwa [pageEffect_line]), hsame]
  exact ⟨refuse_recorded .., (refuse_k ..).only⟩

end Write

/-! ## LINEn_CTL (R262) -/

section LineCtl

variable {p : Nat} {v : Word} {s : State} (hrate : fld v 26 2 ≤ 1) (hmode : fld v 24 2 ≠ 3)
include hrate hmode

/-- An enabled port refuses another mode. -/
theorem lineCtlWr_busy (hon : bit (s.lineCtl p) 31 = true) (hne : fld (s.lineCtl p) 24 4 ≠ fld v 24 4) :
    lineCtlWr p v s = .error .portBusy := by
  simp [lineCtlWr, Nat.not_lt.2 hrate, hmode, hon, hne]

/-- A port out of service is not enabled. -/
theorem lineCtlWr_oos (hoff : bit (s.lineCtl p) 31 = false) (hv : bit v 31 = true) (hoos : (s.port p).oos = true) :
    lineCtlWr p v s = .error .portOos := by
  simp [lineCtlWr, Nat.not_lt.2 hrate, hmode, hoff, hv, hoos]

theorem lineCtlWr_takes (hsame : bit (s.lineCtl p) 31 = true → fld (s.lineCtl p) 24 4 = fld v 24 4)
    (hserves : bit (s.lineCtl p) 31 = false → bit v 31 = true → (s.port p).oos = false)
    (hfits : ∀ n, n < 15 → s.cirOver p (n + 1) (fld v 24 2) 0 = false) :
    lineCtlWr p v s = .ok (if bit v 31 = bit (s.lineCtl p) 31 then store (pgLINE p) 0x100 0 v s
      else lineEnable p (bit v 31) (store (pgLINE p) 0x100 0 v s)) := by
  have hcir : ((List.range 15).any fun t => s.cirOver p (t + 1) (fld v 24 2) 0) = false :=
    List.any_eq_false.2 fun n hn => by simp [hfits n (List.mem_range.1 hn)]
  have hbusy : ¬ (bit (s.lineCtl p) 31 && decide (fld (s.lineCtl p) 24 4 ≠ fld v 24 4)) = true := by
    simpa using hsame
  have hoos : ¬ (bit v 31 && !bit (s.lineCtl p) 31 && (s.port p).oos) = true := by
    simp only [Bool.and_eq_true, Bool.not_eq_true']
    rintro ⟨⟨hv, hoff⟩, hout⟩
    simp [hserves hoff hv] at hout
  have henc : ¬ (decide (fld v 26 2 > 1) || decide (fld v 24 2 = 3)) = true := by
    simp [Nat.not_lt.2 hrate, hmode]
  unfold lineCtlWr
  dsimp only
  rw [if_neg henc, if_neg hbusy, if_neg hoos, hcir]
  rfl

end LineCtl

/-- What a port is seen to hold of its receiver and framer once it has been enabled or disabled. -/
theorem lineEnable_port {α : Type} {f : LinePort → α} (hf : ∀ l x, f { l with stby := x } = f l) {p : Nat} (hp : p < 2) (on : Bool)
    (s : State) :
    ∃ l : LinePort, f ((lineEnable p on s).port p) = f l ∧ l.defects = 0 ∧ l.shown = 0 ∧ l.told = 0 ∧ l.asm = [] ∧ l.cur = [] := by
  unfold lineEnable
  dsimp only
  refine ⟨_, ((((laserEnable_k ..).samePorts (by decide)).trans (holdRelease_ports f p _)).trans (selEvalAll_ports hf _)).eq p, ?_⟩
  rw [updPort_at _ _ _ _ hp, if_pos rfl]
  exact ⟨rfl, rfl, rfl, rfl, rfl⟩

theorem lineCtlWrite_line (w : Who) (p : Port) (v : Word) (s : State) (ha : s.allows w (pgLINE p.val) 0x100 v = true)
    (hrate : fld (s.taken w (pgLINE p.val) 0x100 v) 26 2 ≤ 1) (hmode : fld (s.taken w (pgLINE p.val) 0x100 v) 24 2 ≠ 3) :
    let x := s.taken w (pgLINE p.val) 0x100 v
    let old := s.lineCtl p.val
    (bit old 31 = true → fld old 24 4 ≠ fld x 24 4 → Completes (.lineCtlWrite w p v) s fun t =>
      Recorded w (pgLINE p.val) .portBusy 0x100 v s t ∧ OnlyIn [.pages] s t) ∧
    (bit old 31 = false → bit x 31 = true → (s.port p.val).oos = true → Completes (.lineCtlWrite w p v) s fun t =>
      Recorded w (pgLINE p.val) .portOos 0x100 v s t ∧ OnlyIn [.pages] s t) ∧
    ((bit old 31 = true → fld old 24 4 = fld x 24 4) → (bit old 31 = false → bit x 31 = true → (s.port p.val).oos = false) →
      (∀ n, n < 15 → s.cirOver p.val (n + 1) (fld x 24 2) 0 = false) →
      (bit x 31 = bit old 31 → Completes (.lineCtlWrite w p v) s fun t => Stored w (pgLINE p.val) 0x100 v [] s t) ∧
      (bit x 31 ≠ bit old 31 → Completes (.lineCtlWrite w p v) s fun t =>
        t.regs = (s.setReg (pgLINE p.val) 0x100 x).regs ∧ (t.port p.val).defects = 0 ∧ (t.port p.val).shown = 0 ∧
        (t.port p.val).told = 0 ∧ (t.port p.val).asm = [] ∧ (t.port p.val).cur = [] ∧
        OnlyIn [.line, .opt, .host, .mgmt, .pages, .regs, .cnts] s t)) := by
  intro x old
  have hr := regRow_lineCtl p
  have heff : ∀ ix, lineEffect (pgLINE p.val) 0x100 ix (x.setWidth 64) s = lineCtlWr p.val x s := fun ix => by
    rw [lineEffect_ctl, loW_setWidth]
  refine ⟨fun hon hne => ?_, fun hoff hv hoos => ?_, fun hsame hserves hfits => ?_⟩
  · exact ⟨_, rfl, regWrite_line_refused ha hr (by decide) rfl (by decide) (by decide)
      ((heff _).trans (lineCtlWr_busy hrate hmode hon hne))⟩
  · exact ⟨_, rfl, regWrite_line_refused ha hr (by decide) rfl (by decide) (by decide)
      ((heff _).trans (lineCtlWr_oos hrate hmode hoff hv hoos))⟩
  · have hok := lineCtlWr_takes hrate hmode hsame hserves hfits
    refine ⟨fun hkeep => ?_, fun hturn => ?_⟩
    · rw [if_pos hkeep] at hok
      exact ⟨_, rfl, regWrite_line_stored ha hr (by decide) rfl (by decide) (ixOf_none hr (by decide) rfl) ((heff _).trans hok)⟩
    · rw [if_neg hturn] at hok
      obtain ⟨l, hl, hzero⟩ := lineEnable_port (f := fun l => (l.defects, l.shown, l.told, l.asm, l.cur)) (fun _ _ => rfl)
        p.isLt (bit x 31) (store (pgLINE p.val) 0x100 0 x s)
      have hw := regWrite_line_ok ha hr (by decide) rfl (by decide) ((heff _).trans hok)
      simp only [hzero, Prod.mk.injEq] at hl
      obtain ⟨h1, h2, h3, h4, h5⟩ := hl
      exact ⟨_, congrArg Host.Outcome.next hw, (lineEnable_k ..).only .regs (by decide), h1, h2, h3, h4, h5, ((lineCtlWr_k ..).get hok).only⟩

/-! ## Selector commands (R277) -/

/-- The CMD of a selector command is one of the row's two codes. -/
theorem withSel_cmd (v : Word) {c : Nat} (hc : c + 1 < 8) : fld (withSel v c) 24 3 = c ∨ fld (withSel v c) 24 3 = c + 1 := by
  unfold withSel
  rw [fld_setFld _ _ (by decide)]
  split <;> omega

/-- The four commands write LINE0_SEL_CTL with a CMD that is not reserved. -/
theorem exec_selCommand {w : Who} {v : Word} {c : Instr} {x : Word} (s : State)
    (h : c = .selLockout w v ∧ x = withSel v 1 ∨ c = .selForce w v ∧ x = withSel v 3 ∨ c = .selManual w v ∧ x = withSel v 5 ∨
      c = .selClear w v ∧ x = setFld v 24 3 0) :
    exec c s = .next (regWrite w (pgLINE 0) 0x1C4 x s) ∧ fld x 24 3 ≠ 7 := by
  obtain ⟨rfl, rfl⟩ | ⟨rfl, rfl⟩ | ⟨rfl, rfl⟩ | ⟨rfl, rfl⟩ := h
  · exact ⟨rfl, by have := withSel_cmd v (c := 1) (by decide); omega⟩
  · exact ⟨rfl, by have := withSel_cmd v (c := 3) (by decide); omega⟩
  · exact ⟨rfl, by have := withSel_cmd v (c := 5) (by decide); omega⟩
  · exact ⟨rfl, by rw [fld_setFld _ _ (by decide)]; decide⟩

/-- LOCKOUT selects its route whatever the states. -/
theorem selRequest_lockout {i : Nat} {s : State} :
    (fld (s.selCtl i) 24 3 = 1 → s.selRequest i = (0, some 1)) ∧ (fld (s.selCtl i) 24 3 = 2 → s.selRequest i = (0, some 0)) := by
  unfold State.selRequest
  exact ⟨fun h => if_pos h, fun h => (if_neg (by rw [h]; decide)).trans (if_pos h)⟩

/-- A selector in use whose peer stays follows its highest request under the new command. -/
theorem selCtlWr_follows {i : Nat} {v : Word} {s : State} (hcmd : fld v 24 3 ≠ 7) (hold : bit (s.selCtl i) 31 = true)
    (hv : bit v 31 = true) (hpeer : fld (s.selCtl i) 0 16 = fld v 0 16) :
    selCtlWr i v s = .ok (selEval i (store (pgLINE 0) 0x1C4 i v s)) := by
  simp [selCtlWr, hcmd, hold, hv, hpeer]

theorem selCommand_line (w : Who) (v : Word) (c : Instr) (x : Word) (s : State)
    (hcmd : c = .selLockout w v ∧ x = withSel v 1 ∨ c = .selForce w v ∧ x = withSel v 3 ∨ c = .selManual w v ∧ x = withSel v 5 ∨
      c = .selClear w v ∧ x = setFld v 24 3 0) :
    let i := s.ixOf w (pgLINE 0) 0x1C4
    let y := s.taken w (pgLINE 0) 0x1C4 x
    s.allows w (pgLINE 0) 0x1C4 x = true →
    bit (s.selCtl i) 31 = true → bit y 31 = true → fld (s.selCtl i) 0 16 = fld y 0 16 →
    Completes c s fun t =>
      let u := s.setReg (pgLINE 0) 0x1C4 y i
      t.regs = u.regs ∧ fld y 24 3 = fld x 24 3 ∧ (t.sel i).sel = ((u.selRequest i).2).getD (s.sel i).sel ∧
      (t.sel i).wtr = decide ((u.selRequest i).1 = 5) ∧
      (fld x 24 3 = 1 → (t.sel i).sel = 1) ∧ (fld x 24 3 = 2 → (t.sel i).sel = 0) ∧
      (∀ n, n ≠ i → t.sel n = s.sel n) ∧ OnlyIn [.line, .host, .mgmt, .pages, .regs, .cnts] s t := by
  intro i y ha hold hy hpeer
  obtain ⟨hexec, hrsvd⟩ := exec_selCommand s hcmd
  let u := s.setReg (pgLINE 0) 0x1C4 y i
  have hfld : fld y 24 3 = fld x 24 3 := by
    simp only [y, State.taken, regRow_selCtl]
    exact fld_merge (by decide) ..
  have hctl : u.selCtl i = y := State.reg_setReg_self ..
  have hok : selCtlWr i y s = .ok (selEval i u) := selCtlWr_follows (hfld ▸ hrsvd) hold hy hpeer
  have hw : regWrite w (pgLINE 0) 0x1C4 x s = selEval i u :=
    regWrite_line_ok (p := 0) ha regRow_selCtl (by decide) rfl (by decide) (by rw [← hok]; exact congrArg (selCtlWr i · s) (loW_setWidth _))
  obtain ⟨hsel, hwtr⟩ := selEval_follows (s := u) (i := i) (by rw [hctl]; exact hy)
  obtain ⟨hlock1, hlock0⟩ := selRequest_lockout (s := u) (i := i)
  rw [hctl, hfld] at hlock1 hlock0
  refine ⟨_, hexec.trans (congrArg Host.Outcome.next hw), (selEval_k ..).only .regs (by decide), hfld, hsel, hwtr, fun h => ?_, fun h => ?_,
    fun n hn => (selectionKeeps_other hn _).selEval rfl, ((selCtlWr_k ..).get hok).only⟩
  · rw [hsel, hlock1 h]; rfl
  · rw [hsel, hlock0 h]; rfl

/-! ## Channels (R271, R282) -/

/-- A channel entry begins with empty buckets. -/
def emptyBuckets (i : Nat) (l : LinePort) : LinePort :=
  { l with com := SMap.erase i l.com, peak := SMap.erase i l.peak
           defc := SMap.erase (512 + i) (SMap.erase (1024 + i) l.defc) }

theorem chCtlWr_new {p i : Nat} {v : Word} {s : State} (hold : bit (s.chCtl p i) 31 = false) (hv : bit v 31 = true)
    (ht : chTrib v ≠ 0)
    (hfits : s.cirOver p (chTrib v) (fld (s.lineCtl p) 24 2) (s.regF (pgLINE p) 0x198 0 20 i) = false) :
    chCtlWr p i v s = .ok (store (pgLINE p) 0x194 i v (updPort p (emptyBuckets i) s)) := by
  simp only [chCtlWr, hold, hv, ht, hfits, Bool.false_and, Bool.not_true, Bool.false_eq_true, if_false]
  rfl

theorem chCtlWr_ends {p i : Nat} {v : Word} {s : State} (hv : bit v 31 = false) :
    chCtlWr p i v s = .ok (store (pgLINE p) 0x194 i v (updPort p (emptyBuckets i) s)) := by
  simp only [chCtlWr, hv, Bool.and_false, Bool.not_false, Bool.false_eq_true, if_true, if_false]
  rfl

theorem chCtlWr_busy {p i : Nat} {v : Word} {s : State} (hold : bit (s.chCtl p i) 31 = true) (hv : bit v 31 = true)
    (hne : v ≠ s.chCtl p i) : chCtlWr p i v s = .error .chBusy := by
  simp [chCtlWr, hold, hv, hne]

/-- What a write of a channel entry leaves in the registers and in the ports. -/
theorem chStored_regs (p i : Nat) (v : Word) (s : State) :
    (store (pgLINE p) 0x194 i v (updPort p (emptyBuckets i) s)).regs = (s.setReg (pgLINE p) 0x194 v i).regs := rfl

theorem chStored_port {q : Nat} (hq : q < 2) (p i : Nat) (v : Word) (s : State) :
    (store (pgLINE p) 0x194 i v (updPort p (emptyBuckets i) s)).port q = if q = p then emptyBuckets i (s.port q) else s.port q := by
  rw [← updPort_at p q (emptyBuckets i) s hq]
  simp only [State.port, store, State.setReg_line]

theorem emptyBuckets_find (i : Nat) (l : LinePort) :
    SMap.find (emptyBuckets i l).com i = none ∧ SMap.find (emptyBuckets i l).peak i = none :=
  ⟨(SMap.find_erase ..).trans (if_pos rfl), (SMap.find_erase ..).trans (if_pos rfl)⟩

theorem chCtlWrite_line (w : Who) (p : Port) (v : Word) (s : State) :
    let i := s.ixOf w (pgLINE p.val) 0x194
    let x := s.taken w (pgLINE p.val) 0x194 v
    s.allows w (pgLINE p.val) 0x194 v = true →
    (bit (s.chCtl p.val i) 31 = false → bit x 31 = true → chTrib x ≠ 0 →
      s.cirOver p.val (chTrib x) (fld (s.lineCtl p.val) 24 2) (s.regF (pgLINE p.val) 0x198 0 20 i) = false →
      Completes (.chCtlWrite w p v) s fun t =>
        t.regs = (s.setReg (pgLINE p.val) 0x194 x i).regs ∧ SMap.find (t.port p.val).com i = none ∧
        SMap.find (t.port p.val).peak i = none ∧ t.port (1 - p.val) = s.port (1 - p.val) ∧ OnlyIn [.line, .regs] s t) ∧
    (bit (s.chCtl p.val i) 31 = true → bit x 31 = false → Completes (.chCtlWrite w p v) s fun t =>
      t.regs = (s.setReg (pgLINE p.val) 0x194 x i).regs ∧ OnlyIn [.line, .regs] s t) ∧
    (bit (s.chCtl p.val i) 31 = true → bit x 31 = true → x ≠ s.chCtl p.val i →
      Completes (.chCtlWrite w p v) s fun t => Recorded w (pgLINE p.val) .chBusy 0x194 v s t ∧ OnlyIn [.pages] s t) := by
  intro i x ha
  have hr := regRow_chCtl p
  have heff : lineEffect (pgLINE p.val) 0x194 i (x.setWidth 64) s = chCtlWr p.val i x s := by
    rw [lineEffect_chCtl, loW_setWidth]
  refine ⟨fun hold hv ht hfits => ?_, fun _ hv => ?_, fun hold hv hne => ?_⟩
  · have hok := chCtlWr_new hold hv ht hfits
    have hw := regWrite_line_ok ha hr (by decide) rfl (by decide) (heff.trans hok)
    obtain ⟨hcom, hpeak⟩ := emptyBuckets_find i (s.port p.val)
    refine ⟨_, congrArg Host.Outcome.next hw, chStored_regs .., ?_, ?_, ?_, ((chCtlWr_k ..).get hok).only⟩
    · rwa [chStored_port p.isLt, if_pos rfl]
    · rwa [chStored_port p.isLt, if_pos rfl]
    · rw [chStored_port (by omega), if_neg (by omega)]
  · have hok := chCtlWr_ends (p := p.val) (i := i) (s := s) hv
    have hw := regWrite_line_ok ha hr (by decide) rfl (by decide) (heff.trans hok)
    exact ⟨_, congrArg Host.Outcome.next hw, chStored_regs .., ((chCtlWr_k ..).get hok).only⟩
  · exact ⟨_, rfl, regWrite_line_refused ha hr (by decide) rfl (by decide) (by decide) (heff.trans (chCtlWr_busy hold hv hne))⟩

/-! ## Tributaries and slot maps (R275, R282) -/

theorem exec_tribWrite {w : Who} {p : Port} {o : Nat} {v : Word} {s : State} (hlo : 0x140 ≤ o) (hhi : o < 0x190) :
    exec (.tribWrite w p o v) s = .next (regWrite w (pgLINE p.val) o v s) := by
  show execTribWrite w p o v s = _
  simp [execTribWrite, whenD, hlo, hhi]

theorem tribWr_takes {p n : Nat} {v : Word} {s : State} (hn : n ≠ 0)
    (hidle : v = s.tribReg p n ∨ (s.tribHasCh p n || (s.relayOn p n && s.lineEn p)) = false)
    (hrelay : bit v 31 = true → bit v 30 = true → s.tribSlots 0 n = s.tribSlots 1 n) :
    tribWr p n v s = .ok (store (pgLINE p) (0x150 + 4 * n) 0 v s) := by
  have hbusy : ¬ (decide (v ≠ s.tribReg p n) && (s.tribHasCh p n || (s.relayOn p n && s.lineEn p))) = true := by
    rcases hidle with h | h <;> simp [h]
  have hmatch : ¬ (bit v 31 && bit v 30 && decide (s.tribSlots 0 n ≠ s.tribSlots 1 n)) = true := by
    simpa using hrelay
  unfold tribWr
  dsimp only
  rw [if_neg hn, if_neg hbusy, if_neg hmatch]

theorem tribWr_busy {p n : Nat} {v : Word} {s : State} (hn : n ≠ 0) (hne : v ≠ s.tribReg p n)
    (hbusy : (s.tribHasCh p n || (s.relayOn p n && s.lineEn p)) = true) : tribWr p n v s = .error .chBusy := by
  simp only [tribWr, hn, hne, hbusy, ne_eq, not_false_eq_true, decide_true, Bool.and_self, if_true, if_false]

theorem tribWrite_line (w : Who) (p : Port) (n : Fin 16) (v : Word) (s : State) :
    let o := 0x150 + 4 * n.val
    let x := s.taken w (pgLINE p.val) o v
    let busy := s.tribHasCh p.val n.val || (s.relayOn p.val n.val && s.lineEn p.val)
    s.allows w (pgLINE p.val) o v = true → n ≠ 0 →
    (x = s.tribReg p.val n.val ∨ busy = false → (bit x 31 = true → bit x 30 = true → s.tribSlots 0 n.val = s.tribSlots 1 n.val) →
      Completes (.tribWrite w p o v) s fun t => Stored w (pgLINE p.val) o v [] s t) ∧
    (x ≠ s.tribReg p.val n.val → busy = true → Completes (.tribWrite w p o v) s fun t =>
      Recorded w (pgLINE p.val) .chBusy o v s t ∧ OnlyIn [.pages] s t) := by
  intro o x busy ha hn
  have hr := regRow_trib p n hn
  have hn0 : n.val ≠ 0 := fun h => hn (Fin.ext h)
  have hexec : exec (.tribWrite w p o v) s = .next (regWrite w (pgLINE p.val) o v s) := exec_tribWrite (by omega) (by omega)
  have heff : ∀ ix, lineEffect (pgLINE p.val) o ix (x.setWidth 64) s = tribWr p.val n.val x s := fun ix => by
    rw [lineEffect_trib, loW_setWidth]
  refine ⟨fun hidle hrelay => ⟨_, hexec, ?_⟩, fun hne hbusy => ⟨_, hexec, ?_⟩⟩
  · exact regWrite_line_stored ha hr (by decide) rfl (by decide) (ixOf_none hr (by decide) rfl)
      ((heff _).trans (tribWr_takes hn0 hidle hrelay))
  · exact regWrite_line_refused ha hr (by decide) rfl (by decide) (by decide) ((heff _).trans (tribWr_busy hn0 hne hbusy))

/-- A slot map is stored where no tributary whose slots it changes has a channel or is relayed on either port. -/
theorem slotmapWr_takes {p k : Nat} {v : Word} {s : State}
    (h : ∀ n, n < 16 → n ≠ 0 → slotsAfter p k v n s ≠ s.tribSlots p n →
      s.tribHasCh p n = false ∧ s.relayOn p n = false ∧ s.relayOn (1 - p) n = false) :
    slotmapWr p k v s = .ok (store (pgLINE p) (0x140 + 4 * k) 0 v s) := by
  have hts : ∀ n ∈ (List.range 16).filter (fun t => t ≠ 0 && slotsAfter p k v t s ≠ s.tribSlots p t),
      s.tribHasCh p n = false ∧ s.relayOn p n = false ∧ s.relayOn (1 - p) n = false := fun n hn => by
    simp only [List.mem_filter, List.mem_range, Bool.and_eq_true, decide_eq_true_eq] at hn
    exact h n hn.1 hn.2.1 hn.2.2
  unfold slotmapWr
  dsimp only
  rw [if_neg, if_neg]
  · rw [Bool.not_eq_true, List.any_eq_false]
    intro n hn
    obtain ⟨-, h1, h2⟩ := hts n hn
    simp [h1, h2]
  · rw [Bool.not_eq_true, List.any_eq_false]
    intro n hn
    obtain ⟨h0, h1, -⟩ := hts n hn
    simp [h0, h1]

theorem slotmapWrite_line (w : Who) (p : Port) (k : Fin 4) (v : Word) (s : State) :
    let o := 0x140 + 4 * k.val
    let x := s.taken w (pgLINE p.val) o v
    s.allows w (pgLINE p.val) o v = true →
    (∀ n, n < 16 → n ≠ 0 → slotsAfter p.val k.val x n s ≠ s.tribSlots p.val n →
      s.tribHasCh p.val n = false ∧ s.relayOn p.val n = false ∧ s.relayOn (1 - p.val) n = false) →
    Completes (.tribWrite w p o v) s fun t => Stored w (pgLINE p.val) o v [] s t := by
  intro o x ha h
  obtain ⟨r, hr, hc, hp, hm, hi⟩ := regRow_slotmap p k
  refine ⟨_, exec_tribWrite (by omega) (by omega), regWrite_line_stored ha hr hc hp hm (ixOf_none hr hc hi) ?_⟩
  rw [lineEffect_slotmap, loW_setWidth]
  exact slotmapWr_takes h

/-! ## Forwarding felt (R276) -/

theorem fwdFeltWrite_line (w : Who) (p : Port) (v : Word) (s : State) :
    let x := s.taken w (pgLINE p.val) 0x1B0 v
    let relay := (List.range 15).any fun n => s.relayOn p.val (n + 1)
    s.allows w (pgLINE p.val) 0x1B0 v = true →
    (x = s.reg (pgLINE p.val) 0x1B0 ∨ relay = false →
      Completes (.fwdFeltWrite w p v) s fun t => Stored w (pgLINE p.val) 0x1B0 v [] s t) ∧
    (x ≠ s.reg (pgLINE p.val) 0x1B0 → relay = true →
      Completes (.fwdFeltWrite w p v) s fun t => Recorded w (pgLINE p.val) .fwdBusy 0x1B0 v s t ∧ OnlyIn [.pages] s t) := by
  intro x relay ha
  have hr := regRow_fwdFelt p
  have heff : ∀ ix, lineEffect (pgLINE p.val) 0x1B0 ix (x.setWidth 64) s =
      if (decide (x ≠ s.reg (pgLINE p.val) 0x1B0) && relay) = true then .error .fwdBusy
      else .ok (store (pgLINE p.val) 0x1B0 0 x s) := fun ix => by
    rw [lineEffect_fwdFelt, loW_setWidth]
    rfl
  refine ⟨fun hidle => ⟨_, rfl, ?_⟩, fun hne hrelay => ⟨_, rfl, ?_⟩⟩
  · refine regWrite_line_stored ha hr (by decide) rfl (by decide) (ixOf_none hr (by decide) rfl) ((heff _).trans (if_neg ?_))
    rcases hidle with h | h <;> simp [h]
  · exact regWrite_line_refused ha hr (by decide) rfl (by decide) (by decide) ((heff _).trans (if_pos (by simp [hne, hrelay])))

/-- Settles O36: one lemma for each register, each the page's effect on the value that an allowed write gives it. -/
theorem lineRegisters : Obligations.LineRegisters := by
  unfold Obligations.LineRegisters
  exact ⟨fun w p v s ha => lineCtlWrite_line w p v s ha, selCommand_line, chCtlWrite_line, tribWrite_line, slotmapWrite_line,
    fwdFeltWrite_line⟩

end Sys2Proof.Machine
end

section
/-! PROOF. Protected messages and selectors (R277, R278): where a message goes, and what a timer of a selector does. -/
namespace Sys2Proof.Machine

open Sys2Proof

/-! ## Where a message goes -/

section Message

variable {p : Port} {m : ProtMsg} {s : State}

/-- A message that has used up its hops, or has come back to its source, is dropped and counted. -/
theorem exec_protMessage_dropped (h : m.hops = 0 ∨ m.src = Config.seid) :
    exec (.protMessage p m) s = .next (bump (pgLINE p.val) 0x83C 1 s) :=
  congrArg Host.Outcome.next (if_pos (by simpa using h))

variable (hhops : m.hops ≠ 0) (hsrc : m.src ≠ Config.seid)
include hhops hsrc

/-- A message for another gateway goes on along the line. -/
theorem exec_protMessage_forwarded (hdst : m.dst ≠ Config.seid) :
    exec (.protMessage p m) s = .next (protQueue (1 - p.val) { m with hops := m.hops - 1 } none s) :=
  congrArg Host.Outcome.next ((if_neg (by simpa [hsrc] using hhops)).trans (if_pos hdst))

theorem exec_protMessage_local (hdst : m.dst = Config.seid) : exec (.protMessage p m) s = .next (protLocal p.val m s) :=
  congrArg Host.Outcome.next ((if_neg (by simpa [hsrc] using hhops)).trans (if_neg (Classical.not_not.2 hdst)))

end Message

/-- A message for this gateway, once the selector of its source has noted that its route is alive. -/
theorem protLocal_selected {p : Port} {m : ProtMsg} {i : Nat} {s : State} (hi : s.selOf m.src = some i) :
    let u := selEval i (updSel i (fun x => if p = 0 then { x with tmo0 := false } else { x with tmo1 := false }) s)
    protLocal p.val m s = if (u.sel i).sel ≠ p.val then protHold i p.val m u
      else if (u.sel i).beyond m.mseq then protDeliver i p.val m u else u := by
  have hp : (p.val = 0) = (p = 0) := propext ⟨fun h => Fin.ext h, fun h => h ▸ rfl⟩
  unfold protLocal
  rw [hi]
  simp only [hp]

/-- A delivery notes the MSEQ and sends the message on. -/
theorem protDeliver_delivers (i r : Nat) (m : ProtMsg) (s : State) :
    ((protDeliver i r m s).sel i).last = some m.mseq ∧ Out.protDeliver (Fin.ofNat 2 r) m ∈ (protDeliver i r m s).out :=
  ⟨congrArg Sel.last ((sel_updSel ..).trans (if_pos rfl)), List.mem_append_right _ (List.mem_singleton.2 rfl)⟩

/-- A copy that the hold area has room for is held behind the others. -/
theorem protHold_fits {i p : Nat} {m : ProtMsg} {s : State} (hp : p < 2)
    (h : stbyBytes ((s.port p).stby ++ [(i, m)]) ≤ 256 * 2 ^ 20) :
    protHold i p m s = updPort p (fun l => { l with stby := l.stby ++ [(i, m)] }) s := by
  rw [protHold, stbyTrim, if_pos]
  rwa [updPort_at _ _ _ _ hp, if_pos rfl]

theorem protMessage_line (p : Port) (m : ProtMsg) (s : State) :
    (m.hops = 0 ∨ m.src = Config.seid → Completes (.protMessage p m) s fun t =>
      (s.pageOff (pgLINE p.val) = false → Counted (pgLINE p.val) 0x83C 1 s t) ∧ OnlyIn [.pages, .cnts] s t) ∧
    (m.hops ≠ 0 → m.src ≠ Config.seid → m.dst ≠ Config.seid → Completes (.protMessage p m) s fun t =>
      (t.port (1 - p.val)).protQ = (s.port (1 - p.val)).protQ ++ [({ m with hops := m.hops - 1 }, none)] ∧
      t.port p.val = s.port p.val ∧ OnlyIn [.line] s t) ∧
    (m.hops ≠ 0 → m.src ≠ Config.seid → m.dst = Config.seid → s.selOf m.src = none → Completes (.protMessage p m) s fun t =>
      (s.pageOff (pgLINE 0) = false → Counted (pgLINE 0) 0x854 1 s t) ∧ OnlyIn [.pages, .cnts] s t) ∧
    (∀ i, m.hops ≠ 0 → m.src ≠ Config.seid → m.dst = Config.seid → s.selOf m.src = some i →
      let u := selEval i (updSel i (fun x => if p = 0 then { x with tmo0 := false } else { x with tmo1 := false }) s)
      Completes (.protMessage p m) s fun t =>
        ((u.sel i).sel = p.val → (u.sel i).beyond m.mseq = true →
          (t.sel i).last = some m.mseq ∧ Out.protDeliver (Fin.ofNat 2 p.val) m ∈ t.out) ∧
        ((u.sel i).sel = p.val → (u.sel i).beyond m.mseq = false → t = u) ∧
        ((u.sel i).sel ≠ p.val → stbyBytes ((u.port p.val).stby ++ [(i, m)]) ≤ 256 * 2 ^ 20 →
          (t.port p.val).stby = (u.port p.val).stby ++ [(i, m)] ∧ t.out = u.out) ∧
        OnlyIn [.line, .host, .mgmt, .pages, .cnts] s t) := by
  refine ⟨fun h => ?dropped, fun hhops hsrc hdst => ?forwarded, fun hhops hsrc hdst hno => ?unknown,
    fun i hhops hsrc hdst hi => ?selected⟩
  case dropped =>
    exact ⟨_, exec_protMessage_dropped h, fun hon => bump_counted hon _ (by decide), (bump_k ..).only⟩
  case forwarded =>
    refine ⟨_, exec_protMessage_forwarded hhops hsrc hdst, ?_, ?_, (protQueue_k ..).only⟩
    · rw [protQueue, updPort_at _ _ _ _ (by omega), if_pos rfl]
    · rw [protQueue, updPort_at _ _ _ _ p.isLt, if_neg (by omega)]
  case unknown =>
    have hcount : protLocal p.val m s = bump (pgLINE 0) 0x854 1 s := by rw [protLocal, hno]
    exact ⟨_, (exec_protMessage_local hhops hsrc hdst).trans (congrArg _ hcount), fun hon => bump_counted hon _ (by decide),
      (bump_k ..).only⟩
  case selected =>
    intro u
    have ht : protLocal p.val m s = if (u.sel i).sel ≠ p.val then protHold i p.val m u
      else if (u.sel i).beyond m.mseq then protDeliver i p.val m u else u := protLocal_selected hi
    refine ⟨_, exec_protMessage_local hhops hsrc hdst, fun hsel hnew => ?_, fun hsel hold => ?_, fun hsel hroom => ?_,
      (protLocal_k ..).only⟩
    · rw [ht, if_neg (Classical.not_not.2 hsel), if_pos hnew]
      exact protDeliver_delivers ..
    · rw [ht, if_neg (Classical.not_not.2 hsel), if_neg (by simp [hold])]
    · rw [ht, if_pos hsel, protHold_fits p.isLt hroom, updPort_at _ _ _ _ p.isLt, if_pos rfl]
      exact ⟨rfl, rfl⟩

/-! ## Timers of a selector -/

theorem routeTimeout_line (i : Fin 64) (r : Port) (s : State) (h : bit (s.selCtl i.val) 31 = true) :
    Completes (.routeTimeout i r) s fun t =>
      let u := updSel i.val (fun x => if r = 0 then { x with tmo0 := true } else { x with tmo1 := true }) s
      (t.sel i.val).sel = ((u.selRequest i.val).2).getD (s.sel i.val).sel ∧
      (t.sel i.val).wtr = decide ((u.selRequest i.val).1 = 5) ∧ (if r = 0 then (t.sel i.val).tmo0 else (t.sel i.val).tmo1) = true ∧
      (∀ n, n ≠ i.val → t.sel n = s.sel n) ∧ OnlyIn [.line, .host, .mgmt, .pages, .cnts] s t := by
  let u := updSel i.val (fun x => if r = 0 then { x with tmo0 := true } else { x with tmo1 := true }) s
  have hexec : exec (.routeTimeout i r) s = .next (selEval i.val u) := congrArg Host.Outcome.next (if_neg (by simp [h]))
  have hu : ∀ n, u.sel n = if n = i.val then (if r = 0 then { s.sel i.val with tmo0 := true } else { s.sel i.val with tmo1 := true })
      else s.sel n := fun n => sel_updSel ..
  have hroute : (u.sel i.val).sel = (s.sel i.val).sel := by
    rw [hu, if_pos rfl]
    split <;> rfl
  have htmo : (if r = 0 then (u.sel i.val).tmo0 else (u.sel i.val).tmo1) = true := by
    rw [hu, if_pos rfl]
    split <;> rfl
  obtain ⟨hsel, hwtr⟩ := selEval_follows (s := u) (i := i.val) h
  rw [hroute] at hsel
  refine ⟨_, hexec, hsel, hwtr, ?_, fun n hn => ?_, ((execRouteTimeout_k i r s).get hexec).only⟩
  · exact (selectionKeeps_sel (g := fun x => if r = 0 then x.tmo0 else x.tmo1) (fun _ _ => rfl) (fun _ _ _ => rfl) i.val _).selEval htmo
  · exact (selectionKeeps_other hn _).selEval ((hu n).trans (if_neg hn))

/-- A selector's switch of route leaves the requests of Table 10.6 but for the selection itself. -/
theorem selSwitch_request {i : Nat} {s : State} (h : (s.selRequest i).1 = 5) :
    (selSwitch i (fld (s.selCtl i) 29 1) s).selRequest i = (6, none) := by
  have hctl : (selSwitch i (fld (s.selCtl i) 29 1) s).selCtl i = s.selCtl i :=
    selCtl_of_regs ((selSwitch_k ..).only .regs (by decide)) i
  have hport : SamePorts (fun l => (l.shown, l.holdRx)) s (selSwitch i (fld (s.selCtl i) 29 1) s) :=
    (selectionKeeps_ports (fun _ _ => rfl) i s).selSwitch _ (.refl s)
  have hsel := (selectionKeeps_sel (g := fun x => (x.hold0, x.hold1, x.tmo0, x.tmo1)) (fun _ _ => rfl) (fun _ _ _ => rfl) i
    _).selSwitch (fld (s.selCtl i) 29 1) (s := s) rfl
  simp only [Prod.mk.injEq] at hsel
  obtain ⟨h0, h1, ht0, ht1⟩ := hsel
  refine selRequest_reverted hctl (funext fun r => ?_) h0 h1 (selSwitch_sel ..).1 h
  obtain ⟨hshown, hrx⟩ := Prod.ext_iff.1 (hport.eq r)
  dsimp only at hshown hrx
  simp only [State.routeSt, State.portSf, State.portSd, hshown, hrx, ht0, ht1]
  rfl

theorem wtrExpiry_line (i : Fin 64) (s : State) (hv : bit (s.selCtl i.val) 31 = true) (hw : (s.sel i.val).wtr = true)
    (h5 : (s.selRequest i.val).1 = 5) :
    Completes (.wtrExpiry i) s fun t =>
      (t.sel i.val).sel = fld (s.selCtl i.val) 29 1 ∧ (t.sel i.val).wtr = false ∧ (∀ n, n ≠ i.val → t.sel n = s.sel n) ∧
      OnlyIn [.line, .host, .mgmt, .pages, .cnts] s t := by
  let u := selSwitch i.val (fld (s.selCtl i.val) 29 1) s
  have hexec : exec (.wtrExpiry i) s = .next (selEval i.val u) := congrArg Host.Outcome.next (if_pos (by simp [hv, hw, h5]))
  have hctl : u.selCtl i.val = s.selCtl i.val := selCtl_of_regs ((selSwitch_k ..).only .regs (by decide)) _
  obtain ⟨hsel, hwtr⟩ := selEval_follows (s := u) (i := i.val) (by rw [hctl]; exact hv)
  rw [selSwitch_request h5] at hsel hwtr
  exact ⟨_, hexec, hsel.trans (selSwitch_sel ..).1, hwtr,
    fun n hn => (selectionKeeps_other hn _).selEval ((selectionKeeps_other hn _).selSwitch _ rfl),
    ((execWtrExpiry_k i s).get hexec).only⟩

/-- The copies of a message in the hold of both routes go. -/
theorem stbyHoldExpiry_line (i : Fin 64) (q : Word) (s : State) : Completes (.stbyHoldExpiry i q) s fun t =>
    (∀ r : Port, (t.port r.val).stby = (s.port r.val).stby.filter fun h => !(h.1 = i.val && h.2.mseq = q)) ∧
    (∀ n, t.sel n = s.sel n) ∧ OnlyIn [.line] s t :=
  ⟨_, rfl, fun r => congrArg LinePort.stby (updPort_both r.isLt _ s), fun _ => rfl, ((execStbyHoldExpiry_k i q s).get rfl).only⟩

end Sys2Proof.Machine
end

section
/-! PROOF. FRAME_RECEIVE (R269, R270): what the overhead of a frame leaves at its port, and that the tributaries leave it. -/
namespace Sys2Proof.Machine

open Sys2Proof

/-! ## The words of a tributary -/

section Words

variable {α : Type} {f : LinePort → α}

theorem unitArrive_ports (hrelay : ∀ l x, f { l with relay := x } = f l) (p t : Nat) (b : List Byte) (s : State) :
    SamePorts f s (unitArrive p t b s) := by
  have hraise : ∀ q, SamePorts f s (raiseEv (pgLINE q) 0x838 8 s) := fun q => (raiseEv_k ..).samePorts (by decide)
  unfold unitArrive
  dsimp only
  split
  · split
    · exact iteInduction (fun _ => .refl s) fun _ => hraise _
    · exact .of_updPort (fun _ => hrelay ..) _ s
  · exact iteInduction (fun _ => .refl s) fun _ => .of_emit _ s

variable (hasm : ∀ l st a, f { l with inStep := st, asm := a } = f l)
include hasm

theorem setAsm_ports (p t : Nat) (step : Bool) (asm : List Byte) (s : State) : SamePorts f s (setAsm p t step asm s) :=
  .of_updPort (fun _ => hasm ..) p s

/-- Bytes of the management channel are taken into its segment. -/
theorem rxMcc_ports (p : Nat) (mcc : List Byte) (s : State) : SamePorts f s (rxMcc p mcc s) :=
  (SamePorts.of_updPort (fun l => hasm l l.inStep _) p s).trans (.of_forAll (fun _ t => .of_emit _ t) _ _)

variable (hrelay : ∀ l x, f { l with relay := x } = f l)
include hrelay

theorem takeUnits_ports (p t : Nat) (b : List Byte) (s : State) : SamePorts f s (takeUnits p t b s) :=
  (SamePorts.of_forAll (unitArrive_ports hrelay p t) _ s).trans (setAsm_ports hasm ..)

theorem delineate_ports (p t ptr : Nat) (words : List Byte) (s : State) : SamePorts f s (delineate p t ptr words s) := by
  have hresume : ∀ u : State, SamePorts f u
      (if ptr = 0xFFFF then setAsm p t false [] u else takeUnits p t (words.drop (16 * ptr)) u) := fun u =>
    iteInduction (fun _ => setAsm_ports hasm ..) fun _ => takeUnits_ports hasm hrelay ..
  unfold delineate
  dsimp only
  split
  · exact hresume s
  · exact iteInduction (fun _ => ((bump_k ..).samePorts (by decide)).trans (hresume _)) fun _ => takeUnits_ports hasm hrelay ..

theorem rxTrib_ports (p n : Nat) (b : List Byte) (t : Nat) (s : State) : SamePorts f s (rxTrib p n b t s) := by
  unfold rxTrib
  dsimp only
  split
  · exact .refl s
  · split
    · exact .refl s
    · refine SamePorts.trans ?_ (delineate_ports hasm hrelay ..)
      exact iteInduction (fun _ => (bump_k ..).samePorts (by decide)) fun _ => .refl s

end Words

/-! ## The overhead (Table 10.3) -/

/-- Violations of the parity that a frame carries of the one before. -/
def LinePort.violations (l : LinePort) (b : List Byte) : Nat :=
  match l.rxBip with
  | some q => popc (q ^^^ b.getD 9 0)
  | none => 0

/-- A port with the overhead of a frame noted. -/
def LinePort.noteFrame (b : List Byte) (l : LinePort) : LinePort :=
  { l with
    rxBip := some (parity (b.drop 0x100)), bei := l.violations b, rxTrace := (b.drop 0x10).take 16
    secErr := l.secErr + b2n (decide (l.violations b > 0)), holdRx := (b.getD 0xC 0).getLsbD 7 }

theorem rxOverhead_port {α : Type} {f : LinePort → α} (hasm : ∀ l st a, f { l with inStep := st, asm := a } = f l)
    (hstby : ∀ l x, f { l with stby := x } = f l) {p : Nat} (hp : p < 2) (b : List Byte) (at_ : DWord) (s : State) :
    f ((rxOverhead p b at_ s).port p) = f ((s.port p).noteFrame b) := by
  let noted := updPort p (fun x =>
    { x with
      rxBip := some (parity (b.drop 0x100)), bei := (s.port p).violations b, rxTrace := (b.drop 0x10).take 16
      secErr := x.secErr + b2n (decide ((s.port p).violations b > 0)), holdRx := (b.getD 0xC 0).getLsbD 7 }) s
  let s1 := rxMcc p ((b.drop 0x40).take 128) (bump (pgLINE p) 0x82C ((s.port p).violations b) noted)
  have h1 : SamePorts f noted s1 := ((bump_k ..).samePorts (by decide)).trans (rxMcc_ports hasm ..)
  let s2 := if (s.port p).shown = 0 then ttReceive p ((b.drop 0x20).take 32) at_ s1 else s1
  have h2 : SamePorts f noted s2 := iteInduction (fun _ => h1.trans ((ttReceive_k ..).samePorts (by decide))) fun _ => h1
  have h3 : SamePorts f noted (rxOverhead p b at_ s) :=
    iteInduction (fun _ => h2) fun _ => iteInduction
      (fun _ => (h2.trans (holdForce_ports f p s2)).trans (selEvalAll_ports hstby _))
      fun _ => (h2.trans (holdRelease_ports f p s2)).trans (selEvalAll_ports hstby _)
  rw [h3.eq p]
  exact congrArg f ((updPort_at _ _ _ _ hp).trans (if_pos rfl))

theorem frameReceive_line (p : Port) (b : List Byte) (at_ : BitVec 64) (fec : FecCounts) (s : State)
    (hen : s.lineEn p.val = true) :
    let s1 := bump (pgLINE p.val) 0x828 fec.unc (bump (pgLINE p.val) 0x820 fec.corr s)
    (b.length ≠ 1280 + s.linePay p.val ∨ (s.port p.val).shown &&& 7 ≠ 0 →
      Completes (.frameReceive p b at_ fec) s fun t => t = s1 ∧ OnlyIn [.pages, .cnts] s t) ∧
    (b.length = 1280 + s.linePay p.val → (s.port p.val).shown &&& 7 = 0 → Completes (.frameReceive p b at_ fec) s fun t =>
      (s.portSf p.val = true → t = rxOverhead p.val b at_ s1) ∧
      (s.portSf p.val = false →
        t = forAll (List.range 16) (rxTrib p.val ((b.getD 8 0).toNat % 16) b) (rxOverhead p.val b at_ s1)) ∧
      (t.port p.val).rxBip = some (parity (b.drop 0x100)) ∧ (t.port p.val).rxTrace = (b.drop 0x10).take 16 ∧
      (t.port p.val).bei = (match (s.port p.val).rxBip with | some q => popc (q ^^^ b.getD 9 0) | none => 0) ∧
      (t.port p.val).holdRx = (b.getD 0xC 0).getLsbD 7 ∧ OnlyIn [.line, .host, .time, .mgmt, .pages, .cnts] s t) := by
  intro s1
  have hs1 : KeepsIn [.pages, .cnts] s s1 := (bump_k ..).trans (bump_k ..)
  refine ⟨fun hlost => ?lost, fun hlen hfound => ?found⟩
  case lost =>
    exact ⟨s1, congrArg Host.Outcome.next ((if_neg (by simp [hen])).trans (if_pos (by simpa using hlost))), rfl, hs1.only⟩
  case found =>
    have hexec : exec (.frameReceive p b at_ fec) s = .next (if s.portSf p.val then rxOverhead p.val b at_ s1
        else forAll (List.range 16) (rxTrib p.val ((b.getD 8 0).toNat % 16) b) (rxOverhead p.val b at_ s1)) :=
      congrArg Host.Outcome.next ((if_neg (by simp [hen])).trans (if_neg (by simpa [hlen] using hfound)))
    let rx (l : LinePort) := (l.rxBip, l.rxTrace, l.bei, l.holdRx)
    have hover : rx ((rxOverhead p.val b at_ s1).port p.val) = rx ((s1.port p.val).noteFrame b) :=
      rxOverhead_port (fun _ _ _ => rfl) (fun _ _ => rfl) p.isLt b at_ s1
    have htribs : SamePorts rx (rxOverhead p.val b at_ s1)
        (forAll (List.range 16) (rxTrib p.val ((b.getD 8 0).toNat % 16) b) (rxOverhead p.val b at_ s1)) :=
      .of_forAll (rxTrib_ports (fun _ _ _ => rfl) (fun _ _ => rfl) _ _ b) _ _
    have hport : s1.port p.val = s.port p.val := (hs1.samePorts (f := id) (by decide)).eq p.val
    have hrx := (iteInduction (c := s.portSf p.val = true) (motive := fun t : State => rx (t.port p.val) = rx ((s1.port p.val).noteFrame b))
      (fun _ => hover) fun _ => (htribs.eq p.val).trans hover)
    rw [hport] at hrx
    simp only [rx, Prod.mk.injEq] at hrx
    obtain ⟨hbip, htrace, hbei, hhold⟩ := hrx
    exact ⟨_, hexec, fun h => if_pos h, fun h => if_neg (by simp [h]), hbip, htrace, hbei, hhold,
      ((execFrameReceive_k ..).get hexec).only⟩

end Sys2Proof.Machine
end

section
/-! PROOF. FRAME_TRANSMIT (R265): the frame leaves behind its overhead, and nothing that fills it counts another frame. -/
namespace Sys2Proof.Machine

open Sys2Proof

/-! ## Nothing but a frame's transmission moves the frame number -/

section FrameNumber

theorem fnum_updPort {g : LinePort → LinePort} (p : Nat) (s : State) (hg : ∀ l, (g l).fnum = l.fnum := by intro; rfl) :
    SamePorts LinePort.fnum s (updPort p g s) := .of_updPort hg p s

theorem protQueue_fnum (p : Nat) (m : ProtMsg) (ts : Option Nat) (s : State) : SamePorts LinePort.fnum s (protQueue p m ts s) :=
  fnum_updPort p s

theorem protSend_fnum (dst : BitVec 16) (kind : Nat) (body : List Byte) (ts : Option Nat) (s : State) :
    SamePorts LinePort.fnum s (protSend dst kind body ts s) := by
  have hpass : SamePorts LinePort.fnum s (poolPass .root 0 none body.length s) := (poolPass_k ..).samePorts (by decide)
  have hsent : SamePorts LinePort.fnum s ((poolPass .root 0 none body.length s).updLine fun l =>
      { l with sent := SMap.set (fun _ => (0 : Word)) dst.toNat (SMap.get (fun _ => (0 : Word)) s.line.sent dst.toNat + 1) l.sent }) :=
    ⟨hpass.eq⟩
  exact (hsent.trans (protQueue_fnum ..)).trans (protQueue_fnum ..)

theorem kxSend_fnum (i : Nat) (m : List Byte) (s : State) : SamePorts LinePort.fnum s (kxSend i m s) :=
  iteInduction (fun _ => protSend_fnum ..) fun _ => ((poolPass_k ..).samePorts (by decide)).trans (fnum_updPort _ _)

theorem kxAwait_fnum (i next : Nat) (m : List Byte) (s : State) : SamePorts LinePort.fnum s (kxAwait i next m s) :=
  ((updSess_k ..).samePorts (by decide)).trans (kxSend_fnum ..)

theorem kxStart_fnum (i : Nat) (s : State) : SamePorts LinePort.fnum s (kxStart i s) := by
  have hdraws : SamePorts LinePort.fnum s (drawBytes 4 (drawBytes 2 s).2).2 :=
    ((drawBytes_k ..).samePorts (by decide)).trans ((drawBytes_k ..).samePorts (by decide))
  have hkem : SamePorts LinePort.fnum s (drawBytes 4 (drawBytes 2 s).2).2.draw.2 := ⟨hdraws.eq⟩
  exact (hkem.trans ((updSess_k ..).samePorts (by decide))).trans (kxAwait_fnum ..)

theorem noteWait_fnum (d : Ctx) (s : State) : SamePorts LinePort.fnum s (noteWait d s) := by
  unfold noteWait
  split
  · exact .refl s
  · have hput : ∀ c, SamePorts LinePort.fnum s (putCtx c (loadCtx (s.ctx d) s).2) := fun c =>
      ((loadCtx_k ..).samePorts (by decide)).trans ((putCtx_k ..).samePorts (by decide))
    exact iteInduction (fun _ => .refl s) fun _ => iteInduction (fun _ => (hput _).trans (kxStart_fnum ..)) fun _ => hput _

theorem scTransmit_fnum (i : Nat) (m : StrmMsg) (s : State) : SamePorts LinePort.fnum s (scTransmit i m s) :=
  (fnum_updPort _ s).trans (fnum_updPort _ _)

/-- What each round of a loop over a list leaves, the loop leaves. -/
theorem SamePorts.of_foldl {α ι : Type} {f : LinePort → α} {g : State → ι → State} (hg : ∀ t i, SamePorts f t (g t i)) (l : List ι)
    (s : State) : SamePorts f s (l.foldl g s) :=
  SamePorts.of_forAll (g := fun i t => g t i) (fun i t => hg t i) l s

theorem scSeal_fnum (i : Nat) (s : State) : SamePorts LinePort.fnum s (scSeal i s) := by
  refine .of_foldl (fun t m => ?_) _ s
  refine iteInduction (fun _ => .refl t) fun _ => iteInduction (fun _ => .refl t) fun _ => ?_
  split
  · exact noteWait_fnum ..
  · next h =>
    exact ((((sealAll_k ..).get2 h).samePorts (by decide)).trans ((updSc_k ..).samePorts (by decide))).trans
      (((poolRelease_k ..).samePorts (by decide)).trans (scTransmit_fnum ..))

theorem noChan_fnum (p : Nat) (s : State) : SamePorts LinePort.fnum s (noChan p s) :=
  .of_forAll (fun _ t => (fnum_updPort p t).trans ((raiseEv_k ..).samePorts (by decide))) _ s

theorem meterFill_fnum (p : Nat) (s : State) : SamePorts LinePort.fnum s (meterFill p s) :=
  .of_forAll (fun _ t => fnum_updPort p t) _ s

theorem purgeSegs_fnum (p : Nat) (s : State) : SamePorts LinePort.fnum s (purgeSegs p s) :=
  fnum_updPort p s

theorem noteWaits_fnum (p : Nat) (s : State) : SamePorts LinePort.fnum s (noteWaits p s) :=
  .of_forAll noteWait_fnum _ s

/-! ## What fills a run of words -/

theorem setCur_fnum (p t : Nat) (u : Option CurUnit) (s : State) : SamePorts LinePort.fnum s (setCur p t u s) :=
  fnum_updPort p s

/-- A unit taken from its queue becomes the unit under way. -/
theorem unitTaken_fnum {g : LinePort → LinePort} (p t : Nat) (u : Option CurUnit) (s : State)
    (hg : ∀ l, (g l).fnum = l.fnum := by intro; rfl) : SamePorts LinePort.fnum s (setCur p t u (updPort p g s)) :=
  (fnum_updPort p s hg).trans (setCur_fnum ..)

theorem pickRecord_fnum (p : Nat) : ∀ (l : List Nat) (s : State), ∀ r ∈ pickRecord p l s, SamePorts LinePort.fnum s r.2 := by
  intro l
  induction l with
  | nil => intro s r h; cases h
  | cons i is ih =>
    intro s r h
    rw [pickRecord] at h
    split at h
    · exact ih s r h
    · split at h
      · exact ih s r h
      · next hsend =>
        cases h
        dsimp only
        exact (((sendRecord_k ..).get2 hsend).samePorts (by decide)).trans (unitTaken_fnum ..)

theorem pickSheets_fnum (p t cls : Nat) (chs : List Nat) (s : State) :
    ∀ r ∈ pickSheets p t cls chs s, SamePorts LinePort.fnum s r.2 := by
  intro r h
  unfold pickSheets at h
  dsimp only at h
  split at h
  · cases h
  · split at h
    · cases h
    · split at h
      · cases h
      · cases h
        exact ((fnum_updPort p s).trans (fnum_updPort p _)).trans ((segSent_k ..).samePorts (by decide))

theorem pickProt_fnum (p : Nat) (s : State) : ∀ r ∈ pickProt p s, SamePorts LinePort.fnum s r.2 := by
  intro r h
  unfold pickProt at h
  split at h
  · cases h
    exact fnum_updPort p s
  · split at h
    · cases h
    · split at h
      · cases h
      · next hseal =>
        cases h
        dsimp only
        have hsealed := ((sealOne_k ..).get2 hseal).samePorts (f := LinePort.fnum) (by decide)
        split
        · exact (hsealed.trans (unitTaken_fnum ..)).trans ((pushStamp_k ..).samePorts (by decide))
        · exact hsealed.trans (unitTaken_fnum ..)

theorem pickMgmt_fnum (p : Nat) (s : State) : ∀ r ∈ pickMgmt p s, SamePorts LinePort.fnum s r.2 := by
  intro r h
  unfold pickMgmt at h
  split at h
  · cases h
  · split at h
    · cases h
    · next hseal =>
      cases h
      dsimp only
      exact (((sealOne_k ..).get2 hseal).samePorts (by decide)).trans (unitTaken_fnum ..)

theorem ownUnit_fnum {p : Nat} {s : State} {o : Option (List Byte × State)} (ho : ∀ r ∈ o, SamePorts LinePort.fnum s r.2) :
    ∀ r ∈ ownUnit p o, SamePorts LinePort.fnum s r.2.2 := by
  intro r h
  obtain ⟨a, ha, rfl⟩ := Option.map_eq_some_iff.1 h
  exact (ho a ha).trans ((bump_k ..).samePorts (by decide))

theorem nextUnit_fnum (p t : Nat) (s : State) : ∀ r ∈ nextUnit p t s, SamePorts LinePort.fnum s r.2.2 := by
  have hcur := setCur_fnum p t none s
  intro r h
  suffices hr : SamePorts LinePort.fnum (setCur p t none s) r.2.2 from hcur.trans hr
  unfold nextUnit at h
  dsimp only at h
  generalize setCur p t none s = s1 at h ⊢
  split at h
  · exact ownUnit_fnum (pickProt_fnum p s1) r h
  · split at h
    · exact ownUnit_fnum (pickMgmt_fnum p s1) r h
    · split at h
      · split at h
        · cases h
        · split at h
          · cases h
          · cases h
            exact fnum_updPort p s1
      · split at h
        · cases h
        · refine ownUnit_fnum (fun a ha => ?_) r h
          split at ha
          · next hrec => cases ha; exact pickRecord_fnum p _ s1 _ hrec
          · split at ha
            · next hgreen => cases ha; exact pickSheets_fnum p t 1 _ s1 _ hgreen
            · exact pickSheets_fnum p t 2 _ s1 a ha

theorem fillWords_fnum (p t : Nat) : ∀ (fuel left : Nat) (acc : List Byte) (ptr : Option Nat) (cur : List Byte) (s : State),
    SamePorts LinePort.fnum s (fillWords p t fuel left acc ptr cur s).2.2.2 := by
  intro fuel
  induction fuel with
  | zero => exact fun _ _ _ _ s => .refl s
  | succ n ih =>
    intro left acc ptr cur s
    rw [fillWords]
    split
    · exact .refl s
    · split
      · exact ih ..
      · split
        · exact .refl s
        · next h => exact (nextUnit_fnum p t s _ h).trans (ih ..)

theorem runWords_fnum (p t words : Nat) (cur : List Byte) (s : State) : SamePorts LinePort.fnum s (runWords p t words cur s).2 :=
  (fillWords_fnum ..).trans (fnum_updPort p _)

end FrameNumber

/-! ## The frame -/

/-- The state as a frame's words are about to be chosen. -/
def frameReady (p : Nat) (s : State) : State :=
  noteWaits p (noChan p (meterFill p (purgeSegs p (forAll (s.outer.sc.map Prod.fst) scSeal s))))

theorem frameReady_fnum (p : Nat) (s : State) : SamePorts LinePort.fnum s (frameReady p s) :=
  ((((SamePorts.of_forAll scSeal_fnum _ s).trans (purgeSegs_fnum ..)).trans (meterFill_fnum ..)).trans (noChan_fnum ..)).trans
    (noteWaits_fnum ..)

theorem frameTransmit_line (p : Port) (s : State) (hen : s.lineEn p.val = true) : Completes (.frameTransmit p) s fun t =>
    let s1 := noteWaits p.val (noChan p.val (meterFill p.val (purgeSegs p.val (forAll (s.outer.sc.map Prod.fst) scSeal s))))
    let mcc := runWords p.val 16 128 ((SMap.find (s1.port p.val).cur 16).getD []) s1
    (∃ rest, t.out.getLast? = some (.lineFrame (Fin.ofNat 2 p.val) (mcc.2.ohHead p.val mcc.1.1 ++ rest))) ∧
    (t.port p.val).fnum = ((s.port p.val).fnum + 1) % 16 ∧
    OnlyIn [.ring, .outer, .line, .ciph, .host, .pool, .mem, .time, .mgmt, .pages, .cnts] s t := by
  have hexec : exec (.frameTransmit p) s = .next (frameTransmit p.val s) := congrArg Host.Outcome.next (if_pos hen)
  refine ⟨_, hexec, ⟨_, List.getLast?_concat⟩, ?_, (frameTransmit_k ..).only⟩
  let u := frameReady p.val s
  have hsent : ((runWords p.val 16 128 ((SMap.find (u.port p.val).cur 16).getD []) u).2.port p.val).fnum = (s.port p.val).fnum :=
    ((frameReady_fnum p.val s).trans (runWords_fnum ..)).eq p.val
  rw [← hsent]
  exact congrArg LinePort.fnum ((updPort_at _ _ _ _ p.isLt).trans (if_pos rfl))

end Sys2Proof.Machine
end

section
/-! PROOF. DEFECT_SET and DEFECT_CLEAR (R273, R274): what is noted at the port, what is counted, and the light of a takeover (R406). -/
namespace Sys2Proof.Machine

open Sys2Proof

/-! ## Defects noted at a port -/

/-- A port whose defects are `d`. -/
def LinePort.withDefects (d : BitVec 8) (l : LinePort) : LinePort :=
  { l with defects := d, shown := unmasked d, told := (l.told &&& d) ||| unmasked d }

/-- What SF takes from a port (R274). -/
def LinePort.cutOff (l : LinePort) : LinePort :=
  { l with inStep := [], asm := SMap.keep (fun k _ => k = 16) l.asm, secSf := true }

/-- A defect that no other masks and that has not been told of yet. -/
def LinePort.untold (d : BitVec 8) (l : LinePort) : List Nat :=
  (List.range 8).filter fun i => (unmasked d &&& ~~~ l.told).getLsbD i

/-- The state as the defects are noted, before a selector follows and an event is raised. -/
def defectsNoted (p : Nat) (d : BitVec 8) (s : State) : State :=
  let s1 := updPort p (LinePort.withDefects d) s
  if s1.portSf p then updPort p (fun l => { l with secSf := true }) (dropSteps p s1) else s1

theorem setDefects_eq (p : Nat) (d : BitVec 8) (s : State) :
    setDefects p d s = forAll ((s.port p).untold d) (raiseDefect p) (selEvalAll (defectsNoted p d s)) := rfl

theorem withDefects_port {p : Nat} (hp : p < 2) (d : BitVec 8) (s : State) :
    (updPort p (LinePort.withDefects d) s).port p = (s.port p).withDefects d := (updPort_at _ _ _ _ hp).trans (if_pos rfl)

/-- What is seen of a port but what SF takes from it. -/
theorem defectsNoted_port {α : Type} {f : LinePort → α} (hf : ∀ l st a b, f { l with inStep := st, asm := a, secSf := b } = f l)
    {p : Nat} (hp : p < 2) (d : BitVec 8) (s : State) : f ((defectsNoted p d s).port p) = f ((s.port p).withDefects d) := by
  rw [← withDefects_port hp]
  generalize hnoted : updPort p (LinePort.withDefects d) s = s1
  have hdrop : SamePorts f s1 (dropSteps p s1) := .of_updPort (fun l => hf l [] _ l.secSf) p s1
  have hcut : SamePorts f s1 (updPort p (fun l => { l with secSf := true }) (dropSteps p s1)) :=
    hdrop.trans (.of_updPort (fun l => hf l l.inStep l.asm true) p _)
  have hall : SamePorts f s1 (defectsNoted p d s) := by
    unfold defectsNoted
    rw [hnoted]
    exact iteInduction (fun _ => hcut) fun _ => .refl s1
  exact hall.eq p

theorem defectsNoted_cutOff {p : Nat} (hp : p < 2) {d : BitVec 8} (hsf : unmasked d &&& 0x5F ≠ 0) (s : State) :
    (defectsNoted p d s).port p = ((s.port p).withDefects d).cutOff := by
  have hsf' : (updPort p (LinePort.withDefects d) s).portSf p = true := by
    rw [State.portSf, withDefects_port hp]
    exact decide_eq_true hsf
  unfold defectsNoted
  dsimp only
  rw [if_pos hsf', updPort_at _ _ _ _ hp, if_pos rfl, dropSteps, updPort_at _ _ _ _ hp, if_pos rfl, withDefects_port hp]
  rfl

/-- Selectors and events leave the ports but the held copies. -/
theorem setDefects_ports {α : Type} {f : LinePort → α} (hf : ∀ l x, f { l with stby := x } = f l) (p : Nat) (d : BitVec 8)
    (s : State) : SamePorts f (defectsNoted p d s) (setDefects p d s) :=
  (selEvalAll_ports hf _).trans (.of_forAll (fun _ _ => (raiseDefect_k ..).samePorts (by decide)) _ _)

theorem setDefects_port {p : Nat} (hp : p < 2) (d : BitVec 8) (s : State) :
    ((setDefects p d s).port p).defects = d ∧ ((setDefects p d s).port p).shown = unmasked d :=
  Prod.ext_iff.1 (((setDefects_ports (f := fun l => (l.defects, l.shown)) (fun _ _ => rfl) p d s).eq p).trans
    (defectsNoted_port (f := fun l => (l.defects, l.shown)) (fun _ _ _ _ => rfl) hp d s))

/-- A port in SF keeps of its segments that of the management channel alone. -/
theorem setDefects_cutOff {p : Nat} (hp : p < 2) {d : BitVec 8} {s : State} (hsf : (setDefects p d s).portSf p = true) :
    ((setDefects p d s).port p).inStep = [] ∧
      ((setDefects p d s).port p).asm = SMap.keep (fun k _ => k = 16) (s.port p).asm ∧
      ((setDefects p d s).port p).secSf = true := by
  rw [State.portSf, (setDefects_port hp d s).2] at hsf
  have hcut := (setDefects_ports (f := fun l => (l.inStep, l.asm, l.secSf)) (fun _ _ => rfl) p d s).eq p
  rw [defectsNoted_cutOff hp (of_decide_eq_true hsf)] at hcut
  obtain ⟨hstep, hrest⟩ := Prod.ext_iff.1 hcut
  exact ⟨hstep, Prod.ext_iff.1 hrest⟩

/-! ## Defects counted (R283) -/

theorem defBit_lt : ∀ i < 8, defBit i < 8 := by decide

theorem defBit_inj : ∀ i < 8, ∀ j < 8, defBit i = defBit j → i = j := by decide

/-- A defect raises the event of its counter and its bit. -/
theorem raiseDefect_raised {p i : Nat} {s : State} (hp : s.pageOff (pgLINE p) = false) :
    Raised (pgLINE p) (0x800 + 4 * defBit i) (defBit i) s (raiseDefect p i s) := by
  unfold raiseDefect
  split
  · next h4 =>
    subst h4
    exact (raiseCap_raised hp).of_same rfl rfl ((timRelock_k ..).only .cnts (by decide)) ((timRelock_k ..).only .pages (by decide))
  · exact raiseEv_raised hp

theorem raiseDefect_off {p i : Nat} {s : State} (hp : s.pageOff (pgLINE p) = true) : (raiseDefect p i s).cnts = s.cnts := by
  unfold raiseDefect
  split
  · rw [(timRelock_k ..).only .cnts (by decide), raiseCap, if_pos hp]
  · rw [raiseEv, if_pos hp]

theorem raiseDefect_pageOff (p i q : Nat) (s : State) : (raiseDefect p i s).pageOff q = s.pageOff q :=
  pageOff_of_clk ((raiseDefect_k ..).only .clk (by decide)) q

/-- The counter of another defect stays. -/
theorem raiseDefect_cnt_ne {p i j : Nat} (hi : i < 8) (hj : j < 8) (h : j ≠ i) (s : State) :
    (raiseDefect p i s).cnt (pgLINE p) (0x800 + 4 * defBit j) = s.cnt (pgLINE p) (0x800 + 4 * defBit j) := by
  cases hp : s.pageOff (pgLINE p) with
  | true => exact cnt_of_cnts (raiseDefect_off hp) ..
  | false =>
    obtain ⟨-, -, hother⟩ := raiseDefect_raised (i := i) hp
    refine hother _ fun e => h (defBit_inj j hj i hi ?_)
    omega

theorem bit_or_of_left {x : Word} {b : Nat} (h : bit x b = true) (y : Word) : bit (x ||| y) b = true := by
  simp only [bit, BitVec.getLsbD_or] at *
  rw [h, Bool.true_or]

theorem bit_or_event {b : Nat} (hb : b < 32) (x : Word) : bit (x ||| wd (2 ^ b)) b = true := by
  simp only [bit, wd, BitVec.getLsbD_or, BitVec.getLsbD_ofNat, hb, decide_true, Nat.testBit_two_pow_self, Bool.and_self, Bool.or_true]

/-- A bit that is set in the page's BLK_INT_STAT stays set. -/
theorem raiseDefect_bit_of_bit {p i b : Nat} {s : State} (hp : s.pageOff (pgLINE p) = false) (h : bit (s.hdr (pgLINE p)).intStat b = true) :
    bit ((raiseDefect p i s).hdr (pgLINE p)).intStat b = true := by
  obtain ⟨-, hstat, -⟩ := raiseDefect_raised (i := i) hp
  rw [hstat]
  exact bit_or_of_left h _

theorem raiseDefects_bit_of_bit {p b : Nat} (l : List Nat) {s : State} (hp : s.pageOff (pgLINE p) = false)
    (h : bit (s.hdr (pgLINE p)).intStat b = true) : bit ((forAll l (raiseDefect p) s).hdr (pgLINE p)).intStat b = true :=
  (forAll_inv (P := fun t : State => t.pageOff (pgLINE p) = false ∧ bit (t.hdr (pgLINE p)).intStat b = true)
    (fun _ _ ht => ⟨(raiseDefect_pageOff ..).trans ht.1, raiseDefect_bit_of_bit ht.1 ht.2⟩) l s ⟨hp, h⟩).2

/-- A defect that is not among those raised is not counted. -/
theorem raiseDefects_cnt_of_not_mem {p j : Nat} (hj : j < 8) (l : List Nat) (hl : ∀ i ∈ l, i < 8) (h : j ∉ l) (s : State) :
    (forAll l (raiseDefect p) s).cnt (pgLINE p) (0x800 + 4 * defBit j) = s.cnt (pgLINE p) (0x800 + 4 * defBit j) := by
  induction l generalizing s with
  | nil => rfl
  | cons i l ih =>
    rw [List.forall_mem_cons] at hl
    rw [List.mem_cons, not_or] at h
    exact (ih hl.2 h.2 _).trans (raiseDefect_cnt_ne hl.1 hj h.1 s)

/-- One that is raised is counted once and its event occurs. -/
theorem raiseDefects_of_mem {p j : Nat} (l : List Nat) (hl : ∀ i ∈ l, i < 8) (hd : l.Nodup) (h : j ∈ l) {s : State}
    (hp : s.pageOff (pgLINE p) = false) :
    (forAll l (raiseDefect p) s).cnt (pgLINE p) (0x800 + 4 * defBit j) =
        min (s.cnt (pgLINE p) (0x800 + 4 * defBit j) + 1) (cntMax (pgLINE p) (0x800 + 4 * defBit j)) ∧
      bit ((forAll l (raiseDefect p) s).hdr (pgLINE p)).intStat (defBit j) = true := by
  have hj := hl j h
  induction l generalizing s with
  | nil => cases h
  | cons i l ih =>
    rw [List.forall_mem_cons] at hl
    rw [List.nodup_cons] at hd
    have hp' := (raiseDefect_pageOff p i (pgLINE p) s).trans hp
    rcases List.mem_cons.1 h with rfl | hmem
    · obtain ⟨hcnt, hstat, -⟩ := raiseDefect_raised (i := j) hp
      refine ⟨(raiseDefects_cnt_of_not_mem hj l hl.2 hd.1 _).trans hcnt, raiseDefects_bit_of_bit l hp' ?_⟩
      rw [hstat]
      exact bit_or_event (by have := defBit_lt j hj; omega) _
    · have hcnt := raiseDefect_cnt_ne (p := p) hl.1 hj (fun e => hd.1 (e ▸ hmem)) s
      rw [← hcnt]
      exact ih hl.2 hd.2 hmem hp'

/-! ## What a change of the defects counts -/

theorem LinePort.mem_untold {d : BitVec 8} {l : LinePort} {j : Nat} :
    j ∈ l.untold d ↔ j < 8 ∧ (unmasked d).getLsbD j = true ∧ l.told.getLsbD j = false := by
  simp only [LinePort.untold, List.mem_filter, List.mem_range, BitVec.getLsbD_and, BitVec.getLsbD_not, Bool.and_eq_true,
    decide_eq_true_eq, Bool.not_eq_true']
  constructor
  · exact fun ⟨hj, hd, _, ht⟩ => ⟨hj, hd, ht⟩
  · exact fun ⟨hj, hd, ht⟩ => ⟨hj, hd, hj, ht⟩

theorem LinePort.untold_nodup (d : BitVec 8) (l : LinePort) : (l.untold d).Nodup := List.nodup_range.filter _

theorem LinePort.lt_of_mem_untold {d : BitVec 8} {l : LinePort} : ∀ i ∈ l.untold d, i < 8 := fun _ h => (mem_untold.1 h).1

/-- Before any defect is raised, its counter stands as it was. -/
theorem defectsFollowed_cnt {p j : Nat} (hj : j < 8) (d : BitVec 8) (s : State) :
    (selEvalAll (defectsNoted p d s)).cnt (pgLINE p) (0x800 + 4 * defBit j) = s.cnt (pgLINE p) (0x800 + 4 * defBit j) := by
  have hb := defBit_lt j hj
  have hnoted : (defectsNoted p d s).cnt (pgLINE p) (0x800 + 4 * defBit j) = s.cnt (pgLINE p) (0x800 + 4 * defBit j) := by
    unfold defectsNoted
    exact iteInduction (motive := fun t : State => t.cnt (pgLINE p) (0x800 + 4 * defBit j) = _) (fun _ => rfl) fun _ => rfl
  refine SelectionKeeps.selEvalAll (fun i => selectionKeeps_cnt ?_ ?_ i _) hnoted
  · simp only [cntKey, pgLINE]; omega
  · simp only [cntKey, pgLINE]; omega

theorem defectsFollowed_pageOff (p q : Nat) (d : BitVec 8) (s : State) :
    (selEvalAll (defectsNoted p d s)).pageOff q = s.pageOff q := by
  have hnoted : (defectsNoted p d s).clk = s.clk := by
    unfold defectsNoted
    exact iteInduction (motive := fun t : State => t.clk = _) (fun _ => rfl) fun _ => rfl
  exact pageOff_of_clk (((selEvalAll_k _).only .clk (by decide)).trans hnoted) q

theorem setDefects_cnt_of_not_untold {p j : Nat} (hj : j < 8) {d : BitVec 8} {s : State} (h : j ∉ (s.port p).untold d) :
    (setDefects p d s).cnt (pgLINE p) (0x800 + 4 * defBit j) = s.cnt (pgLINE p) (0x800 + 4 * defBit j) := by
  rw [setDefects_eq, raiseDefects_cnt_of_not_mem hj _ LinePort.lt_of_mem_untold h, defectsFollowed_cnt hj]

theorem setDefects_of_untold {p j : Nat} {d : BitVec 8} {s : State} (hp : s.pageOff (pgLINE p) = false)
    (h : j ∈ (s.port p).untold d) :
    (setDefects p d s).cnt (pgLINE p) (0x800 + 4 * defBit j) =
        min (s.cnt (pgLINE p) (0x800 + 4 * defBit j) + 1) (cntMax (pgLINE p) (0x800 + 4 * defBit j)) ∧
      bit ((setDefects p d s).hdr (pgLINE p)).intStat (defBit j) = true := by
  rw [setDefects_eq, ← defectsFollowed_cnt (LinePort.lt_of_mem_untold j h) d s]
  exact raiseDefects_of_mem _ LinePort.lt_of_mem_untold (LinePort.untold_nodup ..) h ((defectsFollowed_pageOff ..).trans hp)

/-! ## The instructions -/

theorem Defect.ix_lt (k : Defect) : Defect.ix k < 8 := by cases k <;> decide

theorem defectSet_line (p : Port) (k : Defect) (s : State) (hen : s.lineEn p.val = true)
    (hd : (s.port p.val).defects.getLsbD (Defect.ix k) = false) (ht : (s.port p.val).told.getLsbD (Defect.ix k) = false) :
    let d := (s.port p.val).defects ||| BitVec.ofNat 8 (2 ^ Defect.ix k)
    let c := 0x800 + 4 * defBit (Defect.ix k)
    Completes (.defectSet p k) s fun t =>
      (t.port p.val).defects = d ∧ (t.port p.val).shown = unmasked d ∧
      (t.portSf p.val = true → (t.port p.val).inStep = [] ∧ (t.port p.val).asm = SMap.keep (fun k _ => k = 16) (s.port p.val).asm ∧
        (t.port p.val).secSf = true) ∧
      (s.pageOff (pgLINE p.val) = false → (unmasked d).getLsbD (Defect.ix k) = true →
        t.cnt (pgLINE p.val) c = min (s.cnt (pgLINE p.val) c + 1) (cntMax (pgLINE p.val) c) ∧
        bit (t.hdr (pgLINE p.val)).intStat (defBit (Defect.ix k)) = true) ∧
      ((unmasked d).getLsbD (Defect.ix k) = false → t.cnt (pgLINE p.val) c = s.cnt (pgLINE p.val) c) ∧
      OnlyIn [.line, .opt, .host, .mgmt, .pages, .cnts] s t := by
  intro d c
  have hexec : exec (.defectSet p k) s = .next (setDefects p.val d s) := congrArg Host.Outcome.next (if_neg (by simp [hen, hd]))
  obtain ⟨hdef, hshown⟩ := setDefects_port p.isLt d s
  refine ⟨_, hexec, hdef, hshown, setDefects_cutOff p.isLt, fun hp hu => ?counted, fun hu => ?masked, (setDefects_k ..).only⟩
  case counted => exact setDefects_of_untold hp (LinePort.mem_untold.2 ⟨(Defect.ix_lt k), hu, ht⟩)
  case masked => exact setDefects_cnt_of_not_untold (Defect.ix_lt k) fun h => by simp [(LinePort.mem_untold.1 h).2.1] at hu

theorem holdEnd_ports {α : Type} {f : LinePort → α} (hstby : ∀ l x, f { l with stby := x } = f l)
    (hhold : ∀ l, f { l with holdTx := false, inHold := false, holdMs := 0 } = f l) (p : Nat) (s : State) : SamePorts f s (holdEnd p s) := by
  unfold holdEnd
  dsimp only
  split
  · exact ((SamePorts.of_updPort hhold p s).trans (holdRelease_ports f p _)).trans (selEvalAll_ports hstby _)
  · exact .refl s

/-- A defect has cleared: the port's holds that waited for it end, and the selectors follow. -/
def defectCleared (p i : Nat) (d : BitVec 8) (s : State) : State :=
  selEvalAll (holdRelease p (holdEnd p (if i = 4 then timCleared p (setDefects p d s) else setDefects p d s)))

theorem defectCleared_port {p : Nat} (hp : p < 2) (i : Nat) (d : BitVec 8) (s : State) :
    ((defectCleared p i d s).port p).defects = d ∧ ((defectCleared p i d s).port p).shown = unmasked d := by
  let f (l : LinePort) := (l.defects, l.shown)
  have htim : SamePorts f (setDefects p d s) (if i = 4 then timCleared p (setDefects p d s) else setDefects p d s) :=
    iteInduction (fun _ => (timCleared_k ..).samePorts (by decide)) fun _ => .refl _
  have hall : SamePorts f (setDefects p d s) (defectCleared p i d s) :=
    ((htim.trans (holdEnd_ports (fun _ _ => rfl) (fun _ => rfl) p _)).trans (holdRelease_ports f p _)).trans
      (selEvalAll_ports (fun _ _ => rfl) _)
  obtain ⟨hdef, hshown⟩ := setDefects_port hp d s
  have hset : f ((setDefects p d s).port p) = (d, unmasked d) := by simp only [f, hdef, hshown]
  exact Prod.ext_iff.1 ((hall.eq p).trans hset)

theorem defectCleared_k (p i : Nat) (d : BitVec 8) (s : State) :
    KeepsIn [.line, .opt, .host, .mgmt, .pages, .cnts] s (defectCleared p i d s) := by
  have hset := setDefects_k p d s
  exact (((KeepsIn.ite (hset.step (timCleared_k ..) (by decide)) hset).step (holdEnd_k ..) (by decide)).step (holdRelease_k ..)
    (by decide)).step (selEvalAll_k _) (by decide)

theorem defectClear_line (p : Port) (k : Defect) (s : State) (hset : (s.port p.val).defects.getLsbD (Defect.ix k) = true) :
    let d := (s.port p.val).defects &&& ~~~ BitVec.ofNat 8 (2 ^ Defect.ix k)
    let s1 := setDefects p.val d s
    let s3 := selEvalAll (holdRelease p.val (holdEnd p.val (if Defect.ix k = 4 then timCleared p.val s1 else s1)))
    let s4 := if (s.port p.val).shown.getLsbD (Defect.ix k) then defectResend p.val s3 else s3
    Completes (.defectClear p k) s fun t =>
      (s3.port p.val).defects = d ∧ (s3.port p.val).shown = unmasked d ∧
      (∀ j : Fin 8, (unmasked d).getLsbD j = true → (s.port p.val).told.getLsbD j = false → s.pageOff (pgLINE p.val) = false →
        s1.cnt (pgLINE p.val) (0x800 + 4 * defBit j) =
          min (s.cnt (pgLINE p.val) (0x800 + 4 * defBit j) + 1) (cntMax (pgLINE p.val) (0x800 + 4 * defBit j))) ∧
      (s.portSf p.val = false ∨ s4.portSf p.val = true → t = s4) ∧
      (s.portSf p.val = true → s4.portSf p.val = false → t = sfCleared s4.portSf p.val s4) ∧
      OnlyIn [.sch, .vat, .eng, .gc, .sheet, .ring, .outer, .fab, .line, .opt, .ciph, .host, .pool, .mem, .mgmt, .pages, .cnts] s t := by
  intro d s1 s3 s4
  have hexec : exec (.defectClear p k) s =
      .next (if s.portSf p.val && !s4.portSf p.val then sfCleared s4.portSf p.val s4 else s4) :=
    congrArg Host.Outcome.next (if_pos hset)
  obtain ⟨hdef, hshown⟩ := defectCleared_port p.isLt (Defect.ix k) d s
  have hs3 : KeepsIn [.sch, .vat, .eng, .gc, .sheet, .ring, .outer, .fab, .line, .opt, .ciph, .host, .pool, .mem, .mgmt, .pages, .cnts]
      s s3 := (defectCleared_k p.val (Defect.ix k) d s).mono (by decide)
  have hs4 := KeepsIn.ite (c := (s.port p.val).shown.getLsbD (Defect.ix k) = true) (hs3.step (defectResend_k p.val s3) (by decide)) hs3
  refine ⟨_, hexec, hdef, hshown, fun j hu ht hp => ?counted, fun h => if_neg ?still, fun h h' => if_pos ?ended,
    (KeepsIn.ite (hs4.step (sfCleared_k ..) (by decide)) hs4).only⟩
  case counted => exact (setDefects_of_untold hp (LinePort.mem_untold.2 ⟨j.isLt, hu, ht⟩)).1
  case still => rcases h with h | h <;> simp [h]
  case ended => simp [h, h']

theorem defectClear_lights_line (p : Port) (s : State) (hs : s.mgmt.sstate = 2) (hen : s.lineEn p.val = false)
    (ho : (s.port p.val).oos = false) (hd : (s.port p.val).defects.getLsbD 0 = false) :
    Completes (.defectClear p .los) s fun t =>
      t = lineEnable p.val true (s.setReg (pgLINE p.val) 0x100 (setBit (s.lineCtl p.val) 31 true)) ∧ t.lineEn p.val = true :=
  ⟨_, exec_defectClear_light hs hen ho hd, rfl, by simp⟩

end Sys2Proof.Machine
end

section
/-! PROOF. PM_SECOND and PM_BIN_CLOSE (R280, R281), and the line ports' obligation. -/
namespace Sys2Proof.Machine

open Sys2Proof

/-! ## The other port -/

/-- A change of one port leaves the other. -/
theorem updPort_other (p : Port) (f : LinePort → LinePort) (s : State) : (updPort p.val f s).port (1 - p.val) = s.port (1 - p.val) := by
  have hp := p.isLt
  rw [updPort_at _ _ _ _ (by omega), if_neg (by omega)]

/-! ## A second (R280) -/

/-- With no earlier second to move, the past bins stay. -/
theorem binAdd_nil (cur : PmBin) (past : List PmBin) (n : Nat) : binAdd cur past n [] = (cur, past) := by
  cases past <;> simp [binAdd]

section Second

variable {l : LinePort} {es ses : Bool} {bbe : Nat}

/-- An available second that does not complete ten severely errored ones. -/
theorem secClass_available (hu : l.unavail = false) (hs : ses = false ∨ l.sesRun + 1 < 10) :
    secClass l es ses bbe =
      (((b2n es, b2n ses, 0, if ses then 0 else (bbe : Int)) : SecAdd), [], { l with sesRun := if ses then l.sesRun + 1 else 0 }) := by
  cases ses with
  | false => simp [secClass, hu]
  | true => simp [secClass, hu, hs.resolve_left (by simp)]

/-- The tenth severely errored second makes the port unavailable. -/
theorem secClass_fails (hu : l.unavail = false) (hs : 10 ≤ l.sesRun + 1) :
    (secClass l es true bbe).2.2 = { l with sesRun := 0, okRun := [], unavail := true } := by
  simp [secClass, hu, Nat.not_lt.2 hs]

/-- A severely errored second of an unavailable port starts the count to its return afresh. -/
theorem secClass_unavailable (hu : l.unavail = true) : (secClass l es true bbe).2.2 = { l with okRun := [] } := by
  simp [secClass, hu]

/-- The tenth second without severe errors makes the port available. -/
theorem secClass_returns (hu : l.unavail = true) (hok : 10 ≤ l.okRun.length + 1) :
    (secClass l es false bbe).2.2 = { l with okRun := [], unavail := false } := by
  simp [secClass, hu, Nat.not_lt.2 hok]

end Second

/-- A port after a second: `r` is the second's class, `sf` its SF at the end and `exc` LITE's excess dispersion. -/
def LinePort.afterSec (l : LinePort) (g : Gauges) (sf exc : Bool) (r : SecAdd × List SecAdd × LinePort) : LinePort :=
  let a := binAdd (l.bin15.addSec r.1) l.past15 l.bin15.n r.2.1
  let b := binAdd (l.bin24.addSec r.1) l.past24 l.bin24.n r.2.1
  { r.2.2 with
    secErr := 0, secSf := sf
    bin15 := a.1.sample g, past15 := a.2, bin24 := b.1.sample g, past24 := b.2
    ber := g.ber, osnr := g.osnr, dgd := g.dgd, cd := g.cd, rxp := g.rxp, liteOver := exc }

/-- The event of a second leaves the ports. -/
theorem pmSecond_ports (p : Nat) (g : Gauges) (s : State) :
    let l := s.port p
    let sf := l.secSf || s.portSf p
    let exc := s.lineLite p && (g.cd > 1600 || g.cd < -1600)
    SamePorts id (updPort p (fun _ => l.afterSec g (s.portSf p) exc
      (secClass l (sf || l.secErr > 0) (sf || l.secErr ≥ 12000) l.secErr)) s) (pmSecond p g s) :=
  iteInduction (fun _ => (raiseEv_k ..).samePorts (by decide)) fun _ => .refl _

theorem pmSecond_line (p : Port) (g : Gauges) (s : State) (hen : s.lineEn p.val = true) :
    let l := s.port p.val
    let sf := l.secSf || s.portSf p.val
    let es := sf || decide (l.secErr > 0)
    let ses := sf || decide (l.secErr ≥ 12000)
    let d : SecAdd := (b2n es, b2n ses, 0, if ses then 0 else (l.secErr : Int))
    let exc := s.lineLite p.val && (g.cd > 1600 || g.cd < -1600)
    Completes (.pmSecond p g) s fun t =>
      (l.unavail = false → ses = false ∨ l.sesRun + 1 < 10 →
        t.port p.val = { l with
          sesRun := if ses then l.sesRun + 1 else 0, secErr := 0, secSf := s.portSf p.val
          bin15 := (l.bin15.addSec d).sample g, bin24 := (l.bin24.addSec d).sample g
          ber := g.ber, osnr := g.osnr, dgd := g.dgd, cd := g.cd, rxp := g.rxp, liteOver := exc }) ∧
      (l.unavail = false → ses = true → 10 ≤ l.sesRun + 1 → (t.port p.val).unavail = true ∧ (t.port p.val).sesRun = 0) ∧
      (l.unavail = true → ses = false → 10 ≤ l.okRun.length + 1 → (t.port p.val).unavail = false) ∧
      (l.unavail = true → ses = true → (t.port p.val).unavail = true ∧ (t.port p.val).okRun = []) ∧
      t.port (1 - p.val) = s.port (1 - p.val) ∧ OnlyIn [.line, .host, .mgmt, .pages, .cnts] s t := by
  intro l sf es ses d exc
  have hexec : exec (.pmSecond p g) s = .next (pmSecond p.val g s) := congrArg Host.Outcome.next (if_pos hen)
  have hports := pmSecond_ports p.val g s
  have hport : (pmSecond p.val g s).port p.val = l.afterSec g (s.portSf p.val) exc (secClass l es ses l.secErr) :=
    (hports.eq p.val).trans ((updPort_at _ _ _ _ p.isLt).trans (if_pos rfl))
  refine ⟨_, hexec, fun hu hs => ?available, fun hu hs hrun => ?fails, fun hu hs hrun => ?returns, fun hu hs => ?unavailable,
    (hports.eq _).trans (updPort_other ..), (pmSecond_k ..).only⟩
  case available =>
    rw [hport, secClass_available hu hs]
    simp only [LinePort.afterSec, binAdd_nil]
    rfl
  case fails =>
    rw [hport, hs]
    simp only [LinePort.afterSec, secClass_fails hu hrun, and_self]
  case returns =>
    rw [hport, hs]
    simp only [LinePort.afterSec, secClass_returns hu hrun]
  case unavailable =>
    rw [hport, hs]
    simp only [LinePort.afterSec, secClass_unavailable hu]
    exact ⟨hu, trivial⟩

/-! ## A bin closes (R281) -/

theorem pmBinClose_line (p : Port) (day : Bool) (s : State) : Completes (.pmBinClose p day) s fun t =>
    let l := s.port p.val
    let fresh : PmBin := { start := s.nowSec, valid := true }
    t.port p.val = (if day then { l with bin24 := fresh, past24 := [l.bin24.closed 86400] }
      else { l with bin15 := fresh, past15 := (l.bin15.closed 900 :: l.past15).take 32 }) ∧
    t.port (1 - p.val) = s.port (1 - p.val) ∧ OnlyIn [.line] s t :=
  ⟨_, rfl, (updPort_at _ _ _ _ p.isLt).trans (if_pos rfl), updPort_other .., (updPort_k ..).only⟩

/-! ## The obligation -/

/-- Settles O35: each instruction of a line port, from what it leaves of the port, the selector and the counters it acts on. -/
theorem lineCommands : Obligations.LineCommands := by
  unfold Obligations.LineCommands
  exact ⟨protMessage_line, routeTimeout_line, wtrExpiry_line, stbyHoldExpiry_line, frameReceive_line, frameTransmit_line,
    defectSet_line, defectClear_line, defectClear_lights_line, pmSecond_line, pmBinClose_line⟩

end Sys2Proof.Machine
end
